-- ==== Sys2Proof/Word.lean ====
section
/-! DEFINITION. The word types of the NXV-8192 (00 R4, 07 R122, 16 R272). -/

namespace Sys2Proof

/-- A scalar register, a control register or an address. -/
abbrev Word := BitVec 64
/-- One byte of memory. -/
abbrev Byte := BitVec 8
/-- A logical timestamp, 20 bits, compared modulo 2^20 (R272, R273). -/
abbrev Ts := BitVec 20
/-- A scalar register number x0 to x63 (R122). -/
abbrev XReg := BitVec 6
/-- A vector register number v0 to v31 (R122). -/
abbrev VReg := BitVec 5
/-- A mask register number m0 to m7 (R122). -/
abbrev MReg := BitVec 3
/-- A tile register number t0 to t7 (R122). -/
abbrev TReg := BitVec 3
/-- The PRED field of the header: bit 3 negates, bits [2:0] name a mask (R20). -/
abbrev Pred := BitVec 4
/-- The 48-bit immediate of F-form, sign-extended where used (R117). -/
abbrev Imm48 := BitVec 48
/-- A vector register's contents. -/
abbrev Vec := BitVec 1024
/-- A mask register's contents. -/
abbrev Mask := BitVec 128
/-- A device physical address; bit 51 set names host memory (R73, R345). -/
abbrev PAddr := BitVec 52

/-- Sign extension of an IMM48 (R117). -/
def sext48 (i : Imm48) : Word := i.signExtend 64

end Sys2Proof
end

