-- ==== Sys2Proof/Syntax.lean ====
section
/-! DEFINITION. The instructions of the NXV-8192 and the steps of the part: one constructor of `Instr` for every
row of spec/opcode_table.json. The first 187 are the slot instructions of the opcode map (R124); the others are
the part's own steps and what the outside does to it (spec/95). -/

namespace Sys2Proof

/-- The integer conditions of R123, in the order of their codes. -/
inductive ICond where
  | eq | ne | lt | ge | ltu | geu | gt | le | gtu | leu
  deriving DecidableEq, Repr

/-- The floating-point conditions of R123, in the order of their codes. -/
inductive FCond where
  | eq | ne | lt | le | gt | ge | un
  deriving DecidableEq, Repr

/-- The views of R164, in the order of their codes. -/
inductive View where
  | q | h | w | d | b
  deriving DecidableEq, Repr

/-- The rounding-mode codes of R94 that an instruction may carry. -/
inductive Rm where
  | rne | rtz | rdn | rup | rna | dyn
  deriving DecidableEq, Repr

/-- The scalar sizes of R196. -/
inductive Size where
  | q | h | w | d
  deriving DecidableEq, Repr

/-- The second source of `CMP`: a register, or the sign-extended immediate (R146). -/
inductive RegImm where
  | reg (b : XReg)
  | imm (i : Imm48)
  deriving DecidableEq, Repr

/-- The B operand of a vector instruction: a vector, or a broadcast scalar when XB = 1 (R166). -/
inductive VOp where
  | vec (b : VReg)
  | bcast (b : XReg)
  deriving DecidableEq, Repr

/-- The fields of a J-form target (R119). -/
structure Target where
  lineOff : BitVec 40
  slot : BitVec 3
  deriving DecidableEq, Repr

/-- The format fields of `FCVT` and `VFCVT` (R173). -/
structure CvtSpec where
  part : BitVec 3
  long : Bool
  uns : Bool
  dst : BitVec 5
  src : BitVec 5
  deriving DecidableEq, Repr

/-- The control registers of R399. -/
inductive CReg where
  | coreid | stage | world | asid | sstep | scyc | time | pts | roundm | fflags | allow | depthlim | lease
  | status | tvec | cause | fcause | faddr | epc | kvb | kvmap | kvcfg | mjw | lbtol
  deriving DecidableEq, Repr

/-- The fields of a tile register, in the order of their FIELD codes (R201). -/
inductive TileField where
  | addr | fmt | rows | cols | stride | scale
  deriving DecidableEq, Repr

/-- The value of `MTT`: a register, or the sign-extended immediate when I = 1 (R201). -/
abbrev TileSrc := RegImm

/-- The destination of a matrix job: a C tile, or a purse region with its element format and stride (R215, R216). -/
inductive MmaDst where
  | tile (c : TReg)
  | purse (c : XReg) (fp64 : Bool) (stride : BitVec 16)
  deriving DecidableEq, Repr

/-- The FILL values of `MMAT` (R221). -/
inductive Fill where
  | zero | ninf | pinf
  deriving DecidableEq, Repr

/-- The tile operations of R43, in the order of their codes from 0x01. -/
inductive Top where
  | add | sub | mul | mma | scale | convert | transpose | maxrow | sumrow
  deriving DecidableEq, Repr

/-- LOC of `SUSP`: an offset, or the register that holds it (R240). -/
inductive Loc where
  | off (o : BitVec 19)
  | reg (x : XReg)
  deriving DecidableEq, Repr

/-- A context of the part: its physical core and its number on that core (R61). -/
structure CtxId where
  core : BitVec 13
  ctx : BitVec 2
  deriving DecidableEq, Repr

/-- What a host write stores in a 64-byte host line: data, and one mask bit per byte. -/
structure HostWrite where
  data : BitVec 512
  mask : BitVec 64
  deriving DecidableEq, Repr

/-- The kinds of holder that an ageing sweep visits (R272, R282). -/
inductive Holder where
  | contexts | homes | copies | windows | purses | hostLines | completions
  deriving DecidableEq, Repr

/-- A level of the clearing tree that may report (R385): a core, a cluster or a die of the placement. -/
inductive ClearUnit where
  | core (logical : BitVec 13)
  | cluster (logical : BitVec 10)
  | die (d : BitVec 3)
  deriving DecidableEq, Repr

/-- The sensor readings of R404 to R407: power in W averaged over the last millisecond, inlet temperature in degrees, flow in
0.1 L/min, and the hottest junction of each die in degrees: the compute dies 0 to 7, then the bridge dies (log 59). -/
structure Sensors where
  power : BitVec 16
  inlet : BitVec 16
  flow : BitVec 16
  junction : Vector (BitVec 16) 10
  deriving DecidableEq, Repr

/-- What became of a flit or message at the peer (R338, R339). -/
inductive PeerVerdict where
  | performed | refused | lost
  deriving DecidableEq, Repr

/-- The instructions of the opcode map (R124) and the steps of the part. `p` is PRED. -/
inductive Instr where
  -- major 0x00 to 0x07: the scalar unit (R141 to R149)
  | nop (p : Pred)
  | add (p : Pred) (d a b : XReg)
  | sub (p : Pred) (d a b : XReg)
  | and (p : Pred) (d a b : XReg)
  | or (p : Pred) (d a b : XReg)
  | xor (p : Pred) (d a b : XReg)
  | andn (p : Pred) (d a b : XReg)
  | shl (p : Pred) (d a b : XReg)
  | shr (p : Pred) (d a b : XReg)
  | sha (p : Pred) (d a b : XReg)
  | rotl (p : Pred) (d a b : XReg)
  | min (p : Pred) (d a b : XReg)
  | max (p : Pred) (d a b : XReg)
  | minu (p : Pred) (d a b : XReg)
  | maxu (p : Pred) (d a b : XReg)
  | addi (p : Pred) (d a : XReg) (imm : Imm48)
  | subImm (p : Pred) (d a : XReg) (imm : Imm48)
  | andImm (p : Pred) (d a : XReg) (imm : Imm48)
  | orImm (p : Pred) (d a : XReg) (imm : Imm48)
  | xorImm (p : Pred) (d a : XReg) (imm : Imm48)
  | andnImm (p : Pred) (d a : XReg) (imm : Imm48)
  | shlImm (p : Pred) (d a : XReg) (n : BitVec 6)
  | shrImm (p : Pred) (d a : XReg) (n : BitVec 6)
  | shaImm (p : Pred) (d a : XReg) (n : BitVec 6)
  | rotlImm (p : Pred) (d a : XReg) (n : BitVec 6)
  | minImm (p : Pred) (d a : XReg) (imm : Imm48)
  | maxImm (p : Pred) (d a : XReg) (imm : Imm48)
  | minuImm (p : Pred) (d a : XReg) (imm : Imm48)
  | maxuImm (p : Pred) (d a : XReg) (imm : Imm48)
  | mul (p : Pred) (d a b : XReg)
  | mulh (p : Pred) (d a b : XReg)
  | mulhu (p : Pred) (d a b : XReg)
  | div (p : Pred) (d a b : XReg)
  | divu (p : Pred) (d a b : XReg)
  | rem (p : Pred) (d a b : XReg)
  | remu (p : Pred) (d a b : XReg)
  | clz (p : Pred) (d a : XReg)
  | ctz (p : Pred) (d a : XReg)
  | popc (p : Pred) (d a : XReg)
  | cmp (p : Pred) (cc : ICond) (d a : XReg) (b : RegImm)
  | sel (p : Pred) (d a b c : XReg)
  | movi (p : Pred) (d : XReg) (imm : Word)
  | lea (p : Pred) (d a b : XReg) (sh : BitVec 3) (imm : Imm48)
  | extr (p : Pred) (signed : Bool) (d a : XReg) (pos : BitVec 6) (len : BitVec 7)
  | insr (p : Pred) (d a : XReg) (pos : BitVec 6) (len : BitVec 7)
  -- control flow (R150 to R155), control registers (R156), rolls (R131, R134), work queue (R159), LAUNCH (R162)
  | br (p : Pred) (cc : ICond) (a b : XReg) (t : Target)
  | jmp (p : Pred) (t : Target)
  | call (p : Pred) (t : Target)
  | ret (p : Pred) (a : XReg)
  | jtab (p : Pred) (a b : XReg) (tag : BitVec 8) (n : BitVec 17)
  | callt (p : Pred) (a b : XReg) (tag : BitVec 8) (n : BitVec 17)
  | lpad (p : Pred) (tag : BitVec 8)
  | mfc (p : Pred) (d : XReg) (r : CReg)
  | mtc (p : Pred) (r : CReg) (a : XReg)
  | follow (p : Pred) (k : BitVec 3) (t : Target)
  | detach (p : Pred)
  | rejoin (p : Pred) (d a b c : XReg) (key : BitVec 16)
  | take (p : Pred) (d : XReg) (key : BitVec 16)
  | launch (p : Pred) (d a : XReg) (q : BitVec 6)
  -- scalar floating point (R168 to R173)
  | fadd (p : Pred) (f : View) (rm : Rm) (d a b : XReg)
  | fsub (p : Pred) (f : View) (rm : Rm) (d a b : XReg)
  | fmul (p : Pred) (f : View) (rm : Rm) (d a b : XReg)
  | ffma (p : Pred) (f : View) (rm : Rm) (d a b c : XReg)
  | fdiv (p : Pred) (f : View) (rm : Rm) (d a b : XReg)
  | fsqrt (p : Pred) (f : View) (rm : Rm) (d a : XReg)
  | fmin (p : Pred) (f : View) (d a b : XReg)
  | fmax (p : Pred) (f : View) (d a b : XReg)
  | fcmp (p : Pred) (cc : FCond) (f : View) (d a b : XReg)
  | fcvt (p : Pred) (rm : Rm) (c : CvtSpec) (d a : XReg)
  | fclass (p : Pred) (f : View) (d a : XReg)
  -- the vector unit (R174 to R185)
  | vadd (p : Pred) (v : View) (d a : VReg) (b : VOp)
  | vsub (p : Pred) (v : View) (d a : VReg) (b : VOp)
  | vmul (p : Pred) (v : View) (d a : VReg) (b : VOp)
  | vmulh (p : Pred) (v : View) (u : Bool) (d a : VReg) (b : VOp)
  | vmin (p : Pred) (v : View) (u : Bool) (d a : VReg) (b : VOp)
  | vmax (p : Pred) (v : View) (u : Bool) (d a : VReg) (b : VOp)
  | vand (p : Pred) (v : View) (d a : VReg) (b : VOp)
  | vor (p : Pred) (v : View) (d a : VReg) (b : VOp)
  | vxor (p : Pred) (v : View) (d a : VReg) (b : VOp)
  | vshl (p : Pred) (v : View) (d a : VReg) (b : VOp)
  | vshr (p : Pred) (v : View) (d a : VReg) (b : VOp)
  | vsha (p : Pred) (v : View) (d a : VReg) (b : VOp)
  | vcmp (p : Pred) (cc : ICond) (v : View) (d : MReg) (a : VReg) (b : VOp)
  | vfadd (p : Pred) (v : View) (rm : Rm) (d a : VReg) (b : VOp)
  | vfsub (p : Pred) (v : View) (rm : Rm) (d a : VReg) (b : VOp)
  | vfmul (p : Pred) (v : View) (rm : Rm) (d a : VReg) (b : VOp)
  | vffma (p : Pred) (v : View) (rm : Rm) (d a : VReg) (b : VOp) (c : VReg)
  | vfdiv (p : Pred) (v : View) (rm : Rm) (d a : VReg) (b : VOp)
  | vfsqrt (p : Pred) (v : View) (rm : Rm) (d a : VReg)
  | vfmin (p : Pred) (v : View) (d a : VReg) (b : VOp)
  | vfmax (p : Pred) (v : View) (d a : VReg) (b : VOp)
  | vexp2 (p : Pred) (d a : VReg)
  | vrecip (p : Pred) (d a : VReg)
  | vrsqrt (p : Pred) (d a : VReg)
  | vfcmp (p : Pred) (cc : FCond) (v : View) (d : MReg) (a : VReg) (b : VOp)
  | vfcvt (p : Pred) (rm : Rm) (c : CvtSpec) (d a : VReg)
  | vbcast (p : Pred) (v : View) (d : VReg) (a : XReg)
  | vextr (p : Pred) (v : View) (d : XReg) (a : VReg) (b : XReg)
  | vinsr (p : Pred) (v : View) (d : VReg) (a b : XReg)
  | vperm (p : Pred) (v : View) (d a b : VReg)
  | vslide (p : Pred) (v : View) (d a b : VReg) (k : BitVec 8)
  | vsortk (p : Pred) (d c a : VReg)
  | vsegadd (p : Pred) (v : View) (fl : Bool) (rm : Rm) (d a b : VReg)
  | vredi (p : Pred) (v : View) (u : Bool) (d : XReg) (a : VReg)
  | vredf (p : Pred) (v : View) (rm : Rm) (d : XReg) (a : VReg)
  | mand (p : Pred) (d a b : MReg)
  | mor (p : Pred) (d a b : MReg)
  | mxor (p : Pred) (d a b : MReg)
  | mnot (p : Pred) (d a : MReg)
  | mpopc (p : Pred) (v : View) (d : XReg) (a : MReg)
  | mfirst (p : Pred) (v : View) (d : XReg) (a : MReg)
  | mtox (p : Pred) (d : XReg) (a : MReg) (half : Bool)
  | xtom (p : Pred) (d : MReg) (a : XReg) (half : Bool)
  -- loads, stores and tiles (R196 to R208)
  | ld (p : Pred) (sx : Bool) (sz : Size) (d a b : XReg) (sh : BitVec 3) (imm : Imm48)
  | st (p : Pred) (sz : Size) (a b c : XReg) (sh : BitVec 3) (imm : Imm48)
  | ldv (p : Pred) (v : View) (d : VReg) (a : XReg) (imm : Imm48)
  | ldvs (p : Pred) (v : View) (d : VReg) (a b : XReg) (imm : Imm48)
  | ldg (p : Pred) (v : View) (u : Bool) (d : VReg) (a : XReg) (b : VReg) (sh : BitVec 3) (imm : Imm48)
  | stv (p : Pred) (v : View) (a : XReg) (c : VReg) (imm : Imm48)
  | stvs (p : Pred) (v : View) (a b : XReg) (c : VReg) (imm : Imm48)
  | sts (p : Pred) (v : View) (u : Bool) (a : XReg) (b c : VReg) (sh : BitVec 3) (imm : Imm48)
  | ldl (p : Pred) (d : VReg) (a : XReg) (b : Option VReg) (imm : Imm48)
  | stl (p : Pred) (a : XReg) (b : Option VReg) (c : VReg) (imm : Imm48)
  | mtt (p : Pred) (t : TReg) (f : TileField) (src : TileSrc)
  | mft (p : Pred) (d : XReg) (t : TReg) (f : TileField)
  | tld (p : Pred) (t : TReg) (a b : XReg) (imm : Imm48)
  | tst (p : Pred) (t : TReg) (a b : XReg) (imm : Imm48)
  | twait (p : Pred) (t : TReg)
  | tcons (p : Pred) (t : TReg)
  | pref (p : Pred) (l2 : Bool) (a : XReg) (n : BitVec 3) (imm : Imm48)
  -- the matrix engine and the copy unit (R214 to R233)
  | mma (p : Pred) (d : XReg) (a b : TReg) (dst : MmaDst) (acc tb : Bool)
  | mmat (p : Pred) (d : XReg) (a b : TReg) (dst : MmaDst) (acc tb : Bool) (diag : BitVec 8) (up : Bool) (fill : Fill)
  | mmab (p : Pred) (d : XReg) (a b c : TReg) (acc tb : Bool) (list : BitVec 15)
  | mmas (p : Pred) (d : XReg) (a b : TReg) (dst : MmaDst) (acc : Bool) (nnz : BitVec 13)
  | mjpoll (p : Pred) (d a : XReg)
  | mjwait (p : Pred) (a : XReg)
  | cpy (p : Pred) (d a b c : XReg) (peer : Option (Bool × BitVec 22))
  | cpy2 (p : Pred) (d a b c : XReg) (rows : BitVec 13) (rb : BitVec 16)
  | cpyg (p : Pred) (d a b c : XReg) (n : BitVec 13) (rb : BitVec 16) (stride : BitVec 27)
  | cpyc (p : Pred) (d a b c : XReg) (sfmt dfmt : BitVec 5) (rm : Rm)
  | cpya (p : Pred) (d a b c : XReg)
  -- handles (R239 to R252)
  | susp (p : Pred) (d : XReg) (op : Top) (a b : XReg) (cfmt : BitVec 5) (rm : Rm) (loc : Loc)
  | suspr (p : Pred) (d a b c : XReg) (ridx : BitVec 16)
  | mkval (p : Pred) (d : XReg) (t : TReg)
  | force (p : Pred) (a : XReg)
  | spark (p : Pred) (a : XReg)
  | result (p : Pred) (t : TReg)
  | dup (p : Pred) (a : XReg)
  | drop (p : Pred) (a : XReg)
  | hstat (p : Pred) (d a : XReg)
  | htile (p : Pred) (t : TReg) (a : XReg)
  -- purses (R264 to R267)
  | padd (p : Pred) (v : View) (a c : XReg) (imm : Imm48)
  | paddv (p : Pred) (v : View) (u : Bool) (a : XReg) (b c : VReg) (sh : BitVec 3) (imm : Imm48)
  | pfence (p : Pred)
  | pclr (p : Pred) (a : XReg) (imm : Imm48)
  | pset (p : Pred) (v : View) (a c : XReg) (imm : Imm48)
  | praw (p : Pred) (d : VReg) (a : XReg) (imm : Imm48)
  -- atomics (R300); dbl is .d
  | amoAdd (p : Pred) (dbl : Bool) (d a c : XReg) (imm : Imm48)
  | amoAnd (p : Pred) (dbl : Bool) (d a c : XReg) (imm : Imm48)
  | amoOr (p : Pred) (dbl : Bool) (d a c : XReg) (imm : Imm48)
  | amoXor (p : Pred) (dbl : Bool) (d a c : XReg) (imm : Imm48)
  | amoMin (p : Pred) (dbl : Bool) (d a c : XReg) (imm : Imm48)
  | amoMax (p : Pred) (dbl : Bool) (d a c : XReg) (imm : Imm48)
  | amoMinu (p : Pred) (dbl : Bool) (d a c : XReg) (imm : Imm48)
  | amoMaxu (p : Pred) (dbl : Bool) (d a c : XReg) (imm : Imm48)
  | amoSwap (p : Pred) (dbl : Bool) (d a c : XReg) (imm : Imm48)
  | amonrAdd (p : Pred) (dbl : Bool) (a c : XReg) (imm : Imm48)
  | amonrAnd (p : Pred) (dbl : Bool) (a c : XReg) (imm : Imm48)
  | amonrOr (p : Pred) (dbl : Bool) (a c : XReg) (imm : Imm48)
  | amonrXor (p : Pred) (dbl : Bool) (a c : XReg) (imm : Imm48)
  | amonrMin (p : Pred) (dbl : Bool) (a c : XReg) (imm : Imm48)
  | amonrMax (p : Pred) (dbl : Bool) (a c : XReg) (imm : Imm48)
  | amonrMinu (p : Pred) (dbl : Bool) (a c : XReg) (imm : Imm48)
  | amonrMaxu (p : Pred) (dbl : Bool) (a c : XReg) (imm : Imm48)
  | amonrSwap (p : Pred) (dbl : Bool) (a c : XReg) (imm : Imm48)
  | cas (p : Pred) (dbl : Bool) (d a b c : XReg) (imm : Imm48)
  -- fences, events, barriers and settlement (R304 to R324)
  | fenceSysAcq (p : Pred)
  | fenceSysRel (p : Pred)
  | fenceSysFull (p : Pred)
  | evld (p : Pred) (d a : XReg)
  | evtrig (p : Pred) (a : XReg)
  | evtrigConf (p : Pred) (a c : XReg)
  | evmsg (p : Pred) (a c : XReg)
  | evmsgPeer (p : Pred) (a c : XReg) (node : BitVec 22)
  | bar (p : Pred) (d : BitVec 4)
  | settle (p : Pred) (d : BitVec 4)
  | sdone (p : Pred)
  | send (p : Pred) (vec : Bool) (a : XReg) (buf : BitVec 4) (dcore : BitVec 13) (slot : BitVec 16)
  | recv (p : Pred) (vec : Bool) (d : XReg) (buf : BitVec 4) (slot : BitVec 16)
  -- key-value entries (R354 to R362)
  | confid (p : Pred) (v : View) (d : XReg) (a : VReg) (b c : XReg) (n : BitVec 12)
  | exitk (p : Pred) (d a b : XReg) (nl : BitVec 9)
  | kvapp (p : Pred) (d a : XReg) (b c : VReg)
  | kvappFill (p : Pred) (d a : XReg) (b c : VReg)
  | kvldWait (p : Pred) (t : TReg) (a b : XReg) (c : TReg) (n : BitVec 7)
  | kvldMask (p : Pred) (t : TReg) (a b : XReg) (c : TReg) (n : BitVec 7)
  | arwait (p : Pred) (a : XReg)
  -- traps and retirement (R370 to R372, R383, R344, R129)
  | trap (p : Pred) (code : BitVec 16)
  | eret (p : Pred)
  | replay (p : Pred) (d a : XReg)
  | csave (p : Pred) (d a b : XReg)
  | crest (p : Pred) (d a b : XReg)
  | halt (p : Pred)
  | haltRetain (p : Pred)
  | trace (p : Pred) (a b : XReg) (tag : BitVec 16)
  -- the schedulers and the clearing tree (R37, R47, R58 to R65, R316, R373 to R377, R385 to R390)
  | admission (q : BitVec 6)
  | placement (q : BitVec 6)
  | superstepStart (q : BitVec 6)
  | routineStart (c : CtxId)
  | clearingReport (q : BitVec 6) (u : ClearUnit)
  | superstepEnd (q : BitVec 6)
  | launchCompletion (q : BitVec 6)
  | preemptionTakesEffect (q : BitVec 6)
  | clusterRelease (q : BitVec 6)
  | launchResume (q : BitVec 6)
  | clusterClearing (cluster : BitVec 10)
  | teardownComplete (q : BitVec 6)
  -- internal completions
  | tlbInvalidationDone (secure : Bool)
  | lineRefetch (c : CtxId)
  | rollGroupArrival (c : CtxId)
  | followJoin (c : CtxId)
  | renewalReply (c : CtxId)
  | storeReply (c : CtxId)
  | l2WritebackDone (line : BitVec 45)
  | tldCopyDone (i : Nat)
  | jobStart (cluster : BitVec 10) (copy : Bool)
  | jobDone (cluster : BitVec 10) (copy : Bool) (queue : BitVec 4)
  | jobFault (cluster : BitVec 10) (copy : Bool) (queue : BitVec 4)
  | tellerOperation (cluster : BitVec 10)
  | evaluationComplete (cluster : BitVec 10) (slot : BitVec 11)
  | sparkStart (cluster : BitVec 10)
  | remoteDrop (i : Nat)
  | arrearsSpark (die : BitVec 3)
  | postedOperationApply (i : Nat)
  | purseAck (i : Nat)
  | episodeRelease (q : BitVec 6) (dom : BitVec 4)
  | sendArrival (i : Nat)
  | slenReached (q : BitVec 6)
  | faultRecordWrite (secure : Bool)
  | walkCompletion (i : Nat)
  | l1CopyDrop (cluster : BitVec 10) (line : BitVec 45)
  | supersededCopyDrop (pa : PAddr)
  | depositCacheWritebackDone (line : BitVec 45)
  | ageingSweep (h : Holder)
  -- register writes of the host and of secure firmware (R45 to R84, R100, R336, R342, R377)
  | qsub (q : BitVec 6) (v : Word)
  | barRegisterWrite (secure : Bool) (off : BitVec 24) (size : BitVec 8) (v : Word)
  | tickets (q : BitVec 6) (v : Word)
  | preempt (q : BitVec 6) (v : Word)
  | enable (q : BitVec 6) (v : Word)
  | cworldWrite (word : BitVec 4) (v : Word)
  | csworldWrite (die : BitVec 3) (v : Word)
  | tlbInvalidationRequest (secure : Bool) (v : Word)
  | replayRegisterWrite (secure : Bool) (v : Word)
  | frtail (secure : Bool) (v : Word)
  | assayRangeWrite (secure : Bool) (i : BitVec 4) (word : BitVec 3) (v : Word)
  | kill (secure : Bool) (v : Word)
  | hcsize (v : Word)
  | trtail (secure : Bool) (die : BitVec 3) (v : Word)
  -- the host over CXL.cache and CXL.mem (R286, R332 to R336, R346)
  | snpinv (pa : PAddr) (w : Option HostWrite) (keep : Bool)
  | snpdata (pa : PAddr)
  | snpcur (pa : PAddr)
  | goS (pa : PAddr) (exclusive : Bool)
  | writeEntryRelease (pa : PAddr)
  | hostCxlMemWrite (pa : PAddr) (bytes : List Byte)
  | hostCxlMemRead (pa : PAddr) (n : BitVec 8)
  | bisnpdataResponse (pa : PAddr) (data : Vec)
  | bisnpinvAck (pa : PAddr)
  -- peers, time, power (R231, R337 to R341, R406, R407)
  | peerWrite (src : BitVec 22) (pa : PAddr) (data : Vec)
  | peerEvmsgArrival (src : BitVec 22) (cluster : BitVec 10) (line : BitVec 6) (msg : Word)
  | fabricAck (i : Nat) (v : PeerVerdict) (data : Vec)
  | linkFailure (link : BitVec 5)
  | linkUp (link : BitVec 5)
  | ptpOffsetCorrection (offset : Word)
  | ptpLock (on : Bool)
  | throttling (r : Sensors)
  | throttlingEnd (r : Sensors)
  | thermalTrip (r : Sensors)
  -- management and reset (R401, R404), and the part's clock (R279, R282)
  | handleStoreDump (cluster : BitVec 10)
  | powerLimit (w : Option Word)
  | identity
  | sensors
  | errors
  | conventionalReset
  | ready
  | selfAdvance
  | floor
  -- the slot of ones (R129)
  | ill
  deriving DecidableEq, Repr

end Sys2Proof
end

