-- ==== Sys2Proof/Machine/Flags.lean ====
section
/-! DEFINITION. The number formats, their one rounding, the flags it sets, and the arithmetic and conversions over
exact values (R86 to R99, R106, R169 to R172, R179, R260, R263). -/

namespace Sys2Proof.Machine

/-- Which encodings of a format are special (R87). -/
inductive Specials where
  /-- Infinities and NaNs at exponent all ones. -/
  | ieee
  /-- One NaN of each sign at all ones, and no infinity (E4M3). -/
  | nanOnly
  /-- None. -/
  | none
  deriving DecidableEq, Repr

/-- A floating-point format (R87). -/
structure FpFmt where
  exp : Nat
  mant : Nat
  specials : Specials
  deriving DecidableEq, Repr

def fp64 : FpFmt := { exp := 11, mant := 52, specials := .ieee }
def fp32 : FpFmt := { exp := 8, mant := 23, specials := .ieee }
def fp16 : FpFmt := { exp := 5, mant := 10, specials := .ieee }
def bf16 : FpFmt := { exp := 8, mant := 7, specials := .ieee }

/-- A format code (R86): a floating-point format, an integer format of a width, C2, or reserved. -/
inductive Fmt where
  | float (f : FpFmt)
  | int (w : Nat)
  | c2
  | reserved
  deriving DecidableEq, Repr

/-- The format codes of R86. -/
def fmtOf (code : BitVec 5) : Fmt :=
  match code.toNat with
  | 0 => .float fp64
  | 1 => .float fp32
  | 2 => .float fp16
  | 3 => .float bf16
  | 4 => .float { exp := 4, mant := 3, specials := .nanOnly }
  | 5 => .float { exp := 5, mant := 2, specials := .ieee }
  | 6 => .float { exp := 3, mant := 2, specials := .none }
  | 7 => .float { exp := 2, mant := 3, specials := .none }
  | 8 => .float { exp := 2, mant := 1, specials := .none }
  | 9 => .int 8
  | 10 => .int 4
  | 11 => .int 32
  | 12 => .int 16
  | 16 => .c2
  | _ => .reserved

/-- The bias of a format (R87). -/
def FpFmt.bias (f : FpFmt) : Int := 2 ^ (f.exp - 1) - 1

/-- The width of a format in bits. -/
def FpFmt.width (f : FpFmt) : Nat := 1 + f.exp + f.mant

/-- The width of an element in bits (R86); 0 for C2 and reserved codes. -/
def Fmt.width : Fmt → Nat
  | .float f => f.width
  | .int w => w
  | _ => 0

/-- A format whose tiles may carry block scales (R86): 0x04 to 0x08. -/
def scalable (code : BitVec 5) : Bool := decide (4 ≤ code.toNat) && decide (code.toNat ≤ 8)

/-- The format of a view (R164). -/
def viewFmt : View → FpFmt
  | .h => fp16
  | .w => fp32
  | .d => fp64
  | .b => bf16
  | .q => fp16

/-- An exact value: NaN, an infinity, or (-1)^neg x m x 2^e. -/
inductive FV where
  | nan (signalling : Bool)
  | inf (neg : Bool)
  | fin (neg : Bool) (m : Nat) (e : Int)
  deriving DecidableEq, Repr

/-- The flags of R95: NV, DZ, OF, UF, NX from bit 4 down. -/
abbrev Flags := BitVec 5

def flagNV : Flags := 16
def flagDZ : Flags := 8
def flagOF : Flags := 4
def flagUF : Flags := 2
def flagNX : Flags := 1

/-- The rounding modes that R94 fixes. -/
inductive Mode where
  | rne | rtz | rdn | rup | rna
  deriving DecidableEq, Repr

/-- The mode of ROUNDM (R95); its reserved codes are never held. -/
def modeOf (c : BitVec 3) : Mode :=
  match c.toNat with
  | 1 => .rtz | 2 => .rdn | 3 => .rup | 4 => .rna | _ => .rne

/-- The mode an instruction field selects, with ROUNDM for DYN (R94, R167). -/
def resolveMode (rm : Rm) (roundm : BitVec 3) : Mode :=
  match rm with
  | .rne => .rne | .rtz => .rtz | .rdn => .rdn | .rup => .rup | .rna => .rna
  | .dyn => modeOf roundm

/-- The value of an encoding (R87, R88). -/
def FpFmt.decode (f : FpFmt) (bits : Nat) : FV :=
  let m := bits % 2 ^ f.mant
  let e := bits / 2 ^ f.mant % 2 ^ f.exp
  let neg := decide (bits / 2 ^ (f.mant + f.exp) % 2 = 1)
  let top := 2 ^ f.exp - 1
  if e = top ∧ f.specials = .ieee then
    if m = 0 then .inf neg
    else .nan (decide (f.mant ≥ 7) && decide (m < 2 ^ (f.mant - 1)))
  else if e = top ∧ f.specials = .nanOnly ∧ m = 2 ^ f.mant - 1 then .nan false
  else if e = 0 then .fin neg m (1 - f.bias - f.mant)
  else .fin neg (2 ^ f.mant + m) (e - f.bias - f.mant)

/-- The sign bit in place. -/
def FpFmt.signBit (f : FpFmt) (neg : Bool) : Nat := if neg then 2 ^ (f.exp + f.mant) else 0

/-- The canonical NaN (R89). A format without NaN has +0 in its place (R98). -/
def FpFmt.canonicalNan (f : FpFmt) : Nat :=
  match f.specials with
  | .ieee => (2 ^ f.exp - 1) * 2 ^ f.mant + 2 ^ (f.mant - 1)
  | .nanOnly => 2 ^ (f.exp + f.mant) - 1
  | .none => 0

/-- The encoding of the largest finite magnitude (R87). -/
def FpFmt.maxBits (f : FpFmt) : Nat :=
  match f.specials with
  | .ieee => (2 ^ f.exp - 1) * 2 ^ f.mant - 1
  | .nanOnly => 2 ^ (f.exp + f.mant) - 2
  | .none => 2 ^ (f.exp + f.mant) - 1

/-- What an infinity becomes (R98). -/
def FpFmt.infBits (f : FpFmt) (neg : Bool) : Nat × Flags :=
  match f.specials with
  | .ieee => (f.signBit neg + (2 ^ f.exp - 1) * 2 ^ f.mant, 0)
  | _ => (f.signBit neg + f.maxBits, flagOF ||| flagNX)

/-- What a result beyond the largest finite value becomes (R98). -/
def FpFmt.overflow (f : FpFmt) (mode : Mode) (neg : Bool) : Nat :=
  let toInf := f.specials == .ieee && match mode with
    | .rne | .rna => true
    | .rtz => false
    | .rup => !neg
    | .rdn => neg
  f.signBit neg + (if toInf then (2 ^ f.exp - 1) * 2 ^ f.mant else f.maxBits)

/-- The number of bits of a number. -/
def bitLen (m : Nat) : Nat := if m = 0 then 0 else m.log2 + 1

/-- A magnitude m (and a little more when `sticky`) cut by h bits and rounded to an integer (R94). -/
def roundCut (mode : Mode) (neg sticky : Bool) (m h : Nat) : Nat × Bool :=
  let n := m / 2 ^ h
  let r := m % 2 ^ h
  let half := if h = 0 then 0 else 2 ^ (h - 1)
  let inexact := r != 0 || sticky
  let above := decide (half < r) || (decide (half = r) && sticky && decide (h ≠ 0))
  let tie := decide (half = r) && !sticky && decide (h ≠ 0)
  let up := inexact && match mode with
    | .rne => above || (tie && n % 2 == 1)
    | .rna => above || tie
    | .rtz => false
    | .rup => !neg
    | .rdn => neg
  (if up then n + 1 else n, inexact)

/-- The magnitude (m + a part below 1 when `sticky`) x 2^e cut at the quantum 2^q and rounded. With `sticky` the caller
gives m at least two bits more than the destination holds. -/
def roundAt (mode : Mode) (neg sticky : Bool) (m : Nat) (e q : Int) : Nat × Bool :=
  if q ≤ e then (m * 2 ^ (e - q).toNat, sticky) else roundCut mode neg sticky m (q - e).toNat

/-- Rounding to a format (R96, R98): the encoding and the flags. -/
def FpFmt.roundFin (f : FpFmt) (mode : Mode) (neg : Bool) (m : Nat) (e : Int) (sticky : Bool) : Nat × Flags :=
  if m = 0 ∧ !sticky then (f.signBit neg, 0)
  else
    let emin : Int := 1 - f.bias
    let qmin : Int := emin - f.mant
    let lead : Int := bitLen m - 1 + e
    let qu : Int := lead - f.mant
    let q := max qu qmin
    let (n, inexact) := roundAt mode neg sticky m e q
    let bits := (q - qmin).toNat * 2 ^ f.mant + n
    let nx : Flags := if inexact then flagNX else 0
    if f.maxBits < bits then (f.overflow mode neg, flagOF ||| flagNX)
    else
      let (nu, _) := roundAt mode neg sticky m e qu
      let tiny := decide (qu < qmin) && (decide (qu + 1 < qmin) || decide (nu < 2 ^ (f.mant + 1)))
      (f.signBit neg + bits, if tiny && inexact then flagUF ||| nx else nx)

/-- Rounding of any exact value to a format, with what NaNs and infinities become (R89, R98). -/
def FpFmt.round (f : FpFmt) (mode : Mode) (v : FV) : Nat × Flags :=
  match v with
  | .nan sig => (f.canonicalNan, if sig || f.specials == .none then flagNV else 0)
  | .inf neg => f.infBits neg
  | .fin neg m e => f.roundFin mode neg m e false

/-! ## Exact arithmetic -/

def FV.isSig : FV → Bool
  | .nan sig => sig
  | _ => false

def FV.isNan : FV → Bool
  | .nan _ => true
  | _ => false

def FV.neg : FV → FV
  | .nan s => .nan s
  | .inf n => .inf (!n)
  | .fin n m e => .fin (!n) m e

/-- The signed integer m x 2^(e - e0), for e0 at most e. -/
def scaledInt (neg : Bool) (m : Nat) (e e0 : Int) : Int :=
  let k : Int := m * 2 ^ (e - e0).toNat
  if neg then -k else k

/-- a + b exactly; NaN for unlike infinities, with NV (R96); the sign of an exact zero by IEEE 754 (R169). -/
def FV.add (mode : Mode) (a b : FV) : FV × Flags :=
  match a, b with
  | .nan s, x => (.nan false, if s || x.isSig then flagNV else 0)
  | _, .nan s => (.nan false, if s then flagNV else 0)
  | .inf n, .inf n' => if n = n' then (.inf n, 0) else (.nan false, flagNV)
  | .inf n, _ => (.inf n, 0)
  | _, .inf n => (.inf n, 0)
  | .fin n m e, .fin n' m' e' =>
    if m = 0 ∧ m' = 0 then (.fin (if n = n' then n else mode == .rdn) 0 0, 0)
    else
      let e0 := min e e'
      let k := scaledInt n m e e0 + scaledInt n' m' e' e0
      (.fin (if k = 0 then mode == .rdn else decide (k < 0)) k.natAbs e0, 0)

/-- a x b exactly; NaN for 0 x infinity, with NV (R96). -/
def FV.mul (a b : FV) : FV × Flags :=
  match a, b with
  | .nan s, x => (.nan false, if s || x.isSig then flagNV else 0)
  | _, .nan s => (.nan false, if s then flagNV else 0)
  | .inf n, .inf n' => (.inf (n != n'), 0)
  | .inf n, .fin n' m' _ => if m' = 0 then (.nan false, flagNV) else (.inf (n != n'), 0)
  | .fin n m _, .inf n' => if m = 0 then (.nan false, flagNV) else (.inf (n != n'), 0)
  | .fin n m e, .fin n' m' e' => (.fin (n != n') (m * m') (e + e'), 0)

def fpAdd (f : FpFmt) (mode : Mode) (a b : FV) : Nat × Flags :=
  let (v, fl) := a.add mode b
  let (r, fl') := f.round mode v
  (r, fl ||| fl')

def fpSub (f : FpFmt) (mode : Mode) (a b : FV) : Nat × Flags := fpAdd f mode a b.neg

def fpMul (f : FpFmt) (mode : Mode) (a b : FV) : Nat × Flags :=
  let (v, fl) := a.mul b
  let (r, fl') := f.round mode v
  (r, fl ||| fl')

/-- a x b + c, rounded once; NV on 0 x infinity whatever c is (R169). -/
def fpFma (f : FpFmt) (mode : Mode) (a b c : FV) : Nat × Flags :=
  let (p, fl) := a.mul b
  let (v, fl') := p.add mode c
  let (r, fl'') := f.round mode v
  (r, fl ||| fl' ||| fl'')

/-- a / b (R96, R169). -/
def fpDiv (f : FpFmt) (mode : Mode) (a b : FV) : Nat × Flags :=
  match a, b with
  | .nan s, x => (f.canonicalNan, if s || x.isSig then flagNV else 0)
  | _, .nan s => (f.canonicalNan, if s then flagNV else 0)
  | .inf _, .inf _ => (f.canonicalNan, flagNV)
  | .inf n, .fin n' _ _ => f.infBits (n != n')
  | .fin n _ _, .inf n' => (f.signBit (n != n'), 0)
  | .fin n m e, .fin n' m' e' =>
    if m' = 0 then
      if m = 0 then (f.canonicalNan, flagNV)
      else ((f.infBits (n != n')).1, flagDZ)
    else
      let k := f.mant + 4 + bitLen m'
      let t := m * 2 ^ k
      f.roundFin mode (n != n') (t / m') (e - k - e') (t % m' != 0)

/-- The integer square root by its bits from the given one down: the greatest r with r^2 at most n that has no bit at or
above k. -/
def isqrtBits (n : Nat) : Nat → Nat → Nat
  | 0, r => r
  | k + 1, r =>
    let r' := r + 2 ^ k
    isqrtBits n k (if r' * r' ≤ n then r' else r)

/-- The integer square root. -/
def isqrt (n : Nat) : Nat := isqrtBits n (bitLen n / 2 + 1) 0

/-- The square root (R169); NV for a negative nonzero operand (R96). -/
def fpSqrt (f : FpFmt) (mode : Mode) (a : FV) : Nat × Flags :=
  match a with
  | .nan s => (f.canonicalNan, if s then flagNV else 0)
  | .inf n => if n then (f.canonicalNan, flagNV) else f.infBits false
  | .fin n m e =>
    if m = 0 then (f.signBit n, 0)
    else if n then (f.canonicalNan, flagNV)
    else
      let (m, e) := if e % 2 = 0 then (m, e) else (2 * m, e - 1)
      let k := f.mant + 4
      let t := m * 2 ^ (2 * k)
      let r := isqrt t
      f.roundFin mode false r (e / 2 - k) (r * r != t)

/-- Ordered comparison of two values that are not NaN: -0 equals +0. -/
def FV.lt (a b : FV) : Bool :=
  match a, b with
  | .inf n, .inf n' => n && !n'
  | .inf n, .fin _ _ _ => n
  | .fin _ _ _, .inf n => !n
  | .fin n m e, .fin n' m' e' => decide (scaledInt n m e (min e e') < scaledInt n' m' e' (min e e'))
  | _, _ => false

/-- The order of R170: -0 below +0. -/
def FV.ltZ (a b : FV) : Bool :=
  a.lt b || match a, b with
    | .fin true 0 _, .fin false 0 _ => true
    | _, _ => false

/-- FMIN and FMAX on encodings (R170). -/
def fpMinMax (f : FpFmt) (isMax : Bool) (a b : Nat) : Nat × Flags :=
  let x := f.decode a
  let y := f.decode b
  let fl := if x.isSig || y.isSig then flagNV else 0
  if x.isNan then (if y.isNan then f.canonicalNan else b, fl)
  else if y.isNan then (a, fl)
  else (if isMax then (if x.ltZ y then b else a) else (if y.ltZ x then b else a), fl)

/-- The floating-point conditions (R123) and their NV (R171). -/
def fpCompare (cc : FCond) (x y : FV) : Bool × Flags :=
  let un := x.isNan || y.isNan
  let sig := x.isSig || y.isSig
  let holds := match cc with
    | .eq => !un && !x.lt y && !y.lt x
    | .ne => un || x.lt y || y.lt x
    | .lt => !un && x.lt y
    | .le => !un && !y.lt x
    | .gt => !un && y.lt x
    | .ge => !un && !x.lt y
    | .un => un
  let nv := sig || (un && match cc with
    | .lt | .le | .gt | .ge => true
    | _ => false)
  (holds, if nv then flagNV else 0)

/-- FCLASS: the number of the one bit set (R172). -/
def fpClass (f : FpFmt) (bits : Nat) : Nat :=
  match f.decode bits with
  | .inf n => if n then 0 else 7
  | .nan sig => if sig then 8 else 9
  | .fin n m _ =>
    if m = 0 then (if n then 3 else 4)
    else if m < 2 ^ f.mant then (if n then 2 else 5)
    else if n then 1 else 6

/-! ## Special functions (R179) -/

/-- The greatest n below 2^10 that keeps the given bits and has n^(2^q) at most 2^(9 x 2^q + p): 2^9 x 2^(p / 2^q) from
below. -/
def exp2Bits (p q : Nat) : Nat → Nat → Nat
  | 0, n => n
  | k + 1, n =>
    let n' := n + 2 ^ k
    exp2Bits p q k (if n' ^ (2 ^ q) ≤ 2 ^ (9 * 2 ^ q + p) then n' else n)

/-- 2^a to BF16 (R179). Below 2^-10 in magnitude a moves 2^a by less than a quarter of the last place of 1. -/
def bfExp2 (a : FV) : Nat × Flags :=
  match a with
  | .nan s => (bf16.canonicalNan, if s then flagNV else 0)
  | .inf n => if n then (0, 0) else bf16.infBits false
  | .fin n m e =>
    if m = 0 then bf16.roundFin .rne false 1 0 false
    else
      let lead : Int := bitLen m - 1 + e
      if lead < -10 then ((bf16.roundFin .rne false 1 0 false).1, flagNX)
      else if 9 ≤ lead then bf16.roundFin .rne false 1 (if n then -512 else 512) false
      else if 0 ≤ e then bf16.roundFin .rne false 1 (scaledInt n m e 0) false
      else
        let q := (-e).toNat
        let t : Int := if n then -(m : Int) else m
        let i := t / 2 ^ q
        let p := (t % 2 ^ q).toNat
        if p = 0 then bf16.roundFin .rne false 1 i false
        else bf16.roundFin .rne false (2 * exp2Bits p q 9 (2 ^ 9)) (i - 10) true

/-- 1 / a to BF16 (R179). -/
def bfRecip (a : FV) : Nat × Flags := fpDiv bf16 .rne (.fin false 1 0) a

/-- 1 / sqrt a to BF16 (R179). -/
def bfRsqrt (a : FV) : Nat × Flags :=
  match a with
  | .nan s => (bf16.canonicalNan, if s then flagNV else 0)
  | .inf n => if n then (bf16.canonicalNan, flagNV) else (0, 0)
  | .fin n m e =>
    if m = 0 then ((bf16.infBits n).1, flagDZ)
    else if n then (bf16.canonicalNan, flagNV)
    else
      let (m, e) := if e % 2 = 0 then (m, e) else (2 * m, e - 1)
      let k := 16 + bitLen m
      let r := isqrt (2 ^ (2 * k) / m)
      bf16.roundFin .rne false r (-(e / 2) - k) (r * r * m != 2 ^ (2 * k))

/-! ## Conversions (R97 to R99) -/

/-- The low w bits of a number read as signed. -/
def signedOf (w n : Nat) : Int :=
  let n := n % 2 ^ w
  if 2 * n < 2 ^ w then (n : Int) else (n : Int) - 2 ^ w

/-- An integer in w bits. -/
def wrapInt (w : Nat) (k : Int) : Nat := (k % 2 ^ w).toNat

/-- An integer as an exact value. -/
def FV.ofInt (k : Int) : FV := .fin (decide (k < 0)) k.natAbs 0

/-- An exact value to an integer between lo and hi (R99). -/
def FV.toInt (v : FV) (mode : Mode) (lo hi : Int) : Int × Flags :=
  match v with
  | .nan _ => (0, flagNV)
  | .inf n => (if n then lo else hi, flagNV)
  | .fin n m e =>
    let (k, inexact) := roundAt mode n false m e 0
    let k : Int := if n then -k else k
    if k < lo then (lo, flagNV)
    else if hi < k then (hi, flagNV)
    else (k, if inexact then flagNX else 0)

/-- The integer bounds of a width (R90, R173). -/
def intBounds (w : Nat) (uns : Bool) : Int × Int :=
  if uns then (0, 2 ^ w - 1) else (-(2 ^ (w - 1)), 2 ^ (w - 1) - 1)

/-- The value of an element of a format: an integer is read signed, or unsigned. -/
def Fmt.decode (f : Fmt) (uns : Bool) (bits : Nat) : FV :=
  match f with
  | .float g => g.decode bits
  | .int w => .ofInt (if uns then (bits % 2 ^ w : Nat) else signedOf w bits)
  | _ => .fin false 0 0

/-- An exact value as an element of a format, in its width (R97 to R99). -/
def Fmt.encode (f : Fmt) (uns : Bool) (mode : Mode) (v : FV) : Nat × Flags :=
  match f with
  | .float g => g.round mode v
  | .int w =>
    let (lo, hi) := intBounds w uns
    let (k, fl) := v.toInt mode lo hi
    (wrapInt w k, fl)
  | _ => (0, 0)

/-- The legal codes of a conversion (R173): 0x00 to 0x0C. -/
def convertible (code : BitVec 5) : Bool := decide (code.toNat ≤ 12)

def Fmt.isInt : Fmt → Bool
  | .int _ => true
  | _ => false

/-- The combinations that `FCVT` and `VFCVT` reject with ILLOP (R173, step 3). -/
def cvtClash (c : CvtSpec) : Bool :=
  let d := (fmtOf c.dst).isInt
  let s := (fmtOf c.src).isInt
  (d && s) || ((c.uns || c.long) && !d && !s) ||
    (c.long && ((d && c.dst != 0x0B) || (s && c.src != 0x0B)))

/-- A side of a conversion: a 64-bit integer when L is set (R173). -/
def cvtSide (c : CvtSpec) (code : BitVec 5) : Fmt :=
  if c.long && (fmtOf code).isInt then .int 64 else fmtOf code

/-- One conversion of an element (R173). -/
def cvtApply (c : CvtSpec) (mode : Mode) (bits : Nat) : Nat × Flags :=
  (cvtSide c c.dst).encode c.uns mode ((cvtSide c c.src).decode c.uns bits)

/-! ## Block scales and exact sums (R92, R104) -/

/-- A value multiplied by a block scale byte (R92). -/
def FV.scaled (v : FV) (s : Nat) : FV :=
  if s = 255 then .nan false
  else match v with
    | .fin n m e => .fin n m (e + s - 127)
    | v => v

/-- An exact product's part in a group sum: NaN for 0 x infinity (R104). -/
def groupTerm (a b : FV) : FV := (a.mul b).1

/-- The exact sum of a group (R104): -0 only when every term is -0. -/
def groupSum : List FV → FV
  | [] => .fin false 0 0
  | [x] => x
  | x :: r => (x.add .rne (groupSum r)).1

/-! ## Purse addends and cells (R259, R260, R263) -/

/-- A purse cell: its four flags and its 124-bit accumulator. -/
structure Cell where
  nan : Bool
  nin : Bool
  pin : Bool
  aov : Bool
  acc : BitVec 124
  deriving DecidableEq, Repr

/-- The cell of 128 bits (R259). -/
def Cell.ofBits (n : Nat) : Cell :=
  { nan := n.testBit 127, nin := n.testBit 126, pin := n.testBit 125, aov := n.testBit 124, acc := BitVec.ofNat 124 n }

/-- The 128 bits of a cell (R259). -/
def Cell.bits (c : Cell) : Nat :=
  c.acc.toNat + (if c.aov then 2 ^ 124 else 0) + (if c.pin then 2 ^ 125 else 0) + (if c.nin then 2 ^ 126 else 0) +
    (if c.nan then 2 ^ 127 else 0)

/-- A cell of zeros (`PCLR`). -/
def Cell.zero : Cell := { nan := false, nin := false, pin := false, aov := false, acc := 0 }

/-- One addend applied to a cell with window exponent L (R260). -/
def Cell.addend (c : Cell) (l : Int) (v : FV) : Cell :=
  match v with
  | .nan _ => { c with nan := true }
  | .inf n => if n then { c with nin := true } else { c with pin := true }
  | .fin n m e =>
    if m ≠ 0 ∧ l + 119 ≤ bitLen m - 1 + e then { c with aov := true }
    else
      let (k, _) := roundAt .rne n false m e l
      { c with acc := c.acc + BitVec.ofInt 124 (if n then -(k : Int) else k) }

/-- Convert-on-read of a cell (R263). -/
def Cell.read (c : Cell) (f : FpFmt) (l : Int) : Nat × Flags :=
  let fa : Flags := if c.aov then flagOF else 0
  if c.nan || (c.pin && c.nin) then (f.canonicalNan, fa)
  else if c.pin then ((f.infBits false).1, fa)
  else if c.nin then ((f.infBits true).1, fa)
  else
    let x := c.acc.toInt
    if 2 ^ 119 ≤ x ∨ x < -(2 ^ 119) then
      ((f.infBits (decide (x < 0))).1, fa ||| flagOF ||| flagNX)
    else
      let (r, fl) := f.roundFin .rne (decide (x < 0)) x.natAbs l false
      (r, fa ||| fl)

/-! ## The reduction tree (R106) -/

/-- Two nodes of the tree combined: inactive ones are none. -/
def combine (f : FpFmt) (mode : Mode) (a b : Option Nat × Flags) : Option Nat × Flags :=
  match a.1, b.1 with
  | some x, some y =>
    let (r, fl) := fpAdd f mode (f.decode x) (f.decode y)
    (some r, a.2 ||| b.2 ||| fl)
  | some x, none => (some x, a.2 ||| b.2)
  | none, y => (y, a.2 ||| b.2)

/-- One level of the tree. -/
def treeLevel (f : FpFmt) (mode : Mode) : List (Option Nat × Flags) → List (Option Nat × Flags)
  | a :: b :: r => combine f mode a b :: treeLevel f mode r
  | l => l

/-- The tree over 2^k leaves. -/
def treeSum (f : FpFmt) (mode : Mode) : Nat → List (Option Nat × Flags) → Nat × Flags
  | 0, l =>
    match l.head? with
    | some (some x, fl) => (x, fl)
    | some (none, fl) => (0, fl)
    | none => (0, 0)
  | k + 1, l => treeSum f mode k (treeLevel f mode l)

end Sys2Proof.Machine
end

