-- ==== Sys2Proof/Config.lean ====
section
/-! DEFINITION. What the spec leaves to the part and does not fix: free values without a body, and the constants of
one manufactured part. -/

namespace Sys2Proof.Config

/-- Which of several enabled internal steps comes next, for the n-th such choice. Every order of internal steps is
allowed (latencies are nominal, R77, R139, R191, R225, R255, R271), so nothing is known of it (log 6). -/
opaque schedule : Nat → Nat

/-- Whether TIME advances by 2 and not by 1 in a given cycle (R341); free (log 7). -/
opaque timeByTwo : Nat → Bool

/-- The fuse revision that the Identity command returns (R404); free (log 8). -/
opaque fuseRevision : BitVec 64

/-- WHEAD of a dumped slot whose waiter list is not empty (R42): an index of the teller's waiter pool, whose use the
spec does not give; free (log 9). -/
opaque waiterHead : Nat → BitVec 12

/-- The hash of (destination node, unit address) that spreads units over the live links (R338), whose function the spec
does not give; free (log 14). -/
opaque linkHash : Nat → Nat → Nat

/-- REJID after the rejection of an entry whose record cannot be read, and so names no LAUNCHID (R32, R45); free
(log 15). -/
opaque unreadLaunchId : Nat → BitVec 32

/-- The bytes that lie in the private part of a saved cluster image (R375): a free value for each address and cycle (log 10). -/
opaque privateImageByte : Nat → BitVec 8

/-- What the part itself reads at an address beyond the end of HBM (R73), where a save area whose registers software set
so lies; free (log 46). -/
opaque absentByte : Nat → BitVec 8

/-- Whether the next group of a context is ready in a cycle (R137): when its operands and units are available is nominal
(R139), so nothing is known of it; free (log 6). -/
opaque groupReady : Nat → Nat → Bool

/-- The credits that a flit returns on its link (R337), for the n-th flit of the link; free (log 25). -/
opaque flitCredits : Nat → Nat → BitVec 8

/-- The CRC of a flit (R337) as a function of its other bytes, whose polynomial the spec does not give; free (log 25). -/
opaque flitCrc : Nat → BitVec 128

/-- What the part makes of the private part of a saved cluster image (R374, R375) whose bytes have been changed since it was
saved: word i, for the bytes as a number; free (log 10). -/
opaque privateImage : Nat → Nat → BitVec 64

/-- The cores of a cluster and the contexts of a core (R11). -/
abbrev coresPerCluster : Nat := 8
/-- The compute dies, and the clusters of each (R11). -/
abbrev dies : Nat := 8
/-- The clusters of a die (R11). -/
abbrev clustersPerDie : Nat := 128
/-- The bytes of one HBM stack, 48 GB (R11). -/
abbrev stackBytes : Nat := 48 * 2 ^ 30

end Sys2Proof.Config
end

