-- ==== Sys2Proof/Machine/State.lean ====
section
/-! DEFINITION. The state of the part: everything the spec gives it, as plain data, and the state after reset. -/

namespace Sys2Proof.Machine

/-- A map from numbers to values, as a list of entries with strictly rising keys. -/
abbrev SMap (α : Type) := List (Nat × α)

/-- Bytes by address, keys strictly rising and no entry equal to 0, which an unlisted address reads as (log 4). -/
abbrev Memory := List Host.Cell

/-- A code line, or one host line: 64 bytes. -/
abbrev Line64 := BitVec 512

/-- A write timestamp and a read timestamp (R272). -/
structure Stamp where
  wts : Ts
  rts : Ts
  deriving DecidableEq, Repr

/-- The causes of R365. -/
inductive Cause where
  | illop | linepar | badtgt | lpadmis | jtbound | page | perm | world | window | align | pstore | assayw | selfdep
  | hstale | fmtmix | engflt | slot | phase | domain | kvstate | trap | mce
  deriving DecidableEq, Repr

/-- A synchronous fault as its raising rule gives it (R368, R82). -/
structure Trap where
  cause : Cause
  faddr : Word := 0
  acc : BitVec 4 := 0
  detail : BitVec 4 := 0
  tcode : BitVec 16 := 0
  /-- It ended an evaluation, and is raised at an instruction that demands that (R246). -/
  demanded : Bool := false
  deriving DecidableEq, Repr

/-- The run states of R135. -/
inductive RunState where
  | free | running | waiting | faulted
  deriving DecidableEq, Repr

/-- A tile register (R200), or a result descriptor with an offset for its address (R42). -/
structure Tile where
  addr : Word := 0
  fmt : BitVec 5 := 0
  rows : BitVec 7 := 0
  cols : BitVec 8 := 0
  stride : BitVec 13 := 0
  scale : BitVec 12 := 0
  deriving DecidableEq, Repr

/-- The registers of a context that a group reads before it writes (R127, R135). -/
structure RegFile where
  x : Vector Word 64
  v : Vector Vec 32
  m : Vector Mask 8
  t : Vector Tile 8
  deriving DecidableEq, Repr

/-- How the next slot is entered (R114, R154). -/
inductive Entry where
  /-- Sequential entry, a handler's entry or a resumption: no TGT check. -/
  | plain
  /-- A control transfer from the program counter given (0 at a routine start). -/
  | transfer (src : Word)
  /-- A transfer by `JTAB` or `CALLT`, which requires an `LPAD` of the tag. -/
  | landing (src : Word) (tag : BitVec 8)
  deriving DecidableEq, Repr

/-- The kinds of barrier arrival (R313). -/
inductive ArrivalKind where
  | bar | settle | sdone
  deriving DecidableEq, Repr

/-- A group that a leader forwards: its program counter, its slots (one or two), and the leader's next program counter
(R130). -/
structure Group where
  pc : Word
  slots : List (BitVec 96)
  next : Word
  deriving DecidableEq, Repr

/-- The roll state of a context (R130, R131). -/
inductive Roll where
  | none
  /-- Waiting in `FOLLOW` since a cycle, for a group at `target` of a context of core `core`, with the contexts that
  were running there and have not ended that routine; the leader once it has issued the target, and the leader's next
  program counter once that leader has stopped. -/
  | waiting (core : BitVec 13) (target : Word) (since : Nat) (runners : List CtxId) (leader : Option CtxId)
      (ended : Option Word)
  /-- Following, with the queue of 16 groups, and the leader's next program counter once the leader has stopped. -/
  | following (leader : CtxId) (queue : List Group) (ended : Option Word)
  deriving DecidableEq, Repr

/-- What a WAITING context waits for (the MODEL's own field, log 3; log 26). -/
inductive Wait where
  | none
  /-- A reply, a walk or a fill. -/
  | access
  /-- The next FLOOR, for an access of an instruction that has issued (R282). -/
  | floor
  /-- The next FLOOR, for a self-advance or for the fetch of a group that has not issued (R282). -/
  | beforeIssue
  /-- Room: a job queue, an id, an event queue, the slot of an `MKVAL`, an arrears record, a host write entry. -/
  | room
  /-- The slot of a `SUSP` or `SUSPR` whose checks have been made, with its result tile; a strict one has done its work,
  with its completion time (R241, R242). -/
  | allot (res : Tile) (done : Option Ts)
  /-- The tags of a tile (R203). -/
  | tags
  /-- A job, the context's posted operations or its outstanding system-scope writes. -/
  | join
  /-- An event line, at which this context stands in the waiters (R308). -/
  | event (cluster : Nat) (line : BitVec 6)
  /-- A barrier episode of a domain, in which the context has arrived (R313). -/
  | barrier (domain : BitVec 4) (kind : ArrivalKind)
  /-- A settlement slot (R321). -/
  | slot
  /-- The teller: a demand of this context stands there (R246), with the handle of the slot that a strict `SUSPR` has
  taken (R242). -/
  | demand (taken : Option (BitVec 32))
  /-- The teller: the arguments of a strict `SUSP` or `SUSPR` are demanded, and the operation of a `SUSP` is performed
  (R241, R242), with its result tile. -/
  | work (res : Tile)
  /-- Markings of an `EXITK` still to be made: layer, HOME, RIDX and physical address of the page of each, with the number
  made so far (R356). -/
  | marking (left : List (Nat × Nat × BitVec 16 × Nat)) (made : Nat)
  /-- Room in the allocator's line for the coordinate of the page that a `KVAPP` has retired (R360). -/
  | allocator (msg : Word)
  /-- An `ARWAIT` that was issued in this cycle: a backfill that it demands at the teller, or an access (R362). -/
  | arrears (since : Nat) (demanded : Bool)
  /-- The second copy of the code line at an address, whose parity was bad (R110). -/
  | refetch (line : Word)
  /-- A `FOLLOW` (R131). -/
  | follow
  deriving DecidableEq, Repr

/-- A wait that has been satisfied, which the waiting instruction takes up when it goes on (the MODEL's own, log 3). -/
inductive Grant where
  | none
  /-- The value an `EVLD` receives and the time it joins (R308, R310). -/
  | event (value : Word) (time : Ts)
  /-- The release of the episode (R314). -/
  | released
  /-- A demand has ended: its time and the descriptor of the tile demanded, or the fault of the evaluation (R246, R252). -/
  | demanded (time : Ts) (tile : Tile) (fault : Option Trap)
  /-- The fault that the wait ends in, raised when the context issues again (R313, R331). -/
  | fault (t : Trap)
  deriving DecidableEq, Repr

/-- What a vector load that waits has loaded so far: the elements by number with their values, their flags, the pts after them,
and whether a reply carries it (R195, R197; the MODEL's own, log 19). -/
structure Gathered where
  values : List (Nat × Nat)
  flags : BitVec 5
  pts : Ts
  reply : Bool
  deriving DecidableEq, Repr

/-- How the last instruction ended (the MODEL's own, log 3). -/
inductive Ended where
  | done | waited | trapped
  deriving DecidableEq, Repr

/-- A unit of work that a context has forked: a unit of a copy job of a cluster's queue, or the copy of a `TLD` into a
cluster from an offset on (R206, R284). -/
inductive ForkUnit where
  | copy (cluster queue unit : Nat)
  | tile (cluster off : Nat)
  deriving DecidableEq, Repr

/-- Who waits for a host line: a context or a unit that it has forked, with the pts of the load that waits (R287). -/
structure Waiter where
  ctx : CtxId
  unit : Option ForkUnit
  pts : Ts
  deriving DecidableEq, Repr

/-- A 64-byte host line that answers one waiting load, at that load's own pts (R287). -/
structure HostAnswer where
  line : Nat
  data : Line64
  wts : Ts
  deriving DecidableEq, Repr

/-- The unbroken run of faults at one instruction (R331). -/
structure FaultRun where
  epc : Word
  cause : Cause
  faddr : Word
  count : BitVec 8
  deriving DecidableEq, Repr

/-- The 32-byte fault record (R82) as its four words. -/
structure FaultRecord where
  w0 : Word
  w1 : Word
  w2 : Word
  w3 : Word
  deriving DecidableEq, Repr

/-- The trap control registers (R366). -/
structure TrapRegs where
  intrap : Bool := false
  vec : BitVec 7 := 0
  tvec : Word := 0
  cause : Word := 0
  fcause : Word := 0
  faddr : Word := 0
  epc : Word := 0
  /-- An `MTC` or `CREST` has written EPC since the interruption that saved it (R114). -/
  epcWritten : Bool := false
  run : Option FaultRun := none
  /-- The context re-executes the instruction at EPC because it was resumed there (R331). -/
  resumed : Bool := false
  /-- The record attached to a FAULTED context (R378). -/
  record : Option FaultRecord := none
  deriving DecidableEq, Repr

/-- The settlement state of a context (R128, R318 to R320). -/
structure Settling where
  /-- The line buffer: line addresses and lines, at most 16. -/
  lines : List (Word × Line64) := []
  /-- The context is in a settlement phase. -/
  active : Bool := false
  coll : Bool := false
  /-- COUNT at the end of the phase, for the record of the core's resumption (R343). -/
  count : Nat := 0
  /-- Cycles from which registers are available: key 0 to 63 x, 64 to 95 v, 96 to 103 m. -/
  avail : SMap Nat := []
  /-- The first cycle at which the next group may issue. -/
  nextIssue : Nat := 0
  deriving DecidableEq, Repr

/-- A context (R135; log 3). -/
structure Context where
  run : RunState
  pc : Word
  regs : RegFile
  roundm : BitVec 3
  fflags : BitVec 5
  allow : BitVec 12
  depthlim : BitVec 7
  lease : BitVec 8
  pts : Ts
  trap : TrapRegs
  kvb : Word
  kvmap : Word
  kvcfg : Word
  /-- Unevaluated thunks that this context created lazily (R245). -/
  thunks : Nat
  /-- Posted purse operations not yet applied, and the greatest wts their acknowledgements returned (R267, R303). -/
  dout : Nat
  ackTime : Ts
  /-- Outstanding writes at system scope (R303). -/
  sout : Nat
  /-- Physical cluster and slot of the thunk that this context was borrowed for (R249). -/
  borrowed : Option (Nat × BitVec 11)
  entry : Entry
  line : Option (Word × Line64)
  settle : Settling
  roll : Roll
  /-- The group at the program counter has been forwarded and waits (R130). -/
  forwarded : Bool
  /-- Self-advances that wait for the next FLOOR (R282). -/
  advances : Nat
  /-- The timestamp of an access on its way back; true for a store's (R274, R277). -/
  reply : Option (Bool × Ts)
  wait : Wait
  grant : Grant
  hostAnswers : List HostAnswer
  /-- The elements that a vector load in progress has loaded (the MODEL's own, log 19). -/
  gathered : Option Gathered
  /-- Second copies of code lines whose first copy had bad parity, for the instruction that waits for them (R110). -/
  refetched : List (Word × Line64)
  /-- The registers as they stood before the pair whose second slot is still to issue (R127). -/
  latched : Option RegFile
  last : Ended
  deriving DecidableEq, Repr

/-- An entry of a TLB (R72, R76): the translation of one page of user addresses, of the size that its walk found (log
17). -/
structure Tlb where
  secure : Bool
  asid : BitVec 16
  vpn : BitVec 40
  size : BitVec 2
  type : BitVec 2
  world : Bool
  r : Bool
  w : Bool
  x : Bool
  pexp : BitVec 8
  ppn : BitVec 36
  deriving DecidableEq, Repr

/-- A core (R15, R76, R137, R211, R321, R384). -/
structure Core where
  /-- The context that issued last (R137). -/
  pointer : BitVec 2
  /-- The cycle in which the core last issued a group. -/
  issued : Option Nat
  itlb : List Tlb
  dtlb : List Tlb
  /-- The job sequence counter (R211). -/
  seq : BitVec 12
  /-- Status of recent job ids: sequence number to (status, cause, LINK, fault address, completion time). -/
  jobs : SMap (BitVec 2 × BitVec 8 × Bool × Word × Ts)
  /-- Receive-buffer entries (R321). -/
  rx : SMap Vec
  retained : Bool
  /-- Routines retired by `HALT` in this superstep (R385). -/
  halts : Nat
  /-- Entries of the routine list taken in this superstep (R37). -/
  taken : Nat
  /-- The core has issued a `SETTLE` in this superstep (R315). -/
  settled : Bool
  /-- The core has reported to its cluster in this superstep (R385). -/
  reported : Bool
  /-- The core has been exhausted in this superstep (R313). -/
  exhausted : Bool
  deriving DecidableEq, Repr

/-- A destination of a matrix job: a tile, or a purse region with the translations taken at submission (R223). -/
inductive JobDst where
  | tile (c : Tile)
  | purse (base : Word) (fp64 : Bool) (stride : BitVec 16) (pages : List Tlb)
  deriving DecidableEq, Repr

/-- What a job does (R215, R229). -/
inductive JobKind where
  | mma (a b : Tile) (dst : JobDst) (acc tb : Bool) (mask : Option (BitVec 8 × Bool × Fill))
  | mmab (a b c : Tile) (acc tb : Bool) (list : Nat)
  | mmas (a b : Tile) (dst : JobDst) (acc : Bool) (nnz : Nat)
  | copy (dst src : Word) (len : Nat)
  | peerCopy (dst src : Word) (len : Nat) (toPeer : Bool) (node : BitVec 22)
  | copy2 (dst src : Word) (dstride sstride : BitVec 32) (rows rb : Nat)
  | gather (dst src index : Word) (n rb stride : Nat)
  | convert (dst src : Word) (count : Nat) (sfmt dfmt : BitVec 5) (rm : Rm)
  | assay (dst src : Word) (len : Nat)
  deriving DecidableEq, Repr

/-- Whose evaluation a queue-8 job is: the thunk of a slot, or a strict `SUSP` of a context (R241, R246). -/
inductive Evaluates where
  | thunk (slot : BitVec 11)
  | strict (c : CtxId)
  deriving DecidableEq, Repr

/-- A job of the matrix engine or the copy unit (R210, R211, R226). -/
structure Job where
  id : BitVec 16
  owner : CtxId
  queue : BitVec 6
  fork : Ts
  lease : BitVec 8
  kind : JobKind
  /-- What a queue-8 job evaluates (R246). -/
  thunk : Option Evaluates
  /-- The greatest time of a write of the job performed so far. -/
  time : Ts
  /-- The numbers of the copy units performed or sent so far. -/
  units : List Nat
  /-- The batch list as an `MMAB` read it when it started: offsets of A, B and C, and no reserved bit set (R222). -/
  batch : Option (List (Nat × Nat × Nat × Bool))
  /-- A fault met at the peer: cause, LINK, address (R231, R338). -/
  failed : Option (BitVec 8 × Bool × Word)
  deriving DecidableEq, Repr

/-- An engine: its queues by number (head first), the pointer, how many jobs the pointed queue has started in its turn,
and the jobs in progress by queue (R210, R213). -/
structure Engine where
  queues : SMap (List Job)
  pointer : Nat
  started : Nat
  running : SMap Job
  deriving DecidableEq, Repr

/-- The states of a handle-store slot (R42). -/
inductive HState where
  | free | suspended | evaluating | value
  deriving DecidableEq, Repr

/-- A handle-store slot: the fields of R42 and what the rules of ch. 12 give it besides. -/
structure HSlot where
  state : HState := .free
  routine : Bool := false
  gen : BitVec 11 := 1
  refcnt : BitVec 16 := 0
  /-- The demanding context while EVALUATING; none for a spark without demander (R246). -/
  owner : Option CtxId := none
  depth : BitVec 7 := 0
  argA : BitVec 32 := 0
  argB : BitVec 32 := 0
  argC : BitVec 32 := 0
  top : Option Top := none
  ridx : BitVec 16 := 0
  tile : Tile := {}
  rm : Rm := .rne
  /-- Its creator, when it counts against an allowance (R245). -/
  creator : Option CtxId := none
  /-- The coordinate of a backfill thunk (R358). -/
  coord : Option Word := none
  /-- The completion time of its evaluation, or the pts of its `MKVAL` (R253). -/
  time : Ts := 0
  /-- A strict `SUSPR` waits for it: a faulted evaluation frees it (R242). -/
  strict : Bool := false
  /-- Its count has reached zero under evaluation: it is freed at the end of that, whatever is added later (R248). -/
  spent : Bool := false
  retired : Bool := false
  deriving DecidableEq, Repr

/-- One level of a demand: a handle, and how far its evaluation is. -/
inductive FrameState where
  /-- The teller has not looked at it yet. -/
  | open
  /-- This demand has marked it EVALUATING: its arguments are demanded, or it is ready to be evaluated. -/
  | marked
  /-- Another demand evaluates it. -/
  | waiting
  /-- A queue-8 job or a borrowed context evaluates it. -/
  | running
  /-- Its evaluation has ended: the completion time, or the fault. -/
  | ended (time : Ts) (fault : Option Trap)
  deriving DecidableEq, Repr

/-- A strict `SUSP` or `SUSPR` past its checks, as the teller has it (R241, R242). -/
structure Strict where
  cluster : Nat
  /-- The operation, its rounding mode and its result tile; none for a `SUSPR`. -/
  op : Option (Top × Rm × Tile)
  /-- The arguments still to be demanded, in order. -/
  left : List (BitVec 32)
  /-- The cluster and the descriptor of each argument that has reached VALUE. -/
  args : List (Nat × Tile)
  /-- Its queue-8 job has been submitted. -/
  submitted : Bool
  deriving DecidableEq, Repr

/-- A demand for a handle (R246): the handle demanded lies last. -/
structure Demand where
  /-- The demanding context; none for a spark. -/
  owner : Option CtxId
  /-- The cycle in which the demand was made. -/
  at_ : Nat
  queue : BitVec 6
  fork : Ts
  frames : List (BitVec 32 × FrameState)
  /-- The strict operation that demands its arguments; its frames are those of the argument demanded now. -/
  work : Option Strict := none
  deriving DecidableEq, Repr

/-- The modes of an event line (R308). -/
inductive EvMode where
  | flag | barrier | sem | mutex | msg
  deriving DecidableEq, Repr

/-- A context that waits in an `EVLD` (R308): the GEN it found, and whether its arrival stands in the VALUE of a BARRIER
line, from which R312 withdraws it (log 21). -/
structure LineWaiter where
  ctx : CtxId
  gen : BitVec 16
  counted : Bool
  deriving DecidableEq, Repr

/-- An event line (R305). -/
structure EventLine where
  mode : EvMode
  value : BitVec 16
  limit : BitVec 16
  gen : BitVec 16
  /-- Logical core number and context. -/
  owner : Option (BitVec 13 × BitVec 2)
  queue : List Word
  waiters : List LineWaiter
  /-- The greatest pts of the arrivals of the current generation, and of the last one completed (R310). -/
  arrivals : Ts
  completed : Ts
  stamp : Stamp
  deriving DecidableEq, Repr

/-- An entry of the work queue (R158) with the time of the `REJOIN` that deposited it (R285). -/
structure WorkEntry where
  start : BitVec 32
  count : BitVec 16
  key : BitVec 16
  time : Ts
  deriving DecidableEq, Repr

/-- A line held in an L1 (R274). -/
structure L1Line where
  data : Vec
  stamp : Stamp
  deriving DecidableEq, Repr

/-- The tags of one granule (R203), with the completion time that last set V (R285). -/
structure Tag where
  v : Bool
  c : Bool
  time : Ts
  deriving DecidableEq, Repr

/-- Banks kept for a successor (R390). -/
structure Retention where
  succ : BitVec 32
  asid : BitVec 16
  secure : Bool
  clusters : List Nat
  deriving DecidableEq, Repr

/-- A cluster (R15). -/
structure Cluster where
  /-- The queue whose launch is placed here (R64), with its logical number. -/
  placed : Option (BitVec 6 × Nat)
  /-- The LAUNCHID that the cluster is reserved for (R55). -/
  reserved : Option (BitVec 32)
  /-- The reservation is one that a pre-empted launch keeps while a placed launch depends on it, and not one that a placement
  made for a launch not yet placed (R55). -/
  lent : Bool
  retention : Option Retention
  /-- The cluster's world in force (R62). -/
  secure : Bool
  mjw : Word
  matrix : Engine
  copy : Engine
  slots : SMap HSlot
  /-- The spark queue: handles, with the pts and queue of the `SPARK` (R250). -/
  sparks : List (BitVec 32 × Ts × BitVec 6)
  lines : SMap EventLine
  work : List WorkEntry
  tlb : List Tlb
  l1 : SMap L1Line
  tags : SMap Tag
  /-- MTS of its home slice (R278). -/
  mts : Ts
  /-- The cluster has reported to its die in this superstep (R385). -/
  reported : Bool
  deriving DecidableEq, Repr

/-- A line that an L2 home slice holds (R408); `view` is the decoded data of an assay line (R101). -/
structure L2Line where
  line : Nat
  stamp : Stamp
  dirty : Bool
  view : Option Vec
  deriving DecidableEq, Repr

/-- A purse line that a deposit cache holds (R270). -/
structure DepositLine where
  line : Nat
  data : Vec
  stamp : Stamp
  dirty : Bool
  deriving DecidableEq, Repr

/-- The states of a host line (R335). -/
inductive HostState where
  | i | s | e | m
  deriving DecidableEq, Repr

/-- A host line held by a host line cache; its number is the host address divided by 64 (R335). -/
structure HostLine where
  line : Nat
  state : HostState
  data : Line64
  stamp : Stamp
  deriving DecidableEq, Repr

/-- Bytes stored to a host line and not yet acknowledged, with the contexts whose SOUT counts them (R288, R335). -/
structure WriteEntry where
  line : Nat
  data : Line64
  mask : BitVec 64
  stamp : Stamp
  owners : List CtxId
  deriving DecidableEq, Repr

/-- Old data of a host line that the host took away (R286). -/
structure Superseded where
  line : Nat
  data : Line64
  stamp : Stamp
  deriving DecidableEq, Repr

/-- A fill of a host line in flight (R287, R335): for ownership (RdOwn) or not, the waiting contexts, and whether the
host has taken the line away meanwhile. -/
structure HostFill where
  line : Nat
  own : Bool
  waiters : List Waiter
  taken : Bool
  deriving DecidableEq, Repr

/-- A back-invalidation that the host has not answered (R336): BISnpData, or BISnpInv counted in SOUT. -/
structure BackInval where
  line : Nat
  forData : Bool
  owners : List CtxId
  deriving DecidableEq, Repr

/-- What a posted purse operation does (R266). -/
inductive PurseOp where
  | add (v : View) (bits : Word)
  | clr
  | set (v : View) (bits : Word)
  deriving DecidableEq, Repr

/-- Who posted a purse operation: a context, or the running job of a queue of a cluster's matrix engine (R223). -/
inductive Poster where
  | context (c : CtxId)
  | job (cluster : Nat) (queue : Nat)
  deriving DecidableEq, Repr

/-- A posted operation not yet applied (R266), with the launch's queue and the pts it carries (R284). -/
structure Posted where
  poster : Poster
  queue : BitVec 6
  pa : PAddr
  pexp : BitVec 8
  op : PurseOp
  pts : Ts
  deriving DecidableEq, Repr

/-- An acknowledgement on its way back (R271). -/
structure Ack where
  poster : Poster
  queue : BitVec 6
  wts : Ts
  deriving DecidableEq, Repr

/-- A `TLD` copy that has forked (R206): where its rows come from, and where they go. -/
structure TileCopy where
  cluster : Nat
  tile : Tile
  base : Word
  stride : Word
  owner : CtxId
  queue : BitVec 6
  fork : Ts
  lease : BitVec 8
  /-- The translations taken when the `TLD` was checked. -/
  pages : List Tlb
  /-- The number of its 128-byte units that have been copied, rows ascending, and the pts after them (log 19). -/
  units : Nat
  time : Ts
  deriving DecidableEq, Repr

/-- A settlement send in flight (R322). -/
structure Send where
  queue : BitVec 6
  sender : CtxId
  dest : BitVec 13
  buf : BitVec 4
  data : Vec
  arrives : Nat
  /-- The links and channels it occupies: resource and cycle. -/
  occupies : List (Nat × Nat)
  deriving DecidableEq, Repr

/-- A page-table walk in progress (R74). -/
structure Walk where
  cluster : Nat
  ctx : CtxId
  secure : Bool
  asid : BitVec 16
  va : Word
  fetch : Bool
  /-- ACC and FADDR of a fault it may raise (R81). -/
  acc : BitVec 4
  faddr : Word
  deriving DecidableEq, Repr

/-- A flit or message that a peer has not acknowledged (R337 to R339). -/
structure Flit where
  node : BitVec 22
  link : Nat
  /-- The peer copy it belongs to (cluster, copy queue and job id), or none for an event message. -/
  job : Option (Nat × Nat × BitVec 16)
  sender : CtxId
  /-- Peer address, local address and length of the unit. -/
  peer : Nat
  local_ : Word
  len : Nat
  deriving DecidableEq, Repr

/-- A group on its way to a follower (R130). -/
structure Forward where
  leader : CtxId
  follower : CtxId
  group : Group
  issued : Nat
  deriving DecidableEq, Repr

/-- A remote `DROP` under way (R248). -/
structure RemoteDrop where
  handle : BitVec 32
  by_ : CtxId
  deriving DecidableEq, Repr

/-- An arrears record (R357): the entry's coordinate, the thunk's handle with a logical cluster, the logical cluster of
the context that executed the `EXITK`, the launch's queue, whether it has been sparked, and the time of its marking. -/
structure Arrear where
  coord : Word
  /-- The physical address of the entry's page. -/
  page : Nat
  handle : BitVec 32
  cluster : Nat
  queue : BitVec 6
  sparked : Bool
  time : Ts
  deriving DecidableEq, Repr

/-- An arrears record removed while an `ARWAIT` waits: its coordinate, the cycle and the time of its removal (R362). -/
structure Removal where
  coord : Word
  at_ : Nat
  time : Ts
  deriving DecidableEq, Repr

/-- A waiting entry of a launch queue: a physical address, or a virtual one with the ASID and pts of `LAUNCH`, and with the
context, the destination register and the cycle of that `LAUNCH` (R46). -/
structure QueueEntry where
  addr : Word
  virt : Option (BitVec 16 × Ts)
  by_ : Option (CtxId × XReg × Nat)
  deriving DecidableEq, Repr

/-- One superstep as admission read it (R35, R36): its domain, SETTLES, SLEN and the list of each core. -/
structure SuperstepPlan where
  domain : BitVec 4
  settles : Bool
  slen : Nat
  /-- Logical core to the list of (routine-table index, ARG). -/
  lists : SMap (List (BitVec 16 × BitVec 16))
  deriving DecidableEq, Repr

/-- A barrier domain (R39). -/
structure Domain where
  valid : Bool
  clusters : BitVec 1024
  cores : BitVec 8
  deriving DecidableEq, Repr

/-- One arrival: the logical core, the context (none for a faulted settlement member, R325), the kind and its pts. -/
structure Arrival where
  core : Nat
  ctx : Option CtxId
  kind : ArrivalKind
  pts : Ts
  deriving DecidableEq, Repr

/-- Barrier episodes of a domain: those not yet complete, the current one first, and those complete, with the cycle of
their release (R313, R314). -/
structure Episodes where
  waiting : List (List Arrival)
  completed : List (List Arrival × Nat)
  deriving DecidableEq, Repr

/-- Where an admitted launch stands. -/
inductive LaunchPhase where
  /-- Admitted and not yet placed (R52). -/
  | unplaced
  /-- Placed, between supersteps (R316). -/
  | boundary
  /-- In a superstep. -/
  | running
  /-- Stopped by a pre-emption, a hard one or not, inside a superstep or not, whose clusters are not yet released
  (R373). -/
  | saving (hard inStep : Bool)
  /-- Pre-empted (R65). -/
  | saved (hard : Bool)
  /-- Every superstep has ended (R386). -/
  | ended
  /-- The completion record has been written to a host line and waits for the host's acknowledgement (R387). -/
  | recorded (line : Nat)
  /-- Being torn down, with TDBUSY set (R377). -/
  | tearing
  /-- Torn down, with TDBUSY still set: the record has been written to a host line and waits for the host's
  acknowledgement (R377, R387). -/
  | torn (line : Nat)
  deriving DecidableEq, Repr

/-- A settlement phase (R318): its domain and the cycle of its release. -/
structure Phase where
  domain : BitVec 4
  release : Nat
  /-- The SDONE episode has completed (R324). -/
  ending : Bool
  deriving DecidableEq, Repr

/-- What the part keeps of a pre-empted launch beside the public save image: the contexts, cores and clusters by
logical number (R375: layout private to the part; log 11). -/
structure SavedImage where
  clusters : List Nat
  contexts : SMap Context
  cores : SMap Core
  parts : SMap Cluster
  /-- Timestamps of window granules, by the number that the granule has in the logical core or cluster. -/
  stamps : SMap Stamp
  /-- The pre-emption stopped the launch inside a superstep. -/
  inStep : Bool
  /-- The cycle of the save. -/
  at_ : Nat
  deriving DecidableEq, Repr

/-- What a decision has granted a launch that has not begun it yet (R51): since when, the clusters, whether retention gives
them, and what placing it there reserves for its producers (R55; log 38). -/
structure Start where
  since : Nat
  clusters : List Nat
  kept : Bool
  held : List (Nat × BitVec 32)
  deriving DecidableEq, Repr

/-- An admitted launch: what admission read (R30 to R40) and where it stands (log 39). -/
structure Launch where
  secure : Bool
  notify : Bool
  sealed_ : Bool
  stages : BitVec 8
  nclus : Nat
  param : Word
  pts0 : Ts
  lease : BitVec 8
  asid : BitVec 16
  /-- DONE, and the physical address that it was translated to at admission (R31). -/
  done : Word
  donePa : Nat
  launchid : BitVec 32
  succid : BitVec 32
  allow : BitVec 12
  depthlim : BitVec 7
  allocator : Option (BitVec 15)
  routines : List Word
  steps : List SuperstepPlan
  stageMap : List (BitVec 6)
  domains : List Domain
  /-- Unsatisfied producers, by LAUNCHID (R54). -/
  producers : List (BitVec 32)
  /-- Before placement the pts that `LAUNCH` or the producers completed so far give (R283, R285), afterwards the greatest
  pts at the end of the last superstep (R316). -/
  joinTime : Ts
  joins : Bool
  tadmit : Word
  order : Nat
  phase : LaunchPhase
  /-- Physical clusters in logical order; empty while not placed. -/
  clusters : List Nat
  /-- The next superstep of the plan to start; in a superstep, that superstep. -/
  step : Nat
  /-- The superstep that started last (R316, R317). -/
  sstep : Nat
  ended : Nat
  /-- The launch's contexts are supervisor contexts, as its placement found them (R157, R367; log 57). -/
  sup : Bool
  /-- The greatest completion time of what the launch has forked and ended so far (R57). -/
  forked : Ts
  start : Option Start
  faults : BitVec 32
  halts : Word
  episodes : SMap Episodes
  settlement : Option Phase
  diesReported : BitVec 8
  /-- A pending pre-emption request; true for a hard one (R58). -/
  preempt : Option Bool
  saved : Option SavedImage
  deriving DecidableEq, Repr

/-- A launch queue (R45, R47, R48). -/
structure Queue where
  entries : List QueueEntry
  tickets : BitVec 11
  pass : BitVec 32
  rejid : BitVec 32
  rejcode : BitVec 8
  ovf : Bool
  badw : Bool
  rej : Bool
  enable : Bool
  admitted : Option Launch
  deriving DecidableEq, Repr

/-- A trace ring of one die and one world (R342). -/
structure TraceRing where
  base : Word
  log2 : BitVec 5
  head : BitVec 20
  tail : BitVec 20
  lost : BitVec 16
  deriving DecidableEq, Repr

/-- A notification of a fault record that is still to be made (R83, R311): the record's SEQ and time, the host line whose
acknowledgement it follows, and the cluster and event line it goes by, or an MSI-X vector. -/
structure Notice where
  seq : Word
  time : Ts
  host : Option Nat
  line : Option (Nat × BitVec 6)
  deriving DecidableEq, Repr

/-- The registers of one world, in BAR0 or BAR2. -/
structure WorldRegs where
  /-- HPTBASE and HPTLOG2 (R71). -/
  hpt : Word
  iovf : Bool
  /-- The invalidation in progress (R78). -/
  inval : Option Word
  frbase : Word
  frlog2 : BitVec 4
  frhead : BitVec 16
  frtail : BitVec 16
  /-- SUPV, SCLUS and SLINE (R83). -/
  supv : Word
  seq : BitVec 32
  waiting : List FaultRecord
  notices : List Notice
  supvid : BitVec 32
  savebase : Word
  savelog2 : BitVec 5
  ccnt : BitVec 32
  closs : BitVec 32
  ceaddr : BitVec 52
  kvLo : Word
  kvHi : Word
  traces : SMap TraceRing
  deriving DecidableEq, Repr

/-- An assay-range entry as its five words (R100). -/
structure AssayRange where
  w0 : Word := 0
  vlast : Word := 0
  cbase : Word := 0
  sbase : Word := 0
  tbase : Word := 0
  deriving DecidableEq, Repr

/-- A region-table entry (R79). -/
structure RegionEntry where
  lo : Word := 0
  hi : Word := 0
  deriving DecidableEq, Repr

/-- A peer window (R340). -/
structure PeerWindow where
  lo : Word := 0
  hi : Word := 0
  src : Word := 0
  deriving DecidableEq, Repr

/-- A soft error that no access has consumed yet (R380, R381): the source of R382, the line or granule it lies in,
whether it can be corrected, and the payload bit plane when it is one of a key-value line (R364). -/
structure SoftError where
  source : BitVec 4
  key : Nat
  fatal : Bool
  plane : Option (BitVec 4)
  /-- The 32-bit word of the line, of a state, handle or scale line (R364). -/
  word : BitVec 5 := 0
  deriving DecidableEq, Repr

/-- An `MTC` to a register that a cluster or a die shares, whose value others see from the next cycle (R157): the
writer's number, and MJW of a cluster or LBTOL of a die. -/
structure SharedWrite where
  writer : Nat
  mjw : Bool
  unit : Nat
  value : Word
  deriving DecidableEq, Repr

/-- What a fabric flit is for (R337 to R339): a unit written, a unit asked for, an event message, or the answer to one of
these. -/
inductive FlitKind where
  | write | read | message
  | reply (v : PeerVerdict)
  deriving DecidableEq, Repr

/-- A 256-byte flit of the fabric (R337): its header, the target of bytes 16 to 23, the unit or message of bytes 24 to 151
with the number of its bytes, and the CRC; the bytes between are zero (log 25). -/
structure FabricFlit where
  dest : BitVec 22
  source : BitVec 22
  kind : FlitKind
  seq : BitVec 32
  credits : BitVec 8
  target : Word
  len : Nat
  data : Vec
  crc : BitVec 128
  deriving DecidableEq, Repr

/-- What leaves the part: MSI-X vectors, CXL messages, replies and flits (R333, R335 to R339, R404). -/
inductive Output where
  | msix (vector : BitVec 3)
  | rdShared (line : Nat)
  | rdOwn (line : Nat)
  | itoMWr (line : Nat)
  | wowrInv (line : Nat)
  | dirtyEvict (line : Nat) (data : Line64)
  | cleanEvict (line : Nat)
  | rspIFwdM (line : Nat) (data : Line64)
  | rspIHitSE (line : Nat)
  | rspIHitI (line : Nat)
  | rspSFwdM (line : Nat) (data : Line64)
  | rspSHitSE (line : Nat)
  | snpCurData (line : Nat) (data : Line64)
  | biSnpData (line : Nat)
  | biSnpInv (line : Nat)
  | memWriteDone (pa : PAddr)
  | memReadData (pa : PAddr) (bytes : List Byte) (poison : Bool)
  | flit (link : Nat) (f : FabricFlit)
  | identity (partno : BitVec 32) (encl : BitVec 1024) (enstk : BitVec 16) (revision : Word)
  | sensors (r : Sensors)
  | errors (normal secure : BitVec 32 × BitVec 32 × BitVec 52)
  | handleSlot (slot : Nat) (w0 w1 w2 w3 : Word)
  | powerLimit (w : BitVec 12)
  deriving DecidableEq, Repr

/-- One move of the part: a group of a context, a step of the part, the passing of one cycle, a unit of a copy, or a
soft error that strikes (the MODEL's own; what comes from outside is put into the agenda by a caller, log 6; log 1). -/
inductive Move where
  | issue (c : CtxId)
  | event (i : Instr)
  | tick
  /-- The copy unit of a cluster performs a 128-byte unit, by its number, of the job in progress of a queue (R213). -/
  | copyUnit (cluster : Nat) (queue : Nat) (unit : Nat)
  /-- The matrix engine of a cluster writes one element of the product in progress of a queue before the others (R298). -/
  | matrixUnit (cluster : Nat) (queue : Nat) (unit : Nat)
  | softError (e : SoftError)
  /-- A peer node reads bytes of this part (R338; log 25). -/
  | peerRead (src : BitVec 22) (pa : PAddr) (n : BitVec 8)
  /-- A peer node writes a part of a unit (R338; log 25). -/
  | peerWritePart (src : BitVec 22) (pa : PAddr) (n : BitVec 8) (data : Vec)
  /-- The next slot of a handle-store dump in progress is read (R404). -/
  | dumpSlot (k : Nat)
  /-- A thermal trip that the readings held call for (R407). -/
  | trip
  deriving DecidableEq, Repr

/-- The state of the part (log 1, 3). -/
structure State where
  contexts : SMap Context
  cores : SMap Core
  clusters : SMap Cluster
  queues : SMap Queue
  normal : WorldRegs
  secure : WorldRegs
  /-- HBM by physical address, host memory by host address, and the SRAM of the windows by their offset from the
  window base (R68, R73, R345). -/
  hbm : Memory
  host : Memory
  coreMem : Memory
  clusterMem : Memory
  chipMem : Memory
  /-- Timestamps of window granules: (space x 2^40 + granule); an absent granule stands at `stampBase` (R272, R283). -/
  stamps : SMap Stamp
  stampBase : Ts
  l2 : List L2Line
  l2Writebacks : List Nat
  deposit : List DepositLine
  /-- MTS of each stack's deposit cache (R278); an absent stack stands at `stampBase`. -/
  depositMts : SMap Ts
  depositWritebacks : List Nat
  hostLines : List HostLine
  writeEntries : List WriteEntry
  superseded : List Superseded
  hostFills : List HostFill
  /-- Answers to loads of forked units that waited for a line taken away meanwhile, not yet used (R287). -/
  unitAnswers : List (ForkUnit × HostAnswer)
  /-- HMTS of bridge die 0 and 1 (R272). -/
  hmts0 : Ts
  hmts1 : Ts
  backInvals : List BackInval
  /-- Lines of the host-coherent region whose host-ownership bit is set (R336). -/
  hostOwned : List Nat
  posted : List Posted
  acks : List Ack
  tileCopies : List TileCopy
  sends : List Send
  walks : List Walk
  flits : List Flit
  forwards : List Forward
  remoteDrops : List RemoteDrop
  demands : List Demand
  arrears : List Arrear
  /-- The contexts whose `EXITK`s have reached an arrears engine, in the order of their arrival (R357). -/
  exits : List CtxId
  /-- The arrears records removed while an `ARWAIT` waits (R362). -/
  removals : List Removal
  encl : BitVec 1024
  enstk : BitVec 16
  ready : Bool
  /-- CWORLD as last written (R62); a cluster's world in force stands in the cluster. -/
  cworld : BitVec 1024
  csworld : Vector (BitVec 32) 8
  regions : Vector RegionEntry 32
  assay : Vector AssayRange 16
  peers : Vector PeerWindow 16
  lbtol : Vector (BitVec 3) 8
  sharedWrites : List SharedWrite
  hcsize : BitVec 7
  linkup : BitVec 32
  nodeid : BitVec 22
  pxlost : BitVec 32
  pxref : BitVec 32
  /-- The sequence number of the next flit of each link (R337). -/
  linkSeq : SMap (BitVec 32)
  time : Word
  /-- Nanoseconds that TIME is still to be slewed by; negative for backward (R341). -/
  slew : Int
  timeStepped : Bool
  ptpLocked : Bool
  plimit : BitVec 12
  tripped : Bool
  throttled : Bool
  thhist : Bool
  sensors : Sensors
  /-- The cycle since which every reading of the flow has been below 2.0 L/min (R407). -/
  flowLow : Option Nat
  /-- The compute dies have lost their power (R407). -/
  dark : Bool
  /-- Handle-store dumps in progress: the cluster and the next slot (R404). -/
  dumps : List (BitVec 10 × Nat)
  /-- Cycles since reset (R329), and the cycles of the last self-advance and the last FLOOR (R279, R282). -/
  clock : Nat
  advanced : Nat
  floored : Nat
  /-- The cycle of the last visit of each kind of holder, in the order of `Holder` (R282). -/
  swept : SMap Nat
  /-- The number of the context that acted last in this cycle (the MODEL's own, log 6): contexts act in ascending order of
  core and context number (R157, R161, R331, R343). -/
  front : Nat
  high : Ts
  floor : Ts
  softErrors : List SoftError
  admissions : Nat
  out : List Output
  agenda : List Move
  active : CtxId
  choices : Nat
  deriving DecidableEq, Repr

/-- Why the machine stops with a fault: for nothing, since the spec gives every step of the part an effect (what the
part does with its own rings and save areas beyond the end of HBM is log 46). -/
inductive Fault where
  deriving DecidableEq, Repr

/-- Why a step has no meaning. -/
inductive Refusal where
  /-- The instruction has no meaning in the model yet. Raised by no meaning; only an arm of `exec` answers it. Safe. -/
  | notModelled (mnemonic : String)
  deriving DecidableEq, Repr

/-- Registers that all hold zero. -/
def RegFile.zero : RegFile :=
  { x := Vector.replicate 64 0, v := Vector.replicate 32 0, m := Vector.replicate 8 0, t := Vector.replicate 8 {} }

/-- A context after reset: FREE, every register at the value that log 2 names. -/
def Context.reset : Context :=
  { run := .free, pc := 0, regs := .zero, roundm := 0, fflags := 0, allow := 0, depthlim := 0, lease := 0, pts := 0,
    trap := {}, kvb := 0, kvmap := 0, kvcfg := 0, thunks := 0, dout := 0, ackTime := 0, sout := 0, borrowed := none,
    entry := .plain, line := none, settle := {}, roll := .none, forwarded := false, advances := 0, reply := none, wait := .none, grant := .none,
    hostAnswers := [], gathered := none, refetched := [], latched := none, last := .done }

/-- A core after reset: the pointer stands as if context 3 had issued last (R137; log 2). -/
def Core.reset : Core :=
  { pointer := 3, issued := none, itlb := [], dtlb := [], seq := 0, jobs := [], rx := [], retained := false,
    halts := 0, taken := 0, settled := false, reported := false, exhausted := false }

/-- An engine with empty queues and its pointer at queue 0 (R213). -/
def Engine.reset : Engine := { queues := [], pointer := 0, started := 0, running := [] }

/-- Nine weights of 1 (R212). -/
def mjwReset : Word := 0x1_1111_1111

/-- A cluster after reset (log 2). -/
def Cluster.reset : Cluster :=
  { placed := none, reserved := none, lent := false, retention := none, secure := false, mjw := mjwReset, matrix := .reset,
    copy := .reset, slots := [], sparks := [], lines := [], work := [], tlb := [], l1 := [], tags := [], mts := 0,
    reported := false }

/-- A launch queue after reset (R45). -/
def Queue.reset : Queue :=
  { entries := [], tickets := 1, pass := 0, rejid := 0, rejcode := 0, ovf := false, badw := false, rej := false,
    enable := true, admitted := none }

/-- The registers of a world after reset: all 0 (R71, R78, R83, R367, R380, R403, R342). -/
def WorldRegs.reset : WorldRegs :=
  { hpt := 0, iovf := false, inval := none, frbase := 0, frlog2 := 0, frhead := 0, frtail := 0, supv := 0, seq := 0,
    waiting := [], notices := [], supvid := 0, savebase := 0, savelog2 := 0, ccnt := 0, closs := 0,
    ceaddr := 0, kvLo := 0, kvHi := 0, traces := [] }

/-- A trace ring after reset (R342). -/
def TraceRing.reset : TraceRing := { base := 0, log2 := 0, head := 0, tail := 0, lost := 0 }

/-- The part right after a conventional reset (R401): READY is 0, every SRAM, cache and store is empty, every register
is at its reset value, and nothing is listed in memory (log 2, 4, 5). -/
def State.reset : State :=
  { contexts := [], cores := [], clusters := [], queues := [], normal := .reset, secure := .reset, hbm := [],
    host := [], coreMem := [], clusterMem := [], chipMem := [], stamps := [], stampBase := 0, l2 := [],
    l2Writebacks := [], deposit := [], depositMts := [], depositWritebacks := [], hostLines := [], writeEntries := [],
    superseded := [], hostFills := [], unitAnswers := [], hmts0 := 0, hmts1 := 0, backInvals := [], hostOwned := [], posted := [],
    acks := [], tileCopies := [], sends := [], walks := [], flits := [], forwards := [], remoteDrops := [],
    demands := [], arrears := [], exits := [], removals := [], encl := BitVec.allOnes 1024, enstk := BitVec.allOnes 16, ready := false,
    cworld := 0, csworld := Vector.replicate 8 0, regions := Vector.replicate 32 {}, assay := Vector.replicate 16 {},
    peers := Vector.replicate 16 {}, lbtol := Vector.replicate 8 0, sharedWrites := [], hcsize := 0, linkup := 0, nodeid := 0,
    pxlost := 0, pxref := 0, linkSeq := [], time := 0, slew := 0, timeStepped := false, ptpLocked := false, plimit := 3200,
    tripped := false, throttled := false, thhist := false,
    sensors := { power := 0, inlet := 0, flow := 0, junction := Vector.replicate 10 0 }, flowLow := none, dark := false, dumps := [],
    clock := 0, advanced := 0, floored := 0, swept := [], front := 0,
    high := 0, floor := BitVec.ofInt 20 (-65536), softErrors := [], admissions := 0, out := [], agenda := [],
    active := { core := 0, ctx := 0 }, choices := 0 }

end Sys2Proof.Machine
end

