-- ==== Sys2Proof/Machine/Ops.lean ====
section
/-! DEFINITION. The named operations over the state: maps and memory, logical time, contexts and launches, event lines,
barriers, taking a fault and returning from one, and how an instruction ends. -/

namespace Sys2Proof.Machine

/-! ## Maps and memory -/

/-- The value at a key, or none. -/
def SMap.find {α : Type} : SMap α → Nat → Option α
  | [], _ => none
  | (j, v) :: r, k => if j = k then some v else SMap.find r k

/-- The value at a key, or a default. -/
def SMap.at {α : Type} (m : SMap α) (d : α) (k : Nat) : α := (SMap.find m k).getD d

/-- The map with one entry set. -/
def SMap.put {α : Type} : SMap α → Nat → α → SMap α
  | [], k, v => [(k, v)]
  | (j, w) :: r, k, v =>
    if k < j then (k, v) :: (j, w) :: r else if k = j then (k, v) :: r else (j, w) :: SMap.put r k v

/-- The map without a key. -/
def SMap.erase {α : Type} : SMap α → Nat → SMap α
  | [], _ => []
  | (j, w) :: r, k => if j = k then r else (j, w) :: SMap.erase r k

/-- Every entry changed by a function of its key and value. -/
def SMap.update {α : Type} (m : SMap α) (f : Nat → α → α) : SMap α := m.map fun e => (e.1, f e.1 e.2)

/-- The canonical form of memory: addresses strictly rising, and no entry equal to 0. -/
def Memory.wf : Memory → Bool
  | [] => true
  | [(_, b)] => b != 0
  | (a, b) :: (a', b') :: r => b != 0 && decide (a < a') && Memory.wf ((a', b') :: r)

/-- The byte at an address; 0 where nothing is listed (log 4). -/
def Memory.read (m : Memory) (a : Nat) : Byte := SMap.at m 0 a

/-- One byte written, keeping the canonical form. -/
def Memory.write (m : Memory) (a : Nat) (b : Byte) : Memory :=
  if b = 0 then SMap.erase m a else SMap.put m a b

/-- `n` bytes from an address as a little-endian number (R4). -/
def Memory.readN (m : Memory) (a : Nat) : Nat → Nat
  | 0 => 0
  | n + 1 => (m.read a).toNat + 256 * Memory.readN m (a + 1) n

/-- The low `n` bytes of a number written little-endian from an address (R4). -/
def Memory.writeN (m : Memory) (a : Nat) : Nat → Nat → Memory
  | 0, _ => m
  | n + 1, v => Memory.writeN (m.write a (BitVec.ofNat 8 v)) (a + 1) n (v / 256)

/-- Bytes written in ascending order from an address. -/
def Memory.writeBytes (m : Memory) (a : Nat) : List Byte → Memory
  | [] => m
  | b :: r => Memory.writeBytes (m.write a b) (a + 1) r

/-- The entries of a range, by their offset from its start. -/
def Memory.slice (m : Memory) (lo n : Nat) : Memory :=
  (m.filter fun c => decide (lo ≤ c.1 ∧ c.1 < lo + n)).map fun c => (c.1 - lo, c.2)

/-- Every byte of a range zeroed. -/
def Memory.clear (m : Memory) (lo n : Nat) : Memory :=
  m.filter fun c => !decide (lo ≤ c.1 ∧ c.1 < lo + n)

/-- A range replaced by the bytes of a slice. -/
def Memory.paste (m : Memory) (lo n : Nat) (sl : Memory) : Memory :=
  sl.foldl (fun m c => m.write (lo + c.1) c.2) (m.clear lo n)

/-- A list without repeats: of equal elements the last stays. -/
def distinct {α : Type} [BEq α] : List α → List α
  | [] => []
  | a :: r => if r.contains a then distinct r else a :: distinct r

/-- An element put into a sorted list, before its equals. -/
def insertBy {α : Type} (le : α → α → Bool) (x : α) : List α → List α
  | [] => [x]
  | y :: r => if le x y then x :: y :: r else y :: insertBy le x r

/-- A list sorted, equal elements keeping their order. -/
def sortBy {α : Type} (le : α → α → Bool) (l : List α) : List α := l.foldr (insertBy le) []

/-! ## Logical time (R273) -/

/-- Timestamp `a` is at most `b` (R273). -/
def tsLe (a b : Ts) : Bool := decide ((b - a).toNat < 2 ^ 19)

/-- The greater of two timestamps (R273). -/
def tsMax (a b : Ts) : Ts := if tsLe a b then b else a

/-- A timestamp assigned somewhere on the part, which HIGH follows (R282). -/
def State.assign (s : State) (t : Ts) : State := { s with high := tsMax s.high t }

/-- A store's jump on the timestamps of its unit (R275). -/
def Stamp.store (st : Stamp) (pts : Ts) : Stamp :=
  let w := tsMax (pts + 1) (st.rts + 1)
  { wts := w, rts := w }

/-- A home load's effect on the timestamps of its unit (R276). -/
def Stamp.load (st : Stamp) (pts : Ts) : Stamp := { st with rts := tsMax st.rts pts }

/-- No timestamp stands beyond FLOOR + 2^17 (R282; log 40). -/
def State.withinFloor (s : State) : Bool := tsLe s.high (s.floor + 0x20000)

/-! ## Units and their numbers (R15, R61) -/

/-- The number of a context: 4 x core + context. -/
def ctxKey (c : CtxId) : Nat := 4 * c.core.toNat + c.ctx.toNat

/-- The context of a number. -/
def ctxOf (k : Nat) : CtxId := { core := BitVec.ofNat 13 (k / 4), ctx := BitVec.ofNat 2 (k % 4) }

/-- The physical cluster of a core number (R61). -/
def clusterOfCore (core : BitVec 13) : Nat := core.toNat / 8

/-- The die of a core number (R61). -/
def dieOfCore (core : BitVec 13) : Nat := core.toNat / 1024

/-- The die of a cluster. -/
def dieOfCluster (p : Nat) : Nat := p / 128

def State.ctx (s : State) (c : CtxId) : Context := SMap.at s.contexts .reset (ctxKey c)
def State.setCtx (s : State) (c : CtxId) (k : Context) : State :=
  { s with contexts := SMap.put s.contexts (ctxKey c) k }
def State.core (s : State) (c : Nat) : Core := SMap.at s.cores .reset c
def State.setCore (s : State) (c : Nat) (k : Core) : State := { s with cores := SMap.put s.cores c k }
def State.cluster (s : State) (p : Nat) : Cluster := SMap.at s.clusters .reset p
def State.setCluster (s : State) (p : Nat) (k : Cluster) : State := { s with clusters := SMap.put s.clusters p k }
def State.queue (s : State) (q : BitVec 6) : Queue := SMap.at s.queues .reset q.toNat
def State.setQueue (s : State) (q : BitVec 6) (k : Queue) : State := { s with queues := SMap.put s.queues q.toNat k }

/-- A context changed by a function. -/
def State.mapCtx (s : State) (c : CtxId) (f : Context → Context) : State := s.setCtx c (f (s.ctx c))
/-- A core changed by a function. -/
def State.mapCore (s : State) (c : Nat) (f : Core → Core) : State := s.setCore c (f (s.core c))
/-- A cluster changed by a function. -/
def State.mapCluster (s : State) (p : Nat) (f : Cluster → Cluster) : State := s.setCluster p (f (s.cluster p))
/-- A queue changed by a function. -/
def State.mapQueue (s : State) (q : BitVec 6) (f : Queue → Queue) : State := s.setQueue q (f (s.queue q))

/-- The context whose instruction is performed. -/
def State.me (s : State) : Context := s.ctx s.active
/-- The context whose instruction is performed, changed by a function. -/
def State.mapMe (s : State) (f : Context → Context) : State := s.mapCtx s.active f

/-- The registers of a world (R44): BAR2's for the secure one. -/
def State.world (s : State) (secure : Bool) : WorldRegs := if secure then s.secure else s.normal
def State.setWorld (s : State) (secure : Bool) (w : WorldRegs) : State :=
  if secure then { s with secure := w } else { s with normal := w }
def State.mapWorld (s : State) (secure : Bool) (f : WorldRegs → WorldRegs) : State :=
  s.setWorld secure (f (s.world secure))

/-- The world of a queue (R44). -/
def queueSecure (q : BitVec 6) : Bool := decide (32 ≤ q.toNat)

/-- A message that the part sends out. -/
def State.emit (s : State) (o : Output) : State := { s with out := s.out ++ [o] }

/-- A physical cluster is enabled (R62; log 5). -/
def State.enabled (s : State) (p : Nat) : Bool := decide (p < 1024) && s.encl.getLsbD p

/-- The enabled clusters in ascending physical number (R71). -/
def State.enabledClusters (s : State) : List Nat := (List.range 1024).filter s.enabled

/-- The number of enabled clusters. -/
def State.enabledCount (s : State) : Nat := if s.encl = BitVec.allOnes 1024 then 1024 else s.enabledClusters.length

/-- The enabled stacks in ascending number (R73; log 5). -/
def State.enabledStacks (s : State) : List Nat := (List.range 16).filter fun i => s.enstk.getLsbD i

/-- The end of HBM (R73). -/
def State.hbmEnd (s : State) : Nat := s.enabledStacks.length * Config.stackBytes

/-! ## Launches -/

/-- A launch with nothing in it, read where no launch is placed. -/
def Launch.blank : Launch :=
  { secure := false, notify := false, sealed_ := false, stages := 1, nclus := 0, param := 0, pts0 := 0, lease := 10,
    asid := 0, done := 0, donePa := 0, launchid := 0, succid := 0, allow := 256, depthlim := 16, allocator := none, routines := [],
    steps := [], stageMap := [], domains := [], producers := [], joinTime := 0, joins := false, tadmit := 0,
    order := 0, phase := .unplaced, clusters := [], step := 0, sstep := 0, ended := 0, sup := false, forked := 0, start := none, faults := 0, halts := 0, episodes := [],
    settlement := none, diesReported := 0, preempt := none, saved := none }

/-- Contexts of the launch may issue, and its tellers work: in a superstep, and for sparks between and after supersteps. -/
def Launch.live (l : Launch) : Bool :=
  match l.phase with
  | .boundary | .running | .ended => true
  | _ => false

/-- The queue of the launch placed on a cluster; queue 0 where none is. -/
def State.queueOf (s : State) (p : Nat) : BitVec 6 := ((s.cluster p).placed.map (·.1)).getD 0

/-- The logical number of a placed cluster (R61). -/
def State.logicalOf (s : State) (p : Nat) : Nat := ((s.cluster p).placed.map (·.2)).getD 0

/-- The admitted launch of a queue. -/
def State.launch (s : State) (q : BitVec 6) : Launch := (s.queue q).admitted.getD .blank

/-- The admitted launch of a queue changed by a function. -/
def State.mapLaunch (s : State) (q : BitVec 6) (f : Launch → Launch) : State :=
  s.mapQueue q fun k => { k with admitted := k.admitted.map f }

/-- The launch of a context. -/
def State.launchAt (s : State) (c : CtxId) : Launch := s.launch (s.queueOf (clusterOfCore c.core))

/-- The logical core number of a physical core (R61). -/
def State.logicalCore (s : State) (core : BitVec 13) : Nat :=
  8 * s.logicalOf (clusterOfCore core) + core.toNat % 8

/-- The physical core of a logical core number of a launch. -/
def Launch.physicalCore (l : Launch) (k : Nat) : BitVec 13 :=
  BitVec.ofNat 13 (8 * (l.clusters.getD (k / 8) 0) + k % 8)

/-- The plan of the launch's current superstep. -/
def Launch.plan (l : Launch) : SuperstepPlan :=
  l.steps.getD l.step { domain := 0, settles := false, slen := 0, lists := [] }

/-- A launch is the supervisor launch of its world (R367). -/
def State.supervises (s : State) (l : Launch) : Bool :=
  decide ((s.world l.secure).supvid ≠ 0) && decide (l.launchid = (s.world l.secure).supvid)

/-- A supervisor context: fixed for the launch (R157, R366, R367; log 57). -/
def State.supervisor (s : State) (c : CtxId) : Bool := (s.launchAt c).sup

/-- A write of the launch of a queue by a job, a copy or a posted operation has taken a time (R57, R284). -/
def State.forkDone (s : State) (q : BitVec 6) (t : Ts) : State :=
  s.mapLaunch q fun l => { l with forked := tsMax l.forked t }

/-- A barrier domain of a launch. -/
def Launch.domain (l : Launch) (d : BitVec 4) : Domain :=
  l.domains.getD d.toNat { valid := false, clusters := 0, cores := 0 }

/-- Logical core `k` is a member of a domain (R39). -/
def Domain.member (d : Domain) (k : Nat) : Bool :=
  d.valid && d.clusters.getLsbD (k / 8) && d.cores.getLsbD (k % 8)

/-- The member cores of a domain of a launch, by logical number. -/
def Launch.members (l : Launch) (d : BitVec 4) : List Nat :=
  (List.range (8 * l.nclus)).filter (l.domain d).member

/-- Every context of a core is FREE. -/
def State.coreFree (s : State) (core : BitVec 13) : Bool :=
  (List.range 4).all fun j => (s.ctx { core := core, ctx := BitVec.ofNat 2 j }).run == .free

/-- A core's list is wholly taken and every context of it is FREE (R313). -/
def State.spent (s : State) (l : Launch) (k : Nat) : Bool :=
  let core := l.physicalCore k
  decide ((SMap.at l.plan.lists [] k).length ≤ (s.core core.toNat).taken) && s.coreFree core

/-- A core is exhausted for the rest of the superstep once its list is wholly taken and every context is FREE (R313). -/
def State.exhausted (s : State) (l : Launch) (k : Nat) : Bool :=
  (s.core (l.physicalCore k).toNat).exhausted || s.spent l k

/-- A core that is exhausted now stays so for the superstep (R313). -/
def State.exhaust (s : State) (core : BitVec 13) : State :=
  let l := s.launch (s.queueOf (clusterOfCore core))
  if l.phase = .running ∧ s.spent l (s.logicalCore core) then s.mapCore core.toNat fun k => { k with exhausted := true }
  else s

/-! ## Program counters (R111) -/

/-- The sequential successor of a slot (R111). -/
def pcSucc (pc : Word) : Word :=
  if pc.toNat % 8 < 4 then pc + 1 else (pc &&& ~~~(63 : Word)) + 64

/-- A program counter that a register or memory gave is well formed (R114). -/
def pcOk (pc : Word) : Bool := decide (pc.toNat / 8 % 8 = 0) && decide (pc.toNat % 8 ≤ 4)

/-! ## Settlement phases (R318, R319) -/

/-- COUNT of SCYC for a launch: cycles since the release, 0 outside a phase (R319). -/
def State.count (s : State) (l : Launch) : Nat :=
  match l.settlement with
  | some p => s.clock - p.release
  | none => 0

/-- The context is in a settlement phase. -/
def Context.inSettlement (k : Context) : Bool := k.settle.active

/-! ## Event lines (R305 to R310) -/

/-- An event line as placement sets it (R305). -/
def EventLine.fresh (base : Ts) : EventLine :=
  { mode := .flag, value := 0, limit := 0, gen := 0, owner := none, queue := [], waiters := [], arrivals := base,
    completed := base, stamp := { wts := base, rts := base } }

def State.line (s : State) (p : Nat) (l : BitVec 6) : EventLine :=
  SMap.at (s.cluster p).lines (.fresh s.stampBase) l.toNat
def State.setLine (s : State) (p : Nat) (l : BitVec 6) (e : EventLine) : State :=
  s.mapCluster p fun k => { k with lines := SMap.put k.lines l.toNat e }

/-- An arrival on a BARRIER line, carrying a pts (R308). -/
def EventLine.arrive (e : EventLine) (pts : Ts) : EventLine :=
  let top := tsMax e.arrivals pts
  if decide ((e.value + 1).toNat ≥ Nat.max e.limit.toNat 1) then
    { e with value := 0, gen := e.gen + 1, completed := top, arrivals := e.stamp.wts }
  else { e with value := e.value + 1, arrivals := top }

/-- SIGNAL on a line by a context of a logical core (R308). -/
def EventLine.signal (e : EventLine) (who : BitVec 13 × BitVec 2) (pts : Ts) : EventLine :=
  match e.mode with
  | .flag => { e with value := 1 }
  | .barrier => e.arrive pts
  | .sem => if e.value == (if e.limit = 0 then 0xFFFF else e.limit) then e else { e with value := e.value + 1 }
  | .mutex => if e.owner = some who then { e with value := 0, owner := none } else e
  | .msg => e

/-- What an `EVLD` that may complete now receives, and the line after it (R308): none while it must wait. `gen` is the
generation it found when it arrived (log 21). -/
def EventLine.take (e : EventLine) (who : BitVec 13 × BitVec 2) (gen : BitVec 16) : Option (Word × EventLine) :=
  match e.mode with
  | .flag => if e.value = 1 then some (1, { e with value := 0 }) else none
  | .barrier => if e.gen ≠ gen then some (gen.zeroExtend 64, e) else none
  | .sem => if e.value ≠ 0 then some ((e.value - 1).zeroExtend 64, { e with value := e.value - 1 }) else none
  | .mutex => if e.value = 0 then some (0, { e with value := 1, owner := some who }) else none
  | .msg =>
    match e.queue with
    | [] => none
    | m :: r => some (m, { e with queue := r })

/-- The time an `EVLD` joins when it completes with pts, and the line's timestamps after it (R310; log 21). -/
def EventLine.join (e : EventLine) (pts : Ts) : Ts × Stamp :=
  let st := if e.mode = .barrier then e.stamp else e.stamp.store pts
  let t := tsMax pts st.wts
  let st := st.load t
  (if e.mode = .barrier then tsMax t e.completed else t, st)

/-- The logical core and context that an event line knows a context by (R305). -/
def State.lineName (s : State) (c : CtxId) : BitVec 13 × BitVec 2 := (BitVec.ofNat 13 (s.logicalCore c.core), c.ctx)

/-- The waiters of a line served in FIFO order after an action (R308). -/
def State.serve (s : State) (p : Nat) (l : BitVec 6) : Nat → State
  | 0 => s
  | n + 1 =>
    let e := s.line p l
    match e.waiters.find? fun w => (e.take (s.lineName w.ctx) w.gen).isSome with
    | none => s
    | some w =>
      match e.take (s.lineName w.ctx) w.gen with
      | none => s
      | some (v, e') =>
        let (t, st) := e.join (s.ctx w.ctx).pts
        let s := s.setLine p l { e' with stamp := st, waiters := e.waiters.filter fun x => x.ctx ≠ w.ctx }
        let s := (s.mapCtx w.ctx fun k => { k with grant := .event v t }).assign t
        State.serve s p l n

/-- An action on a line, with its time as a store (R310), and the waiters served. -/
def State.actLine (s : State) (p : Nat) (l : BitVec 6) (pts : Ts) (f : EventLine → EventLine) : State × Ts :=
  let e := s.line p l
  let st := e.stamp.store pts
  let s := (s.setLine p l { f e with stamp := st }).assign st.wts
  (s.serve p l e.waiters.length, st.wts)

/-- Every MUTEX line that a context owns is released as it becomes FREE (R308). -/
def State.releaseMutexes (s : State) (c : CtxId) : State :=
  let name := s.lineName c
  let q := s.queueOf (clusterOfCore c.core)
  (s.launch q).clusters.foldl (fun s p =>
    (List.range 64).foldl (fun s i =>
      let l := BitVec.ofNat 6 i
      let e := s.line p l
      if e.mode = .mutex ∧ e.owner = some name then
        (s.actLine p l (s.ctx c).pts fun e => { e with value := 0, owner := none }).1
      else s) s) s

/-! ## Rolls (R130, R133) -/

/-- The followers of a context learn that it has stopped, with its next program counter (R133). -/
def State.endRoll (s : State) (leader : CtxId) (next : Word) : State :=
  { s with contexts := SMap.update s.contexts fun _ k =>
      match k.roll with
      | .following l q none => if l = leader then { k with roll := .following l q (some next) } else k
      | .waiting core t since rs (some l) none =>
        if l = leader then { k with roll := .waiting core t since rs (some l) (some next) } else k
      | _ => k }

/-- A context ends its routine: no `FOLLOW` waits for it any more (R131). -/
def State.endRunner (s : State) (c : CtxId) : State :=
  { s with contexts := SMap.update s.contexts fun _ k =>
      match k.roll with
      | .waiting core t since rs l e => { k with roll := .waiting core t since (rs.filter fun x => x ≠ c) l e }
      | _ => k }

/-- The program counter that a context's followers are left with: the next one after the last group forwarded, which is
the one at the program counter when it waits there and has been forwarded, or the first slot of a pair half issued (R133;
log 20). -/
def Context.rollPc (k : Context) : Word :=
  if k.forwarded then pcSucc k.pc else if k.latched.isSome then k.pc - 1 else k.pc

/-- A context leaves its roll (R133). -/
def Context.detach (k : Context) : Context := { k with roll := .none, line := none }

/-! ## Freeing a context -/

/-- A context that has become FREE: its waits end, and nothing it was about remains. -/
def Context.freed (k : Context) : Context :=
  { k with
    run := .free, borrowed := none, wait := .none, grant := .none, reply := none, hostAnswers := [], gathered := none, refetched := [], latched := none
    forwarded := false, roll := .none, line := none, settle := {}
    trap := { k.trap with run := none, resumed := false, record := none } }

/-- A context becomes FREE (R383, R249, R254): its MUTEX lines are released and its waits end. -/
def State.freeCtx (s : State) (c : CtxId) : State :=
  let s := s.releaseMutexes c
  let s := (s.endRoll c (s.ctx c).rollPc).endRunner c
  (s.mapCtx c Context.freed).exhaust c.core

/-! ## Demands (R246) -/

/-- The frame of a thunk under evaluation ends, with its time or its fault. -/
def State.endFrame (s : State) (h : BitVec 32) (time : Ts) (fault : Option Trap) : State :=
  { s with demands := s.demands.map fun d =>
      { d with frames := d.frames.map fun f =>
          if f.1 = h ∧ f.2 = .running then (h, .ended time fault) else f } }

/-- A demand has ended: its context goes on (R246). -/
def State.grantDemand (s : State) (o : Option CtxId) (time : Ts) (tile : Tile) (fault : Option Trap) : State :=
  match o with
  | some c => s.mapCtx c fun k =>
      match k.wait with
      | .demand _ | .work _ | .arrears _ _ => { k with grant := .demanded time tile fault }
      | _ => k
  | none => s

/-- The work of a strict `SUSP` or `SUSPR` of a context is done, or has faulted (R241, R242). -/
def State.endWork (s : State) (c : CtxId) (time : Ts) (fault : Option Trap) : State :=
  ({ s with demands := s.demands.filter fun d => !(d.owner = some c && d.work.isSome) } : State).grantDemand (some c) time {}
    fault

/-- The handle of a slot (R41). -/
def State.handle (s : State) (p : Nat) (i : BitVec 11) : BitVec 32 :=
  BitVec.ofNat 10 p ++ i ++ (SMap.at (s.cluster p).slots {} i.toNat).gen

/-! ## Barrier episodes (R313, R314) -/

/-- TREL of a domain: where its members lie (R314). -/
def Launch.trel (l : Launch) (d : BitVec 4) : Nat :=
  let ps := (l.members d).map fun k => l.clusters.getD (k / 8) 0
  match ps with
  | [] => 8
  | p :: r =>
    if r.all (· = p) then 8 else if r.all fun x => dieOfCluster x = dieOfCluster p then 40 else 160

/-- An arrival placed in the first episode in which its core has not arrived (R313). -/
def arriveIn (a : Arrival) : List (List Arrival) → List (List Arrival)
  | [] => [[a]]
  | e :: r => if e.any fun x => x.core = a.core then e :: arriveIn a r else (e ++ [a]) :: r

/-- Every member core has arrived in an episode or is exhausted (R313). -/
def State.episodeComplete (s : State) (l : Launch) (d : BitVec 4) (e : List Arrival) : Bool :=
  !e.isEmpty && (l.members d).all fun k => (e.any fun a => a.core = k) || s.exhausted l k

/-- The arrivals of an episode are of one kind (R313). -/
def alike (e : List Arrival) : Bool := e.all fun a => some a.kind = e.head?.map (·.kind)

/-- The episodes of a domain that are complete leave the waiting list with a release cycle, or, when their arrivals are not
of one kind, with the next cycle as that in which each of their contexts raises DOMAIN, in its turn (R313, R331; log 6). -/
def State.completeEpisodes (s : State) (q : BitVec 6) (d : BitVec 4) : Nat → State
  | 0 => s
  | n + 1 =>
    let l := s.launch q
    let ep := SMap.at l.episodes { waiting := [], completed := [] } d.toNat
    match ep.waiting with
    | [] => s
    | e :: r =>
      if s.episodeComplete l d e then
        let s := s.mapLaunch q fun l => { l with
          episodes := SMap.put l.episodes d.toNat
            { waiting := r, completed := ep.completed ++ [(e, s.clock + if alike e then l.trel d else 1)] },
          settlement :=
            if alike e && e.any (·.kind == .sdone) then l.settlement.map fun p => { p with ending := true }
            else l.settlement }
        State.completeEpisodes s q d n
      else s

/-- An arrival of a core of a launch at a domain (R313). -/
def State.arriveAt (s : State) (q : BitVec 6) (d : BitVec 4) (a : Arrival) : State :=
  let l := s.launch q
  let ep := SMap.at l.episodes { waiting := [], completed := [] } d.toNat
  let w := arriveIn a ep.waiting
  let s := s.mapLaunch q fun l => { l with episodes := SMap.put l.episodes d.toNat { ep with waiting := w } }
  s.completeEpisodes q d w.length

/-- Every domain's episodes looked at again, when a core may have become exhausted (R313). -/
def State.recheckEpisodes (s : State) (q : BitVec 6) : State :=
  (s.launch q).episodes.foldl (fun s e => s.completeEpisodes q (BitVec.ofNat 4 e.1) (e.2.waiting.length + 1)) s

/-! ## Taking a fault (R368) -/

/-- The cause codes of R365. -/
def Cause.code : Cause → BitVec 8
  | .illop => 0x01 | .linepar => 0x02 | .badtgt => 0x03 | .lpadmis => 0x04 | .jtbound => 0x05 | .page => 0x10
  | .perm => 0x11 | .world => 0x12 | .window => 0x13 | .align => 0x14 | .pstore => 0x18 | .assayw => 0x19
  | .selfdep => 0x20 | .hstale => 0x21 | .fmtmix => 0x28 | .engflt => 0x29 | .slot => 0x30 | .phase => 0x31
  | .domain => 0x32 | .kvstate => 0x38 | .trap => 0x40 | .mce => 0xF0

/-- STATUS.VEC allows the cause to be vectored (R365); TRAP always is. -/
def Cause.vectorable (c : Cause) (vec : BitVec 7) : Bool :=
  match c with
  | .illop | .badtgt | .lpadmis | .jtbound => vec.getLsbD 0
  | .world | .window | .align => vec.getLsbD 1
  | .pstore | .assayw => vec.getLsbD 2
  | .selfdep | .hstale => vec.getLsbD 3
  | .fmtmix | .engflt => vec.getLsbD 4
  | .kvstate => vec.getLsbD 6
  | .trap => true
  | .linepar | .page | .perm | .slot | .phase | .domain | .mce => false

/-- REPEAT of a fault raised now (R331). -/
def TrapRegs.repeats (r : TrapRegs) (epc : Word) (t : Trap) : BitVec 8 :=
  match r.run with
  | some f =>
    if r.resumed ∧ f.epc = epc ∧ f.cause = t.cause ∧ f.faddr = t.faddr then
      (if f.count = 255 then 255 else f.count + 1)
    else 1
  | none => 1

/-- The fault record of a context (R82). -/
def State.recordOf (s : State) (c : CtxId) (t : Trap) (rep : BitVec 8) (epc : Word) : FaultRecord :=
  let l := s.launchAt c
  { w0 := t.cause.code ++ rep ++ t.acc ++ t.detail ++ l.asid ++ BitVec.ofBool l.secure ++ c.ctx ++ c.core ++ (0 : BitVec 8),
    w1 := t.faddr, w2 := epc, w3 := l.launchid ++ (s.world l.secure).seq }

/-- The context as an interruption finds it: one that waits in `FOLLOW` stands at its target (R131). -/
def Context.atTarget (k : Context) : Context :=
  match k.roll with
  | .waiting _ t _ _ _ _ => { k with pc := t, entry := .plain }
  | _ => k

/-- A fault of a context delivered as R368 states, but for what a settlement fault does to its domain (R325). A borrowed
context whose routine it ends may have been the last of its core that an episode waited for (R313). -/
def State.deliver (s : State) (c : CtxId) (t : Trap) : State :=
  let old := s.ctx c
  let k := old.atTarget
  let s := if t.cause = .mce ∨ t.cause = .linepar then s.emit (.msix 2) else s
  match k.borrowed with
  | some (p, i) =>
    ((s.endFrame (s.handle p i) k.pts (some t)).freeCtx c).recheckEpisodes (s.queueOf (clusterOfCore c.core))
  | none =>
    let traps := t.cause == .trap && !t.demanded
    let epc := if traps then pcSucc k.pc else k.pc
    let rep := k.trap.repeats epc t
    let fcause : Word :=
      (0 : BitVec 40) ++ rep ++ t.acc ++ t.detail ++ t.cause.code
    let r : TrapRegs := { k.trap with
      epc := epc, epcWritten := false, faddr := t.faddr, resumed := false,
      fcause := if traps then k.trap.fcause else fcause,
      run := some { epc := epc, cause := t.cause, faddr := t.faddr, count := rep } }
    let s := s.endRoll c old.rollPc
    let k : Context := { k.detach with wait := .none, grant := .none, hostAnswers := [], gathered := none, refetched := [], latched := none, forwarded := false, last := .trapped }
    if t.cause.vectorable k.trap.vec && k.trap.tvec != 0 && !k.trap.intrap && !k.inSettlement then
      s.setCtx c { k with
        run := .running, pc := k.trap.tvec, entry := .plain,
        trap := { r with intrap := true, cause := (0 : BitVec 32) ++ t.tcode ++ (0 : BitVec 8) ++ t.cause.code } }
    else
      let l := s.launchAt c
      let rec_ := s.recordOf c t rep epc
      let s := s.mapWorld l.secure fun w => { w with seq := w.seq + 1, waiting := w.waiting ++ [rec_] }
      s.setCtx c { k with
        run := .faulted, entry := .plain, settle := { k.settle with active := false, lines := [] },
        trap := { r with record := some rec_ } }

/-- The arrival of a context that waits is withdrawn (R312, R326; log 43). An `EVLD` that has been served waits no more, and
one whose line has been written by CONF has no arrival there. -/
def State.withdraw (s : State) (c : CtxId) : State :=
  match (s.ctx c).wait with
  | .event p l => s.setLine p l
      (let e := s.line p l
       { e with
         waiters := e.waiters.filter fun w => w.ctx ≠ c
         value := if e.waiters.any fun w => w.ctx = c ∧ w.counted then e.value - 1 else e.value })
  | .barrier d _ =>
    let q := s.queueOf (clusterOfCore c.core)
    s.mapLaunch q fun l =>
      let ep := SMap.at l.episodes { waiting := [], completed := [] } d.toNat
      { l with
        episodes := SMap.put l.episodes d.toNat
          { waiting := (ep.waiting.map (fun e => e.filter (fun a => a.ctx ≠ some c))).filter (fun e => !e.isEmpty)
            completed := ep.completed } }
  | _ => s

/-- A fault of a context (R368, R325): delivered, and a member that faults in a settlement phase counts as arrived at
the phase's SDONE episode. -/
def State.raise (s : State) (c : CtxId) (t : Trap) : State :=
  let settling := (s.ctx c).inSettlement
  let q := s.queueOf (clusterOfCore c.core)
  let s := s.deliver c t
  match settling, (s.launch q).settlement with
  | true, some p =>
    s.arriveAt q p.domain
      { core := s.logicalCore c.core, ctx := none, kind := .sdone, pts := (s.ctx c).pts }
  | _, _ => s

/-- A machine check that work meets which a context has left behind: the context has it to take before its next instruction, in
place of what it waits for (R205, R265, R381; log 64). None where something else stands granted at the context; where the
context no longer runs, only vector 2 is raised. -/
def State.interrupt (s : State) (c : CtxId) (t : Trap) : Option State :=
  match (s.ctx c).run with
  | .running | .waiting =>
    if (s.ctx c).grant ≠ .none then none else some ((s.withdraw c).mapCtx c fun k => { k with grant := .fault t })
  | _ => some (s.emit (.msix 2))

/-! ## How an instruction ends -/

/-- Why a meaning stops short. -/
inductive Stop where
  /-- A synchronous fault: the instruction has no effect (R368). -/
  | trap (t : Trap)
  /-- The instruction waits: its requests stand, and it is performed again later (R135). -/
  | wait (w : Wait)
  deriving DecidableEq, Repr

/-- The effect of an instruction on the state, or why it stops short. -/
abbrev Eff := EStateM Stop State

/-- Where the context goes after an instruction. -/
inductive Next where
  /-- The sequential successor. -/
  | seq
  /-- A transfer. -/
  | go (pc : Word) (entry : Entry)
  /-- The instruction has left the context as it must be. -/
  | stay
  deriving DecidableEq, Repr

def trapWith {α : Type} (t : Trap) : Eff α := throw (.trap t)
def fail {α : Type} (c : Cause) (faddr : Word := 0) (acc : BitVec 4 := 0) (detail : BitVec 4 := 0) : Eff α :=
  throw (.trap { cause := c, faddr := faddr, acc := acc, detail := detail })
def waitFor {α : Type} (w : Wait) : Eff α := throw (.wait w)

/-- The context whose instruction has been performed goes on (R111, R331): nothing it waited for remains (log 3). -/
def State.retire (s : State) (n : Next) : State :=
  match n with
  | .stay => s
  | _ => s.mapMe fun k =>
    let r := k.trap
    let ran := match r.run with
      | some f => if f.epc = k.pc then none else some f
      | none => none
    { k with
      run := .running
      pc := match n with | .go pc _ => pc | _ => pcSucc k.pc
      entry := match n with | .go _ e => e | _ => .plain
      wait := .none, grant := .none, hostAnswers := [], gathered := none, refetched := [], latched := none, forwarded := false
      last := .done
      trap := { r with run := ran, resumed := false } }

/-- The instruction completes and leaves its context as it must be. -/
def stay (f : State → State) : Eff Next := do
  modify fun s => (f s).mapMe fun k => { k with last := .done }
  return .stay

/-- The active context waits for the next FLOOR (R282): one that waited for something else before waits for that still. -/
def State.stall (s : State) : State :=
  s.mapMe fun k => { k with run := .waiting, wait := if k.run = .waiting then k.wait else .floor, last := .waited }

/-- No timestamp beyond FLOOR + 2^17 has been assigned that was not before (R282; log 40). -/
def State.floorHolds (before after : State) : Bool := after.withinFloor || !before.withinFloor

/-- An instruction performed by the active context: it completes, takes its fault or waits. One
that would assign a timestamp beyond FLOOR + 2^17 waits for the next FLOOR (R282; log 3, 40). -/
def perform (e : Eff Next) (s : State) : Host.Outcome State Fault Refusal :=
  match e.run s with
  | .ok n s' => .next (if s.floorHolds s' then s'.retire n else s.stall)
  | .error (.trap t) _ => .next (s.raise s.active t)
  | .error (.wait w) s' =>
    .next (if s.floorHolds s' then s'.mapMe fun k => { k with run := .waiting, wait := w, last := .waited } else s.stall)

/-- A step of the part: its effect, or nothing while what it needs has not come about. Work that meets a wait leaves
its requests standing, and one that would assign a timestamp beyond FLOOR + 2^17 waits for the next FLOOR (R282;
log 40). -/
def happen (e : Eff Unit) (s : State) : Host.Outcome State Fault Refusal :=
  match e.run s with
  | .ok _ s' | .error (.wait _) s' => .next (if s.floorHolds s' then s' else s)
  | .error (.trap _) _ => .next s

end Sys2Proof.Machine
end

