-- ==== Sys2Proof/Machine/Access.lean ====
section
/-! DEFINITION. Addresses and accesses: windows, translation, the homes of lines, and the loads and stores that take
their place in logical time (R67 to R81, R100 to R103, R187 to R195, R270, R274 to R288, R335, R336, R380). -/

namespace Sys2Proof.Machine

/-- Who accesses memory: a context, or a unit of work forked for it, with the pts that it begins the access with
(R284). -/
structure Thread where
  ctx : CtxId
  unit : Option ForkUnit
  cluster : Nat
  secure : Bool
  asid : BitVec 16
  queue : BitVec 6
  lease : BitVec 8
  pts : Ts
  deriving DecidableEq, Repr

/-- The thread of a context itself. -/
def State.threadOf (s : State) (c : CtxId) : Thread :=
  let p := clusterOfCore c.core
  let q := s.queueOf p
  let l := s.launch q
  { ctx := c, unit := none, cluster := p, secure := l.secure, asid := l.asid, queue := q, lease := (s.ctx c).lease,
    pts := (s.ctx c).pts }


/-- What an access must be permitted (R75). -/
inductive Need where
  | read | write | both | fetch
  deriving DecidableEq, Repr

/-- Where an address lies. -/
inductive Place where
  /-- HBM behind a NORMAL or ASSAY page. -/
  | mem (pa : Nat)
  /-- HBM behind a PURSE page, with its window exponent. -/
  | purse (pa : Nat) (pexp : BitVec 8)
  /-- Host memory, by host address (R345). -/
  | host (ha : Nat)
  /-- A window: 0 core, 1 cluster-shared, 2 chip scratchpad, by the offset from the window base (R68). -/
  | win (space : Nat) (off : Nat)
  deriving DecidableEq, Repr

/-! ## Address classes and windows (R67 to R69) -/

def isUser (va : Word) : Bool := decide (va.toNat / 2 ^ 56 = 0)
def isWindow (va : Word) : Bool :=
  decide (va.toNat / 2 ^ 48 = 0xFFFF) && decide (8 ≤ va.toNat / 2 ^ 44 % 16) && decide (va.toNat / 2 ^ 44 % 16 ≤ 10)

/-- The base of a core's window (R68). -/
def coreWindow (core : Nat) : Word := 0xFFFF_8000_0000_0000 + BitVec.ofNat 64 (core * 2 ^ 17)
/-- The base of a cluster's shared window (R68). -/
def clusterWindow (p : Nat) : Word := 0xFFFF_9000_0000_0000 + BitVec.ofNat 64 (p * 2 ^ 19)

/-- A window address decoded and checked against placement and world (R68, R69): the place, or the cause. A cluster of
the other world is in no placement of this one, so it is refused by step 1 of R69, as WINDOW (log 54). -/
def State.window (s : State) (t : Thread) (va : Word) : Except Cause Place :=
  let v := va.toNat
  let l := s.launch t.queue
  match v / 2 ^ 44 % 16 with
  | 8 =>
    let off := v % 2 ^ 30
    if v % 2 ^ 44 / 2 ^ 30 ≠ 0 ∨ 0xA000 ≤ off % 2 ^ 17 ∨ ¬(off / 2 ^ 17 / 8 ∈ l.clusters) then .error .window
    else .ok (.win 0 off)
  | 9 =>
    let off := v % 2 ^ 29
    if v % 2 ^ 44 / 2 ^ 29 ≠ 0 ∨ ¬(off / 2 ^ 19 ∈ l.clusters) then .error .window else .ok (.win 1 off)
  | 10 =>
    let off := v % 2 ^ 28
    let die := off / 2 ^ 25
    if v % 2 ^ 44 / 2 ^ 28 ≠ 0 ∨ ¬(l.clusters.any fun p => dieOfCluster p = die) then .error .window
    else if ((s.csworld.toList.getD die 0).getLsbD (off % 2 ^ 25 / 2 ^ 20)) ≠ t.secure then .error .world
    else .ok (.win 2 off)
  | _ => .error .window

/-! ## Regions and assay ranges (R79, R80, R100 to R103) -/

/-- Bits [hi:lo] of a word as a number. -/
def field (w : Word) (hi lo : Nat) : Nat := w.toNat % 2 ^ (hi + 1) / 2 ^ lo

/-- The physical address lies in secure memory (R80). -/
def State.secureMem (s : State) (pa : Nat) : Bool :=
  s.regions.toList.any fun r =>
    r.lo.getLsbD 63 && decide (field r.lo 51 21 ≤ pa / 2 ^ 21) && decide (pa / 2 ^ 21 ≤ field r.hi 51 21)

def AssayRange.on (r : AssayRange) : Bool := r.w0.getLsbD 63
def AssayRange.sec (r : AssayRange) : Bool := r.w0.getLsbD 62
def AssayRange.fmt (r : AssayRange) : BitVec 5 := BitVec.ofNat 5 (field r.w0 61 57)
def AssayRange.vbase (r : AssayRange) : Nat := field r.w0 51 16 * 2 ^ 16
def AssayRange.vbytes (r : AssayRange) : Nat := field r.vlast 51 16 * 2 ^ 16 + 2 ^ 16 - r.vbase
/-- The bytes of the compressed region (R101). For a FMT that R101 gives no size, the width of the format decides, and the
scale region has a byte for 32 elements, the MODEL's choice (log 65). -/
def AssayRange.cbytes (r : AssayRange) : Nat :=
  if r.fmt = 0x10 then r.vbytes / 8 else r.vbytes * (fmtOf r.fmt).width / 16
/-- The bytes of the scale region (R101). -/
def AssayRange.sbytes (r : AssayRange) : Nat := if r.fmt = 0x10 then r.vbytes / 512 else r.vbytes / 64

/-- [lo, lo + n) lies inside [base, base + size). -/
def inside (lo n base size : Nat) : Bool := decide (base ≤ lo) && decide (lo + n ≤ base + size)
/-- [lo, lo + n) meets [base, base + size). -/
def meets (lo n base size : Nat) : Bool := decide (lo < base + size) && decide (base < lo + n)

/-- The range's view holds the physical address. -/
def AssayRange.views (r : AssayRange) (pa n : Nat) : Bool := r.on && inside pa n r.vbase r.vbytes

/-- The regions of the range that only `CPYA` writes (R103, R233). -/
def AssayRange.stored (r : AssayRange) (f : Nat → Nat → Bool) : Bool :=
  f r.cbase.toNat r.cbytes || f r.sbase.toNat r.sbytes || (r.fmt = 0x10 && f r.tbase.toNat 1024)

/-- A store to these bytes raises ASSAYW (R103). -/
def State.assayBytes (s : State) (pa n : Nat) : Bool :=
  s.assay.toList.any fun r => r.on && (meets pa n r.vbase r.vbytes || r.stored (meets pa n))

/-- The lowest-numbered enabled range whose view holds the line (R100). -/
def State.viewOf (s : State) (line : Nat) : Option AssayRange :=
  s.assay.toList.find? fun r => r.views (line * 128) 128

/-- A w-bit element of a bit stream (R91). -/
def streamBits (m : Memory) (base bit w : Nat) : Nat := m.readN (base + bit / 8) 9 / 2 ^ (bit % 8) % 2 ^ w

/-- One element of a view (R101). -/
def assayElement (m : Memory) (r : AssayRange) (e : Nat) : Nat :=
  let (v, s) : FV × Nat :=
    if r.fmt = 0x10 then
      let x := m.readN (r.cbase.toNat + 2 * (e / 8)) 2
      let row := m.readN (r.tbase.toNat + 4 * (x / 256)) 4
      let k := e % 8
      let mag := row / 2 ^ (4 * k) % 16 + x % 2
      let neg := if k < 7 then x.testBit (k + 1)
        else ((List.range 7).map fun j => x.testBit (j + 1)).foldl (· != ·) false
      (.fin neg mag (-2), (m.read (r.sbase.toNat + e / 256)).toNat)
    else
      let w := (fmtOf r.fmt).width
      ((fmtOf r.fmt).decode false (streamBits m r.cbase.toNat (w * e) w), (m.read (r.sbase.toNat + e / 32)).toNat)
  (bf16.round .rne (v.scaled s)).1

/-- A little-endian number from digits of w bits, the first lowest. -/
def packElems (w : Nat) : List Nat → Nat
  | [] => 0
  | x :: r => x % 2 ^ w + 2 ^ w * packElems w r

/-- The decoded data of a view line (R101). -/
def State.viewLine (s : State) (r : AssayRange) (line : Nat) : Vec :=
  BitVec.ofNat 1024 (packElems 16 ((List.range 64).map fun i =>
    assayElement s.hbm r ((line * 128 - r.vbase) / 2 + i)))

/-- The bytes that a view line is decoded from, as (address, bytes) (R101). -/
def AssayRange.sources (r : AssayRange) (line : Nat) : List (Nat × Nat) :=
  let e := (line * 128 - r.vbase) / 2
  let w := (fmtOf r.fmt).width
  if r.fmt = 0x10 then [(r.cbase.toNat + 2 * (e / 8), 16), (r.sbase.toNat + e / 256, 1), (r.tbase.toNat, 1024)]
  else [(r.cbase.toNat + w * e / 8, 8 * w), (r.sbase.toNat + e / 32, 2)]

/-- The fault of a fill of a view line (R102), if any. Of sources that lie in the other world and beyond the end of HBM, WORLD
is the one raised, the MODEL's choice, since R102 states no order (log 66). -/
def State.viewFault (s : State) (r : AssayRange) (line : Nat) : Option (Cause × BitVec 4) :=
  let parts := r.sources line
  if ¬(scalable r.fmt ∨ r.fmt = 0x10) then some (.fmtmix, 0)
  else if parts.any fun p => s.secureMem p.1 != r.sec || s.secureMem (p.1 + p.2 - 1) != r.sec then some (.world, 0)
  else if parts.any fun p => decide (s.hbmEnd < p.1 + p.2) then some (.page, 2)
  else none

/-! ## Translation (R71 to R78) -/

/-- log2 of the bytes of a page (R72). -/
def pageShift (size : BitVec 2) : Nat := match size.toNat with | 0 => 16 | 1 => 21 | _ => 30

/-- The low bits of a VPN cleared for a size (R74). -/
def clearLow (vpn : Nat) (size : Nat) : Nat :=
  match size with
  | 0 => vpn
  | 1 => vpn / 2 ^ 5 * 2 ^ 5
  | _ => vpn / 2 ^ 14 * 2 ^ 14

/-- An entry translates a user address of a world and ASID: the address lies in its page (R72, R76; log 17). -/
def Tlb.covers (e : Tlb) (secure : Bool) (asid : BitVec 16) (va : Word) : Bool :=
  decide (e.secure = secure) && decide (e.asid = asid) &&
    decide (clearLow (field va 55 16) e.size.toNat = e.vpn.toNat)

/-- The physical address that an entry gives (R72). -/
def Tlb.pa (e : Tlb) (va : Word) : Nat := e.ppn.toNat * 2 ^ 16 + va.toNat % 2 ^ pageShift e.size

/-- The entry of two PTE words (R72). -/
def tlbOf (secure : Bool) (w0 w1 : Nat) : Tlb :=
  let a := BitVec.ofNat 64 w0
  { secure := secure, asid := BitVec.ofNat 16 w1, vpn := BitVec.ofNat 40 w0, size := BitVec.ofNat 2 (field a 62 61),
    type := BitVec.ofNat 2 (field a 60 59), world := a.getLsbD 58, r := a.getLsbD 57, w := a.getLsbD 56,
    x := a.getLsbD 55, pexp := BitVec.ofNat 8 (field a 54 47), ppn := BitVec.ofNat 36 (w1 / 2 ^ 28) }

/-- A valid entry is malformed (R72, R102). -/
def State.malformed (s : State) (e : Tlb) (w0 w1 : Nat) : Bool :=
  let low := match e.size.toNat with | 0 => 1 | 1 => 2 ^ 5 | _ => 2 ^ 14
  let bytes := 2 ^ pageShift e.size
  decide (e.size = 3) || decide (w0 / 2 ^ 40 % 2 ^ 7 ≠ 0) || decide (w1 / 2 ^ 16 % 2 ^ 12 ≠ 0) ||
    decide (e.vpn.toNat % low ≠ 0) || decide (e.ppn.toNat % low ≠ 0) || (e.x && e.type != 0) ||
    (e.pexp != 0 && e.type != 1) || (e.w && e.type == 2) || ((e.type == 3) != e.ppn.getLsbD 35) ||
    (e.type == 2 && !(s.assay.toList.any fun r => r.views (e.ppn.toNat * 2 ^ 16) bytes))

/-- One entry looked at by a probe: a candidate's translation, or its PAGE detail, or neither (R74). A bucket beyond the end
of HBM holds no entry, the MODEL's choice (log 46). -/
def State.probeEntry (s : State) (secure : Bool) (asid : BitVec 16) (va : Word) (z at_ : Nat) :
    Option (Except (BitVec 4) Tlb) :=
  let w0 := s.hbm.readN at_ 8
  if w0 / 2 ^ 63 = 0 then none
  else
    let w1 := s.hbm.readN (at_ + 8) 8
    let e := tlbOf secure w0 w1
    if e.asid = asid ∧ (e.size.toNat = z ∨ e.size = 3) ∧
        clearLow e.vpn.toNat z = clearLow (field va 55 16) z then
      some (if s.malformed e w0 w1 then .error 1 else .ok e)
    else none

/-- The first of a list of results. -/
def firstSome {α β : Type} (f : α → Option β) : List α → Option β
  | [] => none
  | a :: r => match f a with
    | some b => some b
    | none => firstSome f r

/-- Translation is disabled in a world (R71). -/
def State.untranslated (s : State) (secure : Bool) : Bool := decide (field (s.world secure).hpt 4 0 = 0)

/-- The buckets that a walk probes, in its order: the size code and the address of each (R74). -/
def State.buckets (s : State) (secure : Bool) (asid : BitVec 16) (va : Word) : List (Nat × Nat) :=
  let w := s.world secure
  let log := field w.hpt 4 0
  let base := field w.hpt 51 7 * 128
  [0, 1, 2].flatMap fun z =>
    let k := (z * 2 ^ 58 + asid.toNat * 2 ^ 40 + clearLow (field va 55 16) z) % 2 ^ 64
    let h := k * 0x9E37_79B9_7F4A_7C15 % 2 ^ 64
    let home := h / 2 ^ 32 * s.enabledCount / 2 ^ 32
    let b := h % 2 ^ 32 % 2 ^ log
    (List.range 4).map fun j => (z, base + home * 2 ^ (log + 7) + (b + j) % 2 ^ log * 128)

/-- The eight entries of a bucket looked at in order (R74). -/
def State.probeBucket (s : State) (secure : Bool) (asid : BitVec 16) (va : Word) (b : Nat × Nat) :
    Option (Except (BitVec 4) Tlb) :=
  firstSome (fun i => s.probeEntry secure asid va b.1 (b.2 + 16 * i)) (List.range 8)

/-- The walk of R74: the translation, or the DETAIL of its PAGE. -/
def State.walk (s : State) (secure : Bool) (asid : BitVec 16) (va : Word) : Except (BitVec 4) Tlb :=
  if s.untranslated secure then .error 0
  else match firstSome (s.probeBucket secure asid va) (s.buckets secure asid va) with
    | some r => r
    | none => .error 0

/-- The lines that a walk reads: its buckets up to the one that ends it (R74). -/
def State.walkLines (s : State) (secure : Bool) (asid : BitVec 16) (va : Word) : List Nat :=
  if s.untranslated secure then []
  else
    let bs := s.buckets secure asid va
    let misses := bs.takeWhile fun b => (s.probeBucket secure asid va b).isNone
    (bs.take (misses.length + 1)).map fun b => b.2 / 128

/-- A line of the host-coherent region whose device stores are sent to the host (R336). -/
def State.hostCoherent (s : State) (line : Nat) : Bool :=
  decide (line * 128 < s.hcsize.toNat * 2 ^ 30) && !s.secureMem (line * 128)

/-- A line that the host owns is asked back, and the read waits for the host's data (R336). -/
def readOwned (line : Nat) : Eff Unit := do
  let s ← get
  if s.hostCoherent line && s.hostOwned.contains line then
    if !(s.backInvals.any fun b => b.line = line ∧ b.forData) then
      modify fun s => { (s.emit (.biSnpData line)) with
        backInvals := s.backInvals ++ [{ line := line, forData := true, owners := [] }] }
    waitFor .access

/-- Several lines that the part reads, each asked back first where the host owns it (R336). -/
def readOwnedAll : List Nat → Eff Unit
  | [] => pure ()
  | l :: r => do
    readOwned l
    readOwnedAll r

/-- A corrected error is counted and its address kept (R380). -/
def State.logError (s : State) (secure loss : Bool) (addr : Nat) : State :=
  s.mapWorld secure fun w => { w with
    ccnt := if loss then w.ccnt else w.ccnt + 1
    closs := if loss then w.closs + 1 else w.closs
    ceaddr := BitVec.ofNat 52 addr }

/-- A use of data meets the soft errors that lie in it: an uncorrectable one raises MCE with its source as DETAIL, a
correctable one is logged and gone (R380, R381; log 28). -/
def meetError (secure : Bool) (acc : BitVec 4) (source : BitVec 4) (key addr : Nat) : Eff Unit := do
  let s ← get
  match s.softErrors.find? fun e => e.source = source ∧ e.key = key ∧ e.plane = none with
  | none => pure ()
  | some e =>
    if e.fatal then fail .mce 0 acc source
    else modify fun s => { (s.logError secure false addr) with softErrors := s.softErrors.erase e }

/-- Lines are read at their homes, as a fill of a view line reads those that it decodes and a walk its buckets: the host's
data is waited for, and soft errors are met (R74, R101, R336, R381). -/
def readSources (t : Thread) (acc : BitVec 4) : List Nat → Eff Unit
  | [] => pure ()
  | l :: r => do
    readOwned l
    let held := ((← get).l2.find? fun x => x.line = l).isSome
    meetError t.secure acc (if held then 1 else 0) l (l * 128)
    readSources t acc r

/-- The translation a context's core holds, in its own TLB or the cluster's (R76). -/
def State.held (s : State) (t : Thread) (fetch : Bool) (va : Word) : Option Tlb :=
  let c := s.core t.ctx.core.toNat
  match (if fetch then c.itlb else c.dtlb).find? (·.covers t.secure t.asid va) with
  | some e => some e
  | none => (s.cluster t.cluster).tlb.find? (·.covers t.secure t.asid va)

/-- An entry put at the head of a TLB of a number of entries: the oldest leaves (log 12). -/
def tlbInsert (e : Tlb) (n : Nat) (l : List Tlb) : List Tlb :=
  if e ∈ l then l else (e :: l).take n

/-- The translation of a context's access: held, or waited for while a walk goes on (R74, R76). -/
def translateHeld (t : Thread) (fetch : Bool) (acc : BitVec 4) (faddr va : Word) : Eff Tlb := do
  let s ← get
  if s.untranslated t.secure then fail .page faddr acc 0
  match s.held t fetch va with
  | some e =>
    modify fun s => s.mapCore t.ctx.core.toNat fun c =>
      if fetch then { c with itlb := tlbInsert e 32 c.itlb } else { c with dtlb := tlbInsert e 64 c.dtlb }
    pure e
  | none =>
    if s.walks.any fun w => w.ctx = t.ctx ∧ w.va = va ∧ w.fetch = fetch then waitFor .access
    else
      let w : Walk := { cluster := t.cluster, ctx := t.ctx, secure := t.secure, asid := t.asid, va := va,
                        fetch := fetch, acc := acc, faddr := faddr }
      modify fun s => { s with walks := s.walks ++ [w] }
      waitFor .access

/-- The translation of a unit that does not wait: the cluster's L2 TLB, or the page table as it stands (R76). -/
def translateNow (t : Thread) (acc : BitVec 4) (faddr va : Word) : Eff Tlb := do
  let s ← get
  if s.untranslated t.secure then fail .page faddr acc 0
  match (s.cluster t.cluster).tlb.find? fun e => e.covers t.secure t.asid va with
  | some e => pure e
  | none =>
    readSources t acc (s.walkLines t.secure t.asid va)
    match s.walk t.secure t.asid va with
    | .ok e =>
      modify fun s => s.mapCluster t.cluster fun k => { k with tlb := tlbInsert e 2048 k.tlb }
      pure e
    | .error d => fail .page faddr acc d

/-- A read of a line with a pts is answered by the cluster's own copy (R274). -/
def State.readable (s : State) (cluster line : Nat) (pts : Ts) : Bool :=
  match SMap.find (s.cluster cluster).l1 line with
  | some k => tsLe pts k.stamp.rts
  | none => false

/-- The checks that follow a translation (R73, R75, R113), and the place it gives. The region table is looked at as it
stands, but for a read that an L1 copy still answers (R80; log 55). -/
def placeOf (t : Thread) (need : Need) (acc : BitVec 4) (faddr : Word) (e : Tlb) (va : Word) : Eff Place := do
  let s ← get
  let pa := e.pa va
  if pa < 2 ^ 51 ∧ s.hbmEnd ≤ pa then fail .page faddr acc 2
  let copy := (need == .read || need == .fetch) && (e.type == 0 || e.type == 2) &&
    s.readable t.cluster (pa / 128) t.pts
  if e.world ≠ t.secure ∨ (!copy ∧ s.secureMem pa ≠ t.secure) then fail .world faddr acc
  let allowed := match need with
    | .read => e.r
    | .write => e.w
    | .both => e.r && e.w
    | .fetch => e.x && e.type == 0
  if !allowed then fail .perm faddr acc
  pure (match e.type.toNat with
    | 1 => .purse pa e.pexp
    | 3 => .host (pa - 2 ^ 51)
    | _ => .mem pa)

/-- An address of any class to its place, with the translation it took (R67 to R75). `now` is for units that do not
wait. -/
def locateEntry (now : Bool) (t : Thread) (need : Need) (acc : BitVec 4) (faddr va : Word) :
    Eff (Place × Option Tlb) := do
  if isWindow va then
    match (← get).window t va with
    | .ok p => pure (p, none)
    | .error c => fail c faddr acc
  else if isUser va then
    let e ← if now then translateNow t acc faddr va else translateHeld t false acc faddr va
    let p ← placeOf t need acc faddr e va
    pure (p, some e)
  else fail .page faddr acc 3

/-- An address of any class to its place. -/
def locate (now : Bool) (t : Thread) (need : Need) (acc : BitVec 4) (faddr va : Word) : Eff Place := do
  let r ← locateEntry now t need acc faddr va
  return r.1

/-- The place of an address by translations taken earlier (R205, R223): windows by their own decoding. -/
def locateBy (pages : List Tlb) (t : Thread) (acc : BitVec 4) (va : Word) : Eff Place := do
  if isWindow va then
    match (← get).window t va with
    | .ok p => pure p
    | .error c => fail c va acc
  else
    match pages.find? fun e => e.covers t.secure t.asid va with
    | some e =>
      let pa := e.pa va
      pure (match e.type.toNat with
        | 1 => .purse pa e.pexp
        | 3 => .host (pa - 2 ^ 51)
        | _ => .mem pa)
    | none => fail .page va acc

/-! ## Soft errors (R364, R380 to R382) -/

/-- The physical address lies in the key-value region of a world (R403). -/
def State.inKvRegion (s : State) (secure : Bool) (pa : Nat) : Bool :=
  let w := s.world secure
  w.kvLo.getLsbD 63 && decide (field w.kvLo 51 21 ≤ pa / 2 ^ 21) && decide (pa / 2 ^ 21 ≤ field w.kvHi 51 21)

/-- Where the other copy of a 32-bit word of a key-value page's state, handle or scale words lies, as line and word; a
word of the reserved lines has none (R351). -/
def kvPartner (line : Nat) (word : BitVec 5) : Option (Nat × BitVec 5) :=
  match line % 256 with
  | 0 => some (line, word ^^^ 16)
  | 1 | 2 | 5 | 6 => some (line + 2, word)
  | 3 | 4 | 7 | 8 => some (line - 2, word)
  | _ => none

/-- A payload half with bit plane k read as zeros (R364; log 34). -/
def dropPlane (e4m3 : Bool) (d : Nat) (k : Nat) : Nat :=
  let w := if e4m3 then 8 else 16
  let mask := (List.range (1024 / w)).foldl (fun m i => m + 2 ^ (w * i + k)) 0
  d &&& (2 ^ 1024 - 1 - mask)

/-- The errors that a fill of a line of a key-value page finds (R364): a tolerated payload plane reads as zeros, and a
state, handle or scale word is taken from its other copy, which is written into both, where that one is sound
(log 28, 34). -/
def meetKvErrors (t : Thread) (acc : BitVec 4) (line die : Nat) : Eff Unit := do
  let s ← get
  if !s.inKvRegion t.secure (line * 128) then return ()
  let e4m3 := decide (field (s.ctx t.ctx).kvcfg 4 0 = 4)
  let mine := s.softErrors.filter fun e => decide (e.key = line) && (e.plane.isSome || e.source == 6)
  mine.forM fun e => do
    let s ← get
    let gone := { s with softErrors := s.softErrors.erase e }
    if !e.fatal then set (gone.logError t.secure false (line * 128))
    else match e.plane with
      | some k =>
        if k.toNat < (s.lbtol.toList.getD die 0).toNat ∧ k.toNat ≤ (if e4m3 then 2 else 6) then
          set { (gone.logError t.secure true (line * 128)) with
            hbm := gone.hbm.writeN (line * 128) 128 (dropPlane e4m3 (gone.hbm.readN (line * 128) 128) k.toNat) }
        else fail .mce 0 acc 0
      | none =>
        match kvPartner line e.word with
        | none => fail .mce 0 acc 6
        | some (l, w) =>
          if gone.softErrors.any fun f => f.source = 6 ∧ f.key = l ∧ f.word = w ∧ f.fatal then fail .mce 0 acc 6
          set { (gone.logError t.secure false (line * 128)) with
            hbm := gone.hbm.writeN (line * 128 + 4 * e.word.toNat) 4 (gone.hbm.readN (l * 128 + 4 * w.toNat) 4) }

/-! ## Homes (R188, R270, R408) -/

/-- The stack of a line of HBM (R73, R188). -/
def State.stackOf (s : State) (line : Nat) : Nat :=
  let st := s.enabledStacks
  st.getD (line % Nat.max st.length 1) 0

/-- The enabled clusters of a die. -/
def State.dieClusters (s : State) (die : Nat) : List Nat :=
  (List.range 128).filterMap fun i => if s.enabled (128 * die + i) then some (128 * die + i) else none

/-- The home slice of a line (R188), and the set it falls in there (R408). -/
def State.homeOf (s : State) (line : Nat) : Nat × Nat :=
  let n := Nat.max s.enabledStacks.length 1
  let die := s.stackOf line / 2
  if s.encl = BitVec.allOnes 1024 then (128 * die + line / n % 128, line / n / 128 % 256)
  else
    let cs := s.dieClusters die
    let c := Nat.max cs.length 1
    (cs.getD (line / n % c) 0, line / n / c % 256)

/-- A line brought into its home slice and made the most recently used (R278, R408). A refill follows the line's own
write-back: an access waits for it beforehand, and one whose own earlier part has evicted the line has seen it end. -/
def State.l2Touch (s : State) (line : Nat) : State :=
  match s.l2.find? fun x => x.line = line with
  | some x => { s with l2 := x :: s.l2.filter fun y => y.line ≠ line }
  | none =>
    let home := s.homeOf line
    let set := s.l2.filter fun x => s.homeOf x.line = home
    let s :=
      if set.length < 16 then s
      else match set.getLast? with
        | none => s
        | some v =>
          let s := s.mapCluster home.1 fun k => { k with mts := tsMax k.mts v.stamp.rts }
          { s with
            l2 := s.l2.filter fun x => x.line ≠ v.line
            l2Writebacks := if v.dirty then s.l2Writebacks ++ [v.line] else s.l2Writebacks }
    let mts := (s.cluster home.1).mts
    { s with
      l2Writebacks := s.l2Writebacks.filter fun x => x ≠ line
      l2 := { line := line, stamp := { wts := mts, rts := mts }, dirty := false,
                     view := (s.viewOf line).map fun r => s.viewLine r line } :: s.l2 }

/-- The line as its home slice holds it. -/
def State.l2Line (s : State) (line : Nat) : L2Line :=
  (s.l2.find? fun x => x.line = line).getD { line := line, stamp := ⟨s.stampBase, s.stampBase⟩, dirty := false, view := none }

def State.setL2 (s : State) (x : L2Line) : State :=
  { s with l2 := s.l2.map fun y => if y.line = x.line then x else y }

/-- The data of a line at its home: the decoded view, or HBM's bytes. -/
def State.lineData (s : State) (line : Nat) : Vec :=
  match (s.l2Line line).view with
  | some v => v
  | none => BitVec.ofNat 1024 (s.hbm.readN (line * 128) 128)

/-- A copy put into an L1: a full slice drops one of its copies (R189, R278; log 12). -/
def Cluster.l1Put (k : Cluster) (line : Nat) (x : L1Line) : Cluster :=
  if (SMap.find k.l1 line).isSome then { k with l1 := SMap.put k.l1 line x }
  else
    let slice := k.l1.filter fun e => e.1 % 8 = line % 8
    let l1 := if slice.length < 512 then k.l1 else match slice.head? with
      | some e => SMap.erase k.l1 e.1
      | none => k.l1
    { k with l1 := SMap.put l1 line x }

/-- A load's or prefetch's renewal at the home, with the copy it brings (R274). -/
def State.renew (s : State) (cluster line : Nat) (pts : Ts) (lease : BitVec 8) (keep : Bool) : State :=
  let s := s.l2Touch line
  let x := s.l2Line line
  let st : Stamp := { x.stamp with rts := tsMax x.stamp.rts (pts + lease.zeroExtend 20) }
  let s := (s.setL2 { x with stamp := st }).assign st.rts
  if keep then s.mapCluster cluster fun k => k.l1Put line { data := s.lineData line, stamp := st } else s

/-- The work is the copy of a `TLD`, all of whose checks but that of its data were made when it was issued (R205). -/
def Thread.checked (t : Thread) : Bool :=
  match t.unit with
  | some (.tile ..) => true
  | _ => false

/-- The fault that a fill of a view line raises (R102), if the line is one. -/
def State.fillFault (s : State) (line : Nat) : Option (Cause × BitVec 4) :=
  (s.viewOf line).bind fun r => s.viewFault r line

/-- The lines that a view line is decoded from. -/
def State.sourceLines (s : State) (line : Nat) : List Nat :=
  match s.viewOf line with
  | none => []
  | some r => distinct ((r.sources line).flatMap fun e =>
      (List.range ((e.1 + e.2 - 1) / 128 - e.1 / 128 + 1)).map (e.1 / 128 + ·))

/-- A fill of a line into its home slice may be made: its data is sound, and its own faults are raised (R102, R364,
R381). -/
def readyFill (t : Thread) (acc : BitVec 4) (faddr : Word) (line : Nat) : Eff Unit := do
  let s ← get
  if !t.checked then
    match s.fillFault line with
    | some (c, d) => fail c faddr acc d
    | none => pure ()
  if (s.viewOf line).isSome then readSources t acc (s.sourceLines line)
  else
    meetError t.secure acc 0 line (line * 128)
    meetKvErrors t acc line (s.stackOf line / 2)

/-- A line of a NORMAL or ASSAY page may be accessed at once with a pts, or the access waits for what it needs: a
write-back (R408), or the host's data for a line it owns (R336). A load that an L1 copy answers needs nothing; a fill or
renewal is checked at the memory side (R80) and raises the fill's own faults (R102). -/
def readyLine (t : Thread) (acc : BitVec 4) (faddr : Word) (line : Nat) (store : Bool) (pts : Ts) : Eff Unit := do
  let s ← get
  let held := (s.l2.find? fun x => x.line = line).isSome
  if !store && s.readable t.cluster line pts then meetError t.secure acc 1 line (line * 128)
  else
    if !(t.checked || store && held) && s.secureMem (line * 128) != t.secure then fail .world faddr acc
    if s.l2Writebacks.contains line then waitFor .access
    if !store then readOwned line
    if held then meetError t.secure acc 1 line (line * 128) else readyFill t acc faddr line

/-- A load from a line (R274): the line's data, the pts after it, and whether a reply carries it. -/
def loadLine (t : Thread) (line : Nat) (pts : Ts) : Eff (Vec × Ts × Bool) := do
  let s ← get
  match SMap.find (s.cluster t.cluster).l1 line with
  | some k =>
    if tsLe pts k.stamp.rts then
      let p := tsMax pts k.stamp.wts
      set (s.assign p)
      return (k.data, p, false)
  | none => pure ()
  let s := s.renew t.cluster line pts t.lease true
  let p := tsMax pts (s.l2Line line).stamp.wts
  set (s.assign p)
  return (s.lineData line, p, true)

/-- The host is told to give up its copy of a line of HBM that a store or an atomic of a context is performed in, which
stays outstanding in SOUT (R288, R336). -/
def State.tellHost (s : State) (c : CtxId) (line : Nat) : State :=
  if s.hostCoherent line then
    { ((s.mapCtx c fun k => { k with sout := k.sout + 1 }).emit (.biSnpInv line)) with
      backInvals := s.backInvals ++ [{ line := line, forData := false, owners := [c] }] }
  else s

/-- A store's jump at a line's home, and its own cluster's copy (R275). -/
def State.storeLine (s : State) (t : Thread) (line off n v : Nat) (pts : Ts) : State × Ts :=
  let s := s.l2Touch line
  let x := s.l2Line line
  let st := x.stamp.store pts
  let s := { s with hbm := s.hbm.writeN (line * 128 + off) n v }
  let s := (s.setL2 { x with stamp := st, dirty := true }).assign st.wts
  let k := s.cluster t.cluster
  let s := if (SMap.find k.l1 line).isSome then
      s.setCluster t.cluster (k.l1Put line { data := s.lineData line, stamp := st })
    else s
  (s.tellHost t.ctx line, st.wts)

/-! ## Deposit caches (R270, R278) -/

/-- The set of a purse line: its stack and the set there (R270). -/
def State.depositSet (s : State) (line : Nat) : Nat × Nat :=
  (s.stackOf line, line / Nat.max s.enabledStacks.length 1 % 16384)

/-- A purse line brought into its deposit cache and made the most recently used. -/
def State.depositTouch (s : State) (line : Nat) : State :=
  match s.deposit.find? fun x => x.line = line with
  | some x => { s with deposit := x :: s.deposit.filter fun y => y.line ≠ line }
  | none =>
    let home := s.depositSet line
    let set := s.deposit.filter fun x => s.depositSet x.line = home
    let s :=
      if set.length < 24 then s
      else match set.getLast? with
        | none => s
        | some v => { s with
            depositMts := SMap.put s.depositMts home.1 (tsMax (SMap.at s.depositMts s.stampBase home.1) v.stamp.rts)
            deposit := s.deposit.filter fun x => x.line ≠ v.line
            hbm := if v.dirty then s.hbm.writeN (v.line * 128) 128 v.data.toNat else s.hbm
            depositWritebacks := if v.dirty then s.depositWritebacks ++ [v.line] else s.depositWritebacks }
    let mts := SMap.at s.depositMts s.stampBase home.1
    { s with deposit := { line := line, data := BitVec.ofNat 1024 (s.hbm.readN (line * 128) 128),
                          stamp := { wts := mts, rts := mts }, dirty := false } :: s.deposit }

def State.depositLine (s : State) (line : Nat) : DepositLine :=
  (s.deposit.find? fun x => x.line = line).getD
    { line := line, data := 0, stamp := ⟨s.stampBase, s.stampBase⟩, dirty := false }

def State.setDeposit (s : State) (x : DepositLine) : State :=
  { s with deposit := s.deposit.map fun y => if y.line = x.line then x else y }

/-- The cell of a line at an offset (R258). -/
def DepositLine.cell (x : DepositLine) (off : Nat) : Cell := .ofBits (x.data.toNat / 2 ^ (8 * off) % 2 ^ 128)

/-- A number with `w` bits at a position replaced. -/
def setBits (x pos w v : Nat) : Nat :=
  x % 2 ^ pos + v % 2 ^ w * 2 ^ pos + x / 2 ^ (pos + w) * 2 ^ (pos + w)

def DepositLine.setCell (x : DepositLine) (off : Nat) (c : Cell) : DepositLine :=
  { x with data := BitVec.ofNat 1024 (setBits x.data.toNat (8 * off) 128 c.bits), dirty := true }

/-- A purse line is used at its home: the soft errors of the deposit cache, or of HBM where the line is filled, are met (R270,
R380, R381). -/
def meetPurse (secure : Bool) (acc : BitVec 4) (line : Nat) : Eff Unit := do
  let held := ((← get).deposit.find? fun x => x.line = line).isSome
  meetError secure acc (if held then 2 else 0) line (line * 128)

/-- A purse line may be read at once, or the access waits for its write-back (R270). -/
def readyPurse (t : Thread) (acc : BitVec 4) (line : Nat) : Eff Unit := do
  if (← get).depositWritebacks.contains line then waitFor .access
  meetPurse t.secure acc line

/-- A read of a cell at its home (R276): the cell, and the pts after it. -/
def loadCell (pa : Nat) (pts : Ts) : Eff (Cell × Ts) := do
  let s := (← get).depositTouch (pa / 128)
  let x := s.depositLine (pa / 128)
  let p := tsMax pts x.stamp.wts
  set ((s.setDeposit { x with stamp := x.stamp.load pts }).assign p)
  return (x.cell (pa % 128), p)

/-! ## Host lines (R286 to R288, R335, R346) -/

def State.hmts (s : State) (line : Nat) : Ts := if line % 2 = 0 then s.hmts0 else s.hmts1
/-- HMTS of a host line's bridge die raised to a time (R286). -/
def State.raiseHmts (s : State) (line : Nat) (t : Ts) : State :=
  let s := if line % 2 = 0 then { s with hmts0 := tsMax s.hmts0 t } else { s with hmts1 := tsMax s.hmts1 t }
  s.assign t

def State.hostLine (s : State) (line : Nat) : Option HostLine := s.hostLines.find? fun x => x.line = line
def State.writeEntry (s : State) (line : Nat) : Option WriteEntry := s.writeEntries.find? fun x => x.line = line
def State.dropHostLine (s : State) (line : Nat) : State :=
  { s with hostLines := s.hostLines.filter fun x => x.line ≠ line }
def State.setHostLine (s : State) (x : HostLine) : State :=
  { s with hostLines := x :: s.hostLines.filter fun y => y.line ≠ x.line }

/-- A mask of n bytes from an offset. -/
def byteMask (off n : Nat) : BitVec 64 := BitVec.ofNat 64 ((2 ^ n - 1) * 2 ^ off)

/-- A superseded copy answers the load: it may when pts does not exceed its rts (R286); whether it does is free
(log 29). -/
def State.fromSuperseded (s : State) (line : Nat) (pts : Ts) : Option Superseded :=
  match s.superseded.find? fun x => x.line = line with
  | some x => if tsLe pts x.stamp.rts && Config.schedule s.choices % 2 == 0 then some x else none
  | none => none

/-- A fill of a host line asked for, or joined by a load that does not wait for it yet (R335): RdShared, or RdOwn for an
atomic. -/
def State.askHost (s : State) (line : Nat) (own : Bool) (w : Waiter) : State :=
  if s.hostFills.any fun f => f.line = line then
    { s with hostFills := s.hostFills.map fun f =>
        if f.line = line ∧ ¬f.taken ∧ ¬(f.waiters.any fun x => x.ctx = w.ctx ∧ x.unit = w.unit) then
          { f with waiters := f.waiters ++ [w] }
        else f }
  else
    { (s.emit (if own then .rdOwn line else .rdShared line)) with
      hostFills := s.hostFills ++ [{ line := line, own := own, waiters := [w], taken := false }] }

/-- The answer that a load of a thread has received for a line that the host had taken away meanwhile (R287). -/
def State.answerFor (s : State) (t : Thread) (line : Nat) : Option HostAnswer :=
  match t.unit with
  | none => (s.ctx t.ctx).hostAnswers.find? fun a => a.line = line
  | some u => (s.unitAnswers.find? fun e => e.1 = u ∧ e.2.line = line).map (·.2)

/-- The answers to a forked unit are used up (R287). -/
def State.dropAnswers (s : State) (u : ForkUnit) : State :=
  { s with unitAnswers := s.unitAnswers.filter fun e => e.1 ≠ u }

/-- Bytes of a host line may be read at once with a pts, or the load waits (R287, R288, R335). -/
def readyHost (t : Thread) (acc : BitVec 4) (line off n : Nat) (pts : Ts) : Eff Unit := do
  let s ← get
  if (s.answerFor t line).isSome then pure ()
  else if (s.hostLine line).isSome then meetError t.secure acc 7 line (2 ^ 51 + line * 64)
  else match s.writeEntry line with
    | some e => if e.mask &&& byteMask off n ≠ byteMask off n then waitFor .access
    | none =>
      if (s.fromSuperseded line pts).isSome then pure ()
      else
        set (s.askHost line false { ctx := t.ctx, unit := t.unit, pts := pts })
        waitFor .access

/-- The answer that a thread has received for a line is used up: it answers one load (R287). -/
def State.takeAnswer (s : State) (t : Thread) (line : Nat) : State :=
  match t.unit with
  | none => s.mapCtx t.ctx fun k => { k with hostAnswers := k.hostAnswers.filter fun a => a.line ≠ line }
  | some u => { s with unitAnswers := s.unitAnswers.filter fun e => !(e.1 = u && e.2.line = line) }

/-- A load of a host line (R286, R287, R288): its 64 bytes, and the pts after it. One that has been answered stands at the
pts that it had when it was asked for, which HMTS covers. -/
def loadHost (t : Thread) (line : Nat) (pts : Ts) : Eff (Line64 × Ts) := do
  let s ← get
  let until_ := pts + t.lease.zeroExtend 20
  match s.answerFor t line, s.hostLine line, s.writeEntry line with
  | some a, _, _ =>
    let p := tsMax pts a.wts
    set ((s.takeAnswer t line).assign p)
    return (a.data, p)
  | none, some x, _ =>
    let st : Stamp := { x.stamp with rts := tsMax x.stamp.rts until_ }
    let p := tsMax pts st.wts
    set (((s.setHostLine { x with stamp := st }).assign st.rts).assign p)
    return (x.data, p)
  | none, none, some e =>
    let st : Stamp := { e.stamp with rts := tsMax e.stamp.rts until_ }
    let p := tsMax pts st.wts
    set { ((s.assign st.rts).assign p) with
      writeEntries := s.writeEntries.map fun (y : WriteEntry) => if y.line = line then { y with stamp := st } else y }
    return (e.data, p)
  | none, none, none =>
    match s.fromSuperseded line pts with
    | some x =>
      set { s with choices := s.choices + 1 }
      return (x.data, tsMax pts x.stamp.wts)
    | none => return (0, pts)

/-- 64 bytes with n of them replaced. -/
def mergeLine (data : Line64) (off n v : Nat) : Line64 := BitVec.ofNat 512 (setBits data.toNat (8 * off) (8 * n) v)

/-- A store to a host line (R288, R335, R346). -/
def State.storeHost (s : State) (t : Thread) (line off n v : Nat) (pts : Ts) : State × Ts :=
  match s.hostLine line with
  | some x =>
    if x.state = .e ∨ x.state = .m then
      let st := x.stamp.store pts
      ((s.setHostLine { x with state := .m, data := mergeLine x.data off n v, stamp := st }).assign st.wts, st.wts)
    else posted s (x.stamp.rts)
  | none => posted s (s.hmts line)
where
  posted (s : State) (rts : Ts) : State × Ts :=
    let e := (s.writeEntry line).getD
      { line := line, data := 0, mask := 0, stamp := { wts := rts, rts := rts }, owners := [] }
    let st := e.stamp.store pts
    let e' := { e with data := mergeLine e.data off n v, mask := e.mask ||| byteMask off n, stamp := st,
                       owners := e.owners ++ [t.ctx] }
    let s : State := { s.dropHostLine line with
      writeEntries := (s.writeEntries.filter fun (y : WriteEntry) => y.line ≠ line) ++ [e'] }
    let s := (s.mapCtx t.ctx fun k => { k with sout := k.sout + 1 }).emit
      (if n = 64 then .itoMWr line else .wowrInv line)
    (s.assign st.wts, st.wts)

/-! ## Windows (R276) -/

/-- The number of a window granule among the timestamps. -/
def winKey (space off : Nat) : Nat := space * 2 ^ 40 + off / 128

def State.winStamp (s : State) (space off : Nat) : Stamp :=
  SMap.at s.stamps ⟨s.stampBase, s.stampBase⟩ (winKey space off)
def State.setWinStamp (s : State) (space off : Nat) (st : Stamp) : State :=
  { s with stamps := SMap.put s.stamps (winKey space off) st }

/-- The SRAM of a window space. -/
def State.winMem (s : State) (space : Nat) : Memory :=
  match space with
  | 0 => s.coreMem
  | 1 => s.clusterMem
  | _ => s.chipMem
def State.setWinMem (s : State) (space : Nat) (m : Memory) : State :=
  match space with
  | 0 => { s with coreMem := m }
  | 1 => { s with clusterMem := m }
  | _ => { s with chipMem := m }

/-! ## One unit: n bytes that lie in one 128-byte unit -/

/-- The unit may be accessed at once, or the access waits (its faults are raised). Of two host lines the second is looked at
when its turn comes. -/
def readyUnit (t : Thread) (acc : BitVec 4) (faddr : Word) (p : Place) (n : Nat) (pts : Ts) (store : Bool) :
    Eff Unit :=
  match p with
  | .mem pa => readyLine t acc faddr (pa / 128) store pts
  | .purse pa _ => readyPurse t acc (pa / 128)
  | .host ha => if store then pure () else readyHost t acc (ha / 64) (ha % 64) (min n (64 - ha % 64)) pts
  | .win space off => meetError t.secure acc 3 (winKey space off) off

/-- The bytes of the unit as a number, the pts after the load, and whether a reply carries it. A purse cell answers by
convert-on-read, with its flags (R194). -/
def loadUnit (t : Thread) (acc : BitVec 4) (p : Place) (n : Nat) (pts : Ts) : Eff (Nat × Flags × Ts × Bool) :=
  match p with
  | .mem pa => do
    let (d, pts, r) ← loadLine t (pa / 128) pts
    return (d.toNat / 2 ^ (8 * (pa % 128)) % 2 ^ (8 * n), 0, pts, r)
  | .purse pa l => do
    let (c, pts) ← loadCell pa pts
    let (v, fl) := c.read (if n = 4 then fp32 else fp64) l.toInt
    return (v, fl, pts, true)
  | .host ha => do
    let k := min n (64 - ha % 64)
    let (d, pts) ← loadHost t (ha / 64) pts
    let v := d.toNat / 2 ^ (8 * (ha % 64)) % 2 ^ (8 * k)
    if k < n then
      readyHost t acc (ha / 64 + 1) 0 (n - k) pts
      let (d', pts) ← loadHost t (ha / 64 + 1) pts
      return (v + d'.toNat % 2 ^ (8 * (n - k)) * 2 ^ (8 * k), 0, pts, true)
    else return (v, 0, pts, true)
  | .win space off => do
    let s ← get
    let st := s.winStamp space off
    let pts' := tsMax pts st.wts
    set ((s.setWinStamp space off (st.load pts)).assign pts')
    return ((s.winMem space).readN off n, 0, pts', true)

/-- The low n bytes of a number stored to the unit: the pts after it (R275). Purse cells are not stored to. -/
def storeUnit (t : Thread) (p : Place) (n v : Nat) (pts : Ts) : Eff Ts := do
  let s ← get
  match p with
  | .mem pa =>
    let (s, pts) := s.storeLine t (pa / 128) (pa % 128) n v pts
    set s
    return pts
  | .host ha =>
    let k := min n (64 - ha % 64)
    let (s, pts) := s.storeHost t (ha / 64) (ha % 64) k v pts
    if k < n then
      let (s, pts) := s.storeHost t (ha / 64 + 1) 0 (n - k) (v / 2 ^ (8 * k)) pts
      set s
      return pts
    else
      set s
      return pts
  | .win space off =>
    let st := (s.winStamp space off).store pts
    set (((s.setWinStamp space off st).setWinMem space ((s.winMem space).writeN off n v)).assign st.wts)
    return st.wts
  | .purse _ _ => return pts

/-! ## Element accesses (R193) -/

/-- Natural alignment (R193, step 1). -/
def aligned (va : Word) (n : Nat) : Bool := decide (va.toNat % n = 0)

/-- An element load checked and located (R193). -/
def locateLoad (t : Thread) (acc : BitVec 4) (va : Word) (n : Nat) : Eff Place := do
  if !aligned va n then fail .align va acc
  let p ← locate false t .read acc va va
  match p with
  | .purse _ _ => if (n ≠ 4 ∧ n ≠ 8) ∨ va.toNat % 16 ≠ 0 then fail .align va acc
  | _ => pure ()
  return p

/-- A store or atomic checked and located (R103, R193). -/
def locateStore (t : Thread) (need : Need) (acc : BitVec 4) (va : Word) (n : Nat) : Eff Place := do
  if !aligned va n then fail .align va acc
  let p ← locate false t need acc va va
  let s ← get
  match p with
  | .purse _ _ => fail .pstore va acc
  | .mem pa => if s.assayBytes pa n then fail .assayw va acc
  | _ => pure ()
  return p

/-! ## Byte ranges of units that reach memory by themselves (R205, R230) -/

/-- A range cut where it leaves a 128-byte unit: (address, bytes) of each part. -/
def unitParts : Nat → Word → Nat → List (Word × Nat)
  | 0, _, _ => []
  | f + 1, va, n =>
    let k := min n (128 - va.toNat % 128)
    if n = 0 then [] else (va, k) :: unitParts f (va + BitVec.ofNat 64 k) (n - k)

/-- The parts of a range. -/
def partsOf (va : Word) (n : Nat) : List (Word × Nat) := unitParts (n / 128 + 2) va n

/-- Every unit of a range may be accessed at once, or the access waits with nothing performed. -/
def readyRange (find : Word → Eff Place) (t : Thread) (acc : BitVec 4) (store : Bool) (pts : Ts) :
    List (Word × Nat) → Eff Unit
  | [] => pure ()
  | (a, k) :: r => do
    let p ← find a
    readyUnit t acc a p k pts store
    readyRange find t acc store pts r

/-- The bytes of a range read as loads, as one number, with the pts after them; a purse page raises ALIGN. -/
def readRange (find : Word → Eff Place) (t : Thread) (acc : BitVec 4) : List (Word × Nat) → Ts → Eff (Nat × Ts)
  | [], pts => pure (0, pts)
  | (a, k) :: r, pts => do
    let p ← find a
    match p with
    | .purse _ _ => fail .align a acc
    | _ => pure ()
    readyUnit t acc a p k pts false
    let (x, _, pts, _) ← loadUnit t acc p k pts
    let (y, pts) ← readRange find t acc r pts
    return (x + y * 2 ^ (8 * k), pts)

/-- The bytes of a range, each of whose units may be accessed at once, written as stores, ascending, with the pts after
them (R103, R230). -/
def writeRange (find : Word → Eff Place) (t : Thread) (acc : BitVec 4) : List (Word × Nat) → Nat → Ts → Eff Ts
  | [], _, pts => pure pts
  | (a, k) :: r, v, pts => do
    let p ← find a
    match p with
    | .purse _ _ => fail .pstore a acc
    | .mem pa => if (← get).assayBytes pa k then fail .assayw a acc
    | _ => pure ()
    let pts ← storeUnit t p k v pts
    writeRange find t acc r (v / 2 ^ (8 * k)) pts

/-- A byte as it stands at its home. A host line in I stands in host memory, where admission reads it without a fill, but for the
bytes that a write entry for it holds (R288): admission reads those new bytes, though R163 lets it read the old ones as well,
the MODEL's choices (log 61). -/
def State.peekByte (s : State) (p : Place) : Nat :=
  match p with
  | .mem pa => (s.lineData (pa / 128)).toNat / 2 ^ (8 * (pa % 128)) % 256
  | .purse pa _ => (s.hbm.read pa).toNat
  | .host ha =>
    match s.hostLine (ha / 64), s.writeEntry (ha / 64) with
    | some x, _ => x.data.toNat / 2 ^ (8 * (ha % 64)) % 256
    | none, some e =>
      if e.mask.getLsbD (ha % 64) then e.data.toNat / 2 ^ (8 * (ha % 64)) % 256 else (s.host.read ha).toNat
    | none, none => (s.host.read ha).toNat
  | .win space off => ((s.winMem space).read off).toNat

/-- A byte of a place that is about to be updated in some of its bits (R206, R232): a host line is filled first (R335). -/
def currentByte (t : Thread) (acc : BitVec 4) (p : Place) (pts : Ts) : Eff Nat := do
  let s ← get
  match p with
  | .host ha =>
    match s.answerFor t (ha / 64) with
    | some a => return a.data.toNat / 2 ^ (8 * (ha % 64)) % 256
    | none =>
      match s.hostLine (ha / 64), s.writeEntry (ha / 64) with
      | some _, _ => meetError t.secure acc 7 (ha / 64) (2 ^ 51 + ha / 64 * 64)
      | none, some e => if !e.mask.getLsbD (ha % 64) then waitFor .access
      | none, none =>
        set (s.askHost (ha / 64) false { ctx := t.ctx, unit := t.unit, pts := pts })
        waitFor .access
      return (← get).peekByte p
  | _ => return s.peekByte p

/-! ## Stores of the part itself (R275, R334 to R336) -/

/-- A store at a line's home by the part itself (R275, R334), which the host's copy is told of where `inval` (R336). -/
def State.storeHome (s : State) (line off n v : Nat) (pts : Ts) (inval : Bool) : State × Ts :=
  let s := s.l2Touch line
  let x := s.l2Line line
  let st := x.stamp.store pts
  let s := { s with hbm := s.hbm.writeN (line * 128 + off) n v }
  let s := (s.setL2 { x with stamp := st, dirty := true }).assign st.wts
  if inval && s.hostCoherent line then
    ({ (s.emit (.biSnpInv line)) with
      backInvals := s.backInvals ++ [{ line := line, forData := false, owners := [] }] }, st.wts)
  else (s, st.wts)

/-- A store to a host line by the part itself: in the line where it is held in E or M, otherwise through a write entry
whose acknowledgement counts in no context's SOUT (R335, R387). -/
def State.storeHostHome (s : State) (line off n v : Nat) (pts : Ts) : State × Ts :=
  match s.hostLine line with
  | some x =>
    if x.state = .e ∨ x.state = .m then
      let st := x.stamp.store pts
      ((s.setHostLine { x with state := .m, data := mergeLine x.data off n v, stamp := st }).assign st.wts, st.wts)
    else posted s x.stamp.rts
  | none => posted s (s.hmts line)
where
  posted (s : State) (rts : Ts) : State × Ts :=
    let e := (s.writeEntry line).getD
      { line := line, data := 0, mask := 0, stamp := { wts := rts, rts := rts }, owners := [] }
    let st := e.stamp.store pts
    let e' := { e with data := mergeLine e.data off n v, mask := e.mask ||| byteMask off n, stamp := st }
    let s : State := { s.dropHostLine line with
      writeEntries := (s.writeEntries.filter fun (y : WriteEntry) => y.line ≠ line) ++ [e'] }
    ((s.emit (if n = 64 then .itoMWr line else .wowrInv line)).assign st.wts, st.wts)

/-- The host's copy of a line of HBM that the part itself has written is taken back (R336). -/
def State.snatch (s : State) (line : Nat) : State :=
  if s.hostCoherent line then
    { (s.emit (.biSnpInv line)) with backInvals := s.backInvals ++ [{ line := line, forData := false, owners := [] }] }
  else s

/-- Bytes of a host line written by the part with no place in the global order: in the line where it is held in E or M,
otherwise through a write entry (R335, R343). -/
def State.pokeHost (s : State) (line off n v : Nat) : State :=
  match s.hostLine line with
  | some x =>
    if x.state = .e ∨ x.state = .m then s.setHostLine { x with state := .m, data := mergeLine x.data off n v }
    else posted s x.stamp.rts
  | none => posted s (s.hmts line)
where
  posted (s : State) (rts : Ts) : State :=
    let e := (s.writeEntry line).getD
      { line := line, data := 0, mask := 0, stamp := { wts := rts, rts := rts }, owners := [] }
    let e' := { e with data := mergeLine e.data off n v, mask := e.mask ||| byteMask off n }
    let s : State := { s.dropHostLine line with
      writeEntries := (s.writeEntries.filter fun (y : WriteEntry) => y.line ≠ line) ++ [e'] }
    s.emit (if n = 64 then .itoMWr line else .wowrInv line)

/-- The part may store bytes of HBM by itself for a world: they lie before the end of HBM, in that world's memory, and in no
range that only `CPYA` writes (R73, R85, R103; log 46, 65). -/
def State.mayStore (s : State) (secure : Bool) (pa n : Nat) : Bool :=
  decide (pa + n ≤ s.hbmEnd) && s.secureMem pa == secure && s.secureMem (pa + n - 1) == secure && !s.assayBytes pa n

/-- Bytes of HBM written by the part for a world with no place in the global order, in each line that it may store to, and
the host's copy of it taken back (R336). -/
def State.pokeHome (s : State) (secure : Bool) (pa n v : Nat) : State :=
  (List.range ((pa + n - 1) / 128 - pa / 128 + 1)).foldl (fun s i =>
    let line := pa / 128 + i
    let lo := Nat.max pa (line * 128)
    let k := Nat.min (pa + n) (line * 128 + 128) - lo
    if s.mayStore secure lo k then { s.snatch line with hbm := s.hbm.writeN lo k (v / 2 ^ (8 * (lo - pa))) } else s) s

/-- The 32 bytes of a trace record of a world stored at an address: in host memory by bit 51, otherwise in HBM where the part
may store (log 46). -/
def State.pokeRecord (s : State) (secure : Bool) (pa v : Nat) : State :=
  if 2 ^ 51 ≤ pa then s.pokeHost ((pa - 2 ^ 51) / 64) ((pa - 2 ^ 51) % 64) 32 v else s.pokeHome secure pa 32 v

/-! ## Traces (R342, R343) -/

/-- A trace record written to the ring of a die and world, or discarded when there is no ring (R342). -/
def State.trace (s : State) (secure : Bool) (die : Nat) (type : BitVec 4) (c : CtxId) (sstep : BitVec 8)
    (tag : BitVec 16) (data0 : Word) (launchid data1 : BitVec 32) : State :=
  let w := s.world secure
  let r := SMap.at w.traces .reset die
  if r.log2 = 0 then s
  else
    let mask : BitVec 20 := BitVec.ofNat 20 (2 ^ r.log2.toNat - 1)
    let next := (r.head + 1) &&& mask
    let full := next == r.tail &&& mask
    let lost := if full then (if r.lost = 0xFFFF then r.lost else r.lost + 1) else r.lost
    let tail := if full then (r.tail + 1) &&& mask else r.tail
    let w1 : Word := type ++ lost ++ c.core ++ c.ctx ++ sstep ++ (0 : BitVec 5) ++ tag
    let s := s.pokeRecord secure (r.base.toNat + 32 * (r.head &&& mask).toNat)
      (packElems 64 [s.time.toNat, w1.toNat, data0.toNat, (launchid ++ data1).toNat])
    s.setWorld secure { w with traces := SMap.put w.traces die { r with head := next, tail := tail, lost := lost } }

end Sys2Proof.Machine
end

