-- ==== Sys2Proof/Machine/Decision.lean ====
section
/-! DEFINITION. The decisions of the schedulers: passes, clusters by world, producers and their demand, what a queue would
be placed on, and what a decision grants and asks to stop (R44, R48 to R59, R62 to R65, R374, R390). -/

namespace Sys2Proof.Machine

/-! ## Queues and passes (R44, R48 to R50) -/

/-- The queues of a world (R44). -/
def worldQueues (secure : Bool) : List (BitVec 6) :=
  (List.range 32).map fun i => BitVec.ofNat 6 (if secure then 32 + i else i)

/-- Pass a is lower than pass b (R49). -/
def passLt (a b : BitVec 32) : Bool := (a - b).msb

/-- The queue has an admitted launch that is not complete (R50): one whose completion record is being written is (R386,
R387). -/
def State.backlogged (s : State) (q : BitVec 6) : Bool :=
  match (s.queue q).admitted with
  | none => false
  | some l => match l.phase with
    | .recorded _ => false
    | _ => true

/-- The queue with the lowest pass of a list; ties go to the earlier one (R51). -/
def State.lowestPass (s : State) : List (BitVec 6) → Option (BitVec 6)
  | [] => none
  | q :: r => match State.lowestPass s r with
    | none => some q
    | some o => if passLt (s.queue o).pass (s.queue q).pass then some o else some q

/-- The queue with the highest pass of a list; ties go to the earlier one (log 38). -/
def State.highestPass (s : State) : List (BitVec 6) → Option (BitVec 6)
  | [] => none
  | q :: r => match State.highestPass s r with
    | none => some q
    | some o => if passLt (s.queue q).pass (s.queue o).pass then some o else some q

/-- The pass of a queue that becomes backlogged (R50). -/
def State.raisePass (s : State) (q : BitVec 6) : State :=
  match s.lowestPass ((worldQueues (queueSecure q)).filter fun o => o ≠ q ∧ s.backlogged o) with
  | none => s
  | some o => s.mapQueue q fun k => { k with pass := if passLt k.pass (s.queue o).pass then (s.queue o).pass else k.pass }

/-- The stride of a queue (R48). -/
def Queue.stride (k : Queue) : BitVec 32 := BitVec.ofNat 32 (2 ^ 20 / Nat.max k.tickets.toNat 1)

/-! ## Pre-emption requests (R58, R374) -/

/-- The launch is placed: it holds clusters, and is not complete (R52, R58). -/
def Launch.placed (l : Launch) : Bool :=
  match l.phase with
  | .boundary | .running | .ended => !l.clusters.isEmpty
  | _ => false

/-- The save area can hold the launch, so that it may be pre-empted (R374). -/
def State.savable (s : State) (q : BitVec 6) : Bool :=
  let log := (s.world (queueSecure q)).savelog2.toNat
  decide (log ≠ 0) && decide ((s.launch q).nclus * 2 ^ 21 ≤ 2 ^ log)

/-- A pre-emption request: it makes a pending one hard, and has no effect or lapses as R58 and R374 state (log 38). -/
def State.requestPreempt (s : State) (q : BitVec 6) (hard : Bool) : State :=
  if (s.launch q).placed && s.savable q then
    s.mapLaunch q fun l => { l with preempt := some (hard || l.preempt = some true) }
  else s

/-! ## Clusters by world (R52, R62 to R64) -/

/-- The cluster is neither placed nor reserved (R63). -/
def Cluster.idle (k : Cluster) : Bool := k.placed.isNone && k.reserved.isNone

/-- The clusters in the order of their spread keys (R64). -/
def spreadOrder : List Nat := (List.range 1024).map fun i => i % 8 * 128 + i / 8

/-- The clusters that decisions have granted to launches not yet placed there, and those that placing these will reserve,
each with the LAUNCHID that it is for (R51, R55). -/
def State.promised (s : State) (secure : Bool) : List (Nat × BitVec 32) :=
  (worldQueues secure).flatMap fun q =>
    let l := s.launch q
    match l.start with
    | some st => (if l.clusters.isEmpty then st.clusters.map fun p => (p, l.launchid) else []) ++ st.held
    | none => []

/-- The clusters that decisions of either world have granted or promised. -/
def State.allPromised (s : State) : List Nat := (s.promised false ++ s.promised true).map (·.1)

/-- The world a cluster belongs to: a changed CWORLD bit counts once it is neither placed nor reserved, nor promised
(R63). -/
def State.worldOf (s : State) (promised : List Nat) (p : Nat) : Bool :=
  let k := s.cluster p
  if k.idle && !promised.contains p then s.cworld.getLsbD p else k.secure

/-- The enabled clusters of a world, in key order. -/
def State.worldClusters (s : State) (secure : Bool) : List Nat :=
  let promised := s.allPromised
  spreadOrder.filter fun p => s.enabled p && s.worldOf promised p == secure

/-- A cluster that a launch may be given: enabled, free, in its world with nothing to clear, and not reserved or promised
for another launch (R63, R64). -/
def State.candidate (s : State) (promised : List (Nat × BitVec 32)) (secure : Bool) (id : BitVec 32) (p : Nat) : Bool :=
  let k := s.cluster p
  s.enabled p && k.placed.isNone && k.secure == secure && (k.reserved.isSome || s.cworld.getLsbD p == secure) &&
    (match k.reserved with
     | none => true
     | some r => r == id) &&
    promised.all fun e => e.1 != p || e.2 == id

/-- The clusters that a launch may be given, in key order (R64). -/
def State.candidates (s : State) (l : Launch) : List Nat :=
  spreadOrder.filter (s.candidate (s.promised l.secure) l.secure l.launchid)

/-! ## Producers and their demand (R54, R55) -/

/-- The admitted launch of a world with a LAUNCHID. -/
def State.byId (s : State) (secure : Bool) (id : BitVec 32) : Option Launch :=
  ((worldQueues secure).filterMap fun q => (s.queue q).admitted).find? fun l => l.launchid = id

/-- The LAUNCHIDs reached from a list through unsatisfied producers. -/
def State.reach (s : State) (secure : Bool) : Nat → List (BitVec 32) → List (BitVec 32) → List (BitVec 32)
  | 0, _, seen => seen
  | _, [], seen => seen
  | n + 1, id :: r, seen =>
    if seen.contains id then State.reach s secure n r seen
    else match s.byId secure id with
      | none => State.reach s secure n r seen
      | some l => State.reach s secure n (r ++ l.producers) (id :: seen)

/-- The producer closure of a launch, in the order of admission (R54, R64). -/
def State.closure (s : State) (l : Launch) : List Launch :=
  sortBy (fun a b => decide (a.order ≤ b.order))
    ((s.reach l.secure 1024 l.producers []).filterMap (s.byId l.secure))

/-- The unplaced demand of a launch (R54): none is left of one that a decision has granted its clusters. -/
def Launch.demand (l : Launch) : Nat :=
  match l.phase with
  | .unplaced | .saved _ => if l.start.isSome then 0 else l.nclus
  | _ => 0

/-- The number of clusters reserved, or about to be, for a launch of a world. -/
def State.reservedFor (s : State) (secure : Bool) (id : BitVec 32) : Nat :=
  (s.clusters.filter fun e => e.2.reserved == some id && e.2.secure == secure).length +
    ((s.promised secure).filter fun e => e.2 == id).length

/-- The clusters that a launch must resume on, where a hard pre-emption has stopped it (R65). -/
def Launch.homes (l : Launch) : List Nat :=
  match l.phase, l.saved with
  | .saved true, some im => im.clusters
  | _, _ => []

/-! ## Placeable work (R52, R55, R56, R64, R65, R390) -/

/-- The clusters that retention binds to a launch (R390; log 42). -/
def State.retainedFor (s : State) (l : Launch) (cand : List Nat) : Option (List Nat) :=
  firstSome (fun p => match (s.cluster p).retention with
    | none => none
    | some r =>
      if r.succ = l.launchid ∧ r.asid = l.asid ∧ r.secure = l.secure ∧ r.clusters.length = l.nclus ∧
          r.clusters.all cand.contains then some r.clusters
      else none) cand

/-- The clusters that a launch would be given now, and whether retention gives them (R64, R65, R390). -/
def State.choice (s : State) (l : Launch) : Option (List Nat × Bool) :=
  let cand := s.candidates l
  let lowest := if cand.length < l.nclus then none else some (cand.take l.nclus, false)
  match l.phase with
  | .unplaced => match s.retainedFor l cand with
    | some ps => some (ps, true)
    | none => lowest
  | .saved false => lowest
  | .saved true => if l.homes ≠ [] ∧ l.homes.all cand.contains then some (l.homes, false) else none
  | _ => none

/-- The clusters that placing a launch on a choice reserves for the launches of its closure, each in turn and in key order:
none where they do not suffice (R55, R64). -/
def State.reserve (s : State) (l : Launch) (chosen : List Nat) : Option (List (Nat × BitVec 32)) :=
  let rec go : List Launch → List Nat → Option (List (Nat × BitVec 32))
    | [], _ => some []
    | m :: r, ps =>
      let n := m.demand - s.reservedFor l.secure m.launchid
      if ps.length < n then none else (go r (ps.drop n)).map fun t => (ps.take n).map (·, m.launchid) ++ t
  go (s.closure l) ((s.candidates l).filter fun p => !chosen.contains p)

/-- What placing a launch comes to: its clusters, whether retention gives them, and the reservations. -/
def State.allot (s : State) (l : Launch) : Option Start :=
  match s.choice l with
  | none => none
  | some (ps, kept) => (s.reserve l ps).map fun r => { since := s.clock, clusters := ps, kept := kept, held := r }

/-- Placing a launch so leaves the launches of its closure the clusters that they must resume on: it takes none of these, and
reserves none for another launch (R56, R65; log 60). -/
def State.sparesHomes (s : State) (l : Launch) (st : Start) : Bool :=
  (s.closure l).all fun m => m.homes.all fun p =>
    !st.clusters.contains p && st.held.all fun e => e.1 != p || e.2 == m.launchid

/-- What placing the launch of a queue comes to, where the queue may be placed from now (R52, R56, R60). -/
def State.plan (s : State) (q : BitVec 6) : Option Start :=
  if s.tripped || !(s.queue q).enable || !s.backlogged q || (s.launch q).start.isSome then none
  else (s.allot (s.launch q)).filter (s.sparesHomes (s.launch q))

/-- The next superstep of the queue's placed launch may start, and no decision has granted it yet (R52, R59, R60). -/
def State.startable (s : State) (q : BitVec 6) : Bool :=
  let l := s.launch q
  !s.tripped && (s.queue q).enable && s.backlogged q && l.phase == .boundary && l.preempt.isNone && l.start.isNone

/-- The queue has placeable work (R52). -/
def State.placeable (s : State) (q : BitVec 6) : Bool := s.startable q || (s.plan q).isSome

/-- The queue that a decision picks next (R51). -/
def State.pick (s : State) (secure : Bool) : Option (BitVec 6) :=
  s.lowestPass ((worldQueues secure).filter s.placeable)

/-! ## Decisions (R51, R58) -/

/-- A queue is granted the start of the next superstep of its launch, on the clusters that it holds or would be placed on
(R51). -/
def State.grant (s : State) (q : BitVec 6) : State :=
  let st : Option Start :=
    if s.startable q then some { since := s.clock, clusters := (s.launch q).clusters, kept := false, held := [] }
    else s.plan q
  s.mapLaunch q fun l => { l with start := st }

/-- Queues are granted one after another, the lowest pass first, until none has placeable work (R51). -/
def State.grants (s : State) (secure : Bool) : Nat → State
  | 0 => s
  | n + 1 => match s.pick secure with
    | none => s
    | some q => State.grants (s.grant q) secure n

/-- The unplaced launch of a backlogged queue lacks clusters: it could not be placed if its queue were picked (R55, R58;
log 38). -/
def State.lacks (s : State) (q : BitVec 6) : Bool :=
  let l := s.launch q
  let waiting := match l.phase with
    | .unplaced | .saved _ => true
    | _ => false
  s.backlogged q && waiting && l.start.isNone && (s.allot l).isNone

/-- The scheduler asks the placed launch with the highest pass to stop, for a queue of lower pass that lacks clusters (R58;
log 38). -/
def State.askStop (s : State) (secure : Bool) : State :=
  match s.highestPass ((worldQueues secure).filter fun q => (s.launch q).placed) with
  | none => s
  | some v =>
    if (worldQueues secure).any fun q => passLt (s.queue q).pass (s.queue v).pass && s.lacks q then s.requestPreempt v false
    else s

/-- A decision of a world's scheduler, as it makes at each decision point (R51, R58; log 38). -/
def State.decision (s : State) (secure : Bool) : State := (s.grants secure 32).askStop secure

/-! ## Appends (R45, R46) -/

/-- An entry appended to a queue, or OVF where it is full (R45). -/
def Queue.append (k : Queue) (e : QueueEntry) : Queue :=
  if k.entries.length < 256 then { k with entries := k.entries ++ [e] } else { k with ovf := true }

/-- The entry was appended by a `LAUNCH` of this cycle. -/
def QueueEntry.fresh (e : QueueEntry) (clock : Nat) : Bool :=
  match e.by_ with
  | some (_, _, t) => t == clock
  | none => false

/-- A host write's entry appended before those that `LAUNCH` has appended in the same cycle: the last of these finds the queue
full, where it is full with the host's (R46, R162). -/
def State.appendHost (s : State) (q : BitVec 6) (e : QueueEntry) : State :=
  let k := s.queue q
  let late := (k.entries.reverse.takeWhile fun x => x.fresh s.clock).reverse
  let early := k.entries.take (k.entries.length - late.length)
  if k.entries.length < 256 then s.setQueue q { k with entries := early ++ e :: late }
  else match late.getLast? with
    | none => s.setQueue q { k with ovf := true }
    | some x =>
      let s := s.setQueue q { k with entries := early ++ e :: late.dropLast, ovf := true }
      match x.by_ with
      | some (c, d, _) =>
        if d = 0 then s else s.mapCtx c fun m => { m with regs := { m.regs with x := m.regs.x.set d.toNat 1 } }
      | none => s

end Sys2Proof.Machine
end

