-- ==== Sys2Proof/WellFormed.lean ====
section
/-! DEFINITION. Which instructions have an encoding (R125): the operand values that the fields of the encodings
can hold and that the encodings' own rules admit. -/

namespace Sys2Proof

/-- The number of elements of a view (R164). -/
def View.elems : View → Nat
  | .q => 128 | .h => 64 | .w => 32 | .d => 16 | .b => 64

/-- The element width in bits of a view (R164). -/
def View.width : View → Nat
  | .q => 8 | .h => 16 | .w => 32 | .d => 64 | .b => 16

/-- The element width in bytes of a view. -/
def View.bytes : View → Nat
  | .q => 1 | .h => 2 | .w => 4 | .d => 8 | .b => 2

/-- The views of the integer vector instructions: .b is not permitted (R164, R174). -/
def View.isInt : View → Bool
  | .b => false
  | _ => true

/-- The views that name a floating-point format an instruction computes in: .q is not permitted (R169, R176). -/
def View.isFloat : View → Bool
  | .q => false
  | _ => true

/-- A J-form SLOT is 0 to 4 (R119, R125). -/
def Target.wf (t : Target) : Bool := t.slot.toNat ≤ 4

/-- The bit field of `EXTR` and `INSR` (R148). -/
def fieldWf (pos : BitVec 6) (len : BitVec 7) : Bool :=
  1 ≤ len.toNat && len.toNat ≤ 64 && pos.toNat + len.toNat ≤ 64

/-- The table size of `JTAB` and `CALLT` (R154). -/
def tableWf (n : BitVec 17) : Bool := 1 ≤ n.toNat && n.toNat ≤ 65536

/-- ACC must be 0 with a purse destination, whose stride is at least 1 (R216). -/
def MmaDst.wf (acc : Bool) : MmaDst → Bool
  | .tile _ => true
  | .purse _ _ stride => !acc && stride != 0

/-- A control register with an RW or W1C field (R157, R399). -/
def CReg.writable : CReg → Bool
  | .roundm | .fflags | .allow | .depthlim | .lease | .status | .tvec | .epc | .kvb | .kvmap | .kvcfg | .mjw
  | .lbtol => true
  | _ => false

/-- The tile operations that name one argument (R241). -/
def Top.unary : Top → Bool
  | .convert | .transpose | .maxrow | .sumrow => true
  | _ => false

/-- The tile operations whose RM must be 0 (R243). -/
def Top.unrounded : Top → Bool
  | .mma | .transpose | .maxrow => true
  | _ => false

/-- ROWS, NIDX and RB of the copy instructions (R229). -/
def copyWf (n : BitVec 13) (rb : BitVec 16) : Bool := 1 ≤ n.toNat && n.toNat ≤ 4096 && rb != 0

/-- The views of a purse addend (R264). -/
def View.isAddend : View → Bool
  | .q => false
  | _ => true

/-- The count of logits of `CONFID` (R354). -/
def confidWf (v : View) (a : VReg) (n : BitVec 12) : Bool :=
  match v with
  | .w => 2 ≤ n.toNat && n.toNat ≤ 32 * (32 - a.toNat)
  | .b => 2 ≤ n.toNat && n.toNat ≤ 64 * (32 - a.toNat)
  | _ => false

/-- The instruction has an encoding that R125 accepts. Every step of the part is well formed. -/
def Instr.wf : Instr → Bool
  | .extr _ _ _ _ pos len | .insr _ _ _ pos len => fieldWf pos len
  | .br _ _ _ _ t | .jmp _ t | .call _ t | .follow _ _ t => t.wf
  | .jtab _ _ _ _ n | .callt _ _ _ _ n => tableWf n
  | .mtc _ r _ => r.writable
  | .fadd _ f _ _ _ _ | .fsub _ f _ _ _ _ | .fmul _ f _ _ _ _ | .ffma _ f _ _ _ _ _ | .fdiv _ f _ _ _ _
  | .fsqrt _ f _ _ _ | .fmin _ f _ _ _ | .fmax _ f _ _ _ | .fcmp _ _ f _ _ _ | .fclass _ f _ _ => f.isFloat
  | .fcvt _ _ c _ _ => c.part == 0
  | .vadd _ v _ _ _ | .vsub _ v _ _ _ | .vmul _ v _ _ _ | .vmulh _ v _ _ _ _ | .vmin _ v _ _ _ _
  | .vmax _ v _ _ _ _ | .vand _ v _ _ _ | .vor _ v _ _ _ | .vxor _ v _ _ _ | .vshl _ v _ _ _ | .vshr _ v _ _ _
  | .vsha _ v _ _ _ | .vcmp _ _ v _ _ _ => v.isInt
  | .vfadd _ v _ _ _ _ | .vfsub _ v _ _ _ _ | .vfmul _ v _ _ _ _ | .vffma _ v _ _ _ _ _ | .vfdiv _ v _ _ _ _
  | .vfsqrt _ v _ _ _ | .vfmin _ v _ _ _ | .vfmax _ v _ _ _ | .vfcmp _ _ v _ _ _ | .vredf _ v _ _ _ => v.isFloat
  | .vslide _ v _ _ _ k => decide (k.toNat ≤ v.elems)
  | .vsortk _ d c _ => d != c
  | .vsegadd _ v fl rm _ _ _ => if fl then v.isFloat else v.isInt && rm == .rne
  | .vredi _ v _ _ _ => v.isInt
  | .mma _ _ _ _ dst acc _ | .mmat _ _ _ _ dst acc _ _ _ _ => dst.wf acc
  | .mmas _ _ _ _ dst acc nnz => dst.wf acc && decide (nnz.toNat ≤ 4096)
  | .cpy2 _ _ _ _ _ rows rb => copyWf rows rb
  | .cpyg _ _ _ _ _ n rb _ => copyWf n rb
  | .cpyc _ _ _ _ _ _ _ rm => rm != .dyn
  | .susp _ _ op _ b cfmt rm _ =>
    rm != .dyn && (op == .convert || cfmt == 0) && (!op.unary || b == 0) && (!op.unrounded || rm == .rne)
  | .padd _ v _ _ _ | .paddv _ v _ _ _ _ _ _ | .pset _ v _ _ _ => v.isAddend
  | .send _ vec a _ _ _ => !vec || decide (a.toNat < 32)
  | .recv _ vec d _ _ => !vec || decide (d.toNat < 32)
  | .confid _ v _ a _ _ n => confidWf v a n
  | .exitk _ _ _ _ nl => 1 ≤ nl.toNat && nl.toNat ≤ 256
  | .kvldWait _ _ _ _ _ n | .kvldMask _ _ _ _ _ n => 1 ≤ n.toNat && n.toNat ≤ 64
  | _ => true

end Sys2Proof
end

