-- ==== Sys2Proof/Decode.lean ====
section
/-! DEFINITION. Slots to instructions (R116 to R125 and the encoding table of every instruction), and back. -/

namespace Sys2Proof

/-- Why a slot is no instruction: each of these raises ILLOP (R125). -/
inductive DecodeError where
  /-- An unassigned major, or 0x3F with bits that are not `ILL`. -/
  | unassignedMajor
  /-- An unassigned FN of an assigned major. -/
  | unassignedFn
  /-- A nonzero reserved field of the form or of the instruction. -/
  | reservedField
  /-- A J-form SLOT of 5 to 7. -/
  | slotRange
  /-- A reserved integer or floating-point condition. -/
  | condition
  /-- A reserved rounding-mode code. -/
  | roundingMode
  /-- A register field out of range (R122). -/
  | registerRange
  /-- A view or size that the instruction does not permit. -/
  | view
  /-- An unassigned control-register number, or `MTC` to a read-only one (R157). -/
  | controlRegister
  /-- An immediate that the instruction's own rule rejects. -/
  | immediate
  /-- A reserved tile operation (R43). -/
  | tileOp
  deriving DecidableEq, Repr

/-- A slot of 96 bits, split into the fields of F-form (R117); the other forms cut the same bits elsewhere. -/
structure Raw where
  maj : BitVec 6
  fn : BitVec 6
  p : Pred
  d : BitVec 6
  a : BitVec 6
  b : BitVec 6
  c : BitVec 6
  mod : BitVec 8
  imm : BitVec 48
  deriving DecidableEq, Repr

/-- The F-form fields of a slot (R116, R117). -/
def Raw.ofSlot (w : BitVec 96) : Raw :=
  { maj := w.extractLsb' 90 6, fn := w.extractLsb' 84 6, p := w.extractLsb' 80 4
    d := w.extractLsb' 74 6, a := w.extractLsb' 68 6, b := w.extractLsb' 62 6, c := w.extractLsb' 56 6
    mod := w.extractLsb' 48 8, imm := w.extractLsb' 0 48 }

/-- F-form (R117); E-form and H-form with CMD, or TOP, SHAPE and LOC, in MOD and IMM48 (R120, R121). -/
def packF (maj fn : BitVec 6) (p : Pred) (d a b c : BitVec 6) (mod : BitVec 8) (imm : BitVec 48) : BitVec 96 :=
  maj ++ fn ++ p ++ d ++ a ++ b ++ c ++ mod ++ imm

/-- W-form (R118) with MOD10 zero. -/
def packW (maj fn : BitVec 6) (p : Pred) (d : BitVec 6) (imm : BitVec 64) : BitVec 96 :=
  maj ++ fn ++ p ++ d ++ (0 : BitVec 10) ++ imm

/-- J-form (R119). -/
def packJ (maj fn : BitVec 6) (p : Pred) (a b : BitVec 6) (cond : BitVec 4) (t : Target) : BitVec 96 :=
  maj ++ fn ++ p ++ a ++ b ++ cond ++ (0 : BitVec 21) ++ t.lineOff ++ t.slot

abbrev Dec := Except DecodeError

/-- Continue when `ok`, else reject with `e`. -/
def need (ok : Bool) (e : DecodeError) : Dec Unit := if ok then .ok () else .error e

/-- A vector register field is below 32 (R122). -/
def decV (f : BitVec 6) : Dec VReg := if f.toNat < 32 then .ok (f.setWidth 5) else .error .registerRange
/-- A mask or tile register field is below 8 (R122). -/
def decM (f : BitVec 6) : Dec (BitVec 3) := if f.toNat < 8 then .ok (f.setWidth 3) else .error .registerRange

def ICond.code : ICond → BitVec 4
  | .eq => 0 | .ne => 1 | .lt => 2 | .ge => 3 | .ltu => 4 | .geu => 5 | .gt => 6 | .le => 7 | .gtu => 8 | .leu => 9

/-- The integer conditions of R123; 0xA to 0xF are reserved. -/
def decICond (c : Nat) : Dec ICond :=
  match c with
  | 0 => .ok .eq | 1 => .ok .ne | 2 => .ok .lt | 3 => .ok .ge | 4 => .ok .ltu | 5 => .ok .geu | 6 => .ok .gt
  | 7 => .ok .le | 8 => .ok .gtu | 9 => .ok .leu | _ => .error .condition

def FCond.code : FCond → BitVec 4
  | .eq => 0 | .ne => 1 | .lt => 2 | .le => 3 | .gt => 4 | .ge => 5 | .un => 6

/-- The floating-point conditions of R123; 0x7 to 0xF are reserved. -/
def decFCond (c : Nat) : Dec FCond :=
  match c with
  | 0 => .ok .eq | 1 => .ok .ne | 2 => .ok .lt | 3 => .ok .le | 4 => .ok .gt | 5 => .ok .ge | 6 => .ok .un
  | _ => .error .condition

def View.code : View → BitVec 3
  | .q => 0 | .h => 1 | .w => 2 | .d => 3 | .b => 4

/-- The view codes of R164; 5 to 7 are reserved. -/
def decView (c : BitVec 3) : Dec View :=
  match c.toNat with
  | 0 => .ok .q | 1 => .ok .h | 2 => .ok .w | 3 => .ok .d | 4 => .ok .b | _ => .error .view

def Rm.code : Rm → BitVec 3
  | .rne => 0 | .rtz => 1 | .rdn => 2 | .rup => 3 | .rna => 4 | .dyn => 7

/-- The rounding-mode codes of R94 in an instruction field; 5 and 6 are reserved. -/
def decRm (c : BitVec 3) : Dec Rm :=
  match c.toNat with
  | 0 => .ok .rne | 1 => .ok .rtz | 2 => .ok .rdn | 3 => .ok .rup | 4 => .ok .rna | 7 => .ok .dyn
  | _ => .error .roundingMode

def Size.code : Size → BitVec 3
  | .q => 0 | .h => 1 | .w => 2 | .d => 3

/-- The scalar sizes of R196; 4 to 7 raise ILLOP. -/
def decSize (c : BitVec 3) : Dec Size :=
  match c.toNat with
  | 0 => .ok .q | 1 => .ok .h | 2 => .ok .w | 3 => .ok .d | _ => .error .view

/-- The control-register numbers of R399. -/
def CReg.number : CReg → BitVec 12
  | .coreid => 0x000 | .stage => 0x001 | .world => 0x002 | .asid => 0x003 | .sstep => 0x004 | .scyc => 0x005
  | .time => 0x006 | .pts => 0x007 | .roundm => 0x010 | .fflags => 0x011 | .allow => 0x020 | .depthlim => 0x021
  | .lease => 0x022 | .status => 0x030 | .tvec => 0x031 | .cause => 0x032 | .fcause => 0x033 | .faddr => 0x034
  | .epc => 0x035 | .kvb => 0x040 | .kvmap => 0x041 | .kvcfg => 0x042 | .mjw => 0x080 | .lbtol => 0x0C0

/-- The register that a number names; every number not listed is unassigned (R157, R399). -/
def decCReg (n : Nat) : Dec CReg :=
  match n with
  | 0x000 => .ok .coreid | 0x001 => .ok .stage | 0x002 => .ok .world | 0x003 => .ok .asid | 0x004 => .ok .sstep
  | 0x005 => .ok .scyc | 0x006 => .ok .time | 0x007 => .ok .pts | 0x010 => .ok .roundm | 0x011 => .ok .fflags
  | 0x020 => .ok .allow | 0x021 => .ok .depthlim | 0x022 => .ok .lease | 0x030 => .ok .status | 0x031 => .ok .tvec
  | 0x032 => .ok .cause | 0x033 => .ok .fcause | 0x034 => .ok .faddr | 0x035 => .ok .epc | 0x040 => .ok .kvb
  | 0x041 => .ok .kvmap | 0x042 => .ok .kvcfg | 0x080 => .ok .mjw | 0x0C0 => .ok .lbtol
  | _ => .error .controlRegister

def TileField.code : TileField → BitVec 3
  | .addr => 0 | .fmt => 1 | .rows => 2 | .cols => 3 | .stride => 4 | .scale => 5

/-- The FIELD codes of R201; 6 and 7 raise ILLOP. -/
def decTileField (c : BitVec 3) : Dec TileField :=
  match c.toNat with
  | 0 => .ok .addr | 1 => .ok .fmt | 2 => .ok .rows | 3 => .ok .cols | 4 => .ok .stride | 5 => .ok .scale
  | _ => .error .immediate

def Top.code : Top → BitVec 8
  | .add => 1 | .sub => 2 | .mul => 3 | .mma => 4 | .scale => 5 | .convert => 6 | .transpose => 7 | .maxrow => 8
  | .sumrow => 9

/-- The tile operation codes of R43; 0x00 and 0x0A to 0xFF are reserved. -/
def decTop (c : Nat) : Dec Top :=
  match c with
  | 1 => .ok .add | 2 => .ok .sub | 3 => .ok .mul | 4 => .ok .mma | 5 => .ok .scale | 6 => .ok .convert
  | 7 => .ok .transpose | 8 => .ok .maxrow | 9 => .ok .sumrow | _ => .error .tileOp

def Fill.code : Fill → BitVec 2
  | .zero => 0 | .ninf => 1 | .pinf => 2

/-- The FILL codes of R216; 3 is ILLOP. -/
def decFill (c : BitVec 2) : Dec Fill :=
  match c.toNat with
  | 0 => .ok .zero | 1 => .ok .ninf | 2 => .ok .pinf | _ => .error .immediate

/-- A bit as a bit vector of width one. -/
def bit (b : Bool) : BitVec 1 := BitVec.ofBool b

/-- MOD of R166: RM, VIEW, XB, Q. -/
def modV (rm view : BitVec 3) (xb q : Bool) : BitVec 8 := rm ++ view ++ bit xb ++ bit q

/-- MOD of R192: SH, SIZE or VIEW, Q, SX. -/
def modM (sh size : BitVec 3) (q sx : Bool) : BitVec 8 := sh ++ size ++ bit q ++ bit sx

/-- The top three bits of MOD: RM of R166, SH of R192, FIELD of R201. -/
def Raw.hi3 (r : Raw) : BitVec 3 := r.mod.extractLsb' 5 3
/-- VIEW or SIZE (R166, R192). -/
def Raw.view (r : Raw) : BitVec 3 := r.mod.extractLsb' 2 3
/-- XB of R166, Q of R192. -/
def Raw.bit1 (r : Raw) : Bool := r.mod.getLsbD 1
/-- Q of R166, SX of R192, I of R146 and R201. -/
def Raw.bit0 (r : Raw) : Bool := r.mod.getLsbD 0
/-- CMD of E-form: slot bits [55:0] (R120). -/
def Raw.cmd (r : Raw) : BitVec 56 := r.mod ++ r.imm

/-- Fields B, C, MOD and IMM48 zero. -/
def Raw.needZeroBCMI (r : Raw) : Dec Unit := need (r.b == 0 && r.c == 0 && r.mod == 0 && r.imm == 0) .reservedField

/-- The register form of majors 0x01 and 0x03 (R142, R144). -/
def decRegForm (r : Raw) (k : Pred → XReg → XReg → XReg → Instr) : Dec Instr := do
  need (r.c == 0 && r.mod == 0 && r.imm == 0) .reservedField
  return k r.p r.d r.a r.b

/-- The immediate form of major 0x02 (R142). -/
def decImmForm (r : Raw) (k : Pred → XReg → XReg → Imm48 → Instr) : Dec Instr := do
  need (r.b == 0 && r.c == 0 && r.mod == 0) .reservedField
  return k r.p r.d r.a r.imm

/-- The immediate shifts of major 0x02: IMM48 from 0 to 63 (R142). -/
def decShiftForm (r : Raw) (k : Pred → XReg → XReg → BitVec 6 → Instr) : Dec Instr := do
  need (r.b == 0 && r.c == 0 && r.mod == 0) .reservedField
  need (r.imm.toNat < 64) .immediate
  return k r.p r.d r.a (r.imm.setWidth 6)

/-- D and A used, everything else zero (R145, R160, R214). -/
def decDA (r : Raw) (k : Pred → XReg → XReg → Instr) : Dec Instr := do
  r.needZeroBCMI
  return k r.p r.d r.a

/-- Only A used. -/
def decA (r : Raw) (k : Pred → XReg → Instr) : Dec Instr := do
  need (r.d == 0) .reservedField
  r.needZeroBCMI
  return k r.p r.a

/-- No field used. -/
def decNone (r : Raw) (k : Pred → Instr) : Dec Instr := do
  need (r.d == 0 && r.a == 0) .reservedField
  r.needZeroBCMI
  return k r.p

def decMajor01 (r : Raw) : Dec Instr :=
  match r.fn.toNat with
  | 0 => decRegForm r .add | 1 => decRegForm r .sub | 2 => decRegForm r .and | 3 => decRegForm r .or
  | 4 => decRegForm r .xor | 5 => decRegForm r .andn | 6 => decRegForm r .shl | 7 => decRegForm r .shr
  | 8 => decRegForm r .sha | 9 => decRegForm r .rotl | 10 => decRegForm r .min | 11 => decRegForm r .max
  | 12 => decRegForm r .minu | 13 => decRegForm r .maxu | _ => .error .unassignedFn

def decMajor02 (r : Raw) : Dec Instr :=
  match r.fn.toNat with
  | 0 => decImmForm r .addi | 1 => decImmForm r .subImm | 2 => decImmForm r .andImm | 3 => decImmForm r .orImm
  | 4 => decImmForm r .xorImm | 5 => decImmForm r .andnImm | 6 => decShiftForm r .shlImm | 7 => decShiftForm r .shrImm
  | 8 => decShiftForm r .shaImm | 9 => decShiftForm r .rotlImm | 10 => decImmForm r .minImm
  | 11 => decImmForm r .maxImm | 12 => decImmForm r .minuImm | 13 => decImmForm r .maxuImm
  | _ => .error .unassignedFn

def decMajor03 (r : Raw) : Dec Instr :=
  match r.fn.toNat with
  | 0 => decRegForm r .mul | 1 => decRegForm r .mulh | 2 => decRegForm r .mulhu | 3 => decRegForm r .div
  | 4 => decRegForm r .divu | 5 => decRegForm r .rem | 6 => decRegForm r .remu | _ => .error .unassignedFn

def decMajor04 (r : Raw) : Dec Instr :=
  match r.fn.toNat with
  | 0 => decDA r .clz | 1 => decDA r .ctz | 2 => decDA r .popc | _ => .error .unassignedFn

/-- `CMP.cc` and `SEL` (R146). -/
def decMajor05 (r : Raw) : Dec Instr :=
  if r.fn.toNat = 0x10 then do
    need (r.mod == 0 && r.imm == 0) .reservedField
    return .sel r.p r.d r.a r.b r.c
  else if r.fn.toNat < 0x10 then do
    let cc ← decICond r.fn.toNat
    need (r.c == 0 && r.mod.toNat < 2) .reservedField
    if r.bit0 then do
      need (r.b == 0) .reservedField
      return .cmp r.p cc r.d r.a (.imm r.imm)
    else do
      need (r.imm == 0) .reservedField
      return .cmp r.p cc r.d r.a (.reg r.b)
  else .error .unassignedFn

/-- `MOVI` (R147): W-form. -/
def decMajor06 (w : BitVec 96) (r : Raw) : Dec Instr :=
  if r.fn = 0 then do
    need (w.extractLsb' 64 10 == 0) .reservedField
    return .movi r.p r.d (w.extractLsb' 0 64)
  else .error .unassignedFn

/-- `LEA`, `EXTR` and `INSR` (R148). -/
def decMajor07 (r : Raw) : Dec Instr :=
  match r.fn.toNat with
  | 0 => do
    need (r.c == 0 && r.mod.toNat < 8) .reservedField
    return .lea r.p r.d r.a r.b (r.mod.setWidth 3) r.imm
  | 1 => do
    need (r.b == 0 && r.c == 0 && r.mod.toNat < 128 && r.imm.toNat < 128) .reservedField
    need (fieldWf (r.mod.setWidth 6) (r.imm.setWidth 7)) .immediate
    return .extr r.p (r.mod.getLsbD 6) r.d r.a (r.mod.setWidth 6) (r.imm.setWidth 7)
  | 2 => do
    need (r.b == 0 && r.c == 0 && r.mod.toNat < 64 && r.imm.toNat < 128) .reservedField
    need (fieldWf (r.mod.setWidth 6) (r.imm.setWidth 7)) .immediate
    return .insr r.p r.d r.a (r.mod.setWidth 6) (r.imm.setWidth 7)
  | _ => .error .unassignedFn

/-- The target fields of a J-form slot (R119): bits [63:43] are zero and SLOT is 0 to 4. -/
def decTarget (w : BitVec 96) : Dec Target := do
  need (w.extractLsb' 43 21 == 0) .reservedField
  need (decide ((w.extractLsb' 0 3).toNat ≤ 4)) .slotRange
  return { lineOff := w.extractLsb' 3 40, slot := w.extractLsb' 0 3 }

/-- `BR.cc` (R151): A in [79:74], B in [73:68], COND in [67:64]. -/
def decMajor08 (w : BitVec 96) (r : Raw) : Dec Instr :=
  if r.fn = 0 then do
    let cc ← decICond (w.extractLsb' 64 4).toNat
    let t ← decTarget w
    return .br r.p cc r.d r.a t
  else .error .unassignedFn

def decMajor09 (w : BitVec 96) (r : Raw) : Dec Instr :=
  match r.fn.toNat with
  | 0 => do
    need (r.d == 0 && r.a == 0 && w.extractLsb' 64 4 == 0) .reservedField
    return .jmp r.p (← decTarget w)
  | 1 => do
    need (r.d == 0 && r.a == 0 && w.extractLsb' 64 4 == 0) .reservedField
    return .call r.p (← decTarget w)
  | _ => .error .unassignedFn

/-- `RET`, `JTAB`, `CALLT` and `LPAD` (R153, R154). -/
def decMajor0A (r : Raw) : Dec Instr :=
  match r.fn.toNat with
  | 0 => decA r .ret
  | 1 => do
    need (r.d == 0 && r.c == 0) .reservedField
    need (1 ≤ r.imm.toNat && r.imm.toNat ≤ 65536) .immediate
    return .jtab r.p r.a r.b r.mod (r.imm.setWidth 17)
  | 2 => do
    need (r.d == 0 && r.c == 0) .reservedField
    need (1 ≤ r.imm.toNat && r.imm.toNat ≤ 65536) .immediate
    return .callt r.p r.a r.b r.mod (r.imm.setWidth 17)
  | 3 => do
    need (r.d == 0 && r.a == 0 && r.b == 0 && r.c == 0 && r.imm == 0) .reservedField
    return .lpad r.p r.mod
  | _ => .error .unassignedFn

/-- `MFC` and `MTC` (R156, R157). -/
def decMajor0B (r : Raw) : Dec Instr :=
  match r.fn.toNat with
  | 0 => do
    need (r.a == 0 && r.b == 0 && r.c == 0 && r.mod == 0 && r.imm.toNat < 4096) .reservedField
    return .mfc r.p r.d (← decCReg r.imm.toNat)
  | 1 => do
    need (r.d == 0 && r.b == 0 && r.c == 0 && r.mod == 0 && r.imm.toNat < 4096) .reservedField
    let cr ← decCReg r.imm.toNat
    need cr.writable .controlRegister
    return .mtc r.p cr r.a
  | _ => .error .unassignedFn

/-- `FOLLOW`, `DETACH`, `REJOIN` and `TAKE` (R131, R134, R159). -/
def decMajor0C (w : BitVec 96) (r : Raw) : Dec Instr :=
  match r.fn.toNat with
  | 0 => do
    need (r.d == 0 && r.a == 0 && w.extractLsb' 67 1 == 0) .reservedField
    return .follow r.p (w.extractLsb' 64 3) (← decTarget w)
  | 1 => decNone r .detach
  | 2 => do
    need (r.mod == 0 && r.imm.toNat < 65536) .reservedField
    return .rejoin r.p r.d r.a r.b r.c (r.imm.setWidth 16)
  | 3 => do
    need (r.a == 0 && r.b == 0 && r.c == 0 && r.mod == 0 && r.imm.toNat < 65536) .reservedField
    return .take r.p r.d (r.imm.setWidth 16)
  | _ => .error .unassignedFn

/-- `LAUNCH` (R162). -/
def decMajor0D (r : Raw) : Dec Instr :=
  if r.fn = 0 then do
    need (r.b == 0 && r.c == 0 && r.mod == 0 && r.imm.toNat < 64) .reservedField
    return .launch r.p r.d r.a (r.imm.setWidth 6)
  else .error .unassignedFn

/-- A scalar floating-point instruction that rounds: .q, XB, Q and IMM48 are rejected (R166, R169). -/
def decFp (r : Raw) (k : View → Rm → Instr) : Dec Instr := do
  let rm ← decRm r.hi3
  let v ← decView r.view
  need v.isFloat .view
  need (!r.bit1 && !r.bit0 && r.imm == 0) .reservedField
  return k v rm

/-- One that does not round: RM is zero as well. -/
def decFpNoRm (r : Raw) (k : View → Instr) : Dec Instr := do
  need (r.hi3 == 0) .reservedField
  decFp r fun v _ => k v

/-- Scalar arithmetic (R169). -/
def decMajor10 (r : Raw) : Dec Instr :=
  match r.fn.toNat with
  | 0 => do need (r.c == 0) .reservedField; decFp r fun v m => .fadd r.p v m r.d r.a r.b
  | 1 => do need (r.c == 0) .reservedField; decFp r fun v m => .fsub r.p v m r.d r.a r.b
  | 2 => do need (r.c == 0) .reservedField; decFp r fun v m => .fmul r.p v m r.d r.a r.b
  | 3 => decFp r fun v m => .ffma r.p v m r.d r.a r.b r.c
  | 4 => do need (r.c == 0) .reservedField; decFp r fun v m => .fdiv r.p v m r.d r.a r.b
  | 5 => do need (r.b == 0 && r.c == 0) .reservedField; decFp r fun v m => .fsqrt r.p v m r.d r.a
  | 6 => do need (r.c == 0) .reservedField; decFpNoRm r fun v => .fmin r.p v r.d r.a r.b
  | 7 => do need (r.c == 0) .reservedField; decFpNoRm r fun v => .fmax r.p v r.d r.a r.b
  | _ => .error .unassignedFn

/-- The format fields of IMM48 (R173). -/
def decCvt (r : Raw) : Dec CvtSpec := do
  need (r.imm.extractLsb' 21 27 == 0 && r.imm.extractLsb' 13 3 == 0 && r.imm.extractLsb' 5 3 == 0) .reservedField
  return { part := r.imm.extractLsb' 18 3, long := r.imm.getLsbD 17, uns := r.imm.getLsbD 16
           dst := r.imm.extractLsb' 8 5, src := r.imm.extractLsb' 0 5 }

/-- `FCMP.cc`, `FCVT` and `FCLASS` (R171 to R173). -/
def decMajor11 (r : Raw) : Dec Instr :=
  if r.fn.toNat = 0x10 then do
    let rm ← decRm r.hi3
    need (r.b == 0 && r.c == 0 && r.view == 0 && !r.bit1 && !r.bit0) .reservedField
    let s ← decCvt r
    need (s.part == 0) .reservedField
    return .fcvt r.p rm s r.d r.a
  else if r.fn.toNat = 0x11 then do
    need (r.b == 0 && r.c == 0) .reservedField
    decFpNoRm r fun v => .fclass r.p v r.d r.a
  else if r.fn.toNat < 0x10 then do
    let cc ← decFCond r.fn.toNat
    need (r.c == 0) .reservedField
    decFpNoRm r fun v => .fcmp r.p cc v r.d r.a r.b
  else .error .unassignedFn

/-- The B operand under XB (R166). -/
def decVOp (r : Raw) : Dec VOp := if r.bit1 then .ok (.bcast r.b) else do return .vec (← decV r.b)

/-- A vector integer instruction of R174 whose Q may mean unsigned. -/
def decVInt (r : Raw) (qOk : Bool) (k : View → Bool → VReg → VReg → VOp → Instr) : Dec Instr := do
  need (r.hi3 == 0 && r.c == 0 && r.imm == 0 && (qOk || !r.bit0)) .reservedField
  let v ← decView r.view
  need v.isInt .view
  return k v r.bit0 (← decV r.d) (← decV r.a) (← decVOp r)

def decMajor14 (r : Raw) : Dec Instr :=
  match r.fn.toNat with
  | 0 => decVInt r false fun v _ d a b => .vadd r.p v d a b
  | 1 => decVInt r false fun v _ d a b => .vsub r.p v d a b
  | 2 => decVInt r false fun v _ d a b => .vmul r.p v d a b
  | 3 => decVInt r true fun v u d a b => .vmulh r.p v u d a b
  | 4 => decVInt r true fun v u d a b => .vmin r.p v u d a b
  | 5 => decVInt r true fun v u d a b => .vmax r.p v u d a b
  | 6 => decVInt r false fun v _ d a b => .vand r.p v d a b
  | 7 => decVInt r false fun v _ d a b => .vor r.p v d a b
  | 8 => decVInt r false fun v _ d a b => .vxor r.p v d a b
  | 9 => decVInt r false fun v _ d a b => .vshl r.p v d a b
  | 10 => decVInt r false fun v _ d a b => .vshr r.p v d a b
  | 11 => decVInt r false fun v _ d a b => .vsha r.p v d a b
  | _ => .error .unassignedFn

/-- `VCMP.cc` (R175). -/
def decMajor15 (r : Raw) : Dec Instr :=
  if r.fn.toNat < 0x10 then do
    let cc ← decICond r.fn.toNat
    need (r.hi3 == 0 && r.c == 0 && r.imm == 0 && !r.bit0) .reservedField
    let v ← decView r.view
    need v.isInt .view
    return .vcmp r.p cc v (← decM r.d) (← decV r.a) (← decVOp r)
  else .error .unassignedFn

/-- The common checks of the vector floating-point instructions (R176). -/
def decVFp (r : Raw) (k : View → Rm → Dec Instr) : Dec Instr := do
  let rm ← decRm r.hi3
  let v ← decView r.view
  need v.isFloat .view
  need (!r.bit0 && r.imm == 0) .reservedField
  k v rm

def decMajor16 (r : Raw) : Dec Instr :=
  match r.fn.toNat with
  | 0 => do need (r.c == 0) .reservedField; decVFp r fun v m => do return .vfadd r.p v m (← decV r.d) (← decV r.a) (← decVOp r)
  | 1 => do need (r.c == 0) .reservedField; decVFp r fun v m => do return .vfsub r.p v m (← decV r.d) (← decV r.a) (← decVOp r)
  | 2 => do need (r.c == 0) .reservedField; decVFp r fun v m => do return .vfmul r.p v m (← decV r.d) (← decV r.a) (← decVOp r)
  | 3 => decVFp r fun v m => do return .vffma r.p v m (← decV r.d) (← decV r.a) (← decVOp r) (← decV r.c)
  | 4 => do need (r.c == 0) .reservedField; decVFp r fun v m => do return .vfdiv r.p v m (← decV r.d) (← decV r.a) (← decVOp r)
  | 5 => do
    need (r.b == 0 && r.c == 0 && !r.bit1) .reservedField
    decVFp r fun v m => do return .vfsqrt r.p v m (← decV r.d) (← decV r.a)
  | 6 => do
    need (r.c == 0 && r.hi3 == 0) .reservedField
    decVFp r fun v _ => do return .vfmin r.p v (← decV r.d) (← decV r.a) (← decVOp r)
  | 7 => do
    need (r.c == 0 && r.hi3 == 0) .reservedField
    decVFp r fun v _ => do return .vfmax r.p v (← decV r.d) (← decV r.a) (← decVOp r)
  | _ => .error .unassignedFn

/-- The special functions (R179): view .b only. -/
def decSpecial (r : Raw) (k : Pred → VReg → VReg → Instr) : Dec Instr := do
  need (r.hi3 == 0 && r.b == 0 && r.c == 0 && !r.bit1 && !r.bit0 && r.imm == 0) .reservedField
  need (r.view == 4) .view
  return k r.p (← decV r.d) (← decV r.a)

def decMajor17 (r : Raw) : Dec Instr :=
  match r.fn.toNat with
  | 0 => decSpecial r .vexp2 | 1 => decSpecial r .vrecip | 2 => decSpecial r .vrsqrt | _ => .error .unassignedFn

/-- `VFCMP.cc` and `VFCVT` (R177, R178). -/
def decMajor18 (r : Raw) : Dec Instr :=
  if r.fn.toNat = 0x10 then do
    let rm ← decRm r.hi3
    need (r.b == 0 && r.c == 0 && r.view == 0 && !r.bit1 && !r.bit0) .reservedField
    let s ← decCvt r
    return .vfcvt r.p rm s (← decV r.d) (← decV r.a)
  else if r.fn.toNat < 0x10 then do
    let cc ← decFCond r.fn.toNat
    need (r.c == 0 && r.hi3 == 0) .reservedField
    decVFp r fun v _ => do return .vfcmp r.p cc v (← decM r.d) (← decV r.a) (← decVOp r)
  else .error .unassignedFn

/-- RM, XB and Q zero; the view is returned (R180, R181, R185). -/
def decMove (r : Raw) : Dec View := do
  need (r.hi3 == 0 && !r.bit1 && !r.bit0) .reservedField
  decView r.view

def decMajor19 (r : Raw) : Dec Instr :=
  match r.fn.toNat with
  | 0 => do
    need (r.b == 0 && r.c == 0 && r.imm == 0) .reservedField
    let v ← decMove r
    return .vbcast r.p v (← decV r.d) r.a
  | 1 => do
    need (r.c == 0 && r.imm == 0) .reservedField
    let v ← decMove r
    return .vextr r.p v r.d (← decV r.a) r.b
  | 2 => do
    need (r.c == 0 && r.imm == 0) .reservedField
    let v ← decMove r
    return .vinsr r.p v (← decV r.d) r.a r.b
  | 3 => do
    need (r.c == 0 && r.imm == 0) .reservedField
    let v ← decMove r
    return .vperm r.p v (← decV r.d) (← decV r.a) (← decV r.b)
  | 4 => do
    need (r.c == 0) .reservedField
    let v ← decMove r
    need (decide (r.imm.toNat ≤ v.elems)) .immediate
    return .vslide r.p v (← decV r.d) (← decV r.a) (← decV r.b) (r.imm.setWidth 8)
  | 5 => do
    need (r.b == 0 && r.imm == 0) .reservedField
    let v ← decMove r
    need (v == .w) .view
    let d ← decV r.d
    let c ← decV r.c
    need (d != c) .registerRange
    return .vsortk r.p d c (← decV r.a)
  | 6 => do
    need (r.c == 0 && !r.bit1 && r.imm == 0) .reservedField
    let rm ← decRm r.hi3
    let v ← decView r.view
    need (if r.bit0 then v.isFloat else v.isInt) .view
    need (r.bit0 || rm == .rne) .reservedField
    return .vsegadd r.p v r.bit0 rm (← decV r.d) (← decV r.a) (← decV r.b)
  | 7 => do
    need (r.b == 0 && r.c == 0 && r.hi3 == 0 && !r.bit1 && r.imm == 0) .reservedField
    let v ← decView r.view
    need v.isInt .view
    return .vredi r.p v r.bit0 r.d (← decV r.a)
  | 8 => do
    need (r.b == 0 && r.c == 0 && !r.bit1 && !r.bit0 && r.imm == 0) .reservedField
    let rm ← decRm r.hi3
    let v ← decView r.view
    need v.isFloat .view
    return .vredf r.p v rm r.d (← decV r.a)
  | _ => .error .unassignedFn

/-- The mask instructions (R185). -/
def decMajor1A (r : Raw) : Dec Instr :=
  match r.fn.toNat with
  | 0 => do need (r.c == 0 && r.mod == 0 && r.imm == 0) .reservedField; return .mand r.p (← decM r.d) (← decM r.a) (← decM r.b)
  | 1 => do need (r.c == 0 && r.mod == 0 && r.imm == 0) .reservedField; return .mor r.p (← decM r.d) (← decM r.a) (← decM r.b)
  | 2 => do need (r.c == 0 && r.mod == 0 && r.imm == 0) .reservedField; return .mxor r.p (← decM r.d) (← decM r.a) (← decM r.b)
  | 3 => do r.needZeroBCMI; return .mnot r.p (← decM r.d) (← decM r.a)
  | 4 => do
    need (r.b == 0 && r.c == 0 && r.imm == 0) .reservedField
    let v ← decMove r
    return .mpopc r.p v r.d (← decM r.a)
  | 5 => do
    need (r.b == 0 && r.c == 0 && r.imm == 0) .reservedField
    let v ← decMove r
    return .mfirst r.p v r.d (← decM r.a)
  | 6 => do
    need (r.b == 0 && r.c == 0 && r.mod == 0) .reservedField
    need (r.imm.toNat < 2) .immediate
    return .mtox r.p r.d (← decM r.a) (r.imm.getLsbD 0)
  | 7 => do
    need (r.b == 0 && r.c == 0 && r.mod == 0) .reservedField
    need (r.imm.toNat < 2) .immediate
    return .xtom r.p (← decM r.d) r.a (r.imm.getLsbD 0)
  | _ => .error .unassignedFn

/-- `LD` (R196). -/
def decMajor20 (r : Raw) : Dec Instr :=
  if r.fn = 0 then do
    need (r.c == 0 && !r.bit1) .reservedField
    return .ld r.p r.bit0 (← decSize r.view) r.d r.a r.b r.hi3 r.imm
  else .error .unassignedFn

/-- `ST` (R196). -/
def decMajor21 (r : Raw) : Dec Instr :=
  if r.fn = 0 then do
    need (r.d == 0 && !r.bit1 && !r.bit0) .reservedField
    return .st r.p (← decSize r.view) r.a r.b r.c r.hi3 r.imm
  else .error .unassignedFn

/-- The vector loads (R197). -/
def decMajor22 (r : Raw) : Dec Instr :=
  match r.fn.toNat with
  | 0 => do
    need (r.b == 0 && r.c == 0 && r.hi3 == 0 && !r.bit1 && !r.bit0) .reservedField
    return .ldv r.p (← decView r.view) (← decV r.d) r.a r.imm
  | 1 => do
    need (r.c == 0 && r.hi3 == 0 && !r.bit1 && !r.bit0) .reservedField
    return .ldvs r.p (← decView r.view) (← decV r.d) r.a r.b r.imm
  | 2 => do
    need (r.c == 0 && !r.bit0) .reservedField
    return .ldg r.p (← decView r.view) r.bit1 (← decV r.d) r.a (← decV r.b) r.hi3 r.imm
  | _ => .error .unassignedFn

/-- The vector stores (R197). -/
def decMajor23 (r : Raw) : Dec Instr :=
  match r.fn.toNat with
  | 0 => do
    need (r.d == 0 && r.b == 0 && r.hi3 == 0 && !r.bit1 && !r.bit0) .reservedField
    return .stv r.p (← decView r.view) r.a (← decV r.c) r.imm
  | 1 => do
    need (r.d == 0 && r.hi3 == 0 && !r.bit1 && !r.bit0) .reservedField
    return .stvs r.p (← decView r.view) r.a r.b (← decV r.c) r.imm
  | 2 => do
    need (r.d == 0 && !r.bit0) .reservedField
    return .sts r.p (← decView r.view) r.bit1 r.a (← decV r.b) (← decV r.c) r.hi3 r.imm
  | _ => .error .unassignedFn

/-- The index of `LDL` and `STL`: present when Q = 1 (R199). -/
def decIdx (r : Raw) : Dec (Option VReg) :=
  if r.bit1 then do return some (← decV r.b)
  else do
    need (r.b == 0) .reservedField
    return none

/-- `LDL` and `STL` (R199). -/
def decMajor24 (r : Raw) : Dec Instr :=
  match r.fn.toNat with
  | 0 => do
    need (r.c == 0 && r.hi3 == 0 && !r.bit0) .reservedField
    need (r.view == 2) .view
    let ix ← decIdx r
    return .ldl r.p (← decV r.d) r.a ix r.imm
  | 1 => do
    need (r.d == 0 && r.hi3 == 0 && !r.bit0) .reservedField
    need (r.view == 2) .view
    let ix ← decIdx r
    return .stl r.p r.a ix (← decV r.c) r.imm
  | _ => .error .unassignedFn

/-- `MTT`, `MFT`, `TLD` and `TST` (R201, R205). -/
def decMajor25 (r : Raw) : Dec Instr :=
  match r.fn.toNat with
  | 0 => do
    need (r.b == 0 && r.c == 0 && r.view == 0 && !r.bit1) .reservedField
    let f ← decTileField r.hi3
    let t ← decM r.d
    if r.bit0 then do
      need (r.a == 0) .reservedField
      return .mtt r.p t f (.imm r.imm)
    else do
      need (r.imm == 0) .reservedField
      return .mtt r.p t f (.reg r.a)
  | 1 => do
    need (r.b == 0 && r.c == 0 && r.view == 0 && !r.bit1 && !r.bit0 && r.imm == 0) .reservedField
    let f ← decTileField r.hi3
    return .mft r.p r.d (← decM r.a) f
  | 2 => do
    need (r.c == 0 && r.mod == 0) .reservedField
    return .tld r.p (← decM r.d) r.a r.b r.imm
  | 3 => do
    need (r.d == 0 && r.mod == 0) .reservedField
    return .tst r.p (← decM r.c) r.a r.b r.imm
  | _ => .error .unassignedFn

/-- `TWAIT`, `TCONS` and `PREF` (R207, R208). -/
def decMajor26 (r : Raw) : Dec Instr :=
  match r.fn.toNat with
  | 0 => do need (r.d == 0) .reservedField; r.needZeroBCMI; return .twait r.p (← decM r.a)
  | 1 => do need (r.d == 0) .reservedField; r.needZeroBCMI; return .tcons r.p (← decM r.a)
  | 2 => do
    need (r.d == 0 && r.b == 0 && r.c == 0 && r.hi3 == 0 && !r.bit1) .reservedField
    return .pref r.p r.bit0 r.a r.view r.imm
  | _ => .error .unassignedFn

/-- The destination fields of CMD (R216): PDST [54], PFMT [52:51], PSTR [50:35]. -/
def decDst (r : Raw) : Dec MmaDst :=
  let m := r.cmd
  if m.getLsbD 54 then do
    need (!m.getLsbD 55) .immediate
    need (decide ((m.extractLsb' 51 2).toNat < 2) && m.extractLsb' 35 16 != 0) .immediate
    return .purse r.c (m.getLsbD 51) (m.extractLsb' 35 16)
  else do
    need (m.extractLsb' 35 18 == 0) .reservedField
    return .tile (← decM r.c)

/-- The matrix jobs (R215, R216). -/
def decMajor28 (r : Raw) : Dec Instr :=
  let m := r.cmd
  match r.fn.toNat with
  | 0 => do
    need (m.extractLsb' 0 35 == 0) .reservedField
    let dst ← decDst r
    return .mma r.p r.d (← decM r.a) (← decM r.b) dst (m.getLsbD 55) (m.getLsbD 53)
  | 1 => do
    need (m.extractLsb' 0 24 == 0) .reservedField
    let dst ← decDst r
    let fill ← decFill (m.extractLsb' 24 2)
    return .mmat r.p r.d (← decM r.a) (← decM r.b) dst (m.getLsbD 55) (m.getLsbD 53) (m.extractLsb' 27 8) (m.getLsbD 26) fill
  | 2 => do
    need (m.extractLsb' 19 34 == 0 && !m.getLsbD 54) .reservedField
    need (m.extractLsb' 0 4 == 0) .immediate
    return .mmab r.p r.d (← decM r.a) (← decM r.b) (← decM r.c) (m.getLsbD 55) (m.getLsbD 53) (m.extractLsb' 4 15)
  | 3 => do
    need (m.extractLsb' 13 22 == 0 && !m.getLsbD 53) .reservedField
    need (decide ((m.extractLsb' 0 13).toNat ≤ 4096)) .immediate
    let dst ← decDst r
    return .mmas r.p r.d (← decM r.a) (← decM r.b) dst (m.getLsbD 55) (m.extractLsb' 0 13)
  | _ => .error .unassignedFn

def decMajor29 (r : Raw) : Dec Instr :=
  match r.fn.toNat with
  | 0 => decDA r .mjpoll | 1 => decA r .mjwait | _ => .error .unassignedFn

/-- The copy jobs (R229). -/
def decMajor2A (r : Raw) : Dec Instr :=
  let m := r.cmd
  match r.fn.toNat with
  | 0 => do
    need (m.extractLsb' 22 32 == 0) .reservedField
    if m.getLsbD 55 then
      return .cpy r.p r.d r.a r.b r.c (some (m.getLsbD 54, m.extractLsb' 0 22))
    else do
      need (!m.getLsbD 54 && m.extractLsb' 0 22 == 0) .immediate
      return .cpy r.p r.d r.a r.b r.c none
  | 1 => do
    need (m.extractLsb' 0 27 == 0) .reservedField
    need (copyWf (m.extractLsb' 43 13) (m.extractLsb' 27 16)) .immediate
    return .cpy2 r.p r.d r.a r.b r.c (m.extractLsb' 43 13) (m.extractLsb' 27 16)
  | 2 => do
    need (copyWf (m.extractLsb' 43 13) (m.extractLsb' 27 16)) .immediate
    return .cpyg r.p r.d r.a r.b r.c (m.extractLsb' 43 13) (m.extractLsb' 27 16) (m.extractLsb' 0 27)
  | 3 => do
    need (m.extractLsb' 0 43 == 0) .reservedField
    let rm ← decRm (m.extractLsb' 43 3)
    need (rm != .dyn) .roundingMode
    return .cpyc r.p r.d r.a r.b r.c (m.extractLsb' 51 5) (m.extractLsb' 46 5) rm
  | 4 => do
    need (m == 0) .reservedField
    return .cpya r.p r.d r.a r.b r.c
  | _ => .error .unassignedFn

/-- LOC of `SUSP` (R240). -/
def decLoc (l : BitVec 32) : Dec Loc := do
  need (l.extractLsb' 19 12 == 0) .reservedField
  if l.getLsbD 31 then do
    need (l.extractLsb' 6 13 == 0) .reservedField
    return .reg (l.extractLsb' 0 6)
  else return .off (l.extractLsb' 0 19)

/-- `SUSP`, `SUSPR` and `MKVAL` (R239, R240). -/
def decMajor30 (r : Raw) : Dec Instr :=
  match r.fn.toNat with
  | 0 => do
    need (r.c == 0 && r.imm.extractLsb' 32 8 == 0) .reservedField
    let op ← decTop r.mod.toNat
    let rm ← decRm (r.imm.extractLsb' 40 3)
    need (rm != .dyn) .roundingMode
    need (op == .convert || r.imm.extractLsb' 43 5 == 0) .reservedField
    need (!op.unary || r.b == 0) .reservedField
    need (!op.unrounded || rm == .rne) .reservedField
    let loc ← decLoc (r.imm.extractLsb' 0 32)
    return .susp r.p r.d op r.a r.b (r.imm.extractLsb' 43 5) rm loc
  | 1 => do
    need (r.mod == 0 && r.imm.extractLsb' 0 32 == 0) .reservedField
    return .suspr r.p r.d r.a r.b r.c (r.imm.extractLsb' 32 16)
  | 2 => do
    r.needZeroBCMI
    return .mkval r.p r.d (← decM r.a)
  | _ => .error .unassignedFn

def decMajor31 (r : Raw) : Dec Instr :=
  match r.fn.toNat with
  | 0 => decA r .force
  | 1 => decA r .spark
  | 2 => do need (r.d == 0) .reservedField; r.needZeroBCMI; return .result r.p (← decM r.a)
  | _ => .error .unassignedFn

def decMajor32 (r : Raw) : Dec Instr :=
  match r.fn.toNat with
  | 0 => decA r .dup
  | 1 => decA r .drop
  | 2 => decDA r .hstat
  | 3 => do r.needZeroBCMI; return .htile r.p (← decM r.d) r.a
  | _ => .error .unassignedFn

/-- A purse addend's view (R264). -/
def decAddend (r : Raw) : Dec View := do
  let v ← decView r.view
  need v.isAddend .view
  return v

/-- The purse instructions (R264). -/
def decMajor34 (r : Raw) : Dec Instr :=
  match r.fn.toNat with
  | 0 => do
    need (r.d == 0 && r.b == 0 && r.hi3 == 0 && !r.bit1 && !r.bit0) .reservedField
    return .padd r.p (← decAddend r) r.a r.c r.imm
  | 1 => do
    need (r.d == 0 && !r.bit0) .reservedField
    let v ← decAddend r
    return .paddv r.p v r.bit1 r.a (← decV r.b) (← decV r.c) r.hi3 r.imm
  | 2 => decNone r .pfence
  | 3 => do
    need (r.d == 0 && r.b == 0 && r.c == 0 && r.mod == 0) .reservedField
    return .pclr r.p r.a r.imm
  | 4 => do
    need (r.d == 0 && r.b == 0 && r.hi3 == 0 && !r.bit1 && !r.bit0) .reservedField
    return .pset r.p (← decAddend r) r.a r.c r.imm
  | 5 => do
    need (r.b == 0 && r.c == 0 && r.mod == 0) .reservedField
    return .praw r.p (← decV r.d) r.a r.imm
  | _ => .error .unassignedFn

/-- SIZE of an atomic: 2 or 3, with SH, Q and SX zero (R300). -/
def decDbl (r : Raw) : Dec Bool := do
  need (r.hi3 == 0 && !r.bit1 && !r.bit0) .reservedField
  need (r.view == 2 || r.view == 3) .view
  return r.view == 3

def decAmo (r : Raw) (k : Pred → Bool → XReg → XReg → XReg → Imm48 → Instr) : Dec Instr := do
  need (r.b == 0) .reservedField
  return k r.p (← decDbl r) r.d r.a r.c r.imm

def decAmonr (r : Raw) (k : Pred → Bool → XReg → XReg → Imm48 → Instr) : Dec Instr := do
  need (r.d == 0 && r.b == 0) .reservedField
  return k r.p (← decDbl r) r.a r.c r.imm

/-- The atomics (R300). -/
def decMajor38 (r : Raw) : Dec Instr :=
  match r.fn.toNat with
  | 0x00 => decAmo r .amoAdd | 0x01 => decAmo r .amoAnd | 0x02 => decAmo r .amoOr | 0x03 => decAmo r .amoXor
  | 0x04 => decAmo r .amoMin | 0x05 => decAmo r .amoMax | 0x06 => decAmo r .amoMinu | 0x07 => decAmo r .amoMaxu
  | 0x08 => decAmo r .amoSwap
  | 0x10 => decAmonr r .amonrAdd | 0x11 => decAmonr r .amonrAnd | 0x12 => decAmonr r .amonrOr
  | 0x13 => decAmonr r .amonrXor | 0x14 => decAmonr r .amonrMin | 0x15 => decAmonr r .amonrMax
  | 0x16 => decAmonr r .amonrMinu | 0x17 => decAmonr r .amonrMaxu | 0x18 => decAmonr r .amonrSwap
  | 0x20 => do return .cas r.p (← decDbl r) r.d r.a r.b r.c r.imm
  | _ => .error .unassignedFn

/-- The fences and the event instructions (R304, R307). -/
def decMajor39 (r : Raw) : Dec Instr :=
  match r.fn.toNat with
  | 0 => decNone r .fenceSysAcq
  | 1 => decNone r .fenceSysRel
  | 2 => decNone r .fenceSysFull
  | 8 => decDA r .evld
  | 9 => do
    need (r.d == 0 && r.b == 0 && r.mod == 0) .reservedField
    match r.imm.toNat with
    | 0 => do need (r.c == 0) .reservedField; return .evtrig r.p r.a
    | 1 => return .evtrigConf r.p r.a r.c
    | _ => .error .immediate
  | 10 => do
    need (r.d == 0 && r.b == 0 && r.mod.toNat < 2) .reservedField
    if r.bit0 then do
      need (r.imm.extractLsb' 22 26 == 0) .reservedField
      return .evmsgPeer r.p r.a r.c (r.imm.extractLsb' 0 22)
    else do
      need (r.imm == 0) .reservedField
      return .evmsg r.p r.a r.c
  | _ => .error .unassignedFn

/-- The barrier instructions (R315). -/
def decMajor3A (r : Raw) : Dec Instr :=
  match r.fn.toNat with
  | 0 => do
    need (r.d == 0 && r.a == 0 && r.b == 0 && r.c == 0 && r.mod == 0 && r.imm.toNat < 16) .reservedField
    return .bar r.p (r.imm.setWidth 4)
  | 1 => do
    need (r.d == 0 && r.a == 0 && r.b == 0 && r.c == 0 && r.mod == 0 && r.imm.toNat < 16) .reservedField
    return .settle r.p (r.imm.setWidth 4)
  | 2 => decNone r .sdone
  | _ => .error .unassignedFn

/-- `SEND` and `RECV` (R321): BUF [32:29], DCORE [28:16], SSLOT [15:0]. -/
def decMajor3B (r : Raw) : Dec Instr :=
  match r.fn.toNat with
  | 0 => do
    need (r.d == 0 && r.b == 0 && r.c == 0 && r.mod.toNat < 2 && r.imm.extractLsb' 33 15 == 0) .reservedField
    need (!r.bit0 || decide (r.a.toNat < 32)) .registerRange
    return .send r.p r.bit0 r.a (r.imm.extractLsb' 29 4) (r.imm.extractLsb' 16 13) (r.imm.extractLsb' 0 16)
  | 1 => do
    need (r.a == 0 && r.b == 0 && r.c == 0 && r.mod.toNat < 2 && r.imm.extractLsb' 33 15 == 0
      && r.imm.extractLsb' 16 13 == 0) .reservedField
    need (!r.bit0 || decide (r.d.toNat < 32)) .registerRange
    return .recv r.p r.bit0 r.d (r.imm.extractLsb' 29 4) (r.imm.extractLsb' 0 16)
  | _ => .error .unassignedFn

/-- The key-value instructions (R354). -/
def decMajor3C (r : Raw) : Dec Instr :=
  match r.fn.toNat with
  | 0 => do
    need (r.hi3 == 0 && !r.bit1 && !r.bit0) .reservedField
    let v ← decView r.view
    let a ← decV r.a
    need (decide (r.imm.toNat < 4096)) .immediate
    need (v == .w || v == .b) .view
    need (confidWf v a (r.imm.setWidth 12)) .immediate
    return .confid r.p v r.d a r.b r.c (r.imm.setWidth 12)
  | 1 => do
    need (r.c == 0 && r.mod == 0) .reservedField
    need (1 ≤ r.imm.toNat && r.imm.toNat ≤ 256) .immediate
    return .exitk r.p r.d r.a r.b (r.imm.setWidth 9)
  | 2 => do
    need (r.hi3 == 0 && r.view == 0 && !r.bit0 && r.imm == 0) .reservedField
    if r.bit1 then return .kvappFill r.p r.d r.a (← decV r.b) (← decV r.c)
    else return .kvapp r.p r.d r.a (← decV r.b) (← decV r.c)
  | 3 => do
    need (r.hi3 == 0 && r.view == 0 && !r.bit0) .reservedField
    need (1 ≤ r.imm.toNat && r.imm.toNat ≤ 64) .immediate
    if r.bit1 then return .kvldMask r.p (← decM r.d) r.a r.b (← decM r.c) (r.imm.setWidth 7)
    else return .kvldWait r.p (← decM r.d) r.a r.b (← decM r.c) (r.imm.setWidth 7)
  | 4 => decA r .arwait
  | _ => .error .unassignedFn

/-- The instructions of major 0x3D (R370). -/
def decMajor3D (r : Raw) : Dec Instr :=
  match r.fn.toNat with
  | 0 => do
    need (r.d == 0 && r.a == 0 && r.b == 0 && r.c == 0 && r.mod == 0 && r.imm.toNat < 65536) .reservedField
    return .trap r.p (r.imm.setWidth 16)
  | 1 => decNone r .eret
  | 2 => decDA r .replay
  | 3 => do need (r.c == 0 && r.mod == 0 && r.imm == 0) .reservedField; return .csave r.p r.d r.a r.b
  | 4 => do need (r.c == 0 && r.mod == 0 && r.imm == 0) .reservedField; return .crest r.p r.d r.a r.b
  | _ => .error .unassignedFn

/-- `HALT` and `TRACE` (R383, R344). -/
def decMajor3E (r : Raw) : Dec Instr :=
  match r.fn.toNat with
  | 0 => do
    need (r.d == 0 && r.a == 0 && r.b == 0 && r.c == 0 && r.mod.toNat < 2 && r.imm == 0) .reservedField
    if r.bit0 then return .haltRetain r.p else return .halt r.p
  | 1 => do
    need (r.d == 0 && r.c == 0 && r.mod == 0 && r.imm.toNat < 65536) .reservedField
    return .trace r.p r.a r.b (r.imm.setWidth 16)
  | _ => .error .unassignedFn

/-- The instruction of a slot, or why it raises ILLOP (R124, R125). Total on every word. -/
def decodeSlot (w : BitVec 96) : Dec Instr :=
  let r := Raw.ofSlot w
  match r.maj.toNat with
  | 0x00 => if r.fn = 0 then decNone r .nop else .error .unassignedFn
  | 0x01 => decMajor01 r
  | 0x02 => decMajor02 r
  | 0x03 => decMajor03 r
  | 0x04 => decMajor04 r
  | 0x05 => decMajor05 r
  | 0x06 => decMajor06 w r
  | 0x07 => decMajor07 r
  | 0x08 => decMajor08 w r
  | 0x09 => decMajor09 w r
  | 0x0A => decMajor0A r
  | 0x0B => decMajor0B r
  | 0x0C => decMajor0C w r
  | 0x0D => decMajor0D r
  | 0x10 => decMajor10 r
  | 0x11 => decMajor11 r
  | 0x14 => decMajor14 r
  | 0x15 => decMajor15 r
  | 0x16 => decMajor16 r
  | 0x17 => decMajor17 r
  | 0x18 => decMajor18 r
  | 0x19 => decMajor19 r
  | 0x1A => decMajor1A r
  | 0x20 => decMajor20 r
  | 0x21 => decMajor21 r
  | 0x22 => decMajor22 r
  | 0x23 => decMajor23 r
  | 0x24 => decMajor24 r
  | 0x25 => decMajor25 r
  | 0x26 => decMajor26 r
  | 0x28 => decMajor28 r
  | 0x29 => decMajor29 r
  | 0x2A => decMajor2A r
  | 0x30 => decMajor30 r
  | 0x31 => decMajor31 r
  | 0x32 => decMajor32 r
  | 0x34 => decMajor34 r
  | 0x38 => decMajor38 r
  | 0x39 => decMajor39 r
  | 0x3A => decMajor3A r
  | 0x3B => decMajor3B r
  | 0x3C => decMajor3C r
  | 0x3D => decMajor3D r
  | 0x3E => decMajor3E r
  | 0x3F => if w = BitVec.allOnes 96 then .ok .ill else .error .unassignedMajor
  | _ => .error .unassignedMajor

/-- The instruction read from a slot whose bits are `w`, bit 0 the least significant of the first byte (R108). -/
def decodeTableWord (_nbits w : Nat) : Option Instr :=
  match decodeSlot (BitVec.ofNat 96 w) with
  | .ok i => some i
  | .error _ => none

/-! ## The encoder -/

/-- A vector register in a 6-bit field. -/
def encV (v : VReg) : BitVec 6 := v.setWidth 6
/-- A mask or tile register in a 6-bit field. -/
def encM (m : BitVec 3) : BitVec 6 := m.setWidth 6

def VOp.field : VOp → BitVec 6
  | .vec b => encV b
  | .bcast b => b
def VOp.isBcast : VOp → Bool
  | .vec _ => false
  | .bcast _ => true

def CvtSpec.imm (c : CvtSpec) : BitVec 48 :=
  (0 : BitVec 27) ++ c.part ++ bit c.long ++ bit c.uns ++ (0 : BitVec 3) ++ c.dst ++ (0 : BitVec 3) ++ c.src

/-- A scalar register form: `packF` with C, MOD and IMM48 zero. -/
def encR (maj fn : BitVec 6) (p : Pred) (d a b : XReg) : BitVec 96 := packF maj fn p d a b 0 0 0
/-- An immediate form: `packF` with B, C and MOD zero. -/
def encI (fn : BitVec 6) (p : Pred) (d a : XReg) (imm : Imm48) : BitVec 96 := packF 2 fn p d a 0 0 0 imm
/-- A vector instruction of R166 without C and IMM48. -/
def encVec (maj fn : BitVec 6) (p : Pred) (rm : BitVec 3) (v : View) (q : Bool) (d : BitVec 6) (a : VReg) (b : VOp) :
    BitVec 96 :=
  packF maj fn p d (encV a) b.field 0 (modV rm v.code b.isBcast q) 0
/-- A scalar floating-point instruction of R169. -/
def encFp (maj fn : BitVec 6) (p : Pred) (rm : BitVec 3) (f : View) (d a b c : XReg) : BitVec 96 :=
  packF maj fn p d a b c (modV rm f.code false false) 0
/-- An E-form slot (R120). -/
def encE (maj fn : BitVec 6) (p : Pred) (d a b c : BitVec 6) (cmd : BitVec 56) : BitVec 96 :=
  packF maj fn p d a b c (cmd.extractLsb' 48 8) (cmd.extractLsb' 0 48)

def MmaDst.field : MmaDst → BitVec 6
  | .tile c => encM c
  | .purse c _ _ => c
/-- CMD bits [55:35] of a matrix job (R216): ACC, PDST, TB, PFMT, PSTR. -/
def MmaDst.head (acc tb : Bool) : MmaDst → BitVec 21
  | .tile _ => bit acc ++ bit false ++ bit tb ++ (0 : BitVec 18)
  | .purse _ f s => bit acc ++ bit true ++ bit tb ++ bit false ++ bit f ++ s
def Loc.enc : Loc → BitVec 32
  | .off o => (0 : BitVec 13) ++ o
  | .reg x => bit true ++ (0 : BitVec 25) ++ x
def Option.idxField : Option VReg → BitVec 6
  | none => 0
  | some v => encV v
def encAmo (fn : BitVec 6) (p : Pred) (dbl : Bool) (d a b c : XReg) (imm : Imm48) : BitVec 96 :=
  packF 0x38 fn p d a b c (modM 0 (if dbl then 3 else 2) false false) imm

/-- The slot of an instruction, from the encoding tables of the spec; a step of the part has none. -/
def encode : Instr → Option (BitVec 96)
  | .nop p => some (packF 0 0 p 0 0 0 0 0 0)
  | .add p d a b => some (encR 1 0 p d a b)
  | .sub p d a b => some (encR 1 1 p d a b)
  | .and p d a b => some (encR 1 2 p d a b)
  | .or p d a b => some (encR 1 3 p d a b)
  | .xor p d a b => some (encR 1 4 p d a b)
  | .andn p d a b => some (encR 1 5 p d a b)
  | .shl p d a b => some (encR 1 6 p d a b)
  | .shr p d a b => some (encR 1 7 p d a b)
  | .sha p d a b => some (encR 1 8 p d a b)
  | .rotl p d a b => some (encR 1 9 p d a b)
  | .min p d a b => some (encR 1 10 p d a b)
  | .max p d a b => some (encR 1 11 p d a b)
  | .minu p d a b => some (encR 1 12 p d a b)
  | .maxu p d a b => some (encR 1 13 p d a b)
  | .addi p d a i => some (encI 0 p d a i)
  | .subImm p d a i => some (encI 1 p d a i)
  | .andImm p d a i => some (encI 2 p d a i)
  | .orImm p d a i => some (encI 3 p d a i)
  | .xorImm p d a i => some (encI 4 p d a i)
  | .andnImm p d a i => some (encI 5 p d a i)
  | .shlImm p d a n => some (encI 6 p d a (n.setWidth 48))
  | .shrImm p d a n => some (encI 7 p d a (n.setWidth 48))
  | .shaImm p d a n => some (encI 8 p d a (n.setWidth 48))
  | .rotlImm p d a n => some (encI 9 p d a (n.setWidth 48))
  | .minImm p d a i => some (encI 10 p d a i)
  | .maxImm p d a i => some (encI 11 p d a i)
  | .minuImm p d a i => some (encI 12 p d a i)
  | .maxuImm p d a i => some (encI 13 p d a i)
  | .mul p d a b => some (encR 3 0 p d a b)
  | .mulh p d a b => some (encR 3 1 p d a b)
  | .mulhu p d a b => some (encR 3 2 p d a b)
  | .div p d a b => some (encR 3 3 p d a b)
  | .divu p d a b => some (encR 3 4 p d a b)
  | .rem p d a b => some (encR 3 5 p d a b)
  | .remu p d a b => some (encR 3 6 p d a b)
  | .clz p d a => some (encR 4 0 p d a 0)
  | .ctz p d a => some (encR 4 1 p d a 0)
  | .popc p d a => some (encR 4 2 p d a 0)
  | .cmp p cc d a (.reg b) => some (packF 5 (cc.code.setWidth 6) p d a b 0 0 0)
  | .cmp p cc d a (.imm i) => some (packF 5 (cc.code.setWidth 6) p d a 0 0 1 i)
  | .sel p d a b c => some (packF 5 0x10 p d a b c 0 0)
  | .movi p d i => some (packW 6 0 p d i)
  | .lea p d a b sh i => some (packF 7 0 p d a b 0 (sh.setWidth 8) i)
  | .extr p sx d a pos len => some (packF 7 1 p d a 0 0 ((0 : BitVec 1) ++ bit sx ++ pos) (len.setWidth 48))
  | .insr p d a pos len => some (packF 7 2 p d a 0 0 (pos.setWidth 8) (len.setWidth 48))
  | .br p cc a b t => some (packJ 8 0 p a b cc.code t)
  | .jmp p t => some (packJ 9 0 p 0 0 0 t)
  | .call p t => some (packJ 9 1 p 0 0 0 t)
  | .ret p a => some (packF 0x0A 0 p 0 a 0 0 0 0)
  | .jtab p a b tag n => some (packF 0x0A 1 p 0 a b 0 tag (n.setWidth 48))
  | .callt p a b tag n => some (packF 0x0A 2 p 0 a b 0 tag (n.setWidth 48))
  | .lpad p tag => some (packF 0x0A 3 p 0 0 0 0 tag 0)
  | .mfc p d r => some (packF 0x0B 0 p d 0 0 0 0 (r.number.setWidth 48))
  | .mtc p r a => some (packF 0x0B 1 p 0 a 0 0 0 (r.number.setWidth 48))
  | .follow p k t => some (packJ 0x0C 0 p 0 0 (k.setWidth 4) t)
  | .detach p => some (packF 0x0C 1 p 0 0 0 0 0 0)
  | .rejoin p d a b c key => some (packF 0x0C 2 p d a b c 0 (key.setWidth 48))
  | .take p d key => some (packF 0x0C 3 p d 0 0 0 0 (key.setWidth 48))
  | .launch p d a q => some (packF 0x0D 0 p d a 0 0 0 (q.setWidth 48))
  | .fadd p f rm d a b => some (encFp 0x10 0 p rm.code f d a b 0)
  | .fsub p f rm d a b => some (encFp 0x10 1 p rm.code f d a b 0)
  | .fmul p f rm d a b => some (encFp 0x10 2 p rm.code f d a b 0)
  | .ffma p f rm d a b c => some (encFp 0x10 3 p rm.code f d a b c)
  | .fdiv p f rm d a b => some (encFp 0x10 4 p rm.code f d a b 0)
  | .fsqrt p f rm d a => some (encFp 0x10 5 p rm.code f d a 0 0)
  | .fmin p f d a b => some (encFp 0x10 6 p 0 f d a b 0)
  | .fmax p f d a b => some (encFp 0x10 7 p 0 f d a b 0)
  | .fcmp p cc f d a b => some (encFp 0x11 (cc.code.setWidth 6) p 0 f d a b 0)
  | .fcvt p rm c d a => some (packF 0x11 0x10 p d a 0 0 (modV rm.code 0 false false) c.imm)
  | .fclass p f d a => some (encFp 0x11 0x11 p 0 f d a 0 0)
  | .vadd p v d a b => some (encVec 0x14 0 p 0 v false (encV d) a b)
  | .vsub p v d a b => some (encVec 0x14 1 p 0 v false (encV d) a b)
  | .vmul p v d a b => some (encVec 0x14 2 p 0 v false (encV d) a b)
  | .vmulh p v u d a b => some (encVec 0x14 3 p 0 v u (encV d) a b)
  | .vmin p v u d a b => some (encVec 0x14 4 p 0 v u (encV d) a b)
  | .vmax p v u d a b => some (encVec 0x14 5 p 0 v u (encV d) a b)
  | .vand p v d a b => some (encVec 0x14 6 p 0 v false (encV d) a b)
  | .vor p v d a b => some (encVec 0x14 7 p 0 v false (encV d) a b)
  | .vxor p v d a b => some (encVec 0x14 8 p 0 v false (encV d) a b)
  | .vshl p v d a b => some (encVec 0x14 9 p 0 v false (encV d) a b)
  | .vshr p v d a b => some (encVec 0x14 10 p 0 v false (encV d) a b)
  | .vsha p v d a b => some (encVec 0x14 11 p 0 v false (encV d) a b)
  | .vcmp p cc v d a b => some (encVec 0x15 (cc.code.setWidth 6) p 0 v false (encM d) a b)
  | .vfadd p v rm d a b => some (encVec 0x16 0 p rm.code v false (encV d) a b)
  | .vfsub p v rm d a b => some (encVec 0x16 1 p rm.code v false (encV d) a b)
  | .vfmul p v rm d a b => some (encVec 0x16 2 p rm.code v false (encV d) a b)
  | .vffma p v rm d a b c =>
    some (packF 0x16 3 p (encV d) (encV a) b.field (encV c) (modV rm.code v.code b.isBcast false) 0)
  | .vfdiv p v rm d a b => some (encVec 0x16 4 p rm.code v false (encV d) a b)
  | .vfsqrt p v rm d a => some (packF 0x16 5 p (encV d) (encV a) 0 0 (modV rm.code v.code false false) 0)
  | .vfmin p v d a b => some (encVec 0x16 6 p 0 v false (encV d) a b)
  | .vfmax p v d a b => some (encVec 0x16 7 p 0 v false (encV d) a b)
  | .vexp2 p d a => some (packF 0x17 0 p (encV d) (encV a) 0 0 (modV 0 4 false false) 0)
  | .vrecip p d a => some (packF 0x17 1 p (encV d) (encV a) 0 0 (modV 0 4 false false) 0)
  | .vrsqrt p d a => some (packF 0x17 2 p (encV d) (encV a) 0 0 (modV 0 4 false false) 0)
  | .vfcmp p cc v d a b => some (encVec 0x18 (cc.code.setWidth 6) p 0 v false (encM d) a b)
  | .vfcvt p rm c d a => some (packF 0x18 0x10 p (encV d) (encV a) 0 0 (modV rm.code 0 false false) c.imm)
  | .vbcast p v d a => some (packF 0x19 0 p (encV d) a 0 0 (modV 0 v.code false false) 0)
  | .vextr p v d a b => some (packF 0x19 1 p d (encV a) b 0 (modV 0 v.code false false) 0)
  | .vinsr p v d a b => some (packF 0x19 2 p (encV d) a b 0 (modV 0 v.code false false) 0)
  | .vperm p v d a b => some (packF 0x19 3 p (encV d) (encV a) (encV b) 0 (modV 0 v.code false false) 0)
  | .vslide p v d a b k =>
    some (packF 0x19 4 p (encV d) (encV a) (encV b) 0 (modV 0 v.code false false) (k.setWidth 48))
  | .vsortk p d c a => some (packF 0x19 5 p (encV d) (encV a) 0 (encV c) (modV 0 2 false false) 0)
  | .vsegadd p v fl rm d a b => some (packF 0x19 6 p (encV d) (encV a) (encV b) 0 (modV rm.code v.code false fl) 0)
  | .vredi p v u d a => some (packF 0x19 7 p d (encV a) 0 0 (modV 0 v.code false u) 0)
  | .vredf p v rm d a => some (packF 0x19 8 p d (encV a) 0 0 (modV rm.code v.code false false) 0)
  | .mand p d a b => some (packF 0x1A 0 p (encM d) (encM a) (encM b) 0 0 0)
  | .mor p d a b => some (packF 0x1A 1 p (encM d) (encM a) (encM b) 0 0 0)
  | .mxor p d a b => some (packF 0x1A 2 p (encM d) (encM a) (encM b) 0 0 0)
  | .mnot p d a => some (packF 0x1A 3 p (encM d) (encM a) 0 0 0 0)
  | .mpopc p v d a => some (packF 0x1A 4 p d (encM a) 0 0 (modV 0 v.code false false) 0)
  | .mfirst p v d a => some (packF 0x1A 5 p d (encM a) 0 0 (modV 0 v.code false false) 0)
  | .mtox p d a h => some (packF 0x1A 6 p d (encM a) 0 0 0 ((bit h).setWidth 48))
  | .xtom p d a h => some (packF 0x1A 7 p (encM d) a 0 0 0 ((bit h).setWidth 48))
  | .ld p sx sz d a b sh i => some (packF 0x20 0 p d a b 0 (modM sh sz.code false sx) i)
  | .st p sz a b c sh i => some (packF 0x21 0 p 0 a b c (modM sh sz.code false false) i)
  | .ldv p v d a i => some (packF 0x22 0 p (encV d) a 0 0 (modM 0 v.code false false) i)
  | .ldvs p v d a b i => some (packF 0x22 1 p (encV d) a b 0 (modM 0 v.code false false) i)
  | .ldg p v u d a b sh i => some (packF 0x22 2 p (encV d) a (encV b) 0 (modM sh v.code u false) i)
  | .stv p v a c i => some (packF 0x23 0 p 0 a 0 (encV c) (modM 0 v.code false false) i)
  | .stvs p v a b c i => some (packF 0x23 1 p 0 a b (encV c) (modM 0 v.code false false) i)
  | .sts p v u a b c sh i => some (packF 0x23 2 p 0 a (encV b) (encV c) (modM sh v.code u false) i)
  | .ldl p d a ix i => some (packF 0x24 0 p (encV d) a (Option.idxField ix) 0 (modM 0 2 ix.isSome false) i)
  | .stl p a ix c i => some (packF 0x24 1 p 0 a (Option.idxField ix) (encV c) (modM 0 2 ix.isSome false) i)
  | .mtt p t f (.reg a) => some (packF 0x25 0 p (encM t) a 0 0 (modM f.code 0 false false) 0)
  | .mtt p t f (.imm i) => some (packF 0x25 0 p (encM t) 0 0 0 (modM f.code 0 false true) i)
  | .mft p d t f => some (packF 0x25 1 p d (encM t) 0 0 (modM f.code 0 false false) 0)
  | .tld p t a b i => some (packF 0x25 2 p (encM t) a b 0 0 i)
  | .tst p t a b i => some (packF 0x25 3 p 0 a b (encM t) 0 i)
  | .twait p t => some (packF 0x26 0 p 0 (encM t) 0 0 0 0)
  | .tcons p t => some (packF 0x26 1 p 0 (encM t) 0 0 0 0)
  | .pref p l2 a n i => some (packF 0x26 2 p 0 a 0 0 (modM 0 n false l2) i)
  | .mma p d a b dst acc tb =>
    some (encE 0x28 0 p d (encM a) (encM b) dst.field (dst.head acc tb ++ (0 : BitVec 35)))
  | .mmat p d a b dst acc tb diag up fill =>
    some (encE 0x28 1 p d (encM a) (encM b) dst.field
      (dst.head acc tb ++ diag ++ bit up ++ fill.code ++ (0 : BitVec 24)))
  | .mmab p d a b c acc tb list =>
    some (encE 0x28 2 p d (encM a) (encM b) (encM c)
      (bit acc ++ bit false ++ bit tb ++ (0 : BitVec 34) ++ list ++ (0 : BitVec 4)))
  | .mmas p d a b dst acc nnz =>
    some (encE 0x28 3 p d (encM a) (encM b) dst.field (dst.head acc false ++ (0 : BitVec 22) ++ nnz))
  | .mjpoll p d a => some (packF 0x29 0 p d a 0 0 0 0)
  | .mjwait p a => some (packF 0x29 1 p 0 a 0 0 0 0)
  | .cpy p d a b c none => some (encE 0x2A 0 p d a b c 0)
  | .cpy p d a b c (some (dir, node)) => some (encE 0x2A 0 p d a b c (bit true ++ bit dir ++ (0 : BitVec 32) ++ node))
  | .cpy2 p d a b c rows rb => some (encE 0x2A 1 p d a b c (rows ++ rb ++ (0 : BitVec 27)))
  | .cpyg p d a b c n rb s => some (encE 0x2A 2 p d a b c (n ++ rb ++ s))
  | .cpyc p d a b c sf df rm => some (encE 0x2A 3 p d a b c (sf ++ df ++ rm.code ++ (0 : BitVec 43)))
  | .cpya p d a b c => some (encE 0x2A 4 p d a b c 0)
  | .susp p d op a b cfmt rm loc =>
    some (packF 0x30 0 p d a b 0 op.code (cfmt ++ rm.code ++ (0 : BitVec 8) ++ loc.enc))
  | .suspr p d a b c ridx => some (packF 0x30 1 p d a b c 0 (ridx ++ (0 : BitVec 32)))
  | .mkval p d t => some (packF 0x30 2 p d (encM t) 0 0 0 0)
  | .force p a => some (packF 0x31 0 p 0 a 0 0 0 0)
  | .spark p a => some (packF 0x31 1 p 0 a 0 0 0 0)
  | .result p t => some (packF 0x31 2 p 0 (encM t) 0 0 0 0)
  | .dup p a => some (packF 0x32 0 p 0 a 0 0 0 0)
  | .drop p a => some (packF 0x32 1 p 0 a 0 0 0 0)
  | .hstat p d a => some (packF 0x32 2 p d a 0 0 0 0)
  | .htile p t a => some (packF 0x32 3 p (encM t) a 0 0 0 0)
  | .padd p v a c i => some (packF 0x34 0 p 0 a 0 c (modM 0 v.code false false) i)
  | .paddv p v u a b c sh i => some (packF 0x34 1 p 0 a (encV b) (encV c) (modM sh v.code u false) i)
  | .pfence p => some (packF 0x34 2 p 0 0 0 0 0 0)
  | .pclr p a i => some (packF 0x34 3 p 0 a 0 0 0 i)
  | .pset p v a c i => some (packF 0x34 4 p 0 a 0 c (modM 0 v.code false false) i)
  | .praw p d a i => some (packF 0x34 5 p (encV d) a 0 0 0 i)
  | .amoAdd p z d a c i => some (encAmo 0x00 p z d a 0 c i)
  | .amoAnd p z d a c i => some (encAmo 0x01 p z d a 0 c i)
  | .amoOr p z d a c i => some (encAmo 0x02 p z d a 0 c i)
  | .amoXor p z d a c i => some (encAmo 0x03 p z d a 0 c i)
  | .amoMin p z d a c i => some (encAmo 0x04 p z d a 0 c i)
  | .amoMax p z d a c i => some (encAmo 0x05 p z d a 0 c i)
  | .amoMinu p z d a c i => some (encAmo 0x06 p z d a 0 c i)
  | .amoMaxu p z d a c i => some (encAmo 0x07 p z d a 0 c i)
  | .amoSwap p z d a c i => some (encAmo 0x08 p z d a 0 c i)
  | .amonrAdd p z a c i => some (encAmo 0x10 p z 0 a 0 c i)
  | .amonrAnd p z a c i => some (encAmo 0x11 p z 0 a 0 c i)
  | .amonrOr p z a c i => some (encAmo 0x12 p z 0 a 0 c i)
  | .amonrXor p z a c i => some (encAmo 0x13 p z 0 a 0 c i)
  | .amonrMin p z a c i => some (encAmo 0x14 p z 0 a 0 c i)
  | .amonrMax p z a c i => some (encAmo 0x15 p z 0 a 0 c i)
  | .amonrMinu p z a c i => some (encAmo 0x16 p z 0 a 0 c i)
  | .amonrMaxu p z a c i => some (encAmo 0x17 p z 0 a 0 c i)
  | .amonrSwap p z a c i => some (encAmo 0x18 p z 0 a 0 c i)
  | .cas p z d a b c i => some (encAmo 0x20 p z d a b c i)
  | .fenceSysAcq p => some (packF 0x39 0 p 0 0 0 0 0 0)
  | .fenceSysRel p => some (packF 0x39 1 p 0 0 0 0 0 0)
  | .fenceSysFull p => some (packF 0x39 2 p 0 0 0 0 0 0)
  | .evld p d a => some (packF 0x39 8 p d a 0 0 0 0)
  | .evtrig p a => some (packF 0x39 9 p 0 a 0 0 0 0)
  | .evtrigConf p a c => some (packF 0x39 9 p 0 a 0 c 0 1)
  | .evmsg p a c => some (packF 0x39 10 p 0 a 0 c 0 0)
  | .evmsgPeer p a c node => some (packF 0x39 10 p 0 a 0 c 1 (node.setWidth 48))
  | .bar p d => some (packF 0x3A 0 p 0 0 0 0 0 (d.setWidth 48))
  | .settle p d => some (packF 0x3A 1 p 0 0 0 0 0 (d.setWidth 48))
  | .sdone p => some (packF 0x3A 2 p 0 0 0 0 0 0)
  | .send p vec a buf dc sl =>
    some (packF 0x3B 0 p 0 a 0 0 ((bit vec).setWidth 8) ((0 : BitVec 15) ++ buf ++ dc ++ sl))
  | .recv p vec d buf sl =>
    some (packF 0x3B 1 p d 0 0 0 ((bit vec).setWidth 8) ((0 : BitVec 15) ++ buf ++ (0 : BitVec 13) ++ sl))
  | .confid p v d a b c n => some (packF 0x3C 0 p d (encV a) b c (modM 0 v.code false false) (n.setWidth 48))
  | .exitk p d a b nl => some (packF 0x3C 1 p d a b 0 0 (nl.setWidth 48))
  | .kvapp p d a b c => some (packF 0x3C 2 p d a (encV b) (encV c) (modM 0 0 false false) 0)
  | .kvappFill p d a b c => some (packF 0x3C 2 p d a (encV b) (encV c) (modM 0 0 true false) 0)
  | .kvldWait p t a b c n => some (packF 0x3C 3 p (encM t) a b (encM c) (modM 0 0 false false) (n.setWidth 48))
  | .kvldMask p t a b c n => some (packF 0x3C 3 p (encM t) a b (encM c) (modM 0 0 true false) (n.setWidth 48))
  | .arwait p a => some (packF 0x3C 4 p 0 a 0 0 0 0)
  | .trap p code => some (packF 0x3D 0 p 0 0 0 0 0 (code.setWidth 48))
  | .eret p => some (packF 0x3D 1 p 0 0 0 0 0 0)
  | .replay p d a => some (packF 0x3D 2 p d a 0 0 0 0)
  | .csave p d a b => some (packF 0x3D 3 p d a b 0 0 0)
  | .crest p d a b => some (packF 0x3D 4 p d a b 0 0 0)
  | .halt p => some (packF 0x3E 0 p 0 0 0 0 0 0)
  | .haltRetain p => some (packF 0x3E 0 p 0 0 0 0 1 0)
  | .trace p a b tag => some (packF 0x3E 1 p 0 a b 0 0 (tag.setWidth 48))
  | .ill => some (BitVec.allOnes 96)
  | _ => none

end Sys2Proof
end

