-- ==== Sys2Proof/Machine/Operands.lean ====
section
/-! DEFINITION. Operands: registers and predicates, vector elements, the conditions, what every instruction checks
first, and tiles with their tags (R20, R21, R122, R123, R164, R165, R192, R200 to R204, R277, R320). -/

namespace Sys2Proof.Machine

/-! ## Registers -/

/-- The registers that the instruction reads: as they stood before the group for the second slot of a pair (R127). -/
def Context.sources (k : Context) : RegFile := k.latched.getD k.regs

/-- x[r]: x0 reads zero (R122). -/
def State.x (s : State) (r : XReg) : Word := if r = 0 then 0 else s.me.sources.x[r.toNat]
def State.v (s : State) (r : VReg) : Vec := s.me.sources.v[r.toNat]
def State.m (s : State) (r : MReg) : Mask := s.me.sources.m[r.toNat]
def State.t (s : State) (r : TReg) : Tile := s.me.sources.t[r.toNat]

/-- A write of x[r]: discarded for x0 (R122). -/
def State.setX (s : State) (r : XReg) (w : Word) : State :=
  if r = 0 then s else s.mapMe fun k => { k with regs := { k.regs with x := k.regs.x.set r.toNat w } }
def State.setV (s : State) (r : VReg) (w : Vec) : State :=
  s.mapMe fun k => { k with regs := { k.regs with v := k.regs.v.set r.toNat w } }
def State.setM (s : State) (r : MReg) (w : Mask) : State :=
  s.mapMe fun k => { k with regs := { k.regs with m := k.regs.m.set r.toNat w } }
def State.setT (s : State) (r : TReg) (w : Tile) : State :=
  s.mapMe fun k => { k with regs := { k.regs with t := k.regs.t.set r.toNat w } }

/-- Flags added to FFLAGS (R96). -/
def State.addFlags (s : State) (f : Flags) : State :=
  s.mapMe fun k => { k with fflags := k.fflags ||| f }

/-! ## Predicates (R20, R21, R165) -/

/-- Bit i of the predicate: m0 reads all ones, and bit 3 of PRED negates. -/
def State.predBit (s : State) (p : Pred) (i : Nat) : Bool :=
  let r : MReg := p.setWidth 3
  let b := if r = 0 then true else (s.m r).getLsbD i
  if p.getLsbD 3 then !b else b

/-- The predicate of an instruction that is not per element: bit 0 (R21). -/
def State.holds (s : State) (p : Pred) : Bool := s.predBit p 0

/-- Element i of a view is active (R21). -/
def State.active? (s : State) (p : Pred) (v : View) (i : Nat) : Bool := s.predBit p (v.bytes * i)

/-! ## Vector elements (R164) -/

/-- Element i of w bits of a register. -/
def elem (r : Vec) (w i : Nat) : Nat := r.toNat / 2 ^ (w * i) % 2 ^ w

/-- A register from its elements of w bits, the first lowest. -/
def vecOf (w : Nat) (l : List Nat) : Vec := BitVec.ofNat 1024 (packElems w l)

/-- Every element of a view: the new value where active, the old one otherwise (R165). -/
def State.perElem (s : State) (p : Pred) (v : View) (old : Vec) (f : Nat → Nat) : Vec :=
  vecOf v.width ((List.range v.elems).map fun i => if s.active? p v i then f i else elem old v.width i)

/-- The B operand's element i: a vector's, or the broadcast scalar's low bits (R166). -/
def State.bElem (s : State) (v : View) (b : VOp) (i : Nat) : Nat :=
  match b with
  | .vec r => elem (s.v r) v.width i
  | .bcast r => (s.x r).toNat % 2 ^ v.width

/-- A mask register with all w bits of each active element set by its result (R175). -/
def State.maskElems (s : State) (p : Pred) (v : View) (old : Mask) (f : Nat → Bool) : Mask :=
  BitVec.ofNat 128 (packElems v.bytes ((List.range v.elems).map fun i =>
    if s.active? p v i then (if f i then 2 ^ v.bytes - 1 else 0) else old.toNat / 2 ^ (v.bytes * i)))

/-- The elements of a view, with those that are active. -/
def State.actives (s : State) (p : Pred) (v : View) : List Nat := (List.range v.elems).filter (s.active? p v)

/-! ## Conditions (R123) -/

/-- The integer conditions on w-bit numbers. -/
def ICond.holds (cc : ICond) (w a b : Nat) : Bool :=
  let sa := signedOf w a
  let sb := signedOf w b
  match cc with
  | .eq => decide (a = b)
  | .ne => decide (a ≠ b)
  | .lt => decide (sa < sb)
  | .ge => decide (sb ≤ sa)
  | .ltu => decide (a < b)
  | .geu => decide (b ≤ a)
  | .gt => decide (sb < sa)
  | .le => decide (sa ≤ sb)
  | .gtu => decide (b < a)
  | .leu => decide (a ≤ b)

/-! ## What an instruction checks first -/

/-- In a settlement phase the instruction raises PHASE, whatever its predicate (R320). -/
def noSettlement (faddr : Word := 0) : Eff Unit := do
  if (← get).me.inSettlement then fail .phase faddr

/-- No instruction of class L or X issues before the last access has returned its timestamp (R277). -/
def replied : Eff Unit := do
  if (← get).me.reply.isSome then waitFor .access

/-- The effect under the predicate's bit 0 (R21): nothing when it fails. -/
def under (p : Pred) (e : Eff Next) : Eff Next := do
  if (← get).holds p then e else pure .seq

/-- An instruction of class N, I, B or F. -/
def plain (p : Pred) (e : Eff Next) (s : State) : Host.Outcome State Fault Refusal := perform (under p e) s

/-- An instruction of class X or L that a settlement phase does not allow. -/
def guarded (p : Pred) (e : Eff Next) (s : State) : Host.Outcome State Fault Refusal :=
  perform (do noSettlement; replied; under p e) s

/-- A vector memory instruction: the same, with its predicate per element. -/
def guardedV (e : Eff Next) (s : State) : Host.Outcome State Fault Refusal :=
  perform (do noSettlement; replied; e) s

/-- An effect on the state as a whole that completes. -/
def doing (f : State → State) : Eff Next := do
  modify f
  pure .seq

/-- The pts of the context at once, and with the reply on its way when a message carries it (R274, R277). -/
def State.returned (s : State) (store reply : Bool) (pts : Ts) : State :=
  s.mapMe fun k => if reply then { k with reply := some (store, pts) } else { k with pts := tsMax k.pts pts }

/-! ## Scalar addresses (R196, R197) -/

/-- x[A] + (x[B] << SH) + sext(IMM48) (R196). -/
def State.address (s : State) (a b : XReg) (sh : BitVec 3) (imm : Imm48) : Word :=
  s.x a + (s.x b <<< sh.toNat) + sext48 imm

/-- x[A] + sext(IMM48). -/
def State.base (s : State) (a : XReg) (imm : Imm48) : Word := s.x a + sext48 imm

/-- Element i of an index vector, extended to 64 bits (R197). -/
def State.index (s : State) (v : View) (u : Bool) (b : VReg) (i : Nat) : Word :=
  let n := elem (s.v b) v.width i
  if u then BitVec.ofNat 64 n else BitVec.ofInt 64 (signedOf v.width n)

/-- An element load of the active context, ACC 1, with the flags of a convert-on-read (R193, R194, R274): n bytes at an
address. -/
def loadElem (va : Word) (n : Nat) : Eff Nat := do
  let s ← get
  let t := s.threadOf s.active
  let p ← locateLoad t 1 va n
  readyUnit t 1 va p n s.me.pts false
  let (v, fl, pts, r) ← loadUnit t 1 p n s.me.pts
  modify fun s => (s.addFlags fl).returned false r pts
  return v

/-- An element store of the active context (R193, R275): the low n bytes of a number at an address. -/
def storeElem (va : Word) (n v : Nat) : Eff Unit := do
  let s ← get
  let t := s.threadOf s.active
  let p ← locateStore t .write 2 va n
  readyUnit t 2 va p n s.me.pts true
  let pts ← storeUnit t p n v s.me.pts
  modify fun s => s.returned true true pts

/-! ## Tiles (R91, R200 to R204) -/

/-- The element width in bits. -/
def Tile.width (t : Tile) : Nat := (fmtOf t.fmt).width
/-- The row length in bytes (R202). -/
def Tile.rowLen (t : Tile) : Nat := (t.cols.toNat * t.width + 7) / 8
/-- The offset in the cluster-shared window. -/
def Tile.off (t : Tile) : Nat := t.addr.toNat % 2 ^ 19
/-- The extent in bytes (R202). -/
def Tile.extent (t : Tile) : Nat := (t.rows.toNat - 1) * t.stride.toNat + t.rowLen

/-- Step 1 of R202 holds: a usable format, and scales only where permitted. -/
def Tile.formatOk (t : Tile) : Bool :=
  t.width != 0 && (t.scale == 0 || scalable t.fmt)

/-- Step 2 of R202 holds: the ranges, the stride and the alignment. -/
def Tile.shapeOk (t : Tile) : Bool :=
  let maxCols := if t.fmt = 8 ∨ t.fmt = 10 then 128 else 64
  let size := (t.width + 7) / 8
  decide (1 ≤ t.rows.toNat) && decide (t.rows.toNat ≤ 64) && decide (1 ≤ t.cols.toNat) &&
    decide (t.cols.toNat ≤ maxCols) && decide (1 ≤ t.stride.toNat) && decide (t.stride.toNat ≤ 4096) &&
    decide (t.rowLen ≤ t.stride.toNat) && decide (t.addr.toNat % size = 0) && decide (t.stride.toNat % size = 0)

/-- The scale bytes stay inside the window (R202). -/
def Tile.scaleOk (t : Tile) (rows cols : Nat) : Bool :=
  t.scale == 0 || decide (t.scale.toNat * 128 + 4 * max rows cols ≤ 2 ^ 19)

/-- Step 3 of R202 holds for a cluster: its own window, inside it, with its scale bytes. -/
def Tile.windowOk (t : Tile) (p : Nat) : Bool :=
  decide (t.addr.toNat / 2 ^ 19 = (clusterWindow p).toNat / 2 ^ 19) && decide (t.off + t.extent ≤ 2 ^ 19) &&
    t.scaleOk t.rows.toNat t.cols.toNat

/-- The descriptor check of R202, which makes no access, so that its ACC is 0 (R369; log 13). -/
def checkTile (p : Nat) (t : Tile) : Eff Unit := do
  if !t.formatOk then fail .fmtmix
  if !t.shapeOk then fail .align t.addr
  if !t.windowOk p then fail .window t.addr

/-- The granules of a byte range of a cluster's window. -/
def granulesOf (off n : Nat) : List Nat :=
  if n = 0 then [] else (List.range ((off + n - 1) / 128 - off / 128 + 1)).map (off / 128 + ·)

/-- The granules that a tile's bytes touch (R203). -/
def Tile.granules (t : Tile) : List Nat :=
  distinct ((List.range t.rows.toNat).flatMap fun r => granulesOf (t.off + r * t.stride.toNat) t.rowLen)

/-- A granule's tags: V and C are 1 at placement (R204). -/
def State.tag (s : State) (p g : Nat) : Tag :=
  SMap.at (s.cluster p).tags { v := true, c := true, time := s.stampBase } g
def State.setTag (s : State) (p g : Nat) (t : Tag) : State :=
  s.mapCluster p fun k => { k with tags := SMap.put k.tags g t }
def State.setTags (s : State) (p : Nat) (gs : List Nat) (f : Tag → Tag) : State :=
  gs.foldl (fun s g => s.setTag p g (f (s.tag p g))) s

/-- V = 1 on every granule. -/
def State.valid (s : State) (p : Nat) (gs : List Nat) : Bool := gs.all fun g => (s.tag p g).v

/-- The greatest time at which V was last set on the granules (R285). -/
def State.tagTime (s : State) (p : Nat) (gs : List Nat) (t : Ts) : Ts :=
  gs.foldl (fun t g => tsMax t (s.tag p g).time) t

/-- The entries of a batch list that run: offsets of A, B and C (R222). -/
def batchList (m : Memory) (base : Nat) : List (Nat × Nat × Nat × Bool) :=
  (List.range 16).filterMap fun i =>
    let w0 := m.readN (base + 16 * i) 8
    let w1 := m.readN (base + 16 * i + 8) 8
    if w1 / 2 ^ 63 = 1 then
      some (w0 % 2 ^ 19, w0 / 2 ^ 32 % 2 ^ 19, w1 % 2 ^ 19,
        decide (w0 / 2 ^ 51 = 0 ∧ w0 / 2 ^ 19 % 2 ^ 13 = 0 ∧ w1 / 2 ^ 19 % 2 ^ 44 = 0))
    else none

/-- A tile moved to an offset of a cluster's window. -/
def Tile.at_ (t : Tile) (p off : Nat) : Tile := { t with addr := clusterWindow p + BitVec.ofNat 64 off }

/-- The bytes of the CSR block of `MMAS` (R224). -/
def csrBytes (b : Tile) (nnz : Nat) : Nat := 2 * (b.rows.toNat + 1) + 2 * nnz + (nnz * b.width + 7) / 8

/-- The entries of a batch job: as it read them at its start, or as they stand (R222). -/
def State.jobEntries (s : State) (p : Nat) (j : Job) (list : Nat) : List (Nat × Nat × Nat × Bool) :=
  j.batch.getD (batchList s.clusterMem (p * 2 ^ 19 + list))

/-- The granules that a matrix job reads (R203, R220, R222, R224). -/
def State.jobReads (s : State) (p : Nat) (j : Job) : List Nat :=
  match j.kind with
  | .mma a b _ _ _ _ => a.granules ++ b.granules
  | .mmas a b _ _ nnz => a.granules ++ granulesOf b.off (csrBytes b nnz)
  | .mmab a b _ _ _ list =>
    granulesOf list 256 ++ (s.jobEntries p j list).flatMap fun e => (a.at_ p e.1).granules ++ (b.at_ p e.2.1).granules
  | _ => []

/-- The granules of the scale bytes of a tile's rows or columns (R93). -/
def Tile.scales (t : Tile) (n : Nat) : List Nat := if t.scale = 0 then [] else granulesOf (t.scale.toNat * 128) (4 * n)

/-- The granules that a product of two tiles loads: theirs, and those of their scale bytes, of A by rows and of B by columns
(R93, R220). -/
def productLoads (a b : Tile) (tb : Bool) : List Nat :=
  a.granules ++ b.granules ++ a.scales a.rows.toNat ++ b.scales (if tb then b.rows.toNat else b.cols.toNat)

/-- The granules that a matrix job loads before its first product (R220, R224): a batch loads those of each entry in turn
(R222). -/
def State.jobLoads (s : State) (p : Nat) (j : Job) : List Nat :=
  match j.kind with
  | .mma a b _ _ tb _ => productLoads a b tb
  | .mmas _ b _ _ _ => s.jobReads p j ++ b.scales b.cols.toNat ++ (match j.kind with
      | .mmas a _ _ _ _ => a.scales a.rows.toNat
      | _ => [])
  | _ => []

/-- The granules that a matrix job updates. -/
def State.jobUpdates (s : State) (p : Nat) (j : Job) : List Nat :=
  match j.kind with
  | .mma _ _ (.tile c) _ _ _ => c.granules
  | .mmas _ _ (.tile c) _ _ => c.granules
  | .mmab _ _ c _ _ list =>
    ((s.jobEntries p j list).flatMap fun e => (c.at_ p e.2.2.1).granules).filter fun g => decide (g < 4096)
  | _ => []

/-- A use of a cluster's granules meets the soft errors that lie in them (R227, R380, R381). -/
def meetGranules (secure : Bool) (acc : BitVec 4) (p : Nat) : List Nat → Eff Unit
  | [] => pure ()
  | g :: r => do
    let off := p * 2 ^ 19 + g * 128
    meetError secure acc 3 (winKey 1 off) off
    meetGranules secure acc p r

/-- The granules that running engine jobs read (R203). -/
def State.beingRead (s : State) (p : Nat) : List Nat :=
  (s.cluster p).matrix.running.flatMap fun j => s.jobReads p j.2

/-- The fill condition of R203. -/
def State.fillable (s : State) (p : Nat) (gs : List Nat) : Bool :=
  gs.all fun g => (s.tag p g).v && (s.tag p g).c && !((s.beingRead p).contains g)

/-- Element (i, j) of a tile of a cluster's window, as bits (R91). -/
def Tile.bits (t : Tile) (m : Memory) (p i j : Nat) : Nat :=
  streamBits m (p * 2 ^ 19 + t.off + i * t.stride.toNat) (t.width * j) t.width

/-- Its value, multiplied by its block's scale (R92, R93): row-blocked, or column-blocked. -/
def Tile.value (t : Tile) (m : Memory) (p : Nat) (byCol : Bool) (i j : Nat) : FV :=
  let v := (fmtOf t.fmt).decode false (t.bits m p i j)
  if t.scale = 0 then v
  else
    let (q, k) := if byCol then (j, i / 32) else (i, j / 32)
    v.scaled (m.read (p * 2 ^ 19 + t.scale.toNat * 128 + 4 * q + k)).toNat

/-- A memory with n bits of a bit stream replaced. -/
def streamWrite (m : Memory) (base bit w v : Nat) : Memory :=
  let n := (bit % 8 + w + 7) / 8
  m.writeN (base + bit / 8) n (setBits (m.readN (base + bit / 8) n) (bit % 8) w v)

/-- A tile's element written. -/
def Tile.write (t : Tile) (m : Memory) (p i j v : Nat) : Memory :=
  streamWrite m (p * 2 ^ 19 + t.off + i * t.stride.toNat) (t.width * j) t.width v

/-- Every element of a tile's rows and columns written, rows ascending. -/
def Tile.writeAll (t : Tile) (m : Memory) (p : Nat) (f : Nat → Nat → Option Nat) : Memory :=
  (List.range t.rows.toNat).foldl (fun m i =>
    (List.range t.cols.toNat).foldl (fun m j =>
      match f i j with
      | some v => t.write m p i j v
      | none => m) m) m

/-- The granules of a cluster's window stamped as stores of a thread, with its pts after them (R275, R284). -/
def State.stampStores (s : State) (p : Nat) (gs : List Nat) (pts : Ts) : State × Ts :=
  gs.foldl (fun (s, pts) g =>
    let off := p * 2 ^ 19 + g * 128
    let st := (s.winStamp 1 off).store pts
    ((s.setWinStamp 1 off st).assign st.wts, st.wts)) (s, pts)

/-- The granules of a cluster's window stamped as loads of a thread, with its pts after them (R276, R284). -/
def State.stampLoads (s : State) (p : Nat) (gs : List Nat) (pts : Ts) : State × Ts :=
  gs.foldl (fun (s, pts) g =>
    let off := p * 2 ^ 19 + g * 128
    let st := s.winStamp 1 off
    let pts' := tsMax pts st.wts
    ((s.setWinStamp 1 off (st.load pts)).assign pts', pts')) (s, pts)

end Sys2Proof.Machine
end

