-- ==== Sys2Proof/Machine/Timing.lean ====
section
/-! DEFINITION. Issue classes, the registers that an instruction reads and writes, and the latencies that hold exactly
in a settlement phase (R126, R139, R140, R186, R320). -/

namespace Sys2Proof.Machine

/-- The issue classes of R126. -/
inductive IssueClass where
  | n | i | b | f | l | x
  deriving DecidableEq, Repr

/-- The class of an instruction (R126). -/
def issueClass (i : Instr) : IssueClass :=
  match i with
  | .nop _ => .n
  | .add .. | .sub .. | .and .. | .or .. | .xor .. | .andn .. | .shl .. | .shr .. | .sha .. | .rotl .. | .min ..
  | .max .. | .minu .. | .maxu .. | .addi .. | .subImm .. | .andImm .. | .orImm .. | .xorImm .. | .andnImm ..
  | .shlImm .. | .shrImm .. | .shaImm .. | .rotlImm .. | .minImm .. | .maxImm .. | .minuImm .. | .maxuImm ..
  | .mul .. | .mulh .. | .mulhu .. | .div .. | .divu .. | .rem .. | .remu .. | .clz .. | .ctz .. | .popc ..
  | .cmp .. | .sel .. | .movi .. | .lea .. | .extr .. | .insr .. => .i
  | .br .. | .jmp .. | .call .. | .ret .. | .jtab .. | .callt .. => .b
  | .fadd .. | .fsub .. | .fmul .. | .ffma .. | .fdiv .. | .fsqrt .. | .fmin .. | .fmax .. | .fcmp .. | .fcvt ..
  | .fclass .. | .vadd .. | .vsub .. | .vmul .. | .vmulh .. | .vmin .. | .vmax .. | .vand .. | .vor .. | .vxor ..
  | .vshl .. | .vshr .. | .vsha .. | .vcmp .. | .vfadd .. | .vfsub .. | .vfmul .. | .vffma .. | .vfdiv ..
  | .vfsqrt .. | .vfmin .. | .vfmax .. | .vexp2 .. | .vrecip .. | .vrsqrt .. | .vfcmp .. | .vfcvt .. | .vbcast ..
  | .vextr .. | .vinsr .. | .vperm .. | .vslide .. | .vsortk .. | .vsegadd .. | .vredi .. | .vredf .. | .mand ..
  | .mor .. | .mxor .. | .mnot .. | .mpopc .. | .mfirst .. | .mtox .. | .xtom .. => .f
  | .ld .. | .st .. | .ldv .. | .ldvs .. | .ldg .. | .stv .. | .stvs .. | .sts .. | .ldl .. | .stl .. | .mtt ..
  | .mft .. | .tld .. | .tst .. | .twait .. | .tcons .. | .pref .. => .l
  | _ => .x

/-- Register numbers among the availability cycles: x at 0, v at 64, m at 96, t at 104. -/
def xKey (r : XReg) : Nat := r.toNat
def vKey (r : VReg) : Nat := 64 + r.toNat
def mKey (r : MReg) : Nat := 96 + r.toNat
def tKey (r : TReg) : Nat := 104 + r.toNat

/-- The registers that an instruction writes, x0 left out (R122, R140). -/
def destsOf (i : Instr) : List Nat :=
  (match i with
  | .add _ d _ _ | .sub _ d _ _ | .and _ d _ _ | .or _ d _ _ | .xor _ d _ _ | .andn _ d _ _ | .shl _ d _ _
  | .shr _ d _ _ | .sha _ d _ _ | .rotl _ d _ _ | .min _ d _ _ | .max _ d _ _ | .minu _ d _ _ | .maxu _ d _ _
  | .addi _ d _ _ | .subImm _ d _ _ | .andImm _ d _ _ | .orImm _ d _ _ | .xorImm _ d _ _ | .andnImm _ d _ _
  | .shlImm _ d _ _ | .shrImm _ d _ _ | .shaImm _ d _ _ | .rotlImm _ d _ _ | .minImm _ d _ _ | .maxImm _ d _ _
  | .minuImm _ d _ _ | .maxuImm _ d _ _ | .mul _ d _ _ | .mulh _ d _ _ | .mulhu _ d _ _ | .div _ d _ _
  | .divu _ d _ _ | .rem _ d _ _ | .remu _ d _ _ | .clz _ d _ | .ctz _ d _ | .popc _ d _ | .cmp _ _ d _ _
  | .sel _ d _ _ _ | .movi _ d _ | .lea _ d _ _ _ _ | .extr _ _ d _ _ _ | .insr _ d _ _ _ | .mfc _ d _
  | .fadd _ _ _ d _ _ | .fsub _ _ _ d _ _ | .fmul _ _ _ d _ _ | .ffma _ _ _ d _ _ _ | .fdiv _ _ _ d _ _
  | .fsqrt _ _ _ d _ | .fmin _ _ d _ _ | .fmax _ _ d _ _ | .fcmp _ _ _ d _ _ | .fcvt _ _ _ d _ | .fclass _ _ d _
  | .vextr _ _ d _ _ | .vredi _ _ _ d _ | .vredf _ _ _ d _ | .mpopc _ _ d _ | .mfirst _ _ d _ | .mtox _ d _ _
  | .ld _ _ _ d _ _ _ _ | .mft _ d _ _ => [xKey d]
  | .call _ _ | .callt _ _ _ _ _ => [1]
  | .vadd _ _ d _ _ | .vsub _ _ d _ _ | .vmul _ _ d _ _ | .vmulh _ _ _ d _ _ | .vmin _ _ _ d _ _
  | .vmax _ _ _ d _ _ | .vand _ _ d _ _ | .vor _ _ d _ _ | .vxor _ _ d _ _ | .vshl _ _ d _ _ | .vshr _ _ d _ _
  | .vsha _ _ d _ _ | .vfadd _ _ _ d _ _ | .vfsub _ _ _ d _ _ | .vfmul _ _ _ d _ _ | .vffma _ _ _ d _ _ _
  | .vfdiv _ _ _ d _ _ | .vfsqrt _ _ _ d _ | .vfmin _ _ d _ _ | .vfmax _ _ d _ _ | .vexp2 _ d _ | .vrecip _ d _
  | .vrsqrt _ d _ | .vfcvt _ _ _ d _ | .vbcast _ _ d _ | .vinsr _ _ d _ _ | .vperm _ _ d _ _ | .vslide _ _ d _ _ _
  | .vsegadd _ _ _ _ d _ _ | .ldv _ _ d _ _ | .ldvs _ _ d _ _ _ | .ldg _ _ _ d _ _ _ _ | .ldl _ d _ _ _ => [vKey d]
  | .vsortk _ d c _ => [vKey d, vKey c]
  | .vcmp _ _ _ d _ _ | .vfcmp _ _ _ d _ _ | .mand _ d _ _ | .mor _ d _ _ | .mxor _ d _ _ | .mnot _ d _
  | .xtom _ d _ _ => [mKey d]
  | .mtt _ t _ _ => [tKey t]
  | .recv _ vec d _ _ => [if vec then 64 + d.toNat % 32 else xKey d]
  | _ => []).filter (· ≠ 0)

/-- The predicate's mask, read by every instruction that names one. -/
def predKeys (p : Pred) : List Nat := if p.toNat % 8 = 0 then [] else [96 + p.toNat % 8]

def vopKey (b : VOp) : Nat :=
  match b with
  | .vec r => vKey r
  | .bcast r => xKey r

def regImmKeys (b : RegImm) : List Nat :=
  match b with
  | .reg r => [xKey r]
  | .imm _ => []

/-- The registers that an instruction which a settlement phase allows reads (R320). FFLAGS is none of them, so that an `MFC` of it
issues at once there (R320) and does not wait as R167 says, the MODEL's choice (log 18). -/
def srcsOf (i : Instr) : List Nat :=
  match i with
  | .add p _ a b | .sub p _ a b | .and p _ a b | .or p _ a b | .xor p _ a b | .andn p _ a b | .shl p _ a b
  | .shr p _ a b | .sha p _ a b | .rotl p _ a b | .min p _ a b | .max p _ a b | .minu p _ a b | .maxu p _ a b
  | .mul p _ a b | .mulh p _ a b | .mulhu p _ a b | .div p _ a b | .divu p _ a b | .rem p _ a b | .remu p _ a b
  | .lea p _ a b _ _ | .br p _ a b _ | .jtab p a b _ _ | .callt p a b _ _ | .trace p a b _
  | .fadd p _ _ _ a b | .fsub p _ _ _ a b | .fmul p _ _ _ a b | .fdiv p _ _ _ a b | .fmin p _ _ a b
  | .fmax p _ _ a b | .fcmp p _ _ _ a b => predKeys p ++ [xKey a, xKey b]
  | .addi p _ a _ | .subImm p _ a _ | .andImm p _ a _ | .orImm p _ a _ | .xorImm p _ a _ | .andnImm p _ a _
  | .shlImm p _ a _ | .shrImm p _ a _ | .shaImm p _ a _ | .rotlImm p _ a _ | .minImm p _ a _ | .maxImm p _ a _
  | .minuImm p _ a _ | .maxuImm p _ a _ | .clz p _ a | .ctz p _ a | .popc p _ a | .extr p _ _ a _ _ | .ret p a
  | .fsqrt p _ _ _ a | .fcvt p _ _ _ a | .fclass p _ _ a | .vbcast p _ _ a => predKeys p ++ [xKey a]
  | .cmp p _ _ a b => predKeys p ++ xKey a :: regImmKeys b
  | .sel p _ a b c | .ffma p _ _ _ a b c => predKeys p ++ [xKey a, xKey b, xKey c]
  | .insr p d a _ _ => predKeys p ++ [xKey d, xKey a]
  | .movi p _ _ | .jmp p _ | .call p _ | .mfc p _ _ | .sdone p | .recv p _ _ _ _ => predKeys p
  | .vadd p _ _ a b | .vsub p _ _ a b | .vmul p _ _ a b | .vmulh p _ _ _ a b | .vmin p _ _ _ a b
  | .vmax p _ _ _ a b | .vand p _ _ a b | .vor p _ _ a b | .vxor p _ _ a b | .vshl p _ _ a b | .vshr p _ _ a b
  | .vsha p _ _ a b | .vcmp p _ _ _ a b | .vfadd p _ _ _ a b | .vfsub p _ _ _ a b | .vfmul p _ _ _ a b
  | .vfdiv p _ _ _ a b | .vfmin p _ _ a b | .vfmax p _ _ a b | .vfcmp p _ _ _ a b =>
    predKeys p ++ [vKey a, vopKey b]
  | .vffma p _ _ _ a b c => predKeys p ++ [vKey a, vopKey b, vKey c]
  | .vfsqrt p _ _ _ a | .vexp2 p _ a | .vrecip p _ a | .vrsqrt p _ a | .vfcvt p _ _ _ a | .vsortk p _ _ a
  | .vredi p _ _ _ a | .vredf p _ _ _ a => predKeys p ++ [vKey a]
  | .vextr p _ _ a b => predKeys p ++ [vKey a, xKey b]
  | .vinsr p _ d a b => predKeys p ++ [vKey d, xKey a, xKey b]
  | .vperm p _ _ a b | .vslide p _ _ a b _ | .vsegadd p _ _ _ _ a b => predKeys p ++ [vKey a, vKey b]
  | .mand p _ a b | .mor p _ a b | .mxor p _ a b => predKeys p ++ [mKey a, mKey b]
  | .mnot p _ a | .mpopc p _ _ a | .mfirst p _ _ a | .mtox p _ a _ => predKeys p ++ [mKey a]
  | .xtom p d a _ => predKeys p ++ [mKey d, xKey a]
  | .send p vec a _ _ _ => predKeys p ++ [if vec then 64 + a.toNat % 32 else xKey a]
  | _ => []

/-- The bit length of the dividend's magnitude (R320). -/
def dividendBits (signed : Bool) (a : Word) : Nat := bitLen (if signed then a.toInt.natAbs else a.toNat)

/-- The latency of a result in a settlement phase (R139, R186, R320). R186 lists none for the scalar FMIN and FMAX, which take the
4 cycles of FADD and FCMP here, the MODEL's choice (log 18). -/
def latencyOf (i : Instr) (s : State) : Nat :=
  match i with
  | .mul .. | .mulh .. | .mulhu .. => 3
  | .div _ _ a _ | .rem _ _ a _ => 6 + (dividendBits true (s.x a) + 1) / 2
  | .divu _ _ a _ | .remu _ _ a _ => 6 + (dividendBits false (s.x a) + 1) / 2
  | .mfc .. => 2
  | .fadd .. | .fsub .. | .fmul .. | .ffma .. | .fmin .. | .fmax .. | .fcmp .. | .vfadd .. | .vfsub .. | .vfmul ..
  | .vffma .. | .vfmin .. | .vfmax .. | .vfcmp .. => 4
  | .fcvt .. | .vfcvt .. | .fclass .. | .vredi .. => 3
  | .vbcast .. | .vextr .. | .vinsr .. | .vperm .. | .vslide .. => 2
  | .vexp2 .. | .vrecip .. | .vrsqrt .. => 6
  | .vsortk .. | .vsegadd .. => 8
  | .vredf .. => 12
  | .fdiv _ f _ _ _ _ | .fsqrt _ f _ _ _ => if f = .d then 24 else 14
  | .vfdiv _ v _ _ _ _ | .vfsqrt _ v _ _ _ => if v = .d then 24 else 14
  | _ => 1

/-- A pair is legal (R126): the classes, and the registers that both slots write. -/
def pairLegal (i j : Instr) : Bool :=
  let ci := issueClass i
  let cj := issueClass j
  ci != .x && cj != .x && ci != .b && (ci != cj || ci == .n || cj == .n) &&
    !((destsOf i).any fun d => (destsOf j).contains d)

end Sys2Proof.Machine
end

