-- ==== Sys2Proof/Machine/Fetch.lean ====
section
/-! DEFINITION. Code lines, the checks made on entering a slot, and the group that a program counter begins
(R108 to R115, R125 to R128, R154). -/

namespace Sys2Proof.Machine

/-! ## The line (R108 to R110) -/

/-- The exclusive OR of the low n bits of a number. -/
def parity (v : Nat) : Nat → Bool
  | 0 => false
  | n + 1 => v.testBit n != parity v n

/-- Slot i of a line (R108). -/
def slotOf (d : Line64) (i : Nat) : BitVec 96 := BitVec.ofNat 96 (d.toNat / 2 ^ (96 * i))
/-- The line word (R108). -/
def lineWord (d : Line64) : Nat := d.toNat / 2 ^ 480

/-- Every slot together with its SPAR bit, and bits [31:5] of the line word, hold an even count of ones (R110). -/
def parityOk (d : Line64) : Bool :=
  ((List.range 5).all fun i => parity (slotOf d i).toNat 96 == (lineWord d).testBit i) &&
    !parity (lineWord d / 32) 27

def tgtBit (d : Line64) (i : Nat) : Bool := (lineWord d).testBit (6 + i)
def pairBit (d : Line64) (j : Nat) : Bool := decide (j < 4) && (lineWord d).testBit (11 + j)
def setlBit (d : Line64) : Bool := (lineWord d).testBit 15
def reservedBits (d : Line64) : Bool := lineWord d / 2 ^ 16 != 0

/-- The line address of a program counter (R111). -/
def lineOf (pc : Word) : Word := pc &&& ~~~(63 : Word)
/-- The slot of a program counter (R111). -/
def slotNo (pc : Word) : Nat := pc.toNat % 8

/-- The program counter that LINEOFF and SLOT name (R119). -/
def targetOf (pc : Word) (t : Target) : Word :=
  lineOf pc + (t.lineOff.signExtend 64 <<< 6) + t.slot.setWidth 64

/-! ## Fetch (R112, R113) -/

/-- The class of a program counter lets its line be fetched (R113). -/
def checkClass (pc : Word) : Eff Unit := do
  if isWindow pc then fail .window pc
  if !isUser pc then fail .page pc 0 3

/-- The pts of the active context's last store is still to come: no later access is issued before it has (R277). -/
def State.storing (s : State) : Bool := match s.me.reply with
  | some (store, _) => store
  | none => false

/-- A code line read through L1 and L2, with the checks of R113; ACC is 0 and the address the one of the slot. -/
def fetchLine (line pc : Word) : Eff Line64 := do
  let s ← get
  let t := s.threadOf s.active
  checkClass pc
  if s.storing then waitFor .access
  let e ← translateHeld t true 0 pc line
  match ← placeOf t .fetch 0 pc e line with
  | .mem pa =>
    readyLine t 0 pc (pa / 128) false s.me.pts
    let (d, pts, _) ← loadLine t (pa / 128) s.me.pts
    modify fun s => s.mapMe fun k => { k with pts := pts }
    pure (BitVec.ofNat 512 (d.toNat / 2 ^ (8 * (pa % 128))))
  | _ => fail .perm pc

/-- A line with good parity: as fetched, or as refetched; or the wait for the second copy (R110). -/
def goodLine (line pc : Word) : Eff Line64 := do
  match (← get).me.refetched.find? fun e => e.1 = line with
  | some e => return e.2
  | none =>
    let d ← fetchLine line pc
    if parityOk d then return d else waitFor (.refetch line)

/-- The line is entered at the context's slot: the checks of R115, steps 1 to 5, are made in order. In a settlement phase
nothing is fetched, so that of step 1 only the class of the program counter can fail (R128; log 49). -/
def enterLine : Eff Line64 := do
  let k := (← get).me
  let line := lineOf k.pc
  match k.line with
  | some (a, d) => if a = line ∧ k.entry = .plain then return d
  | none => pure ()
  let d ← if k.inSettlement then
      match k.settle.lines.find? fun x => x.1 = line with
      | some x => pure x.2
      | none =>
        checkClass k.pc
        fail .phase
    else goodLine line k.pc
  if reservedBits d then fail .illop
  match k.entry with
  | .plain => pure ()
  | .transfer src | .landing src _ => if !tgtBit d (slotNo k.pc) then fail .badtgt src
  if k.inSettlement != setlBit d then fail .phase
  modify fun s => s.mapMe fun k => { k with
    line := some (line, d), refetched := k.refetched.filter fun e => e.1 ≠ line }
  return d

/-! ## Decoding (R115 step 6, R125, R126, R154) -/

/-- The instruction names the supervisor-only register (R157, R399). -/
def supervisorOnly (i : Instr) : Bool :=
  match i with
  | .mfc _ _ r | .mtc _ r _ => r == .lbtol
  | _ => false

/-- A slot decoded for the active context: ILLOP where R125 rejects it. -/
def decodeFor (w : BitVec 96) : Eff Instr := do
  match decodeSlot w with
  | .error _ => fail .illop
  | .ok i =>
    let s ← get
    if supervisorOnly i && !s.supervisor s.active then fail .illop
    return i

/-- The landing-pad check (R154). -/
def checkLanding (w : BitVec 96) : Eff Unit := do
  match (← get).me.entry with
  | .landing src tag =>
    match decodeSlot w with
    | .ok (.lpad _ t) => if t ≠ tag then fail .lpadmis src
    | _ => fail .lpadmis src
  | _ => pure ()

/-- The group that begins at the context's slot: one instruction, or the pair that PAIR joins (R126). The second slot
of a pair half issued, and a slot entered by a transfer, begin no earlier pair. -/
def fetchGroup : Eff (List Instr) := do
  let d ← enterLine
  let k := (← get).me
  let j := slotNo k.pc
  checkLanding (slotOf d j)
  let g ← if pairBit d j && k.latched.isNone then do
      if pairBit d (j + 1) then fail .illop
      let a ← decodeFor (slotOf d j)
      let b ← decodeFor (slotOf d (j + 1))
      if !pairLegal a b then fail .illop
      pure [a, b]
    else do
      let a ← decodeFor (slotOf d j)
      pure [a]
  modify fun s => s.mapMe fun k => { k with entry := .plain }
  return g

/-- The slots of a group, as they are forwarded (R130). -/
def State.groupSlots (s : State) (n : Nat) : List (BitVec 96) :=
  match s.me.line with
  | some (_, d) => (List.range n).map fun i => slotOf d (slotNo s.me.pc + i)
  | none => []

end Sys2Proof.Machine
end

