-- ==== Sys2Proof/Machine/Control.lean ====
section
/-! DEFINITION. Control flow, control-register moves, rolls, the work queue and `LAUNCH` (R131, R134, R150 to R163,
R317, R319, R328, R341, R366, R399, R400). -/

namespace Sys2Proof.Machine

/-! ## Transfers (R150 to R155) -/

/-- A transfer from the active context's program counter. -/
def State.goTo (s : State) (target : Word) : Next := .go target (.transfer s.me.pc)

/-- `BR.cc` (R151). -/
def execBr (p : Pred) (cc : ICond) (a b : XReg) (t : Target) (s : State) : Host.Outcome State Fault Refusal :=
  plain p (do
    let s ← get
    if ICond.holds cc 64 (s.x a).toNat (s.x b).toNat then return s.goTo (targetOf s.me.pc t) else return .seq) s

/-- `JMP` (R152). -/
def execJmp (p : Pred) (t : Target) (s : State) : Host.Outcome State Fault Refusal :=
  plain p (do let s ← get; return s.goTo (targetOf s.me.pc t)) s

/-- `CALL`: x1 receives the sequential successor (R152). -/
def execCall (p : Pred) (t : Target) (s : State) : Host.Outcome State Fault Refusal :=
  plain p (do
    let s ← get
    set (s.setX 1 (pcSucc s.me.pc))
    return s.goTo (targetOf s.me.pc t)) s

/-- `RET` (R153). -/
def execRet (p : Pred) (a : XReg) (s : State) : Host.Outcome State Fault Refusal :=
  plain p (do
    let s ← get
    if !pcOk (s.x a) then fail .badtgt (s.x a)
    return s.goTo (s.x a)) s

/-- The table jump of `JTAB` and `CALLT` (R154). -/
def tableJump (call : Bool) (a b : XReg) (tag : BitVec 8) (n : BitVec 17) : Eff Next := do
  let s ← get
  let i := s.x b
  if n.toNat ≤ i.toNat then fail .jtbound i
  replied
  let e := BitVec.ofNat 64 (← loadElem (s.x a + 8 * i) 8)
  if !pcOk e then fail .badtgt e
  if call then modify fun t => t.setX 1 (pcSucc s.me.pc)
  return .go e (.landing s.me.pc tag)

/-- `JTAB` (R154). -/
def execJtab (p : Pred) (a b : XReg) (tag : BitVec 8) (n : BitVec 17) (s : State) :
    Host.Outcome State Fault Refusal := plain p (tableJump false a b tag n) s

/-- `CALLT` (R154). -/
def execCallt (p : Pred) (a b : XReg) (tag : BitVec 8) (n : BitVec 17) (s : State) :
    Host.Outcome State Fault Refusal := plain p (tableJump true a b tag n) s

/-- `LPAD` has no effect when it is issued (R155). -/
def execLpad (p : Pred) (_tag : BitVec 8) (s : State) : Host.Outcome State Fault Refusal := guarded p (pure .seq) s

/-! ## Control registers (R156, R157) -/

/-- SCYC of a context (R319). -/
def State.scyc (s : State) (c : CtxId) : Word :=
  let k := s.ctx c
  (if k.settle.coll then 0x8000_0000 else 0) +
    (if k.inSettlement then BitVec.ofNat 64 (s.count (s.launchAt c)) else 0)

/-- COREID of a context (R61). -/
def State.coreId (s : State) (c : CtxId) : Word :=
  (0 : BitVec 39) ++ BitVec.ofNat 10 (s.logicalOf (clusterOfCore c.core)) ++ c.ctx ++ c.core

/-- A control register as `MFC` reads it (R399). -/
def State.readReg (s : State) (c : CtxId) (r : CReg) : Word :=
  let k := s.ctx c
  let l := s.launchAt c
  let p := clusterOfCore c.core
  match r with
  | .coreid => s.coreId c
  | .stage => (l.stageMap.getD (s.logicalOf p) 0).setWidth 64
  | .world => if l.secure then 1 else 0
  | .asid => l.asid.setWidth 64
  | .sstep => BitVec.ofNat 64 l.sstep
  | .scyc => s.scyc c
  | .time => s.time
  | .pts => k.pts.setWidth 64
  | .roundm => k.roundm.setWidth 64
  | .fflags => k.fflags.setWidth 64
  | .allow => k.allow.setWidth 64
  | .depthlim => k.depthlim.setWidth 64
  | .lease => k.lease.setWidth 64
  | .status =>
    BitVec.ofBool (s.supervisor c) ++ (0 : BitVec 54) ++ BitVec.ofBool k.trap.intrap ++ (0 : BitVec 1) ++ k.trap.vec
  | .tvec => k.trap.tvec
  | .cause => k.trap.cause
  | .fcause => k.trap.fcause
  | .faddr => k.trap.faddr
  | .epc => k.trap.epc
  | .kvb => k.kvb
  | .kvmap => k.kvmap
  | .kvcfg => k.kvcfg
  | .mjw => (s.cluster p).mjw
  | .lbtol => (s.lbtol.toList.getD (dieOfCluster p) 0).setWidth 64

/-- KVCFG after a write: a WIN out of range keeps its value (R348). -/
def writeKvcfg (old w : Word) : Word :=
  let win := field w 12 8
  let win := if win = 0 ∨ (6 ≤ win ∧ win ≤ 18) then win else field old 12 8
  (w &&& 0x003F_001F) + BitVec.ofNat 64 (win * 2 ^ 8)

/-- MJW after a write: a weight of 0 keeps its field (R212). -/
def writeMjw (old w : Word) : Word :=
  BitVec.ofNat 64 (packElems 4 ((List.range 9).map fun i =>
    if field w (4 * i + 3) (4 * i) = 0 then field old (4 * i + 3) (4 * i) else field w (4 * i + 3) (4 * i)))

/-- A register of the context written with the checks of its own rule (R95, R245, R348, R366, R400). -/
def Context.writeReg (k : Context) (r : CReg) (w : Word) : Context :=
  match r with
  | .roundm => if w.toNat % 8 ≤ 4 then { k with roundm := w.setWidth 3 } else k
  | .fflags => { k with fflags := w.setWidth 5 }
  | .allow =>
    let n := w.toNat % 4096
    if 1 ≤ n ∧ n ≤ 2048 then { k with allow := w.setWidth 12 } else k
  | .depthlim =>
    let n := w.toNat % 128
    if 1 ≤ n ∧ n ≤ 64 then { k with depthlim := w.setWidth 7 } else k
  | .lease => if w.toNat % 256 = 0 then k else { k with lease := w.setWidth 8 }
  | .status => { k with trap := { k.trap with intrap := w.getLsbD 8, vec := w.setWidth 7 &&& 0x5F } }
  | .tvec =>
    if w.toNat % 8 ≤ 4 then { k with trap := { k.trap with tvec := w &&& ~~~(0x38 : Word) } } else k
  | .epc => { k with trap := { k.trap with epc := w, epcWritten := true } }
  | .kvb => { k with kvb := w &&& 0x00FF_8000_0000_0000 }
  | .kvmap => { k with kvmap := w &&& 0x00FF_FFFF_FFFF_FFF8 }
  | .kvcfg => { k with kvcfg := writeKvcfg k.kvcfg w }
  | _ => k

/-- `MFC` (R156); a read of PTS waits for the last reply (R328), as every class X instruction does. A settlement phase
allows it (R320). -/
def execMfc (p : Pred) (d : XReg) (r : CReg) (s : State) : Host.Outcome State Fault Refusal :=
  perform (do replied; under p (doing fun s => s.setX d (s.readReg s.active r))) s

/-- `MTC` (R156, R157): a shared register takes its value with the next cycle. -/
def State.writeCReg (s : State) (r : CReg) (w : Word) : State :=
  let p := clusterOfCore s.active.core
  let shared (mjw : Bool) (u : Nat) : State := { s with
    sharedWrites := s.sharedWrites ++ [{ writer := ctxKey s.active, mjw := mjw, unit := u, value := w }] }
  match r with
  | .mjw => shared true p
  | .lbtol => shared false (dieOfCluster p)
  | _ => s.mapMe fun k => k.writeReg r w

def execMtc (p : Pred) (r : CReg) (a : XReg) (s : State) : Host.Outcome State Fault Refusal :=
  guarded p (doing fun s => s.writeCReg r (s.x a)) s

/-- Writes of shared registers, those that a test picks, take effect in ascending core and context number (R157). -/
def State.applySome (s : State) (f : SharedWrite → Bool) : State :=
  let ws := sortBy (fun a b => decide (a.writer ≤ b.writer)) (s.sharedWrites.filter f)
  let s := { s with sharedWrites := s.sharedWrites.filter fun w => !f w }
  ws.foldl (fun s w =>
    if w.mjw then s.mapCluster w.unit fun k => { k with mjw := writeMjw k.mjw w.value }
    else { s with lbtol := s.lbtol.set! w.unit (w.value.setWidth 3) }) s

/-- The writes of shared registers take effect (R157). -/
def State.applyShared (s : State) : State := s.applySome fun _ => true

/-- The writes of MJW of clusters that are placed, saved or restored take effect before that: no context runs there that
could still read the old value in this cycle (R157). -/
def State.applyIn (s : State) (ps : List Nat) : State := s.applySome fun w => w.mjw && ps.contains w.unit

/-! ## Rolls (R131, R134) -/

/-- The contexts of a core that run a routine of its placed launch. -/
def State.runnersOf (s : State) (core : BitVec 13) : List CtxId :=
  ((List.range 4).map fun j => ({ core := core, ctx := BitVec.ofNat 2 j } : CtxId)).filter fun c =>
    (s.ctx c).run != .free

/-- A context is following. -/
def Context.follows (k : Context) : Bool :=
  match k.roll with
  | .following _ _ _ => true
  | _ => false

/-- Another context of the core is a follower. -/
def State.otherFollower (s : State) (c : CtxId) : Bool :=
  (List.range 4).any fun j =>
    let o : CtxId := { core := c.core, ctx := BitVec.ofNat 2 j }
    o != c && (s.ctx o).follows

/-- `FOLLOW` (R131): a transfer, or the wait that `FOLLOW_JOIN` ends (log 20). -/
def execFollow (p : Pred) (n : BitVec 3) (t : Target) (s : State) : Host.Outcome State Fault Refusal :=
  guarded p (do
    let s ← get
    let c := s.active
    let core : BitVec 13 := BitVec.ofNat 13 (8 * clusterOfCore c.core + n.toNat)
    let target := targetOf s.me.pc t
    match s.me.roll with
    | .waiting .. => waitFor .follow
    | _ => pure ()
    if core = c.core ∨ s.otherFollower c ∨ s.runnersOf core = [] then return s.goTo target
    modify fun s => { (s.mapMe fun k =>
        { k with roll := .waiting core target s.clock (s.runnersOf core) none none }) with
      forwards := s.forwards.filter fun f => f.follower ≠ c }
    waitFor .follow) s

/-- `DETACH` (R134): a follower leaves its roll; no effect in any other context. -/
def execDetach (p : Pred) (s : State) : Host.Outcome State Fault Refusal :=
  guarded p (doing fun s => s.mapMe fun k => if k.follows then k.detach else k) s

/-! ## The work queue (R158 to R161) -/

/-- `REJOIN` (R159). -/
def State.rejoin (s : State) (d a b c : XReg) (key : BitVec 16) : State :=
  let lo := (s.x a).toNat % 2 ^ 32
  let hi := (s.x b).toNat % 2 ^ 32
  let n := Nat.min 65535 (Nat.max 1 (s.x c).toNat)
  if hi ≤ lo then s.setX d (BitVec.ofNat 64 lo)
  else
    let p := clusterOfCore s.active.core
    let k := (hi - lo + n - 1) / n
    let m := Nat.min (64 - (s.cluster p).work.length) (k - 1)
    let new := (List.range m).map fun j =>
      let i := k - m + j
      ({ start := BitVec.ofNat 32 (lo + i * n), count := BitVec.ofNat 16 (Nat.min n (hi - lo - i * n)), key := key,
         time := s.me.pts } : WorkEntry)
    (s.mapCluster p fun u => { u with work := u.work ++ new }).setX d
      (BitVec.ofNat 64 (if m = 0 then hi else lo + (k - m) * n))

def execRejoin (p : Pred) (d a b c : XReg) (key : BitVec 16) (s : State) : Host.Outcome State Fault Refusal :=
  guarded p (doing fun s => s.rejoin d a b c key) s

/-- The list without its first element that satisfies a test. -/
def dropFirst {α : Type} (f : α → Bool) : List α → List α
  | [] => []
  | a :: r => if f a then r else a :: dropFirst f r

/-- `TAKE` (R160); the taker joins the `REJOIN` (R285). -/
def State.take (s : State) (d : XReg) (key : BitVec 16) : State :=
  let p := clusterOfCore s.active.core
  match (s.cluster p).work.find? fun e => e.key = key with
  | none => s.setX d 0
  | some e =>
    let s := s.mapCluster p fun u => { u with work := dropFirst (fun x => x.key = key) u.work }
    (s.mapMe fun k => { k with pts := tsMax k.pts e.time }).setX d (e.key ++ e.count ++ e.start)

def execTake (p : Pred) (d : XReg) (key : BitVec 16) (s : State) : Host.Outcome State Fault Refusal :=
  guarded p (doing fun s => s.take d key) s

/-! ## `LAUNCH` (R162) -/

def execLaunch (p : Pred) (d a : XReg) (q : BitVec 6) (s : State) : Host.Outcome State Fault Refusal :=
  guarded p (do
    let s ← get
    let t := s.threadOf s.active
    let va := s.x a
    if isWindow va then fail .window va
    if va.toNat % 128 ≠ 0 then fail .align va
    let _ ← locate false t .read 1 va va
    if queueSecure q ≠ t.secure then fail .world va
    if (← get).me.dout ≠ 0 then waitFor .join
    let full := 256 ≤ (s.queue q).entries.length
    modify fun s => (((s.mapQueue q fun k =>
        k.append { addr := va, virt := some (t.asid, tsMax s.me.pts s.me.ackTime)
                   by_ := some (s.active, d, s.clock) }).decision t.secure).setX d
      (if full then 1 else 0))
    return .seq) s

end Sys2Proof.Machine
end

