-- ==== Sys2Proof/Machine/Product.lean ====
section
/-! DEFINITION. Matrix products: the order of sums, the masks, batches and sparse blocks (R104, R105, R217, R218,
R220 to R224). -/

namespace Sys2Proof.Machine

/-- A format of eight, six or four bits that the matrix engine multiplies (R218). -/
def narrow (c : BitVec 5) : Bool := scalable c

/-- The group size of a product (R104), 0 for INT8. -/
def groupSize (a : BitVec 5) : Nat :=
  match a.toNat with
  | 0 => 1
  | 1 => 4
  | 2 | 3 => 16
  | 9 => 0
  | _ => 32

/-- The legal mixes of R218 for a tile destination. -/
def mixOk (a b c : BitVec 5) : Bool :=
  if narrow a then narrow b && (c == 1 || c == 2 || c == 3)
  else a == b && match a.toNat with
    | 0 => c == 0
    | 1 => c == 1
    | 2 => c == 1 || c == 2
    | 3 => c == 1 || c == 3
    | 9 => c == 11
    | _ => false

/-- The legal mixes of R218 for a purse destination. -/
def mixPurse (a b : BitVec 5) : Bool := if narrow a then narrow b else a == b && decide (a.toNat ≤ 3)

/-- The groups of R104 from g on, n of them, added to c. -/
def groups (f : FpFmt) (a b : Nat → FV) (depth size : Nat) : Nat → Nat → Nat → Nat
  | 0, _, c => c
  | n + 1, g, c =>
    let terms := (List.range (min (size * g + size) depth - size * g)).map fun k =>
      groupTerm (a (size * g + k)) (b (size * g + k))
    groups f a b depth size n (g + 1) (fpAdd f .rne (f.decode c) (groupSum terms)).1

/-- One element of a floating-point product from c (R104). -/
def dotFloat (f : FpFmt) (size depth : Nat) (a b : Nat → FV) (c : Nat) : Nat :=
  groups f a b depth size ((depth + size - 1) / size) 0 c

/-- The exact integer of a decoded integer element. -/
def FV.int (v : FV) : Int :=
  match v with
  | .fin n m e => scaledInt n m e 0
  | _ => 0

/-- One element of an INT8 product from c (R105). -/
def dotInt (depth : Nat) (a b : Nat → FV) (c : Nat) : Nat :=
  wrapInt 32 ((List.range depth).foldl (fun t k => t + (a k).int * (b k).int) (signedOf 32 c))

/-- One element of a product in format c from the bits c0. -/
def dot (fa fc : BitVec 5) (depth : Nat) (a b : Nat → FV) (c0 : Nat) : Nat :=
  match fmtOf fc with
  | .float f => dotFloat f (groupSize fa) depth a b c0
  | _ => dotInt depth a b c0

/-- A product's operands as functions of their indices: B(k, j) for the dense and the transposed form (R220). -/
structure Operands where
  fmtA : BitVec 5
  m : Nat
  n : Nat
  depth : Nat
  a : Nat → Nat → FV
  b : Nat → Nat → FV

/-- The operands of a dense product of two tiles (R93, R217, R218). -/
def denseOperands (mem : Memory) (p : Nat) (a b : Tile) (tb : Bool) : Operands :=
  { fmtA := a.fmt, m := a.rows.toNat, n := if tb then b.rows.toNat else b.cols.toNat, depth := a.cols.toNat
    a := fun i k => a.value mem p false i k
    b := fun k j => if tb then b.value mem p false j k else b.value mem p true k j }

/-- The parts of a CSR block (R224). -/
def csrPtr (mem : Memory) (p : Nat) (b : Tile) (k : Nat) : Nat := mem.readN (p * 2 ^ 19 + b.off + 2 * k) 2
def csrCol (mem : Memory) (p : Nat) (b : Tile) (i : Nat) : Nat :=
  mem.readN (p * 2 ^ 19 + b.off + 2 * (b.rows.toNat + 1) + 2 * i) 2
def csrVal (mem : Memory) (p : Nat) (b : Tile) (nnz i : Nat) : Nat :=
  streamBits mem (p * 2 ^ 19 + b.off + 2 * (b.rows.toNat + 1) + 2 * nnz) (b.width * i) b.width

/-- The CSR block is sound (R224). -/
def csrOk (mem : Memory) (p : Nat) (b : Tile) (nnz : Nat) : Bool :=
  let ptr := csrPtr mem p b
  decide (ptr 0 = 0) && decide (ptr b.rows.toNat = nnz) &&
    ((List.range b.rows.toNat).all fun k => decide (ptr k ≤ ptr (k + 1))) &&
    ((List.range nnz).all fun i => decide (csrCol mem p b i < b.cols.toNat))

/-- The last stored entry of row k and column j among the n entries from i on. -/
def csrFind (mem : Memory) (p : Nat) (b : Tile) (nnz j : Nat) : Nat → Nat → Option Nat → Option Nat
  | 0, _, r => r
  | n + 1, i, r =>
    csrFind mem p b nnz j n (i + 1) (if csrCol mem p b i = j then some (csrVal mem p b nnz i) else r)

/-- The operands of a sparse product: the dense B that the gather unit builds, scaled column-blocked (R224). -/
def sparseOperands (mem : Memory) (p : Nat) (a b : Tile) (nnz : Nat) : Operands :=
  { fmtA := a.fmt, m := a.rows.toNat, n := b.cols.toNat, depth := b.rows.toNat
    a := fun i k => a.value mem p false i k
    b := fun k j =>
      let lo := csrPtr mem p b k
      let bits := (csrFind mem p b nnz j (csrPtr mem p b (k + 1) - lo) lo none).getD 0
      let v := (fmtOf b.fmt).decode false bits
      if b.scale = 0 then v
      else v.scaled (mem.read (p * 2 ^ 19 + b.scale.toNat * 128 + 4 * j + k / 32)).toNat }

/-- Element (i, j) is kept by a mask (R221). -/
def kept (mask : Option (BitVec 8 × Bool × Fill)) (i j : Nat) : Bool :=
  match mask with
  | none => true
  | some (d, up, _) =>
    let k : Int := (j : Int) - i
    if up then decide (d.toInt ≤ k) else decide (k ≤ d.toInt)

/-- The output granule of an element holds a kept element (R221). -/
def granuleKept (mask : Option (BitVec 8 × Bool × Fill)) (m n i j : Nat) : Bool :=
  let i0 := i / 16 * 16
  let j0 := j / 16 * 16
  (List.range (min 16 (m - i0))).any fun x => (List.range (min 16 (n - j0))).any fun y => kept mask (i0 + x) (j0 + y)

/-- A fill value in a format of C (R221). -/
def fillBits (fc : BitVec 5) (f : Fill) : Nat :=
  match fmtOf fc, f with
  | .float g, .ninf => (g.infBits true).1
  | .float g, .pinf => (g.infBits false).1
  | .int w, .ninf => 2 ^ (w - 1)
  | .int w, .pinf => 2 ^ (w - 1) - 1
  | _, _ => 0

/-- The new bits of element (i, j) of a C tile: none where it is neither read nor written (R220, R221). -/
def productElem (o : Operands) (c : Tile) (mem : Memory) (p : Nat) (acc : Bool)
    (mask : Option (BitVec 8 × Bool × Fill)) (i j : Nat) : Option Nat :=
  if !granuleKept mask o.m o.n i j then none
  else if kept mask i j then
    some (dot o.fmtA c.fmt o.depth (o.a i) (fun k => o.b k j) (if acc then c.bits mem p i j else 0))
  else match mask with
    | some (_, _, f) => some (fillBits c.fmt f)
    | none => none

/-- A C tile's memory after a product, of whose elements some have been written before, by their number i x n + j. -/
def writeProduct (o : Operands) (c : Tile) (mem : Memory) (p : Nat) (acc : Bool)
    (mask : Option (BitVec 8 × Bool × Fill)) (before : List Nat) : Memory :=
  c.writeAll mem p fun i j => if before.contains (i * o.n + j) then none else productElem o c mem p acc mask i j

/-- The granules that element (i, j) of a tile touches. -/
def Tile.elemGranules (c : Tile) (i j : Nat) : List Nat :=
  let lo := c.width * j / 8
  granulesOf (c.off + i * c.stride.toNat + lo) ((c.width * j + c.width - 1) / 8 - lo + 1)

/-- The granules of a C tile that some of a product's elements touch. -/
def Tile.touched (c : Tile) (m n : Nat) (f : Nat → Nat → Bool) : List Nat :=
  c.granules.filter fun g => (List.range m).any fun i => (List.range n).any fun j =>
    f i j && (c.elemGranules i j).contains g

/-- The posted addends of a purse destination: cell number i x PSTR + j and bits (R221, R223). -/
def purseAdds (o : Operands) (fp64 : Bool) (stride : Nat) (mask : Option (BitVec 8 × Bool × Fill)) :
    List (Nat × Nat) :=
  (List.range o.m).flatMap fun i => (List.range o.n).filterMap fun j =>
    if kept mask i j then
      some (i * stride + j, dot o.fmtA (if fp64 then 0 else 1) o.depth (o.a i) (fun k => o.b k j) 0)
    else none

end Sys2Proof.Machine
end

