-- ==== Sys2Proof/Machine/Jobs.lean ====
section
/-! DEFINITION. Job ids and their status, the submission of matrix jobs, and the matrix engine's arbitration and work
(R210 to R228). -/

namespace Sys2Proof.Machine

/-! ## Ids and status (R211, R214) -/

/-- A status: 0 pending, 1 done, 2 faulted; ICAUSE, LINK, the fault address and the completion time. -/
abbrev JobStatus := BitVec 2 × BitVec 8 × Bool × Word × Ts

/-- The status that an id names for the active context: none where it is unknown (R214; log 52). -/
def State.jobStatus (s : State) (id : Word) : Option JobStatus :=
  let core := s.active.core.toNat
  if field id 15 12 = core % 8 then SMap.find (s.core core).jobs (field id 11 0) else none

/-- The status of an id of a core recorded. -/
def State.setStatus (s : State) (core : Nat) (seq : Nat) (st : JobStatus) : State :=
  s.mapCore core fun k => { k with jobs := SMap.put k.jobs seq st }

def Cluster.engine (k : Cluster) (copy : Bool) : Engine := if copy then k.copy else k.matrix
def Cluster.setEngine (k : Cluster) (copy : Bool) (e : Engine) : Cluster :=
  if copy then { k with copy := e } else { k with matrix := e }
def State.mapEngine (s : State) (p : Nat) (copy : Bool) (f : Engine → Engine) : State :=
  s.mapCluster p fun k => k.setEngine copy (f (k.engine copy))

/-- A job appended to a queue of an engine. -/
def Engine.append (e : Engine) (q : Nat) (j : Job) : Engine :=
  { e with queues := SMap.put e.queues q (SMap.at e.queues [] q ++ [j]) }

/-- Room in a queue (R210). -/
def Engine.room (e : Engine) (q : Nat) : Bool := decide ((SMap.at e.queues [] q).length < 16)

/-- A checked job takes its id and its place in the queue of its core (R210, R211, R219 step 6); one that moves nothing
is done at once (R229; log 52). -/
def submit (copy : Bool) (d : XReg) (kind : JobKind) (empty : Bool := false) : Eff Next := do
  let s ← get
  let c := s.active
  let p := clusterOfCore c.core
  let q := c.core.toNat % 8
  let core := s.core c.core.toNat
  let old := (core.seq - 256).toNat
  if !((s.cluster p).engine copy).room q then waitFor .room
  match SMap.find core.jobs old with
  | some st => if st.1 = 0 then waitFor .room
  | none => pure ()
  let id : BitVec 16 := BitVec.ofNat 4 q ++ core.seq
  let job : Job :=
    { id := id, owner := c, queue := s.queueOf p, fork := s.me.pts, lease := s.me.lease, kind := kind, thunk := none,
      time := s.me.pts, units := [], batch := none, failed := none }
  let st : JobStatus := if empty then (1, 0, false, 0, s.me.pts) else (0, 0, false, 0, 0)
  let s := s.mapCore c.core.toNat fun k =>
    { k with seq := k.seq + 1, jobs := SMap.put (SMap.erase k.jobs old) core.seq.toNat st }
  let s := if empty then s else s.mapEngine p copy fun e => e.append q job
  set (s.setX d (id.setWidth 64))
  return .seq

/-- `MJPOLL` (R214): it joins the job when it reports done (R226, R285). -/
def execMjpoll (p : Pred) (d a : XReg) (s : State) : Host.Outcome State Fault Refusal :=
  guarded p (doing fun s =>
    match s.jobStatus (s.x a) with
    | none => s.setX d 3
    | some (st, cause, link, _, time) =>
      let s := if st = 1 then s.mapMe fun k => { k with pts := tsMax k.pts time } else s
      s.setX d ((0 : BitVec 47) ++ BitVec.ofBool link ++ cause ++ (0 : BitVec 6) ++ st)) s

/-- `MJWAIT` (R214). -/
def execMjwait (p : Pred) (a : XReg) (s : State) : Host.Outcome State Fault Refusal :=
  guarded p (do
    let s ← get
    match s.jobStatus (s.x a) with
    | none => return .seq
    | some (st, _, _, addr, time) =>
      if st = 0 then waitFor .join
      if st = 2 then fail .engflt addr
      doing fun s => s.mapMe fun k => { k with pts := tsMax k.pts time }) s

/-! ## Submission of matrix jobs (R217 to R224) -/

/-- The pages of a purse region checked as purse writes, in the order of its cells (R223): the translations taken. A cell in a
window of the launch's own placement is on no PURSE page, which is ENGFLT, and one in another window raises WINDOW, the
MODEL's choice between R223 and step 2 of R265 (log 69). -/
def checkRegion (t : Thread) : List (Word × Nat) → Eff (List Tlb)
  | [] => pure []
  | (a, n) :: r => do
    let (p, e) ← locateEntry false t .write 4 a a
    match p with
    | .purse pa _ => if (← get).assayBytes pa n then fail .assayw a 4
    | _ => fail .engflt a 4
    let es ← checkRegion t r
    return e.toList ++ es

/-- The purse destination of m rows of n elements checked (R223). -/
def checkPurse (t : Thread) (base : Word) (m n stride : Nat) : Eff (List Tlb) := do
  if !aligned base 16 then fail .align base 4
  let es ← checkRegion t ((List.range m).flatMap fun i => partsOf (base + BitVec.ofNat 64 (16 * i * stride)) (16 * n))
  return distinct es

/-- The format mix, the shape and limits, and the purse destination of a product (R217 to R219 steps 3 to 5): k rows
and n columns of B. -/
def checkProduct (t : Thread) (a b : Tile) (k n : Nat) (tb : Bool) (dst : MmaDst) : Eff JobDst := do
  let s ← get
  let m := a.rows.toNat
  let limits := decide (a.cols.toNat = k) && decide (m ≤ 64) && decide (n ≤ 64) &&
    (decide (k ≤ 64) || (decide (k ≤ 128) && a.fmt == 8 && tb))
  match dst with
  | .tile r =>
    let c := s.t r
    if !mixOk a.fmt b.fmt c.fmt then fail .fmtmix
    if !(limits && decide (c.rows.toNat = m) && decide (c.cols.toNat = n)) then fail .engflt
    return .tile c
  | .purse r fp64 stride =>
    if !mixPurse a.fmt b.fmt then fail .fmtmix
    if !limits then fail .engflt
    let pages ← checkPurse t (s.x r) m n stride.toNat
    return .purse (s.x r) fp64 stride pages

/-- The C tile's descriptor, where there is one (R219 step 2). -/
def checkDst (p : Nat) (dst : MmaDst) : Eff Unit := do
  match dst with
  | .tile r => checkTile p ((← get).t r)
  | .purse _ _ _ => pure ()

/-- `MMA` and `MMAT` (R219 to R221). -/
def submitDense (d : XReg) (a b : TReg) (dst : MmaDst) (acc tb : Bool) (mask : Option (BitVec 8 × Bool × Fill)) :
    Eff Next := do
  let s ← get
  let t := s.threadOf s.active
  let (ta, tB) := (s.t a, s.t b)
  checkTile t.cluster ta
  checkTile t.cluster tB
  checkDst t.cluster dst
  let (k, n) := if tb then (tB.cols.toNat, tB.rows.toNat) else (tB.rows.toNat, tB.cols.toNat)
  let jd ← checkProduct t ta tB k n tb dst
  submit false d (.mma ta tB jd acc tb mask)

def execMma (p : Pred) (d : XReg) (a b : TReg) (dst : MmaDst) (acc tb : Bool) (s : State) :
    Host.Outcome State Fault Refusal := guarded p (submitDense d a b dst acc tb none) s

def execMmat (p : Pred) (d : XReg) (a b : TReg) (dst : MmaDst) (acc tb : Bool) (diag : BitVec 8) (up : Bool)
    (fill : Fill) (s : State) : Host.Outcome State Fault Refusal :=
  guarded p (submitDense d a b dst acc tb (some (diag, up, fill))) s

/-- A template of `MMAB` (R222; log 13, 22). Step 2 of R202 looks at the template's own TADDR, although no entry uses it: the
MODEL's choice between two sentences of R222 (log 69). -/
def checkTemplate (t : Tile) : Eff Unit := do
  if !t.formatOk || t.scale != 0 then fail .fmtmix
  if !t.shapeOk then fail .align t.addr
  if 16 < t.rows.toNat ∨ 16 < t.cols.toNat then fail .engflt

/-- `MMAB` (R222; log 22). -/
def execMmab (p : Pred) (d : XReg) (a b c : TReg) (acc tb : Bool) (list : BitVec 15) (s : State) :
    Host.Outcome State Fault Refusal :=
  guarded p (do
    let s ← get
    let (ta, tB, tc) := (s.t a, s.t b, s.t c)
    checkTemplate ta
    checkTemplate tB
    checkTemplate tc
    let at_ := 16 * list.toNat
    if 2 ^ 19 < at_ + 256 then fail .window
    let (k, n) := if tb then (tB.cols.toNat, tB.rows.toNat) else (tB.rows.toNat, tB.cols.toNat)
    let _ ← checkProduct (s.threadOf s.active) ta tB k n tb (.tile c)
    submit false d (.mmab ta tB tc acc tb at_)) s

/-- The CSR block of `MMAS` (R224): steps 1 and 2 of R202, and the block and its scale bytes inside the window (log
13, 22). -/
def checkCsr (p : Nat) (b : Tile) (nnz : Nat) : Eff Unit := do
  if !b.formatOk then fail .fmtmix
  if !b.shapeOk then fail .align b.addr
  let own := decide (b.addr.toNat / 2 ^ 19 = (clusterWindow p).toNat / 2 ^ 19)
  if !own || decide (2 ^ 19 < b.off + csrBytes b nnz) || !b.scaleOk b.rows.toNat b.cols.toNat then
    fail .window b.addr

/-- `MMAS` (R224). -/
def execMmas (p : Pred) (d : XReg) (a b : TReg) (dst : MmaDst) (acc : Bool) (nnz : BitVec 13) (s : State) :
    Host.Outcome State Fault Refusal :=
  guarded p (do
    let s ← get
    let t := s.threadOf s.active
    let (ta, tB) := (s.t a, s.t b)
    checkTile t.cluster ta
    checkCsr t.cluster tB nnz.toNat
    checkDst t.cluster dst
    let jd ← checkProduct t ta tB tB.rows.toNat tB.cols.toNat false dst
    submit false d (.mmas ta tB jd acc nnz.toNat)) s

/-! ## Arbitration (R213) -/

/-- W_q of a cluster (R212). -/
def Cluster.weight (k : Cluster) (copy : Bool) (q : Nat) : Nat :=
  if copy then 1 else field k.mjw (4 * q + 3) (4 * q)

/-- The head job of a queue is ready (R213): a copy job when its queue has none in progress. A teller's product fills
its result (R253). -/
def State.headReady (s : State) (p : Nat) (copy : Bool) (q : Nat) : Bool :=
  let e := (s.cluster p).engine copy
  match SMap.at e.queues [] q with
  | [] => false
  | j :: _ =>
    if copy then (SMap.find e.running q).isNone
    else e.running.isEmpty && s.valid p (s.jobReads p j) &&
      (if j.thunk.isSome then s.fillable p (s.jobUpdates p j) else s.valid p (s.jobUpdates p j))

/-- The queue whose head job starts next, and how many it will have started in its turn (log 23). -/
def State.nextQueue (s : State) (p : Nat) (copy : Bool) : Option (Nat × Nat) :=
  let e := (s.cluster p).engine copy
  let n := if copy then 8 else 9
  if s.headReady p copy e.pointer && decide (e.started < (s.cluster p).weight copy e.pointer) then
    some (e.pointer, e.started + 1)
  else
    ((List.range n).map fun i => (e.pointer + 1 + i) % n).find? (s.headReady p copy) |>.map fun q => (q, 1)

/-- The head job of a queue leaves its entry and is in progress. -/
def Engine.start (e : Engine) (q started : Nat) (j : Job) : Engine :=
  { queues := SMap.put e.queues q ((SMap.at e.queues [] q).drop 1), pointer := q, started := started,
    running := SMap.put e.running q j }

/-! ## The matrix engine's work (R220 to R227) -/

/-- The thread of a job, with the pts that it has reached (R226, R284). -/
def State.jobThread (s : State) (p : Nat) (j : Job) : Thread :=
  { ctx := j.owner, unit := some (.copy p 16 0), cluster := p, secure := (s.launch j.queue).secure,
    asid := (s.launch j.queue).asid, queue := j.queue, lease := j.lease, pts := j.time }

/-- The elements of a product's C tile that have not been written before, as loads of what it accumulates onto and as
stores; what a mask leaves out is neither (R220, R221, R284). -/
def performProduct (secure : Bool) (p : Nat) (o : Operands) (c : Tile) (acc : Bool)
    (mask : Option (BitVec 8 × Bool × Fill)) (before : List Nat) (pts : Ts) : Eff Ts := do
  let left (i j : Nat) : Bool := granuleKept mask o.m o.n i j && !before.contains (i * o.n + j)
  let onto := if acc then c.touched o.m o.n fun i j => left i j && kept mask i j else []
  meetGranules secure 5 p onto
  let (s, pts) := (← get).stampLoads p onto pts
  let s := { s with clusterMem := writeProduct o c s.clusterMem p acc mask before }
  let (s, pts) := s.stampStores p (c.touched o.m o.n left) pts
  set s
  return pts

/-- Steps 2 and 3 of R202 for a tile of a batch entry (R222). -/
def checkEntry (p : Nat) (t : Tile) : Eff Unit := do
  if !t.shapeOk then fail .align t.addr
  if !t.windowOk p then fail .window t.addr

/-- The numbers, from 256 x entry on, of the elements of a batch entry's product. -/
def entryUnits (e : Nat) (units : List Nat) : List Nat :=
  (units.filter fun n => n / 256 = e).map (· % 256)

/-- The granules of operands loaded: the soft errors they hold are met, and they are loads of the job's thread (R227, R276,
R284). -/
def loadGranules (secure : Bool) (p : Nat) (gs : List Nat) (pts : Ts) : Eff Ts := do
  meetGranules secure 5 p gs
  let (s, pts) := (← get).stampLoads p gs pts
  set s
  return pts

/-- The time that the job in progress of a queue has reached (R226, R284). -/
def State.jobReached (s : State) (p : Nat) (copy : Bool) (q : Nat) (pts : Ts) : State :=
  s.mapEngine p copy fun e => { e with
    running := SMap.update e.running fun k j => if k = q then { j with time := tsMax j.time pts } else j }

/-- The entries of a batch from number e on performed in ascending order, each with the loads of its operands, up to one that
faults; elements written before are in `units` (R222; log 22). -/
def performBatch (secure : Bool) (p q : Nat) (a b c : Tile) (acc tb : Bool) (units : List Nat) :
    Nat → List (Nat × Nat × Nat × Bool) → Ts → Eff Ts
  | _, [], pts => pure pts
  | e, (ao, bo, co, ok) :: r, pts => do
    if !ok then fail .engflt
    let (a', b', c') := (a.at_ p ao, b.at_ p bo, c.at_ p co)
    checkEntry p a'
    checkEntry p b'
    checkEntry p c'
    let pts ← loadGranules secure p (productLoads a' b' tb) pts
    let pts ← performProduct secure p (denseOperands (← get).clusterMem p a' b' tb) c' acc none (entryUnits e units) pts
    modify fun s => s.jobReached p false q pts
    performBatch secure p q a b c acc tb units (e + 1) r pts

/-- The operands of a job's product, or ENGFLT for an unsound CSR block (R224). -/
def jobOperands (p : Nat) (j : Job) : Eff (Option Operands) := do
  let m := (← get).clusterMem
  match j.kind with
  | .mma a b _ _ tb _ => return some (denseOperands m p a b tb)
  | .mmas a b _ _ nnz =>
    if !csrOk m p b nnz then fail .engflt
    return some (sparseOperands m p a b nnz)
  | _ => return none

/-- The job's addends on their way to a purse region (R223). -/
def State.postAdds (s : State) (p q : Nat) (j : Job) (base : Word) (fp64 : Bool) (pages : List Tlb)
    (adds : List (Nat × Nat)) (pts : Ts) : State :=
  let t := s.jobThread p j
  { s with posted := s.posted ++ adds.filterMap fun (cell, bits) =>
      let va := base + BitVec.ofNat 64 (16 * cell)
      (pages.find? fun e => e.covers t.secure t.asid va).map fun e =>
        { poster := .job p q, queue := j.queue, pa := BitVec.ofNat 52 (e.pa va), pexp := e.pexp,
          op := .add (if fp64 then .d else .w) (BitVec.ofNat 64 bits), pts := pts } }

/-- What a matrix job with a purse destination does: it reads its operands and posts its addends (R223). -/
def postProduct (p q : Nat) (j : Job) : Eff Ts := do
  let s ← get
  meetError (s.jobThread p j).secure 5 5 (2 * p) p
  let pts ← loadGranules (s.jobThread p j).secure p (s.jobLoads p j) j.fork
  match ← jobOperands p j, j.kind with
  | some o, .mma _ _ (.purse base fp64 stride pages) _ _ mask =>
    set (s.postAdds p q j base fp64 pages (purseAdds o fp64 stride.toNat mask) pts)
  | some o, .mmas _ _ (.purse base fp64 stride pages) _ _ =>
    set (s.postAdds p q j base fp64 pages (purseAdds o fp64 stride.toNat none) pts)
  | _, _ => pure ()
  return pts

/-- A job with a purse destination. -/
def JobKind.posts : JobKind → Bool
  | .mma _ _ (.purse ..) _ _ _ | .mmas _ _ (.purse ..) _ _ => true
  | _ => false

/-- Addends of a job that are not yet applied and acknowledged (R226). -/
def State.jobPosted (s : State) (p q : Nat) : Bool :=
  (s.posted.any fun o => o.poster = .job p q) || s.acks.any fun a => a.poster = .job p q

/-- The operands of a matrix job read, before its product: those of a batch are read entry by entry (R222, R227, R276,
R284). -/
def readOperands (p : Nat) (j : Job) : Eff Ts := do
  let s ← get
  meetError (s.jobThread p j).secure 5 5 (2 * p) p
  loadGranules (s.jobThread p j).secure p (s.jobLoads p j) j.time

/-- The work of a matrix job up to the completion of its last write: the time of that write, or its fault. Elements that
have been written singly are not written again (R298; log 19). -/
def matrixWork (p q : Nat) (j : Job) : Eff Ts := do
  if j.kind.posts then
    if (← get).jobPosted p q then waitFor .join
    return j.time
  let pts ← readOperands p j
  let s ← get
  let secure := (s.jobThread p j).secure
  match ← jobOperands p j, j.kind with
  | some o, .mma _ _ (.tile c) acc _ mask => performProduct secure p o c acc mask j.units pts
  | some o, .mmas _ _ (.tile c) acc _ => performProduct secure p o c acc none j.units pts
  | _, .mmab a b c acc tb list => performBatch secure p q a b c acc tb j.units 0 (s.jobEntries p j list) pts
  | _, _ => return pts

/-- One element of a product written by itself, with its number among the job's (R298; log 19). -/
def performElement (secure : Bool) (p : Nat) (o : Operands) (c : Tile) (acc : Bool)
    (mask : Option (BitVec 8 × Bool × Fill)) (n : Nat) (pts : Ts) : Eff Ts :=
  performProduct secure p o c acc mask ((List.range (o.m * o.n)).filter (· ≠ n)) pts

/-- Element n of the product of a job in progress, written by itself: a batch's with 256 x entry added, once every earlier
entry is whole. -/
def elementWork (p : Nat) (j : Job) (n : Nat) (pts : Ts) : Eff Ts := do
  let s ← get
  let secure := (s.jobThread p j).secure
  match ← jobOperands p j, j.kind with
  | some o, .mma _ _ (.tile c) acc _ mask => performElement secure p o c acc mask n pts
  | some o, .mmas _ _ (.tile c) acc _ => performElement secure p o c acc none n pts
  | _, .mmab a b c acc tb list =>
    let e := n / 256
    let whole (k : Nat) : Bool := (List.range (a.rows.toNat * (if tb then b.rows.toNat else b.cols.toNat))).all fun x =>
      j.units.contains (256 * k + x)
    match (s.jobEntries p j list)[e]? with
    | some (ao, bo, co, true) =>
      let (a', b', c') := (a.at_ p ao, b.at_ p bo, c.at_ p co)
      checkEntry p a'
      checkEntry p b'
      checkEntry p c'
      if !((List.range e).all whole) then waitFor .join
      let pts ← loadGranules secure p (productLoads a' b' tb) pts
      performElement secure p (denseOperands s.clusterMem p a' b' tb) c' acc none (n % 256) pts
    | _ => waitFor .join
  | _, _ => waitFor .join

/-- A matrix engine writes one element of the job in progress of a queue before the others, where that job has a tile for
its destination (R298; log 19). -/
def matrixUnit (p q n : Nat) : Eff Unit := do
  match SMap.find ((← get).cluster p).matrix.running q with
  | none => pure ()
  | some j =>
    if j.failed.isNone && !j.kind.posts && !j.units.contains n then
      let pts ← readOperands p j
      let pts ← elementWork p j n pts
      modify fun s => s.mapEngine p false fun e => { e with
        running := SMap.update e.running fun k j => if k = q then { j with units := n :: j.units, time := pts } else j }

/-- A matrix job starts: it joins the tags it read, the granules it updates take V = 0, an `MMAB` loads its list, and a
job with a purse destination posts its addends, or meets its fault (R203, R213, R222, R223). -/
def startMatrix (p q started : Nat) (j : Job) : Eff Unit := do
  let s ← get
  let fork := s.tagTime p (s.jobReads p j ++ s.jobUpdates p j) j.fork
  let batch := match j.kind with
    | .mmab _ _ _ _ _ list => some (batchList s.clusterMem (p * 2 ^ 19 + list))
    | _ => none
  let j := { j with fork := fork, time := fork, batch := batch }
  let s := s.setTags p (s.jobUpdates p j) fun g => { g with v := false, c := g.c && j.thunk.isNone }
  let put (s : State) (j : Job) : State := s.mapEngine p false fun e => e.start q started j
  let failing (t : Trap) : Job := { j with failed := some (t.cause.code, false, t.faddr) }
  match j.kind with
  | .mmab _ _ _ _ _ list =>
    match (loadGranules (s.jobThread p j).secure p (granulesOf list 256) fork).run s with
    | .ok pts s' => set (put s' { j with time := pts })
    | .error (.trap t) s' => set (put s' (failing t))
    | .error e _ => throw e
  | _ =>
  if j.kind.posts then
    match (postProduct p q j).run s with
    | .ok pts s' => set (put s' { j with time := pts })
    | .error (.trap t) _ => set (put s (failing t))
    | .error e _ => throw e
  else set (put s j)

/-! ## The end of a job (R226, R227) -/

/-- A job leaves its engine with a status: its id is done or faulted, a teller's job ends its frame, and the granules
that a matrix job updates are valid again. -/
def State.endJob (s : State) (p : Nat) (copy : Bool) (q : Nat) (j : Job) (st : JobStatus) (fault : Option Trap) :
    State :=
  let s := (s.mapEngine p copy fun e => { e with running := SMap.erase e.running q }).forkDone j.queue st.2.2.2.2
  let s := if copy then s else s.setTags p (s.jobUpdates p j) fun g => { g with v := true, time := st.2.2.2.2 }
  match j.thunk with
  | some (.thunk i) => s.endFrame (s.handle p i) st.2.2.2.2 fault
  | some (.strict c) => s.endWork c st.2.2.2.2 fault
  | none => s.setStatus (8 * p + q) (j.id.toNat % 4096) st

/-- The job in progress of a queue. -/
def State.runningJob (s : State) (p : Nat) (copy : Bool) (q : Nat) : Option Job :=
  SMap.find ((s.cluster p).engine copy).running q

/-- A job is done when its work has been performed whole (R226): `work` gives the time of its last write. -/
def jobDone (work : Nat → Nat → Job → Eff Ts) (p : Nat) (copy : Bool) (q : Nat) : Eff Unit := do
  match (← get).runningJob p copy q with
  | none => pure ()
  | some j =>
    if j.failed.isNone then
      let t ← work p q j
      modify fun s => (s.assign t).endJob p copy q j (1, 0, false, 0, t) none

/-- A fault inside a running job (R227): the job is faulted with the cause, and what its work did before it stands, with the
time of its last write (R226). -/
def jobFault (work : Nat → Nat → Job → Eff Ts) (p : Nat) (copy : Bool) (q : Nat) : Eff Unit := do
  let s ← get
  match s.runningJob p copy q with
  | none => pure ()
  | some j =>
    match j.failed with
    | some (code, link, addr) =>
      let s := if code = 0xF0 then s.emit (.msix 2) else s
      set (s.endJob p copy q j (2, code, link, addr, j.time) (some { cause := .engflt, faddr := addr }))
    | none =>
      match (work p q j).run s with
      | .ok _ _ => pure ()
      | .error (.trap t) s' =>
        let s' := if t.cause = .mce then s'.emit (.msix 2) else s'
        let time := ((s'.runningJob p copy q).getD j).time
        set (s'.endJob p copy q j (2, t.cause.code, false, t.faddr, time) (some t))
      | .error e s' =>
        set s'
        throw e

end Sys2Proof.Machine
end

