-- ==== Sys2Proof/Machine/Copy.lean ====
section
/-! DEFINITION. The copy unit: submission and the 128-byte units of its jobs, and the events of both engines (R213,
R226 to R233, R338). -/

namespace Sys2Proof.Machine

/-! ## Submission (R229, R232, R233, R338) -/

/-- `CPY`, `CPY.to` and `CPY.from` (R229, R338). -/
def execCpy (p : Pred) (d a b c : XReg) (peer : Option (Bool × BitVec 22)) (s : State) :
    Host.Outcome State Fault Refusal :=
  guarded p (do
    let s ← get
    let len := (s.x c).toNat % 2 ^ 32
    match peer with
    | none => submit true d (.copy (s.x a) (s.x b) len) (len = 0)
    | some (source, node) =>
      if (s.threadOf s.active).secure then fail .world
      submit true d (.peerCopy (s.x a) (s.x b) len (!source) node) (len = 0)) s

/-- `CPY2` (R229). -/
def execCpy2 (p : Pred) (d a b c : XReg) (rows : BitVec 13) (rb : BitVec 16) (s : State) :
    Host.Outcome State Fault Refusal :=
  guarded p (do
    let s ← get
    submit true d (.copy2 (s.x a) (s.x b) (BitVec.ofNat 32 ((s.x c).toNat / 2 ^ 32)) ((s.x c).setWidth 32) rows.toNat
      rb.toNat)) s

/-- `CPYG` (R229). -/
def execCpyg (p : Pred) (d a b c : XReg) (n : BitVec 13) (rb : BitVec 16) (stride : BitVec 27) (s : State) :
    Host.Outcome State Fault Refusal :=
  guarded p (do
    let s ← get
    submit true d (.gather (s.x a) (s.x b) (s.x c) n.toNat rb.toNat stride.toNat)) s

/-- `CPYC` (R232). -/
def execCpyc (p : Pred) (d a b c : XReg) (sfmt dfmt : BitVec 5) (rm : Rm) (s : State) :
    Host.Outcome State Fault Refusal :=
  guarded p (do
    let s ← get
    if !(convertible sfmt && convertible dfmt) then fail .fmtmix
    let n := (s.x c).toNat % 2 ^ 32
    submit true d (.convert (s.x a) (s.x b) n sfmt dfmt rm) (n = 0)) s

/-- `CPYA` (R233; log 24). -/
def execCpya (p : Pred) (d a b c : XReg) (s : State) : Host.Outcome State Fault Refusal :=
  guarded p (do
    let s ← get
    let dst := s.x a
    let len := (s.x c).toNat
    if dst.toNat % 128 ≠ 0 ∨ len % 128 ≠ 0 then fail .align
    let t := s.threadOf s.active
    let ok := decide (dst.toNat / 2 ^ 52 = 0) &&
      s.assay.toList.any fun r => r.on && r.sec == t.secure && r.stored (inside dst.toNat len)
    if !ok then fail .perm dst
    submit true d (.assay dst (s.x b) len) (len = 0)) s

/-! ## Units (R230) -/

/-- A destination unit: its address and bytes, the row it belongs to and its first byte there. -/
structure CopyPart where
  dst : Word
  n : Nat
  row : Nat
  off : Nat
  deriving DecidableEq, Repr

/-- A row cut into destination units. -/
def cutRow (dst : Word) (n row : Nat) : List CopyPart :=
  ((partsOf dst n).foldl (fun (l, off) e => ({ dst := e.1, n := e.2, row := row, off := off } :: l, off + e.2))
    (([] : List CopyPart), 0)).1.reverse

/-- The destination units of a job, rows ascending. -/
def JobKind.parts : JobKind → List CopyPart
  | .copy dst _ len | .peerCopy dst _ len _ _ | .assay dst _ len => cutRow dst len 0
  | .copy2 dst _ ds _ rows rb => (List.range rows).flatMap fun r =>
      cutRow (dst + BitVec.ofNat 64 r * ds.signExtend 64) rb r
  | .gather dst _ _ n rb _ => (List.range n).flatMap fun r => cutRow (dst + BitVec.ofNat 64 (r * rb)) rb r
  | .convert dst _ n _ df _ => cutRow dst ((n * (fmtOf df).width + 7) / 8) 0
  | _ => []

/-- A unit is of the granule or line that an address lies in. -/
def CopyPart.touches (u : CopyPart) (dst : Word) : Bool := decide (u.dst.toNat / 128 = dst.toNat / 128)

/-- The units of a job that are performed with unit n: those of its line, where the job writes the line entirely, though it be
in pieces of several rows, and otherwise unit n alone (R230). -/
def together (all : List CopyPart) (n : Nat) : List (Nat × CopyPart) :=
  match all[n]? with
  | none => []
  | some u =>
    let mates := (all.zipIdx.filter fun e => e.1.touches u.dst).map fun e => (e.2, e.1)
    let written (b : Nat) : Bool := mates.any fun e => inside b 1 (e.2.dst.toNat % 128) e.2.n
    if (List.range 128).all written then mates else [(n, u)]

/-- Where the copy unit's own accesses lie (R230). -/
def reach (t : Thread) (need : Need) (va : Word) : Eff Place := locate true t need 5 va va

/-- The bytes of a source range, ACC 5 (R230). -/
def readBytes (t : Thread) (va : Word) (n : Nat) (pts : Ts) : Eff (Nat × Ts) :=
  readRange (reach t .read) t 5 (partsOf va n) pts

/-- The bytes that a unit of `CPYC` writes (R232): converted elements, cut at the unit. -/
def convertPart (t : Thread) (src dst : Word) (count : Nat) (sf df : BitVec 5) (rm : Rm) (off n : Nat) (pts : Ts) :
    Eff (Nat × Ts) := do
  let ws := (fmtOf sf).width
  let wd := (fmtOf df).width
  let e0 := 8 * off / wd
  let e1 := min count ((8 * (off + n) + wd - 1) / wd)
  let first := e0 * ws / 8
  let (v, pts) ← readBytes t (src + BitVec.ofNat 64 first) ((e1 * ws + 7) / 8 - first) pts
  let out := packElems wd ((List.range (e1 - e0)).map fun i =>
    ((fmtOf df).encode false (resolveMode rm 0)
      ((fmtOf sf).decode false (v / 2 ^ ((e0 + i) * ws - 8 * first) % 2 ^ ws))).1)
  let bits := out / 2 ^ (8 * off - e0 * wd) % 2 ^ (8 * n)
  let last := count * wd - 8 * off
  if last < 8 * n then
    let b ← currentByte t 5 (← reach t .write (dst + BitVec.ofNat 64 (n - 1))) pts
    return (bits + b / 2 ^ (last % 8) * 2 ^ last, pts)
  else return (bits, pts)

/-- The bytes of a unit of a job on this part, read as loads (R229, R230; log 24). -/
def partBytes (t : Thread) (kind : JobKind) (u : CopyPart) (pts : Ts) : Eff (Nat × Ts) :=
  let off := BitVec.ofNat 64 u.off
  let row := BitVec.ofNat 64 u.row
  match kind with
  | .copy _ src _ | .peerCopy _ src _ _ _ | .assay _ src _ => readBytes t (src + off) u.n pts
  | .copy2 _ src _ ss _ _ => readBytes t (src + row * ss.signExtend 64 + off) u.n pts
  | .gather _ src index _ _ stride => do
    let i := index + 4 * row
    if !aligned i 4 then fail .align i 5
    let (k, pts) ← readBytes t i 4 pts
    readBytes t (src + BitVec.ofNat 64 (k * stride) + off) u.n pts
  | .convert dst src n sf df rm => convertPart t src (dst + off) n sf df rm u.off u.n pts
  | _ => return (0, pts)

/-- The bytes of units that are performed together, read one after another, from the address of the first of them on (R230). -/
def partsBytes (t : Thread) (kind : JobKind) (base : Word) : List (Nat × CopyPart) → Nat → Ts → Eff (Nat × Ts)
  | [], v, pts => pure (v, pts)
  | (_, u) :: r, v, pts => do
    let (b, pts) ← partBytes t kind u pts
    partsBytes t kind base r (setBits v (8 * (u.dst - base).toNat) (8 * u.n) b) pts

/-- Units written together, n bytes from an address on: into cluster-shared memory as a fill of their granule, once for all
the job's units that touch it (R103, R203, R230; log 24). -/
def writePart (t : Thread) (all : List CopyPart) (finished : List Nat) (now : List Nat) (u : CopyPart) (v : Nat) (pts : Ts) :
    Eff Ts := do
  let place ← reach t .write u.dst
  match place with
  | .purse _ _ => fail .pstore u.dst 5
  | .mem pa => if (← get).assayBytes pa u.n then fail .assayw u.dst 5
  | _ => pure ()
  match place with
  | .win 1 off =>
    let p := off / 2 ^ 19
    let g := off % 2 ^ 19 / 128
    let mine := (List.range all.length).filter fun i => (all.getD i u).touches u.dst
    if !(mine.any finished.contains) then
      if !(← get).fillable p [g] then waitFor .tags
    readyRange (reach t .write) t 5 true pts (partsOf u.dst u.n)
    if !(mine.any finished.contains) then
      modify fun s => s.setTags p [g] fun x => { x with v := false, c := false }
    let pts ← writeRange (reach t .write) t 5 (partsOf u.dst u.n) v pts
    if mine.all fun i => now.contains i || finished.contains i then
      modify fun s => s.setTags p [g] fun x => { x with v := true, time := pts }
    return pts
  | _ =>
    readyRange (reach t .write) t 5 true pts (partsOf u.dst u.n)
    writeRange (reach t .write) t 5 (partsOf u.dst u.n) v pts

/-- Every copy of a view line decoded from bytes that `CPYA` wrote is dropped (R233); an L2 copy leaves its time (R278). -/
def State.dropViews (s : State) (lo n : Nat) : State :=
  let stale (line : Nat) : Bool := match s.viewOf line with
    | some r => (r.sources line).any fun e => meets e.1 e.2 lo n
    | none => false
  let s := s.l2.foldl (fun s x =>
    if stale x.line then
      s.mapCluster (s.homeOf x.line).1 fun k => { k with mts := tsMax k.mts x.stamp.rts }
    else s) s
  { s with
    l2 := s.l2.filter fun x => !stale x.line
    clusters := SMap.update s.clusters fun _ k => { k with l1 := k.l1.filter fun e => !stale e.1 } }

/-! ## Units sent to a peer (R337, R338) -/

/-- The live links, ascending. -/
def State.liveLinks (s : State) : List Nat := (List.range 32).filter fun i => s.linkup.getLsbD i

/-- The link that a unit takes: none where no link is live (R338; log 14). -/
def State.linkFor (s : State) (node : BitVec 22) (addr : Nat) : Option Nat :=
  let ls := s.liveLinks
  if ls = [] then none else ls[Config.linkHash node.toNat addr % ls.length]?

/-- A flit sent on a link: its header names this node and takes the link's next sequence number (R337; log 25). -/
def State.sendFlit (s : State) (link : Nat) (dest : BitVec 22) (kind : FlitKind) (target : Word) (len : Nat) (data : Vec) :
    State :=
  let n := SMap.at s.linkSeq 0 link
  let f : FabricFlit := { dest := dest, source := s.nodeid, kind := kind, seq := n, credits := Config.flitCredits link n.toNat,
                          target := target, len := len, data := data, crc := Config.flitCrc (data.toNat * 2 ^ 64 + target.toNat) }
  { s.emit (.flit link f) with linkSeq := SMap.put s.linkSeq link (n + 1) }

/-- A trace record of a peer copy: TYPE 3 at its first flit and TYPE 4 at completion. It takes the turn of its core among the
records of the cycle (R343; log 6). -/
def State.traceStep (s : State) (j : Job) (node : BitVec 22) (type : BitVec 4) : State :=
  let l := s.launch j.queue
  { s with front := Nat.max s.front (4 * j.owner.core.toNat) }.trace l.secure (dieOfCore j.owner.core) type j.owner (BitVec.ofNat 8 l.sstep) j.id (node.setWidth 64) l.launchid 0

/-- A unit of a peer copy sent to its node (R338; log 25). -/
def sendPart (t : Thread) (p q : Nat) (j : Job) (src : Word) (toPeer : Bool) (node : BitVec 22) (u : CopyPart) :
    Eff Ts := do
  let far := if toPeer then u.dst else src + BitVec.ofNat 64 u.off
  match (← get).linkFor node far.toNat with
  | none => fail .engflt u.dst
  | some link =>
    let (v, pts) ← if toPeer then partBytes t j.kind u j.time else pure (0, j.time)
    modify fun s =>
      let s := if j.units = [] then s.traceStep j node 3 else s
      let f : Flit := { node := node, link := link, job := some (p, q, j.id), sender := j.owner, peer := far.toNat,
                        local_ := u.dst, len := u.n }
      { s.sendFlit link node (if toPeer then .write else .read) far u.n (BitVec.ofNat 1024 v) with flits := s.flits ++ [f] }
    return pts

/-! ## The work of the copy unit -/

/-- The job in progress of a copy queue changed. -/
def State.mapCopy (s : State) (p q : Nat) (f : Job → Job) : State :=
  s.mapEngine p true fun e => { e with running := SMap.update e.running fun k j => if k = q then f j else j }

/-- A unit of the job in progress of a queue performed, or sent, with the pts that the job's thread has reached (R80, R213,
R230, R284). A wait comes before its first write, and what has been read before it is read again. -/
def performPart (p q n : Nat) : Eff Unit := do
  let s ← get
  match s.runningJob p true q with
  | none => pure ()
  | some j =>
    let all := j.kind.parts
    match all[n]? with
    | none => pure ()
    | some u =>
      if !(j.units.contains n) then
        let t := { s.jobThread p j with unit := some (.copy p q n) }
        let group := match j.kind with
          | .peerCopy .. | .assay .. => [(n, u)]
          | _ => together all n
        let now := group.map (·.1)
        let time ← match j.kind with
          | .peerCopy _ src _ toPeer node => sendPart t p q j src toPeer node u
          | .assay dst _ _ => do
            if (← get).hbmEnd < u.dst.toNat + u.n then fail .page u.dst 5 2
            if (← get).secureMem u.dst.toNat != t.secure then fail .world u.dst 5
            let (v, pts) ← partBytes t j.kind u j.time
            readyLine t 5 u.dst (u.dst.toNat / 128) true pts
            let (s, pts) := (← get).storeLine t (u.dst.toNat / 128) (u.dst.toNat % 128) u.n v pts
            set (s.dropViews (dst.toNat + u.off) u.n)
            pure pts
          | _ => do
            let first : CopyPart := if now.length = 1 then u
              else { u with dst := u.dst - BitVec.ofNat 64 (u.dst.toNat % 128), n := 128 }
            let (v, pts) ← partsBytes t j.kind first.dst group 0 j.time
            writePart t all j.units now first v pts
        modify fun s => (s.mapCopy p q fun j => { j with units := now ++ j.units, time := tsMax j.time time }).dropAnswers
          (.copy p q n)

/-- One unit at a moment of the copy unit's choosing; a fault waits for `JOB_FAULT` (R227; log 24). -/
def copyUnit (p q n : Nat) : Eff Unit := do
  let s ← get
  match s.runningJob p true q with
  | none => pure ()
  | some j =>
    if j.failed.isNone then
      match (performPart p q n).run s with
      | .ok _ s' => set s'
      | .error (.trap t) s' =>
        set (s'.mapCopy p q fun j => { j with
          failed := some (t.cause.code, j.kind matches .peerCopy .. && t.cause == .engflt, t.faddr) })
      | .error e s' =>
        set s'
        throw e

/-- Units performed one after another, as the copy unit may (log 24). -/
def performParts (p q : Nat) : List Nat → Eff Unit
  | [] => pure ()
  | n :: r => do
    performPart p q n
    performParts p q r

/-- The work of a copy job up to its last write: what is left of its units, or the acknowledgements of its peer
(log 25). -/
def copyWork (p q : Nat) (j : Job) : Eff Ts := do
  let n := j.kind.parts.length
  match j.kind with
  | .peerCopy _ _ _ _ node =>
    if j.units.length < n || (← get).flits.any fun f => f.job = some (p, q, j.id) then waitFor .join
    meetError ((← get).jobThread p j).secure 5 5 (2 * p + 1) p
    modify fun s => s.traceStep j node 4
    return j.time
  | _ =>
    meetError ((← get).jobThread p j).secure 5 5 (2 * p + 1) p
    performParts p q (List.range n)
    return match (← get).runningJob p true q with
      | some j => j.time
      | none => j.time

/-! ## Events of the engines (R213, R226, R227) -/

/-- Arbitration starts the next ready head job of an engine (log 23). -/
def jobStart (p : Nat) (copy : Bool) : Eff Unit := do
  let s ← get
  match s.nextQueue p copy with
  | none => pure ()
  | some (q, started) =>
    match SMap.at ((s.cluster p).engine copy).queues [] q with
    | [] => pure ()
    | j :: _ =>
      if copy then set (s.mapEngine p true fun e => e.start q started j)
      else startMatrix p q started j

def execJobStart (cluster : BitVec 10) (copy : Bool) (s : State) : Host.Outcome State Fault Refusal :=
  happen (jobStart cluster.toNat copy) s

/-- The work of an engine's job. -/
def jobWork (copy : Bool) : Nat → Nat → Job → Eff Ts := if copy then copyWork else matrixWork

def execJobDone (cluster : BitVec 10) (copy : Bool) (queue : BitVec 4) (s : State) :
    Host.Outcome State Fault Refusal := happen (jobDone (jobWork copy) cluster.toNat copy queue.toNat) s

def execJobFault (cluster : BitVec 10) (copy : Bool) (queue : BitVec 4) (s : State) :
    Host.Outcome State Fault Refusal := happen (jobFault (jobWork copy) cluster.toNat copy queue.toNat) s

end Sys2Proof.Machine
end

