-- ==== Sys2Proof/Machine/Sync.lean ====
section
/-! DEFINITION. Atomics, fences at system scope, event lines, barriers and settlement (R300 to R326). -/

namespace Sys2Proof.Machine

/-! ## Atomics (R300 to R302) -/

/-- What an atomic makes of the w-bit old value and operand. -/
def amoAdd (w old c : Nat) : Nat := (old + c) % 2 ^ w
def amoAnd (_w old c : Nat) : Nat := old &&& c
def amoOr (_w old c : Nat) : Nat := old ||| c
def amoXor (_w old c : Nat) : Nat := old ^^^ c
def amoMin (w old c : Nat) : Nat := if signedOf w c < signedOf w old then c else old
def amoMax (w old c : Nat) : Nat := if signedOf w old < signedOf w c then c else old
def amoMinu (_w old c : Nat) : Nat := min old c
def amoMaxu (_w old c : Nat) : Nat := max old c
def amoSwap (_w _old c : Nat) : Nat := c

/-- A host line is held in E or M for an atomic, or it is asked for, or its write entry is waited for (R301). -/
def ownHost (t : Thread) (line : Nat) : Eff Line64 := do
  let s ← get
  match s.hostLine line with
  | some x =>
    if x.state = .e ∨ x.state = .m then
      meetError t.secure 3 7 line (2 ^ 51 + line * 64)
      return x.data
  | none => if (s.writeEntry line).isSome then waitFor .room
  set (s.askHost line true { ctx := t.ctx, unit := t.unit, pts := t.pts })
  waitFor .access

/-- The old bytes at a point of coherence, once the atomic may be performed there at once (R301). -/
def atomicOld (t : Thread) (va : Word) (p : Place) (n : Nat) : Eff Nat := do
  match p with
  | .mem pa =>
    readyLine t 3 va (pa / 128) true t.pts
    modify fun s => s.l2Touch (pa / 128)
    return ((← get).lineData (pa / 128)).toNat / 2 ^ (8 * (pa % 128)) % 2 ^ (8 * n)
  | .host ha =>
    let d ← ownHost t (ha / 64)
    return d.toNat / 2 ^ (8 * (ha % 64)) % 2 ^ (8 * n)
  | .win space off =>
    readyUnit t 3 va p n 0 true
    return ((← get).winMem space).readN off n
  | .purse _ _ => fail .pstore va 3

/-- A `CAS` that does not write reads at the unit itself (R276): the pts after it. It is an atomic all the same: its host line
stands in M, and the host gives up its copy of a line of HBM (R301, R335, R336). -/
def homeLoad (t : Thread) (p : Place) (n : Nat) (pts : Ts) : Eff Ts := do
  match p with
  | .mem pa =>
    let s ← get
    let x := s.l2Line (pa / 128)
    let out := tsMax pts x.stamp.wts
    set (((s.setL2 { x with stamp := x.stamp.load pts }).assign out).tellHost t.ctx (pa / 128))
    return out
  | _ =>
    let (_, _, out, _) ← loadUnit t 3 p n pts
    match p with
    | .host ha => modify fun s => { s with
        hostLines := s.hostLines.map fun x => if x.line = ha / 64 then { x with state := .m } else x }
    | _ => pure ()
    return out

/-- One atomic at its point of coherence (R300): `f` gives what is written, or none. The old value. -/
def atomic (va : Word) (n : Nat) (f : Nat → Option Nat) : Eff Nat := do
  let s ← get
  let t := s.threadOf s.active
  let p ← locateStore t .both 3 va n
  let old ← atomicOld t va p n
  let pts := s.me.pts
  let out ← match f old with
    | some v => storeUnit t p n v pts
    | none => homeLoad t p n pts
  modify fun s => s.returned true true out
  return old

/-- The bytes of an atomic: .w or .d. -/
def amoBytes (dbl : Bool) : Nat := if dbl then 8 else 4

/-- `AMO` and `AMONR` (R300, R302): the old value goes to d, if there is one. -/
def amo (f : Nat → Nat → Nat → Nat) (p : Pred) (dbl : Bool) (d : Option XReg) (a c : XReg) (imm : Imm48) (s : State) :
    Host.Outcome State Fault Refusal :=
  guarded p (do
    let s ← get
    let n := amoBytes dbl
    let old ← atomic (s.base a imm) n fun old => some (f (8 * n) old ((s.x c).toNat % 2 ^ (8 * n)))
    match d with
    | some d => doing fun s => s.setX d (BitVec.ofNat 64 old)
    | none => return .seq) s

def execAmoAdd (p : Pred) (dbl : Bool) (d a c : XReg) (imm : Imm48) (s : State) : Host.Outcome State Fault Refusal :=
  amo amoAdd p dbl (some d) a c imm s
def execAmoAnd (p : Pred) (dbl : Bool) (d a c : XReg) (imm : Imm48) (s : State) : Host.Outcome State Fault Refusal :=
  amo amoAnd p dbl (some d) a c imm s
def execAmoOr (p : Pred) (dbl : Bool) (d a c : XReg) (imm : Imm48) (s : State) : Host.Outcome State Fault Refusal :=
  amo amoOr p dbl (some d) a c imm s
def execAmoXor (p : Pred) (dbl : Bool) (d a c : XReg) (imm : Imm48) (s : State) : Host.Outcome State Fault Refusal :=
  amo amoXor p dbl (some d) a c imm s
def execAmoMin (p : Pred) (dbl : Bool) (d a c : XReg) (imm : Imm48) (s : State) : Host.Outcome State Fault Refusal :=
  amo amoMin p dbl (some d) a c imm s
def execAmoMax (p : Pred) (dbl : Bool) (d a c : XReg) (imm : Imm48) (s : State) : Host.Outcome State Fault Refusal :=
  amo amoMax p dbl (some d) a c imm s
def execAmoMinu (p : Pred) (dbl : Bool) (d a c : XReg) (imm : Imm48) (s : State) : Host.Outcome State Fault Refusal :=
  amo amoMinu p dbl (some d) a c imm s
def execAmoMaxu (p : Pred) (dbl : Bool) (d a c : XReg) (imm : Imm48) (s : State) : Host.Outcome State Fault Refusal :=
  amo amoMaxu p dbl (some d) a c imm s
def execAmoSwap (p : Pred) (dbl : Bool) (d a c : XReg) (imm : Imm48) (s : State) : Host.Outcome State Fault Refusal :=
  amo amoSwap p dbl (some d) a c imm s
def execAmonrAdd (p : Pred) (dbl : Bool) (a c : XReg) (imm : Imm48) (s : State) : Host.Outcome State Fault Refusal :=
  amo amoAdd p dbl none a c imm s
def execAmonrAnd (p : Pred) (dbl : Bool) (a c : XReg) (imm : Imm48) (s : State) : Host.Outcome State Fault Refusal :=
  amo amoAnd p dbl none a c imm s
def execAmonrOr (p : Pred) (dbl : Bool) (a c : XReg) (imm : Imm48) (s : State) : Host.Outcome State Fault Refusal :=
  amo amoOr p dbl none a c imm s
def execAmonrXor (p : Pred) (dbl : Bool) (a c : XReg) (imm : Imm48) (s : State) : Host.Outcome State Fault Refusal :=
  amo amoXor p dbl none a c imm s
def execAmonrMin (p : Pred) (dbl : Bool) (a c : XReg) (imm : Imm48) (s : State) : Host.Outcome State Fault Refusal :=
  amo amoMin p dbl none a c imm s
def execAmonrMax (p : Pred) (dbl : Bool) (a c : XReg) (imm : Imm48) (s : State) : Host.Outcome State Fault Refusal :=
  amo amoMax p dbl none a c imm s
def execAmonrMinu (p : Pred) (dbl : Bool) (a c : XReg) (imm : Imm48) (s : State) : Host.Outcome State Fault Refusal :=
  amo amoMinu p dbl none a c imm s
def execAmonrMaxu (p : Pred) (dbl : Bool) (a c : XReg) (imm : Imm48) (s : State) : Host.Outcome State Fault Refusal :=
  amo amoMaxu p dbl none a c imm s
def execAmonrSwap (p : Pred) (dbl : Bool) (a c : XReg) (imm : Imm48) (s : State) : Host.Outcome State Fault Refusal :=
  amo amoSwap p dbl none a c imm s

/-- `CAS` (R300). -/
def execCas (p : Pred) (dbl : Bool) (d a b c : XReg) (imm : Imm48) (s : State) : Host.Outcome State Fault Refusal :=
  guarded p (do
    let s ← get
    let n := amoBytes dbl
    let old ← atomic (s.base a imm) n fun old =>
      if old = (s.x b).toNat % 2 ^ (8 * n) then some ((s.x c).toNat % 2 ^ (8 * n)) else none
    doing fun s => s.setX d (BitVec.ofNat 64 old)) s

/-! ## Fences (R304) -/

/-- pts past the HMTS of both bridge dies. -/
def State.acquire (s : State) : State :=
  let t := tsMax (tsMax s.me.pts (s.hmts0 + 1)) (s.hmts1 + 1)
  (s.mapMe fun k => { k with pts := t }).assign t

/-- The wait for SOUT = 0. -/
def drainHost : Eff Unit := do
  if (← get).me.sout ≠ 0 then waitFor .join

def execFenceSysAcq (p : Pred) (s : State) : Host.Outcome State Fault Refusal := guarded p (doing State.acquire) s

def execFenceSysRel (p : Pred) (s : State) : Host.Outcome State Fault Refusal :=
  guarded p (do
    drainHost
    return .seq) s

def execFenceSysFull (p : Pred) (s : State) : Host.Outcome State Fault Refusal :=
  guarded p (do
    drainHost
    doing State.acquire) s

/-! ## Event lines (R306 to R312) -/

/-- The line that x[A] names: its physical cluster and its number, or WINDOW (R306). -/
def eventLine (w : Word) : Eff (Nat × BitVec 6) := do
  let s ← get
  let l := s.launchAt s.active
  let c := field w 15 6
  if l.nclus ≤ c then fail .window w
  return (l.clusters.getD c 0, w.setWidth 6)

/-- A signal that R308 gives no effect (log 21). -/
def EventLine.inert (e : EventLine) (who : BitVec 13 × BitVec 2) : Bool :=
  match e.mode with
  | .msg => true
  | .mutex => e.owner != some who
  | _ => false

/-- A signal of the active context (R308), whose acknowledgement carries the line's new wts (log 21). -/
def State.signalLine (s : State) (p : Nat) (l : BitVec 6) : State :=
  let who := s.lineName s.active
  if (s.line p l).inert who then s
  else
    let pts := s.me.pts
    let (s, wts) := s.actLine p l pts fun e => e.signal who pts
    s.returned true true wts

/-- `EVLD` (R308, R310): its arrival, and its completion at once or when it is served. -/
def execEvld (p : Pred) (d a : XReg) (s : State) : Host.Outcome State Fault Refusal :=
  guarded p (do
    let s ← get
    match s.me.grant with
    | .event v t => doing fun s => (s.mapMe fun k => { k with pts := tsMax k.pts t }).setX d v
    | _ =>
      let (c, l) ← eventLine (s.x a)
      let who := s.lineName s.active
      let pts := s.me.pts
      let gen := (s.line c l).gen
      let s := if (s.line c l).mode = .barrier then (s.actLine c l pts fun e => e.arrive pts).1 else s
      match (s.line c l).take who gen with
      | some (v, e) =>
        let (t, st) := (s.line c l).join pts
        let s := ((s.setLine c l { e with stamp := st }).serve c l e.waiters.length).assign t
        set ((s.mapMe fun k => { k with pts := tsMax k.pts t }).setX d v)
        return .seq
      | none =>
        let e := s.line c l
        set (s.setLine c l { e with waiters := e.waiters ++ [{ ctx := s.active, gen := gen, counted := e.mode == .barrier }] })
        waitFor (.event c l)) s

/-- `EVTRIG` (R308). -/
def execEvtrig (p : Pred) (a : XReg) (s : State) : Host.Outcome State Fault Refusal :=
  guarded p (do
    let (c, l) ← eventLine ((← get).x a)
    doing fun s => s.signalLine c l) s

/-- A line as CONF sets it (R309): its VALUE holds no arrival of those that wait at it. -/
def EventLine.conf (e : EventLine) (w : Word) : EventLine :=
  let mode := match field w 2 0 with
    | 0 => EvMode.flag
    | 1 => .barrier
    | 2 => .sem
    | 3 => .mutex
    | _ => .msg
  { e with mode := mode, value := BitVec.ofNat 16 (field w 47 32), limit := BitVec.ofNat 16 (field w 31 16), gen := 0,
           owner := none, queue := [], waiters := e.waiters.map fun w => { w with counted := false } }

/-- `EVTRIG.conf` (R308, R309). -/
def execEvtrigConf (p : Pred) (a c : XReg) (s : State) : Host.Outcome State Fault Refusal :=
  guarded p (do
    let (k, l) ← eventLine ((← get).x a)
    doing fun s =>
      if 4 < field (s.x c) 2 0 then s
      else
        let (s', wts) := s.actLine k l s.me.pts fun e => e.conf (s.x c)
        s'.returned true true wts) s

/-- A message appended to a line, with the waiters served (R308). -/
def State.appendMessage (s : State) (p : Nat) (l : BitVec 6) (pts : Ts) (msg : Word) : State × Ts :=
  s.actLine p l pts fun e => { e with queue := e.queue ++ [msg] }

/-- `EVMSG` (R308). -/
def execEvmsg (p : Pred) (a c : XReg) (s : State) : Host.Outcome State Fault Refusal :=
  guarded p (do
    let s ← get
    let (k, l) ← eventLine (s.x a)
    let e := s.line k l
    if e.mode = .msg then
      if 16 ≤ e.queue.length then waitFor .room
      doing fun s =>
        let (s', wts) := s.appendMessage k l s.me.pts (s.x c)
        s'.returned true true wts
    else doing fun s => s.signalLine k l) s

/-- `EVMSG.peer` (R311, R339): posted, or lost where no link is live. -/
def execEvmsgPeer (p : Pred) (a c : XReg) (node : BitVec 22) (s : State) : Host.Outcome State Fault Refusal :=
  guarded p (doing fun s =>
    let dest := (s.x a).toNat % 2 ^ 16
    match s.linkFor node dest with
    | none => { s with pxlost := s.pxlost + 1 }
    | some link =>
      let f : Flit := { node := node, link := link, job := none, sender := s.active, peer := dest, local_ := 0, len := 0 }
      { (s.mapMe fun k => { k with sout := k.sout + 1 }).sendFlit link node .message (BitVec.ofNat 64 dest) 8
          ((s.x c).setWidth 1024) with
        flits := s.flits ++ [f] }) s

/-! ## Barriers (R313 to R315) -/

/-- The episode of the active context's arrival has been released. -/
def released : Eff Bool := do return (← get).me.grant == .released

/-- The active context arrives at a domain and waits (R313). -/
def arrive (d : BitVec 4) (kind : ArrivalKind) : Eff Next := do
  modify fun s => s.arriveAt (s.queueOf (clusterOfCore s.active.core)) d
    { core := s.logicalCore s.active.core, ctx := some s.active, kind := kind, pts := s.me.pts }
  waitFor (.barrier d kind)

/-- The domain is valid and the executing core is a member of it (R315). -/
def checkDomain (d : BitVec 4) : Eff Unit := do
  let s ← get
  if !((s.launchAt s.active).domain d).member (s.logicalCore s.active.core) then fail .domain (d.setWidth 64)

/-- `BAR` (R315). -/
def execBar (p : Pred) (d : BitVec 4) (s : State) : Host.Outcome State Fault Refusal :=
  perform (do
    noSettlement (d.setWidth 64)
    replied
    under p (do
      if ← released then return .seq
      checkDomain d
      arrive d .bar)) s

/-- The lines that follow a `SETTLE`: up to the first with SETL = 0, and no more than 16 (R128). -/
def settleLines : Nat → Word → Eff (List (Word × Line64))
  | 0, _ => pure []
  | n + 1, line => do
    let d ← goodLine line line
    if setlBit d then
      let r ← settleLines n (line + 64)
      return (line, d) :: r
    else return [(line, d)]

/-- Every slot after the `SETTLE` in its own line is NOP (R128). -/
def nopsAfter (k : Context) : Bool :=
  match k.line with
  | none => true
  | some (_, d) => (List.range 5).all fun i => decide (i ≤ slotNo k.pc) || match decodeSlot (slotOf d i) with
    | .ok (.nop _) => true
    | _ => false

/-- A core writes its trace record of a settlement (R343): TYPE 1 at its release, TYPE 2 when it resumes from `SDONE`. -/
def State.traceSettling (s : State) (type : BitVec 4) (data : Word) : State :=
  let l := s.launchAt s.active
  s.trace l.secure (dieOfCore s.active.core) type s.active (BitVec.ofNat 8 l.sstep) (l.plan.domain.setWidth 16) data
    l.launchid 0

/-- `SETTLE` (R128, R315, R318, R343). The ILLOP of a slot after it that is not NOP comes after R315's DOMAIN and PHASE and before
the settlement lines are read, the MODEL's choice, since R128 places it nowhere among them (log 67). -/
def execSettle (p : Pred) (d : BitVec 4) (s : State) : Host.Outcome State Fault Refusal :=
  perform (do
    noSettlement (d.setWidth 64)
    replied
    under p (do
      if ← released then
        modify fun s => (s.mapMe fun k => { k with
          settle := { k.settle with active := true, avail := [], nextIssue := 0 } }).traceSettling 1
            (BitVec.ofNat 64 (s.launchAt s.active).plan.slen)
        return .go (lineOf (← get).me.pc + 64) .plain
      let s ← get
      let plan := (s.launchAt s.active).plan
      checkDomain d
      if d ≠ plan.domain then fail .domain (d.setWidth 64)
      if !plan.settles || (s.core s.active.core.toNat).settled then fail .phase (d.setWidth 64)
      if !nopsAfter s.me then fail .illop
      let lines ← settleLines 16 (lineOf s.me.pc + 64)
      modify fun s => (s.mapMe fun k => { k with settle := { k.settle with lines := lines } }).mapCore
        s.active.core.toNat fun k => { k with settled := true }
      arrive d .settle)) s

/-- `SDONE` (R315, R324, R343): COUNT at the end of the phase is that of the cycle of the episode's last arrival. -/
def execSdone (p : Pred) (s : State) : Host.Outcome State Fault Refusal :=
  perform (do
    under p (do
      if ← released then
        doing fun s => (s.mapMe fun k => { k with
          settle := { k.settle with active := false, lines := [], avail := [] } }).traceSettling 2
            (BitVec.ofBool s.me.settle.coll ++ BitVec.ofNat 63 s.me.settle.count)
      else
        let s ← get
        if !s.me.inSettlement then fail .phase
        arrive (s.launchAt s.active).plan.domain .sdone)) s

/-! ## Settlement sends (R321 to R323) -/

/-- Column and row of a cluster in its die (R190). -/
def column (p : Nat) : Nat := p % 128 % 16
def rowOf (p : Nat) : Nat := p % 128 / 16

/-- The links that a route leaves its clusters by, column first, then row (R322): 4 x cluster + direction (0 east, 1
west, 2 south, 3 north). -/
def route : Nat → Nat → Nat → List Nat
  | 0, _, _ => []
  | n + 1, p, q =>
    if column p < column q then (4 * p) :: route n (p + 1) q
    else if column q < column p then (4 * p + 1) :: route n (p - 1) q
    else if rowOf p < rowOf q then (4 * p + 2) :: route n (p + 16) q
    else if rowOf q < rowOf p then (4 * p + 3) :: route n (p - 16) q
    else []

/-- The resource number of the channel from one die to another, and of a core's receive port. -/
def channel (a b : Nat) : Nat := 8192 + 8 * a + b
def port (core : Nat) : Nat := 16384 + core

/-- λ of a path, and the links and channel it occupies, by the cycle counted from the send (R322). -/
def sendPath (p q : Nat) : Nat × List (Nat × Nat) :=
  if p = q then (4, [])
  else if dieOfCluster p = dieOfCluster q then
    let r := route 32 p q
    (6 + 2 * r.length, r.mapIdx fun j k => (k, 4 + 2 * j))
  else
    let a := route 32 p (128 * dieOfCluster p + 71)
    let b := route 32 (128 * dieOfCluster q + 71) q
    (54 + 2 * (a.length + b.length),
      (a.mapIdx fun j k => (k, 4 + 2 * j)) ++ (channel (dieOfCluster p) (dieOfCluster q), 4 + 2 * a.length) ::
        b.mapIdx fun j k => (k, 52 + 2 * (a.length + j)))

/-- A `SEND` or `RECV` meets its settlement slot (R321). -/
def meetSlot (n : BitVec 16) : Eff Unit := do
  let s ← get
  let l := s.launchAt s.active
  if l.plan.slen ≤ n.toNat ∨ n.toNat < s.count l then fail .slot (n.setWidth 64)
  if s.count l < n.toNat then waitFor .slot

/-- Outside a settlement phase PHASE, whatever the predicate (R321). -/
def inPhase (n : BitVec 16) : Eff Unit := do
  if !(← get).me.inSettlement then fail .phase (n.setWidth 64)

/-- `SEND` (R321, R322). -/
def execSend (p : Pred) (vec : Bool) (a : XReg) (buf : BitVec 4) (dcore : BitVec 13) (slot : BitVec 16) (s : State) :
    Host.Outcome State Fault Refusal :=
  perform (do
    inPhase slot
    under p (do
      let s ← get
      let l := s.launchAt s.active
      if !((l.domain l.plan.domain).member dcore.toNat && decide (dcore.toNat < 8 * l.nclus)) then
        fail .domain (dcore.setWidth 64)
      meetSlot slot
      let dest := l.physicalCore dcore.toNat
      let (lam, links) := sendPath (clusterOfCore s.active.core) (clusterOfCore dest)
      let data : Vec := if vec then s.v (a.setWidth 5) else (s.x a).setWidth 1024
      let send : Send :=
        { queue := s.queueOf (clusterOfCore s.active.core), sender := s.active, dest := dest, buf := buf, data := data,
          arrives := s.clock + lam,
          occupies := (links.map fun e => (e.1, s.clock + e.2)) ++ [(port dest.toNat, s.clock + lam)] }
      doing fun s => { s with sends := s.sends ++ [send] })) s

/-- `RECV` (R321). -/
def execRecv (p : Pred) (vec : Bool) (d : XReg) (buf : BitVec 4) (slot : BitVec 16) (s : State) :
    Host.Outcome State Fault Refusal :=
  perform (do
    inPhase slot
    under p (do
      meetSlot slot
      let s ← get
      match SMap.find (s.core s.active.core.toNat).rx buf.toNat with
      | none => fail .slot (slot.setWidth 64)
      | some w => doing fun s => if vec then s.setV (d.setWidth 5) w else s.setX d (w.setWidth 64))) s

/-! ## Releases, arrivals and the end of a phase (R314, R322 to R324) -/

/-- The contexts of an episode whose arrivals are not of one kind raise DOMAIN, each when its turn comes (R313). -/
def State.mixedEpisode (s : State) (d : BitVec 4) (es : List Arrival) : State :=
  es.foldl (fun s a => match a.ctx with
    | some c => s.mapCtx c fun k => { k with grant := .fault { cause := .domain, faddr := d.zeroExtend 64 } }
    | none => s) s

/-- A completed episode is released in its cycle (R314): its contexts join the greatest pts of its arrivals and go on; a
SETTLE episode begins the settlement phase and an SDONE episode ends it (R318, R324). One of several kinds ends in DOMAIN
(R313). -/
def State.episodeRelease (s : State) (q : BitVec 6) (d : BitVec 4) : State :=
  let l := s.launch q
  let ep := SMap.at l.episodes { waiting := [], completed := [] } d.toNat
  match ep.completed with
  | [] => s
  | (es, at_) :: r =>
    if s.clock < at_ then s
    else if !alike es then
      (s.mapLaunch q fun l => { l with episodes := SMap.put l.episodes d.toNat { ep with completed := r } }).mixedEpisode d es
    else
      let kind := (es.head?.map (·.kind)).getD .bar
      let top := es.foldl (fun t a => tsMax t a.pts) ((es.head?.map (·.pts)).getD 0)
      let count := at_ - l.trel d - ((l.settlement.map (·.release)).getD 0)
      let s := s.mapLaunch q fun l => { l with
        episodes := SMap.put l.episodes d.toNat { ep with completed := r }
        settlement := match kind with
          | .settle => some { domain := d, release := s.clock, ending := false }
          | .sdone => none
          | .bar => l.settlement }
      es.foldl (fun s a => match a.ctx with
        | none => s
        | some c => s.mapCtx c fun k => { k with
            pts := tsMax k.pts top, grant := .released
            settle := match kind with
              | .settle => { k.settle with coll := false }
              | .sdone => { k.settle with count := count }
              | .bar => k.settle }) s

def execEpisodeRelease (q : BitVec 6) (dom : BitVec 4) (s : State) : Host.Outcome State Fault Refusal :=
  happen (modify fun s => s.episodeRelease q dom) s

/-- A send reaches its entry in its arrival cycle; after the phase it is discarded (R321, R322). -/
def State.sendArrival (s : State) (i : Nat) : State :=
  match s.sends[i]? with
  | none => s
  | some m =>
    if s.clock < m.arrives then s
    else
      let s := { s with sends := s.sends.eraseIdx i }
      if (s.launch m.queue).settlement.any fun p => !p.ending then
        s.mapCore m.dest.toNat fun k => { k with rx := SMap.put k.rx m.buf.toNat m.data }
      else s

def execSendArrival (i : Nat) (s : State) : Host.Outcome State Fault Refusal :=
  happen (modify (State.sendArrival · i)) s

/-- Sends that meet in this cycle: only that of the lowest physical core goes on, and the others set COLL (R323). -/
def State.collide (s : State) : State :=
  let beaten (m : Send) : Bool := s.sends.any fun o =>
    decide (o.sender.core.toNat < m.sender.core.toNat) &&
      m.occupies.any fun r => decide (r.2 = s.clock) && o.occupies.contains r
  let lost := s.sends.filter beaten
  let s := { s with sends := s.sends.filter fun m => !beaten m }
  lost.foldl (fun s m => s.mapCtx m.sender fun k => { k with settle := { k.settle with coll := true } }) s

/-- COUNT reaches SLEN: every member context that has not issued `SDONE` raises SLOT (R324). -/
def State.slenReached (s : State) (q : BitVec 6) : State :=
  let l := s.launch q
  match l.settlement with
  | none => s
  | some ph =>
    if ph.ending || decide (s.count l < l.plan.slen) then s
    else
      let late := (s.contexts.filter fun e =>
        let c := ctxOf e.1
        e.2.inSettlement && decide (s.queueOf (clusterOfCore c.core) = q) && match e.2.wait with
          | .barrier _ .sdone => false
          | _ => true).map fun e => ctxOf e.1
      late.foldl (fun s c => s.raise c { cause := .slot, faddr := BitVec.ofNat 64 l.plan.slen }) s

def execSlenReached (q : BitVec 6) (s : State) : Host.Outcome State Fault Refusal :=
  happen (modify (State.slenReached · q)) s

end Sys2Proof.Machine
end

