-- ==== Sys2Proof/Machine/Handle.lean ====
section
/-! DEFINITION. The handle store, the tile operations of the teller, and the handle instructions (R41 to R43, R235 to
R252, R256, R257). -/

namespace Sys2Proof.Machine

/-! ## The start of a routine (R34, R114, R399) -/

/-- Words put into registers from x[i] on. -/
def fillX (x : Vector Word 64) (i : Nat) : List Word → Vector Word 64
  | [] => x
  | w :: r => fillX (x.setIfInBounds i w) (i + 1) r

/-- A context begins a routine at an entry of the routine table: its registers are as R34 states, with the given words
from x4 on, and LEASE is the record's (log 53). A malformed entry raises BADTGT (R114). -/
def State.beginRoutine (s : State) (c : CtxId) (entry : Word) (args : List Word) (pts : Ts)
    (borrowed : Option (Nat × BitVec 11)) : State :=
  let l := s.launchAt c
  let k := s.ctx c
  let x := fillX ((RegFile.zero.x.set 2 (coreWindow c.core.toNat + 0x8000)).set 3 l.param) 4 args
  let s := s.setCtx c { Context.reset with
    run := .running, pc := entry, regs := { RegFile.zero with x := x }, allow := l.allow, depthlim := l.depthlim
    lease := l.lease, pts := pts, thunks := k.thunks, dout := k.dout, ackTime := k.ackTime, sout := k.sout
    borrowed := borrowed, entry := .transfer 0 }
  if pcOk entry then s else s.raise c { cause := .badtgt, faddr := entry }

/-! ## Slots (R41, R235, R236) -/

/-- The physical cluster, slot and generation of a handle (R41). -/
def hCluster (h : BitVec 32) : Nat := h.toNat / 2 ^ 22
def hSlot (h : BitVec 32) : Nat := h.toNat / 2 ^ 11 % 2 ^ 11
def hGen (h : BitVec 32) : BitVec 11 := h.setWidth 11

/-- The handle in the low bits of a register. -/
def State.h (s : State) (r : XReg) : BitVec 32 := (s.x r).setWidth 32

def State.slotAt (s : State) (h : BitVec 32) : HSlot := SMap.at (s.cluster (hCluster h)).slots {} (hSlot h)

/-- The slot of a handle that is not stale (R235). -/
def State.slotOf (s : State) (h : BitVec 32) : Option HSlot :=
  let k := s.slotAt h
  if h ≠ 0 ∧ k.gen = hGen h ∧ k.state ≠ .free then some k else none

def State.setSlot (s : State) (h : BitVec 32) (k : HSlot) : State :=
  s.mapCluster (hCluster h) fun u => { u with slots := SMap.put u.slots (hSlot h) k }

/-- The lowest-numbered slot that may be allocated among n from i on (R235). -/
def freeSlot (k : Cluster) : Nat → Nat → Option Nat
  | 0, _ => none
  | n + 1, i =>
    let h := SMap.at k.slots {} i
    if h.state = .free ∧ h.retired = false then some i else freeSlot k n (i + 1)

/-- A slot freed: its generation advances, or it is retired (R235). Nothing but the tile descriptor stays in its other
fields: the MODEL's choice, where R42 states no content of a FREE slot (log 63). -/
def HSlot.freed (k : HSlot) : HSlot :=
  if k.gen = 2047 then { gen := 2047, tile := k.tile, retired := true } else { gen := k.gen + 1, tile := k.tile }

/-- A creator's count of unevaluated thunks loses one (R245). -/
def State.uncount (s : State) (k : HSlot) : State :=
  match k.creator with
  | some c => s.mapCtx c fun x => { x with thunks := x.thunks - 1 }
  | none => s

/-- The argument handles of a slot, 0 for none. -/
def HSlot.args (k : HSlot) : List (BitVec 32) := [k.argA, k.argB, k.argC]

/-- One reference added to a handle (R236). -/
def State.addRef (s : State) (h : BitVec 32) : State :=
  match s.slotOf h with
  | some k => s.setSlot h { k with refcnt := if k.refcnt = 0xFFFF then k.refcnt else k.refcnt + 1 }
  | none => s

/-- One reference to a handle removed: a slot whose count reaches zero is freed by its state, and a suspended one drops
its arguments in turn (R236, R248). The chain is no longer than the greatest depth (R245). -/
def State.dropRef : Nat → BitVec 32 → State → State
  | 0, _, s => s
  | n + 1, h, s =>
    match s.slotOf h with
    | none => s
    | some k =>
      if k.refcnt = 0xFFFF then s
      else if 1 < k.refcnt.toNat then s.setSlot h { k with refcnt := k.refcnt - 1 }
      else match k.state with
        | .suspended => k.args.foldl (fun s a => State.dropRef n a s) ((s.setSlot h k.freed).uncount k)
        | .value => s.setSlot h k.freed
        | _ => s.setSlot h { k with refcnt := 0, spent := true }

/-- A reference dropped. -/
def State.drop (s : State) (h : BitVec 32) : State := s.dropRef 130 h

/-- A read of a slot meets the error that lies in it (R381). -/
def meetHandle (secure : Bool) (h : BitVec 32) : Eff Unit :=
  meetError secure 0 4 (2048 * hCluster h + hSlot h) (2048 * hCluster h + hSlot h)

/-- A handle instruction reaches the home teller of a handle, which performs a context's handle instructions in its order,
and reads the slot. Behind a `DROP` of the same context that the teller has not carried out yet every one of them waits, a
further `DROP` too, so that its HSTALE is precise: R257 lets a `DROP` not wait and does not say how both are to hold, the
MODEL's choice (log 68). -/
def atTeller (h : BitVec 32) : Eff Unit := do
  let s ← get
  if s.remoteDrops.any fun r => r.by_ = s.active ∧ hCluster r.handle = hCluster h then waitFor .access
  meetHandle (s.launchAt s.active).secure h

/-- The slot of a handle at its home teller: a stale one raises HSTALE (R237 step 2). -/
def liveSlot (h : BitVec 32) : Eff HSlot := do
  atTeller h
  match (← get).slotOf h with
  | some k => return k
  | none => fail .hstale (h.setWidth 64)

/-- A handle of a cluster outside the placement raises WINDOW (R237 step 1). -/
def checkPlacement (h : BitVec 32) : Eff Unit := do
  let s ← get
  if !((s.launchAt s.active).clusters.contains (hCluster h)) then fail .window (h.setWidth 64)

/-- The handle check of R237. -/
def checkHandle (h : BitVec 32) : Eff HSlot := do
  checkPlacement h
  liveSlot h

/-- A slot of the executing cluster taken (R235), or the wait for one. -/
def allocate (w : Wait) (fill : HSlot → HSlot) : Eff (BitVec 32) := do
  let s ← get
  let p := clusterOfCore s.active.core
  match freeSlot (s.cluster p) 2048 0 with
  | none => waitFor w
  | some i =>
    let h := s.handle p (BitVec.ofNat 11 i)
    set (s.setSlot h (fill { gen := hGen h, refcnt := 1 }))
    return h

/-! ## Demands as a context makes them (R246) -/

/-- What a demand of the active context has ended with, if one has: its time is joined, or its fault is raised. Its time
and the descriptor of the tile. -/
def takeDemand : Eff (Option (Ts × Tile)) := do
  let s ← get
  match s.me.grant with
  | .demanded _ _ (some f) => trapWith { f with demanded := true }
  | .demanded t tile none =>
    set (s.mapMe fun k => { k with pts := tsMax k.pts t, grant := .none })
    return some (t, tile)
  | _ => return none

/-! ## Frames (R246, R247) -/

/-- The demand of the frame evaluates its handle. -/
def FrameState.own : FrameState → Bool
  | .open | .waiting => false
  | _ => true

/-- The handle being demanded inside the frame in which a demand evaluates `w`, if that frame is among these: some none
when it is the innermost. -/
def innerOf (w : BitVec 32) : Option (BitVec 32) → List (BitVec 32 × FrameState) → Option (Option (BitVec 32))
  | _, [] => none
  | inner, (h, st) :: r => if h = w ∧ st.own then some inner else innerOf w (some h) r

/-- The handle that the borrowed context of a routine thunk is forcing (R247). -/
def State.forcedBy (s : State) (w : BitVec 32) : Option (BitVec 32) :=
  match s.contexts.find? fun e => e.2.borrowed = some (hCluster w, BitVec.ofNat 11 (hSlot w)) with
  | none => none
  | some e => (s.demands.find? fun d => d.owner = some (ctxOf e.1)).bind fun d => (d.frames.getLast?).map (·.1)

/-- What the evaluation of a thunk now waits on (R247). -/
def State.waitsOn (s : State) (w : BitVec 32) : Option (BitVec 32) :=
  match firstSome (fun d => innerOf w none d.frames) s.demands with
  | some (some h) => some h
  | _ => s.forcedBy w

/-- The context is the one borrowed for a routine thunk (R249). -/
def State.runsThunk (s : State) (c : CtxId) (w : BitVec 32) : Bool :=
  (s.ctx c).borrowed == some (hCluster w, BitVec.ofNat 11 (hSlot w))

/-- A demand of a context for a handle under evaluation would wait on itself (R247): the walk meets a thunk that the
context owns, or the routine thunk that it runs, since a cycle through routine thunks is one too (log 26). -/
def State.selfdep (s : State) (c : CtxId) : Nat → BitVec 32 → Bool
  | 0, _ => false
  | n + 1, w =>
    if (s.slotAt w).owner = some c || s.runsThunk c w then true
    else match s.waitsOn w with
      | none => false
      | some w' => State.selfdep s c n w'

/-- The active context comes before the one that made a demand of this cycle (R246). -/
def State.later (s : State) (x : Demand) : Bool :=
  match x.owner with
  | some o => decide (x.at_ = s.clock) && decide (ctxKey s.active < ctxKey o)
  | none => false

/-- A demand of the active context made now: the demands of one cycle are ordered by core and context (R246). It belongs to
the launch whose thunk it demands, which for an `ARWAIT` may be another's (R362). -/
def State.addDemand (s : State) (fork : Ts) (frames : List (BitVec 32 × FrameState)) (work : Option Strict) : State :=
  let p := ((frames.head?).map fun f => hCluster f.1).getD (clusterOfCore s.active.core)
  let d : Demand := { owner := some s.active, at_ := s.clock, queue := s.queueOf p,
                      fork := fork, frames := frames, work := work }
  { s with demands := (s.demands.filter fun x => !s.later x) ++ d :: s.demands.filter s.later }

/-- The active context demands a handle in SUSPENDED or EVALUATING: it marks the one, and waits for the other. The
lowest of the contexts that demand a thunk in one cycle evaluates it. -/
def State.pushDemand (s : State) (h : BitVec 32) (work : Option Strict := none) (fork : Ts := s.me.pts) : State :=
  let k := s.slotAt h
  let beaten (x : Demand) : Bool := s.later x && x.frames == [(h, .marked)]
  let first := k.state == .suspended || s.demands.any beaten
  let ds := s.demands.map fun x => if beaten x then { x with frames := [(h, .waiting)] } else x
  let s := ({ s with demands := ds } : State).addDemand fork [(h, if first then .marked else .waiting)] work
  if first then s.setSlot h { k with state := .evaluating, owner := some s.active }
  else if k.owner = none then s.setSlot h { k with owner := some s.active }
  else s

/-- A handle is VALUE, whose time is joined, or it is demanded and waited for (R246, R247). -/
def ensureValue (h : BitVec 32) (taken : Option (BitVec 32) := none) : Eff Unit := do
  let s ← get
  let k := s.slotAt h
  if k.state = .value then set (s.mapMe fun x => { x with pts := tsMax x.pts k.time })
  else
    if k.state = .evaluating ∧ s.selfdep s.active 64 h then fail .selfdep (h.setWidth 64)
    set (s.pushDemand h)
    waitFor (.demand taken)

/-! ## Tile operations (R43, R243) -/

/-- The float formats of the teller. -/
def topFloat (c : BitVec 5) : Bool := decide (c.toNat ≤ 3)
/-- The integer formats of the teller. -/
def topInt (c : BitVec 5) : Bool := c == 9 || c == 11 || c == 12

/-- The formats that an operation accepts (R243). -/
def topFormats (op : Top) (a b : Tile) (cfmt : BitVec 5) : Bool :=
  match op with
  | .add | .sub | .mul | .scale =>
    (topFloat a.fmt || topInt a.fmt) && b.fmt == a.fmt && a.scale == 0 && b.scale == 0
  | .mma => topFloat a.fmt && b.fmt == a.fmt && a.scale == 0 && b.scale == 0
  | .convert => convertible a.fmt && convertible cfmt
  | .transpose => convertible a.fmt && a.scale == 0
  | .maxrow | .sumrow => (topFloat a.fmt || topInt a.fmt) && a.scale == 0

/-- The argument shapes agree (R43, R243). -/
def topShapes (op : Top) (a b : Tile) : Bool :=
  match op with
  | .add | .sub | .mul => a.rows == b.rows && a.cols == b.cols
  | .mma => decide (a.cols.toNat = b.rows.toNat)
  | .scale => b.rows == 1 && b.cols == 1
  | _ => true

/-- The result's rows, columns and format (R43). -/
def topResult (op : Top) (a b : Tile) (cfmt : BitVec 5) : Nat × Nat × BitVec 5 :=
  match op with
  | .mma => (a.rows.toNat, b.cols.toNat, a.fmt)
  | .convert => (a.rows.toNat, a.cols.toNat, cfmt)
  | .transpose => (a.cols.toNat, a.rows.toNat, a.fmt)
  | .maxrow | .sumrow => (a.rows.toNat, 1, a.fmt)
  | _ => (a.rows.toNat, a.cols.toNat, a.fmt)

/-- The formats, the shape and the result tile of a `SUSP` at an offset (R241 steps 3 to 5). -/
def formResult (p : Nat) (op : Top) (a b : Tile) (cfmt : BitVec 5) (off : Nat) : Eff Tile := do
  if !topFormats op a b cfmt then fail .fmtmix
  let (r, c, f) := topResult op a b cfmt
  let maxCols := if f = 8 ∨ f = 10 then 128 else 64
  if !(topShapes op a b && decide (1 ≤ r) && decide (r ≤ 64) && decide (1 ≤ c) && decide (c ≤ maxCols)) then
    fail .engflt
  let t : Tile := { addr := BitVec.ofNat 64 off, fmt := f, rows := BitVec.ofNat 7 r, cols := BitVec.ofNat 8 c,
                    stride := BitVec.ofNat 13 ((c * (fmtOf f).width + 7) / 8), scale := 0 }
  let w := t.at_ p off
  if !w.shapeOk then fail .align w.addr
  if !w.windowOk p then fail .window w.addr
  return t

/-- The greatest of the elements of a row in a float format (R170, R243). -/
def maxFloat (f : FpFmt) : List Nat → Nat
  | [] => 0
  | x :: r => r.foldl (fun m y => (fpMinMax f true m y).1) (fpMinMax f true x x).1

/-- Element (i, j) of the result of an operation on tiles of clusters pa and pb, as bits (R243). -/
def topElem (m : Memory) (op : Top) (rm : Rm) (pa : Nat) (a : Tile) (pb : Nat) (b : Tile) (res : BitVec 5) (i j : Nat) :
    Nat :=
  let mode := resolveMode rm 0
  let x := a.bits m pa i j
  let y := match op with
    | .scale => b.bits m pb 0 0
    | _ => b.bits m pb i j
  let row := (List.range a.cols.toNat).map fun k => a.bits m pa i k
  match op with
  | .transpose => a.bits m pa j i
  | .convert => ((fmtOf res).encode false mode (a.value m pa false i j)).1
  | .mma => dot a.fmt a.fmt a.cols.toNat (fun k => a.value m pa false i k) (fun k => b.value m pb true k j) 0
  | _ =>
    match fmtOf a.fmt with
    | .float f =>
      match op with
      | .add => (fpAdd f mode (f.decode x) (f.decode y)).1
      | .sub => (fpSub f mode (f.decode x) (f.decode y)).1
      | .maxrow => maxFloat f row
      | .sumrow =>
        let k := ((List.range 8).find? fun k => a.cols.toNat ≤ 2 ^ k).getD 0
        (treeSum f mode k (row.map (fun v => (some v, 0)) ++ List.replicate (2 ^ k - row.length) (none, 0))).1
      | _ => (fpMul f mode (f.decode x) (f.decode y)).1
    | _ =>
      let w := a.width
      match op with
      | .add => wrapInt w (signedOf w x + signedOf w y)
      | .sub => wrapInt w (signedOf w x - signedOf w y)
      | .maxrow => wrapInt w (row.foldl (fun t v => max t (signedOf w v)) (signedOf w (row.headD 0)))
      | .sumrow => wrapInt w (row.foldl (fun t v => t + signedOf w v) 0)
      | _ => wrapInt w (signedOf w x * signedOf w y)

/-- A tile operation performed: it waits for its arguments to be valid and its result to be fillable, reads the
arguments and fills the result (R203, R253). The completion time. -/
def evaluateTop (t : Thread) (p : Nat) (op : Top) (rm : Rm) (args : List (Nat × Tile)) (res : Tile) (fork : Ts) :
    Eff Ts := do
  let s ← get
  let gs := res.granules
  if !(args.all fun a => s.valid a.1 a.2.granules) || !s.fillable p gs then waitFor .tags
  let rec read (pts : Ts) : List (Nat × Tile) → Eff Ts
    | [] => pure pts
    | (q, a) :: r => do
      let loads := a.granules ++ a.scales a.rows.toNat
      meetGranules t.secure 5 q loads
      let s ← get
      let (s, pts) := s.stampLoads q loads (s.tagTime q a.granules pts)
      set s
      read pts r
  let pts ← read fork args
  let (pa, a) := args.headD (p, res)
  let (pb, b) := args.getD 1 (p, res)
  let s ← get
  let pts := s.tagTime p gs pts
  let s := { s with
    clusterMem := res.writeAll s.clusterMem p fun i j => some (topElem s.clusterMem op rm pa a pb b res.fmt i j) }
  let (s, pts) := s.stampStores p gs pts
  set ((s.setTags p gs fun g => { g with v := true, c := false, time := pts }).assign pts)
  return pts

/-! ## Suspending (R241, R242, R244) -/

/-- The offset of a result (R240). -/
def State.locOf (s : State) (l : Loc) : Nat :=
  match l with
  | .off o => o.toNat
  | .reg r => (s.x r).toNat % 2 ^ 19

/-- DEPTH of a thunk over its arguments (R241). -/
def State.depthOf (s : State) (hs : List (BitVec 32)) : Nat :=
  1 + (hs.map fun h => match s.slotOf h with
    | some k => if k.state = .suspended ∨ k.state = .evaluating then k.depth.toNat else 0
    | none => 0).foldl max 0

/-- The thunk is created lazily (R241). -/
def State.lazily (s : State) (hs : List (BitVec 32)) : Bool :=
  decide (s.depthOf hs ≤ s.me.depthlim.toNat) && decide (s.me.thunks < s.me.allow.toNat)

/-- The arguments checked in order (R237, R241 step 2): an MMA's must be of the executing cluster. -/
def checkArgs (mma : Bool) : List (BitVec 32) → Eff (List (Nat × Tile))
  | [] => pure []
  | h :: r => do
    let k ← checkHandle h
    if mma && hCluster h != clusterOfCore (← get).active.core then fail .window (h.setWidth 64)
    let ts ← checkArgs mma r
    return (hCluster h, k.tile) :: ts

/-- The arguments that are VALUE before the first that is not, each with its cluster and descriptor, and the others. -/
def State.gather (s : State) : List (BitVec 32) → List (Nat × Tile) × List (BitVec 32)
  | [] => ([], [])
  | h :: r =>
    if (s.slotAt h).state = .value then ((hCluster h, (s.slotAt h).tile) :: (s.gather r).1, (s.gather r).2) else ([], h :: r)

/-- The greatest of a time and the times of the first n handles. -/
def State.joined (s : State) (t : Ts) (n : Nat) (hs : List (BitVec 32)) : Ts :=
  (hs.take n).foldl (fun t h => tsMax t (s.slotAt h).time) t

/-- The work of a strict `SUSP` or `SUSPR` is given to the teller: its arguments are demanded in order as `FORCE` does,
and the operation of a `SUSP` is then performed (R241 to R243). -/
def demandWork {α : Type} (op : Option (Top × Rm × Tile)) (hs : List (BitVec 32)) (res : Tile) : Eff α := do
  let s ← get
  let (args, left) := s.gather hs
  let w : Strict := { cluster := clusterOfCore s.active.core, op := op, left := left, args := args, submitted := false }
  let fork := s.joined s.me.pts args.length hs
  match left with
  | [] => set (s.addDemand fork [] (some w))
  | h :: _ =>
    if (s.slotAt h).state = .evaluating ∧ s.selfdep s.active 64 h then fail .selfdep (h.setWidth 64)
    set (s.pushDemand h (some w) fork)
  waitFor (.work res)

/-- A thunk suspended in a slot, with a reference to each argument and one more in its creator's count. -/
def suspend (d : XReg) (hs : List (BitVec 32)) (res : Tile) (fill : HSlot → HSlot) : Eff Next := do
  let s ← get
  let depth := BitVec.ofNat 7 (s.depthOf hs)
  let h ← allocate (.allot res none) fun k => fill { k with state := .suspended, depth := depth, creator := some s.active }
  modify fun s => ((hs.foldl State.addRef s).mapMe fun k => { k with thunks := k.thunks + 1 }).setX d (h.setWidth 64)
  return .seq

/-- `SUSP` (R241; log 26). Its checks are made once, before the slot or the demands that it waits for; the descriptor of
an unevaluated routine thunk is the one its slot holds, a zero tile, so that no result can be formed from it (the MODEL's
choice, log 63). -/
def execSusp (p : Pred) (d : XReg) (op : Top) (a b : XReg) (cfmt : BitVec 5) (rm : Rm) (loc : Loc) (s : State) :
    Host.Outcome State Fault Refusal :=
  guarded p (do
    let done ← takeDemand
    let s ← get
    let c := clusterOfCore s.active.core
    let hs := if op.unary then [s.h a] else [s.h a, s.h b]
    let lazily (res : Tile) : Eff Next := suspend d hs res fun k =>
      { k with argA := hs.headD 0, argB := hs.getD 1 0, top := some op, tile := res, rm := rm }
    let valued (res : Tile) (t : Ts) : Eff Next := do
      let h ← allocate (.allot res (some t)) fun k => { k with state := .value, top := some op, tile := res, rm := rm, time := t }
      doing fun s => s.setX d (h.setWidth 64)
    match s.me.wait, done with
    | .allot res none, _ => lazily res
    | .allot res (some t), _ => valued res t
    | .work res, some (t, _) => valued res t
    | _, _ =>
      let args ← checkArgs (op == .mma) hs
      let res ← formResult c op (args.headD (c, {})).2 (args.getD 1 (c, {})).2 cfmt (s.locOf loc)
      if s.lazily hs then lazily res else demandWork (some (op, rm, res)) hs res) s

/-- `SUSPR` (R242; log 26). Its checks are made once, before what it waits for. -/
def execSuspr (p : Pred) (d a b c : XReg) (ridx : BitVec 16) (s : State) : Host.Outcome State Fault Refusal :=
  guarded p (do
    let done ← takeDemand
    let s ← get
    let hs := [s.h a, s.h b, s.h c].filter (· ≠ 0)
    let fill (k : HSlot) : HSlot :=
      { k with routine := true, argA := s.h a, argB := s.h b, argC := s.h c, ridx := ridx }
    let run (t : Ts) : Eff Next := do
      let h ← allocate (.allot {} (some t)) fun k => fill { k with state := .suspended, depth := 1, strict := true }
      modify fun s => (hs.foldl State.addRef s).pushDemand h
      waitFor (.demand (some h))
    match s.me.wait, done with
    | .demand (some h), some _ => doing fun s => s.setX d (h.setWidth 64)
    | .allot _ none, _ => suspend d hs {} fill
    | .allot _ (some t), _ => run t
    | .work _, some (t, _) => run t
    | _, _ =>
      if (s.launchAt s.active).routines.length ≤ ridx.toNat then fail .illop
      let _ ← checkArgs false hs
      if s.lazily hs then suspend d hs {} fill
      else if (s.gather hs).2 ≠ [] then demandWork none hs {}
      else
        let t := s.joined s.me.pts hs.length hs
        modify fun s => s.mapMe fun k => { k with pts := t }
        run t) s

/-- A descriptor with its address cut to the window offset (R244, R249). -/
def Tile.cut (t : Tile) : Tile := { t with addr := BitVec.ofNat 64 t.off }

/-- `MKVAL` (R244). -/
def execMkval (p : Pred) (d : XReg) (t : TReg) (s : State) : Host.Outcome State Fault Refusal :=
  guarded p (do
    let s ← get
    checkTile (clusterOfCore s.active.core) (s.t t)
    let h ← allocate .room fun k => { k with state := .value, tile := (s.t t).cut, time := s.me.pts }
    doing fun s => s.setX d (h.setWidth 64)) s

/-! ## Forcing and reading (R246, R250 to R252) -/

/-- `FORCE` (R246). -/
def execForce (p : Pred) (a : XReg) (s : State) : Host.Outcome State Fault Refusal :=
  guarded p (do
    if (← takeDemand).isSome then return .seq
    let h := (← get).h a
    let _ ← checkHandle h
    ensureValue h
    return .seq) s

/-- `SPARK` (R250). -/
def execSpark (p : Pred) (a : XReg) (s : State) : Host.Outcome State Fault Refusal :=
  guarded p (do
    let h := (← get).h a
    if h = 0 then return .seq
    let k ← checkHandle h
    doing fun s => s.mapCluster (hCluster h) fun u =>
      if k.state = .suspended ∧ u.sparks.length < 64 then
        { u with sparks := u.sparks ++ [(h, s.me.pts, s.queueOf (clusterOfCore s.active.core))] }
      else u) s

/-- `RESULT`: the routine thunk of a borrowed context completes (R249). -/
def execResult (p : Pred) (t : TReg) (s : State) : Host.Outcome State Fault Refusal :=
  guarded p (do
    let s ← get
    match s.me.borrowed with
    | none => fail .illop
    | some (c, i) =>
      checkTile (clusterOfCore s.active.core) (s.t t)
      let h := s.handle c i
      stay fun s =>
        let s := s.setSlot h { s.slotAt h with tile := (s.t t).cut }
        ((s.endFrame h s.me.pts none).freeCtx s.active).recheckEpisodes (s.queueOf (clusterOfCore s.active.core))) s

/-- `DUP` (R248). -/
def execDup (p : Pred) (a : XReg) (s : State) : Host.Outcome State Fault Refusal :=
  guarded p (do
    let h := (← get).h a
    if h = 0 then return .seq
    let _ ← checkHandle h
    doing fun s => s.addRef h) s

/-- `DROP`: of the executing cluster at once, of another at its home teller (R248, R257). -/
def execDrop (p : Pred) (a : XReg) (s : State) : Host.Outcome State Fault Refusal :=
  guarded p (do
    let s ← get
    let h := s.h a
    if h = 0 then return .seq
    let _ ← checkHandle h
    if hCluster h = clusterOfCore s.active.core then doing fun s => s.drop h
    else
      doing fun s => { s with remoteDrops := s.remoteDrops ++ [{ handle := h, by_ := s.active }] }) s

/-- A remote `DROP` is carried out; those of one context at one teller in its order (R248, R257). -/
def State.remoteDrop (s : State) (i : Nat) : State :=
  match s.remoteDrops[i]? with
  | none => s
  | some r =>
    if (s.remoteDrops.take i).any fun x => x.by_ = r.by_ ∧ hCluster x.handle = hCluster r.handle then s
    else ({ s with remoteDrops := s.remoteDrops.eraseIdx i } : State).drop r.handle

def execRemoteDrop (i : Nat) (s : State) : Host.Outcome State Fault Refusal := happen (modify (State.remoteDrop · i)) s

/-- The state codes of R42. -/
def HState.code : HState → Word
  | .free => 0
  | .suspended => 1
  | .evaluating => 2
  | .value => 3

/-- `HSTAT` (R251); reading 3 joins the evaluation (R285). -/
def execHstat (p : Pred) (d a : XReg) (s : State) : Host.Outcome State Fault Refusal :=
  guarded p (do
    let s ← get
    let h := s.h a
    if h = 0 then doing fun s => s.setX d 0
    else
      checkPlacement h
      atTeller h
      doing fun s => match s.slotOf h with
        | none => s.setX d 0
        | some k =>
          let s := if k.state = .value then s.mapMe fun x => { x with pts := tsMax x.pts k.time } else s
          s.setX d k.state.code) s

/-- `HTILE` (R252). -/
def execHtile (p : Pred) (t : TReg) (a : XReg) (s : State) : Host.Outcome State Fault Refusal :=
  guarded p (do
    let done ← takeDemand
    let h := (← get).h a
    let tile ← match done with
      | some (_, tile) => pure tile
      | none => do
        let k ← checkHandle h
        ensureValue h
        pure k.tile
    doing fun s => s.setT t (tile.at_ (hCluster h) tile.off)) s

end Sys2Proof.Machine
end

