-- ==== Sys2Proof/Machine/Teller.lean ====
section
/-! DEFINITION. The teller: the operations of demands and sparks, and the end of an evaluation (R246 to R250, R253,
R254). -/

namespace Sys2Proof.Machine

/-! ## Demands that end (R246) -/

/-- A frame whose demand waits for, or has ended, the evaluation of a handle. -/
def resolves (h : BitVec 32) (f : BitVec 32 × FrameState) : Bool :=
  decide (f.1 = h) && match f.2 with
    | .waiting | .ended _ _ => true
    | _ => false

/-- What remains of a demand whose innermost handle is VALUE, with its time and descriptor: the demand of the handle
around it, the strict operation whose argument it is, or nothing (R241, R246). -/
def Demand.reached (d : Demand) (time : Ts) (tile : Tile) : Option Demand :=
  match d.frames, d.work with
  | [(h, _)], some w =>
    some { d with
      frames := [], fork := tsMax d.fork time
      work := some { w with left := w.left.drop 1, args := w.args ++ [(hCluster h, tile)] } }
  | [_], none | [], _ => none
  | _ :: r, _ => some { d with frames := r }

/-- Every demand whose innermost frame is resolved by a handle's reaching VALUE goes on, or ends (R246). -/
def State.resolve (s : State) (h : BitVec 32) (time : Ts) (tile : Tile) : State :=
  let hit (d : Demand) : Bool := match d.frames with
    | f :: _ => resolves h f
    | [] => false
  let ends := s.demands.filter fun d => hit d && (d.reached time tile).isNone
  let s := { s with demands := s.demands.filterMap fun d => if hit d then d.reached time tile else some d }
  ends.foldl (fun s d => s.grantDemand d.owner time tile none) s

/-- A thunk whose evaluation has ended in VALUE (R246, R248): overwritten, its argument references dropped. -/
def State.valued (s : State) (h : BitVec 32) (time : Ts) : State :=
  let k := s.slotAt h
  let k' : HSlot := { k with state := .value, depth := 0, argA := 0, argB := 0, argC := 0, owner := none, creator := none,
                             time := time, strict := false }
  let s := (s.setSlot h (if k.spent then k'.freed else k')).uncount k
  k.args.foldl State.drop s

/-- A thunk whose evaluation faulted or was given up: SUSPENDED again, or freed where nothing refers to it or a strict
`SUSPR` made it (R242, R246, R248). -/
def State.unevaluate (s : State) (h : BitVec 32) : State :=
  let k := s.slotAt h
  if k.state ≠ .evaluating then s
  else if k.spent ∨ k.strict then k.args.foldl State.drop ((s.setSlot h k.freed).uncount k)
  else s.setSlot h { k with state := .suspended, owner := none }

/-- Thunks whose evaluation has faulted, with every demand that waits for one of them and so faults too (R246). -/
def State.failAll (fault : Trap) : Nat → List (BitVec 32) → State → State
  | 0, _, s => s
  | _, [], s => s
  | n + 1, h :: r, s =>
    let s := s.unevaluate h
    let (hit, rest) := s.demands.partition fun d => match d.frames with
      | (g, .waiting) :: _ => decide (g = h)
      | _ => false
    let s := hit.foldl (fun s d => s.grantDemand d.owner 0 {} (some fault)) { s with demands := rest }
    State.failAll fault n (r ++ hit.flatMap fun d => (d.frames.filter fun f => f.2.own).map (·.1)) s

/-- A demand ends in a fault (R246, R250). -/
def State.failDemand (s : State) (i : Nat) (d : Demand) (fault : Trap) : State :=
  let n := (s.demands.flatMap (·.frames)).length + 1
  let s := ({ s with demands := s.demands.eraseIdx i } : State).grantDemand d.owner 0 {} (some fault)
  s.failAll fault n ((d.frames.filter fun f => f.2.own).map (·.1))

/-- An evaluation ends: the slot is overwritten with VALUE, its arguments dropped and its waiters woken, or it faults
(R246, R248). -/
def State.evaluationComplete (s : State) (p : Nat) (slot : BitVec 11) : State :=
  let h := s.handle p slot
  let ended (d : Demand) : Option (Ts × Option Trap) := match d.frames with
    | (g, .ended t f) :: _ => if g = h then some (t, f) else none
    | _ => none
  match s.demands.findIdx? fun d => (ended d).isSome with
  | none => s
  | some i =>
    match s.demands[i]?, (s.demands[i]?).bind ended with
    | some d, some (_, some f) => s.failDemand i d f
    | some _, some (t, none) => (s.valued h t).resolve h t (s.slotAt h).tile
    | _, _ => s

def execEvaluationComplete (cluster : BitVec 10) (slot : BitVec 11) (s : State) : Host.Outcome State Fault Refusal :=
  happen (modify fun s => s.evaluationComplete cluster.toNat slot) s

/-! ## Operations (R246, R249) -/

/-- The free contexts of a cluster, lowest core first and then lowest context (R249). -/
def State.freeContexts (s : State) (p : Nat) : List CtxId :=
  ((List.range 32).map fun i => ctxOf (32 * p + i)).filter fun c => (s.ctx c).run == .free

/-- The time from which an evaluation starts: the fork, and the times of its arguments (R253). -/
def State.forkTime (s : State) (d : Demand) (k : HSlot) : Ts :=
  k.args.foldl (fun t a => if a = 0 then t else tsMax t (s.slotAt a).time) d.fork

/-- The frames of a demand replaced. -/
def State.setFrames (s : State) (i : Nat) (d : Demand) (frames : List (BitVec 32 × FrameState)) : State :=
  { s with demands := s.demands.set i { d with frames := frames } }

/-- The context for which a handle inside these frames is demanded: the one that a spark has been promoted into last, or
the demand's own (R246). -/
def State.demander (s : State) (d : Demand) (rest : List (BitVec 32 × FrameState)) : Option CtxId :=
  (firstSome (fun f => (s.slotAt f.1).owner) rest).or d.owner

/-- The innermost handle of a demand is VALUE: the demand goes on, or ends (R246). -/
def State.reached (s : State) (i : Nat) (d : Demand) (time : Ts) (tile : Tile) : State :=
  match d.reached time tile with
  | some d => { s with demands := s.demands.set i d }
  | none => ({ s with demands := s.demands.eraseIdx i } : State).grantDemand d.owner time tile none

/-- The teller looks at a handle that is demanded: it is VALUE, another evaluates it, or it is marked (R246; log 27). -/
def lookAt (i : Nat) (d : Demand) (h : BitVec 32) (rest : List (BitVec 32 × FrameState)) : Eff Unit := do
  let s ← get
  match s.slotOf h with
  | none => set (s.failDemand i d { cause := .hstale, faddr := h.setWidth 64 })
  | some k =>
    let c := s.demander d rest
    match k.state with
    | .evaluating =>
      if c.any fun c => s.selfdep c 64 h then
        let forced := ((d.frames.getLast?).map (·.1)).getD h
        set (s.failDemand i d { cause := .selfdep, faddr := forced.setWidth 64 })
      else
        let s := if k.owner = none then s.setSlot h { k with owner := c } else s
        set (s.setFrames i d ((h, .waiting) :: rest))
    | .suspended =>
      set ((s.setSlot h { k with state := .evaluating, owner := c }).setFrames i d ((h, .marked) :: rest))
    | _ => set (s.reached i d k.time k.tile)

/-- The thread of an evaluation (R253, R284). -/
def State.evalThread (s : State) (p : Nat) (d : Demand) : Thread :=
  { ctx := d.owner.getD { core := BitVec.ofNat 13 (8 * p), ctx := 0 }, cluster := p, secure := (s.launch d.queue).secure,
    asid := (s.launch d.queue).asid, queue := d.queue, lease := (s.launch d.queue).lease
    unit := none, pts := d.fork }

/-- The queue-8 job of a product (R243, R246). -/
def State.productJob (s : State) (p : Nat) (d : Demand) (for_ : Evaluates) (args : List (Nat × Tile)) (res : Tile)
    (fork : Ts) : Job :=
  let t := s.evalThread p d
  { id := 0x8000, owner := t.ctx, queue := d.queue, fork := fork, lease := t.lease,
    kind := .mma (args.headD (p, {})).2 (args.getD 1 (p, {})).2 (.tile res) false false none,
    thunk := some for_, time := fork, units := [], batch := none, failed := none }

/-- A marked thunk whose arguments are VALUE is evaluated: by the teller, as a queue-8 job, or on a borrowed context. -/
def evaluate (p i : Nat) (d : Demand) (h : BitVec 32) (k : HSlot) (rest : List (BitVec 32 × FrameState)) : Eff Unit := do
  let s ← get
  let fork := s.forkTime d k
  let args := (k.args.filter (· ≠ 0)).map fun a => (hCluster a, (s.slotAt a).tile.at_ (hCluster a) (s.slotAt a).tile.off)
  let slot := BitVec.ofNat 11 (hSlot h)
  let running := s.setFrames i d ((h, .running) :: rest)
  match k.routine, k.top with
  | true, _ =>
    match s.freeContexts p with
    | [] => waitFor .access
    | c :: _ =>
      set (running.beginRoutine c ((s.launch (s.queueOf p)).routines.getD k.ridx.toNat 0)
        ([k.argA.setWidth 64, k.argB.setWidth 64, k.argC.setWidth 64] ++ k.coord.toList) (tsMax (s.ctx c).pts fork)
        (some (p, slot)))
  | false, some .mma =>
    if !(s.cluster p).matrix.room 8 then waitFor .access
    let job := s.productJob p d (.thunk slot) args (k.tile.at_ p k.tile.off) fork
    set (running.mapEngine p false fun e => e.append 8 job)
  | false, some op =>
    match (evaluateTop (s.evalThread p d) p op k.rm args (k.tile.at_ p k.tile.off) fork).run s with
    | .ok t s' => set (s'.setFrames i d ((h, .ended t none) :: rest))
    | .error (.trap f) _ => set (s.setFrames i d ((h, .ended fork (some f)) :: rest))
    | .error e _ => throw e
  | false, none => waitFor .access

/-- The next operation of a strict `SUSP` or `SUSPR` at its teller: its next argument is demanded, or its operation is
performed (R241, R242). -/
def workStep (p i : Nat) (d : Demand) (w : Strict) : Eff Unit := do
  let s ← get
  if w.cluster ≠ p ∨ w.submitted then waitFor .access
  let ended (s : State) (t : Ts) (f : Option Trap) : State :=
    ({ s with demands := s.demands.eraseIdx i } : State).grantDemand d.owner t {} f
  match w.left, w.op with
  | h :: _, _ => set (s.setFrames i d [(h, .open)])
  | [], none => set (ended s d.fork none)
  | [], some (op, rm, res) =>
    let args := w.args.map fun e => (e.1, e.2.at_ e.1 e.2.off)
    let res := res.at_ p res.off
    if op = .mma then
      if !(s.cluster p).matrix.room 8 then waitFor .access
      let s := { s with demands := s.demands.set i { d with work := some { w with submitted := true } } }
      let job := s.productJob p d (.strict ((s.evalThread p d).ctx)) args res d.fork
      set (s.mapEngine p false fun e => e.append 8 job)
    else
      match (evaluateTop (s.evalThread p d) p op rm args res d.fork).run s with
      | .ok t s' => set (ended s' t none)
      | .error (.trap f) _ => set (ended s 0 (some f))
      | .error e _ => throw e

/-- The next operation of a demand at a teller: it looks at a handle, demands an argument, or evaluates (R246). A demand
reaches the teller the cycle after it was made (log 27). The arguments of a strict `SUSPR` have been demanded before. An
argument that is stale is looked at as a handle demanded is (R235), and the slot of one in VALUE is read (R381). -/
def demandStep (p i : Nat) : Eff Unit := do
  let s ← get
  match s.demands[i]? with
  | none => waitFor .access
  | some d =>
    if s.clock ≤ d.at_ then waitFor .access
    match d.frames with
    | (h, st) :: rest =>
      if hCluster h ≠ p then waitFor .access
      match st with
      | .open =>
        match (meetHandle (s.launch d.queue).secure h).run s with
        | .error (.trap f) _ => set (s.failDemand i d f)
        | .error e _ => throw e
        | .ok _ s' =>
          set s'
          lookAt i d h rest
      | .marked =>
        let k := s.slotAt h
        match k.args.find? fun a => a ≠ 0 ∧ k.strict = false ∧ (s.slotOf a).all (·.state ≠ .value) with
        | some a => set (s.setFrames i d ((a, .open) :: d.frames))
        | none =>
          match ((k.args.filter (· ≠ 0)).forM (meetHandle (s.launch d.queue).secure)).run s with
          | .error (.trap f) _ => set (s.failDemand i d f)
          | .error e _ => throw e
          | .ok _ s' =>
            set s'
            evaluate p i d h k rest
      | _ => waitFor .access
    | [] => match d.work with
      | some w => workStep p i d w
      | none => waitFor .access

/-- A demand that a context waits for, or a spark that one has been promoted into (R246, R250). -/
def State.demanded (s : State) (d : Demand) : Bool :=
  d.owner.isSome || d.frames.any fun f => f.2.own && (s.slotAt f.1).owner.isSome

/-- The demands in the order in which a teller serves them: the oldest first, sparks last (log 27). -/
def State.demandOrder (s : State) : List Nat :=
  let is := List.range s.demands.length
  let real (i : Nat) : Bool := match s.demands[i]? with
    | some d => s.demanded d
    | none => false
  is.filter real ++ is.filter fun i => !real i

/-- The first of these demands that has an operation ready at a teller, with that operation performed (log 27). -/
def State.tellerStep (s : State) (p : Nat) : List Nat → Option State
  | [] => none
  | i :: r => match (demandStep p i).run s with
    | .ok _ s' => some s'
    | .error _ _ => State.tellerStep s p r

/-- The teller of the cluster works: it has stopped once a pre-emption or a teardown has taken effect (R254, R377). -/
def State.tellerOn (s : State) (p : Nat) : Bool := !s.tripped && (s.launch (s.queueOf p)).live

/-- The teller takes the next ready operation of the oldest demand (R246). -/
def execTellerOperation (cluster : BitVec 10) (s : State) : Host.Outcome State Fault Refusal :=
  happen (modify fun s =>
    if s.tellerOn cluster.toNat then (s.tellerStep cluster.toNat s.demandOrder).getD s else s) s

/-- The head spark starts when no demand has an operation ready; one that is stale or not SUSPENDED is discarded, and a
routine's waits for a free context (R250). -/
def State.sparkStart (s : State) (p : Nat) : State :=
  if !s.tellerOn p || (s.tellerStep p s.demandOrder).isSome then s
  else match (s.cluster p).sparks with
    | [] => s
    | (h, pts, q) :: r =>
      let popped := s.mapCluster p fun k => { k with sparks := r }
      match s.slotOf h with
      | none => popped
      | some k =>
        if k.state ≠ .suspended then popped
        else if k.routine && (s.freeContexts p).isEmpty then s
        else
          let d : Demand := { owner := none, at_ := s.clock, queue := q, fork := pts, frames := [(h, .open)] }
          { popped with demands := popped.demands ++ [d] }

def execSparkStart (cluster : BitVec 10) (s : State) : Host.Outcome State Fault Refusal :=
  happen (modify fun s => s.sparkStart cluster.toNat) s

end Sys2Proof.Machine
end

