-- ==== Sys2Proof/Machine/KeyValue.lean ====
section
/-! DEFINITION. Key-value entries: confidence tests, exits and the arrears engine, appending and loading entries, and
`ARWAIT` (R347 to R364, R403). -/

namespace Sys2Proof.Machine

/-! ## `CONFID` (R355) -/

/-- Of two logits with their numbers, the first in the order of R355: NaN takes no part, and the lower number wins a
tie. -/
def bestLogit (a b : Option (Nat × FV)) : Option (Nat × FV) :=
  match a, b with
  | none, b => b
  | a, none => a
  | some x, some y => if x.2.ltZ y.2 then some y else some x

/-- The greatest logit that is not NaN, with the lowest number (R355). -/
def topLogit (l : List (Nat × FV)) : Option (Nat × FV) :=
  l.foldl (fun m e => if e.2.isNan then m else bestLogit m (some e)) none

/-- What `CONFID` makes of n logits and a threshold (R355). -/
def confidence (logits : List FV) (threshold : FV) : Nat × Bool :=
  let l := logits.mapIdx fun i v => (i, v)
  match topLogit l with
  | none => (logits.length, false)
  | some (c, m1) =>
    let m2 := match topLogit (l.filter fun e => e.1 ≠ c) with
      | some (_, v) => v
      | none => .inf true
    let d := fp32.decode (fpAdd fp32 .rne m1 m2.neg).1
    (c, (fpCompare .ge d threshold).1)

/-- The n logits of consecutive registers (R355). -/
def State.logits (s : State) (v : View) (a : VReg) (n : Nat) : List FV :=
  (List.range n).map fun i =>
    (viewFmt v).decode (elem (s.v (a + BitVec.ofNat 5 (i / v.elems))) v.width (i % v.elems))

/-- `CONFID` (R355). -/
def execConfid (p : Pred) (v : View) (d : XReg) (a : VReg) (b c : XReg) (n : BitVec 12) (s : State) :
    Host.Outcome State Fault Refusal :=
  guarded p (doing fun s =>
    let r := confidence (s.logits v a n.toNat) (fp32.decode ((s.x b).toNat % 2 ^ 32))
    (s.setX d (BitVec.ofNat 64 r.1)).setX c (if r.2 then 1 else 0)) s

/-! ## Coordinates and pages (R350 to R353) -/

def kvSlot (w : Word) : Nat := field w 63 52
def kvLayer (w : Word) : Nat := field w 51 44
def kvPos (w : Word) : Nat := field w 43 26
def kvQpos (w : Word) : Nat := field w 25 8

/-- A coordinate with QPOS and bits [7:0] zero (R350, R358). -/
def kvCoord (slot layer pos : Nat) : Word := BitVec.ofNat 64 (slot * 2 ^ 52 + layer * 2 ^ 44 + pos * 2 ^ 26)

/-- The virtual address of the page of an entry (R350). -/
def kvAddr (kvb : Word) (slot layer pos : Nat) : Word :=
  kvb + BitVec.ofNat 64 (slot * 2 ^ 35 + layer * 2 ^ 27 + pos / 64 * 2 ^ 15)

/-- A key-value page translated: its physical address in the world's key-value region (R350, R403). -/
def kvPage (now store : Bool) (va : Word) : Eff Nat := do
  let s ← get
  let t := s.threadOf s.active
  let acc : BitVec 4 := if store then 2 else 1
  match ← locate now t (if store then .write else .read) acc va va with
  | .mem pa =>
    let s ← get
    if !s.inKvRegion t.secure pa then fail .perm va acc
    if store && s.assayBytes pa (2 ^ 15) then fail .assayw va acc
    return pa
  | _ => fail .perm va acc

/-- KVCFG.FMT is BF16 or E4M3 (R348; log 30). -/
def checkKvFormat : Eff Unit := do
  let f := field (← get).me.kvcfg 4 0
  if f ≠ 3 ∧ f ≠ 4 then fail .fmtmix

/-- The entries are E4M3. -/
def Context.kvE4m3 (k : Context) : Bool := decide (field k.kvcfg 4 0 = 4)

/-- The states of an entry (R352). -/
abbrev kvEmpty : Nat := 0
abbrev kvAbsent : Nat := 1
abbrev kvWriting : Nat := 2
abbrev kvFinal : Nat := 3

/-- The state of entry e in a state line, from copy A (R352). -/
def kvState (d : Vec) (e : Nat) : Nat := d.toNat / 2 ^ (2 * e) % 4
/-- A state line with the state of entry e set in both copies (R352). -/
def kvSetState (d : Vec) (e v : Nat) : Vec :=
  BitVec.ofNat 1024 (setBits (setBits d.toNat (2 * e) 2 v) (512 + 2 * e) 2 v)
/-- The page word of a state line (R352). -/
def kvWord (d : Vec) : Nat := d.toNat / 2 ^ 128 % 2 ^ 64
def kvLive (d : Vec) : Bool := (kvWord d).testBit 63
def kvRetired (d : Vec) : Bool := (kvWord d).testBit 62
/-- The page word names the page of (SLOT, LAYER, POS) (R352; log 32): none names a position beyond the 262,144 of a
sequence (R361). -/
def kvMatches (d : Vec) (slot layer pos : Nat) : Bool :=
  decide (pos < 2 ^ 18) && decide (kvWord d % 2 ^ 62 = slot * 2 ^ 50 + layer * 2 ^ 42 + pos / 64 * 2 ^ 30)
/-- RETIRED set in both copies. -/
def kvRetire (d : Vec) : Vec := BitVec.ofNat 1024 (setBits (setBits d.toNat 190 1 1) 702 1 1)

/-- The state line of a page at its home. -/
def kvLine (pa : Nat) : Eff Vec := do
  modify fun s => s.l2Touch (pa / 128)
  return (← get).lineData (pa / 128)

/-- The thread of the active context. -/
def myThread : Eff Thread := do
  let s ← get
  return s.threadOf s.active

/-- Bytes of a page at an offset stored by the active context, from a pts on (R275, R351). -/
def kvStore (pa off n v : Nat) (pts : Ts) : Eff Ts := do storeUnit (← myThread) (.mem (pa + off)) n v pts

/-- Lines of a page at these offsets may be accessed at once, or the access waits. -/
def kvReady (acc : BitVec 4) (va : Word) (pa : Nat) (store : Bool) (offs : List Nat) : Eff Unit :=
  offs.forM fun o => do readyLine (← myThread) acc va (pa / 128 + o / 128) store (← get).me.pts

/-- Lines of a page may be stored to at once, or the access waits, and so it does for the host's data of a line that is to be
read: what their machine checks find comes when each is used (R359, R360). -/
def kvReachable (pa : Nat) (read : Bool) (offs : List Nat) : Eff Unit :=
  offs.forM fun o => do
    if (← get).l2Writebacks.contains (pa / 128 + o / 128) then waitFor .access
    if read then readOwned (pa / 128 + o / 128)

/-- Lines of a page that are waited for already are used: the errors in them are met (R359, R381). -/
def kvMeet (va : Word) (pa : Nat) (offs : List Nat) : Eff Unit :=
  offs.forM fun o => do
    let t ← myThread
    let line := pa / 128 + o / 128
    if ((← get).l2.find? fun x => x.line = line).isSome then meetError t.secure 2 1 line (line * 128)
    else readyFill t 2 va line

/-- A reference that an entry held is dropped at its slot (R248, R381). -/
def kvDrop (h : BitVec 32) : Eff Unit := do
  meetHandle (← myThread).secure h
  modify fun s => s.drop h

/-- A handle word of a launch's page with the physical cluster (R352); 0 where it names no placed cluster. -/
def Launch.kvHandle (l : Launch) (w : BitVec 32) : BitVec 32 :=
  match l.clusters[w.toNat / 2 ^ 22]? with
  | some p => BitVec.ofNat 10 p ++ w.setWidth 22
  | none => 0

/-- The handle that a handle word of the active context's launch holds. -/
def State.kvHandle (s : State) (w : BitVec 32) : BitVec 32 := (s.launchAt s.active).kvHandle w

/-- An `ARWAIT` waits somewhere. -/
def State.awaitsArrears (s : State) : Bool :=
  s.contexts.any fun e => match e.2.wait with
    | .arrears _ _ => true
    | _ => false

/-- The arrears records of a physical page whose entries are FINAL, or are retired with it, are removed, whatever launch
holds them (R357); each is a join for an `ARWAIT` that waits for it (R362; log 33). -/
def State.settleArrears (s : State) (page : Nat) (time : Ts) (p : Arrear → Bool) : State :=
  let gone (a : Arrear) : Bool := decide (a.page = page) && p a
  let removed := (s.arrears.filter gone).map fun a =>
    ({ coord := a.coord, at_ := s.clock, time := time } : Removal)
  { s with
    arrears := s.arrears.filter fun a => !gone a
    removals := if s.awaitsArrears then s.removals ++ removed else [] }

/-! ## `EXITK` (R349, R356, R357) -/

/-- A layer-map entry, as an ordinary 8-byte load (R349). -/
def layerEntry (l : Nat) : Eff Word := do
  let s ← get
  let va := s.me.kvmap + BitVec.ofNat 64 (8 * l)
  let t ← myThread
  let p ← locateLoad t 1 va 8
  readyUnit t 1 va p 8 s.me.pts false
  let (v, fl, pts, _) ← loadUnit t 1 p 8 s.me.pts
  modify fun s => (s.addFlags fl).mapMe fun k => { k with pts := pts }
  return BitVec.ofNat 64 v

/-- The skipped layers checked and translated, ascending (R356): layer, HOME, RIDX and the page's physical address
(log 31). -/
def exitLayers (coord : Word) : List Nat → Eff (List (Nat × Nat × BitVec 16 × Nat))
  | [] => pure []
  | l :: r => do
    let w ← layerEntry l
    let s ← get
    let launch := s.launchAt s.active
    if !w.getLsbD 63 || decide (launch.nclus ≤ field w 41 32) then fail .kvstate coord
    if launch.routines.length ≤ field w 15 0 then fail .illop
    let pa ← kvPage false true (kvAddr s.me.kvb (kvSlot coord) l (kvPos coord))
    let ls ← exitLayers coord r
    return (l, field w 41 32, w.setWidth 16, pa) :: ls

/-- The die whose engine holds a record, while its launch is placed (R357). -/
def State.arrearDie (s : State) (a : Arrear) : Option Nat := ((s.launch a.queue).clusters[a.cluster]?).map dieOfCluster

/-- The arrears records that a die's engine holds (R357). -/
def State.dieArrears (s : State) (die : Nat) : Nat := (s.arrears.filter fun a => s.arrearDie a == some die).length

/-- An exit that reached the die's engine before the active context's has markings left (R357). -/
def State.exitBefore (s : State) : Bool :=
  (s.exits.takeWhile fun c => c ≠ s.active).any fun c =>
    decide (dieOfCore c.core = dieOfCore s.active.core) && match (s.ctx c).wait with
      | .marking _ _ => true
      | _ => false

/-- One marking, as one step at the state line (R356): the thunk is made, both handle words written, the entry becomes
ABSENT and the record is kept. False when the layer is skipped. It waits for the exits that reached the engine before,
and where there is no slot or no room (log 31). -/
def markLayer (coord : Word) (h : BitVec 32) (e : Nat × Nat × BitVec 16 × Nat) : Eff Bool := do
  let (layer, home, ridx, pa) := e
  let s ← get
  if s.exitBefore then waitFor .access
  let slot := kvSlot coord
  let pos := kvPos coord
  let n := pos % 64
  let va := kvAddr s.me.kvb slot layer pos
  let offA := 0x80 + 4 * n
  let offB := 0x180 + 4 * n
  kvReady 2 va pa true [0]
  let d ← kvLine pa
  if !kvMatches d slot layer pos || !kvLive d || kvRetired d || kvState d n != kvEmpty then
    let pts ← homeLoad (← myThread) (.mem pa) 64 (← get).me.pts
    modify fun s => s.mapMe fun k => { k with pts := pts }
    return false
  kvReady 2 va pa true [offA, offB]
  let q := s.queueOf (clusterOfCore s.active.core)
  let p := (s.launch q).clusters.getD home 0
  if 4096 ≤ s.dieArrears (dieOfCore s.active.core) then waitFor .room
  match freeSlot (s.cluster p) 2048 0 with
  | none => waitFor .room
  | some i =>
    let k := s.handle p (BitVec.ofNat 11 i)
    let c := kvCoord slot layer pos
    modify fun s => (s.addRef h).setSlot k
      { gen := hGen k, state := .suspended, routine := true, refcnt := 1, depth := 1, argA := h, ridx := ridx,
        coord := some c }
    let w : BitVec 32 := BitVec.ofNat 10 home ++ k.setWidth 22
    let pts ← kvStore pa offA 4 w.toNat s.me.pts
    let pts ← kvStore pa offB 4 w.toNat pts
    let pts ← kvStore pa 0 128 (kvSetState (← kvLine pa) n kvAbsent).toNat pts
    let a : Arrear := { coord := c, page := pa, handle := w, cluster := s.logicalOf (clusterOfCore s.active.core), queue := q,
                        sparked := false, time := pts }
    modify fun s => { (s.mapMe fun x => { x with pts := pts }) with arrears := s.arrears ++ [a] }
    return true

/-- The markings of an exit, one after another; the context is WAITING until all are made (R356; log 31). -/
def markLayers (d : XReg) (coord : Word) (h : BitVec 32) (left : List (Nat × Nat × BitVec 16 × Nat)) (made : Nat) :
    Eff Next :=
  match left with
  | [] => doing fun s => s.setX d (BitVec.ofNat 64 made)
  | e :: r => do
    let one ← tryCatch (markLayer coord h e) fun x => match x with
      | .wait _ => waitFor (.marking left made)
      | x => throw x
    let made := if one then made + 1 else made
    match r with
    | [] => doing fun s => s.setX d (BitVec.ofNat 64 made)
    | _ => waitFor (.marking r made)

/-- `EXITK` (R356; log 30). -/
def execExitk (p : Pred) (d a b : XReg) (nl : BitVec 9) (s : State) : Host.Outcome State Fault Refusal :=
  guarded p (do
    let s ← get
    let coord := s.x a
    let h := s.h b
    match s.me.wait with
    | .marking left made => markLayers d coord h left made
    | _ =>
      let done ← takeDemand
      checkKvFormat
      if done.isNone then
        let _ ← checkHandle h
        ensureValue h
      if nl.toNat ≤ kvLayer coord then fail .kvstate coord
      let layers := (List.range nl.toNat).filter fun l => decide (kvLayer coord < l)
      let left ← exitLayers coord layers
      modify fun s => { s with exits := (s.exits.filter fun c => decide (c ≠ s.active) && match (s.ctx c).wait with
        | .marking _ _ => true
        | _ => false) ++ [s.active] }
      markLayers d coord h left 0) s

/-- The arrears engine of a die sparks the thunk of its oldest record not yet sparked, when the teller's spark queue has
room (R357; log 33). -/
def State.arrearsSpark (s : State) (die : Nat) : State :=
  match s.arrears.findIdx? fun a => !a.sparked && s.arrearDie a == some die with
  | none => s
  | some i =>
    match s.arrears[i]? with
    | none => s
    | some a =>
      let h := (s.launch a.queue).kvHandle a.handle
      let p := hCluster h
      if 64 ≤ (s.cluster p).sparks.length then s
      else
        let s := { s with arrears := s.arrears.set i { a with sparked := true } }
        match s.slotOf h with
        | some k =>
          if k.state = .suspended then
            s.mapCluster p fun u => { u with sparks := u.sparks ++ [(h, a.time, a.queue)] }
          else s
        | none => s

def execArrearsSpark (die : BitVec 3) (s : State) : Host.Outcome State Fault Refusal :=
  happen (modify fun s => s.arrearsSpark die.toNat) s

/-! ## `KVAPP` (R359, R360) -/

/-- The bytes that an entry's half holds: BF16's 128, or E4M3's 64 with 64 zero bytes (R351). -/
def kvHalf (e4m3 : Bool) (r : Vec) : Nat := if e4m3 then r.toNat % 2 ^ 512 else r.toNat

/-- The two scale bytes of an E4M3 register: bytes 64 and 65 (R359). -/
def kvScales (r : Vec) : Nat := r.toNat / 2 ^ 512 % 2 ^ 16

/-- An effect that a fault leaves standing: the fault is raised after it (R359, R368). -/
def keeping (e : Eff Next) : Eff Next :=
  tryCatch e fun x => match x with
    | .trap t => do
      modify fun s => s.raise s.active t
      return .stay
    | x => throw x

/-- The payload of an entry, then both scale copies, written (R359; log 32). -/
def kvWrite (va : Word) (pa e : Nat) (e4m3 : Bool) (key value : Vec) (pts : Ts) : Eff Ts := do
  let off := 0x800 + 256 * e
  kvMeet va pa [off]
  let pts ← kvStore pa off 128 (kvHalf e4m3 key) pts
  kvMeet va pa [off + 128]
  let pts ← kvStore pa (off + 128) 128 (kvHalf e4m3 value) pts
  if !e4m3 then return pts
  let w := kvScales key + kvScales value * 2 ^ 16
  kvMeet va pa [0x280 + 4 * e]
  let pts ← kvStore pa (0x280 + 4 * e) 4 w pts
  kvMeet va pa [0x380 + 4 * e]
  kvStore pa (0x380 + 4 * e) 4 w pts

/-- The lines that an append writes beside the state line, which are waited for before anything is written. -/
def kvWritten (e : Nat) (e4m3 : Bool) : List Nat :=
  [0x800 + 256 * e, 0x880 + 256 * e] ++ if e4m3 then [0x280 + 4 * e, 0x380 + 4 * e] else []

/-- The page of a state line is retired here: it is the page of the position, LIVE, and not retired before (R360). -/
def kvRetires (d : Vec) (slot layer pos : Nat) : Bool := kvMatches d slot layer pos && kvLive d && !kvRetired d

/-- The ABSENT entries of a state line, ascending. -/
def kvAbsentEntries (d : Vec) : List Nat := (List.range 64).filter fun e => kvState d e == kvAbsent

/-- The handle lines of a page that its retirement reads: those that hold the word of an ABSENT entry (R352, R360). -/
def kvHandleLines (d : Vec) : List Nat := distinct ((kvAbsentEntries d).map fun e => 0x80 + e / 32 * 0x80)

/-- The page that a plain append retires where it stands, with its virtual address and its first position (R360): none
where the append retires none, or the page is missing (log 32). Its lines are waited for before anything is written. -/
def kvRetiring (coord : Word) : Eff (Option (Word × Nat × Nat)) := do
  let s ← get
  let win := field s.me.kvcfg 12 8
  let edge := kvPos coord + 1 - 2 ^ win
  if win = 0 ∨ edge < 64 ∨ edge % 64 ≠ 0 then return none
  let pos := edge - 64
  let va := kvAddr s.me.kvb (kvSlot coord) (kvLayer coord) pos
  let page ← tryCatch (do return some (← kvPage true true va)) fun x => match x with
    | .trap _ => pure none
    | x => throw x
  match page with
  | none => return none
  | some pa =>
    kvReachable pa false [0]
    let d := (← get).lineData (pa / 128)
    if kvRetires d (kvSlot coord) (kvLayer coord) pos then kvReachable pa true (kvHandleLines d)
    return some (va, pa, pos)

/-- The allocator's line of the launch, when it has one (R348, R360; log 32). -/
def State.allocatorLine (s : State) : Option (Nat × BitVec 6) :=
  let l := s.launchAt s.active
  l.allocator.bind fun a => (l.clusters[a.toNat / 32]?).map fun p => (p, BitVec.ofNat 6 (field s.me.kvcfg 21 16))

/-- The allocator is told of a page, as an `EVMSG` tells it (R360, R308). -/
def State.tellAllocator (s : State) (msg : Word) (pts : Ts) : State × Ts :=
  match s.allocatorLine with
  | none => (s, pts)
  | some (p, l) =>
    let who := s.lineName s.active
    if (s.line p l).mode = .msg then s.appendMessage p l pts msg
    else if (s.line p l).inert who then (s, pts)
    else s.actLine p l pts fun e => e.signal who pts

/-- The handle that the word of an entry holds. -/
def State.entryHandle (s : State) (pa e : Nat) : BitVec 32 := s.kvHandle (BitVec.ofNat 32 (s.hbm.readN (pa + 0x80 + 4 * e) 4))

/-- A page retired, as one step at its state line (R360): the coordinate that the allocator is told, or none where the
page is passed over. -/
def retirePage (coord va : Word) (pa pos : Nat) (pts : Ts) : Eff (Option Word × Ts) := do
  kvMeet va pa [0]
  let d ← kvLine pa
  if !kvRetires d (kvSlot coord) (kvLayer coord) pos then return (none, pts)
  kvMeet va pa (kvHandleLines d)
  let pts ← kvStore pa 0 128 (kvRetire d).toNat pts
  (kvAbsentEntries d).forM fun e => do kvDrop ((← get).entryHandle pa e)
  modify fun s => s.settleArrears pa pts fun _ => true
  return (some (kvCoord (kvSlot coord) (kvLayer coord) pos), pts)

/-- The allocator's line has no room for a message (R308, R360). -/
def State.allocatorFull (s : State) : Bool :=
  match s.allocatorLine with
  | some (p, l) => decide ((s.line p l).mode = .msg ∧ 16 ≤ (s.line p l).queue.length)
  | none => false

/-- The end of a plain append that has retired a page: the allocator is told as an `EVMSG` tells it, so that the append
waits while its line is full, with all that it has written standing (R360; log 32). -/
def tellRetired (d : XReg) (msg : Word) (pts : Ts) : Eff Next := do
  if (← get).allocatorFull then
    modify fun s => s.mapMe fun k => { k with pts := tsMax k.pts pts }
    waitFor (.allocator msg)
  doing fun s => let (s, pts) := s.tellAllocator msg pts; (s.returned true true pts).setX d 0

/-- `KVAPP` and `KVAPP.fill` (R359, R360; log 30, 32), from the beginning. -/
def append (fill : Bool) (d a : XReg) (b c : VReg) : Eff Next := do
  checkKvFormat
  let s ← get
  let coord := s.x a
  let (slot, layer, pos) := (kvSlot coord, kvLayer coord, kvPos coord)
  let e := pos % 64
  let e4m3 := s.me.kvE4m3
  let va := kvAddr s.me.kvb slot layer pos
  let pa ← kvPage false true va
  kvReady 2 va pa true [0]
  let line ← kvLine pa
  if !kvMatches line slot layer pos || !kvLive line then fail .kvstate coord
  let off := kvRetired line || kvState line e != (if fill then kvAbsent else kvEmpty)
  if off && !fill then fail .kvstate coord
  if off then
    let pts ← homeLoad (← myThread) (.mem pa) 64 s.me.pts
    doing fun s => (s.returned true true pts).setX d 1
  else
    kvReachable pa false (kvWritten e e4m3)
    if fill then kvReachable pa true [0x80 + 4 * e]
    let plan ← if fill then pure none else kvRetiring coord
    let pts ← kvStore pa 0 128 (kvSetState line e kvWriting).toNat s.me.pts
    keeping (do
      let pts ← kvWrite va pa e e4m3 (s.v b) (s.v c) pts
      kvMeet va pa [0]
      let pts ← kvStore pa 0 128 (kvSetState (← kvLine pa) e kvFinal).toNat pts
      if fill then
        modify fun s => s.settleArrears pa pts fun r => decide (kvPos r.coord % 64 = e)
        kvMeet va pa [0x80 + 4 * e]
        kvDrop ((← get).entryHandle pa e)
      let (msg, pts) ← match plan with
        | some (va, pa, pos) => retirePage coord va pa pos pts
        | none => pure (none, pts)
      match msg with
      | some msg => tellRetired d msg pts
      | none => doing fun s => (s.returned true true pts).setX d 0)

def execKvapp (p : Pred) (d a : XReg) (b c : VReg) (s : State) : Host.Outcome State Fault Refusal :=
  guarded p (do
    let k := (← get).me
    match k.wait with
    | .allocator msg => tellRetired d msg k.pts
    | _ => append false d a b c) s

def execKvappFill (p : Pred) (d a : XReg) (b c : VReg) (s : State) : Host.Outcome State Fault Refusal :=
  guarded p (append true d a b c) s

/-! ## `KVLD` (R361) -/

/-- An entry as a `KVLD` reads it: the bits of its key and value, and its scale bytes. -/
structure KvRow where
  key : Nat
  value : Nat
  scales : Nat
  deriving DecidableEq, Repr

/-- A line of a page read as a load, from a pts on (R274). -/
def kvLoad (va : Word) (pa off : Nat) (pts : Ts) : Eff (Vec × Ts) := do
  let t ← myThread
  readyLine t 1 va (pa / 128 + off / 128) false pts
  let (d, pts, _) ← loadLine t (pa / 128 + off / 128) pts
  return (d, pts)

/-- A word of a line at an offset of its page. -/
def kvWord32 (d : Vec) (off : Nat) : Nat := d.toNat / 2 ^ (8 * (off % 128)) % 2 ^ 32

/-- The state line of an entry that a row reads, once its entry can be decided (R361): in WAIT mode an ABSENT entry is
demanded, and a WRITING one waited for. -/
def kvDecide (wait : Bool) (coord va : Word) (pa slot layer pos : Nat) (pts : Ts) : Eff (Vec × Ts) := do
  let e := pos % 64
  let (d, pts) ← kvLoad va pa 0 pts
  if !kvMatches d slot layer pos || !kvLive d then fail .kvstate va
  if !wait || kvRetired d then return (d, pts)
  if kvState d e = kvAbsent then
    let (w, pts) ← kvLoad va pa (0x80 + 4 * e) pts
    let h := (← get).kvHandle (BitVec.ofNat 32 (kvWord32 w (0x80 + 4 * e)))
    let _ ← checkHandle h
    ensureValue h
    let (d, pts) ← kvLoad va pa 0 (tsMax pts (← get).me.pts)
    if !kvRetired d && kvState d e == kvAbsent then fail .kvstate coord
    if !kvRetired d && kvState d e == kvWriting then waitFor .access
    return (d, pts)
  else
    if kvState d e = kvWriting then waitFor .access
    return (d, pts)

/-- The rows of a `KVLD`, ascending: an entry, or none where it is masked (R361; log 33). -/
def kvRows (wait : Bool) (coord : Word) (edge : Nat) : List Nat → Ts → Eff (List (Option KvRow) × Ts)
  | [], pts => pure ([], pts)
  | i :: r, pts => do
    let pos := kvPos coord + i
    let (row, pts) ← if pos < edge then pure (none, pts)
      else do
        let k := (← get).me
        let va := kvAddr k.kvb (kvSlot coord) (kvLayer coord) pos
        let pa ← kvPage false false va
        let e := pos % 64
        let (d, pts) ← kvDecide wait coord va pa (kvSlot coord) (kvLayer coord) pos pts
        if kvRetired d || kvState d e != kvFinal then pure (none, pts)
        else
          let (key, pts) ← kvLoad va pa (0x800 + 256 * e) pts
          let (value, pts) ← kvLoad va pa (0x880 + 256 * e) pts
          let (sc, pts) ← if k.kvE4m3 then kvLoad va pa (0x280 + 4 * e) pts else pure (0, pts)
          pure (some { key := kvHalf k.kvE4m3 key, value := kvHalf k.kvE4m3 value,
                       scales := kvWord32 sc (0x280 + 4 * e) }, pts)
    let (rows, pts) ← kvRows wait coord edge r pts
    return (row :: rows, pts)

/-- Row i of a tile written with an entry's key or value and its scale bytes; a masked row is zeros, with scales of 127
(R361). -/
def writeRow (m : Memory) (p : Nat) (t : Tile) (i : Nat) (row : Option (Nat × Nat)) : Memory :=
  let (v, sc) := row.getD (0, 0x7F7F)
  let m := m.writeN (p * 2 ^ 19 + t.off + i * t.stride.toNat) t.rowLen v
  if t.scale = 0 then m else m.writeN (p * 2 ^ 19 + t.scale.toNat * 128 + 4 * i) 2 sc

/-- Every row of a tile written. -/
def writeRows (m : Memory) (p : Nat) (t : Tile) (rows : List (Option (Nat × Nat))) : Memory :=
  (List.range rows.length).foldl (fun m i => writeRow m p t i (rows.getD i none)) m

/-- The tile has the format, the columns and the rows that a `KVLD` needs (R361). -/
def checkKvTiles (fmt n : Nat) (tk tv : Tile) : Eff Unit := do
  if tk.fmt.toNat ≠ fmt ∨ tv.fmt.toNat ≠ fmt then fail .fmtmix
  if tk.cols ≠ 64 ∨ tv.cols ≠ 64 ∨ tk.rows.toNat < n ∨ tv.rows.toNat < n then fail .engflt

/-- `KVLD` (R361; log 30, 33). -/
def loadEntries (wait : Bool) (tk : TReg) (a b : XReg) (tv : TReg) (n : Nat) : Eff Next := do
  let _ ← takeDemand
  checkKvFormat
  let s ← get
  let c := clusterOfCore s.active.core
  let (key, value) := (s.t tk, s.t tv)
  checkTile c key
  checkTile c value
  checkKvTiles (field s.me.kvcfg 4 0) n key value
  let coord := s.x a
  let win := field s.me.kvcfg 12 8
  let edge := if win = 0 then 0 else kvQpos coord + 1 - 2 ^ win
  let (rows, pts) ← kvRows wait coord edge (List.range n) s.me.pts
  let s ← get
  let gs := distinct (key.granules ++ value.granules)
  if !s.fillable c gs then waitFor .tags
  let pts := s.tagTime c gs (tsMax pts s.me.pts)
  let m := writeRows s.clusterMem c key (rows.map fun r => r.map fun e => (e.key, e.scales % 2 ^ 16))
  let m := writeRows m c value (rows.map fun r => r.map fun e => (e.value, e.scales / 2 ^ 16))
  let (s, pts) := ({ s with clusterMem := m } : State).stampStores c gs pts
  let mask := packElems 1 (rows.map fun r => if r.isSome then 1 else 0)
  set (((s.setTags c gs fun g => { g with v := true, c := false, time := pts }).mapMe fun k => { k with pts := pts }).setX
    b (BitVec.ofNat 64 mask))
  return .seq

def execKvldWait (p : Pred) (t : TReg) (a b : XReg) (c : TReg) (n : BitVec 7) (s : State) :
    Host.Outcome State Fault Refusal :=
  guarded p (loadEntries true t a b c n.toNat) s

def execKvldMask (p : Pred) (t : TReg) (a b : XReg) (c : TReg) (n : BitVec 7) (s : State) :
    Host.Outcome State Fault Refusal :=
  guarded p (loadEntries false t a b c n.toNat) s

/-! ## `ARWAIT` (R362) -/

/-- An `ARWAIT` of a coordinate covers an entry (R362). -/
def arwaitCovers (coord entry : Word) : Bool :=
  decide (kvSlot entry = kvSlot coord) && decide (kvPos entry ≤ kvPos coord)

/-- The records that an `ARWAIT` forces, in their order: all that any die's engine holds, of whatever launch (R362; log 33). -/
def State.owed (s : State) (coord : Word) : List Arrear :=
  sortBy (fun x y => decide (kvPos x.coord * 256 + kvLayer x.coord ≤ kvPos y.coord * 256 + kvLayer y.coord))
    (s.arrears.filter fun r => (s.arrearDie r).isSome && arwaitCovers coord r.coord)

/-- The greatest time at which a record that an `ARWAIT` covers was removed from a cycle on (R362). -/
def State.settled (s : State) (coord : Word) (since : Nat) (t : Ts) : Ts :=
  (s.removals.filter fun r => decide (since ≤ r.at_) && arwaitCovers coord r.coord).foldl (fun t r => tsMax t r.time) t

/-- `ARWAIT` (R362; log 30, 33). The records are the engines' own, so that no placement bounds the thunks that are forced. -/
def execArwait (p : Pred) (a : XReg) (s : State) : Host.Outcome State Fault Refusal :=
  guarded p (do
    let _ ← takeDemand
    checkKvFormat
    let s ← get
    let coord := s.x a
    let since := match s.me.wait with
      | .arrears n _ => n
      | _ => s.clock
    match s.owed coord with
    | [] => doing fun s => s.mapMe fun k => { k with pts := s.settled coord since k.pts }
    | r :: _ =>
      let h := (s.launch r.queue).kvHandle r.handle
      let k ← tryCatch (liveSlot h) fun x => match x with
        | .wait _ => waitFor (.arrears since false)
        | x => throw x
      if k.state = .value then fail .kvstate r.coord
      tryCatch (ensureValue h) fun x => match x with
        | .wait _ => waitFor (.arrears since true)
        | x => throw x
      return .seq) s

end Sys2Proof.Machine
end

