-- ==== Sys2Proof/Machine/Trap.lean ====
section
/-! DEFINITION. Traps, the return from one, replays, the context record, and retirement (R84, R129, R342 to R344, R368 to
R372, R374, R378, R383, R384). -/

namespace Sys2Proof.Machine

/-! ## `TRAP`, `ERET`, `ILL` (R129, R371) -/

/-- `TRAP`: the fault TRAP with its code, which R368 delivers (R371). -/
def execTrap (p : Pred) (code : BitVec 16) (s : State) : Host.Outcome State Fault Refusal :=
  guarded p (trapWith { cause := .trap, faddr := code.setWidth 64, tcode := code }) s

/-- `ILL` raises ILLOP under every predicate, in every phase (R129). -/
def execIll (s : State) : Host.Outcome State Fault Refusal := perform (fail .illop) s

/-- The context after it has been resumed at its EPC (R84, R114, R331): the TGT check is made only where an `MTC` or
`CREST` has written EPC, and `src` is the transferring program counter (log 35). -/
def Context.resumeAtEpc (k : Context) (src : Word) : Context :=
  { k with
    run := .running, pc := k.trap.epc, entry := if k.trap.epcWritten then .transfer src else .plain, line := none
    wait := .none, grant := .none, latched := none, forwarded := false
    trap := { k.trap with resumed := true, record := none } }

/-- The run of faults of a context whose instruction has completed (R331). -/
def Context.endRun (k : Context) : Context :=
  let run := match k.trap.run with
    | some f => if f.epc = k.pc then none else some f
    | none => none
  { k with trap := { k.trap with run := run } }

/-- `ERET`: the handler is left for EPC (R114, R371). -/
def execEret (p : Pred) (s : State) : Host.Outcome State Fault Refusal :=
  guarded p (do
    let k := (← get).me
    if !k.trap.intrap then fail .illop
    if !pcOk k.trap.epc then fail .badtgt k.trap.epc
    stay fun s => s.mapMe fun k =>
      let k := k.endRun
      { k with trap := { k.trap with intrap := false } }.resumeAtEpc k.pc) s

/-! ## The save area (R374, R375) -/

/-- The bytes of a cluster image (R374). -/
abbrev imageBytes : Nat := 2 ^ 21

/-- The physical address of the image of a logical cluster of a queue (R374). -/
def State.imageBase (s : State) (q : BitVec 6) (c : Nat) : Nat :=
  let w := s.world (queueSecure q)
  field w.savebase 51 21 * 2 ^ 21 + q.toNat % 32 * 2 ^ w.savelog2.toNat + c * imageBytes

/-- The physical address of the record of a saved context, by its number 4 x logical core + context (R375). -/
def State.recordBase (s : State) (q : BitVec 6) (key : Nat) : Nat :=
  s.imageBase q (key / 32) + 0xE_0000 + 0x2000 * (key % 32)

/-! ## Replays (R84, R372) -/

/-- A FAULTED context is resumed at its EPC by a replay; a malformed EPC raises BADTGT there (R84, R114; log 35). -/
def State.replay (s : State) (c : CtxId) (pts : Option Ts) : State :=
  let s := s.mapCtx c fun k =>
    { k with pts := match pts with | some t => tsMax k.pts t | none => k.pts }.resumeAtEpc 0
  let pc := (s.ctx c).pc
  if pcOk pc then s else s.raise c { cause := .badtgt, faddr := pc }

/-- The context that a replay register or x[A] names: core [12:0], context [14:13] (R83, R372). -/
def targetCtx (w : Word) : CtxId := { core := w.setWidth 13, ctx := BitVec.ofNat 2 (field w 14 13) }

/-- A pre-empted launch whose saved context of this physical core and number is FAULTED (R372): its queue, and the
number of the context by logical core. The launch is one of the world that the cluster is in (R85); of several, the one
of the lowest queue, which is the MODEL's choice (log 35). -/
def State.savedTarget (s : State) (c : CtxId) : Option (BitVec 6 × Nat) :=
  firstSome (fun (e : Nat × Queue) =>
    match e.2.admitted.bind (·.saved) with
    | none => none
    | some im =>
      if queueSecure (BitVec.ofNat 6 e.1) != (s.cluster (clusterOfCore c.core)).secure then none
      else match im.clusters.findIdx? (· = clusterOfCore c.core) with
      | none => none
      | some i =>
        let key := 4 * (8 * i + c.core.toNat % 8) + c.ctx.toNat
        if (SMap.at im.contexts .reset key).run = .faulted then some (BitVec.ofNat 6 e.1, key) else none) s.queues

/-- A saved context changed by a function (R372). -/
def State.mapSaved (s : State) (q : BitVec 6) (key : Nat) (f : Context → Context) : State :=
  s.mapLaunch q fun l => { l with saved := l.saved.map fun im =>
    { im with contexts := SMap.put im.contexts key (f (SMap.at im.contexts .reset key)) } }

/-- A replay of a saved context is held: it takes effect when its launch is restored, and a join goes into its save record
(R372). -/
def State.hold (s : State) (q : BitVec 6) (key : Nat) (pts : Option Ts) : State :=
  let s := s.mapSaved q key fun k => { k with trap := { k.trap with resumed := true } }
  let at_ := s.recordBase q key + 0x1330
  match pts with
  | some t => s.pokeHome (queueSecure q) at_ 8 (tsMax (BitVec.ofNat 20 (s.hbm.readN at_ 8)) t).toNat
  | none => s

/-- The lines of n bytes at an offset of the save record of a target that a pre-emption has saved (R372). -/
def State.savedLines (s : State) (c : CtxId) (off n : Nat) : List Nat :=
  match if (s.ctx c).run = .faulted then none else s.savedTarget c with
  | none => []
  | some (q, key) =>
    let first := (s.recordBase q key + off) / 128
    (List.range ((n + 127) / 128)).map (first + ·)

/-- A replay of a context, on its core or in its save record; true when it acted (R84, R372; log 35). -/
def State.replayTarget (s : State) (c : CtxId) (pts : Option Ts) : State × Bool :=
  if (s.ctx c).run = .faulted then (s.replay c pts, true)
  else match s.savedTarget c with
    | some (q, key) => (s.hold q key pts, true)
    | none => (s, false)

/-- The checks of the three supervisor instructions (R372): the target they name (log 35). -/
def supervisorTarget (a : XReg) : Eff CtxId := do
  let s ← get
  if !s.supervisor s.active then fail .illop
  let c := targetCtx (s.x a)
  let p := clusterOfCore c.core
  if !s.enabled p || (s.cluster p).secure != (s.launchAt s.active).secure then fail .world (s.x a)
  if s.me.dout ≠ 0 then waitFor .join
  return c

/-- `REPLAY` (R372). -/
def execReplay (p : Pred) (d a : XReg) (s : State) : Host.Outcome State Fault Refusal :=
  guarded p (do
    let c ← supervisorTarget a
    readOwnedAll ((← get).savedLines c 0x1330 8)
    doing fun s =>
      let (s, acted) := s.replayTarget c (some s.me.pts)
      s.setX d (if acted then 0 else 1)) s

/-- A write of the replay register of a world (R83, R84): ignored where the context is not FAULTED, its core is disabled
or its cluster belongs to the other world. -/
def State.replayWrite (s : State) (secure : Bool) (w : Word) : State :=
  let c := targetCtx w
  let p := clusterOfCore c.core
  if !s.ready || !s.enabled p || (s.cluster p).secure != secure then s else (s.replayTarget c none).1

def execReplayRegisterWrite (secure : Bool) (v : Word) (s : State) : Host.Outcome State Fault Refusal :=
  happen (modify fun s => s.replayWrite secure v) s

/-! ## The context record (R378) -/

/-- The second word of a tile register in a record (R378). -/
def Tile.pack (t : Tile) : Nat :=
  t.fmt.toNat + t.rows.toNat * 2 ^ 8 + t.cols.toNat * 2 ^ 16 + t.stride.toNat * 2 ^ 32 + t.scale.toNat * 2 ^ 48

/-- A tile register from the two words of a record (R378). -/
def tileOf (addr w : Nat) : Tile :=
  let w : Word := BitVec.ofNat 64 w
  { addr := BitVec.ofNat 64 addr, fmt := w.setWidth 5, rows := BitVec.ofNat 7 (field w 14 8),
    cols := BitVec.ofNat 8 (field w 23 16), stride := BitVec.ofNat 13 (field w 44 32),
    scale := BitVec.ofNat 12 (field w 59 48) }

/-- The control registers of a record, in order (R378). -/
def recordRegs : List CReg :=
  [.roundm, .fflags, .allow, .depthlim, .pts, .lease, .status, .tvec, .cause, .fcause, .faddr, .epc, .kvb, .kvmap,
   .kvcfg]

/-- The codes of the run states in a record (R378). -/
def RunState.code : RunState → Nat
  | .free => 0
  | .running => 1
  | .waiting => 2
  | .faulted => 3

/-- Where a context of the launch resumes: the EPC of a FAULTED context, otherwise its program counter (log 36). -/
def Context.resumePc (k : Context) : Word := if k.run = .faulted then k.trap.epc else k.pc

/-- Digits of n bytes from an offset on: (offset, bytes, value). -/
def spread (n : Nat) : Nat → List Nat → List (Nat × Nat × Nat)
  | _, [] => []
  | off, v :: r => (off, n, v) :: spread n (off + n) r

/-- The fields of the record of a context: offset, bytes and value; every other byte is zero (R378; log 36). -/
def State.recordFields (s : State) (c : CtxId) : List (Nat × Nat × Nat) :=
  let k := s.ctx c
  spread 8 0 ((k.regs.x.toList.set 0 0).map (·.toNat)) ++ spread 128 0x200 (k.regs.v.toList.map (·.toNat)) ++
    spread 16 0x1200 (k.regs.m.toList.map (·.toNat)) ++
    spread 8 0x1280 (k.regs.t.toList.flatMap fun t => [t.addr.toNat, t.pack]) ++
    [(0x1300, 8, k.resumePc.toNat), (0x1308, 8, k.run.code)] ++
    spread 8 0x1310 (recordRegs.map fun r => (s.readReg c r).toNat) ++ [(0x1388, 8, k.thunks)] ++
    match k.trap.record with
    | some f => spread 8 0x1390 [f.w0.toNat, f.w1.toNat, f.w2.toNat, f.w3.toNat]
    | none => []

/-- The 8 KB of a record as one number. -/
def packFields (l : List (Nat × Nat × Nat)) : Nat := l.foldl (fun n f => n + f.2.2 % 2 ^ (8 * f.2.1) * 2 ^ (8 * f.1)) 0

/-- n bytes of a record at an offset. -/
def recordAt (r off n : Nat) : Nat := r / 2 ^ (8 * off) % 2 ^ (8 * n)

/-- The registers that a record gives (R378). -/
def recordFile (r : Nat) : RegFile :=
  { x := Vector.ofFn fun (i : Fin 64) => if i.val = 0 then 0 else BitVec.ofNat 64 (recordAt r (8 * i.val) 8),
    v := Vector.ofFn fun (i : Fin 32) => BitVec.ofNat 1024 (recordAt r (0x200 + 128 * i.val) 128),
    m := Vector.ofFn fun (i : Fin 8) => BitVec.ofNat 128 (recordAt r (0x1200 + 16 * i.val) 16),
    t := Vector.ofFn fun (i : Fin 8) => tileOf (recordAt r (0x1280 + 16 * i.val) 8) (recordAt r (0x1288 + 16 * i.val) 8) }

/-- A control register of a record, by its place in the order of R378. -/
def recordReg (r i : Nat) : Word := BitVec.ofNat 64 (recordAt r (0x1310 + 8 * i) 8)

/-- The restorable fields of a record written into a context, with the checks of `MTC`, and EPC marked as written
(R372, R378; log 36). -/
def Context.restore (k : Context) (r : Nat) : Context :=
  let k := { k with regs := recordFile r, pc := BitVec.ofNat 64 (recordAt r 0x1300 8) }
  [(CReg.roundm, 0), (.fflags, 1), (.allow, 2), (.depthlim, 3), (.status, 6), (.tvec, 7), (.kvb, 12), (.kvmap, 13),
    (.kvcfg, 14), (.epc, 11)].foldl (fun k e => k.writeReg e.1 (recordReg r e.2)) k

/-- The bytes of the record of a target that is FAULTED, on its core or in its save record (R372): none where it is
not FAULTED. -/
def State.targetRecord (s : State) (c : CtxId) : Option Nat :=
  if (s.ctx c).run = .faulted then some (packFields (s.recordFields c))
  else (s.savedTarget c).map fun e => s.hbm.readN (s.recordBase e.1 e.2) 0x2000

/-- The effect of the restorable fields on a save record: those that its own checks admit (R372, R378; log 36). -/
def restoreImage (old new : Nat) : Nat :=
  let k := ({ Context.reset with
    roundm := BitVec.ofNat 3 (recordAt old 0x1310 8), allow := BitVec.ofNat 12 (recordAt old 0x1320 8),
    depthlim := BitVec.ofNat 7 (recordAt old 0x1328 8), kvcfg := recordReg old 14,
    trap := { ({} : TrapRegs) with tvec := recordReg old 7 } } : Context).restore new
  let f := k.regs
  packFields (spread 8 0 (f.x.toList.map (·.toNat)) ++ spread 128 0x200 (f.v.toList.map (·.toNat)) ++
    spread 16 0x1200 (f.m.toList.map (·.toNat)) ++
    spread 8 0x1280 (f.t.toList.flatMap fun t => [t.addr.toNat, t.pack]) ++
    [(0x1300, 8, k.pc.toNat), (0x1308, 8, recordAt old 0x1308 8)] ++
    spread 8 0x1310 [k.roundm.toNat, k.fflags.toNat, k.allow.toNat, k.depthlim.toNat, recordAt old 0x1330 8,
      recordAt old 0x1338 8,
      ((recordReg old 6 &&& 0x8000_0000_0000_0000) + (if k.trap.intrap then 0x100 else 0) + k.trap.vec.setWidth 64).toNat,
      k.trap.tvec.toNat, recordAt old 0x1350 8, recordAt old 0x1358 8, recordAt old 0x1360 8, k.trap.epc.toNat,
      k.kvb.toNat, k.kvmap.toNat, k.kvcfg.toNat] ++
    [(0x1388, 0x2000 - 0x1388, recordAt old 0x1388 (0x2000 - 0x1388))])

/-- The restorable fields of a record written into a FAULTED target (R372). -/
def State.restoreTarget (s : State) (c : CtxId) (r : Nat) : State :=
  if (s.ctx c).run = .faulted then s.mapCtx c fun k => k.restore r
  else match s.savedTarget c with
    | some (q, key) =>
      let at_ := s.recordBase q key
      let s := s.pokeHome (queueSecure q) at_ 0x2000 (restoreImage (s.hbm.readN at_ 0x2000) r)
      s.mapSaved q key fun k => { k with trap := { k.trap with epcWritten := true } }
    | none => s

/-- The record address of `CSAVE` and `CREST`: a multiple of 128 (R372). -/
def recordAddr (b : XReg) (acc : BitVec 4) : Eff Word := do
  let va := (← get).x b
  if va.toNat % 128 ≠ 0 then fail .align va acc
  return va

/-- `CSAVE` (R372). -/
def execCsave (p : Pred) (d a b : XReg) (s : State) : Host.Outcome State Fault Refusal :=
  guarded p (do
    let c ← supervisorTarget a
    let va ← recordAddr b 2
    readOwnedAll ((← get).savedLines c 0 0x2000)
    match (← get).targetRecord c with
    | none => doing fun s => s.setX d 1
    | some r =>
      let t ← myThread
      let find := fun va => locate false t .write 2 va va
      let parts := partsOf va 0x2000
      readyRange find t 2 true s.me.pts parts
      let pts ← writeRange find t 2 parts r (← get).me.pts
      doing fun s => (s.returned true true pts).setX d 0) s

/-- `CREST` (R372). -/
def execCrest (p : Pred) (d a b : XReg) (s : State) : Host.Outcome State Fault Refusal :=
  guarded p (do
    let c ← supervisorTarget a
    let va ← recordAddr b 1
    readOwnedAll ((← get).savedLines c 0 0x2000)
    if ((← get).targetRecord c).isNone then doing fun s => s.setX d 1
    else
      let t ← myThread
      let find := fun va => locate false t .read 1 va va
      let (r, pts) ← readRange find t 1 (partsOf va 0x2000) (← get).me.pts
      doing fun s => ((s.restoreTarget c r).returned false true pts).setX d 0) s

/-! ## Retirement (R383, R384) -/

/-- `HALT`: the routine ends, and its context is free (R383). -/
def halt (retain : Bool) : Eff Next := do
  if (← get).me.borrowed.isSome then fail .illop
  stay fun s =>
    let c := s.active
    let q := s.queueOf (clusterOfCore c.core)
    let s := s.mapCore c.core.toNat fun k => { k with retained := k.retained || retain, halts := k.halts + 1 }
    let s := (s.mapLaunch q fun l => { l with halts := l.halts + 1 }).freeCtx c
    s.recheckEpisodes q

def execHalt (p : Pred) (s : State) : Host.Outcome State Fault Refusal := guarded p (halt false) s

def execHaltRetain (p : Pred) (s : State) : Host.Outcome State Fault Refusal := guarded p (halt true) s

/-- `TRACE`: a record posted to the die's ring; it waits for nothing but, as any instruction of class X, the pts of its
context's last access (R277, R343, R344). -/
def execTrace (p : Pred) (a b : XReg) (tag : BitVec 16) (s : State) : Host.Outcome State Fault Refusal :=
  perform (do
    replied
    under p (doing fun s =>
      let l := s.launchAt s.active
      s.trace l.secure (dieOfCore s.active.core) 0 s.active (BitVec.ofNat 8 l.sstep) tag (s.x a) l.launchid
        ((s.x b).setWidth 32))) s

end Sys2Proof.Machine
end

