-- ==== Sys2Proof/Machine/Admission.lean ====
section
/-! DEFINITION. The launch queues and admission: the submitting writes, the reading and checking of a launch record and
its tables, rejection, and the completion record (R26 to R40, R44 to R51, R54, R58, R388). -/

namespace Sys2Proof.Machine

/-! ## Writes of the queue blocks (R45, R46, R48, R51, R58, R60) -/

/-- A QSUB write: one whose value is misaligned is discarded with BADW alone, also where the queue is full (R45, R46, R401;
log 62). -/
def State.qsub (s : State) (q : BitVec 6) (v : Word) : State :=
  if !s.ready || v.toNat % 128 != 0 then s.mapQueue q fun k => { k with badw := true }
  else s.appendHost q { addr := v, virt := none, by_ := none }

def execQsub (q : BitVec 6) (v : Word) (s : State) : Host.Outcome State Fault Refusal :=
  happen (modify fun s => (s.qsub q v).decision (queueSecure q)) s

/-- A write of TICKETS (R45, R48). -/
def State.writeTickets (s : State) (q : BitVec 6) (v : Word) : State :=
  let n := v.toNat % 2 ^ 11
  if s.ready && decide (1 ≤ n) && decide (n ≤ 1024) then s.mapQueue q fun k => { k with tickets := BitVec.ofNat 11 n }
  else s

/-- A write of the word 0x20 of a queue block: ENABLE, and a pre-emption request. A superstep that has been granted and has
not begun does not start any more where ENABLE is 0; the clusters that a decision has given the launch it still takes, and
keeps without running (R45, R51, R55, R58, R60; log 39). -/
def State.writeControl (s : State) (q : BitVec 6) (v : Word) : State :=
  if !s.ready then s
  else
    let s := s.mapQueue q fun k => { k with enable := v.getLsbD 0 }
    let s := if v.getLsbD 0 || (s.launch q).phase != .boundary then s else s.mapLaunch q fun l => { l with start := none }
    if v.getLsbD 1 then s.requestPreempt q (v.getLsbD 2) else s

def execTickets (q : BitVec 6) (v : Word) (s : State) : Host.Outcome State Fault Refusal :=
  happen (modify fun s => (s.writeTickets q v).decision (queueSecure q)) s

def execPreempt (q : BitVec 6) (v : Word) (s : State) : Host.Outcome State Fault Refusal :=
  happen (modify fun s => (s.writeControl q v).decision (queueSecure q)) s

def execEnable (q : BitVec 6) (v : Word) (s : State) : Host.Outcome State Fault Refusal :=
  happen (modify fun s => (s.writeControl q v).decision (queueSecure q)) s

/-! ## Admission reads (R30, R31) -/

/-- Why admission stops: a code of R32, or a line of HBM that the host owns and whose data is asked back first (R336; log
61). -/
inductive AdmStop where
  | code (c : BitVec 8)
  | owned (line : Nat)
  deriving DecidableEq, Repr

/-- What admission finds, or why it stops. -/
abbrev Adm := Except AdmStop

/-- A check at admission, with its code. -/
def must (c : BitVec 8) (b : Bool) : Adm Unit := if b then .ok () else .error (.code c)

/-- Lines of HBM may be read: none of them is owned by the host (R336). -/
def State.mustHold (s : State) (lines : List Nat) : Adm Unit :=
  match lines.find? fun l => s.hostCoherent l && s.hostOwned.contains l with
  | some l => .error (.owned l)
  | none => .ok ()

/-- The place in memory of a device physical address (R345). -/
def placeAt (pa : Nat) : Place := if 2 ^ 51 ≤ pa then .host (pa - 2 ^ 51) else .mem pa

/-- The device physical address of a place in memory (R345). -/
def Place.device : Place → Nat
  | .mem pa | .purse pa _ => pa
  | .host ha => 2 ^ 51 + ha
  | .win _ off => off

/-- A byte that admission reads: of a line in an assay view the decoded data, as a load would find it (R31, R101). -/
def State.admByte (s : State) (p : Place) : Nat :=
  match p with
  | .mem pa => (s.l2Touch (pa / 128)).peekByte p
  | _ => s.peekByte p

/-- n bytes that admission reads at a place. A line of a view that cannot be filled is not readable (R31, R102; log 61). -/
def State.admRead (s : State) (p : Place) (n : Nat) : Adm Nat :=
  let byte (i : Nat) : Place := match p with
    | .mem pa => .mem (pa + i)
    | .host ha => .host (ha + i)
    | p => p
  match p with
  | .mem pa => do
    let lines := (List.range ((pa + n - 1) / 128 - pa / 128 + 1)).map (pa / 128 + ·)
    s.mustHold (lines ++ lines.flatMap s.sourceLines)
    must 3 (lines.all fun l => (s.fillFault l).isNone)
    if lines.all fun l => (s.viewOf l).isNone then .ok (s.hbm.readN pa n)
    else .ok (packElems 8 ((List.range n).map fun i => s.admByte (byte i)))
  | _ => .ok (packElems 8 ((List.range n).map fun i => s.admByte (byte i)))

/-- A user address of an ASID, for a read or a write of the scheduler: code 0x03 for whatever R31 rejects. -/
def State.tablePlace (s : State) (secure write : Bool) (asid : BitVec 16) (va : Word) : Adm Place := do
  must 3 (isUser va)
  s.mustHold (s.walkLines secure asid va)
  match s.walk secure asid va with
  | .error _ => .error (.code 3)
  | .ok e =>
    let pa := e.pa va
    must 3 ((e.type == 0 || e.type == 3) && (if write then e.w else e.r) && e.world == secure && s.secureMem pa == secure &&
      !(decide (pa < 2 ^ 51) && decide (s.hbmEnd ≤ pa)))
    .ok (placeAt pa)

/-- A physical address read for a queue's record (R31, R73): in HBM of the queue's world, or in host memory. -/
def State.physPlace (s : State) (secure : Bool) (pa : Nat) : Adm Place := do
  must 3 (decide (pa < 2 ^ 52) && s.secureMem pa == secure && !(decide (pa < 2 ^ 51) && decide (s.hbmEnd ≤ pa)))
  .ok (placeAt pa)

/-- n bytes of a table as one number, a page at a time. -/
def State.readTable (s : State) (secure : Bool) (asid : BitVec 16) : Nat → Word → Nat → Adm Nat
  | 0, _, _ => .ok 0
  | f + 1, va, n => do
    if n = 0 then .ok 0
    else
      let k := min n (2 ^ 16 - va.toNat % 2 ^ 16)
      let p ← s.tablePlace secure false asid va
      let x ← s.admRead p k
      let r ← State.readTable s secure asid f (va + BitVec.ofNat 64 k) (n - k)
      .ok (x + r * 2 ^ (8 * k))

/-- Word i of a table. -/
def tableWord (r i : Nat) : Word := BitVec.ofNat 64 (r / 2 ^ (64 * i))

/-- A table at an aligned address read, or code 0x03. -/
def State.admTable (s : State) (secure : Bool) (asid : BitVec 16) (va : Word) (align n : Nat) : Adm Nat := do
  must 3 (va.toNat % align = 0)
  s.readTable secure asid (n / 2 ^ 16 + 2) va n

/-- The record of a queue entry (R30, R31). -/
def State.readRecord (s : State) (q : BitVec 6) (e : QueueEntry) : Adm Nat :=
  match e.virt with
  | some (asid, _) => s.readTable (queueSecure q) asid 2 e.addr 128
  | none => do
    let p ← s.physPlace (queueSecure q) e.addr.toNat
    s.admRead p 128

/-! ## The tables (R35 to R40) -/

/-- The entries of a list: (routine-table index, ARG) (R36). -/
def listEntries (r n : Nat) : List (BitVec 16 × BitVec 16) :=
  (List.range n).map fun i =>
    let w : BitVec 32 := BitVec.ofNat 32 (r / 2 ^ (32 * i))
    (BitVec.ofNat 16 (w.toNat / 2 ^ 16), w.setWidth 16)

/-- A superstep as its table entry, directory and lists give it, with the consistency of its entry and its lists
(R35, R36); the second is checked only after every table has been read (R32; log 37). -/
def State.readStep (s : State) (secure : Bool) (asid : BitVec 16) (nclus nrout tab i : Nat) :
    Adm (SuperstepPlan × Bool) := do
  let w2 := tableWord tab (4 * i + 2)
  let dir ← s.admTable secure asid (tableWord tab (4 * i)) 16 (nclus * 128)
  let lists ← (List.range (8 * nclus)).mapM fun k => do
    let n := (tableWord dir (2 * k + 1)).toNat % 2 ^ 16
    let r ← s.admTable secure asid (tableWord dir (2 * k)) 4 (4 * n)
    .ok (k, listEntries r n)
  let slen := field w2 58 42
  let settles := w2.getLsbD 59
  let ok := decide (field w2 41 0 = 0) && decide (tableWord tab (4 * i + 3) = 0) &&
    (if settles then decide (1 ≤ slen) && decide (slen ≤ 65536) else decide (slen = 0)) &&
    (List.range (8 * nclus)).all (fun k => decide ((tableWord dir (2 * k + 1)).toNat < 2 ^ 16)) &&
    lists.all fun e => e.2.all fun x => decide (x.1.toNat < nrout)
  .ok ({ domain := BitVec.ofNat 4 (field w2 63 60), settles := settles, slen := slen,
         lists := lists.filter fun e => !e.2.isEmpty }, ok)

/-- A barrier domain, with the consistency of its entry (R39). -/
def readDomain (nclus tab d : Nat) : Domain × Bool :=
  let e := tab / 2 ^ (2048 * d) % 2 ^ 2048
  let w := tableWord e 16
  ({ valid := w.getLsbD 63, clusters := BitVec.ofNat 1024 e, cores := w.setWidth 8 },
    decide (e % 2 ^ 1024 < 2 ^ nclus) && decide (field w 62 8 = 0) && decide (e / 2 ^ 1088 = 0))

/-- The stage map, with its consistency (R38; log 37). -/
def readStages (nclus stages : Nat) (map : Option Nat) : List (BitVec 6) × Bool :=
  match map with
  | none => (List.replicate nclus 0, decide (stages = 1))
  | some r =>
    let b := (List.range nclus).map fun c => r / 2 ^ (8 * c) % 256
    (b.map (BitVec.ofNat 6), b.all (fun x => decide (x < stages)) && (List.range stages).all fun st => b.contains st)

/-! ## The checks (R32) -/

/-- Checks 3: the counts, LAUNCHID and the reserved fields of the record (R30, R32). -/
def recordCounts (r : Nat) : Bool :=
  let w := tableWord r
  let stages := field (w 0) 47 40
  let nclus := field (w 0) 31 16
  decide (1 ≤ stages) && decide (stages ≤ 64) && decide (1 ≤ field (w 0) 39 32) && decide (1 ≤ nclus) &&
    decide (nclus ≤ 1024) && decide (field (w 10) 63 52 ≤ 2048) && decide (field (w 10) 51 45 ≤ 64) &&
    decide (field (w 9) 63 32 ≠ 0) && decide (field (w 0) 15 3 = 0) && decide (field (w 7) 15 0 = 0) &&
    decide (field (w 10) 44 0 = 0) && decide (field (w 11) 47 0 = 0) && decide (r / 2 ^ 768 % 2 ^ 256 = 0)

/-- The launches of a world that are admitted and not complete, by LAUNCHID. -/
def State.live (s : State) (secure : Bool) : List (BitVec 32) :=
  (worldQueues secure).filterMap fun q => (s.queue q).admitted.map (·.launchid)

/-- The image header and the routine table (R27, R29, R32 check 7). -/
def State.readImage (s : State) (secure : Bool) (asid : BitVec 16) (image : Word) : Adm (List Word) := do
  let h ← s.admTable secure asid image 128 128
  let w := tableWord h
  must 1 (field (w 0) 63 32 = 0x5649_4D47 && field (w 0) 31 16 = 1)
  let nrout := field (w 0) 15 0
  must 2 (1 ≤ nrout && field (w 2) 31 0 = 0 && h / 2 ^ 384 % 2 ^ 640 = 0)
  must 3 ((w 1).toNat % 64 = 0 && (w 4).toNat % 128 = 0)
  let t ← s.admTable secure asid (w 3) 8 (8 * nrout)
  .ok ((List.range nrout).map (tableWord t))

/-- A store of n bytes at a place would change bytes of an assay view's range, which only `CPYA` writes (R103). -/
def State.assayPlace (s : State) (p : Place) (n : Nat) : Bool := match p with
  | .mem pa => s.assayBytes pa n
  | _ => false

/-- The place of DONE, or code 0x03 where it is not usable (R31, R32, R103; log 37). -/
def State.donePlace (s : State) (secure : Bool) (asid : BitVec 16) (done : Word) : Adm Place := do
  must 3 (done.toNat % 64 = 0)
  let p ← s.tablePlace secure true asid done
  must 3 (!s.assayPlace p 64)
  .ok p

/-- The checks of admission in their order, and the launch they admit (R30 to R40, R163; log 37). -/
def State.checkRecord (s : State) (q : BitVec 6) (e : QueueEntry) (r : Nat) : Adm Launch := do
  let secure := queueSecure q
  let w := tableWord r
  must 1 (field (w 0) 63 48 = 1)
  must 2 (recordCounts r)
  must 4 ((w 0).getLsbD 1 == secure)
  let id : BitVec 32 := BitVec.ofNat 32 (field (w 9) 63 32)
  must 7 (!(s.live secure).contains id)
  let nclus := field (w 0) 31 16
  must 5 (nclus ≤ (s.worldClusters secure).length)
  let asid : BitVec 16 := match e.virt with
    | some (a, _) => a
    | none => BitVec.ofNat 16 (field (w 7) 35 20)
  let routines ← s.readImage secure asid (w 1)
  must 3 ((w 2).toNat % 8 = 0)
  let nstep := field (w 0) 39 32
  let tab ← s.admTable secure asid (w 3) 32 (32 * nstep)
  let steps ← (List.range nstep).mapM (s.readStep secure asid nclus routines.length tab)
  let map ← if w 4 = 0 then .ok none else (s.admTable secure asid (w 4) 1 nclus).map some
  let dom ← s.admTable secure asid (w 5) 128 4096
  let ndep := field (w 7) 19 16
  let deps ← s.admTable secure asid (w 6) 4 (4 * ndep)
  let done ← s.donePlace secure asid (w 8)
  let domains := (List.range 16).map (readDomain nclus dom)
  let stages := readStages nclus (field (w 0) 47 40) map
  let named (p : SuperstepPlan) : Bool := match domains[p.domain.toNat]? with
    | some (d, _) => (List.range (8 * nclus)).any d.member
    | none => false
  must 6 (steps.all (fun p => p.2 && named p.1) && stages.2 && domains.all (·.2))
  let producers := ((List.range ndep).map fun i => (BitVec.ofNat 32 (deps / 2 ^ (32 * i)) : BitVec 32)).filter
    (s.live secure).contains
  let lease := field (w 7) 43 36
  let allow := field (w 10) 63 52
  let depth := field (w 10) 51 45
  .ok { Launch.blank with
    secure := secure, notify := (w 0).getLsbD 2, sealed_ := (w 0).getLsbD 0, stages := BitVec.ofNat 8 (field (w 0) 47 40)
    nclus := nclus, param := w 2, pts0 := BitVec.ofNat 20 (field (w 7) 63 44)
    lease := BitVec.ofNat 8 (if lease = 0 then 10 else lease), asid := asid, done := w 8, donePa := done.device, launchid := id
    succid := BitVec.ofNat 32 (field (w 9) 31 0), allow := BitVec.ofNat 12 (if allow = 0 then 256 else allow)
    depthlim := BitVec.ofNat 7 (if depth = 0 then 16 else depth)
    allocator := if (w 11).getLsbD 63 then some (BitVec.ofNat 15 (field (w 11) 62 48)) else none
    routines := routines, steps := steps.map (·.1), stageMap := stages.1, domains := domains.map (·.1)
    producers := distinct producers, joinTime := match e.virt with | some (_, t) => t | none => 0
    joins := e.virt.isSome, tadmit := s.time, order := s.admissions }

/-! ## Records stored by the part itself (R83, R334, R387, R388) -/

/-- The wts that a store at a place with a pts will receive (R275). -/
def State.nextWts (s : State) (p : Place) (pts : Ts) : Ts :=
  match p with
  | .mem pa =>
    let s := s.l2Touch (pa / 128)
    ((s.l2Line (pa / 128)).stamp.store pts).wts
  | .host ha =>
    let old : Stamp := match s.hostLine (ha / 64), s.writeEntry (ha / 64) with
      | some x, _ => if x.state = .e ∨ x.state = .m then x.stamp else { wts := x.stamp.rts, rts := x.stamp.rts }
      | none, some e => e.stamp
      | none, none => { wts := s.hmts (ha / 64), rts := s.hmts (ha / 64) }
    (old.store pts).wts
  | _ => pts

/-- The completion record as 64 bytes (R388). -/
def completionBytes (id : BitVec 32) (code : BitVec 8) (q : BitVec 6) (tadmit tend : Word) (steps : Nat)
    (faults : BitVec 32) (halts : Word) (wts : Ts) : Nat :=
  packElems 64 [id.toNat * 2 ^ 32 + code.toNat * 2 ^ 24 + q.toNat, tadmit.toNat, tend.toNat,
    steps % 256 * 2 ^ 56 + faults.toNat, halts.toNat, wts.toNat, 0, 0]

/-- The completion record stored at DONE as one 64-byte store with a pts: the wts it receives (R387, R388). It is lost where
software has since laid an assay view's range there (R103; log 65). -/
def State.complete (s : State) (p : Place) (q : BitVec 6) (l : Launch) (code : BitVec 8) (tadmit : Word) (pts : Ts) :
    State × Ts :=
  let v := completionBytes l.launchid code q tadmit s.time l.ended l.faults l.halts (s.nextWts p pts)
  if s.assayPlace p 64 then (s, pts)
  else match p with
  | .mem pa => s.storeHome (pa / 128) (pa % 128) 64 v pts true
  | .host ha => s.storeHostHome (ha / 64) 0 64 v pts
  | _ => (s, pts)

/-- The completion vector of a world (R333, R387). -/
def doneVector (secure : Bool) : BitVec 3 := if secure then 4 else 0

/-! ## Admission and rejection (R32, R47, R50) -/

/-- The place of DONE of a record, where the record could be read and DONE can be used (R32). -/
def State.rejectPlace (s : State) (q : BitVec 6) (e : QueueEntry) (r : Option Nat) : Except Nat (Option Place) :=
  match r with
  | none => .ok none
  | some r =>
    let asid : BitVec 16 := match e.virt with
      | some (a, _) => a
      | none => BitVec.ofNat 16 (field (tableWord r 7) 35 20)
    match s.donePlace (queueSecure q) asid (tableWord r 8) with
    | .ok p => .ok (some p)
    | .error (.code _) => .ok none
    | .error (.owned l) => .error l

/-- A launch rejected with a code: the queue's status, and the completion record where DONE can be used (R32, R45;
log 15, 37). -/
def State.rejectLaunch (s : State) (q : BitVec 6) (r : Option Nat) (code : BitVec 8) (place : Option Place) : State :=
  let id : BitVec 32 := match r with
    | some r => BitVec.ofNat 32 (field (tableWord r 9) 63 32)
    | none => Config.unreadLaunchId s.admissions
  let s := s.mapQueue q fun k => { k with entries := k.entries.drop 1, rejid := id, rejcode := code }
  let s := { s with admissions := s.admissions + 1 }
  let s := match place with
    | some p => (s.complete p q { Launch.blank with launchid := id } code 0 s.high).1
    | none => s.mapQueue q fun k => { k with rej := true }
  if r.any fun r => (tableWord r 0).getLsbD 2 then s.emit (.msix (doneVector (queueSecure q))) else s

/-- A launch admitted, which is a decision point (R47, R50, R51). -/
def State.admitLaunch (s : State) (q : BitVec 6) (l : Launch) : State :=
  let s := s.raisePass q
  let s := s.mapQueue q fun k => { k with entries := k.entries.drop 1, admitted := some l }
  ({ s with admissions := s.admissions + 1 } : State).decision (queueSecure q)

/-- What admission makes of the head entry of a queue: the launch, or a code with the record where it could be read (R30 to
R40). -/
def State.consider (s : State) (q : BitVec 6) (e : QueueEntry) : Except (AdmStop × Option Nat) Launch :=
  match s.readRecord q e with
  | .error x => .error (x, none)
  | .ok r => match s.checkRecord q e r with
    | .error x => .error (x, some r)
    | .ok l => .ok l

/-- The head entry of a queue is admitted or rejected (R47; log 15), no sooner than in the cycle after a `LAUNCH` has appended
it, in which a host write would still come before it (R46), and once the host has given back the lines that it owns of
what is read (R336; log 61). -/
def admitNext (q : BitVec 6) : Eff Unit := do
  let s ← get
  match (s.queue q).entries with
  | [] => pure ()
  | e :: _ =>
    if !((s.queue q).admitted.isSome || !(s.queue q).enable || s.tripped || e.fresh s.clock) then
      match s.consider q e with
      | .ok l => set (s.admitLaunch q l)
      | .error (.owned l, _) => readOwned l
      | .error (.code c, r) => match s.rejectPlace q e r with
        | .ok p => set (s.rejectLaunch q r c p)
        | .error l => readOwned l

def execAdmission (q : BitVec 6) (s : State) : Host.Outcome State Fault Refusal := happen (admitNext q) s

end Sys2Proof.Machine
end

