-- ==== Sys2Proof/Machine/Issue.lean ====
section
/-! DEFINITION. How a core issues a group of a context, forwards it to followers, and keeps the time of a settlement
phase (R126, R127, R130, R133, R137, R312, R318, R320). The meanings of instructions are an argument. -/

namespace Sys2Proof.Machine

/-- What every instruction does. -/
abbrev Exec := Instr → State → Host.Outcome State Fault Refusal

/-- A group performed by the active context: one slot, or a pair whose slots read the registers as they stood before
the group (R127). -/
def runGroup (ex : Exec) (g : List Instr) (s : State) : Host.Outcome State Fault Refusal :=
  match g with
  | [i] => ex i s
  | [i, j] =>
    let regs := s.me.regs
    match ex i s with
    | .next s' =>
      match s'.me.last with
      | .done => ex j (s'.mapMe fun k => { k with latched := some regs })
      | _ => .next s'
    | o => o
  | _ => .next s

/-- A waiting context may go on: where another step grants what it waits for, that step has done so. -/
def Context.wakeable (k : Context) : Bool :=
  decide (k.advances = 0) && ((k.grant matches .fault _) || match k.wait with
    | .event _ _ | .barrier _ _ | .demand _ | .work _ | .arrears _ true => k.grant != .none
    | .refetch line => k.refetched.any fun e => e.1 = line
    | .follow => false
    | _ => true)

/-- The context is released from `SETTLE` or `SDONE`, or is in a settlement phase (R318, R324). -/
def Context.settling (k : Context) : Bool :=
  k.inSettlement || match k.wait with
    | .barrier _ .settle | .barrier _ .sdone => k.grant == .released
    | _ => false

/-- A context of the core settles, so that the core issues from no other (R318). -/
def State.coreSettling (s : State) (core : BitVec 13) : Bool :=
  (List.range 4).any fun j =>
    let k := s.ctx { core := core, ctx := BitVec.ofNat 2 j }
    k.run != .free && k.settling

/-- A wait that ends without an issue slot: the contexts of an episode resume in its release cycle, whatever their cores
issue in it (R312, R314). -/
def Context.slotless (k : Context) : Bool :=
  match k.wait with
  | .barrier _ _ => true
  | _ => false

/-- The context has issued no instruction that it has not completed: it may run, and waits at most for a fetch or for the FLOOR
of a self-advance (R137, R282). -/
def Context.unissued (k : Context) : Bool := k.run == .running || (k.run == .waiting && k.wait == .beforeIssue)

/-- The context stands at an instruction boundary: no access of an issued instruction is under way or on its way back, nothing
has been granted that its instruction has not taken up, and no marking is under way (R356, R373). An instruction that waits
for something else, in the second slot of a pair too, stands at its own boundary. -/
def Context.atBoundary (k : Context) : Bool :=
  k.reply.isNone && k.grant == .none && (k.run != .waiting || match k.wait with
    | .marking _ _ | .access | .floor => false
    | _ => true)

/-- A pending pre-emption that takes effect at the context's next instruction boundary holds the context there: a hard one in
a compute phase, and any at a quantum boundary, where only borrowed contexts run (R59, R373, R379; log 43). -/
def State.heldBack (s : State) (c : CtxId) : Bool :=
  let l := s.launchAt c
  match l.phase, l.preempt with
  | .running, some true => l.settlement.isNone && (s.ctx c).atBoundary
  | .boundary, some _ => (s.ctx c).atBoundary
  | _, _ => false

/-- The context may issue, or go on from its wait, in this cycle, as far as it and its launch are concerned: never after a
thermal trip (R407), nor once the launch has been stopped (R373, R377), nor while its core settles without it (R318), nor
at the boundary where a pre-emption holds it (R58, R59). -/
def State.able (s : State) (c : CtxId) : Bool :=
  let k := s.ctx c
  !s.tripped && (s.launchAt c).live && !s.heldBack c && (k.settling || !s.coreSettling c.core) && match k.run with
    | .running => (s.core c.core.toNat).issued != some s.clock
    | .waiting => k.wakeable && (k.slotless || (s.core c.core.toNat).issued != some s.clock)
    | _ => false

/-- The contexts of a core, the one after the core's pointer first (R137). -/
def State.coreOrder (s : State) (core : BitVec 13) : List CtxId :=
  (List.range 4).map fun j => { core := core, ctx := (s.core core.toNat).pointer + BitVec.ofNat 2 (j + 1) }

/-- The core's pointer and issue slot taken by a context that issues a group, which waits for nothing any more (R137; log
6). -/
def State.markIssue (s : State) (c : CtxId) : State :=
  if (s.ctx c).unissued then
    { (s.mapCore c.core.toNat fun k => { k with pointer := c.ctx, issued := some s.clock }).mapCtx c fun k =>
        { k with run := .running, wait := .none } with front := ctxKey c }
  else s

/-- A context that has gone on from its wait has taken its core's issue slot, and its turn among the contexts that act in
this cycle (R157, R161, R312; log 6). -/
def State.markWake (s : State) (before : Context) (c : CtxId) : State :=
  if before.run = .waiting ∧ !before.unissued ∧ (s.ctx c).last ≠ .waited then
    let s := { s with front := ctxKey c }
    if before.slotless then s
    else s.mapCore c.core.toNat fun k => { k with
      issued := some s.clock
      pointer := match before.wait with | .event _ _ => c.ctx | _ => k.pointer }
  else s

/-! ## Settlement timing (R320) -/

/-- COUNT against the settlement slot of a `SEND` or `RECV`: none where it issues without waiting for a slot. -/
def slotOfInstr (i : Instr) : Option (BitVec 16) :=
  match i with
  | .send _ _ _ _ _ n | .recv _ _ _ _ n => some n
  | _ => none

/-- A `SEND` to a core outside the settling domain, which faults without waiting (R321). -/
def sendAstray (l : Launch) (i : Instr) : Bool :=
  match i with
  | .send _ _ _ _ core _ => !((l.domain l.plan.domain).member core.toNat && decide (core.toNat < 8 * l.nclus))
  | _ => false

/-- A context in a settlement phase issues its next group in this cycle: once COUNT has reached SLEN, to raise SLOT (R320,
R324). A `SEND` or `RECV` waits for its slot whatever its predicate, and issues at once where the slot is no slot of the
phase, a `SEND` also where its core is no member, to fault, or to do nothing under a predicate that fails (R25, R320, R321;
log 18). -/
def State.settleDue (s : State) (c : CtxId) : Bool :=
  let k := s.ctx c
  match k.wait with
  | .barrier _ _ => k.grant == .released
  | _ =>
    let l := s.launchAt c
    decide (l.plan.slen ≤ s.count l) || match fetchGroup.run { s with active := c } with
      | .ok g _ =>
        let ready := g.all fun i => (srcsOf i).all fun r => decide (SMap.at k.settle.avail 0 r ≤ s.clock)
        let slotted := g.all fun i => match slotOfInstr i with
          | some n => decide (l.plan.slen ≤ n.toNat) || decide (n.toNat ≤ s.count l) || sendAstray l i
          | none => true
        ready && slotted && decide (k.settle.nextIssue ≤ s.clock)
      | .error _ _ => true

/-! ## Readiness (R130, R137) -/

/-- A follower that still has to enter a line does so, its transfer being checked (R131). -/
def enterFollowed : Eff Unit := do
  if (← get).me.entry ≠ .plain then
    discard enterLine
    modify fun s => s.mapMe fun k => { k with entry := .plain }

/-- An effect that comes about now, with no timestamp beyond FLOOR + 2^17 (R282). -/
def State.comesAbout {α : Type} (s : State) (e : Eff α) : Bool :=
  match e.run s with
  | .ok _ s' => s.floorHolds s'
  | .error _ _ => false

/-- The next group of the context has been fetched and has passed the checks of R115; a follower's stands in its queue
(R130, R137). -/
def State.fetched (s : State) (c : CtxId) : Bool :=
  let s := { s with active := c }
  match s.me.roll with
  | .following _ [] _ => false
  | .following _ _ _ => s.comesAbout enterFollowed
  | _ => s.comesAbout fetchGroup

/-- A context whose next group is ready in this cycle (R137; log 6): in a settlement phase the timing of R320 says so. -/
def State.readyIn (s : State) (c : CtxId) : Bool :=
  let k := s.ctx c
  k.unissued && s.able c && !(k.grant matches .fault _) && s.fetched c &&
    (if k.inSettlement then s.settleDue c else Config.groupReady s.clock (ctxKey c))

/-- Another context of the core stands before this one in the core's order and is ready (R137). -/
def State.preceded (s : State) (c : CtxId) : Bool :=
  ((s.coreOrder c.core).takeWhile fun x => x ≠ c).any s.readyIn

/-- The core may issue a group of the context in this cycle, as the first that is ready after the core's pointer, or the
context's wait may have ended (R137). -/
def State.issuable (s : State) (c : CtxId) : Bool :=
  s.able c && !((s.ctx c).unissued && s.preceded c)

/-! ## What follows an issue -/

/-- The availability cycles after a group that a settling context has issued: a register is available once every earlier
writer of it has written it (R138, R139, R186, R320; log 18). -/
def Context.settleAfter (k : Context) (clock : Nat) (lats : List (Nat × List Nat)) : Context :=
  if k.inSettlement && k.last == .done then
    let avail := lats.foldl (fun m (n, ds) => ds.foldl (fun m d => SMap.put m d (Nat.max (SMap.at m 0 d) (clock + n))) m) k.settle.avail
    let next := if k.entry = .plain then clock + 1 else clock + 2
    { k with settle := { k.settle with avail := avail, nextIssue := next } }
  else k

/-! ## Forwarding (R130, R131) -/

/-- The contexts that follow a leader whose roll has not ended. -/
def State.followersOf (s : State) (leader : CtxId) : List CtxId :=
  s.contexts.filterMap fun e =>
    match e.2.roll with
    | .following l _ none => if l = leader then some (ctxOf e.1) else none
    | .waiting _ _ _ _ (some l) none => if l = leader then some (ctxOf e.1) else none
    | _ => none

/-- A context has issued a group beginning at `start`: the `FOLLOW`s that wait for it have their leader (R131). A
leader that ended with the group leaves them at it. -/
def State.joinFollowers (s : State) (leader : CtxId) (start : Word) : State :=
  let gone := (s.ctx leader).run == .free
  { s with contexts := SMap.update s.contexts fun _ k =>
      match k.roll with
      | .waiting core t since rs none e =>
        if core = leader.core ∧ t = start ∧ since < s.clock then
          { k with roll := .waiting core t since rs (some leader) (if gone then some start else e) }
        else k
      | _ => k }

/-- The group forwarded to every follower of its leader (R130). -/
def State.forward (s : State) (leader : CtxId) (g : Group) : State :=
  { s with forwards := s.forwards ++ (s.followersOf leader).map fun f =>
      { leader := leader, follower := f, group := g, issued := s.clock } }

/-- What follows the performance of a group: `before` is the state it was performed in. A group is forwarded once, when
it completes or when it waits at a barrier, an event line or a `FOLLOW`; one that faults is not (R130, R133). -/
def afterGroup (before : State) (slots : List (BitVec 96)) (lats : List (Nat × List Nat)) (s : State) : State :=
  let c := before.active
  let old := before.me
  let start := old.rollPc
  let k := s.ctx c
  let stalled := match k.last, k.wait with
    | .waited, .barrier _ _ => true
    | .waited, .event _ _ => true
    | .waited, .follow => true
    | _, _ => false
  let s :=
    if (k.last == .done || stalled) && !old.forwarded then
      let next := if k.last = .done then k.pc else pcSucc old.pc
      let s := s.joinFollowers c start
      let s := if k.run = .free then s else s.forward c { pc := start, slots := slots, next := next }
      if stalled then s.mapCtx c fun k => { k with forwarded := true } else s
    else s
  if old.inSettlement then s.mapCtx c fun k => k.settleAfter s.clock lats else s

/-- The latencies of a group, with the registers it writes. -/
def State.latencies (s : State) (g : List Instr) : List (Nat × List Nat) :=
  g.map fun i => (latencyOf i s, destsOf i)

/-- A group performed, with what follows. -/
def performGroup (ex : Exec) (g : List Instr) (slots : List (BitVec 96)) (s : State) :
    Host.Outcome State Fault Refusal :=
  match runGroup ex g s with
  | .next s' => .next (afterGroup s slots (s.latencies g) s')
  | o => o

/-- The active context waits for the next FLOOR with no instruction issued (R282). -/
def State.holdFetch (s : State) : State := s.mapMe fun k => { k with run := .waiting, wait := .beforeIssue, last := .waited }

/-- A fetch or an entry that stops short: the fault, raised in the context's turn (R331), or the wait, in which the context
is RUNNING but not ready (R137), unless it waits for the next FLOOR (R282; log 40). -/
def entryStop (s : State) (e : Stop) (s' : State) : Host.Outcome State Fault Refusal :=
  match e with
  | .trap t => .next ({ s with front := ctxKey s.active }.raise s.active t)
  | .wait w => .next (if s.floorHolds s' then s'.mapMe fun k => { k with wait := w, last := .waited } else s.holdFetch)

/-! ## Followers (R130, R133) -/

/-- `SETTLE`, `HALT` and `FOLLOW`, before which a follower detaches (R133). -/
def detachesBefore (i : Instr) : Bool :=
  match i with
  | .settle .. | .halt .. | .haltRetain .. | .follow .. => true
  | _ => false

/-- The follower after a forwarded group: it goes on in the roll, or its own outcome differs and it is alone. -/
def State.followed (s : State) (c : CtxId) (next : Word) : State :=
  s.mapCtx c fun k =>
    match k.last, k.roll with
    | .done, .following l (_ :: r) e =>
      if k.pc = next then { k with roll := .following l r e, entry := .plain } else k.detach
    | _, _ => k

/-- A follower executes the next forwarded group, or leaves its roll (R130, R133). -/
def issueFollower (ex : Exec) (c : CtxId) (leader : CtxId) (queue : List Group) (ended : Option Word) (s : State) :
    Host.Outcome State Fault Refusal :=
  match queue, ended with
  | [], some pc =>
    if s.forwards.any fun f => f.follower = c ∧ f.leader = leader then .next s
    else .next (s.mapMe fun k => { k.detach with pc := pc })
  | [], none => .next s
  | g :: _, _ =>
    if !s.issuable c then .next s
    else
      let s := s.mapMe fun k => if k.latched.isSome then k else { k with pc := g.pc }
      let is := g.slots.filterMap fun w => (decodeSlot w).toOption
      if is.length != g.slots.length || is.any detachesBefore then .next (s.mapMe Context.detach)
      else
        match enterFollowed.run s with
        | .ok _ s' =>
          if !s.floorHolds s' then .next s.holdFetch
          else
          let s := s'.markIssue c
          match performGroup ex (if s.me.latched.isSome then is.drop 1 else is) g.slots s with
          | .next s' => .next (s'.followed c g.next)
          | o => o
        | .error e s' => entryStop s e s'

/-! ## Issue (R115, R137) -/

/-- A context in a settlement phase that has not issued its `SDONE` when COUNT reaches SLEN raises SLOT at the group it
would issue next (R324). -/
def State.overrun (s : State) : Bool :=
  let l := s.launchAt s.active
  s.me.inSettlement && decide (l.plan.slen ≤ s.count l) && match s.me.wait with
    | .barrier _ _ => false
    | _ => true

/-- A group of a context fetched and performed, where the core may issue it now, or the wait or fault of its fetch. -/
def issueFetched (ex : Exec) (c : CtxId) (s : State) : Host.Outcome State Fault Refusal :=
  match fetchGroup.run s with
  | .ok g s' =>
    if !s.floorHolds s' then .next s.holdFetch
    else if !s.issuable c then .next s
    else
      let slots := if s'.me.latched.isSome then ({ s' with } : State).mapMe (fun k => { k with pc := k.pc - 1 })
          |>.groupSlots 2 else s'.groupSlots g.length
      performGroup ex g slots (s'.markIssue c)
  | .error e s' => entryStop s e s'

/-- A context of a launch that a pre-emption has stopped may still take the fault of what it has posted (R265, R269, R373):
it is saved after that delivery (R379). -/
def State.stoppedFault (s : State) (c : CtxId) : Bool :=
  !s.tripped && match (s.launchAt c).phase with
    | .saving _ _ => true
    | _ => false

/-- A group of a context issues: followers execute what their leader forwards, others fetch for themselves. Where the
core may not issue it now, nothing happens. A fault that its wait has ended in is raised first (R313, R324). -/
def issueWith (ex : Exec) (c : CtxId) (s : State) : Host.Outcome State Fault Refusal :=
  let s := { s with active := c }
  let out : Host.Outcome State Fault Refusal :=
    match s.me.grant, s.me.roll with
    | .fault t, _ =>
      .next (if s.able c || s.stoppedFault c then { s with front := ctxKey c }.raise c t else s)
    | _, .following leader queue ended => issueFollower ex c leader queue ended s
    | _, _ =>
      if !s.able c || (s.me.inSettlement && !s.settleDue c) then .next s
      else if s.overrun then
        .next ((s.markIssue c).raise c { cause := .slot, faddr := BitVec.ofNat 64 (s.launchAt c).plan.slen })
      else issueFetched ex c s
  match out with
  | .next s' => .next (s'.markWake s.me c)
  | o => o

end Sys2Proof.Machine
end

