-- ==== Sys2Proof/Machine/Time.lean ====
section
/-! DEFINITION. The part's own time: self-advance, FLOOR and the ageing sweep, the start of logical time, PTP, and power
(R272, R273, R279, R282, R283, R329, R341, R405, R406). -/

namespace Sys2Proof.Machine

/-! ## Every held timestamp (R272) -/

/-- Both timestamps of a unit changed by a function. -/
def Stamp.map (f : Ts → Ts) (st : Stamp) : Stamp := { wts := f st.wts, rts := f st.rts }

/-- Every value of a map changed by a function. -/
def SMap.values {α : Type} (f : α → α) (m : SMap α) : SMap α := m.map fun e => (e.1, f e.2)

/-- The times that a context holds. -/
def Context.mapTimes (f : Ts → Ts) (k : Context) : Context :=
  { k with
    pts := f k.pts, ackTime := f k.ackTime, reply := k.reply.map fun r => (r.1, f r.2)
    wait := match k.wait with
      | .allot r (some t) => .allot r (some (f t))
      | w => w
    grant := match k.grant with
      | .event v t => .event v (f t)
      | .demanded t r e => .demanded (f t) r e
      | g => g
    hostAnswers := k.hostAnswers.map fun a => { a with wts := f a.wts }
    gathered := k.gathered.map fun g => { g with pts := f g.pts } }

/-- The times that a job holds. -/
def Job.mapTimes (f : Ts → Ts) (j : Job) : Job := { j with fork := f j.fork, time := f j.time }

/-- The times that an engine's jobs hold. -/
def Engine.mapTimes (f : Ts → Ts) (e : Engine) : Engine :=
  { e with queues := e.queues.values fun l => l.map (Job.mapTimes f), running := e.running.values (Job.mapTimes f) }

/-- The completion times of a cluster's units. -/
def Cluster.mapTimes (f : Ts → Ts) (k : Cluster) : Cluster :=
  { k with
    matrix := k.matrix.mapTimes f, copy := k.copy.mapTimes f
    slots := k.slots.values fun h => { h with time := f h.time }
    sparks := k.sparks.map fun e => (e.1, f e.2.1, e.2.2)
    work := k.work.map fun e => { e with time := f e.time }
    tags := k.tags.values fun g => { g with time := f g.time } }

/-- The times of a cluster's event lines. -/
def Cluster.mapLines (f : Ts → Ts) (k : Cluster) : Cluster :=
  { k with lines := k.lines.values fun e =>
      { e with arrivals := f e.arrivals, completed := f e.completed, stamp := e.stamp.map f } }

/-- The completion times of a core's recent jobs. -/
def Core.mapTimes (f : Ts → Ts) (c : Core) : Core :=
  { c with jobs := c.jobs.values fun (st, i, l, a, t) => (st, i, l, a, f t) }

/-- The times that a demand holds. -/
def Demand.mapTimes (f : Ts → Ts) (d : Demand) : Demand :=
  { d with
    fork := f d.fork
    frames := d.frames.map fun e => match e.2 with
      | .ended t x => (e.1, .ended (f t) x)
      | _ => e }

/-- The times that a pre-empted launch holds. -/
def SavedImage.mapTimes (f : Ts → Ts) (im : SavedImage) : SavedImage :=
  { im with
    contexts := im.contexts.values (Context.mapTimes f), cores := im.cores.values (Core.mapTimes f)
    parts := im.parts.values fun k => (k.mapTimes f).mapLines f, stamps := im.stamps.values (Stamp.map f) }

/-- The times that an admitted launch holds. -/
def Launch.mapTimes (f : Ts → Ts) (l : Launch) : Launch :=
  let arrivals (e : List Arrival) : List Arrival := e.map fun a => { a with pts := f a.pts }
  { l with
    joinTime := f l.joinTime, forked := f l.forked, saved := l.saved.map (SavedImage.mapTimes f)
    episodes := l.episodes.values fun e =>
      { waiting := e.waiting.map arrivals, completed := e.completed.map fun x => (arrivals x.1, x.2) } }

/-- The times that a queue holds. -/
def Queue.mapTimes (f : Ts → Ts) (k : Queue) : Queue :=
  { k with
    entries := k.entries.map fun e => { e with virt := e.virt.map fun v => (v.1, f v.2) }
    admitted := k.admitted.map (Launch.mapTimes f) }

/-- Every timestamp that the holders of a kind hold changed by a function; copies that may only be dropped are dropped
where `gone` says so (R272, R282). -/
def State.mapHolder (s : State) (h : Holder) (f : Ts → Ts) (gone : Ts → Bool) : State :=
  match h with
  | .contexts => { s with contexts := s.contexts.values (Context.mapTimes f) }
  | .homes =>
    let all := if f 0 = 0 then s else (List.range 1024).foldl (fun s p => s.mapCluster p id) s
    { all with
      l2 := all.l2.map fun x => { x with stamp := x.stamp.map f }
      clusters := all.clusters.values fun k => { k with mts := f k.mts } }
  | .copies => { s with
      clusters := s.clusters.values fun k => { k with l1 := k.l1.filter fun e => !(gone e.2.stamp.wts || gone e.2.stamp.rts) }
      superseded := s.superseded.filter fun x => !(gone x.stamp.wts || gone x.stamp.rts) }
  | .windows => { s with
      stamps := s.stamps.values (Stamp.map f), stampBase := f s.stampBase
      clusters := s.clusters.values (Cluster.mapLines f) }
  | .purses => { s with
      deposit := s.deposit.map fun x => { x with stamp := x.stamp.map f }
      depositMts := s.depositMts.values f, posted := s.posted.map fun o => { o with pts := f o.pts }
      acks := s.acks.map fun a => { a with wts := f a.wts } }
  | .hostLines => { s with
      hostLines := s.hostLines.map fun x => { x with stamp := x.stamp.map f }
      writeEntries := s.writeEntries.map fun x => { x with stamp := x.stamp.map f }
      hostFills := s.hostFills.map fun x => { x with waiters := x.waiters.map fun w => { w with pts := f w.pts } }
      hmts0 := f s.hmts0, hmts1 := f s.hmts1 }
  | .completions => { s with
      clusters := s.clusters.values (Cluster.mapTimes f), cores := s.cores.values (Core.mapTimes f)
      queues := s.queues.values (Queue.mapTimes f)
      tileCopies := s.tileCopies.map fun t => { t with fork := f t.fork, time := f t.time }
      unitAnswers := s.unitAnswers.map fun e => (e.1, { e.2 with wts := f e.2.wts })
      demands := s.demands.map (Demand.mapTimes f)
      arrears := s.arrears.map fun a => { a with time := f a.time }
      removals := s.removals.map fun a => { a with time := f a.time }
      normal := { s.normal with notices := s.normal.notices.map fun n => { n with time := f n.time } }
      secure := { s.secure with notices := s.secure.notices.map fun n => { n with time := f n.time } } }

/-! ## FLOOR and the sweep (R282) -/

/-- A timestamp trails FLOOR by 2^18 or more (R282). -/
def State.trails (s : State) (t : Ts) : Bool := tsLe t s.floor && decide (2 ^ 18 ≤ (s.floor - t).toNat)

/-- The kinds of holder by number. -/
def Holder.number : Holder → Nat
  | .contexts => 0
  | .homes => 1
  | .copies => 2
  | .windows => 3
  | .purses => 4
  | .hostLines => 5
  | .completions => 6

/-- One visit of the holders of a kind: what trails is lifted to FLOOR, and copies that trail are dropped (R282). -/
def State.sweep (s : State) (h : Holder) : State :=
  { s.mapHolder h (fun t => if s.trails t then s.floor else t) s.trails with
    swept := SMap.put s.swept (Holder.number h) s.clock }

/-- The kinds of holder whose last visit lies 2,048 cycles back (R282). -/
def State.sweepDue (s : State) (h : Holder) : Bool := decide (SMap.at s.swept 0 (Holder.number h) + 2048 ≤ s.clock)

def execAgeingSweep (h : Holder) (s : State) : Host.Outcome State Fault Refusal := happen (modify fun s => s.sweep h) s

/-- The self-advance of a context: one tick, or a wait for the next FLOOR where the tick lies beyond it (R279,
R282; log 40). -/
def State.advance (s : State) (c : CtxId) : State :=
  let k := s.ctx c
  if k.run = .free then s
  else if k.advances = 0 ∧ tsLe (k.pts + 1) (s.floor + 0x20000) then
    (s.setCtx c { k with pts := k.pts + 1 }).assign (k.pts + 1)
  else s.setCtx c { k with
    advances := k.advances + 1
    run := if k.run = .running then .waiting else k.run
    wait := if k.run = .running then .beforeIssue else k.wait }

/-- The cycle in which the next self-advance is made has come (R279, R329). -/
def State.advanceDue (s : State) : Bool := decide (s.advanced + 256 ≤ s.clock)

/-- Every context that is not FREE advances once every 256 cycles (R279, R329). -/
def State.selfAdvance (s : State) : State :=
  if s.advanceDue then { (s.contexts.map fun e => ctxOf e.1).foldl State.advance s with advanced := s.advanced + 256 }
  else s

/-- The self-advance of this cycle has been made: no access returns a timestamp in it any more (R329). -/
def State.advancedNow (s : State) : Bool := decide (0 < s.clock) && decide (s.clock < s.advanced + 1)

def execSelfAdvance (s : State) : Host.Outcome State Fault Refusal := happen (modify State.selfAdvance) s

/-- A context makes the self-advances that have waited for FLOOR (R282; log 40). -/
def State.catchUp (s : State) (c : CtxId) : State :=
  let k := s.ctx c
  if k.advances = 0 then s
  else (s.setCtx c { k with pts := k.pts + BitVec.ofNat 20 k.advances, advances := 0 }).assign
    (k.pts + BitVec.ofNat 20 k.advances)

/-- The cycle in which the next FLOOR is sent has come (R282). -/
def State.floorDue (s : State) : Bool := decide (s.floored + 4096 ≤ s.clock)

/-- FLOOR := HIGH − 2^16, every 4,096 cycles (R282). -/
def State.sendFloor (s : State) : State :=
  if s.floorDue then
    let s := { s with floor := s.high - 0x10000, floored := s.floored + 4096 }
    (s.contexts.map fun e => ctxOf e.1).foldl State.catchUp s
  else s

def execFloor (s : State) : Host.Outcome State Fault Refusal := happen (modify State.sendFloor) s

/-! ## The start of logical time (R283) -/

/-- A launch of either world is placed, or still holds clusters. -/
def State.anyPlaced (s : State) : Bool := s.clusters.any fun e => e.2.placed.isSome

/-- Logical time starts afresh at a pts, on a part where no launch is placed (R283). -/
def State.rebase (s : State) (pts : Ts) : State :=
  let s := [Holder.homes, .copies, .windows, .purses, .hostLines, .completions].foldl
    (fun s h => s.mapHolder h (fun _ => pts) fun _ => true) s
  { s with floor := pts - 0x10000, high := pts }

/-- The timestamp lies in [FLOOR, FLOOR + 2^17] (R283). -/
def State.inReach (s : State) (t : Ts) : Bool := decide ((t - s.floor).toNat ≤ 0x20000)

/-- PTS0 as placement takes it, after the part has been rebased where it was idle (R283). -/
def State.startTime (s : State) (pts0 : Ts) : Ts := if s.inReach pts0 then pts0 else s.floor

/-! ## TIME (R341) -/

/-- An offset from the grandmaster, in nanoseconds: a forward one of 1 ms or more is stepped, any other is slewed
(log 7). -/
def State.correctTime (s : State) (offset : Word) : State :=
  if 1000000 ≤ offset.toInt then { s with time := s.time + offset, timeStepped := true, slew := 0 }
  else { s with slew := offset.toInt }

def execPtpOffsetCorrection (offset : Word) (s : State) : Host.Outcome State Fault Refusal :=
  happen (modify fun s => s.correctTime offset) s

/-- LOCK as its register shows it: PTP is locked, and no offset of more than 100 ns is left to be slewed (R341). -/
def State.locked (s : State) : Bool := s.ptpLocked && decide (s.slew.natAbs ≤ 100)

/-- PTP locks on the grandmaster, or loses it (R341). -/
def execPtpLock (on : Bool) (s : State) : Host.Outcome State Fault Refusal :=
  happen (modify fun (s : State) => { s with ptpLocked := on }) s

/-! ## Power (R405, R406) -/

/-- Some junction has reached a temperature. -/
def hotJunction (r : Sensors) (t : Nat) : Bool := r.junction.toList.any fun j => decide (t ≤ j.toNat)

/-- The readings call for throttling (R406). -/
def State.overLimit (s : State) (r : Sensors) : Bool :=
  decide (s.plimit.toNat < r.power.toNat) || hotJunction r 95 || decide (40 < r.inlet.toNat)

/-- Throttling begins once the readings that the part holds call for it (R405, R406): it withholds issue, which the free
schedule covers (log 6). -/
def State.limit (s : State) : State :=
  if s.overLimit s.sensors then { s with throttled := true, thhist := true } else s

/-- The part reads its sensors: throttling begins where they call for it, and a flow below 2.0 L/min is timed (R406,
R407). -/
def State.sense (s : State) (r : Sensors) : State :=
  ({ s with
    sensors := r
    flowLow := if r.flow.toNat < 20 then some (s.flowLow.getD s.clock) else none } : State).limit

/-- Throttling ends, where no reading calls for it any more (R406). -/
def State.unthrottle (s : State) (r : Sensors) : State :=
  let s := s.sense r
  if s.overLimit r then s else { s with throttled := false }

end Sys2Proof.Machine
end

