-- ==== Sys2Proof/Machine/Save.lean ====
section
/-! DEFINITION. What a pre-emption saves and a resumption restores: the slot layout of the handle store, the cluster image
and the context records (R42, R65, R238, R374 to R376, R378). -/

namespace Sys2Proof.Machine

/-! ## A slot of the handle store as 32 bytes (R42) -/

/-- Demands wait for the evaluation of a handle. -/
def State.awaited (s : State) (h : BitVec 32) : Bool :=
  s.demands.any fun d => match d.frames with
    | (g, .waiting) :: _ => g == h
    | (g, .running) :: _ => g == h && d.owner.isSome
    | _ => false

/-- A slot of a cluster's handle store in the layout of R42; a waiter list that is not empty begins at a place of the
teller's pool that the spec does not give (log 9). OWNER is 0 where no context is the demander: in a slot that is not
EVALUATING, and in one that a spark without a demander evaluates; and TOP is 0 in a slot of KIND 0 that `MKVAL` made, which
has no operation: the MODEL's choices (log 63). -/
def State.slotWords (s : State) (p i : Nat) : Word × Word × Word × Word :=
  let k := SMap.at (s.cluster p).slots {} i
  let owner : BitVec 15 := match k.owner with
    | some c => if k.state = .evaluating then c.core ++ c.ctx else 0
    | none => 0
  let whead : BitVec 12 := if s.awaited (s.handle p (BitVec.ofNat 11 i)) then Config.waiterHead (2 ^ 21 * s.clock + 2048 * p + i) else 0xFFF
  let top : BitVec 8 := if k.routine then 0 else (k.top.map Top.code).getD 0
  (k.state.code.setWidth 2 ++ BitVec.ofBool k.routine ++ k.gen ++ k.refcnt ++ owner ++ k.depth ++ whead,
    k.argA ++ k.argB,
    k.argC ++ top ++ (0 : BitVec 8) ++ (if k.routine then k.ridx else 0),
    k.tile.addr.setWidth 19 ++ k.tile.fmt ++ k.tile.rows ++ k.tile.cols ++ k.tile.stride ++ k.tile.scale)

/-- The states of R42 by their codes. -/
def hstateOf (c : Nat) : HState :=
  match c with
  | 0 => .free
  | 1 => .suspended
  | 2 => .evaluating
  | _ => .value

/-- A slot restored: what the layout of R42 gives, and from the part's own record what it does not. -/
def HSlot.restore (k : HSlot) (w0 w1 w2 w3 : Word) : HSlot :=
  let routine := w0.getLsbD 61
  { k with
    state := hstateOf (field w0 63 62), routine := routine, gen := BitVec.ofNat 11 (field w0 60 50)
    refcnt := BitVec.ofNat 16 (field w0 49 34), owner := none, depth := BitVec.ofNat 7 (field w0 18 12)
    argA := BitVec.ofNat 32 (field w1 63 32), argB := w1.setWidth 32, argC := BitVec.ofNat 32 (field w2 63 32)
    top := (decTop (field w2 31 24)).toOption, ridx := w2.setWidth 16
    tile := { addr := BitVec.ofNat 64 (field w3 63 45), fmt := BitVec.ofNat 5 (field w3 44 40),
              rows := BitVec.ofNat 7 (field w3 39 33), cols := BitVec.ofNat 8 (field w3 32 25),
              stride := BitVec.ofNat 13 (field w3 24 12), scale := w3.setWidth 12 } }

/-! ## The image of a cluster (R375) -/

/-- The tags of a cluster's granules as a bit stream (R375). -/
def State.tagBits (s : State) (p : Nat) : Nat :=
  packElems 2 ((List.range 4096).map fun g =>
    let t := s.tag p g
    (if t.v then 1 else 0) + if t.c then 2 else 0)

/-- The bytes of a core's window that exist (R68). -/
abbrev coreBytes : Nat := 0xA000

/-- The bytes that the part puts into the private part of an image at a base, saved in a cycle (R375; log 10). -/
def privateBytes (at_ base : Nat) : List (BitVec 8) :=
  (List.range (imageBytes - 0x12_0400)).map fun i => Config.privateImageByte (2 ^ 52 * at_ + base + i)

/-- The bytes of an image as a memory (R375); the layout of its last part is private (log 10). -/
def State.imageAt (s : State) (p base : Nat) : Memory :=
  let m := Memory.paste [] base (2 ^ 19) (s.clusterMem.slice (p * 2 ^ 19) (2 ^ 19))
  let m := (List.range 2048).foldl (fun m i =>
    let (a, b, c, d) := s.slotWords p i
    m.writeN (base + 0x8_0000 + 32 * i) 32 (packElems 64 [a.toNat, b.toNat, c.toNat, d.toNat])) m
  let m := (List.range 8).foldl (fun m k =>
    m.paste (base + 0x9_0000 + coreBytes * k) coreBytes (s.coreMem.slice ((8 * p + k) * 2 ^ 17) coreBytes)) m
  let m := (List.range 32).foldl (fun m j =>
    m.writeN (base + 0xE_0000 + 0x2000 * j) 0x2000 (packFields (s.recordFields (ctxOf (32 * p + j))))) m
  (m.writeN (base + 0x12_0000) 0x400 (s.tagBits p)).writeBytes (base + 0x12_0400) (privateBytes s.clock base)

/-- Every line of an image that the host may hold is taken back as it is written (R336). -/
def State.snatchImage (s : State) (base : Nat) : State :=
  if s.hcsize.toNat * 2 ^ 30 ≤ base then s
  else (List.range (imageBytes / 128)).foldl (fun s i => s.snatch (base / 128 + i)) s

/-- The lines of a range of HBM that the part may not store to for a world. -/
def State.barredLines (s : State) (secure : Bool) (base n : Nat) : List Nat :=
  ((List.range (n / 128)).map (base / 128 + ·)).filter fun l => !s.mayStore secure (l * 128) 128

/-- The image of a physical cluster written at a base for a world: nothing lies beyond the end of HBM, and lines that the part
may not store to keep their bytes (R85, R103, R375; log 46, 65). -/
def State.writeImage (s : State) (secure : Bool) (p base : Nat) : State :=
  let n := Nat.min imageBytes (s.hbmEnd - base)
  let new := (s.hbm.clear base n).paste base n ((s.imageAt p base).slice base n)
  let kept := (s.barredLines secure base n).foldl
    (fun (m : Memory) l => (m.clear (l * 128) 128).paste (l * 128) 128 (s.hbm.slice (l * 128) 128)) new
  { s.snatchImage base with hbm := kept }

/-- HBM as the part reads an image at a base: what it reads beyond the end of HBM is not known (R374; log 46). -/
def State.imageView (s : State) (base : Nat) : Memory :=
  let from_ := Nat.max s.hbmEnd base
  let n := base + imageBytes - from_
  if n = 0 then s.hbm else s.hbm.writeBytes from_ ((List.range n).map fun i => Config.absentByte (from_ + i))

/-- A context restored: what its record gives, with the checks that `MTC` makes of the registers it writes (R95, R378), and
from the part's own record what that does not (R376). It re-executes at EPC (R331). A replay that was held is in the
part's own record (R372; log 11), and so is the message that a `KVAPP` still has to send (R360; log 32). -/
def Context.resumed (k : Context) (floor : Ts) (r : Nat) : Context :=
  let w (i : Nat) : Word := recordReg r i
  let code := recordAt r 0x1308 8 % 4
  let f (i : Nat) : Word := BitVec.ofNat 64 (recordAt r (0x1390 + 8 * i) 8)
  let sent := match k.wait with
    | .allocator _ => code == 2
    | _ => false
  let written := k.trap.epcWritten
  let k := (k.restore r).writeReg .lease (w 5)
  { k with
    run := if code = 0 then .free else if code = 3 then .faulted else if sent then .waiting else .running
    wait := if sent then k.wait else .none, grant := .none, latched := none, gathered := none, refetched := []
    pts := tsMax ((w 4).setWidth 20) floor, thunks := recordAt r 0x1388 8
    trap := { k.trap with
      cause := w 8 &&& 0x0000_0000_FFFF_00FF, fcause := w 9 &&& 0x0000_0000_00FF_FFFF, faddr := w 10, epcWritten := written
      resumed := if code = 3 then k.trap.resumed else code != 0
      record := if code = 3 then some { w0 := f 0, w1 := f 1, w2 := f 2, w3 := f 3 } else none } }

/-! ## Timestamps of window granules -/

/-- The timestamps of the granules of a physical cluster and its cores, by the numbers of logical cluster i. -/
def State.windowStamps (s : State) (p i : Nat) : List (Nat × Stamp) :=
  s.stamps.filterMap fun e =>
    let space := e.1 / 2 ^ 40
    let g := e.1 % 2 ^ 40
    if space = 0 ∧ g / 8192 = p then some (8192 * i + g % 8192, e.2)
    else if space = 1 ∧ g / 4096 = p then some (2 ^ 40 + 4096 * i + g % 4096, e.2)
    else none

/-- The number of a granule of a logical cluster as that of the same granule of its physical cluster. -/
def physicalGranule (clusters : List Nat) (k : Nat) : Nat :=
  let space := k / 2 ^ 40
  let g := k % 2 ^ 40
  if space = 0 then 8192 * clusters.getD (g / 8192) 0 + g % 8192
  else 2 ^ 40 + 4096 * clusters.getD (g / 4096) 0 + g % 4096

/-- The timestamps of a pre-empted launch's windows put back, none of them lowered (log 11). -/
def State.restoreStamps (s : State) (clusters : List Nat) (m : SMap Stamp) : State :=
  m.foldl (fun (s : State) e =>
    let k := physicalGranule clusters e.1
    let old := SMap.at s.stamps ⟨s.stampBase, s.stampBase⟩ k
    { s with stamps := SMap.put s.stamps k { wts := tsMax old.wts e.2.wts, rts := tsMax old.rts e.2.rts } }) s

/-! ## Saving (R373 to R375) -/

/-- The number of a context in a launch, 4 x logical core + context, with the context. -/
def Launch.contexts (l : Launch) : List (Nat × CtxId) :=
  l.clusters.zipIdx.flatMap fun e => (List.range 32).map fun j => (32 * e.2 + j, ctxOf (32 * e.1 + j))

/-- The contexts of the launch of a queue. -/
def State.ctxsOf (s : State) (q : BitVec 6) : List CtxId := (s.launch q).contexts.map (·.2)

/-- The clusters of a launch written into its save area, and what the part itself keeps of them (log 11). -/
def State.save (s : State) (q : BitVec 6) (inStep : Bool) : State :=
  let s := s.applyIn (s.launch q).clusters
  let l := s.launch q
  let im : SavedImage :=
    { clusters := l.clusters
      contexts := l.contexts.foldl (fun m e => SMap.put m e.1 (s.ctx e.2)) []
      cores := (List.range (8 * l.nclus)).foldl (fun m k => SMap.put m k (s.core (l.physicalCore k).toNat)) []
      parts := l.clusters.zipIdx.foldl (fun m e => SMap.put m e.2 (s.cluster e.1)) []
      stamps := l.clusters.zipIdx.foldl (fun (m : SMap Stamp) (e : Nat × Nat) =>
        (s.windowStamps e.1 e.2).foldl (fun (m : SMap Stamp) x => SMap.put m x.1 x.2) m) []
      inStep := inStep, at_ := s.clock }
  let s := l.clusters.zipIdx.foldl (fun (s : State) (e : Nat × Nat) => s.writeImage (queueSecure q) e.1 (s.imageBase q e.2)) s
  s.mapLaunch q fun l => { l with saved := some im }

/-- The lines of a launch's save area that the host owns (R336). -/
def State.ownedImage (s : State) (q : BitVec 6) : List Nat :=
  let first := s.imageBase q 0 / 128
  s.hostOwned.filter fun l => decide (first ≤ l ∧ l < first + (s.launch q).nclus * (imageBytes / 128))

/-! ## The private part of an image (R374, R375; log 10) -/

/-- Words that the part makes of bytes that are not those it saved: nothing is known of them. -/
def altered (key n : Nat) (w : Nat) : Nat := field (Config.privateImage key n) (w - 1) 0

/-- An event line made of such words. -/
def alteredLine (key n : Nat) : EventLine :=
  let a := altered key
  { mode := [EvMode.flag, .barrier, .sem, .mutex, .msg].getD (a n 8 % 5) .flag
    value := BitVec.ofNat 16 (a (n + 1) 16), limit := BitVec.ofNat 16 (a (n + 2) 16), gen := BitVec.ofNat 16 (a (n + 3) 16)
    owner := if a (n + 4) 1 = 0 then none else some (BitVec.ofNat 13 (a (n + 5) 13), BitVec.ofNat 2 (a (n + 6) 2))
    queue := (List.range (a (n + 7) 8 % 17)).map fun i => BitVec.ofNat 64 (a (n + 16 + i) 64)
    waiters := [], arrivals := BitVec.ofNat 20 (a (n + 8) 20), completed := BitVec.ofNat 20 (a (n + 9) 20)
    stamp := ⟨BitVec.ofNat 20 (a (n + 10) 20), BitVec.ofNat 20 (a (n + 11) 20)⟩ }

/-- The lines, work queue and sparks of a cluster whose private bytes have been changed. -/
def Cluster.altered (k : Cluster) (q : BitVec 6) (key : Nat) : Cluster :=
  let a := Machine.altered key
  { k with
    lines := (List.range 64).map fun i => (i, alteredLine key (64 * i))
    work := (List.range (a 4096 8 % 65)).map fun i =>
      { start := BitVec.ofNat 32 (a (4100 + 4 * i) 32), count := BitVec.ofNat 16 (a (4101 + 4 * i) 16)
        key := BitVec.ofNat 16 (a (4102 + 4 * i) 16), time := BitVec.ofNat 20 (a (4103 + 4 * i) 20) }
    sparks := (List.range (a 4097 8 % 65)).map fun i =>
      (BitVec.ofNat 32 (a (5000 + 2 * i) 32), BitVec.ofNat 20 (a (5001 + 2 * i) 20), q) }

/-- The job status of a core whose private bytes have been changed. -/
def Core.altered (c : Core) (key k : Nat) : Core :=
  let a (i w : Nat) : Nat := Machine.altered key (2 ^ 16 + 2 ^ 12 * k + i) w
  { c with jobs := c.jobs.mapIdx fun i e =>
      (e.1, BitVec.ofNat 2 (a (8 * i) 2), BitVec.ofNat 8 (a (8 * i + 1) 8), a (8 * i + 2) 1 == 1,
        BitVec.ofNat 64 (a (8 * i + 3) 64), BitVec.ofNat 20 (a (8 * i + 4) 20)) }

/-- The arrears records of a launch whose private bytes have been changed. -/
def State.alteredArrears (s : State) (q : BitVec 6) (key : Nat) : State :=
  let a := altered key
  let n := 2 ^ 20
  { s with arrears := (s.arrears.filter fun x => x.queue ≠ q) ++ (List.range (a n 13 % 4097)).map fun i =>
      { coord := BitVec.ofNat 64 (a (n + 8 * i + 1) 64), page := a (n + 8 * i + 2) 52
        handle := BitVec.ofNat 32 (a (n + 8 * i + 3) 32), cluster := a (n + 8 * i + 4) 10, queue := q
        sparked := a (n + 8 * i + 5) 1 == 1, time := BitVec.ofNat 20 (a (n + 8 * i + 6) 20) } }

/-- The private bytes of an image as a number, where they are not the ones that were saved. -/
def alteredKey (m : Memory) (at_ base : Nat) : Option Nat :=
  let n := imageBytes - 0x12_0400
  let now := m.readN (base + 0x12_0400) n
  if now = (Memory.writeBytes [] 0 (privateBytes at_ base)).readN 0 n then none else some now

/-! ## Restoring (R65, R238, R376) -/

/-- A physical cluster of the pre-empted launch as the cluster that now bears its logical number. -/
def newCluster (old new : List Nat) (p : Nat) : Nat :=
  match old.findIdx? (· = p) with
  | some i => new.getD i p
  | none => p

/-- A handle with its cluster field rewritten through a map (R238). -/
def rehome (f : Nat → Nat) (h : BitVec 32) : BitVec 32 :=
  if h = 0 then 0 else BitVec.ofNat 10 (f (hCluster h)) ++ h.setWidth 22

/-- A context of the pre-empted launch as the one that now bears its number. -/
def rehomeCtx (f : Nat → Nat) (c : CtxId) : CtxId :=
  { c with core := BitVec.ofNat 13 (8 * f (clusterOfCore c.core) + c.core.toNat % 8) }

/-- Logical cluster i restored on a physical cluster, from its image and the part's own record. Its cores issue as if
context 3 had issued last (R137). -/
def State.restoreCluster (s : State) (q : BitVec 6) (im : SavedImage) (f : Nat → Nat) (i p : Nat) : State :=
  let base := s.imageBase q i
  let m := s.imageView base
  let key := alteredKey m im.at_ base
  let old := SMap.at im.parts .reset i
  let old := match key with
    | some n => old.altered q n
    | none => old
  let s := match i, key with
    | 0, some n => s.alteredArrears q n
    | _, _ => s
  let slots := (List.range 2048).foldl (fun (l : SMap HSlot) j =>
    let w (n : Nat) : Word := BitVec.ofNat 64 (m.readN (base + 0x8_0000 + 32 * j + 8 * n) 8)
    let k := (SMap.at old.slots {} j).restore (w 0) (w 1) (w 2) (w 3)
    let k := { k with
      argA := rehome f k.argA, argB := rehome f k.argB, argC := rehome f k.argC
      creator := k.creator.map (rehomeCtx f) }
    if k = {} then l else SMap.put l j k) []
  let bits := m.readN (base + 0x12_0000) 0x400
  let tags := (List.range 4096).foldl (fun (l : SMap Tag) g =>
    let t : Tag := { v := bits.testBit (2 * g), c := bits.testBit (2 * g + 1),
                     time := (SMap.at old.tags { v := true, c := true, time := s.stampBase } g).time }
    if t = { v := true, c := true, time := s.stampBase } then l else SMap.put l g t) []
  let s := { s with
    clusterMem := s.clusterMem.paste (p * 2 ^ 19) (2 ^ 19) (m.slice base (2 ^ 19))
    coreMem := (List.range 8).foldl (fun cm k =>
      cm.paste ((8 * p + k) * 2 ^ 17) coreBytes (m.slice (base + 0x9_0000 + coreBytes * k) coreBytes)) s.coreMem }
  let s := s.mapCluster p fun k => { k with
    placed := some (q, i), reserved := none, lent := false, retention := none, mjw := old.mjw, matrix := .reset, copy := .reset
    slots := slots, sparks := old.sparks.map (fun e => (rehome f e.1, e.2)), lines := old.lines, work := old.work
    tags := tags, reported := old.reported }
  let s := (List.range 8).foldl (fun s k => s.mapCore (8 * p + k) fun c =>
    let d : Core := SMap.at im.cores .reset (8 * i + k)
    let d := match key with
      | some n => d.altered n k
      | none => d
    { d with itlb := c.itlb, dtlb := c.dtlb, issued := none, pointer := 3 }) s
  (List.range 32).foldl (fun s j => s.setCtx (ctxOf (32 * p + j))
    ((SMap.at im.contexts .reset (32 * i + j)).resumed s.floor (m.readN (s.recordBase q (32 * i + j)) 0x2000))) s

/-- A context that has been restored goes on: a replay that was held takes effect, and a malformed program counter raises
BADTGT (R114, R372, R376). -/
def State.goOn (s : State) (c : CtxId) : State :=
  let k := s.ctx c
  match k.run with
  | .faulted => if k.trap.resumed then s.replay c none else s
  | .running => if pcOk k.pc then s else s.raise c { cause := .badtgt, faddr := k.pc }
  | _ => s

/-- A pre-empted launch restored on clusters, in their logical order (R65, R376; log 11). -/
def State.restore (s : State) (q : BitVec 6) (clusters : List Nat) : State :=
  match (s.launch q).saved with
  | none => s
  | some im =>
    let f := newCluster im.clusters clusters
    let s := s.mapLaunch q fun l => { l with
      clusters := clusters, saved := none, phase := if im.inStep then .running else .boundary }
    let s := clusters.zipIdx.foldl (fun s e => s.restoreCluster q im f e.2 e.1) s
    let s := s.restoreStamps clusters im.stamps
    let s := s.ctxsOf q |>.foldl (fun s c => s.assign (s.ctx c).pts) s
    s.ctxsOf q |>.foldl State.goOn s

end Sys2Proof.Machine
end

