-- ==== Sys2Proof/Machine/Scheduler.lean ====
section
/-! DEFINITION. The schedulers and the clearing tree: placement, supersteps, routines, completion, pre-emption, teardown
and the clearing of clusters (R34, R37, R47 to R65, R204, R235, R254, R283, R316, R373 to R377, R385 to R390, R407). -/

namespace Sys2Proof.Machine

/-! ## Placement (R34, R52, R55, R64, R158, R204, R212, R213, R235, R283, R305, R384, R389, R390) -/

/-- A slot as placement leaves it (R235). -/
def HSlot.placed (k : HSlot) : HSlot :=
  if k.retired then { gen := 1, tile := k.tile }
  else if k.state = .free then k
  else { gen := if k.gen = 2047 then 1 else k.gen + 1, tile := k.tile }

/-- A cluster as placement leaves it. -/
def Cluster.place (k : Cluster) (q : BitVec 6) (i : Nat) : Cluster :=
  { k with
    placed := some (q, i), reserved := none, lent := false, retention := none, mjw := mjwReset, matrix := .reset, copy := .reset
    slots := k.slots.values HSlot.placed, sparks := [], lines := [], work := [], tags := [], reported := false }

/-- Retention lapses: its cores keep nothing (R390; log 42). -/
def State.lapse (s : State) (r : Retention) : State :=
  r.clusters.foldl (fun s p =>
    if (s.cluster p).retention = some r then
      (List.range 8).foldl (fun s k => s.mapCore (8 * p + k) fun c => { c with retained := false })
        (s.mapCluster p fun k => { k with retention := none })
    else s) s

/-- Every retention that a placement ends without honouring it lapses: one of a cluster it takes, and one whose
successor it places (R390; log 42). -/
def State.lapseFor (s : State) (l : Launch) (chosen : List Nat) (kept : Bool) : State :=
  let ends := (s.clusters.filterMap fun e => (e.2.retention).map fun r => (e.1, r)).filter fun e =>
    chosen.contains e.1 || (e.2.succ = l.launchid && e.2.asid = l.asid && e.2.secure = l.secure)
  ends.foldl (fun s e => if kept && e.2.clusters = chosen then s else s.lapse e.2) s

/-- The banks of a core as a placement presents them: kept by retention, or zero (R389; log 52). -/
def State.placeCore (s : State) (k : Nat) (kept : Bool) : State :=
  let c := s.core k
  let s := if kept && c.retained then s else { s with coreMem := s.coreMem.clear (k * 2 ^ 17) (2 ^ 17) }
  s.setCore k { Core.reset with itlb := c.itlb, dtlb := c.dtlb }

/-- The reservations for a launch end as it takes its clusters, and those that it makes for its producers begin (R55). -/
def State.takeReserved (s : State) (l : Launch) (held : List (Nat × BitVec 32)) : State :=
  let s := { s with clusters := s.clusters.values fun k =>
    if k.reserved = some l.launchid ∧ k.secure = l.secure then { k with reserved := none, lent := false } else k }
  held.foldl (fun s e => s.mapCluster e.1 fun k => { k with reserved := some e.2, lent := false }) s

/-- The time that a launch placed for the first time joins: of the producers that have completed, also of those whose
completion record a host has yet to acknowledge (R57). -/
def State.producersTime (s : State) (l : Launch) : Option Ts :=
  (l.producers.filterMap (s.byId l.secure)).foldl (fun (t : Option Ts) m => match m.phase with
      | .recorded _ | .torn _ =>
        let u := tsMax m.joinTime m.forked
        some (match t with
          | some t => tsMax t u
          | none => u)
      | _ => t)
    (if l.joins then some l.joinTime else none)

/-- What a decision has granted a launch, once its clusters are its own: the start of its superstep, unless ENABLE has become
0 (R51, R60). -/
def State.stillStarts (s : State) (q : BitVec 6) (st : Start) : Option Start :=
  if (s.queue q).enable then some { st with held := [] } else none

/-- A launch placed on the clusters that a decision has granted it, in their logical order, for the first time (log 39).
Whether its contexts are supervisor contexts is settled here (R157, R367; log 57). -/
def State.place (s : State) (q : BitVec 6) (st : Start) : State :=
  let s := s.applyIn st.clusters
  let l := s.launch q
  let join := s.producersTime l
  let s := if s.anyPlaced then s else s.rebase l.pts0
  let start := s.startTime l.pts0
  let pts := match join with
    | some t => tsMax start t
    | none => start
  let s := (s.lapseFor l st.clusters st.kept).takeReserved l st.held
  let s := st.clusters.zipIdx.foldl (fun s e =>
    let s := (List.range 8).foldl (fun s k => s.placeCore (8 * e.1 + k) st.kept) s
    let s := { s with clusterMem := s.clusterMem.clear (e.1 * 2 ^ 19) (2 ^ 19) }
    let s := s.mapCluster e.1 fun k => k.place q e.2
    (List.range 32).foldl (fun s j => s.setCtx (ctxOf (32 * e.1 + j)) { Context.reset with pts := pts, ackTime := pts }) s) s
  (s.mapLaunch q fun l => { l with
    phase := .boundary, clusters := st.clusters, step := 0, joinTime := pts, forked := pts, sup := s.supervises l
    start := s.stillStarts q st }).assign pts

/-- A launch to which a decision has granted clusters is placed (R51, R52): the clusters are its own from the decision on. -/
def State.placement (s : State) (q : BitVec 6) : State :=
  let l := s.launch q
  match l.phase, l.start with
  | .unplaced, some st => s.place q st
  | _, _ => s

def execPlacement (q : BitVec 6) (s : State) : Host.Outcome State Fault Refusal :=
  happen (modify fun s => s.placement q) s

/-! ## Supersteps (R37, R48, R49, R204, R235, R316) -/

/-- A cluster at the start of a superstep: C is set where V is, and retired slots may be allocated again. -/
def Cluster.step (k : Cluster) : Cluster :=
  let retired (h : BitVec 32) : Bool := (SMap.at k.slots {} (hSlot h)).retired
  { k with
    reported := false, tags := k.tags.values fun t => if t.v then { t with c := true } else t
    sparks := k.sparks.filter fun e => !retired e.1
    slots := k.slots.values fun h => if h.retired then { gen := 1, tile := h.tile } else h }

/-- The next superstep of the launch may begin: a decision has granted it (R51), and no pre-emption is to take effect
first (R59). -/
def State.granted (s : State) (q : BitVec 6) : Bool :=
  let l := s.launch q
  !s.tripped && l.phase == .boundary && l.start.isSome && l.preempt.isNone

/-- The superstep that a decision has granted begins, and its queue is charged (log 41). Barrier episodes are reset; one that
has completed is released in its cycle all the same (R314, R316). -/
def State.superstepStart (s : State) (q : BitVec 6) : State :=
  if !s.granted q then s
  else
    let l := s.launch q
    let s := s.mapQueue q fun k => { k with pass := k.pass + k.stride }
    let s := if l.step = 0 then s
      else ((s.ctxsOf q).foldl (fun s c => s.mapCtx c fun k => { k with pts := tsMax k.pts l.joinTime }) s).assign
        l.joinTime
    let s := { s with sends := s.sends.filter fun m => m.queue ≠ q }
    let s := l.clusters.foldl (fun s p =>
      let s := (List.range 8).foldl (fun s k => s.mapCore (8 * p + k) fun c =>
        { c with rx := [], halts := 0, taken := 0, settled := false, reported := false, exhausted := false }) s
      s.mapCluster p Cluster.step) s
    let s := s.mapLaunch q fun l => { l with
      phase := .running, sstep := l.step, start := none, settlement := none, diesReported := 0
      episodes := l.episodes.values fun e => { e with waiting := [] } }
    l.clusters.foldl (fun s p => (List.range 8).foldl (fun s k => s.exhaust (BitVec.ofNat 13 (8 * p + k))) s) s

def execSuperstepStart (q : BitVec 6) (s : State) : Host.Outcome State Fault Refusal :=
  happen (modify fun s => s.superstepStart q) s

/-- A free context takes the next entry of its core's list (R34, R37). -/
def State.routineStart (s : State) (c : CtxId) : State :=
  let l := s.launchAt c
  let core := s.core c.core.toNat
  let list := SMap.at l.plan.lists [] (s.logicalCore c.core)
  match list[core.taken]? with
  | none => s
  | some (ridx, arg) =>
    if s.tripped || l.phase ≠ .running || (s.ctx c).run ≠ .free || (s.cluster (clusterOfCore c.core)).placed.isNone then s
    else
      (s.setCore c.core.toNat { core with taken := core.taken + 1 }).beginRoutine c (l.routines.getD ridx.toNat 0)
        [arg.setWidth 64] (s.ctx c).pts none

def execRoutineStart (c : CtxId) (s : State) : Host.Outcome State Fault Refusal :=
  happen (modify fun s => s.routineStart c) s

/-! ## The clearing tree (R385) -/

/-- A unit of the clearing tree has what it counts. -/
def State.cleared (s : State) (l : Launch) : ClearUnit → Bool
  | .core k =>
    let core := l.physicalCore k.toNat
    decide (k.toNat < 8 * l.nclus) && s.exhausted l k.toNat &&
      decide ((s.core core.toNat).halts = (SMap.at l.plan.lists [] k.toNat).length)
  | .cluster i => match l.clusters[i.toNat]? with
    | some p => (List.range 8).all fun k => (s.core (8 * p + k)).reported
    | none => false
  | .die d => (l.clusters.filter fun p => dieOfCluster p = d.toNat).all fun p => (s.cluster p).reported

/-- A unit that has what it counts reports to the level above. -/
def State.clearingReport (s : State) (q : BitVec 6) (u : ClearUnit) : State :=
  let l := s.launch q
  if l.phase ≠ .running || !s.cleared l u then s
  else match u with
    | .core k => s.mapCore (l.physicalCore k.toNat).toNat fun c => { c with reported := true }
    | .cluster i => s.mapCluster (l.clusters.getD i.toNat 0) fun k => { k with reported := true }
    | .die d => s.mapLaunch q fun l => { l with diesReported := l.diesReported ||| (1 <<< d.toNat) }

def execClearingReport (q : BitVec 6) (u : ClearUnit) (s : State) : Host.Outcome State Fault Refusal :=
  happen (modify fun s => s.clearingReport q u) s

/-- The greatest pts of any context of a launch (log 41). -/
def State.greatestPts (s : State) (q : BitVec 6) : Ts :=
  match s.ctxsOf q with
  | [] => s.high
  | c :: r => r.foldl (fun t c => tsMax t (s.ctx c).pts) (s.ctx c).pts

/-- The device level has reported (R316, R385). -/
def State.stepOver (s : State) (l : Launch) : Bool :=
  l.phase == .running && l.diesReported == 0xFF && l.settlement.isNone &&
    (List.range (8 * l.nclus)).all (s.exhausted l)

/-- The superstep ends at its quantum boundary. -/
def State.superstepEnd (s : State) (q : BitVec 6) : State :=
  let l := s.launch q
  if !s.stepOver l then s
  else
    let top := s.greatestPts q
    (s.mapLaunch q fun l => { l with
      ended := l.ended + 1, step := l.step + 1, joinTime := top
      phase := if l.step + 1 < l.steps.length then .boundary else .ended }).decision (queueSecure q)

def execSuperstepEnd (q : BitVec 6) (s : State) : Host.Outcome State Fault Refusal :=
  happen (modify fun s => s.superstepEnd q) s

/-! ## What a launch must have drained (R228, R269, R303, R373, R377, R386) -/

/-- Every job of the launch's clusters is done or faulted. -/
def State.jobsOver (s : State) (l : Launch) : Bool :=
  l.clusters.all fun p =>
    let idle (e : Engine) : Bool := e.running.isEmpty && e.queues.all fun x => x.2.isEmpty
    idle (s.cluster p).matrix && idle (s.cluster p).copy

/-- Every posted operation of the launch has been applied, and its acknowledgement has returned. -/
def State.postsOver (s : State) (q : BitVec 6) : Bool :=
  !(s.posted.any fun o => o.queue = q) && (s.ctxsOf q).all fun c => decide ((s.ctx c).dout = 0)

/-- Every `TLD` of the launch that has forked has finished. -/
def State.copiesOver (s : State) (q : BitVec 6) : Bool := !(s.tileCopies.any fun t => t.queue = q)

/-- Every context of the launch has SOUT = 0. -/
def State.hostOver (s : State) (q : BitVec 6) : Bool := (s.ctxsOf q).all fun c => decide ((s.ctx c).sout = 0)

/-- Every remote `DROP` of the launch has been carried out. -/
def State.dropsOver (s : State) (q : BitVec 6) : Bool :=
  !(s.remoteDrops.any fun r => (s.ctxsOf q).contains r.by_)

/-! ## What a launch leaves behind -/

/-- What contexts have under way, withdrawn: walks, waits for host lines, sends, and groups forwarded to them. -/
def State.forget (s : State) (cs : List CtxId) : State :=
  { s with
    walks := s.walks.filter fun w => !cs.contains w.ctx
    hostFills := s.hostFills.map fun f => { f with waiters := f.waiters.filter fun w => w.unit.isSome || !cs.contains w.ctx }
    sends := s.sends.filter fun m => !cs.contains m.sender
    forwards := s.forwards.filter fun f => !(cs.contains f.follower || cs.contains f.leader) }

/-- The demands for the thunks of a launch withdrawn: an `ARWAIT` of another launch that made one looks again (R362). An
evaluation that an `ARWAIT` of the launch demanded of another launch goes on there without a demander (log 33). -/
def State.leaveDemands (s : State) (q : BitVec 6) : State :=
  let own (d : Demand) : Bool := d.owner.any (s.ctxsOf q).contains
  let s := (s.demands.filter fun d => d.queue = q).foldl (fun s d => match d.owner with
    | none => s
    | some c => s.mapCtx c fun k => match k.wait with
      | .arrears n _ => { k with wait := .arrears n false }
      | _ => k) s
  let s := { s with demands := s.demands.filter fun d => d.queue ≠ q }
  let s := ((s.demands.filter own).flatMap (·.frames)).foldl
    (fun s f => if f.2.own then s.setSlot f.1 { s.slotAt f.1 with owner := none } else s) s
  { s with demands := s.demands.map fun d => if own d then { d with owner := none } else d }

/-- The handle stores, spark queues, work queues and event lines of a launch emptied, with its arrears records and its
demands (R377, R386). -/
def State.empty (s : State) (q : BitVec 6) : State :=
  let s := (s.launch q).clusters.foldl (fun s p => s.mapCluster p fun k => { k with
    slots := k.slots.values fun h => if h.state = .free then h else h.freed
    sparks := [], work := [], lines := [] }) s
  { s.leaveDemands q with
    arrears := s.arrears.filter fun a => a.queue ≠ q
    remoteDrops := s.remoteDrops.filter fun r => !(s.ctxsOf q).contains r.by_ }

/-- The clusters of a launch released (R52, R387): its contexts are FREE and nothing is placed there. -/
def State.releaseClusters (s : State) (q : BitVec 6) : State :=
  let l := s.launch q
  let s := l.clusters.foldl (fun s p =>
    let s := (List.range 32).foldl (fun s j => s.mapCtx (ctxOf (32 * p + j)) Context.freed) s
    s.mapCluster p fun k => { k with placed := none }) s
  s.mapLaunch q fun l => { l with clusters := [] }

/-- A launch depends on another, directly or through the closure (R55). -/
def State.dependsOn (s : State) (l : Launch) (id : BitVec 32) : Bool := (s.closure l).any fun m => m.launchid = id

/-- A launch of a world that holds clusters, one that is being stopped too, or that a decision has granted some, depends on a
launch. -/
def State.needed (s : State) (secure : Bool) (id : BitVec 32) : Bool :=
  (worldQueues secure).any fun q =>
    (!(s.launch q).clusters.isEmpty || (s.launch q).start.isSome) && s.dependsOn (s.launch q) id

/-- Reservations that have lapsed are dropped: those of a launch that is not admitted any more, and those that a
pre-empted one keeps with no placed launch depending on it. One that a placement has made stays until its launch is placed
or complete (R55). -/
def State.dropReservations (s : State) (secure : Bool) : State :=
  let lapsed (lent : Bool) (id : BitVec 32) : Bool := match s.byId secure id with
    | none => true
    | some _ => lent && !s.needed secure id
  { s with clusters := s.clusters.values fun k =>
      if k.secure = secure ∧ k.reserved.any (lapsed k.lent) then { k with reserved := none, lent := false } else k }

/-- The compute dies lose their power, once a thermal trip has torn every launch down (R407; log 58): nothing that stands in
them remains. -/
def State.powerDown (s : State) : State :=
  if !s.tripped || s.dark || s.queues.any (fun e => e.2.admitted.isSome) then s
  else { s with
    dark := true, contexts := [], cores := [], clusters := [], coreMem := [], clusterMem := [], chipMem := [], stamps := []
    l2 := [], l2Writebacks := [], deposit := [], depositWritebacks := [], posted := [], acks := [], tileCopies := []
    sends := [], walks := [], forwards := [], remoteDrops := [], demands := [], arrears := [], exits := [], removals := []
    sharedWrites := [] }

/-- A launch leaves its queue once its record is written: its dependents are satisfied with its completion time, which no
write that its contexts have forked exceeds (R57), the host
is notified where NOTIFY asks for it, and its clusters are released (R47, R54, R387; log 39). -/
def State.leave (s : State) (q : BitVec 6) (time : Ts) : State :=
  let l := s.launch q
  let secure := queueSecure q
  let time := tsMax time l.forked
  let s := s.releaseClusters q
  let s := s.mapQueue q fun k => { k with admitted := none }
  let s := (worldQueues secure).foldl (fun s o => s.mapLaunch o fun m =>
    let m' := { m with producers := m.producers.filter (· ≠ l.launchid) }
    if m.phase = .unplaced ∧ m.producers.contains l.launchid then
      { m' with joins := true, joinTime := if m.joins then tsMax m.joinTime time else time }
    else m') s
  let s := if l.notify then s.emit (.msix (doneVector secure)) else s
  ((s.dropReservations secure).decision secure).powerDown

/-! ## Completion (R386 to R390) -/

/-- The banks kept for the successor: the clusters of the placement remember it where some core is RETAINED (R389,
R390; log 42). -/
def State.retain (s : State) (q : BitVec 6) : State :=
  let l := s.launch q
  if l.succid ≠ 0 ∧ l.clusters.any (fun p => (List.range 8).any fun k => (s.core (8 * p + k)).retained) then
    l.clusters.foldl (fun s p => s.mapCluster p fun k => { k with
      retention := some { succ := l.succid, asid := l.asid, secure := l.secure, clusters := l.clusters } }) s
  else s

/-- Everything that R386 names has ended. -/
def State.drained (s : State) (q : BitVec 6) : Bool :=
  s.jobsOver (s.launch q) && s.postsOver q && s.copiesOver q && s.hostOver q && s.dropsOver q

/-- The completion record of a launch is written, and the launch leaves: at once where DONE lies in HBM, otherwise once
the host has acknowledged the record (R387; log 44). -/
def State.launchCompletion (s : State) (q : BitVec 6) : State :=
  let l := s.launch q
  match l.phase with
  | .ended =>
    if !s.drained q then s
    else
      let borrowed := (s.ctxsOf q).filter fun c => (s.ctx c).run ≠ .free
      let s := (borrowed.foldl (fun s c => s.mapCtx c Context.freed) (s.forget borrowed)).empty q
      let (s, time) := s.complete (placeAt l.donePa) q l 0 l.tadmit (s.greatestPts q)
      if 2 ^ 51 ≤ l.donePa then
        s.mapLaunch q fun l => { l with phase := .recorded ((l.donePa - 2 ^ 51) / 64), joinTime := time, preempt := none }
      else (s.retain q).leave q time
  | .recorded line => if (s.writeEntry line).isSome then s else (s.retain q).leave q l.joinTime
  | _ => s

def execLaunchCompletion (q : BitVec 6) (s : State) : Host.Outcome State Fault Refusal :=
  happen (modify fun s => s.launchCompletion q) s

/-! ## Teardown (R377, R407) -/

/-- A teardown of the world is in progress: TDBUSY (R367; log 44). -/
def State.tearing (s : State) (secure : Bool) : Bool :=
  (worldQueues secure).any fun q => s.backlogged q && match (s.launch q).phase with
    | .tearing | .torn _ => true
    | _ => false

/-- The teardown of the launch of a queue begins: its contexts become FREE, jobs that have not started are discarded, and
its handle stores, queues, lines and saved image are emptied (R377). -/
def State.tearDown (s : State) (q : BitVec 6) : State :=
  let cs := s.ctxsOf q
  let s := s.empty q
  let s := cs.foldl (fun s c => s.mapCtx c Context.freed) (s.forget cs)
  let s := (s.launch q).clusters.foldl (fun s p => s.mapCluster p fun k => { k with
    matrix := { k.matrix with queues := [] }, copy := { k.copy with queues := [] } }) s
  s.mapLaunch q fun l => { l with phase := .tearing, episodes := [], settlement := none, preempt := none, saved := none, start := none }

/-- A KILL write: ignored while a teardown is in progress, and without effect where no launch is admitted or its
completion record has been written (R367, R377; log 44). -/
def State.killWrite (s : State) (secure : Bool) (v : Word) : State :=
  let q : BitVec 6 := BitVec.ofNat 6 (v.toNat % 32 + if secure then 32 else 0)
  let written := match (s.launch q).phase with
    | .recorded _ | .torn _ => true
    | _ => false
  if !s.ready || !v.getLsbD 63 || s.tearing secure || !s.backlogged q || written then s else s.tearDown q

def execKill (secure : Bool) (v : Word) (s : State) : Host.Outcome State Fault Refusal :=
  happen (modify fun s => s.killWrite secure v) s

/-- Once started jobs, posted operations and forked copies have ended, the clusters are released, the record is written
with the torn-down status, and the launch leaves its queue: at once where DONE lies in HBM, otherwise once the host has
acknowledged the record (R377, R387; log 44). -/
def State.teardownComplete (s : State) (q : BitVec 6) : State :=
  let l := s.launch q
  match l.phase with
  | .tearing =>
    if !(s.jobsOver l && s.postsOver q && s.copiesOver q && s.hostOver q) then s
    else
      let (s, time) := (s.releaseClusters q).complete (placeAt l.donePa) q l 0x10 l.tadmit (s.greatestPts q)
      if 2 ^ 51 ≤ l.donePa then
        s.mapLaunch q fun l => { l with phase := .torn ((l.donePa - 2 ^ 51) / 64), joinTime := time }
      else s.leave q time
  | .torn line => if (s.writeEntry line).isSome then s else s.leave q l.joinTime
  | _ => s

def execTeardownComplete (q : BitVec 6) (s : State) : Host.Outcome State Fault Refusal :=
  happen (modify fun s => s.teardownComplete q) s

/-- The cycles of one second at 940 MHz (R14, R407). -/
abbrev tripCycles : Nat := 940000000

/-- The readings call for a thermal trip (R407): a junction at 105 degrees, or a flow below 2.0 L/min for 1 s. -/
def State.overheated (s : State) : Bool :=
  hotJunction s.sensors 105 || s.flowLow.any fun t => decide (t + tripCycles ≤ s.clock)

/-- A thermal trip, where the readings that the part holds call for it: issue stops on every core, vector 2 is raised, every admitted launch is
torn down, and the compute dies lose their power once that is done (R407). -/
def State.tripNow (s : State) : State :=
  if s.tripped || !s.overheated then s
  else
    let s := { s.emit (.msix 2) with tripped := true }
    (((worldQueues false ++ worldQueues true).filter fun q => s.backlogged q && match (s.launch q).phase with
      | .recorded _ | .tearing | .torn _ => false
      | _ => true).foldl State.tearDown s).powerDown

/-- The part reads its sensors, and a trip follows where they call for one (R407). -/
def State.thermalTrip (s : State) (r : Sensors) : State := (s.sense r).tripNow

def execThermalTrip (r : Sensors) (s : State) : Host.Outcome State Fault Refusal :=
  happen (modify fun s => s.thermalTrip r) s

def execThrottling (r : Sensors) (s : State) : Host.Outcome State Fault Refusal := happen (modify fun s => s.thermalTrip r) s

/-- Throttling ends where no reading calls for it any more; readings that call for a trip bring one (R406, R407). -/
def execThrottlingEnd (r : Sensors) (s : State) : Host.Outcome State Fault Refusal :=
  happen (modify fun s => (s.unthrottle r).tripNow) s

/-! ## Pre-emption (R59, R254, R312, R326, R373) -/

/-- A context as the pre-emption leaves it: a wait ends with the instruction to be run again, a `FOLLOW` at its target, a
roll with its context alone (R131, R133, R373). A `KVAPP` that has only its message to send waits for that still (R360;
log 32). -/
def Context.stopped (k : Context) : Context :=
  let k := k.atTarget
  { k with
    roll := .none, line := none, grant := .none, hostAnswers := [], gathered := none, refetched := [], latched := none, forwarded := false
    wait := match k.wait with
      | .allocator m => .allocator m
      | _ => .none
    settle := { k.settle with active := false, lines := [], avail := [], nextIssue := 0 } }

/-- One context stopped by a pre-emption, its arrival being withdrawn (R373): a borrowed one is abandoned, and a core that
waits at `SETTLE` has not issued it (log 43). -/
def State.stopCtx (s : State) (c : CtxId) : State :=
  let k := s.ctx c
  if k.borrowed.isSome then s.freeCtx c
  else
    let s := match k.wait with
      | .barrier _ .settle => s.mapCore c.core.toNat fun u => { u with settled := false }
      | _ => s
    s.mapCtx c Context.stopped

/-- Every context of the launch stands at an instruction boundary, and no episode is released in this cycle: a release comes
before a pre-emption (R326, R373). -/
def State.atRest (s : State) (q : BitVec 6) : Bool :=
  ((s.ctxsOf q).all fun c => (s.ctx c).atBoundary) &&
    (s.launch q).episodes.all fun e => e.2.completed.all fun x => decide (s.clock < x.2)

/-- A pending pre-emption may take effect (R59, R374): at a quantum boundary, or, when it is hard, at the instruction
boundaries of a compute phase. The end of the last superstep, after which no superstep is left to wait for, is not one of
them: a request that stands then, or is made then, lapses with the completion of the launch (log 43). -/
def State.stoppable (s : State) (q : BitVec 6) : Bool :=
  let l := s.launch q
  match l.phase, l.preempt with
  | .boundary, some _ => s.atRest q
  | .running, some true => l.settlement.isNone && s.atRest q
  | _, _ => false

/-- A pre-emption that its save area no longer allows lapses (R374). Where that is at the quantum boundary, the scheduler's
decision there takes in the launch (R51, R59). -/
def State.lapsePreempt (s : State) (q : BitVec 6) : State :=
  let s := s.mapLaunch q fun l => { l with preempt := none }
  if (s.launch q).phase = .boundary then s.decision (queueSecure q) else s

/-- The pre-emption of a launch takes effect, or lapses where its save area no longer holds it (R59, R373, R374;
log 38, 43). Every arrival is withdrawn before a context is stopped, so that a MUTEX line which an abandoned one releases
goes to none of the launch's own (R308, R312). -/
def State.stopLaunch (s : State) (q : BitVec 6) : State :=
  if !s.stoppable q then s
  else if !s.savable q then s.lapsePreempt q
  else
    let cs := s.ctxsOf q
    let hard := (s.launch q).preempt == some true
    let inStep := (s.launch q).phase == .running
    let s := (cs.foldl State.stopCtx (cs.foldl State.withdraw s)).forget cs
    s.mapLaunch q fun l => { l with
      phase := .saving hard inStep, preempt := none, start := none, episodes := [] }

def execPreemptionTakesEffect (q : BitVec 6) (s : State) : Host.Outcome State Fault Refusal :=
  happen (modify fun s => s.stopLaunch q) s

/-- The teller of the launch has stopped but for the ends of queue-8 jobs (R254). -/
def State.tellerOver (s : State) (q : BitVec 6) : Bool :=
  !(s.demands.any fun d => d.queue = q && d.frames.any fun f => match f.2 with
    | .ended _ _ => true
    | _ => false)

/-- Every thunk in EVALUATING is SUSPENDED again, the slot of a strict `SUSPR` is freed, and no demand remains (R254). -/
def State.stopTeller (s : State) (q : BitVec 6) : State :=
  let s := s.leaveDemands q
  (s.launch q).clusters.foldl (fun s p =>
    ((s.cluster p).slots.filter fun e => e.2.state = .evaluating ∨ (e.2.state = .suspended ∧ e.2.strict)).foldl
      (fun s e =>
        let h := s.handle p (BitVec.ofNat 11 e.1)
        let k := s.slotAt h
        if k.state = .evaluating then s.unevaluate h
        else if k.state = .suspended ∧ k.strict then k.args.foldl State.drop ((s.setSlot h k.freed).uncount k)
        else s) s) s

/-- No context of the launch still has the fault of a posted operation to take (R265, R379). -/
def State.faultsTaken (s : State) (q : BitVec 6) : Bool := (s.ctxsOf q).all fun c => !((s.ctx c).grant matches .fault _)

/-- The clusters of a stopped launch are saved and released once its jobs, posted operations, copies and evaluations have
ended and no fault of its contexts is left to take; they stay reserved for it while a placed launch depends on it (R55, R59, R373; log 43, 46). -/
def State.releaseStopped (s : State) (q : BitVec 6) : State :=
  let l := s.launch q
  match l.phase with
  | .saving hard inStep =>
    if s.drained q && s.tellerOver q && s.faultsTaken q then
      let secure := queueSecure q
      let s := (s.stopTeller q).save q inStep
      let s := s.releaseClusters q
      let s := s.mapLaunch q fun l => { l with phase := .saved hard }
      let s := if s.needed secure l.launchid then
          l.clusters.foldl (fun s p => s.mapCluster p fun k => { k with reserved := some l.launchid, lent := true }) s
        else s
      (s.dropReservations secure).decision secure
    else s
  | _ => s

def execClusterRelease (q : BitVec 6) (s : State) : Host.Outcome State Fault Refusal :=
  happen (modify fun s => s.releaseStopped q) s

/-- A pre-empted launch to which a decision has granted clusters is restored on them (R52, R65, R376; log 46). It waits for
the lines of its save area that the host owns (R336). One stopped inside a superstep goes on with it; the next superstep of
any other begins under the same grant. -/
def resumeLaunch (q : BitVec 6) : Eff Unit := do
  let s ← get
  let l := s.launch q
  match l.phase, l.start with
  | .saved _, some st =>
    readOwnedAll (s.ownedImage q)
    let s := ((((← get).applyIn st.clusters).lapseFor l st.clusters false).takeReserved l st.held).restore q st.clusters
    set (s.mapLaunch q fun l => { l with start := if l.phase = .boundary then s.stillStarts q st else none })
  | _, _ => pure ()

def execLaunchResume (q : BitVec 6) (s : State) : Host.Outcome State Fault Refusal := happen (resumeLaunch q) s

/-! ## The clearing of a cluster that changes world (R63) -/

/-- A cluster whose CWORLD bit has changed is cleared, once it is neither placed nor reserved, nor promised. -/
def State.clearCluster (s : State) (p : Nat) : State :=
  let k := s.cluster p
  if !s.enabled p || !k.idle || s.allPromised.contains p || k.secure == s.cworld.getLsbD p then s
  else
    let s := match k.retention with
      | some r => s.lapse r
      | none => s
    let mine (x : L2Line) : Bool := decide ((s.homeOf x.line).1 = p)
    let mts := (s.l2.filter mine).foldl (fun t x => tsMax t x.stamp.rts) k.mts
    let s := { s with
      clusterMem := s.clusterMem.clear (p * 2 ^ 19) (2 ^ 19)
      coreMem := s.coreMem.clear (8 * p * 2 ^ 17) (8 * 2 ^ 17)
      l2 := s.l2.filter fun x => !mine x }
    let s := (List.range 8).foldl (fun s i => s.mapCore (8 * p + i) fun c =>
      { c with itlb := [], dtlb := [], retained := false }) s
    s.mapCluster p fun k => { k with slots := [], l1 := [], tlb := [], mts := mts, secure := s.cworld.getLsbD p }

def execClusterClearing (cluster : BitVec 10) (s : State) : Host.Outcome State Fault Refusal :=
  happen (modify fun s => s.clearCluster cluster.toNat) s

end Sys2Proof.Machine
end

