-- ==== Sys2Proof/Machine/Regs.lean ====
section
/-! DEFINITION. The registers of BAR0 and BAR2 as the host and secure firmware write and read them (R44, R45, R62, R63,
R71, R78, R79, R83, R84, R100, R336, R340 to R342, R367, R401, R403, R405). -/

namespace Sys2Proof.Machine

/-- Bits [hi:lo] of a word, in their places. -/
def bitsOf (w : Word) (hi lo : Nat) : Word := BitVec.ofNat 64 (field w hi lo * 2 ^ lo)

/-- A field that takes a written value where it is one of those allowed. -/
def ifLegal (old new : Nat) (legal : Bool) : Nat := if legal then new else old

/-! ## Worlds of clusters and of the chip scratchpads (R62, R63) -/

/-- A word of CWORLD written (R62): each cluster's bit counts once it is neither placed nor reserved (R63). -/
def State.writeCworld (s : State) (i : Nat) (v : Word) : State :=
  if !s.ready then s
  else
    let cleared := s.cworld &&& ~~~(((BitVec.allOnes 64).setWidth 1024 : BitVec 1024) <<< (64 * i))
    { s with cworld := cleared ||| (v.setWidth 1024 <<< (64 * i)) }

def execCworldWrite (word : BitVec 4) (v : Word) (s : State) : Host.Outcome State Fault Refusal :=
  happen (modify fun s => s.writeCworld word.toNat v) s

/-- CSWORLD of a die written, at once (R62, R63). -/
def State.writeCsworld (s : State) (d : Nat) (v : Word) : State :=
  if !s.ready then s else { s with csworld := s.csworld.setIfInBounds d (v.setWidth 32) }

def execCsworldWrite (die : BitVec 3) (v : Word) (s : State) : Host.Outcome State Fault Refusal :=
  happen (modify fun s => s.writeCsworld die.toNat v) s

/-! ## TLB invalidation (R78) -/

/-- A request begins, or is discarded with IOVF while another is in progress. -/
def State.requestInval (s : State) (secure : Bool) (v : Word) : State :=
  if !s.ready then s
  else s.mapWorld secure fun w => if w.inval.isSome then { w with iovf := true } else { w with inval := some v }

def execTlbInvalidationRequest (secure : Bool) (v : Word) (s : State) : Host.Outcome State Fault Refusal :=
  happen (modify fun s => s.requestInval secure v) s

/-- An entry matches a request. -/
def Tlb.named (e : Tlb) (secure : Bool) (v : Word) : Bool :=
  let size := field v 45 44
  e.secure == secure && (v.getLsbD 63 || decide (e.asid.toNat = field v 61 46)) &&
    (v.getLsbD 62 || (decide (e.size.toNat = size) && decide (clearLow e.vpn.toNat size = clearLow (field v 39 0) size)))

/-- The translations that a job took when it was submitted. -/
def JobKind.pages : JobKind → List Tlb
  | .mma _ _ (.purse _ _ _ ps) _ _ _ => ps
  | .mmas _ _ (.purse _ _ _ ps) _ _ => ps
  | _ => []

/-- An access that uses a translation named by a request may still be in flight (log 47). -/
def State.inFlight (s : State) (secure : Bool) (v : Word) : Bool :=
  let uses (ps : List Tlb) : Bool := ps.any fun e => e.named secure v
  let busy (e : Engine) : Bool :=
    (e.running.any fun j => uses j.2.kind.pages) || e.queues.any fun q => q.2.any fun j => uses j.kind.pages
  let ours (c : CtxId) : Bool := (s.cluster (clusterOfCore c.core)).secure == secure
  (s.tileCopies.any fun t => uses t.pages) || (s.clusters.any fun k => busy k.2.matrix) ||
    (s.posted.any fun o => queueSecure o.queue == secure) || (s.writeEntries.any fun e => e.owners.any ours) ||
    s.contexts.any fun k => ours (ctxOf k.1) && match k.2.wait with
      | .marking left _ => !left.isEmpty
      | _ => false

/-- The invalidation in progress completes once no such access remains: no TLB of the part holds a matching entry
(log 47). -/
def State.finishInval (s : State) (secure : Bool) : State :=
  match (s.world secure).inval with
  | none => s
  | some v =>
    if s.inFlight secure v then s
    else
      let keep (l : List Tlb) : List Tlb := l.filter fun e => !e.named secure v
      let s := { s with
        cores := s.cores.values fun c => { c with itlb := keep c.itlb, dtlb := keep c.dtlb }
        clusters := s.clusters.values fun k => { k with tlb := keep k.tlb } }
      s.mapWorld secure fun w => { w with inval := none }

def execTlbInvalidationDone (secure : Bool) (s : State) : Host.Outcome State Fault Refusal :=
  happen (modify fun s => s.finishInval secure) s

/-! ## Assay ranges (R100) -/

/-- A word of an entry as a BAR writes it: BAR0 keeps SEC. -/
def AssayRange.write (r : AssayRange) (secure : Bool) (i : Nat) (v : Word) : AssayRange :=
  match i with
  | 0 =>
    let sec := if secure then bitsOf v 62 62 else r.w0 &&& 0x4000_0000_0000_0000
    { r with w0 := sec + bitsOf v 63 63 + bitsOf v 61 57 + bitsOf v 51 16 }
  | 1 => { r with vlast := bitsOf v 51 16 }
  | 2 => { r with cbase := bitsOf v 51 7 }
  | 3 => { r with sbase := bitsOf v 51 7 }
  | 4 => { r with tbase := bitsOf v 51 10 }
  | _ => r

/-- Every L1 and L2 copy of a line of a view is dropped; an L2 copy leaves its time (R100, R278, R408). -/
def State.dropView (s : State) (r : AssayRange) : State :=
  let mine (line : Nat) : Bool := r.views (line * 128) 128
  let s := s.l2.foldl (fun s x =>
    if mine x.line then s.mapCluster (s.homeOf x.line).1 fun k => { k with mts := tsMax k.mts x.stamp.rts } else s) s
  { s with
    l2 := s.l2.filter fun x => !mine x.line
    clusters := s.clusters.values fun k => { k with l1 := k.l1.filter fun e => !mine e.1 } }

/-- A word of an assay-range entry written (R100). -/
def State.writeAssay (s : State) (secure : Bool) (i j : Nat) (v : Word) : State :=
  let old := s.assay.toList.getD i {}
  if !s.ready || (!secure && old.sec) then s
  else
    let new := old.write secure j v
    (({ s with assay := s.assay.setIfInBounds i new }).dropView old).dropView new

def execAssayRangeWrite (secure : Bool) (i : BitVec 4) (word : BitVec 3) (v : Word) (s : State) :
    Host.Outcome State Fault Refusal :=
  happen (modify fun s => s.writeAssay secure i.toNat word.toNat v) s

/-! ## Single registers -/

/-- FRTAIL (R83). -/
def State.writeFrtail (s : State) (secure : Bool) (v : Word) : State :=
  if !s.ready then s else s.mapWorld secure fun w => { w with frtail := v.setWidth 16 }

def execFrtail (secure : Bool) (v : Word) (s : State) : Host.Outcome State Fault Refusal :=
  happen (modify fun s => s.writeFrtail secure v) s

/-- TRTAIL of a die: the write also resets the count of lost records (R342). -/
def State.writeTrtail (s : State) (secure : Bool) (d : Nat) (v : Word) : State :=
  if !s.ready then s
  else s.mapWorld secure fun w => { w with
    traces := SMap.put w.traces d { SMap.at w.traces .reset d with tail := v.setWidth 20, lost := 0 } }

def execTrtail (secure : Bool) (die : BitVec 3) (v : Word) (s : State) : Host.Outcome State Fault Refusal :=
  happen (modify fun s => s.writeTrtail secure die.toNat v) s

/-- HCSIZE: only while no launch is placed, and no more than 64 GB nor the enabled HBM (R336). -/
def State.writeHcsize (s : State) (v : Word) : State :=
  let n := v.toNat % 128
  if !s.ready || s.anyPlaced || decide (64 < n) || decide (48 * s.enabledStacks.length < n) then s
  else { s with hcsize := BitVec.ofNat 7 n }

def execHcsize (v : Word) (s : State) : Host.Outcome State Fault Refusal := happen (modify fun s => s.writeHcsize v) s

/-- A launch of the world is placed (R403). -/
def State.worldPlaced (s : State) (secure : Bool) : Bool :=
  s.clusters.any fun e => match e.2.placed with
    | some (q, _) => queueSecure q == secure
    | none => false

/-- An enable bit and a granule, or a granule alone, of a region, a window or the key-value region. -/
def rangeLo (v : Word) : Word := bitsOf v 63 63 + bitsOf v 51 21
def rangeHi (v : Word) : Word := bitsOf v 51 21

/-- A register of a trace ring written (R342). -/
def State.writeTrace (s : State) (secure : Bool) (d i : Nat) (v : Word) : State :=
  let put (f : TraceRing → TraceRing) : State := s.mapWorld secure fun w =>
    { w with traces := SMap.put w.traces d (f (SMap.at w.traces .reset d)) }
  match i with
  | 0 => put fun r => { r with base := bitsOf v 51 12 }
  | 1 => put fun r => { r with
      log2 := let n := v.toNat % 32
              BitVec.ofNat 5 (ifLegal r.log2.toNat n (decide (n = 0) || (decide (3 ≤ n) && decide (n ≤ 20)))) }
  | 3 => s.writeTrtail secure d v
  | _ => s

/-- A register of a queue block written (R45). -/
def State.writeQueue (s : State) (q : BitVec 6) (i : Nat) (v : Word) : State :=
  match i with
  | 0 => (s.qsub q v).decision (queueSecure q)
  | 1 => (s.writeTickets q v).decision (queueSecure q)
  | 2 => if !s.ready then s else s.mapQueue q fun k => { k with
      ovf := k.ovf && !v.getLsbD 23, badw := k.badw && !v.getLsbD 22, rej := k.rej && !v.getLsbD 21 }
  | 4 => (s.writeControl q v).decision (queueSecure q)
  | _ => s

/-- A register of the word 0x3000 to 0x3098 of a world written (R71, R78, R83, R84, R367, R403). -/
def State.writeWorld (s : State) (secure : Bool) (off : Nat) (v : Word) : State :=
  let put (f : WorldRegs → WorldRegs) : State := s.mapWorld secure f
  match off with
  | 0x3000 => put fun w =>
    let n := v.toNat % 32
    { w with
      hpt := bitsOf v 51 7 + BitVec.ofNat 64 (ifLegal (field w.hpt 4 0) n (decide (n = 0) || (decide (4 ≤ n) && decide (n ≤ 20)))) }
  | 0x3010 => s.requestInval secure v
  | 0x3018 => put fun w => { w with iovf := w.iovf && !v.getLsbD 1 }
  | 0x3020 => put fun w => { w with frbase := bitsOf v 51 12 }
  | 0x3028 => put fun w =>
    let n := v.toNat % 16
    { w with frlog2 := BitVec.ofNat 4 (ifLegal w.frlog2.toNat n (decide (n = 0) || decide (7 ≤ n))) }
  | 0x3038 => s.writeFrtail secure v
  | 0x3040 => s.replayWrite secure v
  | 0x3048 => put fun w => { w with supv := v &&& 0x8000_0000_03FF_003F }
  | 0x3050 => put fun w => { w with supvid := v.setWidth 32 }
  | 0x3058 => put fun w => { w with savebase := bitsOf v 51 21 }
  | 0x3060 => put fun w =>
    let n := v.toNat % 32
    { w with savelog2 := BitVec.ofNat 5 (ifLegal w.savelog2.toNat n (decide (n = 0) || decide (21 ≤ n))) }
  | 0x3068 => s.killWrite secure v
  | 0x3090 => if s.worldPlaced secure then s else put fun w => { w with kvLo := rangeLo v }
  | 0x3098 => if s.worldPlaced secure then s else put fun w => { w with kvHi := rangeHi v }
  | _ => s

/-- A register that stands in BAR0 alone written (R336, R340, R341, R405). -/
def State.writePart (s : State) (off : Nat) (v : Word) : State :=
  match off with
  | 0x3200 => s.writeHcsize v
  | 0x3210 => { s with nodeid := v.setWidth 22 }
  | 0x3220 => { s with timeStepped := s.timeStepped && !v.getLsbD 1 }
  | 0x3230 =>
    let n := v.toNat % 4096
    if 1000 ≤ n ∧ n ≤ 3200 then ({ s with plimit := BitVec.ofNat 12 n } : State).limit else s
  | 0x3238 => { s with thhist := s.thhist && !v.getLsbD 1 }
  | _ =>
    if 0x3400 ≤ off ∧ off < 0x3600 then
      let i := (off - 0x3400) / 32
      let w := s.peers.toList.getD i {}
      let w := match (off - 0x3400) % 32 / 8 with
        | 0 => { w with lo := rangeLo v }
        | 1 => { w with hi := rangeHi v }
        | 2 => { w with src := bitsOf v 21 0 }
        | _ => w
      { s with peers := s.peers.setIfInBounds i w }
    else s

/-- A register that only BAR2 may write (R62, R79). -/
def State.writeSecure (s : State) (off : Nat) (v : Word) : State :=
  if 0x1100 ≤ off ∧ off < 0x1180 then s.writeCworld ((off - 0x1100) / 8) v
  else if 0x1180 ≤ off ∧ off < 0x11C0 then s.writeCsworld ((off - 0x1180) / 8) v
  else if 0x2000 ≤ off ∧ off < 0x2200 then
    let i := (off - 0x2000) / 16
    let r := s.regions.toList.getD i {}
    let r := if (off - 0x2000) % 16 = 0 then { r with lo := rangeLo v } else { r with hi := rangeHi v }
    { s with regions := s.regions.setIfInBounds i r }
  else s

/-- The queue of a BAR whose block holds an offset (R44). -/
def queueAt (secure : Bool) (off : Nat) : Option (BitVec 6) :=
  if 0x10_0000 ≤ off ∧ off < 0x10_0800 then
    some (BitVec.ofNat 6 ((off - 0x10_0000) / 64 + if secure then 32 else 0))
  else none

/-- One aligned 8-byte write of a register (R45, R401): until READY only queue blocks answer. -/
def State.barWrite (s : State) (secure : Bool) (off : Nat) (v : Word) : State :=
  match queueAt secure off with
  | some q => s.writeQueue q (off % 64 / 8) v
  | none =>
    if !s.ready then s
    else if 0x4000 ≤ off ∧ off < 0x4400 then s.writeAssay secure ((off - 0x4000) / 64) (off % 64 / 8) v
    else if 0x3300 ≤ off ∧ off < 0x3400 then s.writeTrace secure ((off - 0x3300) / 32) (off % 32 / 8) v
    else if 0x3000 ≤ off ∧ off < 0x3100 then s.writeWorld secure off v
    else if secure then s.writeSecure off v
    else s.writePart off v

/-- A write of any size and alignment (R45): a malformed one is discarded, with BADW in the queue block that its first byte
falls in (log 62). -/
def State.barAccess (s : State) (secure : Bool) (off size : Nat) (v : Word) : State :=
  if size = 8 ∧ off % 8 = 0 then s.barWrite secure off v
  else match queueAt secure off with
    | some q => s.mapQueue q fun k => { k with badw := true }
    | none => s

def execBarRegisterWrite (secure : Bool) (off : BitVec 24) (size : BitVec 8) (v : Word) (s : State) :
    Host.Outcome State Fault Refusal :=
  happen (modify fun s => s.barAccess secure off.toNat size.toNat v) s

/-! ## Reads -/

/-- A register of a queue block as it reads (R45). -/
def State.readQueue (s : State) (q : BitVec 6) (i : Nat) : Word :=
  let k := s.queue q
  match i with
  | 1 => k.tickets.setWidth 64
  | 2 => k.rejid ++ k.rejcode ++ BitVec.ofBool k.ovf ++ BitVec.ofBool k.badw ++ BitVec.ofBool k.rej ++
      (0 : BitVec 12) ++ BitVec.ofNat 9 k.entries.length
  | 3 => k.pass.setWidth 64
  | 4 => if k.enable then 1 else 0
  | _ => 0

/-- A register of a world as it reads (R71, R78, R83, R367, R380, R403). -/
def State.readWorld (s : State) (secure : Bool) (off : Nat) : Word :=
  let w := s.world secure
  match off with
  | 0x3000 => w.hpt
  | 0x3018 => (if w.iovf then 2 else 0) + if w.inval.isSome then 1 else 0
  | 0x3020 => w.frbase
  | 0x3028 => w.frlog2.setWidth 64
  | 0x3030 => w.frhead.setWidth 64
  | 0x3038 => w.frtail.setWidth 64
  | 0x3048 => w.supv
  | 0x3050 => w.supvid.setWidth 64
  | 0x3058 => w.savebase
  | 0x3060 => w.savelog2.setWidth 64
  | 0x3070 => if s.tearing secure then 1 else 0
  | 0x3078 => w.closs ++ w.ccnt
  | 0x3080 => w.ceaddr.setWidth 64
  | 0x3090 => w.kvLo
  | 0x3098 => w.kvHi
  | _ => 0

/-- A register that stands in BAR0 alone as it reads (R340, R341, R405). -/
def State.readPart (s : State) (off : Nat) : Word :=
  match off with
  | 0x3200 => s.hcsize.setWidth 64
  | 0x3208 => s.linkup.setWidth 64
  | 0x3210 => s.nodeid.setWidth 64
  | 0x3218 => s.pxlost ++ s.pxref
  | 0x3220 => (if s.timeStepped then 2 else 0) + if s.locked then 1 else 0
  | 0x3230 => s.plimit.setWidth 64
  | 0x3238 => (if s.tripped then 4 else 0) + (if s.thhist then 2 else 0) + if s.throttled then 1 else 0
  | _ =>
    if 0x3400 ≤ off ∧ off < 0x3600 then
      let w := s.peers.toList.getD ((off - 0x3400) / 32) {}
      match off % 32 / 8 with
      | 0 => w.lo
      | 1 => w.hi
      | 2 => w.src
      | _ => 0
    else 0

/-- One aligned 8-byte read of a register (R45, R62, R100, R401); the region table stands in BAR2 alone (R79). -/
def State.barRead (s : State) (secure : Bool) (off : Nat) : Word :=
  if !secure && off = 0 then 0x0000_8192_0000_0000 + if s.ready then 1 else 0
  else if !s.ready then 0
  else match queueAt secure off with
    | some q => s.readQueue q (off % 64 / 8)
    | none =>
      if 0x1000 ≤ off ∧ off < 0x1080 then BitVec.ofNat 64 (s.encl.toNat / 2 ^ (8 * (off - 0x1000)))
      else if off = 0x1080 then s.enstk.setWidth 64
      else if 0x1100 ≤ off ∧ off < 0x1180 then BitVec.ofNat 64 (s.cworld.toNat / 2 ^ (8 * (off - 0x1100)))
      else if 0x1180 ≤ off ∧ off < 0x11C0 then (s.csworld.toList.getD ((off - 0x1180) / 8) 0).setWidth 64
      else if 0x2000 ≤ off ∧ off < 0x2200 then
        let r := s.regions.toList.getD ((off - 0x2000) / 16) {}
        if !secure then 0 else if off % 16 = 0 then r.lo else r.hi
      else if 0x4000 ≤ off ∧ off < 0x4400 then
        let r := s.assay.toList.getD ((off - 0x4000) / 64) {}
        if !secure && r.sec then 0
        else match off % 64 / 8 with
          | 0 => r.w0
          | 1 => r.vlast
          | 2 => r.cbase
          | 3 => r.sbase
          | 4 => r.tbase
          | _ => 0
      else if 0x3300 ≤ off ∧ off < 0x3400 then
        let t := SMap.at (s.world secure).traces .reset ((off - 0x3300) / 32)
        match off % 32 / 8 with
        | 0 => t.base
        | 1 => t.log2.setWidth 64
        | 2 => t.head.setWidth 64
        | _ => t.tail.setWidth 64
      else if 0x3000 ≤ off ∧ off < 0x3100 then s.readWorld secure off
      else if secure then 0
      else s.readPart off

/-- A read of any size and alignment (R45): a malformed one returns zero. -/
def State.barReadAny (s : State) (secure : Bool) (off size : Nat) : Word :=
  if size = 8 ∧ off % 8 = 0 then s.barRead secure off else 0

end Sys2Proof.Machine
end

