-- ==== Sys2Proof/Machine/Bridge.lean ====
section
/-! DEFINITION. The host over CXL.cache and CXL.mem, and the peers over the fabric (R231, R286 to R288, R311, R332 to
R340, R346). -/

namespace Sys2Proof.Machine

/-! ## Host memory -/

/-- The number of the host line that a device physical address names (R335, R345). -/
def hostLineOf (pa : PAddr) : Nat := pa.toNat % 2 ^ 51 / 64

/-- The bytes of a host line that a mask names written to host memory. -/
def State.writeHost (s : State) (line : Nat) (data : Line64) (mask : BitVec 64) : State :=
  { s with host := (List.range 64).foldl (fun m i =>
      if mask.getLsbD i then m.write (64 * line + i) (BitVec.ofNat 8 (data.toNat / 2 ^ (8 * i))) else m) s.host }

/-- A whole host line written to host memory. -/
def State.writeHostLine (s : State) (line : Nat) (data : Line64) : State := s.writeHost line data (BitVec.allOnes 64)

/-- A fill of the line in flight meets the host's taking it away (R287). -/
def State.takeFill (s : State) (line : Nat) : State :=
  { s with hostFills := s.hostFills.map fun f => if f.line = line then { f with taken := true } else f }

/-! ## Snoops (R286, R335) -/

/-- A fill of the line is in flight. -/
def State.filling (s : State) (line : Nat) : Bool := s.hostFills.any fun f => f.line = line

/-- The host takes a line away: the cache answers at once, may keep the old data, and raises HMTS. A snoop that meets a fill
of the line is answered as for I, also where an S copy is held meanwhile (R286, R287, R335; log 29). -/
def State.snoopInv (s : State) (line : Nat) (keep : Bool) : State :=
  match s.hostLine line with
  | none => (s.takeFill line).emit (.rspIHitI line)
  | some x =>
    let s := if s.filling line then s.emit (.rspIHitI line)
      else if x.state = .m then (s.writeHostLine line x.data).emit (.rspIFwdM line x.data)
      else s.emit (.rspIHitSE line)
    let others := s.superseded.filter fun y => y.line ≠ line
    let s := { s.dropHostLine line with
      superseded := if keep then { line := line, data := x.data, stamp := x.stamp } :: others else others }
    (s.takeFill line).raiseHmts line x.stamp.rts

/-- SnpInv, with the host write that it serves, if any. -/
def execSnpinv (pa : PAddr) (w : Option HostWrite) (keep : Bool) (s : State) : Host.Outcome State Fault Refusal :=
  happen (modify fun s =>
    let line := hostLineOf pa
    let s := s.snoopInv line keep
    match w with
    | some w => s.writeHost line w.data w.mask
    | none => s) s

/-- SnpData: the line is shared. One that meets a fill of the line is answered as for I, so that no copy stays, and the
data that arrives is governed by R287 (R335; log 29). -/
def State.snoopData (s : State) (line : Nat) : State :=
  if s.filling line then (s.snoopInv line false)
  else match s.hostLine line with
  | none => s.emit (.rspIHitI line)
  | some x =>
    let s := if x.state = .m then (s.writeHostLine line x.data).emit (.rspSFwdM line x.data)
      else s.emit (.rspSHitSE line)
    { s with hostLines := s.hostLines.map fun y => if y.line = line then { y with state := .s } else y }

def execSnpdata (pa : PAddr) (s : State) : Host.Outcome State Fault Refusal :=
  happen (modify fun s => s.snoopData (hostLineOf pa)) s

/-- SnpCur: data from a line in M, and nothing changes. -/
def State.snoopCur (s : State) (line : Nat) : State :=
  match s.hostLine line with
  | some x => if x.state = .m then s.emit (.snpCurData line x.data) else s
  | none => s

def execSnpcur (pa : PAddr) (s : State) : Host.Outcome State Fault Refusal :=
  happen (modify fun s => s.snoopCur (hostLineOf pa)) s

/-! ## Fills and write entries (R286 to R288, R335, R346) -/

/-- The set and bridge die of a host line. -/
def hostSet (line : Nat) : Nat × Nat := (line % 2, line / 2 % 16384)

/-- Room made for a line: the least recently used of a full set is evicted, and HMTS covers it (log 29). -/
def State.roomForHost (s : State) (line : Nat) : State :=
  let set := s.hostLines.filter fun x => hostSet x.line = hostSet line
  if set.length < 16 then s
  else match set.getLast? with
    | none => s
    | some v =>
      let s := if v.state = .m then (s.writeHostLine v.line v.data).emit (.dirtyEvict v.line v.data)
        else s.emit (.cleanEvict v.line)
      (s.dropHostLine v.line).raiseHmts v.line v.stamp.rts

/-- The data of a line that was taken away meanwhile answers a load that waits for it, at that load's own pts, which HMTS
then covers (R287). -/
def State.answer (s : State) (line : Nat) (data : Line64) (w : Waiter) : State :=
  let a : HostAnswer := { line := line, data := data, wts := w.pts }
  let s := match w.unit with
    | none => s.mapCtx w.ctx fun k => { k with hostAnswers := a :: k.hostAnswers }
    | some u => { s with unitAnswers := (u, a) :: s.unitAnswers }
  s.raiseHmts line w.pts

/-- The answer of the host to a fill: a line taken away meanwhile answers the loads that wait for it; one with a write
entry is dropped; any other is installed at HMTS + 1, where HMTS has taken in the S copy that it replaces (R286, R287;
log 29). -/
def State.hostAnswer (s : State) (line : Nat) (exclusive : Bool) : State :=
  match s.hostFills.find? fun f => f.line = line with
  | none => s
  | some f =>
    let data : Line64 := BitVec.ofNat 512 (s.host.readN (64 * line) 64)
    let s := { s with hostFills := s.hostFills.filter fun g => g.line ≠ line }
    if f.taken then f.waiters.foldl (fun s w => s.answer line data w) s
    else if (s.writeEntry line).isSome then s
    else
      let s : State := match s.hostLine line with
        | some x => s.raiseHmts line x.stamp.rts
        | none => s.roomForHost line
      let t : Ts := s.hmts line + 1
      let state := if exclusive || f.own then HostState.e else .s
      (s.setHostLine { line := line, state := state, data := data, stamp := { wts := t, rts := t } }).assign t

def execGoS (pa : PAddr) (exclusive : Bool) (s : State) : Host.Outcome State Fault Refusal :=
  happen (modify fun s => s.hostAnswer (hostLineOf pa) exclusive) s

/-- A write of a context at system scope has been acknowledged (R303). -/
def State.acked (s : State) (c : CtxId) : State := s.mapCtx c fun k => { k with sout := k.sout - 1 }

/-- The host's GO for a write entry: its bytes are in host memory, and the line stays in I (R346). -/
def State.releaseEntry (s : State) (line : Nat) : State :=
  match s.writeEntry line with
  | none => s
  | some e =>
    let s := { s.writeHost line e.data e.mask with
      writeEntries := s.writeEntries.filter fun (y : WriteEntry) => y.line ≠ line }
    e.owners.foldl State.acked s

def execWriteEntryRelease (pa : PAddr) (s : State) : Host.Outcome State Fault Refusal :=
  happen (modify fun s => s.releaseEntry (hostLineOf pa)) s

/-- A superseded copy is dropped (R286). -/
def execSupersededCopyDrop (pa : PAddr) (s : State) : Host.Outcome State Fault Refusal :=
  happen (modify fun (s : State) => { s with
    superseded := s.superseded.filter fun x => x.line ≠ hostLineOf pa }) s

/-! ## Device memory seen by the host (R332, R334, R336) -/

/-- A range of HBM that the host may reach: it lies in HBM, and in the normal world; none does once the compute dies have
lost their power (R407; log 58). -/
def State.hostReaches (s : State) (pa n : Nat) : Bool :=
  !s.dark && decide (pa + n ≤ s.hbmEnd) && !s.secureMem pa && !s.secureMem (pa + n - 1)

/-- Bytes stored at their homes with pts equal to HIGH, a 128-byte unit at a time (R334). -/
def State.storeBytes (s : State) (inval : Bool) : Nat → Nat → List Byte → State
  | 0, _, _ => s
  | f + 1, pa, bs =>
    if bs.isEmpty then s
    else
      let k := min bs.length (128 - pa % 128)
      let v := packElems 8 ((bs.take k).map (·.toNat))
      State.storeBytes (s.storeHome (pa / 128) (pa % 128) k v s.high inval).1 inval f (pa + k) (bs.drop k)

/-- A host write through CXL.mem: performed, or discarded where it is refused, as it is where it meets bytes that only `CPYA`
may write (R103); the completion follows (log 48). -/
def State.hostWrite (s : State) (pa : PAddr) (bytes : List Byte) : State :=
  let s := if s.hostReaches pa.toNat bytes.length && !s.assayBytes pa.toNat bytes.length then s.storeBytes false (bytes.length + 1) pa.toNat bytes else s
  s.emit (.memWriteDone pa)

def execHostCxlMemWrite (pa : PAddr) (bytes : List Byte) (s : State) : Host.Outcome State Fault Refusal :=
  happen (modify fun s => s.hostWrite pa bytes) s

/-- A host read through CXL.mem: HBM's own bytes, or all ones with poison. Whether the host receives a line of the
host-coherent region in E or M is free (log 29, 48). -/
def State.hostRead (s : State) (pa : PAddr) (n : Nat) : State :=
  if s.hostReaches pa.toNat n then
    let line := pa.toNat / 128
    let s := s.emit (.memReadData pa ((List.range n).map fun i => s.hbm.read (pa.toNat + i)) false)
    if s.hostCoherent line then
      { s with
        choices := s.choices + 1
        hostOwned := if Config.schedule s.choices % 2 = 1 ∧ ¬s.hostOwned.contains line then s.hostOwned ++ [line]
          else s.hostOwned }
    else s
  else s.emit (.memReadData pa (List.replicate n 0xFF) true)

def execHostCxlMemRead (pa : PAddr) (n : BitVec 8) (s : State) : Host.Outcome State Fault Refusal :=
  happen (modify fun s => s.hostRead pa n.toNat) s

/-- The host's data for a line that it owned: stored at home as a host store, but for bytes that only `CPYA` writes, and the
ownership bit is cleared (R103, R336). -/
def State.backData (s : State) (line : Nat) (data : Vec) : State :=
  if s.backInvals.any fun b => b.line = line ∧ b.forData then
    let s := if s.assayBytes (line * 128) 128 then s else (s.storeHome line 0 128 data.toNat s.high false).1
    { s with
      backInvals := s.backInvals.filter fun b => !(b.line = line ∧ b.forData)
      hostOwned := s.hostOwned.filter (· ≠ line) }
  else s

def execBisnpdataResponse (pa : PAddr) (data : Vec) (s : State) : Host.Outcome State Fault Refusal :=
  happen (modify fun s => s.backData (pa.toNat / 128) data) s

/-- The host acknowledges a BISnpInv: the write is no longer outstanding, and the ownership bit is cleared (R288). -/
def State.backAck (s : State) (line : Nat) : State :=
  match s.backInvals.find? fun b => b.line = line ∧ b.forData = false with
  | none => s
  | some b =>
    b.owners.foldl State.acked { s with
      backInvals := dropFirst (fun x => decide (x.line = line) && !x.forData) s.backInvals
      hostOwned := s.hostOwned.filter (· ≠ line) }

def execBisnpinvAck (pa : PAddr) (s : State) : Host.Outcome State Fault Refusal :=
  happen (modify fun s => s.backAck (pa.toNat / 128)) s

/-! ## Peers (R231, R337 to R340) -/

/-- An enabled window admits a node's access to a range (R338, R340). -/
def State.admits (s : State) (src : BitVec 22) (pa n : Nat) : Bool :=
  s.peers.toList.any fun w =>
    w.lo.getLsbD 63 && decide (w.src.toNat = src.toNat ∨ w.src.toNat = 0x3F_FFFF) &&
      decide (field w.lo 51 21 * 2 ^ 21 ≤ pa) && decide (pa + n ≤ field w.hi 51 21 * 2 ^ 21 + 2 ^ 21)

/-- An answer to a peer node, on the link that its address takes (R337, R338; log 25). -/
def State.reply (s : State) (node : BitVec 22) (addr : Nat) (v : PeerVerdict) (n : Nat) (data : Vec) : State :=
  s.sendFlit ((s.linkFor node addr).getD 0) node (.reply v) (BitVec.ofNat 64 addr) n data

/-- A peer's write of a unit or a part of one: performed as a store with pts equal to HIGH, or refused, as it is where it
meets bytes that only `CPYA` may write (R103, R338; log 48). -/
def State.peerWrite (s : State) (src : BitVec 22) (pa n : Nat) (data : Vec) : State :=
  if s.admits src pa n && s.hostReaches pa n && !s.assayBytes pa n then
    (s.storeBytes true (n + 1) pa ((List.range n).map fun i => BitVec.ofNat 8 (data.toNat / 2 ^ (8 * i)))).reply src pa
      .performed 0 0
  else s.reply src pa .refused 0 0

def execPeerWrite (src : BitVec 22) (pa : PAddr) (data : Vec) (s : State) : Host.Outcome State Fault Refusal :=
  happen (modify fun s => s.peerWrite src pa.toNat 128 data) s

/-- A peer's read of a unit or a part of one: the bytes, or the refusal (R338); a line that the host owns is asked back first
(R336). -/
def peerRead (src : BitVec 22) (pa n : Nat) : Eff Unit := do
  let s ← get
  if s.admits src pa n && s.hostReaches pa n then
    readOwnedAll [pa / 128, (pa + n - 1) / 128]
    modify fun s => s.reply src pa .performed n (BitVec.ofNat 1024 (s.hbm.readN pa n))
  else modify fun s => s.reply src pa .refused 0 0

/-- A peer's event message: appended with pts equal to HIGH, refused and counted, or left outside while the queue is full
(R311, R339; log 48). -/
def State.peerMessage (s : State) (src : BitVec 22) (p : Nat) (l : BitVec 6) (msg : Word) : State :=
  let e := s.line p l
  if s.dark || !s.enabled p || (s.cluster p).secure || (s.cluster p).placed.isNone || e.mode ≠ .msg then
    ({ s with pxref := s.pxref + 1 } : State).reply src (64 * p + l.toNat) .refused 0 0
  else if 16 ≤ e.queue.length then s
  else (s.appendMessage p l s.high msg).1.reply src (64 * p + l.toNat) .performed 0 0

def execPeerEvmsgArrival (src : BitVec 22) (cluster : BitVec 10) (line : BitVec 6) (msg : Word) (s : State) :
    Host.Outcome State Fault Refusal :=
  happen (modify fun s => s.peerMessage src cluster.toNat line msg) s

/-- The peer copy that a flit belongs to, where it is still in progress, is to fault at its next `JOB_FAULT` (R231, R338). -/
def State.failPeer (s : State) (p q : Nat) (id : BitVec 16) (code : BitVec 8) (link : Bool) (addr : Word) : State :=
  s.mapCopy p q fun j =>
    if j.id = id ∧ j.failed.isNone then { j with failed := some (code, link, addr) } else j

/-- A unit that a peer copy has read arrives: it is written as any unit of a copy is (R230, R338). -/
def peerData (p q : Nat) (f : Flit) (data : Vec) : Eff Unit := do
  let s ← get
  match s.runningJob p true q with
  | none => pure ()
  | some j =>
    let all := j.kind.parts
    let waits (n : Nat) : Bool := s.flits.any fun g => g.job = f.job ∧ some g.local_ = (all[n]?).map (·.dst)
    match j.kind, all.findIdx? fun u => u.dst = f.local_ with
    | .peerCopy _ _ _ false _, some n =>
      match all[n]? with
      | some u =>
        if f.job = some (p, q, j.id) ∧ j.failed.isNone then
          let pts ← writePart { s.jobThread p j with unit := some (.copy p q n) } all
            (j.units.filter fun k => !waits k) [n] u data.toNat j.time
          modify fun s => s.mapCopy p q fun j => { j with time := tsMax j.time pts }
      | none => pure ()
    | _, _ => pure ()

/-- A message is acknowledged, or lost and counted (R339). -/
def State.messageOver (s : State) (f : Flit) (lost : Bool) : State :=
  let s := s.acked f.sender
  if lost then { s with pxlost := s.pxlost + 1 } else s

/-- What became of a flit or message at the peer (log 25). -/
def fabricAck (i : Nat) (v : PeerVerdict) (data : Vec) : Eff Unit := do
  let s ← get
  match s.flits[i]? with
  | none => pure ()
  | some f =>
    let gone (s : State) : State := { s with flits := s.flits.eraseIdx i }
    match f.job, v with
    | none, v => set ((gone s).messageOver f (v == .lost))
    | some (p, q, id), .performed =>
      match (peerData p q f data).run s with
      | .ok _ s' => set (gone s')
      | .error (.trap t) s' => set (gone (s'.failPeer p q id t.cause.code false t.faddr))
      | .error e s' =>
        set s'
        throw e
    | some (p, q, id), .refused => set (gone (s.failPeer p q id 0x11 false (BitVec.ofNat 64 f.peer)))
    | some (p, q, id), .lost => set (gone (s.failPeer p q id 0x29 true f.local_))

def execFabricAck (i : Nat) (v : PeerVerdict) (data : Vec) (s : State) : Host.Outcome State Fault Refusal :=
  happen (fabricAck i v data) s

/-- A link fails: its unacknowledged flits are abandoned, their jobs fault, and its messages are lost (R231, R338,
R339; log 25). -/
def State.linkDown (s : State) (link : BitVec 5) : State :=
  let (gone, rest) := s.flits.partition fun f => f.link = link.toNat
  let s := { s with linkup := s.linkup &&& ~~~((1 : BitVec 32) <<< link.toNat), flits := rest }
  gone.foldl (fun s f => match f.job with
    | none => s.messageOver f true
    | some (p, q, id) => s.failPeer p q id 0x29 true f.local_) s

def execLinkFailure (link : BitVec 5) (s : State) : Host.Outcome State Fault Refusal :=
  happen (modify fun s => s.linkDown link) s

/-- A link comes up (R341). -/
def execLinkUp (link : BitVec 5) (s : State) : Host.Outcome State Fault Refusal :=
  happen (modify fun (s : State) => { s with linkup := s.linkup ||| ((1 : BitVec 32) <<< link.toNat) }) s

end Sys2Proof.Machine
end

