-- ==== Sys2Proof/Machine/Fp.lean ====
section
/-! DEFINITION. The scalar floating-point instructions of majors 0x10 and 0x11 (R168 to R173). -/

namespace Sys2Proof.Machine

/-- The rounding mode that RM selects (R167). -/
def State.mode (s : State) (rm : Rm) : Mode := resolveMode rm s.me.roundm

/-- The low bits of a register that a format reads (R168). -/
def State.fbits (s : State) (f : View) (r : XReg) : Nat := (s.x r).toNat % 2 ^ (viewFmt f).width
/-- Their value. -/
def State.fval (s : State) (f : View) (r : XReg) : FV := (viewFmt f).decode (s.fbits f r)

/-- A result and its flags written to x[D], zero-extended (R168). -/
def fpWrite (p : Pred) (d : XReg) (f : State → Nat × Flags) (s : State) : Host.Outcome State Fault Refusal :=
  plain p (doing fun s =>
    let r := f s
    (s.setX d (BitVec.ofNat 64 r.1)).addFlags r.2) s

/-- `FADD` (R169). -/
def execFadd (p : Pred) (f : View) (rm : Rm) (d a b : XReg) (s : State) : Host.Outcome State Fault Refusal :=
  fpWrite p d (fun s => fpAdd (viewFmt f) (s.mode rm) (s.fval f a) (s.fval f b)) s
/-- `FSUB` (R169). -/
def execFsub (p : Pred) (f : View) (rm : Rm) (d a b : XReg) (s : State) : Host.Outcome State Fault Refusal :=
  fpWrite p d (fun s => fpSub (viewFmt f) (s.mode rm) (s.fval f a) (s.fval f b)) s
/-- `FMUL` (R169). -/
def execFmul (p : Pred) (f : View) (rm : Rm) (d a b : XReg) (s : State) : Host.Outcome State Fault Refusal :=
  fpWrite p d (fun s => fpMul (viewFmt f) (s.mode rm) (s.fval f a) (s.fval f b)) s
/-- `FFMA` (R169). -/
def execFfma (p : Pred) (f : View) (rm : Rm) (d a b c : XReg) (s : State) : Host.Outcome State Fault Refusal :=
  fpWrite p d (fun s => fpFma (viewFmt f) (s.mode rm) (s.fval f a) (s.fval f b) (s.fval f c)) s
/-- `FDIV` (R169). -/
def execFdiv (p : Pred) (f : View) (rm : Rm) (d a b : XReg) (s : State) : Host.Outcome State Fault Refusal :=
  fpWrite p d (fun s => fpDiv (viewFmt f) (s.mode rm) (s.fval f a) (s.fval f b)) s
/-- `FSQRT` (R169). -/
def execFsqrt (p : Pred) (f : View) (rm : Rm) (d a : XReg) (s : State) : Host.Outcome State Fault Refusal :=
  fpWrite p d (fun s => fpSqrt (viewFmt f) (s.mode rm) (s.fval f a)) s
/-- `FMIN` (R170). -/
def execFmin (p : Pred) (f : View) (d a b : XReg) (s : State) : Host.Outcome State Fault Refusal :=
  fpWrite p d (fun s => fpMinMax (viewFmt f) false (s.fbits f a) (s.fbits f b)) s
/-- `FMAX` (R170). -/
def execFmax (p : Pred) (f : View) (d a b : XReg) (s : State) : Host.Outcome State Fault Refusal :=
  fpWrite p d (fun s => fpMinMax (viewFmt f) true (s.fbits f a) (s.fbits f b)) s
/-- `FCMP.cc` (R171). -/
def execFcmp (p : Pred) (cc : FCond) (f : View) (d a b : XReg) (s : State) : Host.Outcome State Fault Refusal :=
  fpWrite p d (fun s =>
    let r := fpCompare cc (s.fval f a) (s.fval f b)
    (if r.1 then 1 else 0, r.2)) s
/-- `FCLASS`: one bit set, no flag (R172). -/
def execFclass (p : Pred) (f : View) (d a : XReg) (s : State) : Host.Outcome State Fault Refusal :=
  fpWrite p d (fun s => (2 ^ fpClass (viewFmt f) (s.fbits f a), 0)) s

/-- The checks 2 and 3 of R173, made whatever the predicate (R20). -/
def checkCvt (c : CvtSpec) : Eff Unit := do
  if !convertible c.dst || !convertible c.src then fail .fmtmix
  if cvtClash c then fail .illop

/-- The 64 bits that a conversion writes: an integer extended to them, a floating-point value zero-extended (R173). -/
def cvtResult (c : CvtSpec) (bits : Nat) : Word :=
  match cvtSide c c.dst with
  | .int w => if c.uns then BitVec.ofNat 64 bits else BitVec.ofInt 64 (signedOf w bits)
  | _ => BitVec.ofNat 64 bits

/-- `FCVT` (R173). -/
def execFcvt (p : Pred) (rm : Rm) (c : CvtSpec) (d a : XReg) (s : State) : Host.Outcome State Fault Refusal :=
  perform (do
    checkCvt c
    under p (doing fun s =>
      let r := cvtApply c (s.mode rm) ((s.x a).toNat % 2 ^ (cvtSide c c.src).width)
      (s.setX d (cvtResult c r.1)).addFlags r.2)) s

end Sys2Proof.Machine
end

