-- ==== Sys2Proof/Machine/Internal.lean ====
section
/-! DEFINITION. What reaches waiting contexts from inside the part: timestamp replies, walks, write-backs, refetched
lines, forwarded groups, and fault records on their way to their ring (R74, R83, R110, R130, R131, R274, R277, R278,
R311, R408). -/

namespace Sys2Proof.Machine

/-! ## Timestamps on their way back (R274, R277) -/

/-- The reply of an access, of a store or of a load, reaches its context: pts takes the timestamp. -/
def State.replyTo (s : State) (c : CtxId) (store : Bool) : State :=
  match (s.ctx c).reply with
  | some (b, t) =>
    if b = store then (s.mapCtx c fun k => { k with pts := tsMax k.pts t, reply := none }).assign t else s
  | none => s

def execRenewalReply (c : CtxId) (s : State) : Host.Outcome State Fault Refusal :=
  happen (modify fun s => s.replyTo c false) s

def execStoreReply (c : CtxId) (s : State) : Host.Outcome State Fault Refusal :=
  happen (modify fun s => s.replyTo c true) s

/-! ## Walks, write-backs and copies (R74, R76, R278, R408) -/

/-- A translation put into the TLBs of the core and cluster that asked for it (R76). -/
def State.fillTlb (s : State) (w : Walk) (e : Tlb) : State :=
  let s := s.mapCluster w.cluster fun k => { k with tlb := tlbInsert e 2048 k.tlb }
  s.mapCore w.ctx.core.toNat fun c =>
    if w.fetch then { c with itlb := tlbInsert e 32 c.itlb } else { c with dtlb := tlbInsert e 64 c.dtlb }

/-- A walk ends: its translation fills the TLBs, or the context that waits for it has its fault to raise, in its turn (R74,
R331; log 47). -/
def State.walked (s : State) (i : Nat) (w : Walk) (r : Except Trap Tlb) : State :=
  let s := { s with walks := s.walks.eraseIdx i }
  match r with
  | .ok e => s.fillTlb w e
  | .error t =>
    let k := s.ctx w.ctx
    if k.run ≠ .free ∧ k.run ≠ .faulted ∧ k.wait = .access then s.mapCtx w.ctx fun k => { k with grant := .fault t } else s

/-- The walk of a number ends, once the host has given the data of the buckets that it owns (R336). An error that it meets in
a bucket is the machine check of the access that waits for it (R380, R381). -/
def walkDone (i : Nat) : Eff Unit := do
  let s ← get
  match s.walks[i]? with
  | none => pure ()
  | some w =>
    match (readSources (s.threadOf w.ctx) w.acc (s.walkLines w.secure w.asid w.va)).run s with
    | .ok _ s' => set (s'.walked i w (s'.walk w.secure w.asid w.va |>.mapError fun d =>
        { cause := .page, faddr := w.faddr, acc := w.acc, detail := d }))
    | .error (.trap t) s' => set (s'.walked i w (.error t))
    | .error e s' =>
      set s'
      throw e

def execWalkCompletion (i : Nat) (s : State) : Host.Outcome State Fault Refusal :=
  happen (walkDone i) s

/-- An evicted dirty line has reached HBM, and its refill may proceed (R408). -/
def execL2WritebackDone (line : BitVec 45) (s : State) : Host.Outcome State Fault Refusal :=
  happen (modify fun (s : State) => { s with l2Writebacks := s.l2Writebacks.filter fun x => x ≠ line.toNat }) s

/-- An L1 drops a copy of its own accord (R278). -/
def execL1CopyDrop (cluster : BitVec 10) (line : BitVec 45) (s : State) : Host.Outcome State Fault Refusal :=
  happen (modify fun s => s.mapCluster cluster.toNat fun k => { k with l1 := SMap.erase k.l1 line.toNat }) s

/-! ## The second copy of a code line (R110) -/

/-- The line read at its home slice by a context, past the L1, whose copy it replaces: the line's bytes and its physical
address (log 49). -/
def refetchLine (c : CtxId) (line : Word) : Eff (Line64 × Nat) := do
  let s ← get
  let t := s.threadOf c
  let pc := (s.ctx c).pc
  let e ← match s.held t true line with
    | some e => pure e
    | none => translateNow t 0 pc line
  match ← placeOf t .fetch 0 pc e line with
  | .mem pa =>
    if (s.l2.find? fun x => x.line = pa / 128).isNone then
      readOwned (pa / 128)
      readyFill t 0 pc (pa / 128)
    else meetError t.secure 0 1 (pa / 128) pa
    modify fun s =>
      let s := s.renew t.cluster (pa / 128) (s.ctx c).pts t.lease true
      let w := (s.l2Line (pa / 128)).stamp.wts
      (s.mapCtx c fun k => { k with pts := tsMax k.pts w }).assign (tsMax (s.ctx c).pts w)
    let s ← get
    return (BitVec.ofNat 512 ((s.lineData (pa / 128)).toNat / 2 ^ (8 * (pa % 128))), pa)
  | _ => fail .perm pc

/-- The second copy arrives: the context goes on with it and the error is logged, or it has LINEPAR to raise, in its turn
(R110, R331; log 28, 49). -/
def State.refetched (s : State) (c : CtxId) : State :=
  match (s.ctx c).wait with
  | .refetch line =>
    if (s.ctx c).refetched.any fun e => e.1 = line then s
    else match (refetchLine c line).run s with
      | .ok (d, pa) s' =>
        if parityOk d then
          (s'.logError (s.launchAt c).secure false pa).mapCtx c fun k => { k with refetched := (line, d) :: k.refetched }
        else s'.mapCtx c fun k => { k with grant := .fault { cause := .linepar } }
      | .error (.trap t) s' => s'.mapCtx c fun k => { k with grant := .fault t }
      | .error _ s' => s'
  | _ => s

def execLineRefetch (c : CtxId) (s : State) : Host.Outcome State Fault Refusal :=
  happen (modify fun s => s.refetched c) s

/-! ## Rolls (R130, R131, R133) -/

/-- The first group on its way to a context. -/
def State.nextForward (s : State) (c : CtxId) : Option Forward := s.forwards.find? fun f => f.follower = c

/-- A forwarded group arrives, no sooner than 4 cycles after its issue: into the follower's queue, or the follower is
left at that group when the queue is full (R130, R133). Groups for a context that has left the roll are discarded
(log 20). -/
def State.groupArrives (s : State) (c : CtxId) : State :=
  match s.nextForward c with
  | none => s
  | some f =>
    if s.clock < f.issued + 4 then s
    else
      let rest := { s with forwards := dropFirst (fun g => g.follower = c) s.forwards }
      let discard : State := { s with forwards := s.forwards.filter fun g => g.follower ≠ c }
      match (s.ctx c).roll with
      | .waiting _ _ _ _ (some _) _ => s
      | .following l q e =>
        if l ≠ f.leader then rest
        else if q.length < 16 then rest.mapCtx c fun k => { k with roll := .following l (q ++ [f.group]) e }
        else discard.mapCtx c fun k => { k with roll := .following l q (some f.group.pc) }
      | _ => rest

def execRollGroupArrival (c : CtxId) (s : State) : Host.Outcome State Fault Refusal :=
  happen (modify fun s => s.groupArrives c) s

/-- A waiting `FOLLOW` ends: the context follows the leader that has issued its target, or goes on alone at the target
when no leader is left to issue it, or when its core already has a follower (R130, R131; log 20). -/
def State.followJoin (s : State) (c : CtxId) : State :=
  match (s.ctx c).roll with
  | .waiting _ target _ runners leader ended =>
    let go (r : Roll) : State :=
      let s := { s with active := c }
      let pc := s.me.pc
      (s.mapMe fun k => { k with roll := r, line := none }).retire (.go target (.transfer pc))
    match leader with
    | some l => if s.otherFollower c then go .none else go (.following l [] ended)
    | none => if runners = [] then go .none else s
  | _ => s

def execFollowJoin (c : CtxId) (s : State) : Host.Outcome State Fault Refusal :=
  happen (modify fun s => s.followJoin c) s

/-! ## Fault records (R83, R311) -/

/-- A notification by an event line: its SEQ as a message to a MSG line, a signal of a line of another mode, and nothing
where no launch of the world is placed or the line is a MUTEX; none while the queue is full (R85, R308, R311; log 45). -/
def State.noticeLine (s : State) (secure : Bool) (n : Notice) (p : Nat) (l : BitVec 6) : Option State :=
  let e := s.line p l
  if (s.cluster p).placed.isNone || (s.cluster p).secure != secure then some s
  else match e.mode with
    | .msg => if 16 ≤ e.queue.length then none else some (s.appendMessage p l n.time n.seq).1
    | .mutex => some s
    | _ => some (s.actLine p l n.time fun e => e.signal (0, 0) n.time).1

/-- The first notification of a world made, when it may be: none while it waits (log 45). -/
def State.notify (s : State) (secure : Bool) (n : Notice) : Option State :=
  let waits := match n.host with
    | some line => (s.writeEntry line).isSome
    | none => false
  if waits then none
  else match n.line with
    | none => some (s.emit (.msix (if secure then 3 else 1)))
    | some (p, l) => s.noticeLine secure n p l

/-- The fault ring of a world can take a record (R83). -/
def WorldRegs.ringRoom (w : WorldRegs) : Bool :=
  w.frlog2 != 0 && decide ((w.frhead.toNat + 1) % 2 ^ w.frlog2.toNat ≠ w.frtail.toNat % 2 ^ w.frlog2.toNat)

/-- The four words of a record as one number. -/
def FaultRecord.bits (r : FaultRecord) : Nat := packElems 64 [r.w0.toNat, r.w1.toNat, r.w2.toNat, r.w3.toNat]

/-- The launch that a record names counts it, placed or not (R387, R388; log 45). -/
def State.countFault (s : State) (secure : Bool) (id : BitVec 32) : State :=
  { s with queues := SMap.update s.queues fun _ k => { k with
      admitted := k.admitted.map fun l =>
        if l.secure = secure ∧ l.launchid = id then { l with faults := l.faults + 1 } else l } }

/-- The next waiting record written at FRHEAD, with the notification to follow it (R83; log 45, 46). -/
def writeRecord (secure : Bool) : Eff Unit := do
  let s ← get
  let w := s.world secure
  match w.waiting with
  | [] => pure ()
  | r :: rest =>
    if !w.ringRoom then return ()
    let at_ := w.frbase.toNat + 32 * (w.frhead.toNat % 2 ^ w.frlog2.toNat)
    let host := decide (2 ^ 51 ≤ at_)
    let ha := at_ - 2 ^ 51
    let (s', wts) :=
      if !host && !s.mayStore secure at_ 32 then (s, s.high)
      else if host then s.storeHostHome (ha / 64) (ha % 64) 32 r.bits s.high
      else s.storeHome (at_ / 128) (at_ % 128) 32 r.bits s.high true
    let n : Notice :=
      { seq := (r.w3.setWidth 32).setWidth 64, time := wts, host := if host then some (ha / 64) else none
        line := if w.supv.getLsbD 63 then some (field w.supv 25 16, BitVec.ofNat 6 (field w.supv 5 0)) else none }
    set ((s'.mapWorld secure fun w => { w with
      waiting := rest, notices := w.notices ++ [n]
      frhead := BitVec.ofNat 16 ((w.frhead.toNat + 1) % 2 ^ w.frlog2.toNat) }).countFault secure (r.w3.extractLsb' 32 32))

/-- A waiting record is written, or the notification of one that has been written is made (R83; log 45). -/
def faultRecordWrite (secure : Bool) : Eff Unit := do
  let s ← get
  match (s.world secure).notices with
  | [] => writeRecord secure
  | n :: rest =>
    match s.notify secure n with
    | some s' => set (s'.mapWorld secure fun w => { w with notices := rest })
    | none => writeRecord secure

def execFaultRecordWrite (secure : Bool) (s : State) : Host.Outcome State Fault Refusal :=
  happen (faultRecordWrite secure) s

end Sys2Proof.Machine
end

