-- ==== Sys2Proof/Machine/Manage.lean ====
section
/-! DEFINITION. Management over MCTP, and reset (R235, R401, R404, R405). -/

namespace Sys2Proof.Machine

/-- The part number (R401, R404). -/
abbrev partNumber : BitVec 32 := 0x0000_8192

/-- Identity (R404; log 8). -/
def execIdentity (s : State) : Host.Outcome State Fault Refusal :=
  happen (modify fun s => s.emit (.identity partNumber s.encl s.enstk Config.fuseRevision)) s

/-- Sensors (R404). -/
def execSensors (s : State) : Host.Outcome State Fault Refusal := happen (modify fun s => s.emit (.sensors s.sensors)) s

/-- Errors: CCNT, CLOSS and CEADDR of both worlds (R404). -/
def execErrors (s : State) : Host.Outcome State Fault Refusal :=
  happen (modify fun s =>
    let of (w : WorldRegs) := (w.ccnt, w.closs, w.ceaddr)
    s.emit (.errors (of s.normal) (of s.secure))) s

/-- Handle-store dump: it begins, and its slots are read at moments of their own (R404; log 51). -/
def execHandleStoreDump (cluster : BitVec 10) (s : State) : Host.Outcome State Fault Refusal :=
  happen (modify fun (s : State) => { s with dumps := s.dumps ++ [(cluster, 0)] }) s

/-- The next slot of a dump read whole, in the layout of R42: zeros for a secure cluster, and for one without power (R404,
R407; log 51, 58). -/
def State.dumpSlot (s : State) (k : Nat) : State :=
  match s.dumps[k]? with
  | none => s
  | some (p, i) =>
    let (a, b, c, d) := if s.dark || (s.cluster p.toNat).secure then (0, 0, 0, 0) else s.slotWords p.toNat i
    let s := s.emit (.handleSlot i a b c d)
    { s with dumps := if i + 1 < 2048 then s.dumps.set k (p, i + 1) else s.dumps.eraseIdx k }

/-- Power limit: read, or written as its register is (R404, R405). -/
def execPowerLimit (w : Option Word) (s : State) : Host.Outcome State Fault Refusal :=
  happen (modify fun s => match w with
    | none => s.emit (.powerLimit s.plimit)
    | some v => s.writePart 0x3230 v) s

/-- A conventional reset (R401): every launch ends without a record, everything the part holds is as after reset, and
host memory, the fuses, the readings and what lies outside the part stand as they were (log 4). Throttling is in force at
once where those readings call for it (R406). -/
def State.conventionalReset (s : State) : State :=
  State.limit { State.reset with
    host := s.host, encl := s.encl, enstk := s.enstk, sensors := s.sensors, flowLow := s.flowLow.map fun _ => 0
    out := s.out, agenda := s.agenda, choices := s.choices }

def execConventionalReset (s : State) : Host.Outcome State Fault Refusal := happen (modify State.conventionalReset) s

/-- The end of a reset: READY is 1 (R401). -/
def execReady (s : State) : Host.Outcome State Fault Refusal := happen (modify fun (s : State) => { s with ready := true }) s

end Sys2Proof.Machine
end

