-- ==== Sys2Proof/Machine/Memory.lean ====
section
/-! DEFINITION. Scalar and vector loads and stores, lane slices and prefetch (R192 to R199, R208). -/

namespace Sys2Proof.Machine

/-! ## Scalar (R196) -/

/-- The bytes of a scalar size. -/
def sizeBytes (z : Size) : Nat :=
  match z with
  | .q => 1
  | .h => 2
  | .w => 4
  | .d => 8

/-- `LD` (R196): a D of 0 performs the access and discards the value. -/
def execLd (p : Pred) (sx : Bool) (sz : Size) (d a b : XReg) (sh : BitVec 3) (imm : Imm48) (s : State) :
    Host.Outcome State Fault Refusal :=
  guarded p (do
    let s ← get
    let n := sizeBytes sz
    let v ← loadElem (s.address a b sh imm) n
    modify fun s => s.setX d (if sx then BitVec.ofInt 64 (signedOf (8 * n) v) else BitVec.ofNat 64 v)
    return .seq) s

/-- `ST` (R196). -/
def execSt (p : Pred) (sz : Size) (a b c : XReg) (sh : BitVec 3) (imm : Imm48) (s : State) :
    Host.Outcome State Fault Refusal :=
  guarded p (do
    let s ← get
    storeElem (s.address a b sh imm) (sizeBytes sz) (s.x c).toNat
    return .seq) s

/-! ## Vector (R195, R197) -/

/-- The access of one active element: its number and its address. -/
abbrev Lane := Nat × Word

/-- Every active element checked in ascending order, the faults of its own checks first (R193). -/
def placeLanes (check : Word → Eff Place) : List Lane → Eff (List (Lane × Place))
  | [] => pure []
  | e :: r => do
    let p ← check e.2
    let ps ← placeLanes check r
    return (e, p) :: ps

/-- Every unit may be stored to at once, or the whole access waits. -/
def readyLanes (t : Thread) (acc : BitVec 4) (n : Nat) (pts : Ts) : List (Lane × Place) → Eff Unit
  | [] => pure ()
  | e :: r => do
    readyUnit t acc e.1.2 e.2 n pts true
    readyLanes t acc n pts r

/-- What a vector load begins with: what it has loaded before it last waited, at the pts that the context has now. -/
def Context.begun (k : Context) : Gathered :=
  match k.gathered with
  | some g => { g with pts := tsMax g.pts k.pts }
  | none => { values := [], flags := 0, pts := k.pts, reply := false }

/-- One more element loaded. -/
def Gathered.add (g : Gathered) (i v : Nat) (fl : Flags) (pts : Ts) (reply : Bool) : Gathered :=
  { values := g.values ++ [(i, v)], flags := g.flags ||| fl, pts := pts, reply := g.reply || reply }

/-- The elements loaded one by one, ascending, each when it may be with the pts it has then: a wait leaves those that are
loaded, and the load goes on with the next (R195; log 19). -/
def loadLanes (t : Thread) (acc : BitVec 4) (n : Nat) : List (Lane × Place) → Gathered → Eff Gathered
  | [], g => pure g
  | e :: r, g => do
    if g.values.any fun x => x.1 = e.1.1 then loadLanes t acc n r g
    else
      readyUnit t acc e.1.2 e.2 n g.pts false
      let (v, fl, pts, rep) ← loadUnit t acc e.2 n g.pts
      let g := g.add e.1.1 v fl pts rep
      modify fun s => s.mapMe fun k => { k with gathered := some g }
      loadLanes t acc n r g

/-- The elements stored one by one, ascending (R195; log 19). -/
def storeLanes (t : Thread) (n : Nat) (v : Nat → Nat) : List (Lane × Place) → Ts → Eff Ts
  | [], pts => pure pts
  | e :: r, pts => do
    let pts ← storeUnit t e.2 n (v e.1.1) pts
    storeLanes t n v r pts

/-- The value of an element among those loaded, or what the register held. -/
def lookup (vs : List (Nat × Nat)) (old : Nat → Nat) (i : Nat) : Nat :=
  match vs.find? fun e => e.1 = i with
  | some e => e.2
  | none => old i

/-- The active elements with their addresses. -/
def State.lanes (s : State) (p : Pred) (v : View) (addr : Nat → Word) : List Lane :=
  (s.actives p v).map fun i => (i, addr i)

/-- A vector load of elements of n bytes: nothing when none is active (R197). -/
def vecLoad (v : View) (d : VReg) (check : Word → Eff Place) (lanes : List Lane) : Eff Next := do
  let s ← get
  let t := s.threadOf s.active
  let ps ← placeLanes check lanes
  let g ← loadLanes t 1 v.bytes ps s.me.begun
  modify fun s => ((s.setV d (vecOf v.width ((List.range v.elems).map
    (lookup g.values (elem (s.me.regs.v[d.toNat]) v.width))))).addFlags g.flags).returned false g.reply g.pts
  return .seq

/-- A vector store of elements of n bytes (R197). -/
def vecStore (v : View) (c : VReg) (check : Word → Eff Place) (lanes : List Lane) : Eff Next := do
  let s ← get
  let t := s.threadOf s.active
  let ps ← placeLanes check lanes
  readyLanes t 2 v.bytes s.me.pts ps
  let pts ← storeLanes t v.bytes (elem (s.v c) v.width) ps s.me.pts
  modify fun s => s.returned true true pts
  return .seq

/-- An element's checks as a load (R193). -/
def checkLoad (n : Nat) (va : Word) : Eff Place := do
  let s ← get
  locateLoad (s.threadOf s.active) 1 va n

/-- An element's checks as a store (R193). -/
def checkStore (n : Nat) (va : Word) : Eff Place := do
  let s ← get
  locateStore (s.threadOf s.active) .write 2 va n

/-- `LDV` (R193, R197). -/
def execLdv (p : Pred) (v : View) (d : VReg) (a : XReg) (imm : Imm48) (s : State) :
    Host.Outcome State Fault Refusal :=
  guardedV (do
    let s ← get
    let ea := s.base a imm
    let ls := s.lanes p v fun i => ea + BitVec.ofNat 64 (i * v.bytes)
    if ls = [] then return .seq
    if !aligned ea 128 then fail .align ea 1
    vecLoad v d (checkLoad v.bytes) ls) s

/-- `LDVS` (R197). -/
def execLdvs (p : Pred) (v : View) (d : VReg) (a b : XReg) (imm : Imm48) (s : State) :
    Host.Outcome State Fault Refusal :=
  guardedV (do
    let s ← get
    let ls := s.lanes p v fun i => s.base a imm + BitVec.ofNat 64 i * s.x b
    if ls = [] then return .seq
    vecLoad v d (checkLoad v.bytes) ls) s

/-- `LDG` (R197). -/
def execLdg (p : Pred) (v : View) (u : Bool) (d : VReg) (a : XReg) (b : VReg) (sh : BitVec 3) (imm : Imm48)
    (s : State) : Host.Outcome State Fault Refusal :=
  guardedV (do
    let s ← get
    let ls := s.lanes p v fun i => s.base a imm + (s.index v u b i <<< sh.toNat)
    if ls = [] then return .seq
    vecLoad v d (checkLoad v.bytes) ls) s

/-- The 64 bytes of a vector register from a half on. -/
def halfOf (r : Vec) (h : Nat) : Nat := r.toNat / 2 ^ (512 * h) % 2 ^ 512

/-- An `STV` to host memory writes each host line that it covers whole as one store, and the elements of the other
half one by one (R195). -/
def storeHalf (t : Thread) (v : View) (c : Vec) (ps : List (Lane × Place)) (h : Nat) (pts : Ts) : Eff Ts := do
  let half := v.elems / 2
  let mine := ps.filter fun e => e.1.1 / half = h
  match mine with
  | (_, .host ha) :: _ =>
    if mine.length = half then storeUnit t (.host ha) 64 (halfOf c h) pts
    else storeLanes t v.bytes (elem c v.width) mine pts
  | _ => storeLanes t v.bytes (elem c v.width) mine pts

/-- `STV` (R193, R197). -/
def execStv (p : Pred) (v : View) (a : XReg) (c : VReg) (imm : Imm48) (s : State) :
    Host.Outcome State Fault Refusal :=
  guardedV (do
    let s ← get
    let t := s.threadOf s.active
    let ea := s.base a imm
    let ls := s.lanes p v fun i => ea + BitVec.ofNat 64 (i * v.bytes)
    if ls = [] then return .seq
    if !aligned ea 128 then fail .align ea 2
    let ps ← placeLanes (checkStore v.bytes) ls
    readyLanes t 2 v.bytes s.me.pts ps
    let pts ← storeHalf t v (s.v c) ps 0 s.me.pts
    let pts ← storeHalf t v (s.v c) ps 1 pts
    modify fun s => s.returned true true pts
    return .seq) s

/-- `STVS` (R197). -/
def execStvs (p : Pred) (v : View) (a b : XReg) (c : VReg) (imm : Imm48) (s : State) :
    Host.Outcome State Fault Refusal :=
  guardedV (do
    let s ← get
    let ls := s.lanes p v fun i => s.base a imm + BitVec.ofNat 64 i * s.x b
    if ls = [] then return .seq
    vecStore v c (checkStore v.bytes) ls) s

/-- `STS` (R197). -/
def execSts (p : Pred) (v : View) (u : Bool) (a : XReg) (b c : VReg) (sh : BitVec 3) (imm : Imm48) (s : State) :
    Host.Outcome State Fault Refusal :=
  guardedV (do
    let s ← get
    let ls := s.lanes p v fun i => s.base a imm + (s.index v u b i <<< sh.toNat)
    if ls = [] then return .seq
    vecStore v c (checkStore v.bytes) ls) s

/-! ## Lane slices (R199) -/

/-- o(l) of R199. -/
def State.laneOffset (s : State) (a : XReg) (b : Option VReg) (imm : Imm48) (l : Nat) : Word :=
  s.base a imm + match b with
    | some r => BitVec.ofNat 64 (elem (s.v r) 32 l)
    | none => 0

/-- The bytes of lane l's slice of the active context's core (R68, R199), or ALIGN. -/
def checkSlice (acc : BitVec 4) (l : Nat) (o : Word) : Eff Place := do
  if o.toNat % 4 ≠ 0 ∨ 252 < o.toNat then fail .align o acc
  let s ← get
  return .win 0 (s.active.core.toNat * 2 ^ 17 + 0x8000 + 256 * l + o.toNat)

/-- Every active lane checked, the lowest first (R199). -/
def placeSlices (acc : BitVec 4) : List Lane → Eff (List (Lane × Place))
  | [] => pure []
  | e :: r => do
    let p ← checkSlice acc e.1 e.2
    let ps ← placeSlices acc r
    return (e, p) :: ps

/-- `LDL` (R199). -/
def execLdl (p : Pred) (d : VReg) (a : XReg) (b : Option VReg) (imm : Imm48) (s : State) :
    Host.Outcome State Fault Refusal :=
  guardedV (do
    let s ← get
    let t := s.threadOf s.active
    let ps ← placeSlices 1 (s.lanes p .w (s.laneOffset a b imm))
    if ps = [] then return .seq
    let g ← loadLanes t 1 4 ps s.me.begun
    modify fun s => ((s.setV d (vecOf 32 ((List.range 32).map
      (lookup g.values (elem (s.me.regs.v[d.toNat]) 32))))).addFlags g.flags).returned false g.reply g.pts
    return .seq) s

/-- `STL` (R199). -/
def execStl (p : Pred) (a : XReg) (b : Option VReg) (c : VReg) (imm : Imm48) (s : State) :
    Host.Outcome State Fault Refusal :=
  guardedV (do
    let s ← get
    let t := s.threadOf s.active
    let ps ← placeSlices 2 (s.lanes p .w (s.laneOffset a b imm))
    if ps = [] then return .seq
    readyLanes t 2 4 s.me.pts ps
    let pts ← storeLanes t 4 (elem (s.v c) 32) ps s.me.pts
    modify fun s => s.returned true true pts
    return .seq) s

/-! ## Prefetch (R208) -/

/-- One line asked for: nothing where it cannot be had without a fault or a wait. -/
def State.prefetch (s : State) (l2 : Bool) (va : Word) : State :=
  let t := s.threadOf s.active
  let find : Eff Nat := do
    let p ← locate true t .read 1 va va
    match p with
    | .mem pa =>
      readyLine t 1 va (pa / 128) false s.me.pts
      return pa / 128
    | _ => fail .align
  match find.run s with
  | .ok line s' => s'.renew t.cluster line s.me.pts t.lease (!l2)
  | .error _ _ => s

/-- `PREF` (R208). -/
def execPref (p : Pred) (l2 : Bool) (a : XReg) (n : BitVec 3) (imm : Imm48) (s : State) :
    Host.Outcome State Fault Refusal :=
  guarded p (doing fun s =>
    let first := s.base a imm &&& ~~~(127 : Word)
    (List.range (n.toNat + 1)).foldl (fun s i => s.prefetch l2 (first + BitVec.ofNat 64 (128 * i))) s) s

end Sys2Proof.Machine
end

