-- ==== Sys2Proof/Machine/Purse.lean ====
section
/-! DEFINITION. The purse instructions, and the mint that applies what they post (R258 to R271). -/

namespace Sys2Proof.Machine

/-- The address of a cell checked, ACC 4 (R265), and as an operation's, where it is not only read, for assay bytes (R103):
its physical address and window exponent. -/
def locateCell (need : Need) (va : Word) : Eff (Nat × BitVec 8) := do
  if !aligned va 16 then fail .align va 4
  if isWindow va then fail .window va 4
  let s ← get
  match ← locate false (s.threadOf s.active) need 4 va va with
  | .purse pa l =>
    if need == .write && (← get).assayBytes pa 16 then fail .assayw va 4
    return (pa, l)
  | _ => fail .perm va 4

/-- An operation posted by the active context to a cell (R266). -/
def State.post (s : State) (at_ : Nat × BitVec 8) (op : PurseOp) : State :=
  let o : Posted :=
    { poster := .context s.active, queue := s.queueOf (clusterOfCore s.active.core), pa := BitVec.ofNat 52 at_.1,
      pexp := at_.2, op := op, pts := s.me.pts }
  { s.mapMe fun k => { k with dout := k.dout + 1 } with posted := s.posted ++ [o] }

/-- `PADD` (R264). -/
def execPadd (p : Pred) (v : View) (a c : XReg) (imm : Imm48) (s : State) : Host.Outcome State Fault Refusal :=
  guarded p (do
    let s ← get
    let at_ ← locateCell .write (s.base a imm)
    doing fun s => s.post at_ (.add v (s.x c))) s

/-- The active elements of a `PADDV` checked in ascending order (R265). -/
def locateCells : List Lane → Eff (List (Nat × (Nat × BitVec 8)))
  | [] => pure []
  | e :: r => do
    let at_ ← locateCell .write e.2
    let rest ← locateCells r
    return (e.1, at_) :: rest

/-- `PADDV`: element i of vC posted for each active element, ascending (R264, R266). -/
def execPaddv (p : Pred) (v : View) (u : Bool) (a : XReg) (b c : VReg) (sh : BitVec 3) (imm : Imm48) (s : State) :
    Host.Outcome State Fault Refusal :=
  guardedV (do
    let s ← get
    let cells ← locateCells (s.lanes p v fun i => s.base a imm + (s.index v u b i <<< sh.toNat))
    doing fun s => cells.foldl (fun s e =>
      s.post e.2 (.add v (BitVec.ofNat 64 (elem (s.v c) v.width e.1)))) s) s

/-- `PFENCE` waits for the context's posted operations, and joins them (R267, R285). -/
def execPfence (p : Pred) (s : State) : Host.Outcome State Fault Refusal :=
  guarded p (do
    if (← get).me.dout ≠ 0 then waitFor .join
    doing fun s => s.mapMe fun k => { k with pts := tsMax k.pts k.ackTime }) s

/-- `PCLR` (R264). -/
def execPclr (p : Pred) (a : XReg) (imm : Imm48) (s : State) : Host.Outcome State Fault Refusal :=
  guarded p (do
    let s ← get
    let at_ ← locateCell .write (s.base a imm)
    doing fun s => s.post at_ .clr) s

/-- `PSET` (R264). -/
def execPset (p : Pred) (v : View) (a c : XReg) (imm : Imm48) (s : State) : Host.Outcome State Fault Refusal :=
  guarded p (do
    let s ← get
    let at_ ← locateCell .write (s.base a imm)
    doing fun s => s.post at_ (.set v (s.x c))) s

/-- `PRAW`: the raw cell, read at its home (R264, R266). -/
def execPraw (p : Pred) (d : VReg) (a : XReg) (imm : Imm48) (s : State) : Host.Outcome State Fault Refusal :=
  guarded p (do
    let s ← get
    let at_ ← locateCell .read (s.base a imm)
    readyPurse (s.threadOf s.active) 4 (at_.1 / 128)
    let (c, pts) ← loadCell at_.1 s.me.pts
    doing fun s => (s.setV d (BitVec.ofNat 1024 c.bits)).returned false true pts) s

/-! ## The mint (R266, R271, R284) -/

/-- What an operation makes of a cell (R260, R266). -/
def PurseOp.apply (op : PurseOp) (l : Int) (c : Cell) : Cell :=
  match op with
  | .add v w => c.addend l ((viewFmt v).decode (w.toNat % 2 ^ (viewFmt v).width))
  | .clr => .zero
  | .set v w => Cell.zero.addend l ((viewFmt v).decode (w.toNat % 2 ^ (viewFmt v).width))

/-- A posted operation is the first of its poster on its cell (R268). -/
def State.firstPosted (s : State) (i : Nat) (o : Posted) : Bool :=
  !((s.posted.take i).any fun x => x.poster = o.poster ∧ x.pa = o.pa)

/-- The machine check of a posted operation: of the context that posted it, at the next instruction that the context would
perform, or of the job (R227, R265, R381; log 64). Where a grant stands at the context, the operation is applied
later. -/
def postFault (o : Posted) (t : Trap) : Eff Unit := do
  let s ← get
  match o.poster with
  | .context c => match s.interrupt c t with
    | some s => set s
    | none => waitFor .access
  | .job p q => set (s.mapCluster p fun u => { u with
      matrix := { u.matrix with running := SMap.update u.matrix.running fun n j =>
        if n = q ∧ j.failed.isNone then { j with failed := some (t.cause.code, false, t.faddr) } else j } })

/-- The mint applies a posted operation at its home and acknowledges it (R266, R284). One that meets an uncorrectable error
in its line is not applied (R265; log 64). -/
def applyPosted (i : Nat) : Eff Unit := do
  let s ← get
  match s.posted[i]? with
  | none => pure ()
  | some o =>
    let line := o.pa.toNat / 128
    let ack (s : State) (wts : Ts) : State := { s with
      posted := s.posted.eraseIdx i
      acks := s.acks ++ [({ poster := o.poster, queue := o.queue, wts := wts } : Ack)] }
    if s.depositWritebacks.contains line then waitFor .access
    if s.firstPosted i o then
      match (meetPurse (queueSecure o.queue) 4 line).run s with
      | .error (.trap t) _ =>
        postFault o t
        return ← modify fun s => ack s o.pts
      | .error e _ => throw e
      | .ok _ s' => set s'
      let s := (← get).depositTouch line
      let x := s.depositLine line
      let st := x.stamp.store o.pts
      let x := x.setCell (o.pa.toNat % 128) (o.op.apply o.pexp.toInt (x.cell (o.pa.toNat % 128)))
      let s := (s.setDeposit { x with stamp := st }).assign st.wts
      set (ack s st.wts)

def execPostedOperationApply (i : Nat) (s : State) : Host.Outcome State Fault Refusal := happen (applyPosted i) s

/-- An acknowledgement returns to its context or job (R271, R284). -/
def State.purseAck (s : State) (i : Nat) : State :=
  match s.acks[i]? with
  | none => s
  | some a =>
    let s := ({ s with acks := s.acks.eraseIdx i } : State).forkDone a.queue a.wts
    match a.poster with
    | .context c => s.mapCtx c fun k => { k with dout := k.dout - 1, ackTime := tsMax k.ackTime a.wts }
    | .job p q => s.mapCluster p fun u => { u with
        matrix := { u.matrix with
          running := SMap.update u.matrix.running fun n j => if n = q then { j with time := tsMax j.time a.wts } else j } }

def execPurseAck (i : Nat) (s : State) : Host.Outcome State Fault Refusal := happen (modify (State.purseAck · i)) s

/-- The write-back of an evicted purse line has completed (R270). -/
def execDepositCacheWritebackDone (line : BitVec 45) (s : State) : Host.Outcome State Fault Refusal :=
  happen (modify fun (s : State) => { s with
    depositWritebacks := s.depositWritebacks.filter fun x => x ≠ line.toNat }) s

end Sys2Proof.Machine
end

