-- ==== Sys2Proof/Machine/Scalar.lean ====
section
/-! DEFINITION. The integer instructions of majors 0x00 to 0x07 (R141 to R149). -/

namespace Sys2Proof.Machine

/-- x[D] := w under the predicate (R141). -/
def writeX (p : Pred) (d : XReg) (f : State → Word) (s : State) : Host.Outcome State Fault Refusal :=
  plain p (doing fun s => s.setX d (f s)) s

/-- x[D] := op(x[A], x[B]) (R142). -/
def regOp (p : Pred) (d a b : XReg) (op : Word → Word → Word) (s : State) : Host.Outcome State Fault Refusal :=
  writeX p d (fun s => op (s.x a) (s.x b)) s

/-- x[D] := op(x[A], sext(IMM48)) (R142). -/
def immOp (p : Pred) (d a : XReg) (imm : Imm48) (op : Word → Word → Word) (s : State) :
    Host.Outcome State Fault Refusal :=
  writeX p d (fun s => op (s.x a) (sext48 imm)) s

/-- x[D] := op(x[A], n) for a shift count of 6 bits (R142). -/
def shiftOp (p : Pred) (d a : XReg) (n : BitVec 6) (op : Word → Word → Word) (s : State) :
    Host.Outcome State Fault Refusal :=
  writeX p d (fun s => op (s.x a) (n.setWidth 64)) s

/-! The operations of R142 on a and b. -/

/-- The shift count, b[5:0]. -/
def shiftCount (b : Word) : Nat := b.toNat % 64
def opAdd (a b : Word) : Word := a + b
def opSub (a b : Word) : Word := a - b
def opAnd (a b : Word) : Word := a &&& b
def opOr (a b : Word) : Word := a ||| b
def opXor (a b : Word) : Word := a ^^^ b
def opAndn (a b : Word) : Word := a &&& ~~~b
def opShl (a b : Word) : Word := a <<< shiftCount b
def opShr (a b : Word) : Word := a >>> shiftCount b
def opSha (a b : Word) : Word := a.sshiftRight (shiftCount b)
def opRotl (a b : Word) : Word := a.rotateLeft (shiftCount b)
def opMin (a b : Word) : Word := if a.toInt ≤ b.toInt then a else b
def opMax (a b : Word) : Word := if a.toInt ≤ b.toInt then b else a
def opMinu (a b : Word) : Word := if a.toNat ≤ b.toNat then a else b
def opMaxu (a b : Word) : Word := if a.toNat ≤ b.toNat then b else a

/-! The operations of R144. -/

def opMul (a b : Word) : Word := a * b
def opMulh (a b : Word) : Word := BitVec.ofInt 64 (a.toInt * b.toInt / 2 ^ 64)
def opMulhu (a b : Word) : Word := BitVec.ofNat 64 (a.toNat * b.toNat / 2 ^ 64)
def opDiv (a b : Word) : Word := if b = 0 then BitVec.allOnes 64 else BitVec.ofInt 64 (a.toInt.tdiv b.toInt)
def opDivu (a b : Word) : Word := if b = 0 then BitVec.allOnes 64 else BitVec.ofNat 64 (a.toNat / b.toNat)
def opRem (a b : Word) : Word := if b = 0 then a else BitVec.ofInt 64 (a.toInt.tmod b.toInt)
def opRemu (a b : Word) : Word := if b = 0 then a else BitVec.ofNat 64 (a.toNat % b.toNat)

/-! The counts of R145. -/

/-- Leading zero bits from bit 63; 64 for 0. -/
def countLeading (a : Word) : Word := BitVec.ofNat 64 (64 - bitLen a.toNat)
/-- Trailing zero bits from bit 0 among n bits; n when there is no one bit. -/
def trailing (a : Nat) : Nat → Nat → Nat
  | 0, i => i
  | n + 1, i => if a.testBit i then i else trailing a n (i + 1)
def countTrailing (a : Word) : Word := BitVec.ofNat 64 (trailing a.toNat 64 0)
/-- One bits among the low n bits. -/
def ones (a : Nat) : Nat → Nat
  | 0 => 0
  | n + 1 => (if a.testBit n then 1 else 0) + ones a n
def popCount (a : Word) : Word := BitVec.ofNat 64 (ones a.toNat 64)

/-- Bits [pos+len-1:pos] of a, zero- or sign-extended (R148). -/
def extractField (signed : Bool) (a : Word) (pos len : Nat) : Word :=
  let n := a.toNat / 2 ^ pos % 2 ^ len
  if signed then BitVec.ofInt 64 (signedOf len n) else BitVec.ofNat 64 n

/-- d with bits [pos+len-1:pos] replaced by the low bits of a (R148). -/
def insertField (d a : Word) (pos len : Nat) : Word := BitVec.ofNat 64 (setBits d.toNat pos len a.toNat)

/-- `NOP` has no effect under any predicate (R149). -/
def execNop (_p : Pred) (s : State) : Host.Outcome State Fault Refusal := perform (pure .seq) s

def execAdd (p : Pred) (d a b : XReg) (s : State) := regOp p d a b opAdd s
def execSub (p : Pred) (d a b : XReg) (s : State) := regOp p d a b opSub s
def execAnd (p : Pred) (d a b : XReg) (s : State) := regOp p d a b opAnd s
def execOr (p : Pred) (d a b : XReg) (s : State) := regOp p d a b opOr s
def execXor (p : Pred) (d a b : XReg) (s : State) := regOp p d a b opXor s
def execAndn (p : Pred) (d a b : XReg) (s : State) := regOp p d a b opAndn s
def execShl (p : Pred) (d a b : XReg) (s : State) := regOp p d a b opShl s
def execShr (p : Pred) (d a b : XReg) (s : State) := regOp p d a b opShr s
def execSha (p : Pred) (d a b : XReg) (s : State) := regOp p d a b opSha s
def execRotl (p : Pred) (d a b : XReg) (s : State) := regOp p d a b opRotl s
def execMin (p : Pred) (d a b : XReg) (s : State) := regOp p d a b opMin s
def execMax (p : Pred) (d a b : XReg) (s : State) := regOp p d a b opMax s
def execMinu (p : Pred) (d a b : XReg) (s : State) := regOp p d a b opMinu s
def execMaxu (p : Pred) (d a b : XReg) (s : State) := regOp p d a b opMaxu s

def execAddi (p : Pred) (d a : XReg) (imm : Imm48) (s : State) := immOp p d a imm opAdd s
def execSubImm (p : Pred) (d a : XReg) (imm : Imm48) (s : State) := immOp p d a imm opSub s
def execAndImm (p : Pred) (d a : XReg) (imm : Imm48) (s : State) := immOp p d a imm opAnd s
def execOrImm (p : Pred) (d a : XReg) (imm : Imm48) (s : State) := immOp p d a imm opOr s
def execXorImm (p : Pred) (d a : XReg) (imm : Imm48) (s : State) := immOp p d a imm opXor s
def execAndnImm (p : Pred) (d a : XReg) (imm : Imm48) (s : State) := immOp p d a imm opAndn s
def execShlImm (p : Pred) (d a : XReg) (n : BitVec 6) (s : State) := shiftOp p d a n opShl s
def execShrImm (p : Pred) (d a : XReg) (n : BitVec 6) (s : State) := shiftOp p d a n opShr s
def execShaImm (p : Pred) (d a : XReg) (n : BitVec 6) (s : State) := shiftOp p d a n opSha s
def execRotlImm (p : Pred) (d a : XReg) (n : BitVec 6) (s : State) := shiftOp p d a n opRotl s
def execMinImm (p : Pred) (d a : XReg) (imm : Imm48) (s : State) := immOp p d a imm opMin s
def execMaxImm (p : Pred) (d a : XReg) (imm : Imm48) (s : State) := immOp p d a imm opMax s
def execMinuImm (p : Pred) (d a : XReg) (imm : Imm48) (s : State) := immOp p d a imm opMinu s
def execMaxuImm (p : Pred) (d a : XReg) (imm : Imm48) (s : State) := immOp p d a imm opMaxu s

def execMul (p : Pred) (d a b : XReg) (s : State) := regOp p d a b opMul s
def execMulh (p : Pred) (d a b : XReg) (s : State) := regOp p d a b opMulh s
def execMulhu (p : Pred) (d a b : XReg) (s : State) := regOp p d a b opMulhu s
def execDiv (p : Pred) (d a b : XReg) (s : State) := regOp p d a b opDiv s
def execDivu (p : Pred) (d a b : XReg) (s : State) := regOp p d a b opDivu s
def execRem (p : Pred) (d a b : XReg) (s : State) := regOp p d a b opRem s
def execRemu (p : Pred) (d a b : XReg) (s : State) := regOp p d a b opRemu s

def execClz (p : Pred) (d a : XReg) (s : State) := writeX p d (fun s => countLeading (s.x a)) s
def execCtz (p : Pred) (d a : XReg) (s : State) := writeX p d (fun s => countTrailing (s.x a)) s
def execPopc (p : Pred) (d a : XReg) (s : State) := writeX p d (fun s => popCount (s.x a)) s

/-- The second source of `CMP` (R146). -/
def State.regImm (s : State) (b : RegImm) : Word :=
  match b with
  | .reg r => s.x r
  | .imm i => sext48 i

/-- `CMP.cc` (R146). -/
def execCmp (p : Pred) (cc : ICond) (d a : XReg) (b : RegImm) (s : State) :=
  writeX p d (fun s => if ICond.holds cc 64 (s.x a).toNat (s.regImm b).toNat then 1 else 0) s
/-- `SEL` (R146). -/
def execSel (p : Pred) (d a b c : XReg) (s : State) := writeX p d (fun s => if s.x c ≠ 0 then s.x a else s.x b) s
/-- `MOVI` (R147). -/
def execMovi (p : Pred) (d : XReg) (imm : Word) (s : State) := writeX p d (fun _ => imm) s
/-- `LEA` (R148). -/
def execLea (p : Pred) (d a b : XReg) (sh : BitVec 3) (imm : Imm48) (s : State) :=
  writeX p d (fun s => s.address a b sh imm) s
/-- `EXTR` (R148). -/
def execExtr (p : Pred) (signed : Bool) (d a : XReg) (pos : BitVec 6) (len : BitVec 7) (s : State) :=
  writeX p d (fun s => extractField signed (s.x a) pos.toNat len.toNat) s
/-- `INSR` (R148). -/
def execInsr (p : Pred) (d a : XReg) (pos : BitVec 6) (len : BitVec 7) (s : State) :=
  writeX p d (fun s => insertField (s.x d) (s.x a) pos.toNat len.toNat) s

end Sys2Proof.Machine
end

