-- ==== Sys2Proof/Machine/Tiles.lean ====
section
/-! DEFINITION. Tile registers, tile loads and stores, and tag waits (R200 to R207). -/

namespace Sys2Proof.Machine

/-! ## Descriptors (R201) -/

/-- A field of a descriptor written with the low bits of a value (R201). -/
def Tile.put (t : Tile) (f : TileField) (w : Word) : Tile :=
  match f with
  | .addr => { t with addr := w }
  | .fmt => { t with fmt := w.setWidth 5 }
  | .rows => { t with rows := w.setWidth 7 }
  | .cols => { t with cols := w.setWidth 8 }
  | .stride => { t with stride := w.setWidth 13 }
  | .scale => { t with scale := w.setWidth 12 }

/-- A field of a descriptor, zero-extended (R201). -/
def Tile.get (t : Tile) (f : TileField) : Word :=
  match f with
  | .addr => t.addr
  | .fmt => t.fmt.setWidth 64
  | .rows => t.rows.setWidth 64
  | .cols => t.cols.setWidth 64
  | .stride => t.stride.setWidth 64
  | .scale => t.scale.setWidth 64

/-- `MTT` (R201). -/
def execMtt (p : Pred) (t : TReg) (f : TileField) (src : TileSrc) (s : State) : Host.Outcome State Fault Refusal :=
  guarded p (doing fun s =>
    let w := match src with
      | .reg r => s.x r
      | .imm i => sext48 i
    s.setT t ((s.me.regs.t[t.toNat]).put f w)) s

/-- `MFT` (R201). -/
def execMft (p : Pred) (d : XReg) (t : TReg) (f : TileField) (s : State) : Host.Outcome State Fault Refusal :=
  guarded p (doing fun s => s.setX d ((s.t t).get f)) s

/-! ## Rows of memory (R205) -/

/-- g(r) of R205, with the row stride in B or in the descriptor. -/
def State.rowAddr (s : State) (t : Tile) (a b : XReg) (imm : Imm48) (r : Nat) : Word :=
  let gs := if b = 0 then t.stride.setWidth 64 else s.x b
  s.base a imm + BitVec.ofNat 64 r * gs

/-- One row's range checked as a load or a store, ACC 5, FADDR at its first byte: the translations it takes (R205). A load
of a view line that its home does not hold raises the fault of the fill that it will cause (R102; log 56). -/
def checkRow (t : Thread) (store : Bool) (g : Word) : List (Word × Nat) → Eff (List Tlb)
  | [] => pure []
  | (a, k) :: r => do
    let (p, e) ← locateEntry false t (if store then .write else .read) 5 g a
    match p with
    | .purse _ _ => fail (if store then .pstore else .align) g 5
    | .mem pa =>
      let s ← get
      if store then
        if s.assayBytes pa k then fail .assayw g 5
      else if (s.l2.find? fun x => x.line = pa / 128).isNone then
        match s.fillFault (pa / 128) with
        | some (c, d) => fail c g 5 d
        | none => pure ()
    | _ => pure ()
    let es ← checkRow t store g r
    return e.toList ++ es

/-- Every row checked, ascending. -/
def checkRows (t : Thread) (store : Bool) (n : Nat) : List Word → Eff (List Tlb)
  | [] => pure []
  | g :: r => do
    let a ← checkRow t store g (partsOf g n)
    let b ← checkRows t store n r
    return a ++ b

/-- The bytes of row r of a tile as one number. -/
def Tile.row (t : Tile) (m : Memory) (p r : Nat) : Nat := m.readN (p * 2 ^ 19 + t.off + r * t.stride.toNat) t.rowLen

/-- The bits of a tile's row (R91). -/
def Tile.rowBits (t : Tile) : Nat := t.cols.toNat * t.width

/-! ## `TLD` (R205, R206) -/

def execTld (p : Pred) (t : TReg) (a b : XReg) (imm : Imm48) (s : State) : Host.Outcome State Fault Refusal :=
  guarded p (do
    let s ← get
    let th := s.threadOf s.active
    let c := th.cluster
    let tile := s.t t
    checkTile c tile
    let pages ← checkRows th false tile.rowLen ((List.range tile.rows.toNat).map (s.rowAddr tile a b imm))
    let gs := tile.granules
    if !(← get).fillable c gs then waitFor .tags
    let copy : TileCopy :=
      { cluster := c, tile := tile, base := s.rowAddr tile a b imm 0,
        stride := if b = 0 then tile.stride.setWidth 64 else s.x b, owner := s.active, queue := th.queue,
        fork := s.me.pts, lease := th.lease, pages := distinct pages, units := 0, time := s.me.pts }
    modify fun s => { (s.setTags c gs fun g => { g with v := false, c := false }) with
      tileCopies := s.tileCopies ++ [copy] }
    return .seq) s

/-- A unit of a tile copy: its address, its bytes, its row, and its first byte there. -/
abbrev TileUnit := Word × Nat × Nat × Nat

/-- The 128-byte units of a tile copy, rows ascending (R206). -/
def TileCopy.parts (c : TileCopy) : List TileUnit :=
  (List.range c.tile.rows.toNat).flatMap fun r =>
    let g := c.base + BitVec.ofNat 64 r * c.stride
    (partsOf g c.tile.rowLen).map fun e => (e.1, e.2, r, (e.1 - g).toNat)

/-- A tile with a unit of a row written, in the bits of the row (R91, R206). -/
def TileCopy.put (c : TileCopy) (m : Memory) (u : TileUnit) (v : Nat) : Memory :=
  streamWrite m (c.cluster * 2 ^ 19 + c.tile.off + u.2.2.1 * c.tile.stride.toNat + u.2.2.2) 0
    (min (8 * u.2.1) (c.tile.rowBits - 8 * u.2.2.2)) v

/-- The tile copy of a number has performed one more unit. -/
def State.stepCopy (s : State) (i : Nat) (pts : Ts) : State :=
  { s with tileCopies := s.tileCopies.modify i fun c => { c with units := c.units + 1, time := pts } }

/-- Units of a tile copy read as loads and put into the tile, each when it may be: a wait leaves those that are performed
(R206; log 19). -/
def copyParts (th : Thread) (i : Nat) (c : TileCopy) : List TileUnit → Ts → Eff Ts
  | [], pts => pure pts
  | u :: r, pts => do
    let (v, pts) ← readRange (locateBy c.pages th 5) th 5 [(u.1, u.2.1)] pts
    modify fun s => ({ s with clusterMem := c.put s.clusterMem u v } : State).stepCopy i pts
    copyParts th i c r pts

/-- The thread of a tile copy. -/
def State.copyThread (s : State) (c : TileCopy) : Thread :=
  { ctx := c.owner, unit := some (.tile c.cluster c.tile.off), cluster := c.cluster, secure := (s.launch c.queue).secure,
    asid := (s.launch c.queue).asid, queue := c.queue, lease := c.lease, pts := c.time }

/-- A tile copy finishes: its rows are in the tile and V is 1 (R206). A machine check leaves V at 0 and is raised in the
context that issued the `TLD` (R205, R381; log 64). -/
def tldCopyDone (i : Nat) : Eff Unit := do
  let s ← get
  match s.tileCopies[i]? with
  | none => pure ()
  | some c =>
    let gs := c.tile.granules
    let ended (s : State) : State :=
      { s.dropAnswers (.tile c.cluster c.tile.off) with tileCopies := s.tileCopies.eraseIdx i }
    match (copyParts (s.copyThread c) i c (c.parts.drop c.units) c.time).run s with
    | .ok pts s' =>
      let (s', pts) := s'.stampStores c.cluster gs pts
      set (ended ((s'.forkDone c.queue pts).setTags c.cluster gs fun g => { g with v := true, time := pts }))
    | .error (.wait w) s' =>
      set s'
      waitFor w
    | .error (.trap t) s' => match s'.interrupt c.owner t with
      | some s' => set (ended s')
      | none =>
        set s'
        waitFor .join

def execTldCopyDone (i : Nat) (s : State) : Host.Outcome State Fault Refusal := happen (tldCopyDone i) s

/-! ## `TST`, `TWAIT`, `TCONS` (R205 to R207) -/

/-- The read wait of R203, and its join: every granule has V = 1. -/
def readWait (c : Nat) (gs : List Nat) : Eff Unit := do
  let s ← get
  if !s.valid c gs then waitFor .tags
  set (s.mapMe fun k => { k with pts := s.tagTime c gs k.pts })

/-- A row's bytes, with the bits beyond the row's last element as memory holds them (R206). -/
def rowValue (th : Thread) (find : Word → Eff Place) (t : Tile) (g : Word) (v : Nat) : Eff Nat := do
  let bits := t.rowBits
  if bits % 8 = 0 then return v
  let b ← currentByte th 5 (← find (g + BitVec.ofNat 64 (t.rowLen - 1))) th.pts
  return v % 2 ^ bits + b / 2 ^ (bits % 8) * 2 ^ bits

/-- The last bytes of rows, of which only some bits are updated, may be read at once, or the access waits (R206). -/
def readyTails (th : Thread) (find : Word → Eff Place) (t : Tile) : List Word → Eff Unit
  | [] => pure ()
  | g :: r => do
    let _ ← rowValue th find t g 0
    readyTails th find t r

/-- The rows of a tile stored, ascending (R206). -/
def storeRows (th : Thread) (t : Tile) (addr : Nat → Word) : List Nat → Ts → Eff Ts
  | [], pts => pure pts
  | r :: rs, pts => do
    let find := fun va => locate false th .write 5 va va
    let v ← rowValue th find t (addr r) (t.row (← get).clusterMem th.cluster r)
    let pts ← writeRange find th 5 (partsOf (addr r) t.rowLen) v pts
    storeRows th t addr rs pts

def execTst (p : Pred) (t : TReg) (a b : XReg) (imm : Imm48) (s : State) : Host.Outcome State Fault Refusal :=
  guarded p (do
    let s ← get
    let th := s.threadOf s.active
    let c := th.cluster
    let tile := s.t t
    let addr := s.rowAddr tile a b imm
    checkTile c tile
    let _ ← checkRows th true tile.rowLen ((List.range tile.rows.toNat).map addr)
    readWait c tile.granules
    let find := fun va => locate false th .write 5 va va
    meetGranules th.secure 5 c tile.granules
    readyRange find th 5 true s.me.pts ((List.range tile.rows.toNat).flatMap fun r => partsOf (addr r) tile.rowLen)
    readyTails th find tile ((List.range tile.rows.toNat).map addr)
    let (s', pts) := (← get).stampLoads c tile.granules (← get).me.pts
    set s'
    let pts ← storeRows th tile addr (List.range tile.rows.toNat) pts
    modify fun s => s.returned true true pts
    return .seq) s

def execTwait (p : Pred) (t : TReg) (s : State) : Host.Outcome State Fault Refusal :=
  guarded p (do
    let s ← get
    let c := clusterOfCore s.active.core
    checkTile c (s.t t)
    readWait c (s.t t).granules
    return .seq) s

def execTcons (p : Pred) (t : TReg) (s : State) : Host.Outcome State Fault Refusal :=
  guarded p (do
    let s ← get
    let c := clusterOfCore s.active.core
    checkTile c (s.t t)
    readWait c (s.t t).granules
    modify fun s => s.setTags c (s.t t).granules fun g => { g with c := true }
    return .seq) s

end Sys2Proof.Machine
end

