-- ==== Sys2Proof/Machine/Vector.lean ====
section
/-! DEFINITION. The vector unit: majors 0x14 to 0x1A (R174 to R185). -/

namespace Sys2Proof.Machine

/-! ## Integer (R174, R175) -/

/-- One operation on every active element (R174). -/
def vecOp (p : Pred) (v : View) (d a : VReg) (b : VOp) (op : Nat → Nat → Nat) (s : State) :
    Host.Outcome State Fault Refusal :=
  perform (doing fun s =>
    let x := s.v a
    s.setV d (s.perElem p v (s.v d) fun i => op (elem x v.width i) (s.bElem v b i))) s

/-- The lesser or greater under a signed or unsigned order. -/
def pick (isMax uns : Bool) (w a b : Nat) : Nat :=
  let le := if uns then decide (a ≤ b) else decide (signedOf w a ≤ signedOf w b)
  if le != isMax then a else b

/-- The high half of a product (R174). -/
def mulHigh (uns : Bool) (w a b : Nat) : Nat :=
  if uns then a * b / 2 ^ w else wrapInt w (signedOf w a * signedOf w b / 2 ^ w)

def execVadd (p : Pred) (v : View) (d a : VReg) (b : VOp) (s : State) := vecOp p v d a b (· + ·) s
def execVsub (p : Pred) (v : View) (d a : VReg) (b : VOp) (s : State) :=
  vecOp p v d a b (fun x y => x + 2 ^ v.width - y) s
def execVmul (p : Pred) (v : View) (d a : VReg) (b : VOp) (s : State) := vecOp p v d a b (· * ·) s
def execVmulh (p : Pred) (v : View) (u : Bool) (d a : VReg) (b : VOp) (s : State) :=
  vecOp p v d a b (mulHigh u v.width) s
def execVmin (p : Pred) (v : View) (u : Bool) (d a : VReg) (b : VOp) (s : State) :=
  vecOp p v d a b (pick false u v.width) s
def execVmax (p : Pred) (v : View) (u : Bool) (d a : VReg) (b : VOp) (s : State) :=
  vecOp p v d a b (pick true u v.width) s
def execVand (p : Pred) (v : View) (d a : VReg) (b : VOp) (s : State) := vecOp p v d a b (· &&& ·) s
def execVor (p : Pred) (v : View) (d a : VReg) (b : VOp) (s : State) := vecOp p v d a b (· ||| ·) s
def execVxor (p : Pred) (v : View) (d a : VReg) (b : VOp) (s : State) := vecOp p v d a b (· ^^^ ·) s
def execVshl (p : Pred) (v : View) (d a : VReg) (b : VOp) (s : State) :=
  vecOp p v d a b (fun x y => x * 2 ^ (y % v.width)) s
def execVshr (p : Pred) (v : View) (d a : VReg) (b : VOp) (s : State) :=
  vecOp p v d a b (fun x y => x / 2 ^ (y % v.width)) s
def execVsha (p : Pred) (v : View) (d a : VReg) (b : VOp) (s : State) :=
  vecOp p v d a b (fun x y => wrapInt v.width (signedOf v.width x / 2 ^ (y % v.width))) s

/-- `VCMP.cc` (R175). -/
def execVcmp (p : Pred) (cc : ICond) (v : View) (d : MReg) (a : VReg) (b : VOp) (s : State) :
    Host.Outcome State Fault Refusal :=
  perform (doing fun s =>
    s.setM d (s.maskElems p v (s.m d) fun i => ICond.holds cc v.width (elem (s.v a) v.width i) (s.bElem v b i))) s

/-! ## Floating point (R176 to R179) -/

/-- One operation on the encodings of every active element, with the OR of their flags (R176). -/
def vecFp (p : Pred) (v : View) (d : VReg) (f : State → Nat → Nat × Flags) (s : State) :
    Host.Outcome State Fault Refusal :=
  perform (doing fun s =>
    let fl := (s.actives p v).foldl (fun fl i => fl ||| (f s i).2) (0 : Flags)
    (s.setV d (s.perElem p v (s.v d) fun i => (f s i).1)).addFlags fl) s

/-- The value of element i of a register. -/
def State.velem (s : State) (v : View) (a : VReg) (i : Nat) : FV := (viewFmt v).decode (elem (s.v a) v.width i)
/-- The value of the B operand's element i. -/
def State.bval (s : State) (v : View) (b : VOp) (i : Nat) : FV := (viewFmt v).decode (s.bElem v b i)

def execVfadd (p : Pred) (v : View) (rm : Rm) (d a : VReg) (b : VOp) (s : State) :=
  vecFp p v d (fun s i => fpAdd (viewFmt v) (s.mode rm) (s.velem v a i) (s.bval v b i)) s
def execVfsub (p : Pred) (v : View) (rm : Rm) (d a : VReg) (b : VOp) (s : State) :=
  vecFp p v d (fun s i => fpSub (viewFmt v) (s.mode rm) (s.velem v a i) (s.bval v b i)) s
def execVfmul (p : Pred) (v : View) (rm : Rm) (d a : VReg) (b : VOp) (s : State) :=
  vecFp p v d (fun s i => fpMul (viewFmt v) (s.mode rm) (s.velem v a i) (s.bval v b i)) s
def execVffma (p : Pred) (v : View) (rm : Rm) (d a : VReg) (b : VOp) (c : VReg) (s : State) :=
  vecFp p v d (fun s i => fpFma (viewFmt v) (s.mode rm) (s.velem v a i) (s.bval v b i) (s.velem v c i)) s
def execVfdiv (p : Pred) (v : View) (rm : Rm) (d a : VReg) (b : VOp) (s : State) :=
  vecFp p v d (fun s i => fpDiv (viewFmt v) (s.mode rm) (s.velem v a i) (s.bval v b i)) s
def execVfsqrt (p : Pred) (v : View) (rm : Rm) (d a : VReg) (s : State) :=
  vecFp p v d (fun s i => fpSqrt (viewFmt v) (s.mode rm) (s.velem v a i)) s
def execVfmin (p : Pred) (v : View) (d a : VReg) (b : VOp) (s : State) :=
  vecFp p v d (fun s i => fpMinMax (viewFmt v) false (elem (s.v a) v.width i) (s.bElem v b i)) s
def execVfmax (p : Pred) (v : View) (d a : VReg) (b : VOp) (s : State) :=
  vecFp p v d (fun s i => fpMinMax (viewFmt v) true (elem (s.v a) v.width i) (s.bElem v b i)) s

/-- `VEXP2`, `VRECIP` and `VRSQRT` work in view .b (R179). -/
def execVexp2 (p : Pred) (d a : VReg) (s : State) := vecFp p .b d (fun s i => bfExp2 (s.velem .b a i)) s
def execVrecip (p : Pred) (d a : VReg) (s : State) := vecFp p .b d (fun s i => bfRecip (s.velem .b a i)) s
def execVrsqrt (p : Pred) (d a : VReg) (s : State) := vecFp p .b d (fun s i => bfRsqrt (s.velem .b a i)) s

/-- `VFCMP.cc` (R177). -/
def execVfcmp (p : Pred) (cc : FCond) (v : View) (d : MReg) (a : VReg) (b : VOp) (s : State) :
    Host.Outcome State Fault Refusal :=
  perform (doing fun s =>
    let f := fun i => fpCompare cc (s.velem v a i) (s.bval v b i)
    let fl := (s.actives p v).foldl (fun fl i => fl ||| (f i).2) (0 : Flags)
    (s.setM d (s.maskElems p v (s.m d) fun i => (f i).1)).addFlags fl) s

/-- The bytes of a conversion's element (R178). -/
def cvtBytes (c : CvtSpec) (code : BitVec 5) : Nat := ((cvtSide c code).width + 7) / 8

/-- `VFCVT` (R178). -/
def State.vfcvt (s : State) (p : Pred) (rm : Rm) (c : CvtSpec) (d a : VReg) : State :=
  let ws := cvtBytes c c.src
  let wd := cvtBytes c c.dst
  let n := 128 / max ws wd
  let lo := if ws > wd then c.part.toNat * n else 0
  let conv := fun j =>
    let src := if ws > wd then j - lo else c.part.toNat * n + j
    cvtApply c (s.mode rm) (elem (s.v a) (8 * ws) src % 2 ^ (cvtSide c c.src).width)
  let on := fun j => decide (lo ≤ j) && decide (j < lo + n) && s.predBit p (wd * j)
  let fl := ((List.range (128 / wd)).filter on).foldl (fun fl j => fl ||| (conv j).2) (0 : Flags)
  (s.setV d (vecOf (8 * wd) ((List.range (128 / wd)).map fun j =>
    if on j then (conv j).1 else elem (s.v d) (8 * wd) j))).addFlags fl

def execVfcvt (p : Pred) (rm : Rm) (c : CvtSpec) (d a : VReg) (s : State) : Host.Outcome State Fault Refusal :=
  perform (do
    checkCvt c
    let ws := cvtBytes c c.src
    let wd := cvtBytes c c.dst
    if max ws wd / min ws wd ≤ c.part.toNat then fail .illop
    doing fun s => s.vfcvt p rm c d a) s

/-! ## Moving, sorting and summing (R180 to R184) -/

/-- `VBCAST` (R180). -/
def execVbcast (p : Pred) (v : View) (d : VReg) (a : XReg) (s : State) : Host.Outcome State Fault Refusal :=
  perform (doing fun s => s.setV d (s.perElem p v (s.v d) fun _ => (s.x a).toNat)) s
/-- `VEXTR`, under bit 0 (R180). -/
def execVextr (p : Pred) (v : View) (d : XReg) (a : VReg) (b : XReg) (s : State) :
    Host.Outcome State Fault Refusal :=
  plain p (doing fun s => s.setX d (BitVec.ofNat 64 (elem (s.v a) v.width ((s.x b).toNat % v.elems)))) s
/-- `VINSR` (R180). -/
def execVinsr (p : Pred) (v : View) (d : VReg) (a b : XReg) (s : State) : Host.Outcome State Fault Refusal :=
  perform (doing fun s =>
    let j := (s.x b).toNat % v.elems
    s.setV d (s.perElem p v (s.v d) fun i =>
      if i = j then (s.x a).toNat else elem (s.v d) v.width i)) s
/-- `VPERM` (R181). -/
def execVperm (p : Pred) (v : View) (d a b : VReg) (s : State) : Host.Outcome State Fault Refusal :=
  perform (doing fun s =>
    s.setV d (s.perElem p v (s.v d) fun i => elem (s.v a) v.width (elem (s.v b) v.width i % v.elems))) s
/-- `VSLIDE` (R181). -/
def execVslide (p : Pred) (v : View) (d a b : VReg) (k : BitVec 8) (s : State) : Host.Outcome State Fault Refusal :=
  perform (doing fun s =>
    s.setV d (s.perElem p v (s.v d) fun i =>
      let j := i + k.toNat
      if j < v.elems then elem (s.v a) v.width j else elem (s.v b) v.width (j - v.elems))) s

/-- The predicate is not `(!m0)`, under which a whole-register instruction writes nothing (R20). -/
def notNever (p : Pred) : Bool := p != 8

/-- The active lanes of a key vector in stable ascending order of their keys (R182). -/
def sortedLanes (key : Nat → Nat) (lanes : List Nat) : List Nat :=
  sortBy (fun a b => decide (key a ≤ key b)) lanes

/-- `VSORTK.w` (R182). -/
def execVsortk (p : Pred) (d c a : VReg) (s : State) : Host.Outcome State Fault Refusal :=
  perform (doing fun s =>
    if !notNever p then s
    else
      let key := elem (s.v a) 32
      let l := sortedLanes key (s.actives p .w)
      let at_ := fun (f : Nat → Nat) i => match l[i]? with
        | some j => f j
        | none => 0xFFFF_FFFF
      (s.setV d (vecOf 32 ((List.range 32).map (at_ key)))).setV c (vecOf 32 ((List.range 32).map (at_ id)))) s

/-- A run of equal keys summed from a lane on: the sum so far, through at most n further lanes (R107, R183). -/
def runSum (on : Nat → Bool) (key : Nat → Nat) (add : Nat → Nat → Nat × Flags) (val : Nat → Nat) :
    Nat → Nat → Nat × Flags → Nat × Flags
  | 0, _, acc => acc
  | n + 1, j, acc =>
    if on j && key j == key (j - 1) then
      let r := add acc.1 (val j)
      runSum on key add val n (j + 1) (r.1, acc.2 ||| r.2)
    else acc

/-- `VSEGADD` (R183). -/
def execVsegadd (p : Pred) (v : View) (fl : Bool) (rm : Rm) (d a b : VReg) (s : State) :
    Host.Outcome State Fault Refusal :=
  perform (doing fun s =>
    let key := elem (s.v a) v.width
    let val := elem (s.v b) v.width
    let on := s.active? p v
    let add := fun x y =>
      if fl then fpAdd (viewFmt v) (s.mode rm) ((viewFmt v).decode x) ((viewFmt v).decode y)
      else ((x + y) % 2 ^ v.width, 0)
    let starts := fun i => !(decide (0 < i) && on (i - 1) && key (i - 1) == key i)
    let out := fun i =>
      if starts i then runSum on key add val (v.elems - 1 - i) (i + 1) (val i, 0) else (0, 0)
    let flags := (s.actives p v).foldl (fun f i => f ||| (out i).2) (0 : Flags)
    (s.setV d (s.perElem p v (s.v d) fun i => (out i).1)).addFlags flags) s

/-- `VREDI` (R184). -/
def execVredi (p : Pred) (v : View) (u : Bool) (d : XReg) (a : VReg) (s : State) :
    Host.Outcome State Fault Refusal :=
  perform (doing fun s =>
    if !notNever p then s
    else
      let n := (s.actives p v).foldl (fun n i => n + elem (s.v a) v.width i) 0 % 2 ^ v.width
      s.setX d (if u then BitVec.ofNat 64 n else BitVec.ofInt 64 (signedOf v.width n))) s

/-- `VREDF` (R106, R184). -/
def execVredf (p : Pred) (v : View) (rm : Rm) (d : XReg) (a : VReg) (s : State) :
    Host.Outcome State Fault Refusal :=
  perform (doing fun s =>
    if !notNever p then s
    else
      let leaves := (List.range v.elems).map fun i =>
        (if s.active? p v i then some (elem (s.v a) v.width i) else none, (0 : Flags))
      let r := treeSum (viewFmt v) (s.mode rm) v.elems.log2 leaves
      (s.setX d (BitVec.ofNat 64 r.1)).addFlags r.2) s

/-! ## Masks (R185) -/

/-- A mask register written under bit 0. -/
def maskWrite (p : Pred) (d : MReg) (f : State → Mask) (s : State) : Host.Outcome State Fault Refusal :=
  plain p (doing fun s => s.setM d (f s)) s

def execMand (p : Pred) (d a b : MReg) (s : State) := maskWrite p d (fun s => s.m a &&& s.m b) s
def execMor (p : Pred) (d a b : MReg) (s : State) := maskWrite p d (fun s => s.m a ||| s.m b) s
def execMxor (p : Pred) (d a b : MReg) (s : State) := maskWrite p d (fun s => s.m a ^^^ s.m b) s
def execMnot (p : Pred) (d a : MReg) (s : State) := maskWrite p d (fun s => ~~~s.m a) s

/-- The elements of a view whose bit is set. -/
def setElems (v : View) (m : Mask) : List Nat := (List.range v.elems).filter fun i => m.getLsbD (v.bytes * i)

/-- `MPOPC` (R185). -/
def execMpopc (p : Pred) (v : View) (d : XReg) (a : MReg) (s : State) : Host.Outcome State Fault Refusal :=
  plain p (doing fun s => s.setX d (BitVec.ofNat 64 (setElems v (s.m a)).length)) s
/-- `MFIRST` (R185). -/
def execMfirst (p : Pred) (v : View) (d : XReg) (a : MReg) (s : State) : Host.Outcome State Fault Refusal :=
  plain p (doing fun s => s.setX d (BitVec.ofNat 64 ((setElems v (s.m a)).headD v.elems))) s
/-- `MTOX` (R185). -/
def execMtox (p : Pred) (d : XReg) (a : MReg) (half : Bool) (s : State) : Host.Outcome State Fault Refusal :=
  plain p (doing fun s => s.setX d ((s.m a).extractLsb' (if half then 64 else 0) 64)) s
/-- `XTOM` (R185). -/
def execXtom (p : Pred) (d : MReg) (a : XReg) (half : Bool) (s : State) : Host.Outcome State Fault Refusal :=
  maskWrite p d (fun s =>
    if half then s.x a ++ (s.m d).extractLsb' 0 64 else (s.m d).extractLsb' 64 64 ++ s.x a) s

end Sys2Proof.Machine
end

