-- ==== Sys2Proof/Machine/Dispatch.lean ====
section
/-! DEFINITION. What every instruction and every step of the part does: one arm per constructor. -/

namespace Sys2Proof.Machine

def exec (i : Instr) (s : State) : Host.Outcome State Fault Refusal :=
  match i with
  | .nop p => Sys2Proof.Machine.execNop p s
  | .add p d a b => Sys2Proof.Machine.execAdd p d a b s
  | .sub p d a b => Sys2Proof.Machine.execSub p d a b s
  | .and p d a b => Sys2Proof.Machine.execAnd p d a b s
  | .or p d a b => Sys2Proof.Machine.execOr p d a b s
  | .xor p d a b => Sys2Proof.Machine.execXor p d a b s
  | .andn p d a b => Sys2Proof.Machine.execAndn p d a b s
  | .shl p d a b => Sys2Proof.Machine.execShl p d a b s
  | .shr p d a b => Sys2Proof.Machine.execShr p d a b s
  | .sha p d a b => Sys2Proof.Machine.execSha p d a b s
  | .rotl p d a b => Sys2Proof.Machine.execRotl p d a b s
  | .min p d a b => Sys2Proof.Machine.execMin p d a b s
  | .max p d a b => Sys2Proof.Machine.execMax p d a b s
  | .minu p d a b => Sys2Proof.Machine.execMinu p d a b s
  | .maxu p d a b => Sys2Proof.Machine.execMaxu p d a b s
  | .addi p d a imm => Sys2Proof.Machine.execAddi p d a imm s
  | .subImm p d a imm => Sys2Proof.Machine.execSubImm p d a imm s
  | .andImm p d a imm => Sys2Proof.Machine.execAndImm p d a imm s
  | .orImm p d a imm => Sys2Proof.Machine.execOrImm p d a imm s
  | .xorImm p d a imm => Sys2Proof.Machine.execXorImm p d a imm s
  | .andnImm p d a imm => Sys2Proof.Machine.execAndnImm p d a imm s
  | .shlImm p d a n => Sys2Proof.Machine.execShlImm p d a n s
  | .shrImm p d a n => Sys2Proof.Machine.execShrImm p d a n s
  | .shaImm p d a n => Sys2Proof.Machine.execShaImm p d a n s
  | .rotlImm p d a n => Sys2Proof.Machine.execRotlImm p d a n s
  | .minImm p d a imm => Sys2Proof.Machine.execMinImm p d a imm s
  | .maxImm p d a imm => Sys2Proof.Machine.execMaxImm p d a imm s
  | .minuImm p d a imm => Sys2Proof.Machine.execMinuImm p d a imm s
  | .maxuImm p d a imm => Sys2Proof.Machine.execMaxuImm p d a imm s
  | .mul p d a b => Sys2Proof.Machine.execMul p d a b s
  | .mulh p d a b => Sys2Proof.Machine.execMulh p d a b s
  | .mulhu p d a b => Sys2Proof.Machine.execMulhu p d a b s
  | .div p d a b => Sys2Proof.Machine.execDiv p d a b s
  | .divu p d a b => Sys2Proof.Machine.execDivu p d a b s
  | .rem p d a b => Sys2Proof.Machine.execRem p d a b s
  | .remu p d a b => Sys2Proof.Machine.execRemu p d a b s
  | .clz p d a => Sys2Proof.Machine.execClz p d a s
  | .ctz p d a => Sys2Proof.Machine.execCtz p d a s
  | .popc p d a => Sys2Proof.Machine.execPopc p d a s
  | .cmp p cc d a b => Sys2Proof.Machine.execCmp p cc d a b s
  | .sel p d a b c => Sys2Proof.Machine.execSel p d a b c s
  | .movi p d imm => Sys2Proof.Machine.execMovi p d imm s
  | .lea p d a b sh imm => Sys2Proof.Machine.execLea p d a b sh imm s
  | .extr p signed d a pos len => Sys2Proof.Machine.execExtr p signed d a pos len s
  | .insr p d a pos len => Sys2Proof.Machine.execInsr p d a pos len s
  | .br p cc a b t => Sys2Proof.Machine.execBr p cc a b t s
  | .jmp p t => Sys2Proof.Machine.execJmp p t s
  | .call p t => Sys2Proof.Machine.execCall p t s
  | .ret p a => Sys2Proof.Machine.execRet p a s
  | .jtab p a b tag n => Sys2Proof.Machine.execJtab p a b tag n s
  | .callt p a b tag n => Sys2Proof.Machine.execCallt p a b tag n s
  | .lpad p tag => Sys2Proof.Machine.execLpad p tag s
  | .mfc p d r => Sys2Proof.Machine.execMfc p d r s
  | .mtc p r a => Sys2Proof.Machine.execMtc p r a s
  | .follow p k t => Sys2Proof.Machine.execFollow p k t s
  | .detach p => Sys2Proof.Machine.execDetach p s
  | .rejoin p d a b c key => Sys2Proof.Machine.execRejoin p d a b c key s
  | .take p d key => Sys2Proof.Machine.execTake p d key s
  | .launch p d a q => Sys2Proof.Machine.execLaunch p d a q s
  | .fadd p f rm d a b => Sys2Proof.Machine.execFadd p f rm d a b s
  | .fsub p f rm d a b => Sys2Proof.Machine.execFsub p f rm d a b s
  | .fmul p f rm d a b => Sys2Proof.Machine.execFmul p f rm d a b s
  | .ffma p f rm d a b c => Sys2Proof.Machine.execFfma p f rm d a b c s
  | .fdiv p f rm d a b => Sys2Proof.Machine.execFdiv p f rm d a b s
  | .fsqrt p f rm d a => Sys2Proof.Machine.execFsqrt p f rm d a s
  | .fmin p f d a b => Sys2Proof.Machine.execFmin p f d a b s
  | .fmax p f d a b => Sys2Proof.Machine.execFmax p f d a b s
  | .fcmp p cc f d a b => Sys2Proof.Machine.execFcmp p cc f d a b s
  | .fcvt p rm c d a => Sys2Proof.Machine.execFcvt p rm c d a s
  | .fclass p f d a => Sys2Proof.Machine.execFclass p f d a s
  | .vadd p v d a b => Sys2Proof.Machine.execVadd p v d a b s
  | .vsub p v d a b => Sys2Proof.Machine.execVsub p v d a b s
  | .vmul p v d a b => Sys2Proof.Machine.execVmul p v d a b s
  | .vmulh p v u d a b => Sys2Proof.Machine.execVmulh p v u d a b s
  | .vmin p v u d a b => Sys2Proof.Machine.execVmin p v u d a b s
  | .vmax p v u d a b => Sys2Proof.Machine.execVmax p v u d a b s
  | .vand p v d a b => Sys2Proof.Machine.execVand p v d a b s
  | .vor p v d a b => Sys2Proof.Machine.execVor p v d a b s
  | .vxor p v d a b => Sys2Proof.Machine.execVxor p v d a b s
  | .vshl p v d a b => Sys2Proof.Machine.execVshl p v d a b s
  | .vshr p v d a b => Sys2Proof.Machine.execVshr p v d a b s
  | .vsha p v d a b => Sys2Proof.Machine.execVsha p v d a b s
  | .vcmp p cc v d a b => Sys2Proof.Machine.execVcmp p cc v d a b s
  | .vfadd p v rm d a b => Sys2Proof.Machine.execVfadd p v rm d a b s
  | .vfsub p v rm d a b => Sys2Proof.Machine.execVfsub p v rm d a b s
  | .vfmul p v rm d a b => Sys2Proof.Machine.execVfmul p v rm d a b s
  | .vffma p v rm d a b c => Sys2Proof.Machine.execVffma p v rm d a b c s
  | .vfdiv p v rm d a b => Sys2Proof.Machine.execVfdiv p v rm d a b s
  | .vfsqrt p v rm d a => Sys2Proof.Machine.execVfsqrt p v rm d a s
  | .vfmin p v d a b => Sys2Proof.Machine.execVfmin p v d a b s
  | .vfmax p v d a b => Sys2Proof.Machine.execVfmax p v d a b s
  | .vexp2 p d a => Sys2Proof.Machine.execVexp2 p d a s
  | .vrecip p d a => Sys2Proof.Machine.execVrecip p d a s
  | .vrsqrt p d a => Sys2Proof.Machine.execVrsqrt p d a s
  | .vfcmp p cc v d a b => Sys2Proof.Machine.execVfcmp p cc v d a b s
  | .vfcvt p rm c d a => Sys2Proof.Machine.execVfcvt p rm c d a s
  | .vbcast p v d a => Sys2Proof.Machine.execVbcast p v d a s
  | .vextr p v d a b => Sys2Proof.Machine.execVextr p v d a b s
  | .vinsr p v d a b => Sys2Proof.Machine.execVinsr p v d a b s
  | .vperm p v d a b => Sys2Proof.Machine.execVperm p v d a b s
  | .vslide p v d a b k => Sys2Proof.Machine.execVslide p v d a b k s
  | .vsortk p d c a => Sys2Proof.Machine.execVsortk p d c a s
  | .vsegadd p v fl rm d a b => Sys2Proof.Machine.execVsegadd p v fl rm d a b s
  | .vredi p v u d a => Sys2Proof.Machine.execVredi p v u d a s
  | .vredf p v rm d a => Sys2Proof.Machine.execVredf p v rm d a s
  | .mand p d a b => Sys2Proof.Machine.execMand p d a b s
  | .mor p d a b => Sys2Proof.Machine.execMor p d a b s
  | .mxor p d a b => Sys2Proof.Machine.execMxor p d a b s
  | .mnot p d a => Sys2Proof.Machine.execMnot p d a s
  | .mpopc p v d a => Sys2Proof.Machine.execMpopc p v d a s
  | .mfirst p v d a => Sys2Proof.Machine.execMfirst p v d a s
  | .mtox p d a half => Sys2Proof.Machine.execMtox p d a half s
  | .xtom p d a half => Sys2Proof.Machine.execXtom p d a half s
  | .ld p sx sz d a b sh imm => Sys2Proof.Machine.execLd p sx sz d a b sh imm s
  | .st p sz a b c sh imm => Sys2Proof.Machine.execSt p sz a b c sh imm s
  | .ldv p v d a imm => Sys2Proof.Machine.execLdv p v d a imm s
  | .ldvs p v d a b imm => Sys2Proof.Machine.execLdvs p v d a b imm s
  | .ldg p v u d a b sh imm => Sys2Proof.Machine.execLdg p v u d a b sh imm s
  | .stv p v a c imm => Sys2Proof.Machine.execStv p v a c imm s
  | .stvs p v a b c imm => Sys2Proof.Machine.execStvs p v a b c imm s
  | .sts p v u a b c sh imm => Sys2Proof.Machine.execSts p v u a b c sh imm s
  | .ldl p d a b imm => Sys2Proof.Machine.execLdl p d a b imm s
  | .stl p a b c imm => Sys2Proof.Machine.execStl p a b c imm s
  | .mtt p t f src => Sys2Proof.Machine.execMtt p t f src s
  | .mft p d t f => Sys2Proof.Machine.execMft p d t f s
  | .tld p t a b imm => Sys2Proof.Machine.execTld p t a b imm s
  | .tst p t a b imm => Sys2Proof.Machine.execTst p t a b imm s
  | .twait p t => Sys2Proof.Machine.execTwait p t s
  | .tcons p t => Sys2Proof.Machine.execTcons p t s
  | .pref p l2 a n imm => Sys2Proof.Machine.execPref p l2 a n imm s
  | .mma p d a b dst acc tb => Sys2Proof.Machine.execMma p d a b dst acc tb s
  | .mmat p d a b dst acc tb diag up fill => Sys2Proof.Machine.execMmat p d a b dst acc tb diag up fill s
  | .mmab p d a b c acc tb list => Sys2Proof.Machine.execMmab p d a b c acc tb list s
  | .mmas p d a b dst acc nnz => Sys2Proof.Machine.execMmas p d a b dst acc nnz s
  | .mjpoll p d a => Sys2Proof.Machine.execMjpoll p d a s
  | .mjwait p a => Sys2Proof.Machine.execMjwait p a s
  | .cpy p d a b c peer => Sys2Proof.Machine.execCpy p d a b c peer s
  | .cpy2 p d a b c rows rb => Sys2Proof.Machine.execCpy2 p d a b c rows rb s
  | .cpyg p d a b c n rb stride => Sys2Proof.Machine.execCpyg p d a b c n rb stride s
  | .cpyc p d a b c sfmt dfmt rm => Sys2Proof.Machine.execCpyc p d a b c sfmt dfmt rm s
  | .cpya p d a b c => Sys2Proof.Machine.execCpya p d a b c s
  | .susp p d op a b cfmt rm loc => Sys2Proof.Machine.execSusp p d op a b cfmt rm loc s
  | .suspr p d a b c ridx => Sys2Proof.Machine.execSuspr p d a b c ridx s
  | .mkval p d t => Sys2Proof.Machine.execMkval p d t s
  | .force p a => Sys2Proof.Machine.execForce p a s
  | .spark p a => Sys2Proof.Machine.execSpark p a s
  | .result p t => Sys2Proof.Machine.execResult p t s
  | .dup p a => Sys2Proof.Machine.execDup p a s
  | .drop p a => Sys2Proof.Machine.execDrop p a s
  | .hstat p d a => Sys2Proof.Machine.execHstat p d a s
  | .htile p t a => Sys2Proof.Machine.execHtile p t a s
  | .padd p v a c imm => Sys2Proof.Machine.execPadd p v a c imm s
  | .paddv p v u a b c sh imm => Sys2Proof.Machine.execPaddv p v u a b c sh imm s
  | .pfence p => Sys2Proof.Machine.execPfence p s
  | .pclr p a imm => Sys2Proof.Machine.execPclr p a imm s
  | .pset p v a c imm => Sys2Proof.Machine.execPset p v a c imm s
  | .praw p d a imm => Sys2Proof.Machine.execPraw p d a imm s
  | .amoAdd p dbl d a c imm => Sys2Proof.Machine.execAmoAdd p dbl d a c imm s
  | .amoAnd p dbl d a c imm => Sys2Proof.Machine.execAmoAnd p dbl d a c imm s
  | .amoOr p dbl d a c imm => Sys2Proof.Machine.execAmoOr p dbl d a c imm s
  | .amoXor p dbl d a c imm => Sys2Proof.Machine.execAmoXor p dbl d a c imm s
  | .amoMin p dbl d a c imm => Sys2Proof.Machine.execAmoMin p dbl d a c imm s
  | .amoMax p dbl d a c imm => Sys2Proof.Machine.execAmoMax p dbl d a c imm s
  | .amoMinu p dbl d a c imm => Sys2Proof.Machine.execAmoMinu p dbl d a c imm s
  | .amoMaxu p dbl d a c imm => Sys2Proof.Machine.execAmoMaxu p dbl d a c imm s
  | .amoSwap p dbl d a c imm => Sys2Proof.Machine.execAmoSwap p dbl d a c imm s
  | .amonrAdd p dbl a c imm => Sys2Proof.Machine.execAmonrAdd p dbl a c imm s
  | .amonrAnd p dbl a c imm => Sys2Proof.Machine.execAmonrAnd p dbl a c imm s
  | .amonrOr p dbl a c imm => Sys2Proof.Machine.execAmonrOr p dbl a c imm s
  | .amonrXor p dbl a c imm => Sys2Proof.Machine.execAmonrXor p dbl a c imm s
  | .amonrMin p dbl a c imm => Sys2Proof.Machine.execAmonrMin p dbl a c imm s
  | .amonrMax p dbl a c imm => Sys2Proof.Machine.execAmonrMax p dbl a c imm s
  | .amonrMinu p dbl a c imm => Sys2Proof.Machine.execAmonrMinu p dbl a c imm s
  | .amonrMaxu p dbl a c imm => Sys2Proof.Machine.execAmonrMaxu p dbl a c imm s
  | .amonrSwap p dbl a c imm => Sys2Proof.Machine.execAmonrSwap p dbl a c imm s
  | .cas p dbl d a b c imm => Sys2Proof.Machine.execCas p dbl d a b c imm s
  | .fenceSysAcq p => Sys2Proof.Machine.execFenceSysAcq p s
  | .fenceSysRel p => Sys2Proof.Machine.execFenceSysRel p s
  | .fenceSysFull p => Sys2Proof.Machine.execFenceSysFull p s
  | .evld p d a => Sys2Proof.Machine.execEvld p d a s
  | .evtrig p a => Sys2Proof.Machine.execEvtrig p a s
  | .evtrigConf p a c => Sys2Proof.Machine.execEvtrigConf p a c s
  | .evmsg p a c => Sys2Proof.Machine.execEvmsg p a c s
  | .evmsgPeer p a c node => Sys2Proof.Machine.execEvmsgPeer p a c node s
  | .bar p d => Sys2Proof.Machine.execBar p d s
  | .settle p d => Sys2Proof.Machine.execSettle p d s
  | .sdone p => Sys2Proof.Machine.execSdone p s
  | .send p vec a buf dcore slot => Sys2Proof.Machine.execSend p vec a buf dcore slot s
  | .recv p vec d buf slot => Sys2Proof.Machine.execRecv p vec d buf slot s
  | .confid p v d a b c n => Sys2Proof.Machine.execConfid p v d a b c n s
  | .exitk p d a b nl => Sys2Proof.Machine.execExitk p d a b nl s
  | .kvapp p d a b c => Sys2Proof.Machine.execKvapp p d a b c s
  | .kvappFill p d a b c => Sys2Proof.Machine.execKvappFill p d a b c s
  | .kvldWait p t a b c n => Sys2Proof.Machine.execKvldWait p t a b c n s
  | .kvldMask p t a b c n => Sys2Proof.Machine.execKvldMask p t a b c n s
  | .arwait p a => Sys2Proof.Machine.execArwait p a s
  | .trap p code => Sys2Proof.Machine.execTrap p code s
  | .eret p => Sys2Proof.Machine.execEret p s
  | .replay p d a => Sys2Proof.Machine.execReplay p d a s
  | .csave p d a b => Sys2Proof.Machine.execCsave p d a b s
  | .crest p d a b => Sys2Proof.Machine.execCrest p d a b s
  | .halt p => Sys2Proof.Machine.execHalt p s
  | .haltRetain p => Sys2Proof.Machine.execHaltRetain p s
  | .trace p a b tag => Sys2Proof.Machine.execTrace p a b tag s
  | .admission q => Sys2Proof.Machine.execAdmission q s
  | .placement q => Sys2Proof.Machine.execPlacement q s
  | .superstepStart q => Sys2Proof.Machine.execSuperstepStart q s
  | .routineStart c => Sys2Proof.Machine.execRoutineStart c s
  | .clearingReport q u => Sys2Proof.Machine.execClearingReport q u s
  | .superstepEnd q => Sys2Proof.Machine.execSuperstepEnd q s
  | .launchCompletion q => Sys2Proof.Machine.execLaunchCompletion q s
  | .preemptionTakesEffect q => Sys2Proof.Machine.execPreemptionTakesEffect q s
  | .clusterRelease q => Sys2Proof.Machine.execClusterRelease q s
  | .launchResume q => Sys2Proof.Machine.execLaunchResume q s
  | .clusterClearing cluster => Sys2Proof.Machine.execClusterClearing cluster s
  | .teardownComplete q => Sys2Proof.Machine.execTeardownComplete q s
  | .tlbInvalidationDone secure => Sys2Proof.Machine.execTlbInvalidationDone secure s
  | .lineRefetch c => Sys2Proof.Machine.execLineRefetch c s
  | .rollGroupArrival c => Sys2Proof.Machine.execRollGroupArrival c s
  | .followJoin c => Sys2Proof.Machine.execFollowJoin c s
  | .renewalReply c => Sys2Proof.Machine.execRenewalReply c s
  | .storeReply c => Sys2Proof.Machine.execStoreReply c s
  | .l2WritebackDone line => Sys2Proof.Machine.execL2WritebackDone line s
  | .tldCopyDone k => Sys2Proof.Machine.execTldCopyDone k s
  | .jobStart cluster copy => Sys2Proof.Machine.execJobStart cluster copy s
  | .jobDone cluster copy queue => Sys2Proof.Machine.execJobDone cluster copy queue s
  | .jobFault cluster copy queue => Sys2Proof.Machine.execJobFault cluster copy queue s
  | .tellerOperation cluster => Sys2Proof.Machine.execTellerOperation cluster s
  | .evaluationComplete cluster slot => Sys2Proof.Machine.execEvaluationComplete cluster slot s
  | .sparkStart cluster => Sys2Proof.Machine.execSparkStart cluster s
  | .remoteDrop k => Sys2Proof.Machine.execRemoteDrop k s
  | .arrearsSpark die => Sys2Proof.Machine.execArrearsSpark die s
  | .postedOperationApply k => Sys2Proof.Machine.execPostedOperationApply k s
  | .purseAck k => Sys2Proof.Machine.execPurseAck k s
  | .episodeRelease q dom => Sys2Proof.Machine.execEpisodeRelease q dom s
  | .sendArrival k => Sys2Proof.Machine.execSendArrival k s
  | .slenReached q => Sys2Proof.Machine.execSlenReached q s
  | .faultRecordWrite secure => Sys2Proof.Machine.execFaultRecordWrite secure s
  | .walkCompletion k => Sys2Proof.Machine.execWalkCompletion k s
  | .l1CopyDrop cluster line => Sys2Proof.Machine.execL1CopyDrop cluster line s
  | .supersededCopyDrop pa => Sys2Proof.Machine.execSupersededCopyDrop pa s
  | .depositCacheWritebackDone line => Sys2Proof.Machine.execDepositCacheWritebackDone line s
  | .ageingSweep h => Sys2Proof.Machine.execAgeingSweep h s
  | .qsub q v => Sys2Proof.Machine.execQsub q v s
  | .barRegisterWrite secure off size v => Sys2Proof.Machine.execBarRegisterWrite secure off size v s
  | .tickets q v => Sys2Proof.Machine.execTickets q v s
  | .preempt q v => Sys2Proof.Machine.execPreempt q v s
  | .enable q v => Sys2Proof.Machine.execEnable q v s
  | .cworldWrite word v => Sys2Proof.Machine.execCworldWrite word v s
  | .csworldWrite die v => Sys2Proof.Machine.execCsworldWrite die v s
  | .tlbInvalidationRequest secure v => Sys2Proof.Machine.execTlbInvalidationRequest secure v s
  | .replayRegisterWrite secure v => Sys2Proof.Machine.execReplayRegisterWrite secure v s
  | .frtail secure v => Sys2Proof.Machine.execFrtail secure v s
  | .assayRangeWrite secure k word v => Sys2Proof.Machine.execAssayRangeWrite secure k word v s
  | .kill secure v => Sys2Proof.Machine.execKill secure v s
  | .hcsize v => Sys2Proof.Machine.execHcsize v s
  | .trtail secure die v => Sys2Proof.Machine.execTrtail secure die v s
  | .snpinv pa w keep => Sys2Proof.Machine.execSnpinv pa w keep s
  | .snpdata pa => Sys2Proof.Machine.execSnpdata pa s
  | .snpcur pa => Sys2Proof.Machine.execSnpcur pa s
  | .goS pa exclusive => Sys2Proof.Machine.execGoS pa exclusive s
  | .writeEntryRelease pa => Sys2Proof.Machine.execWriteEntryRelease pa s
  | .hostCxlMemWrite pa bytes => Sys2Proof.Machine.execHostCxlMemWrite pa bytes s
  | .hostCxlMemRead pa n => Sys2Proof.Machine.execHostCxlMemRead pa n s
  | .bisnpdataResponse pa data => Sys2Proof.Machine.execBisnpdataResponse pa data s
  | .bisnpinvAck pa => Sys2Proof.Machine.execBisnpinvAck pa s
  | .peerWrite src pa data => Sys2Proof.Machine.execPeerWrite src pa data s
  | .peerEvmsgArrival src cluster line msg => Sys2Proof.Machine.execPeerEvmsgArrival src cluster line msg s
  | .fabricAck k v data => Sys2Proof.Machine.execFabricAck k v data s
  | .linkFailure link => Sys2Proof.Machine.execLinkFailure link s
  | .linkUp link => Sys2Proof.Machine.execLinkUp link s
  | .ptpOffsetCorrection offset => Sys2Proof.Machine.execPtpOffsetCorrection offset s
  | .ptpLock on => Sys2Proof.Machine.execPtpLock on s
  | .throttling r => Sys2Proof.Machine.execThrottling r s
  | .throttlingEnd r => Sys2Proof.Machine.execThrottlingEnd r s
  | .thermalTrip r => Sys2Proof.Machine.execThermalTrip r s
  | .handleStoreDump cluster => Sys2Proof.Machine.execHandleStoreDump cluster s
  | .powerLimit w => Sys2Proof.Machine.execPowerLimit w s
  | .identity => Sys2Proof.Machine.execIdentity s
  | .sensors => Sys2Proof.Machine.execSensors s
  | .errors => Sys2Proof.Machine.execErrors s
  | .conventionalReset => Sys2Proof.Machine.execConventionalReset s
  | .ready => Sys2Proof.Machine.execReady s
  | .selfAdvance => Sys2Proof.Machine.execSelfAdvance s
  | .floor => Sys2Proof.Machine.execFloor s
  | .ill => Sys2Proof.Machine.execIll s

end Sys2Proof.Machine
end

