-- ==== Sys2Proof/Machine/Schedule.lean ====
section
/-! DEFINITION. Which move the part makes next (log 6), and the passing of a cycle (R51, R137, R157, R320, R323, R329, R341).
The meanings of instructions and steps are an argument. -/

namespace Sys2Proof.Machine

/-! ## One move -/

/-- Nanoseconds that TIME advances by in a cycle, 1 or 2, and what is left to slew (R341, log 7). -/
def State.timeStep (s : State) : Nat × Int :=
  let free := if Config.timeByTwo s.clock then 2 else 1
  if s.clock % 2000 ≠ 0 then (free, s.slew)
  else if 0 < s.slew ∧ free = 1 then (2, s.slew - 1)
  else if s.slew < 0 ∧ free = 2 then (1, s.slew + 1)
  else (free, s.slew)

/-- The queues whose launch is placed. -/
def State.placedQueues (s : State) : List (BitVec 6) :=
  (s.queues.map fun e => BitVec.ofNat 6 e.1).filter fun q => !(s.launch q).clusters.isEmpty

/-- One cycle passes: TIME advances, sends meet, writes of shared registers take effect, and barrier episodes are looked
at again. -/
def State.tick (s : State) : State :=
  let (n, left) := s.timeStep
  let s := { s with clock := s.clock + 1, time := s.time + BitVec.ofNat 64 n, slew := left, front := 0 }
  let s := s.collide.applyShared
  s.placedQueues.foldl State.recheckEpisodes s

/-- One move of the part. An instruction of a slot is issued by a context only (log 1, 6). -/
def moveWith (ex : Exec) (m : Move) (s : State) : Host.Outcome State Fault Refusal :=
  match m with
  | .issue c => issueWith ex c s
  | .event i => if (encode i).isSome then .next s else ex i s
  | .tick => .next s.tick
  | .copyUnit p q n => happen (copyUnit p q n) s
  | .matrixUnit p q n => happen (matrixUnit p q n) s
  | .peerRead src pa n => happen (peerRead src pa.toNat n.toNat) s
  | .peerWritePart src pa n data => happen (modify fun s => s.peerWrite src pa.toNat n.toNat data) s
  | .dumpSlot k => happen (modify fun s => s.dumpSlot k) s
  | .trip => .next s.tripNow
  | .softError e => .next { s with softErrors := s.softErrors ++ [e] }

/-! ## Steps that the part may take by itself -/

/-- The steps of a launch queue. -/
def State.queueEvents (s : State) (q : BitVec 6) : List Instr :=
  let l := s.launch q
  let units : List ClearUnit :=
    if l.phase ≠ .running then []
    else (List.range (8 * l.nclus)).map (fun k => .core (BitVec.ofNat 13 k)) ++
      (List.range l.nclus).map (fun k => .cluster (BitVec.ofNat 10 k)) ++
      (List.range 8).map fun d => .die (BitVec.ofNat 3 d)
  [.admission q, .placement q, .superstepStart q, .superstepEnd q, .launchCompletion q, .preemptionTakesEffect q,
    .clusterRelease q, .launchResume q, .teardownComplete q] ++ units.map fun u => .clearingReport q u

/-- The steps of a context. -/
def contextEvents (c : CtxId) : List Instr :=
  [.routineStart c, .lineRefetch c, .rollGroupArrival c, .followJoin c, .renewalReply c, .storeReply c]

/-- The steps of a cluster. -/
def State.clusterEvents (s : State) (p : Nat) : List Instr :=
  let k := s.cluster p
  let n : BitVec 10 := BitVec.ofNat 10 p
  let ends (copy : Bool) (e : Engine) : List Instr := e.running.flatMap fun j =>
    [.jobDone n copy (BitVec.ofNat 4 j.1), .jobFault n copy (BitVec.ofNat 4 j.1)]
  [.jobStart n false, .jobStart n true, .tellerOperation n, .sparkStart n] ++ ends false k.matrix ++ ends true k.copy ++
    (k.slots.filter fun h => h.2.state = .evaluating).map (fun h => .evaluationComplete n (BitVec.ofNat 11 h.1)) ++
    k.l1.map fun x => .l1CopyDrop n (BitVec.ofNat 45 x.1)

/-- The steps of what is under way between units. -/
def State.flowEvents (s : State) : List Instr :=
  (List.range s.tileCopies.length).map (.tldCopyDone ·) ++ (List.range s.remoteDrops.length).map (.remoteDrop ·) ++
    (List.range s.posted.length).map (.postedOperationApply ·) ++ (List.range s.acks.length).map (.purseAck ·) ++
    (List.range s.walks.length).map (.walkCompletion ·) ++
    s.l2Writebacks.map (fun x => .l2WritebackDone (BitVec.ofNat 45 x)) ++
    s.depositWritebacks.map (fun x => .depositCacheWritebackDone (BitVec.ofNat 45 x)) ++
    s.superseded.map fun x => .supersededCopyDrop (BitVec.ofNat 52 (2 ^ 51 + 64 * x.line))

/-- The kinds of holder that the ageing sweep visits (R282). -/
def holders : List Holder := [.contexts, .homes, .copies, .windows, .purses, .hostLines, .completions]

/-- The steps of the part as a whole. -/
def partEvents : List Instr :=
  [.ready, .tlbInvalidationDone false, .tlbInvalidationDone true, .faultRecordWrite false, .faultRecordWrite true] ++
    (List.range 8).map (fun d => .arrearsSpark (BitVec.ofNat 3 d)) ++
    holders.map (.ageingSweep ·)

/-- The clusters that something stands in. -/
def State.usedClusters (s : State) : List Nat := s.clusters.map (·.1)

/-- The contexts of the clusters that a launch is placed on. -/
def State.placedContexts (s : State) : List CtxId :=
  (s.clusters.filter fun e => e.2.placed.isSome).flatMap fun e => (List.range 32).map fun j => ctxOf (32 * e.1 + j)

/-- The steps that the part may take at any time (log 6). -/
def State.freeEvents (s : State) : List Instr :=
  partEvents ++ (s.queues.map fun e => BitVec.ofNat 6 e.1).flatMap s.queueEvents ++ s.placedContexts.flatMap contextEvents ++
    s.usedClusters.flatMap s.clusterEvents ++ s.flowEvents

/-- The clusters whose world in force differs from CWORLD (R62, R63). -/
def State.changingClusters (s : State) : List Nat :=
  (if s.cworld = 0 then s.usedClusters else List.range 1024).filter fun p =>
    (s.cluster p).secure != s.cworld.getLsbD p

/-- The last cycle has come in which the superstep that a decision has granted a launch may begin (R51): throttling may delay
it further (R406). -/
def State.startDue (s : State) (q : BitVec 6) : Bool :=
  !s.throttled && (s.launch q).start.any fun st => decide (st.since + 255 ≤ s.clock)

/-- The steps that fall due at a cycle: no other move is made before they are (R51, R59, R63, R282, R314, R322, R324, R379;
log 6). -/
def State.dueEvents (s : State) : List Instr :=
  let qs := s.queues.map fun e => BitVec.ofNat 6 e.1
  (s.placedQueues.flatMap fun q =>
    (s.launch q).episodes.map fun e => .episodeRelease q (BitVec.ofNat 4 e.1)) ++
    (List.range s.sends.length).map (.sendArrival ·) ++
    (if s.floorDue then [.floor] else []) ++ (holders.filter s.sweepDue).map (.ageingSweep ·) ++
    (qs.filter fun q => (s.launch q).preempt.isSome).map (.preemptionTakesEffect ·) ++
    (qs.filter s.startDue).flatMap (fun q => [.placement q, .launchResume q, .superstepStart q]) ++
    s.changingClusters.map fun p => .clusterClearing (BitVec.ofNat 10 p)

/-! ## Moves that would change something -/

/-- A move changes the part, whichever context it makes the active one. -/
def changes (ex : Exec) (s : State) (m : Move) : Bool :=
  match moveWith ex m s with
  | .next s' => decide ({ s' with active := s.active } ≠ s)
  | _ => true

/-- A context must issue in this cycle: it is the ready one that its core chooses, its settlement phase says so, or its
episode has been released, or has ended in DOMAIN (R137, R313, R314, R320, R324). -/
def State.mustIssue (s : State) (c : CtxId) : Bool :=
  let k := s.ctx c
  decide (s.front ≤ ctxKey c) && s.issuable c && match k.wait with
    | .barrier _ _ => k.grant == .released || (k.grant matches .fault _)
    | _ => s.readyIn c || (k.inSettlement && s.settleDue c)

/-- The issues that may come next: contexts act in ascending order of core and context number in a cycle, and none before a
lower one that must (R157, R161, R331, R343; log 6). A context whose next group is not fetched may ask for it. -/
def State.issues (s : State) : List Move :=
  let all := s.placedContexts
  let due := (all.filter s.mustIssue).map ctxKey
  (all.filter fun c =>
    ((s.ctx c).run == .waiting || ((s.ctx c).grant matches .fault _) || !s.fetched c || s.readyIn c) && decide (s.front ≤ ctxKey c) &&
      due.all fun n => decide (ctxKey c ≤ n))
    |>.map (.issue ·)

/-- The units of running copy jobs that are not yet performed (R213, R230). -/
def State.copyMoves (s : State) : List Move :=
  s.clusters.flatMap fun e => e.2.copy.running.flatMap fun j =>
    ((List.range j.2.kind.parts.length).filter fun n => !j.2.units.contains n).map fun n => .copyUnit e.1 j.1 n

/-- The number of elements that a matrix job may write by themselves: 256 for each entry of a batch (R222, R298). -/
def JobKind.elements : JobKind → Nat
  | .mma _ _ (.tile c) _ _ _ | .mmas _ _ (.tile c) _ _ => c.rows.toNat * c.cols.toNat
  | .mmab .. => 4096
  | _ => 0

/-- The elements of running matrix jobs that are not yet written (R298; log 19). -/
def State.matrixMoves (s : State) : List Move :=
  s.clusters.flatMap fun e => e.2.matrix.running.flatMap fun j =>
    ((List.range j.2.kind.elements).filter fun n => !j.2.units.contains n).map fun n => .matrixUnit e.1 j.1 n

/-- The core whose record of a collective step a move writes (R343). -/
def State.tracesOf (s : State) (m : Move) : Option (BitVec 13) :=
  let peer (p q : Nat) (f : Job → Bool) : Option (BitVec 13) := match s.runningJob p true q with
    | some j => if (j.kind matches .peerCopy ..) && f j then some j.owner.core else none
    | none => none
  match m with
  | .copyUnit p q _ => peer p q fun j => j.units.isEmpty
  | .event (.jobDone p true q) => peer p.toNat q.toNat fun _ => true
  | _ => none

/-- The records of one ring that are written in one cycle come in ascending core number: such a move waits for the next cycle
once a higher core has acted, and for the lower contexts that must act (R343; log 6). -/
def State.inTurn (s : State) (m : Move) : Bool :=
  match s.tracesOf m with
  | none => true
  | some core => decide (s.front ≤ 4 * core.toNat + 3) &&
      s.placedContexts.all fun c => !(decide (ctxKey c < 4 * core.toNat) && s.mustIssue c)

/-- The moves that may come next: what is due first, a thermal trip with it (R407), and a cycle passes only when no context must
issue in it. Where the self-advance falls in the cycle, it comes after everything else that the cycle brings, and the cycle
passes after it (R329; log 6). -/
def State.moves (ex : Exec) (s : State) : List Move :=
  match (.trip :: s.dueEvents.map Move.event).filter (changes ex s) with
  | [] =>
    if s.advancedNow then [.tick]
    else
      let dumps := (List.range s.dumps.length).map Move.dumpSlot
      let now := ((s.freeEvents.map Move.event) ++ s.issues ++ s.copyMoves ++ s.matrixMoves ++ dumps).filter fun m =>
        s.inTurn m && changes ex s m
      if s.placedContexts.any s.mustIssue then now
      else now ++ [if s.advanceDue then .event .selfAdvance else .tick]
  | due => due

/-- A step of the part: the agenda's first move, or one of those that may come next (log 6; log 1). -/
def stepWith (ex : Exec) (s : State) : Host.Outcome State Fault Refusal :=
  match s.agenda with
  | m :: r => moveWith ex m { s with agenda := r }
  | [] =>
    match s.moves ex with
    | [] => moveWith ex .tick s
    | [m] => moveWith ex m s
    | m :: ms =>
      moveWith ex ((m :: ms).getD (Config.schedule s.choices % (ms.length + 1)) m) { s with choices := s.choices + 1 }

end Sys2Proof.Machine
end

