-- ==== Sys2Proof/Machine/Step.lean ====
section
/-! DEFINITION. One step of the part, and the placing of one instruction where the next step fetches it. -/

namespace Sys2Proof.Machine

/-- One step of the part (log 6). -/
def step : State → Host.Outcome State Fault Refusal := stepWith exec

/-- A code line whose slot 0 holds a number's low 96 bits and whose other slots are `NOP`, with its parity (R108 to
R110; log 16). -/
def codeLine (w : Nat) : Nat := w % 2 ^ 96 + (if parity w 96 then 2 ^ 480 else 0)

/-- The page at user address 0 and physical address 0 of the normal world's ASID 0, for every use (log 16). -/
def codePage : Tlb :=
  { secure := false, asid := 0, vpn := 0, size := 0, type := 0, world := false, r := true, w := true, x := true,
    pexp := 0, ppn := 0 }

/-- The state with an instruction in slot 0 of the code line at user address 0, and a launch of queue 0, placed on
cluster 0 and in its superstep, whose context 0 of core 0 issues it with the next step (log 16). -/
def State.withFetchWord (s : State) (_nbits w : Nat) : State :=
  let c : CtxId := { core := 0, ctx := 0 }
  let s := s.setCtx c { s.ctx c with
    run := .running, pc := 0, borrowed := none, entry := .plain, line := none, settle := {}, roll := .none
    forwarded := false, advances := 0, reply := none, wait := .none, grant := .none, gathered := none, refetched := [], latched := none
    last := .done }
  let s := s.mapCore 0 fun k => { k with pointer := 3, issued := none, itlb := codePage :: k.itlb }
  let s := s.mapCluster 0 fun k => { k with placed := some (0, 0), secure := false, l1 := SMap.erase k.l1 0 }
  let s := s.mapQueue 0 fun k => { k with
    admitted := some { Launch.blank with nclus := 1, phase := .running, clusters := [0] } }
  { s with
    ready := true, tripped := false, active := c, front := 0
    normal := { s.normal with hpt := if s.untranslated false then s.normal.hpt ||| 4 else s.normal.hpt }
    hbm := s.hbm.writeN 0 64 (codeLine w)
    l2 := s.l2.filter fun x => x.line ≠ 0, l2Writebacks := s.l2Writebacks.filter fun x => x ≠ 0
    agenda := [.issue c] }

end Sys2Proof.Machine
end

