-- ==== Sys2Proof/Rounding.lean ====
section
/-! DEFINITION. What the statements mean by a real number rounded once to a format, by the order of values and by a conversion to
an integer (R94, R96 to R99, R170, R171). It is said over the values that the encodings of the format have, without the model's
own rounding. -/

namespace Sys2Proof.Machine

/-- The exact value is finite, and this real number. -/
def FV.Is (v : FV) (x : ℝ) : Prop :=
  match v with
  | .fin neg m e => x = (if neg then -1 else 1) * (m : ℝ) * (2 : ℝ) ^ e
  | _ => False

/-- The encoding holds the finite value x. -/
def FpFmt.Holds (F : FpFmt) (bits : Nat) (x : ℝ) : Prop := bits < 2 ^ F.width ∧ (F.decode bits).Is x

/-- Of all the values of a set, y is the one that the mode takes for x (R94); `even` says of it that its last bit is. -/
def Takes (mode : Mode) (S : ℝ → Prop) (even : Prop) (x y : ℝ) : Prop :=
  S y ∧ match mode with
  | .rtz => 0 ≤ x * y ∧ |y| ≤ |x| ∧ ∀ z, S z → |z| ≤ |x| → |z| ≤ |y|
  | .rdn => y ≤ x ∧ ∀ z, S z → z ≤ x → z ≤ y
  | .rup => x ≤ y ∧ ∀ z, S z → x ≤ z → y ≤ z
  | .rne => ∀ z, S z → |y - x| ≤ |z - x| ∧ (|y - x| = |z - x| → z ≠ y → even)
  | .rna => ∀ z, S z → |y - x| ≤ |z - x| ∧ (|y - x| = |z - x| → |z| ≤ |y|)

/-- A value of the format's precision, its exponent unbounded (R96). -/
def FpFmt.Precise (F : FpFmt) (z : ℝ) : Prop := ∃ (k : Nat) (e : Int), k < 2 ^ (F.mant + 1) ∧ |z| = (k : ℝ) * (2 : ℝ) ^ e

/-- The last bit of such a value, written with a leading one, is 0. -/
def FpFmt.EvenAt (F : FpFmt) (z : ℝ) : Prop :=
  ∃ (k : Nat) (e : Int), 2 ^ F.mant ≤ k ∧ k < 2 ^ (F.mant + 1) ∧ k % 2 = 0 ∧ |z| = (k : ℝ) * (2 : ℝ) ^ e

/-- A result of a nonzero x that the range of the format covers: of its finite values the one that the mode takes, with the
sign of x; NX where it is not x; UF where moreover u, which is x rounded with an unbounded exponent, lies below the smallest
normal number; no other flag (R94, R96). -/
structure FpFmt.RoundsWithin (F : FpFmt) (mode : Mode) (x u : ℝ) (r : Nat × Flags) (y : ℝ) : Prop where
  holds : F.Holds r.1 y
  takes : Takes mode (fun z => ∃ b, F.Holds b z) (r.1 % 2 = 0) x y
  sign : r.1 / 2 ^ (F.exp + F.mant) = if x < 0 then 1 else 0
  inexact : r.2.getLsbD 0 = true ↔ y ≠ x
  tiny : r.2.getLsbD 1 = true ↔ y ≠ x ∧ |u| < (2 : ℝ) ^ (1 - F.bias)
  others : (r.2.getLsbD 2, r.2.getLsbD 3, r.2.getLsbD 4) = (false, false, false)

/-- The result of any nonzero x rounded once to a format: where x rounded with an unbounded exponent does not exceed the
largest finite value, as above, and otherwise the infinity or the largest finite value that R98 gives, with OF and NX. -/
def FpFmt.Rounds (F : FpFmt) (mode : Mode) (x : ℝ) (r : Nat × Flags) : Prop :=
  ∃ u, Takes mode F.Precise (F.EvenAt u) x u ∧ ∀ top, F.Holds F.maxBits top →
    (|u| ≤ top → ∃ y, F.RoundsWithin mode x u r y) ∧
    (top < |u| →
      let away := match mode with
        | .rne | .rna => true
        | .rtz => false
        | .rup => decide (0 < x)
        | .rdn => decide (x < 0)
      r.1 = (if x < 0 then 2 ^ (F.exp + F.mant) else 0) +
        (if F.specials = .ieee ∧ away = true then (2 ^ F.exp - 1) * 2 ^ F.mant else F.maxBits) ∧
      r.2 = flagOF ||| flagNX)

/-! ## Comparison (R170, R171) -/

/-- A value among the real numbers and the infinities; a NaN has none. -/
noncomputable def FV.real : FV → EReal
  | .nan _ => 0
  | .inf n => if n then ⊥ else ⊤
  | .fin n m e => (((if n then -1 else 1) * (m : ℝ) * (2 : ℝ) ^ e : ℝ) : EReal)

/-- The lesser or greater of two encodings (R170): the encoding of the one operand or of the other, where -0 stands below +0
and a NaN gives way to the other operand; NV for a signalling NaN. -/
def FpFmt.Chooses (F : FpFmt) (greater : Bool) (a b : Nat) (r : Nat × Flags) : Prop :=
  let x := F.decode a
  let y := F.decode b
  let negative (n : Nat) : Prop := n / 2 ^ (F.exp + F.mant) = 1
  r.2 = (if x = .nan true ∨ y = .nan true then flagNV else 0) ∧
  (x.isNan = true → y.isNan = true → r.1 = F.canonicalNan) ∧ (x.isNan = true → y.isNan = false → r.1 = b) ∧
  (x.isNan = false → y.isNan = true → r.1 = a) ∧
  (x.isNan = false → y.isNan = false →
    (x.real < y.real → r.1 = if greater then b else a) ∧ (y.real < x.real → r.1 = if greater then a else b) ∧
    (x.real = y.real → negative a → r.1 = if greater then b else a) ∧
    (x.real = y.real → ¬ negative a → r.1 = if greater then a else b))

/-- A condition of two values, and NV (R123, R171): a NaN makes `ne` and `un` hold and no other, and sets NV where it is
signalling, or for lt, le, gt and ge. -/
def Compares (cc : FCond) (x y : FV) (r : Bool × Flags) : Prop :=
  let un := x.isNan = true ∨ y.isNan = true
  (r.1 = true ↔ match cc with
    | .eq => ¬ un ∧ x.real = y.real
    | .ne => un ∨ x.real ≠ y.real
    | .lt => ¬ un ∧ x.real < y.real
    | .le => ¬ un ∧ x.real ≤ y.real
    | .gt => ¬ un ∧ y.real < x.real
    | .ge => ¬ un ∧ y.real ≤ x.real
    | .un => un) ∧
  (x = .nan true ∨ y = .nan true ∨ (un ∧ (cc = .lt ∨ cc = .le ∨ cc = .gt ∨ cc = .ge)) → r.2 = flagNV) ∧
  (¬ (x = .nan true ∨ y = .nan true ∨ (un ∧ (cc = .lt ∨ cc = .le ∨ cc = .gt ∨ cc = .ge))) → r.2 = 0)

/-! ## Conversions (R98, R99) -/

/-- A finite value converted to an integer format of w bits between two bounds (R99): the integer that the mode takes, with NX
where it is not the value; one out of range becomes the bound, with NV. -/
def Saturates (mode : Mode) (w : Nat) (lo hi : Int) (x : ℝ) (r : Nat × Flags) : Prop :=
  ∃ k : Int, Takes mode (fun z => ∃ i : Int, z = i) (k % 2 = 0) x k ∧
    (k < lo → r = ((lo % 2 ^ w).toNat, flagNV)) ∧ (hi < k → r = ((hi % 2 ^ w).toNat, flagNV)) ∧
    (lo ≤ k → k ≤ hi → r.1 = (k % 2 ^ w).toNat ∧ ((k : ℝ) = x → r.2 = 0) ∧ ((k : ℝ) ≠ x → r.2 = flagNX))

end Sys2Proof.Machine
end

