-- ==== Sys2Proof/Safety.lean ====
section
/-! DEFINITION. The terms that the statements use: what an instruction leaves as it was, and what holds of every state
that a run may reach. -/

namespace Sys2Proof.Machine

/-! ## What stays -/

/-- The registers of a context that only `MTC`, `CREST`, `ERET` and faults change (R366, R399). -/
structure SpecialRegs where
  roundm : BitVec 3
  allow : BitVec 12
  depthlim : BitVec 7
  lease : BitVec 8
  kvb : Word
  kvmap : Word
  kvcfg : Word
  intrap : Bool
  vec : BitVec 7
  tvec : Word
  cause : Word
  fcause : Word
  faddr : Word
  epc : Word
  deriving DecidableEq, Repr

def Context.specials (k : Context) : SpecialRegs :=
  { roundm := k.roundm, allow := k.allow, depthlim := k.depthlim, lease := k.lease, kvb := k.kvb, kvmap := k.kvmap
    kvcfg := k.kvcfg, intrap := k.trap.intrap, vec := k.trap.vec, tvec := k.trap.tvec, cause := k.trap.cause
    fcause := k.trap.fcause, faddr := k.trap.faddr, epc := k.trap.epc }

/-- What a context holds of the general registers, but for those that a list names. -/
structure Context.KeepsRegisters (k k' : Context) (xs : List XReg) (vs : List VReg) (ms : List MReg)
    (ts : List TReg) : Prop where
  x : ∀ r, r ∉ xs → k'.regs.x[r.toNat] = k.regs.x[r.toNat]
  v : ∀ r, r ∉ vs → k'.regs.v[r.toNat] = k.regs.v[r.toNat]
  m : ∀ r, r ∉ ms → k'.regs.m[r.toNat] = k.regs.m[r.toNat]
  t : ∀ r, r ∉ ts → k'.regs.t[r.toNat] = k.regs.t[r.toNat]

/-- Every byte of memory reads as before: HBM, host memory and the windows. -/
def State.SameBytes (s t : State) : Prop := ∀ p : Place, t.peekByte p = s.peekByte p

/-- The frame of an instruction that changes registers of its own context alone: the part, every other context, every
byte, the general registers but those listed, FFLAGS where `flags` does not except it, the special registers, PTS and
the context's counters stay. The program counter may change. -/
structure State.RegisterFrame (s t : State) (xs : List XReg) (vs : List VReg) (ms : List MReg) (ts : List TReg)
    (flags : Bool) : Prop where
  part : t = { s with contexts := t.contexts }
  others : ∀ c, c ≠ s.active → t.ctx c = s.ctx c
  bytes : s.SameBytes t
  registers : s.me.KeepsRegisters t.me xs vs ms ts
  fflags : flags = false → t.me.fflags = s.me.fflags
  specials : t.me.specials = s.me.specials
  pts : t.me.pts = s.me.pts
  counters : (t.me.thunks, t.me.dout, t.me.sout) = (s.me.thunks, s.me.dout, s.me.sout)

/-- Every memory of the part stands in its canonical form: addresses rising, and no entry equal to what an address that
is not listed reads as. -/
structure State.Canonical (s : State) : Prop where
  hbm : s.hbm.wf = true
  host : s.host.wf = true
  coreMem : s.coreMem.wf = true
  clusterMem : s.clusterMem.wf = true
  chipMem : s.chipMem.wf = true

/-! ## The ends of an instruction -/

/-- The instruction completes and goes on to the next slot, with x[D] := w where its predicate holds. -/
def WritesX (i : Instr) (p : Pred) (d : XReg) (w : Word) (s : State) : Prop :=
  exec i s = .next ((if s.holds p then s.setX d w else s).retire .seq)

end Sys2Proof.Machine

namespace Sys2Proof

/-- An integer condition of R123 on two 64-bit values. -/
def ICond.Holds64 (cc : ICond) (a b : Word) : Prop :=
  match cc with
  | .eq => a = b
  | .ne => a ≠ b
  | .lt => a.toInt < b.toInt
  | .ge => b.toInt ≤ a.toInt
  | .ltu => a.toNat < b.toNat
  | .geu => b.toNat ≤ a.toNat
  | .gt => b.toInt < a.toInt
  | .le => a.toInt ≤ b.toInt
  | .gtu => b.toNat < a.toNat
  | .leu => a.toNat ≤ b.toNat

end Sys2Proof

namespace Sys2Proof.Machine

/-- The instruction completes and goes on, with x[D] := the bits of a result, zero-extended, and FFLAGS joined by its
flags, where its predicate holds. -/
def WritesFp (i : Instr) (p : Pred) (d : XReg) (r : Nat × Flags) (s : State) : Prop :=
  exec i s = .next ((if s.holds p then (s.setX d (BitVec.ofNat 64 r.1)).addFlags r.2 else s).retire .seq)

/-- Element i of a register is `f i` where the predicate selects it, and the old one otherwise (R165). -/
def State.ElementsAre (s : State) (p : Pred) (v : View) (old new : Vec) (f : Nat → Nat) : Prop :=
  ∀ i, i < v.elems →
    elem new v.width i = if s.active? p v i then f i % 2 ^ v.width else elem old v.width i

/-- The bits of element i of a mask are all `f i` where the predicate selects it, and the old ones otherwise (R175). -/
def State.MaskIs (s : State) (p : Pred) (v : View) (old new : Mask) (f : Nat → Bool) : Prop :=
  ∀ k, k < 128 →
    new.getLsbD k = if s.active? p v (k / v.bytes) then f (k / v.bytes) else old.getLsbD k

/-- The flags are the OR of those of the elements that the predicate selects (R96). -/
def State.FlagsAre (s : State) (p : Pred) (v : View) (fl : Flags) (f : Nat → Flags) : Prop :=
  ∀ k, k < 5 → (fl.getLsbD k = true ↔ ∃ i, i < v.elems ∧ s.active? p v i = true ∧ (f i).getLsbD k = true)

/-- The instruction completes with every selected element of v[D] replaced, and no flag set. -/
def WritesElements (i : Instr) (p : Pred) (v : View) (d : VReg) (f : Nat → Nat) (s : State) : Prop :=
  ∃ w, s.ElementsAre p v (s.v d) w f ∧ exec i s = .next ((s.setV d w).retire .seq)

/-- The instruction completes with every selected element of v[D] replaced, and the OR of their flags joined to
FFLAGS. -/
def WritesFpElements (i : Instr) (p : Pred) (v : View) (d : VReg) (f : Nat → Nat × Flags) (s : State) : Prop :=
  ∃ w fl, s.ElementsAre p v (s.v d) w (fun i => (f i).1) ∧ s.FlagsAre p v fl (fun i => (f i).2) ∧
    exec i s = .next (((s.setV d w).addFlags fl).retire .seq)

/-- No settlement phase, and no timestamp on its way back to the context: what an instruction of class L or X that a
settlement phase does not allow needs before it issues (R277, R320). -/
def State.Ready (s : State) : Prop := s.me.inSettlement = false ∧ s.me.reply = none

/-- The slot that LINEOFF and SLOT name from a program counter, as R119 writes it. -/
def branchTarget (pc : Word) (t : Target) : Word :=
  BitVec.ofNat 64 ((pc.toNat / 64 + (t.lineOff.signExtend 58).toNat) % 2 ^ 58 * 64 + t.slot.toNat)

/-- The element load of R193 answers a number: it is aligned, located and permitted, its bytes may be read now, and
`t` is the state after it. -/
def State.Loads (s : State) (va : Word) (n v : Nat) (t : State) : Prop := (loadElem va n).run s = .ok v t

/-- The element store of R193 is performed, and `t` is the state after it. -/
def State.Stores (s : State) (va : Word) (n v : Nat) (t : State) : Prop := (storeElem va n v).run s = .ok () t

/-- A store of n bytes at a place changes no other byte: of HBM, of host memory and the host lines held for it, and of
the windows. -/
structure State.StoresOnly (s t : State) (pl : Place) (n : Nat) : Prop where
  hbm : ∀ a, (∀ pa, pl = .mem pa → a < pa ∨ pa + n ≤ a) → t.hbm.read a = s.hbm.read a
  host : t.host = s.host
  hostLines : ∀ line, (∀ ha, pl = .host ha → line < ha / 64 ∨ (ha + n - 1) / 64 < line) →
    t.hostLine line = s.hostLine line ∧ t.writeEntry line = s.writeEntry line
  windows : ∀ space a, space ≤ 2 → (∀ off, pl = .win space off → a < off ∨ off + n ≤ a) →
    (t.winMem space).read a = (s.winMem space).read a

/-- Every selected element of a vector access passes its checks, and those of a store may be stored at once: the places,
and the state after the translations that they took (R193, R197). -/
def State.LanesReady (s : State) (store : Bool) (v : View) (lanes : List Lane) (ps : List (Lane × Place))
    (t : State) : Prop :=
  ∃ u, (placeLanes (if store then checkStore v.bytes else checkLoad v.bytes) lanes).run s = .ok ps u ∧
    (if store then readyLanes (s.threadOf s.active) 2 v.bytes s.me.pts ps else pure ()).run u = .ok () t

/-- The selected elements of a vector load are all loaded, those that it loaded before it last waited among them, each when its
turn comes: their values and flags, the pts after them, whether a reply carries it, and the state after them. -/
def State.LanesLoad (s t : State) (v : View) (ps : List (Lane × Place)) (vs : List (Nat × Nat)) (fl : Flags) (pts : Ts)
    (reply : Bool) (u : State) : Prop :=
  (loadLanes (s.threadOf s.active) 1 v.bytes ps s.me.begun).run t =
    .ok { values := vs, flags := fl, pts := pts, reply := reply } u

/-- Bytes of a place that a load takes as they stand in the part: in a window, or in one line of HBM that is in no view and
of which the cluster's L1 holds no copy. -/
def State.Plain (s : State) (cluster : Nat) (p : Place) (n : Nat) : Prop :=
  match p with
  | .win _ _ => True
  | .mem pa => pa % 128 + n ≤ 128 ∧ SMap.find (s.cluster cluster).l1 (pa / 128) = none ∧ s.viewOf (pa / 128) = none ∧
      ∀ x ∈ s.l2, x.line = pa / 128 → x.view = none
  | _ => False

/-- The n bytes that stand at a place of a window or of HBM. -/
def State.bytesAt (s : State) (p : Place) (n : Nat) : Nat :=
  match p with
  | .mem pa => s.hbm.readN pa n
  | .win space off => (s.winMem space).readN off n
  | _ => 0

/-- Two ranges of bytes have no byte of HBM or of a window in common. -/
def Apart (p : Place) (n : Nat) (q : Place) (m : Nat) : Prop :=
  match p, q with
  | .mem a, .mem b => a + n ≤ b ∨ b + m ≤ a
  | .win x a, .win y b => x ≠ y ∨ a + n ≤ b ∨ b + m ≤ a
  | _, _ => True

/-- Numbers of n bytes stored one after another, each at its place: one that no later one covers stands there, and every byte
of HBM and of the windows that none covers stays. -/
def State.StoredAt (s t : State) (l : List (Place × Nat × Nat)) : Prop :=
  (s.Canonical → ∀ before p n v after, l = before ++ (p, n, v) :: after → (∀ e ∈ after, Apart p n e.1 e.2.1) →
    (∃ pa, p = .mem pa) ∨ (∃ space off, p = .win space off) → t.bytesAt p n = v % 256 ^ n) ∧
  (∀ a, (∀ e ∈ l, Apart (.mem a) 1 e.1 e.2.1) → t.hbm.read a = s.hbm.read a) ∧
  ∀ space a, space ≤ 2 → (∀ e ∈ l, Apart (.win space a) 1 e.1 e.2.1) → (t.winMem space).read a = (s.winMem space).read a

/-- The place of an address for a thread, whichever of the translations that its core and its cluster hold answers it. -/
def State.Located (s : State) (t : Thread) (va : Word) (p : Place) : Prop :=
  if isWindow va = true then s.window t va = .ok p
  else ∃ e, (∀ x ∈ (s.core t.ctx.core.toNat).dtlb ++ (s.cluster t.cluster).tlb, x.covers t.secure t.asid va = true → x = e) ∧
    p = (if e.type = 1 then .purse (e.pa va) e.pexp else if e.type = 3 then .host (e.pa va - 2 ^ 51) else .mem (e.pa va))

/-- No timestamp that the step assigns stands beyond FLOOR + 2^17, or one stood there before (R282). -/
def State.FloorAllows (s t : State) : Prop := t.withinFloor = true ∨ s.withinFloor = false

/-- The host is asked for the data of a line that it owns, where it has not been asked yet (R336). -/
def State.asksBack (s : State) (line : Nat) : State :=
  if s.backInvals.any fun b => b.line = line ∧ b.forData then s
  else { (s.emit (.biSnpData line)) with
    backInvals := s.backInvals ++ [{ line := line, forData := true, owners := [] }] }

/-- The times at which a line of HBM stands at its home: its own where the slice holds it, and otherwise MTS of the slice,
to which the line that makes room for it adds its own (R275, R278, R408). -/
def State.homeStamp (s : State) (line : Nat) : Stamp :=
  match s.l2.find? fun x => x.line = line with
  | some x => x.stamp
  | none =>
    let home := s.homeOf line
    let set := s.l2.filter fun x => s.homeOf x.line = home
    let mts := (s.cluster home.1).mts
    let t := match set.getLast? with
      | some v => if set.length < 16 then mts else tsMax mts v.stamp.rts
      | none => mts
    { wts := t, rts := t }

/-- A purse line as it stands at its home: as its deposit cache holds it, and otherwise HBM's bytes with MTS, to which the
line that makes room for it adds its own time (R270, R278). -/
def State.depositHome (s : State) (line : Nat) : DepositLine :=
  match s.deposit.find? fun x => x.line = line with
  | some x => x
  | none =>
    let home := s.depositSet line
    let set := s.deposit.filter fun x => s.depositSet x.line = home
    let mts := SMap.at s.depositMts s.stampBase home.1
    let t := match set.getLast? with
      | some v => if set.length < 24 then mts else tsMax mts v.stamp.rts
      | none => mts
    { line := line, data := BitVec.ofNat 1024 (s.hbm.readN (line * 128) 128), stamp := { wts := t, rts := t }, dirty := false }

/-! ## Jobs (R210, R211) -/

/-- The core's queue of the engine has room, and the job 256 submissions back is no longer pending. -/
def State.JobRoom (s : State) (copy : Bool) : Prop :=
  let core := s.core s.active.core.toNat
  (SMap.at ((s.cluster (clusterOfCore s.active.core)).engine copy).queues [] (s.active.core.toNat % 8)).length < 16 ∧
  ∀ st, SMap.find core.jobs (core.seq - 256).toNat = some st → st.1 ≠ 0

/-- The id of the core's next job: the core's number in its cluster, and the sequence counter. -/
def State.nextJobId (s : State) : Nat :=
  s.active.core.toNat % 8 * 4096 + (s.core s.active.core.toNat).seq.toNat

/-- The job accepted: the counter advances, the id's status is pending, the status of the id 256 back is gone, the job
stands last in the core's queue, and x[D] holds the id. -/
def State.accept (s : State) (copy : Bool) (d : XReg) (kind : JobKind) : State :=
  let n := s.active.core.toNat
  let core := s.core n
  let p := clusterOfCore s.active.core
  let job : Job :=
    { id := BitVec.ofNat 16 s.nextJobId, owner := s.active, queue := s.queueOf p, fork := s.me.pts, lease := s.me.lease
      kind := kind, thunk := none, time := s.me.pts, units := [], batch := none, failed := none }
  ((s.setCore n { core with
      seq := core.seq + 1
      jobs := SMap.put (SMap.erase core.jobs (core.seq - 256).toNat) core.seq.toNat (0, 0, false, 0, 0) }).mapEngine p copy
    fun e => e.append (n % 8) job).setX d (BitVec.ofNat 64 s.nextJobId)

/-- A job that moves nothing is done at once (R229): it takes an id and no place in a queue. -/
def State.acceptEmpty (s : State) (d : XReg) : State :=
  let n := s.active.core.toNat
  let core := s.core n
  (s.setCore n { core with
      seq := core.seq + 1
      jobs := SMap.put (SMap.erase core.jobs (core.seq - 256).toNat) core.seq.toNat (1, 0, false, 0, s.me.pts) }).setX d
    (BitVec.ofNat 64 s.nextJobId)

/-- The three checks of a tile descriptor hold for the active context's cluster (R202). -/
def State.TileOk (s : State) (t : Tile) : Prop :=
  t.formatOk = true ∧ t.shapeOk = true ∧ t.windowOk (clusterOfCore s.active.core) = true

/-- The shape of a product fits the matrix engine: m rows and k columns of A, k rows and n columns of B, where k exceeds
64 only for two 4-bit operands with B transposed (R217). -/
def productFits (a : Tile) (k n : Nat) (tb : Bool) : Prop :=
  a.cols.toNat = k ∧ a.rows.toNat ≤ 64 ∧ n ≤ 64 ∧ (k ≤ 64 ∨ (k ≤ 128 ∧ a.fmt = 8 ∧ tb = true))

/-! ## Handles (R41, R235 to R237) -/

/-- The handle names a slot in use of a cluster of the launch, with nothing before it in the context's order and no soft
error to meet (R237, R257). -/
structure State.HandleOk (s : State) (h : BitVec 32) (k : HSlot) : Prop where
  placed : (s.launchAt s.active).clusters.contains (hCluster h) = true
  quiet : ∀ r ∈ s.remoteDrops, r.by_ = s.active → hCluster r.handle ≠ hCluster h
  sound : s.softErrors = []
  slot : s.slotOf h = some k

/-- The lowest free slot of the executing cluster (R235). -/
def State.freeAt (s : State) (i : Nat) : Prop := freeSlot (s.cluster (clusterOfCore s.active.core)) 2048 0 = some i

/-- A slot of the executing cluster as it is taken: its generation, and one reference. -/
def State.newSlot (s : State) (i : Nat) : HSlot :=
  { gen := (SMap.at (s.cluster (clusterOfCore s.active.core)).slots {} i).gen, refcnt := 1 }

/-- Its handle. -/
def State.newHandle (s : State) (i : Nat) : BitVec 32 := s.handle (clusterOfCore s.active.core) (BitVec.ofNat 11 i)

/-- The active context waits, and nothing else changes. -/
def State.waits (s : State) (w : Wait) : State := s.mapMe fun k => { k with run := .waiting, wait := w, last := .waited }

/-- The active context joins a time. -/
def State.joins (s : State) (t : Ts) : State := s.mapMe fun k => { k with pts := tsMax k.pts t }

/-! ## The instructions of a shape -/

/-- The integer instructions, `MFC`, and what vectors and masks give scalars without flags, which write x[D]. -/
def scalarDest : Instr → Option XReg
  | .add _ d _ _ | .sub _ d _ _ | .and _ d _ _ | .or _ d _ _ | .xor _ d _ _ | .andn _ d _ _ | .shl _ d _ _
  | .shr _ d _ _ | .sha _ d _ _ | .rotl _ d _ _ | .min _ d _ _ | .max _ d _ _ | .minu _ d _ _ | .maxu _ d _ _
  | .addi _ d _ _ | .subImm _ d _ _ | .andImm _ d _ _ | .orImm _ d _ _ | .xorImm _ d _ _ | .andnImm _ d _ _
  | .shlImm _ d _ _ | .shrImm _ d _ _ | .shaImm _ d _ _ | .rotlImm _ d _ _ | .minImm _ d _ _ | .maxImm _ d _ _
  | .minuImm _ d _ _ | .maxuImm _ d _ _ | .mul _ d _ _ | .mulh _ d _ _ | .mulhu _ d _ _ | .div _ d _ _
  | .divu _ d _ _ | .rem _ d _ _ | .remu _ d _ _ | .clz _ d _ | .ctz _ d _ | .popc _ d _ | .cmp _ _ d _ _
  | .sel _ d _ _ _ | .movi _ d _ | .lea _ d _ _ _ _ | .extr _ _ d _ _ _ | .insr _ d _ _ _ | .mfc _ d _
  | .vextr _ _ d _ _ | .vredi _ _ _ d _ | .mpopc _ _ d _ | .mfirst _ _ d _ | .mtox _ d _ _ => some d
  | _ => none

/-- The vector loads with the addresses of their elements, the register they write, and the alignment that the first
address must have (R193, R197). -/
def vectorLoad (s : State) : Instr → Option (Pred × View × VReg × (Nat → Word) × Nat)
  | .ldv p v d a imm => some (p, v, d, fun i => s.x a + imm.signExtend 64 + BitVec.ofNat 64 (i * v.bytes), 128)
  | .ldvs p v d a b imm => some (p, v, d, fun i => s.x a + imm.signExtend 64 + BitVec.ofNat 64 i * s.x b, 1)
  | .ldg p v u d a b sh imm => some (p, v, d, fun i => s.x a + imm.signExtend 64 +
      ((if u then BitVec.ofNat 64 (elem (s.v b) v.width i)
        else (BitVec.ofNat v.width (elem (s.v b) v.width i)).signExtend 64) <<< sh.toNat), 1)
  | _ => none

/-- The vector stores of one element at a time, in the same form, with the register they read. -/
def vectorStore (s : State) : Instr → Option (Pred × View × VReg × (Nat → Word))
  | .stvs p v a b c imm => some (p, v, c, fun i => s.x a + imm.signExtend 64 + BitVec.ofNat 64 i * s.x b)
  | .sts p v u a b c sh imm => some (p, v, c, fun i => s.x a + imm.signExtend 64 +
      ((if u then BitVec.ofNat 64 (elem (s.v b) v.width i)
        else (BitVec.ofNat v.width (elem (s.v b) v.width i)).signExtend 64) <<< sh.toNat))
  | _ => none

/-- The scalar floating-point instructions that write x[D] and raise no fault. -/
def fpScalarDest : Instr → Option XReg
  | .fadd _ _ _ d _ _ | .fsub _ _ _ d _ _ | .fmul _ _ _ d _ _ | .ffma _ _ _ d _ _ _ | .fdiv _ _ _ d _ _
  | .fsqrt _ _ _ d _ | .fmin _ _ d _ _ | .fmax _ _ d _ _ | .fcmp _ _ _ d _ _ | .fclass _ _ d _
  | .vredf _ _ _ d _ => some d
  | _ => none

/-- The vector floating-point instructions that write v[D] and raise no fault. -/
def fpVectorDest : Instr → Option VReg
  | .vfadd _ _ _ d _ _ | .vfsub _ _ _ d _ _ | .vfmul _ _ _ d _ _ | .vffma _ _ _ d _ _ _ | .vfdiv _ _ _ d _ _
  | .vfsqrt _ _ _ d _ | .vfmin _ _ d _ _ | .vfmax _ _ d _ _ | .vexp2 _ d _ | .vrecip _ d _ | .vrsqrt _ d _
  | .vsegadd _ _ _ _ d _ _ => some d
  | _ => none

/-- The vector instructions without flags that write v[D]. -/
def vectorDest : Instr → Option VReg
  | .vadd _ _ d _ _ | .vsub _ _ d _ _ | .vmul _ _ d _ _ | .vmulh _ _ _ d _ _ | .vmin _ _ _ d _ _ | .vmax _ _ _ d _ _
  | .vand _ _ d _ _ | .vor _ _ d _ _ | .vxor _ _ d _ _ | .vshl _ _ d _ _ | .vshr _ _ d _ _ | .vsha _ _ d _ _
  | .vbcast _ _ d _ | .vinsr _ _ d _ _ | .vperm _ _ d _ _ | .vslide _ _ d _ _ _ => some d
  | _ => none

/-- The instructions without flags that write m[D]. -/
def maskDest : Instr → Option MReg
  | .vcmp _ _ _ d _ _ | .mand _ d _ _ | .mor _ d _ _ | .mxor _ d _ _ | .mnot _ d _ | .xtom _ d _ _ => some d
  | _ => none

/-- The scalar predicate of an instruction of class L or X that only its own rule's predicate holds back: all of them but the
vector memory instructions and `PADDV`, whose predicate is per element, `SEND` and `RECV`, which only a settlement phase admits,
and `ILL`, which has none. -/
def guardOf : Instr → Option Pred
  | .lpad p .. | .mfc p .. | .mtc p .. | .follow p .. | .detach p | .rejoin p .. | .take p .. | .launch p ..
  | .ld p .. | .st p .. | .mtt p .. | .mft p .. | .tld p .. | .tst p .. | .twait p .. | .tcons p .. | .pref p ..
  | .mma p .. | .mmat p .. | .mmab p .. | .mmas p .. | .mjpoll p .. | .mjwait p .. | .cpy p .. | .cpy2 p ..
  | .cpyg p .. | .cpyc p .. | .cpya p .. | .susp p .. | .suspr p .. | .mkval p .. | .force p .. | .spark p ..
  | .result p .. | .dup p .. | .drop p .. | .hstat p .. | .htile p .. | .padd p .. | .pfence p | .pclr p ..
  | .pset p .. | .praw p .. | .amoAdd p .. | .amoAnd p .. | .amoOr p .. | .amoXor p .. | .amoMin p .. | .amoMax p ..
  | .amoMinu p .. | .amoMaxu p .. | .amoSwap p .. | .amonrAdd p .. | .amonrAnd p .. | .amonrOr p .. | .amonrXor p ..
  | .amonrMin p .. | .amonrMax p .. | .amonrMinu p .. | .amonrMaxu p .. | .amonrSwap p .. | .cas p ..
  | .fenceSysAcq p | .fenceSysRel p | .fenceSysFull p | .evld p .. | .evtrig p .. | .evtrigConf p .. | .evmsg p ..
  | .evmsgPeer p .. | .bar p .. | .settle p .. | .sdone p | .trace p .. | .confid p .. | .exitk p .. | .kvapp p ..
  | .kvappFill p .. | .kvldWait p .. | .kvldMask p .. | .arwait p .. | .trap p .. | .eret p | .replay p ..
  | .csave p .. | .crest p .. | .halt p | .haltRetain p => some p
  | _ => none

/-! ## What every reachable state satisfies -/

/-! ## The step -/

/-- The slot at the context's program counter decodes, for this context, to an instruction: `LBTOL` exists for a
supervisor alone (R125, R399). -/
def State.SlotIs (s : State) (w : BitVec 96) (i : Instr) : Prop :=
  decodeSlot w = .ok i ∧ (supervisorOnly i = true → s.supervisor s.active = true)

/-- A context entered through a table lands on an `LPAD` of its tag (R154). -/
def State.LandingOk (s : State) (w : BitVec 96) : Prop :=
  ∀ src tag, s.me.entry = .landing src tag → ∃ p, decodeSlot w = .ok (.lpad p tag)

/-- The outcome of a group, with what the core does after it: its forwarding and a settlement phase's timing (R130, R320).
-/
def afterOutcome (before : State) (slots : List (BitVec 96)) (lats : List (Nat × List Nat)) :
    Host.Outcome State Fault Refusal → Host.Outcome State Fault Refusal
  | .next t => .next (afterGroup before slots lats t)
  | .fault f => .fault f
  | .refused r => .refused r

/-- A context that has gone on from its wait takes its turn (R137, R312). -/
def afterWake (before : Context) (c : CtxId) : Host.Outcome State Fault Refusal → Host.Outcome State Fault Refusal
  | .next t => .next (t.markWake before c)
  | .fault f => .fault f
  | .refused r => .refused r

/-- The trap that an instruction of a slot raises in a settlement phase, whatever its predicate (R315, R320): PHASE for
those of class L or X, but for the five that a settlement phase admits; `ILL` is no instruction. -/
def phaseTrap (i : Instr) : Option Trap :=
  match i with
  | .mfc .. | .send .. | .recv .. | .sdone .. | .trace .. => none
  | .ill => some { cause := .illop }
  | .bar _ d | .settle _ d => some { cause := .phase, faddr := d.setWidth 64 }
  | i => if issueClass i = .l ∨ issueClass i = .x then some { cause := .phase } else none

end Sys2Proof.Machine
end

