-- ==== Sys2Proof/Certificates/Slice0/Obligations.lean ====
section
/-! DEFINITION. The statements about the NXV-8192 for the provers. -/

open Sys2Proof Sys2Proof.Machine

/-! ## The integer instructions (R141 to R149) -/

/-- Majors 0x01 and 0x02 (R142): FN 0x00 to 0x0D of major 0x01 write x[D] := op(x[A], x[B]) under their predicate and go on,
and those of major 0x02 x[D] := op(x[A], sext(IMM48)), with bits [63:6] of a register's shift count ignored; the words
decode to these instructions, an immediate shift count from 0 to 63, and any other is rejected. -/
def Obligations.IntegerFormsWriteTheirResult : Prop :=
  (∀ (p : Pred) (d a b : XReg) (k : Imm48) (n : BitVec 6),
    let reg (fn : BitVec 6) (i : Instr) : Prop := decodeSlot (packF 1 fn p d a b 0 0 0) = .ok i
    let imm (fn : BitVec 6) (i : Instr) : Prop := decodeSlot (packF 2 fn p d a 0 0 0 k) = .ok i
    let shift (fn : BitVec 6) (i : Instr) : Prop :=
      decodeSlot (packF 2 fn p d a 0 0 0 (n.setWidth 48)) = .ok i ∧
      (63 < k.toNat → ∃ e, decodeSlot (packF 2 fn p d a 0 0 0 k) = .error e)
    reg 0 (.add p d a b) ∧ reg 1 (.sub p d a b) ∧ reg 2 (.and p d a b) ∧ reg 3 (.or p d a b) ∧ reg 4 (.xor p d a b) ∧
    reg 5 (.andn p d a b) ∧ reg 6 (.shl p d a b) ∧ reg 7 (.shr p d a b) ∧ reg 8 (.sha p d a b) ∧
    reg 9 (.rotl p d a b) ∧ reg 10 (.min p d a b) ∧ reg 11 (.max p d a b) ∧ reg 12 (.minu p d a b) ∧
    reg 13 (.maxu p d a b) ∧ imm 0 (.addi p d a k) ∧ imm 1 (.subImm p d a k) ∧ imm 2 (.andImm p d a k) ∧
    imm 3 (.orImm p d a k) ∧ imm 4 (.xorImm p d a k) ∧ imm 5 (.andnImm p d a k) ∧ imm 10 (.minImm p d a k) ∧
    imm 11 (.maxImm p d a k) ∧ imm 12 (.minuImm p d a k) ∧ imm 13 (.maxuImm p d a k) ∧ shift 6 (.shlImm p d a n) ∧
    shift 7 (.shrImm p d a n) ∧ shift 8 (.shaImm p d a n) ∧ shift 9 (.rotlImm p d a n)) ∧
  (∀ (p : Pred) (d a b : XReg) (s : State),
    WritesX (.add p d a b) p d (s.x a + s.x b) s ∧
    WritesX (.sub p d a b) p d (s.x a - s.x b) s ∧
    WritesX (.and p d a b) p d (s.x a &&& s.x b) s ∧
    WritesX (.or p d a b) p d (s.x a ||| s.x b) s ∧
    WritesX (.xor p d a b) p d (s.x a ^^^ s.x b) s ∧
    WritesX (.andn p d a b) p d (s.x a &&& ~~~s.x b) s ∧
    WritesX (.shl p d a b) p d (s.x a <<< ((s.x b).toNat % 64)) s ∧
    WritesX (.shr p d a b) p d (s.x a >>> ((s.x b).toNat % 64)) s ∧
    WritesX (.sha p d a b) p d ((s.x a).sshiftRight ((s.x b).toNat % 64)) s ∧
    WritesX (.rotl p d a b) p d
      (s.x a <<< ((s.x b).toNat % 64) ||| s.x a >>> (64 - (s.x b).toNat % 64)) s ∧
    WritesX (.min p d a b) p d (BitVec.ofInt 64 (min (s.x a).toInt (s.x b).toInt)) s ∧
    WritesX (.max p d a b) p d (BitVec.ofInt 64 (max (s.x a).toInt (s.x b).toInt)) s ∧
    WritesX (.minu p d a b) p d (BitVec.ofNat 64 (min (s.x a).toNat (s.x b).toNat)) s ∧
    WritesX (.maxu p d a b) p d (BitVec.ofNat 64 (max (s.x a).toNat (s.x b).toNat)) s) ∧
  ∀ (p : Pred) (d a : XReg) (imm : Imm48) (n : BitVec 6) (s : State),
    WritesX (.addi p d a imm) p d (s.x a + imm.signExtend 64) s ∧
    WritesX (.subImm p d a imm) p d (s.x a - imm.signExtend 64) s ∧
    WritesX (.andImm p d a imm) p d (s.x a &&& imm.signExtend 64) s ∧
    WritesX (.orImm p d a imm) p d (s.x a ||| imm.signExtend 64) s ∧
    WritesX (.xorImm p d a imm) p d (s.x a ^^^ imm.signExtend 64) s ∧
    WritesX (.andnImm p d a imm) p d (s.x a &&& ~~~imm.signExtend 64) s ∧
    WritesX (.shlImm p d a n) p d (s.x a <<< n.toNat) s ∧
    WritesX (.shrImm p d a n) p d (s.x a >>> n.toNat) s ∧
    WritesX (.shaImm p d a n) p d ((s.x a).sshiftRight n.toNat) s ∧
    WritesX (.rotlImm p d a n) p d (s.x a <<< n.toNat ||| s.x a >>> (64 - n.toNat)) s ∧
    WritesX (.minImm p d a imm) p d (BitVec.ofInt 64 (min (s.x a).toInt imm.toInt)) s ∧
    WritesX (.maxImm p d a imm) p d (BitVec.ofInt 64 (max (s.x a).toInt imm.toInt)) s ∧
    WritesX (.minuImm p d a imm) p d (BitVec.ofNat 64 (min (s.x a).toNat (imm.signExtend 64 : Word).toNat)) s ∧
    WritesX (.maxuImm p d a imm) p d (BitVec.ofNat 64 (max (s.x a).toNat (imm.signExtend 64 : Word).toNat)) s

/-- Major 0x03 (R144): the multiplications and divisions, with their encodings and with the results for a divisor of 0 and
for -2^63 divided by -1; no division traps. -/
def Obligations.MultiplyAndDivide : Prop :=
  (∀ (p : Pred) (d a b : XReg),
    let reg (fn : BitVec 6) (i : Instr) : Prop := decodeSlot (packF 3 fn p d a b 0 0 0) = .ok i
    reg 0 (.mul p d a b) ∧ reg 1 (.mulh p d a b) ∧ reg 2 (.mulhu p d a b) ∧ reg 3 (.div p d a b) ∧
    reg 4 (.divu p d a b) ∧ reg 5 (.rem p d a b) ∧ reg 6 (.remu p d a b)) ∧
  ∀ (p : Pred) (d a b : XReg) (s : State),
    let sa := (s.x a).toInt
    let sb := (s.x b).toInt
    let ua := (s.x a).toNat
    let ub := (s.x b).toNat
    WritesX (.mul p d a b) p d (BitVec.ofNat 64 (ua * ub % 2 ^ 64)) s ∧
    WritesX (.mulh p d a b) p d (((BitVec.ofInt 128 (sa * sb)).extractLsb' 64 64)) s ∧
    WritesX (.mulhu p d a b) p d (((BitVec.ofNat 128 (ua * ub)).extractLsb' 64 64)) s ∧
    WritesX (.div p d a b) p d
      (if s.x b = 0 then 0xFFFF_FFFF_FFFF_FFFF
       else if sa = -2 ^ 63 ∧ sb = -1 then s.x a else BitVec.ofInt 64 (sa.tdiv sb)) s ∧
    WritesX (.divu p d a b) p d (if s.x b = 0 then 0xFFFF_FFFF_FFFF_FFFF else BitVec.ofNat 64 (ua / ub)) s ∧
    WritesX (.rem p d a b) p d
      (if s.x b = 0 then s.x a
       else if sa = -2 ^ 63 ∧ sb = -1 then 0 else BitVec.ofInt 64 (sa - sa.tdiv sb * sb)) s ∧
    WritesX (.remu p d a b) p d (if s.x b = 0 then s.x a else BitVec.ofNat 64 (ua - ua / ub * ub)) s

/-- The counts of major 0x04 with their encodings (R145): `CLZ` and `CTZ` give the number of zero bits before the first
one bit from bit 63 and from bit 0, and 64 for 0; `POPC` gives the number of one bits. -/
def Obligations.CountInstructions : Prop :=
  (∀ (p : Pred) (d a : XReg),
    decodeSlot (packF 4 0 p d a 0 0 0 0) = .ok (.clz p d a) ∧
    decodeSlot (packF 4 1 p d a 0 0 0 0) = .ok (.ctz p d a) ∧
    decodeSlot (packF 4 2 p d a 0 0 0 0) = .ok (.popc p d a)) ∧
  ∀ (p : Pred) (d a : XReg) (s : State),
    let A := s.x a
    (∃ n : Nat, n ≤ 64 ∧ (∀ i, i < n → A.getLsbD (63 - i) = false) ∧ (n < 64 → A.getLsbD (63 - n) = true) ∧
      WritesX (.clz p d a) p d (BitVec.ofNat 64 n) s) ∧
    (∃ n : Nat, n ≤ 64 ∧ (∀ i, i < n → A.getLsbD i = false) ∧ (n < 64 → A.getLsbD n = true) ∧
      WritesX (.ctz p d a) p d (BitVec.ofNat 64 n) s) ∧
    WritesX (.popc p d a) p d (BitVec.ofNat 64 ((List.range 64).countP fun i => A.getLsbD i)) s

/-- `CMP` writes 1 when its condition holds of its sources and 0 otherwise; `SEL` chooses by x[C]; `MOVI` writes its
immediate; `LEA` computes an address and makes no access; `EXTR` and `INSR` take out and put in a bit field; `NOP` has no
effect under any predicate (R123, R146 to R149). -/
def Obligations.CompareSelectAddressAndField : Prop :=
  (∀ (p : Pred) (cc : ICond) (d a b c : XReg) (imm : Imm48) (w : Word) (s : State),
    (cc.Holds64 (s.x a) (s.x b) → WritesX (.cmp p cc d a (.reg b)) p d 1 s) ∧
    (¬ cc.Holds64 (s.x a) (s.x b) → WritesX (.cmp p cc d a (.reg b)) p d 0 s) ∧
    (cc.Holds64 (s.x a) (imm.signExtend 64) → WritesX (.cmp p cc d a (.imm imm)) p d 1 s) ∧
    (¬ cc.Holds64 (s.x a) (imm.signExtend 64) → WritesX (.cmp p cc d a (.imm imm)) p d 0 s) ∧
    (s.x c ≠ 0 → WritesX (.sel p d a b c) p d (s.x a) s) ∧
    (s.x c = 0 → WritesX (.sel p d a b c) p d (s.x b) s) ∧
    WritesX (.movi p d w) p d w s) ∧
  ∀ (p : Pred) (d a b : XReg) (sh : BitVec 3) (imm : Imm48) (sx : Bool) (pos : BitVec 6) (len : BitVec 7) (s : State),
    WritesX (.lea p d a b sh imm) p d (s.x a + (s.x b <<< sh.toNat) + imm.signExtend 64) s ∧
    (1 ≤ len.toNat → pos.toNat + len.toNat ≤ 64 →
      (∃ w, WritesX (.extr p sx d a pos len) p d w s ∧ ∀ i, i < 64 →
        w.getLsbD i = if i < len.toNat then (s.x a).getLsbD (pos.toNat + i)
          else sx && (s.x a).getLsbD (pos.toNat + len.toNat - 1)) ∧
      ∃ w, WritesX (.insr p d a pos len) p d w s ∧ ∀ i, i < 64 →
        w.getLsbD i = if pos.toNat ≤ i ∧ i < pos.toNat + len.toNat then (s.x a).getLsbD (i - pos.toNat)
          else (s.x d).getLsbD i) ∧
    exec (.nop p) s = .next (s.retire .seq)

/-! ## Control flow and control registers (R150 to R157) -/

/-- A taken `BR`, a `JMP`, a `CALL` and a `RET` go to the target of R119 or of x[A], entered as a transfer from the
program counter; a `CALL` writes x1 := its sequential successor first; a `RET` to a malformed value raises BADTGT with
the value; a `BR` whose condition fails, and each of the four whose predicate fails, moves on (R114, R119, R151 to
R153). -/
def Obligations.BranchesCallsAndReturns : Prop :=
  ∀ (p : Pred) (cc : ICond) (a b : XReg) (tg : Target) (s : State), tg.wf = true →
    (s.holds p = true →
      (cc.Holds64 (s.x a) (s.x b) →
        exec (.br p cc a b tg) s = .next (s.retire (.go (branchTarget s.me.pc tg) (.transfer s.me.pc)))) ∧
      (¬ cc.Holds64 (s.x a) (s.x b) → exec (.br p cc a b tg) s = .next (s.retire .seq)) ∧
      exec (.jmp p tg) s = .next (s.retire (.go (branchTarget s.me.pc tg) (.transfer s.me.pc))) ∧
      exec (.call p tg) s =
        .next ((s.setX 1 (pcSucc s.me.pc)).retire (.go (branchTarget s.me.pc tg) (.transfer s.me.pc))) ∧
      ((s.x a).extractLsb' 3 3 = 0 ∧ (s.x a).toNat % 8 ≤ 4 →
        exec (.ret p a) s = .next (s.retire (.go (s.x a) (.transfer s.me.pc)))) ∧
      (¬ ((s.x a).extractLsb' 3 3 = 0 ∧ (s.x a).toNat % 8 ≤ 4) →
        exec (.ret p a) s = .next (s.raise s.active { cause := .badtgt, faddr := s.x a }))) ∧
    (s.holds p = false →
      exec (.br p cc a b tg) s = .next (s.retire .seq) ∧ exec (.jmp p tg) s = .next (s.retire .seq) ∧
      exec (.call p tg) s = .next (s.retire .seq) ∧ exec (.ret p a) s = .next (s.retire .seq))

/-- `JTAB` and `CALLT` jump through the table at x[A] to the entry that x[B] names, which must hold an `LPAD` of the tag;
`CALLT` writes x1 first; an index beyond the table raises JTBOUND with the index, and a malformed entry BADTGT with the
entry. The load of the entry is an `LD.d`, and its faults are those of the jump: an entry address that is no multiple of 8
raises ALIGN, one of no class, or where the world has no page table, PAGE, all with ACC 1 (R154). `LPAD` has no effect when
it is issued (R155). -/
def Obligations.TableJumpsAndLandingPads : Prop :=
  ∀ (p : Pred) (a b : XReg) (tag : BitVec 8) (n : BitVec 17) (s : State),
    (s.Ready → exec (.lpad p tag) s = .next (s.retire .seq)) ∧
    (s.holds p = false →
      exec (.jtab p a b tag n) s = .next (s.retire .seq) ∧ exec (.callt p a b tag n) s = .next (s.retire .seq)) ∧
    (s.holds p = true → n.toNat ≤ (s.x b).toNat →
      exec (.jtab p a b tag n) s = .next (s.raise s.active { cause := .jtbound, faddr := s.x b }) ∧
      exec (.callt p a b tag n) s = .next (s.raise s.active { cause := .jtbound, faddr := s.x b })) ∧
    (s.holds p = true → (s.x b).toNat < n.toNat → s.me.reply.isSome = true →
      exec (.jtab p a b tag n) s = .next (s.waits .access) ∧ exec (.callt p a b tag n) s = .next (s.waits .access)) ∧
    (s.holds p = true → (s.x b).toNat < n.toNat → s.me.reply = none →
      let ea := s.x a + 8 * s.x b
      let both (f : Trap) : Prop := exec (.jtab p a b tag n) s = .next (s.raise s.active f) ∧
        exec (.callt p a b tag n) s = .next (s.raise s.active f)
      (∀ f u, (loadElem ea 8).run s = .error (.trap f) u → both f) ∧
      (∀ w u, (loadElem ea 8).run s = .error (.wait w) u → s.FloorAllows u →
        exec (.jtab p a b tag n) s = .next (u.waits w) ∧ exec (.callt p a b tag n) s = .next (u.waits w)) ∧
      (ea.toNat % 8 ≠ 0 → both { cause := .align, faddr := ea, acc := 1 }) ∧
      (ea.toNat % 8 = 0 → isWindow ea = false → isUser ea = false →
        both { cause := .page, faddr := ea, acc := 1, detail := 3 }) ∧
      (ea.toNat % 8 = 0 → isWindow ea = false → isUser ea = true →
        (s.world (s.launchAt s.active).secure).hpt.toNat % 32 = 0 →
        both { cause := .page, faddr := ea, acc := 1, detail := 0 }) ∧
      ∀ (e : Word) (t : State), s.Loads (s.x a + 8 * s.x b) 8 e.toNat t → s.FloorAllows t →
        (pcOk e = true →
          exec (.jtab p a b tag n) s = .next (t.retire (.go e (.landing s.me.pc tag))) ∧
          exec (.callt p a b tag n) s =
            .next ((t.setX 1 (pcSucc s.me.pc)).retire (.go e (.landing s.me.pc tag)))) ∧
        (pcOk e = false →
          exec (.jtab p a b tag n) s = .next (s.raise s.active { cause := .badtgt, faddr := e }) ∧
          exec (.callt p a b tag n) s = .next (s.raise s.active { cause := .badtgt, faddr := e })))

/-- `MFC` writes the control register as R399 and the rules that it names lay it out, once the last access has returned
its timestamp (R156, R328): the context's own registers, STATUS with SUP in bit 63, INTRAP in bit 8 and VEC below, and
what the context reads of its launch, its cluster and the part. -/
def Obligations.ControlRegistersRead : Prop :=
  ∀ (p : Pred) (d : XReg) (r : CReg) (s : State), s.me.reply = none →
    let l := s.launchAt s.active
    let cluster := clusterOfCore s.active.core
    ∃ w : Word, WritesX (.mfc p d r) p d w s ∧
      (r = .coreid → w = BitVec.ofNat 64
        (s.logicalOf cluster % 1024 * 2 ^ 15 + s.active.ctx.toNat * 2 ^ 13 + s.active.core.toNat)) ∧
      (r = .stage → w = (l.stageMap.getD (s.logicalOf cluster) 0).setWidth 64) ∧
      (r = .world → w = if l.secure then 1 else 0) ∧ (r = .asid → w = l.asid.setWidth 64) ∧
      (r = .sstep → w = BitVec.ofNat 64 l.sstep) ∧
      (r = .scyc → w = (if s.me.settle.coll then 0x8000_0000 else 0) +
        (if s.me.settle.active then BitVec.ofNat 64 (match l.settlement with
          | some ph => s.clock - ph.release
          | none => 0) else 0)) ∧
      (r = .time → w = s.time) ∧ (r = .pts → w = s.me.pts.setWidth 64) ∧
      (r = .roundm → w = s.me.roundm.setWidth 64) ∧ (r = .fflags → w = s.me.fflags.setWidth 64) ∧
      (r = .allow → w = s.me.allow.setWidth 64) ∧ (r = .depthlim → w = s.me.depthlim.setWidth 64) ∧
      (r = .lease → w = s.me.lease.setWidth 64) ∧
      (r = .status → w = (if s.supervisor s.active then 0x8000_0000_0000_0000 else 0) + (if s.me.trap.intrap then 0x100 else 0) +
        s.me.trap.vec.setWidth 64) ∧
      (r = .tvec → w = s.me.trap.tvec) ∧ (r = .cause → w = s.me.trap.cause) ∧ (r = .fcause → w = s.me.trap.fcause) ∧
      (r = .faddr → w = s.me.trap.faddr) ∧ (r = .epc → w = s.me.trap.epc) ∧ (r = .kvb → w = s.me.kvb) ∧
      (r = .kvmap → w = s.me.kvmap) ∧ (r = .kvcfg → w = s.me.kvcfg) ∧ (r = .mjw → w = (s.cluster cluster).mjw) ∧
      (r = .lbtol → w = (s.lbtol.toList.getD (dieOfCluster cluster) 0).setWidth 64)

/-- `MTC` writes the writable fields of its register: a mode of 5 to 7 leaves ROUNDM, a value out of range leaves ALLOW
and DEPTHLIM, and 0 leaves LEASE; STATUS takes INTRAP and VEC; reserved bits are not written; MJW and LBTOL, which a
cluster and a die share, take their value with the next cycle (R95, R157, R245, R348, R366, R400). With the predicate
clear it moves on. -/
def Obligations.ControlRegistersWritten : Prop :=
  ∀ (p : Pred) (a : XReg) (s : State), s.Ready →
    let w := s.x a
    let writes (r : CReg) (f : Context → Context) : Prop := exec (.mtc p r a) s = .next ((s.mapMe f).retire .seq)
    (s.holds p = false → ∀ r, exec (.mtc p r a) s = .next (s.retire .seq)) ∧
    (s.holds p = true →
      writes .roundm (fun k => if w.toNat % 8 ≤ 4 then { k with roundm := w.setWidth 3 } else k) ∧
      writes .fflags (fun k => { k with fflags := w.setWidth 5 }) ∧
      writes .allow (fun k =>
        if 1 ≤ w.toNat % 4096 ∧ w.toNat % 4096 ≤ 2048 then { k with allow := w.setWidth 12 } else k) ∧
      writes .depthlim (fun k =>
        if 1 ≤ w.toNat % 128 ∧ w.toNat % 128 ≤ 64 then { k with depthlim := w.setWidth 7 } else k) ∧
      writes .lease (fun k => if w.toNat % 256 = 0 then k else { k with lease := w.setWidth 8 }) ∧
      writes .status (fun k => { k with trap := { k.trap with intrap := w.getLsbD 8, vec := w.setWidth 7 &&& 0x5F } }) ∧
      writes .tvec (fun k =>
        if w.toNat % 8 ≤ 4 then { k with trap := { k.trap with tvec := w &&& ~~~(0x38 : Word) } } else k) ∧
      writes .epc (fun k => { k with trap := { k.trap with epc := w, epcWritten := true } }) ∧
      writes .kvb (fun k => { k with kvb := w &&& 0x00FF_8000_0000_0000 }) ∧
      writes .kvmap (fun k => { k with kvmap := w &&& 0x00FF_FFFF_FFFF_FFF8 }) ∧
      (∃ f, writes .kvcfg f ∧ ∃ v : Word, (f s.me) = { s.me with kvcfg := v } ∧
        v.toNat % 32 = w.toNat % 32 ∧ v.toNat / 2 ^ 16 = w.toNat / 2 ^ 16 % 64 ∧
        v.toNat / 2 ^ 5 % 8 = 0 ∧ v.toNat / 2 ^ 13 % 8 = 0 ∧
        v.toNat / 2 ^ 8 % 32 =
          (if w.toNat / 2 ^ 8 % 32 = 0 ∨ (6 ≤ w.toNat / 2 ^ 8 % 32 ∧ w.toNat / 2 ^ 8 % 32 ≤ 18)
            then w.toNat / 2 ^ 8 % 32 else s.me.kvcfg.toNat / 2 ^ 8 % 32)) ∧
      exec (.mtc p .mjw a) s = .next (({ s with sharedWrites := s.sharedWrites ++
        [{ writer := ctxKey s.active, mjw := true, unit := clusterOfCore s.active.core, value := w }] } : State).retire
          .seq) ∧
      exec (.mtc p .lbtol a) s = .next (({ s with sharedWrites := s.sharedWrites ++
        [{ writer := ctxKey s.active, mjw := false, unit := dieOfCore s.active.core, value := w }] } : State).retire
          .seq) ∧
      -- the shared registers in this cycle, and in the next
      (s.sharedWrites = [] → ∀ t : State,
        let cluster := clusterOfCore s.active.core
        let die := dieOfCore s.active.core
        let weight (v : Word) (i : Nat) : Nat := v.toNat / 2 ^ (4 * i) % 16
        moveWith exec .tick t = .next t.tick ∧
        (exec (.mtc p .mjw a) s = .next t →
          (t.cluster cluster).mjw = (s.cluster cluster).mjw ∧ (t.tick.cluster cluster).mjw.toNat < 2 ^ 36 ∧
          ∀ i, i < 9 → weight (t.tick.cluster cluster).mjw i =
            if weight w i = 0 then weight (s.cluster cluster).mjw i else weight w i) ∧
        (exec (.mtc p .lbtol a) s = .next t →
          t.lbtol = s.lbtol ∧ t.tick.lbtol.toList.getD die 0 = w.setWidth 3)))

/-! ## Rolls, the work queue and `LAUNCH` (R131, R134, R158 to R162) -/

/-- `FOLLOW` transfers to its target at once when it names its own core, when another context of its core follows, or
when the core it names runs no routine of the launch; otherwise it waits, with the contexts that run there noted.
`DETACH` takes a follower out of its roll and has no effect in any other context (R131, R134). That a waiting `FOLLOW`
notes the contexts which run there is the model's form of R131 (log 20). -/
def Obligations.FollowAndDetach : Prop :=
  ∀ (p : Pred) (k : BitVec 3) (tg : Target) (s : State), tg.wf = true → s.Ready → s.holds p = true →
    let core : BitVec 13 := BitVec.ofNat 13 (s.active.core.toNat / 8 * 8 + k.toNat)
    let running := s.runnersOf core
    let alone := core = s.active.core ∨ s.otherFollower s.active = true ∨ running = []
    ((∀ a b c d e f, s.me.roll ≠ .waiting a b c d e f) → alone →
      exec (.follow p k tg) s = .next (s.retire (.go (branchTarget s.me.pc tg) (.transfer s.me.pc)))) ∧
    ((∀ a b c d e f, s.me.roll ≠ .waiting a b c d e f) → ¬ alone →
      ∃ t, exec (.follow p k tg) s = .next t ∧ t.me.run = .waiting ∧ t.me.pc = s.me.pc ∧ t.me.regs = s.me.regs ∧
        t.me.roll = .waiting core (branchTarget s.me.pc tg) s.clock running none none) ∧
    (s.me.follows = true → exec (.detach p) s = .next ((s.mapMe Context.detach).retire .seq)) ∧
    (s.me.follows = false → exec (.detach p) s = .next (s.retire .seq))

/-- `REJOIN` keeps the first part of its range and deposits the rest in chunks at the end of its cluster's queue, as
many as the queue's 64 entries leave room for; `TAKE` removes the oldest entry of its key, writes it to x[D] and joins
the `REJOIN` that deposited it, or writes 0 (R158 to R160, R285). -/
def Obligations.WorkQueue : Prop :=
  ∀ (p : Pred) (d a b c : XReg) (key : BitVec 16) (s : State), s.Ready → s.holds p = true →
    let q := clusterOfCore s.active.core
    let work := (s.cluster q).work
    let lo := (s.x a).toNat % 2 ^ 32
    let hi := (s.x b).toNat % 2 ^ 32
    let n := min 65535 (max 1 (s.x c).toNat)
    let chunks := (hi - lo + n - 1) / n
    let m := min (64 - work.length) (chunks - 1)
    (hi ≤ lo → exec (.rejoin p d a b c key) s = .next ((s.setX d (BitVec.ofNat 64 lo)).retire .seq)) ∧
    (lo < hi → ∃ new : List WorkEntry, new.length = m ∧
      (∀ i (h : i < new.length), new[i] =
        { start := BitVec.ofNat 32 (lo + (chunks - m + i) * n)
          count := BitVec.ofNat 16 (min n (hi - lo - (chunks - m + i) * n)), key := key, time := s.me.pts }) ∧
      exec (.rejoin p d a b c key) s =
        .next (((s.mapCluster q fun u => { u with work := work ++ new }).setX d
          (BitVec.ofNat 64 (if m = 0 then hi else lo + (chunks - m) * n))).retire .seq)) ∧
    ((∀ e ∈ work, e.key ≠ key) → exec (.take p d key) s = .next ((s.setX d 0).retire .seq)) ∧
    (∀ (before : List WorkEntry) (e : WorkEntry) (after : List WorkEntry), work = before ++ e :: after →
      (∀ x ∈ before, x.key ≠ key) → e.key = key →
      exec (.take p d key) s =
        .next ((((s.mapCluster q fun u => { u with work := before ++ after }).mapMe fun k =>
          { k with pts := tsMax k.pts e.time }).setX d
            (BitVec.ofNat 64 (key.toNat * 2 ^ 48 + e.count.toNat * 2 ^ 32 + e.start.toNat))).retire .seq))

/-- `LAUNCH` appends the address with its launch's ASID to the queue and writes 0, or sets OVF and writes 1 when the
queue holds 256; a window address raises WINDOW, one not a multiple of 128 ALIGN, and a queue of the other world WORLD,
each with the address; with posted operations outstanding it waits (R162). The append is a decision point of the world's
scheduler (R51); that the entry notes its `LAUNCH` is the model's form of R46 (log 6). -/
def Obligations.LaunchAppends : Prop :=
  ∀ (p : Pred) (d a : XReg) (q : BitVec 6) (s : State), s.Ready → s.holds p = true →
    let va := s.x a
    let t := s.threadOf s.active
    (isWindow va = true →
      exec (.launch p d a q) s = .next (s.raise s.active { cause := .window, faddr := va })) ∧
    (isWindow va = false → va.toNat % 128 ≠ 0 →
      exec (.launch p d a q) s = .next (s.raise s.active { cause := .align, faddr := va })) ∧
    (isWindow va = false → va.toNat % 128 = 0 →
      ∀ (pl : Place) (u : State), (locate false t .read 1 va va).run s = .ok pl u →
        (queueSecure q ≠ t.secure →
          exec (.launch p d a q) s = .next (s.raise s.active { cause := .world, faddr := va })) ∧
        (queueSecure q = t.secure → u.me.dout ≠ 0 → s.FloorAllows u →
          exec (.launch p d a q) s =
            .next (u.mapMe fun k => { k with run := .waiting, wait := .join, last := .waited })) ∧
        (queueSecure q = t.secure → u.me.dout = 0 → s.FloorAllows u →
          exec (.launch p d a q) s = .next ((((u.mapQueue q fun k =>
            if k.entries.length < 256 then
              { k with entries := k.entries ++
                  [{ addr := va, virt := some (t.asid, tsMax s.me.pts s.me.ackTime), by_ := some (s.active, d, s.clock) }] }
            else { k with ovf := true }).decision t.secure).setX d
              (if (s.queue q).entries.length < 256 then 0 else 1)).retire .seq)))

/-! ## Floating point (R94 to R99, R167 to R173) -/

/-- The scalar floating-point instructions read the low bits of their registers in their format, compute in the mode
that RM selects, ROUNDM's for DYN, and write the result zero-extended with its flags under their predicate; `FMIN` and `FMAX`
give one of their operands, -0 below +0 and a NaN only for two; `FCMP` compares the values, with NV as R171 states; `FCLASS`
sets one bit, by the sign and by zero, subnormal, normal, infinity or NaN, and no flag (R94, R168 to R172). -/
def Obligations.ScalarFloatingPoint : Prop :=
  ∀ (p : Pred) (f : View) (rm : Rm) (cc : FCond) (d a b c : XReg) (s : State),
    let F := viewFmt f
    let bits (r : XReg) : Nat := (s.x r).toNat % 2 ^ F.width
    let mode : Mode := match rm with
      | .rne => .rne | .rtz => .rtz | .rdn => .rdn | .rup => .rup | .rna => .rna
      | .dyn => modeOf s.me.roundm
    let A := F.decode (bits a)
    let B := F.decode (bits b)
    let C := F.decode (bits c)
    WritesFp (.fadd p f rm d a b) p d (fpAdd F mode A B) s ∧
    WritesFp (.fsub p f rm d a b) p d (fpAdd F mode A B.neg) s ∧
    WritesFp (.fmul p f rm d a b) p d (fpMul F mode A B) s ∧
    WritesFp (.ffma p f rm d a b c) p d (fpFma F mode A B C) s ∧
    WritesFp (.fdiv p f rm d a b) p d (fpDiv F mode A B) s ∧
    WritesFp (.fsqrt p f rm d a) p d (fpSqrt F mode A) s ∧
    WritesFp (.fmin p f d a b) p d (fpMinMax F false (bits a) (bits b)) s ∧
    WritesFp (.fmax p f d a b) p d (fpMinMax F true (bits a) (bits b)) s ∧
    WritesFp (.fcmp p cc f d a b) p d (if (fpCompare cc A B).1 then 1 else 0, (fpCompare cc A B).2) s ∧
    (∀ greater x y, x < 2 ^ F.width → y < 2 ^ F.width → F.Chooses greater x y (fpMinMax F greater x y)) ∧
    (∀ x y, Compares cc x y (fpCompare cc x y)) ∧
    ∃ n, n < 10 ∧ WritesFp (.fclass p f d a) p d (2 ^ n, 0) s ∧
      ((n = 1 ∨ n = 6) ↔ ∃ x, A.Is x ∧ (2 : ℝ) ^ (1 - F.bias) ≤ |x|) ∧
      ((n = 2 ∨ n = 5) ↔ ∃ x, A.Is x ∧ x ≠ 0 ∧ |x| < (2 : ℝ) ^ (1 - F.bias)) ∧
      (n = 0 ↔ A = .inf true) ∧ (n = 7 ↔ A = .inf false) ∧ (n = 8 ↔ A = .nan true) ∧ (n = 9 ↔ A = .nan false) ∧
      ((n = 3 ∨ n = 4) ↔ ∃ neg e, A = .fin neg 0 e) ∧
      ((n = 1 ∨ n = 2 ∨ n = 3) ↔ ∃ m e, A = .fin true m e) ∧
      ((n = 4 ∨ n = 5 ∨ n = 6) ↔ ∃ m e, A = .fin false m e)

/-- What a conversion makes of a value. To an integer format a finite value becomes the integer that the mode takes, or a
bound with NV; an infinity becomes a bound and a NaN 0, with NV. To a format with infinities an infinity stays one; to E4M3
it becomes 448 with its sign, and to E3M2, E2M3 and E2M1 the largest value, with OF and NX. A NaN becomes the canonical one,
0x7F in E4M3, with NV if it is signalling, and +0 with NV where the format has none; a zero keeps its sign (R97 to R99). An
integer source is the number that its bits are. -/
def ConversionsOfValues : Prop :=
  (∀ (w : Nat) (uns : Bool) (mode : Mode) (v : FV), 0 < w →
    let lo : Int := if uns then 0 else -(2 ^ (w - 1))
    let hi : Int := if uns then 2 ^ w - 1 else 2 ^ (w - 1) - 1
    let r := (Fmt.int w).encode uns mode v
    (∀ sig, v = .nan sig → r = (0, flagNV)) ∧
    (v = .inf true → r = ((lo % 2 ^ w).toNat, flagNV)) ∧ (v = .inf false → r = ((hi % 2 ^ w).toNat, flagNV)) ∧
    (∀ x, v.Is x → Saturates mode w lo hi x r) ∧
    ∀ bits, ((Fmt.int w).decode true bits).Is ((bits % 2 ^ w : Nat) : ℝ) ∧
      ((Fmt.int w).decode false bits).Is (((BitVec.ofNat w bits).toInt : Int) : ℝ)) ∧
  ∀ (code : BitVec 5) (G : FpFmt) (uns : Bool) (mode : Mode), fmtOf code = .float G →
    let conv (v : FV) : Nat × Flags := (fmtOf code).encode uns mode v
    (code = 0 ∨ code = 1 ∨ code = 2 ∨ code = 3 ∨ code = 5 →
      ∀ n sig, (conv (.inf n)).2 = 0 ∧ G.decode (conv (.inf n)).1 = .inf n ∧
        (conv (.nan sig)).2 = (if sig then flagNV else 0) ∧ G.decode (conv (.nan sig)).1 = .nan false) ∧
    (code = 4 → ∀ n sig, conv (.inf n) = (if n then 0xFE else 0x7E, flagOF ||| flagNX) ∧
      conv (.nan sig) = (0x7F, if sig then flagNV else 0)) ∧
    (code = 6 ∨ code = 7 → ∀ n sig, conv (.inf n) = (if n then 0x3F else 0x1F, flagOF ||| flagNX) ∧ conv (.nan sig) = (0, flagNV)) ∧
    (code = 8 → ∀ n sig, conv (.inf n) = (if n then 0xF else 7, flagOF ||| flagNX) ∧ conv (.nan sig) = (0, flagNV)) ∧
    ∀ n e, conv (.fin n 0 e) = (if n then 2 ^ (G.exp + G.mant) else 0, 0)

/-- `FCVT` and `VFCVT` raise FMTMIX for a format code that no conversion names and ILLOP for a combination that R173
rejects, whatever the predicate; otherwise `FCVT` reads the low bits of x[A] in the source format, rounds once in the
mode that RM selects, and writes the result, an integer extended to 64 bits; `VFCVT` does so for the elements of its part,
and joins the OR of the flags of those that its predicate selects (R96, R97, R173, R178). -/
def Obligations.Conversions : Prop :=
  ConversionsOfValues ∧
  ∀ (p : Pred) (rm : Rm) (c : CvtSpec) (d a : XReg) (vd va : VReg) (s : State),
    ((¬ (c.dst.toNat ≤ 12 ∧ c.src.toNat ≤ 12)) →
      exec (.fcvt p rm c d a) s = .next (s.raise s.active { cause := .fmtmix }) ∧
      exec (.vfcvt p rm c vd va) s = .next (s.raise s.active { cause := .fmtmix })) ∧
    (c.dst.toNat ≤ 12 → c.src.toNat ≤ 12 → cvtClash c = true →
      exec (.fcvt p rm c d a) s = .next (s.raise s.active { cause := .illop }) ∧
      exec (.vfcvt p rm c vd va) s = .next (s.raise s.active { cause := .illop })) ∧
    (c.dst.toNat ≤ 12 → c.src.toNat ≤ 12 → cvtClash c = false →
      let S := cvtSide c c.src
      let D := cvtSide c c.dst
      let mode := s.mode rm
      let conv (bits : Nat) : Nat × Flags := D.encode c.uns mode (S.decode c.uns (bits % 2 ^ S.width))
      let r := conv (s.x a).toNat
      (∃ w : Word, (D.isInt = false → w = BitVec.ofNat 64 r.1) ∧
        (D.isInt = true → w = if c.uns then BitVec.ofNat 64 r.1 else BitVec.ofInt 64 (signedOf D.width r.1)) ∧
        exec (.fcvt p rm c d a) s =
          .next ((if s.holds p then (s.setX d w).addFlags r.2 else s).retire .seq)) ∧
      let ws := cvtBytes c c.src
      let wd := cvtBytes c c.dst
      let part := c.part.toNat
      let E := 128 / max ws wd
      (max ws wd / min ws wd ≤ part →
        exec (.vfcvt p rm c vd va) s = .next (s.raise s.active { cause := .illop })) ∧
      (part < max ws wd / min ws wd →
        ∃ (w : Vec) (fl : Flags), exec (.vfcvt p rm c vd va) s = .next (((s.setV vd w).addFlags fl).retire .seq) ∧
          (∀ k, k < 5 → (fl.getLsbD k = true ↔ ∃ i, i < E ∧
            s.predBit p (wd * (if ws > wd then part * E + i else i)) = true ∧
            (conv (elem (s.v va) (8 * ws) (if ws > wd then i else part * E + i))).2.getLsbD k = true)) ∧
          (∀ i, i < E →
            let src := if ws > wd then i else part * E + i
            let dst := if ws > wd then part * E + i else i
            elem w (8 * wd) dst = if s.predBit p (wd * dst) then (conv (elem (s.v va) (8 * ws) src)).1 % 2 ^ (8 * wd)
              else elem (s.v vd) (8 * wd) dst) ∧
          (∀ j, j < 128 / wd → (ws > wd → j < part * E ∨ part * E + E ≤ j) → (¬ ws > wd → E ≤ j) →
            elem w (8 * wd) j = elem (s.v vd) (8 * wd) j)))

/-- The finite results of floating point: a sum, a product, a product and sum, a quotient, a square root and a converted
value is the exact real number rounded once, with its flags, and a zero has the sign of R169; `VEXP2`, `VRECIP` and `VRSQRT`
give 2^a, 1 / a and 1 / sqrt a rounded once to BF16, to nearest (R94, R96 to R98, R169, R179). Whatever the exact values of
the operands, and so those of every encoding of a format. -/
def FiniteResultsAreRounded : Prop :=
  ∀ (f : View) (mode : Mode) (n n' n'' : Bool) (m m' m'' : Nat) (e e' e'' : Int) (a b c : ℝ),
    let A : FV := .fin n m e
    let B : FV := .fin n' m' e'
    let C : FV := .fin n'' m'' e''
    let F := viewFmt f
    A.Is a → B.Is b → C.Is c →
    (a + b ≠ 0 → F.Rounds mode (a + b) (fpAdd F mode A B)) ∧
    (a + b = 0 → fpAdd F mode A B = (F.signBit (if m = 0 ∧ m' = 0 ∧ n = n' then n else mode == .rdn), 0)) ∧
    (a * b ≠ 0 → F.Rounds mode (a * b) (fpMul F mode A B)) ∧
    (a * b = 0 → fpMul F mode A B = (F.signBit (n != n'), 0)) ∧
    (a * b + c ≠ 0 → F.Rounds mode (a * b + c) (fpFma F mode A B C)) ∧
    (a * b + c = 0 → fpFma F mode A B C =
      (F.signBit (if m * m' = 0 ∧ m'' = 0 ∧ (n != n') = n'' then n'' else mode == .rdn), 0)) ∧
    (a ≠ 0 → b ≠ 0 → F.Rounds mode (a / b) (fpDiv F mode A B)) ∧
    (a = 0 → b ≠ 0 → fpDiv F mode A B = (F.signBit (n != n'), 0)) ∧
    (0 < a → F.Rounds mode (Real.sqrt a) (fpSqrt F mode A)) ∧
    (a ≠ 0 → ∀ code G, fmtOf code = .float G → G.Rounds mode a (G.round mode A)) ∧
    (a ≠ 0 → bf16.Rounds .rne ((2 : ℝ) ^ a) (bfExp2 A) ∧ bf16.Rounds .rne (1 / a) (bfRecip A)) ∧
    (0 < a → bf16.Rounds .rne (1 / Real.sqrt a) (bfRsqrt A))

/-- What the exact operations give for NaNs, infinities and zeros, in every format and mode: a NaN operand gives the
canonical NaN, with NV when it is signalling; infinity minus infinity, 0 times infinity, also where `FFMA` adds anything to
it, 0 / 0, infinity / infinity and the square root of a negative nonzero value give it with NV; infinities with finite
operands and alike ones give infinities, a finite value divided by one a zero; a finite nonzero value divided by zero gives
an infinity with DZ; the square root of -0 is -0 (R96, R98, R169). A value that the format holds is rounded to itself, in
every mode and with no flag: for every encoding of FP64, FP32, FP16 or BF16 but those of NaNs (R97). The finite results are
those of `FiniteResultsAreRounded`. -/
def Obligations.NumbersOfTheFormats : Prop :=
  FiniteResultsAreRounded ∧
  (∀ (f : View) (mode : Mode) (x : FV) (n n' : Bool) (m : Nat) (e e' : Int), m ≠ 0 →
    let F := viewFmt f
    let nan (sig : Bool) : Nat × Flags := (F.canonicalNan, if sig then flagNV else 0)
    (∀ sig, fpAdd F mode (.nan sig) x = nan (sig || x.isSig) ∧ fpAdd F mode x (.nan sig) = nan (sig || x.isSig) ∧
      fpMul F mode (.nan sig) x = nan (sig || x.isSig) ∧ fpMul F mode x (.nan sig) = nan (sig || x.isSig) ∧
      fpDiv F mode (.nan sig) x = nan (sig || x.isSig) ∧ fpDiv F mode x (.nan sig) = nan (sig || x.isSig) ∧
      fpSqrt F mode (.nan sig) = nan sig) ∧
    fpAdd F mode (.inf n) (.inf (!n)) = nan true ∧ fpMul F mode (.inf n) (.fin n' 0 e) = nan true ∧
    fpMul F mode (.fin n' 0 e) (.inf n) = nan true ∧ fpDiv F mode (.fin n 0 e) (.fin n' 0 e') = nan true ∧
    fpDiv F mode (.inf n) (.inf n') = nan true ∧ fpSqrt F mode (.fin true m e) = nan true ∧
    (∀ y, fpFma F mode (.inf n) (.fin n' 0 e) y = nan true ∧ fpFma F mode (.fin n' 0 e) (.inf n) y = nan true) ∧
    (∀ v w y : FV, v.isNan = true ∨ w.isNan = true ∨ y.isNan = true →
      (∀ k l g, ¬ (v = .inf k ∧ w = .fin l 0 g) ∧ ¬ (v = .fin l 0 g ∧ w = .inf k)) →
      fpFma F mode v w y = nan (v.isSig || w.isSig || y.isSig)) ∧
    (∀ v w y : FV, (v, w) = (.inf n, .fin n' m e) ∨ (v, w) = (.fin n m e, .inf n') ∨ (v, w) = (.inf n, .inf n') →
      fpMul F mode v w = ((F.infBits (n != n')).1, 0) ∧
      (y.isNan = false → y ≠ .inf (!(n != n')) → fpFma F mode v w y = ((F.infBits (n != n')).1, 0)) ∧
      fpFma F mode v w (.inf (!(n != n'))) = nan true) ∧
    (∀ l k g h q, fpFma F mode (.fin n l g) (.fin n' k h) (.inf q) = ((F.infBits q).1, 0)) ∧
    (∀ k g, fpAdd F mode (.inf n) (.fin n' k g) = ((F.infBits n).1, 0) ∧
      fpAdd F mode (.fin n' k g) (.inf n) = ((F.infBits n).1, 0) ∧
      fpDiv F mode (.inf n) (.fin n' k g) = ((F.infBits (n != n')).1, 0) ∧
      fpDiv F mode (.fin n' k g) (.inf n) = (F.signBit (n' != n), 0)) ∧
    fpAdd F mode (.inf n) (.inf n) = ((F.infBits n).1, 0) ∧ fpSqrt F mode (.inf false) = ((F.infBits false).1, 0) ∧
    fpSqrt F mode (.inf true) = nan true ∧ fpSqrt F mode (.fin false 0 e) = (0, 0) ∧
    fpDiv F mode (.fin n m e) (.fin n' 0 e') = ((F.infBits (n != n')).1, flagDZ) ∧
    F.decode (F.infBits n).1 = .inf n ∧ fpSqrt F mode (.fin true 0 e) = (F.signBit true, 0)) ∧
  ∀ (f : View) (mode : Mode) (bits : Nat), bits < 2 ^ (viewFmt f).width →
    ((viewFmt f).decode bits).isNan = false → (viewFmt f).round mode ((viewFmt f).decode bits) = (bits, 0)

/-! ## The vector unit (R164 to R166, R174 to R185) -/

/-- Major 0x14 applies its operation to every selected element, with the elements of v[B] or the broadcast of x[B], and
keeps the others; `VCMP` sets or clears all bits of each selected element of m[D] (R165, R166, R174, R175). -/
def Obligations.VectorInteger : Prop :=
  ∀ (p : Pred) (v : View) (u : Bool) (cc : ICond) (d a : VReg) (b : VOp) (dm : MReg) (s : State), v.isInt = true →
    let W := v.width
    let A (i : Nat) : Nat := elem (s.v a) W i
    let B (i : Nat) : Nat := match b with
      | .vec r => elem (s.v r) W i
      | .bcast r => (s.x r).toNat % 2 ^ W
    let sg (n : Nat) : Int := (BitVec.ofNat W n).toInt
    let lo (z : Int) : Nat := (z % 2 ^ W).toNat
    WritesElements (.vadd p v d a b) p v d (fun i => (A i + B i) % 2 ^ W) s ∧
    WritesElements (.vsub p v d a b) p v d (fun i => (A i + (2 ^ W - B i)) % 2 ^ W) s ∧
    WritesElements (.vmul p v d a b) p v d (fun i => A i * B i % 2 ^ W) s ∧
    WritesElements (.vmulh p v u d a b) p v d
      (fun i => if u then A i * B i / 2 ^ W else lo (sg (A i) * sg (B i) / 2 ^ W)) s ∧
    WritesElements (.vmin p v u d a b) p v d
      (fun i => if u then min (A i) (B i) else if sg (A i) ≤ sg (B i) then A i else B i) s ∧
    WritesElements (.vmax p v u d a b) p v d
      (fun i => if u then max (A i) (B i) else if sg (A i) ≤ sg (B i) then B i else A i) s ∧
    WritesElements (.vand p v d a b) p v d (fun i => A i &&& B i) s ∧
    WritesElements (.vor p v d a b) p v d (fun i => A i ||| B i) s ∧
    WritesElements (.vxor p v d a b) p v d (fun i => A i ^^^ B i) s ∧
    WritesElements (.vshl p v d a b) p v d (fun i => A i <<< (B i % W) % 2 ^ W) s ∧
    WritesElements (.vshr p v d a b) p v d (fun i => A i >>> (B i % W)) s ∧
    WritesElements (.vsha p v d a b) p v d (fun i => lo (sg (A i) / 2 ^ (B i % W))) s ∧
    ∃ m, s.MaskIs p v (s.m dm) m (fun i => ICond.holds cc W (A i) (B i)) ∧
      exec (.vcmp p cc v dm a b) s = .next ((s.setM dm m).retire .seq)

/-- The vector floating-point instructions compute each selected element as the scalar ones do and set the OR of its
flags; `VEXP2`, `VRECIP` and `VRSQRT` work on BF16 and give the special results of R179; `VFCMP` writes mask bits
(R176, R177, R179). -/
def Obligations.VectorFloatingPoint : Prop :=
  ∀ (p : Pred) (v : View) (rm : Rm) (cc : FCond) (d a c : VReg) (b : VOp) (dm : MReg) (s : State), v.isFloat = true →
    let F := viewFmt v
    let mode := s.mode rm
    let bitsB (i : Nat) : Nat := match b with
      | .vec r => elem (s.v r) v.width i
      | .bcast r => (s.x r).toNat % 2 ^ v.width
    let A (i : Nat) := F.decode (elem (s.v a) v.width i)
    let B (i : Nat) := F.decode (bitsB i)
    let C (i : Nat) := F.decode (elem (s.v c) v.width i)
    WritesFpElements (.vfadd p v rm d a b) p v d (fun i => fpAdd F mode (A i) (B i)) s ∧
    WritesFpElements (.vfsub p v rm d a b) p v d (fun i => fpAdd F mode (A i) (B i).neg) s ∧
    WritesFpElements (.vfmul p v rm d a b) p v d (fun i => fpMul F mode (A i) (B i)) s ∧
    WritesFpElements (.vffma p v rm d a b c) p v d (fun i => fpFma F mode (A i) (B i) (C i)) s ∧
    WritesFpElements (.vfdiv p v rm d a b) p v d (fun i => fpDiv F mode (A i) (B i)) s ∧
    WritesFpElements (.vfsqrt p v rm d a) p v d (fun i => fpSqrt F mode (A i)) s ∧
    WritesFpElements (.vfmin p v d a b) p v d
      (fun i => fpMinMax F false (elem (s.v a) v.width i) (bitsB i)) s ∧
    WritesFpElements (.vfmax p v d a b) p v d
      (fun i => fpMinMax F true (elem (s.v a) v.width i) (bitsB i)) s ∧
    (∃ m fl, s.MaskIs p v (s.m dm) m (fun i => (fpCompare cc (A i) (B i)).1) ∧
      s.FlagsAre p v fl (fun i => (fpCompare cc (A i) (B i)).2) ∧
      exec (.vfcmp p cc v dm a b) s = .next (((s.setM dm m).addFlags fl).retire .seq)) ∧
    (let x (i : Nat) := bf16.decode (elem (s.v a) 16 i)
     let e2 := bfExp2
     let rc := bfRecip
     let rs := bfRsqrt
     WritesFpElements (.vexp2 p d a) p .b d (fun i => e2 (x i)) s ∧
     WritesFpElements (.vrecip p d a) p .b d (fun i => rc (x i)) s ∧
     WritesFpElements (.vrsqrt p d a) p .b d (fun i => rs (x i)) s ∧
      ∀ sig n,
        (e2 (.nan sig) = (0x7FC0, if sig then flagNV else 0) ∧ e2 (.inf true) = (0, 0) ∧
          e2 (.inf false) = (0x7F80, 0) ∧ (∀ e, e2 (.fin n 0 e) = (0x3F80, 0)) ∧
          e2 (.fin false 1 7) = (0x7F80, flagOF ||| flagNX)) ∧
        (rc (.nan sig) = (0x7FC0, if sig then flagNV else 0) ∧ rc (.inf n) = (if n then 0x8000 else 0, 0) ∧
          (∀ e, rc (.fin n 0 e) = (if n then 0xFF80 else 0x7F80, flagDZ)) ∧
          rc (.fin false 1 (-133)) = (0x7F80, flagOF ||| flagNX)) ∧
        (rs (.nan sig) = (0x7FC0, if sig then flagNV else 0) ∧ rs (.inf false) = (0, 0) ∧
          (∀ e, rs (.fin n 0 e) = (if n then 0xFF80 else 0x7F80, flagDZ)) ∧
          (∀ m e, m ≠ 0 → rs (.fin true m e) = (0x7FC0, flagNV)) ∧ rs (.inf true) = (0x7FC0, flagNV)))

/-- The instructions of major 0x19 that move and rearrange elements, and the reduction of integers: every source is
read before the destination is written; `VSORTK` orders the selected lanes by their keys, stably, and marks the places
that no lane takes; `VREDI` adds the selected elements modulo 2^W (R180 to R182, R184). -/
def Obligations.VectorMovesAndSorting : Prop :=
  ∀ (p : Pred) (v : View) (u : Bool) (d a b : VReg) (dx ax bx : XReg) (k : BitVec 8) (s : State),
    let W := v.width
    let n := v.elems
    let A (i : Nat) : Nat := elem (s.v a) W i
    let B (i : Nat) : Nat := elem (s.v b) W i
    WritesElements (.vbcast p v d ax) p v d (fun _ => (s.x ax).toNat) s ∧
    WritesX (.vextr p v dx a bx) p dx (BitVec.ofNat 64 (A ((s.x bx).toNat % n))) s ∧
    WritesElements (.vinsr p v d ax bx) p v d
      (fun i => if i = (s.x bx).toNat % n then (s.x ax).toNat else elem (s.v d) W i) s ∧
    WritesElements (.vperm p v d a b) p v d (fun i => A (B i % n)) s ∧
    WritesElements (.vslide p v d a b k) p v d
      (fun i => if i + k.toNat < n then A (i + k.toNat) else B (i + k.toNat - n)) s ∧
    (p = 8 → exec (.vredi p v u dx a) s = .next (s.retire .seq)) ∧
    (p ≠ 8 → ∃ sum, sum = ((List.range n).map fun i => if s.active? p v i then A i else 0).sum % 2 ^ W ∧
      exec (.vredi p v u dx a) s = .next ((s.setX dx
        (if u then BitVec.ofNat 64 sum else (BitVec.ofNat W sum).signExtend 64)).retire .seq)) ∧
    (p = 8 → exec (.vsortk p d b a) s = .next (s.retire .seq)) ∧
    (p ≠ 8 → d ≠ b → ∃ (keys lanes : Vec) (l : List Nat),
      exec (.vsortk p d b a) s = .next (((s.setV d keys).setV b lanes).retire .seq) ∧
      (∀ i, i ∈ l ↔ i < 32 ∧ s.active? p .w i = true) ∧ l.Nodup ∧
      l.Pairwise (fun i j => elem (s.v a) 32 i < elem (s.v a) 32 j ∨
        (elem (s.v a) 32 i = elem (s.v a) 32 j ∧ i < j)) ∧
      ∀ q, q < 32 →
        (∀ i, l[q]? = some i → elem keys 32 q = elem (s.v a) 32 i ∧ elem lanes 32 q = i) ∧
        (l[q]? = none → elem keys 32 q = 0xFFFF_FFFF ∧ elem lanes 32 q = 0xFFFF_FFFF))

/-- `VSEGADD` writes the sum of each run of equal keys at its first lane, added from the left, and 0 at the others;
`VREDF` adds the selected elements by the fixed tree of R106, a pair that lacks one giving the other as it is; both with
the OR of the flags of their additions (R105 to R107, R183, R184). -/
def Obligations.VectorSums : Prop :=
  ∀ (p : Pred) (v : View) (fl : Bool) (rm : Rm) (d a b : VReg) (dx : XReg) (s : State),
    let W := v.width
    let F := viewFmt v
    let mode := s.mode rm
    let key (i : Nat) : Nat := elem (s.v a) W i
    let add (x : Nat × Flags) (i : Nat) : Nat × Flags :=
      if fl then
        let r := fpAdd F mode (F.decode x.1) (F.decode (elem (s.v b) W i))
        (r.1, x.2 ||| r.2)
      else ((x.1 + elem (s.v b) W i) % 2 ^ W, x.2)
    let on (i : Nat) : Bool := s.active? p v i
    (∃ (out : Nat → Nat × Flags), WritesFpElements (.vsegadd p v fl rm d a b) p v d out s ∧
      ∀ i j, i ≤ j → j < v.elems → (∀ k, i ≤ k → k ≤ j → on k = true ∧ key k = key i) →
        (i = 0 ∨ on (i - 1) = false ∨ key (i - 1) ≠ key i) →
        (j + 1 = v.elems ∨ on (j + 1) = false ∨ key (j + 1) ≠ key i) →
        out i = ((List.range (j - i)).map (i + 1 + ·)).foldl add (elem (s.v b) W i, 0) ∧
        ∀ k, i < k → k ≤ j → out k = (0, 0)) ∧
    (p = 8 → exec (.vredf p v rm dx a) s = .next (s.retire .seq)) ∧
    (p ≠ 8 → ∃ tree : Nat → Nat → Option Nat × Flags,
      (∀ i, i < v.elems → tree 0 i = (if on i then some (elem (s.v a) W i) else none, 0)) ∧
      (∀ l i, i < v.elems / 2 ^ (l + 1) →
        let x := tree l (2 * i)
        let y := tree l (2 * i + 1)
        tree (l + 1) i = match x.1, y.1 with
          | some m, some n =>
            (some (fpAdd F mode (F.decode m) (F.decode n)).1, x.2 ||| y.2 ||| (fpAdd F mode (F.decode m) (F.decode n)).2)
          | some m, none => (some m, x.2 ||| y.2)
          | none, z => (z, x.2 ||| y.2)) ∧
      ∃ top, 2 ^ top = v.elems ∧
        exec (.vredf p v rm dx a) s = .next (((s.setX dx (BitVec.ofNat 64 ((tree top 0).1.getD 0))).addFlags
          (tree top 0).2).retire .seq))

/-- The whole-register mask operations, under bit 0 of their predicate (R185). -/
def Obligations.MaskInstructions : Prop :=
  ∀ (p : Pred) (v : View) (d a b : MReg) (dx ax : XReg) (half : Bool) (s : State),
    let writes (i : Instr) (m : Mask) : Prop :=
      exec i s = .next ((if s.holds p then s.setM d m else s).retire .seq)
    let set (i : Nat) : Bool := (s.m a).getLsbD (v.bytes * i)
    writes (.mand p d a b) (s.m a &&& s.m b) ∧ writes (.mor p d a b) (s.m a ||| s.m b) ∧
    writes (.mxor p d a b) (s.m a ^^^ s.m b) ∧ writes (.mnot p d a) (~~~s.m a) ∧
    WritesX (.mpopc p v dx a) p dx (BitVec.ofNat 64 ((List.range v.elems).countP set)) s ∧
    (∃ n, n ≤ v.elems ∧ (∀ i, i < n → set i = false) ∧ (n < v.elems → set n = true) ∧
      WritesX (.mfirst p v dx a) p dx (BitVec.ofNat 64 n) s) ∧
    WritesX (.mtox p dx a half) p dx ((s.m a).extractLsb' (if half then 64 else 0) 64) s ∧
    ∃ m, writes (.xtom p d ax half) m ∧ ∀ k, k < 128 →
      m.getLsbD k = if k / 64 = (if half then 1 else 0) then (s.x ax).getLsbD (k % 64) else (s.m d).getLsbD k

/-- An instruction of class L or X whose scalar predicate fails moves on to the next slot, and nothing else changes: no
register, flag, special register or byte of memory, and nothing of the part; its operands are not looked at. `SEND` and
`RECV` do so in a settlement phase, once it is theirs to issue; the vector memory instructions and `PADDV` do so where their
predicate selects no element (R21, R320, R321). -/
def FailingPredicates : Prop :=
  (∀ (i : Instr) (p : Pred) (s : State), guardOf i = some p → s.Ready → s.holds p = false →
    exec i s = .next (s.retire .seq)) ∧
  (∀ (p : Pred) (s : State), s.holds p = false → exec (.sdone p) s = .next (s.retire .seq)) ∧
  ∀ (p : Pred) (vec : Bool) (a d : XReg) (buf : BitVec 4) (dcore : BitVec 13) (slot : BitVec 16) (s : State),
    s.me.inSettlement = true → s.holds p = false →
    exec (.send p vec a buf dcore slot) s = .next (s.retire .seq) ∧ exec (.recv p vec d buf slot) s = .next (s.retire .seq)

/-- What instructions that change registers of their own context leave as it was. An integer instruction or `MFC` changes
x[D] alone, and x0 keeps its value (R122, R141). Control transfers, `NOP` and `LPAD` change no register but the program
counter, and x1 for `CALL`. A floating-point instruction changes x[D], v[D] or m[D], and FFLAGS, where a flag once set
stays set (R95, R96, R167). A vector or mask instruction without flags changes v[D] or m[D], and `VSORTK` v[D] and v[C].
Every other register, flag, special register, counter and byte of memory stays, and everything else of the part. What an
instruction of class L or X does whose predicate fails is in `FailingPredicates`. -/
def Obligations.RegisterFrames : Prop :=
  FailingPredicates ∧
  (∀ (i : Instr) (d : XReg) (s t : State), scalarDest i = some d → exec i s = .next t →
    s.RegisterFrame t (if d = 0 then [] else [d]) [] [] [] false) ∧
  (∀ (p : Pred) (cc : ICond) (a b : XReg) (tg : Target) (tag : BitVec 8) (s t : State),
    (exec (.br p cc a b tg) s = .next t ∨ exec (.jmp p tg) s = .next t ∨ exec (.nop p) s = .next t ∨
      (s.Ready ∧ exec (.lpad p tag) s = .next t) → s.RegisterFrame t [] [] [] [] false) ∧
    (exec (.call p tg) s = .next t → s.RegisterFrame t [1] [] [] [] false)) ∧
  (∀ (i : Instr) (s t : State), exec i s = .next t →
    (∀ d, fpScalarDest i = some d → s.RegisterFrame t (if d = 0 then [] else [d]) [] [] [] true) ∧
    (∀ d, fpVectorDest i = some d → s.RegisterFrame t [] [d] [] [] true) ∧
    (∀ p cc v d a b, i = .vfcmp p cc v d a b → s.RegisterFrame t [] [] [d] [] true) ∧
    ((fpScalarDest i).isSome ∨ (fpVectorDest i).isSome ∨ (∃ p cc v d a b, i = .vfcmp p cc v d a b) →
      s.me.fflags &&& t.me.fflags = s.me.fflags)) ∧
  ∀ (i : Instr) (s t : State), exec i s = .next t →
    (∀ d, vectorDest i = some d → s.RegisterFrame t [] [d] [] [] false) ∧
    (∀ d, maskDest i = some d → s.RegisterFrame t [] [] [d] [] false) ∧
    (∀ p d c a, i = .vsortk p d c a → s.RegisterFrame t [] [d, c] [] [] false)

/-! ## Loads and stores (R192 to R199, R208, R274 to R276) -/

/-- `LD` and `ST` access x[A] + (x[B] << SH) + sext(IMM48): `LD` writes the bytes, zero- or sign-extended, `ST` stores
the low bytes of x[C]; an address that is no multiple of the size raises ALIGN with it, ACC 1 or 2; with the predicate
clear they move on (R193, R196). -/
def Obligations.ScalarLoadsAndStores : Prop :=
  ∀ (p : Pred) (sx : Bool) (sz : Size) (d a b c : XReg) (sh : BitVec 3) (imm : Imm48) (s : State), s.Ready →
    let va := s.x a + (s.x b <<< sh.toNat) + imm.signExtend 64
    let n := match sz with | .q => 1 | .h => 2 | .w => 4 | .d => 8
    (s.holds p = false →
      exec (.ld p sx sz d a b sh imm) s = .next (s.retire .seq) ∧
      exec (.st p sz a b c sh imm) s = .next (s.retire .seq)) ∧
    (s.holds p = true → va.toNat % n ≠ 0 →
      exec (.ld p sx sz d a b sh imm) s = .next (s.raise s.active { cause := .align, faddr := va, acc := 1 }) ∧
      exec (.st p sz a b c sh imm) s = .next (s.raise s.active { cause := .align, faddr := va, acc := 2 })) ∧
    (s.holds p = true → ∀ (v : Nat) (t : State), s.Loads va n v t → s.FloorAllows t →
      exec (.ld p sx sz d a b sh imm) s = .next ((t.setX d
        (if sx then (BitVec.ofNat (8 * n) v).signExtend 64 else BitVec.ofNat 64 v)).retire .seq)) ∧
    (s.holds p = true → ∀ t : State, s.Stores va n (s.x c).toNat t → s.FloorAllows t →
      exec (.st p sz a b c sh imm) s = .next (t.retire .seq))

/-- What an element store does where no soft error lies: its bytes and no others change; at a window or in HBM the bytes
read back; the unit's wts and rts become max(pts + 1, rts + 1), its rts being that of its line at home, or MTS for a line
that is not held there, and a reply carries them to the context's pts; the copy that the cluster's own L1 holds takes the
new data and times; the registers stay. A store to host memory goes into the line that the bridge holds in E or M, and
otherwise into a write entry, which is sent to the host and counts in SOUT until its GO (R275, R278, R288, R335, R346). -/
def Obligations.StoresWriteTheirBytes : Prop :=
  ∀ (s s' t : State) (va : Word) (n v : Nat) (pl : Place), n = 1 ∨ n = 2 ∨ n = 4 ∨ n = 8 →
    s.softErrors = [] → s.Stores va n v t →
    (locateStore (s.threadOf s.active) .write 2 va n).run s = .ok pl s' →
    s.StoresOnly t pl n ∧ t.me.regs = s.me.regs ∧ (∀ c, c ≠ s.active → t.ctx c = s.ctx c) ∧
    (∀ pa, pl = .mem pa → (s.hbm.wf = true → t.hbm.readN pa n = v % 256 ^ n) ∧
      let w := tsMax (s.me.pts + 1) ((s.homeStamp (pa / 128)).rts + 1)
      (t.l2Line (pa / 128)).stamp = { wts := w, rts := w } ∧ t.me.reply = some (true, w) ∧ t.me.pts = s.me.pts ∧
      ∀ k, SMap.find (s.cluster (clusterOfCore s.active.core)).l1 (pa / 128) = some k →
        SMap.find (t.cluster (clusterOfCore s.active.core)).l1 (pa / 128) =
          some { data := t.lineData (pa / 128), stamp := { wts := w, rts := w } }) ∧
    (∀ space off, pl = .win space off → (s.winMem space).wf = true → (t.winMem space).readN off n = v % 256 ^ n) ∧
    (∀ space off, pl = .win space off →
      let w := tsMax (s.me.pts + 1) ((s.winStamp space off).rts + 1)
      t.winStamp space off = { wts := w, rts := w } ∧ t.me.reply = some (true, w) ∧ t.me.pts = s.me.pts) ∧
    (∀ ha, pl = .host ha → ha % 64 + n ≤ 64 →
      let line := ha / 64
      let mask := BitVec.ofNat 64 ((2 ^ n - 1) * 2 ^ (ha % 64))
      (∀ x, s.hostLine line = some x → x.state = .e ∨ x.state = .m →
        let w := tsMax (s.me.pts + 1) (x.stamp.rts + 1)
        t.hostLine line =
          some { x with state := .m, data := mergeLine x.data (ha % 64) n v, stamp := { wts := w, rts := w } } ∧
        t.writeEntries = s.writeEntries ∧ t.me.sout = s.me.sout ∧ t.out = s'.out ∧ t.me.reply = some (true, w)) ∧
      ((∀ x, s.hostLine line = some x → x.state = .s) →
        let old : WriteEntry := (s.writeEntry line).getD
          { line := line, data := 0, mask := 0, owners := []
            stamp := match s.hostLine line with
              | some x => { wts := x.stamp.rts, rts := x.stamp.rts }
              | none => { wts := s.hmts line, rts := s.hmts line } }
        let w := tsMax (s.me.pts + 1) (old.stamp.rts + 1)
        t.hostLine line = none ∧ t.me.sout = s.me.sout + 1 ∧ t.out = s'.out ++ [.wowrInv line] ∧
        t.me.reply = some (true, w) ∧
        t.writeEntry line = some { old with
          data := mergeLine old.data (ha % 64) n v, mask := old.mask ||| mask, stamp := { wts := w, rts := w }
          owners := old.owners ++ [s.active] }))

/-- What an element load answers where no soft error lies: the bytes that stand in a window or in HBM behind a NORMAL page,
the decoded data of a view line behind an ASSAY page, the conversion of the cell behind a PURSE page, or the bytes of the
copy that the cluster's L1 holds when pts does not exceed its rts. Nothing is written, and no register but pts changes, and
FFLAGS by a conversion; pts becomes max(pts, wts), at once for a copy and with the reply otherwise, where wts is that of the
line at home, or MTS for a line that is not held there. The load raises a window granule's and a purse line's rts to
max(rts, pts), and a line's to max(rts, pts + LEASE), and puts the line into the L1 with these times, renewing a copy that
has expired. Behind a HOST page it answers from the line that the bridge holds, from its write entry, or with what the host
gave for a line taken away meanwhile (R101, R263, R274, R276, R278, R286 to R288). -/
def Obligations.LoadsReadTheirBytes : Prop :=
  ∀ (s s' t : State) (va : Word) (n v : Nat) (pl : Place), n = 1 ∨ n = 2 ∨ n = 4 ∨ n = 8 → s.softErrors = [] →
    s.Loads va n v t → (locateLoad (s.threadOf s.active) 1 va n).run s = .ok pl s' →
    (∀ space off, pl = .win space off →
      v = (s.winMem space).readN off n ∧
      (t.hbm, t.host, t.coreMem, t.clusterMem, t.chipMem) = (s.hbm, s.host, s.coreMem, s.clusterMem, s.chipMem) ∧
      t.me = { s.me with reply := some (false, tsMax s.me.pts (s.winStamp space off).wts) } ∧
      t.winStamp space off =
        { (s.winStamp space off) with rts := tsMax (s.winStamp space off).rts s.me.pts }) ∧
    (∀ pa k, pl = .mem pa → SMap.find (s.cluster (clusterOfCore s.active.core)).l1 (pa / 128) = some k →
      tsLe s.me.pts k.stamp.rts = true →
      v = k.data.toNat / 2 ^ (8 * (pa % 128)) % 2 ^ (8 * n) ∧ t.hbm = s.hbm ∧
      t.me = { s.me with pts := tsMax s.me.pts k.stamp.wts }) ∧
    (∀ pa, pl = .mem pa →
      (∀ k, SMap.find (s.cluster (clusterOfCore s.active.core)).l1 (pa / 128) = some k → tsLe s.me.pts k.stamp.rts = false) →
      let line := pa / 128
      let home := s.homeStamp line
      let st : Stamp := { wts := home.wts, rts := tsMax home.rts (s.me.pts + s.me.lease.setWidth 20) }
      let held := s.l2.find? fun x => x.line = line
      let view : Option Vec := match held with
        | some x => x.view
        | none => (s.viewOf line).map fun r => s.viewLine r line
      v = (match view with
        | some dv => dv.toNat / 2 ^ (8 * (pa % 128)) % 2 ^ (8 * n)
        | none => s.hbm.readN pa n) ∧
      (t.hbm, t.host, t.coreMem, t.clusterMem, t.chipMem) = (s.hbm, s.host, s.coreMem, s.clusterMem, s.chipMem) ∧
      t.me = { s.me with reply := some (false, tsMax s.me.pts home.wts) } ∧ (t.l2Line line).stamp = st ∧
      SMap.find (t.cluster (clusterOfCore s.active.core)).l1 line =
        some { data := view.getD (BitVec.ofNat 1024 (s.hbm.readN (line * 128) 128)), stamp := st }) ∧
    (∀ pa l, pl = .purse pa l →
      let line := pa / 128
      let home := s.depositHome line
      let r := (home.cell (pa % 128)).read (if n = 4 then fp32 else fp64) l.toInt
      v = r.1 ∧ t.me = { s.me with
        fflags := s.me.fflags ||| r.2, reply := some (false, tsMax s.me.pts home.stamp.wts) } ∧
      (t.depositLine line).stamp = { home.stamp with rts := tsMax home.stamp.rts s.me.pts } ∧
      (t.depositLine line).data = home.data) ∧
    (∀ ha, pl = .host ha → ha % 64 + n ≤ 64 →
      let line := ha / 64
      let lease : Ts := s.me.lease.setWidth 20
      (∀ a, s.me.hostAnswers.find? (fun a => a.line = line) = some a →
        v = a.data.toNat / 2 ^ (8 * (ha % 64)) % 2 ^ (8 * n) ∧ t.me.reply = some (false, tsMax s.me.pts a.wts)) ∧
      (∀ x, (∀ a ∈ s.me.hostAnswers, a.line ≠ line) → s.hostLine line = some x →
        v = x.data.toNat / 2 ^ (8 * (ha % 64)) % 2 ^ (8 * n) ∧ t.me.reply = some (false, tsMax s.me.pts x.stamp.wts) ∧
        t.hostLine line = some { x with stamp := { x.stamp with rts := tsMax x.stamp.rts (s.me.pts + lease) } }) ∧
      (∀ e, (∀ a ∈ s.me.hostAnswers, a.line ≠ line) → s.hostLine line = none → s.writeEntry line = some e →
        v = e.data.toNat / 2 ^ (8 * (ha % 64)) % 2 ^ (8 * n) ∧ t.me.reply = some (false, tsMax s.me.pts e.stamp.wts) ∧
        t.writeEntry line = some { e with stamp := { e.stamp with rts := tsMax e.stamp.rts (s.me.pts + lease) } }))

/-- A vector load or store with no selected element does nothing. A load with some loads each selected element, ascending,
keeps the others, and joins the flags of what it read; its times reach the context with a reply, or at once from copies. An
element whose bytes stand in a window, or in HBM where no view and no copy lies before them, is those bytes. `STVS` and `STS`
store each selected element at its address, ascending, so that the last one stored to a byte stands there, and no other byte
changes; an `STV` to a window or to HBM does so too, and one to host memory stores each half whose elements are all selected
as one line. An `LDV` or `STV` whose address is no multiple of 128 raises ALIGN (R193, R195, R197). That one access is one
step is the model's reading (log 19). -/
def Obligations.VectorLoadsAndStores : Prop :=
  (∀ (i : Instr) (p : Pred) (v : View) (d : VReg) (addr : Nat → Word) (al : Nat) (s : State), s.Ready →
    vectorLoad s i = some (p, v, d, addr, al) →
    let lanes := s.lanes p v addr
    (lanes = [] → exec i s = .next (s.retire .seq)) ∧
    (lanes ≠ [] → (addr 0).toNat % al ≠ 0 →
      exec i s = .next (s.raise s.active { cause := .align, faddr := addr 0, acc := 1 })) ∧
    (lanes ≠ [] → (addr 0).toNat % al = 0 →
      ∀ ps t vs fl pts reply u, s.LanesReady false v lanes ps t → s.LanesLoad t v ps vs fl pts reply u →
        s.FloorAllows u →
        ∃ w, (∀ j, j < v.elems → elem w v.width j =
            match vs.find? fun e => e.1 = j with
            | some e => e.2 % 2 ^ v.width
            | none => elem s.me.regs.v[d.toNat] v.width j) ∧
          exec i s = .next ((((u.setV d w).addFlags fl).returned false reply pts).retire .seq) ∧
          ps.map (·.1) = lanes ∧ (∀ e ∈ ps, isWindow e.1.2 = true → s.window (s.threadOf s.active) e.1.2 = .ok e.2) ∧
          (t.softErrors = [] → s.me.gathered = none →
            (∀ e ∈ ps, t.Plain (clusterOfCore s.active.core) e.2 v.bytes) →
            ∀ e ∈ ps, elem w v.width e.1.1 = t.bytesAt e.2 v.bytes))) ∧
  (∀ (i : Instr) (p : Pred) (v : View) (c : VReg) (addr : Nat → Word) (s : State), s.Ready →
    vectorStore s i = some (p, v, c, addr) →
    let lanes := s.lanes p v addr
    (lanes = [] → exec i s = .next (s.retire .seq)) ∧
    (lanes ≠ [] → ∀ ps t pts u, s.LanesReady true v lanes ps t →
      (storeLanes (s.threadOf s.active) v.bytes (elem (s.v c) v.width) ps s.me.pts).run t = .ok pts u →
      s.FloorAllows u → exec i s = .next ((u.returned true true pts).retire .seq) ∧ ps.map (·.1) = lanes ∧
        (∀ e ∈ ps, isWindow e.1.2 = true → s.window (s.threadOf s.active) e.1.2 = .ok e.2) ∧
        t.StoredAt u (ps.map fun e => (e.2, v.bytes, elem (s.v c) v.width e.1.1)))) ∧
  ∀ (p : Pred) (v : View) (a : XReg) (c : VReg) (imm : Imm48) (s : State), s.Ready →
    let ea := s.x a + imm.signExtend 64
    let lanes := s.lanes p v fun i => ea + BitVec.ofNat 64 (i * v.bytes)
    (lanes = [] → exec (.stv p v a c imm) s = .next (s.retire .seq)) ∧
    (lanes ≠ [] → ea.toNat % 128 ≠ 0 →
      exec (.stv p v a c imm) s = .next (s.raise s.active { cause := .align, faddr := ea, acc := 2 })) ∧
    (lanes ≠ [] → ea.toNat % 128 = 0 → ∀ ps t pts u, s.LanesReady true v lanes ps t →
      (∀ e ∈ ps, ∀ ha, e.2 ≠ .host ha) →
      (storeLanes (s.threadOf s.active) v.bytes (elem (s.v c) v.width) ps s.me.pts).run t = .ok pts u →
      s.FloorAllows u → exec (.stv p v a c imm) s = .next ((u.returned true true pts).retire .seq) ∧
        ps.map (·.1) = lanes ∧ t.StoredAt u (ps.map fun e => (e.2, v.bytes, elem (s.v c) v.width e.1.1))) ∧
    (lanes ≠ [] → ea.toNat % 128 = 0 → ∀ ps t, s.LanesReady true v lanes ps t → (∀ e ∈ ps, ∃ ha, e.2 = .host ha) →
      let thread := s.threadOf s.active
      let half (h : Nat) (pts : Ts) : Eff Ts :=
        match ps.filter (fun e => e.1.1 / (v.elems / 2) = h) with
        | (e, .host ha) :: l =>
          if l.length + 1 = v.elems / 2 then storeUnit thread (.host ha) 64 ((s.v c).toNat / 2 ^ (512 * h) % 2 ^ 512) pts
          else storeLanes thread v.bytes (elem (s.v c) v.width) ((e, .host ha) :: l) pts
        | _ => pure pts
      ∀ pts u pts' w, (half 0 s.me.pts).run t = .ok pts u → (half 1 pts).run u = .ok pts' w → s.FloorAllows w →
        exec (.stv p v a c imm) s = .next ((w.returned true true pts').retire .seq))

/-- `LDL` and `STL` move the word at offset 0x8000 + 256 l + o(l) of the context's own core window for each selected
lane l; the lowest lane whose offset is no multiple of 4 or exceeds 252 raises ALIGN with it (R199). `PREF` asks
for its lines in ascending order and completes: no register but the program counter changes, and no byte of memory
(R208). -/
def Obligations.LaneSlicesAndPrefetch : Prop :=
  (∀ (p : Pred) (r : VReg) (a : XReg) (b : Option VReg) (imm : Imm48) (s : State), s.Ready → s.softErrors = [] →
    let o (l : Nat) : Word := s.x a + imm.signExtend 64 + match b with
      | some x => BitVec.ofNat 64 (elem (s.v x) 32 l)
      | none => 0
    let bad (l : Nat) : Prop := (o l).toNat % 4 ≠ 0 ∨ 252 < (o l).toNat
    let on (l : Nat) : Prop := l < 32 ∧ s.active? p .w l = true
    let at_ (l : Nat) : Nat := s.active.core.toNat * 2 ^ 17 + 0x8000 + 256 * l + (o l).toNat
    s.me.gathered = none →
    (∀ l, on l → bad l → (∀ k, k < l → on k → ¬ bad k) →
      exec (.ldl p r a b imm) s = .next (s.raise s.active { cause := .align, faddr := o l, acc := 1 }) ∧
      exec (.stl p a b r imm) s = .next (s.raise s.active { cause := .align, faddr := o l, acc := 2 })) ∧
    ((∀ l, ¬ on l) →
      exec (.ldl p r a b imm) s = .next (s.retire .seq) ∧ exec (.stl p a b r imm) s = .next (s.retire .seq)) ∧
    ((∀ l, on l → ¬ bad l) → (∃ l, on l) →
      let lanes := s.lanes p .w o
      let thread := s.threadOf s.active
      (∀ ps vs fl pts reply u, (placeSlices 1 lanes).run s = .ok ps s → s.LanesLoad s .w ps vs fl pts reply u →
        s.FloorAllows u →
        ∃ t, exec (.ldl p r a b imm) s = .next t ∧ t.coreMem = s.coreMem ∧ t.me.pc = pcSucc s.me.pc ∧
          ∀ l, l < 32 → elem t.me.regs.v[r.toNat] 32 l =
            if s.active? p .w l then s.coreMem.readN (at_ l) 4 else elem s.me.regs.v[r.toNat] 32 l) ∧
      ∀ ps pts u, (placeSlices 2 lanes).run s = .ok ps s →
        (storeLanes thread 4 (elem (s.v r) 32) ps s.me.pts).run s = .ok pts u → s.FloorAllows u →
        ∃ t, exec (.stl p a b r imm) s = .next t ∧ t.me.regs = s.me.regs ∧ t.me.pc = pcSucc s.me.pc ∧
          (s.coreMem.wf = true → ∀ l, on l → t.coreMem.readN (at_ l) 4 = elem (s.v r) 32 l) ∧
          ∀ x, (∀ l, on l → x < at_ l ∨ at_ l + 4 ≤ x) → t.coreMem.read x = s.coreMem.read x)) ∧
  ∀ (p : Pred) (l2 : Bool) (a : XReg) (n : BitVec 3) (imm : Imm48) (s : State), s.Ready → s.softErrors = [] →
    let first := (s.x a + imm.signExtend 64) &&& ~~~(127 : Word)
    let asked := (List.range (n.toNat + 1)).foldl (fun s i => s.prefetch l2 (first + BitVec.ofNat 64 (128 * i))) s
    (s.holds p = false → exec (.pref p l2 a n imm) s = .next (s.retire .seq)) ∧
    (s.holds p = true → s.FloorAllows asked → exec (.pref p l2 a n imm) s = .next (asked.retire .seq)) ∧
    (asked.hbm, asked.host, asked.coreMem, asked.clusterMem, asked.chipMem, asked.contexts) =
      (s.hbm, s.host, s.coreMem, s.clusterMem, s.chipMem, s.contexts)

/-! ## Tiles (R200 to R207) -/

/-- `MTT` writes the low bits of its value into one field of a tile register and keeps the others; `MFT` returns the
field zero-extended; neither checks a value's meaning (R201). The descriptor check of R202, which `TWAIT`, `TCONS`,
`TLD` and `TST` make first: a format without a width, or a scale where the format takes none, raises FMTMIX; a shape
or an alignment out of range ALIGN with TADDR; a tile that leaves its own cluster's window WINDOW with TADDR; ACC is 0,
since the check makes no access (R369). -/
def Obligations.TileRegistersAndDescriptors : Prop :=
  (∀ (p : Pred) (d a : XReg) (r : TReg) (src : TileSrc) (s : State), s.Ready → s.holds p = true →
    let w : Word := match src with
      | .reg x => s.x x
      | .imm i => i.signExtend 64
    let old := s.me.regs.t[r.toNat]
    let puts (f : TileField) (new : Tile) : Prop := exec (.mtt p r f src) s = .next ((s.setT r new).retire .seq)
    puts .addr { old with addr := w } ∧ puts .fmt { old with fmt := w.setWidth 5 } ∧
    puts .rows { old with rows := w.setWidth 7 } ∧ puts .cols { old with cols := w.setWidth 8 } ∧
    puts .stride { old with stride := w.setWidth 13 } ∧ puts .scale { old with scale := w.setWidth 12 } ∧
    WritesX (.mft p d r .addr) p d (s.t r).addr s ∧
    WritesX (.mft p d r .fmt) p d ((s.t r).fmt.setWidth 64) s ∧
    WritesX (.mft p d r .rows) p d ((s.t r).rows.setWidth 64) s ∧
    WritesX (.mft p d r .cols) p d ((s.t r).cols.setWidth 64) s ∧
    WritesX (.mft p d r .stride) p d ((s.t r).stride.setWidth 64) s ∧
    WritesX (.mft p d r .scale) p d ((s.t r).scale.setWidth 64) s) ∧
  ∀ (p : Pred) (r : TReg) (a b : XReg) (imm : Imm48) (s : State), s.Ready → s.holds p = true →
    let t := s.t r
    let width := (fmtOf t.fmt).width
    let row := (t.cols.toNat * width + 7) / 8
    let unit := (width + 7) / 8
    let format := width ≠ 0 ∧ (t.scale = 0 ∨ scalable t.fmt = true)
    let shape := 1 ≤ t.rows.toNat ∧ t.rows.toNat ≤ 64 ∧ 1 ≤ t.cols.toNat ∧
      t.cols.toNat ≤ (if t.fmt = 8 ∨ t.fmt = 10 then 128 else 64) ∧ 1 ≤ t.stride.toNat ∧ t.stride.toNat ≤ 4096 ∧
      row ≤ t.stride.toNat ∧ t.addr.toNat % unit = 0 ∧ t.stride.toNat % unit = 0
    let window := t.addr.toNat / 2 ^ 19 = (0xFFFF_9000_0000_0000 / 2 ^ 19 + clusterOfCore s.active.core) ∧
      t.addr.toNat % 2 ^ 19 + (t.rows.toNat - 1) * t.stride.toNat + row ≤ 2 ^ 19 ∧
      (t.scale = 0 ∨ t.scale.toNat * 128 + 4 * max t.rows.toNat t.cols.toNat ≤ 2 ^ 19)
    ∀ i, i = .twait p r ∨ i = .tcons p r ∨ i = .tld p r a b imm ∨ i = .tst p r a b imm →
      (¬ format → exec i s = .next (s.raise s.active { cause := .fmtmix })) ∧
      (format → ¬ shape → exec i s = .next (s.raise s.active { cause := .align, faddr := t.addr })) ∧
      (format → shape → ¬ window →
        exec i s = .next (s.raise s.active { cause := .window, faddr := t.addr }))

/-- The granules of a tile, their tags and the waits of R203: `TWAIT` and `TCONS` complete when every granule has V = 1
and join the times at which V was set, `TCONS` setting C; with a granule at V = 0 they wait (R203, R207, R285). -/
def Obligations.TileWaits : Prop :=
  ∀ (p : Pred) (r : TReg) (s : State), s.Ready → s.holds p = true →
    let t := s.t r
    let c := clusterOfCore s.active.core
    t.formatOk = true → t.shapeOk = true → t.windowOk c = true →
    let joined := s.mapMe fun k => { k with pts := s.tagTime c t.granules k.pts }
    (s.valid c t.granules = true →
      exec (.twait p r) s = .next (joined.retire .seq) ∧
      ∃ u : State, exec (.tcons p r) s = .next (u.retire .seq) ∧ u.contexts = joined.contexts ∧
        (∀ g ∈ t.granules, u.tag c g = { (s.tag c g) with c := true }) ∧
        (∀ g, g ∉ t.granules → u.tag c g = s.tag c g) ∧ (∀ q, q ≠ c → u.cluster q = s.cluster q) ∧
        u.SameBytes s) ∧
    (s.valid c t.granules = false →
      let waits := s.mapMe fun k => { k with run := .waiting, wait := .tags, last := .waited }
      exec (.twait p r) s = .next waits ∧ exec (.tcons p r) s = .next waits)

/-- `TLD` checks its rows as loads and, when every granule of its tile has V = 1 and C = 1 and no engine job reads it,
clears both tags, forks the copy of the rows and goes on; otherwise it waits. When the copy's turn comes its rows
stand in the tile, each bit of a row that of its address, and V is 1 (R203, R205, R206). `TST` with its rows checked as stores
and every granule at V = 1 joins the times of the tags, stores its rows in ascending order, each at its address, with the bits
beyond a row's last element as they stood, and goes on; with a granule at V = 0 it waits (R203, R205, R206). That a copy or a
`TST` is one step is the model's reading (log 19). -/
def Obligations.TileLoadsAndStores : Prop :=
  ((∀ (p : Pred) (r : TReg) (a b : XReg) (imm : Imm48) (s u : State) (pages : List Tlb), s.Ready → s.holds p = true →
    let t := s.t r
    let c := clusterOfCore s.active.core
    let stride := if b = 0 then t.stride.setWidth 64 else s.x b
    let row (i : Nat) : Word := s.x a + imm.signExtend 64 + BitVec.ofNat 64 i * stride
    t.formatOk = true → t.shapeOk = true → t.windowOk c = true →
    (checkRows (s.threadOf s.active) false t.rowLen ((List.range t.rows.toNat).map row)).run s = .ok pages u →
    (u.fillable c t.granules = true → s.FloorAllows u →
      ∃ (w : State) (copy : TileCopy), exec (.tld p r a b imm) s = .next (w.retire .seq) ∧ w.contexts = u.contexts ∧
        w.tileCopies = u.tileCopies ++ [copy] ∧ copy.cluster = c ∧ copy.tile = t ∧ copy.base = row 0 ∧
        copy.stride = stride ∧ copy.owner = s.active ∧ copy.fork = s.me.pts ∧ copy.pages = distinct pages ∧
        copy.units = 0 ∧ copy.time = s.me.pts ∧
        (∀ g ∈ t.granules, (w.tag c g).v = false ∧ (w.tag c g).c = false) ∧
        (∀ g, g ∉ t.granules → w.tag c g = u.tag c g) ∧ u.SameBytes w) ∧
    (u.fillable c t.granules = false →
      exec (.tld p r a b imm) s =
        .next (u.mapMe fun k => { k with run := .waiting, wait := .tags, last := .waited }))) ∧
  ∀ (i : Nat) (s u : State) (copy : TileCopy) (pts : Ts), s.tileCopies[i]? = some copy →
    let thread : Thread := { ctx := copy.owner, unit := some (.tile copy.cluster copy.tile.off), cluster := copy.cluster
                             secure := (s.launch copy.queue).secure, asid := (s.launch copy.queue).asid
                             queue := copy.queue, lease := copy.lease, pts := copy.time }
    (copyParts thread i copy (copy.parts.drop copy.units) copy.time).run s = .ok pts u →
    s.FloorAllows (u.stampStores copy.cluster copy.tile.granules pts).1 →
    ∃ t, exec (.tldCopyDone i) s = .next t ∧ t.tileCopies = s.tileCopies.eraseIdx i ∧
      t.clusterMem = u.clusterMem ∧ (∀ g ∈ copy.tile.granules, (t.tag copy.cluster g).v = true) ∧
      (s.softErrors = [] → s.clusterMem.wf = true → copy.tile.shapeOk = true → copy.units = 0 →
        ∀ r, r < copy.tile.rows.toNat → ∀ e ∈ partsOf (copy.base + BitVec.ofNat 64 r * copy.stride) copy.tile.rowLen,
        ∀ pl, (locateBy copy.pages thread 5 e.1).run s = .ok pl s → s.Plain copy.cluster pl e.2 → (∀ off, pl ≠ .win 1 off) →
          let first := (e.1 - (copy.base + BitVec.ofNat 64 r * copy.stride)).toNat
          ∀ b, b < 8 * e.2 → 8 * first + b < copy.tile.cols.toNat * copy.tile.width →
            (t.clusterMem.read (copy.cluster * 2 ^ 19 + copy.tile.off + r * copy.tile.stride.toNat + first + b / 8)).getLsbD (b % 8) =
              (s.bytesAt pl e.2).testBit b)) ∧
  ∀ (p : Pred) (r : TReg) (a b : XReg) (imm : Imm48) (s u : State) (pages : List Tlb), s.Ready → s.holds p = true →
    let t := s.t r
    let c := clusterOfCore s.active.core
    let thread := s.threadOf s.active
    let stride := if b = 0 then t.stride.setWidth 64 else s.x b
    let row (i : Nat) : Word := s.x a + imm.signExtend 64 + BitVec.ofNat 64 i * stride
    t.formatOk = true → t.shapeOk = true → t.windowOk c = true →
    (checkRows thread true t.rowLen ((List.range t.rows.toNat).map row)).run s = .ok pages u →
    let joined := u.mapMe fun k => { k with pts := u.tagTime c t.granules k.pts }
    (u.valid c t.granules = false →
      exec (.tst p r a b imm) s = .next (u.mapMe fun k => { k with run := .waiting, wait := .tags, last := .waited })) ∧
    (u.valid c t.granules = true → ∀ (v w : State) (pts : Ts),
      s.softErrors = [] →
      (readyRange (fun va => locate false thread .write 5 va va) thread 5 true s.me.pts
        ((List.range t.rows.toNat).flatMap fun i => partsOf (row i) t.rowLen)).run joined = .ok () v →
      (storeRows thread t row (List.range t.rows.toNat) (v.stampLoads c t.granules v.me.pts).2).run
        (v.stampLoads c t.granules v.me.pts).1 = .ok pts w →
      s.FloorAllows w → exec (.tst p r a b imm) s = .next ((w.returned true true pts).retire .seq) ∧
        ∀ place : Word → Place,
          (∀ i, i < t.rows.toNat → v.Located thread (row i + BitVec.ofNat 64 (t.rowLen - 1))
            (place (row i + BitVec.ofNat 64 (t.rowLen - 1))) ∧
            ∀ e ∈ partsOf (row i) t.rowLen, v.Located thread e.1 (place e.1) ∧ ∀ off, place e.1 ≠ .win 1 off) →
          let bits := t.cols.toNat * t.width
          ∃ last : Nat → Nat,
            v.StoredAt w ((List.range t.rows.toNat).flatMap fun i => (partsOf (row i) t.rowLen).map fun e =>
              (place e.1, e.2, (t.row v.clusterMem c i % 2 ^ bits + last i * 2 ^ bits) / 2 ^ (8 * (e.1 - row i).toNat))) ∧
            ∀ i, i < t.rows.toNat → bits % 8 ≠ 0 →
              let tail := place (row i + BitVec.ofNat 64 (t.rowLen - 1))
              v.Plain c tail 1 →
              (∀ k, k < i → ∀ e ∈ partsOf (row k) t.rowLen, Apart tail 1 (place e.1) e.2) →
              last i = v.bytesAt tail 1 / 2 ^ (bits % 8))

/-! ## The matrix engine and the copy unit (R210 to R233) -/

/-- `MMA`, `MMAT` and `MMAS` with a C tile, and `MMAB`: with sound descriptors, a legal mix, a shape that fits and
room, the job is accepted with an id in x[D]; a mix that is none of R218's, which are named by their format codes, raises
FMTMIX, a shape that does not fit
ENGFLT; without room they wait (R210, R211, R217 to R224). The order of the checks of `MMAB` and `MMAS` is the model's
reading (log 22). -/
def Obligations.MatrixJobsSubmitted : Prop :=
  ∀ (p : Pred) (d : XReg) (a b c : TReg) (acc tb : Bool) (diag : BitVec 8) (up : Bool) (fill : Fill) (list : BitVec 15)
    (nnz : BitVec 13) (s : State), s.Ready → s.holds p = true →
    let ta := s.t a
    let tB := s.t b
    let tc := s.t c
    let cluster := clusterOfCore s.active.core
    let k := if tb then tB.cols.toNat else tB.rows.toNat
    let n := if tb then tB.rows.toNat else tB.cols.toNat
    let fits := productFits ta k n tb ∧ tc.rows = ta.rows ∧ tc.cols.toNat = n
    let dense (mask : Option (BitVec 8 × Bool × Fill)) : JobKind := .mma ta tB (.tile tc) acc tb mask
    let narrow (f : BitVec 5) : Prop := 4 ≤ f.toNat ∧ f.toNat ≤ 8
    let outcome (i : Instr) (kind : JobKind) (ok : Prop) : Prop :=
      (mixOk ta.fmt tB.fmt tc.fmt = true ↔
        (narrow ta.fmt ∧ narrow tB.fmt ∧ (tc.fmt = 1 ∨ tc.fmt = 2 ∨ tc.fmt = 3)) ∨
        (ta.fmt = 3 ∧ tB.fmt = 3 ∧ (tc.fmt = 1 ∨ tc.fmt = 3)) ∨ (ta.fmt = 2 ∧ tB.fmt = 2 ∧ (tc.fmt = 1 ∨ tc.fmt = 2)) ∨
        (ta.fmt = 1 ∧ tB.fmt = 1 ∧ tc.fmt = 1) ∨ (ta.fmt = 0 ∧ tB.fmt = 0 ∧ tc.fmt = 0) ∨
        (ta.fmt = 9 ∧ tB.fmt = 9 ∧ tc.fmt = 11)) ∧
      (mixOk ta.fmt tB.fmt tc.fmt = false → exec i s = .next (s.raise s.active { cause := .fmtmix })) ∧
      (mixOk ta.fmt tB.fmt tc.fmt = true → ¬ ok → exec i s = .next (s.raise s.active { cause := .engflt })) ∧
      (mixOk ta.fmt tB.fmt tc.fmt = true → ok → s.JobRoom false →
        exec i s = .next ((s.accept false d kind).retire .seq)) ∧
      (mixOk ta.fmt tB.fmt tc.fmt = true → ok → ¬ s.JobRoom false →
        exec i s = .next (s.mapMe fun k => { k with run := .waiting, wait := .room, last := .waited }))
    (s.TileOk ta → s.TileOk tB → s.TileOk tc →
      outcome (.mma p d a b (.tile c) acc tb) (dense none) fits ∧
      outcome (.mmat p d a b (.tile c) acc tb diag up fill) (dense (some (diag, up, fill))) fits) ∧
    (s.TileOk ta → tB.formatOk = true → tB.shapeOk = true →
      tB.addr.toNat / 2 ^ 19 = (clusterWindow cluster).toNat / 2 ^ 19 →
      tB.off + csrBytes tB nnz.toNat ≤ 2 ^ 19 → tB.scaleOk tB.rows.toNat tB.cols.toNat = true → s.TileOk tc →
      outcome (.mmas p d a b (.tile c) acc nnz) (.mmas ta tB (.tile tc) acc nnz.toNat)
        (productFits ta tB.rows.toNat tB.cols.toNat false ∧ tc.rows = ta.rows ∧ tc.cols = tB.cols)) ∧
    ((∀ t ∈ [ta, tB, tc], t.formatOk = true ∧ t.scale = 0 ∧ t.shapeOk = true ∧ t.rows.toNat ≤ 16 ∧ t.cols.toNat ≤ 16) →
      16 * list.toNat + 256 ≤ 2 ^ 19 →
      outcome (.mmab p d a b c acc tb list) (.mmab ta tB tc acc tb (16 * list.toNat)) fits)

/-- The same three with a purse destination: the region's pages are checked as purse writes first, and the job takes their
translations; without room it waits. A base that is no multiple of 16 raises ALIGN with it, the first part of the region
whose page cannot be written its own fault, one on no purse page ENGFLT, and one of an assay range ASSAYW, with its address
and ACC 4 (R103, R216, R218, R219, R223). -/
def Obligations.PurseProductsSubmitted : Prop :=
  ∀ (p : Pred) (d r : XReg) (a b : TReg) (fp64 tb : Bool) (stride : BitVec 16) (diag : BitVec 8) (up : Bool) (fill : Fill)
    (nnz : BitVec 13) (s u : State) (pages : List Tlb), s.Ready → s.holds p = true →
    let ta := s.t a
    let tB := s.t b
    let cluster := clusterOfCore s.active.core
    let dst : MmaDst := .purse r fp64 stride
    let job : JobDst := .purse (s.x r) fp64 stride pages
    let outcome (i : Instr) (kind : JobKind) (k n : Nat) (t : Bool) : Prop :=
      (mixPurse ta.fmt tB.fmt = true ↔ (4 ≤ ta.fmt.toNat ∧ ta.fmt.toNat ≤ 8 ∧ 4 ≤ tB.fmt.toNat ∧ tB.fmt.toNat ≤ 8) ∨
        (ta.fmt = tB.fmt ∧ ta.fmt.toNat ≤ 3)) ∧
      (mixPurse ta.fmt tB.fmt = false → exec i s = .next (s.raise s.active { cause := .fmtmix })) ∧
      (mixPurse ta.fmt tB.fmt = true → ¬ productFits ta k n t →
        exec i s = .next (s.raise s.active { cause := .engflt })) ∧
      (mixPurse ta.fmt tB.fmt = true → productFits ta k n t →
        (checkPurse (s.threadOf s.active) (s.x r) ta.rows.toNat n stride.toNat).run s = .ok pages u → s.FloorAllows u →
        (u.JobRoom false → exec i s = .next ((u.accept false d kind).retire .seq)) ∧
        (¬ u.JobRoom false → exec i s = .next (u.mapMe fun k => { k with run := .waiting, wait := .room, last := .waited }))) ∧
      (mixPurse ta.fmt tB.fmt = true → productFits ta k n t →
        ((s.x r).toNat % 16 ≠ 0 → exec i s = .next (s.raise s.active { cause := .align, faddr := s.x r, acc := 4 })) ∧
        ((s.x r).toNat % 16 = 0 → ∀ before va size after es v,
          (List.range ta.rows.toNat).flatMap (fun x => partsOf (s.x r + BitVec.ofNat 64 (16 * x * stride.toNat)) (16 * n)) =
            before ++ (va, size) :: after → (checkRegion (s.threadOf s.active) before).run s = .ok es v →
          (∀ f w, (locate false (s.threadOf s.active) .write 4 va va).run v = .error (.trap f) w →
            exec i s = .next (s.raise s.active f)) ∧
          ∀ pl w, (locate false (s.threadOf s.active) .write 4 va va).run v = .ok pl w →
            ((∀ pa l, pl ≠ .purse pa l) → exec i s = .next (s.raise s.active { cause := .engflt, faddr := va, acc := 4 })) ∧
            ∀ pa l, pl = .purse pa l → w.assayBytes pa size = true →
              exec i s = .next (s.raise s.active { cause := .assayw, faddr := va, acc := 4 })))
    (s.TileOk ta → s.TileOk tB →
      let k := if tb then tB.cols.toNat else tB.rows.toNat
      let n := if tb then tB.rows.toNat else tB.cols.toNat
      outcome (.mma p d a b dst false tb) (.mma ta tB job false tb none) k n tb ∧
      outcome (.mmat p d a b dst false tb diag up fill) (.mma ta tB job false tb (some (diag, up, fill))) k n tb) ∧
    (s.TileOk ta → tB.formatOk = true → tB.shapeOk = true →
      tB.addr.toNat / 2 ^ 19 = (clusterWindow cluster).toNat / 2 ^ 19 →
      tB.off + csrBytes tB nnz.toNat ≤ 2 ^ 19 → tB.scaleOk tB.rows.toNat tB.cols.toNat = true →
      outcome (.mmas p d a b dst false nnz) (.mmas ta tB job false nnz.toNat) tB.rows.toNat tB.cols.toNat false)

/-- The copy instructions take an id and a place in the core's copy queue with what they name; a length of 0 is done
at once; a peer copy of a secure launch raises WORLD, a format that no conversion names FMTMIX, and a `CPYA` that is
not aligned, or not inside a region that `CPYA` may write, ALIGN or PERM (R229, R232, R233, R338). FADDR 0 of the
ALIGN of `CPYA` is the model's choice (log 24). -/
def Obligations.CopyJobsSubmitted : Prop :=
  ∀ (p : Pred) (d a b c : XReg) (node : BitVec 22) (source : Bool) (rows : BitVec 13) (rb : BitVec 16)
    (stride : BitVec 27) (sf df : BitVec 5) (rm : Rm) (s : State), s.Ready → s.holds p = true → s.JobRoom true →
    let dst := s.x a
    let src := s.x b
    let third := s.x c
    let len := third.toNat % 2 ^ 32
    let accepts (i : Instr) (kind : JobKind) : Prop := exec i s = .next ((s.accept true d kind).retire .seq)
    let raises (i : Instr) (t : Trap) : Prop := exec i s = .next (s.raise s.active t)
    let secure := (s.threadOf s.active).secure
    let writable := dst.toNat < 2 ^ 52 ∧ ∃ r ∈ s.assay.toList, r.on = true ∧ r.sec = secure ∧
      r.stored (inside dst.toNat third.toNat) = true
    (len ≠ 0 → accepts (.cpy p d a b c none) (.copy dst src len)) ∧
    (len = 0 → exec (.cpy p d a b c none) s = .next ((s.acceptEmpty d).retire .seq)) ∧
    (secure = true → raises (.cpy p d a b c (some (source, node))) { cause := .world }) ∧
    (secure = false → len ≠ 0 →
      accepts (.cpy p d a b c (some (source, node))) (.peerCopy dst src len (!source) node)) ∧
    accepts (.cpy2 p d a b c rows rb)
      (.copy2 dst src (third.extractLsb' 32 32) (third.extractLsb' 0 32) rows.toNat rb.toNat) ∧
    accepts (.cpyg p d a b c rows rb stride) (.gather dst src third rows.toNat rb.toNat stride.toNat) ∧
    (¬ (sf.toNat ≤ 12 ∧ df.toNat ≤ 12) → raises (.cpyc p d a b c sf df rm) { cause := .fmtmix }) ∧
    (sf.toNat ≤ 12 → df.toNat ≤ 12 → len ≠ 0 →
      accepts (.cpyc p d a b c sf df rm) (.convert dst src len sf df rm)) ∧
    (dst.toNat % 128 ≠ 0 ∨ third.toNat % 128 ≠ 0 → raises (.cpya p d a b c) { cause := .align }) ∧
    (dst.toNat % 128 = 0 → third.toNat % 128 = 0 → ¬ writable →
      raises (.cpya p d a b c) { cause := .perm, faddr := dst }) ∧
    (dst.toNat % 128 = 0 → third.toNat % 128 = 0 → writable → third ≠ 0 →
      accepts (.cpya p d a b c) (.assay dst src third.toNat))

/-- An element of a product is C, or +0, plus for each group of the inner index, ascending, the exact sum
of the products of that group, rounded once to the format of C with RNE; an INT8 product sums exactly and wraps (R104, R105,
R217). A product into a tile loads its operands, and the granules of C where it accumulates; it then stores every element that
its mask keeps, and the fill value at the others of an output granule with one that is kept; its job is done at the time of
the last store (R220, R221, R226, R284). A product into a purse posts the addend of each element that its mask keeps, to the
cell of its row and column (R221, R223). A unit of a plain `CPY` from window to window loads its bytes and stores them, and
the granule that it fills is valid from then on; any unit of a job writes the bytes that it reads, with those of its line
where the job writes the line entirely; the job is done once every unit is (R203, R229, R230, R284). An order of the granules'
loads and stores is the model's choice (log 24). -/
def JobsDoTheirWork : Prop :=
  -- the arithmetic
  (∀ (fa fc : BitVec 5) (f : FpFmt) (depth : Nat) (a b : Nat → FV) (c : Nat), fmtOf fc = .float f → fa ≠ 9 →
    let size := if fa = 0 then 1 else if fa = 1 then 4 else if fa = 2 ∨ fa = 3 then 16 else 32
    let products (g : Nat) : List FV :=
      (List.range (min (size * g + size) depth - size * g)).map fun k => groupTerm (a (size * g + k)) (b (size * g + k))
    dot fa fc depth a b c =
      (List.range ((depth + size - 1) / size)).foldl (fun c g => (fpAdd f .rne (f.decode c) (groupSum (products g))).1) c) ∧
  (∀ (depth : Nat) (a b : Nat → FV) (c : Nat),
    (dot 9 11 depth a b c : Int) =
      (signedOf 32 c + ((List.range depth).map fun k => (a k).int * (b k).int).sum) % 2 ^ 32) ∧
  (∀ (a b : FV) (x y : ℝ), a.Is x → b.Is y → (groupTerm a b).Is (x * y)) ∧
  (∀ (l : List FV) (xs : List ℝ), List.Forall₂ FV.Is l xs → (groupSum l).Is xs.sum) ∧
  -- a product into a tile
  (∀ (cluster : BitVec 10) (queue : BitVec 4) (s : State) (j : Job) (a b c : Tile) (acc tb : Bool)
      (mask : Option (BitVec 8 × Bool × Fill)) (nnz : Nat),
    let p := cluster.toNat
    let q := queue.toNat
    let dense := j.kind = .mma a b (.tile c) acc tb mask
    let sparse := j.kind = .mmas a b (.tile c) acc nnz ∧ mask = none
    s.runningJob p false q = some j → j.failed = none → j.thunk = none → j.units = [] → s.softErrors = [] →
    (dense ∨ (sparse ∧ csrOk s.clusterMem p b nnz = true)) →
    ∀ o, (dense → o = denseOperands s.clusterMem p a b tb) → (sparse → o = sparseOperands s.clusterMem p a b nnz) →
      let keeps (x y : Nat) : Bool := match mask with
        | none => true
        | some (d, false, _) => decide ((y : Int) - x ≤ d.toInt)
        | some (d, true, _) => decide (d.toInt ≤ (y : Int) - x)
      let computed (x y : Nat) : Bool := (List.range o.m).any fun x' => (List.range o.n).any fun y' =>
        decide (x' / 16 = x / 16) && decide (y' / 16 = y / 16) && keeps x' y'
      let filled : Nat := match mask with
        | some (_, _, f) => fillBits c.fmt f
        | none => 0
      let element (x y : Nat) : Option Nat :=
        if computed x y = false then none
        else if keeps x y then
          some (dot o.fmtA c.fmt o.depth (o.a x) (fun k => o.b k y) (if acc then c.bits s.clusterMem p x y else 0))
        else some filled
      let read := s.stampLoads p (s.jobLoads p j) j.time
      let onto := if acc then c.touched o.m o.n (fun x y => computed x y && keeps x y) else []
      let loaded := read.1.stampLoads p onto read.2
      let stored := loaded.1.stampStores p (c.touched o.m o.n computed) loaded.2
      c.rows.toNat = o.m → c.cols.toNat = o.n → s.FloorAllows (stored.1.assign stored.2) →
        ∃ t : State, exec (.jobDone cluster false queue) s = .next t ∧
          t.clusterMem = c.writeAll s.clusterMem p element ∧
          (t.hbm, t.host, t.coreMem, t.chipMem) = (s.hbm, s.host, s.coreMem, s.chipMem) ∧ t.contexts = s.contexts ∧
          t.runningJob p false q = none ∧
          SMap.find (t.core (8 * p + q)).jobs (j.id.toNat % 4096) = some (1, 0, false, 0, stored.2) ∧
          ∀ g, t.winStamp 1 (p * 2 ^ 19 + g * 128) = stored.1.winStamp 1 (p * 2 ^ 19 + g * 128)) ∧
  -- a product into a purse
  (∀ (cluster : BitVec 10) (s : State) (n q started : Nat) (j : Job) (js : List Job) (a b : Tile) (base : Word) (fp64 acc tb : Bool)
      (stride : BitVec 16) (pages : List Tlb) (mask : Option (BitVec 8 × Bool × Fill)),
    let p := cluster.toNat
    s.nextQueue p false = some (q, started) → SMap.at (s.cluster p).matrix.queues [] q = j :: js → s.softErrors = [] →
    let dense := j.kind = .mma a b (.purse base fp64 stride pages) acc tb mask
    let sparse := j.kind = .mmas a b (.purse base fp64 stride pages) acc n ∧ mask = none
    (dense ∨ (sparse ∧ csrOk s.clusterMem p b n = true)) →
    ∀ o, (dense → o = denseOperands s.clusterMem p a b tb) → (sparse → o = sparseOperands s.clusterMem p a b n) →
      let keeps (x y : Nat) : Bool := match mask with
        | none => true
        | some (d, false, _) => decide ((y : Int) - x ≤ d.toInt)
        | some (d, true, _) => decide (d.toInt ≤ (y : Int) - x)
      let read := s.stampLoads p (s.jobLoads p j) (s.tagTime p (s.jobReads p j) j.fork)
      let thread := s.jobThread p j
      let address (x y : Nat) : Word := base + BitVec.ofNat 64 (16 * (x * stride.toNat + y))
      s.FloorAllows read.1 →
        ∃ t j', exec (.jobStart cluster false) s = .next t ∧ t.runningJob p false q = some j' ∧
          (j'.id, j'.kind, j'.failed, j'.time) = (j.id, j.kind, j.failed, read.2) ∧
          t.posted = s.posted ++ (List.range o.m).flatMap fun x => (List.range o.n).filterMap fun y =>
            if keeps x y then
              (pages.find? fun e => e.covers thread.secure thread.asid (address x y)).map fun e =>
                { poster := .job p q, queue := j.queue, pa := BitVec.ofNat 52 (e.pa (address x y)), pexp := e.pexp
                  op := .add (if fp64 then .d else .w)
                    (BitVec.ofNat 64 (dot o.fmtA (if fp64 then 0 else 1) o.depth (o.a x) (fun k => o.b k y) 0))
                  pts := read.2 }
            else none) ∧
  -- copies
  ∀ (cluster : BitVec 10) (queue : BitVec 4) (s : State) (j : Job),
    let p := cluster.toNat
    let q := queue.toNat
    let thread (n : Nat) : Thread := { s.jobThread p j with unit := some (.copy p q n) }
    s.runningJob p true q = some j → j.failed = none →
      (∀ (dst src : Word) (len d e : Nat), j.kind = .copy dst src len → j.units = [] → s.softErrors = [] → 0 < len →
        dst.toNat % 128 + len ≤ 128 → src.toNat % 128 + len ≤ 128 → isWindow dst = true → isWindow src = true →
        s.window (thread 0) dst = .ok (.win 1 d) → s.window (thread 0) src = .ok (.win 1 e) →
        s.fillable (d / 2 ^ 19) [d % 2 ^ 19 / 128] = true →
          let read := s.setWinStamp 1 e ((s.winStamp 1 e).load j.time)
          let now := tsMax j.time (s.winStamp 1 e).wts
          let st := (read.winStamp 1 d).store now
          s.FloorAllows ((s.assign now).assign st.wts) →
          ∃ t : State, moveWith exec (.copyUnit p q 0) s = .next t ∧
            t.clusterMem = s.clusterMem.writeN d len (s.clusterMem.readN e len) ∧
            (t.hbm, t.host, t.coreMem, t.chipMem) = (s.hbm, s.host, s.coreMem, s.chipMem) ∧ t.contexts = s.contexts ∧
            t.runningJob p true q = some { j with units := [0], time := tsMax j.time st.wts } ∧
            (t.tag (d / 2 ^ 19) (d % 2 ^ 19 / 128)).v = true ∧ (t.tag (d / 2 ^ 19) (d % 2 ^ 19 / 128)).time = st.wts) ∧
      (∀ n u v pts w time t, (∀ dst src len peer node, j.kind ≠ .peerCopy dst src len peer node) →
        (∀ dst src len, j.kind ≠ .assay dst src len) → j.kind.parts[n]? = some u → n ∉ j.units →
        let all := j.kind.parts
        let line := u.dst.toNat / 128
        let covers (b : Nat) : Prop := ∃ x ∈ all, x.dst.toNat / 128 = line ∧ x.dst.toNat % 128 ≤ b ∧ b < x.dst.toNat % 128 + x.n
        ∀ now : List (Nat × CopyPart),
        ((∀ b, b < 128 → covers b) → now.map (·.1) = (List.range all.length).filter fun i =>
          decide ((all.getD i u).dst.toNat / 128 = line)) →
        ((∃ b, b < 128 ∧ ¬ covers b) → now = [(n, u)]) → (∀ e ∈ now, all[e.1]? = some e.2) →
        let first : CopyPart :=
          if now.length = 1 then u else { u with dst := u.dst - BitVec.ofNat 64 (u.dst.toNat % 128), n := 128 }
        (partsBytes (thread n) j.kind first.dst now 0 j.time).run s = .ok (v, pts) w →
        (writePart (thread n) all j.units (now.map (·.1)) first v pts).run w = .ok time t →
        t.runningJob p true q = some j → s.FloorAllows t →
          ∃ t' : State, moveWith exec (.copyUnit p q n) s = .next t' ∧
            (t'.hbm, t'.host, t'.coreMem, t'.clusterMem, t'.chipMem) =
              (t.hbm, t.host, t.coreMem, t.clusterMem, t.chipMem) ∧
            t'.runningJob p true q = some { j with units := now.map (·.1) ++ j.units, time := tsMax j.time time }) ∧
      (j.thunk = none → s.softErrors = [] → (∀ dst src len peer node, j.kind ≠ .peerCopy dst src len peer node) →
        (∀ n, n < j.kind.parts.length → n ∈ j.units) → s.FloorAllows (s.assign j.time) →
          ∃ t : State, exec (.jobDone cluster true queue) s = .next t ∧
            (t.hbm, t.host, t.coreMem, t.clusterMem, t.chipMem) =
              (s.hbm, s.host, s.coreMem, s.clusterMem, s.chipMem) ∧ t.contexts = s.contexts ∧
            t.runningJob p true q = none ∧
            SMap.find (t.core (8 * p + q)).jobs (j.id.toNat % 4096) = some (1, 0, false, 0, j.time))

/-- Arbitration starts the head job of the queue that R213 chooses: it leaves its queue, and the granules that a matrix job
updates lose V; a job is done when its work has been performed, which gives its status 1 and the time of its last write, and
V back to those granules; a job whose work meets a fault, or met one at its start or in one of its units, gets status 2 with
the cause, LINK and address, and what it did stands, with the time that it reached (R203, R213, R226, R227). `MJPOLL` gives 0
while the job is pending, 1 when it is done, with its completion time joined, 2 with the cause and LINK when it is faulted,
and 3 for an id that the core does not know; `MJWAIT` waits while the job is pending, joins it when it is done, raises ENGFLT
with the fault address when it is faulted, and goes on for an unknown id (R214, R285). The turn of a queue is the model's
reading of R213 (log 23). The work itself is that of `JobsDoTheirWork`. -/
def Obligations.EngineEventsAndJobStatus : Prop :=
  JobsDoTheirWork ∧
  (∀ (cluster : BitVec 10) (copy : Bool) (queue : BitVec 4) (s : State) (j : Job),
    let p := cluster.toNat
    let q := queue.toNat
    (∀ q' n js, s.nextQueue p copy = some (q', n) → SMap.at ((s.cluster p).engine copy).queues [] q' = j :: js →
      (copy = false → j.kind.posts = false) →
      (copy = false → ∀ a b c acc tb list, j.kind = .mmab a b c acc tb list → s.softErrors = [] ∧
        s.FloorAllows (s.stampLoads p (granulesOf list 256) (s.tagTime p (s.jobReads p j ++ s.jobUpdates p j) j.fork)).1) →
      ∃ (t : State) (j' : Job), exec (.jobStart cluster copy) s = .next t ∧ j'.id = j.id ∧ j'.kind = j.kind ∧
        t.contexts = s.contexts ∧ t.runningJob p copy q' = some j' ∧
        SMap.at ((t.cluster p).engine copy).queues [] q' = js ∧
        (copy = false → (∀ a b c acc tb list, j.kind ≠ .mmab a b c acc tb list) →
          ∀ g ∈ s.jobUpdates p j, (t.tag p g).v = false)) ∧
    (s.runningJob p copy q = some j → j.failed = none → j.thunk = none →
      (∀ time u, (jobWork copy p q j).run s = .ok time u → s.FloorAllows (u.assign time) →
        ∃ t, exec (.jobDone cluster copy queue) s = .next t ∧ t.runningJob p copy q = none ∧
          t.contexts = u.contexts ∧
          SMap.find (t.core (8 * p + q)).jobs (j.id.toNat % 4096) = some (1, 0, false, 0, time) ∧
          (copy = false → ∀ g ∈ u.jobUpdates p j, (t.tag p g).v = true)) ∧
      (∀ (f : Trap) u, (jobWork copy p q j).run s = .error (.trap f) u → s.FloorAllows u →
        ∃ t, exec (.jobFault cluster copy queue) s = .next t ∧ t.runningJob p copy q = none ∧
          (t.hbm, t.clusterMem, t.coreMem, t.chipMem) = (u.hbm, u.clusterMem, u.coreMem, u.chipMem) ∧
          SMap.find (t.core (8 * p + q)).jobs (j.id.toNat % 4096) =
            some (2, f.cause.code, false, f.faddr, ((u.runningJob p copy q).getD j).time) ∧
          (copy = false → ∀ g ∈ u.jobUpdates p j, (t.tag p g).v = true))) ∧
    (∀ cause link addr, s.runningJob p copy q = some j → j.failed = some (cause, link, addr) → j.thunk = none →
      ∃ t, exec (.jobFault cluster copy queue) s = .next t ∧ t.runningJob p copy q = none ∧ t.contexts = s.contexts ∧
        (t.hbm, t.clusterMem, t.coreMem, t.chipMem) = (s.hbm, s.clusterMem, s.coreMem, s.chipMem) ∧
        SMap.find (t.core (8 * p + q)).jobs (j.id.toNat % 4096) = some (2, cause, link, addr, j.time) ∧
        (copy = false → ∀ g ∈ s.jobUpdates p j, (t.tag p g).v = true))) ∧
  ∀ (p : Pred) (d a : XReg) (cause : BitVec 8) (link : Bool) (addr : Word) (time : Ts) (s : State),
    s.Ready → s.holds p = true →
    let core := s.active.core.toNat
    let id := (s.x a).toNat
    let known (st : JobStatus) : Prop := id / 2 ^ 12 % 16 = core % 8 ∧ SMap.find (s.core core).jobs (id % 2 ^ 12) = some st
    let joined := s.mapMe fun k => { k with pts := tsMax k.pts time }
    (known (0, cause, link, addr, time) →
      exec (.mjpoll p d a) s =
        .next ((s.setX d (BitVec.ofNat 64 (link.toNat * 2 ^ 16 + cause.toNat * 2 ^ 8))).retire .seq) ∧
      exec (.mjwait p a) s = .next (s.mapMe fun k => { k with run := .waiting, wait := .join, last := .waited })) ∧
    (known (1, cause, link, addr, time) →
      exec (.mjpoll p d a) s =
        .next ((joined.setX d (BitVec.ofNat 64 (link.toNat * 2 ^ 16 + cause.toNat * 2 ^ 8 + 1))).retire .seq) ∧
      exec (.mjwait p a) s = .next (joined.retire .seq)) ∧
    (known (2, cause, link, addr, time) →
      exec (.mjpoll p d a) s =
        .next ((s.setX d (BitVec.ofNat 64 (link.toNat * 2 ^ 16 + cause.toNat * 2 ^ 8 + 2))).retire .seq) ∧
      exec (.mjwait p a) s = .next (s.raise s.active { cause := .engflt, faddr := addr })) ∧
    ((∀ st, ¬ known st) →
      exec (.mjpoll p d a) s = .next ((s.setX d 3).retire .seq) ∧ exec (.mjwait p a) s = .next (s.retire .seq))

/-! ## Handles (R235 to R257) -/

/-- `SUSP` within the allowance and the depth limit suspends its operation in the lowest free slot, with a reference
to each argument, and goes on; otherwise it gives its operation to the teller, which joins the arguments that are VALUE
and demands the first that is not, and when the work is done it makes a VALUE of its result in the lowest free slot and
joins it. `SUSPR` suspends its routine the same way, and otherwise demands its arguments and then its own thunk, whose
handle it writes; a RIDX beyond the table raises ILLOP, and formats that an operation does not take FMTMIX. `MKVAL` makes a
VALUE of its tile; without a slot it waits (R235, R241 to R245). What a waiting strict `SUSP` and `SUSPR` keep is the
model's reading (log 26). -/
def Obligations.ThunksAreMade : Prop :=
  ∀ (p : Pred) (d a b c : XReg) (op : Top) (cfmt : BitVec 5) (rm : Rm) (loc : Loc) (ridx : BitVec 16) (tr : TReg)
    (s : State), s.Ready → s.holds p = true →
    let cl := clusterOfCore s.active.core
    let ha := s.h a
    let hb := s.h b
    let hc := s.h c
    let hs := if op.unary then [ha] else [ha, hb]
    let tB := if op.unary then ({} : Tile) else (s.slotAt hb).tile
    let off := s.locOf loc
    let rs := [ha, hb, hc].filter (· ≠ 0)
    let counted (u : State) : State := u.mapMe fun k => { k with thunks := k.thunks + 1 }
    let all (l : List (BitVec 32)) : Prop := ∀ h ∈ l, ∃ k, s.HandleOk h k
    let ready (l : List (BitVec 32)) : Prop := ∀ h ∈ l, (s.slotAt h).state = .value
    let fresh : Prop := s.me.grant = .none ∧ s.me.wait = .none
    let awaited (h : BitVec 32) : Prop := (s.slotAt h).state = .suspended ∨
      ((s.slotAt h).state = .evaluating ∧ s.selfdep s.active 64 h = false)
    let working (t : State) (op : Option (Top × Rm × Tile)) (before after : List (BitVec 32)) (res : Tile) : Prop :=
      t.me = { s.me with run := .waiting, wait := .work res, last := .waited } ∧
      ∃ x ∈ t.demands, x.owner = some s.active ∧ x.fork = before.foldl (fun t h => tsMax t (s.slotAt h).time) s.me.pts ∧
        (match after with
          | [] => x.frames = []
          | h :: _ => x.frames = [(h, .marked)] ∨ ((s.slotAt h).state = .evaluating ∧ x.frames = [(h, .waiting)])) ∧
        x.work = some { cluster := cl, op := op, left := after
                        args := before.map fun h => (hCluster h, (s.slotAt h).tile), submitted := false }
    (fresh → all hs → (op = .mma → ∀ h ∈ hs, hCluster h = cl) →
      (topFormats op (s.slotAt ha).tile tB cfmt = false →
        exec (.susp p d op a b cfmt rm loc) s = .next (s.raise s.active { cause := .fmtmix })) ∧
      ∀ res, (formResult cl op (s.slotAt ha).tile tB cfmt off).run s = .ok res s →
        ((res.rows.toNat, res.cols.toNat, res.fmt) = topResult op (s.slotAt ha).tile tB cfmt ∧
          res.addr.toNat = off ∧ res.scale = 0) ∧
        (s.lazily hs = true → ∀ i, s.freeAt i →
          let k : HSlot :=
            { s.newSlot i with
              state := .suspended, depth := BitVec.ofNat 7 (s.depthOf hs), creator := some s.active
              argA := ha, argB := if op.unary then 0 else hb, top := some op, tile := res, rm := rm }
          exec (.susp p d op a b cfmt rm loc) s =
            .next (((counted (hs.foldl State.addRef (s.setSlot (s.newHandle i) k))).setX d
              ((s.newHandle i).setWidth 64)).retire .seq)) ∧
        (s.lazily hs = false → ∀ before after, hs = before ++ after → ready before →
          (∀ h r, after = h :: r → awaited h) →
          ∃ t : State, exec (.susp p d op a b cfmt rm loc) s = .next t ∧
            working t (some (op, rm, res)) before after res)) ∧
    (∀ res time tile i, s.me.wait = .work res → s.me.grant = .demanded time tile none → s.freeAt i →
      let u := s.mapMe fun k => { k with pts := tsMax k.pts time, grant := .none }
      let k : HSlot := { s.newSlot i with state := .value, top := some op, tile := res, rm := rm, time := time }
      exec (.susp p d op a b cfmt rm loc) s =
        .next (((u.setSlot (s.newHandle i) k).setX d ((s.newHandle i).setWidth 64)).retire .seq)) ∧
    (fresh → (s.launchAt s.active).routines.length ≤ ridx.toNat →
      exec (.suspr p d a b c ridx) s = .next (s.raise s.active { cause := .illop })) ∧
    (fresh → ridx.toNat < (s.launchAt s.active).routines.length → all rs → s.lazily rs = false →
      ∀ before h after, rs = before ++ h :: after → ready before → awaited h →
        ∃ t : State, exec (.suspr p d a b c ridx) s = .next t ∧ working t none before (h :: after) {}) ∧
    (∀ h time tile, s.me.wait = .demand (some h) → s.me.grant = .demanded time tile none →
      exec (.suspr p d a b c ridx) s = .next
        (((s.mapMe fun k => { k with pts := tsMax k.pts time, grant := .none }).setX d (h.setWidth 64)).retire .seq)) ∧
    (fresh → ridx.toNat < (s.launchAt s.active).routines.length → all rs → ∀ i, s.freeAt i →
      (s.lazily rs = true →
        let k : HSlot :=
          { s.newSlot i with
            state := .suspended, depth := BitVec.ofNat 7 (s.depthOf rs), creator := some s.active
            routine := true, argA := ha, argB := hb, argC := hc, ridx := ridx }
        exec (.suspr p d a b c ridx) s =
          .next (((counted (rs.foldl State.addRef (s.setSlot (s.newHandle i) k))).setX d
            ((s.newHandle i).setWidth 64)).retire .seq)) ∧
      (s.lazily rs = false → ready rs →
        ∃ t : State, exec (.suspr p d a b c ridx) s = .next t ∧ t.me.run = .waiting ∧ t.me.pc = s.me.pc ∧
          t.me.regs = s.me.regs ∧ (t.slotAt (s.newHandle i)).state = .evaluating ∧
          (t.slotAt (s.newHandle i)).ridx = ridx ∧ (t.slotAt (s.newHandle i)).argA = ha)) ∧
    (s.TileOk (s.t tr) → ∀ i, s.freeAt i →
      let k : HSlot :=
        { s.newSlot i with
          state := .value, tile := { s.t tr with addr := BitVec.ofNat 64 ((s.t tr).addr.toNat % 2 ^ 19) }, time := s.me.pts }
      exec (.mkval p d tr) s =
        .next (((s.setSlot (s.newHandle i) k).setX d ((s.newHandle i).setWidth 64)).retire .seq)) ∧
    (s.TileOk (s.t tr) → freeSlot (s.cluster cl) 2048 0 = none → exec (.mkval p d tr) s = .next (s.waits .room))

/-- `FORCE` and `HTILE` join a VALUE, `HTILE` giving its tile; a SUSPENDED thunk is marked EVALUATING by its demand, which
the context waits for, and whose time or fault ends the wait. `HSTAT` gives the state, `DUP` counts one more reference, a
`DROP` one fewer, freeing a VALUE when none is left, retiring its slot at the last generation, and a suspended thunk with its
references and its place in its creator's count, while one under evaluation is marked to be freed at its end; `SPARK` adds a
suspended thunk to the sparks of its home while these are fewer than 64; `RESULT` ends a borrowed context's thunk. A thunk
whose evaluation waits on the context raises SELFDEP. A stale handle raises HSTALE, one of a cluster outside the launch
WINDOW, with the handle (R235 to R237, R246 to R252, R257). That a demand marks its thunk at once is the model's choice (log
27). -/
def Obligations.HandlesAreUsed : Prop :=
  ∀ (p : Pred) (d a : XReg) (t : TReg) (i : Nat) (s : State),
    let h := s.h a
    let cl := clusterOfCore s.active.core
    (s.Ready → s.holds p = true →
      (∀ k, s.HandleOk h k →
        (s.me.grant = .none → k.state = .value →
          exec (.force p a) s = .next ((s.joins k.time).retire .seq) ∧
          exec (.htile p t a) s =
            .next (((s.joins k.time).setT t
              { k.tile with addr := clusterWindow (hCluster h) + BitVec.ofNat 64 k.tile.off }).retire .seq)) ∧
        (s.me.grant = .none → k.state = .suspended →
          (exec (.force p a) s = .next ((s.pushDemand h).waits (.demand none)) ∧
           exec (.htile p t a) s = .next ((s.pushDemand h).waits (.demand none))) ∧
          ((s.pushDemand h).slotAt h).state = .evaluating ∧ ((s.pushDemand h).slotAt h).owner = some s.active ∧
          ∃ x ∈ (s.pushDemand h).demands, x.owner = some s.active ∧ x.frames = [(h, .marked)] ∧ x.fork = s.me.pts) ∧
        (s.me.grant = .none → k.state = .evaluating →
          (k.owner = some s.active ∨ s.selfdep s.active 64 h = true →
            exec (.force p a) s = .next (s.raise s.active { cause := .selfdep, faddr := h.setWidth 64 }) ∧
            exec (.htile p t a) s = .next (s.raise s.active { cause := .selfdep, faddr := h.setWidth 64 })) ∧
          (s.selfdep s.active 64 h = false →
            exec (.force p a) s = .next ((s.pushDemand h).waits (.demand none)) ∧
            exec (.htile p t a) s = .next ((s.pushDemand h).waits (.demand none)))) ∧
        (k.state = .value → exec (.hstat p d a) s = .next (((s.joins k.time).setX d 3).retire .seq)) ∧
        (k.state = .suspended → exec (.hstat p d a) s = .next ((s.setX d 1).retire .seq)) ∧
        (k.state = .evaluating → exec (.hstat p d a) s = .next ((s.setX d 2).retire .seq)) ∧
        exec (.dup p a) s = .next ((s.setSlot h { k with
          refcnt := if k.refcnt = 0xFFFF then k.refcnt else k.refcnt + 1 }).retire .seq) ∧
        (hCluster h = cl →
          (k.refcnt = 0xFFFF → exec (.drop p a) s = .next (s.retire .seq)) ∧
          (1 < k.refcnt.toNat → k.refcnt ≠ 0xFFFF →
            exec (.drop p a) s = .next ((s.setSlot h { k with refcnt := k.refcnt - 1 }).retire .seq)) ∧
          (k.refcnt = 1 → k.state = .value → k.gen ≠ 2047 →
            exec (.drop p a) s = .next ((s.setSlot h { gen := k.gen + 1, tile := k.tile }).retire .seq)) ∧
          (k.refcnt = 1 → k.state = .value → k.gen = 2047 →
            exec (.drop p a) s = .next ((s.setSlot h { gen := 2047, tile := k.tile, retired := true }).retire .seq)) ∧
          (k.refcnt.toNat ≤ 1 → k.state = .evaluating →
            exec (.drop p a) s = .next ((s.setSlot h { k with refcnt := 0, spent := true }).retire .seq)) ∧
          (k.refcnt = 1 → k.state = .suspended → k.gen ≠ 2047 →
            let freed := s.setSlot h { gen := k.gen + 1, tile := k.tile }
            let counted := match k.creator with
              | some c => freed.mapCtx c fun x => { x with thunks := x.thunks - 1 }
              | none => freed
            exec (.drop p a) s = .next (([k.argA, k.argB, k.argC].foldl (fun u r => u.dropRef 129 r) counted).retire
              .seq))) ∧
        (hCluster h ≠ cl → exec (.drop p a) s = .next
          (({ s with remoteDrops := s.remoteDrops ++ [{ handle := h, by_ := s.active }] } : State).retire .seq)) ∧
        (k.state = .suspended → (s.cluster (hCluster h)).sparks.length < 64 →
          exec (.spark p a) s = .next ((s.mapCluster (hCluster h) fun u =>
            { u with sparks := u.sparks ++ [(h, s.me.pts, s.queueOf cl)] }).retire .seq)) ∧
        (k.state ≠ .suspended ∨ 64 ≤ (s.cluster (hCluster h)).sparks.length →
          exec (.spark p a) s = .next ((s.mapCluster (hCluster h) id).retire .seq))) ∧
      (∀ time tile, s.me.grant = .demanded time tile none →
        let joined := s.mapMe fun k => { k with pts := tsMax k.pts time, grant := .none }
        exec (.force p a) s = .next (joined.retire .seq) ∧
        exec (.htile p t a) s = .next ((joined.setT t
          { tile with addr := clusterWindow (hCluster h) + BitVec.ofNat 64 tile.off }).retire .seq)) ∧
      (∀ time tile f, s.me.grant = .demanded time tile (some f) →
        exec (.force p a) s = .next (s.raise s.active { f with demanded := true }) ∧
        exec (.htile p t a) s = .next (s.raise s.active { f with demanded := true })) ∧
      (h = 0 →
        exec (.hstat p d a) s = .next ((s.setX d 0).retire .seq) ∧ exec (.dup p a) s = .next (s.retire .seq) ∧
        exec (.drop p a) s = .next (s.retire .seq) ∧ exec (.spark p a) s = .next (s.retire .seq)) ∧
      (h ≠ 0 → s.me.grant = .none → s.softErrors = [] → (∀ r ∈ s.remoteDrops, r.by_ ≠ s.active) →
        ((s.launchAt s.active).clusters.contains (hCluster h) = false →
          ∀ i, i = .force p a ∨ i = .htile p t a ∨ i = .hstat p d a ∨ i = .dup p a ∨ i = .spark p a ∨ i = .drop p a →
            exec i s = .next (s.raise s.active { cause := .window, faddr := h.setWidth 64 })) ∧
        ((s.launchAt s.active).clusters.contains (hCluster h) = true → s.slotOf h = none →
          exec (.hstat p d a) s = .next ((s.setX d 0).retire .seq) ∧
          ∀ i, i = .force p a ∨ i = .htile p t a ∨ i = .dup p a ∨ i = .spark p a ∨ i = .drop p a →
            exec i s = .next (s.raise s.active { cause := .hstale, faddr := h.setWidth 64 }))) ∧
      (s.me.borrowed = none → exec (.result p t) s = .next (s.raise s.active { cause := .illop })) ∧
      (∀ q slot, s.me.borrowed = some (q, slot) → s.TileOk (s.t t) →
        let w := s.handle q slot
        let ended := ((s.setSlot w { s.slotAt w with
          tile := { s.t t with addr := BitVec.ofNat 64 ((s.t t).addr.toNat % 2 ^ 19) } }).endFrame w s.me.pts none)
        let freed := (ended.freeCtx s.active).recheckEpisodes (s.queueOf cl)
        s.FloorAllows freed → exec (.result p t) s = .next (freed.mapMe fun k => { k with last := .done }))) ∧
    (∀ r, s.remoteDrops[i]? = some r →
      (∀ x ∈ s.remoteDrops.take i, x.by_ = r.by_ → hCluster x.handle ≠ hCluster r.handle) → s.slotOf r.handle = none →
      exec (.remoteDrop i) s = .next { s with remoteDrops := s.remoteDrops.eraseIdx i }) ∧
    (∀ r k, s.remoteDrops[i]? = some r →
      (∀ x ∈ s.remoteDrops.take i, x.by_ = r.by_ → hCluster x.handle ≠ hCluster r.handle) →
      s.slotOf r.handle = some k → 1 < k.refcnt.toNat → k.refcnt ≠ 0xFFFF →
      exec (.remoteDrop i) s = .next (({ s with remoteDrops := s.remoteDrops.eraseIdx i } : State).setSlot r.handle
        { k with refcnt := k.refcnt - 1 }))

/-- The elements that the teller's own operations give (R243). `ADD`, `SUB`, `MUL` and `SCALE`, by the one element of B,
compute each element as the scalar instruction of their format does, integers modulo 2^w; `CONVERT` converts the value of the
element, with its scale; `TRANSPOSE` copies the bits; `MAXROW` gives the greatest element of the row, -0 below +0 and NaNs
passed over; `SUMROW` adds the row by the tree of R106, inactive beyond its last column, integers modulo 2^w. Every element
is formed from what stood before the operation, which waits until its arguments are valid and its result fillable. -/
def OperationsOfTheTeller : Prop :=
  ∀ (t : Thread) (p : Nat) (op : Top) (rm : Rm) (pa pb : Nat) (a b res : Tile) (args : List (Nat × Tile)) (fork : Ts) (s : State),
    s.softErrors = [] → (args = [(pa, a)] ∨ args = [(pa, a), (pb, b)]) →
    (∀ x ∈ args, s.valid x.1 x.2.granules = true) → s.fillable p res.granules = true →
    let mode : Mode := match rm with
      | .rne | .dyn => .rne | .rtz => .rtz | .rdn => .rdn | .rup => .rup | .rna => .rna
    let x (i j : Nat) : Nat := a.bits s.clusterMem pa i j
    let y (i j : Nat) : Nat := b.bits s.clusterMem pb i j
    let W := a.width
    ∃ (elem : Nat → Nat → Nat) (time : Ts) (u : State), (evaluateTop t p op rm args res fork).run s = .ok time u ∧
      u.clusterMem = res.writeAll s.clusterMem p (fun i j => some (elem i j)) ∧
      (∀ g ∈ res.granules, (u.tag p g).v = true ∧ (u.tag p g).c = false ∧ (u.tag p g).time = time) ∧
      (op = .transpose → ∀ i j, elem i j = x j i) ∧
      (op = .convert → ∀ i j, elem i j = ((fmtOf res.fmt).encode false mode (a.value s.clusterMem pa false i j)).1) ∧
      (∀ F, fmtOf a.fmt = .float F →
        (args = [(pa, a), (pb, b)] →
          (op = .add → ∀ i j, elem i j = (fpAdd F mode (F.decode (x i j)) (F.decode (y i j))).1) ∧
          (op = .sub → ∀ i j, elem i j = (fpAdd F mode (F.decode (x i j)) (F.decode (y i j)).neg).1) ∧
          (op = .mul → ∀ i j, elem i j = (fpMul F mode (F.decode (x i j)) (F.decode (y i j))).1) ∧
          (op = .scale → ∀ i j, elem i j = (fpMul F mode (F.decode (x i j)) (F.decode (y 0 0))).1)) ∧
        (op = .maxrow → ∀ i,
          ((∀ k, k < a.cols.toNat → (F.decode (x i k)).isNan = true) → 1 ≤ a.cols.toNat → elem i 0 = F.canonicalNan) ∧
          ((∃ k, k < a.cols.toNat ∧ (F.decode (x i k)).isNan = false) →
            ∃ m, m < a.cols.toNat ∧ elem i 0 = x i m ∧ (F.decode (x i m)).isNan = false ∧
              ∀ k, k < a.cols.toNat → (F.decode (x i k)).isNan = false →
                (F.decode (x i k)).real ≤ (F.decode (x i m)).real ∧
                ((F.decode (x i k)).real = (F.decode (x i m)).real → x i m / 2 ^ (F.exp + F.mant) = 1 →
                  x i k / 2 ^ (F.exp + F.mant) = 1))) ∧
        (op = .sumrow → a.cols.toNat ≤ 128 → ∀ i K, a.cols.toNat ≤ 2 ^ K → (∀ l, a.cols.toNat ≤ 2 ^ l → K ≤ l) →
          ∃ tree : Nat → Nat → Option Nat,
            (∀ k, tree 0 k = if k < a.cols.toNat then some (x i k) else none) ∧
            (∀ l k, tree (l + 1) k = match tree l (2 * k), tree l (2 * k + 1) with
              | some m, some n => some (fpAdd F mode (F.decode m) (F.decode n)).1
              | some m, none => some m
              | none, z => z) ∧
            elem i 0 = (tree K 0).getD 0)) ∧
      ((fmtOf a.fmt).isInt = true →
        (args = [(pa, a), (pb, b)] →
          (op = .add → ∀ i j, elem i j = (x i j + y i j) % 2 ^ W) ∧
          (op = .sub → ∀ i j, elem i j = (x i j + (2 ^ W - y i j % 2 ^ W)) % 2 ^ W) ∧
          (op = .mul → ∀ i j, elem i j = x i j * y i j % 2 ^ W) ∧ (op = .scale → ∀ i j, elem i j = x i j * y 0 0 % 2 ^ W)) ∧
        (op = .maxrow → 1 ≤ a.cols.toNat → ∀ i, ∃ m, m < a.cols.toNat ∧ elem i 0 = x i m ∧
          ∀ k, k < a.cols.toNat → (BitVec.ofNat W (x i k)).toInt ≤ (BitVec.ofNat W (x i m)).toInt) ∧
        (op = .sumrow → ∀ i, elem i 0 = ((List.range a.cols.toNat).map (x i)).sum % 2 ^ W))

/-- The teller serves the first demand in its order: it marks a suspended thunk EVALUATING, demands the first argument that
is not VALUE, or is stale, so that it faults with HSTALE, and performs the operation of a thunk whose arguments are all
VALUE: itself, which takes the next step to the end of its evaluation, as a queue-8 job for a product, or on the lowest free
context of the cluster for a routine, which begins with the arguments and the coordinates in its registers. It demands the
arguments of a strict `SUSP` or `SUSPR` in turn, and performs the operation of a `SUSP`. At the end of an evaluation the slot
becomes VALUE with its time, its argument references go, its creator counts one less, and every demand that waits for it goes
on, or the slot is freed where its count has reached zero meanwhile; at its fault the slot is SUSPENDED again and the demand
ends with the fault. A spark starts when no demand has an operation ready (R241 to R243, R245, R246, R248 to R250, R253).
That a demand is served from the cycle after it was made, and sparks last, is the model's choice (log 27). -/
def Obligations.TellerEvaluates : Prop :=
  OperationsOfTheTeller ∧
  ∀ (cluster : BitVec 10) (i : Nat) (d : Demand) (more : List Nat) (h : BitVec 32) (st : FrameState)
    (rest : List (BitVec 32 × FrameState)) (s : State),
    let p := cluster.toNat
    let step : Instr := .tellerOperation cluster
    let served : Prop := s.tellerOn p = true ∧ s.demandOrder = i :: more ∧ s.demands[i]? = some d ∧ d.at_ < s.clock ∧
      s.softErrors = []
    let queue8 (t : State) (for_ : Evaluates) (A B C : Tile) (fork : Ts) : Prop :=
      ∃ j : Job, SMap.at (t.cluster p).matrix.queues [] 8 = SMap.at (s.cluster p).matrix.queues [] 8 ++ [j] ∧
        j.kind = .mma A B (.tile C) false false none ∧ j.thunk = some for_ ∧ j.fork = fork ∧ j.queue = d.queue
    let ends (u : State) (t : Ts) (tile : Tile) (f : Option Trap) : State :=
      ({ u with demands := u.demands.eraseIdx i } : State).grantDemand d.owner t tile f
    (served → d.frames = (h, st) :: rest → hCluster h = p →
      let k := s.slotAt h
      let at_ (frames : List (BitVec 32 × FrameState)) (t : State) : Prop :=
        t.demands = s.demands.set i { d with frames := frames }
      let args := k.args.filter (· ≠ 0)
      let tiles := args.map fun a => (s.slotAt a).tile.at_ (hCluster a) (s.slotAt a).tile.off
      let res := k.tile.at_ p k.tile.off
      let fork := args.foldl (fun t a => tsMax t (s.slotAt a).time) d.fork
      (st = .open → s.slotOf h = some k → k.state = .suspended →
        ∃ t : State, exec step s = .next t ∧ at_ ((h, .marked) :: rest) t ∧
          (t.slotAt h).state = .evaluating ∧ t.contexts = s.contexts) ∧
      (st = .open → s.slotOf h = some k → k.state = .value → rest ≠ [] → exec step s = .next (s.setFrames i d rest)) ∧
      (st = .open → s.slotOf h = some k → k.state = .value → rest = [] → d.work = none →
        exec step s = .next (ends s k.time k.tile none)) ∧
      (st = .open → s.slotOf h = none → rest = [] →
        exec step s = .next (ends s 0 {} (some { cause := .hstale, faddr := h.setWidth 64 }))) ∧
      (∀ w, st = .open → s.slotOf h = some k → k.state = .value → rest = [] → d.work = some w →
        exec step s = .next { s with demands := s.demands.set i { d with
          frames := [], fork := tsMax d.fork k.time
          work := some { w with left := w.left.drop 1, args := w.args ++ [(p, k.tile)] } } }) ∧
      (∀ a, st = .marked → k.strict = false → (k.args.find? fun a => a ≠ 0 ∧ (s.slotOf a).all (·.state ≠ .value)) = some a →
        exec step s = .next (s.setFrames i d ((a, .open) :: d.frames))) ∧
      (st = .marked → (∀ a ∈ k.args, a = 0 ∨ k.strict = true ∨ ∃ x, s.slotOf a = some x ∧ x.state = .value) →
        (∀ op time u, k.routine = false → k.top = some op → op ≠ .mma →
          (evaluateTop (s.evalThread p d) p op k.rm (args.map fun a =>
            (hCluster a, (s.slotAt a).tile.at_ (hCluster a) (s.slotAt a).tile.off)) res fork).run s = .ok time u →
          s.FloorAllows u → exec step s = .next (u.setFrames i d ((h, .ended time none) :: rest))) ∧
        (∀ A B r, k.routine = false → k.top = some .mma → tiles = A :: B :: r →
          (SMap.at (s.cluster p).matrix.queues [] 8).length < 16 →
          ∃ t : State, exec step s = .next t ∧ at_ ((h, .running) :: rest) t ∧ t.contexts = s.contexts ∧
            queue8 t (.thunk (BitVec.ofNat 11 (hSlot h))) A B res fork) ∧
        (∀ c others entry, k.routine = true → s.freeContexts p = c :: others →
          (s.launch (s.queueOf p)).routines[k.ridx.toNat]? = some entry → pcOk entry = true →
          ∃ t : State, exec step s = .next t ∧ at_ ((h, .running) :: rest) t ∧ (∀ x, x ≠ c → t.ctx x = s.ctx x) ∧
            (t.ctx c).run = .running ∧ (t.ctx c).pc = entry ∧ (t.ctx c).pts = tsMax (s.ctx c).pts fork ∧
            (t.ctx c).borrowed = some (p, BitVec.ofNat 11 (hSlot h)) ∧
            ∀ n (r : XReg), r.toNat = 4 + n → n < 7 → (t.ctx c).regs.x[r.toNat] =
              ([k.argA.setWidth 64, k.argB.setWidth 64, k.argC.setWidth 64] ++ k.coord.toList).getD n 0))) ∧
    (∀ w : Strict, served → d.frames = [] → d.work = some w → w.cluster = p → w.submitted = false →
      let tiles := w.args.map fun e => e.2.at_ e.1 e.2.off
      (∀ a r, w.left = a :: r → exec step s = .next (s.setFrames i d [(a, .open)])) ∧
      (w.left = [] → w.op = none → exec step s = .next (ends s d.fork {} none)) ∧
      (∀ op rm res time u, w.left = [] → w.op = some (op, rm, res) → op ≠ .mma →
        (evaluateTop (s.evalThread p d) p op rm (w.args.map fun e => (e.1, e.2.at_ e.1 e.2.off)) (res.at_ p res.off)
          d.fork).run s = .ok time u → s.FloorAllows u → exec step s = .next (ends u time {} none)) ∧
      (∀ rm res A B r c, w.left = [] → w.op = some (.mma, rm, res) → tiles = A :: B :: r → d.owner = some c →
        (SMap.at (s.cluster p).matrix.queues [] 8).length < 16 →
        ∃ t : State, exec step s = .next t ∧ t.contexts = s.contexts ∧
          t.demands = s.demands.set i { d with work := some { w with submitted := true } } ∧
          queue8 t (.strict c) A B (res.at_ p res.off) d.fork)) ∧
    (∀ (slot : BitVec 11) (t : Ts) (f : Option Trap), h = s.handle p slot → s.demands[i]? = some d →
      d.frames = (h, .ended t f) :: rest →
      (∀ j x g u e r, j < i → s.demands[j]? = some x → x.frames = (g, .ended u e) :: r → g ≠ h) →
      let k := s.slotAt h
      (f = none →
        let valued := s.setSlot h (if k.spent then
            (if k.gen = 2047 then { gen := 2047, tile := k.tile, retired := true } else { gen := k.gen + 1, tile := k.tile })
          else { k with
            state := .value, depth := 0, argA := 0, argB := 0, argC := 0, owner := none, creator := none, time := t
            strict := false })
        let counted := match k.creator with
          | some c => valued.mapCtx c fun x => { x with thunks := x.thunks - 1 }
          | none => valued
        let dropped := [k.argA, k.argB, k.argC].foldl State.drop counted
        let waits (x : Demand) : Prop := ∃ r, x.frames = (h, .waiting) :: r ∨ ∃ t f, x.frames = (h, .ended t f) :: r
        ∃ u : State, exec (.evaluationComplete cluster slot) s = .next u ∧ u.clusters = dropped.clusters ∧
          (∀ x ∈ s.demands, ¬ waits x → x ∈ u.demands) ∧
          (∀ x ∈ s.demands, ∀ g b r, x.frames = (h, g) :: b :: r → waits x → { x with frames := b :: r } ∈ u.demands) ∧
          (∀ x ∈ s.demands, ∀ g w, x.frames = [(h, g)] → waits x → x.work = some w →
            { x with frames := [], fork := tsMax x.fork t
                     work := some { w with left := w.left.drop 1, args := w.args ++ [(p, k.tile)] } } ∈ u.demands) ∧
          (∀ x ∈ s.demands, ∀ g c a, x.frames = [(h, g)] → waits x → x.work = none → x.owner = some c →
            (s.ctx c).wait = .demand a → u.ctx c = { dropped.ctx c with grant := .demanded t k.tile none }) ∧
          ∀ c, (∀ x ∈ s.demands, waits x → x.owner ≠ some c) → u.ctx c = dropped.ctx c) ∧
      (∀ e, f = some e → rest = [] → k.state = .evaluating → k.spent = false → k.strict = false →
        (∀ x ∈ s.demands, ∀ r, x.frames ≠ (h, .waiting) :: r) →
        exec (.evaluationComplete cluster slot) s =
          .next ((ends s 0 {} (some e)).setSlot h { k with state := .suspended, owner := none }))) ∧
    (∀ (pts : Ts) (q : BitVec 6) (r : List (BitVec 32 × Ts × BitVec 6)), s.tellerOn p = true →
      s.tellerStep p s.demandOrder = none → (s.cluster p).sparks = (h, pts, q) :: r →
      let popped := s.mapCluster p fun u => { u with sparks := r }
      (∀ k, s.slotOf h = some k → k.state = .suspended → k.routine = false ∨ s.freeContexts p ≠ [] →
        exec (.sparkStart cluster) s = .next { popped with
          demands := s.demands ++ [{ owner := none, at_ := s.clock, queue := q, fork := pts, frames := [(h, .open)] }] }) ∧
      (∀ k, s.slotOf h = some k → k.state = .suspended → k.routine = true → s.freeContexts p = [] →
        exec (.sparkStart cluster) s = .next s) ∧
      (s.slotOf h = none ∨ (s.slotAt h).state ≠ .suspended → exec (.sparkStart cluster) s = .next popped))

/-! ## Purses (R258 to R271) -/

/-- A cell's bits give the cell back, and additions to a cell end alike in every order: ACC moves by the sum of their
counts modulo 2^124 and the flags by the OR of what each sets (R259 to R261). -/
def Obligations.CellsAddInAnyOrder : Prop :=
  (∀ c : Cell, Cell.ofBits c.bits = c ∧ c.bits < 2 ^ 128) ∧
  ∀ (l : Int) (c : Cell) (vs ws : List FV), vs.Perm ws →
    let sum (l : Int) (c : Cell) (vs : List FV) : Cell := vs.foldl (fun c v => c.addend l v) c
    sum l c vs = sum l c ws ∧
    (sum l c vs).acc = c.acc + ((vs.map fun v => (Cell.zero.addend l v).acc).foldl (· + ·) 0) ∧
    ((sum l c vs).nan = true ↔ c.nan = true ∨ ∃ v ∈ vs, v.isNan = true) ∧
    ((sum l c vs).pin = true ↔ c.pin = true ∨ ∃ v ∈ vs, v = .inf false) ∧
    ((sum l c vs).nin = true ↔ c.nin = true ∨ ∃ v ∈ vs, v = .inf true) ∧
    ((sum l c vs).aov = true ↔ c.aov = true ∨ ∃ v ∈ vs, (Cell.zero.addend l v).aov = true)

/-- `PADD`, `PCLR`, `PSET` and each active element of a `PADDV` are posted to their cell and the context goes on; an
address that is no multiple of 16 raises ALIGN, a window address WINDOW, a page that is no purse PERM and a cell of an assay
range ASSAYW, ACC 4 (R103). `PFENCE`
waits for the context's posted operations and joins them, and `PRAW` reads the cell's bits at its home. An operation
is applied whole at the home, as the first of its poster on its cell, and its acknowledgement returns the write
timestamp (R264 to R268, R271). -/
def Obligations.PurseOperations : Prop :=
  (∀ (p : Pred) (v : View) (u : Bool) (a c : XReg) (b cv d : VReg) (sh : BitVec 3) (imm : Imm48) (s t : State), s.Ready →
    let va := s.x a + imm.signExtend 64
    let thread := s.threadOf s.active
    let posts (t : State) (pa : Nat) (l : BitVec 8) (op : PurseOp) : Posted :=
      { poster := .context t.active, queue := t.queueOf (clusterOfCore t.active.core), pa := BitVec.ofNat 52 pa, pexp := l, op := op
        pts := t.me.pts }
    (∀ cells, (locateCells (s.lanes p v fun i => va + (s.index v u b i <<< sh.toNat))).run s = .ok cells t →
      s.FloorAllows t →
      ∃ w : State, exec (.paddv p v u a b cv sh imm) s = .next (w.retire .seq) ∧
        w.posted = t.posted ++ cells.map (fun e =>
          posts t e.2.1 e.2.2 (.add v (BitVec.ofNat 64 (elem (t.v cv) v.width e.1)))) ∧
        w.me = { t.me with dout := t.me.dout + cells.length } ∧ w.SameBytes t) ∧
    (s.holds p = true →
      (s.me.dout = 0 → exec (.pfence p) s = .next ((s.joins s.me.ackTime).retire .seq)) ∧
      (s.me.dout ≠ 0 → exec (.pfence p) s = .next (s.waits .join)) ∧
      (∀ i, i = .padd p v a c imm ∨ i = .pclr p a imm ∨ i = .pset p v a c imm ∨ i = .praw p d a imm →
        (va.toNat % 16 ≠ 0 → exec i s = .next (s.raise s.active { cause := .align, faddr := va, acc := 4 })) ∧
        (va.toNat % 16 = 0 → isWindow va = true →
          exec i s = .next (s.raise s.active { cause := .window, faddr := va, acc := 4 }))) ∧
      (va.toNat % 16 = 0 → isWindow va = false →
        (∀ pl, (locate false thread .write 4 va va).run s = .ok pl t → (∀ pa l, pl ≠ .purse pa l) →
          ∀ i, i = .padd p v a c imm ∨ i = .pclr p a imm ∨ i = .pset p v a c imm →
            exec i s = .next (s.raise s.active { cause := .perm, faddr := va, acc := 4 })) ∧
        (∀ pa l, (locate false thread .write 4 va va).run s = .ok (.purse pa l) t → t.assayBytes pa 16 = true →
          ∀ i, i = .padd p v a c imm ∨ i = .pclr p a imm ∨ i = .pset p v a c imm →
            exec i s = .next (s.raise s.active { cause := .assayw, faddr := va, acc := 4 })) ∧
        (∀ pa l, (locate false thread .write 4 va va).run s = .ok (.purse pa l) t → t.assayBytes pa 16 = false →
          s.FloorAllows t →
          let sent (op : PurseOp) : State :=
            { t.mapMe (fun k => { k with dout := k.dout + 1 }) with posted := t.posted ++ [posts t pa l op] }
          exec (.padd p v a c imm) s = .next ((sent (.add v (t.x c))).retire .seq) ∧
          exec (.pclr p a imm) s = .next ((sent .clr).retire .seq) ∧
          exec (.pset p v a c imm) s = .next ((sent (.set v (t.x c))).retire .seq)) ∧
        (∀ pa l cell pts w, (locate false thread .read 4 va va).run s = .ok (.purse pa l) t → s.softErrors = [] →
          t.depositWritebacks.contains (pa / 128) = false → (loadCell pa s.me.pts).run t = .ok (cell, pts) w →
          s.FloorAllows w →
          cell = ((t.depositTouch (pa / 128)).depositLine (pa / 128)).cell (pa % 128) ∧
          exec (.praw p d a imm) s =
            .next (((w.setV d (BitVec.ofNat 1024 cell.bits)).returned false true pts).retire .seq))))) ∧
  (∀ (i : Nat) (o : Posted) (s : State), s.posted[i]? = some o → o.pa.toNat % 16 = 0 →
    let line := o.pa.toNat / 128
    let old := (s.depositTouch line).depositLine line
    let st := old.stamp.store o.pts
    s.softErrors = [] → s.depositWritebacks.contains line = false → (∀ x ∈ s.posted.take i, ¬ (x.poster = o.poster ∧ x.pa = o.pa)) →
    s.FloorAllows (s.assign st.wts) →
    ∃ t : State, exec (.postedOperationApply i) s = .next t ∧ t.posted = s.posted.eraseIdx i ∧
      t.acks = s.acks ++ [{ poster := o.poster, queue := o.queue, wts := st.wts }] ∧ (t.depositLine line).stamp = st ∧
      (t.depositLine line).cell (o.pa.toNat % 128) =
        (match o.op with
          | .add v w => (old.cell (o.pa.toNat % 128)).addend o.pexp.toInt ((viewFmt v).decode (w.toNat % 2 ^ (viewFmt v).width))
          | .clr => .zero
          | .set v w => Cell.zero.addend o.pexp.toInt ((viewFmt v).decode (w.toNat % 2 ^ (viewFmt v).width))) ∧
      ∀ k, k < 8 → 16 * k ≠ o.pa.toNat % 128 → (t.depositLine line).cell (16 * k) = old.cell (16 * k)) ∧
  (∀ (i : Nat) (c : CtxId) (q : BitVec 6) (w : Ts) (s : State),
    s.acks[i]? = some { poster := .context c, queue := q, wts := w } →
    exec (.purseAck i) s = .next ((({ s with acks := s.acks.eraseIdx i } : State).mapLaunch q fun l =>
      { l with forked := tsMax l.forked w }).mapCtx c fun k =>
      { k with dout := k.dout - 1, ackTime := tsMax k.ackTime w })) ∧
  ∀ (line : BitVec 45) (s : State),
    exec (.depositCacheWritebackDone line) s =
      .next { s with depositWritebacks := s.depositWritebacks.filter fun x => x ≠ line.toNat }

/-! ## Atomics, fences and event lines (R300 to R312) -/

/-- An atomic reads the old value at its point of coherence, in a window, in HBM or in the host line that the bridge owns,
and stores there, in one step, what its operation gives: the sum, the bit operations, the signed or unsigned lesser or
greater, or the operand; `AMO` gives the old value to x[D], `AMONR` to none. `CAS` stores x[C] where the old value is x[B],
and reads otherwise. An address that is no multiple of the size raises ALIGN, ACC 3 (R276, R300 to R302). -/
def Obligations.Atomics : Prop :=
  ∀ (p : Pred) (dbl : Bool) (d a b c : XReg) (imm : Imm48) (s u v : State) (pl : Place) (old : Nat), s.Ready →
    s.holds p = true →
    let va := s.x a + imm.signExtend 64
    let n := if dbl then 8 else 4
    let W := 8 * n
    let C := (s.x c).toNat % 2 ^ W
    let sg (x : Nat) : Int := (BitVec.ofNat W x).toInt
    let thread := s.threadOf s.active
    (locateStore thread .both 3 va n).run s = .ok pl u → (atomicOld thread va pl n).run u = .ok old v →
    (∀ space off, pl = .win space off → s.softErrors = [] → old = (s.winMem space).readN off n) ∧
    (∀ pa, pl = .mem pa → pa % 128 + n ≤ 128 → s.softErrors = [] → s.viewOf (pa / 128) = none →
      (∀ x ∈ s.l2, x.line = pa / 128 → x.view = none) → old = s.hbm.readN pa n) ∧
    (∀ ha x, pl = .host ha → s.hostLine (ha / 64) = some x →
      (x.state = .e ∨ x.state = .m) ∧ old = x.data.toNat / 2 ^ (8 * (ha % 64)) % 2 ^ W) ∧
    (let does (amo amonr : Instr) (new : Nat) : Prop :=
      ∀ out w, (storeUnit thread pl n new s.me.pts).run v = .ok out w → s.FloorAllows w →
        exec amo s = .next (((w.returned true true out).setX d (BitVec.ofNat 64 old)).retire .seq) ∧
        exec amonr s = .next ((w.returned true true out).retire .seq)
     does (.amoAdd p dbl d a c imm) (.amonrAdd p dbl a c imm) ((old + C) % 2 ^ W) ∧
     does (.amoAnd p dbl d a c imm) (.amonrAnd p dbl a c imm) (old &&& C) ∧
     does (.amoOr p dbl d a c imm) (.amonrOr p dbl a c imm) (old ||| C) ∧
     does (.amoXor p dbl d a c imm) (.amonrXor p dbl a c imm) (old ^^^ C) ∧
     does (.amoMin p dbl d a c imm) (.amonrMin p dbl a c imm) (if sg C < sg old then C else old) ∧
     does (.amoMax p dbl d a c imm) (.amonrMax p dbl a c imm) (if sg old < sg C then C else old) ∧
     does (.amoMinu p dbl d a c imm) (.amonrMinu p dbl a c imm) (min old C) ∧
     does (.amoMaxu p dbl d a c imm) (.amonrMaxu p dbl a c imm) (max old C) ∧
     does (.amoSwap p dbl d a c imm) (.amonrSwap p dbl a c imm) C) ∧
    (∀ out w, old = (s.x b).toNat % 2 ^ W → (storeUnit thread pl n C s.me.pts).run v = .ok out w → s.FloorAllows w →
      exec (.cas p dbl d a b c imm) s =
        .next (((w.returned true true out).setX d (BitVec.ofNat 64 old)).retire .seq)) ∧
    (∀ out w, old ≠ (s.x b).toNat % 2 ^ W → (homeLoad thread pl n s.me.pts).run v = .ok out w → s.FloorAllows w →
      exec (.cas p dbl d a b c imm) s =
        .next (((w.returned true true out).setX d (BitVec.ofNat 64 old)).retire .seq)) ∧
    (∀ a', (s.x a' + imm.signExtend 64).toNat % n ≠ 0 → ∀ i ∈ ([.amoAdd p dbl d a' c imm, .amonrAdd p dbl a' c imm,
        .amoAnd p dbl d a' c imm, .amonrAnd p dbl a' c imm, .amoOr p dbl d a' c imm, .amonrOr p dbl a' c imm,
        .amoXor p dbl d a' c imm, .amonrXor p dbl a' c imm, .amoMin p dbl d a' c imm, .amonrMin p dbl a' c imm,
        .amoMax p dbl d a' c imm, .amonrMax p dbl a' c imm, .amoMinu p dbl d a' c imm, .amonrMinu p dbl a' c imm,
        .amoMaxu p dbl d a' c imm, .amonrMaxu p dbl a' c imm, .amoSwap p dbl d a' c imm, .amonrSwap p dbl a' c imm,
        .cas p dbl d a' b c imm] : List Instr),
      exec i s = .next (s.raise s.active { cause := .align, faddr := s.x a' + imm.signExtend 64, acc := 3 }))

/-- `FENCE.SYS.ACQ` moves pts past both HMTS, `FENCE.SYS.REL` waits for SOUT = 0, and `FENCE.SYS` does both (R304).
Actions on an event line with no waiters are those of R308 in every mode, each ordered as R310 states; an `EVLD` that
cannot complete stands in the waiters; an `EVTRIG` of a FLAG line with waiters serves the oldest. `EVMSG.peer` sends a
message over a live link, or counts it as lost (R304, R306, R308 to R311, R339). x[D] of an `EVLD` of a BARRIER line,
and that an action without effect takes no time, are the model's reading (log 21). -/
def Obligations.FencesAndEventLines : Prop :=
  ∀ (p : Pred) (d a c : XReg) (node : BitVec 22) (s : State), s.Ready → s.holds p = true →
    let pts := s.me.pts
    let past := tsMax (tsMax pts (s.hmts0 + 1)) (s.hmts1 + 1)
    let passed := (s.mapMe fun k => { k with pts := past }).assign past
    let launch := s.launchAt s.active
    let who := s.lineName s.active
    let number := (s.x a).toNat / 2 ^ 6 % 2 ^ 10
    let q := launch.clusters.getD number 0
    let l : BitVec 6 := (s.x a).setWidth 6
    let e := s.line q l
    let st := e.stamp.store pts
    let acts (i : Instr) (e' : EventLine) : Prop :=
      exec i s = .next ((((s.setLine q l { e' with stamp := st }).assign st.wts).returned true true st.wts).retire .seq)
    let gets (value : Word) (e' : EventLine) (stamp : Stamp) (time : Ts) : Prop :=
      exec (.evld p d a) s =
        .next (((((s.setLine q l { e' with stamp := stamp }).assign time).joins time).setX d value).retire .seq)
    let stays (e' : EventLine) : Prop :=
      exec (.evld p d a) s =
        .next ((s.setLine q l { e' with waiters := e'.waiters ++ [{ ctx := s.active, gen := e.gen, counted := false }] }).waits
          (.event q l))
    let limit := max e.limit.toNat 1
    let top := tsMax e.arrivals pts
    let full := decide ((e.value + 1).toNat ≥ limit)
    let next : EventLine :=
      if full then { e with value := 0, gen := e.gen + 1, completed := top, arrivals := e.stamp.wts }
      else { e with value := e.value + 1, arrivals := top }
    (s.FloorAllows (s.assign past) → exec (.fenceSysAcq p) s = .next (passed.retire .seq)) ∧
    (s.me.sout = 0 → exec (.fenceSysRel p) s = .next (s.retire .seq) ∧
      (s.FloorAllows (s.assign past) → exec (.fenceSysFull p) s = .next (passed.retire .seq))) ∧
    (s.me.sout ≠ 0 → exec (.fenceSysRel p) s = .next (s.waits .join) ∧ exec (.fenceSysFull p) s = .next (s.waits .join)) ∧
    (∀ v t, s.me.grant = .event v t →
      exec (.evld p d a) s = .next (((s.joins t).setX d v).retire .seq)) ∧
    ((∀ v t, s.me.grant ≠ .event v t) → launch.nclus ≤ number →
      ∀ i, i = .evld p d a ∨ i = .evtrig p a ∨ i = .evtrigConf p a c ∨ i = .evmsg p a c →
        exec i s = .next (s.raise s.active { cause := .window, faddr := s.x a })) ∧
    ((∀ v t, s.me.grant ≠ .event v t) → number < launch.nclus → e.waiters = [] →
      s.FloorAllows (s.assign st.wts) → s.FloorAllows (s.assign (tsMax pts st.wts)) →
      (e.mode = .flag →
        acts (.evtrig p a) { e with value := 1 } ∧ acts (.evmsg p a c) { e with value := 1 } ∧
        (e.value = 1 → gets 1 { e with value := 0 } (st.load (tsMax pts st.wts)) (tsMax pts st.wts)) ∧
        (e.value ≠ 1 → stays e)) ∧
      (e.mode = .sem →
        (e.value = (if e.limit = 0 then 0xFFFF else e.limit) → acts (.evtrig p a) e) ∧
        (e.value ≠ (if e.limit = 0 then 0xFFFF else e.limit) →
          acts (.evtrig p a) { e with value := e.value + 1 }) ∧
        (e.value ≠ 0 → gets ((e.value - 1).setWidth 64) { e with value := e.value - 1 } (st.load (tsMax pts st.wts))
          (tsMax pts st.wts)) ∧
        (e.value = 0 → stays e)) ∧
      (e.mode = .mutex →
        (e.owner = some who → acts (.evtrig p a) { e with value := 0, owner := none }) ∧
        (e.owner ≠ some who → exec (.evtrig p a) s = .next (s.retire .seq)) ∧
        (e.value = 0 → gets 0 { e with value := 1, owner := some who } (st.load (tsMax pts st.wts))
          (tsMax pts st.wts)) ∧
        (e.value ≠ 0 → stays e)) ∧
      (e.mode = .msg →
        exec (.evtrig p a) s = .next (s.retire .seq) ∧
        (e.queue.length < 16 → acts (.evmsg p a c) { e with queue := e.queue ++ [s.x c] }) ∧
        (16 ≤ e.queue.length → exec (.evmsg p a c) s = .next (s.waits .room)) ∧
        (∀ m r, e.queue = m :: r → gets m { e with queue := r } (st.load (tsMax pts st.wts)) (tsMax pts st.wts)) ∧
        (e.queue = [] → stays e)) ∧
      (e.mode = .barrier →
        acts (.evtrig p a) next ∧
        (full = false → exec (.evld p d a) s = .next (((s.setLine q l { next with
          stamp := st, waiters := [{ ctx := s.active, gen := e.gen, counted := true }] }).assign st.wts).waits (.event q l))) ∧
        (full = true → s.FloorAllows ((s.assign st.wts).assign (tsMax (tsMax pts st.wts) top)) →
          ∃ t : State, exec (.evld p d a) s = .next t ∧ (t.line q l).value = 0 ∧ (t.line q l).gen = e.gen + 1 ∧
            t.me.pts = tsMax pts (tsMax (tsMax pts st.wts) top) ∧ t.me.pc = pcSucc s.me.pc ∧
            t.me.regs = ((s.setX d (e.gen.setWidth 64)).me).regs)) ∧
      ((s.x c).toNat % 8 ≤ 4 → acts (.evtrigConf p a c)
        { e with
          mode := match (s.x c).toNat % 8 with
            | 0 => .flag
            | 1 => .barrier
            | 2 => .sem
            | 3 => .mutex
            | _ => .msg
          value := (s.x c).extractLsb' 32 16, limit := (s.x c).extractLsb' 16 16, gen := 0, owner := none, queue := [] }) ∧
      (4 < (s.x c).toNat % 8 → exec (.evtrigConf p a c) s = .next (s.retire .seq))) ∧
    (∀ (w : LineWaiter) (more : List LineWaiter), number < launch.nclus → e.mode = .flag →
      e.waiters = w :: more → w.ctx ≠ s.active → (∀ x ∈ more, x.ctx ≠ w.ctx) →
      let pts2 := (s.ctx w.ctx).pts
      let st2 := st.store pts2
      s.FloorAllows ((s.assign st.wts).assign (tsMax pts2 st2.wts)) →
      ∃ t : State, exec (.evtrig p a) s = .next t ∧ (t.line q l).value = 0 ∧ (t.line q l).waiters = more ∧
        t.ctx w.ctx = { s.ctx w.ctx with grant := .event 1 (tsMax pts2 st2.wts) }) ∧
    (s.linkFor node ((s.x a).toNat % 2 ^ 16) = none →
      exec (.evmsgPeer p a c node) s = .next (({ s with pxlost := s.pxlost + 1 } : State).retire .seq)) ∧
    (∀ link, s.linkFor node ((s.x a).toNat % 2 ^ 16) = some link →
      ∃ t : State, exec (.evmsgPeer p a c node) s = .next (t.retire .seq) ∧ t.me = { s.me with sout := s.me.sout + 1 } ∧
        (∃ f : FabricFlit, t.out = s.out ++ [.flit link f] ∧ f.dest = node ∧ f.source = s.nodeid ∧ f.kind = .message ∧
          f.seq = SMap.at s.linkSeq 0 link ∧ f.target = ((s.x a).setWidth 16).setWidth 64 ∧ f.len = 8 ∧
          f.data = (s.x c).setWidth 1024) ∧ t.linkSeq = SMap.put s.linkSeq link (SMap.at s.linkSeq 0 link + 1) ∧
        t.flits = s.flits ++ [{ node := node, link := link, job := none, sender := s.active
                                peer := (s.x a).toNat % 2 ^ 16, local_ := 0, len := 0 }])

/-! ## Barriers and settlement (R313 to R326) -/

/-- `BAR`, `SETTLE` and `SDONE` make the checks of R315 in order, arrive at their domain and wait for the release; released,
`BAR` goes on, `SETTLE` goes to the line after its own in the settlement phase, and `SDONE` leaves it, with the trace records
of both. An arrival joins the first episode in which its core has not arrived; the first episode, once every member has
arrived or is exhausted, is released TREL cycles later, 8, 40 or 160 as its members lie in one cluster, in one die or across
dies, and its contexts join its greatest pts; one whose arrivals are not of one kind is not released: in the next cycle, the
model's choice (log 6), each of its contexts raises DOMAIN. The release of a SETTLE episode starts the phase with SCYC 0,
COLL with it, and the release of an SDONE episode ends it (R128, R313 to R315, R318, R324, R343). That COUNT in the record of
`SDONE` is that of the last arrival is the model's reading of R324 and R343 (log 21). -/
def Obligations.BarriersAndSettlement : Prop :=
  (∀ (p : Pred) (d : BitVec 4) (s : State), s.me.reply = none → s.holds p = true →
    let launch := s.launchAt s.active
    let q := s.queueOf (clusterOfCore s.active.core)
    let core := s.logicalCore s.active.core
    let member := (launch.domain d).member core
    let at_ (kind : ArrivalKind) : Arrival := { core := core, ctx := some s.active, kind := kind, pts := s.me.pts }
    let traced (u : State) (type : BitVec 4) (data : Word) : State :=
      u.trace launch.secure (dieOfCore s.active.core) type s.active (BitVec.ofNat 8 launch.sstep)
        (launch.plan.domain.setWidth 16) data launch.launchid 0
    let raises (i : Instr) (c : Cause) (fa : Word) : Prop := exec i s = .next (s.raise s.active { cause := c, faddr := fa })
    (s.me.inSettlement = true → raises (.bar p d) .phase (d.setWidth 64) ∧ raises (.settle p d) .phase (d.setWidth 64)) ∧
    (s.me.inSettlement = false → s.me.grant ≠ .released →
      raises (.sdone p) .phase 0 ∧
      (member = false → raises (.bar p d) .domain (d.setWidth 64) ∧ raises (.settle p d) .domain (d.setWidth 64)) ∧
      (member = true →
        exec (.bar p d) s = .next ((s.arriveAt q d (at_ .bar)).waits (.barrier d .bar)) ∧
        (d ≠ launch.plan.domain → raises (.settle p d) .domain (d.setWidth 64)) ∧
        (d = launch.plan.domain → launch.plan.settles = false ∨ (s.core s.active.core.toNat).settled = true →
          raises (.settle p d) .phase (d.setWidth 64)) ∧
        (d = launch.plan.domain → launch.plan.settles = true → (s.core s.active.core.toNat).settled = false →
          (nopsAfter s.me = false → raises (.settle p d) .illop 0) ∧
          (nopsAfter s.me = true → ∀ lines u, (settleLines 16 (lineOf s.me.pc + 64)).run s = .ok lines u →
            let loaded := (u.mapMe fun k => { k with settle := { k.settle with lines := lines } }).mapCore
              s.active.core.toNat fun k => { k with settled := true }
            u.active = s.active → s.FloorAllows u →
            exec (.settle p d) s = .next ((loaded.arriveAt (loaded.queueOf (clusterOfCore s.active.core)) d
              { core := loaded.logicalCore s.active.core, ctx := some s.active, kind := .settle, pts := loaded.me.pts }).waits
                (.barrier d .settle)))))) ∧
    (s.me.grant = .released →
      (s.me.inSettlement = false → exec (.bar p d) s = .next (s.retire .seq) ∧
        exec (.settle p d) s = .next ((traced (s.mapMe fun k => { k with
          settle := { k.settle with active := true, avail := [], nextIssue := 0 } }) 1
            (BitVec.ofNat 64 launch.plan.slen)).retire (.go (lineOf s.me.pc + 64) .plain))) ∧
      exec (.sdone p) s = .next ((traced (s.mapMe fun k => { k with
        settle := { k.settle with active := false, lines := [], avail := [] } }) 2
          (BitVec.ofBool s.me.settle.coll ++ BitVec.ofNat 63 s.me.settle.count)).retire .seq)) ∧
    (s.me.inSettlement = true → s.me.grant ≠ .released →
      exec (.sdone p) s = .next ((s.arriveAt q launch.plan.domain (at_ .sdone)).waits
        (.barrier launch.plan.domain .sdone)))) ∧
  (∀ (q : BitVec 6) (dom : BitVec 4) (a : Arrival) (e : List Arrival) (rest : List (List Arrival)) (s : State),
    let ep := SMap.at (s.launch q).episodes { waiting := [], completed := [] } dom.toNat
    let put (s : State) (ep : Episodes) : State :=
      s.mapLaunch q fun l => { l with episodes := SMap.put l.episodes dom.toNat ep }
    arriveIn a ep.waiting = e :: rest →
    let u := put s { ep with waiting := e :: rest }
    (u.episodeComplete (u.launch q) dom e = false → s.arriveAt q dom a = u) ∧
    (u.episodeComplete (u.launch q) dom e = true → rest = [] → (s.queue q).admitted.isSome = true →
      let t := s.arriveAt q dom a
      let left := SMap.at (t.launch q).episodes { waiting := [], completed := [] } dom.toNat
      (∀ kind, (∀ x ∈ e, x.kind = kind) →
        left = { waiting := [], completed := ep.completed ++ [(e, s.clock + (u.launch q).trel dom)] } ∧
        (t.launch q).settlement = if kind = .sdone then (s.launch q).settlement.map fun ph => { ph with ending := true }
          else (s.launch q).settlement) ∧
      ((∃ x ∈ e, ∃ y ∈ e, x.kind ≠ y.kind) →
        left = { waiting := [], completed := ep.completed ++ [(e, s.clock + 1)] } ∧
        (t.launch q).settlement = (s.launch q).settlement ∧ t.contexts = s.contexts))) ∧
  (∀ (l : Launch) (d : BitVec 4),
    let at_ (k : Nat) : Nat := l.clusters.getD (k / 8) 0
    let one (f : Nat → Nat) : Prop := ∀ j ∈ l.members d, ∀ k ∈ l.members d, f (at_ j) = f (at_ k)
    (one id → l.trel d = 8) ∧ (one dieOfCluster → ¬ one id → l.trel d = 40) ∧ (¬ one dieOfCluster → l.trel d = 160)) ∧
  ∀ (q : BitVec 6) (dom : BitVec 4) (es : List Arrival) (at_ : Nat) (rest : List (List Arrival × Nat)) (s : State),
    (SMap.at (s.launch q).episodes { waiting := [], completed := [] } dom.toNat).completed = (es, at_) :: rest →
    at_ ≤ s.clock → es ≠ [] → (es.filterMap (·.ctx)).Nodup →
    ((∃ x ∈ es, ∃ y ∈ es, x.kind ≠ y.kind) → ∃ t : State, exec (.episodeRelease q dom) s = .next t ∧
      (∀ x ∈ es, ∀ c, x.ctx = some c → t.ctx c = { s.ctx c with
        grant := .fault { cause := .domain, faddr := dom.setWidth 64 } }) ∧
      (∀ c, (∀ x ∈ es, x.ctx ≠ some c) → t.ctx c = s.ctx c) ∧
      ((s.queue q).admitted.isSome = true →
        (SMap.at (t.launch q).episodes { waiting := [], completed := [] } dom.toNat).completed = rest ∧
        (t.launch q).settlement = (s.launch q).settlement)) ∧
    ∀ kind, (∀ a ∈ es, a.kind = kind) →
    let top := es.foldl (fun t a => tsMax t a.pts) ((es.head?.map (·.pts)).getD 0)
    let begun := ((s.launch q).settlement.map (·.release)).getD 0
    ∃ t : State, exec (.episodeRelease q dom) s = .next t ∧
      (∀ a ∈ es, ∀ c, a.ctx = some c →
        t.ctx c = { s.ctx c with
          pts := tsMax (s.ctx c).pts top, grant := .released
          settle := match kind with
            | .bar => (s.ctx c).settle
            | .settle => { (s.ctx c).settle with coll := false }
            | .sdone => { (s.ctx c).settle with count := at_ - (s.launch q).trel dom - begun } }) ∧
      (∀ c, (∀ a ∈ es, a.ctx ≠ some c) → t.ctx c = s.ctx c) ∧
      ((s.queue q).admitted.isSome = true → (t.launch q).settlement = match kind with
        | .bar => (s.launch q).settlement
        | .settle => some { domain := dom, release := s.clock, ending := false }
        | .sdone => none)

/-- `SEND` and `RECV` raise PHASE outside a settlement phase, DOMAIN for a core outside the domain and SLOT for a slot
that is past or beyond SLEN, wait for their slot, and there send their data on the path of R322 or read the latest arrival
in their entry. A send reaches its entry in its arrival cycle, and is discarded after the phase; when COUNT reaches SLEN
each member context that has not issued `SDONE` raises SLOT. A send takes λ cycles and occupies the links of its route, column
first, the channel between the dies of its two ends, and the receive port, each in the cycle that R322 states; where sends
meet in a cycle, only that of the lowest core goes on, and the senders of the others have COLL (R321 to R324). That a link
has the number 4 x cluster + direction is the model's. -/
def Obligations.SettlementExchange : Prop :=
  (∀ (p : Pred) (vec : Bool) (a d : XReg) (buf : BitVec 4) (dcore : BitVec 13) (slot : BitVec 16) (s : State),
    let launch := s.launchAt s.active
    let send : Instr := .send p vec a buf dcore slot
    let recv : Instr := .recv p vec d buf slot
    let count := s.count launch
    let target := (launch.domain launch.plan.domain).member dcore.toNat = true ∧ dcore.toNat < 8 * launch.nclus
    let slotFault : Trap := { cause := .slot, faddr := slot.setWidth 64 }
    let bad := launch.plan.slen ≤ slot.toNat ∨ slot.toNat < count
    (s.me.inSettlement = false → ∀ i, i = send ∨ i = recv →
      exec i s = .next (s.raise s.active { cause := .phase, faddr := slot.setWidth 64 })) ∧
    (s.me.inSettlement = true → s.holds p = true →
      (¬ target → exec send s = .next (s.raise s.active { cause := .domain, faddr := dcore.setWidth 64 })) ∧
      (bad → exec recv s = .next (s.raise s.active slotFault) ∧
        (target → exec send s = .next (s.raise s.active slotFault))) ∧
      (¬ bad → count < slot.toNat → exec recv s = .next (s.waits .slot) ∧
        (target → exec send s = .next (s.waits .slot))) ∧
      (slot.toNat < launch.plan.slen → slot.toNat = count →
        (target →
          let dest := launch.physicalCore dcore.toNat
          let path := sendPath (clusterOfCore s.active.core) (clusterOfCore dest)
          exec send s = .next (({ s with
            sends := s.sends ++
              [{ queue := s.queueOf (clusterOfCore s.active.core), sender := s.active, dest := dest, buf := buf
                 data := if vec then s.v (a.setWidth 5) else (s.x a).setWidth 1024, arrives := s.clock + path.1
                 occupies := (path.2.map fun e => (e.1, s.clock + e.2)) ++
                   [(port dest.toNat, s.clock + path.1)] }] } : State).retire .seq)) ∧
        (∀ w, SMap.find (s.core s.active.core.toNat).rx buf.toNat = some w →
          exec recv s = .next ((if vec then s.setV (d.setWidth 5) w else s.setX d (w.setWidth 64)).retire .seq)) ∧
        (SMap.find (s.core s.active.core.toNat).rx buf.toNat = none →
          exec recv s = .next (s.raise s.active slotFault))))) ∧
  (∀ p, sendPath p p = (4, [])) ∧
  (∀ p q, p < 1024 → q < 1024 →
    let apart (m n : Nat) : Nat := max m n - min m n
    let toward (m n j : Nat) : Nat := if m ≤ n then min n (m + j) else max n (m - j)
    let col (p : Nat) : Nat := p % 16
    let row (p : Nat) : Nat := p / 16 % 8
    let hops (p q : Nat) : Nat := apart (col p) (col q) + apart (row p) (row q)
    let on (p q j : Nat) : Nat := p / 128 * 128 + toward (row p) (row q) (j - apart (col p) (col q)) * 16 + toward (col p) (col q) j
    let exit (p : Nat) : Nat := p / 128 * 128 + 71
    (p ≠ q → p / 128 = q / 128 →
      (sendPath p q).1 = 6 + 2 * hops p q ∧ (sendPath p q).2.length = hops p q ∧
      ∀ j, j < hops p q → (sendPath p q).2[j]? = some (4 * on p q j +
        (if on p q (j + 1) = on p q j + 1 then 0 else if on p q (j + 1) + 1 = on p q j then 1
          else if on p q (j + 1) = on p q j + 16 then 2 else 3), 4 + 2 * j)) ∧
    (p / 128 ≠ q / 128 →
      let h1 := hops p (exit p)
      sendPath p q = (48 + 6 + 2 * (h1 + hops (exit q) q), (sendPath p (exit p)).2 ++
        (8192 + 8 * (p / 128) + q / 128, 4 + 2 * h1) ::
        (sendPath (exit q) q).2.map fun e => (e.1, e.2 + 48 + 2 * h1)))) ∧
  (∀ (s : State) (m : Send),
    let lost (m : Send) : Prop := ∃ o ∈ s.sends, o.sender.core.toNat < m.sender.core.toNat ∧
      ∃ r ∈ m.occupies, r.2 = s.clock + 1 ∧ r ∈ o.occupies
    moveWith exec .tick s = .next s.tick ∧ (m ∈ s.tick.sends ↔ m ∈ s.sends ∧ ¬ lost m) ∧
    (m ∈ s.sends → lost m → (s.tick.ctx m.sender).settle.coll = true) ∧
    ∀ c, (∀ o ∈ s.sends, lost o → o.sender ≠ c) → (s.tick.ctx c).settle.coll = (s.ctx c).settle.coll) ∧
  (∀ (i : Nat) (m : Send) (s : State), s.sends[i]? = some m → m.arrives ≤ s.clock →
    let gone : State := { s with sends := s.sends.eraseIdx i }
    ((∃ ph, (s.launch m.queue).settlement = some ph ∧ ph.ending = false) →
      exec (.sendArrival i) s =
        .next (gone.mapCore m.dest.toNat fun k => { k with rx := SMap.put k.rx m.buf.toNat m.data })) ∧
    ((∀ ph, (s.launch m.queue).settlement = some ph → ph.ending = true) → exec (.sendArrival i) s = .next gone)) ∧
  ∀ (q : BitVec 6) (ph : Phase) (s : State), (s.launch q).settlement = some ph → ph.ending = false →
    (s.launch q).plan.slen ≤ s.count (s.launch q) →
    let late := (s.contexts.filter fun e =>
      e.2.inSettlement && decide (s.queueOf (clusterOfCore (ctxOf e.1).core) = q) && match e.2.wait with
        | .barrier _ .sdone => false
        | _ => true).map fun e => ctxOf e.1
    let raised := late.foldl (fun s c => s.raise c { cause := .slot, faddr := BitVec.ofNat 64 (s.launch q).plan.slen }) s
    s.FloorAllows raised → exec (.slenReached q) s = .next raised

/-! ## Key-value entries (R347 to R364) -/

/-- `CONFID` counts n when every logit is a NaN; otherwise it gives the number of the greatest, the lowest of equals,
and 1 when the difference of that and the greatest of the others, rounded once to FP32, is at least the threshold
(R355). -/
def Obligations.ConfidenceTest : Prop :=
  ∀ (p : Pred) (v : View) (d : XReg) (a : VReg) (b c : XReg) (n : BitVec 12) (s : State), s.Ready → s.holds p = true →
    let N := n.toNat
    let L (i : Nat) : FV := (viewFmt v).decode (elem (s.v (a + BitVec.ofNat 5 (i / v.elems))) v.width (i % v.elems))
    let threshold := fp32.decode ((s.x b).toNat % 2 ^ 32)
    let takes (l : Nat) (pass : Prop) : Prop :=
      (pass → exec (.confid p v d a b c n) s = .next (((s.setX d (BitVec.ofNat 64 l)).setX c 1).retire .seq)) ∧
      (¬ pass → exec (.confid p v d a b c n) s = .next (((s.setX d (BitVec.ofNat 64 l)).setX c 0).retire .seq))
    let best (l : Nat) (others : Nat → Prop) : Prop := l < N ∧ others l ∧ (L l).isNan = false ∧
      ∀ j, j < N → others j → j ≠ l → (L j).isNan = false →
        (L j).ltZ (L l) = true ∨ ((L l).ltZ (L j) = false ∧ l < j)
    let passes (m1 m2 : FV) : Prop :=
      (fpCompare .ge (fp32.decode (fpAdd fp32 .rne m1 m2.neg).1) threshold).1 = true
    ((∀ j, j < N → (L j).isNan = true) → takes N False) ∧
    (∀ l, best l (fun _ => True) →
      ((∀ j, j < N → j ≠ l → (L j).isNan = true) → takes l (passes (L l) (.inf true))) ∧
      ∀ k, best k (fun j => j ≠ l) → takes l (passes (L l) (L k)))

/-- The rows of a `KVLD` are read in order (R361). One before the window's edge is masked and its page is not looked at; for
the others the page must be translated and LIVE and name the entry's page, or KVSTATE is raised with the entry's page
address. An entry of a retired page, and in MASK mode one that is not FINAL, is masked; a FINAL one gives its key, its value
and the scale bytes of an E4M3 entry; in WAIT mode one in WRITING is waited for, and an ABSENT one demanded. The FADDR of
that KVSTATE and the loads that a row makes again after a wait are the model's reading (logs 30 and 33). -/
def KeyValueRows : Prop :=
  ∀ (wait : Bool) (coord : Word) (edge i : Nat) (more : List Nat) (t : Ts) (s : State),
    let row := (kvRows wait coord edge [i] t).run s
    let slot := coord.toNat / 2 ^ 52
    let layer := coord.toNat / 2 ^ 44 % 2 ^ 8
    let pos := coord.toNat / 2 ^ 26 % 2 ^ 18 + i
    let e := pos % 64
    let va := s.me.kvb + BitVec.ofNat 64 (slot * 2 ^ 35 + layer * 2 ^ 27 + pos / 64 * 2 ^ 15)
    let e4m3 := decide (s.me.kvcfg.toNat % 32 = 4)
    (kvRows wait coord edge [] t).run s = .ok ([], t) s ∧
    (∀ rows t1 s1, row = .ok (rows, t1) s1 → (kvRows wait coord edge (i :: more) t).run s =
      match (kvRows wait coord edge more t1).run s1 with
      | .ok (rest, t2) s2 => .ok (rows ++ rest, t2) s2
      | .error x s2 => .error x s2) ∧
    (∀ x s1, row = .error x s1 → (kvRows wait coord edge (i :: more) t).run s = .error x s1) ∧
    (pos < edge → row = .ok ([none], t) s) ∧
    (edge ≤ pos → ∀ pa s1 d t1 s2, (kvPage false false va).run s = .ok pa s1 → (kvLoad va pa 0 t).run s1 = .ok (d, t1) s2 →
      (kvMatches d slot layer pos = false ∨ kvLive d = false → row = .error (.trap { cause := .kvstate, faddr := va }) s2) ∧
      (kvMatches d slot layer pos = true → kvLive d = true →
        (kvRetired d = true ∨ (wait = false ∧ kvState d e ≠ 3) ∨ kvState d e = 0 → row = .ok ([none], t1) s2) ∧
        (kvRetired d = false → wait = true → kvState d e = 2 → row = .error (.wait .access) s2) ∧
        (kvRetired d = false → wait = true → kvState d e = 1 →
          ∀ w t2 s3, (kvLoad va pa (0x80 + 4 * e) t1).run s2 = .ok (w, t2) s3 →
            let h := s3.kvHandle (BitVec.ofNat 32 (w.toNat / 2 ^ (8 * ((0x80 + 4 * e) % 128)) % 2 ^ 32))
            ∀ k, s3.HandleOk h k → k.state = .suspended → row = .error (.wait (.demand none)) (s3.pushDemand h)) ∧
        (kvRetired d = false → kvState d e = 3 →
          ∀ kd t2 s3 vd t3 s4, (kvLoad va pa (0x800 + 256 * e) t1).run s2 = .ok (kd, t2) s3 →
            (kvLoad va pa (0x880 + 256 * e) t2).run s3 = .ok (vd, t3) s4 →
            let half (r : Vec) : Nat := if e4m3 then r.toNat % 2 ^ 512 else r.toNat
            (e4m3 = false → row = .ok ([some { key := half kd, value := half vd, scales := 0 }], t3) s4) ∧
            (e4m3 = true → ∀ sc t4 s5, (kvLoad va pa (0x280 + 4 * e) t3).run s4 = .ok (sc, t4) s5 →
              row = .ok ([some { key := half kd, value := half vd
                                 scales := sc.toNat / 2 ^ (8 * ((0x280 + 4 * e) % 128)) % 2 ^ 32 }], t4) s5))))

/-- `KVAPP` writes an EMPTY entry and makes it FINAL, or raises KVSTATE; with a window it then retires the page that has
fallen behind it, once: RETIRED is set, the handles of the ABSENT entries are dropped in their order, the page's records go,
and the allocator gets the page's coordinate as a message, for which the append waits while its line is full. `KVAPP.fill`
writes an ABSENT entry, drops its handle and settles its record, or gives 1 where the entry is no longer ABSENT. A machine
check while the payload is written is raised with the entry left in WRITING. `KVLD` writes one row of each tile for each
entry, with zeros and scales of 127 where the entry is masked, and the mask of the rows it loaded; it waits for the tiles. A
format other than BF16 and E4M3 raises FMTMIX (R348, R351, R352, R359 to R361). That FMTMIX comes first, that an append is
one step, and what a `KVLD` reads again after a wait are the model's reading (logs 30, 32 and 33). The rows that a `KVLD`
reads are those of `KeyValueRows`. -/
def Obligations.KeyValueEntries : Prop :=
  KeyValueRows ∧
  (∀ (d : Vec) (i : Nat), i < 1024 →
    (kvRetire d).getLsbD i = if i = 8 * 16 + 62 ∨ i = 8 * 80 + 62 then true else d.getLsbD i) ∧
  (∀ (coord : Word) (u v : State) (plan : Option (Word × Nat × Nat)), (kvRetiring coord).run u = .ok plan v →
    let win := u.me.kvcfg.toNat / 2 ^ 8 % 32
    let edge := coord.toNat / 2 ^ 26 % 2 ^ 18 + 1 - 2 ^ win
    (win = 0 ∨ edge < 64 ∨ edge % 64 ≠ 0 → plan = none) ∧
    ∀ va pa pos, plan = some (va, pa, pos) → pos = 64 * (edge / 64 - 1) ∧ (∃ w, (kvPage true true va).run u = .ok pa w) ∧
      va = u.me.kvb + BitVec.ofNat 64 (coord.toNat / 2 ^ 52 * 2 ^ 35 + coord.toNat / 2 ^ 44 % 2 ^ 8 * 2 ^ 27 +
        (edge / 64 - 1) * 2 ^ 15)) ∧
  ∀ (p : Pred) (d a : XReg) (b c : VReg) (tk tv : TReg) (n : BitVec 7) (s : State), s.Ready → s.holds p = true →
    let format := (s.me.kvcfg).toNat % 32
    let coord := s.x a
    let slot := coord.toNat / 2 ^ 52
    let layer := coord.toNat / 2 ^ 44 % 2 ^ 8
    let pos := coord.toNat / 2 ^ 26 % 2 ^ 18
    let e := pos % 64
    let e4m3 := decide (format = 4)
    let va := s.me.kvb + BitVec.ofNat 64 (slot * 2 ^ 35 + layer * 2 ^ 27 + pos / 64 * 2 ^ 15)
    let thread := s.threadOf s.active
    let kvapp : Instr := .kvapp p d a b c
    let fill : Instr := .kvappFill p d a b c
    let fresh : Prop := ∀ m, s.me.wait ≠ .allocator m
    let payload := [0x800 + 256 * e, 0x880 + 256 * e] ++ if e4m3 then [0x280 + 4 * e, 0x380 + 4 * e] else []
    let gives (i : Instr) (u : State) (t : Ts) (w : Word) : Prop :=
      s.FloorAllows u → exec i s = .next (((u.returned true true t).setX d w).retire .seq)
    let tells (u : State) (msg : Word) (t : Ts) : Prop :=
      (u.allocatorLine = none → gives kvapp u t 0) ∧
      ∀ q l, u.allocatorLine = some (q, l) → (u.line q l).mode = .msg →
        ((u.line q l).queue.length < 16 → gives kvapp (u.appendMessage q l t msg).1 (u.appendMessage q l t msg).2 0) ∧
        (16 ≤ (u.line q l).queue.length → s.FloorAllows u →
          exec kvapp s = .next ((u.mapMe fun k => { k with pts := tsMax k.pts t }).waits (.allocator msg)))
    (format ≠ 3 → format ≠ 4 → exec fill s = .next (s.raise s.active { cause := .fmtmix }) ∧
      (fresh → exec kvapp s = .next (s.raise s.active { cause := .fmtmix }))) ∧
    (∀ msg, s.me.wait = .allocator msg → tells s msg s.me.pts) ∧
    (format = 3 ∨ format = 4 → ∀ pa s1 s2 line s3, (kvPage false true va).run s = .ok pa s1 →
      (kvReady 2 va pa true [0]).run s1 = .ok () s2 → (kvLine pa).run s2 = .ok line s3 →
      (fresh →
        (kvMatches line slot layer pos = false ∨ kvLive line = false ∨ kvRetired line = true ∨ kvState line e ≠ 0 →
          exec kvapp s = .next (s.raise s.active { cause := .kvstate, faddr := coord })) ∧
        (kvMatches line slot layer pos = true → kvLive line = true → kvRetired line = false → kvState line e = 0 →
          ∀ s4 plan s5 t1 s6, (kvReachable pa false payload).run s3 = .ok () s4 → (kvRetiring coord).run s4 = .ok plan s5 →
            (kvStore pa 0 128 (kvSetState line e 2).toNat s.me.pts).run s5 = .ok t1 s6 →
            (∀ f s7, (kvWrite va pa e e4m3 (s.v b) (s.v c) t1).run s6 = .error (.trap f) s7 →
              s.FloorAllows (s7.raise s7.active f) → exec kvapp s = .next (s7.raise s7.active f)) ∧
            ∀ t2 s7 s8 now s9 t3 s10, (kvWrite va pa e e4m3 (s.v b) (s.v c) t1).run s6 = .ok t2 s7 →
              (kvMeet va pa [0]).run s7 = .ok () s8 → (kvLine pa).run s8 = .ok now s9 →
              (kvStore pa 0 128 (kvSetState now e 3).toNat t2).run s9 = .ok t3 s10 →
              (plan = none → gives kvapp s10 t3 0) ∧
              ∀ rva rpa rpos s11 page s12, plan = some (rva, rpa, rpos) →
                (kvMeet rva rpa [0]).run s10 = .ok () s11 → (kvLine rpa).run s11 = .ok page s12 →
                let absent := (List.range 64).filter fun e => kvState page e == 1
                (kvMatches page slot layer rpos = false ∨ kvLive page = false ∨ kvRetired page = true →
                  gives kvapp s12 t3 0) ∧
                (kvMatches page slot layer rpos = true → kvLive page = true → kvRetired page = false →
                  ∀ s13 t4 s14,
                    (kvMeet rva rpa (distinct (absent.map fun e => 0x80 + e / 32 * 0x80))).run s12 = .ok () s13 →
                    (kvStore rpa 0 128 (kvRetire page).toNat t3).run s13 = .ok t4 s14 → s14.softErrors = [] →
                    let dropped := (absent.map fun e =>
                      s14.kvHandle (BitVec.ofNat 32 (s14.hbm.readN (rpa + 0x80 + 4 * e) 4))).foldl State.drop s14
                    let retired := dropped.settleArrears rpa t4 fun _ => true
                    retired.arrears = s14.arrears.filter (fun r => decide (r.page ≠ rpa)) ∧
                    tells retired (BitVec.ofNat 64 (slot * 2 ^ 52 + layer * 2 ^ 44 + rpos * 2 ^ 26)) t4))) ∧
      (kvMatches line slot layer pos = false ∨ kvLive line = false →
        exec fill s = .next (s.raise s.active { cause := .kvstate, faddr := coord })) ∧
      (kvMatches line slot layer pos = true → kvLive line = true →
        (kvRetired line = true ∨ kvState line e ≠ 1 →
          ∀ t1 u, (homeLoad thread (.mem pa) 64 s.me.pts).run s3 = .ok t1 u → s3.threadOf s3.active = thread →
            gives fill u t1 1) ∧
        (kvRetired line = false → kvState line e = 1 →
          ∀ s4 s5 t1 s6 t2 s7 s8 now s9 t3 s10, (kvReachable pa false payload).run s3 = .ok () s4 →
            (kvReachable pa true [0x80 + 4 * e]).run s4 = .ok () s5 →
            (kvStore pa 0 128 (kvSetState line e 2).toNat s.me.pts).run s5 = .ok t1 s6 →
            (kvWrite va pa e e4m3 (s.v b) (s.v c) t1).run s6 = .ok t2 s7 → (kvMeet va pa [0]).run s7 = .ok () s8 →
            (kvLine pa).run s8 = .ok now s9 → (kvStore pa 0 128 (kvSetState now e 3).toNat t2).run s9 = .ok t3 s10 →
            let settled := s10.settleArrears pa t3 fun r => decide (r.coord.toNat / 2 ^ 26 % 2 ^ 18 % 64 = e)
            ∀ u, (kvMeet va pa [0x80 + 4 * e]).run settled = .ok () u → u.softErrors = [] →
              gives fill (u.drop (u.kvHandle (BitVec.ofNat 32 (u.hbm.readN (pa + 0x80 + 4 * e) 4)))) t3 0))) ∧
    ∀ (wait : Bool) (out : XReg), s.me.grant = .none →
      let kvld : Instr := if wait then .kvldWait p tk a out tv n else .kvldMask p tk a out tv n
      let cl := clusterOfCore s.active.core
      let tileK := s.t tk
      let tileV := s.t tv
      let win := s.me.kvcfg.toNat / 2 ^ 8 % 32
      let edge := if win = 0 then 0 else coord.toNat / 2 ^ 8 % 2 ^ 18 + 1 - 2 ^ win
      (format ≠ 3 → format ≠ 4 → exec kvld s = .next (s.raise s.active { cause := .fmtmix })) ∧
      (format = 3 ∨ format = 4 → s.TileOk tileK → s.TileOk tileV →
        (tileK.fmt.toNat ≠ format ∨ tileV.fmt.toNat ≠ format →
          exec kvld s = .next (s.raise s.active { cause := .fmtmix })) ∧
        (tileK.fmt.toNat = format → tileV.fmt.toNat = format →
          (tileK.cols ≠ 64 ∨ tileV.cols ≠ 64 ∨ tileK.rows.toNat < n.toNat ∨ tileV.rows.toNat < n.toNat →
            exec kvld s = .next (s.raise s.active { cause := .engflt })) ∧
          (tileK.cols = 64 → tileV.cols = 64 → n.toNat ≤ tileK.rows.toNat → n.toNat ≤ tileV.rows.toNat →
            ∀ rows t1 u, (kvRows wait coord edge (List.range n.toNat) s.me.pts).run s = .ok (rows, t1) u →
              let gs := distinct (tileK.granules ++ tileV.granules)
              (u.fillable cl gs = false → exec kvld s = .next (u.waits .tags)) ∧
              (u.fillable cl gs = true →
                let t2 := u.tagTime cl gs (tsMax t1 u.me.pts)
                let keys := writeRows u.clusterMem cl tileK (rows.map fun r => r.map fun x => (x.key, x.scales % 2 ^ 16))
                let both := writeRows keys cl tileV (rows.map fun r => r.map fun x => (x.value, x.scales / 2 ^ 16))
                let stamped := ({ u with clusterMem := both } : State).stampStores cl gs t2
                let final := stamped.1.setTags cl gs fun g => { g with v := true, c := false, time := stamped.2 }
                s.FloorAllows final →
                exec kvld s = .next (((final.mapMe fun k => { k with pts := stamped.2 }).setX out
                  (BitVec.ofNat 64 (packElems 1 (rows.map fun r => if r.isSome then 1 else 0)))).retire .seq)))))

/-- `EXITK` that skips nothing joins its thunk and gives 0; with layers left it makes its markings one by one, in
order, and gives how many it made. The arrears engine sparks the oldest record not yet sparked. `ARWAIT` covers the records
that the engines hold with its slot and a position up to its own, by position and then layer; it joins the removals of those
it covers that it has waited through when none is left, demands the thunk of the first of them, and raises KVSTATE for one
that is VALUE (R356, R357, R362). They may be of any launch, so that no placement bounds the thunks it forces.
That FMTMIX comes first, the causes of a malformed layer-map entry, and that the demand of a record that leaves ends as one
that has its value are the model's reading (logs 30, 31 and 33). -/
def Obligations.ExitsAndArrears : Prop :=
  (∀ (p : Pred) (d a b : XReg) (nl : BitVec 9) (k : HSlot) (s : State), s.Ready → s.holds p = true →
    let coord := s.x a
    let h := s.h b
    let layer := coord.toNat / 2 ^ 44 % 2 ^ 8
    let i : Instr := .exitk p d a b nl
    let entered (u : State) : State := { u with exits := (u.exits.filter fun c =>
      decide (c ≠ u.active) && match (u.ctx c).wait with
        | .marking _ _ => true
        | _ => false) ++ [u.active] }
    ((∀ l m, s.me.wait ≠ .marking l m) → s.me.grant = .none → s.me.kvcfg.toNat % 32 = 3 ∨ s.me.kvcfg.toNat % 32 = 4 →
      s.HandleOk h k → k.state = .value →
      (nl.toNat ≤ layer → exec i s = .next (s.raise s.active { cause := .kvstate, faddr := coord })) ∧
      (nl.toNat = layer + 1 → exec i s = .next (((entered (s.joins k.time)).setX d 0).retire .seq)) ∧
      ∀ e u one v, (exitLayers coord ((List.range nl.toNat).filter fun l => decide (layer < l))).run (s.joins k.time) =
          .ok [e] u → (markLayer coord h e).run (entered u) = .ok one v → s.FloorAllows v →
        exec i s = .next ((v.setX d (if one then 1 else 0)).retire .seq)) ∧
    (∀ e more made one u, s.me.wait = .marking (e :: more) made → (markLayer coord h e).run s = .ok one u →
      let count := if one then made + 1 else made
      (more = [] → s.FloorAllows u → exec i s = .next ((u.setX d (BitVec.ofNat 64 count)).retire .seq)) ∧
      (more ≠ [] → exec i s = .next (u.waits (.marking more count))))) ∧
  (∀ (die : BitVec 3) (older : List Arrear) (a : Arrear) (newer : List Arrear) (cl : Nat) (k : HSlot) (s : State),
    let launch := s.launch a.queue
    ∀ p, launch.clusters[a.handle.toNat / 2 ^ 22]? = some p →
    let h : BitVec 32 := BitVec.ofNat 10 p ++ a.handle.setWidth 22
    s.arrears = older ++ a :: newer → (∀ x ∈ older, x.sparked = true ∨ s.arrearDie x ≠ some die.toNat) → a.sparked = false →
    launch.clusters[a.cluster]? = some cl → dieOfCluster cl = die.toNat → (s.cluster p).sparks.length < 64 →
    s.slotOf h = some k → k.state = .suspended →
    exec (.arrearsSpark die) s =
      .next (({ s with arrears := older ++ { a with sparked := true } :: newer } : State).mapCluster p fun u =>
        { u with sparks := u.sparks ++ [(h, a.time, a.queue)] })) ∧
  ∀ (p : Pred) (a : XReg) (s : State), s.Ready → s.holds p = true → s.me.grant = .none →
    s.me.kvcfg.toNat % 32 = 3 ∨ s.me.kvcfg.toNat % 32 = 4 →
    let coord := s.x a
    let since := match s.me.wait with
      | .arrears n _ => n
      | _ => s.clock
    let slot (c : Word) : Nat := c.toNat / 2 ^ 52
    let pos (c : Word) : Nat := c.toNat / 2 ^ 26 % 2 ^ 18
    let layer (c : Word) : Nat := c.toNat / 2 ^ 44 % 2 ^ 8
    let covers (c : Word) : Prop := slot c = slot coord ∧ pos c ≤ pos coord
    (∀ r, r ∈ s.owed coord ↔ r ∈ s.arrears ∧ (s.launch r.queue).clusters[r.cluster]? ≠ none ∧ covers r.coord) ∧
    (s.owed coord).Pairwise (fun x y => pos x.coord < pos y.coord ∨
      (pos x.coord = pos y.coord ∧ layer x.coord ≤ layer y.coord)) ∧
    (s.owed coord = [] → ∃ t : Ts, exec (.arwait p a) s = .next ((s.mapMe fun k => { k with pts := t }).retire .seq) ∧
      t = (s.removals.filter fun r => decide (since ≤ r.at_ ∧ covers r.coord)).foldl
        (fun t r => tsMax t r.time) s.me.pts) ∧
    (∀ r more k, s.owed coord = r :: more →
      let h := (s.launch r.queue).kvHandle r.handle
      s.softErrors = [] → (∀ x ∈ s.remoteDrops, x.by_ = s.active → hCluster x.handle ≠ hCluster h) →
      (s.slotOf h = none → exec (.arwait p a) s = .next (s.raise s.active { cause := .hstale, faddr := h.setWidth 64 })) ∧
      (s.slotOf h = some k →
        (k.state = .value → exec (.arwait p a) s = .next (s.raise s.active { cause := .kvstate, faddr := r.coord })) ∧
        (k.state = .suspended → exec (.arwait p a) s = .next ((s.pushDemand h).waits (.arrears since true)))))

/-! ## Faults, handlers and supervisors (R82, R84, R129, R365 to R372, R383) -/

/-- A fault of a context that is not borrowed and not in a settlement phase writes EPC, FADDR and, but for a TRAP of its own,
FCAUSE; EPC is the instruction's, its successor at a TRAP of its own, and the target of a `FOLLOW` that waits.
It is vectored to TVEC with CAUSE and INTRAP set when VEC allows its cause, TVEC is not 0 and no handler runs; otherwise
the context is FAULTED with a record, which waits for its world's ring. No general register, no byte of memory and no
other context's register changes; a borrowed context's thunk takes the fault instead (R82, R365, R368). -/
def Obligations.FaultsAreTaken : Prop :=
  ∀ (c : CtxId) (t : Trap) (s : State),
    let k := s.ctx c
    let u := s.raise c t
    let k' := u.ctx c
    let here : Word := match k.roll with
      | .waiting _ target _ _ _ _ => target
      | _ => k.pc
    let traps : Prop := t.cause = .trap ∧ t.demanded = false
    let epc := if traps then pcSucc here else here
    let rep := k.trap.repeats epc t
    let bit : Option Nat := match t.cause with
      | .illop | .badtgt | .lpadmis | .jtbound => some 0
      | .world | .window | .align => some 1
      | .pstore | .assayw => some 2
      | .selfdep | .hstale => some 3
      | .fmtmix | .engflt => some 4
      | .kvstate => some 6
      | _ => none
    let allowed := t.cause = .trap ∨ ∃ b, bit = some b ∧ k.trap.vec.getLsbD b = true
    let vectored := allowed ∧ k.trap.tvec ≠ 0 ∧ k.trap.intrap = false
    let secure := (s.launchAt c).secure
    (k.borrowed = none → k.inSettlement = false →
      k'.regs = k.regs ∧ k'.fflags = k.fflags ∧ k'.pts = k.pts ∧ s.SameBytes u ∧
      k'.trap.epc = epc ∧ k'.trap.faddr = t.faddr ∧ k'.trap.tvec = k.trap.tvec ∧ k'.trap.vec = k.trap.vec ∧
      (traps → k'.trap.fcause = k.trap.fcause) ∧
      (¬ traps → k'.trap.fcause = BitVec.ofNat 64
        (t.cause.code.toNat + t.detail.toNat * 2 ^ 8 + t.acc.toNat * 2 ^ 12 + rep.toNat * 2 ^ 16)) ∧
      (vectored → k'.run = .running ∧ k'.pc = k.trap.tvec ∧ k'.entry = .plain ∧ k'.trap.intrap = true ∧
        k'.trap.cause = BitVec.ofNat 64 (t.cause.code.toNat + t.tcode.toNat * 2 ^ 16) ∧ (∀ b, u.world b = s.world b)) ∧
      (¬ vectored → k'.run = .faulted ∧ k'.pc = here ∧ k'.trap.intrap = k.trap.intrap ∧ k'.trap.cause = k.trap.cause ∧
        ∃ r : FaultRecord, k'.trap.record = some r ∧ (u.world secure).waiting = (s.world secure).waiting ++ [r] ∧
          (u.world secure).seq = (s.world secure).seq + 1 ∧ r.w1 = t.faddr ∧ r.w2 = epc ∧
          r.w0 = t.cause.code ++ rep ++ t.acc ++ t.detail ++ (s.launchAt c).asid ++ BitVec.ofBool secure ++ c.ctx ++
            c.core ++ (0 : BitVec 8) ∧
          r.w3 = (s.launchAt c).launchid ++ (s.world secure).seq) ∧
      ∀ c', c' ≠ c → (u.ctx c').regs = (s.ctx c').regs ∧ (u.ctx c').run = (s.ctx c').run ∧ (u.ctx c').pc = (s.ctx c').pc) ∧
    (∀ q i, k.borrowed = some (q, i) → k'.run = .free ∧ u.demands = (s.endFrame (s.handle q i) k.pts (some t)).demands)

/-- `TRAP` takes its fault with its code and `ILL` an ILLOP under every predicate; `ERET` leaves the handler for EPC, and
raises ILLOP outside a handler and BADTGT for a malformed EPC. `HALT` frees its context and counts it, and is an ILLOP of
a borrowed one. `TRACE` writes its record at the head of its die's ring, which advances, and nothing where there is no ring,
once the last access has returned its timestamp (R129, R277, R342 to R344, R371, R383, R384). That a record beyond the end
of HBM, in memory of the other world or where only `CPYA` writes is not written is the model's choice (logs 46 and 65). -/
def Obligations.TrapsReturnsAndHalts : Prop :=
  ∀ (p : Pred) (code : BitVec 16) (a b : XReg) (tag : BitVec 16) (s : State),
    exec .ill s = .next (s.raise s.active { cause := .illop }) ∧
    (s.me.reply = none → s.holds p = false → exec (.trace p a b tag) s = .next (s.retire .seq)) ∧
    (s.me.reply.isSome = true → exec (.trace p a b tag) s = .next (s.waits .access)) ∧
    (s.me.reply = none → s.holds p = true →
      let launch := s.launchAt s.active
      let die := dieOfCore s.active.core
      let r := SMap.at (s.world launch.secure).traces .reset die
      let at_ := r.base.toNat + 32 * (r.head.toNat % 2 ^ r.log2.toNat)
      (r.log2 = 0 → exec (.trace p a b tag) s = .next (s.retire .seq)) ∧
      (r.log2 ≠ 0 → at_ < 2 ^ 51 → r.base.toNat % 32 = 0 → r.log2.toNat ≤ 20 → s.hbmEnd < at_ + 32 ∨
          s.secureMem at_ ≠ launch.secure ∨ s.secureMem (at_ + 31) ≠ launch.secure ∨ s.assayBytes at_ 32 = true →
        ∃ t : State, exec (.trace p a b tag) s = .next (t.retire .seq) ∧ t.contexts = s.contexts ∧ s.SameBytes t) ∧
      (r.log2 ≠ 0 → ∃ t : State, exec (.trace p a b tag) s = .next (t.retire .seq) ∧
        (SMap.at (t.world launch.secure).traces .reset die).head = (r.head + 1) &&& BitVec.ofNat 20 (2 ^ r.log2.toNat - 1)) ∧
      (r.log2 ≠ 0 → r.log2.toNat ≤ 20 → r.base.toNat % 32 = 0 → at_ + 32 ≤ s.hbmEnd → s.hbmEnd ≤ 2 ^ 51 →
        s.hbm.wf = true → s.secureMem at_ = launch.secure → s.secureMem (at_ + 31) = launch.secure →
        s.assayBytes at_ 32 = false →
        ∃ t : State, exec (.trace p a b tag) s = .next (t.retire .seq) ∧ t.contexts = s.contexts ∧
          t.hbm.readN at_ 8 = s.time.toNat ∧ t.hbm.readN (at_ + 16) 8 = (s.x a).toNat ∧
          t.hbm.readN (at_ + 24) 4 = (s.x b).toNat % 2 ^ 32 ∧ t.hbm.readN (at_ + 28) 4 = launch.launchid.toNat ∧
          t.hbm.readN (at_ + 8) 2 = tag.toNat ∧
          ∀ x, x < at_ ∨ at_ + 32 ≤ x → t.hbm.read x = s.hbm.read x)) ∧
    (s.Ready → s.holds p = false → exec (.trap p code) s = .next (s.retire .seq) ∧
      exec (.eret p) s = .next (s.retire .seq) ∧ exec (.halt p) s = .next (s.retire .seq) ∧
      exec (.haltRetain p) s = .next (s.retire .seq)) ∧
    (s.Ready → s.holds p = true →
      exec (.trap p code) s =
        .next (s.raise s.active { cause := .trap, faddr := code.setWidth 64, tcode := code }) ∧
      (s.me.trap.intrap = false → exec (.eret p) s = .next (s.raise s.active { cause := .illop })) ∧
      (s.me.trap.intrap = true → ¬ (s.me.trap.epc.extractLsb' 3 3 = 0 ∧ s.me.trap.epc.toNat % 8 ≤ 4) →
        exec (.eret p) s = .next (s.raise s.active { cause := .badtgt, faddr := s.me.trap.epc })) ∧
      (s.me.trap.intrap = true → s.me.trap.epc.extractLsb' 3 3 = 0 → s.me.trap.epc.toNat % 8 ≤ 4 →
        ∃ t : State, exec (.eret p) s = .next t ∧ t.me.pc = s.me.trap.epc ∧ t.me.run = .running ∧
          t.me.trap.intrap = false ∧ t.me.trap.epc = s.me.trap.epc ∧ t.me.trap.tvec = s.me.trap.tvec ∧
          t.me.trap.vec = s.me.trap.vec ∧ t.me.trap.cause = s.me.trap.cause ∧ t.me.trap.fcause = s.me.trap.fcause ∧
          t.me.regs = s.me.regs ∧ t.me.fflags = s.me.fflags ∧ t.me.roundm = s.me.roundm ∧
          t.me.entry = (if s.me.trap.epcWritten then .transfer s.me.pc else .plain) ∧
          (∀ c, c ≠ s.active → t.ctx c = s.ctx c) ∧ s.SameBytes t) ∧
      (s.me.borrowed.isSome = true →
        exec (.halt p) s = .next (s.raise s.active { cause := .illop }) ∧
        exec (.haltRetain p) s = .next (s.raise s.active { cause := .illop })) ∧
      (s.me.borrowed = none → ∀ retain : Bool,
        let q := s.queueOf (clusterOfCore s.active.core)
        let counted := (s.mapCore s.active.core.toNat fun k =>
          { k with retained := k.retained || retain, halts := k.halts + 1 }).mapLaunch q fun l => { l with halts := l.halts + 1 }
        let ended := (counted.freeCtx s.active).recheckEpisodes q
        s.FloorAllows ended →
        exec (if retain then .haltRetain p else .halt p) s = .next (ended.mapMe fun k => { k with last := .done }) ∧
        (counted.freeCtx s.active).me.run = .free))

/-- `REPLAY`, `CSAVE` and `CREST` act for a supervisor context on a FAULTED context of its own world: `REPLAY` and the replay
register resume it at its EPC, `CSAVE` stores its record, and `CREST` loads one into it; x[D] is 1 where the target is not
FAULTED; a replay of a context that a pre-emption has saved is held in its save record. Another context raises ILLOP, another
world's target WORLD, and an address that is no multiple of 128 ALIGN; with posted operations outstanding they wait (R83,
R84, R372, R378). Which of a live and a saved context a number names, BADTGT of a malformed EPC, and what `CREST` writes of
EPC are the model's reading (logs 35 and 36). -/
def Obligations.SupervisorInstructions : Prop :=
  (∀ (p : Pred) (d a b : XReg) (s : State), s.Ready → s.holds p = true →
    let w := s.x a
    let c : CtxId := { core := w.setWidth 13, ctx := w.extractLsb' 13 2 }
    let own := s.enabled (clusterOfCore c.core) = true ∧
      (s.cluster (clusterOfCore c.core)).secure = (s.launchAt s.active).secure
    let these (i : Instr) : Prop := i = .replay p d a ∨ i = .csave p d a b ∨ i = .crest p d a b
    (s.supervisor s.active = false → ∀ i, these i → exec i s = .next (s.raise s.active { cause := .illop })) ∧
    (s.supervisor s.active = true →
      (¬ own → ∀ i, these i → exec i s = .next (s.raise s.active { cause := .world, faddr := w })) ∧
      (own → s.me.dout ≠ 0 → ∀ i, these i → exec i s = .next (s.waits .join)) ∧
      (own → s.me.dout = 0 → (s.ctx c).run ≠ .faulted → ∀ q key u, s.savedTarget c = some (q, key) →
        (readOwnedAll (s.savedLines c 0x1330 8)).run s = .ok () u → s.FloorAllows (u.hold q key (some u.me.pts)) →
        exec (.replay p d a) s = .next (((u.hold q key (some u.me.pts)).setX d 0).retire .seq)) ∧
      (own → s.me.dout = 0 →
        ((s.x b).toNat % 128 ≠ 0 →
          exec (.csave p d a b) s = .next (s.raise s.active { cause := .align, faddr := s.x b, acc := 2 }) ∧
          exec (.crest p d a b) s = .next (s.raise s.active { cause := .align, faddr := s.x b, acc := 1 })) ∧
        ((s.ctx c).run ≠ .faulted → s.savedTarget c = none →
          exec (.replay p d a) s = .next ((s.setX d 1).retire .seq) ∧
          ((s.x b).toNat % 128 = 0 → exec (.csave p d a b) s = .next ((s.setX d 1).retire .seq) ∧
            exec (.crest p d a b) s = .next ((s.setX d 1).retire .seq))) ∧
        ((s.ctx c).run = .faulted → c ≠ s.active →
          (pcOk (s.ctx c).trap.epc = true →
            ∃ t : State, exec (.replay p d a) s = .next (t.retire .seq) ∧ t.me.regs = (s.setX d 0).me.regs ∧
              (t.ctx c).run = .running ∧ (t.ctx c).pc = (s.ctx c).trap.epc ∧ (t.ctx c).regs = (s.ctx c).regs ∧
              (t.ctx c).pts = tsMax (s.ctx c).pts s.me.pts ∧ s.SameBytes t) ∧
          ((s.x b).toNat % 128 = 0 →
            (let find := fun va => locate false (s.threadOf s.active) .write 2 va va
             ∀ u pts v, (readyRange find (s.threadOf s.active) 2 true s.me.pts (partsOf (s.x b) 0x2000)).run s = .ok () u →
              (writeRange find (s.threadOf s.active) 2 (partsOf (s.x b) 0x2000) (packFields (s.recordFields c)) u.me.pts).run
                u = .ok pts v → s.FloorAllows v →
              exec (.csave p d a b) s = .next (((v.returned true true pts).setX d 0).retire .seq)) ∧
            (let find := fun va => locate false (s.threadOf s.active) .read 1 va va
             ∀ r pts v, (readRange find (s.threadOf s.active) 1 (partsOf (s.x b) 0x2000) s.me.pts).run s = .ok (r, pts) v →
              s.FloorAllows v →
              exec (.crest p d a b) s = .next ((((v.restoreTarget c r).returned false true pts).setX d 0).retire .seq))))))) ∧
  ∀ (secure : Bool) (w : Word) (s : State),
    let c : CtxId := { core := w.setWidth 13, ctx := w.extractLsb' 13 2 }
    let p := clusterOfCore c.core
    (s.ready = true → s.enabled p = true → (s.cluster p).secure = secure → (s.ctx c).run = .faulted →
      pcOk (s.ctx c).trap.epc = true →
      ∃ t : State, exec (.replayRegisterWrite secure w) s = .next t ∧ (t.ctx c).run = .running ∧
        (t.ctx c).pc = (s.ctx c).trap.epc ∧ (t.ctx c).regs = (s.ctx c).regs ∧ (t.ctx c).pts = (s.ctx c).pts ∧
        ∀ c', c' ≠ c → t.ctx c' = s.ctx c') ∧
    (s.enabled p = false ∨ (s.cluster p).secure ≠ secure →
      exec (.replayRegisterWrite secure w) s = .next s)

/-! ## Launches (R26 to R65, R283, R313 to R316, R373 to R377, R385 to R390) -/

/-- The head entry of a queue is admitted when its record passes the checks of R32, and is otherwise rejected with the
code of the first that fails; a decision grants queues in the order of their passes until none has placeable work, and a
launch is placed on the clusters it is granted, in their logical order; its next superstep starts once it is granted and
charges its queue, and SSTEP is its number; a free context takes the next entry of its core's list; cores,
clusters and dies report; the superstep ends at a boundary; and a drained launch writes its record and leaves (R32,
R34, R37, R47 to R52, R64, R316, R385 to R388). A step whose time has not come changes nothing. The order of checks
that R32 leaves in one place, when the scheduler decides, the pts that a dependent launch and a superstep start with, and
that admission waits for lines that the host owns, are the model's reading (logs 37, 38, 39, 41 and 61). -/
def Obligations.LaunchesRun : Prop :=
  ∀ (q : BitVec 6) (s : State),
    let launch := s.launch q
    let queue := s.queue q
    let secure := queueSecure q
    let goes (i : Instr) (t : State) : Prop := s.FloorAllows t → exec i s = .next t
    (∀ e rest c d, queue.entries = e :: rest → e.by_ = some (c, d, s.clock) → exec (.admission q) s = .next s) ∧
    (∀ e rest, queue.entries = e :: rest → queue.admitted = none → queue.enable = true → s.tripped = false →
      (∀ c d t, e.by_ = some (c, d, t) → t ≠ s.clock) →
      (∀ x, s.readRecord q e = .error x → s.consider q e = .error (x, none)) ∧
      (∀ r, s.readRecord q e = .ok r →
        (field (tableWord r 0) 63 48 ≠ 1 → s.consider q e = .error (.code 1, some r)) ∧
        (field (tableWord r 0) 63 48 = 1 → recordCounts r = false → s.consider q e = .error (.code 2, some r)) ∧
        (field (tableWord r 0) 63 48 = 1 → recordCounts r = true → (tableWord r 0).getLsbD 1 ≠ secure →
          s.consider q e = .error (.code 4, some r)) ∧
        (field (tableWord r 0) 63 48 = 1 → recordCounts r = true → (tableWord r 0).getLsbD 1 = secure →
          (∃ o l, queueSecure o = secure ∧ (s.queue o).admitted = some l ∧ l.launchid.toNat = field (tableWord r 9) 63 32) →
          s.consider q e = .error (.code 7, some r))) ∧
      (∀ l, s.consider q e = .ok l →
        let u := (s.raisePass q).mapQueue q fun k => { k with entries := rest, admitted := some l }
        goes (.admission q) (({ u with admissions := s.admissions + 1 } : State).decision secure) ∧
        (({ u with admissions := s.admissions + 1 } : State).queue q).admitted = some l) ∧
      (∀ c r place, s.consider q e = .error (.code c, r) → s.rejectPlace q e r = .ok place →
        let t := s.rejectLaunch q r c place
        goes (.admission q) t ∧ (t.queue q).rejcode = c ∧ (t.queue q).entries = rest ∧ (t.queue q).admitted = none ∧
        (t.queue q).rejid = (match r with
          | some r => BitVec.ofNat 32 (field (tableWord r 9) 63 32)
          | none => Config.unreadLaunchId s.admissions) ∧
        (place = none → (t.queue q).rej = true)) ∧
      s.rejectPlace q e none = .ok none ∧
      (∀ line r, s.consider q e = .error (.owned line, r) ∨
          (∃ c, s.consider q e = .error (.code c, r) ∧ s.rejectPlace q e r = .error line) →
        s.hostCoherent line = true → s.hostOwned.contains line = true →
        exec (.admission q) s = .next (s.asksBack line))) ∧
    (queue.entries = [] ∨ queue.admitted.isSome = true ∨ queue.enable = false ∨ s.tripped = true →
      exec (.admission q) s = .next s) ∧
    (s.grants secure 32).pick secure = none ∧
    (∀ o, s.pick secure = some o →
      (∃ st, ((s.grant o).launch o).start = some st ∧ (s.startable o = true → st.clusters = (s.launch o).clusters)) ∧
      s.placeable o = true ∧ queueSecure o = secure ∧
      ∀ base : BitVec 32, (∀ u ∈ worldQueues secure, ((s.queue u).pass - base).toNat < 2 ^ 31) →
        ∀ u ∈ worldQueues secure, s.placeable u = true →
          ((s.queue o).pass - base).toNat < ((s.queue u).pass - base).toNat ∨
          (s.queue o).pass = (s.queue u).pass ∧ o.toNat ≤ u.toNat) ∧
    (∀ st, launch.phase = .unplaced → launch.start = some st →
      let t := s.place q st
      goes (.placement q) t ∧ (t.launch q).phase = .boundary ∧ (t.launch q).clusters = st.clusters ∧
      (t.launch q).step = 0 ∧ (t.launch q).start = (if queue.enable = true then some { st with held := [] } else none) ∧
      (st.clusters.Nodup → ∀ i p, st.clusters[i]? = some p → (t.cluster p).placed = some (q, i))) ∧
    (launch.start = none → exec (.placement q) s = .next s) ∧
    (s.granted q = true → s.FloorAllows (s.assign launch.joinTime) →
      ∃ t : State, exec (.superstepStart q) s = .next t ∧ (t.launch q).phase = .running ∧
        (t.launch q).sstep = launch.step ∧ (t.launch q).start = none ∧ (t.launch q).settlement = none ∧
        (∀ d, SMap.at (t.launch q).episodes { waiting := [], completed := [] } d =
          { waiting := [], completed := (SMap.at launch.episodes { waiting := [], completed := [] } d).completed }) ∧
        (t.queue q).pass = queue.pass + queue.stride ∧
        ∀ p ∈ launch.clusters, ∀ k, k < 8 → (t.core (8 * p + k)).taken = 0 ∧ (t.core (8 * p + k)).halts = 0 ∧
          (t.core (8 * p + k)).settled = false) ∧
    (s.granted q = false → exec (.superstepStart q) s = .next s) ∧
    (∀ (c : CtxId) (ridx arg : BitVec 16), s.queueOf (clusterOfCore c.core) = q →
      let core := s.core c.core.toNat
      let entry := launch.routines.getD ridx.toNat 0
      (SMap.at launch.plan.lists [] (s.logicalCore c.core))[core.taken]? = some (ridx, arg) → s.tripped = false →
      launch.phase = .running → (s.ctx c).run = .free → (s.cluster (clusterOfCore c.core)).placed.isSome = true →
      pcOk entry = true →
      ∃ t : State, exec (.routineStart c) s = .next t ∧ (t.ctx c).run = .running ∧ (t.ctx c).pc = entry ∧
        (t.core c.core.toNat).taken = core.taken + 1 ∧ (t.ctx c).allow = launch.allow ∧
        (t.ctx c).depthlim = launch.depthlim ∧ (t.ctx c).lease = launch.lease ∧ (t.ctx c).pts = (s.ctx c).pts ∧
        (∀ r : XReg, (t.ctx c).regs.x[r.toNat] =
          if r = 2 then 0xFFFF_8000_0000_0000 + BitVec.ofNat 64 (c.core.toNat * 2 ^ 17) + 0x8000
          else if r = 3 then launch.param else if r = 4 then arg.setWidth 64 else 0) ∧
        (∀ r : VReg, (t.ctx c).regs.v[r.toNat] = 0) ∧ (∀ r : MReg, (t.ctx c).regs.m[r.toNat] = 0) ∧
        ∀ c', c' ≠ c → t.ctx c' = s.ctx c') ∧
    (launch.phase = .running → ∀ u, s.cleared launch u = true →
      (∀ k, u = .core k → exec (.clearingReport q u) s =
        .next (s.mapCore (launch.physicalCore k.toNat).toNat fun c => { c with reported := true })) ∧
      (∀ i, u = .cluster i → exec (.clearingReport q u) s =
        .next (s.mapCluster (launch.clusters.getD i.toNat 0) fun k => { k with reported := true })) ∧
      (∀ d, u = .die d → exec (.clearingReport q u) s =
        .next (s.mapLaunch q fun l => { l with diesReported := l.diesReported ||| (1 <<< d.toNat) }))) ∧
    (s.stepOver launch = true →
      let stepped := s.mapLaunch q fun l => { l with
        ended := l.ended + 1, step := l.step + 1, joinTime := s.greatestPts q
        phase := if l.step + 1 < l.steps.length then .boundary else .ended }
      goes (.superstepEnd q) (stepped.decision secure)) ∧
    (s.stepOver launch = false → exec (.superstepEnd q) s = .next s) ∧
    (launch.phase = .ended → s.drained q = false → exec (.launchCompletion q) s = .next s) ∧
    (launch.phase = .ended → s.drained q = true →
      let lent := (s.ctxsOf q).filter fun c => (s.ctx c).run ≠ .free
      let left := (lent.foldl (fun s c => s.mapCtx c Context.freed) (s.forget lent)).empty q
      let done := left.complete (placeAt launch.donePa) q launch 0 launch.tadmit (left.greatestPts q)
      (launch.donePa < 2 ^ 51 → goes (.launchCompletion q) ((done.1.retain q).leave q done.2) ∧
        (((done.1.retain q).leave q done.2).queue q).admitted = none) ∧
      (2 ^ 51 ≤ launch.donePa → goes (.launchCompletion q) (done.1.mapLaunch q fun l => { l with
        phase := .recorded ((launch.donePa - 2 ^ 51) / 64), joinTime := done.2, preempt := none }))) ∧
    (∀ line, launch.phase = .recorded line →
      ((s.writeEntry line).isSome = true → exec (.launchCompletion q) s = .next s) ∧
      (s.writeEntry line = none → goes (.launchCompletion q) ((s.retain q).leave q launch.joinTime)))

/-- A pre-emption takes effect where it may and its save area holds the launch; once all has drained its clusters are
saved and released, and the scheduler restores it on the clusters it picks. `KILL` begins a teardown, which ends when
started work has: the record with status 0x10 is written and the launch leaves. A cluster whose world changes is
cleared once it is idle (R58, R59, R63, R65, R373 to R377). What a pre-emption waits for, TDBUSY until the host has
acknowledged a record, and what the part keeps of a saved launch are the model's reading (logs 11, 43 and 44). -/
def Obligations.LaunchesStop : Prop :=
  (∀ (q : BitVec 6) (s : State),
    let launch := s.launch q
    let secure := queueSecure q
    let goes (i : Instr) (t : State) : Prop := s.FloorAllows t → exec i s = .next t
    (s.stoppable q = false → exec (.preemptionTakesEffect q) s = .next s) ∧
    (s.stoppable q = true → s.savable q = false →
      let lapsed := s.mapLaunch q fun l => { l with preempt := none }
      (launch.phase = .boundary → goes (.preemptionTakesEffect q) (lapsed.decision secure)) ∧
      (launch.phase ≠ .boundary → exec (.preemptionTakesEffect q) s = .next lapsed)) ∧
    (s.stoppable q = true → s.savable q = true →
      let withdrawn := (s.ctxsOf q).foldl State.withdraw s
      let stopped := ((s.ctxsOf q).foldl State.stopCtx withdrawn).forget (s.ctxsOf q)
      goes (.preemptionTakesEffect q) (stopped.mapLaunch q fun l => { l with
        phase := .saving (launch.preempt == some true) (launch.phase == .running), preempt := none, start := none
        episodes := [] })) ∧
    (∀ hard inStep, launch.phase = .saving hard inStep → s.drained q = true → s.tellerOver q = true →
      (∀ c ∈ s.ctxsOf q, ∀ f, (s.ctx c).grant ≠ .fault f) →
      let written := (s.stopTeller q).save q inStep
      let t := s.releaseStopped q
      goes (.clusterRelease q) t ∧ (t.launch q).phase = .saved hard ∧ (t.launch q).clusters = [] ∧ t.hbm = written.hbm ∧
      (∀ p ∈ launch.clusters, (t.cluster p).placed = none) ∧
      (((written.releaseClusters q).mapLaunch q fun l => { l with phase := .saved hard }).needed secure launch.launchid = true →
        ∀ p ∈ launch.clusters, (t.cluster p).reserved = some launch.launchid)) ∧
    (∀ hard inStep, launch.phase = .saving hard inStep → s.drained q = false ∨ s.tellerOver q = false ∨
        (∃ c ∈ s.ctxsOf q, ∃ f, (s.ctx c).grant = .fault f) →
      exec (.clusterRelease q) s = .next s) ∧
    (∀ hard st, launch.phase = .saved hard → launch.start = some st →
      (∀ line rest, s.ownedImage q = line :: rest → s.hostCoherent line = true →
        exec (.launchResume q) s = .next (s.asksBack line)) ∧
      (s.ownedImage q = [] →
        let restored := (((s.applyIn st.clusters).lapseFor launch st.clusters false).takeReserved launch st.held).restore q
          st.clusters
        goes (.launchResume q) (restored.mapLaunch q fun l => { l with
          start := if l.phase = .boundary ∧ (restored.queue q).enable = true then some { st with held := [] } else none }))) ∧
    (launch.start = none → exec (.launchResume q) s = .next s) ∧
    (launch.phase = .tearing → s.jobsOver launch = true → s.postsOver q = true → s.copiesOver q = true →
      s.hostOver q = true →
      let done := (s.releaseClusters q).complete (placeAt launch.donePa) q launch 0x10 launch.tadmit (s.greatestPts q)
      (launch.donePa < 2 ^ 51 →
        goes (.teardownComplete q) (done.1.leave q done.2) ∧ ((done.1.leave q done.2).queue q).admitted = none) ∧
      (2 ^ 51 ≤ launch.donePa → goes (.teardownComplete q) (done.1.mapLaunch q fun l => { l with
        phase := .torn ((launch.donePa - 2 ^ 51) / 64), joinTime := done.2 }))) ∧
    (∀ line, launch.phase = .torn line → s.writeEntry line = none →
      goes (.teardownComplete q) (s.leave q launch.joinTime)) ∧
    (∀ line, launch.phase = .torn line → (s.writeEntry line).isSome = true →
      exec (.teardownComplete q) s = .next s)) ∧
  (∀ (world : Bool) (v : Word) (s : State),
    let q : BitVec 6 := BitVec.ofNat 6 (v.toNat % 32 + if world then 32 else 0)
    (v.getLsbD 63 = false ∨ s.ready = false ∨ s.tearing world = true ∨ s.backlogged q = false →
      exec (.kill world v) s = .next s) ∧
    (v.getLsbD 63 = true → s.ready = true → s.tearing world = false → s.backlogged q = true →
      (∀ line, (s.launch q).phase ≠ .recorded line ∧ (s.launch q).phase ≠ .torn line) →
      s.FloorAllows (s.tearDown q) →
      exec (.kill world v) s = .next (s.tearDown q) ∧ ((s.tearDown q).launch q).phase = .tearing ∧
      (∀ c ∈ s.ctxsOf q, ((s.tearDown q).ctx c).run = .free) ∧ (s.tearDown q).hbm = s.hbm)) ∧
  ∀ (cluster : BitVec 10) (s : State),
    let p := cluster.toNat
    let k := s.cluster p
    (s.enabled p = false ∨ k.placed.isSome = true ∨ k.reserved.isSome = true ∨ s.allPromised.contains p = true ∨
        k.secure = s.cworld.getLsbD p →
      exec (.clusterClearing cluster) s = .next s) ∧
    (s.enabled p = true → k.placed = none → k.reserved = none → (∀ e ∈ s.promised false ++ s.promised true, e.1 ≠ p) →
      k.secure ≠ s.cworld.getLsbD p →
      ∃ t : State, exec (.clusterClearing cluster) s = .next t ∧ (t.cluster p).secure = s.cworld.getLsbD p ∧
        (t.cluster p).slots = [] ∧ (t.cluster p).l1 = [] ∧ (t.cluster p).tlb = [] ∧ t.hbm = s.hbm ∧ t.host = s.host ∧
        t.clusterMem = s.clusterMem.clear (p * 2 ^ 19) (2 ^ 19) ∧ t.coreMem = s.coreMem.clear (p * 2 ^ 20) (2 ^ 20) ∧
        ∀ i, i < 8 → (t.core (8 * p + i)).itlb = [] ∧ (t.core (8 * p + i)).dtlb = [])

/-! ## Registers of the host and of firmware (R44 to R48, R62, R63, R78, R83, R100, R336, R342, R401) -/

/-- The registers of BAR0 and BAR2 by their offsets, once READY is set: each takes the fields that the maps of R71, R83,
R340, R342, R367, R403 and R405 make writable and keeps the reserved bits zero; a field out of range keeps its value; a bit
that is written with 1 to clear it is cleared; an offset that stands for one of the other writes does what that one does;
and CWORLD, CSWORLD and the region table stand in BAR2 alone, the peer windows and what belongs to the part in BAR0. -/
def RegistersByOffset : Prop :=
  ∀ (v : Word) (secure : Bool) (n : Nat) (s : State), s.ready = true →
    let writes (secure : Bool) (off : Nat) (t : State) : Prop :=
      exec (.barRegisterWrite secure (BitVec.ofNat 24 off) 8 v) s = .next t
    let same (secure : Bool) (off : Nat) (i : Instr) : Prop :=
      exec (.barRegisterWrite secure (BitVec.ofNat 24 off) 8 v) s = exec i s
    let world (f : WorldRegs → WorldRegs) : State := s.mapWorld secure f
    let old := s.world secure
    let five := v.toNat % 32
    -- the page table
    (five = 0 ∨ (4 ≤ five ∧ five ≤ 20) → writes secure 0x3000 (world fun w =>
      { w with hpt := (v &&& 0x000F_FFFF_FFFF_FF80) + BitVec.ofNat 64 five })) ∧
    (¬ (five = 0 ∨ (4 ≤ five ∧ five ≤ 20)) → writes secure 0x3000 (world fun w =>
      { w with hpt := (v &&& 0x000F_FFFF_FFFF_FF80) + (old.hpt &&& 0x1F) })) ∧
    writes secure 0x3018 (world fun w => { w with iovf := w.iovf && !v.getLsbD 1 }) ∧
    -- the fault rings, the supervisor and the save areas
    writes secure 0x3020 (world fun w => { w with frbase := v &&& 0x000F_FFFF_FFFF_F000 }) ∧
    writes secure 0x3028 (world fun w =>
      { w with frlog2 := if v.toNat % 16 = 0 ∨ 7 ≤ v.toNat % 16 then v.setWidth 4 else w.frlog2 }) ∧
    writes secure 0x3048 (world fun w => { w with supv := v &&& 0x8000_0000_03FF_003F }) ∧
    writes secure 0x3050 (world fun w => { w with supvid := v.setWidth 32 }) ∧
    writes secure 0x3058 (world fun w => { w with savebase := v &&& 0x000F_FFFF_FFE0_0000 }) ∧
    writes secure 0x3060 (world fun w =>
      { w with savelog2 := if five = 0 ∨ 21 ≤ five then v.setWidth 5 else w.savelog2 }) ∧
    -- the key-value region
    (s.worldPlaced secure = false →
      writes secure 0x3090 (world fun w => { w with kvLo := v &&& 0x800F_FFFF_FFE0_0000 }) ∧
      writes secure 0x3098 (world fun w => { w with kvHi := v &&& 0x000F_FFFF_FFE0_0000 })) ∧
    (s.worldPlaced secure = true → writes secure 0x3090 s ∧ writes secure 0x3098 s) ∧
    -- the trace rings
    (n < 8 →
      let ring := SMap.at old.traces .reset n
      writes secure (0x3300 + 32 * n) (world fun w =>
        { w with traces := SMap.put w.traces n { ring with base := v &&& 0x000F_FFFF_FFFF_F000 } }) ∧
      writes secure (0x3308 + 32 * n) (world fun w =>
        { w with traces := SMap.put w.traces n { ring with
            log2 := if five = 0 ∨ (3 ≤ five ∧ five ≤ 20) then v.setWidth 5 else ring.log2 } }) ∧
      writes secure (0x3310 + 32 * n) s ∧ same secure (0x3318 + 32 * n) (.trtail secure (BitVec.ofNat 3 n) v) ∧
      -- the worlds of the chip scratchpads
      same true (0x1180 + 8 * n) (.csworldWrite (BitVec.ofNat 3 n) v) ∧ writes false (0x1180 + 8 * n) s) ∧
    -- the worlds of the clusters, the peer windows and the assay entries
    (n < 16 →
      same true (0x1100 + 8 * n) (.cworldWrite (BitVec.ofNat 4 n) v) ∧ writes false (0x1100 + 8 * n) s ∧
      (let peer := s.peers.toList.getD n {}
       let put (w : PeerWindow) : State := { s with peers := s.peers.setIfInBounds n w }
       writes false (0x3400 + 32 * n) (put { peer with lo := v &&& 0x800F_FFFF_FFE0_0000 }) ∧
       writes false (0x3408 + 32 * n) (put { peer with hi := v &&& 0x000F_FFFF_FFE0_0000 }) ∧
       writes false (0x3410 + 32 * n) (put { peer with src := v &&& 0x3F_FFFF }) ∧
       writes true (0x3400 + 32 * n) s ∧ writes true (0x3408 + 32 * n) s ∧ writes true (0x3410 + 32 * n) s) ∧
      ∀ j, j < 8 → same secure (0x4000 + 64 * n + 8 * j) (.assayRangeWrite secure (BitVec.ofNat 4 n) (BitVec.ofNat 3 j) v)) ∧
    -- the region table, and the queue blocks
    (n < 32 →
      (let entry := s.regions.toList.getD n {}
       let put (e : RegionEntry) : State := { s with regions := s.regions.setIfInBounds n e }
       writes true (0x2000 + 16 * n) (put { entry with lo := v &&& 0x800F_FFFF_FFE0_0000 }) ∧
       writes true (0x2008 + 16 * n) (put { entry with hi := v &&& 0x000F_FFFF_FFE0_0000 }) ∧
       writes false (0x2000 + 16 * n) s ∧ writes false (0x2008 + 16 * n) s) ∧
      (let q : BitVec 6 := BitVec.ofNat 6 (n + if secure then 32 else 0)
       let block := 0x10_0000 + 64 * n
       same secure block (.qsub q v) ∧ same secure (block + 8) (.tickets q v) ∧ same secure (block + 32) (.preempt q v) ∧
       writes secure (block + 16) (s.mapQueue q fun k => { k with
         ovf := k.ovf && !v.getLsbD 23, badw := k.badw && !v.getLsbD 22, rej := k.rej && !v.getLsbD 21 }) ∧
       writes secure (block + 24) s)) ∧
    same secure 0x3010 (.tlbInvalidationRequest secure v) ∧ same secure 0x3038 (.frtail secure v) ∧
    same secure 0x3040 (.replayRegisterWrite secure v) ∧ same secure 0x3068 (.kill secure v) ∧
    -- the part
    same false 0x3200 (.hcsize v) ∧ writes false 0x3210 { s with nodeid := v.setWidth 22 } ∧
    writes false 0x3220 { s with timeStepped := s.timeStepped && !v.getLsbD 1 } ∧
    (let limit := v.toNat % 4096
     let t : State := { s with plimit := BitVec.ofNat 12 limit }
     (1000 ≤ limit ∧ limit ≤ 3200 → writes false 0x3230
       (if t.overLimit s.sensors = true then { t with throttled := true, thhist := true } else t)) ∧
     (¬ (1000 ≤ limit ∧ limit ≤ 3200) → writes false 0x3230 s)) ∧
    writes false 0x3238 { s with thhist := s.thhist && !v.getLsbD 1 } ∧
    writes true 0x3200 s ∧ writes true 0x3210 s ∧ writes true 0x3220 s ∧ writes true 0x3230 s ∧ writes true 0x3238 s

/-- The writes of BAR0 and BAR2 registers: QSUB appends its address, before what `LAUNCH` has appended in the same cycle, or
sets OVF for a full queue and BADW alone for one that is no multiple of 128; TICKETS takes 1 to 1,024; the control word
takes ENABLE and a request to pre-empt; each is a decision point; CWORLD, CSWORLD, FRTAIL, TRTAIL, HCSIZE and the assay
entries take their fields; a TLB invalidation is one at a time and drops what it names once no access that uses it is in
flight; nothing but a queue block answers before READY, and a malformed write has no effect but BADW. What an invalidation
waits for, and what a superstep that was granted becomes when ENABLE is cleared, are the model's reading (logs 38 and 47).
Each register by its offset is in `RegistersByOffset`. -/
def Obligations.RegistersAreWritten : Prop :=
  RegistersByOffset ∧
  ∀ (q : BitVec 6) (v : Word) (secure : Bool) (die : BitVec 3) (word : BitVec 4) (i : BitVec 4) (j : BitVec 3)
    (off : BitVec 24) (size : BitVec 8) (s : State),
    let goes (i : Instr) (t : State) : Prop := s.FloorAllows t → exec i s = .next t
    let entry : QueueEntry := { addr := v, virt := none, by_ := none }
    let queue := s.queue q
    (s.ready = false ∨ v.toNat % 128 ≠ 0 →
      exec (.qsub q v) s = .next ((s.mapQueue q fun k => { k with badw := true }).decision (queueSecure q))) ∧
    (s.ready = true → v.toNat % 128 = 0 → ∀ early late, queue.entries = early ++ late →
      (∀ x ∈ late, x.fresh s.clock = true) → (∀ x, early.getLast? = some x → x.fresh s.clock = false) →
      (queue.entries.length < 256 →
        exec (.qsub q v) s =
          .next ((s.setQueue q { queue with entries := early ++ entry :: late }).decision (queueSecure q))) ∧
      (256 ≤ queue.entries.length → late = [] →
        exec (.qsub q v) s = .next ((s.setQueue q { queue with ovf := true }).decision (queueSecure q))) ∧
      (∀ keep x c (d : XReg) t, 256 ≤ queue.entries.length → late = keep ++ [x] → x.by_ = some (c, d, t) → d ≠ 0 →
        exec (.qsub q v) s = .next ((((s.setQueue q { queue with entries := early ++ entry :: keep, ovf := true }).mapCtx c
          fun m => { m with regs := { m.regs with x := m.regs.x.set d.toNat 1 } })).decision (queueSecure q)))) ∧
    (let n := v.toNat % 2 ^ 11
     exec (.tickets q v) s = .next ((if s.ready = true ∧ 1 ≤ n ∧ n ≤ 1024 then
       s.mapQueue q fun k => { k with tickets := BitVec.ofNat 11 n } else s).decision (queueSecure q))) ∧
    (let set := s.mapQueue q fun k => { k with enable := v.getLsbD 0 }
     let ends := if v.getLsbD 0 = true ∨ (s.launch q).phase ≠ .boundary then set
       else set.mapLaunch q fun l => { l with start := none }
     let wants := (ends.launch q).placed = true ∧ ends.savable q = true
     let asked := if v.getLsbD 1 = true ∧ wants then
         ends.mapLaunch q fun l => { l with preempt := some (v.getLsbD 2 || l.preempt = some true) }
       else ends
     let t := if s.ready = true then asked else s
     exec (.preempt q v) s = .next (t.decision (queueSecure q)) ∧
     exec (.enable q v) s = .next (t.decision (queueSecure q))) ∧
    (s.ready = true →
      (∃ w : BitVec 1024, exec (.cworldWrite word v) s = .next { s with cworld := w } ∧ ∀ k, k < 1024 →
        w.getLsbD k = if k / 64 = word.toNat then v.getLsbD (k % 64) else s.cworld.getLsbD k) ∧
      exec (.csworldWrite die v) s =
        .next { s with csworld := s.csworld.setIfInBounds die.toNat (v.setWidth 32) } ∧
      exec (.frtail secure v) s = .next (s.mapWorld secure fun w => { w with frtail := v.setWidth 16 }) ∧
      exec (.trtail secure die v) s = .next (s.mapWorld secure fun w => { w with
        traces := SMap.put w.traces die.toNat
          { SMap.at w.traces .reset die.toNat with tail := v.setWidth 20, lost := 0 } }) ∧
      (s.anyPlaced = false → v.toNat % 128 ≤ 64 → v.toNat % 128 ≤ 48 * s.enabledStacks.length →
        exec (.hcsize v) s = .next { s with hcsize := v.setWidth 7 }) ∧
      (s.anyPlaced = true ∨ 64 < v.toNat % 128 → exec (.hcsize v) s = .next s) ∧
      ((s.world secure).inval = none →
        exec (.tlbInvalidationRequest secure v) s = .next (s.mapWorld secure fun w => { w with inval := some v })) ∧
      ((s.world secure).inval ≠ none →
        exec (.tlbInvalidationRequest secure v) s = .next (s.mapWorld secure fun w => { w with iovf := true })) ∧
      (let old := s.assay.toList.getD i.toNat {}
       (secure = false → old.sec = true → exec (.assayRangeWrite secure i j v) s = .next s) ∧
       (secure = true ∨ old.sec = false → ∃ t : State, exec (.assayRangeWrite secure i j v) s = .next t ∧
         t.hbm = s.hbm ∧
         (j = 0 → t.assay.toList.getD i.toNat {} = { old with
           w0 := (v &&& 0xBE0F_FFFF_FFFF_0000) ||| ((if secure then v else old.w0) &&& 0x4000_0000_0000_0000) }) ∧
         (5 ≤ j.toNat → t.assay.toList.getD i.toNat {} = old) ∧
         (∀ m, m ≠ i.toNat → t.assay.toList.getD m {} = s.assay.toList.getD m {}) ∧ (j = 1 → t.assay.toList.getD i.toNat {} =
           { old with vlast := BitVec.ofNat 64 (v.toNat / 2 ^ 16 % 2 ^ 36 * 2 ^ 16) }) ∧
         (j = 2 → t.assay.toList.getD i.toNat {} =
           { old with cbase := BitVec.ofNat 64 (v.toNat / 2 ^ 7 % 2 ^ 45 * 2 ^ 7) }) ∧
         (j = 3 → t.assay.toList.getD i.toNat {} =
           { old with sbase := BitVec.ofNat 64 (v.toNat / 2 ^ 7 % 2 ^ 45 * 2 ^ 7) }) ∧
         (j = 4 → t.assay.toList.getD i.toNat {} =
           { old with tbase := BitVec.ofNat 64 (v.toNat / 2 ^ 10 % 2 ^ 42 * 2 ^ 10) })))) ∧
    (s.ready = false → exec (.cworldWrite word v) s = .next s ∧ exec (.csworldWrite die v) s = .next s ∧
      exec (.frtail secure v) s = .next s ∧ exec (.trtail secure die v) s = .next s ∧ exec (.hcsize v) s = .next s ∧
      exec (.tlbInvalidationRequest secure v) s = .next s ∧ exec (.assayRangeWrite secure i j v) s = .next s) ∧
    ((s.world secure).inval = none → exec (.tlbInvalidationDone secure) s = .next s) ∧
    (∀ w, (s.world secure).inval = some w → s.inFlight secure w = true → exec (.tlbInvalidationDone secure) s = .next s) ∧
    (∀ w, (s.world secure).inval = some w → s.inFlight secure w = false →
      ∃ t : State, exec (.tlbInvalidationDone secure) s = .next t ∧ (t.world secure).inval = none ∧
        t.contexts = s.contexts ∧
        (∀ p, (t.cluster p).tlb = (s.cluster p).tlb.filter fun e => !e.named secure w) ∧
        ∀ c, (t.core c).itlb = (s.core c).itlb.filter (fun e => !e.named secure w) ∧
          (t.core c).dtlb = (s.core c).dtlb.filter fun e => !e.named secure w) ∧
    (size ≠ 8 ∨ off.toNat % 8 ≠ 0 →
      (∀ b, queueAt secure off.toNat = some b →
        exec (.barRegisterWrite secure off size v) s = .next (s.mapQueue b fun k => { k with badw := true })) ∧
      (queueAt secure off.toNat = none → exec (.barRegisterWrite secure off size v) s = .next s)) ∧
    (size = 8 → off.toNat % 8 = 0 → s.FloorAllows (s.barWrite secure off.toNat v) →
      exec (.barRegisterWrite secure off size v) s = .next (s.barWrite secure off.toNat v)) ∧
    (∀ b k, b < 32 → k < 8 → s.barWrite secure (0x10_0000 + 64 * b + 8 * k) v =
      s.writeQueue (BitVec.ofNat 6 (b + if secure then 32 else 0)) k v)

/-! ## The host over CXL (R286 to R288, R334 to R336, R346) -/

/-- A snoop takes a host line away, shares it or reads it, and the bridge answers as the line's state asks, or as for I
where a fill of the line is in flight, with HMTS past a line that left and its old data kept where the cache chooses to; the
host write that a SnpInv serves reaches host memory after it. A fill is installed at HMTS + 1, or answers, at their own pts,
the loads that wait for a line taken away meanwhile, and a write entry's bytes reach host memory with the host's
GO. The host's own reads and writes of HBM reach normal memory alone, and none of what only `CPYA` may write, and its
answers to back-invalidations end them. HMTS at an eviction and at a GO, and that a fill is dropped beside a write entry,
are the model's reading (logs 29 and 48). -/
def Obligations.HostTraffic : Prop :=
  ∀ (pa : PAddr) (w : Option HostWrite) (keep exclusive : Bool) (bytes : List Byte) (n : BitVec 8) (data : Vec) (s : State),
    let line := pa.toNat % 2 ^ 51 / 64
    let dline := pa.toNat / 128
    let goes (i : Instr) (t : State) : Prop := s.FloorAllows t → exec i s = .next t
    let served (t : State) : State := match w with
      | some x => t.writeHost line x.data x.mask
      | none => t
    (s.hostLine line = none →
      exec (.snpdata pa) s = .next ((s.takeFill line).emit (.rspIHitI line)) ∧ exec (.snpcur pa) s = .next s ∧
      exec (.snpinv pa w keep) s = .next (served ((s.takeFill line).emit (.rspIHitI line)))) ∧
    (∀ x, s.hostLine line = some x →
      let shared (t : State) : State :=
        { t with hostLines := t.hostLines.map fun y => if y.line = line then { y with state := .s } else y }
      (x.state = .m → exec (.snpcur pa) s = .next (s.emit (.snpCurData line x.data))) ∧
      (x.state ≠ .m → exec (.snpcur pa) s = .next s) ∧
      (s.filling line = false →
        (x.state = .m →
          exec (.snpdata pa) s = .next (shared ((s.writeHostLine line x.data).emit (.rspSFwdM line x.data)))) ∧
        (x.state ≠ .m → exec (.snpdata pa) s = .next (shared (s.emit (.rspSHitSE line))))) ∧
      (s.filling line = true → exec (.snpdata pa) s = exec (.snpinv pa none false) s) ∧
      (s.FloorAllows (s.assign x.stamp.rts) →
        ∃ t : State, exec (.snpinv pa w keep) s = .next t ∧ t.hostLine line = none ∧
          t.out = s.out ++ [if s.filling line then .rspIHitI line
            else if x.state = .m then .rspIFwdM line x.data else .rspIHitSE line] ∧
          t.host = (served (if x.state = .m ∧ s.filling line = false then s.writeHostLine line x.data else s)).host ∧
          (let others := s.superseded.filter fun y => y.line ≠ line
           t.superseded = if keep then { line := line, data := x.data, stamp := x.stamp } :: others else others) ∧
          t.hostFills = (s.takeFill line).hostFills ∧
          t.hmts line = tsMax (s.hmts line) x.stamp.rts ∧ t.contexts = s.contexts)) ∧
    (s.hostFills.find? (fun f => f.line = line) = none → exec (.goS pa exclusive) s = .next s) ∧
    (∀ f, s.hostFills.find? (fun f => f.line = line) = some f →
      let fills := s.hostFills.filter fun g => g.line ≠ line
      let answer : Line64 := BitVec.ofNat 512 (s.host.readN (64 * line) 64)
      let set := s.hostLines.filter fun x => hostSet x.line = hostSet line
      let installed (u : State) (t : Ts) : Prop :=
        u.hostLine line = some
          { line := line, state := if exclusive || f.own then .e else .s, data := answer, stamp := { wts := t, rts := t } } ∧
        u.hostFills = fills ∧ u.contexts = s.contexts
      (f.taken = false → (s.writeEntry line).isSome = true →
        exec (.goS pa exclusive) s = .next { s with hostFills := fills }) ∧
      (f.taken = false → s.writeEntry line = none →
        (s.hostLine line = none → set.length < 16 →
          let t := s.hmts line + 1
          s.FloorAllows (s.assign t) → ∃ u : State, exec (.goS pa exclusive) s = .next u ∧ installed u t) ∧
        (∀ x, s.hostLine line = some x →
          let t := tsMax (s.hmts line) x.stamp.rts + 1
          s.FloorAllows ((s.assign x.stamp.rts).assign t) →
          ∃ u : State, exec (.goS pa exclusive) s = .next u ∧ installed u t) ∧
        (∀ x, s.hostLine line = none → 16 ≤ set.length → set.getLast? = some x →
          let t := tsMax (s.hmts line) x.stamp.rts + 1
          s.FloorAllows ((s.assign x.stamp.rts).assign t) →
          ∃ u : State, exec (.goS pa exclusive) s = .next u ∧ installed u t ∧ u.hostLine x.line = none ∧
            u.out = s.out ++ [if x.state = .m then .dirtyEvict x.line x.data else .cleanEvict x.line] ∧
            u.host = if x.state = .m then (s.writeHostLine x.line x.data).host else s.host)) ∧
      (∀ y, f.taken = true → f.waiters = [y] → s.FloorAllows (s.assign y.pts) →
        let a : HostAnswer := { line := line, data := answer, wts := y.pts }
        ∃ u : State, exec (.goS pa exclusive) s = .next u ∧ u.hostLine line = s.hostLine line ∧ u.hostFills = fills ∧
          u.hmts line = tsMax (s.hmts line) y.pts ∧
          (y.unit = none →
            u.ctx y.ctx = { s.ctx y.ctx with hostAnswers := a :: (s.ctx y.ctx).hostAnswers } ∧
            u.unitAnswers = s.unitAnswers) ∧
          (∀ k, y.unit = some k → u.contexts = s.contexts ∧ u.unitAnswers = (k, a) :: s.unitAnswers))) ∧
    (s.writeEntry line = none → exec (.writeEntryRelease pa) s = .next s) ∧
    (∀ e, s.writeEntry line = some e →
      exec (.writeEntryRelease pa) s = .next (e.owners.foldl (fun s c => s.mapCtx c fun k => { k with sout := k.sout - 1 })
        { s.writeHost line e.data e.mask with
          writeEntries := s.writeEntries.filter fun (y : WriteEntry) => y.line ≠ line })) ∧
    exec (.supersededCopyDrop pa) s = .next { s with superseded := s.superseded.filter fun x => x.line ≠ line } ∧
    (s.hostReaches pa.toNat bytes.length = false ∨ s.assayBytes pa.toNat bytes.length = true →
      exec (.hostCxlMemWrite pa bytes) s = .next (s.emit (.memWriteDone pa))) ∧
    (s.hostReaches pa.toNat bytes.length = true → s.assayBytes pa.toNat bytes.length = false →
      goes (.hostCxlMemWrite pa bytes) ((s.storeBytes false (bytes.length + 1) pa.toNat bytes).emit (.memWriteDone pa)) ∧
      (s.hbm.wf = true → ∀ b, bytes = [b] →
        (s.storeBytes false (bytes.length + 1) pa.toNat bytes).hbm.read pa.toNat = b)) ∧
    (s.hostReaches pa.toNat n.toNat = false →
      exec (.hostCxlMemRead pa n) s = .next (s.emit (.memReadData pa (List.replicate n.toNat 0xFF) true))) ∧
    (s.hostReaches pa.toNat n.toNat = true → ∃ t : State, exec (.hostCxlMemRead pa n) s = .next t ∧
      t.out = s.out ++ [.memReadData pa ((List.range n.toNat).map fun i => s.hbm.read (pa.toNat + i)) false] ∧
      t.hbm = s.hbm ∧ t.contexts = s.contexts) ∧
    ((∀ b ∈ s.backInvals, ¬ (b.line = dline ∧ b.forData = true)) → exec (.bisnpdataResponse pa data) s = .next s) ∧
    ((∃ b ∈ s.backInvals, b.line = dline ∧ b.forData = true) →
      let given (t : State) : State := { t with
        backInvals := t.backInvals.filter fun b => !(b.line = dline ∧ b.forData)
        hostOwned := t.hostOwned.filter (· ≠ dline) }
      let stored := (s.storeHome dline 0 128 data.toNat s.high false).1
      (s.assayBytes (dline * 128) 128 = true → exec (.bisnpdataResponse pa data) s = .next (given s)) ∧
      (s.assayBytes (dline * 128) 128 = false → goes (.bisnpdataResponse pa data) (given stored) ∧
        (s.hbm.wf = true → stored.hbm.readN (dline * 128) 128 = data.toNat))) ∧
    (s.backInvals.find? (fun b => b.line = dline ∧ b.forData = false) = none → exec (.bisnpinvAck pa) s = .next s) ∧
    (∀ b, s.backInvals.find? (fun b => b.line = dline ∧ b.forData = false) = some b →
      exec (.bisnpinvAck pa) s = .next (b.owners.foldl (fun s c => s.mapCtx c fun k => { k with sout := k.sout - 1 })
        { s with
          backInvals := dropFirst (fun x => decide (x.line = dline) && !x.forData) s.backInvals
          hostOwned := s.hostOwned.filter (· ≠ dline) }))

/-! ## Peers, time, power and management (R231, R272, R279, R282, R337 to R341, R401, R404 to R407) -/

/-- A peer's write of a unit or a part of one is performed in an enabled window, as a store that tells the host, and refused
elsewhere and where it meets bytes that only `CPYA` may write; its read answers with the bytes, once the host has given back
what it owns of them; its message is appended to a MSG line of a placed normal cluster, left outside while the queue is full,
and refused elsewhere. Each answer is a flit that names this node and takes the link's next sequence number. An acknowledged
message lowers SOUT, and a lost one is counted too. A unit of a peer copy that was performed is written here where it
was read from the peer; one that is refused or lost is to fault its job, which is no other than the one that sent it. A link
that fails takes its flits with it: its messages are lost and lower SOUT, and its jobs fault with ENGFLT and LINK set (R103,
R231, R337 to R340). A message that waits outside, the form of an answer, and the fault of a peer copy whose link is gone are
the model's reading (logs 25 and 48). -/
def Obligations.PeerTraffic : Prop :=
  ∀ (src : BitVec 22) (pa : PAddr) (len : BitVec 8) (data : Vec) (cluster : BitVec 10) (l : BitVec 6) (msg : Word) (i : Nat)
    (v : PeerVerdict) (link : BitVec 5) (s : State),
    let n := len.toNat
    let admitted := ∃ w ∈ s.peers.toList, w.lo.getLsbD 63 = true ∧
      (w.src.toNat = src.toNat ∨ w.src.toNat = 2 ^ 22 - 1) ∧ w.lo.toNat % 2 ^ 52 / 2 ^ 21 * 2 ^ 21 ≤ pa.toNat ∧
      pa.toNat + n ≤ (w.hi.toNat % 2 ^ 52 / 2 ^ 21 + 1) * 2 ^ 21
    let reaches := s.hostReaches pa.toNat n
    let line := s.line cluster.toNat l
    let k := s.cluster cluster.toNat
    let open_ := s.dark = false ∧ s.enabled cluster.toNat = true ∧ k.secure = false ∧ k.placed.isSome = true ∧ line.mode = .msg
    let st := line.stamp.store s.high
    let answered (t : State) (addr : Nat) (verdict : PeerVerdict) (n : Nat) (d : Vec) : State :=
      let link := (t.linkFor src addr).getD 0
      let seq := SMap.at t.linkSeq 0 link
      { t with
        out := t.out ++ [.flit link
          { dest := src, source := t.nodeid, kind := .reply verdict, seq := seq, credits := Config.flitCredits link seq.toNat
            target := BitVec.ofNat 64 addr, len := n, data := d
            crc := Config.flitCrc (d.toNat * 2 ^ 64 + (BitVec.ofNat 64 addr : Word).toNat) }]
        linkSeq := SMap.put t.linkSeq link (seq + 1) }
    let gone : State := { s with flits := s.flits.eraseIdx i }
    let writes (t : State) : Prop := moveWith exec (.peerWritePart src pa len data) s = .next t ∧
      (n = 128 → exec (.peerWrite src pa data) s = .next t)
    (¬ (admitted ∧ reaches = true) ∨ s.assayBytes pa.toNat n = true → writes (answered s pa.toNat .refused 0 0)) ∧
    (admitted → reaches = true → s.assayBytes pa.toNat n = false →
      let stored := s.storeBytes true (n + 1) pa.toNat
        ((List.range n).map fun i => BitVec.ofNat 8 (data.toNat / 2 ^ (8 * i)))
      s.FloorAllows stored → writes (answered stored pa.toNat .performed 0 0)) ∧
    (¬ (admitted ∧ reaches = true) →
      moveWith exec (.peerRead src pa len) s = .next (answered s pa.toNat .refused 0 0)) ∧
    (admitted → reaches = true →
      (s.hostOwned.contains (pa.toNat / 128) = false → s.hostOwned.contains ((pa.toNat + n - 1) / 128) = false →
        moveWith exec (.peerRead src pa len) s =
          .next (answered s pa.toNat .performed n (BitVec.ofNat 1024 (s.hbm.readN pa.toNat n)))) ∧
      (s.hostCoherent (pa.toNat / 128) = true → s.hostOwned.contains (pa.toNat / 128) = true →
        moveWith exec (.peerRead src pa len) s = .next (s.asksBack (pa.toNat / 128)))) ∧
    (¬ open_ → exec (.peerEvmsgArrival src cluster l msg) s =
      .next (answered { s with pxref := s.pxref + 1 } (64 * cluster.toNat + l.toNat) .refused 0 0)) ∧
    (open_ → 16 ≤ line.queue.length → exec (.peerEvmsgArrival src cluster l msg) s = .next s) ∧
    (open_ → line.queue.length < 16 → line.waiters = [] → s.FloorAllows (s.assign st.wts) →
      exec (.peerEvmsgArrival src cluster l msg) s = .next (answered ((s.setLine cluster.toNat l { line with
        queue := line.queue ++ [msg], stamp := st }).assign st.wts) (64 * cluster.toNat + l.toNat) .performed 0 0)) ∧
    (s.flits[i]? = none → exec (.fabricAck i v data) s = .next s) ∧
    (∀ f, s.flits[i]? = some f → f.job = none →
      let back := gone.mapCtx f.sender fun k => { k with sout := k.sout - 1 }
      (v ≠ .lost → exec (.fabricAck i v data) s = .next back) ∧
      (v = .lost → exec (.fabricAck i v data) s = .next { back with pxlost := back.pxlost + 1 })) ∧
    (∀ f p q id, s.flits[i]? = some f → f.job = some (p, q, id) →
      ((∀ j, s.runningJob p true q = some j → j.id ≠ id ∨ j.failed.isSome = true) →
        ∃ t : State, exec (.fabricAck i v data) s = .next t ∧ t.runningJob p true q = s.runningJob p true q ∧
          t.flits = gone.flits ∧ t.contexts = s.contexts ∧ t.hbm = s.hbm) ∧
      (∀ j, s.runningJob p true q = some j → j.id = id → j.failed = none →
        (∀ code cause, (v = .refused ∧ code = 0x11 ∧ cause = (false, BitVec.ofNat 64 f.peer)) ∨
            (v = .lost ∧ code = 0x29 ∧ cause = (true, f.local_)) →
          ∃ t : State, exec (.fabricAck i v data) s = .next t ∧ t.flits = gone.flits ∧ t.contexts = s.contexts ∧
            t.hbm = s.hbm ∧ t.runningJob p true q = some { j with failed := some (code, cause) }) ∧
        (v = .performed → (∃ dst from_ m node, j.kind = .peerCopy dst from_ m true node) →
          exec (.fabricAck i v data) s = .next gone) ∧
        (v = .performed → (∃ dst from_ m node, j.kind = .peerCopy dst from_ m false node) → ∀ u at_,
          j.kind.parts.findIdx? (fun u => u.dst = f.local_) = some at_ → j.kind.parts[at_]? = some u →
          let waits (n : Nat) : Bool := s.flits.any fun g => g.job = f.job ∧ some g.local_ = (j.kind.parts[n]?).map (·.dst)
          let written := (writePart { s.jobThread p j with unit := some (.copy p q at_) } j.kind.parts
            (j.units.filter fun m => !waits m) [at_] u data.toNat j.time).run s
          (∀ pts t, written = .ok pts t → s.FloorAllows t →
            exec (.fabricAck i v data) s = .next { (t.mapCopy p q fun j => { j with time := tsMax j.time pts }) with
              flits := t.flits.eraseIdx i }) ∧
          (∀ e t, written = .error (.trap e) t → s.FloorAllows t →
            exec (.fabricAck i v data) s = .next { (t.failPeer p q id e.cause.code false e.faddr) with
              flits := t.flits.eraseIdx i })))) ∧
    (∃ t : State, exec (.linkFailure link) s = .next t ∧
      t.linkup = s.linkup &&& ~~~((1 : BitVec 32) <<< link.toNat) ∧
      t.flits = s.flits.filter (fun f => f.link ≠ link.toNat) ∧ t.hbm = s.hbm ∧ t.host = s.host ∧ t.out = s.out ∧
      (let messages := s.flits.filter fun f => f.link = link.toNat ∧ f.job = none
       t.pxlost = s.pxlost + BitVec.ofNat 32 messages.length ∧
       ∀ c, t.ctx c = { s.ctx c with sout := (s.ctx c).sout - (messages.filter fun f => f.sender = c).length }) ∧
      ∀ p q j, s.runningJob p true q = some j → j.failed = none →
        t.runningJob p true q = some { j with
          failed := (s.flits.find? fun f => f.link = link.toNat ∧ f.job = some (p, q, j.id)).map fun f =>
            (0x29, true, f.local_) }) ∧
    exec (.linkUp link) s = .next { s with linkup := s.linkup ||| ((1 : BitVec 32) <<< link.toNat) }

/-- Every context that is not FREE advances by one tick each 256 cycles, or waits for FLOOR and owes the tick; FLOOR becomes
HIGH less 2^16 each 4,096 cycles, and contexts then make the advances they owe; the ageing sweep lifts to FLOOR what trails
it by 2^18 or more, in every kind of holder, and drops the copies that do (R272, R279, R282). PTP steps TIME forward by a
millisecond or more and slews it otherwise; the readings throttle the part, and trip it where a junction reaches 105 degrees
or the flow has stayed below 2.0 L/min for a second: every launch is then torn down, and the compute dies lose their power
once none is left (R341, R405 to R407); a trip that the readings call for comes before the next cycle. Management answers
with the part's identity, readings, error counts, handle slots one by one, and power limit; a conventional reset leaves the
state of reset, with what lies outside the part and the throttling that its readings call for, and READY follows (R401,
R404). How a self-advance waits for FLOOR, the free fuse revision, what a part without power holds, and the 0 that unwritten
memory reads as are the model's choice (logs 4, 7, 8, 40, 51 and 58). -/
def Obligations.PartTimePowerAndManagement : Prop :=
  ∀ (offset : Word) (on : Bool) (r : Sensors) (h : Holder) (cluster : BitVec 10) (v : Word) (s : State),
    let goes (i : Instr) (t : State) : Prop := s.FloorAllows t → exec i s = .next t
    let hot (n : Nat) : Prop := ∃ j ∈ r.junction.toList, n ≤ j.toNat
    let outside := s.plimit.toNat < r.power.toNat ∨ hot 95 ∨ 40 < r.inlet.toNat
    let sensed : State := { s with
      sensors := r, flowLow := if r.flow.toNat < 20 then some (s.flowLow.getD s.clock) else none }
    let throttled : State := { sensed with throttled := true, thhist := true }
    let listed := s.contexts.map (·.1)
    let lift (t : Ts) : Ts := if tsLe t s.floor = true ∧ 2 ^ 18 ≤ (s.floor - t).toNat then s.floor else t
    let both (st : Stamp) : Stamp := { wts := lift st.wts, rts := lift st.rts }
    let stays (st : Stamp) : Bool := !(s.trails st.wts || s.trails st.rts)
    -- the self-advance, and FLOOR
    (s.clock < s.advanced + 256 → exec .selfAdvance s = .next s) ∧
    (s.advanced + 256 ≤ s.clock → listed.Nodup → (∀ n ∈ listed, n = ctxKey (ctxOf n)) →
      let t : State := { (listed.map ctxOf).foldl State.advance s with advanced := s.advanced + 256 }
      goes .selfAdvance t ∧ t.clusters = s.clusters ∧ t.hbm = s.hbm ∧
      ∀ c, ctxKey c ∈ listed →
        let k := s.ctx c
        (k.run = .free → t.ctx c = k) ∧
        (k.run ≠ .free → k.advances = 0 → tsLe (k.pts + 1) (s.floor + 0x20000) = true →
          t.ctx c = { k with pts := k.pts + 1 }) ∧
        (k.run ≠ .free → k.advances ≠ 0 ∨ tsLe (k.pts + 1) (s.floor + 0x20000) = false →
          t.ctx c = { k with
            advances := k.advances + 1
            run := if k.run = .running then .waiting else k.run
            wait := if k.run = .running then .beforeIssue else k.wait })) ∧
    (s.clock < s.floored + 4096 → exec .floor s = .next s) ∧
    (s.floored + 4096 ≤ s.clock → listed.Nodup → (∀ n ∈ listed, n = ctxKey (ctxOf n)) →
      let sent : State := { s with floor := s.high - 0x10000, floored := s.floored + 4096 }
      let t := (listed.map ctxOf).foldl State.catchUp sent
      goes .floor t ∧ t.floor = s.high - 0x10000 ∧ t.floored = s.floored + 4096 ∧ t.clusters = s.clusters ∧
      ∀ c, ctxKey c ∈ listed →
        t.ctx c = { s.ctx c with pts := (s.ctx c).pts + BitVec.ofNat 20 (s.ctx c).advances, advances := 0 }) ∧
    -- the ageing sweep
    (∃ t : State, exec (.ageingSweep h) s = .next t ∧
      (t.hbm, t.host, t.coreMem, t.clusterMem, t.chipMem) = (s.hbm, s.host, s.coreMem, s.clusterMem, s.chipMem) ∧
      (∀ c, h = .contexts → ctxKey c ∈ listed →
        (t.ctx c).pts = lift (s.ctx c).pts ∧ (t.ctx c).ackTime = lift (s.ctx c).ackTime ∧ (t.ctx c).regs = (s.ctx c).regs) ∧
      (h = .homes → t.l2 = s.l2.map (fun x => { x with stamp := both x.stamp }) ∧
        ∀ p, p < 1024 → (t.cluster p).mts = lift (s.cluster p).mts) ∧
      (h = .copies → (∀ p, (t.cluster p).l1 = (s.cluster p).l1.filter fun e => stays e.2.stamp) ∧
        t.superseded = s.superseded.filter fun x => stays x.stamp) ∧
      (h = .windows → ∀ space off, t.winStamp space off = both (s.winStamp space off)) ∧
      (h = .purses → t.deposit = s.deposit.map (fun x => { x with stamp := both x.stamp }) ∧
        t.depositMts = s.depositMts.map (fun e => (e.1, lift e.2)) ∧
        t.posted = s.posted.map (fun o => { o with pts := lift o.pts }) ∧
        t.acks = s.acks.map fun a => { a with wts := lift a.wts }) ∧
      (h = .hostLines → t.hostLines = s.hostLines.map (fun x => { x with stamp := both x.stamp }) ∧
        t.writeEntries = s.writeEntries.map (fun x => { x with stamp := both x.stamp }) ∧
        t.hmts0 = lift s.hmts0 ∧ t.hmts1 = lift s.hmts1) ∧
      (h = .completions → t.tileCopies = s.tileCopies.map (fun x => { x with fork := lift x.fork, time := lift x.time }) ∧
        t.arrears = s.arrears.map (fun a => { a with time := lift a.time }) ∧
        ∀ p g, (t.tag p g).time = lift (s.tag p g).time ∨ SMap.find (s.cluster p).tags g = none)) ∧
    -- TIME
    (1000000 ≤ offset.toInt →
      exec (.ptpOffsetCorrection offset) s = .next { s with time := s.time + offset, timeStepped := true, slew := 0 }) ∧
    (offset.toInt < 1000000 → exec (.ptpOffsetCorrection offset) s = .next { s with slew := offset.toInt }) ∧
    exec (.ptpLock on) s = .next { s with ptpLocked := on } ∧
    -- power
    (let trips := s.tripped = false ∧ (hot 105 ∨ ∃ t, sensed.flowLow = some t ∧ t + 940000000 ≤ s.clock)
     (¬ trips → outside → ∀ i, i = .throttling r ∨ i = .throttlingEnd r ∨ i = .thermalTrip r → exec i s = .next throttled) ∧
     (¬ trips → ¬ outside → exec (.throttling r) s = .next sensed ∧ exec (.thermalTrip r) s = .next sensed ∧
       exec (.throttlingEnd r) s = .next { sensed with throttled := false }) ∧
     (trips → ∀ i, i = .throttling r ∨ i = .throttlingEnd r ∨ i = .thermalTrip r → ∃ t : State,
       exec i s = .next t ∧ t.tripped = true ∧ t.out = s.out ++ [.msix 2] ∧ t.hbm = s.hbm ∧ t.host = s.host ∧
       (∀ q, s.backlogged q = true → (t.launch q).phase = .tearing ∨ ∃ line, (t.launch q).phase = .torn line) ∧
       (∀ q, s.backlogged q = true → (s.launch q).phase ≠ .tearing → (∀ line, (s.launch q).phase ≠ .torn line) →
         ∀ c ∈ s.ctxsOf q, (t.ctx c).run = .free) ∧
       ((∀ e ∈ s.queues, e.2.admitted = none) → s.dark = false → t.dark = true ∧ t.contexts = [] ∧ t.clusters = [] ∧
         t.l2 = [] ∧ (t.coreMem, t.clusterMem, t.chipMem) = ([], [], [])))) ∧
    (let calls := s.tripped = false ∧
       ((∃ j ∈ s.sensors.junction.toList, 105 ≤ j.toNat) ∨ ∃ t, s.flowLow = some t ∧ t + 940000000 ≤ s.clock)
     (¬ calls → moveWith exec .trip s = .next s) ∧
     (calls → ∃ t : State, moveWith exec .trip s = .next t ∧ t.tripped = true ∧ t.out = s.out ++ [.msix 2] ∧
       (∀ q, s.backlogged q = true → (t.launch q).phase = .tearing ∨ ∃ line, (t.launch q).phase = .torn line)) ∧
     (calls → .trip ∈ s.moves exec ∧ .tick ∉ s.moves exec)) ∧
    -- management
    exec .identity s = .next { s with out := s.out ++ [.identity 0x8192 s.encl s.enstk Config.fuseRevision] } ∧
    exec .sensors s = .next { s with out := s.out ++ [.sensors s.sensors] } ∧
    exec .errors s = .next { s with out := s.out ++
      [.errors (s.normal.ccnt, s.normal.closs, s.normal.ceaddr) (s.secure.ccnt, s.secure.closs, s.secure.ceaddr)] } ∧
    exec (.handleStoreDump cluster) s = .next { s with dumps := s.dumps ++ [(cluster, 0)] } ∧
    (∀ k p i, s.dumps[k]? = some (p, i) →
      let left := if i + 1 < 2048 then s.dumps.set k (p, i + 1) else s.dumps.eraseIdx k
      let w := s.slotWords p.toNat i
      (s.dark = true ∨ (s.cluster p.toNat).secure = true →
        moveWith exec (.dumpSlot k) s = .next { s with out := s.out ++ [.handleSlot i 0 0 0 0], dumps := left }) ∧
      (s.dark = false → (s.cluster p.toNat).secure = false →
        moveWith exec (.dumpSlot k) s = .next { s with
          out := s.out ++ [.handleSlot i w.1 w.2.1 w.2.2.1 w.2.2.2], dumps := left })) ∧
    exec (.powerLimit none) s = .next { s with out := s.out ++ [.powerLimit s.plimit] } ∧
    (1000 ≤ v.toNat % 4096 → v.toNat % 4096 ≤ 3200 →
      let t : State := { s with plimit := v.setWidth 12 }
      exec (.powerLimit (some v)) s =
        .next (if t.overLimit s.sensors = true then { t with throttled := true, thhist := true } else t)) ∧
    (v.toNat % 4096 < 1000 ∨ 3200 < v.toNat % 4096 → exec (.powerLimit (some v)) s = .next s) ∧
    (let t : State := { State.reset with
       host := s.host, encl := s.encl, enstk := s.enstk, sensors := s.sensors, flowLow := s.flowLow.map fun _ => 0
       out := s.out, agenda := s.agenda, choices := s.choices }
     exec .conventionalReset s =
       .next (if t.overLimit s.sensors = true then { t with throttled := true, thhist := true } else t)) ∧
    exec .ready s = .next { s with ready := true }

/-! ## What reaches waiting contexts (R74, R83, R110, R130, R131, R274, R277, R278, R408) -/

/-- The timestamp of an access reaches pts; a walk fills the TLBs of its core and cluster or leaves its context PAGE to
raise; a write-back ends and a copy goes; a second copy of a code line with good parity lets its context go on, one with bad
parity leaves it LINEPAR to raise; a forwarded group reaches the queue of its follower, and a `FOLLOW` ends at its target;
the next fault record is written at FRHEAD and its notification follows (R74, R83, R110, R130, R131, R274, R277, R278, R311,
R408). The second copy's place in logical time, FADDR 0 of LINEPAR, what a full queue does to a roll, and what the
notifications wait for are the model's reading (logs 20, 28, 45 and 49). -/
def Obligations.WaitsEnd : Prop :=
  ∀ (c : CtxId) (s : State),
    let k := s.ctx c
    (∀ store t, k.reply = some (store, t) → s.FloorAllows (s.assign t) →
      let taken := (s.mapCtx c fun k => { k with pts := tsMax k.pts t, reply := none }).assign t
      exec (if store then .storeReply c else .renewalReply c) s = .next taken ∧
      exec (if store then .renewalReply c else .storeReply c) s = .next s) ∧
    (k.reply = none → exec (.storeReply c) s = .next s ∧ exec (.renewalReply c) s = .next s) ∧
    (∀ (i : Nat) (w : Walk), s.walks[i]? = some w →
      let gone : State := { s with walks := s.walks.eraseIdx i }
      let probed := s.walkLines w.secure w.asid w.va
      (∀ line rest, probed = line :: rest → s.hostCoherent line = true → s.hostOwned.contains line = true →
        exec (.walkCompletion i) s = .next (s.asksBack line)) ∧
      ((∀ line ∈ probed, s.hostOwned.contains line = false) → s.softErrors = [] →
        (∀ e, gone.walk w.secure w.asid w.va = .ok e →
          ∃ t : State, exec (.walkCompletion i) s = .next t ∧ t.walks = gone.walks ∧ t.contexts = s.contexts ∧
            e ∈ (t.cluster w.cluster).tlb ∧
            e ∈ (if w.fetch then (t.core w.ctx.core.toNat).itlb else (t.core w.ctx.core.toNat).dtlb)) ∧
        (∀ d, gone.walk w.secure w.asid w.va = .error d → (s.ctx w.ctx).run ≠ .free → (s.ctx w.ctx).run ≠ .faulted →
          (s.ctx w.ctx).wait = .access →
          exec (.walkCompletion i) s = .next (gone.mapCtx w.ctx fun k =>
            { k with grant := .fault { cause := .page, faddr := w.faddr, acc := w.acc, detail := d } })))) ∧
    (∀ (line : BitVec 45) (cluster : BitVec 10),
      exec (.l2WritebackDone line) s =
        .next { s with l2Writebacks := s.l2Writebacks.filter fun x => x ≠ line.toNat } ∧
      exec (.l1CopyDrop cluster line) s =
        .next (s.mapCluster cluster.toNat fun k => { k with l1 := SMap.erase k.l1 line.toNat })) ∧
    (∀ line, k.wait = .refetch line →
      ((∃ e ∈ k.refetched, e.1 = line) → exec (.lineRefetch c) s = .next s) ∧
      (∀ d pa u, (∀ e ∈ k.refetched, e.1 ≠ line) → (refetchLine c line).run s = .ok (d, pa) u → s.FloorAllows u →
        (parityOk d = true → exec (.lineRefetch c) s =
          .next ((u.logError (s.launchAt c).secure false pa).mapCtx c fun k =>
            { k with refetched := (line, d) :: k.refetched })) ∧
        (parityOk d = false → exec (.lineRefetch c) s =
          .next (u.mapCtx c fun k => { k with grant := .fault { cause := .linepar } })))) ∧
    (∀ (f : Forward) (leader : CtxId) (groups : List Group) (ended : Option Word), s.forwards = [f] → f.follower = c →
      k.roll = .following leader groups ended →
      (s.clock < f.issued + 4 → exec (.rollGroupArrival c) s = .next s) ∧
      (f.issued + 4 ≤ s.clock → leader = f.leader → groups.length < 16 →
        exec (.rollGroupArrival c) s = .next (({ s with forwards := [] } : State).mapCtx c fun k =>
          { k with roll := .following leader (groups ++ [f.group]) ended })) ∧
      (f.issued + 4 ≤ s.clock → leader = f.leader → 16 ≤ groups.length →
        exec (.rollGroupArrival c) s = .next (({ s with forwards := [] } : State).mapCtx c fun k =>
          { k with roll := .following leader groups (some f.group.pc) }))) ∧
    (∀ core target since runners leader ended, k.roll = .waiting core target since runners leader ended →
      (leader = none → runners ≠ [] → exec (.followJoin c) s = .next s) ∧
      (leader = none → runners = [] → ∃ t : State, exec (.followJoin c) s = .next t ∧ (t.ctx c).roll = .none ∧
        (t.ctx c).pc = target ∧ (t.ctx c).run = .running ∧ (t.ctx c).regs = k.regs) ∧
      (∀ l, leader = some l → s.otherFollower c = false → ∃ t : State, exec (.followJoin c) s = .next t ∧
        (t.ctx c).roll = .following l [] ended ∧ (t.ctx c).pc = target ∧ (t.ctx c).run = .running ∧
        (t.ctx c).regs = k.regs)) ∧
    (∀ (secure : Bool) (r : FaultRecord) (rest : List FaultRecord),
      let w := s.world secure
      let size := 2 ^ w.frlog2.toNat
      let head := w.frhead.toNat % size
      let at_ := w.frbase.toNat + 32 * head
      let written (t : State) : Prop :=
        exec (.faultRecordWrite secure) s = .next t ∧ (t.world secure).waiting = rest ∧
          (t.world secure).frhead = BitVec.ofNat 16 ((w.frhead.toNat + 1) % size) ∧ (t.world secure).notices.length = 1 ∧
          ∀ q l, (s.queue q).admitted = some l → (t.queue q).admitted = some
            (if l.secure = secure ∧ l.launchid = r.w3.extractLsb' 32 32 then { l with faults := l.faults + 1 } else l)
      w.notices = [] → w.waiting = r :: rest →
      (w.frlog2 = 0 ∨ (w.frhead.toNat + 1) % size = w.frtail.toNat % size →
        exec (.faultRecordWrite secure) s = .next s) ∧
      (w.frlog2 ≠ 0 → (w.frhead.toNat + 1) % size ≠ w.frtail.toNat % size →
        (at_ % 32 = 0 → at_ + 32 ≤ s.hbmEnd → s.hbmEnd ≤ 2 ^ 51 → s.hbm.wf = true → s.secureMem at_ = secure →
          s.secureMem (at_ + 31) = secure → s.assayBytes at_ 32 = false →
          s.FloorAllows (s.storeHome (at_ / 128) (at_ % 128) 32 r.bits s.high true).1 →
          ∃ t : State, written t ∧ t.hbm.readN at_ 8 = r.w0.toNat ∧ t.hbm.readN (at_ + 8) 8 = r.w1.toNat ∧
            t.hbm.readN (at_ + 16) 8 = r.w2.toNat ∧ t.hbm.readN (at_ + 24) 8 = r.w3.toNat) ∧
        (at_ < 2 ^ 51 → s.hbmEnd < at_ + 32 ∨ s.secureMem at_ ≠ secure ∨ s.secureMem (at_ + 31) ≠ secure ∨
            s.assayBytes at_ 32 = true →
          ∃ t : State, written t ∧ t.hbm = s.hbm ∧ t.host = s.host) ∧
        (2 ^ 51 ≤ at_ → at_ % 32 = 0 →
          let line := (at_ - 2 ^ 51) / 64
          s.FloorAllows (s.storeHostHome line ((at_ - 2 ^ 51) % 64) 32 r.bits s.high).1 →
          ∃ t : State, written t ∧ t.hbm = s.hbm ∧ (∀ n ∈ (t.world secure).notices, n.host = some line) ∧
            ((∃ x, t.hostLine line = some x ∧ x.state = .m) ∨ (t.writeEntry line).isSome = true)))) ∧
    (∀ (secure : Bool) (n : Notice) (rest : List Notice), (s.world secure).notices = n :: rest →
      let told (t : State) : State := t.mapWorld secure fun w => { w with notices := rest }
      ((∃ line, n.host = some line ∧ (s.writeEntry line).isSome = true) → (s.world secure).waiting = [] →
        exec (.faultRecordWrite secure) s = .next s) ∧
      ((∀ line, n.host = some line → s.writeEntry line = none) →
        (n.line = none →
          exec (.faultRecordWrite secure) s =
            .next (told { s with out := s.out ++ [.msix (if secure then 3 else 1)] })) ∧
        (∀ p l, n.line = some (p, l) →
          let e := s.line p l
          let st := e.stamp.store n.time
          ((s.cluster p).placed = none ∨ (s.cluster p).secure ≠ secure ∨ e.mode = .mutex →
            exec (.faultRecordWrite secure) s = .next (told s)) ∧
          ((s.cluster p).placed.isSome = true → (s.cluster p).secure = secure →
            (e.waiters = [] → s.FloorAllows (s.assign st.wts) →
              (e.mode = .msg → e.queue.length < 16 → exec (.faultRecordWrite secure) s =
                .next (told ((s.setLine p l { e with queue := e.queue ++ [n.seq], stamp := st }).assign st.wts))) ∧
              (e.mode = .flag → exec (.faultRecordWrite secure) s =
                .next (told ((s.setLine p l { e with value := 1, stamp := st }).assign st.wts)))) ∧
            (e.mode = .msg → 16 ≤ e.queue.length → (s.world secure).waiting = [] →
              exec (.faultRecordWrite secure) s = .next s)))))

/-! ## A step, the encoding, and what every step keeps -/

/-- A step that issues a context runs the instruction at its program counter: once the line is entered, the slot that decodes
to an instruction, alone or with the one that PAIR joins to it, is performed by `exec`, after the core has taken its issue
slot and before the group is forwarded to followers, a settlement phase's availability is noted, and a context that has gone
on from a wait takes its turn (R115, R126, R130, R137, R320). A fault that stands granted at the context is raised in its
turn instead. A slot that does not decode, for this context too, and an illegal pair raise ILLOP (R125, R126); a slot other
than an `LPAD` of the tag that a table transfer brings raises LPADMIS with its source (R154). The line is entered, with HBM
and the registers as they were, where its page is held, executable, NORMAL and of the context's world, its bytes have good
parity, a clear reserved field and SETL = 0, and no error, view or write-back stands in the way (R110, R113); a reserved
field that is not clear raises ILLOP, a transfer to a slot whose TGT bit is clear BADTGT with its source, and SETL = 1 PHASE,
in this order (R114, R115). The agenda that names the issue is the model's own (log 6), and the fetch counts as a load (log
49). -/
def Obligations.StepRunsDecodedInstruction : Prop :=
  ∀ (c : CtxId) (rest : List Move) (s : State), s.agenda = .issue c :: rest →
    let now : State := { s with agenda := rest, active := c }
    let k := now.me
    let raises (t : Trap) : Prop := step s = .next ((({ now with front := ctxKey c } : State).raise c t).markWake k c)
    let issues : Prop := (∀ l g e, k.roll ≠ .following l g e) ∧ (∀ t, k.grant ≠ .fault t) ∧ now.able c = true ∧
      (k.inSettlement = true → now.settleDue c = true) ∧ now.overrun = false
    (∀ t, k.grant = .fault t → now.able c = true → raises t) ∧
    (issues → ∀ (d : Line64) (fetched : State), enterLine.run now = .ok d fetched → fetched.me.latched = none →
      let j := slotNo fetched.me.pc
      let issued := (fetched.mapMe fun k => { k with entry := .plain }).markIssue c
      let bad (w : BitVec 96) : Prop := ∀ i, ¬ fetched.SlotIs w i
      (∀ src tag, fetched.me.entry = .landing src tag → ¬ fetched.LandingOk (slotOf d j) →
        raises { cause := .lpadmis, faddr := src }) ∧
      (fetched.LandingOk (slotOf d j) →
        (pairBit d j = false → bad (slotOf d j) → raises { cause := .illop }) ∧
        (pairBit d j = true → pairBit d (j + 1) = true ∨ bad (slotOf d j) ∨ bad (slotOf d (j + 1)) ∨
            (∀ a b, fetched.SlotIs (slotOf d j) a → fetched.SlotIs (slotOf d (j + 1)) b → pairLegal a b = false) →
          raises { cause := .illop }) ∧
        (now.FloorAllows fetched → now.issuable c = true →
          (∀ i, pairBit d j = false → fetched.SlotIs (slotOf d j) i →
            step s = afterWake k c (afterOutcome issued [slotOf d j] (issued.latencies [i]) (exec i issued))) ∧
          (∀ a b, pairBit d j = true → pairBit d (j + 1) = false → fetched.SlotIs (slotOf d j) a →
            fetched.SlotIs (slotOf d (j + 1)) b → pairLegal a b = true →
            step s = afterWake k c (afterOutcome issued [slotOf d j, slotOf d (j + 1)] (issued.latencies [a, b])
              (runGroup exec [a, b] issued)))))) ∧
    (∀ e : Tlb,
      let t := now.threadOf c
      let line := lineOf k.pc
      let pa := e.pa line
      let d : Line64 := BitVec.ofNat 512 (now.hbm.readN pa 64)
      k.line = none → k.inSettlement = false → k.refetched = [] → (∀ w, k.reply ≠ some (true, w)) →
      isWindow k.pc = false → isUser k.pc = true → now.untranslated t.secure = false → now.held t true line = some e →
      e.type = 0 → e.x = true → e.world = t.secure → now.secureMem pa = t.secure → pa < now.hbmEnd →
      SMap.find (now.cluster t.cluster).l1 (pa / 128) = none → pa / 128 ∉ now.l2Writebacks →
      pa / 128 ∉ now.hostOwned → now.softErrors = [] → now.viewOf (pa / 128) = none →
      (∀ x ∈ now.l2, x.line = pa / 128 → x.view = none) → parityOk d = true →
      let aimed := k.entry = .plain ∨ tgtBit d (slotNo k.pc) = true
      (issues → reservedBits d = true → raises { cause := .illop }) ∧
      (issues → reservedBits d = false → tgtBit d (slotNo k.pc) = false →
        (∀ src, k.entry = .transfer src → raises { cause := .badtgt, faddr := src }) ∧
        (∀ src tag, k.entry = .landing src tag → raises { cause := .badtgt, faddr := src })) ∧
      (issues → reservedBits d = false → aimed → setlBit d = true → raises { cause := .phase }) ∧
      (reservedBits d = false → aimed → setlBit d = false →
        ∃ fetched : State, enterLine.run now = .ok d fetched ∧ fetched.hbm = now.hbm ∧ fetched.active = c ∧
          fetched.me.pc = k.pc ∧ fetched.me.regs = k.regs ∧ fetched.me.latched = k.latched ∧
          fetched.me.entry = k.entry))

/-- Words written out from the encodings of the spec decode to the instructions they stand for, one at least of each
class of opcodes. -/
def Obligations.SampleWordsDecode : Prop :=
  decodeSlot 0x0800_1860_0000_0000_0000_0001 = .ok (.addi 0 6 6 1) ∧
  decodeSlot 0x0C60_3CD3_8000_0000_0000_0000 = .ok (.remu 0 15 13 14) ∧
  decodeSlot 0x1800_1400_0000_0000_0000_0000 = .ok (.movi 0 5 0) ∧
  decodeSlot 0x2000_1846_0000_0000_0000_000A = .ok (.br 0 .gt 6 4 ⟨1, 2⟩) ∧
  decodeSlot 0x2400_0000_0000_07FF_FFFF_FFFB = .ok (.jmp 0 ⟨0xFF_FFFF_FFFF, 3⟩) ∧
  decodeSlot 0x2C10_0050_0000_0000_0000_0022 = .ok (.mtc 0 .lease 5) ∧
  decodeSlot 0x5801_0410_80E8_0000_0000_0000 = .ok (.vfadd 1 .w .dyn 1 1 (.vec 2)) ∧
  decodeSlot 0x8000_1030_000C_0000_0000_0000 = .ok (.ld 0 false .d 4 3 0 0 0) ∧
  decodeSlot 0x8822_14A1_0048_0000_0000_0000 = .ok (.ldg 2 .w false 5 10 4 2 0) ∧
  decodeSlot 0xA000_2800_4280_0000_0000_0000 = .ok (.mma 0 10 0 1 (.tile 2) true false) ∧
  decodeSlot 0xC000_30A2_8001_0000_0000_0100 = .ok (.susp 0 12 .add 10 10 0 .rne (.off 0x100)) ∧
  decodeSlot 0xD000_0040_0508_0000_0000_0000 = .ok (.padd 0 .w 4 5 0) ∧
  decodeSlot 0xEC00_0160_0001_0000_0003_0010 = .ok (.send 0 true 22 0 3 16) ∧
  decodeSlot 0xF000_1481_C608_0000_0000_0004 = .ok (.confid 0 .w 5 8 7 6 4) ∧
  decodeSlot 0xF400_0000_0000_0000_0000_0007 = .ok (.trap 0 7) ∧
  decodeSlot 0xF410_0000_0000_0000_0000_0000 = .ok (.eret 0) ∧
  decodeSlot 0xF800_0000_0001_0000_0000_0000 = .ok (.haltRetain 0)

/-- The decoder reads back every well-formed instruction of a slot from the word that the encoder gives it, with every
operand; and every word that it accepts is the one word of a well-formed instruction, so that a word with a reserved field
that is not zero, or with a reserved code, is refused (R116 to R125). -/
def Obligations.DecodingUndoesEncoding : Prop :=
  (∀ (i : Instr), i.wf = true → ∀ w, encode i = some w → decodeSlot w = .ok i) ∧
  ∀ (w : BitVec 96) (i : Instr), decodeSlot w = .ok i → i.wf = true ∧ encode i = some w

/-- Every step of the part keeps each memory in its canonical form, whichever instruction, event, copy or cycle it makes
(the model's own form of memory, log 4). -/
def Obligations.MemoryStaysCanonical : Prop :=
  ∀ s t : State, s.Canonical → step s = .next t → t.Canonical

/-- The part after a conventional reset: READY is 0; every queue has one ticket, is enabled and holds nothing; the
registers of both worlds and of the part, with the trace rings of every die, CWORLD, CSWORLD, LBTOL and the region, assay and
peer entries are 0, so that every register but the part number reads 0; PLIMIT is 3,200; every handle
slot is FREE with GEN 1; MJW holds nine weights of 1; no context is placed; and memory stands in its canonical form
(R45, R62, R71, R79, R83, R212, R235, R340 to R342, R348, R367, R380, R401). The canonical form is the model's own
(log 4). -/
def Obligations.ResetState : Prop :=
  let s := State.reset
  s.Canonical ∧ s.ready = false ∧ s.cworld = 0 ∧ s.plimit = 3200 ∧ s.hcsize = 0 ∧ s.linkup = 0 ∧ s.nodeid = 0 ∧
  (s.pxlost, s.pxref) = (0, 0) ∧ (s.timeStepped, s.ptpLocked, s.locked) = (false, false, false) ∧ s.time = 0 ∧
  (s.tripped, s.throttled, s.thhist) = (false, false, false) ∧
  (∀ q : BitVec 6, (s.queue q).tickets = 1 ∧ (s.queue q).pass = 0 ∧ (s.queue q).enable = true ∧
    (s.queue q).entries = [] ∧ (s.queue q).admitted = none ∧ (s.queue q).rejid = 0 ∧ (s.queue q).rejcode = 0 ∧
    ((s.queue q).ovf, (s.queue q).badw, (s.queue q).rej) = (false, false, false)) ∧
  (∀ b : Bool, (s.world b).hpt = 0 ∧ (s.world b).frbase = 0 ∧ (s.world b).frlog2 = 0 ∧ (s.world b).frhead = 0 ∧
    (s.world b).frtail = 0 ∧ (s.world b).supv = 0 ∧ (s.world b).seq = 0 ∧ (s.world b).supvid = 0 ∧
    (s.world b).savebase = 0 ∧ (s.world b).savelog2 = 0 ∧ (s.world b).ccnt = 0 ∧ (s.world b).closs = 0 ∧
    (s.world b).ceaddr = 0 ∧ (s.world b).kvLo = 0 ∧ (s.world b).kvHi = 0 ∧ (s.world b).inval = none ∧
    (s.world b).iovf = false ∧ (s.world b).waiting = [] ∧ (s.world b).notices = [] ∧
    ∀ d : Nat, SMap.at (s.world b).traces .reset d = { base := 0, log2 := 0, head := 0, tail := 0, lost := 0 }) ∧
  (∀ d : Nat, s.csworld.toList.getD d 0 = 0 ∧ s.lbtol.toList.getD d 0 = 0) ∧
  (∀ i : Nat, s.regions.toList.getD i {} = { lo := 0, hi := 0 } ∧
    s.assay.toList.getD i {} = { w0 := 0, vlast := 0, cbase := 0, sbase := 0, tbase := 0 } ∧
    s.peers.toList.getD i {} = { lo := 0, hi := 0, src := 0 }) ∧
  (∀ (secure : Bool) (off : Nat), s.barRead secure off = if secure = false ∧ off = 0 then 0x0000_8192_0000_0000 else 0) ∧
  (∀ pa : Nat, s.secureMem pa = false) ∧ (∀ line : Nat, s.viewOf line = none) ∧
  (∀ p : Nat, (s.cluster p).mjw = 0x1_1111_1111 ∧ (s.cluster p).placed = none ∧ (s.cluster p).secure = false ∧
    ∀ i : Nat, (SMap.at (s.cluster p).slots {} i).state = .free ∧ (SMap.at (s.cluster p).slots {} i).gen = 1) ∧
  ∀ c : CtxId, (s.ctx c).run = .free

/-- In a settlement phase every instruction of class L or X but `MFC`, `SEND`, `RECV`, `SDONE` and `TRACE` raises PHASE
at issue, whatever its predicate and before any check of its own rule, with FADDR 0, or d for `BAR` and `SETTLE`; `ILL`
is no instruction and raises ILLOP by its encoding. -/
def Obligations.SettlementPhaseGuards : Prop :=
  ∀ (i : Instr) (t : Trap) (s : State), s.me.inSettlement = true → (encode i).isSome = true → phaseTrap i = some t →
    exec i s = .next (s.raise s.active t)
end

