-- ==== Sys2Proof/Laws/Encoding.lean ====
section
/-! SUPPORT. The fields of an encoded slot, as the decoder reads them. -/

namespace Sys2Proof

/-! ## The slot -/

theorem raw_packF (maj fn : BitVec 6) (p : Pred) (d a b c : BitVec 6) (mod : BitVec 8) (imm : BitVec 48) :
    Raw.ofSlot (packF maj fn p d a b c mod imm) =
      { maj := maj, fn := fn, p := p, d := d, a := a, b := b, c := c, mod := mod, imm := imm } := by
  unfold Raw.ofSlot packF
  congr 1 <;> apply BitVec.eq_of_getLsbD_eq <;> intro i hi <;>
    simp only [BitVec.getLsbD_extractLsb', BitVec.getLsbD_append] <;> grind

theorem decodeSlot_nop (p : Pred) (d a b c : BitVec 6) (mod : BitVec 8) (imm : BitVec 48) :
    decodeSlot (packF 0 0 p d a b c mod imm) = decNone { maj := 0, fn := 0, p, d, a, b, c, mod, imm } .nop := by
  unfold decodeSlot
  rw [raw_packF]
  rfl

theorem decodeSlot_01 (fn : BitVec 6) (p : Pred) (d a b c : BitVec 6) (mod : BitVec 8) (imm : BitVec 48) :
    decodeSlot (packF 0x01 fn p d a b c mod imm) = decMajor01 { maj := 0x01, fn, p, d, a, b, c, mod, imm } := by
  unfold decodeSlot
  rw [raw_packF]
  rfl

theorem decodeSlot_02 (fn : BitVec 6) (p : Pred) (d a b c : BitVec 6) (mod : BitVec 8) (imm : BitVec 48) :
    decodeSlot (packF 0x02 fn p d a b c mod imm) = decMajor02 { maj := 0x02, fn, p, d, a, b, c, mod, imm } := by
  unfold decodeSlot
  rw [raw_packF]
  rfl

theorem decodeSlot_03 (fn : BitVec 6) (p : Pred) (d a b c : BitVec 6) (mod : BitVec 8) (imm : BitVec 48) :
    decodeSlot (packF 0x03 fn p d a b c mod imm) = decMajor03 { maj := 0x03, fn, p, d, a, b, c, mod, imm } := by
  unfold decodeSlot
  rw [raw_packF]
  rfl

theorem decodeSlot_04 (fn : BitVec 6) (p : Pred) (d a b c : BitVec 6) (mod : BitVec 8) (imm : BitVec 48) :
    decodeSlot (packF 0x04 fn p d a b c mod imm) = decMajor04 { maj := 0x04, fn, p, d, a, b, c, mod, imm } := by
  unfold decodeSlot
  rw [raw_packF]
  rfl

theorem decodeSlot_05 (fn : BitVec 6) (p : Pred) (d a b c : BitVec 6) (mod : BitVec 8) (imm : BitVec 48) :
    decodeSlot (packF 0x05 fn p d a b c mod imm) = decMajor05 { maj := 0x05, fn, p, d, a, b, c, mod, imm } := by
  unfold decodeSlot
  rw [raw_packF]
  rfl

theorem decodeSlot_07 (fn : BitVec 6) (p : Pred) (d a b c : BitVec 6) (mod : BitVec 8) (imm : BitVec 48) :
    decodeSlot (packF 0x07 fn p d a b c mod imm) = decMajor07 { maj := 0x07, fn, p, d, a, b, c, mod, imm } := by
  unfold decodeSlot
  rw [raw_packF]
  rfl

theorem decodeSlot_0A (fn : BitVec 6) (p : Pred) (d a b c : BitVec 6) (mod : BitVec 8) (imm : BitVec 48) :
    decodeSlot (packF 0x0A fn p d a b c mod imm) = decMajor0A { maj := 0x0A, fn, p, d, a, b, c, mod, imm } := by
  unfold decodeSlot
  rw [raw_packF]
  rfl

theorem decodeSlot_0B (fn : BitVec 6) (p : Pred) (d a b c : BitVec 6) (mod : BitVec 8) (imm : BitVec 48) :
    decodeSlot (packF 0x0B fn p d a b c mod imm) = decMajor0B { maj := 0x0B, fn, p, d, a, b, c, mod, imm } := by
  unfold decodeSlot
  rw [raw_packF]
  rfl

theorem decodeSlot_0D (fn : BitVec 6) (p : Pred) (d a b c : BitVec 6) (mod : BitVec 8) (imm : BitVec 48) :
    decodeSlot (packF 0x0D fn p d a b c mod imm) = decMajor0D { maj := 0x0D, fn, p, d, a, b, c, mod, imm } := by
  unfold decodeSlot
  rw [raw_packF]
  rfl

theorem decodeSlot_10 (fn : BitVec 6) (p : Pred) (d a b c : BitVec 6) (mod : BitVec 8) (imm : BitVec 48) :
    decodeSlot (packF 0x10 fn p d a b c mod imm) = decMajor10 { maj := 0x10, fn, p, d, a, b, c, mod, imm } := by
  unfold decodeSlot
  rw [raw_packF]
  rfl

theorem decodeSlot_11 (fn : BitVec 6) (p : Pred) (d a b c : BitVec 6) (mod : BitVec 8) (imm : BitVec 48) :
    decodeSlot (packF 0x11 fn p d a b c mod imm) = decMajor11 { maj := 0x11, fn, p, d, a, b, c, mod, imm } := by
  unfold decodeSlot
  rw [raw_packF]
  rfl

theorem decodeSlot_14 (fn : BitVec 6) (p : Pred) (d a b c : BitVec 6) (mod : BitVec 8) (imm : BitVec 48) :
    decodeSlot (packF 0x14 fn p d a b c mod imm) = decMajor14 { maj := 0x14, fn, p, d, a, b, c, mod, imm } := by
  unfold decodeSlot
  rw [raw_packF]
  rfl

theorem decodeSlot_15 (fn : BitVec 6) (p : Pred) (d a b c : BitVec 6) (mod : BitVec 8) (imm : BitVec 48) :
    decodeSlot (packF 0x15 fn p d a b c mod imm) = decMajor15 { maj := 0x15, fn, p, d, a, b, c, mod, imm } := by
  unfold decodeSlot
  rw [raw_packF]
  rfl

theorem decodeSlot_16 (fn : BitVec 6) (p : Pred) (d a b c : BitVec 6) (mod : BitVec 8) (imm : BitVec 48) :
    decodeSlot (packF 0x16 fn p d a b c mod imm) = decMajor16 { maj := 0x16, fn, p, d, a, b, c, mod, imm } := by
  unfold decodeSlot
  rw [raw_packF]
  rfl

theorem decodeSlot_17 (fn : BitVec 6) (p : Pred) (d a b c : BitVec 6) (mod : BitVec 8) (imm : BitVec 48) :
    decodeSlot (packF 0x17 fn p d a b c mod imm) = decMajor17 { maj := 0x17, fn, p, d, a, b, c, mod, imm } := by
  unfold decodeSlot
  rw [raw_packF]
  rfl

theorem decodeSlot_18 (fn : BitVec 6) (p : Pred) (d a b c : BitVec 6) (mod : BitVec 8) (imm : BitVec 48) :
    decodeSlot (packF 0x18 fn p d a b c mod imm) = decMajor18 { maj := 0x18, fn, p, d, a, b, c, mod, imm } := by
  unfold decodeSlot
  rw [raw_packF]
  rfl

theorem decodeSlot_19 (fn : BitVec 6) (p : Pred) (d a b c : BitVec 6) (mod : BitVec 8) (imm : BitVec 48) :
    decodeSlot (packF 0x19 fn p d a b c mod imm) = decMajor19 { maj := 0x19, fn, p, d, a, b, c, mod, imm } := by
  unfold decodeSlot
  rw [raw_packF]
  rfl

theorem decodeSlot_1A (fn : BitVec 6) (p : Pred) (d a b c : BitVec 6) (mod : BitVec 8) (imm : BitVec 48) :
    decodeSlot (packF 0x1A fn p d a b c mod imm) = decMajor1A { maj := 0x1A, fn, p, d, a, b, c, mod, imm } := by
  unfold decodeSlot
  rw [raw_packF]
  rfl

theorem decodeSlot_20 (fn : BitVec 6) (p : Pred) (d a b c : BitVec 6) (mod : BitVec 8) (imm : BitVec 48) :
    decodeSlot (packF 0x20 fn p d a b c mod imm) = decMajor20 { maj := 0x20, fn, p, d, a, b, c, mod, imm } := by
  unfold decodeSlot
  rw [raw_packF]
  rfl

theorem decodeSlot_21 (fn : BitVec 6) (p : Pred) (d a b c : BitVec 6) (mod : BitVec 8) (imm : BitVec 48) :
    decodeSlot (packF 0x21 fn p d a b c mod imm) = decMajor21 { maj := 0x21, fn, p, d, a, b, c, mod, imm } := by
  unfold decodeSlot
  rw [raw_packF]
  rfl

theorem decodeSlot_22 (fn : BitVec 6) (p : Pred) (d a b c : BitVec 6) (mod : BitVec 8) (imm : BitVec 48) :
    decodeSlot (packF 0x22 fn p d a b c mod imm) = decMajor22 { maj := 0x22, fn, p, d, a, b, c, mod, imm } := by
  unfold decodeSlot
  rw [raw_packF]
  rfl

theorem decodeSlot_23 (fn : BitVec 6) (p : Pred) (d a b c : BitVec 6) (mod : BitVec 8) (imm : BitVec 48) :
    decodeSlot (packF 0x23 fn p d a b c mod imm) = decMajor23 { maj := 0x23, fn, p, d, a, b, c, mod, imm } := by
  unfold decodeSlot
  rw [raw_packF]
  rfl

theorem decodeSlot_24 (fn : BitVec 6) (p : Pred) (d a b c : BitVec 6) (mod : BitVec 8) (imm : BitVec 48) :
    decodeSlot (packF 0x24 fn p d a b c mod imm) = decMajor24 { maj := 0x24, fn, p, d, a, b, c, mod, imm } := by
  unfold decodeSlot
  rw [raw_packF]
  rfl

theorem decodeSlot_25 (fn : BitVec 6) (p : Pred) (d a b c : BitVec 6) (mod : BitVec 8) (imm : BitVec 48) :
    decodeSlot (packF 0x25 fn p d a b c mod imm) = decMajor25 { maj := 0x25, fn, p, d, a, b, c, mod, imm } := by
  unfold decodeSlot
  rw [raw_packF]
  rfl

theorem decodeSlot_26 (fn : BitVec 6) (p : Pred) (d a b c : BitVec 6) (mod : BitVec 8) (imm : BitVec 48) :
    decodeSlot (packF 0x26 fn p d a b c mod imm) = decMajor26 { maj := 0x26, fn, p, d, a, b, c, mod, imm } := by
  unfold decodeSlot
  rw [raw_packF]
  rfl

theorem decodeSlot_28 (fn : BitVec 6) (p : Pred) (d a b c : BitVec 6) (mod : BitVec 8) (imm : BitVec 48) :
    decodeSlot (packF 0x28 fn p d a b c mod imm) = decMajor28 { maj := 0x28, fn, p, d, a, b, c, mod, imm } := by
  unfold decodeSlot
  rw [raw_packF]
  rfl

theorem decodeSlot_29 (fn : BitVec 6) (p : Pred) (d a b c : BitVec 6) (mod : BitVec 8) (imm : BitVec 48) :
    decodeSlot (packF 0x29 fn p d a b c mod imm) = decMajor29 { maj := 0x29, fn, p, d, a, b, c, mod, imm } := by
  unfold decodeSlot
  rw [raw_packF]
  rfl

theorem decodeSlot_2A (fn : BitVec 6) (p : Pred) (d a b c : BitVec 6) (mod : BitVec 8) (imm : BitVec 48) :
    decodeSlot (packF 0x2A fn p d a b c mod imm) = decMajor2A { maj := 0x2A, fn, p, d, a, b, c, mod, imm } := by
  unfold decodeSlot
  rw [raw_packF]
  rfl

theorem decodeSlot_30 (fn : BitVec 6) (p : Pred) (d a b c : BitVec 6) (mod : BitVec 8) (imm : BitVec 48) :
    decodeSlot (packF 0x30 fn p d a b c mod imm) = decMajor30 { maj := 0x30, fn, p, d, a, b, c, mod, imm } := by
  unfold decodeSlot
  rw [raw_packF]
  rfl

theorem decodeSlot_31 (fn : BitVec 6) (p : Pred) (d a b c : BitVec 6) (mod : BitVec 8) (imm : BitVec 48) :
    decodeSlot (packF 0x31 fn p d a b c mod imm) = decMajor31 { maj := 0x31, fn, p, d, a, b, c, mod, imm } := by
  unfold decodeSlot
  rw [raw_packF]
  rfl

theorem decodeSlot_32 (fn : BitVec 6) (p : Pred) (d a b c : BitVec 6) (mod : BitVec 8) (imm : BitVec 48) :
    decodeSlot (packF 0x32 fn p d a b c mod imm) = decMajor32 { maj := 0x32, fn, p, d, a, b, c, mod, imm } := by
  unfold decodeSlot
  rw [raw_packF]
  rfl

theorem decodeSlot_34 (fn : BitVec 6) (p : Pred) (d a b c : BitVec 6) (mod : BitVec 8) (imm : BitVec 48) :
    decodeSlot (packF 0x34 fn p d a b c mod imm) = decMajor34 { maj := 0x34, fn, p, d, a, b, c, mod, imm } := by
  unfold decodeSlot
  rw [raw_packF]
  rfl

theorem decodeSlot_38 (fn : BitVec 6) (p : Pred) (d a b c : BitVec 6) (mod : BitVec 8) (imm : BitVec 48) :
    decodeSlot (packF 0x38 fn p d a b c mod imm) = decMajor38 { maj := 0x38, fn, p, d, a, b, c, mod, imm } := by
  unfold decodeSlot
  rw [raw_packF]
  rfl

theorem decodeSlot_39 (fn : BitVec 6) (p : Pred) (d a b c : BitVec 6) (mod : BitVec 8) (imm : BitVec 48) :
    decodeSlot (packF 0x39 fn p d a b c mod imm) = decMajor39 { maj := 0x39, fn, p, d, a, b, c, mod, imm } := by
  unfold decodeSlot
  rw [raw_packF]
  rfl

theorem decodeSlot_3A (fn : BitVec 6) (p : Pred) (d a b c : BitVec 6) (mod : BitVec 8) (imm : BitVec 48) :
    decodeSlot (packF 0x3A fn p d a b c mod imm) = decMajor3A { maj := 0x3A, fn, p, d, a, b, c, mod, imm } := by
  unfold decodeSlot
  rw [raw_packF]
  rfl

theorem decodeSlot_3B (fn : BitVec 6) (p : Pred) (d a b c : BitVec 6) (mod : BitVec 8) (imm : BitVec 48) :
    decodeSlot (packF 0x3B fn p d a b c mod imm) = decMajor3B { maj := 0x3B, fn, p, d, a, b, c, mod, imm } := by
  unfold decodeSlot
  rw [raw_packF]
  rfl

theorem decodeSlot_3C (fn : BitVec 6) (p : Pred) (d a b c : BitVec 6) (mod : BitVec 8) (imm : BitVec 48) :
    decodeSlot (packF 0x3C fn p d a b c mod imm) = decMajor3C { maj := 0x3C, fn, p, d, a, b, c, mod, imm } := by
  unfold decodeSlot
  rw [raw_packF]
  rfl

theorem decodeSlot_3D (fn : BitVec 6) (p : Pred) (d a b c : BitVec 6) (mod : BitVec 8) (imm : BitVec 48) :
    decodeSlot (packF 0x3D fn p d a b c mod imm) = decMajor3D { maj := 0x3D, fn, p, d, a, b, c, mod, imm } := by
  unfold decodeSlot
  rw [raw_packF]
  rfl

theorem decodeSlot_3E (fn : BitVec 6) (p : Pred) (d a b c : BitVec 6) (mod : BitVec 8) (imm : BitVec 48) :
    decodeSlot (packF 0x3E fn p d a b c mod imm) = decMajor3E { maj := 0x3E, fn, p, d, a, b, c, mod, imm } := by
  unfold decodeSlot
  rw [raw_packF]
  rfl

theorem decodeSlot_0CF (fn : BitVec 6) (p : Pred) (d a b c : BitVec 6) (mod : BitVec 8) (imm : BitVec 48) :
    decodeSlot (packF 0x0C fn p d a b c mod imm) =
      decMajor0C (packF 0x0C fn p d a b c mod imm) { maj := 0x0C, fn, p, d, a, b, c, mod, imm } := by
  unfold decodeSlot
  rw [raw_packF]
  rfl

theorem raw_packW (maj fn : BitVec 6) (p : Pred) (d : BitVec 6) (imm : BitVec 64) :
    (Raw.ofSlot (packW maj fn p d imm)).maj = maj ∧ (Raw.ofSlot (packW maj fn p d imm)).fn = fn ∧
      (Raw.ofSlot (packW maj fn p d imm)).p = p ∧ (Raw.ofSlot (packW maj fn p d imm)).d = d ∧
      (packW maj fn p d imm).extractLsb' 64 10 = 0 ∧ (packW maj fn p d imm).extractLsb' 0 64 = imm := by
  unfold Raw.ofSlot packW
  refine ⟨?_, ?_, ?_, ?_, ?_, ?_⟩ <;> apply BitVec.eq_of_getLsbD_eq <;> intro i hi <;>
    simp only [BitVec.getLsbD_extractLsb', BitVec.getLsbD_append] <;> grind

theorem raw_packJ (maj fn : BitVec 6) (p : Pred) (a b : BitVec 6) (cond : BitVec 4) (t : Target) :
    (Raw.ofSlot (packJ maj fn p a b cond t)).maj = maj ∧ (Raw.ofSlot (packJ maj fn p a b cond t)).fn = fn ∧
      (Raw.ofSlot (packJ maj fn p a b cond t)).p = p ∧ (Raw.ofSlot (packJ maj fn p a b cond t)).d = a ∧
      (Raw.ofSlot (packJ maj fn p a b cond t)).a = b ∧ (packJ maj fn p a b cond t).extractLsb' 64 4 = cond ∧
      (packJ maj fn p a b cond t).extractLsb' 67 1 = cond.extractLsb' 3 1 ∧
      (packJ maj fn p a b cond t).extractLsb' 64 3 = cond.extractLsb' 0 3 ∧
      (packJ maj fn p a b cond t).extractLsb' 43 21 = 0 ∧ (packJ maj fn p a b cond t).extractLsb' 3 40 = t.lineOff ∧
      (packJ maj fn p a b cond t).extractLsb' 0 3 = t.slot := by
  unfold Raw.ofSlot packJ
  refine ⟨?_, ?_, ?_, ?_, ?_, ?_, ?_, ?_, ?_, ?_, ?_⟩ <;> apply BitVec.eq_of_getLsbD_eq <;> intro i hi <;>
    simp only [BitVec.getLsbD_extractLsb', BitVec.getLsbD_append] <;> grind

theorem decodeSlot_packW (fn : BitVec 6) (p : Pred) (d : BitVec 6) (imm : BitVec 64) :
    decodeSlot (packW 6 fn p d imm) = decMajor06 (packW 6 fn p d imm) (Raw.ofSlot (packW 6 fn p d imm)) := by
  unfold decodeSlot
  simp only [(raw_packW 6 fn p d imm).1]
  rfl

theorem decodeSlot_08J (fn : BitVec 6) (p : Pred) (a b : BitVec 6) (cond : BitVec 4) (t : Target) :
    decodeSlot (packJ 0x08 fn p a b cond t) =
      decMajor08 (packJ 0x08 fn p a b cond t) (Raw.ofSlot (packJ 0x08 fn p a b cond t)) := by
  unfold decodeSlot
  simp only [(raw_packJ 0x08 fn p a b cond t).1]
  rfl

theorem decodeSlot_09J (fn : BitVec 6) (p : Pred) (a b : BitVec 6) (cond : BitVec 4) (t : Target) :
    decodeSlot (packJ 0x09 fn p a b cond t) =
      decMajor09 (packJ 0x09 fn p a b cond t) (Raw.ofSlot (packJ 0x09 fn p a b cond t)) := by
  unfold decodeSlot
  simp only [(raw_packJ 0x09 fn p a b cond t).1]
  rfl

theorem decodeSlot_0CJ (fn : BitVec 6) (p : Pred) (a b : BitVec 6) (cond : BitVec 4) (t : Target) :
    decodeSlot (packJ 0x0C fn p a b cond t) =
      decMajor0C (packJ 0x0C fn p a b cond t) (Raw.ofSlot (packJ 0x0C fn p a b cond t)) := by
  unfold decodeSlot
  simp only [(raw_packJ 0x0C fn p a b cond t).1]
  rfl

theorem decTarget_packJ (maj fn : BitVec 6) (p : Pred) (a b : BitVec 6) (cond : BitVec 4) (t : Target)
    (h : t.wf = true) : decTarget (packJ maj fn p a b cond t) = .ok t := by
  obtain ⟨-, -, -, -, -, -, -, -, h1, h2, h3⟩ := raw_packJ maj fn p a b cond t
  simp only [Target.wf, decide_eq_true_eq] at h
  simp [decTarget, h1, h2, h3, need, h, bind, Except.bind, pure, Except.pure]

/-! ## Codes -/

@[simp] theorem decV_encV (v : VReg) : decV (encV v) = .ok v := by
  have : v.toNat < 32 := v.isLt
  have e : (encV v).setWidth 5 = v := by simp [encV]
  have n : (encV v).toNat < 32 := by simp only [encV, BitVec.toNat_setWidth]; omega
  simp only [decV, n, e, if_true]

@[simp] theorem decM_encM (m : BitVec 3) : decM (encM m) = .ok m := by
  have : m.toNat < 8 := m.isLt
  have e : (encM m).setWidth 3 = m := by simp [encM]
  have n : (encM m).toNat < 8 := by simp only [encM, BitVec.toNat_setWidth]; omega
  simp only [decM, n, e, if_true]

@[simp] theorem decICond_code (c : ICond) : decICond c.code.toNat = .ok c := by cases c <;> rfl
@[simp] theorem decFCond_code (c : FCond) : decFCond c.code.toNat = .ok c := by cases c <;> rfl
@[simp] theorem decView_code (v : View) : decView v.code = .ok v := by cases v <;> rfl
@[simp] theorem decRm_code (m : Rm) : decRm m.code = .ok m := by cases m <;> rfl
@[simp] theorem decSize_code (z : Size) : decSize z.code = .ok z := by cases z <;> rfl
@[simp] theorem decTileField_code (f : TileField) : decTileField f.code = .ok f := by cases f <;> rfl
@[simp] theorem decTop_code (o : Top) : decTop o.code.toNat = .ok o := by cases o <;> rfl
@[simp] theorem decFill_code (f : Fill) : decFill f.code = .ok f := by cases f <;> rfl
@[simp] theorem decCReg_number (r : CReg) : decCReg r.number.toNat = .ok r := by cases r <;> rfl
@[simp] theorem decRm_zero : decRm 0#3 = .ok .rne := rfl
@[simp] theorem decView_two : decView 2#3 = .ok .w := rfl
@[simp] theorem ICond.code_setWidth (c : ICond) : (c.code.setWidth 6).toNat = c.code.toNat := by cases c <;> rfl
@[simp] theorem FCond.code_setWidth (c : FCond) : (c.code.setWidth 6).toNat = c.code.toNat := by cases c <;> rfl
@[simp] theorem ICond.code_ne16 (c : ICond) : (c.code.toNat = 16) = False := by cases c <;> decide
@[simp] theorem FCond.code_ne16 (c : FCond) : (c.code.toNat = 16) = False := by cases c <;> decide
@[simp] theorem FCond.code_ne17 (c : FCond) : (c.code.toNat = 17) = False := by cases c <;> decide
@[simp] theorem ICond.code_lt (c : ICond) : c.code.toNat < 16 := c.code.isLt
@[simp] theorem FCond.code_lt (c : FCond) : c.code.toNat < 16 := c.code.isLt

/-! ## MOD -/

@[simp] theorem modV_hi3 (rm view : BitVec 3) (x q : Bool) : (modV rm view x q).extractLsb' 5 3 = rm := by
  unfold modV bit
  apply BitVec.eq_of_getLsbD_eq
  intro i hi
  simp only [BitVec.getLsbD_extractLsb', BitVec.getLsbD_append]
  grind
@[simp] theorem modV_view (rm view : BitVec 3) (x q : Bool) : (modV rm view x q).extractLsb' 2 3 = view := by
  unfold modV bit
  apply BitVec.eq_of_getLsbD_eq
  intro i hi
  simp only [BitVec.getLsbD_extractLsb', BitVec.getLsbD_append]
  grind
@[simp] theorem modV_bit1 (rm view : BitVec 3) (x q : Bool) : (modV rm view x q).getLsbD 1 = x := by
  simp only [modV, bit, BitVec.getLsbD_append, BitVec.getLsbD_ofBool]
  grind
@[simp] theorem modV_bit0 (rm view : BitVec 3) (x q : Bool) : (modV rm view x q).getLsbD 0 = q := by
  simp only [modV, bit, BitVec.getLsbD_append, BitVec.getLsbD_ofBool]
  grind
@[simp] theorem modV_at1 (rm view : BitVec 3) (x q : Bool) : (modV rm view x q)[1] = x := modV_bit1 rm view x q
@[simp] theorem modV_at0 (rm view : BitVec 3) (x q : Bool) : (modV rm view x q)[0] = q := modV_bit0 rm view x q
theorem modM_eq (sh z : BitVec 3) (x q : Bool) : modM sh z x q = modV sh z x q := rfl

/-- The B operand of a vector instruction. -/
@[simp] theorem decVOp_field (maj fn : BitVec 6) (p : Pred) (d a c : BitVec 6) (rm view : BitVec 3) (q : Bool)
    (imm : BitVec 48) (o : VOp) :
    decVOp { maj, fn, p, d, a, b := o.field, c, mod := modV rm view o.isBcast q, imm } = .ok o := by
  cases o with
  | vec v =>
    simp only [decVOp, Raw.bit1, modV_bit1, VOp.isBcast, VOp.field, Bool.false_eq_true, if_false, decV_encV]
    rfl
  | bcast v =>
    simp only [decVOp, Raw.bit1, modV_bit1, VOp.isBcast, VOp.field, if_true]

/-! ## Small immediates -/

@[simp] theorem small_mod {k : Nat} (n : BitVec k) (h : k ≤ 48) : n.toNat % 281474976710656 = n.toNat := by
  have := Nat.pow_le_pow_right (n := 2) (by omega) h
  exact Nat.mod_eq_of_lt (by have := n.isLt; omega)
@[simp] theorem small_back {k : Nat} (n : BitVec k) (h : k ≤ 48) : (n.setWidth 48).setWidth k = n := by
  rw [BitVec.setWidth_setWidth_of_le n h]
  simp
@[simp] theorem field_mod {k : Nat} (n : BitVec k) (h : k ≤ 6) : n.toNat % 64 = n.toNat := by
  have := Nat.pow_le_pow_right (n := 2) (by omega) h
  exact Nat.mod_eq_of_lt (by have := n.isLt; omega)
@[simp] theorem byte_mod {k : Nat} (n : BitVec k) (h : k ≤ 8) : n.toNat % 256 = n.toNat := by
  have := Nat.pow_le_pow_right (n := 2) (by omega) h
  exact Nat.mod_eq_of_lt (by have := n.isLt; omega)
@[simp] theorem byte_back {k : Nat} (n : BitVec k) (h : k ≤ 8) : (n.setWidth 8).setWidth k = n := by
  rw [BitVec.setWidth_setWidth_of_le n h]
  simp
@[simp] theorem lt3 (n : BitVec 3) : n.toNat < 8 := n.isLt
@[simp] theorem lt4 (n : BitVec 4) : n.toNat < 16 := n.isLt
@[simp] theorem lt6 (n : BitVec 6) : n.toNat < 64 := n.isLt
@[simp] theorem lt7 (n : BitVec 7) : n.toNat < 128 := n.isLt
@[simp] theorem lt12 (n : BitVec 12) : n.toNat < 4096 := n.isLt
@[simp] theorem lt16 (n : BitVec 16) : n.toNat < 65536 := n.isLt

/-! ## CMD (R120) -/

theorem cmd_encE (cmd : BitVec 56) : cmd.extractLsb' 48 8 ++ cmd.extractLsb' 0 48 = cmd := by
  apply BitVec.eq_of_getLsbD_eq
  intro i hi
  simp only [BitVec.getLsbD_extractLsb', BitVec.getLsbD_append]
  grind

/-- The format fields of a conversion. -/
@[simp] theorem decCvt_imm (maj fn : BitVec 6) (p : Pred) (d a b c : BitVec 6) (mod : BitVec 8) (k : CvtSpec) :
    decCvt { maj, fn, p, d, a, b, c, mod, imm := k.imm } = .ok k := by
  have h1 : k.imm.extractLsb' 21 27 = 0 := by
    unfold CvtSpec.imm bit
    apply BitVec.eq_of_getLsbD_eq
    intro i hi
    simp only [BitVec.getLsbD_extractLsb', BitVec.getLsbD_append]
    grind
  have h2 : k.imm.extractLsb' 13 3 = 0 := by
    unfold CvtSpec.imm bit
    apply BitVec.eq_of_getLsbD_eq
    intro i hi
    simp only [BitVec.getLsbD_extractLsb', BitVec.getLsbD_append]
    grind
  have h3 : k.imm.extractLsb' 5 3 = 0 := by
    unfold CvtSpec.imm bit
    apply BitVec.eq_of_getLsbD_eq
    intro i hi
    simp only [BitVec.getLsbD_extractLsb', BitVec.getLsbD_append]
    grind
  have h4 : k.imm.extractLsb' 18 3 = k.part := by
    unfold CvtSpec.imm bit
    apply BitVec.eq_of_getLsbD_eq
    intro i hi
    simp only [BitVec.getLsbD_extractLsb', BitVec.getLsbD_append]
    grind
  have h5 : k.imm.extractLsb' 8 5 = k.dst := by
    unfold CvtSpec.imm bit
    apply BitVec.eq_of_getLsbD_eq
    intro i hi
    simp only [BitVec.getLsbD_extractLsb', BitVec.getLsbD_append]
    grind
  have h6 : k.imm.extractLsb' 0 5 = k.src := by
    unfold CvtSpec.imm bit
    apply BitVec.eq_of_getLsbD_eq
    intro i hi
    simp only [BitVec.getLsbD_extractLsb', BitVec.getLsbD_append]
    grind
  have h7 : k.imm.getLsbD 17 = k.long := by
    simp only [CvtSpec.imm, bit, BitVec.getLsbD_append, BitVec.getLsbD_ofBool]
    grind
  have h8 : k.imm.getLsbD 16 = k.uns := by
    simp only [CvtSpec.imm, bit, BitVec.getLsbD_append, BitVec.getLsbD_ofBool]
    grind
  simp only [decCvt, h1, h2, h3, h4, h5, h6, h7, h8]
  rfl

/-- The destination of a matrix job, by the 21 bits above its own operands (R216). -/
theorem decDst_head (r : Raw) (dst : MmaDst) (acc tb : Bool)
    (h : ∀ i, i < 21 → r.cmd.getLsbD (35 + i) = (dst.head acc tb).getLsbD i) (hc : r.c = dst.field)
    (hw : dst.wf acc = true) :
    decDst r = .ok dst ∧ r.cmd.getLsbD 55 = acc ∧ r.cmd.getLsbD 53 = tb := by
  have h55 : r.cmd.getLsbD 55 = acc := by
    have := h 20 (by omega)
    cases dst <;> simp only [MmaDst.head, bit, BitVec.getLsbD_append, BitVec.getLsbD_ofBool] at this <;> grind
  have h53 : r.cmd.getLsbD 53 = tb := by
    have := h 18 (by omega)
    cases dst <;> simp only [MmaDst.head, bit, BitVec.getLsbD_append, BitVec.getLsbD_ofBool] at this <;> grind
  refine ⟨?_, h55, h53⟩
  cases dst with
  | tile c =>
    have h54 : r.cmd.getLsbD 54 = false := by
      have := h 19 (by omega)
      simp only [MmaDst.head, bit, BitVec.getLsbD_append, BitVec.getLsbD_ofBool] at this
      grind
    have hz : r.cmd.extractLsb' 35 18 = 0 := by
      apply BitVec.eq_of_getLsbD_eq
      intro i hi
      have := h i (by omega)
      simp only [MmaDst.head, bit, BitVec.getLsbD_append, BitVec.getLsbD_ofBool] at this
      simp only [BitVec.getLsbD_extractLsb']
      grind
    simp only [decDst, h54, hz, hc, MmaDst.field, decM_encM]
    rfl
  | purse x f st =>
    have h54 : r.cmd.getLsbD 54 = true := by
      have := h 19 (by omega)
      simp only [MmaDst.head, bit, BitVec.getLsbD_append, BitVec.getLsbD_ofBool] at this
      grind
    have h51 : r.cmd.getLsbD 51 = f := by
      have := h 16 (by omega)
      simp only [MmaDst.head, bit, BitVec.getLsbD_append, BitVec.getLsbD_ofBool] at this
      grind
    have hs : r.cmd.extractLsb' 35 16 = st := by
      apply BitVec.eq_of_getLsbD_eq
      intro i hi
      have := h i (by omega)
      simp only [MmaDst.head, bit, BitVec.getLsbD_append, BitVec.getLsbD_ofBool] at this
      simp only [BitVec.getLsbD_extractLsb']
      grind
    have hf : r.cmd.extractLsb' 51 2 = (0 : BitVec 1) ++ BitVec.ofBool f := by
      apply BitVec.eq_of_getLsbD_eq
      intro i hi
      have := h (16 + i) (by omega)
      simp only [MmaDst.head, bit, BitVec.getLsbD_append, BitVec.getLsbD_ofBool] at this
      simp only [BitVec.getLsbD_extractLsb', BitVec.getLsbD_append, BitVec.getLsbD_ofBool]
      grind
    simp only [MmaDst.wf, Bool.and_eq_true, Bool.not_eq_true', bne_iff_ne, ne_eq] at hw
    have hfl : ((0 : BitVec 1) ++ BitVec.ofBool f).toNat < 2 := by cases f <;> decide
    have hst : (st != 0) = true := bne_iff_ne.mpr hw.2
    simp only [decDst, h54, h55, h51, hs, hf, hfl, hst, hw.1, hc, decide_true, Bool.not_false, Bool.and_true, if_true,
      MmaDst.field]
    rfl

theorem bits_eq {n m : Nat} {x : BitVec n} {y : BitVec m} {s : Nat}
    (h : ∀ i, i < m → x.getLsbD (s + i) = y.getLsbD i) : x.extractLsb' s m = y := by
  apply BitVec.eq_of_getLsbD_eq
  intro i hi
  simp only [BitVec.getLsbD_extractLsb', hi, decide_true, Bool.true_and]
  exact h i hi

/-- LOC of `SUSP` (R240). -/
theorem decLoc_enc (l : Loc) : decLoc l.enc = .ok l := by
  cases l with
  | off o =>
    have h1 : (Loc.off o).enc.extractLsb' 19 12 = 0 := bits_eq fun i hi => by
      simp only [Loc.enc, BitVec.getLsbD_append]
      grind
    have h2 : (Loc.off o).enc.getLsbD 31 = false := by
      simp only [Loc.enc, BitVec.getLsbD_append]
      grind
    have h3 : (Loc.off o).enc.extractLsb' 0 19 = o := bits_eq fun i hi => by
      simp only [Loc.enc, BitVec.getLsbD_append]
      grind
    simp only [decLoc, h1, h2, h3]
    rfl
  | reg x =>
    have h1 : (Loc.reg x).enc.extractLsb' 19 12 = 0 := bits_eq fun i hi => by
      simp only [Loc.enc, bit, BitVec.getLsbD_append]
      grind
    have h2 : (Loc.reg x).enc.getLsbD 31 = true := by
      simp only [Loc.enc, bit, BitVec.getLsbD_append, BitVec.getLsbD_ofBool]
      grind
    have h3 : (Loc.reg x).enc.extractLsb' 6 13 = 0 := bits_eq fun i hi => by
      simp only [Loc.enc, bit, BitVec.getLsbD_append]
      grind
    have h4 : (Loc.reg x).enc.extractLsb' 0 6 = x := bits_eq fun i hi => by
      simp only [Loc.enc, bit, BitVec.getLsbD_append]
      grind
    simp only [decLoc, h1, h2, h3, h4]
    rfl

/-- MOD of `EXTR` (R148). -/
theorem extr_mod (s : Bool) (pos : BitVec 6) :
    ((0 : BitVec 1) ++ bit s ++ pos).toNat < 128 ∧ ((0 : BitVec 1) ++ bit s ++ pos).setWidth 6 = pos ∧
      ((0 : BitVec 1) ++ bit s ++ pos).getLsbD 6 = s := by
  refine ⟨?_, ?_, ?_⟩
  · have : ((0 : BitVec 1) ++ bit s ++ pos).getLsbD 7 = false := by
      simp only [bit, BitVec.getLsbD_append, BitVec.getLsbD_ofBool]
      grind
    have h8 := ((0 : BitVec 1) ++ bit s ++ pos).isLt
    generalize (0 : BitVec 1) ++ bit s ++ pos = x at *
    rw [BitVec.getLsbD, Nat.testBit_eq_decide_div_mod_eq] at this
    simp at this
    omega
  · apply BitVec.eq_of_getLsbD_eq
    intro i hi
    simp only [bit, BitVec.getLsbD_setWidth, BitVec.getLsbD_append, BitVec.getLsbD_ofBool]
    grind
  · simp only [bit, BitVec.getLsbD_append, BitVec.getLsbD_ofBool]
    grind

/-! ## Checks -/

@[simp] theorem need_true (e : DecodeError) : need true e = .ok () := rfl
@[simp] theorem Dec.ok_bind {α β : Type} (a : α) (f : α → Dec β) : ((Except.ok a : Dec α) >>= f) = f a := rfl
@[simp] theorem Dec.pure_eq {α : Type} (a : α) : (pure a : Dec α) = .ok a := rfl

end Sys2Proof
end

