-- ==== Sys2Proof/Laws/Memory.lean ====
section
/-! SUPPORT. Maps and memory: reading after a write, and that every memory operation keeps the canonical form. -/

namespace Sys2Proof.Machine

/-! ## Maps -/

/-- The keys of a map rise strictly, and all lie above a bound. -/
def SMap.Above {α : Type} : Nat → SMap α → Prop
  | _, [] => True
  | lo, (k, _) :: r => lo ≤ k ∧ SMap.Above (k + 1) r

/-- The keys of a map rise strictly. -/
def SMap.Sorted {α : Type} (m : SMap α) : Prop := SMap.Above 0 m

theorem SMap.above_mono {α : Type} {lo lo' : Nat} (h : lo' ≤ lo) {m : SMap α} (hm : SMap.Above lo m) :
    SMap.Above lo' m := by
  cases m with
  | nil => trivial
  | cons e r => exact ⟨h.trans hm.1, hm.2⟩

@[simp] theorem SMap.find_nil {α : Type} (k : Nat) : SMap.find ([] : SMap α) k = none := rfl

theorem SMap.find_of_above {α : Type} {lo k : Nat} (hk : k < lo) {m : SMap α} (hm : SMap.Above lo m) :
    SMap.find m k = none := by
  induction m generalizing lo with
  | nil => rfl
  | cons e r ih =>
    obtain ⟨j, v⟩ := e
    have h1 : lo ≤ j := hm.1
    simp only [SMap.find, if_neg (show j ≠ k by omega)]
    exact ih (show k < j + 1 by omega) hm.2

theorem SMap.put_above {α : Type} {lo k : Nat} {v : α} {m : SMap α} (hk : lo ≤ k) (hm : SMap.Above lo m) :
    SMap.Above lo (SMap.put m k v) := by
  induction m generalizing lo with
  | nil => exact ⟨hk, trivial⟩
  | cons e r ih =>
    obtain ⟨j, w⟩ := e
    unfold SMap.put
    split_ifs with h1 h2
    · exact ⟨hk, h1, hm.2⟩
    · subst h2
      exact hm
    · exact ⟨hm.1, ih (by omega) hm.2⟩

theorem SMap.erase_above {α : Type} {lo k : Nat} {m : SMap α} (hm : SMap.Above lo m) :
    SMap.Above lo (SMap.erase m k) := by
  induction m generalizing lo with
  | nil => exact trivial
  | cons e r ih =>
    obtain ⟨j, w⟩ := e
    unfold SMap.erase
    split_ifs with h1
    · exact SMap.above_mono (hm.1.trans (Nat.le_succ j)) hm.2
    · exact ⟨hm.1, ih hm.2⟩

@[simp] theorem SMap.find_put_self {α : Type} (m : SMap α) (k : Nat) (v : α) :
    SMap.find (SMap.put m k v) k = some v := by
  induction m with
  | nil => simp [SMap.put, SMap.find]
  | cons e r ih =>
    obtain ⟨j, w⟩ := e
    unfold SMap.put
    split_ifs with h1 h2
    · simp [SMap.find]
    · simp [SMap.find]
    · simp only [SMap.find, if_neg (Ne.symm h2), ih]

theorem SMap.find_put_ne {α : Type} (m : SMap α) {k i : Nat} (v : α) (h : i ≠ k) :
    SMap.find (SMap.put m k v) i = SMap.find m i := by
  induction m with
  | nil => simp [SMap.put, SMap.find, Ne.symm h]
  | cons e r ih =>
    obtain ⟨j, w⟩ := e
    unfold SMap.put
    split_ifs with h1 h2
    · simp [SMap.find, Ne.symm h]
    · subst h2
      simp [SMap.find, Ne.symm h]
    · simp only [SMap.find, ih]

theorem SMap.find_erase_self {α : Type} {m : SMap α} {lo : Nat} (hm : SMap.Above lo m) (k : Nat) :
    SMap.find (SMap.erase m k) k = none := by
  induction m generalizing lo with
  | nil => rfl
  | cons e r ih =>
    obtain ⟨j, w⟩ := e
    unfold SMap.erase
    split_ifs with h1
    · subst h1
      exact SMap.find_of_above (Nat.lt_succ_self j) hm.2
    · simp only [SMap.find, if_neg h1]
      exact ih hm.2

theorem SMap.find_erase_ne {α : Type} (m : SMap α) {k i : Nat} (h : i ≠ k) :
    SMap.find (SMap.erase m k) i = SMap.find m i := by
  induction m with
  | nil => rfl
  | cons e r ih =>
    obtain ⟨j, w⟩ := e
    unfold SMap.erase
    split_ifs with h1
    · subst h1
      simp [SMap.find, Ne.symm h]
    · simp only [SMap.find, ih]

@[simp] theorem SMap.at_put_self {α : Type} (m : SMap α) (d : α) (k : Nat) (v : α) :
    SMap.at (SMap.put m k v) d k = v := by simp [SMap.at]

theorem SMap.at_put_ne {α : Type} (m : SMap α) (d : α) {k i : Nat} (v : α) (h : i ≠ k) :
    SMap.at (SMap.put m k v) d i = SMap.at m d i := by simp [SMap.at, SMap.find_put_ne m v h]

theorem SMap.find_update {α : Type} (m : SMap α) (f : Nat → α → α) (k : Nat) :
    SMap.find (SMap.update m f) k = (SMap.find m k).map (f k) := by
  induction m with
  | nil => rfl
  | cons e r ih =>
    obtain ⟨j, w⟩ := e
    simp only [SMap.update, List.map_cons, SMap.find] at ih ⊢
    split_ifs with h
    · subst h; rfl
    · exact ih

/-! ## The canonical form of memory -/

/-- No listed byte is 0. -/
def Memory.NoZero (m : Memory) : Prop := ∀ c ∈ m, c.2 ≠ (0 : Byte)

theorem Memory.wf_iff (m : Memory) : m.wf = true ↔ SMap.Sorted m ∧ m.NoZero := by
  unfold SMap.Sorted
  suffices h : ∀ (m : Memory) (lo : Nat), (∀ c ∈ m.head?, lo ≤ c.1) →
      (m.wf = true ↔ SMap.Above lo m ∧ m.NoZero) by
    exact h m 0 (by simp)
  intro m
  induction m with
  | nil => intro lo _; simp [Memory.wf, SMap.Above, Memory.NoZero]
  | cons e r ih =>
    intro lo hlo
    obtain ⟨a, b⟩ := e
    have hlo' : lo ≤ a := hlo (a, b) (by simp)
    cases r with
    | nil => simp [Memory.wf, SMap.Above, Memory.NoZero, hlo']
    | cons e' r' =>
      obtain ⟨a', b'⟩ := e'
      simp only [Memory.wf, Bool.and_eq_true, bne_iff_ne, ne_eq, decide_eq_true_eq]
      by_cases haa : a < a'
      · rw [ih (a + 1) (by simpa using haa)]
        simp only [SMap.Above, Memory.NoZero, List.mem_cons, forall_eq_or_imp]
        constructor
        · rintro ⟨⟨h1, -⟩, h3, h4, h5⟩
          exact ⟨⟨hlo', h3⟩, h1, h4, h5⟩
        · rintro ⟨⟨-, h3⟩, h1, h4, h5⟩
          exact ⟨⟨h1, haa⟩, h3, h4, h5⟩
      · constructor
        · rintro ⟨⟨-, h⟩, -⟩
          exact absurd h haa
        · rintro ⟨⟨-, h3, -⟩, -⟩
          omega

theorem SMap.mem_put {α : Type} {m : SMap α} {k : Nat} {v : α} {c : Nat × α} (h : c ∈ SMap.put m k v) :
    c = (k, v) ∨ c ∈ m := by
  induction m with
  | nil => simpa [SMap.put] using h
  | cons e r ih =>
    obtain ⟨j, w⟩ := e
    unfold SMap.put at h
    split_ifs at h with h1 h2
    · simpa using h
    · simp only [List.mem_cons] at h ⊢
      tauto
    · simp only [List.mem_cons] at h ⊢
      rcases h with h | h
      · tauto
      · rcases ih h with h | h <;> tauto

theorem SMap.mem_erase {α : Type} {m : SMap α} {k : Nat} {c : Nat × α} (h : c ∈ SMap.erase m k) : c ∈ m := by
  induction m with
  | nil => exact h
  | cons e r ih =>
    obtain ⟨j, w⟩ := e
    unfold SMap.erase at h
    split_ifs at h with h1
    · exact List.mem_cons_of_mem _ h
    · simp only [List.mem_cons] at h ⊢
      rcases h with h | h
      · exact .inl h
      · exact .inr (ih h)

@[simp] theorem Memory.wf_nil : Memory.wf [] = true := rfl

theorem Memory.write_wf {m : Memory} (h : m.wf = true) (a : Nat) (b : Byte) : (m.write a b).wf = true := by
  rw [Memory.wf_iff] at h ⊢
  unfold Memory.write
  split_ifs with hb
  · exact ⟨SMap.erase_above h.1, fun c hc => h.2 c (SMap.mem_erase hc)⟩
  · refine ⟨SMap.put_above (Nat.zero_le a) h.1, fun c hc => ?_⟩
    rcases SMap.mem_put hc with rfl | hc
    · exact hb
    · exact h.2 c hc

theorem Memory.writeN_wf {m : Memory} (h : m.wf = true) (a n v : Nat) : (m.writeN a n v).wf = true := by
  induction n generalizing m a v with
  | zero => exact h
  | succ n ih => exact ih (Memory.write_wf h _ _) _ _

theorem Memory.writeBytes_wf {m : Memory} (h : m.wf = true) (a : Nat) (l : List Byte) :
    (m.writeBytes a l).wf = true := by
  induction l generalizing m a with
  | nil => exact h
  | cons b r ih => exact ih (Memory.write_wf h _ _) _

theorem SMap.above_filter {α : Type} {lo : Nat} {m : SMap α} (hm : SMap.Above lo m) (f : Nat × α → Bool) :
    SMap.Above lo (m.filter f) := by
  induction m generalizing lo with
  | nil => trivial
  | cons e r ih =>
    obtain ⟨j, w⟩ := e
    rw [List.filter_cons]
    split_ifs
    · exact ⟨hm.1, ih hm.2⟩
    · exact SMap.above_mono (hm.1.trans (Nat.le_succ j)) (ih hm.2)

theorem Memory.clear_wf {m : Memory} (h : m.wf = true) (lo n : Nat) : (m.clear lo n).wf = true := by
  rw [Memory.wf_iff] at h ⊢
  exact ⟨SMap.above_filter h.1 _, fun c hc => h.2 c (List.mem_filter.mp hc).1⟩

theorem Memory.paste_wf {m : Memory} (h : m.wf = true) (lo n : Nat) (sl : Memory) : (m.paste lo n sl).wf = true := by
  unfold Memory.paste
  have h' := Memory.clear_wf h lo n
  generalize m.clear lo n = m' at h'
  induction sl generalizing m' with
  | nil => exact h'
  | cons c r ih => exact ih _ (Memory.write_wf h' _ _)

theorem Memory.slice_wf {m : Memory} (h : m.wf = true) (lo n : Nat) : (m.slice lo n).wf = true := by
  rw [Memory.wf_iff] at h ⊢
  constructor
  · have key : ∀ (m : Memory) (k : Nat), SMap.Above k m →
        SMap.Above (k - lo) ((m.filter fun c => decide (lo ≤ c.1 ∧ c.1 < lo + n)).map fun c => (c.1 - lo, c.2)) := by
      intro m
      induction m with
      | nil => intro k _; trivial
      | cons e r ih =>
        obtain ⟨j, w⟩ := e
        intro k hk
        have hkj : k ≤ j := hk.1
        rw [List.filter_cons]
        split_ifs with hj
        · have hlo : lo ≤ j := by simpa using (of_decide_eq_true hj).1
          refine ⟨Nat.sub_le_sub_right hkj lo, ?_⟩
          have := ih (j + 1) hk.2
          rwa [show j + 1 - lo = j - lo + 1 by omega] at this
        · exact SMap.above_mono (Nat.sub_le_sub_right (Nat.le_succ_of_le hkj) lo) (ih (j + 1) hk.2)
    simpa [SMap.Sorted, Memory.slice] using key m 0 h.1
  · intro c hc
    simp only [Memory.slice, List.mem_map, List.mem_filter] at hc
    obtain ⟨c', ⟨hc', -⟩, rfl⟩ := hc
    exact h.2 c' hc'

/-! ## Reading after a write -/

theorem Memory.read_write_ne (m : Memory) {a a' : Nat} (b : Byte) (h : a' ≠ a) : (m.write a b).read a' = m.read a' := by
  unfold Memory.read Memory.write SMap.at
  split_ifs
  · rw [SMap.find_erase_ne m h]
  · rw [SMap.find_put_ne m b h]

theorem Memory.read_write_self {m : Memory} (h : m.wf = true) (a : Nat) (b : Byte) : (m.write a b).read a = b := by
  unfold Memory.read Memory.write SMap.at
  split_ifs with hb
  · rw [SMap.find_erase_self ((Memory.wf_iff m).mp h).1, hb]
    rfl
  · simp

theorem Memory.read_writeN_out (m : Memory) {a n a' : Nat} (v : Nat) (h : a' < a ∨ a + n ≤ a') :
    (m.writeN a n v).read a' = m.read a' := by
  induction n generalizing m a v with
  | zero => rfl
  | succ n ih =>
    rw [Memory.writeN, ih _ _ (by omega), Memory.read_write_ne _ _ (by omega)]

/-- The bytes written by `writeN` read back as the number. -/
theorem Memory.readN_writeN {m : Memory} (h : m.wf = true) (a n v : Nat) :
    (m.writeN a n v).readN a n = v % 256 ^ n := by
  induction n generalizing m a v with
  | zero => simp [Memory.readN, Nat.mod_one]
  | succ n ih =>
    rw [Memory.readN, Memory.writeN, ih (Memory.write_wf h _ _),
      Memory.read_writeN_out _ _ (.inl (Nat.lt_succ_self a)), Memory.read_write_self h, BitVec.toNat_ofNat,
      show 256 ^ (n + 1) = 256 * 256 ^ n from Nat.pow_succ', Nat.mod_mul (x := v) (a := 256)]

theorem Memory.readN_congr {m m' : Memory} {a n : Nat} (h : ∀ i, a ≤ i → i < a + n → m.read i = m'.read i) :
    m.readN a n = m'.readN a n := by
  induction n generalizing a with
  | zero => rfl
  | succ n ih =>
    rw [Memory.readN, Memory.readN, h a le_rfl (by omega), ih fun i h1 h2 => h i (by omega) (by omega)]

end Sys2Proof.Machine
end

