-- ==== Sys2Proof/Laws/State.lean ====
section
/-! SUPPORT. One lemma for each field and each update of the state: what the updates of contexts, registers and units
leave as it was. -/

namespace Sys2Proof.Machine

/-! ## Fields that the updates do not touch -/

@[simp] theorem State.setCtx_cores (s : State) (c : CtxId) (k : Context) : (s.setCtx c k).cores = s.cores := rfl
@[simp] theorem State.setCtx_clusters (s : State) (c : CtxId) (k : Context) : (s.setCtx c k).clusters = s.clusters := rfl
@[simp] theorem State.setCtx_queues (s : State) (c : CtxId) (k : Context) : (s.setCtx c k).queues = s.queues := rfl
@[simp] theorem State.setCtx_normal (s : State) (c : CtxId) (k : Context) : (s.setCtx c k).normal = s.normal := rfl
@[simp] theorem State.setCtx_secure (s : State) (c : CtxId) (k : Context) : (s.setCtx c k).secure = s.secure := rfl
@[simp] theorem State.setCtx_hbm (s : State) (c : CtxId) (k : Context) : (s.setCtx c k).hbm = s.hbm := rfl
@[simp] theorem State.setCtx_host (s : State) (c : CtxId) (k : Context) : (s.setCtx c k).host = s.host := rfl
@[simp] theorem State.setCtx_coreMem (s : State) (c : CtxId) (k : Context) : (s.setCtx c k).coreMem = s.coreMem := rfl
@[simp] theorem State.setCtx_clusterMem (s : State) (c : CtxId) (k : Context) : (s.setCtx c k).clusterMem = s.clusterMem := rfl
@[simp] theorem State.setCtx_chipMem (s : State) (c : CtxId) (k : Context) : (s.setCtx c k).chipMem = s.chipMem := rfl
@[simp] theorem State.setCtx_stamps (s : State) (c : CtxId) (k : Context) : (s.setCtx c k).stamps = s.stamps := rfl
@[simp] theorem State.setCtx_stampBase (s : State) (c : CtxId) (k : Context) : (s.setCtx c k).stampBase = s.stampBase := rfl
@[simp] theorem State.setCtx_l2 (s : State) (c : CtxId) (k : Context) : (s.setCtx c k).l2 = s.l2 := rfl
@[simp] theorem State.setCtx_l2Writebacks (s : State) (c : CtxId) (k : Context) : (s.setCtx c k).l2Writebacks = s.l2Writebacks := rfl
@[simp] theorem State.setCtx_deposit (s : State) (c : CtxId) (k : Context) : (s.setCtx c k).deposit = s.deposit := rfl
@[simp] theorem State.setCtx_depositMts (s : State) (c : CtxId) (k : Context) : (s.setCtx c k).depositMts = s.depositMts := rfl
@[simp] theorem State.setCtx_depositWritebacks (s : State) (c : CtxId) (k : Context) : (s.setCtx c k).depositWritebacks = s.depositWritebacks := rfl
@[simp] theorem State.setCtx_hostLines (s : State) (c : CtxId) (k : Context) : (s.setCtx c k).hostLines = s.hostLines := rfl
@[simp] theorem State.setCtx_writeEntries (s : State) (c : CtxId) (k : Context) : (s.setCtx c k).writeEntries = s.writeEntries := rfl
@[simp] theorem State.setCtx_superseded (s : State) (c : CtxId) (k : Context) : (s.setCtx c k).superseded = s.superseded := rfl
@[simp] theorem State.setCtx_hostFills (s : State) (c : CtxId) (k : Context) : (s.setCtx c k).hostFills = s.hostFills := rfl
@[simp] theorem State.setCtx_unitAnswers (s : State) (c : CtxId) (k : Context) : (s.setCtx c k).unitAnswers = s.unitAnswers := rfl
@[simp] theorem State.setCtx_hmts0 (s : State) (c : CtxId) (k : Context) : (s.setCtx c k).hmts0 = s.hmts0 := rfl
@[simp] theorem State.setCtx_hmts1 (s : State) (c : CtxId) (k : Context) : (s.setCtx c k).hmts1 = s.hmts1 := rfl
@[simp] theorem State.setCtx_backInvals (s : State) (c : CtxId) (k : Context) : (s.setCtx c k).backInvals = s.backInvals := rfl
@[simp] theorem State.setCtx_hostOwned (s : State) (c : CtxId) (k : Context) : (s.setCtx c k).hostOwned = s.hostOwned := rfl
@[simp] theorem State.setCtx_posted (s : State) (c : CtxId) (k : Context) : (s.setCtx c k).posted = s.posted := rfl
@[simp] theorem State.setCtx_acks (s : State) (c : CtxId) (k : Context) : (s.setCtx c k).acks = s.acks := rfl
@[simp] theorem State.setCtx_tileCopies (s : State) (c : CtxId) (k : Context) : (s.setCtx c k).tileCopies = s.tileCopies := rfl
@[simp] theorem State.setCtx_sends (s : State) (c : CtxId) (k : Context) : (s.setCtx c k).sends = s.sends := rfl
@[simp] theorem State.setCtx_walks (s : State) (c : CtxId) (k : Context) : (s.setCtx c k).walks = s.walks := rfl
@[simp] theorem State.setCtx_flits (s : State) (c : CtxId) (k : Context) : (s.setCtx c k).flits = s.flits := rfl
@[simp] theorem State.setCtx_forwards (s : State) (c : CtxId) (k : Context) : (s.setCtx c k).forwards = s.forwards := rfl
@[simp] theorem State.setCtx_remoteDrops (s : State) (c : CtxId) (k : Context) : (s.setCtx c k).remoteDrops = s.remoteDrops := rfl
@[simp] theorem State.setCtx_demands (s : State) (c : CtxId) (k : Context) : (s.setCtx c k).demands = s.demands := rfl
@[simp] theorem State.setCtx_arrears (s : State) (c : CtxId) (k : Context) : (s.setCtx c k).arrears = s.arrears := rfl
@[simp] theorem State.setCtx_exits (s : State) (c : CtxId) (k : Context) : (s.setCtx c k).exits = s.exits := rfl
@[simp] theorem State.setCtx_removals (s : State) (c : CtxId) (k : Context) : (s.setCtx c k).removals = s.removals := rfl
@[simp] theorem State.setCtx_encl (s : State) (c : CtxId) (k : Context) : (s.setCtx c k).encl = s.encl := rfl
@[simp] theorem State.setCtx_enstk (s : State) (c : CtxId) (k : Context) : (s.setCtx c k).enstk = s.enstk := rfl
@[simp] theorem State.setCtx_ready (s : State) (c : CtxId) (k : Context) : (s.setCtx c k).ready = s.ready := rfl
@[simp] theorem State.setCtx_cworld (s : State) (c : CtxId) (k : Context) : (s.setCtx c k).cworld = s.cworld := rfl
@[simp] theorem State.setCtx_csworld (s : State) (c : CtxId) (k : Context) : (s.setCtx c k).csworld = s.csworld := rfl
@[simp] theorem State.setCtx_regions (s : State) (c : CtxId) (k : Context) : (s.setCtx c k).regions = s.regions := rfl
@[simp] theorem State.setCtx_assay (s : State) (c : CtxId) (k : Context) : (s.setCtx c k).assay = s.assay := rfl
@[simp] theorem State.setCtx_peers (s : State) (c : CtxId) (k : Context) : (s.setCtx c k).peers = s.peers := rfl
@[simp] theorem State.setCtx_lbtol (s : State) (c : CtxId) (k : Context) : (s.setCtx c k).lbtol = s.lbtol := rfl
@[simp] theorem State.setCtx_sharedWrites (s : State) (c : CtxId) (k : Context) : (s.setCtx c k).sharedWrites = s.sharedWrites := rfl
@[simp] theorem State.setCtx_hcsize (s : State) (c : CtxId) (k : Context) : (s.setCtx c k).hcsize = s.hcsize := rfl
@[simp] theorem State.setCtx_linkup (s : State) (c : CtxId) (k : Context) : (s.setCtx c k).linkup = s.linkup := rfl
@[simp] theorem State.setCtx_nodeid (s : State) (c : CtxId) (k : Context) : (s.setCtx c k).nodeid = s.nodeid := rfl
@[simp] theorem State.setCtx_pxlost (s : State) (c : CtxId) (k : Context) : (s.setCtx c k).pxlost = s.pxlost := rfl
@[simp] theorem State.setCtx_pxref (s : State) (c : CtxId) (k : Context) : (s.setCtx c k).pxref = s.pxref := rfl
@[simp] theorem State.setCtx_linkSeq (s : State) (c : CtxId) (k : Context) : (s.setCtx c k).linkSeq = s.linkSeq := rfl
@[simp] theorem State.setCtx_time (s : State) (c : CtxId) (k : Context) : (s.setCtx c k).time = s.time := rfl
@[simp] theorem State.setCtx_slew (s : State) (c : CtxId) (k : Context) : (s.setCtx c k).slew = s.slew := rfl
@[simp] theorem State.setCtx_timeStepped (s : State) (c : CtxId) (k : Context) : (s.setCtx c k).timeStepped = s.timeStepped := rfl
@[simp] theorem State.setCtx_ptpLocked (s : State) (c : CtxId) (k : Context) : (s.setCtx c k).ptpLocked = s.ptpLocked := rfl
@[simp] theorem State.setCtx_plimit (s : State) (c : CtxId) (k : Context) : (s.setCtx c k).plimit = s.plimit := rfl
@[simp] theorem State.setCtx_tripped (s : State) (c : CtxId) (k : Context) : (s.setCtx c k).tripped = s.tripped := rfl
@[simp] theorem State.setCtx_throttled (s : State) (c : CtxId) (k : Context) : (s.setCtx c k).throttled = s.throttled := rfl
@[simp] theorem State.setCtx_thhist (s : State) (c : CtxId) (k : Context) : (s.setCtx c k).thhist = s.thhist := rfl
@[simp] theorem State.setCtx_sensors (s : State) (c : CtxId) (k : Context) : (s.setCtx c k).sensors = s.sensors := rfl
@[simp] theorem State.setCtx_flowLow (s : State) (c : CtxId) (k : Context) : (s.setCtx c k).flowLow = s.flowLow := rfl
@[simp] theorem State.setCtx_dark (s : State) (c : CtxId) (k : Context) : (s.setCtx c k).dark = s.dark := rfl
@[simp] theorem State.setCtx_dumps (s : State) (c : CtxId) (k : Context) : (s.setCtx c k).dumps = s.dumps := rfl
@[simp] theorem State.setCtx_clock (s : State) (c : CtxId) (k : Context) : (s.setCtx c k).clock = s.clock := rfl
@[simp] theorem State.setCtx_advanced (s : State) (c : CtxId) (k : Context) : (s.setCtx c k).advanced = s.advanced := rfl
@[simp] theorem State.setCtx_floored (s : State) (c : CtxId) (k : Context) : (s.setCtx c k).floored = s.floored := rfl
@[simp] theorem State.setCtx_swept (s : State) (c : CtxId) (k : Context) : (s.setCtx c k).swept = s.swept := rfl
@[simp] theorem State.setCtx_front (s : State) (c : CtxId) (k : Context) : (s.setCtx c k).front = s.front := rfl
@[simp] theorem State.setCtx_high (s : State) (c : CtxId) (k : Context) : (s.setCtx c k).high = s.high := rfl
@[simp] theorem State.setCtx_floor (s : State) (c : CtxId) (k : Context) : (s.setCtx c k).floor = s.floor := rfl
@[simp] theorem State.setCtx_softErrors (s : State) (c : CtxId) (k : Context) : (s.setCtx c k).softErrors = s.softErrors := rfl
@[simp] theorem State.setCtx_admissions (s : State) (c : CtxId) (k : Context) : (s.setCtx c k).admissions = s.admissions := rfl
@[simp] theorem State.setCtx_out (s : State) (c : CtxId) (k : Context) : (s.setCtx c k).out = s.out := rfl
@[simp] theorem State.setCtx_agenda (s : State) (c : CtxId) (k : Context) : (s.setCtx c k).agenda = s.agenda := rfl
@[simp] theorem State.setCtx_active (s : State) (c : CtxId) (k : Context) : (s.setCtx c k).active = s.active := rfl
@[simp] theorem State.setCtx_choices (s : State) (c : CtxId) (k : Context) : (s.setCtx c k).choices = s.choices := rfl

@[simp] theorem State.setCore_contexts (s : State) (c : Nat) (k : Core) : (s.setCore c k).contexts = s.contexts := rfl
@[simp] theorem State.setCore_clusters (s : State) (c : Nat) (k : Core) : (s.setCore c k).clusters = s.clusters := rfl
@[simp] theorem State.setCore_queues (s : State) (c : Nat) (k : Core) : (s.setCore c k).queues = s.queues := rfl
@[simp] theorem State.setCore_normal (s : State) (c : Nat) (k : Core) : (s.setCore c k).normal = s.normal := rfl
@[simp] theorem State.setCore_secure (s : State) (c : Nat) (k : Core) : (s.setCore c k).secure = s.secure := rfl
@[simp] theorem State.setCore_hbm (s : State) (c : Nat) (k : Core) : (s.setCore c k).hbm = s.hbm := rfl
@[simp] theorem State.setCore_host (s : State) (c : Nat) (k : Core) : (s.setCore c k).host = s.host := rfl
@[simp] theorem State.setCore_coreMem (s : State) (c : Nat) (k : Core) : (s.setCore c k).coreMem = s.coreMem := rfl
@[simp] theorem State.setCore_clusterMem (s : State) (c : Nat) (k : Core) : (s.setCore c k).clusterMem = s.clusterMem := rfl
@[simp] theorem State.setCore_chipMem (s : State) (c : Nat) (k : Core) : (s.setCore c k).chipMem = s.chipMem := rfl
@[simp] theorem State.setCore_stamps (s : State) (c : Nat) (k : Core) : (s.setCore c k).stamps = s.stamps := rfl
@[simp] theorem State.setCore_stampBase (s : State) (c : Nat) (k : Core) : (s.setCore c k).stampBase = s.stampBase := rfl
@[simp] theorem State.setCore_l2 (s : State) (c : Nat) (k : Core) : (s.setCore c k).l2 = s.l2 := rfl
@[simp] theorem State.setCore_l2Writebacks (s : State) (c : Nat) (k : Core) : (s.setCore c k).l2Writebacks = s.l2Writebacks := rfl
@[simp] theorem State.setCore_deposit (s : State) (c : Nat) (k : Core) : (s.setCore c k).deposit = s.deposit := rfl
@[simp] theorem State.setCore_depositMts (s : State) (c : Nat) (k : Core) : (s.setCore c k).depositMts = s.depositMts := rfl
@[simp] theorem State.setCore_depositWritebacks (s : State) (c : Nat) (k : Core) : (s.setCore c k).depositWritebacks = s.depositWritebacks := rfl
@[simp] theorem State.setCore_hostLines (s : State) (c : Nat) (k : Core) : (s.setCore c k).hostLines = s.hostLines := rfl
@[simp] theorem State.setCore_writeEntries (s : State) (c : Nat) (k : Core) : (s.setCore c k).writeEntries = s.writeEntries := rfl
@[simp] theorem State.setCore_superseded (s : State) (c : Nat) (k : Core) : (s.setCore c k).superseded = s.superseded := rfl
@[simp] theorem State.setCore_hostFills (s : State) (c : Nat) (k : Core) : (s.setCore c k).hostFills = s.hostFills := rfl
@[simp] theorem State.setCore_unitAnswers (s : State) (c : Nat) (k : Core) : (s.setCore c k).unitAnswers = s.unitAnswers := rfl
@[simp] theorem State.setCore_hmts0 (s : State) (c : Nat) (k : Core) : (s.setCore c k).hmts0 = s.hmts0 := rfl
@[simp] theorem State.setCore_hmts1 (s : State) (c : Nat) (k : Core) : (s.setCore c k).hmts1 = s.hmts1 := rfl
@[simp] theorem State.setCore_backInvals (s : State) (c : Nat) (k : Core) : (s.setCore c k).backInvals = s.backInvals := rfl
@[simp] theorem State.setCore_hostOwned (s : State) (c : Nat) (k : Core) : (s.setCore c k).hostOwned = s.hostOwned := rfl
@[simp] theorem State.setCore_posted (s : State) (c : Nat) (k : Core) : (s.setCore c k).posted = s.posted := rfl
@[simp] theorem State.setCore_acks (s : State) (c : Nat) (k : Core) : (s.setCore c k).acks = s.acks := rfl
@[simp] theorem State.setCore_tileCopies (s : State) (c : Nat) (k : Core) : (s.setCore c k).tileCopies = s.tileCopies := rfl
@[simp] theorem State.setCore_sends (s : State) (c : Nat) (k : Core) : (s.setCore c k).sends = s.sends := rfl
@[simp] theorem State.setCore_walks (s : State) (c : Nat) (k : Core) : (s.setCore c k).walks = s.walks := rfl
@[simp] theorem State.setCore_flits (s : State) (c : Nat) (k : Core) : (s.setCore c k).flits = s.flits := rfl
@[simp] theorem State.setCore_forwards (s : State) (c : Nat) (k : Core) : (s.setCore c k).forwards = s.forwards := rfl
@[simp] theorem State.setCore_remoteDrops (s : State) (c : Nat) (k : Core) : (s.setCore c k).remoteDrops = s.remoteDrops := rfl
@[simp] theorem State.setCore_demands (s : State) (c : Nat) (k : Core) : (s.setCore c k).demands = s.demands := rfl
@[simp] theorem State.setCore_arrears (s : State) (c : Nat) (k : Core) : (s.setCore c k).arrears = s.arrears := rfl
@[simp] theorem State.setCore_exits (s : State) (c : Nat) (k : Core) : (s.setCore c k).exits = s.exits := rfl
@[simp] theorem State.setCore_removals (s : State) (c : Nat) (k : Core) : (s.setCore c k).removals = s.removals := rfl
@[simp] theorem State.setCore_encl (s : State) (c : Nat) (k : Core) : (s.setCore c k).encl = s.encl := rfl
@[simp] theorem State.setCore_enstk (s : State) (c : Nat) (k : Core) : (s.setCore c k).enstk = s.enstk := rfl
@[simp] theorem State.setCore_ready (s : State) (c : Nat) (k : Core) : (s.setCore c k).ready = s.ready := rfl
@[simp] theorem State.setCore_cworld (s : State) (c : Nat) (k : Core) : (s.setCore c k).cworld = s.cworld := rfl
@[simp] theorem State.setCore_csworld (s : State) (c : Nat) (k : Core) : (s.setCore c k).csworld = s.csworld := rfl
@[simp] theorem State.setCore_regions (s : State) (c : Nat) (k : Core) : (s.setCore c k).regions = s.regions := rfl
@[simp] theorem State.setCore_assay (s : State) (c : Nat) (k : Core) : (s.setCore c k).assay = s.assay := rfl
@[simp] theorem State.setCore_peers (s : State) (c : Nat) (k : Core) : (s.setCore c k).peers = s.peers := rfl
@[simp] theorem State.setCore_lbtol (s : State) (c : Nat) (k : Core) : (s.setCore c k).lbtol = s.lbtol := rfl
@[simp] theorem State.setCore_sharedWrites (s : State) (c : Nat) (k : Core) : (s.setCore c k).sharedWrites = s.sharedWrites := rfl
@[simp] theorem State.setCore_hcsize (s : State) (c : Nat) (k : Core) : (s.setCore c k).hcsize = s.hcsize := rfl
@[simp] theorem State.setCore_linkup (s : State) (c : Nat) (k : Core) : (s.setCore c k).linkup = s.linkup := rfl
@[simp] theorem State.setCore_nodeid (s : State) (c : Nat) (k : Core) : (s.setCore c k).nodeid = s.nodeid := rfl
@[simp] theorem State.setCore_pxlost (s : State) (c : Nat) (k : Core) : (s.setCore c k).pxlost = s.pxlost := rfl
@[simp] theorem State.setCore_pxref (s : State) (c : Nat) (k : Core) : (s.setCore c k).pxref = s.pxref := rfl
@[simp] theorem State.setCore_linkSeq (s : State) (c : Nat) (k : Core) : (s.setCore c k).linkSeq = s.linkSeq := rfl
@[simp] theorem State.setCore_time (s : State) (c : Nat) (k : Core) : (s.setCore c k).time = s.time := rfl
@[simp] theorem State.setCore_slew (s : State) (c : Nat) (k : Core) : (s.setCore c k).slew = s.slew := rfl
@[simp] theorem State.setCore_timeStepped (s : State) (c : Nat) (k : Core) : (s.setCore c k).timeStepped = s.timeStepped := rfl
@[simp] theorem State.setCore_ptpLocked (s : State) (c : Nat) (k : Core) : (s.setCore c k).ptpLocked = s.ptpLocked := rfl
@[simp] theorem State.setCore_plimit (s : State) (c : Nat) (k : Core) : (s.setCore c k).plimit = s.plimit := rfl
@[simp] theorem State.setCore_tripped (s : State) (c : Nat) (k : Core) : (s.setCore c k).tripped = s.tripped := rfl
@[simp] theorem State.setCore_throttled (s : State) (c : Nat) (k : Core) : (s.setCore c k).throttled = s.throttled := rfl
@[simp] theorem State.setCore_thhist (s : State) (c : Nat) (k : Core) : (s.setCore c k).thhist = s.thhist := rfl
@[simp] theorem State.setCore_sensors (s : State) (c : Nat) (k : Core) : (s.setCore c k).sensors = s.sensors := rfl
@[simp] theorem State.setCore_flowLow (s : State) (c : Nat) (k : Core) : (s.setCore c k).flowLow = s.flowLow := rfl
@[simp] theorem State.setCore_dark (s : State) (c : Nat) (k : Core) : (s.setCore c k).dark = s.dark := rfl
@[simp] theorem State.setCore_dumps (s : State) (c : Nat) (k : Core) : (s.setCore c k).dumps = s.dumps := rfl
@[simp] theorem State.setCore_clock (s : State) (c : Nat) (k : Core) : (s.setCore c k).clock = s.clock := rfl
@[simp] theorem State.setCore_advanced (s : State) (c : Nat) (k : Core) : (s.setCore c k).advanced = s.advanced := rfl
@[simp] theorem State.setCore_floored (s : State) (c : Nat) (k : Core) : (s.setCore c k).floored = s.floored := rfl
@[simp] theorem State.setCore_swept (s : State) (c : Nat) (k : Core) : (s.setCore c k).swept = s.swept := rfl
@[simp] theorem State.setCore_front (s : State) (c : Nat) (k : Core) : (s.setCore c k).front = s.front := rfl
@[simp] theorem State.setCore_high (s : State) (c : Nat) (k : Core) : (s.setCore c k).high = s.high := rfl
@[simp] theorem State.setCore_floor (s : State) (c : Nat) (k : Core) : (s.setCore c k).floor = s.floor := rfl
@[simp] theorem State.setCore_softErrors (s : State) (c : Nat) (k : Core) : (s.setCore c k).softErrors = s.softErrors := rfl
@[simp] theorem State.setCore_admissions (s : State) (c : Nat) (k : Core) : (s.setCore c k).admissions = s.admissions := rfl
@[simp] theorem State.setCore_out (s : State) (c : Nat) (k : Core) : (s.setCore c k).out = s.out := rfl
@[simp] theorem State.setCore_agenda (s : State) (c : Nat) (k : Core) : (s.setCore c k).agenda = s.agenda := rfl
@[simp] theorem State.setCore_active (s : State) (c : Nat) (k : Core) : (s.setCore c k).active = s.active := rfl
@[simp] theorem State.setCore_choices (s : State) (c : Nat) (k : Core) : (s.setCore c k).choices = s.choices := rfl

@[simp] theorem State.setCluster_contexts (s : State) (p : Nat) (k : Cluster) : (s.setCluster p k).contexts = s.contexts := rfl
@[simp] theorem State.setCluster_cores (s : State) (p : Nat) (k : Cluster) : (s.setCluster p k).cores = s.cores := rfl
@[simp] theorem State.setCluster_queues (s : State) (p : Nat) (k : Cluster) : (s.setCluster p k).queues = s.queues := rfl
@[simp] theorem State.setCluster_normal (s : State) (p : Nat) (k : Cluster) : (s.setCluster p k).normal = s.normal := rfl
@[simp] theorem State.setCluster_secure (s : State) (p : Nat) (k : Cluster) : (s.setCluster p k).secure = s.secure := rfl
@[simp] theorem State.setCluster_hbm (s : State) (p : Nat) (k : Cluster) : (s.setCluster p k).hbm = s.hbm := rfl
@[simp] theorem State.setCluster_host (s : State) (p : Nat) (k : Cluster) : (s.setCluster p k).host = s.host := rfl
@[simp] theorem State.setCluster_coreMem (s : State) (p : Nat) (k : Cluster) : (s.setCluster p k).coreMem = s.coreMem := rfl
@[simp] theorem State.setCluster_clusterMem (s : State) (p : Nat) (k : Cluster) : (s.setCluster p k).clusterMem = s.clusterMem := rfl
@[simp] theorem State.setCluster_chipMem (s : State) (p : Nat) (k : Cluster) : (s.setCluster p k).chipMem = s.chipMem := rfl
@[simp] theorem State.setCluster_stamps (s : State) (p : Nat) (k : Cluster) : (s.setCluster p k).stamps = s.stamps := rfl
@[simp] theorem State.setCluster_stampBase (s : State) (p : Nat) (k : Cluster) : (s.setCluster p k).stampBase = s.stampBase := rfl
@[simp] theorem State.setCluster_l2 (s : State) (p : Nat) (k : Cluster) : (s.setCluster p k).l2 = s.l2 := rfl
@[simp] theorem State.setCluster_l2Writebacks (s : State) (p : Nat) (k : Cluster) : (s.setCluster p k).l2Writebacks = s.l2Writebacks := rfl
@[simp] theorem State.setCluster_deposit (s : State) (p : Nat) (k : Cluster) : (s.setCluster p k).deposit = s.deposit := rfl
@[simp] theorem State.setCluster_depositMts (s : State) (p : Nat) (k : Cluster) : (s.setCluster p k).depositMts = s.depositMts := rfl
@[simp] theorem State.setCluster_depositWritebacks (s : State) (p : Nat) (k : Cluster) : (s.setCluster p k).depositWritebacks = s.depositWritebacks := rfl
@[simp] theorem State.setCluster_hostLines (s : State) (p : Nat) (k : Cluster) : (s.setCluster p k).hostLines = s.hostLines := rfl
@[simp] theorem State.setCluster_writeEntries (s : State) (p : Nat) (k : Cluster) : (s.setCluster p k).writeEntries = s.writeEntries := rfl
@[simp] theorem State.setCluster_superseded (s : State) (p : Nat) (k : Cluster) : (s.setCluster p k).superseded = s.superseded := rfl
@[simp] theorem State.setCluster_hostFills (s : State) (p : Nat) (k : Cluster) : (s.setCluster p k).hostFills = s.hostFills := rfl
@[simp] theorem State.setCluster_unitAnswers (s : State) (p : Nat) (k : Cluster) : (s.setCluster p k).unitAnswers = s.unitAnswers := rfl
@[simp] theorem State.setCluster_hmts0 (s : State) (p : Nat) (k : Cluster) : (s.setCluster p k).hmts0 = s.hmts0 := rfl
@[simp] theorem State.setCluster_hmts1 (s : State) (p : Nat) (k : Cluster) : (s.setCluster p k).hmts1 = s.hmts1 := rfl
@[simp] theorem State.setCluster_backInvals (s : State) (p : Nat) (k : Cluster) : (s.setCluster p k).backInvals = s.backInvals := rfl
@[simp] theorem State.setCluster_hostOwned (s : State) (p : Nat) (k : Cluster) : (s.setCluster p k).hostOwned = s.hostOwned := rfl
@[simp] theorem State.setCluster_posted (s : State) (p : Nat) (k : Cluster) : (s.setCluster p k).posted = s.posted := rfl
@[simp] theorem State.setCluster_acks (s : State) (p : Nat) (k : Cluster) : (s.setCluster p k).acks = s.acks := rfl
@[simp] theorem State.setCluster_tileCopies (s : State) (p : Nat) (k : Cluster) : (s.setCluster p k).tileCopies = s.tileCopies := rfl
@[simp] theorem State.setCluster_sends (s : State) (p : Nat) (k : Cluster) : (s.setCluster p k).sends = s.sends := rfl
@[simp] theorem State.setCluster_walks (s : State) (p : Nat) (k : Cluster) : (s.setCluster p k).walks = s.walks := rfl
@[simp] theorem State.setCluster_flits (s : State) (p : Nat) (k : Cluster) : (s.setCluster p k).flits = s.flits := rfl
@[simp] theorem State.setCluster_forwards (s : State) (p : Nat) (k : Cluster) : (s.setCluster p k).forwards = s.forwards := rfl
@[simp] theorem State.setCluster_remoteDrops (s : State) (p : Nat) (k : Cluster) : (s.setCluster p k).remoteDrops = s.remoteDrops := rfl
@[simp] theorem State.setCluster_demands (s : State) (p : Nat) (k : Cluster) : (s.setCluster p k).demands = s.demands := rfl
@[simp] theorem State.setCluster_arrears (s : State) (p : Nat) (k : Cluster) : (s.setCluster p k).arrears = s.arrears := rfl
@[simp] theorem State.setCluster_exits (s : State) (p : Nat) (k : Cluster) : (s.setCluster p k).exits = s.exits := rfl
@[simp] theorem State.setCluster_removals (s : State) (p : Nat) (k : Cluster) : (s.setCluster p k).removals = s.removals := rfl
@[simp] theorem State.setCluster_encl (s : State) (p : Nat) (k : Cluster) : (s.setCluster p k).encl = s.encl := rfl
@[simp] theorem State.setCluster_enstk (s : State) (p : Nat) (k : Cluster) : (s.setCluster p k).enstk = s.enstk := rfl
@[simp] theorem State.setCluster_ready (s : State) (p : Nat) (k : Cluster) : (s.setCluster p k).ready = s.ready := rfl
@[simp] theorem State.setCluster_cworld (s : State) (p : Nat) (k : Cluster) : (s.setCluster p k).cworld = s.cworld := rfl
@[simp] theorem State.setCluster_csworld (s : State) (p : Nat) (k : Cluster) : (s.setCluster p k).csworld = s.csworld := rfl
@[simp] theorem State.setCluster_regions (s : State) (p : Nat) (k : Cluster) : (s.setCluster p k).regions = s.regions := rfl
@[simp] theorem State.setCluster_assay (s : State) (p : Nat) (k : Cluster) : (s.setCluster p k).assay = s.assay := rfl
@[simp] theorem State.setCluster_peers (s : State) (p : Nat) (k : Cluster) : (s.setCluster p k).peers = s.peers := rfl
@[simp] theorem State.setCluster_lbtol (s : State) (p : Nat) (k : Cluster) : (s.setCluster p k).lbtol = s.lbtol := rfl
@[simp] theorem State.setCluster_sharedWrites (s : State) (p : Nat) (k : Cluster) : (s.setCluster p k).sharedWrites = s.sharedWrites := rfl
@[simp] theorem State.setCluster_hcsize (s : State) (p : Nat) (k : Cluster) : (s.setCluster p k).hcsize = s.hcsize := rfl
@[simp] theorem State.setCluster_linkup (s : State) (p : Nat) (k : Cluster) : (s.setCluster p k).linkup = s.linkup := rfl
@[simp] theorem State.setCluster_nodeid (s : State) (p : Nat) (k : Cluster) : (s.setCluster p k).nodeid = s.nodeid := rfl
@[simp] theorem State.setCluster_pxlost (s : State) (p : Nat) (k : Cluster) : (s.setCluster p k).pxlost = s.pxlost := rfl
@[simp] theorem State.setCluster_pxref (s : State) (p : Nat) (k : Cluster) : (s.setCluster p k).pxref = s.pxref := rfl
@[simp] theorem State.setCluster_linkSeq (s : State) (p : Nat) (k : Cluster) : (s.setCluster p k).linkSeq = s.linkSeq := rfl
@[simp] theorem State.setCluster_time (s : State) (p : Nat) (k : Cluster) : (s.setCluster p k).time = s.time := rfl
@[simp] theorem State.setCluster_slew (s : State) (p : Nat) (k : Cluster) : (s.setCluster p k).slew = s.slew := rfl
@[simp] theorem State.setCluster_timeStepped (s : State) (p : Nat) (k : Cluster) : (s.setCluster p k).timeStepped = s.timeStepped := rfl
@[simp] theorem State.setCluster_ptpLocked (s : State) (p : Nat) (k : Cluster) : (s.setCluster p k).ptpLocked = s.ptpLocked := rfl
@[simp] theorem State.setCluster_plimit (s : State) (p : Nat) (k : Cluster) : (s.setCluster p k).plimit = s.plimit := rfl
@[simp] theorem State.setCluster_tripped (s : State) (p : Nat) (k : Cluster) : (s.setCluster p k).tripped = s.tripped := rfl
@[simp] theorem State.setCluster_throttled (s : State) (p : Nat) (k : Cluster) : (s.setCluster p k).throttled = s.throttled := rfl
@[simp] theorem State.setCluster_thhist (s : State) (p : Nat) (k : Cluster) : (s.setCluster p k).thhist = s.thhist := rfl
@[simp] theorem State.setCluster_sensors (s : State) (p : Nat) (k : Cluster) : (s.setCluster p k).sensors = s.sensors := rfl
@[simp] theorem State.setCluster_flowLow (s : State) (p : Nat) (k : Cluster) : (s.setCluster p k).flowLow = s.flowLow := rfl
@[simp] theorem State.setCluster_dark (s : State) (p : Nat) (k : Cluster) : (s.setCluster p k).dark = s.dark := rfl
@[simp] theorem State.setCluster_dumps (s : State) (p : Nat) (k : Cluster) : (s.setCluster p k).dumps = s.dumps := rfl
@[simp] theorem State.setCluster_clock (s : State) (p : Nat) (k : Cluster) : (s.setCluster p k).clock = s.clock := rfl
@[simp] theorem State.setCluster_advanced (s : State) (p : Nat) (k : Cluster) : (s.setCluster p k).advanced = s.advanced := rfl
@[simp] theorem State.setCluster_floored (s : State) (p : Nat) (k : Cluster) : (s.setCluster p k).floored = s.floored := rfl
@[simp] theorem State.setCluster_swept (s : State) (p : Nat) (k : Cluster) : (s.setCluster p k).swept = s.swept := rfl
@[simp] theorem State.setCluster_front (s : State) (p : Nat) (k : Cluster) : (s.setCluster p k).front = s.front := rfl
@[simp] theorem State.setCluster_high (s : State) (p : Nat) (k : Cluster) : (s.setCluster p k).high = s.high := rfl
@[simp] theorem State.setCluster_floor (s : State) (p : Nat) (k : Cluster) : (s.setCluster p k).floor = s.floor := rfl
@[simp] theorem State.setCluster_softErrors (s : State) (p : Nat) (k : Cluster) : (s.setCluster p k).softErrors = s.softErrors := rfl
@[simp] theorem State.setCluster_admissions (s : State) (p : Nat) (k : Cluster) : (s.setCluster p k).admissions = s.admissions := rfl
@[simp] theorem State.setCluster_out (s : State) (p : Nat) (k : Cluster) : (s.setCluster p k).out = s.out := rfl
@[simp] theorem State.setCluster_agenda (s : State) (p : Nat) (k : Cluster) : (s.setCluster p k).agenda = s.agenda := rfl
@[simp] theorem State.setCluster_active (s : State) (p : Nat) (k : Cluster) : (s.setCluster p k).active = s.active := rfl
@[simp] theorem State.setCluster_choices (s : State) (p : Nat) (k : Cluster) : (s.setCluster p k).choices = s.choices := rfl

@[simp] theorem State.setQueue_contexts (s : State) (q : BitVec 6) (k : Queue) : (s.setQueue q k).contexts = s.contexts := rfl
@[simp] theorem State.setQueue_cores (s : State) (q : BitVec 6) (k : Queue) : (s.setQueue q k).cores = s.cores := rfl
@[simp] theorem State.setQueue_clusters (s : State) (q : BitVec 6) (k : Queue) : (s.setQueue q k).clusters = s.clusters := rfl
@[simp] theorem State.setQueue_normal (s : State) (q : BitVec 6) (k : Queue) : (s.setQueue q k).normal = s.normal := rfl
@[simp] theorem State.setQueue_secure (s : State) (q : BitVec 6) (k : Queue) : (s.setQueue q k).secure = s.secure := rfl
@[simp] theorem State.setQueue_hbm (s : State) (q : BitVec 6) (k : Queue) : (s.setQueue q k).hbm = s.hbm := rfl
@[simp] theorem State.setQueue_host (s : State) (q : BitVec 6) (k : Queue) : (s.setQueue q k).host = s.host := rfl
@[simp] theorem State.setQueue_coreMem (s : State) (q : BitVec 6) (k : Queue) : (s.setQueue q k).coreMem = s.coreMem := rfl
@[simp] theorem State.setQueue_clusterMem (s : State) (q : BitVec 6) (k : Queue) : (s.setQueue q k).clusterMem = s.clusterMem := rfl
@[simp] theorem State.setQueue_chipMem (s : State) (q : BitVec 6) (k : Queue) : (s.setQueue q k).chipMem = s.chipMem := rfl
@[simp] theorem State.setQueue_stamps (s : State) (q : BitVec 6) (k : Queue) : (s.setQueue q k).stamps = s.stamps := rfl
@[simp] theorem State.setQueue_stampBase (s : State) (q : BitVec 6) (k : Queue) : (s.setQueue q k).stampBase = s.stampBase := rfl
@[simp] theorem State.setQueue_l2 (s : State) (q : BitVec 6) (k : Queue) : (s.setQueue q k).l2 = s.l2 := rfl
@[simp] theorem State.setQueue_l2Writebacks (s : State) (q : BitVec 6) (k : Queue) : (s.setQueue q k).l2Writebacks = s.l2Writebacks := rfl
@[simp] theorem State.setQueue_deposit (s : State) (q : BitVec 6) (k : Queue) : (s.setQueue q k).deposit = s.deposit := rfl
@[simp] theorem State.setQueue_depositMts (s : State) (q : BitVec 6) (k : Queue) : (s.setQueue q k).depositMts = s.depositMts := rfl
@[simp] theorem State.setQueue_depositWritebacks (s : State) (q : BitVec 6) (k : Queue) : (s.setQueue q k).depositWritebacks = s.depositWritebacks := rfl
@[simp] theorem State.setQueue_hostLines (s : State) (q : BitVec 6) (k : Queue) : (s.setQueue q k).hostLines = s.hostLines := rfl
@[simp] theorem State.setQueue_writeEntries (s : State) (q : BitVec 6) (k : Queue) : (s.setQueue q k).writeEntries = s.writeEntries := rfl
@[simp] theorem State.setQueue_superseded (s : State) (q : BitVec 6) (k : Queue) : (s.setQueue q k).superseded = s.superseded := rfl
@[simp] theorem State.setQueue_hostFills (s : State) (q : BitVec 6) (k : Queue) : (s.setQueue q k).hostFills = s.hostFills := rfl
@[simp] theorem State.setQueue_unitAnswers (s : State) (q : BitVec 6) (k : Queue) : (s.setQueue q k).unitAnswers = s.unitAnswers := rfl
@[simp] theorem State.setQueue_hmts0 (s : State) (q : BitVec 6) (k : Queue) : (s.setQueue q k).hmts0 = s.hmts0 := rfl
@[simp] theorem State.setQueue_hmts1 (s : State) (q : BitVec 6) (k : Queue) : (s.setQueue q k).hmts1 = s.hmts1 := rfl
@[simp] theorem State.setQueue_backInvals (s : State) (q : BitVec 6) (k : Queue) : (s.setQueue q k).backInvals = s.backInvals := rfl
@[simp] theorem State.setQueue_hostOwned (s : State) (q : BitVec 6) (k : Queue) : (s.setQueue q k).hostOwned = s.hostOwned := rfl
@[simp] theorem State.setQueue_posted (s : State) (q : BitVec 6) (k : Queue) : (s.setQueue q k).posted = s.posted := rfl
@[simp] theorem State.setQueue_acks (s : State) (q : BitVec 6) (k : Queue) : (s.setQueue q k).acks = s.acks := rfl
@[simp] theorem State.setQueue_tileCopies (s : State) (q : BitVec 6) (k : Queue) : (s.setQueue q k).tileCopies = s.tileCopies := rfl
@[simp] theorem State.setQueue_sends (s : State) (q : BitVec 6) (k : Queue) : (s.setQueue q k).sends = s.sends := rfl
@[simp] theorem State.setQueue_walks (s : State) (q : BitVec 6) (k : Queue) : (s.setQueue q k).walks = s.walks := rfl
@[simp] theorem State.setQueue_flits (s : State) (q : BitVec 6) (k : Queue) : (s.setQueue q k).flits = s.flits := rfl
@[simp] theorem State.setQueue_forwards (s : State) (q : BitVec 6) (k : Queue) : (s.setQueue q k).forwards = s.forwards := rfl
@[simp] theorem State.setQueue_remoteDrops (s : State) (q : BitVec 6) (k : Queue) : (s.setQueue q k).remoteDrops = s.remoteDrops := rfl
@[simp] theorem State.setQueue_demands (s : State) (q : BitVec 6) (k : Queue) : (s.setQueue q k).demands = s.demands := rfl
@[simp] theorem State.setQueue_arrears (s : State) (q : BitVec 6) (k : Queue) : (s.setQueue q k).arrears = s.arrears := rfl
@[simp] theorem State.setQueue_exits (s : State) (q : BitVec 6) (k : Queue) : (s.setQueue q k).exits = s.exits := rfl
@[simp] theorem State.setQueue_removals (s : State) (q : BitVec 6) (k : Queue) : (s.setQueue q k).removals = s.removals := rfl
@[simp] theorem State.setQueue_encl (s : State) (q : BitVec 6) (k : Queue) : (s.setQueue q k).encl = s.encl := rfl
@[simp] theorem State.setQueue_enstk (s : State) (q : BitVec 6) (k : Queue) : (s.setQueue q k).enstk = s.enstk := rfl
@[simp] theorem State.setQueue_ready (s : State) (q : BitVec 6) (k : Queue) : (s.setQueue q k).ready = s.ready := rfl
@[simp] theorem State.setQueue_cworld (s : State) (q : BitVec 6) (k : Queue) : (s.setQueue q k).cworld = s.cworld := rfl
@[simp] theorem State.setQueue_csworld (s : State) (q : BitVec 6) (k : Queue) : (s.setQueue q k).csworld = s.csworld := rfl
@[simp] theorem State.setQueue_regions (s : State) (q : BitVec 6) (k : Queue) : (s.setQueue q k).regions = s.regions := rfl
@[simp] theorem State.setQueue_assay (s : State) (q : BitVec 6) (k : Queue) : (s.setQueue q k).assay = s.assay := rfl
@[simp] theorem State.setQueue_peers (s : State) (q : BitVec 6) (k : Queue) : (s.setQueue q k).peers = s.peers := rfl
@[simp] theorem State.setQueue_lbtol (s : State) (q : BitVec 6) (k : Queue) : (s.setQueue q k).lbtol = s.lbtol := rfl
@[simp] theorem State.setQueue_sharedWrites (s : State) (q : BitVec 6) (k : Queue) : (s.setQueue q k).sharedWrites = s.sharedWrites := rfl
@[simp] theorem State.setQueue_hcsize (s : State) (q : BitVec 6) (k : Queue) : (s.setQueue q k).hcsize = s.hcsize := rfl
@[simp] theorem State.setQueue_linkup (s : State) (q : BitVec 6) (k : Queue) : (s.setQueue q k).linkup = s.linkup := rfl
@[simp] theorem State.setQueue_nodeid (s : State) (q : BitVec 6) (k : Queue) : (s.setQueue q k).nodeid = s.nodeid := rfl
@[simp] theorem State.setQueue_pxlost (s : State) (q : BitVec 6) (k : Queue) : (s.setQueue q k).pxlost = s.pxlost := rfl
@[simp] theorem State.setQueue_pxref (s : State) (q : BitVec 6) (k : Queue) : (s.setQueue q k).pxref = s.pxref := rfl
@[simp] theorem State.setQueue_linkSeq (s : State) (q : BitVec 6) (k : Queue) : (s.setQueue q k).linkSeq = s.linkSeq := rfl
@[simp] theorem State.setQueue_time (s : State) (q : BitVec 6) (k : Queue) : (s.setQueue q k).time = s.time := rfl
@[simp] theorem State.setQueue_slew (s : State) (q : BitVec 6) (k : Queue) : (s.setQueue q k).slew = s.slew := rfl
@[simp] theorem State.setQueue_timeStepped (s : State) (q : BitVec 6) (k : Queue) : (s.setQueue q k).timeStepped = s.timeStepped := rfl
@[simp] theorem State.setQueue_ptpLocked (s : State) (q : BitVec 6) (k : Queue) : (s.setQueue q k).ptpLocked = s.ptpLocked := rfl
@[simp] theorem State.setQueue_plimit (s : State) (q : BitVec 6) (k : Queue) : (s.setQueue q k).plimit = s.plimit := rfl
@[simp] theorem State.setQueue_tripped (s : State) (q : BitVec 6) (k : Queue) : (s.setQueue q k).tripped = s.tripped := rfl
@[simp] theorem State.setQueue_throttled (s : State) (q : BitVec 6) (k : Queue) : (s.setQueue q k).throttled = s.throttled := rfl
@[simp] theorem State.setQueue_thhist (s : State) (q : BitVec 6) (k : Queue) : (s.setQueue q k).thhist = s.thhist := rfl
@[simp] theorem State.setQueue_sensors (s : State) (q : BitVec 6) (k : Queue) : (s.setQueue q k).sensors = s.sensors := rfl
@[simp] theorem State.setQueue_flowLow (s : State) (q : BitVec 6) (k : Queue) : (s.setQueue q k).flowLow = s.flowLow := rfl
@[simp] theorem State.setQueue_dark (s : State) (q : BitVec 6) (k : Queue) : (s.setQueue q k).dark = s.dark := rfl
@[simp] theorem State.setQueue_dumps (s : State) (q : BitVec 6) (k : Queue) : (s.setQueue q k).dumps = s.dumps := rfl
@[simp] theorem State.setQueue_clock (s : State) (q : BitVec 6) (k : Queue) : (s.setQueue q k).clock = s.clock := rfl
@[simp] theorem State.setQueue_advanced (s : State) (q : BitVec 6) (k : Queue) : (s.setQueue q k).advanced = s.advanced := rfl
@[simp] theorem State.setQueue_floored (s : State) (q : BitVec 6) (k : Queue) : (s.setQueue q k).floored = s.floored := rfl
@[simp] theorem State.setQueue_swept (s : State) (q : BitVec 6) (k : Queue) : (s.setQueue q k).swept = s.swept := rfl
@[simp] theorem State.setQueue_front (s : State) (q : BitVec 6) (k : Queue) : (s.setQueue q k).front = s.front := rfl
@[simp] theorem State.setQueue_high (s : State) (q : BitVec 6) (k : Queue) : (s.setQueue q k).high = s.high := rfl
@[simp] theorem State.setQueue_floor (s : State) (q : BitVec 6) (k : Queue) : (s.setQueue q k).floor = s.floor := rfl
@[simp] theorem State.setQueue_softErrors (s : State) (q : BitVec 6) (k : Queue) : (s.setQueue q k).softErrors = s.softErrors := rfl
@[simp] theorem State.setQueue_admissions (s : State) (q : BitVec 6) (k : Queue) : (s.setQueue q k).admissions = s.admissions := rfl
@[simp] theorem State.setQueue_out (s : State) (q : BitVec 6) (k : Queue) : (s.setQueue q k).out = s.out := rfl
@[simp] theorem State.setQueue_agenda (s : State) (q : BitVec 6) (k : Queue) : (s.setQueue q k).agenda = s.agenda := rfl
@[simp] theorem State.setQueue_active (s : State) (q : BitVec 6) (k : Queue) : (s.setQueue q k).active = s.active := rfl
@[simp] theorem State.setQueue_choices (s : State) (q : BitVec 6) (k : Queue) : (s.setQueue q k).choices = s.choices := rfl

@[simp] theorem State.mapMe_cores (s : State) (f : Context → Context) : (s.mapMe f).cores = s.cores := rfl
@[simp] theorem State.mapMe_clusters (s : State) (f : Context → Context) : (s.mapMe f).clusters = s.clusters := rfl
@[simp] theorem State.mapMe_queues (s : State) (f : Context → Context) : (s.mapMe f).queues = s.queues := rfl
@[simp] theorem State.mapMe_normal (s : State) (f : Context → Context) : (s.mapMe f).normal = s.normal := rfl
@[simp] theorem State.mapMe_secure (s : State) (f : Context → Context) : (s.mapMe f).secure = s.secure := rfl
@[simp] theorem State.mapMe_hbm (s : State) (f : Context → Context) : (s.mapMe f).hbm = s.hbm := rfl
@[simp] theorem State.mapMe_host (s : State) (f : Context → Context) : (s.mapMe f).host = s.host := rfl
@[simp] theorem State.mapMe_coreMem (s : State) (f : Context → Context) : (s.mapMe f).coreMem = s.coreMem := rfl
@[simp] theorem State.mapMe_clusterMem (s : State) (f : Context → Context) : (s.mapMe f).clusterMem = s.clusterMem := rfl
@[simp] theorem State.mapMe_chipMem (s : State) (f : Context → Context) : (s.mapMe f).chipMem = s.chipMem := rfl
@[simp] theorem State.mapMe_stamps (s : State) (f : Context → Context) : (s.mapMe f).stamps = s.stamps := rfl
@[simp] theorem State.mapMe_stampBase (s : State) (f : Context → Context) : (s.mapMe f).stampBase = s.stampBase := rfl
@[simp] theorem State.mapMe_l2 (s : State) (f : Context → Context) : (s.mapMe f).l2 = s.l2 := rfl
@[simp] theorem State.mapMe_l2Writebacks (s : State) (f : Context → Context) : (s.mapMe f).l2Writebacks = s.l2Writebacks := rfl
@[simp] theorem State.mapMe_deposit (s : State) (f : Context → Context) : (s.mapMe f).deposit = s.deposit := rfl
@[simp] theorem State.mapMe_depositMts (s : State) (f : Context → Context) : (s.mapMe f).depositMts = s.depositMts := rfl
@[simp] theorem State.mapMe_depositWritebacks (s : State) (f : Context → Context) : (s.mapMe f).depositWritebacks = s.depositWritebacks := rfl
@[simp] theorem State.mapMe_hostLines (s : State) (f : Context → Context) : (s.mapMe f).hostLines = s.hostLines := rfl
@[simp] theorem State.mapMe_writeEntries (s : State) (f : Context → Context) : (s.mapMe f).writeEntries = s.writeEntries := rfl
@[simp] theorem State.mapMe_superseded (s : State) (f : Context → Context) : (s.mapMe f).superseded = s.superseded := rfl
@[simp] theorem State.mapMe_hostFills (s : State) (f : Context → Context) : (s.mapMe f).hostFills = s.hostFills := rfl
@[simp] theorem State.mapMe_unitAnswers (s : State) (f : Context → Context) : (s.mapMe f).unitAnswers = s.unitAnswers := rfl
@[simp] theorem State.mapMe_hmts0 (s : State) (f : Context → Context) : (s.mapMe f).hmts0 = s.hmts0 := rfl
@[simp] theorem State.mapMe_hmts1 (s : State) (f : Context → Context) : (s.mapMe f).hmts1 = s.hmts1 := rfl
@[simp] theorem State.mapMe_backInvals (s : State) (f : Context → Context) : (s.mapMe f).backInvals = s.backInvals := rfl
@[simp] theorem State.mapMe_hostOwned (s : State) (f : Context → Context) : (s.mapMe f).hostOwned = s.hostOwned := rfl
@[simp] theorem State.mapMe_posted (s : State) (f : Context → Context) : (s.mapMe f).posted = s.posted := rfl
@[simp] theorem State.mapMe_acks (s : State) (f : Context → Context) : (s.mapMe f).acks = s.acks := rfl
@[simp] theorem State.mapMe_tileCopies (s : State) (f : Context → Context) : (s.mapMe f).tileCopies = s.tileCopies := rfl
@[simp] theorem State.mapMe_sends (s : State) (f : Context → Context) : (s.mapMe f).sends = s.sends := rfl
@[simp] theorem State.mapMe_walks (s : State) (f : Context → Context) : (s.mapMe f).walks = s.walks := rfl
@[simp] theorem State.mapMe_flits (s : State) (f : Context → Context) : (s.mapMe f).flits = s.flits := rfl
@[simp] theorem State.mapMe_forwards (s : State) (f : Context → Context) : (s.mapMe f).forwards = s.forwards := rfl
@[simp] theorem State.mapMe_remoteDrops (s : State) (f : Context → Context) : (s.mapMe f).remoteDrops = s.remoteDrops := rfl
@[simp] theorem State.mapMe_demands (s : State) (f : Context → Context) : (s.mapMe f).demands = s.demands := rfl
@[simp] theorem State.mapMe_arrears (s : State) (f : Context → Context) : (s.mapMe f).arrears = s.arrears := rfl
@[simp] theorem State.mapMe_exits (s : State) (f : Context → Context) : (s.mapMe f).exits = s.exits := rfl
@[simp] theorem State.mapMe_removals (s : State) (f : Context → Context) : (s.mapMe f).removals = s.removals := rfl
@[simp] theorem State.mapMe_encl (s : State) (f : Context → Context) : (s.mapMe f).encl = s.encl := rfl
@[simp] theorem State.mapMe_enstk (s : State) (f : Context → Context) : (s.mapMe f).enstk = s.enstk := rfl
@[simp] theorem State.mapMe_ready (s : State) (f : Context → Context) : (s.mapMe f).ready = s.ready := rfl
@[simp] theorem State.mapMe_cworld (s : State) (f : Context → Context) : (s.mapMe f).cworld = s.cworld := rfl
@[simp] theorem State.mapMe_csworld (s : State) (f : Context → Context) : (s.mapMe f).csworld = s.csworld := rfl
@[simp] theorem State.mapMe_regions (s : State) (f : Context → Context) : (s.mapMe f).regions = s.regions := rfl
@[simp] theorem State.mapMe_assay (s : State) (f : Context → Context) : (s.mapMe f).assay = s.assay := rfl
@[simp] theorem State.mapMe_peers (s : State) (f : Context → Context) : (s.mapMe f).peers = s.peers := rfl
@[simp] theorem State.mapMe_lbtol (s : State) (f : Context → Context) : (s.mapMe f).lbtol = s.lbtol := rfl
@[simp] theorem State.mapMe_sharedWrites (s : State) (f : Context → Context) : (s.mapMe f).sharedWrites = s.sharedWrites := rfl
@[simp] theorem State.mapMe_hcsize (s : State) (f : Context → Context) : (s.mapMe f).hcsize = s.hcsize := rfl
@[simp] theorem State.mapMe_linkup (s : State) (f : Context → Context) : (s.mapMe f).linkup = s.linkup := rfl
@[simp] theorem State.mapMe_nodeid (s : State) (f : Context → Context) : (s.mapMe f).nodeid = s.nodeid := rfl
@[simp] theorem State.mapMe_pxlost (s : State) (f : Context → Context) : (s.mapMe f).pxlost = s.pxlost := rfl
@[simp] theorem State.mapMe_pxref (s : State) (f : Context → Context) : (s.mapMe f).pxref = s.pxref := rfl
@[simp] theorem State.mapMe_linkSeq (s : State) (f : Context → Context) : (s.mapMe f).linkSeq = s.linkSeq := rfl
@[simp] theorem State.mapMe_time (s : State) (f : Context → Context) : (s.mapMe f).time = s.time := rfl
@[simp] theorem State.mapMe_slew (s : State) (f : Context → Context) : (s.mapMe f).slew = s.slew := rfl
@[simp] theorem State.mapMe_timeStepped (s : State) (f : Context → Context) : (s.mapMe f).timeStepped = s.timeStepped := rfl
@[simp] theorem State.mapMe_ptpLocked (s : State) (f : Context → Context) : (s.mapMe f).ptpLocked = s.ptpLocked := rfl
@[simp] theorem State.mapMe_plimit (s : State) (f : Context → Context) : (s.mapMe f).plimit = s.plimit := rfl
@[simp] theorem State.mapMe_tripped (s : State) (f : Context → Context) : (s.mapMe f).tripped = s.tripped := rfl
@[simp] theorem State.mapMe_throttled (s : State) (f : Context → Context) : (s.mapMe f).throttled = s.throttled := rfl
@[simp] theorem State.mapMe_thhist (s : State) (f : Context → Context) : (s.mapMe f).thhist = s.thhist := rfl
@[simp] theorem State.mapMe_sensors (s : State) (f : Context → Context) : (s.mapMe f).sensors = s.sensors := rfl
@[simp] theorem State.mapMe_flowLow (s : State) (f : Context → Context) : (s.mapMe f).flowLow = s.flowLow := rfl
@[simp] theorem State.mapMe_dark (s : State) (f : Context → Context) : (s.mapMe f).dark = s.dark := rfl
@[simp] theorem State.mapMe_dumps (s : State) (f : Context → Context) : (s.mapMe f).dumps = s.dumps := rfl
@[simp] theorem State.mapMe_clock (s : State) (f : Context → Context) : (s.mapMe f).clock = s.clock := rfl
@[simp] theorem State.mapMe_advanced (s : State) (f : Context → Context) : (s.mapMe f).advanced = s.advanced := rfl
@[simp] theorem State.mapMe_floored (s : State) (f : Context → Context) : (s.mapMe f).floored = s.floored := rfl
@[simp] theorem State.mapMe_swept (s : State) (f : Context → Context) : (s.mapMe f).swept = s.swept := rfl
@[simp] theorem State.mapMe_front (s : State) (f : Context → Context) : (s.mapMe f).front = s.front := rfl
@[simp] theorem State.mapMe_high (s : State) (f : Context → Context) : (s.mapMe f).high = s.high := rfl
@[simp] theorem State.mapMe_floor (s : State) (f : Context → Context) : (s.mapMe f).floor = s.floor := rfl
@[simp] theorem State.mapMe_softErrors (s : State) (f : Context → Context) : (s.mapMe f).softErrors = s.softErrors := rfl
@[simp] theorem State.mapMe_admissions (s : State) (f : Context → Context) : (s.mapMe f).admissions = s.admissions := rfl
@[simp] theorem State.mapMe_out (s : State) (f : Context → Context) : (s.mapMe f).out = s.out := rfl
@[simp] theorem State.mapMe_agenda (s : State) (f : Context → Context) : (s.mapMe f).agenda = s.agenda := rfl
@[simp] theorem State.mapMe_active (s : State) (f : Context → Context) : (s.mapMe f).active = s.active := rfl
@[simp] theorem State.mapMe_choices (s : State) (f : Context → Context) : (s.mapMe f).choices = s.choices := rfl

@[simp] theorem State.assign_contexts (s : State) (t : Ts) : (s.assign t).contexts = s.contexts := rfl
@[simp] theorem State.assign_cores (s : State) (t : Ts) : (s.assign t).cores = s.cores := rfl
@[simp] theorem State.assign_clusters (s : State) (t : Ts) : (s.assign t).clusters = s.clusters := rfl
@[simp] theorem State.assign_queues (s : State) (t : Ts) : (s.assign t).queues = s.queues := rfl
@[simp] theorem State.assign_normal (s : State) (t : Ts) : (s.assign t).normal = s.normal := rfl
@[simp] theorem State.assign_secure (s : State) (t : Ts) : (s.assign t).secure = s.secure := rfl
@[simp] theorem State.assign_hbm (s : State) (t : Ts) : (s.assign t).hbm = s.hbm := rfl
@[simp] theorem State.assign_host (s : State) (t : Ts) : (s.assign t).host = s.host := rfl
@[simp] theorem State.assign_coreMem (s : State) (t : Ts) : (s.assign t).coreMem = s.coreMem := rfl
@[simp] theorem State.assign_clusterMem (s : State) (t : Ts) : (s.assign t).clusterMem = s.clusterMem := rfl
@[simp] theorem State.assign_chipMem (s : State) (t : Ts) : (s.assign t).chipMem = s.chipMem := rfl
@[simp] theorem State.assign_stamps (s : State) (t : Ts) : (s.assign t).stamps = s.stamps := rfl
@[simp] theorem State.assign_stampBase (s : State) (t : Ts) : (s.assign t).stampBase = s.stampBase := rfl
@[simp] theorem State.assign_l2 (s : State) (t : Ts) : (s.assign t).l2 = s.l2 := rfl
@[simp] theorem State.assign_l2Writebacks (s : State) (t : Ts) : (s.assign t).l2Writebacks = s.l2Writebacks := rfl
@[simp] theorem State.assign_deposit (s : State) (t : Ts) : (s.assign t).deposit = s.deposit := rfl
@[simp] theorem State.assign_depositMts (s : State) (t : Ts) : (s.assign t).depositMts = s.depositMts := rfl
@[simp] theorem State.assign_depositWritebacks (s : State) (t : Ts) : (s.assign t).depositWritebacks = s.depositWritebacks := rfl
@[simp] theorem State.assign_hostLines (s : State) (t : Ts) : (s.assign t).hostLines = s.hostLines := rfl
@[simp] theorem State.assign_writeEntries (s : State) (t : Ts) : (s.assign t).writeEntries = s.writeEntries := rfl
@[simp] theorem State.assign_superseded (s : State) (t : Ts) : (s.assign t).superseded = s.superseded := rfl
@[simp] theorem State.assign_hostFills (s : State) (t : Ts) : (s.assign t).hostFills = s.hostFills := rfl
@[simp] theorem State.assign_unitAnswers (s : State) (t : Ts) : (s.assign t).unitAnswers = s.unitAnswers := rfl
@[simp] theorem State.assign_hmts0 (s : State) (t : Ts) : (s.assign t).hmts0 = s.hmts0 := rfl
@[simp] theorem State.assign_hmts1 (s : State) (t : Ts) : (s.assign t).hmts1 = s.hmts1 := rfl
@[simp] theorem State.assign_backInvals (s : State) (t : Ts) : (s.assign t).backInvals = s.backInvals := rfl
@[simp] theorem State.assign_hostOwned (s : State) (t : Ts) : (s.assign t).hostOwned = s.hostOwned := rfl
@[simp] theorem State.assign_posted (s : State) (t : Ts) : (s.assign t).posted = s.posted := rfl
@[simp] theorem State.assign_acks (s : State) (t : Ts) : (s.assign t).acks = s.acks := rfl
@[simp] theorem State.assign_tileCopies (s : State) (t : Ts) : (s.assign t).tileCopies = s.tileCopies := rfl
@[simp] theorem State.assign_sends (s : State) (t : Ts) : (s.assign t).sends = s.sends := rfl
@[simp] theorem State.assign_walks (s : State) (t : Ts) : (s.assign t).walks = s.walks := rfl
@[simp] theorem State.assign_flits (s : State) (t : Ts) : (s.assign t).flits = s.flits := rfl
@[simp] theorem State.assign_forwards (s : State) (t : Ts) : (s.assign t).forwards = s.forwards := rfl
@[simp] theorem State.assign_remoteDrops (s : State) (t : Ts) : (s.assign t).remoteDrops = s.remoteDrops := rfl
@[simp] theorem State.assign_demands (s : State) (t : Ts) : (s.assign t).demands = s.demands := rfl
@[simp] theorem State.assign_arrears (s : State) (t : Ts) : (s.assign t).arrears = s.arrears := rfl
@[simp] theorem State.assign_exits (s : State) (t : Ts) : (s.assign t).exits = s.exits := rfl
@[simp] theorem State.assign_removals (s : State) (t : Ts) : (s.assign t).removals = s.removals := rfl
@[simp] theorem State.assign_encl (s : State) (t : Ts) : (s.assign t).encl = s.encl := rfl
@[simp] theorem State.assign_enstk (s : State) (t : Ts) : (s.assign t).enstk = s.enstk := rfl
@[simp] theorem State.assign_ready (s : State) (t : Ts) : (s.assign t).ready = s.ready := rfl
@[simp] theorem State.assign_cworld (s : State) (t : Ts) : (s.assign t).cworld = s.cworld := rfl
@[simp] theorem State.assign_csworld (s : State) (t : Ts) : (s.assign t).csworld = s.csworld := rfl
@[simp] theorem State.assign_regions (s : State) (t : Ts) : (s.assign t).regions = s.regions := rfl
@[simp] theorem State.assign_assay (s : State) (t : Ts) : (s.assign t).assay = s.assay := rfl
@[simp] theorem State.assign_peers (s : State) (t : Ts) : (s.assign t).peers = s.peers := rfl
@[simp] theorem State.assign_lbtol (s : State) (t : Ts) : (s.assign t).lbtol = s.lbtol := rfl
@[simp] theorem State.assign_sharedWrites (s : State) (t : Ts) : (s.assign t).sharedWrites = s.sharedWrites := rfl
@[simp] theorem State.assign_hcsize (s : State) (t : Ts) : (s.assign t).hcsize = s.hcsize := rfl
@[simp] theorem State.assign_linkup (s : State) (t : Ts) : (s.assign t).linkup = s.linkup := rfl
@[simp] theorem State.assign_nodeid (s : State) (t : Ts) : (s.assign t).nodeid = s.nodeid := rfl
@[simp] theorem State.assign_pxlost (s : State) (t : Ts) : (s.assign t).pxlost = s.pxlost := rfl
@[simp] theorem State.assign_pxref (s : State) (t : Ts) : (s.assign t).pxref = s.pxref := rfl
@[simp] theorem State.assign_linkSeq (s : State) (t : Ts) : (s.assign t).linkSeq = s.linkSeq := rfl
@[simp] theorem State.assign_time (s : State) (t : Ts) : (s.assign t).time = s.time := rfl
@[simp] theorem State.assign_slew (s : State) (t : Ts) : (s.assign t).slew = s.slew := rfl
@[simp] theorem State.assign_timeStepped (s : State) (t : Ts) : (s.assign t).timeStepped = s.timeStepped := rfl
@[simp] theorem State.assign_ptpLocked (s : State) (t : Ts) : (s.assign t).ptpLocked = s.ptpLocked := rfl
@[simp] theorem State.assign_plimit (s : State) (t : Ts) : (s.assign t).plimit = s.plimit := rfl
@[simp] theorem State.assign_tripped (s : State) (t : Ts) : (s.assign t).tripped = s.tripped := rfl
@[simp] theorem State.assign_throttled (s : State) (t : Ts) : (s.assign t).throttled = s.throttled := rfl
@[simp] theorem State.assign_thhist (s : State) (t : Ts) : (s.assign t).thhist = s.thhist := rfl
@[simp] theorem State.assign_sensors (s : State) (t : Ts) : (s.assign t).sensors = s.sensors := rfl
@[simp] theorem State.assign_flowLow (s : State) (t : Ts) : (s.assign t).flowLow = s.flowLow := rfl
@[simp] theorem State.assign_dark (s : State) (t : Ts) : (s.assign t).dark = s.dark := rfl
@[simp] theorem State.assign_dumps (s : State) (t : Ts) : (s.assign t).dumps = s.dumps := rfl
@[simp] theorem State.assign_clock (s : State) (t : Ts) : (s.assign t).clock = s.clock := rfl
@[simp] theorem State.assign_advanced (s : State) (t : Ts) : (s.assign t).advanced = s.advanced := rfl
@[simp] theorem State.assign_floored (s : State) (t : Ts) : (s.assign t).floored = s.floored := rfl
@[simp] theorem State.assign_swept (s : State) (t : Ts) : (s.assign t).swept = s.swept := rfl
@[simp] theorem State.assign_front (s : State) (t : Ts) : (s.assign t).front = s.front := rfl
@[simp] theorem State.assign_floor (s : State) (t : Ts) : (s.assign t).floor = s.floor := rfl
@[simp] theorem State.assign_softErrors (s : State) (t : Ts) : (s.assign t).softErrors = s.softErrors := rfl
@[simp] theorem State.assign_admissions (s : State) (t : Ts) : (s.assign t).admissions = s.admissions := rfl
@[simp] theorem State.assign_out (s : State) (t : Ts) : (s.assign t).out = s.out := rfl
@[simp] theorem State.assign_agenda (s : State) (t : Ts) : (s.assign t).agenda = s.agenda := rfl
@[simp] theorem State.assign_active (s : State) (t : Ts) : (s.assign t).active = s.active := rfl
@[simp] theorem State.assign_choices (s : State) (t : Ts) : (s.assign t).choices = s.choices := rfl

@[simp] theorem State.emit_contexts (s : State) (o : Output) : (s.emit o).contexts = s.contexts := rfl
@[simp] theorem State.emit_cores (s : State) (o : Output) : (s.emit o).cores = s.cores := rfl
@[simp] theorem State.emit_clusters (s : State) (o : Output) : (s.emit o).clusters = s.clusters := rfl
@[simp] theorem State.emit_queues (s : State) (o : Output) : (s.emit o).queues = s.queues := rfl
@[simp] theorem State.emit_normal (s : State) (o : Output) : (s.emit o).normal = s.normal := rfl
@[simp] theorem State.emit_secure (s : State) (o : Output) : (s.emit o).secure = s.secure := rfl
@[simp] theorem State.emit_hbm (s : State) (o : Output) : (s.emit o).hbm = s.hbm := rfl
@[simp] theorem State.emit_host (s : State) (o : Output) : (s.emit o).host = s.host := rfl
@[simp] theorem State.emit_coreMem (s : State) (o : Output) : (s.emit o).coreMem = s.coreMem := rfl
@[simp] theorem State.emit_clusterMem (s : State) (o : Output) : (s.emit o).clusterMem = s.clusterMem := rfl
@[simp] theorem State.emit_chipMem (s : State) (o : Output) : (s.emit o).chipMem = s.chipMem := rfl
@[simp] theorem State.emit_stamps (s : State) (o : Output) : (s.emit o).stamps = s.stamps := rfl
@[simp] theorem State.emit_stampBase (s : State) (o : Output) : (s.emit o).stampBase = s.stampBase := rfl
@[simp] theorem State.emit_l2 (s : State) (o : Output) : (s.emit o).l2 = s.l2 := rfl
@[simp] theorem State.emit_l2Writebacks (s : State) (o : Output) : (s.emit o).l2Writebacks = s.l2Writebacks := rfl
@[simp] theorem State.emit_deposit (s : State) (o : Output) : (s.emit o).deposit = s.deposit := rfl
@[simp] theorem State.emit_depositMts (s : State) (o : Output) : (s.emit o).depositMts = s.depositMts := rfl
@[simp] theorem State.emit_depositWritebacks (s : State) (o : Output) : (s.emit o).depositWritebacks = s.depositWritebacks := rfl
@[simp] theorem State.emit_hostLines (s : State) (o : Output) : (s.emit o).hostLines = s.hostLines := rfl
@[simp] theorem State.emit_writeEntries (s : State) (o : Output) : (s.emit o).writeEntries = s.writeEntries := rfl
@[simp] theorem State.emit_superseded (s : State) (o : Output) : (s.emit o).superseded = s.superseded := rfl
@[simp] theorem State.emit_hostFills (s : State) (o : Output) : (s.emit o).hostFills = s.hostFills := rfl
@[simp] theorem State.emit_unitAnswers (s : State) (o : Output) : (s.emit o).unitAnswers = s.unitAnswers := rfl
@[simp] theorem State.emit_hmts0 (s : State) (o : Output) : (s.emit o).hmts0 = s.hmts0 := rfl
@[simp] theorem State.emit_hmts1 (s : State) (o : Output) : (s.emit o).hmts1 = s.hmts1 := rfl
@[simp] theorem State.emit_backInvals (s : State) (o : Output) : (s.emit o).backInvals = s.backInvals := rfl
@[simp] theorem State.emit_hostOwned (s : State) (o : Output) : (s.emit o).hostOwned = s.hostOwned := rfl
@[simp] theorem State.emit_posted (s : State) (o : Output) : (s.emit o).posted = s.posted := rfl
@[simp] theorem State.emit_acks (s : State) (o : Output) : (s.emit o).acks = s.acks := rfl
@[simp] theorem State.emit_tileCopies (s : State) (o : Output) : (s.emit o).tileCopies = s.tileCopies := rfl
@[simp] theorem State.emit_sends (s : State) (o : Output) : (s.emit o).sends = s.sends := rfl
@[simp] theorem State.emit_walks (s : State) (o : Output) : (s.emit o).walks = s.walks := rfl
@[simp] theorem State.emit_flits (s : State) (o : Output) : (s.emit o).flits = s.flits := rfl
@[simp] theorem State.emit_forwards (s : State) (o : Output) : (s.emit o).forwards = s.forwards := rfl
@[simp] theorem State.emit_remoteDrops (s : State) (o : Output) : (s.emit o).remoteDrops = s.remoteDrops := rfl
@[simp] theorem State.emit_demands (s : State) (o : Output) : (s.emit o).demands = s.demands := rfl
@[simp] theorem State.emit_arrears (s : State) (o : Output) : (s.emit o).arrears = s.arrears := rfl
@[simp] theorem State.emit_exits (s : State) (o : Output) : (s.emit o).exits = s.exits := rfl
@[simp] theorem State.emit_removals (s : State) (o : Output) : (s.emit o).removals = s.removals := rfl
@[simp] theorem State.emit_encl (s : State) (o : Output) : (s.emit o).encl = s.encl := rfl
@[simp] theorem State.emit_enstk (s : State) (o : Output) : (s.emit o).enstk = s.enstk := rfl
@[simp] theorem State.emit_ready (s : State) (o : Output) : (s.emit o).ready = s.ready := rfl
@[simp] theorem State.emit_cworld (s : State) (o : Output) : (s.emit o).cworld = s.cworld := rfl
@[simp] theorem State.emit_csworld (s : State) (o : Output) : (s.emit o).csworld = s.csworld := rfl
@[simp] theorem State.emit_regions (s : State) (o : Output) : (s.emit o).regions = s.regions := rfl
@[simp] theorem State.emit_assay (s : State) (o : Output) : (s.emit o).assay = s.assay := rfl
@[simp] theorem State.emit_peers (s : State) (o : Output) : (s.emit o).peers = s.peers := rfl
@[simp] theorem State.emit_lbtol (s : State) (o : Output) : (s.emit o).lbtol = s.lbtol := rfl
@[simp] theorem State.emit_sharedWrites (s : State) (o : Output) : (s.emit o).sharedWrites = s.sharedWrites := rfl
@[simp] theorem State.emit_hcsize (s : State) (o : Output) : (s.emit o).hcsize = s.hcsize := rfl
@[simp] theorem State.emit_linkup (s : State) (o : Output) : (s.emit o).linkup = s.linkup := rfl
@[simp] theorem State.emit_nodeid (s : State) (o : Output) : (s.emit o).nodeid = s.nodeid := rfl
@[simp] theorem State.emit_pxlost (s : State) (o : Output) : (s.emit o).pxlost = s.pxlost := rfl
@[simp] theorem State.emit_pxref (s : State) (o : Output) : (s.emit o).pxref = s.pxref := rfl
@[simp] theorem State.emit_linkSeq (s : State) (o : Output) : (s.emit o).linkSeq = s.linkSeq := rfl
@[simp] theorem State.emit_time (s : State) (o : Output) : (s.emit o).time = s.time := rfl
@[simp] theorem State.emit_slew (s : State) (o : Output) : (s.emit o).slew = s.slew := rfl
@[simp] theorem State.emit_timeStepped (s : State) (o : Output) : (s.emit o).timeStepped = s.timeStepped := rfl
@[simp] theorem State.emit_ptpLocked (s : State) (o : Output) : (s.emit o).ptpLocked = s.ptpLocked := rfl
@[simp] theorem State.emit_plimit (s : State) (o : Output) : (s.emit o).plimit = s.plimit := rfl
@[simp] theorem State.emit_tripped (s : State) (o : Output) : (s.emit o).tripped = s.tripped := rfl
@[simp] theorem State.emit_throttled (s : State) (o : Output) : (s.emit o).throttled = s.throttled := rfl
@[simp] theorem State.emit_thhist (s : State) (o : Output) : (s.emit o).thhist = s.thhist := rfl
@[simp] theorem State.emit_sensors (s : State) (o : Output) : (s.emit o).sensors = s.sensors := rfl
@[simp] theorem State.emit_flowLow (s : State) (o : Output) : (s.emit o).flowLow = s.flowLow := rfl
@[simp] theorem State.emit_dark (s : State) (o : Output) : (s.emit o).dark = s.dark := rfl
@[simp] theorem State.emit_dumps (s : State) (o : Output) : (s.emit o).dumps = s.dumps := rfl
@[simp] theorem State.emit_clock (s : State) (o : Output) : (s.emit o).clock = s.clock := rfl
@[simp] theorem State.emit_advanced (s : State) (o : Output) : (s.emit o).advanced = s.advanced := rfl
@[simp] theorem State.emit_floored (s : State) (o : Output) : (s.emit o).floored = s.floored := rfl
@[simp] theorem State.emit_swept (s : State) (o : Output) : (s.emit o).swept = s.swept := rfl
@[simp] theorem State.emit_front (s : State) (o : Output) : (s.emit o).front = s.front := rfl
@[simp] theorem State.emit_high (s : State) (o : Output) : (s.emit o).high = s.high := rfl
@[simp] theorem State.emit_floor (s : State) (o : Output) : (s.emit o).floor = s.floor := rfl
@[simp] theorem State.emit_softErrors (s : State) (o : Output) : (s.emit o).softErrors = s.softErrors := rfl
@[simp] theorem State.emit_admissions (s : State) (o : Output) : (s.emit o).admissions = s.admissions := rfl
@[simp] theorem State.emit_agenda (s : State) (o : Output) : (s.emit o).agenda = s.agenda := rfl
@[simp] theorem State.emit_active (s : State) (o : Output) : (s.emit o).active = s.active := rfl
@[simp] theorem State.emit_choices (s : State) (o : Output) : (s.emit o).choices = s.choices := rfl

@[simp] theorem State.setX_cores (s : State) (r : XReg) (w : Word) : (s.setX r w).cores = s.cores := by unfold State.setX; split <;> rfl
@[simp] theorem State.setX_clusters (s : State) (r : XReg) (w : Word) : (s.setX r w).clusters = s.clusters := by unfold State.setX; split <;> rfl
@[simp] theorem State.setX_queues (s : State) (r : XReg) (w : Word) : (s.setX r w).queues = s.queues := by unfold State.setX; split <;> rfl
@[simp] theorem State.setX_normal (s : State) (r : XReg) (w : Word) : (s.setX r w).normal = s.normal := by unfold State.setX; split <;> rfl
@[simp] theorem State.setX_secure (s : State) (r : XReg) (w : Word) : (s.setX r w).secure = s.secure := by unfold State.setX; split <;> rfl
@[simp] theorem State.setX_hbm (s : State) (r : XReg) (w : Word) : (s.setX r w).hbm = s.hbm := by unfold State.setX; split <;> rfl
@[simp] theorem State.setX_host (s : State) (r : XReg) (w : Word) : (s.setX r w).host = s.host := by unfold State.setX; split <;> rfl
@[simp] theorem State.setX_coreMem (s : State) (r : XReg) (w : Word) : (s.setX r w).coreMem = s.coreMem := by unfold State.setX; split <;> rfl
@[simp] theorem State.setX_clusterMem (s : State) (r : XReg) (w : Word) : (s.setX r w).clusterMem = s.clusterMem := by unfold State.setX; split <;> rfl
@[simp] theorem State.setX_chipMem (s : State) (r : XReg) (w : Word) : (s.setX r w).chipMem = s.chipMem := by unfold State.setX; split <;> rfl
@[simp] theorem State.setX_stamps (s : State) (r : XReg) (w : Word) : (s.setX r w).stamps = s.stamps := by unfold State.setX; split <;> rfl
@[simp] theorem State.setX_stampBase (s : State) (r : XReg) (w : Word) : (s.setX r w).stampBase = s.stampBase := by unfold State.setX; split <;> rfl
@[simp] theorem State.setX_l2 (s : State) (r : XReg) (w : Word) : (s.setX r w).l2 = s.l2 := by unfold State.setX; split <;> rfl
@[simp] theorem State.setX_l2Writebacks (s : State) (r : XReg) (w : Word) : (s.setX r w).l2Writebacks = s.l2Writebacks := by unfold State.setX; split <;> rfl
@[simp] theorem State.setX_deposit (s : State) (r : XReg) (w : Word) : (s.setX r w).deposit = s.deposit := by unfold State.setX; split <;> rfl
@[simp] theorem State.setX_depositMts (s : State) (r : XReg) (w : Word) : (s.setX r w).depositMts = s.depositMts := by unfold State.setX; split <;> rfl
@[simp] theorem State.setX_depositWritebacks (s : State) (r : XReg) (w : Word) : (s.setX r w).depositWritebacks = s.depositWritebacks := by unfold State.setX; split <;> rfl
@[simp] theorem State.setX_hostLines (s : State) (r : XReg) (w : Word) : (s.setX r w).hostLines = s.hostLines := by unfold State.setX; split <;> rfl
@[simp] theorem State.setX_writeEntries (s : State) (r : XReg) (w : Word) : (s.setX r w).writeEntries = s.writeEntries := by unfold State.setX; split <;> rfl
@[simp] theorem State.setX_superseded (s : State) (r : XReg) (w : Word) : (s.setX r w).superseded = s.superseded := by unfold State.setX; split <;> rfl
@[simp] theorem State.setX_hostFills (s : State) (r : XReg) (w : Word) : (s.setX r w).hostFills = s.hostFills := by unfold State.setX; split <;> rfl
@[simp] theorem State.setX_unitAnswers (s : State) (r : XReg) (w : Word) : (s.setX r w).unitAnswers = s.unitAnswers := by unfold State.setX; split <;> rfl
@[simp] theorem State.setX_hmts0 (s : State) (r : XReg) (w : Word) : (s.setX r w).hmts0 = s.hmts0 := by unfold State.setX; split <;> rfl
@[simp] theorem State.setX_hmts1 (s : State) (r : XReg) (w : Word) : (s.setX r w).hmts1 = s.hmts1 := by unfold State.setX; split <;> rfl
@[simp] theorem State.setX_backInvals (s : State) (r : XReg) (w : Word) : (s.setX r w).backInvals = s.backInvals := by unfold State.setX; split <;> rfl
@[simp] theorem State.setX_hostOwned (s : State) (r : XReg) (w : Word) : (s.setX r w).hostOwned = s.hostOwned := by unfold State.setX; split <;> rfl
@[simp] theorem State.setX_posted (s : State) (r : XReg) (w : Word) : (s.setX r w).posted = s.posted := by unfold State.setX; split <;> rfl
@[simp] theorem State.setX_acks (s : State) (r : XReg) (w : Word) : (s.setX r w).acks = s.acks := by unfold State.setX; split <;> rfl
@[simp] theorem State.setX_tileCopies (s : State) (r : XReg) (w : Word) : (s.setX r w).tileCopies = s.tileCopies := by unfold State.setX; split <;> rfl
@[simp] theorem State.setX_sends (s : State) (r : XReg) (w : Word) : (s.setX r w).sends = s.sends := by unfold State.setX; split <;> rfl
@[simp] theorem State.setX_walks (s : State) (r : XReg) (w : Word) : (s.setX r w).walks = s.walks := by unfold State.setX; split <;> rfl
@[simp] theorem State.setX_flits (s : State) (r : XReg) (w : Word) : (s.setX r w).flits = s.flits := by unfold State.setX; split <;> rfl
@[simp] theorem State.setX_forwards (s : State) (r : XReg) (w : Word) : (s.setX r w).forwards = s.forwards := by unfold State.setX; split <;> rfl
@[simp] theorem State.setX_remoteDrops (s : State) (r : XReg) (w : Word) : (s.setX r w).remoteDrops = s.remoteDrops := by unfold State.setX; split <;> rfl
@[simp] theorem State.setX_demands (s : State) (r : XReg) (w : Word) : (s.setX r w).demands = s.demands := by unfold State.setX; split <;> rfl
@[simp] theorem State.setX_arrears (s : State) (r : XReg) (w : Word) : (s.setX r w).arrears = s.arrears := by unfold State.setX; split <;> rfl
@[simp] theorem State.setX_exits (s : State) (r : XReg) (w : Word) : (s.setX r w).exits = s.exits := by unfold State.setX; split <;> rfl
@[simp] theorem State.setX_removals (s : State) (r : XReg) (w : Word) : (s.setX r w).removals = s.removals := by unfold State.setX; split <;> rfl
@[simp] theorem State.setX_encl (s : State) (r : XReg) (w : Word) : (s.setX r w).encl = s.encl := by unfold State.setX; split <;> rfl
@[simp] theorem State.setX_enstk (s : State) (r : XReg) (w : Word) : (s.setX r w).enstk = s.enstk := by unfold State.setX; split <;> rfl
@[simp] theorem State.setX_ready (s : State) (r : XReg) (w : Word) : (s.setX r w).ready = s.ready := by unfold State.setX; split <;> rfl
@[simp] theorem State.setX_cworld (s : State) (r : XReg) (w : Word) : (s.setX r w).cworld = s.cworld := by unfold State.setX; split <;> rfl
@[simp] theorem State.setX_csworld (s : State) (r : XReg) (w : Word) : (s.setX r w).csworld = s.csworld := by unfold State.setX; split <;> rfl
@[simp] theorem State.setX_regions (s : State) (r : XReg) (w : Word) : (s.setX r w).regions = s.regions := by unfold State.setX; split <;> rfl
@[simp] theorem State.setX_assay (s : State) (r : XReg) (w : Word) : (s.setX r w).assay = s.assay := by unfold State.setX; split <;> rfl
@[simp] theorem State.setX_peers (s : State) (r : XReg) (w : Word) : (s.setX r w).peers = s.peers := by unfold State.setX; split <;> rfl
@[simp] theorem State.setX_lbtol (s : State) (r : XReg) (w : Word) : (s.setX r w).lbtol = s.lbtol := by unfold State.setX; split <;> rfl
@[simp] theorem State.setX_sharedWrites (s : State) (r : XReg) (w : Word) : (s.setX r w).sharedWrites = s.sharedWrites := by unfold State.setX; split <;> rfl
@[simp] theorem State.setX_hcsize (s : State) (r : XReg) (w : Word) : (s.setX r w).hcsize = s.hcsize := by unfold State.setX; split <;> rfl
@[simp] theorem State.setX_linkup (s : State) (r : XReg) (w : Word) : (s.setX r w).linkup = s.linkup := by unfold State.setX; split <;> rfl
@[simp] theorem State.setX_nodeid (s : State) (r : XReg) (w : Word) : (s.setX r w).nodeid = s.nodeid := by unfold State.setX; split <;> rfl
@[simp] theorem State.setX_pxlost (s : State) (r : XReg) (w : Word) : (s.setX r w).pxlost = s.pxlost := by unfold State.setX; split <;> rfl
@[simp] theorem State.setX_pxref (s : State) (r : XReg) (w : Word) : (s.setX r w).pxref = s.pxref := by unfold State.setX; split <;> rfl
@[simp] theorem State.setX_linkSeq (s : State) (r : XReg) (w : Word) : (s.setX r w).linkSeq = s.linkSeq := by unfold State.setX; split <;> rfl
@[simp] theorem State.setX_time (s : State) (r : XReg) (w : Word) : (s.setX r w).time = s.time := by unfold State.setX; split <;> rfl
@[simp] theorem State.setX_slew (s : State) (r : XReg) (w : Word) : (s.setX r w).slew = s.slew := by unfold State.setX; split <;> rfl
@[simp] theorem State.setX_timeStepped (s : State) (r : XReg) (w : Word) : (s.setX r w).timeStepped = s.timeStepped := by unfold State.setX; split <;> rfl
@[simp] theorem State.setX_ptpLocked (s : State) (r : XReg) (w : Word) : (s.setX r w).ptpLocked = s.ptpLocked := by unfold State.setX; split <;> rfl
@[simp] theorem State.setX_plimit (s : State) (r : XReg) (w : Word) : (s.setX r w).plimit = s.plimit := by unfold State.setX; split <;> rfl
@[simp] theorem State.setX_tripped (s : State) (r : XReg) (w : Word) : (s.setX r w).tripped = s.tripped := by unfold State.setX; split <;> rfl
@[simp] theorem State.setX_throttled (s : State) (r : XReg) (w : Word) : (s.setX r w).throttled = s.throttled := by unfold State.setX; split <;> rfl
@[simp] theorem State.setX_thhist (s : State) (r : XReg) (w : Word) : (s.setX r w).thhist = s.thhist := by unfold State.setX; split <;> rfl
@[simp] theorem State.setX_sensors (s : State) (r : XReg) (w : Word) : (s.setX r w).sensors = s.sensors := by unfold State.setX; split <;> rfl
@[simp] theorem State.setX_flowLow (s : State) (r : XReg) (w : Word) : (s.setX r w).flowLow = s.flowLow := by unfold State.setX; split <;> rfl
@[simp] theorem State.setX_dark (s : State) (r : XReg) (w : Word) : (s.setX r w).dark = s.dark := by unfold State.setX; split <;> rfl
@[simp] theorem State.setX_dumps (s : State) (r : XReg) (w : Word) : (s.setX r w).dumps = s.dumps := by unfold State.setX; split <;> rfl
@[simp] theorem State.setX_clock (s : State) (r : XReg) (w : Word) : (s.setX r w).clock = s.clock := by unfold State.setX; split <;> rfl
@[simp] theorem State.setX_advanced (s : State) (r : XReg) (w : Word) : (s.setX r w).advanced = s.advanced := by unfold State.setX; split <;> rfl
@[simp] theorem State.setX_floored (s : State) (r : XReg) (w : Word) : (s.setX r w).floored = s.floored := by unfold State.setX; split <;> rfl
@[simp] theorem State.setX_swept (s : State) (r : XReg) (w : Word) : (s.setX r w).swept = s.swept := by unfold State.setX; split <;> rfl
@[simp] theorem State.setX_front (s : State) (r : XReg) (w : Word) : (s.setX r w).front = s.front := by unfold State.setX; split <;> rfl
@[simp] theorem State.setX_high (s : State) (r : XReg) (w : Word) : (s.setX r w).high = s.high := by unfold State.setX; split <;> rfl
@[simp] theorem State.setX_floor (s : State) (r : XReg) (w : Word) : (s.setX r w).floor = s.floor := by unfold State.setX; split <;> rfl
@[simp] theorem State.setX_softErrors (s : State) (r : XReg) (w : Word) : (s.setX r w).softErrors = s.softErrors := by unfold State.setX; split <;> rfl
@[simp] theorem State.setX_admissions (s : State) (r : XReg) (w : Word) : (s.setX r w).admissions = s.admissions := by unfold State.setX; split <;> rfl
@[simp] theorem State.setX_out (s : State) (r : XReg) (w : Word) : (s.setX r w).out = s.out := by unfold State.setX; split <;> rfl
@[simp] theorem State.setX_agenda (s : State) (r : XReg) (w : Word) : (s.setX r w).agenda = s.agenda := by unfold State.setX; split <;> rfl
@[simp] theorem State.setX_active (s : State) (r : XReg) (w : Word) : (s.setX r w).active = s.active := by unfold State.setX; split <;> rfl
@[simp] theorem State.setX_choices (s : State) (r : XReg) (w : Word) : (s.setX r w).choices = s.choices := by unfold State.setX; split <;> rfl

@[simp] theorem State.setV_cores (s : State) (r : VReg) (w : Vec) : (s.setV r w).cores = s.cores := rfl
@[simp] theorem State.setV_clusters (s : State) (r : VReg) (w : Vec) : (s.setV r w).clusters = s.clusters := rfl
@[simp] theorem State.setV_queues (s : State) (r : VReg) (w : Vec) : (s.setV r w).queues = s.queues := rfl
@[simp] theorem State.setV_normal (s : State) (r : VReg) (w : Vec) : (s.setV r w).normal = s.normal := rfl
@[simp] theorem State.setV_secure (s : State) (r : VReg) (w : Vec) : (s.setV r w).secure = s.secure := rfl
@[simp] theorem State.setV_hbm (s : State) (r : VReg) (w : Vec) : (s.setV r w).hbm = s.hbm := rfl
@[simp] theorem State.setV_host (s : State) (r : VReg) (w : Vec) : (s.setV r w).host = s.host := rfl
@[simp] theorem State.setV_coreMem (s : State) (r : VReg) (w : Vec) : (s.setV r w).coreMem = s.coreMem := rfl
@[simp] theorem State.setV_clusterMem (s : State) (r : VReg) (w : Vec) : (s.setV r w).clusterMem = s.clusterMem := rfl
@[simp] theorem State.setV_chipMem (s : State) (r : VReg) (w : Vec) : (s.setV r w).chipMem = s.chipMem := rfl
@[simp] theorem State.setV_stamps (s : State) (r : VReg) (w : Vec) : (s.setV r w).stamps = s.stamps := rfl
@[simp] theorem State.setV_stampBase (s : State) (r : VReg) (w : Vec) : (s.setV r w).stampBase = s.stampBase := rfl
@[simp] theorem State.setV_l2 (s : State) (r : VReg) (w : Vec) : (s.setV r w).l2 = s.l2 := rfl
@[simp] theorem State.setV_l2Writebacks (s : State) (r : VReg) (w : Vec) : (s.setV r w).l2Writebacks = s.l2Writebacks := rfl
@[simp] theorem State.setV_deposit (s : State) (r : VReg) (w : Vec) : (s.setV r w).deposit = s.deposit := rfl
@[simp] theorem State.setV_depositMts (s : State) (r : VReg) (w : Vec) : (s.setV r w).depositMts = s.depositMts := rfl
@[simp] theorem State.setV_depositWritebacks (s : State) (r : VReg) (w : Vec) : (s.setV r w).depositWritebacks = s.depositWritebacks := rfl
@[simp] theorem State.setV_hostLines (s : State) (r : VReg) (w : Vec) : (s.setV r w).hostLines = s.hostLines := rfl
@[simp] theorem State.setV_writeEntries (s : State) (r : VReg) (w : Vec) : (s.setV r w).writeEntries = s.writeEntries := rfl
@[simp] theorem State.setV_superseded (s : State) (r : VReg) (w : Vec) : (s.setV r w).superseded = s.superseded := rfl
@[simp] theorem State.setV_hostFills (s : State) (r : VReg) (w : Vec) : (s.setV r w).hostFills = s.hostFills := rfl
@[simp] theorem State.setV_unitAnswers (s : State) (r : VReg) (w : Vec) : (s.setV r w).unitAnswers = s.unitAnswers := rfl
@[simp] theorem State.setV_hmts0 (s : State) (r : VReg) (w : Vec) : (s.setV r w).hmts0 = s.hmts0 := rfl
@[simp] theorem State.setV_hmts1 (s : State) (r : VReg) (w : Vec) : (s.setV r w).hmts1 = s.hmts1 := rfl
@[simp] theorem State.setV_backInvals (s : State) (r : VReg) (w : Vec) : (s.setV r w).backInvals = s.backInvals := rfl
@[simp] theorem State.setV_hostOwned (s : State) (r : VReg) (w : Vec) : (s.setV r w).hostOwned = s.hostOwned := rfl
@[simp] theorem State.setV_posted (s : State) (r : VReg) (w : Vec) : (s.setV r w).posted = s.posted := rfl
@[simp] theorem State.setV_acks (s : State) (r : VReg) (w : Vec) : (s.setV r w).acks = s.acks := rfl
@[simp] theorem State.setV_tileCopies (s : State) (r : VReg) (w : Vec) : (s.setV r w).tileCopies = s.tileCopies := rfl
@[simp] theorem State.setV_sends (s : State) (r : VReg) (w : Vec) : (s.setV r w).sends = s.sends := rfl
@[simp] theorem State.setV_walks (s : State) (r : VReg) (w : Vec) : (s.setV r w).walks = s.walks := rfl
@[simp] theorem State.setV_flits (s : State) (r : VReg) (w : Vec) : (s.setV r w).flits = s.flits := rfl
@[simp] theorem State.setV_forwards (s : State) (r : VReg) (w : Vec) : (s.setV r w).forwards = s.forwards := rfl
@[simp] theorem State.setV_remoteDrops (s : State) (r : VReg) (w : Vec) : (s.setV r w).remoteDrops = s.remoteDrops := rfl
@[simp] theorem State.setV_demands (s : State) (r : VReg) (w : Vec) : (s.setV r w).demands = s.demands := rfl
@[simp] theorem State.setV_arrears (s : State) (r : VReg) (w : Vec) : (s.setV r w).arrears = s.arrears := rfl
@[simp] theorem State.setV_exits (s : State) (r : VReg) (w : Vec) : (s.setV r w).exits = s.exits := rfl
@[simp] theorem State.setV_removals (s : State) (r : VReg) (w : Vec) : (s.setV r w).removals = s.removals := rfl
@[simp] theorem State.setV_encl (s : State) (r : VReg) (w : Vec) : (s.setV r w).encl = s.encl := rfl
@[simp] theorem State.setV_enstk (s : State) (r : VReg) (w : Vec) : (s.setV r w).enstk = s.enstk := rfl
@[simp] theorem State.setV_ready (s : State) (r : VReg) (w : Vec) : (s.setV r w).ready = s.ready := rfl
@[simp] theorem State.setV_cworld (s : State) (r : VReg) (w : Vec) : (s.setV r w).cworld = s.cworld := rfl
@[simp] theorem State.setV_csworld (s : State) (r : VReg) (w : Vec) : (s.setV r w).csworld = s.csworld := rfl
@[simp] theorem State.setV_regions (s : State) (r : VReg) (w : Vec) : (s.setV r w).regions = s.regions := rfl
@[simp] theorem State.setV_assay (s : State) (r : VReg) (w : Vec) : (s.setV r w).assay = s.assay := rfl
@[simp] theorem State.setV_peers (s : State) (r : VReg) (w : Vec) : (s.setV r w).peers = s.peers := rfl
@[simp] theorem State.setV_lbtol (s : State) (r : VReg) (w : Vec) : (s.setV r w).lbtol = s.lbtol := rfl
@[simp] theorem State.setV_sharedWrites (s : State) (r : VReg) (w : Vec) : (s.setV r w).sharedWrites = s.sharedWrites := rfl
@[simp] theorem State.setV_hcsize (s : State) (r : VReg) (w : Vec) : (s.setV r w).hcsize = s.hcsize := rfl
@[simp] theorem State.setV_linkup (s : State) (r : VReg) (w : Vec) : (s.setV r w).linkup = s.linkup := rfl
@[simp] theorem State.setV_nodeid (s : State) (r : VReg) (w : Vec) : (s.setV r w).nodeid = s.nodeid := rfl
@[simp] theorem State.setV_pxlost (s : State) (r : VReg) (w : Vec) : (s.setV r w).pxlost = s.pxlost := rfl
@[simp] theorem State.setV_pxref (s : State) (r : VReg) (w : Vec) : (s.setV r w).pxref = s.pxref := rfl
@[simp] theorem State.setV_linkSeq (s : State) (r : VReg) (w : Vec) : (s.setV r w).linkSeq = s.linkSeq := rfl
@[simp] theorem State.setV_time (s : State) (r : VReg) (w : Vec) : (s.setV r w).time = s.time := rfl
@[simp] theorem State.setV_slew (s : State) (r : VReg) (w : Vec) : (s.setV r w).slew = s.slew := rfl
@[simp] theorem State.setV_timeStepped (s : State) (r : VReg) (w : Vec) : (s.setV r w).timeStepped = s.timeStepped := rfl
@[simp] theorem State.setV_ptpLocked (s : State) (r : VReg) (w : Vec) : (s.setV r w).ptpLocked = s.ptpLocked := rfl
@[simp] theorem State.setV_plimit (s : State) (r : VReg) (w : Vec) : (s.setV r w).plimit = s.plimit := rfl
@[simp] theorem State.setV_tripped (s : State) (r : VReg) (w : Vec) : (s.setV r w).tripped = s.tripped := rfl
@[simp] theorem State.setV_throttled (s : State) (r : VReg) (w : Vec) : (s.setV r w).throttled = s.throttled := rfl
@[simp] theorem State.setV_thhist (s : State) (r : VReg) (w : Vec) : (s.setV r w).thhist = s.thhist := rfl
@[simp] theorem State.setV_sensors (s : State) (r : VReg) (w : Vec) : (s.setV r w).sensors = s.sensors := rfl
@[simp] theorem State.setV_flowLow (s : State) (r : VReg) (w : Vec) : (s.setV r w).flowLow = s.flowLow := rfl
@[simp] theorem State.setV_dark (s : State) (r : VReg) (w : Vec) : (s.setV r w).dark = s.dark := rfl
@[simp] theorem State.setV_dumps (s : State) (r : VReg) (w : Vec) : (s.setV r w).dumps = s.dumps := rfl
@[simp] theorem State.setV_clock (s : State) (r : VReg) (w : Vec) : (s.setV r w).clock = s.clock := rfl
@[simp] theorem State.setV_advanced (s : State) (r : VReg) (w : Vec) : (s.setV r w).advanced = s.advanced := rfl
@[simp] theorem State.setV_floored (s : State) (r : VReg) (w : Vec) : (s.setV r w).floored = s.floored := rfl
@[simp] theorem State.setV_swept (s : State) (r : VReg) (w : Vec) : (s.setV r w).swept = s.swept := rfl
@[simp] theorem State.setV_front (s : State) (r : VReg) (w : Vec) : (s.setV r w).front = s.front := rfl
@[simp] theorem State.setV_high (s : State) (r : VReg) (w : Vec) : (s.setV r w).high = s.high := rfl
@[simp] theorem State.setV_floor (s : State) (r : VReg) (w : Vec) : (s.setV r w).floor = s.floor := rfl
@[simp] theorem State.setV_softErrors (s : State) (r : VReg) (w : Vec) : (s.setV r w).softErrors = s.softErrors := rfl
@[simp] theorem State.setV_admissions (s : State) (r : VReg) (w : Vec) : (s.setV r w).admissions = s.admissions := rfl
@[simp] theorem State.setV_out (s : State) (r : VReg) (w : Vec) : (s.setV r w).out = s.out := rfl
@[simp] theorem State.setV_agenda (s : State) (r : VReg) (w : Vec) : (s.setV r w).agenda = s.agenda := rfl
@[simp] theorem State.setV_active (s : State) (r : VReg) (w : Vec) : (s.setV r w).active = s.active := rfl
@[simp] theorem State.setV_choices (s : State) (r : VReg) (w : Vec) : (s.setV r w).choices = s.choices := rfl

@[simp] theorem State.setM_cores (s : State) (r : MReg) (w : Mask) : (s.setM r w).cores = s.cores := rfl
@[simp] theorem State.setM_clusters (s : State) (r : MReg) (w : Mask) : (s.setM r w).clusters = s.clusters := rfl
@[simp] theorem State.setM_queues (s : State) (r : MReg) (w : Mask) : (s.setM r w).queues = s.queues := rfl
@[simp] theorem State.setM_normal (s : State) (r : MReg) (w : Mask) : (s.setM r w).normal = s.normal := rfl
@[simp] theorem State.setM_secure (s : State) (r : MReg) (w : Mask) : (s.setM r w).secure = s.secure := rfl
@[simp] theorem State.setM_hbm (s : State) (r : MReg) (w : Mask) : (s.setM r w).hbm = s.hbm := rfl
@[simp] theorem State.setM_host (s : State) (r : MReg) (w : Mask) : (s.setM r w).host = s.host := rfl
@[simp] theorem State.setM_coreMem (s : State) (r : MReg) (w : Mask) : (s.setM r w).coreMem = s.coreMem := rfl
@[simp] theorem State.setM_clusterMem (s : State) (r : MReg) (w : Mask) : (s.setM r w).clusterMem = s.clusterMem := rfl
@[simp] theorem State.setM_chipMem (s : State) (r : MReg) (w : Mask) : (s.setM r w).chipMem = s.chipMem := rfl
@[simp] theorem State.setM_stamps (s : State) (r : MReg) (w : Mask) : (s.setM r w).stamps = s.stamps := rfl
@[simp] theorem State.setM_stampBase (s : State) (r : MReg) (w : Mask) : (s.setM r w).stampBase = s.stampBase := rfl
@[simp] theorem State.setM_l2 (s : State) (r : MReg) (w : Mask) : (s.setM r w).l2 = s.l2 := rfl
@[simp] theorem State.setM_l2Writebacks (s : State) (r : MReg) (w : Mask) : (s.setM r w).l2Writebacks = s.l2Writebacks := rfl
@[simp] theorem State.setM_deposit (s : State) (r : MReg) (w : Mask) : (s.setM r w).deposit = s.deposit := rfl
@[simp] theorem State.setM_depositMts (s : State) (r : MReg) (w : Mask) : (s.setM r w).depositMts = s.depositMts := rfl
@[simp] theorem State.setM_depositWritebacks (s : State) (r : MReg) (w : Mask) : (s.setM r w).depositWritebacks = s.depositWritebacks := rfl
@[simp] theorem State.setM_hostLines (s : State) (r : MReg) (w : Mask) : (s.setM r w).hostLines = s.hostLines := rfl
@[simp] theorem State.setM_writeEntries (s : State) (r : MReg) (w : Mask) : (s.setM r w).writeEntries = s.writeEntries := rfl
@[simp] theorem State.setM_superseded (s : State) (r : MReg) (w : Mask) : (s.setM r w).superseded = s.superseded := rfl
@[simp] theorem State.setM_hostFills (s : State) (r : MReg) (w : Mask) : (s.setM r w).hostFills = s.hostFills := rfl
@[simp] theorem State.setM_unitAnswers (s : State) (r : MReg) (w : Mask) : (s.setM r w).unitAnswers = s.unitAnswers := rfl
@[simp] theorem State.setM_hmts0 (s : State) (r : MReg) (w : Mask) : (s.setM r w).hmts0 = s.hmts0 := rfl
@[simp] theorem State.setM_hmts1 (s : State) (r : MReg) (w : Mask) : (s.setM r w).hmts1 = s.hmts1 := rfl
@[simp] theorem State.setM_backInvals (s : State) (r : MReg) (w : Mask) : (s.setM r w).backInvals = s.backInvals := rfl
@[simp] theorem State.setM_hostOwned (s : State) (r : MReg) (w : Mask) : (s.setM r w).hostOwned = s.hostOwned := rfl
@[simp] theorem State.setM_posted (s : State) (r : MReg) (w : Mask) : (s.setM r w).posted = s.posted := rfl
@[simp] theorem State.setM_acks (s : State) (r : MReg) (w : Mask) : (s.setM r w).acks = s.acks := rfl
@[simp] theorem State.setM_tileCopies (s : State) (r : MReg) (w : Mask) : (s.setM r w).tileCopies = s.tileCopies := rfl
@[simp] theorem State.setM_sends (s : State) (r : MReg) (w : Mask) : (s.setM r w).sends = s.sends := rfl
@[simp] theorem State.setM_walks (s : State) (r : MReg) (w : Mask) : (s.setM r w).walks = s.walks := rfl
@[simp] theorem State.setM_flits (s : State) (r : MReg) (w : Mask) : (s.setM r w).flits = s.flits := rfl
@[simp] theorem State.setM_forwards (s : State) (r : MReg) (w : Mask) : (s.setM r w).forwards = s.forwards := rfl
@[simp] theorem State.setM_remoteDrops (s : State) (r : MReg) (w : Mask) : (s.setM r w).remoteDrops = s.remoteDrops := rfl
@[simp] theorem State.setM_demands (s : State) (r : MReg) (w : Mask) : (s.setM r w).demands = s.demands := rfl
@[simp] theorem State.setM_arrears (s : State) (r : MReg) (w : Mask) : (s.setM r w).arrears = s.arrears := rfl
@[simp] theorem State.setM_exits (s : State) (r : MReg) (w : Mask) : (s.setM r w).exits = s.exits := rfl
@[simp] theorem State.setM_removals (s : State) (r : MReg) (w : Mask) : (s.setM r w).removals = s.removals := rfl
@[simp] theorem State.setM_encl (s : State) (r : MReg) (w : Mask) : (s.setM r w).encl = s.encl := rfl
@[simp] theorem State.setM_enstk (s : State) (r : MReg) (w : Mask) : (s.setM r w).enstk = s.enstk := rfl
@[simp] theorem State.setM_ready (s : State) (r : MReg) (w : Mask) : (s.setM r w).ready = s.ready := rfl
@[simp] theorem State.setM_cworld (s : State) (r : MReg) (w : Mask) : (s.setM r w).cworld = s.cworld := rfl
@[simp] theorem State.setM_csworld (s : State) (r : MReg) (w : Mask) : (s.setM r w).csworld = s.csworld := rfl
@[simp] theorem State.setM_regions (s : State) (r : MReg) (w : Mask) : (s.setM r w).regions = s.regions := rfl
@[simp] theorem State.setM_assay (s : State) (r : MReg) (w : Mask) : (s.setM r w).assay = s.assay := rfl
@[simp] theorem State.setM_peers (s : State) (r : MReg) (w : Mask) : (s.setM r w).peers = s.peers := rfl
@[simp] theorem State.setM_lbtol (s : State) (r : MReg) (w : Mask) : (s.setM r w).lbtol = s.lbtol := rfl
@[simp] theorem State.setM_sharedWrites (s : State) (r : MReg) (w : Mask) : (s.setM r w).sharedWrites = s.sharedWrites := rfl
@[simp] theorem State.setM_hcsize (s : State) (r : MReg) (w : Mask) : (s.setM r w).hcsize = s.hcsize := rfl
@[simp] theorem State.setM_linkup (s : State) (r : MReg) (w : Mask) : (s.setM r w).linkup = s.linkup := rfl
@[simp] theorem State.setM_nodeid (s : State) (r : MReg) (w : Mask) : (s.setM r w).nodeid = s.nodeid := rfl
@[simp] theorem State.setM_pxlost (s : State) (r : MReg) (w : Mask) : (s.setM r w).pxlost = s.pxlost := rfl
@[simp] theorem State.setM_pxref (s : State) (r : MReg) (w : Mask) : (s.setM r w).pxref = s.pxref := rfl
@[simp] theorem State.setM_linkSeq (s : State) (r : MReg) (w : Mask) : (s.setM r w).linkSeq = s.linkSeq := rfl
@[simp] theorem State.setM_time (s : State) (r : MReg) (w : Mask) : (s.setM r w).time = s.time := rfl
@[simp] theorem State.setM_slew (s : State) (r : MReg) (w : Mask) : (s.setM r w).slew = s.slew := rfl
@[simp] theorem State.setM_timeStepped (s : State) (r : MReg) (w : Mask) : (s.setM r w).timeStepped = s.timeStepped := rfl
@[simp] theorem State.setM_ptpLocked (s : State) (r : MReg) (w : Mask) : (s.setM r w).ptpLocked = s.ptpLocked := rfl
@[simp] theorem State.setM_plimit (s : State) (r : MReg) (w : Mask) : (s.setM r w).plimit = s.plimit := rfl
@[simp] theorem State.setM_tripped (s : State) (r : MReg) (w : Mask) : (s.setM r w).tripped = s.tripped := rfl
@[simp] theorem State.setM_throttled (s : State) (r : MReg) (w : Mask) : (s.setM r w).throttled = s.throttled := rfl
@[simp] theorem State.setM_thhist (s : State) (r : MReg) (w : Mask) : (s.setM r w).thhist = s.thhist := rfl
@[simp] theorem State.setM_sensors (s : State) (r : MReg) (w : Mask) : (s.setM r w).sensors = s.sensors := rfl
@[simp] theorem State.setM_flowLow (s : State) (r : MReg) (w : Mask) : (s.setM r w).flowLow = s.flowLow := rfl
@[simp] theorem State.setM_dark (s : State) (r : MReg) (w : Mask) : (s.setM r w).dark = s.dark := rfl
@[simp] theorem State.setM_dumps (s : State) (r : MReg) (w : Mask) : (s.setM r w).dumps = s.dumps := rfl
@[simp] theorem State.setM_clock (s : State) (r : MReg) (w : Mask) : (s.setM r w).clock = s.clock := rfl
@[simp] theorem State.setM_advanced (s : State) (r : MReg) (w : Mask) : (s.setM r w).advanced = s.advanced := rfl
@[simp] theorem State.setM_floored (s : State) (r : MReg) (w : Mask) : (s.setM r w).floored = s.floored := rfl
@[simp] theorem State.setM_swept (s : State) (r : MReg) (w : Mask) : (s.setM r w).swept = s.swept := rfl
@[simp] theorem State.setM_front (s : State) (r : MReg) (w : Mask) : (s.setM r w).front = s.front := rfl
@[simp] theorem State.setM_high (s : State) (r : MReg) (w : Mask) : (s.setM r w).high = s.high := rfl
@[simp] theorem State.setM_floor (s : State) (r : MReg) (w : Mask) : (s.setM r w).floor = s.floor := rfl
@[simp] theorem State.setM_softErrors (s : State) (r : MReg) (w : Mask) : (s.setM r w).softErrors = s.softErrors := rfl
@[simp] theorem State.setM_admissions (s : State) (r : MReg) (w : Mask) : (s.setM r w).admissions = s.admissions := rfl
@[simp] theorem State.setM_out (s : State) (r : MReg) (w : Mask) : (s.setM r w).out = s.out := rfl
@[simp] theorem State.setM_agenda (s : State) (r : MReg) (w : Mask) : (s.setM r w).agenda = s.agenda := rfl
@[simp] theorem State.setM_active (s : State) (r : MReg) (w : Mask) : (s.setM r w).active = s.active := rfl
@[simp] theorem State.setM_choices (s : State) (r : MReg) (w : Mask) : (s.setM r w).choices = s.choices := rfl

@[simp] theorem State.setT_cores (s : State) (r : TReg) (w : Tile) : (s.setT r w).cores = s.cores := rfl
@[simp] theorem State.setT_clusters (s : State) (r : TReg) (w : Tile) : (s.setT r w).clusters = s.clusters := rfl
@[simp] theorem State.setT_queues (s : State) (r : TReg) (w : Tile) : (s.setT r w).queues = s.queues := rfl
@[simp] theorem State.setT_normal (s : State) (r : TReg) (w : Tile) : (s.setT r w).normal = s.normal := rfl
@[simp] theorem State.setT_secure (s : State) (r : TReg) (w : Tile) : (s.setT r w).secure = s.secure := rfl
@[simp] theorem State.setT_hbm (s : State) (r : TReg) (w : Tile) : (s.setT r w).hbm = s.hbm := rfl
@[simp] theorem State.setT_host (s : State) (r : TReg) (w : Tile) : (s.setT r w).host = s.host := rfl
@[simp] theorem State.setT_coreMem (s : State) (r : TReg) (w : Tile) : (s.setT r w).coreMem = s.coreMem := rfl
@[simp] theorem State.setT_clusterMem (s : State) (r : TReg) (w : Tile) : (s.setT r w).clusterMem = s.clusterMem := rfl
@[simp] theorem State.setT_chipMem (s : State) (r : TReg) (w : Tile) : (s.setT r w).chipMem = s.chipMem := rfl
@[simp] theorem State.setT_stamps (s : State) (r : TReg) (w : Tile) : (s.setT r w).stamps = s.stamps := rfl
@[simp] theorem State.setT_stampBase (s : State) (r : TReg) (w : Tile) : (s.setT r w).stampBase = s.stampBase := rfl
@[simp] theorem State.setT_l2 (s : State) (r : TReg) (w : Tile) : (s.setT r w).l2 = s.l2 := rfl
@[simp] theorem State.setT_l2Writebacks (s : State) (r : TReg) (w : Tile) : (s.setT r w).l2Writebacks = s.l2Writebacks := rfl
@[simp] theorem State.setT_deposit (s : State) (r : TReg) (w : Tile) : (s.setT r w).deposit = s.deposit := rfl
@[simp] theorem State.setT_depositMts (s : State) (r : TReg) (w : Tile) : (s.setT r w).depositMts = s.depositMts := rfl
@[simp] theorem State.setT_depositWritebacks (s : State) (r : TReg) (w : Tile) : (s.setT r w).depositWritebacks = s.depositWritebacks := rfl
@[simp] theorem State.setT_hostLines (s : State) (r : TReg) (w : Tile) : (s.setT r w).hostLines = s.hostLines := rfl
@[simp] theorem State.setT_writeEntries (s : State) (r : TReg) (w : Tile) : (s.setT r w).writeEntries = s.writeEntries := rfl
@[simp] theorem State.setT_superseded (s : State) (r : TReg) (w : Tile) : (s.setT r w).superseded = s.superseded := rfl
@[simp] theorem State.setT_hostFills (s : State) (r : TReg) (w : Tile) : (s.setT r w).hostFills = s.hostFills := rfl
@[simp] theorem State.setT_unitAnswers (s : State) (r : TReg) (w : Tile) : (s.setT r w).unitAnswers = s.unitAnswers := rfl
@[simp] theorem State.setT_hmts0 (s : State) (r : TReg) (w : Tile) : (s.setT r w).hmts0 = s.hmts0 := rfl
@[simp] theorem State.setT_hmts1 (s : State) (r : TReg) (w : Tile) : (s.setT r w).hmts1 = s.hmts1 := rfl
@[simp] theorem State.setT_backInvals (s : State) (r : TReg) (w : Tile) : (s.setT r w).backInvals = s.backInvals := rfl
@[simp] theorem State.setT_hostOwned (s : State) (r : TReg) (w : Tile) : (s.setT r w).hostOwned = s.hostOwned := rfl
@[simp] theorem State.setT_posted (s : State) (r : TReg) (w : Tile) : (s.setT r w).posted = s.posted := rfl
@[simp] theorem State.setT_acks (s : State) (r : TReg) (w : Tile) : (s.setT r w).acks = s.acks := rfl
@[simp] theorem State.setT_tileCopies (s : State) (r : TReg) (w : Tile) : (s.setT r w).tileCopies = s.tileCopies := rfl
@[simp] theorem State.setT_sends (s : State) (r : TReg) (w : Tile) : (s.setT r w).sends = s.sends := rfl
@[simp] theorem State.setT_walks (s : State) (r : TReg) (w : Tile) : (s.setT r w).walks = s.walks := rfl
@[simp] theorem State.setT_flits (s : State) (r : TReg) (w : Tile) : (s.setT r w).flits = s.flits := rfl
@[simp] theorem State.setT_forwards (s : State) (r : TReg) (w : Tile) : (s.setT r w).forwards = s.forwards := rfl
@[simp] theorem State.setT_remoteDrops (s : State) (r : TReg) (w : Tile) : (s.setT r w).remoteDrops = s.remoteDrops := rfl
@[simp] theorem State.setT_demands (s : State) (r : TReg) (w : Tile) : (s.setT r w).demands = s.demands := rfl
@[simp] theorem State.setT_arrears (s : State) (r : TReg) (w : Tile) : (s.setT r w).arrears = s.arrears := rfl
@[simp] theorem State.setT_exits (s : State) (r : TReg) (w : Tile) : (s.setT r w).exits = s.exits := rfl
@[simp] theorem State.setT_removals (s : State) (r : TReg) (w : Tile) : (s.setT r w).removals = s.removals := rfl
@[simp] theorem State.setT_encl (s : State) (r : TReg) (w : Tile) : (s.setT r w).encl = s.encl := rfl
@[simp] theorem State.setT_enstk (s : State) (r : TReg) (w : Tile) : (s.setT r w).enstk = s.enstk := rfl
@[simp] theorem State.setT_ready (s : State) (r : TReg) (w : Tile) : (s.setT r w).ready = s.ready := rfl
@[simp] theorem State.setT_cworld (s : State) (r : TReg) (w : Tile) : (s.setT r w).cworld = s.cworld := rfl
@[simp] theorem State.setT_csworld (s : State) (r : TReg) (w : Tile) : (s.setT r w).csworld = s.csworld := rfl
@[simp] theorem State.setT_regions (s : State) (r : TReg) (w : Tile) : (s.setT r w).regions = s.regions := rfl
@[simp] theorem State.setT_assay (s : State) (r : TReg) (w : Tile) : (s.setT r w).assay = s.assay := rfl
@[simp] theorem State.setT_peers (s : State) (r : TReg) (w : Tile) : (s.setT r w).peers = s.peers := rfl
@[simp] theorem State.setT_lbtol (s : State) (r : TReg) (w : Tile) : (s.setT r w).lbtol = s.lbtol := rfl
@[simp] theorem State.setT_sharedWrites (s : State) (r : TReg) (w : Tile) : (s.setT r w).sharedWrites = s.sharedWrites := rfl
@[simp] theorem State.setT_hcsize (s : State) (r : TReg) (w : Tile) : (s.setT r w).hcsize = s.hcsize := rfl
@[simp] theorem State.setT_linkup (s : State) (r : TReg) (w : Tile) : (s.setT r w).linkup = s.linkup := rfl
@[simp] theorem State.setT_nodeid (s : State) (r : TReg) (w : Tile) : (s.setT r w).nodeid = s.nodeid := rfl
@[simp] theorem State.setT_pxlost (s : State) (r : TReg) (w : Tile) : (s.setT r w).pxlost = s.pxlost := rfl
@[simp] theorem State.setT_pxref (s : State) (r : TReg) (w : Tile) : (s.setT r w).pxref = s.pxref := rfl
@[simp] theorem State.setT_linkSeq (s : State) (r : TReg) (w : Tile) : (s.setT r w).linkSeq = s.linkSeq := rfl
@[simp] theorem State.setT_time (s : State) (r : TReg) (w : Tile) : (s.setT r w).time = s.time := rfl
@[simp] theorem State.setT_slew (s : State) (r : TReg) (w : Tile) : (s.setT r w).slew = s.slew := rfl
@[simp] theorem State.setT_timeStepped (s : State) (r : TReg) (w : Tile) : (s.setT r w).timeStepped = s.timeStepped := rfl
@[simp] theorem State.setT_ptpLocked (s : State) (r : TReg) (w : Tile) : (s.setT r w).ptpLocked = s.ptpLocked := rfl
@[simp] theorem State.setT_plimit (s : State) (r : TReg) (w : Tile) : (s.setT r w).plimit = s.plimit := rfl
@[simp] theorem State.setT_tripped (s : State) (r : TReg) (w : Tile) : (s.setT r w).tripped = s.tripped := rfl
@[simp] theorem State.setT_throttled (s : State) (r : TReg) (w : Tile) : (s.setT r w).throttled = s.throttled := rfl
@[simp] theorem State.setT_thhist (s : State) (r : TReg) (w : Tile) : (s.setT r w).thhist = s.thhist := rfl
@[simp] theorem State.setT_sensors (s : State) (r : TReg) (w : Tile) : (s.setT r w).sensors = s.sensors := rfl
@[simp] theorem State.setT_flowLow (s : State) (r : TReg) (w : Tile) : (s.setT r w).flowLow = s.flowLow := rfl
@[simp] theorem State.setT_dark (s : State) (r : TReg) (w : Tile) : (s.setT r w).dark = s.dark := rfl
@[simp] theorem State.setT_dumps (s : State) (r : TReg) (w : Tile) : (s.setT r w).dumps = s.dumps := rfl
@[simp] theorem State.setT_clock (s : State) (r : TReg) (w : Tile) : (s.setT r w).clock = s.clock := rfl
@[simp] theorem State.setT_advanced (s : State) (r : TReg) (w : Tile) : (s.setT r w).advanced = s.advanced := rfl
@[simp] theorem State.setT_floored (s : State) (r : TReg) (w : Tile) : (s.setT r w).floored = s.floored := rfl
@[simp] theorem State.setT_swept (s : State) (r : TReg) (w : Tile) : (s.setT r w).swept = s.swept := rfl
@[simp] theorem State.setT_front (s : State) (r : TReg) (w : Tile) : (s.setT r w).front = s.front := rfl
@[simp] theorem State.setT_high (s : State) (r : TReg) (w : Tile) : (s.setT r w).high = s.high := rfl
@[simp] theorem State.setT_floor (s : State) (r : TReg) (w : Tile) : (s.setT r w).floor = s.floor := rfl
@[simp] theorem State.setT_softErrors (s : State) (r : TReg) (w : Tile) : (s.setT r w).softErrors = s.softErrors := rfl
@[simp] theorem State.setT_admissions (s : State) (r : TReg) (w : Tile) : (s.setT r w).admissions = s.admissions := rfl
@[simp] theorem State.setT_out (s : State) (r : TReg) (w : Tile) : (s.setT r w).out = s.out := rfl
@[simp] theorem State.setT_agenda (s : State) (r : TReg) (w : Tile) : (s.setT r w).agenda = s.agenda := rfl
@[simp] theorem State.setT_active (s : State) (r : TReg) (w : Tile) : (s.setT r w).active = s.active := rfl
@[simp] theorem State.setT_choices (s : State) (r : TReg) (w : Tile) : (s.setT r w).choices = s.choices := rfl

@[simp] theorem State.addFlags_cores (s : State) (f : Flags) : (s.addFlags f).cores = s.cores := rfl
@[simp] theorem State.addFlags_clusters (s : State) (f : Flags) : (s.addFlags f).clusters = s.clusters := rfl
@[simp] theorem State.addFlags_queues (s : State) (f : Flags) : (s.addFlags f).queues = s.queues := rfl
@[simp] theorem State.addFlags_normal (s : State) (f : Flags) : (s.addFlags f).normal = s.normal := rfl
@[simp] theorem State.addFlags_secure (s : State) (f : Flags) : (s.addFlags f).secure = s.secure := rfl
@[simp] theorem State.addFlags_hbm (s : State) (f : Flags) : (s.addFlags f).hbm = s.hbm := rfl
@[simp] theorem State.addFlags_host (s : State) (f : Flags) : (s.addFlags f).host = s.host := rfl
@[simp] theorem State.addFlags_coreMem (s : State) (f : Flags) : (s.addFlags f).coreMem = s.coreMem := rfl
@[simp] theorem State.addFlags_clusterMem (s : State) (f : Flags) : (s.addFlags f).clusterMem = s.clusterMem := rfl
@[simp] theorem State.addFlags_chipMem (s : State) (f : Flags) : (s.addFlags f).chipMem = s.chipMem := rfl
@[simp] theorem State.addFlags_stamps (s : State) (f : Flags) : (s.addFlags f).stamps = s.stamps := rfl
@[simp] theorem State.addFlags_stampBase (s : State) (f : Flags) : (s.addFlags f).stampBase = s.stampBase := rfl
@[simp] theorem State.addFlags_l2 (s : State) (f : Flags) : (s.addFlags f).l2 = s.l2 := rfl
@[simp] theorem State.addFlags_l2Writebacks (s : State) (f : Flags) : (s.addFlags f).l2Writebacks = s.l2Writebacks := rfl
@[simp] theorem State.addFlags_deposit (s : State) (f : Flags) : (s.addFlags f).deposit = s.deposit := rfl
@[simp] theorem State.addFlags_depositMts (s : State) (f : Flags) : (s.addFlags f).depositMts = s.depositMts := rfl
@[simp] theorem State.addFlags_depositWritebacks (s : State) (f : Flags) : (s.addFlags f).depositWritebacks = s.depositWritebacks := rfl
@[simp] theorem State.addFlags_hostLines (s : State) (f : Flags) : (s.addFlags f).hostLines = s.hostLines := rfl
@[simp] theorem State.addFlags_writeEntries (s : State) (f : Flags) : (s.addFlags f).writeEntries = s.writeEntries := rfl
@[simp] theorem State.addFlags_superseded (s : State) (f : Flags) : (s.addFlags f).superseded = s.superseded := rfl
@[simp] theorem State.addFlags_hostFills (s : State) (f : Flags) : (s.addFlags f).hostFills = s.hostFills := rfl
@[simp] theorem State.addFlags_unitAnswers (s : State) (f : Flags) : (s.addFlags f).unitAnswers = s.unitAnswers := rfl
@[simp] theorem State.addFlags_hmts0 (s : State) (f : Flags) : (s.addFlags f).hmts0 = s.hmts0 := rfl
@[simp] theorem State.addFlags_hmts1 (s : State) (f : Flags) : (s.addFlags f).hmts1 = s.hmts1 := rfl
@[simp] theorem State.addFlags_backInvals (s : State) (f : Flags) : (s.addFlags f).backInvals = s.backInvals := rfl
@[simp] theorem State.addFlags_hostOwned (s : State) (f : Flags) : (s.addFlags f).hostOwned = s.hostOwned := rfl
@[simp] theorem State.addFlags_posted (s : State) (f : Flags) : (s.addFlags f).posted = s.posted := rfl
@[simp] theorem State.addFlags_acks (s : State) (f : Flags) : (s.addFlags f).acks = s.acks := rfl
@[simp] theorem State.addFlags_tileCopies (s : State) (f : Flags) : (s.addFlags f).tileCopies = s.tileCopies := rfl
@[simp] theorem State.addFlags_sends (s : State) (f : Flags) : (s.addFlags f).sends = s.sends := rfl
@[simp] theorem State.addFlags_walks (s : State) (f : Flags) : (s.addFlags f).walks = s.walks := rfl
@[simp] theorem State.addFlags_flits (s : State) (f : Flags) : (s.addFlags f).flits = s.flits := rfl
@[simp] theorem State.addFlags_forwards (s : State) (f : Flags) : (s.addFlags f).forwards = s.forwards := rfl
@[simp] theorem State.addFlags_remoteDrops (s : State) (f : Flags) : (s.addFlags f).remoteDrops = s.remoteDrops := rfl
@[simp] theorem State.addFlags_demands (s : State) (f : Flags) : (s.addFlags f).demands = s.demands := rfl
@[simp] theorem State.addFlags_arrears (s : State) (f : Flags) : (s.addFlags f).arrears = s.arrears := rfl
@[simp] theorem State.addFlags_exits (s : State) (f : Flags) : (s.addFlags f).exits = s.exits := rfl
@[simp] theorem State.addFlags_removals (s : State) (f : Flags) : (s.addFlags f).removals = s.removals := rfl
@[simp] theorem State.addFlags_encl (s : State) (f : Flags) : (s.addFlags f).encl = s.encl := rfl
@[simp] theorem State.addFlags_enstk (s : State) (f : Flags) : (s.addFlags f).enstk = s.enstk := rfl
@[simp] theorem State.addFlags_ready (s : State) (f : Flags) : (s.addFlags f).ready = s.ready := rfl
@[simp] theorem State.addFlags_cworld (s : State) (f : Flags) : (s.addFlags f).cworld = s.cworld := rfl
@[simp] theorem State.addFlags_csworld (s : State) (f : Flags) : (s.addFlags f).csworld = s.csworld := rfl
@[simp] theorem State.addFlags_regions (s : State) (f : Flags) : (s.addFlags f).regions = s.regions := rfl
@[simp] theorem State.addFlags_assay (s : State) (f : Flags) : (s.addFlags f).assay = s.assay := rfl
@[simp] theorem State.addFlags_peers (s : State) (f : Flags) : (s.addFlags f).peers = s.peers := rfl
@[simp] theorem State.addFlags_lbtol (s : State) (f : Flags) : (s.addFlags f).lbtol = s.lbtol := rfl
@[simp] theorem State.addFlags_sharedWrites (s : State) (f : Flags) : (s.addFlags f).sharedWrites = s.sharedWrites := rfl
@[simp] theorem State.addFlags_hcsize (s : State) (f : Flags) : (s.addFlags f).hcsize = s.hcsize := rfl
@[simp] theorem State.addFlags_linkup (s : State) (f : Flags) : (s.addFlags f).linkup = s.linkup := rfl
@[simp] theorem State.addFlags_nodeid (s : State) (f : Flags) : (s.addFlags f).nodeid = s.nodeid := rfl
@[simp] theorem State.addFlags_pxlost (s : State) (f : Flags) : (s.addFlags f).pxlost = s.pxlost := rfl
@[simp] theorem State.addFlags_pxref (s : State) (f : Flags) : (s.addFlags f).pxref = s.pxref := rfl
@[simp] theorem State.addFlags_linkSeq (s : State) (f : Flags) : (s.addFlags f).linkSeq = s.linkSeq := rfl
@[simp] theorem State.addFlags_time (s : State) (f : Flags) : (s.addFlags f).time = s.time := rfl
@[simp] theorem State.addFlags_slew (s : State) (f : Flags) : (s.addFlags f).slew = s.slew := rfl
@[simp] theorem State.addFlags_timeStepped (s : State) (f : Flags) : (s.addFlags f).timeStepped = s.timeStepped := rfl
@[simp] theorem State.addFlags_ptpLocked (s : State) (f : Flags) : (s.addFlags f).ptpLocked = s.ptpLocked := rfl
@[simp] theorem State.addFlags_plimit (s : State) (f : Flags) : (s.addFlags f).plimit = s.plimit := rfl
@[simp] theorem State.addFlags_tripped (s : State) (f : Flags) : (s.addFlags f).tripped = s.tripped := rfl
@[simp] theorem State.addFlags_throttled (s : State) (f : Flags) : (s.addFlags f).throttled = s.throttled := rfl
@[simp] theorem State.addFlags_thhist (s : State) (f : Flags) : (s.addFlags f).thhist = s.thhist := rfl
@[simp] theorem State.addFlags_sensors (s : State) (f : Flags) : (s.addFlags f).sensors = s.sensors := rfl
@[simp] theorem State.addFlags_flowLow (s : State) (f : Flags) : (s.addFlags f).flowLow = s.flowLow := rfl
@[simp] theorem State.addFlags_dark (s : State) (f : Flags) : (s.addFlags f).dark = s.dark := rfl
@[simp] theorem State.addFlags_dumps (s : State) (f : Flags) : (s.addFlags f).dumps = s.dumps := rfl
@[simp] theorem State.addFlags_clock (s : State) (f : Flags) : (s.addFlags f).clock = s.clock := rfl
@[simp] theorem State.addFlags_advanced (s : State) (f : Flags) : (s.addFlags f).advanced = s.advanced := rfl
@[simp] theorem State.addFlags_floored (s : State) (f : Flags) : (s.addFlags f).floored = s.floored := rfl
@[simp] theorem State.addFlags_swept (s : State) (f : Flags) : (s.addFlags f).swept = s.swept := rfl
@[simp] theorem State.addFlags_front (s : State) (f : Flags) : (s.addFlags f).front = s.front := rfl
@[simp] theorem State.addFlags_high (s : State) (f : Flags) : (s.addFlags f).high = s.high := rfl
@[simp] theorem State.addFlags_floor (s : State) (f : Flags) : (s.addFlags f).floor = s.floor := rfl
@[simp] theorem State.addFlags_softErrors (s : State) (f : Flags) : (s.addFlags f).softErrors = s.softErrors := rfl
@[simp] theorem State.addFlags_admissions (s : State) (f : Flags) : (s.addFlags f).admissions = s.admissions := rfl
@[simp] theorem State.addFlags_out (s : State) (f : Flags) : (s.addFlags f).out = s.out := rfl
@[simp] theorem State.addFlags_agenda (s : State) (f : Flags) : (s.addFlags f).agenda = s.agenda := rfl
@[simp] theorem State.addFlags_active (s : State) (f : Flags) : (s.addFlags f).active = s.active := rfl
@[simp] theorem State.addFlags_choices (s : State) (f : Flags) : (s.addFlags f).choices = s.choices := rfl

@[simp] theorem State.returned_cores (s : State) (st r : Bool) (t : Ts) : (s.returned st r t).cores = s.cores := rfl
@[simp] theorem State.returned_clusters (s : State) (st r : Bool) (t : Ts) : (s.returned st r t).clusters = s.clusters := rfl
@[simp] theorem State.returned_queues (s : State) (st r : Bool) (t : Ts) : (s.returned st r t).queues = s.queues := rfl
@[simp] theorem State.returned_normal (s : State) (st r : Bool) (t : Ts) : (s.returned st r t).normal = s.normal := rfl
@[simp] theorem State.returned_secure (s : State) (st r : Bool) (t : Ts) : (s.returned st r t).secure = s.secure := rfl
@[simp] theorem State.returned_hbm (s : State) (st r : Bool) (t : Ts) : (s.returned st r t).hbm = s.hbm := rfl
@[simp] theorem State.returned_host (s : State) (st r : Bool) (t : Ts) : (s.returned st r t).host = s.host := rfl
@[simp] theorem State.returned_coreMem (s : State) (st r : Bool) (t : Ts) : (s.returned st r t).coreMem = s.coreMem := rfl
@[simp] theorem State.returned_clusterMem (s : State) (st r : Bool) (t : Ts) : (s.returned st r t).clusterMem = s.clusterMem := rfl
@[simp] theorem State.returned_chipMem (s : State) (st r : Bool) (t : Ts) : (s.returned st r t).chipMem = s.chipMem := rfl
@[simp] theorem State.returned_stamps (s : State) (st r : Bool) (t : Ts) : (s.returned st r t).stamps = s.stamps := rfl
@[simp] theorem State.returned_stampBase (s : State) (st r : Bool) (t : Ts) : (s.returned st r t).stampBase = s.stampBase := rfl
@[simp] theorem State.returned_l2 (s : State) (st r : Bool) (t : Ts) : (s.returned st r t).l2 = s.l2 := rfl
@[simp] theorem State.returned_l2Writebacks (s : State) (st r : Bool) (t : Ts) : (s.returned st r t).l2Writebacks = s.l2Writebacks := rfl
@[simp] theorem State.returned_deposit (s : State) (st r : Bool) (t : Ts) : (s.returned st r t).deposit = s.deposit := rfl
@[simp] theorem State.returned_depositMts (s : State) (st r : Bool) (t : Ts) : (s.returned st r t).depositMts = s.depositMts := rfl
@[simp] theorem State.returned_depositWritebacks (s : State) (st r : Bool) (t : Ts) : (s.returned st r t).depositWritebacks = s.depositWritebacks := rfl
@[simp] theorem State.returned_hostLines (s : State) (st r : Bool) (t : Ts) : (s.returned st r t).hostLines = s.hostLines := rfl
@[simp] theorem State.returned_writeEntries (s : State) (st r : Bool) (t : Ts) : (s.returned st r t).writeEntries = s.writeEntries := rfl
@[simp] theorem State.returned_superseded (s : State) (st r : Bool) (t : Ts) : (s.returned st r t).superseded = s.superseded := rfl
@[simp] theorem State.returned_hostFills (s : State) (st r : Bool) (t : Ts) : (s.returned st r t).hostFills = s.hostFills := rfl
@[simp] theorem State.returned_unitAnswers (s : State) (st r : Bool) (t : Ts) : (s.returned st r t).unitAnswers = s.unitAnswers := rfl
@[simp] theorem State.returned_hmts0 (s : State) (st r : Bool) (t : Ts) : (s.returned st r t).hmts0 = s.hmts0 := rfl
@[simp] theorem State.returned_hmts1 (s : State) (st r : Bool) (t : Ts) : (s.returned st r t).hmts1 = s.hmts1 := rfl
@[simp] theorem State.returned_backInvals (s : State) (st r : Bool) (t : Ts) : (s.returned st r t).backInvals = s.backInvals := rfl
@[simp] theorem State.returned_hostOwned (s : State) (st r : Bool) (t : Ts) : (s.returned st r t).hostOwned = s.hostOwned := rfl
@[simp] theorem State.returned_posted (s : State) (st r : Bool) (t : Ts) : (s.returned st r t).posted = s.posted := rfl
@[simp] theorem State.returned_acks (s : State) (st r : Bool) (t : Ts) : (s.returned st r t).acks = s.acks := rfl
@[simp] theorem State.returned_tileCopies (s : State) (st r : Bool) (t : Ts) : (s.returned st r t).tileCopies = s.tileCopies := rfl
@[simp] theorem State.returned_sends (s : State) (st r : Bool) (t : Ts) : (s.returned st r t).sends = s.sends := rfl
@[simp] theorem State.returned_walks (s : State) (st r : Bool) (t : Ts) : (s.returned st r t).walks = s.walks := rfl
@[simp] theorem State.returned_flits (s : State) (st r : Bool) (t : Ts) : (s.returned st r t).flits = s.flits := rfl
@[simp] theorem State.returned_forwards (s : State) (st r : Bool) (t : Ts) : (s.returned st r t).forwards = s.forwards := rfl
@[simp] theorem State.returned_remoteDrops (s : State) (st r : Bool) (t : Ts) : (s.returned st r t).remoteDrops = s.remoteDrops := rfl
@[simp] theorem State.returned_demands (s : State) (st r : Bool) (t : Ts) : (s.returned st r t).demands = s.demands := rfl
@[simp] theorem State.returned_arrears (s : State) (st r : Bool) (t : Ts) : (s.returned st r t).arrears = s.arrears := rfl
@[simp] theorem State.returned_exits (s : State) (st r : Bool) (t : Ts) : (s.returned st r t).exits = s.exits := rfl
@[simp] theorem State.returned_removals (s : State) (st r : Bool) (t : Ts) : (s.returned st r t).removals = s.removals := rfl
@[simp] theorem State.returned_encl (s : State) (st r : Bool) (t : Ts) : (s.returned st r t).encl = s.encl := rfl
@[simp] theorem State.returned_enstk (s : State) (st r : Bool) (t : Ts) : (s.returned st r t).enstk = s.enstk := rfl
@[simp] theorem State.returned_ready (s : State) (st r : Bool) (t : Ts) : (s.returned st r t).ready = s.ready := rfl
@[simp] theorem State.returned_cworld (s : State) (st r : Bool) (t : Ts) : (s.returned st r t).cworld = s.cworld := rfl
@[simp] theorem State.returned_csworld (s : State) (st r : Bool) (t : Ts) : (s.returned st r t).csworld = s.csworld := rfl
@[simp] theorem State.returned_regions (s : State) (st r : Bool) (t : Ts) : (s.returned st r t).regions = s.regions := rfl
@[simp] theorem State.returned_assay (s : State) (st r : Bool) (t : Ts) : (s.returned st r t).assay = s.assay := rfl
@[simp] theorem State.returned_peers (s : State) (st r : Bool) (t : Ts) : (s.returned st r t).peers = s.peers := rfl
@[simp] theorem State.returned_lbtol (s : State) (st r : Bool) (t : Ts) : (s.returned st r t).lbtol = s.lbtol := rfl
@[simp] theorem State.returned_sharedWrites (s : State) (st r : Bool) (t : Ts) : (s.returned st r t).sharedWrites = s.sharedWrites := rfl
@[simp] theorem State.returned_hcsize (s : State) (st r : Bool) (t : Ts) : (s.returned st r t).hcsize = s.hcsize := rfl
@[simp] theorem State.returned_linkup (s : State) (st r : Bool) (t : Ts) : (s.returned st r t).linkup = s.linkup := rfl
@[simp] theorem State.returned_nodeid (s : State) (st r : Bool) (t : Ts) : (s.returned st r t).nodeid = s.nodeid := rfl
@[simp] theorem State.returned_pxlost (s : State) (st r : Bool) (t : Ts) : (s.returned st r t).pxlost = s.pxlost := rfl
@[simp] theorem State.returned_pxref (s : State) (st r : Bool) (t : Ts) : (s.returned st r t).pxref = s.pxref := rfl
@[simp] theorem State.returned_linkSeq (s : State) (st r : Bool) (t : Ts) : (s.returned st r t).linkSeq = s.linkSeq := rfl
@[simp] theorem State.returned_time (s : State) (st r : Bool) (t : Ts) : (s.returned st r t).time = s.time := rfl
@[simp] theorem State.returned_slew (s : State) (st r : Bool) (t : Ts) : (s.returned st r t).slew = s.slew := rfl
@[simp] theorem State.returned_timeStepped (s : State) (st r : Bool) (t : Ts) : (s.returned st r t).timeStepped = s.timeStepped := rfl
@[simp] theorem State.returned_ptpLocked (s : State) (st r : Bool) (t : Ts) : (s.returned st r t).ptpLocked = s.ptpLocked := rfl
@[simp] theorem State.returned_plimit (s : State) (st r : Bool) (t : Ts) : (s.returned st r t).plimit = s.plimit := rfl
@[simp] theorem State.returned_tripped (s : State) (st r : Bool) (t : Ts) : (s.returned st r t).tripped = s.tripped := rfl
@[simp] theorem State.returned_throttled (s : State) (st r : Bool) (t : Ts) : (s.returned st r t).throttled = s.throttled := rfl
@[simp] theorem State.returned_thhist (s : State) (st r : Bool) (t : Ts) : (s.returned st r t).thhist = s.thhist := rfl
@[simp] theorem State.returned_sensors (s : State) (st r : Bool) (t : Ts) : (s.returned st r t).sensors = s.sensors := rfl
@[simp] theorem State.returned_flowLow (s : State) (st r : Bool) (t : Ts) : (s.returned st r t).flowLow = s.flowLow := rfl
@[simp] theorem State.returned_dark (s : State) (st r : Bool) (t : Ts) : (s.returned st r t).dark = s.dark := rfl
@[simp] theorem State.returned_dumps (s : State) (st r : Bool) (t : Ts) : (s.returned st r t).dumps = s.dumps := rfl
@[simp] theorem State.returned_clock (s : State) (st r : Bool) (t : Ts) : (s.returned st r t).clock = s.clock := rfl
@[simp] theorem State.returned_advanced (s : State) (st r : Bool) (t : Ts) : (s.returned st r t).advanced = s.advanced := rfl
@[simp] theorem State.returned_floored (s : State) (st r : Bool) (t : Ts) : (s.returned st r t).floored = s.floored := rfl
@[simp] theorem State.returned_swept (s : State) (st r : Bool) (t : Ts) : (s.returned st r t).swept = s.swept := rfl
@[simp] theorem State.returned_front (s : State) (st r : Bool) (t : Ts) : (s.returned st r t).front = s.front := rfl
@[simp] theorem State.returned_high (s : State) (st r : Bool) (t : Ts) : (s.returned st r t).high = s.high := rfl
@[simp] theorem State.returned_floor (s : State) (st r : Bool) (t : Ts) : (s.returned st r t).floor = s.floor := rfl
@[simp] theorem State.returned_softErrors (s : State) (st r : Bool) (t : Ts) : (s.returned st r t).softErrors = s.softErrors := rfl
@[simp] theorem State.returned_admissions (s : State) (st r : Bool) (t : Ts) : (s.returned st r t).admissions = s.admissions := rfl
@[simp] theorem State.returned_out (s : State) (st r : Bool) (t : Ts) : (s.returned st r t).out = s.out := rfl
@[simp] theorem State.returned_agenda (s : State) (st r : Bool) (t : Ts) : (s.returned st r t).agenda = s.agenda := rfl
@[simp] theorem State.returned_active (s : State) (st r : Bool) (t : Ts) : (s.returned st r t).active = s.active := rfl
@[simp] theorem State.returned_choices (s : State) (st r : Bool) (t : Ts) : (s.returned st r t).choices = s.choices := rfl

@[simp] theorem State.retire_cores (s : State) (n : Next) : (s.retire n).cores = s.cores := by cases n <;> rfl
@[simp] theorem State.retire_clusters (s : State) (n : Next) : (s.retire n).clusters = s.clusters := by cases n <;> rfl
@[simp] theorem State.retire_queues (s : State) (n : Next) : (s.retire n).queues = s.queues := by cases n <;> rfl
@[simp] theorem State.retire_normal (s : State) (n : Next) : (s.retire n).normal = s.normal := by cases n <;> rfl
@[simp] theorem State.retire_secure (s : State) (n : Next) : (s.retire n).secure = s.secure := by cases n <;> rfl
@[simp] theorem State.retire_hbm (s : State) (n : Next) : (s.retire n).hbm = s.hbm := by cases n <;> rfl
@[simp] theorem State.retire_host (s : State) (n : Next) : (s.retire n).host = s.host := by cases n <;> rfl
@[simp] theorem State.retire_coreMem (s : State) (n : Next) : (s.retire n).coreMem = s.coreMem := by cases n <;> rfl
@[simp] theorem State.retire_clusterMem (s : State) (n : Next) : (s.retire n).clusterMem = s.clusterMem := by cases n <;> rfl
@[simp] theorem State.retire_chipMem (s : State) (n : Next) : (s.retire n).chipMem = s.chipMem := by cases n <;> rfl
@[simp] theorem State.retire_stamps (s : State) (n : Next) : (s.retire n).stamps = s.stamps := by cases n <;> rfl
@[simp] theorem State.retire_stampBase (s : State) (n : Next) : (s.retire n).stampBase = s.stampBase := by cases n <;> rfl
@[simp] theorem State.retire_l2 (s : State) (n : Next) : (s.retire n).l2 = s.l2 := by cases n <;> rfl
@[simp] theorem State.retire_l2Writebacks (s : State) (n : Next) : (s.retire n).l2Writebacks = s.l2Writebacks := by cases n <;> rfl
@[simp] theorem State.retire_deposit (s : State) (n : Next) : (s.retire n).deposit = s.deposit := by cases n <;> rfl
@[simp] theorem State.retire_depositMts (s : State) (n : Next) : (s.retire n).depositMts = s.depositMts := by cases n <;> rfl
@[simp] theorem State.retire_depositWritebacks (s : State) (n : Next) : (s.retire n).depositWritebacks = s.depositWritebacks := by cases n <;> rfl
@[simp] theorem State.retire_hostLines (s : State) (n : Next) : (s.retire n).hostLines = s.hostLines := by cases n <;> rfl
@[simp] theorem State.retire_writeEntries (s : State) (n : Next) : (s.retire n).writeEntries = s.writeEntries := by cases n <;> rfl
@[simp] theorem State.retire_superseded (s : State) (n : Next) : (s.retire n).superseded = s.superseded := by cases n <;> rfl
@[simp] theorem State.retire_hostFills (s : State) (n : Next) : (s.retire n).hostFills = s.hostFills := by cases n <;> rfl
@[simp] theorem State.retire_unitAnswers (s : State) (n : Next) : (s.retire n).unitAnswers = s.unitAnswers := by cases n <;> rfl
@[simp] theorem State.retire_hmts0 (s : State) (n : Next) : (s.retire n).hmts0 = s.hmts0 := by cases n <;> rfl
@[simp] theorem State.retire_hmts1 (s : State) (n : Next) : (s.retire n).hmts1 = s.hmts1 := by cases n <;> rfl
@[simp] theorem State.retire_backInvals (s : State) (n : Next) : (s.retire n).backInvals = s.backInvals := by cases n <;> rfl
@[simp] theorem State.retire_hostOwned (s : State) (n : Next) : (s.retire n).hostOwned = s.hostOwned := by cases n <;> rfl
@[simp] theorem State.retire_posted (s : State) (n : Next) : (s.retire n).posted = s.posted := by cases n <;> rfl
@[simp] theorem State.retire_acks (s : State) (n : Next) : (s.retire n).acks = s.acks := by cases n <;> rfl
@[simp] theorem State.retire_tileCopies (s : State) (n : Next) : (s.retire n).tileCopies = s.tileCopies := by cases n <;> rfl
@[simp] theorem State.retire_sends (s : State) (n : Next) : (s.retire n).sends = s.sends := by cases n <;> rfl
@[simp] theorem State.retire_walks (s : State) (n : Next) : (s.retire n).walks = s.walks := by cases n <;> rfl
@[simp] theorem State.retire_flits (s : State) (n : Next) : (s.retire n).flits = s.flits := by cases n <;> rfl
@[simp] theorem State.retire_forwards (s : State) (n : Next) : (s.retire n).forwards = s.forwards := by cases n <;> rfl
@[simp] theorem State.retire_remoteDrops (s : State) (n : Next) : (s.retire n).remoteDrops = s.remoteDrops := by cases n <;> rfl
@[simp] theorem State.retire_demands (s : State) (n : Next) : (s.retire n).demands = s.demands := by cases n <;> rfl
@[simp] theorem State.retire_arrears (s : State) (n : Next) : (s.retire n).arrears = s.arrears := by cases n <;> rfl
@[simp] theorem State.retire_exits (s : State) (n : Next) : (s.retire n).exits = s.exits := by cases n <;> rfl
@[simp] theorem State.retire_removals (s : State) (n : Next) : (s.retire n).removals = s.removals := by cases n <;> rfl
@[simp] theorem State.retire_encl (s : State) (n : Next) : (s.retire n).encl = s.encl := by cases n <;> rfl
@[simp] theorem State.retire_enstk (s : State) (n : Next) : (s.retire n).enstk = s.enstk := by cases n <;> rfl
@[simp] theorem State.retire_ready (s : State) (n : Next) : (s.retire n).ready = s.ready := by cases n <;> rfl
@[simp] theorem State.retire_cworld (s : State) (n : Next) : (s.retire n).cworld = s.cworld := by cases n <;> rfl
@[simp] theorem State.retire_csworld (s : State) (n : Next) : (s.retire n).csworld = s.csworld := by cases n <;> rfl
@[simp] theorem State.retire_regions (s : State) (n : Next) : (s.retire n).regions = s.regions := by cases n <;> rfl
@[simp] theorem State.retire_assay (s : State) (n : Next) : (s.retire n).assay = s.assay := by cases n <;> rfl
@[simp] theorem State.retire_peers (s : State) (n : Next) : (s.retire n).peers = s.peers := by cases n <;> rfl
@[simp] theorem State.retire_lbtol (s : State) (n : Next) : (s.retire n).lbtol = s.lbtol := by cases n <;> rfl
@[simp] theorem State.retire_sharedWrites (s : State) (n : Next) : (s.retire n).sharedWrites = s.sharedWrites := by cases n <;> rfl
@[simp] theorem State.retire_hcsize (s : State) (n : Next) : (s.retire n).hcsize = s.hcsize := by cases n <;> rfl
@[simp] theorem State.retire_linkup (s : State) (n : Next) : (s.retire n).linkup = s.linkup := by cases n <;> rfl
@[simp] theorem State.retire_nodeid (s : State) (n : Next) : (s.retire n).nodeid = s.nodeid := by cases n <;> rfl
@[simp] theorem State.retire_pxlost (s : State) (n : Next) : (s.retire n).pxlost = s.pxlost := by cases n <;> rfl
@[simp] theorem State.retire_pxref (s : State) (n : Next) : (s.retire n).pxref = s.pxref := by cases n <;> rfl
@[simp] theorem State.retire_linkSeq (s : State) (n : Next) : (s.retire n).linkSeq = s.linkSeq := by cases n <;> rfl
@[simp] theorem State.retire_time (s : State) (n : Next) : (s.retire n).time = s.time := by cases n <;> rfl
@[simp] theorem State.retire_slew (s : State) (n : Next) : (s.retire n).slew = s.slew := by cases n <;> rfl
@[simp] theorem State.retire_timeStepped (s : State) (n : Next) : (s.retire n).timeStepped = s.timeStepped := by cases n <;> rfl
@[simp] theorem State.retire_ptpLocked (s : State) (n : Next) : (s.retire n).ptpLocked = s.ptpLocked := by cases n <;> rfl
@[simp] theorem State.retire_plimit (s : State) (n : Next) : (s.retire n).plimit = s.plimit := by cases n <;> rfl
@[simp] theorem State.retire_tripped (s : State) (n : Next) : (s.retire n).tripped = s.tripped := by cases n <;> rfl
@[simp] theorem State.retire_throttled (s : State) (n : Next) : (s.retire n).throttled = s.throttled := by cases n <;> rfl
@[simp] theorem State.retire_thhist (s : State) (n : Next) : (s.retire n).thhist = s.thhist := by cases n <;> rfl
@[simp] theorem State.retire_sensors (s : State) (n : Next) : (s.retire n).sensors = s.sensors := by cases n <;> rfl
@[simp] theorem State.retire_flowLow (s : State) (n : Next) : (s.retire n).flowLow = s.flowLow := by cases n <;> rfl
@[simp] theorem State.retire_dark (s : State) (n : Next) : (s.retire n).dark = s.dark := by cases n <;> rfl
@[simp] theorem State.retire_dumps (s : State) (n : Next) : (s.retire n).dumps = s.dumps := by cases n <;> rfl
@[simp] theorem State.retire_clock (s : State) (n : Next) : (s.retire n).clock = s.clock := by cases n <;> rfl
@[simp] theorem State.retire_advanced (s : State) (n : Next) : (s.retire n).advanced = s.advanced := by cases n <;> rfl
@[simp] theorem State.retire_floored (s : State) (n : Next) : (s.retire n).floored = s.floored := by cases n <;> rfl
@[simp] theorem State.retire_swept (s : State) (n : Next) : (s.retire n).swept = s.swept := by cases n <;> rfl
@[simp] theorem State.retire_front (s : State) (n : Next) : (s.retire n).front = s.front := by cases n <;> rfl
@[simp] theorem State.retire_high (s : State) (n : Next) : (s.retire n).high = s.high := by cases n <;> rfl
@[simp] theorem State.retire_floor (s : State) (n : Next) : (s.retire n).floor = s.floor := by cases n <;> rfl
@[simp] theorem State.retire_softErrors (s : State) (n : Next) : (s.retire n).softErrors = s.softErrors := by cases n <;> rfl
@[simp] theorem State.retire_admissions (s : State) (n : Next) : (s.retire n).admissions = s.admissions := by cases n <;> rfl
@[simp] theorem State.retire_out (s : State) (n : Next) : (s.retire n).out = s.out := by cases n <;> rfl
@[simp] theorem State.retire_agenda (s : State) (n : Next) : (s.retire n).agenda = s.agenda := by cases n <;> rfl
@[simp] theorem State.retire_active (s : State) (n : Next) : (s.retire n).active = s.active := by cases n <;> rfl
@[simp] theorem State.retire_choices (s : State) (n : Next) : (s.retire n).choices = s.choices := by cases n <;> rfl

/-! ## Contexts -/

theorem ctxKey_inj {a b : CtxId} (h : ctxKey a = ctxKey b) : a = b := by
  obtain ⟨ac, ax⟩ := a
  obtain ⟨bc, bx⟩ := b
  simp only [ctxKey] at h
  have h1 := ax.isLt
  have h2 := bx.isLt
  simp only [CtxId.mk.injEq, BitVec.toNat_eq]
  omega

@[simp] theorem State.ctx_setCtx_self (s : State) (c : CtxId) (k : Context) : (s.setCtx c k).ctx c = k := by
  simp [State.ctx, State.setCtx, SMap.at]
theorem State.ctx_setCtx_ne (s : State) {c c' : CtxId} (k : Context) (h : c' ≠ c) :
    (s.setCtx c k).ctx c' = s.ctx c' := by
  have : ctxKey c' ≠ ctxKey c := fun e => h (ctxKey_inj e)
  simp [State.ctx, State.setCtx, SMap.at_put_ne _ _ _ this]
@[simp] theorem State.ctx_mapCtx_self (s : State) (c : CtxId) (f : Context → Context) :
    (s.mapCtx c f).ctx c = f (s.ctx c) := by simp [State.mapCtx]
theorem State.ctx_mapCtx_ne (s : State) {c c' : CtxId} (f : Context → Context) (h : c' ≠ c) :
    (s.mapCtx c f).ctx c' = s.ctx c' := State.ctx_setCtx_ne s _ h

@[simp] theorem State.mapCtx_active (s : State) (c : CtxId) (f : Context → Context) : (s.mapCtx c f).active = s.active := rfl
@[simp] theorem State.me_mapMe (s : State) (f : Context → Context) : (s.mapMe f).me = f s.me := by
  simp [State.me, State.mapMe]
theorem State.ctx_mapMe_ne (s : State) {c : CtxId} (f : Context → Context) (h : c ≠ s.active) :
    (s.mapMe f).ctx c = s.ctx c := State.ctx_mapCtx_ne s f h

/-- Two changes of the active context are one. -/
theorem SMap.put_put {α : Type} (m : SMap α) (k : Nat) (v w : α) : SMap.put (SMap.put m k v) k w = SMap.put m k w := by
  induction m with
  | nil => simp [SMap.put]
  | cons e r ih =>
    obtain ⟨j, u⟩ := e
    by_cases h1 : k < j
    · simp [SMap.put, h1]
    · by_cases h2 : k = j
      · subst h2; simp [SMap.put]
      · simp [SMap.put, h1, h2, ih]

theorem State.setCtx_setCtx (s : State) (c : CtxId) (k k' : Context) : (s.setCtx c k).setCtx c k' = s.setCtx c k' := by
  simp [State.setCtx, SMap.put_put]

theorem State.mapMe_mapMe (s : State) (f g : Context → Context) : (s.mapMe f).mapMe g = s.mapMe (g ∘ f) := by
  simp only [State.mapMe, State.mapCtx, State.setCtx_active, State.ctx_setCtx_self, State.setCtx_setCtx]
  rfl

/-! ## Units -/

@[simp] theorem State.core_setCore_self (s : State) (c : Nat) (k : Core) : (s.setCore c k).core c = k := by
  simp [State.core, State.setCore]
theorem State.core_setCore_ne (s : State) {c c' : Nat} (k : Core) (h : c' ≠ c) :
    (s.setCore c k).core c' = s.core c' := by simp [State.core, State.setCore, SMap.at_put_ne _ _ _ h]
@[simp] theorem State.cluster_setCluster_self (s : State) (p : Nat) (k : Cluster) :
    (s.setCluster p k).cluster p = k := by simp [State.cluster, State.setCluster]
theorem State.cluster_setCluster_ne (s : State) {p p' : Nat} (k : Cluster) (h : p' ≠ p) :
    (s.setCluster p k).cluster p' = s.cluster p' := by
  simp [State.cluster, State.setCluster, SMap.at_put_ne _ _ _ h]
@[simp] theorem State.queue_setQueue_self (s : State) (q : BitVec 6) (k : Queue) : (s.setQueue q k).queue q = k := by
  simp [State.queue, State.setQueue]
theorem State.queue_setQueue_ne (s : State) {q q' : BitVec 6} (k : Queue) (h : q' ≠ q) :
    (s.setQueue q k).queue q' = s.queue q' := by
  have : q'.toNat ≠ q.toNat := fun e => h (BitVec.eq_of_toNat_eq e)
  simp [State.queue, State.setQueue, SMap.at_put_ne _ _ _ this]

/-! ## Registers -/

@[simp] theorem State.x_zero (s : State) : s.x 0 = 0 := rfl
@[simp] theorem State.setX_zero (s : State) (w : Word) : s.setX 0 w = s := rfl

theorem State.setX_of_ne (s : State) {r : XReg} (w : Word) (h : r ≠ 0) :
    s.setX r w = s.mapMe fun k => { k with regs := { k.regs with x := k.regs.x.set r.toNat w } } := if_neg h

/-- What a write of x[r] leaves in the registers of the active context. -/
theorem State.me_setX (s : State) (r : XReg) (w : Word) :
    (s.setX r w).me = { s.me with regs := { s.me.regs with
      x := if r = 0 then s.me.regs.x else s.me.regs.x.set r.toNat w } } := by
  unfold State.setX
  split_ifs with h <;> simp

theorem State.ctx_setX_ne (s : State) (r : XReg) (w : Word) {c : CtxId} (h : c ≠ s.active) :
    (s.setX r w).ctx c = s.ctx c := by
  unfold State.setX
  split_ifs
  · rfl
  · exact State.ctx_mapMe_ne s _ h

@[simp] theorem State.me_setV (s : State) (r : VReg) (w : Vec) :
    (s.setV r w).me = { s.me with regs := { s.me.regs with v := s.me.regs.v.set r.toNat w } } := by simp [State.setV]
@[simp] theorem State.me_setM (s : State) (r : MReg) (w : Mask) :
    (s.setM r w).me = { s.me with regs := { s.me.regs with m := s.me.regs.m.set r.toNat w } } := by simp [State.setM]
@[simp] theorem State.me_setT (s : State) (r : TReg) (w : Tile) :
    (s.setT r w).me = { s.me with regs := { s.me.regs with t := s.me.regs.t.set r.toNat w } } := by simp [State.setT]
@[simp] theorem State.me_addFlags (s : State) (f : Flags) :
    (s.addFlags f).me = { s.me with fflags := s.me.fflags ||| f } := by simp [State.addFlags]

/-! ## Retirement -/

/-- The active context after an instruction that goes on. -/
theorem State.me_retire_seq (s : State) :
    (s.retire .seq).me = { s.me with
      run := .running, pc := pcSucc s.me.pc, entry := .plain, wait := .none, grant := .none, hostAnswers := []
      gathered := none, refetched := [], latched := none, forwarded := false, last := .done
      trap := { s.me.trap with
        run := (s.me.trap.run.bind fun f => if f.epc = s.me.pc then none else some f), resumed := false } } := by
  unfold State.retire
  rw [State.me_mapMe]
  cases h : s.me.trap.run <;> simp [h]

theorem State.me_retire_go (s : State) (pc : Word) (e : Entry) :
    (s.retire (.go pc e)).me = { s.me with
      run := .running, pc := pc, entry := e, wait := .none, grant := .none, hostAnswers := []
      gathered := none, refetched := [], latched := none, forwarded := false, last := .done
      trap := { s.me.trap with
        run := (s.me.trap.run.bind fun f => if f.epc = s.me.pc then none else some f), resumed := false } } := by
  unfold State.retire
  rw [State.me_mapMe]
  cases h : s.me.trap.run <;> simp [h]

@[simp] theorem State.retire_stay (s : State) : s.retire .stay = s := rfl

theorem State.ctx_retire_ne (s : State) (n : Next) {c : CtxId} (h : c ≠ s.active) :
    (s.retire n).ctx c = s.ctx c := by
  cases n <;> first | rfl | exact State.ctx_mapMe_ne s _ h

end Sys2Proof.Machine
end

