-- ==== Sys2Proof/Laws/Perform.lean ====
section
/-! SUPPORT. How instructions and steps end: one lemma for each way. -/

namespace Sys2Proof.Machine

/-! ## Effects -/

@[simp] theorem Eff.run_pure {α : Type} (a : α) (s : State) : (pure a : Eff α).run s = .ok a s := rfl
@[simp] theorem Eff.run_get (s : State) : (get : Eff State).run s = .ok s s := rfl
@[simp] theorem Eff.run_set (s t : State) : (set t : Eff PUnit).run s = .ok ⟨⟩ t := rfl
@[simp] theorem Eff.run_modify (f : State → State) (s : State) : (modify f : Eff PUnit).run s = .ok ⟨⟩ (f s) := rfl
@[simp] theorem Eff.run_fail {α : Type} (c : Cause) (fa : Word) (ac : BitVec 4) (de : BitVec 4) (s : State) :
    (fail c fa ac de : Eff α).run s = .error (.trap { cause := c, faddr := fa, acc := ac, detail := de }) s := rfl
@[simp] theorem Eff.run_trapWith {α : Type} (t : Trap) (s : State) :
    (trapWith t : Eff α).run s = .error (.trap t) s := rfl
@[simp] theorem Eff.run_waitFor {α : Type} (w : Wait) (s : State) :
    (waitFor w : Eff α).run s = .error (.wait w) s := rfl
@[simp] theorem Eff.run_throw {α : Type} (e : Stop) (s : State) : (throw e : Eff α).run s = .error e s := rfl

/-- An effect and then another. -/
theorem Eff.run_bind {α β : Type} (e : Eff α) (f : α → Eff β) (s : State) :
    (e >>= f).run s = match e.run s with
      | .ok a s' => (f a).run s'
      | .error x s' => .error x s' := by
  simp only [bind, EStateM.bind, EStateM.run]
  cases e s <;> rfl

theorem Eff.run_bind_ok {α β : Type} {e : Eff α} {f : α → Eff β} {s s' : State} {a : α} (h : e.run s = .ok a s') :
    (e >>= f).run s = (f a).run s' := by rw [Eff.run_bind, h]

theorem Eff.run_bind_error {α β : Type} {e : Eff α} {f : α → Eff β} {s s' : State} {x : Stop}
    (h : e.run s = .error x s') : (e >>= f).run s = .error x s' := by rw [Eff.run_bind, h]

theorem Eff.run_map {α β : Type} (e : Eff α) (f : α → β) (s : State) :
    (f <$> e).run s = match e.run s with
      | .ok a s' => .ok (f a) s'
      | .error x s' => .error x s' := by
  simp only [Functor.map, EStateM.map, EStateM.run]
  cases e s <;> rfl

@[simp] theorem Eff.run_ite {α : Type} (c : Prop) [Decidable c] (e f : Eff α) (s : State) :
    (if c then e else f).run s = if c then e.run s else f.run s := by split <;> rfl

/-! ## FLOOR -/

theorem State.withinFloor_congr {s t : State} (h : t.high = s.high) (f : t.floor = s.floor) :
    t.withinFloor = s.withinFloor := by simp [State.withinFloor, h, f]

/-- An effect that keeps HIGH and FLOOR is never held back by FLOOR. -/
theorem State.floor_ok {s t : State} (h : t.high = s.high) (f : t.floor = s.floor) :
    (t.withinFloor || !s.withinFloor) = true := by rw [State.withinFloor_congr h f]; simp

/-! ## Instructions -/

/-- An instruction that completes within FLOOR. -/
theorem perform_ok {e : Eff Next} {s t : State} {n : Next} (h : e.run s = .ok n t)
    (hf : (t.withinFloor || !s.withinFloor) = true) : perform e s = .next (t.retire n) := by
  simp only [perform, h, State.floorHolds, hf, if_true]

/-- An instruction that completes and would assign a timestamp beyond FLOOR + 2^17 waits for the next FLOOR (R282). -/
theorem perform_floor {e : Eff Next} {s t : State} {n : Next} (h : e.run s = .ok n t)
    (hf : (t.withinFloor || !s.withinFloor) = false) :
    perform e s = .next s.stall := by
  simp [perform, h, State.floorHolds, hf]

/-- An instruction that faults has no effect of its own (R368). -/
theorem perform_trap {e : Eff Next} {s s' : State} {t : Trap} (h : e.run s = .error (.trap t) s') :
    perform e s = .next (s.raise s.active t) := by simp only [perform, h]

/-- An instruction that waits leaves its requests standing. -/
theorem perform_wait {e : Eff Next} {s s' : State} {w : Wait} (h : e.run s = .error (.wait w) s')
    (hf : (s'.withinFloor || !s.withinFloor) = true) :
    perform e s = .next (s'.mapMe fun k => { k with run := .waiting, wait := w, last := .waited }) := by
  simp only [perform, h, State.floorHolds, hf, if_true]

@[simp] theorem doing_run (f : State → State) (s : State) : (doing f).run s = .ok .seq (f s) := rfl

@[simp] theorem under_run (p : Pred) (e : Eff Next) (s : State) :
    (under p e).run s = if s.holds p then e.run s else .ok .seq s := by
  simp only [under, Eff.run_bind, Eff.run_get]
  split <;> rfl

@[simp] theorem noSettlement_run (fa : Word) (s : State) :
    (noSettlement fa).run s =
      if s.me.inSettlement then .error (.trap { cause := .phase, faddr := fa }) s else .ok ⟨⟩ s := by
  simp only [noSettlement, Eff.run_bind, Eff.run_get]
  split <;> rfl

@[simp] theorem replied_run (s : State) :
    replied.run s = if s.me.reply.isSome then .error (.wait .access) s else .ok ⟨⟩ s := by
  simp only [replied, Eff.run_bind, Eff.run_get]
  split <;> rfl

/-- A plain instruction whose predicate fails only moves on. -/
theorem plain_false {p : Pred} {e : Eff Next} {s : State} (h : s.holds p = false) :
    plain p e s = .next (s.retire .seq) :=
  perform_ok (t := s) (n := .seq) (by simp [h]) (by simp)

/-- A plain instruction whose predicate holds. -/
theorem plain_true {p : Pred} {e : Eff Next} {s t : State} {n : Next} (h : s.holds p = true) (he : e.run s = .ok n t)
    (hf : (t.withinFloor || !s.withinFloor) = true) : plain p e s = .next (t.retire n) :=
  perform_ok (by simp [h, he]) hf

/-- A plain instruction that changes registers alone. -/
theorem plain_doing {p : Pred} {f : State → State} {s : State} (hh : (f s).high = s.high)
    (hf : (f s).floor = s.floor) :
    plain p (doing f) s = .next ((if s.holds p then f s else s).retire .seq) := by
  by_cases h : s.holds p
  · rw [plain_true h (doing_run f s) (State.floor_ok hh hf), if_pos h]
  · rw [plain_false (by simpa using h), if_neg h]

/-- A guarded instruction outside settlement, with no reply on its way. -/
theorem guarded_ready {p : Pred} {e : Eff Next} {s : State} (hs : s.me.inSettlement = false)
    (hr : s.me.reply = none) : guarded p e s = plain p e s := by
  have : (do noSettlement; replied; under p e : Eff Next).run s = (under p e).run s := by
    simp [hs, hr]
  simp only [guarded, plain, perform, this]

theorem guardedV_ready {e : Eff Next} {s : State} (hs : s.me.inSettlement = false)
    (hr : s.me.reply = none) : guardedV e s = perform e s := by
  have : (do noSettlement; replied; e : Eff Next).run s = e.run s := by simp [hs, hr]
  simp only [guardedV, perform, this]

/-- A guarded instruction in a settlement phase raises PHASE, whatever its predicate (R320). -/
theorem guarded_phase {p : Pred} {e : Eff Next} {s : State} (hs : s.me.inSettlement = true) :
    guarded p e s = .next (s.raise s.active { cause := .phase }) :=
  perform_trap (s' := s) (by simp [hs])

theorem guardedV_phase {e : Eff Next} {s : State} (hs : s.me.inSettlement = true) :
    guardedV e s = .next (s.raise s.active { cause := .phase }) :=
  perform_trap (s' := s) (by simp [hs])

/-- While the last access's timestamp is on its way, an instruction of class L or X waits (R277). -/
theorem guarded_unreplied {p : Pred} {e : Eff Next} {s : State} (hs : s.me.inSettlement = false)
    (hr : s.me.reply.isSome) :
    guarded p e s = .next (s.mapMe fun k => { k with run := .waiting, wait := .access, last := .waited }) :=
  perform_wait (s' := s) (by simp [hs, hr]) (by simp)

/-! ## Steps of the part -/

/-- A step of the part that comes about within FLOOR. -/
theorem happen_ok {e : Eff Unit} {s t : State} (h : e.run s = .ok ⟨⟩ t)
    (hf : (t.withinFloor || !s.withinFloor) = true) : happen e s = .next t := by
  simp only [happen, h, State.floorHolds, hf, if_true]

theorem happen_floor {e : Eff Unit} {s t : State} (h : e.run s = .ok ⟨⟩ t)
    (hf : (t.withinFloor || !s.withinFloor) = false) : happen e s = .next s := by
  simp [happen, h, State.floorHolds, hf]

/-- A step of the part that is a change of the state. -/
theorem happen_modify {f : State → State} {s : State} (hf : ((f s).withinFloor || !s.withinFloor) = true) :
    happen (modify f) s = .next (f s) := happen_ok (by simp) hf

end Sys2Proof.Machine
end

