-- ==== Sys2Proof/Laws/Frame.lean ====
section
/-! SUPPORT. The frame of each write of a register: what it leaves as it was. -/

namespace Sys2Proof.Machine

/-- A byte depends on the memories and on the lines that hold it, not on any context. -/
theorem State.peekByte_of_part {s t : State} (h : t = { s with contexts := t.contexts }) (p : Place) :
    t.peekByte p = s.peekByte p := by
  rw [h]
  cases p <;> rfl

theorem State.RegisterFrame.active_eq {s t : State} {xs vs ms ts fl} (h : s.RegisterFrame t xs vs ms ts fl) :
    t.active = s.active := by
  have := congrArg State.active h.part
  exact this

theorem Context.KeepsRegisters.refl (k : Context) (xs vs ms ts) : k.KeepsRegisters k xs vs ms ts :=
  ⟨fun _ _ => rfl, fun _ _ => rfl, fun _ _ => rfl, fun _ _ => rfl⟩

theorem Context.KeepsRegisters.of_regs {k k' : Context} (h : k'.regs = k.regs) (xs vs ms ts) :
    k.KeepsRegisters k' xs vs ms ts := by
  constructor <;> intro r _ <;> rw [h]

theorem State.RegisterFrame.refl (s : State) (xs vs ms ts) (fl : Bool) : s.RegisterFrame s xs vs ms ts fl :=
  ⟨rfl, fun _ _ => rfl, fun _ => rfl, .refl _ _ _ _ _, fun _ => rfl, rfl, rfl, rfl⟩

/-- Two changes of registers, one after the other. -/
theorem State.RegisterFrame.trans {s t u : State} {xs vs ms ts} {fl : Bool} (h : s.RegisterFrame t xs vs ms ts fl)
    (g : t.RegisterFrame u xs vs ms ts fl) : s.RegisterFrame u xs vs ms ts fl := by
  have ha := h.active_eq
  refine ⟨?_, fun c hc => ?_, fun p => (g.bytes p).trans (h.bytes p), ?_, fun e => (g.fflags e).trans (h.fflags e),
    g.specials.trans h.specials, g.pts.trans h.pts, g.counters.trans h.counters⟩
  · rw [g.part, h.part]
  · rw [g.others c (by rwa [ha]), h.others c hc]
  · exact ⟨fun r hr => (g.registers.x r hr).trans (h.registers.x r hr),
      fun r hr => (g.registers.v r hr).trans (h.registers.v r hr),
      fun r hr => (g.registers.m r hr).trans (h.registers.m r hr),
      fun r hr => (g.registers.t r hr).trans (h.registers.t r hr)⟩

/-- A change of the active context that keeps what a frame names. -/
theorem State.frame_mapMe {s : State} {f : Context → Context} {xs vs ms ts} {fl : Bool}
    (hr : s.me.KeepsRegisters (f s.me) xs vs ms ts) (hf : fl = false → (f s.me).fflags = s.me.fflags)
    (hs : (f s.me).specials = s.me.specials) (hp : (f s.me).pts = s.me.pts)
    (hc : ((f s.me).thunks, (f s.me).dout, (f s.me).sout) = (s.me.thunks, s.me.dout, s.me.sout)) :
    s.RegisterFrame (s.mapMe f) xs vs ms ts fl := by
  have hpart : s.mapMe f = { s with contexts := (s.mapMe f).contexts } := rfl
  refine ⟨hpart, fun c h => State.ctx_mapMe_ne s f h, fun p => State.peekByte_of_part hpart p, ?_, fun e => ?_, ?_, ?_, ?_⟩
  all_goals rw [State.me_mapMe]
  exacts [hr, hf e, hs, hp, hc]

theorem State.frame_setX (s : State) (d : XReg) (w : Word) (vs ms ts) (fl : Bool) :
    s.RegisterFrame (s.setX d w) (if d = 0 then [] else [d]) vs ms ts fl := by
  by_cases h : d = 0
  · subst h
    exact .refl _ _ _ _ _ _
  · rw [State.setX_of_ne s w h, if_neg h]
    refine State.frame_mapMe ⟨fun r hr => ?_, fun _ _ => rfl, fun _ _ => rfl, fun _ _ => rfl⟩ (fun _ => rfl) rfl rfl rfl
    exact Vector.getElem_set_ne d.isLt r.isLt fun e => hr (by simp [BitVec.eq_of_toNat_eq e])

theorem State.frame_setV (s : State) (d : VReg) (w : Vec) (xs ms ts) (fl : Bool) :
    s.RegisterFrame (s.setV d w) xs [d] ms ts fl := by
  refine State.frame_mapMe ⟨fun _ _ => rfl, fun r hr => ?_, fun _ _ => rfl, fun _ _ => rfl⟩ (fun _ => rfl) rfl rfl rfl
  exact Vector.getElem_set_ne d.isLt r.isLt fun e => hr (by simp [BitVec.eq_of_toNat_eq e])

theorem State.frame_setM (s : State) (d : MReg) (w : Mask) (xs vs ts) (fl : Bool) :
    s.RegisterFrame (s.setM d w) xs vs [d] ts fl := by
  refine State.frame_mapMe ⟨fun _ _ => rfl, fun _ _ => rfl, fun r hr => ?_, fun _ _ => rfl⟩ (fun _ => rfl) rfl rfl rfl
  exact Vector.getElem_set_ne d.isLt r.isLt fun e => hr (by simp [BitVec.eq_of_toNat_eq e])

theorem State.frame_setT (s : State) (d : TReg) (w : Tile) (xs vs ms) (fl : Bool) :
    s.RegisterFrame (s.setT d w) xs vs ms [d] fl := by
  refine State.frame_mapMe ⟨fun _ _ => rfl, fun _ _ => rfl, fun _ _ => rfl, fun r hr => ?_⟩ (fun _ => rfl) rfl rfl rfl
  exact Vector.getElem_set_ne d.isLt r.isLt fun e => hr (by simp [BitVec.eq_of_toNat_eq e])

theorem State.frame_addFlags (s : State) (f : Flags) (xs vs ms ts) :
    s.RegisterFrame (s.addFlags f) xs vs ms ts true :=
  State.frame_mapMe (.of_regs (by rfl) _ _ _ _) (fun e => by cases e) rfl rfl rfl

theorem State.frame_retire (s : State) (n : Next) (xs vs ms ts) (fl : Bool) :
    s.RegisterFrame (s.retire n) xs vs ms ts fl := by
  cases n <;> first
    | exact .refl _ _ _ _ _ _
    | exact State.frame_mapMe (.of_regs (by rfl) _ _ _ _) (fun _ => rfl) rfl rfl rfl

end Sys2Proof.Machine
end

