-- ==== Sys2Proof/Laws/PerInstr.lean ====
section
/-! SUPPORT. Decoding undoes encoding, an instruction at a time (R116 to R125). -/

namespace Sys2Proof.Laws.RoundTrip

set_option Elab.async false
set_option linter.unusedSimpArgs false

/-- A well-formed instruction is what its own slot decodes to. -/
def Statement (i : Instr) : Prop := i.wf = true → ∀ w, encode i = some w → decodeSlot w = .ok i

theorem nop (p : Pred) : Statement (.nop p) := by
  intro h w e
  cases e
  rw [decodeSlot_nop]
  simp_all [decNone, Instr.wf, Raw.hi3, Raw.view, Raw.bit0, Raw.bit1, modM_eq, Raw.needZeroBCMI]

theorem add (p : Pred) (d : XReg) (a : XReg) (b : XReg) : Statement (.add p d a b) := by
  intro h w e
  cases e
  rw [encR, decodeSlot_01]
  simp_all [decMajor01, Instr.wf, Raw.hi3, Raw.view, Raw.bit0, Raw.bit1, modM_eq, decRegForm]

theorem sub (p : Pred) (d : XReg) (a : XReg) (b : XReg) : Statement (.sub p d a b) := by
  intro h w e
  cases e
  rw [encR, decodeSlot_01]
  simp_all [decMajor01, Instr.wf, Raw.hi3, Raw.view, Raw.bit0, Raw.bit1, modM_eq, decRegForm]

theorem and (p : Pred) (d : XReg) (a : XReg) (b : XReg) : Statement (.and p d a b) := by
  intro h w e
  cases e
  rw [encR, decodeSlot_01]
  simp_all [decMajor01, Instr.wf, Raw.hi3, Raw.view, Raw.bit0, Raw.bit1, modM_eq, decRegForm]

theorem or (p : Pred) (d : XReg) (a : XReg) (b : XReg) : Statement (.or p d a b) := by
  intro h w e
  cases e
  rw [encR, decodeSlot_01]
  simp_all [decMajor01, Instr.wf, Raw.hi3, Raw.view, Raw.bit0, Raw.bit1, modM_eq, decRegForm]

theorem xor (p : Pred) (d : XReg) (a : XReg) (b : XReg) : Statement (.xor p d a b) := by
  intro h w e
  cases e
  rw [encR, decodeSlot_01]
  simp_all [decMajor01, Instr.wf, Raw.hi3, Raw.view, Raw.bit0, Raw.bit1, modM_eq, decRegForm]

theorem andn (p : Pred) (d : XReg) (a : XReg) (b : XReg) : Statement (.andn p d a b) := by
  intro h w e
  cases e
  rw [encR, decodeSlot_01]
  simp_all [decMajor01, Instr.wf, Raw.hi3, Raw.view, Raw.bit0, Raw.bit1, modM_eq, decRegForm]

theorem shl (p : Pred) (d : XReg) (a : XReg) (b : XReg) : Statement (.shl p d a b) := by
  intro h w e
  cases e
  rw [encR, decodeSlot_01]
  simp_all [decMajor01, Instr.wf, Raw.hi3, Raw.view, Raw.bit0, Raw.bit1, modM_eq, decRegForm]

theorem shr (p : Pred) (d : XReg) (a : XReg) (b : XReg) : Statement (.shr p d a b) := by
  intro h w e
  cases e
  rw [encR, decodeSlot_01]
  simp_all [decMajor01, Instr.wf, Raw.hi3, Raw.view, Raw.bit0, Raw.bit1, modM_eq, decRegForm]

theorem sha (p : Pred) (d : XReg) (a : XReg) (b : XReg) : Statement (.sha p d a b) := by
  intro h w e
  cases e
  rw [encR, decodeSlot_01]
  simp_all [decMajor01, Instr.wf, Raw.hi3, Raw.view, Raw.bit0, Raw.bit1, modM_eq, decRegForm]

theorem rotl (p : Pred) (d : XReg) (a : XReg) (b : XReg) : Statement (.rotl p d a b) := by
  intro h w e
  cases e
  rw [encR, decodeSlot_01]
  simp_all [decMajor01, Instr.wf, Raw.hi3, Raw.view, Raw.bit0, Raw.bit1, modM_eq, decRegForm]

theorem min (p : Pred) (d : XReg) (a : XReg) (b : XReg) : Statement (.min p d a b) := by
  intro h w e
  cases e
  rw [encR, decodeSlot_01]
  simp_all [decMajor01, Instr.wf, Raw.hi3, Raw.view, Raw.bit0, Raw.bit1, modM_eq, decRegForm]

theorem max (p : Pred) (d : XReg) (a : XReg) (b : XReg) : Statement (.max p d a b) := by
  intro h w e
  cases e
  rw [encR, decodeSlot_01]
  simp_all [decMajor01, Instr.wf, Raw.hi3, Raw.view, Raw.bit0, Raw.bit1, modM_eq, decRegForm]

theorem minu (p : Pred) (d : XReg) (a : XReg) (b : XReg) : Statement (.minu p d a b) := by
  intro h w e
  cases e
  rw [encR, decodeSlot_01]
  simp_all [decMajor01, Instr.wf, Raw.hi3, Raw.view, Raw.bit0, Raw.bit1, modM_eq, decRegForm]

theorem maxu (p : Pred) (d : XReg) (a : XReg) (b : XReg) : Statement (.maxu p d a b) := by
  intro h w e
  cases e
  rw [encR, decodeSlot_01]
  simp_all [decMajor01, Instr.wf, Raw.hi3, Raw.view, Raw.bit0, Raw.bit1, modM_eq, decRegForm]

theorem addi (p : Pred) (d : XReg) (a : XReg) (imm : Imm48) : Statement (.addi p d a imm) := by
  intro h w e
  cases e
  rw [encI, decodeSlot_02]
  simp_all [decMajor02, Instr.wf, Raw.hi3, Raw.view, Raw.bit0, Raw.bit1, modM_eq, decImmForm, decShiftForm]

theorem subImm (p : Pred) (d : XReg) (a : XReg) (imm : Imm48) : Statement (.subImm p d a imm) := by
  intro h w e
  cases e
  rw [encI, decodeSlot_02]
  simp_all [decMajor02, Instr.wf, Raw.hi3, Raw.view, Raw.bit0, Raw.bit1, modM_eq, decImmForm, decShiftForm]

theorem andImm (p : Pred) (d : XReg) (a : XReg) (imm : Imm48) : Statement (.andImm p d a imm) := by
  intro h w e
  cases e
  rw [encI, decodeSlot_02]
  simp_all [decMajor02, Instr.wf, Raw.hi3, Raw.view, Raw.bit0, Raw.bit1, modM_eq, decImmForm, decShiftForm]

theorem orImm (p : Pred) (d : XReg) (a : XReg) (imm : Imm48) : Statement (.orImm p d a imm) := by
  intro h w e
  cases e
  rw [encI, decodeSlot_02]
  simp_all [decMajor02, Instr.wf, Raw.hi3, Raw.view, Raw.bit0, Raw.bit1, modM_eq, decImmForm, decShiftForm]

theorem xorImm (p : Pred) (d : XReg) (a : XReg) (imm : Imm48) : Statement (.xorImm p d a imm) := by
  intro h w e
  cases e
  rw [encI, decodeSlot_02]
  simp_all [decMajor02, Instr.wf, Raw.hi3, Raw.view, Raw.bit0, Raw.bit1, modM_eq, decImmForm, decShiftForm]

theorem andnImm (p : Pred) (d : XReg) (a : XReg) (imm : Imm48) : Statement (.andnImm p d a imm) := by
  intro h w e
  cases e
  rw [encI, decodeSlot_02]
  simp_all [decMajor02, Instr.wf, Raw.hi3, Raw.view, Raw.bit0, Raw.bit1, modM_eq, decImmForm, decShiftForm]

theorem shlImm (p : Pred) (d : XReg) (a : XReg) (n : BitVec 6) : Statement (.shlImm p d a n) := by
  intro h w e
  cases e
  rw [encI, decodeSlot_02]
  simp_all [decMajor02, Instr.wf, Raw.hi3, Raw.view, Raw.bit0, Raw.bit1, modM_eq, decImmForm, decShiftForm]

theorem shrImm (p : Pred) (d : XReg) (a : XReg) (n : BitVec 6) : Statement (.shrImm p d a n) := by
  intro h w e
  cases e
  rw [encI, decodeSlot_02]
  simp_all [decMajor02, Instr.wf, Raw.hi3, Raw.view, Raw.bit0, Raw.bit1, modM_eq, decImmForm, decShiftForm]

theorem shaImm (p : Pred) (d : XReg) (a : XReg) (n : BitVec 6) : Statement (.shaImm p d a n) := by
  intro h w e
  cases e
  rw [encI, decodeSlot_02]
  simp_all [decMajor02, Instr.wf, Raw.hi3, Raw.view, Raw.bit0, Raw.bit1, modM_eq, decImmForm, decShiftForm]

theorem rotlImm (p : Pred) (d : XReg) (a : XReg) (n : BitVec 6) : Statement (.rotlImm p d a n) := by
  intro h w e
  cases e
  rw [encI, decodeSlot_02]
  simp_all [decMajor02, Instr.wf, Raw.hi3, Raw.view, Raw.bit0, Raw.bit1, modM_eq, decImmForm, decShiftForm]

theorem minImm (p : Pred) (d : XReg) (a : XReg) (imm : Imm48) : Statement (.minImm p d a imm) := by
  intro h w e
  cases e
  rw [encI, decodeSlot_02]
  simp_all [decMajor02, Instr.wf, Raw.hi3, Raw.view, Raw.bit0, Raw.bit1, modM_eq, decImmForm, decShiftForm]

theorem maxImm (p : Pred) (d : XReg) (a : XReg) (imm : Imm48) : Statement (.maxImm p d a imm) := by
  intro h w e
  cases e
  rw [encI, decodeSlot_02]
  simp_all [decMajor02, Instr.wf, Raw.hi3, Raw.view, Raw.bit0, Raw.bit1, modM_eq, decImmForm, decShiftForm]

theorem minuImm (p : Pred) (d : XReg) (a : XReg) (imm : Imm48) : Statement (.minuImm p d a imm) := by
  intro h w e
  cases e
  rw [encI, decodeSlot_02]
  simp_all [decMajor02, Instr.wf, Raw.hi3, Raw.view, Raw.bit0, Raw.bit1, modM_eq, decImmForm, decShiftForm]

theorem maxuImm (p : Pred) (d : XReg) (a : XReg) (imm : Imm48) : Statement (.maxuImm p d a imm) := by
  intro h w e
  cases e
  rw [encI, decodeSlot_02]
  simp_all [decMajor02, Instr.wf, Raw.hi3, Raw.view, Raw.bit0, Raw.bit1, modM_eq, decImmForm, decShiftForm]

theorem mul (p : Pred) (d : XReg) (a : XReg) (b : XReg) : Statement (.mul p d a b) := by
  intro h w e
  cases e
  rw [encR, decodeSlot_03]
  simp_all [decMajor03, Instr.wf, Raw.hi3, Raw.view, Raw.bit0, Raw.bit1, modM_eq, decRegForm]

theorem mulh (p : Pred) (d : XReg) (a : XReg) (b : XReg) : Statement (.mulh p d a b) := by
  intro h w e
  cases e
  rw [encR, decodeSlot_03]
  simp_all [decMajor03, Instr.wf, Raw.hi3, Raw.view, Raw.bit0, Raw.bit1, modM_eq, decRegForm]

theorem mulhu (p : Pred) (d : XReg) (a : XReg) (b : XReg) : Statement (.mulhu p d a b) := by
  intro h w e
  cases e
  rw [encR, decodeSlot_03]
  simp_all [decMajor03, Instr.wf, Raw.hi3, Raw.view, Raw.bit0, Raw.bit1, modM_eq, decRegForm]

theorem div (p : Pred) (d : XReg) (a : XReg) (b : XReg) : Statement (.div p d a b) := by
  intro h w e
  cases e
  rw [encR, decodeSlot_03]
  simp_all [decMajor03, Instr.wf, Raw.hi3, Raw.view, Raw.bit0, Raw.bit1, modM_eq, decRegForm]

theorem divu (p : Pred) (d : XReg) (a : XReg) (b : XReg) : Statement (.divu p d a b) := by
  intro h w e
  cases e
  rw [encR, decodeSlot_03]
  simp_all [decMajor03, Instr.wf, Raw.hi3, Raw.view, Raw.bit0, Raw.bit1, modM_eq, decRegForm]

theorem rem (p : Pred) (d : XReg) (a : XReg) (b : XReg) : Statement (.rem p d a b) := by
  intro h w e
  cases e
  rw [encR, decodeSlot_03]
  simp_all [decMajor03, Instr.wf, Raw.hi3, Raw.view, Raw.bit0, Raw.bit1, modM_eq, decRegForm]

theorem remu (p : Pred) (d : XReg) (a : XReg) (b : XReg) : Statement (.remu p d a b) := by
  intro h w e
  cases e
  rw [encR, decodeSlot_03]
  simp_all [decMajor03, Instr.wf, Raw.hi3, Raw.view, Raw.bit0, Raw.bit1, modM_eq, decRegForm]

theorem clz (p : Pred) (d : XReg) (a : XReg) : Statement (.clz p d a) := by
  intro h w e
  cases e
  rw [encR, decodeSlot_04]
  simp_all [decMajor04, Instr.wf, Raw.hi3, Raw.view, Raw.bit0, Raw.bit1, modM_eq, decDA, Raw.needZeroBCMI]

theorem ctz (p : Pred) (d : XReg) (a : XReg) : Statement (.ctz p d a) := by
  intro h w e
  cases e
  rw [encR, decodeSlot_04]
  simp_all [decMajor04, Instr.wf, Raw.hi3, Raw.view, Raw.bit0, Raw.bit1, modM_eq, decDA, Raw.needZeroBCMI]

theorem popc (p : Pred) (d : XReg) (a : XReg) : Statement (.popc p d a) := by
  intro h w e
  cases e
  rw [encR, decodeSlot_04]
  simp_all [decMajor04, Instr.wf, Raw.hi3, Raw.view, Raw.bit0, Raw.bit1, modM_eq, decDA, Raw.needZeroBCMI]

theorem cmp (p : Pred) (cc : ICond) (d : XReg) (a : XReg) (b : RegImm) : Statement (.cmp p cc d a b) := by
  intro h w e
  cases b <;> cases e <;> rw [decodeSlot_05] <;> simp_all [decMajor05, Instr.wf, Raw.hi3, Raw.view, Raw.bit0, Raw.bit1, modM_eq]

theorem sel (p : Pred) (d : XReg) (a : XReg) (b : XReg) (c : XReg) : Statement (.sel p d a b c) := by
  intro h w e
  cases e
  rw [decodeSlot_05]
  simp_all [decMajor05, Instr.wf, Raw.hi3, Raw.view, Raw.bit0, Raw.bit1, modM_eq]

theorem movi (p : Pred) (d : XReg) (imm : Word) : Statement (.movi p d imm) := by
  intro h w e
  cases e
  obtain ⟨-, h1, h2, h3, h4, h5⟩ := raw_packW 6 0 p d imm
  rw [decodeSlot_packW]
  generalize packW 6 0 p d imm = w at *
  simp [decMajor06, h1, h2, h3, h4, h5]

theorem lea (p : Pred) (d : XReg) (a : XReg) (b : XReg) (sh : BitVec 3) (imm : Imm48) : Statement (.lea p d a b sh imm) := by
  intro h w e
  cases e
  rw [decodeSlot_07]
  simp_all [decMajor07, Instr.wf, Raw.hi3, Raw.view, Raw.bit0, Raw.bit1, modM_eq]

theorem extr (p : Pred) (signed : Bool) (d : XReg) (a : XReg) (pos : BitVec 6) (len : BitVec 7) : Statement (.extr p signed d a pos len) := by
  intro h w e
  cases e
  rw [decodeSlot_07]
  obtain ⟨h1, h2, h3⟩ := extr_mod signed pos
  generalize (0 : BitVec 1) ++ bit signed ++ pos = m at *
  simp only [Instr.wf] at h
  simp_all [decMajor07, -BitVec.getLsbD_eq_getElem]

theorem insr (p : Pred) (d : XReg) (a : XReg) (pos : BitVec 6) (len : BitVec 7) : Statement (.insr p d a pos len) := by
  intro h w e
  cases e
  rw [decodeSlot_07]
  simp_all [decMajor07, Instr.wf, Raw.hi3, Raw.view, Raw.bit0, Raw.bit1, modM_eq]

theorem br (p : Pred) (cc : ICond) (a : XReg) (b : XReg) (t : Target) : Statement (.br p cc a b t) := by
  intro h w e
  cases e
  obtain ⟨-, h1, h2, h3, h4, h5, -⟩ := raw_packJ 8 0 p a b cc.code t
  have ht := decTarget_packJ 8 0 p a b cc.code t h
  rw [decodeSlot_08J]
  generalize packJ 8 0 p a b cc.code t = w at *
  simp [decMajor08, h1, h2, h3, h4, h5, ht]

theorem jmp (p : Pred) (t : Target) : Statement (.jmp p t) := by
  intro h w e
  cases e
  obtain ⟨-, h1, h2, h3, h4, h5, -⟩ := raw_packJ 9 0 p 0 0 0 t
  have ht := decTarget_packJ 9 0 p 0 0 0 t h
  rw [decodeSlot_09J]
  generalize packJ 9 0 p 0 0 0 t = w at *
  simp [decMajor09, h1, h2, h3, h4, h5, ht]

theorem call (p : Pred) (t : Target) : Statement (.call p t) := by
  intro h w e
  cases e
  obtain ⟨-, h1, h2, h3, h4, h5, -⟩ := raw_packJ 9 1 p 0 0 0 t
  have ht := decTarget_packJ 9 1 p 0 0 0 t h
  rw [decodeSlot_09J]
  generalize packJ 9 1 p 0 0 0 t = w at *
  simp [decMajor09, h1, h2, h3, h4, h5, ht]

theorem ret (p : Pred) (a : XReg) : Statement (.ret p a) := by
  intro h w e
  cases e
  rw [decodeSlot_0A]
  simp_all [decMajor0A, Instr.wf, Raw.hi3, Raw.view, Raw.bit0, Raw.bit1, modM_eq, decA, Raw.needZeroBCMI, tableWf]

theorem jtab (p : Pred) (a : XReg) (b : XReg) (tag : BitVec 8) (n : BitVec 17) : Statement (.jtab p a b tag n) := by
  intro h w e
  cases e
  rw [decodeSlot_0A]
  simp_all [decMajor0A, Instr.wf, Raw.hi3, Raw.view, Raw.bit0, Raw.bit1, modM_eq, decA, Raw.needZeroBCMI, tableWf]

theorem callt (p : Pred) (a : XReg) (b : XReg) (tag : BitVec 8) (n : BitVec 17) : Statement (.callt p a b tag n) := by
  intro h w e
  cases e
  rw [decodeSlot_0A]
  simp_all [decMajor0A, Instr.wf, Raw.hi3, Raw.view, Raw.bit0, Raw.bit1, modM_eq, decA, Raw.needZeroBCMI, tableWf]

theorem lpad (p : Pred) (tag : BitVec 8) : Statement (.lpad p tag) := by
  intro h w e
  cases e
  rw [decodeSlot_0A]
  simp_all [decMajor0A, Instr.wf, Raw.hi3, Raw.view, Raw.bit0, Raw.bit1, modM_eq, decA, Raw.needZeroBCMI, tableWf]

theorem mfc (p : Pred) (d : XReg) (r : CReg) : Statement (.mfc p d r) := by
  intro h w e
  cases e
  rw [decodeSlot_0B]
  simp_all [decMajor0B, Instr.wf, Raw.hi3, Raw.view, Raw.bit0, Raw.bit1, modM_eq]

theorem mtc (p : Pred) (r : CReg) (a : XReg) : Statement (.mtc p r a) := by
  intro h w e
  cases e
  rw [decodeSlot_0B]
  simp_all [decMajor0B, Instr.wf, Raw.hi3, Raw.view, Raw.bit0, Raw.bit1, modM_eq]

theorem follow (p : Pred) (k : BitVec 3) (t : Target) : Statement (.follow p k t) := by
  intro h w e
  cases e
  obtain ⟨-, h1, h2, h3, h4, h5, h6, h7, -⟩ := raw_packJ 0x0C 0 p 0 0 (k.setWidth 4) t
  have ht := decTarget_packJ 0x0C 0 p 0 0 (k.setWidth 4) t h
  rw [decodeSlot_0CJ]
  generalize packJ 0x0C 0 p 0 0 (k.setWidth 4) t = w at *
  have a1 : (k.setWidth 4).extractLsb' 3 1 = 0 := bits_eq fun i hi => by simp only [BitVec.getLsbD_setWidth, BitVec.getLsbD_zero]; grind
  have a2 : (k.setWidth 4).extractLsb' 0 3 = k := bits_eq fun i hi => by simp only [BitVec.getLsbD_setWidth]; grind
  rw [a1] at h6
  rw [a2] at h7
  simp [decMajor0C, h1, h2, h3, h4, h6, h7, ht]

theorem detach (p : Pred) : Statement (.detach p) := by
  intro h w e
  cases e
  rw [decodeSlot_0CF]
  simp_all [decMajor0C, Instr.wf, Raw.hi3, Raw.view, Raw.bit0, Raw.bit1, modM_eq, decNone, Raw.needZeroBCMI]

theorem rejoin (p : Pred) (d : XReg) (a : XReg) (b : XReg) (c : XReg) (key : BitVec 16) : Statement (.rejoin p d a b c key) := by
  intro h w e
  cases e
  rw [decodeSlot_0CF]
  simp_all [decMajor0C, Instr.wf, Raw.hi3, Raw.view, Raw.bit0, Raw.bit1, modM_eq, decNone, Raw.needZeroBCMI]

theorem take (p : Pred) (d : XReg) (key : BitVec 16) : Statement (.take p d key) := by
  intro h w e
  cases e
  rw [decodeSlot_0CF]
  simp_all [decMajor0C, Instr.wf, Raw.hi3, Raw.view, Raw.bit0, Raw.bit1, modM_eq, decNone, Raw.needZeroBCMI]

theorem launch (p : Pred) (d : XReg) (a : XReg) (q : BitVec 6) : Statement (.launch p d a q) := by
  intro h w e
  cases e
  rw [decodeSlot_0D]
  simp_all [decMajor0D, Instr.wf, Raw.hi3, Raw.view, Raw.bit0, Raw.bit1, modM_eq]

theorem fadd (p : Pred) (f : View) (rm : Rm) (d : XReg) (a : XReg) (b : XReg) : Statement (.fadd p f rm d a b) := by
  intro h w e
  cases e
  rw [encFp, decodeSlot_10]
  simp_all [decMajor10, Instr.wf, Raw.hi3, Raw.view, Raw.bit0, Raw.bit1, modM_eq, decFp, decFpNoRm]

theorem fsub (p : Pred) (f : View) (rm : Rm) (d : XReg) (a : XReg) (b : XReg) : Statement (.fsub p f rm d a b) := by
  intro h w e
  cases e
  rw [encFp, decodeSlot_10]
  simp_all [decMajor10, Instr.wf, Raw.hi3, Raw.view, Raw.bit0, Raw.bit1, modM_eq, decFp, decFpNoRm]

theorem fmul (p : Pred) (f : View) (rm : Rm) (d : XReg) (a : XReg) (b : XReg) : Statement (.fmul p f rm d a b) := by
  intro h w e
  cases e
  rw [encFp, decodeSlot_10]
  simp_all [decMajor10, Instr.wf, Raw.hi3, Raw.view, Raw.bit0, Raw.bit1, modM_eq, decFp, decFpNoRm]

theorem ffma (p : Pred) (f : View) (rm : Rm) (d : XReg) (a : XReg) (b : XReg) (c : XReg) : Statement (.ffma p f rm d a b c) := by
  intro h w e
  cases e
  rw [encFp, decodeSlot_10]
  simp_all [decMajor10, Instr.wf, Raw.hi3, Raw.view, Raw.bit0, Raw.bit1, modM_eq, decFp, decFpNoRm]

theorem fdiv (p : Pred) (f : View) (rm : Rm) (d : XReg) (a : XReg) (b : XReg) : Statement (.fdiv p f rm d a b) := by
  intro h w e
  cases e
  rw [encFp, decodeSlot_10]
  simp_all [decMajor10, Instr.wf, Raw.hi3, Raw.view, Raw.bit0, Raw.bit1, modM_eq, decFp, decFpNoRm]

theorem fsqrt (p : Pred) (f : View) (rm : Rm) (d : XReg) (a : XReg) : Statement (.fsqrt p f rm d a) := by
  intro h w e
  cases e
  rw [encFp, decodeSlot_10]
  simp_all [decMajor10, Instr.wf, Raw.hi3, Raw.view, Raw.bit0, Raw.bit1, modM_eq, decFp, decFpNoRm]

theorem fmin (p : Pred) (f : View) (d : XReg) (a : XReg) (b : XReg) : Statement (.fmin p f d a b) := by
  intro h w e
  cases e
  rw [encFp, decodeSlot_10]
  simp_all [decMajor10, Instr.wf, Raw.hi3, Raw.view, Raw.bit0, Raw.bit1, modM_eq, decFp, decFpNoRm]

theorem fmax (p : Pred) (f : View) (d : XReg) (a : XReg) (b : XReg) : Statement (.fmax p f d a b) := by
  intro h w e
  cases e
  rw [encFp, decodeSlot_10]
  simp_all [decMajor10, Instr.wf, Raw.hi3, Raw.view, Raw.bit0, Raw.bit1, modM_eq, decFp, decFpNoRm]

theorem fcmp (p : Pred) (cc : FCond) (f : View) (d : XReg) (a : XReg) (b : XReg) : Statement (.fcmp p cc f d a b) := by
  intro h w e
  cases e
  rw [encFp, decodeSlot_11]
  simp_all [decMajor11, Instr.wf, Raw.hi3, Raw.view, Raw.bit0, Raw.bit1, modM_eq, decFp, decFpNoRm]

theorem fcvt (p : Pred) (rm : Rm) (c : CvtSpec) (d : XReg) (a : XReg) : Statement (.fcvt p rm c d a) := by
  intro h w e
  cases e
  rw [decodeSlot_11]
  simp_all [decMajor11, Instr.wf, Raw.hi3, Raw.view, Raw.bit0, Raw.bit1, modM_eq, decFp, decFpNoRm]

theorem fclass (p : Pred) (f : View) (d : XReg) (a : XReg) : Statement (.fclass p f d a) := by
  intro h w e
  cases e
  rw [encFp, decodeSlot_11]
  simp_all [decMajor11, Instr.wf, Raw.hi3, Raw.view, Raw.bit0, Raw.bit1, modM_eq, decFp, decFpNoRm]

theorem vadd (p : Pred) (v : View) (d : VReg) (a : VReg) (b : VOp) : Statement (.vadd p v d a b) := by
  intro h w e
  cases e
  rw [encVec, decodeSlot_14]
  simp_all [decMajor14, Instr.wf, Raw.hi3, Raw.view, Raw.bit0, Raw.bit1, modM_eq, decVInt]

theorem vsub (p : Pred) (v : View) (d : VReg) (a : VReg) (b : VOp) : Statement (.vsub p v d a b) := by
  intro h w e
  cases e
  rw [encVec, decodeSlot_14]
  simp_all [decMajor14, Instr.wf, Raw.hi3, Raw.view, Raw.bit0, Raw.bit1, modM_eq, decVInt]

theorem vmul (p : Pred) (v : View) (d : VReg) (a : VReg) (b : VOp) : Statement (.vmul p v d a b) := by
  intro h w e
  cases e
  rw [encVec, decodeSlot_14]
  simp_all [decMajor14, Instr.wf, Raw.hi3, Raw.view, Raw.bit0, Raw.bit1, modM_eq, decVInt]

theorem vmulh (p : Pred) (v : View) (u : Bool) (d : VReg) (a : VReg) (b : VOp) : Statement (.vmulh p v u d a b) := by
  intro h w e
  cases e
  rw [encVec, decodeSlot_14]
  simp_all [decMajor14, Instr.wf, Raw.hi3, Raw.view, Raw.bit0, Raw.bit1, modM_eq, decVInt]

theorem vmin (p : Pred) (v : View) (u : Bool) (d : VReg) (a : VReg) (b : VOp) : Statement (.vmin p v u d a b) := by
  intro h w e
  cases e
  rw [encVec, decodeSlot_14]
  simp_all [decMajor14, Instr.wf, Raw.hi3, Raw.view, Raw.bit0, Raw.bit1, modM_eq, decVInt]

theorem vmax (p : Pred) (v : View) (u : Bool) (d : VReg) (a : VReg) (b : VOp) : Statement (.vmax p v u d a b) := by
  intro h w e
  cases e
  rw [encVec, decodeSlot_14]
  simp_all [decMajor14, Instr.wf, Raw.hi3, Raw.view, Raw.bit0, Raw.bit1, modM_eq, decVInt]

theorem vand (p : Pred) (v : View) (d : VReg) (a : VReg) (b : VOp) : Statement (.vand p v d a b) := by
  intro h w e
  cases e
  rw [encVec, decodeSlot_14]
  simp_all [decMajor14, Instr.wf, Raw.hi3, Raw.view, Raw.bit0, Raw.bit1, modM_eq, decVInt]

theorem vor (p : Pred) (v : View) (d : VReg) (a : VReg) (b : VOp) : Statement (.vor p v d a b) := by
  intro h w e
  cases e
  rw [encVec, decodeSlot_14]
  simp_all [decMajor14, Instr.wf, Raw.hi3, Raw.view, Raw.bit0, Raw.bit1, modM_eq, decVInt]

theorem vxor (p : Pred) (v : View) (d : VReg) (a : VReg) (b : VOp) : Statement (.vxor p v d a b) := by
  intro h w e
  cases e
  rw [encVec, decodeSlot_14]
  simp_all [decMajor14, Instr.wf, Raw.hi3, Raw.view, Raw.bit0, Raw.bit1, modM_eq, decVInt]

theorem vshl (p : Pred) (v : View) (d : VReg) (a : VReg) (b : VOp) : Statement (.vshl p v d a b) := by
  intro h w e
  cases e
  rw [encVec, decodeSlot_14]
  simp_all [decMajor14, Instr.wf, Raw.hi3, Raw.view, Raw.bit0, Raw.bit1, modM_eq, decVInt]

theorem vshr (p : Pred) (v : View) (d : VReg) (a : VReg) (b : VOp) : Statement (.vshr p v d a b) := by
  intro h w e
  cases e
  rw [encVec, decodeSlot_14]
  simp_all [decMajor14, Instr.wf, Raw.hi3, Raw.view, Raw.bit0, Raw.bit1, modM_eq, decVInt]

theorem vsha (p : Pred) (v : View) (d : VReg) (a : VReg) (b : VOp) : Statement (.vsha p v d a b) := by
  intro h w e
  cases e
  rw [encVec, decodeSlot_14]
  simp_all [decMajor14, Instr.wf, Raw.hi3, Raw.view, Raw.bit0, Raw.bit1, modM_eq, decVInt]

theorem vcmp (p : Pred) (cc : ICond) (v : View) (d : MReg) (a : VReg) (b : VOp) : Statement (.vcmp p cc v d a b) := by
  intro h w e
  cases e
  rw [encVec, decodeSlot_15]
  simp_all [decMajor15, Instr.wf, Raw.hi3, Raw.view, Raw.bit0, Raw.bit1, modM_eq]

theorem vfadd (p : Pred) (v : View) (rm : Rm) (d : VReg) (a : VReg) (b : VOp) : Statement (.vfadd p v rm d a b) := by
  intro h w e
  cases e
  rw [encVec, decodeSlot_16]
  simp_all [decMajor16, Instr.wf, Raw.hi3, Raw.view, Raw.bit0, Raw.bit1, modM_eq, decVFp]

theorem vfsub (p : Pred) (v : View) (rm : Rm) (d : VReg) (a : VReg) (b : VOp) : Statement (.vfsub p v rm d a b) := by
  intro h w e
  cases e
  rw [encVec, decodeSlot_16]
  simp_all [decMajor16, Instr.wf, Raw.hi3, Raw.view, Raw.bit0, Raw.bit1, modM_eq, decVFp]

theorem vfmul (p : Pred) (v : View) (rm : Rm) (d : VReg) (a : VReg) (b : VOp) : Statement (.vfmul p v rm d a b) := by
  intro h w e
  cases e
  rw [encVec, decodeSlot_16]
  simp_all [decMajor16, Instr.wf, Raw.hi3, Raw.view, Raw.bit0, Raw.bit1, modM_eq, decVFp]

theorem vffma (p : Pred) (v : View) (rm : Rm) (d : VReg) (a : VReg) (b : VOp) (c : VReg) : Statement (.vffma p v rm d a b c) := by
  intro h w e
  cases e
  rw [decodeSlot_16]
  simp_all [decMajor16, Instr.wf, Raw.hi3, Raw.view, Raw.bit0, Raw.bit1, modM_eq, decVFp]

theorem vfdiv (p : Pred) (v : View) (rm : Rm) (d : VReg) (a : VReg) (b : VOp) : Statement (.vfdiv p v rm d a b) := by
  intro h w e
  cases e
  rw [encVec, decodeSlot_16]
  simp_all [decMajor16, Instr.wf, Raw.hi3, Raw.view, Raw.bit0, Raw.bit1, modM_eq, decVFp]

theorem vfsqrt (p : Pred) (v : View) (rm : Rm) (d : VReg) (a : VReg) : Statement (.vfsqrt p v rm d a) := by
  intro h w e
  cases e
  rw [decodeSlot_16]
  simp_all [decMajor16, Instr.wf, Raw.hi3, Raw.view, Raw.bit0, Raw.bit1, modM_eq, decVFp]

theorem vfmin (p : Pred) (v : View) (d : VReg) (a : VReg) (b : VOp) : Statement (.vfmin p v d a b) := by
  intro h w e
  cases e
  rw [encVec, decodeSlot_16]
  simp_all [decMajor16, Instr.wf, Raw.hi3, Raw.view, Raw.bit0, Raw.bit1, modM_eq, decVFp]

theorem vfmax (p : Pred) (v : View) (d : VReg) (a : VReg) (b : VOp) : Statement (.vfmax p v d a b) := by
  intro h w e
  cases e
  rw [encVec, decodeSlot_16]
  simp_all [decMajor16, Instr.wf, Raw.hi3, Raw.view, Raw.bit0, Raw.bit1, modM_eq, decVFp]

theorem vexp2 (p : Pred) (d : VReg) (a : VReg) : Statement (.vexp2 p d a) := by
  intro h w e
  cases e
  rw [decodeSlot_17]
  simp_all [decMajor17, Instr.wf, Raw.hi3, Raw.view, Raw.bit0, Raw.bit1, modM_eq, decSpecial]

theorem vrecip (p : Pred) (d : VReg) (a : VReg) : Statement (.vrecip p d a) := by
  intro h w e
  cases e
  rw [decodeSlot_17]
  simp_all [decMajor17, Instr.wf, Raw.hi3, Raw.view, Raw.bit0, Raw.bit1, modM_eq, decSpecial]

theorem vrsqrt (p : Pred) (d : VReg) (a : VReg) : Statement (.vrsqrt p d a) := by
  intro h w e
  cases e
  rw [decodeSlot_17]
  simp_all [decMajor17, Instr.wf, Raw.hi3, Raw.view, Raw.bit0, Raw.bit1, modM_eq, decSpecial]

theorem vfcmp (p : Pred) (cc : FCond) (v : View) (d : MReg) (a : VReg) (b : VOp) : Statement (.vfcmp p cc v d a b) := by
  intro h w e
  cases e
  rw [encVec, decodeSlot_18]
  simp_all [decMajor18, Instr.wf, Raw.hi3, Raw.view, Raw.bit0, Raw.bit1, modM_eq, decVFp]

theorem vfcvt (p : Pred) (rm : Rm) (c : CvtSpec) (d : VReg) (a : VReg) : Statement (.vfcvt p rm c d a) := by
  intro h w e
  cases e
  rw [decodeSlot_18]
  simp_all [decMajor18, Instr.wf, Raw.hi3, Raw.view, Raw.bit0, Raw.bit1, modM_eq, decVFp]

theorem vbcast (p : Pred) (v : View) (d : VReg) (a : XReg) : Statement (.vbcast p v d a) := by
  intro h w e
  cases e
  rw [decodeSlot_19]
  simp_all [decMajor19, Instr.wf, Raw.hi3, Raw.view, Raw.bit0, Raw.bit1, modM_eq, decMove]

theorem vextr (p : Pred) (v : View) (d : XReg) (a : VReg) (b : XReg) : Statement (.vextr p v d a b) := by
  intro h w e
  cases e
  rw [decodeSlot_19]
  simp_all [decMajor19, Instr.wf, Raw.hi3, Raw.view, Raw.bit0, Raw.bit1, modM_eq, decMove]

theorem vinsr (p : Pred) (v : View) (d : VReg) (a : XReg) (b : XReg) : Statement (.vinsr p v d a b) := by
  intro h w e
  cases e
  rw [decodeSlot_19]
  simp_all [decMajor19, Instr.wf, Raw.hi3, Raw.view, Raw.bit0, Raw.bit1, modM_eq, decMove]

theorem vperm (p : Pred) (v : View) (d : VReg) (a : VReg) (b : VReg) : Statement (.vperm p v d a b) := by
  intro h w e
  cases e
  rw [decodeSlot_19]
  simp_all [decMajor19, Instr.wf, Raw.hi3, Raw.view, Raw.bit0, Raw.bit1, modM_eq, decMove]

theorem vslide (p : Pred) (v : View) (d : VReg) (a : VReg) (b : VReg) (k : BitVec 8) : Statement (.vslide p v d a b k) := by
  intro h w e
  cases e
  rw [decodeSlot_19]
  simp_all [decMajor19, Instr.wf, Raw.hi3, Raw.view, Raw.bit0, Raw.bit1, modM_eq, decMove]

theorem vsortk (p : Pred) (d : VReg) (c : VReg) (a : VReg) : Statement (.vsortk p d c a) := by
  intro h w e
  cases e
  rw [decodeSlot_19]
  have hd : (d != c) = true := h
  simp [decMajor19, decMove, Raw.hi3, Raw.view, Raw.bit0, Raw.bit1, hd]

theorem vsegadd (p : Pred) (v : View) (fl : Bool) (rm : Rm) (d : VReg) (a : VReg) (b : VReg) : Statement (.vsegadd p v fl rm d a b) := by
  intro h w e
  cases fl <;> cases e <;> rw [decodeSlot_19] <;> simp_all [decMajor19, Instr.wf, Raw.hi3, Raw.view, Raw.bit0, Raw.bit1, modM_eq, decMove]

theorem vredi (p : Pred) (v : View) (u : Bool) (d : XReg) (a : VReg) : Statement (.vredi p v u d a) := by
  intro h w e
  cases e
  rw [decodeSlot_19]
  simp_all [decMajor19, Instr.wf, Raw.hi3, Raw.view, Raw.bit0, Raw.bit1, modM_eq, decMove]

theorem vredf (p : Pred) (v : View) (rm : Rm) (d : XReg) (a : VReg) : Statement (.vredf p v rm d a) := by
  intro h w e
  cases e
  rw [decodeSlot_19]
  simp_all [decMajor19, Instr.wf, Raw.hi3, Raw.view, Raw.bit0, Raw.bit1, modM_eq, decMove]

theorem mand (p : Pred) (d : MReg) (a : MReg) (b : MReg) : Statement (.mand p d a b) := by
  intro h w e
  cases e
  rw [decodeSlot_1A]
  simp_all [decMajor1A, Instr.wf, Raw.hi3, Raw.view, Raw.bit0, Raw.bit1, modM_eq, decMove, Raw.needZeroBCMI]

theorem mor (p : Pred) (d : MReg) (a : MReg) (b : MReg) : Statement (.mor p d a b) := by
  intro h w e
  cases e
  rw [decodeSlot_1A]
  simp_all [decMajor1A, Instr.wf, Raw.hi3, Raw.view, Raw.bit0, Raw.bit1, modM_eq, decMove, Raw.needZeroBCMI]

theorem mxor (p : Pred) (d : MReg) (a : MReg) (b : MReg) : Statement (.mxor p d a b) := by
  intro h w e
  cases e
  rw [decodeSlot_1A]
  simp_all [decMajor1A, Instr.wf, Raw.hi3, Raw.view, Raw.bit0, Raw.bit1, modM_eq, decMove, Raw.needZeroBCMI]

theorem mnot (p : Pred) (d : MReg) (a : MReg) : Statement (.mnot p d a) := by
  intro h w e
  cases e
  rw [decodeSlot_1A]
  simp_all [decMajor1A, Instr.wf, Raw.hi3, Raw.view, Raw.bit0, Raw.bit1, modM_eq, decMove, Raw.needZeroBCMI]

theorem mpopc (p : Pred) (v : View) (d : XReg) (a : MReg) : Statement (.mpopc p v d a) := by
  intro h w e
  cases e
  rw [decodeSlot_1A]
  simp_all [decMajor1A, Instr.wf, Raw.hi3, Raw.view, Raw.bit0, Raw.bit1, modM_eq, decMove, Raw.needZeroBCMI]

theorem mfirst (p : Pred) (v : View) (d : XReg) (a : MReg) : Statement (.mfirst p v d a) := by
  intro h w e
  cases e
  rw [decodeSlot_1A]
  simp_all [decMajor1A, Instr.wf, Raw.hi3, Raw.view, Raw.bit0, Raw.bit1, modM_eq, decMove, Raw.needZeroBCMI]

theorem mtox (p : Pred) (d : XReg) (a : MReg) (half : Bool) : Statement (.mtox p d a half) := by
  intro h w e
  cases half <;> cases e <;> rw [decodeSlot_1A] <;> simp_all [decMajor1A, Instr.wf, Raw.hi3, Raw.view, Raw.bit0, Raw.bit1, modM_eq, decMove, Raw.needZeroBCMI, bit]

theorem xtom (p : Pred) (d : MReg) (a : XReg) (half : Bool) : Statement (.xtom p d a half) := by
  intro h w e
  cases half <;> cases e <;> rw [decodeSlot_1A] <;> simp_all [decMajor1A, Instr.wf, Raw.hi3, Raw.view, Raw.bit0, Raw.bit1, modM_eq, decMove, Raw.needZeroBCMI, bit]

theorem ld (p : Pred) (sx : Bool) (sz : Size) (d : XReg) (a : XReg) (b : XReg) (sh : BitVec 3) (imm : Imm48) : Statement (.ld p sx sz d a b sh imm) := by
  intro h w e
  cases e
  rw [decodeSlot_20]
  simp_all [decMajor20, Instr.wf, Raw.hi3, Raw.view, Raw.bit0, Raw.bit1, modM_eq]

theorem st (p : Pred) (sz : Size) (a : XReg) (b : XReg) (c : XReg) (sh : BitVec 3) (imm : Imm48) : Statement (.st p sz a b c sh imm) := by
  intro h w e
  cases e
  rw [decodeSlot_21]
  simp_all [decMajor21, Instr.wf, Raw.hi3, Raw.view, Raw.bit0, Raw.bit1, modM_eq]

theorem ldv (p : Pred) (v : View) (d : VReg) (a : XReg) (imm : Imm48) : Statement (.ldv p v d a imm) := by
  intro h w e
  cases e
  rw [decodeSlot_22]
  simp_all [decMajor22, Instr.wf, Raw.hi3, Raw.view, Raw.bit0, Raw.bit1, modM_eq]

theorem ldvs (p : Pred) (v : View) (d : VReg) (a : XReg) (b : XReg) (imm : Imm48) : Statement (.ldvs p v d a b imm) := by
  intro h w e
  cases e
  rw [decodeSlot_22]
  simp_all [decMajor22, Instr.wf, Raw.hi3, Raw.view, Raw.bit0, Raw.bit1, modM_eq]

theorem ldg (p : Pred) (v : View) (u : Bool) (d : VReg) (a : XReg) (b : VReg) (sh : BitVec 3) (imm : Imm48) : Statement (.ldg p v u d a b sh imm) := by
  intro h w e
  cases e
  rw [decodeSlot_22]
  simp_all [decMajor22, Instr.wf, Raw.hi3, Raw.view, Raw.bit0, Raw.bit1, modM_eq]

theorem stv (p : Pred) (v : View) (a : XReg) (c : VReg) (imm : Imm48) : Statement (.stv p v a c imm) := by
  intro h w e
  cases e
  rw [decodeSlot_23]
  simp_all [decMajor23, Instr.wf, Raw.hi3, Raw.view, Raw.bit0, Raw.bit1, modM_eq]

theorem stvs (p : Pred) (v : View) (a : XReg) (b : XReg) (c : VReg) (imm : Imm48) : Statement (.stvs p v a b c imm) := by
  intro h w e
  cases e
  rw [decodeSlot_23]
  simp_all [decMajor23, Instr.wf, Raw.hi3, Raw.view, Raw.bit0, Raw.bit1, modM_eq]

theorem sts (p : Pred) (v : View) (u : Bool) (a : XReg) (b : VReg) (c : VReg) (sh : BitVec 3) (imm : Imm48) : Statement (.sts p v u a b c sh imm) := by
  intro h w e
  cases e
  rw [decodeSlot_23]
  simp_all [decMajor23, Instr.wf, Raw.hi3, Raw.view, Raw.bit0, Raw.bit1, modM_eq]

theorem ldl (p : Pred) (d : VReg) (a : XReg) (b : Option VReg) (imm : Imm48) : Statement (.ldl p d a b imm) := by
  intro h w e
  cases b <;> cases e <;> rw [decodeSlot_24] <;> simp_all [decMajor24, Instr.wf, Raw.hi3, Raw.view, Raw.bit0, Raw.bit1, modM_eq, decIdx, Option.idxField]

theorem stl (p : Pred) (a : XReg) (b : Option VReg) (c : VReg) (imm : Imm48) : Statement (.stl p a b c imm) := by
  intro h w e
  cases b <;> cases e <;> rw [decodeSlot_24] <;> simp_all [decMajor24, Instr.wf, Raw.hi3, Raw.view, Raw.bit0, Raw.bit1, modM_eq, decIdx, Option.idxField]

theorem mtt (p : Pred) (t : TReg) (f : TileField) (src : TileSrc) : Statement (.mtt p t f src) := by
  intro h w e
  cases src <;> cases e <;> rw [decodeSlot_25] <;> simp_all [decMajor25, Instr.wf, Raw.hi3, Raw.view, Raw.bit0, Raw.bit1, modM_eq]

theorem mft (p : Pred) (d : XReg) (t : TReg) (f : TileField) : Statement (.mft p d t f) := by
  intro h w e
  cases e
  rw [decodeSlot_25]
  simp_all [decMajor25, Instr.wf, Raw.hi3, Raw.view, Raw.bit0, Raw.bit1, modM_eq]

theorem tld (p : Pred) (t : TReg) (a : XReg) (b : XReg) (imm : Imm48) : Statement (.tld p t a b imm) := by
  intro h w e
  cases e
  rw [decodeSlot_25]
  simp_all [decMajor25, Instr.wf, Raw.hi3, Raw.view, Raw.bit0, Raw.bit1, modM_eq]

theorem tst (p : Pred) (t : TReg) (a : XReg) (b : XReg) (imm : Imm48) : Statement (.tst p t a b imm) := by
  intro h w e
  cases e
  rw [decodeSlot_25]
  simp_all [decMajor25, Instr.wf, Raw.hi3, Raw.view, Raw.bit0, Raw.bit1, modM_eq]

theorem twait (p : Pred) (t : TReg) : Statement (.twait p t) := by
  intro h w e
  cases e
  rw [decodeSlot_26]
  simp_all [decMajor26, Instr.wf, Raw.hi3, Raw.view, Raw.bit0, Raw.bit1, modM_eq, Raw.needZeroBCMI]

theorem tcons (p : Pred) (t : TReg) : Statement (.tcons p t) := by
  intro h w e
  cases e
  rw [decodeSlot_26]
  simp_all [decMajor26, Instr.wf, Raw.hi3, Raw.view, Raw.bit0, Raw.bit1, modM_eq, Raw.needZeroBCMI]

theorem pref (p : Pred) (l2 : Bool) (a : XReg) (n : BitVec 3) (imm : Imm48) : Statement (.pref p l2 a n imm) := by
  intro h w e
  cases e
  rw [decodeSlot_26]
  simp_all [decMajor26, Instr.wf, Raw.hi3, Raw.view, Raw.bit0, Raw.bit1, modM_eq, Raw.needZeroBCMI]

theorem mma (p : Pred) (d : XReg) (a : TReg) (b : TReg) (dst : MmaDst) (acc : Bool) (tb : Bool) : Statement (.mma p d a b dst acc tb) := by
  intro h w e
  cases e
  rw [encE, decodeSlot_28]
  have f0 : (dst.head acc tb ++ (0 : BitVec 35)).extractLsb' 0 35 = 0 := bits_eq fun i hi => by simp only [bit, BitVec.getLsbD_append, BitVec.getLsbD_ofBool, BitVec.getLsbD_setWidth, BitVec.getLsbD_zero]; grind
  have hh : ∀ i, i < 21 → (dst.head acc tb ++ (0 : BitVec 35)).getLsbD (35 + i) = (dst.head acc tb).getLsbD i := fun i hi => by simp only [bit, BitVec.getLsbD_append, BitVec.getLsbD_ofBool, BitVec.getLsbD_setWidth, BitVec.getLsbD_zero]; grind
  have hc := cmd_encE (dst.head acc tb ++ (0 : BitVec 35))
  generalize dst.head acc tb ++ (0 : BitVec 35) = m at *
  generalize m.extractLsb' 48 8 = m1 at *
  generalize m.extractLsb' 0 48 = m0 at *
  subst hc
  obtain ⟨hd, h55, h53⟩ := decDst_head { maj := 40#6, fn := 0#6, p, d, a := encM a, b := encM b, c := dst.field, mod := m1, imm := m0 } dst acc tb hh rfl h
  simp only [Raw.cmd] at h55 h53
  simp [decMajor28, Raw.cmd, -BitVec.getLsbD_eq_getElem, f0, hd, h55, h53]

theorem mmat (p : Pred) (d : XReg) (a : TReg) (b : TReg) (dst : MmaDst) (acc : Bool) (tb : Bool) (diag : BitVec 8) (up : Bool) (fill : Fill) : Statement (.mmat p d a b dst acc tb diag up fill) := by
  intro h w e
  cases e
  rw [encE, decodeSlot_28]
  have f0 : (dst.head acc tb ++ diag ++ bit up ++ fill.code ++ (0 : BitVec 24)).extractLsb' 0 24 = 0 := bits_eq fun i hi => by simp only [bit, BitVec.getLsbD_append, BitVec.getLsbD_ofBool, BitVec.getLsbD_setWidth, BitVec.getLsbD_zero]; grind
  have f1 : (dst.head acc tb ++ diag ++ bit up ++ fill.code ++ (0 : BitVec 24)).extractLsb' 24 2 = fill.code := bits_eq fun i hi => by simp only [bit, BitVec.getLsbD_append, BitVec.getLsbD_ofBool, BitVec.getLsbD_setWidth, BitVec.getLsbD_zero]; grind
  have f2 : (dst.head acc tb ++ diag ++ bit up ++ fill.code ++ (0 : BitVec 24)).extractLsb' 27 8 = diag := bits_eq fun i hi => by simp only [bit, BitVec.getLsbD_append, BitVec.getLsbD_ofBool, BitVec.getLsbD_setWidth, BitVec.getLsbD_zero]; grind
  have f3 : (dst.head acc tb ++ diag ++ bit up ++ fill.code ++ (0 : BitVec 24)).getLsbD 26 = up := by simp only [bit, BitVec.getLsbD_append, BitVec.getLsbD_ofBool, BitVec.getLsbD_setWidth, BitVec.getLsbD_zero]; grind
  have hh : ∀ i, i < 21 → (dst.head acc tb ++ diag ++ bit up ++ fill.code ++ (0 : BitVec 24)).getLsbD (35 + i) = (dst.head acc tb).getLsbD i := fun i hi => by simp only [bit, BitVec.getLsbD_append, BitVec.getLsbD_ofBool, BitVec.getLsbD_setWidth, BitVec.getLsbD_zero]; grind
  have hc := cmd_encE (dst.head acc tb ++ diag ++ bit up ++ fill.code ++ (0 : BitVec 24))
  generalize dst.head acc tb ++ diag ++ bit up ++ fill.code ++ (0 : BitVec 24) = m at *
  generalize m.extractLsb' 48 8 = m1 at *
  generalize m.extractLsb' 0 48 = m0 at *
  subst hc
  obtain ⟨hd, h55, h53⟩ := decDst_head { maj := 40#6, fn := 1#6, p, d, a := encM a, b := encM b, c := dst.field, mod := m1, imm := m0 } dst acc tb hh rfl h
  simp only [Raw.cmd] at h55 h53
  simp [decMajor28, Raw.cmd, -BitVec.getLsbD_eq_getElem, f0, f1, f2, f3, hd, h55, h53]

theorem mmab (p : Pred) (d : XReg) (a : TReg) (b : TReg) (c : TReg) (acc : Bool) (tb : Bool) (list : BitVec 15) : Statement (.mmab p d a b c acc tb list) := by
  intro h w e
  cases e
  rw [encE, decodeSlot_28]
  have f0 : (bit acc ++ bit false ++ bit tb ++ (0 : BitVec 34) ++ list ++ (0 : BitVec 4)).extractLsb' 19 34 = 0 := bits_eq fun i hi => by simp only [bit, BitVec.getLsbD_append, BitVec.getLsbD_ofBool, BitVec.getLsbD_setWidth, BitVec.getLsbD_zero]; grind
  have f1 : (bit acc ++ bit false ++ bit tb ++ (0 : BitVec 34) ++ list ++ (0 : BitVec 4)).getLsbD 54 = false := by simp only [bit, BitVec.getLsbD_append, BitVec.getLsbD_ofBool, BitVec.getLsbD_setWidth, BitVec.getLsbD_zero]; grind
  have f2 : (bit acc ++ bit false ++ bit tb ++ (0 : BitVec 34) ++ list ++ (0 : BitVec 4)).extractLsb' 0 4 = 0 := bits_eq fun i hi => by simp only [bit, BitVec.getLsbD_append, BitVec.getLsbD_ofBool, BitVec.getLsbD_setWidth, BitVec.getLsbD_zero]; grind
  have f3 : (bit acc ++ bit false ++ bit tb ++ (0 : BitVec 34) ++ list ++ (0 : BitVec 4)).getLsbD 55 = acc := by simp only [bit, BitVec.getLsbD_append, BitVec.getLsbD_ofBool, BitVec.getLsbD_setWidth, BitVec.getLsbD_zero]; grind
  have f4 : (bit acc ++ bit false ++ bit tb ++ (0 : BitVec 34) ++ list ++ (0 : BitVec 4)).getLsbD 53 = tb := by simp only [bit, BitVec.getLsbD_append, BitVec.getLsbD_ofBool, BitVec.getLsbD_setWidth, BitVec.getLsbD_zero]; grind
  have f5 : (bit acc ++ bit false ++ bit tb ++ (0 : BitVec 34) ++ list ++ (0 : BitVec 4)).extractLsb' 4 15 = list := bits_eq fun i hi => by simp only [bit, BitVec.getLsbD_append, BitVec.getLsbD_ofBool, BitVec.getLsbD_setWidth, BitVec.getLsbD_zero]; grind
  have hc := cmd_encE (bit acc ++ bit false ++ bit tb ++ (0 : BitVec 34) ++ list ++ (0 : BitVec 4))
  generalize bit acc ++ bit false ++ bit tb ++ (0 : BitVec 34) ++ list ++ (0 : BitVec 4) = m at *
  generalize m.extractLsb' 48 8 = m1 at *
  generalize m.extractLsb' 0 48 = m0 at *
  subst hc
  simp [decMajor28, Raw.cmd, -BitVec.getLsbD_eq_getElem, f0, f1, f2, f3, f4, f5]

theorem mmas (p : Pred) (d : XReg) (a : TReg) (b : TReg) (dst : MmaDst) (acc : Bool) (nnz : BitVec 13) : Statement (.mmas p d a b dst acc nnz) := by
  intro h w e
  have hwf : dst.wf acc = true ∧ nnz.toNat ≤ 4096 := by simpa [Instr.wf] using h
  cases e
  rw [encE, decodeSlot_28]
  have f0 : (dst.head acc false ++ (0 : BitVec 22) ++ nnz).extractLsb' 13 22 = 0 := bits_eq fun i hi => by simp only [bit, BitVec.getLsbD_append, BitVec.getLsbD_ofBool, BitVec.getLsbD_setWidth, BitVec.getLsbD_zero]; grind
  have f1 : (dst.head acc false ++ (0 : BitVec 22) ++ nnz).extractLsb' 0 13 = nnz := bits_eq fun i hi => by simp only [bit, BitVec.getLsbD_append, BitVec.getLsbD_ofBool, BitVec.getLsbD_setWidth, BitVec.getLsbD_zero]; grind
  have hh : ∀ i, i < 21 → (dst.head acc false ++ (0 : BitVec 22) ++ nnz).getLsbD (35 + i) = (dst.head acc false).getLsbD i := fun i hi => by simp only [bit, BitVec.getLsbD_append, BitVec.getLsbD_ofBool, BitVec.getLsbD_setWidth, BitVec.getLsbD_zero]; grind
  have hc := cmd_encE (dst.head acc false ++ (0 : BitVec 22) ++ nnz)
  generalize dst.head acc false ++ (0 : BitVec 22) ++ nnz = m at *
  generalize m.extractLsb' 48 8 = m1 at *
  generalize m.extractLsb' 0 48 = m0 at *
  subst hc
  obtain ⟨hd, h55, h53⟩ := decDst_head { maj := 40#6, fn := 3#6, p, d, a := encM a, b := encM b, c := dst.field, mod := m1, imm := m0 } dst acc false hh rfl hwf.1
  simp only [Raw.cmd] at h55 h53
  simp [decMajor28, Raw.cmd, -BitVec.getLsbD_eq_getElem, f0, f1, hd, h55, h53, hwf.2]

theorem mjpoll (p : Pred) (d : XReg) (a : XReg) : Statement (.mjpoll p d a) := by
  intro h w e
  cases e
  rw [decodeSlot_29]
  simp_all [decMajor29, Instr.wf, Raw.hi3, Raw.view, Raw.bit0, Raw.bit1, modM_eq, decDA, decA, Raw.needZeroBCMI]

theorem mjwait (p : Pred) (a : XReg) : Statement (.mjwait p a) := by
  intro h w e
  cases e
  rw [decodeSlot_29]
  simp_all [decMajor29, Instr.wf, Raw.hi3, Raw.view, Raw.bit0, Raw.bit1, modM_eq, decDA, decA, Raw.needZeroBCMI]

theorem cpy (p : Pred) (d : XReg) (a : XReg) (b : XReg) (c : XReg) (peer : Option (Bool × BitVec 22)) : Statement (.cpy p d a b c peer) := by
  intro h w e
  rcases peer with _ | ⟨dir, node⟩
  · cases e
    rw [encE, decodeSlot_2A]
    simp [decMajor2A, Raw.cmd]
  · cases e
    rw [encE, decodeSlot_2A]
    have f0 : (bit true ++ bit dir ++ (0 : BitVec 32) ++ node).extractLsb' 22 32 = 0 := bits_eq fun i hi => by simp only [bit, BitVec.getLsbD_append, BitVec.getLsbD_ofBool, BitVec.getLsbD_setWidth, BitVec.getLsbD_zero]; grind
    have f1 : (bit true ++ bit dir ++ (0 : BitVec 32) ++ node).getLsbD 55 = true := by simp only [bit, BitVec.getLsbD_append, BitVec.getLsbD_ofBool, BitVec.getLsbD_setWidth, BitVec.getLsbD_zero]; grind
    have f2 : (bit true ++ bit dir ++ (0 : BitVec 32) ++ node).getLsbD 54 = dir := by simp only [bit, BitVec.getLsbD_append, BitVec.getLsbD_ofBool, BitVec.getLsbD_setWidth, BitVec.getLsbD_zero]; grind
    have f3 : (bit true ++ bit dir ++ (0 : BitVec 32) ++ node).extractLsb' 0 22 = node := bits_eq fun i hi => by simp only [bit, BitVec.getLsbD_append, BitVec.getLsbD_ofBool, BitVec.getLsbD_setWidth, BitVec.getLsbD_zero]; grind
    have hc := cmd_encE (bit true ++ bit dir ++ (0 : BitVec 32) ++ node)
    generalize bit true ++ bit dir ++ (0 : BitVec 32) ++ node = m at *
    generalize m.extractLsb' 48 8 = m1 at *
    generalize m.extractLsb' 0 48 = m0 at *
    subst hc
    simp [decMajor2A, Raw.cmd, -BitVec.getLsbD_eq_getElem, f0, f1, f2, f3]

theorem cpy2 (p : Pred) (d : XReg) (a : XReg) (b : XReg) (c : XReg) (rows : BitVec 13) (rb : BitVec 16) : Statement (.cpy2 p d a b c rows rb) := by
  intro h w e
  have hw : copyWf rows rb = true := h
  cases e
  rw [encE, decodeSlot_2A]
  have f0 : (rows ++ rb ++ (0 : BitVec 27)).extractLsb' 0 27 = 0 := bits_eq fun i hi => by simp only [bit, BitVec.getLsbD_append, BitVec.getLsbD_ofBool, BitVec.getLsbD_setWidth, BitVec.getLsbD_zero]; grind
  have f1 : (rows ++ rb ++ (0 : BitVec 27)).extractLsb' 43 13 = rows := bits_eq fun i hi => by simp only [bit, BitVec.getLsbD_append, BitVec.getLsbD_ofBool, BitVec.getLsbD_setWidth, BitVec.getLsbD_zero]; grind
  have f2 : (rows ++ rb ++ (0 : BitVec 27)).extractLsb' 27 16 = rb := bits_eq fun i hi => by simp only [bit, BitVec.getLsbD_append, BitVec.getLsbD_ofBool, BitVec.getLsbD_setWidth, BitVec.getLsbD_zero]; grind
  have hc := cmd_encE (rows ++ rb ++ (0 : BitVec 27))
  generalize rows ++ rb ++ (0 : BitVec 27) = m at *
  generalize m.extractLsb' 48 8 = m1 at *
  generalize m.extractLsb' 0 48 = m0 at *
  subst hc
  simp [decMajor2A, Raw.cmd, -BitVec.getLsbD_eq_getElem, f0, f1, f2, hw]

theorem cpyg (p : Pred) (d : XReg) (a : XReg) (b : XReg) (c : XReg) (n : BitVec 13) (rb : BitVec 16) (stride : BitVec 27) : Statement (.cpyg p d a b c n rb stride) := by
  intro h w e
  have hw : copyWf n rb = true := h
  cases e
  rw [encE, decodeSlot_2A]
  have f0 : (n ++ rb ++ stride).extractLsb' 0 27 = stride := bits_eq fun i hi => by simp only [bit, BitVec.getLsbD_append, BitVec.getLsbD_ofBool, BitVec.getLsbD_setWidth, BitVec.getLsbD_zero]; grind
  have f1 : (n ++ rb ++ stride).extractLsb' 43 13 = n := bits_eq fun i hi => by simp only [bit, BitVec.getLsbD_append, BitVec.getLsbD_ofBool, BitVec.getLsbD_setWidth, BitVec.getLsbD_zero]; grind
  have f2 : (n ++ rb ++ stride).extractLsb' 27 16 = rb := bits_eq fun i hi => by simp only [bit, BitVec.getLsbD_append, BitVec.getLsbD_ofBool, BitVec.getLsbD_setWidth, BitVec.getLsbD_zero]; grind
  have hc := cmd_encE (n ++ rb ++ stride)
  generalize n ++ rb ++ stride = m at *
  generalize m.extractLsb' 48 8 = m1 at *
  generalize m.extractLsb' 0 48 = m0 at *
  subst hc
  simp [decMajor2A, Raw.cmd, -BitVec.getLsbD_eq_getElem, f0, f1, f2, hw]

theorem cpyc (p : Pred) (d : XReg) (a : XReg) (b : XReg) (c : XReg) (sfmt : BitVec 5) (dfmt : BitVec 5) (rm : Rm) : Statement (.cpyc p d a b c sfmt dfmt rm) := by
  intro h w e
  have hw : (rm != .dyn) = true := h
  cases e
  rw [encE, decodeSlot_2A]
  have f0 : (sfmt ++ dfmt ++ rm.code ++ (0 : BitVec 43)).extractLsb' 0 43 = 0 := bits_eq fun i hi => by simp only [bit, BitVec.getLsbD_append, BitVec.getLsbD_ofBool, BitVec.getLsbD_setWidth, BitVec.getLsbD_zero]; grind
  have f1 : (sfmt ++ dfmt ++ rm.code ++ (0 : BitVec 43)).extractLsb' 43 3 = rm.code := bits_eq fun i hi => by simp only [bit, BitVec.getLsbD_append, BitVec.getLsbD_ofBool, BitVec.getLsbD_setWidth, BitVec.getLsbD_zero]; grind
  have f2 : (sfmt ++ dfmt ++ rm.code ++ (0 : BitVec 43)).extractLsb' 51 5 = sfmt := bits_eq fun i hi => by simp only [bit, BitVec.getLsbD_append, BitVec.getLsbD_ofBool, BitVec.getLsbD_setWidth, BitVec.getLsbD_zero]; grind
  have f3 : (sfmt ++ dfmt ++ rm.code ++ (0 : BitVec 43)).extractLsb' 46 5 = dfmt := bits_eq fun i hi => by simp only [bit, BitVec.getLsbD_append, BitVec.getLsbD_ofBool, BitVec.getLsbD_setWidth, BitVec.getLsbD_zero]; grind
  have hc := cmd_encE (sfmt ++ dfmt ++ rm.code ++ (0 : BitVec 43))
  generalize sfmt ++ dfmt ++ rm.code ++ (0 : BitVec 43) = m at *
  generalize m.extractLsb' 48 8 = m1 at *
  generalize m.extractLsb' 0 48 = m0 at *
  subst hc
  simp [decMajor2A, Raw.cmd, -BitVec.getLsbD_eq_getElem, f0, f1, f2, f3, hw]

theorem cpya (p : Pred) (d : XReg) (a : XReg) (b : XReg) (c : XReg) : Statement (.cpya p d a b c) := by
  intro h w e
  cases e
  rw [encE, decodeSlot_2A]
  simp [decMajor2A, Raw.cmd]

theorem susp (p : Pred) (d : XReg) (op : Top) (a : XReg) (b : XReg) (cfmt : BitVec 5) (rm : Rm) (loc : Loc) : Statement (.susp p d op a b cfmt rm loc) := by
  intro h w e
  simp only [Instr.wf, Bool.and_eq_true] at h
  obtain ⟨⟨⟨h1, h2⟩, h3⟩, h4⟩ := h
  replace h2 : (op == .convert || cfmt == 0#5) = true := h2
  replace h3 : (!op.unary || b == 0#6) = true := h3
  cases e
  rw [decodeSlot_30]
  have f0 : (cfmt ++ rm.code ++ (0 : BitVec 8) ++ loc.enc).extractLsb' 32 8 = 0 := bits_eq fun i hi => by simp only [bit, BitVec.getLsbD_append, BitVec.getLsbD_ofBool, BitVec.getLsbD_setWidth, BitVec.getLsbD_zero]; grind
  have f1 : (cfmt ++ rm.code ++ (0 : BitVec 8) ++ loc.enc).extractLsb' 40 3 = rm.code := bits_eq fun i hi => by simp only [bit, BitVec.getLsbD_append, BitVec.getLsbD_ofBool, BitVec.getLsbD_setWidth, BitVec.getLsbD_zero]; grind
  have f2 : (cfmt ++ rm.code ++ (0 : BitVec 8) ++ loc.enc).extractLsb' 43 5 = cfmt := bits_eq fun i hi => by simp only [bit, BitVec.getLsbD_append, BitVec.getLsbD_ofBool, BitVec.getLsbD_setWidth, BitVec.getLsbD_zero]; grind
  have f3 : (cfmt ++ rm.code ++ (0 : BitVec 8) ++ loc.enc).extractLsb' 0 32 = loc.enc := bits_eq fun i hi => by simp only [bit, BitVec.getLsbD_append, BitVec.getLsbD_ofBool, BitVec.getLsbD_setWidth, BitVec.getLsbD_zero]; grind
  generalize cfmt ++ rm.code ++ (0 : BitVec 8) ++ loc.enc = m at *
  simp [decMajor30, -BitVec.getLsbD_eq_getElem, f0, f1, f2, f3, Raw.needZeroBCMI, decLoc_enc, h1, h2, h3, h4, -Bool.or_eq_true, -Bool.not_eq_true]

theorem suspr (p : Pred) (d : XReg) (a : XReg) (b : XReg) (c : XReg) (ridx : BitVec 16) : Statement (.suspr p d a b c ridx) := by
  intro h w e
  cases e
  rw [decodeSlot_30]
  have f0 : (ridx ++ (0 : BitVec 32)).extractLsb' 0 32 = 0 := bits_eq fun i hi => by simp only [bit, BitVec.getLsbD_append, BitVec.getLsbD_ofBool, BitVec.getLsbD_setWidth, BitVec.getLsbD_zero]; grind
  have f1 : (ridx ++ (0 : BitVec 32)).extractLsb' 32 16 = ridx := bits_eq fun i hi => by simp only [bit, BitVec.getLsbD_append, BitVec.getLsbD_ofBool, BitVec.getLsbD_setWidth, BitVec.getLsbD_zero]; grind
  generalize ridx ++ (0 : BitVec 32) = m at *
  simp [decMajor30, -BitVec.getLsbD_eq_getElem, f0, f1, Raw.needZeroBCMI]

theorem mkval (p : Pred) (d : XReg) (t : TReg) : Statement (.mkval p d t) := by
  intro h w e
  cases e
  rw [decodeSlot_30]
  simp_all [decMajor30, Instr.wf, Raw.hi3, Raw.view, Raw.bit0, Raw.bit1, modM_eq, Raw.needZeroBCMI]

theorem force (p : Pred) (a : XReg) : Statement (.force p a) := by
  intro h w e
  cases e
  rw [decodeSlot_31]
  simp_all [decMajor31, Instr.wf, Raw.hi3, Raw.view, Raw.bit0, Raw.bit1, modM_eq, decA, Raw.needZeroBCMI]

theorem spark (p : Pred) (a : XReg) : Statement (.spark p a) := by
  intro h w e
  cases e
  rw [decodeSlot_31]
  simp_all [decMajor31, Instr.wf, Raw.hi3, Raw.view, Raw.bit0, Raw.bit1, modM_eq, decA, Raw.needZeroBCMI]

theorem result (p : Pred) (t : TReg) : Statement (.result p t) := by
  intro h w e
  cases e
  rw [decodeSlot_31]
  simp_all [decMajor31, Instr.wf, Raw.hi3, Raw.view, Raw.bit0, Raw.bit1, modM_eq, decA, Raw.needZeroBCMI]

theorem dup (p : Pred) (a : XReg) : Statement (.dup p a) := by
  intro h w e
  cases e
  rw [decodeSlot_32]
  simp_all [decMajor32, Instr.wf, Raw.hi3, Raw.view, Raw.bit0, Raw.bit1, modM_eq, decDA, decA, Raw.needZeroBCMI]

theorem drop (p : Pred) (a : XReg) : Statement (.drop p a) := by
  intro h w e
  cases e
  rw [decodeSlot_32]
  simp_all [decMajor32, Instr.wf, Raw.hi3, Raw.view, Raw.bit0, Raw.bit1, modM_eq, decDA, decA, Raw.needZeroBCMI]

theorem hstat (p : Pred) (d : XReg) (a : XReg) : Statement (.hstat p d a) := by
  intro h w e
  cases e
  rw [decodeSlot_32]
  simp_all [decMajor32, Instr.wf, Raw.hi3, Raw.view, Raw.bit0, Raw.bit1, modM_eq, decDA, decA, Raw.needZeroBCMI]

theorem htile (p : Pred) (t : TReg) (a : XReg) : Statement (.htile p t a) := by
  intro h w e
  cases e
  rw [decodeSlot_32]
  simp_all [decMajor32, Instr.wf, Raw.hi3, Raw.view, Raw.bit0, Raw.bit1, modM_eq, decDA, decA, Raw.needZeroBCMI]

theorem padd (p : Pred) (v : View) (a : XReg) (c : XReg) (imm : Imm48) : Statement (.padd p v a c imm) := by
  intro h w e
  cases e
  rw [decodeSlot_34]
  simp_all [decMajor34, Instr.wf, Raw.hi3, Raw.view, Raw.bit0, Raw.bit1, modM_eq, decAddend, decNone, Raw.needZeroBCMI]

theorem paddv (p : Pred) (v : View) (u : Bool) (a : XReg) (b : VReg) (c : VReg) (sh : BitVec 3) (imm : Imm48) : Statement (.paddv p v u a b c sh imm) := by
  intro h w e
  cases e
  rw [decodeSlot_34]
  simp_all [decMajor34, Instr.wf, Raw.hi3, Raw.view, Raw.bit0, Raw.bit1, modM_eq, decAddend, decNone, Raw.needZeroBCMI]

theorem pfence (p : Pred) : Statement (.pfence p) := by
  intro h w e
  cases e
  rw [decodeSlot_34]
  simp_all [decMajor34, Instr.wf, Raw.hi3, Raw.view, Raw.bit0, Raw.bit1, modM_eq, decAddend, decNone, Raw.needZeroBCMI]

theorem pclr (p : Pred) (a : XReg) (imm : Imm48) : Statement (.pclr p a imm) := by
  intro h w e
  cases e
  rw [decodeSlot_34]
  simp_all [decMajor34, Instr.wf, Raw.hi3, Raw.view, Raw.bit0, Raw.bit1, modM_eq, decAddend, decNone, Raw.needZeroBCMI]

theorem pset (p : Pred) (v : View) (a : XReg) (c : XReg) (imm : Imm48) : Statement (.pset p v a c imm) := by
  intro h w e
  cases e
  rw [decodeSlot_34]
  simp_all [decMajor34, Instr.wf, Raw.hi3, Raw.view, Raw.bit0, Raw.bit1, modM_eq, decAddend, decNone, Raw.needZeroBCMI]

theorem praw (p : Pred) (d : VReg) (a : XReg) (imm : Imm48) : Statement (.praw p d a imm) := by
  intro h w e
  cases e
  rw [decodeSlot_34]
  simp_all [decMajor34, Instr.wf, Raw.hi3, Raw.view, Raw.bit0, Raw.bit1, modM_eq, decAddend, decNone, Raw.needZeroBCMI]

theorem amoAdd (p : Pred) (dbl : Bool) (d : XReg) (a : XReg) (c : XReg) (imm : Imm48) : Statement (.amoAdd p dbl d a c imm) := by
  intro h w e
  cases dbl <;> cases e <;> rw [encAmo, decodeSlot_38] <;> simp_all [decMajor38, Instr.wf, Raw.hi3, Raw.view, Raw.bit0, Raw.bit1, modM_eq, decAmo, decAmonr, decDbl]

theorem amoAnd (p : Pred) (dbl : Bool) (d : XReg) (a : XReg) (c : XReg) (imm : Imm48) : Statement (.amoAnd p dbl d a c imm) := by
  intro h w e
  cases dbl <;> cases e <;> rw [encAmo, decodeSlot_38] <;> simp_all [decMajor38, Instr.wf, Raw.hi3, Raw.view, Raw.bit0, Raw.bit1, modM_eq, decAmo, decAmonr, decDbl]

theorem amoOr (p : Pred) (dbl : Bool) (d : XReg) (a : XReg) (c : XReg) (imm : Imm48) : Statement (.amoOr p dbl d a c imm) := by
  intro h w e
  cases dbl <;> cases e <;> rw [encAmo, decodeSlot_38] <;> simp_all [decMajor38, Instr.wf, Raw.hi3, Raw.view, Raw.bit0, Raw.bit1, modM_eq, decAmo, decAmonr, decDbl]

theorem amoXor (p : Pred) (dbl : Bool) (d : XReg) (a : XReg) (c : XReg) (imm : Imm48) : Statement (.amoXor p dbl d a c imm) := by
  intro h w e
  cases dbl <;> cases e <;> rw [encAmo, decodeSlot_38] <;> simp_all [decMajor38, Instr.wf, Raw.hi3, Raw.view, Raw.bit0, Raw.bit1, modM_eq, decAmo, decAmonr, decDbl]

theorem amoMin (p : Pred) (dbl : Bool) (d : XReg) (a : XReg) (c : XReg) (imm : Imm48) : Statement (.amoMin p dbl d a c imm) := by
  intro h w e
  cases dbl <;> cases e <;> rw [encAmo, decodeSlot_38] <;> simp_all [decMajor38, Instr.wf, Raw.hi3, Raw.view, Raw.bit0, Raw.bit1, modM_eq, decAmo, decAmonr, decDbl]

theorem amoMax (p : Pred) (dbl : Bool) (d : XReg) (a : XReg) (c : XReg) (imm : Imm48) : Statement (.amoMax p dbl d a c imm) := by
  intro h w e
  cases dbl <;> cases e <;> rw [encAmo, decodeSlot_38] <;> simp_all [decMajor38, Instr.wf, Raw.hi3, Raw.view, Raw.bit0, Raw.bit1, modM_eq, decAmo, decAmonr, decDbl]

theorem amoMinu (p : Pred) (dbl : Bool) (d : XReg) (a : XReg) (c : XReg) (imm : Imm48) : Statement (.amoMinu p dbl d a c imm) := by
  intro h w e
  cases dbl <;> cases e <;> rw [encAmo, decodeSlot_38] <;> simp_all [decMajor38, Instr.wf, Raw.hi3, Raw.view, Raw.bit0, Raw.bit1, modM_eq, decAmo, decAmonr, decDbl]

theorem amoMaxu (p : Pred) (dbl : Bool) (d : XReg) (a : XReg) (c : XReg) (imm : Imm48) : Statement (.amoMaxu p dbl d a c imm) := by
  intro h w e
  cases dbl <;> cases e <;> rw [encAmo, decodeSlot_38] <;> simp_all [decMajor38, Instr.wf, Raw.hi3, Raw.view, Raw.bit0, Raw.bit1, modM_eq, decAmo, decAmonr, decDbl]

theorem amoSwap (p : Pred) (dbl : Bool) (d : XReg) (a : XReg) (c : XReg) (imm : Imm48) : Statement (.amoSwap p dbl d a c imm) := by
  intro h w e
  cases dbl <;> cases e <;> rw [encAmo, decodeSlot_38] <;> simp_all [decMajor38, Instr.wf, Raw.hi3, Raw.view, Raw.bit0, Raw.bit1, modM_eq, decAmo, decAmonr, decDbl]

theorem amonrAdd (p : Pred) (dbl : Bool) (a : XReg) (c : XReg) (imm : Imm48) : Statement (.amonrAdd p dbl a c imm) := by
  intro h w e
  cases dbl <;> cases e <;> rw [encAmo, decodeSlot_38] <;> simp_all [decMajor38, Instr.wf, Raw.hi3, Raw.view, Raw.bit0, Raw.bit1, modM_eq, decAmo, decAmonr, decDbl]

theorem amonrAnd (p : Pred) (dbl : Bool) (a : XReg) (c : XReg) (imm : Imm48) : Statement (.amonrAnd p dbl a c imm) := by
  intro h w e
  cases dbl <;> cases e <;> rw [encAmo, decodeSlot_38] <;> simp_all [decMajor38, Instr.wf, Raw.hi3, Raw.view, Raw.bit0, Raw.bit1, modM_eq, decAmo, decAmonr, decDbl]

theorem amonrOr (p : Pred) (dbl : Bool) (a : XReg) (c : XReg) (imm : Imm48) : Statement (.amonrOr p dbl a c imm) := by
  intro h w e
  cases dbl <;> cases e <;> rw [encAmo, decodeSlot_38] <;> simp_all [decMajor38, Instr.wf, Raw.hi3, Raw.view, Raw.bit0, Raw.bit1, modM_eq, decAmo, decAmonr, decDbl]

theorem amonrXor (p : Pred) (dbl : Bool) (a : XReg) (c : XReg) (imm : Imm48) : Statement (.amonrXor p dbl a c imm) := by
  intro h w e
  cases dbl <;> cases e <;> rw [encAmo, decodeSlot_38] <;> simp_all [decMajor38, Instr.wf, Raw.hi3, Raw.view, Raw.bit0, Raw.bit1, modM_eq, decAmo, decAmonr, decDbl]

theorem amonrMin (p : Pred) (dbl : Bool) (a : XReg) (c : XReg) (imm : Imm48) : Statement (.amonrMin p dbl a c imm) := by
  intro h w e
  cases dbl <;> cases e <;> rw [encAmo, decodeSlot_38] <;> simp_all [decMajor38, Instr.wf, Raw.hi3, Raw.view, Raw.bit0, Raw.bit1, modM_eq, decAmo, decAmonr, decDbl]

theorem amonrMax (p : Pred) (dbl : Bool) (a : XReg) (c : XReg) (imm : Imm48) : Statement (.amonrMax p dbl a c imm) := by
  intro h w e
  cases dbl <;> cases e <;> rw [encAmo, decodeSlot_38] <;> simp_all [decMajor38, Instr.wf, Raw.hi3, Raw.view, Raw.bit0, Raw.bit1, modM_eq, decAmo, decAmonr, decDbl]

theorem amonrMinu (p : Pred) (dbl : Bool) (a : XReg) (c : XReg) (imm : Imm48) : Statement (.amonrMinu p dbl a c imm) := by
  intro h w e
  cases dbl <;> cases e <;> rw [encAmo, decodeSlot_38] <;> simp_all [decMajor38, Instr.wf, Raw.hi3, Raw.view, Raw.bit0, Raw.bit1, modM_eq, decAmo, decAmonr, decDbl]

theorem amonrMaxu (p : Pred) (dbl : Bool) (a : XReg) (c : XReg) (imm : Imm48) : Statement (.amonrMaxu p dbl a c imm) := by
  intro h w e
  cases dbl <;> cases e <;> rw [encAmo, decodeSlot_38] <;> simp_all [decMajor38, Instr.wf, Raw.hi3, Raw.view, Raw.bit0, Raw.bit1, modM_eq, decAmo, decAmonr, decDbl]

theorem amonrSwap (p : Pred) (dbl : Bool) (a : XReg) (c : XReg) (imm : Imm48) : Statement (.amonrSwap p dbl a c imm) := by
  intro h w e
  cases dbl <;> cases e <;> rw [encAmo, decodeSlot_38] <;> simp_all [decMajor38, Instr.wf, Raw.hi3, Raw.view, Raw.bit0, Raw.bit1, modM_eq, decAmo, decAmonr, decDbl]

theorem cas (p : Pred) (dbl : Bool) (d : XReg) (a : XReg) (b : XReg) (c : XReg) (imm : Imm48) : Statement (.cas p dbl d a b c imm) := by
  intro h w e
  cases dbl <;> cases e <;> rw [encAmo, decodeSlot_38] <;> simp_all [decMajor38, Instr.wf, Raw.hi3, Raw.view, Raw.bit0, Raw.bit1, modM_eq, decAmo, decAmonr, decDbl]

theorem fenceSysAcq (p : Pred) : Statement (.fenceSysAcq p) := by
  intro h w e
  cases e
  rw [decodeSlot_39]
  simp_all [decMajor39, Instr.wf, Raw.hi3, Raw.view, Raw.bit0, Raw.bit1, modM_eq, decNone, decDA, Raw.needZeroBCMI]

theorem fenceSysRel (p : Pred) : Statement (.fenceSysRel p) := by
  intro h w e
  cases e
  rw [decodeSlot_39]
  simp_all [decMajor39, Instr.wf, Raw.hi3, Raw.view, Raw.bit0, Raw.bit1, modM_eq, decNone, decDA, Raw.needZeroBCMI]

theorem fenceSysFull (p : Pred) : Statement (.fenceSysFull p) := by
  intro h w e
  cases e
  rw [decodeSlot_39]
  simp_all [decMajor39, Instr.wf, Raw.hi3, Raw.view, Raw.bit0, Raw.bit1, modM_eq, decNone, decDA, Raw.needZeroBCMI]

theorem evld (p : Pred) (d : XReg) (a : XReg) : Statement (.evld p d a) := by
  intro h w e
  cases e
  rw [decodeSlot_39]
  simp_all [decMajor39, Instr.wf, Raw.hi3, Raw.view, Raw.bit0, Raw.bit1, modM_eq, decNone, decDA, Raw.needZeroBCMI]

theorem evtrig (p : Pred) (a : XReg) : Statement (.evtrig p a) := by
  intro h w e
  cases e
  rw [decodeSlot_39]
  simp_all [decMajor39, Instr.wf, Raw.hi3, Raw.view, Raw.bit0, Raw.bit1, modM_eq, decNone, decDA, Raw.needZeroBCMI]

theorem evtrigConf (p : Pred) (a : XReg) (c : XReg) : Statement (.evtrigConf p a c) := by
  intro h w e
  cases e
  rw [decodeSlot_39]
  simp_all [decMajor39, Instr.wf, Raw.hi3, Raw.view, Raw.bit0, Raw.bit1, modM_eq, decNone, decDA, Raw.needZeroBCMI]

theorem evmsg (p : Pred) (a : XReg) (c : XReg) : Statement (.evmsg p a c) := by
  intro h w e
  cases e
  rw [decodeSlot_39]
  simp_all [decMajor39, Instr.wf, Raw.hi3, Raw.view, Raw.bit0, Raw.bit1, modM_eq, decNone, decDA, Raw.needZeroBCMI]

theorem evmsgPeer (p : Pred) (a : XReg) (c : XReg) (node : BitVec 22) : Statement (.evmsgPeer p a c node) := by
  intro h w e
  cases e
  rw [decodeSlot_39]
  have f0 : (node.setWidth 48).extractLsb' 22 26 = 0 := bits_eq fun i hi => by simp only [bit, BitVec.getLsbD_append, BitVec.getLsbD_ofBool, BitVec.getLsbD_setWidth, BitVec.getLsbD_zero]; grind
  have f1 : (node.setWidth 48).extractLsb' 0 22 = node := bits_eq fun i hi => by simp only [bit, BitVec.getLsbD_append, BitVec.getLsbD_ofBool, BitVec.getLsbD_setWidth, BitVec.getLsbD_zero]; grind
  generalize node.setWidth 48 = m at *
  simp [decMajor39, -BitVec.getLsbD_eq_getElem, f0, f1, decNone, decDA, Raw.needZeroBCMI, Raw.bit0]

theorem bar (p : Pred) (d : BitVec 4) : Statement (.bar p d) := by
  intro h w e
  cases e
  rw [decodeSlot_3A]
  simp_all [decMajor3A, Instr.wf, Raw.hi3, Raw.view, Raw.bit0, Raw.bit1, modM_eq, decNone, Raw.needZeroBCMI]

theorem settle (p : Pred) (d : BitVec 4) : Statement (.settle p d) := by
  intro h w e
  cases e
  rw [decodeSlot_3A]
  simp_all [decMajor3A, Instr.wf, Raw.hi3, Raw.view, Raw.bit0, Raw.bit1, modM_eq, decNone, Raw.needZeroBCMI]

theorem sdone (p : Pred) : Statement (.sdone p) := by
  intro h w e
  cases e
  rw [decodeSlot_3A]
  simp_all [decMajor3A, Instr.wf, Raw.hi3, Raw.view, Raw.bit0, Raw.bit1, modM_eq, decNone, Raw.needZeroBCMI]

theorem send (p : Pred) (vec : Bool) (a : XReg) (buf : BitVec 4) (dcore : BitVec 13) (slot : BitVec 16) : Statement (.send p vec a buf dcore slot) := by
  intro h w e
  simp only [Instr.wf] at h
  cases e
  rw [decodeSlot_3B]
  have f0 : ((0 : BitVec 15) ++ buf ++ dcore ++ slot).extractLsb' 33 15 = 0 := bits_eq fun i hi => by simp only [bit, BitVec.getLsbD_append, BitVec.getLsbD_ofBool, BitVec.getLsbD_setWidth, BitVec.getLsbD_zero]; grind
  have f1 : ((0 : BitVec 15) ++ buf ++ dcore ++ slot).extractLsb' 29 4 = buf := bits_eq fun i hi => by simp only [bit, BitVec.getLsbD_append, BitVec.getLsbD_ofBool, BitVec.getLsbD_setWidth, BitVec.getLsbD_zero]; grind
  have f2 : ((0 : BitVec 15) ++ buf ++ dcore ++ slot).extractLsb' 16 13 = dcore := bits_eq fun i hi => by simp only [bit, BitVec.getLsbD_append, BitVec.getLsbD_ofBool, BitVec.getLsbD_setWidth, BitVec.getLsbD_zero]; grind
  have f3 : ((0 : BitVec 15) ++ buf ++ dcore ++ slot).extractLsb' 0 16 = slot := bits_eq fun i hi => by simp only [bit, BitVec.getLsbD_append, BitVec.getLsbD_ofBool, BitVec.getLsbD_setWidth, BitVec.getLsbD_zero]; grind
  generalize (0 : BitVec 15) ++ buf ++ dcore ++ slot = m at *
  have hb : ((bit vec).setWidth 8).toNat < 2 ∧ ((bit vec).setWidth 8).getLsbD 0 = vec := by cases vec <;> decide
  generalize (bit vec).setWidth 8 = z at *
  simp [decMajor3B, -BitVec.getLsbD_eq_getElem, f0, f1, f2, f3, Raw.bit0, h, hb.1, hb.2, -Bool.or_eq_true]

theorem recv (p : Pred) (vec : Bool) (d : XReg) (buf : BitVec 4) (slot : BitVec 16) : Statement (.recv p vec d buf slot) := by
  intro h w e
  simp only [Instr.wf] at h
  cases e
  rw [decodeSlot_3B]
  have f0 : ((0 : BitVec 15) ++ buf ++ (0 : BitVec 13) ++ slot).extractLsb' 33 15 = 0 := bits_eq fun i hi => by simp only [bit, BitVec.getLsbD_append, BitVec.getLsbD_ofBool, BitVec.getLsbD_setWidth, BitVec.getLsbD_zero]; grind
  have f1 : ((0 : BitVec 15) ++ buf ++ (0 : BitVec 13) ++ slot).extractLsb' 29 4 = buf := bits_eq fun i hi => by simp only [bit, BitVec.getLsbD_append, BitVec.getLsbD_ofBool, BitVec.getLsbD_setWidth, BitVec.getLsbD_zero]; grind
  have f2 : ((0 : BitVec 15) ++ buf ++ (0 : BitVec 13) ++ slot).extractLsb' 16 13 = 0 := bits_eq fun i hi => by simp only [bit, BitVec.getLsbD_append, BitVec.getLsbD_ofBool, BitVec.getLsbD_setWidth, BitVec.getLsbD_zero]; grind
  have f3 : ((0 : BitVec 15) ++ buf ++ (0 : BitVec 13) ++ slot).extractLsb' 0 16 = slot := bits_eq fun i hi => by simp only [bit, BitVec.getLsbD_append, BitVec.getLsbD_ofBool, BitVec.getLsbD_setWidth, BitVec.getLsbD_zero]; grind
  generalize (0 : BitVec 15) ++ buf ++ (0 : BitVec 13) ++ slot = m at *
  have hb : ((bit vec).setWidth 8).toNat < 2 ∧ ((bit vec).setWidth 8).getLsbD 0 = vec := by cases vec <;> decide
  generalize (bit vec).setWidth 8 = z at *
  simp [decMajor3B, -BitVec.getLsbD_eq_getElem, f0, f1, f2, f3, Raw.bit0, h, hb.1, hb.2, -Bool.or_eq_true]

theorem confid (p : Pred) (v : View) (d : XReg) (a : VReg) (b : XReg) (c : XReg) (n : BitVec 12) : Statement (.confid p v d a b c n) := by
  intro h w e
  have hv : (v == .w || v == .b) = true := by cases v <;> first | rfl | cases h
  cases e
  rw [decodeSlot_3C]
  simp only [Instr.wf] at h
  simp [decMajor3C, Raw.hi3, Raw.view, Raw.bit0, Raw.bit1, modM_eq, h, hv, -Bool.or_eq_true]

theorem exitk (p : Pred) (d : XReg) (a : XReg) (b : XReg) (nl : BitVec 9) : Statement (.exitk p d a b nl) := by
  intro h w e
  cases e
  rw [decodeSlot_3C]
  simp_all [decMajor3C, Instr.wf, Raw.hi3, Raw.view, Raw.bit0, Raw.bit1, modM_eq, decA, Raw.needZeroBCMI]

theorem kvapp (p : Pred) (d : XReg) (a : XReg) (b : VReg) (c : VReg) : Statement (.kvapp p d a b c) := by
  intro h w e
  cases e
  rw [decodeSlot_3C]
  simp_all [decMajor3C, Instr.wf, Raw.hi3, Raw.view, Raw.bit0, Raw.bit1, modM_eq, decA, Raw.needZeroBCMI]

theorem kvappFill (p : Pred) (d : XReg) (a : XReg) (b : VReg) (c : VReg) : Statement (.kvappFill p d a b c) := by
  intro h w e
  cases e
  rw [decodeSlot_3C]
  simp_all [decMajor3C, Instr.wf, Raw.hi3, Raw.view, Raw.bit0, Raw.bit1, modM_eq, decA, Raw.needZeroBCMI]

theorem kvldWait (p : Pred) (t : TReg) (a : XReg) (b : XReg) (c : TReg) (n : BitVec 7) : Statement (.kvldWait p t a b c n) := by
  intro h w e
  cases e
  rw [decodeSlot_3C]
  simp_all [decMajor3C, Instr.wf, Raw.hi3, Raw.view, Raw.bit0, Raw.bit1, modM_eq, decA, Raw.needZeroBCMI]

theorem kvldMask (p : Pred) (t : TReg) (a : XReg) (b : XReg) (c : TReg) (n : BitVec 7) : Statement (.kvldMask p t a b c n) := by
  intro h w e
  cases e
  rw [decodeSlot_3C]
  simp_all [decMajor3C, Instr.wf, Raw.hi3, Raw.view, Raw.bit0, Raw.bit1, modM_eq, decA, Raw.needZeroBCMI]

theorem arwait (p : Pred) (a : XReg) : Statement (.arwait p a) := by
  intro h w e
  cases e
  rw [decodeSlot_3C]
  simp_all [decMajor3C, Instr.wf, Raw.hi3, Raw.view, Raw.bit0, Raw.bit1, modM_eq, decA, Raw.needZeroBCMI]

theorem trap (p : Pred) (code : BitVec 16) : Statement (.trap p code) := by
  intro h w e
  cases e
  rw [decodeSlot_3D]
  simp_all [decMajor3D, Instr.wf, Raw.hi3, Raw.view, Raw.bit0, Raw.bit1, modM_eq, decNone, decDA, Raw.needZeroBCMI]

theorem eret (p : Pred) : Statement (.eret p) := by
  intro h w e
  cases e
  rw [decodeSlot_3D]
  simp_all [decMajor3D, Instr.wf, Raw.hi3, Raw.view, Raw.bit0, Raw.bit1, modM_eq, decNone, decDA, Raw.needZeroBCMI]

theorem replay (p : Pred) (d : XReg) (a : XReg) : Statement (.replay p d a) := by
  intro h w e
  cases e
  rw [decodeSlot_3D]
  simp_all [decMajor3D, Instr.wf, Raw.hi3, Raw.view, Raw.bit0, Raw.bit1, modM_eq, decNone, decDA, Raw.needZeroBCMI]

theorem csave (p : Pred) (d : XReg) (a : XReg) (b : XReg) : Statement (.csave p d a b) := by
  intro h w e
  cases e
  rw [decodeSlot_3D]
  simp_all [decMajor3D, Instr.wf, Raw.hi3, Raw.view, Raw.bit0, Raw.bit1, modM_eq, decNone, decDA, Raw.needZeroBCMI]

theorem crest (p : Pred) (d : XReg) (a : XReg) (b : XReg) : Statement (.crest p d a b) := by
  intro h w e
  cases e
  rw [decodeSlot_3D]
  simp_all [decMajor3D, Instr.wf, Raw.hi3, Raw.view, Raw.bit0, Raw.bit1, modM_eq, decNone, decDA, Raw.needZeroBCMI]

theorem halt (p : Pred) : Statement (.halt p) := by
  intro h w e
  cases e
  rw [decodeSlot_3E]
  simp_all [decMajor3E, Instr.wf, Raw.hi3, Raw.view, Raw.bit0, Raw.bit1, modM_eq]

theorem haltRetain (p : Pred) : Statement (.haltRetain p) := by
  intro h w e
  cases e
  rw [decodeSlot_3E]
  simp_all [decMajor3E, Instr.wf, Raw.hi3, Raw.view, Raw.bit0, Raw.bit1, modM_eq]

theorem trace (p : Pred) (a : XReg) (b : XReg) (tag : BitVec 16) : Statement (.trace p a b tag) := by
  intro h w e
  cases e
  rw [decodeSlot_3E]
  simp_all [decMajor3E, Instr.wf, Raw.hi3, Raw.view, Raw.bit0, Raw.bit1, modM_eq]

theorem admission (q : BitVec 6) : Statement (.admission q) := by intro h w e; cases e
theorem placement (q : BitVec 6) : Statement (.placement q) := by intro h w e; cases e
theorem superstepStart (q : BitVec 6) : Statement (.superstepStart q) := by intro h w e; cases e
theorem routineStart (c : CtxId) : Statement (.routineStart c) := by intro h w e; cases e
theorem clearingReport (q : BitVec 6) (u : ClearUnit) : Statement (.clearingReport q u) := by intro h w e; cases e
theorem superstepEnd (q : BitVec 6) : Statement (.superstepEnd q) := by intro h w e; cases e
theorem launchCompletion (q : BitVec 6) : Statement (.launchCompletion q) := by intro h w e; cases e
theorem preemptionTakesEffect (q : BitVec 6) : Statement (.preemptionTakesEffect q) := by intro h w e; cases e
theorem clusterRelease (q : BitVec 6) : Statement (.clusterRelease q) := by intro h w e; cases e
theorem launchResume (q : BitVec 6) : Statement (.launchResume q) := by intro h w e; cases e
theorem clusterClearing (cluster : BitVec 10) : Statement (.clusterClearing cluster) := by intro h w e; cases e
theorem teardownComplete (q : BitVec 6) : Statement (.teardownComplete q) := by intro h w e; cases e
theorem tlbInvalidationDone (secure : Bool) : Statement (.tlbInvalidationDone secure) := by intro h w e; cases e
theorem lineRefetch (c : CtxId) : Statement (.lineRefetch c) := by intro h w e; cases e
theorem rollGroupArrival (c : CtxId) : Statement (.rollGroupArrival c) := by intro h w e; cases e
theorem followJoin (c : CtxId) : Statement (.followJoin c) := by intro h w e; cases e
theorem renewalReply (c : CtxId) : Statement (.renewalReply c) := by intro h w e; cases e
theorem storeReply (c : CtxId) : Statement (.storeReply c) := by intro h w e; cases e
theorem l2WritebackDone (line : BitVec 45) : Statement (.l2WritebackDone line) := by intro h w e; cases e
theorem tldCopyDone (i : Nat) : Statement (.tldCopyDone i) := by intro h w e; cases e
theorem jobStart (cluster : BitVec 10) (copy : Bool) : Statement (.jobStart cluster copy) := by intro h w e; cases e
theorem jobDone (cluster : BitVec 10) (copy : Bool) (queue : BitVec 4) : Statement (.jobDone cluster copy queue) := by intro h w e; cases e
theorem jobFault (cluster : BitVec 10) (copy : Bool) (queue : BitVec 4) : Statement (.jobFault cluster copy queue) := by intro h w e; cases e
theorem tellerOperation (cluster : BitVec 10) : Statement (.tellerOperation cluster) := by intro h w e; cases e
theorem evaluationComplete (cluster : BitVec 10) (slot : BitVec 11) : Statement (.evaluationComplete cluster slot) := by intro h w e; cases e
theorem sparkStart (cluster : BitVec 10) : Statement (.sparkStart cluster) := by intro h w e; cases e
theorem remoteDrop (i : Nat) : Statement (.remoteDrop i) := by intro h w e; cases e
theorem arrearsSpark (die : BitVec 3) : Statement (.arrearsSpark die) := by intro h w e; cases e
theorem postedOperationApply (i : Nat) : Statement (.postedOperationApply i) := by intro h w e; cases e
theorem purseAck (i : Nat) : Statement (.purseAck i) := by intro h w e; cases e
theorem episodeRelease (q : BitVec 6) (dom : BitVec 4) : Statement (.episodeRelease q dom) := by intro h w e; cases e
theorem sendArrival (i : Nat) : Statement (.sendArrival i) := by intro h w e; cases e
theorem slenReached (q : BitVec 6) : Statement (.slenReached q) := by intro h w e; cases e
theorem faultRecordWrite (secure : Bool) : Statement (.faultRecordWrite secure) := by intro h w e; cases e
theorem walkCompletion (i : Nat) : Statement (.walkCompletion i) := by intro h w e; cases e
theorem l1CopyDrop (cluster : BitVec 10) (line : BitVec 45) : Statement (.l1CopyDrop cluster line) := by intro h w e; cases e
theorem supersededCopyDrop (pa : PAddr) : Statement (.supersededCopyDrop pa) := by intro h w e; cases e
theorem depositCacheWritebackDone (line : BitVec 45) : Statement (.depositCacheWritebackDone line) := by intro h w e; cases e
theorem ageingSweep (h : Holder) : Statement (.ageingSweep h) := by intro h w e; cases e
theorem qsub (q : BitVec 6) (v : Word) : Statement (.qsub q v) := by intro h w e; cases e
theorem barRegisterWrite (secure : Bool) (off : BitVec 24) (size : BitVec 8) (v : Word) : Statement (.barRegisterWrite secure off size v) := by intro h w e; cases e
theorem tickets (q : BitVec 6) (v : Word) : Statement (.tickets q v) := by intro h w e; cases e
theorem preempt (q : BitVec 6) (v : Word) : Statement (.preempt q v) := by intro h w e; cases e
theorem enable (q : BitVec 6) (v : Word) : Statement (.enable q v) := by intro h w e; cases e
theorem cworldWrite (word : BitVec 4) (v : Word) : Statement (.cworldWrite word v) := by intro h w e; cases e
theorem csworldWrite (die : BitVec 3) (v : Word) : Statement (.csworldWrite die v) := by intro h w e; cases e
theorem tlbInvalidationRequest (secure : Bool) (v : Word) : Statement (.tlbInvalidationRequest secure v) := by intro h w e; cases e
theorem replayRegisterWrite (secure : Bool) (v : Word) : Statement (.replayRegisterWrite secure v) := by intro h w e; cases e
theorem frtail (secure : Bool) (v : Word) : Statement (.frtail secure v) := by intro h w e; cases e
theorem assayRangeWrite (secure : Bool) (i : BitVec 4) (word : BitVec 3) (v : Word) : Statement (.assayRangeWrite secure i word v) := by intro h w e; cases e
theorem kill (secure : Bool) (v : Word) : Statement (.kill secure v) := by intro h w e; cases e
theorem hcsize (v : Word) : Statement (.hcsize v) := by intro h w e; cases e
theorem trtail (secure : Bool) (die : BitVec 3) (v : Word) : Statement (.trtail secure die v) := by intro h w e; cases e
theorem snpinv (pa : PAddr) (w : Option HostWrite) (keep : Bool) : Statement (.snpinv pa w keep) := by intro h w e; cases e
theorem snpdata (pa : PAddr) : Statement (.snpdata pa) := by intro h w e; cases e
theorem snpcur (pa : PAddr) : Statement (.snpcur pa) := by intro h w e; cases e
theorem goS (pa : PAddr) (exclusive : Bool) : Statement (.goS pa exclusive) := by intro h w e; cases e
theorem writeEntryRelease (pa : PAddr) : Statement (.writeEntryRelease pa) := by intro h w e; cases e
theorem hostCxlMemWrite (pa : PAddr) (bytes : List Byte) : Statement (.hostCxlMemWrite pa bytes) := by intro h w e; cases e
theorem hostCxlMemRead (pa : PAddr) (n : BitVec 8) : Statement (.hostCxlMemRead pa n) := by intro h w e; cases e
theorem bisnpdataResponse (pa : PAddr) (data : Vec) : Statement (.bisnpdataResponse pa data) := by intro h w e; cases e
theorem bisnpinvAck (pa : PAddr) : Statement (.bisnpinvAck pa) := by intro h w e; cases e
theorem peerWrite (src : BitVec 22) (pa : PAddr) (data : Vec) : Statement (.peerWrite src pa data) := by intro h w e; cases e
theorem peerEvmsgArrival (src : BitVec 22) (cluster : BitVec 10) (line : BitVec 6) (msg : Word) : Statement (.peerEvmsgArrival src cluster line msg) := by intro h w e; cases e
theorem fabricAck (i : Nat) (v : PeerVerdict) (data : Vec) : Statement (.fabricAck i v data) := by intro h w e; cases e
theorem linkFailure (link : BitVec 5) : Statement (.linkFailure link) := by intro h w e; cases e
theorem linkUp (link : BitVec 5) : Statement (.linkUp link) := by intro h w e; cases e
theorem ptpOffsetCorrection (offset : Word) : Statement (.ptpOffsetCorrection offset) := by intro h w e; cases e
theorem ptpLock (on : Bool) : Statement (.ptpLock on) := by intro h w e; cases e
theorem throttling (r : Sensors) : Statement (.throttling r) := by intro h w e; cases e
theorem throttlingEnd (r : Sensors) : Statement (.throttlingEnd r) := by intro h w e; cases e
theorem thermalTrip (r : Sensors) : Statement (.thermalTrip r) := by intro h w e; cases e
theorem handleStoreDump (cluster : BitVec 10) : Statement (.handleStoreDump cluster) := by intro h w e; cases e
theorem powerLimit (w : Option Word) : Statement (.powerLimit w) := by intro h w e; cases e
theorem identity  : Statement (.identity) := by intro h w e; cases e
theorem sensors  : Statement (.sensors) := by intro h w e; cases e
theorem errors  : Statement (.errors) := by intro h w e; cases e
theorem conventionalReset  : Statement (.conventionalReset) := by intro h w e; cases e
theorem ready  : Statement (.ready) := by intro h w e; cases e
theorem selfAdvance  : Statement (.selfAdvance) := by intro h w e; cases e
theorem floor  : Statement (.floor) := by intro h w e; cases e
theorem ill  : Statement (.ill) := by
  intro h w e
  cases e
  unfold decodeSlot
  rfl

end Sys2Proof.Laws.RoundTrip
end

