-- ==== Sys2Proof/Tests/Slice0.lean ====
section
/-! SUPPORT. Tests: ill-formed terms that the checks refuse, words written from the encodings of the spec, single steps
with the results that the spec's worked examples and rules give, and for each statement a state that meets its
hypotheses. -/

namespace Sys2Proof.Tests

open Sys2Proof.Machine

set_option Elab.async false
set_option maxRecDepth 100000

/-! ## A small state -/

/-- The part with a launch of queue 0 on cluster 0, whose context 0 of core 0 runs at address 0 of a page that it may
read, write and execute. -/
def here : State :=
  ({ State.reset.withFetchWord 96 0 with agenda := [] } : State).mapCore 0 fun k => { k with dtlb := [codePage] }

/-- The state with some scalar registers of the active context set. -/
def given (s : State) (l : List (XReg × Word)) : State := l.foldl (fun s e => s.setX e.1 e.2) s

/-- The state with its launch changed. -/
def launched (s : State) (f : Launch → Launch) : State := s.mapLaunch 0 f

/-- The context changed. -/
def my (s : State) (f : Context → Context) : State := s.mapMe f

/-- An outcome that is a next state of which something holds. -/
def isNext (o : Host.Outcome State Fault Refusal) (p : State → Bool) : Bool :=
  match o with
  | .next t => p t
  | _ => false

/-- A computation that answers, with something of the answer and the state. -/
def okAnd {α : Type} (e : Eff α) (s : State) (p : α → State → Bool) : Bool :=
  match e.run s with
  | .ok a t => p a t
  | .error _ _ => false

theorem of_okAnd {α : Type} {e : Eff α} {s : State} {p : α → State → Bool} (h : okAnd e s p = true) :
    ∃ a t, e.run s = .ok a t ∧ p a t = true := by
  unfold okAnd at h
  split at h
  · exact ⟨_, _, by assumption, h⟩
  · cases h

/-- A computation that waits. -/
def waitAnd {α : Type} (e : Eff α) (s : State) (p : Wait → State → Bool) : Bool :=
  match e.run s with
  | .error (.wait w) t => p w t
  | _ => false

/-- Three computations, one after another, that all answer. -/
theorem of_okAnd3 {α γ : Type} {e : Eff α} {f : α → Eff Unit} {g : α → Eff γ} {s : State} {p : α → γ → State → Bool}
    (h : okAnd (do
      let x ← e
      f x
      let r ← g x
      pure (x, r)) s (fun r u => p r.1 r.2 u) = true) :
    ∃ x u t r v, e.run s = .ok x u ∧ (f x).run u = .ok () t ∧ (g x).run t = .ok r v ∧ p x r v = true := by
  obtain ⟨r, v, h, w⟩ := of_okAnd h
  simp only [Eff.run_bind] at h
  split at h
  · rename_i x u1 h1
    split at h
    · rename_i y u2 h2
      split at h
      · rename_i z u3 h3
        cases h
        exact ⟨x, u1, u2, z, _, h1, h2, h3, w⟩
      · cases h
    · cases h
  · cases h

/-- A computation that ends in a fault. -/
def trapAnd {α : Type} (e : Eff α) (s : State) (p : Trap → State → Bool) : Bool :=
  match e.run s with
  | .error (.trap f) t => p f t
  | _ => false

theorem of_trapAnd {α : Type} {e : Eff α} {s : State} {p : Trap → State → Bool} (h : trapAnd e s p = true) :
    ∃ f t, e.run s = .error (.trap f) t ∧ p f t = true := by
  unfold trapAnd at h
  split at h
  · exact ⟨_, _, by assumption, h⟩
  · cases h

theorem floor_allows {s t : State} (h : t.withinFloor = true) : s.FloorAllows t := Or.inl h

theorem here_ready : here.Ready := ⟨by decide, by decide⟩


/-! ## Ill-formed terms: one for each check of `Instr.wf` -/

theorem test_ill_formed_scalar : Target.wf ⟨0, 5⟩ = false ∧ (Instr.br 0 .eq 1 2 ⟨0, 5⟩).wf = false ∧
    (Instr.jmp 0 ⟨0, 7⟩).wf = false ∧ (Instr.call 0 ⟨0, 6⟩).wf = false ∧ (Instr.follow 0 1 ⟨0, 5⟩).wf = false ∧
    (Instr.extr 0 true 1 2 1 64).wf = false ∧ (Instr.extr 0 true 1 2 0 0).wf = false ∧ (Instr.insr 0 1 2 0 65).wf = false ∧
    (Instr.jtab 0 1 2 3 0).wf = false ∧ (Instr.callt 0 1 2 3 65537).wf = false ∧ (Instr.mtc 0 .pts 1).wf = false ∧
    (Instr.mtc 0 .coreid 1).wf = false := by decide

theorem test_ill_formed_vector : (Instr.fadd 0 .q .rne 1 2 3).wf = false ∧ (Instr.fclass 0 .q 1 2).wf = false ∧
    (Instr.fcvt 0 .rne ⟨1, false, false, 1, 2⟩ 1 2).wf = false ∧ (Instr.vadd 0 .b 1 2 (.vec 3)).wf = false ∧
    (Instr.vcmp 0 .eq .b 1 2 (.vec 3)).wf = false ∧ (Instr.vfadd 0 .q .rne 1 2 (.vec 3)).wf = false ∧
    (Instr.vfcmp 0 .eq .q 1 2 (.vec 3)).wf = false ∧ (Instr.vredf 0 .q .rne 1 2).wf = false ∧
    (Instr.vslide 0 .d 1 2 3 17).wf = false ∧ (Instr.vsortk 0 4 4 1).wf = false ∧
    (Instr.vsegadd 0 .q true .rne 1 2 3).wf = false ∧ (Instr.vsegadd 0 .w false .rup 1 2 3).wf = false ∧
    (Instr.vsegadd 0 .b false .rne 1 2 3).wf = false ∧ (Instr.vredi 0 .b true 1 2).wf = false := by decide

theorem test_ill_formed_engines : (Instr.mma 0 1 2 3 (.purse 4 false 8) true false).wf = false ∧
    (Instr.mmat 0 1 2 3 (.purse 4 false 0) false false 0 true .zero).wf = false ∧
    (Instr.mmas 0 1 2 3 (.tile 4) false 4097).wf = false ∧ (Instr.cpy2 0 1 2 3 4 0 8).wf = false ∧
    (Instr.cpy2 0 1 2 3 4 1 0).wf = false ∧ (Instr.cpyg 0 1 2 3 4 4097 8 0).wf = false ∧
    (Instr.cpyc 0 1 2 3 4 1 2 .dyn).wf = false ∧ (Instr.susp 0 1 .add 2 3 0 .dyn (.off 0)).wf = false ∧
    (Instr.susp 0 1 .add 2 3 1 .rne (.off 0)).wf = false ∧ (Instr.susp 0 1 .maxrow 2 3 0 .rne (.off 0)).wf = false ∧
    (Instr.susp 0 1 .mma 2 3 0 .rup (.off 0)).wf = false ∧ (Instr.padd 0 .q 1 2 0).wf = false ∧
    (Instr.paddv 0 .q true 1 2 3 0 0).wf = false ∧ (Instr.pset 0 .q 1 2 0).wf = false := by decide

theorem test_ill_formed_system : (Instr.send 0 true 32 0 0 0).wf = false ∧ (Instr.recv 0 true 40 0 0).wf = false ∧
    (Instr.confid 0 .w 1 2 3 4 1).wf = false ∧ (Instr.confid 0 .w 1 31 3 4 33).wf = false ∧
    (Instr.confid 0 .d 1 2 3 4 8).wf = false ∧ (Instr.exitk 0 1 2 3 0).wf = false ∧ (Instr.exitk 0 1 2 3 257).wf = false ∧
    (Instr.kvldWait 0 1 2 3 4 0).wf = false ∧ (Instr.kvldMask 0 1 2 3 4 65).wf = false := by decide


/-! ## Words written from the encodings of the spec -/

theorem test_words_00 :
    decodeSlot 0x0003_0000_0000_0000_0000_0000 = .ok (.nop 3) := by decide

theorem test_words_01_a :
    decodeSlot 0x0403_0421_4000_0000_0000_0000 = .ok (.add 3 1 2 5) ∧
    decodeSlot 0x0413_0421_4000_0000_0000_0000 = .ok (.sub 3 1 2 5) ∧
    decodeSlot 0x0423_0421_4000_0000_0000_0000 = .ok (.and 3 1 2 5) ∧
    decodeSlot 0x0433_0421_4000_0000_0000_0000 = .ok (.or 3 1 2 5) ∧
    decodeSlot 0x0443_0421_4000_0000_0000_0000 = .ok (.xor 3 1 2 5) ∧
    decodeSlot 0x0453_0421_4000_0000_0000_0000 = .ok (.andn 3 1 2 5) ∧
    decodeSlot 0x0463_0421_4000_0000_0000_0000 = .ok (.shl 3 1 2 5) ∧
    decodeSlot 0x0473_0421_4000_0000_0000_0000 = .ok (.shr 3 1 2 5) ∧
    decodeSlot 0x0483_0421_4000_0000_0000_0000 = .ok (.sha 3 1 2 5) ∧
    decodeSlot 0x0493_0421_4000_0000_0000_0000 = .ok (.rotl 3 1 2 5) ∧
    decodeSlot 0x04A3_0421_4000_0000_0000_0000 = .ok (.min 3 1 2 5) ∧
    decodeSlot 0x04B3_0421_4000_0000_0000_0000 = .ok (.max 3 1 2 5) := by decide

theorem test_words_01_b :
    decodeSlot 0x04C3_0421_4000_0000_0000_0000 = .ok (.minu 3 1 2 5) ∧
    decodeSlot 0x04D3_0421_4000_0000_0000_0000 = .ok (.maxu 3 1 2 5) := by decide

theorem test_words_02_a :
    decodeSlot 0x0803_0420_0000_FFFF_FFFF_FFFB = .ok (.addi 3 1 2 0xFFFFFFFFFFFB) ∧
    decodeSlot 0x0813_0420_0000_FFFF_FFFF_FFFB = .ok (.subImm 3 1 2 0xFFFFFFFFFFFB) ∧
    decodeSlot 0x0823_0420_0000_FFFF_FFFF_FFFB = .ok (.andImm 3 1 2 0xFFFFFFFFFFFB) ∧
    decodeSlot 0x0833_0420_0000_FFFF_FFFF_FFFB = .ok (.orImm 3 1 2 0xFFFFFFFFFFFB) ∧
    decodeSlot 0x0843_0420_0000_FFFF_FFFF_FFFB = .ok (.xorImm 3 1 2 0xFFFFFFFFFFFB) ∧
    decodeSlot 0x0853_0420_0000_FFFF_FFFF_FFFB = .ok (.andnImm 3 1 2 0xFFFFFFFFFFFB) ∧
    decodeSlot 0x08A3_0420_0000_FFFF_FFFF_FFFB = .ok (.minImm 3 1 2 0xFFFFFFFFFFFB) ∧
    decodeSlot 0x08B3_0420_0000_FFFF_FFFF_FFFB = .ok (.maxImm 3 1 2 0xFFFFFFFFFFFB) ∧
    decodeSlot 0x08C3_0420_0000_FFFF_FFFF_FFFB = .ok (.minuImm 3 1 2 0xFFFFFFFFFFFB) ∧
    decodeSlot 0x08D3_0420_0000_FFFF_FFFF_FFFB = .ok (.maxuImm 3 1 2 0xFFFFFFFFFFFB) ∧
    decodeSlot 0x0863_0420_0000_0000_0000_003F = .ok (.shlImm 3 1 2 63) ∧
    decodeSlot 0x0873_0420_0000_0000_0000_003F = .ok (.shrImm 3 1 2 63) := by decide

theorem test_words_02_b :
    decodeSlot 0x0883_0420_0000_0000_0000_003F = .ok (.shaImm 3 1 2 63) ∧
    decodeSlot 0x0893_0420_0000_0000_0000_003F = .ok (.rotlImm 3 1 2 63) := by decide

theorem test_words_03 :
    decodeSlot 0x0C03_0421_4000_0000_0000_0000 = .ok (.mul 3 1 2 5) ∧
    decodeSlot 0x0C13_0421_4000_0000_0000_0000 = .ok (.mulh 3 1 2 5) ∧
    decodeSlot 0x0C23_0421_4000_0000_0000_0000 = .ok (.mulhu 3 1 2 5) ∧
    decodeSlot 0x0C33_0421_4000_0000_0000_0000 = .ok (.div 3 1 2 5) ∧
    decodeSlot 0x0C43_0421_4000_0000_0000_0000 = .ok (.divu 3 1 2 5) ∧
    decodeSlot 0x0C53_0421_4000_0000_0000_0000 = .ok (.rem 3 1 2 5) ∧
    decodeSlot 0x0C63_0421_4000_0000_0000_0000 = .ok (.remu 3 1 2 5) := by decide

theorem test_words_04 :
    decodeSlot 0x1003_0420_0000_0000_0000_0000 = .ok (.clz 3 1 2) ∧
    decodeSlot 0x1013_0420_0000_0000_0000_0000 = .ok (.ctz 3 1 2) ∧
    decodeSlot 0x1023_0420_0000_0000_0000_0000 = .ok (.popc 3 1 2) := by decide

theorem test_words_05 :
    decodeSlot 0x1403_0421_4000_0000_0000_0000 = .ok (.cmp 3 .eq 1 2 (.reg 5)) ∧
    decodeSlot 0x1413_0421_4000_0000_0000_0000 = .ok (.cmp 3 .ne 1 2 (.reg 5)) ∧
    decodeSlot 0x1423_0421_4000_0000_0000_0000 = .ok (.cmp 3 .lt 1 2 (.reg 5)) ∧
    decodeSlot 0x1433_0421_4000_0000_0000_0000 = .ok (.cmp 3 .ge 1 2 (.reg 5)) ∧
    decodeSlot 0x1443_0421_4000_0000_0000_0000 = .ok (.cmp 3 .ltu 1 2 (.reg 5)) ∧
    decodeSlot 0x1453_0421_4000_0000_0000_0000 = .ok (.cmp 3 .geu 1 2 (.reg 5)) ∧
    decodeSlot 0x1463_0421_4000_0000_0000_0000 = .ok (.cmp 3 .gt 1 2 (.reg 5)) ∧
    decodeSlot 0x1473_0421_4000_0000_0000_0000 = .ok (.cmp 3 .le 1 2 (.reg 5)) ∧
    decodeSlot 0x1483_0421_4000_0000_0000_0000 = .ok (.cmp 3 .gtu 1 2 (.reg 5)) ∧
    decodeSlot 0x1493_0421_4000_0000_0000_0000 = .ok (.cmp 3 .leu 1 2 (.reg 5)) ∧
    decodeSlot 0x1423_0420_0001_FFFF_FFFF_FFFB = .ok (.cmp 3 .lt 1 2 (.imm 0xFFFFFFFFFFFB)) ∧
    decodeSlot 0x1503_0421_4700_0000_0000_0000 = .ok (.sel 3 1 2 5 7) := by decide

theorem test_words_06 :
    decodeSlot 0x1803_0400_8000_0000_0000_0003 = .ok (.movi 3 1 0x8000000000000003) := by decide

theorem test_words_07 :
    decodeSlot 0x1C03_0421_4006_FFFF_FFFF_FFFB = .ok (.lea 3 1 2 5 6 0xFFFFFFFFFFFB) ∧
    decodeSlot 0x1C13_0420_0054_0000_0000_002C = .ok (.extr 3 true 1 2 20 44) ∧
    decodeSlot 0x1C13_0420_0014_0000_0000_002C = .ok (.extr 3 false 1 2 20 44) ∧
    decodeSlot 0x1C23_0420_003F_0000_0000_0001 = .ok (.insr 3 1 2 63 1) := by decide

theorem test_words_08 :
    decodeSlot 0x2003_0420_0000_07FF_FFFF_FFF4 = .ok (.br 3 .eq 1 2 ⟨0xFFFFFFFFFE, 4⟩) ∧
    decodeSlot 0x2003_0421_0000_07FF_FFFF_FFF4 = .ok (.br 3 .ne 1 2 ⟨0xFFFFFFFFFE, 4⟩) ∧
    decodeSlot 0x2003_0422_0000_07FF_FFFF_FFF4 = .ok (.br 3 .lt 1 2 ⟨0xFFFFFFFFFE, 4⟩) ∧
    decodeSlot 0x2003_0423_0000_07FF_FFFF_FFF4 = .ok (.br 3 .ge 1 2 ⟨0xFFFFFFFFFE, 4⟩) ∧
    decodeSlot 0x2003_0424_0000_07FF_FFFF_FFF4 = .ok (.br 3 .ltu 1 2 ⟨0xFFFFFFFFFE, 4⟩) ∧
    decodeSlot 0x2003_0425_0000_07FF_FFFF_FFF4 = .ok (.br 3 .geu 1 2 ⟨0xFFFFFFFFFE, 4⟩) ∧
    decodeSlot 0x2003_0426_0000_07FF_FFFF_FFF4 = .ok (.br 3 .gt 1 2 ⟨0xFFFFFFFFFE, 4⟩) ∧
    decodeSlot 0x2003_0427_0000_07FF_FFFF_FFF4 = .ok (.br 3 .le 1 2 ⟨0xFFFFFFFFFE, 4⟩) ∧
    decodeSlot 0x2003_0428_0000_07FF_FFFF_FFF4 = .ok (.br 3 .gtu 1 2 ⟨0xFFFFFFFFFE, 4⟩) ∧
    decodeSlot 0x2003_0429_0000_07FF_FFFF_FFF4 = .ok (.br 3 .leu 1 2 ⟨0xFFFFFFFFFE, 4⟩) := by decide

theorem test_words_09 :
    decodeSlot 0x2403_0000_0000_0000_0000_0011 = .ok (.jmp 3 ⟨2, 1⟩) ∧
    decodeSlot 0x2413_0000_0000_07FF_FFFF_FFF8 = .ok (.call 3 ⟨0xFFFFFFFFFF, 0⟩) := by decide

theorem test_words_0A :
    decodeSlot 0x2803_0020_0000_0000_0000_0000 = .ok (.ret 3 2) ∧
    decodeSlot 0x2813_0021_4009_0000_0001_0000 = .ok (.jtab 3 2 5 9 65536) ∧
    decodeSlot 0x2823_0021_4009_0000_0000_0001 = .ok (.callt 3 2 5 9 1) ∧
    decodeSlot 0x2833_0000_0009_0000_0000_0000 = .ok (.lpad 3 9) := by decide

theorem test_words_0B_a :
    decodeSlot 0x2C03_0400_0000_0000_0000_0000 = .ok (.mfc 3 1 .coreid) ∧
    decodeSlot 0x2C03_0400_0000_0000_0000_0001 = .ok (.mfc 3 1 .stage) ∧
    decodeSlot 0x2C03_0400_0000_0000_0000_0002 = .ok (.mfc 3 1 .world) ∧
    decodeSlot 0x2C03_0400_0000_0000_0000_0003 = .ok (.mfc 3 1 .asid) ∧
    decodeSlot 0x2C03_0400_0000_0000_0000_0004 = .ok (.mfc 3 1 .sstep) ∧
    decodeSlot 0x2C03_0400_0000_0000_0000_0005 = .ok (.mfc 3 1 .scyc) ∧
    decodeSlot 0x2C03_0400_0000_0000_0000_0006 = .ok (.mfc 3 1 .time) ∧
    decodeSlot 0x2C03_0400_0000_0000_0000_0007 = .ok (.mfc 3 1 .pts) ∧
    decodeSlot 0x2C03_0400_0000_0000_0000_0010 = .ok (.mfc 3 1 .roundm) ∧
    decodeSlot 0x2C03_0400_0000_0000_0000_0011 = .ok (.mfc 3 1 .fflags) ∧
    decodeSlot 0x2C03_0400_0000_0000_0000_0020 = .ok (.mfc 3 1 .allow) ∧
    decodeSlot 0x2C03_0400_0000_0000_0000_0021 = .ok (.mfc 3 1 .depthlim) := by decide

theorem test_words_0B_b :
    decodeSlot 0x2C03_0400_0000_0000_0000_0022 = .ok (.mfc 3 1 .lease) ∧
    decodeSlot 0x2C03_0400_0000_0000_0000_0030 = .ok (.mfc 3 1 .status) ∧
    decodeSlot 0x2C03_0400_0000_0000_0000_0031 = .ok (.mfc 3 1 .tvec) ∧
    decodeSlot 0x2C03_0400_0000_0000_0000_0032 = .ok (.mfc 3 1 .cause) ∧
    decodeSlot 0x2C03_0400_0000_0000_0000_0033 = .ok (.mfc 3 1 .fcause) ∧
    decodeSlot 0x2C03_0400_0000_0000_0000_0034 = .ok (.mfc 3 1 .faddr) ∧
    decodeSlot 0x2C03_0400_0000_0000_0000_0035 = .ok (.mfc 3 1 .epc) ∧
    decodeSlot 0x2C03_0400_0000_0000_0000_0040 = .ok (.mfc 3 1 .kvb) ∧
    decodeSlot 0x2C03_0400_0000_0000_0000_0041 = .ok (.mfc 3 1 .kvmap) ∧
    decodeSlot 0x2C03_0400_0000_0000_0000_0042 = .ok (.mfc 3 1 .kvcfg) ∧
    decodeSlot 0x2C03_0400_0000_0000_0000_0080 = .ok (.mfc 3 1 .mjw) ∧
    decodeSlot 0x2C03_0400_0000_0000_0000_00C0 = .ok (.mfc 3 1 .lbtol) := by decide

theorem test_words_0B_c :
    decodeSlot 0x2C13_0020_0000_0000_0000_0010 = .ok (.mtc 3 .roundm 2) ∧
    decodeSlot 0x2C13_0020_0000_0000_0000_0011 = .ok (.mtc 3 .fflags 2) ∧
    decodeSlot 0x2C13_0020_0000_0000_0000_0020 = .ok (.mtc 3 .allow 2) ∧
    decodeSlot 0x2C13_0020_0000_0000_0000_0021 = .ok (.mtc 3 .depthlim 2) ∧
    decodeSlot 0x2C13_0020_0000_0000_0000_0022 = .ok (.mtc 3 .lease 2) ∧
    decodeSlot 0x2C13_0020_0000_0000_0000_0030 = .ok (.mtc 3 .status 2) ∧
    decodeSlot 0x2C13_0020_0000_0000_0000_0031 = .ok (.mtc 3 .tvec 2) ∧
    decodeSlot 0x2C13_0020_0000_0000_0000_0035 = .ok (.mtc 3 .epc 2) ∧
    decodeSlot 0x2C13_0020_0000_0000_0000_0040 = .ok (.mtc 3 .kvb 2) ∧
    decodeSlot 0x2C13_0020_0000_0000_0000_0041 = .ok (.mtc 3 .kvmap 2) ∧
    decodeSlot 0x2C13_0020_0000_0000_0000_0042 = .ok (.mtc 3 .kvcfg 2) ∧
    decodeSlot 0x2C13_0020_0000_0000_0000_0080 = .ok (.mtc 3 .mjw 2) := by decide

theorem test_words_0B_d :
    decodeSlot 0x2C13_0020_0000_0000_0000_00C0 = .ok (.mtc 3 .lbtol 2) := by decide

theorem test_words_0C :
    decodeSlot 0x3003_0005_0000_07FF_FFFF_FFFB = .ok (.follow 3 5 ⟨0xFFFFFFFFFF, 3⟩) ∧
    decodeSlot 0x3013_0000_0000_0000_0000_0000 = .ok (.detach 3) ∧
    decodeSlot 0x3023_0421_4700_0000_0000_BEEF = .ok (.rejoin 3 1 2 5 7 0xBEEF) ∧
    decodeSlot 0x3033_0400_0000_0000_0000_BEEF = .ok (.take 3 1 0xBEEF) := by decide

theorem test_words_0D :
    decodeSlot 0x3403_0420_0000_0000_0000_003F = .ok (.launch 3 1 2 63) := by decide

theorem test_words_10 :
    decodeSlot 0x4003_0421_402C_0000_0000_0000 = .ok (.fadd 3 .d .rtz 1 2 5) ∧
    decodeSlot 0x4013_0421_402C_0000_0000_0000 = .ok (.fsub 3 .d .rtz 1 2 5) ∧
    decodeSlot 0x4023_0421_402C_0000_0000_0000 = .ok (.fmul 3 .d .rtz 1 2 5) ∧
    decodeSlot 0x4033_0421_4748_0000_0000_0000 = .ok (.ffma 3 .w .rdn 1 2 5 7) ∧
    decodeSlot 0x4043_0421_4064_0000_0000_0000 = .ok (.fdiv 3 .h .rup 1 2 5) ∧
    decodeSlot 0x4053_0420_0090_0000_0000_0000 = .ok (.fsqrt 3 .b .rna 1 2) ∧
    decodeSlot 0x4063_0421_4010_0000_0000_0000 = .ok (.fmin 3 .b 1 2 5) ∧
    decodeSlot 0x4073_0421_400C_0000_0000_0000 = .ok (.fmax 3 .d 1 2 5) := by decide

theorem test_words_11 :
    decodeSlot 0x4403_0421_4004_0000_0000_0000 = .ok (.fcmp 3 .eq .h 1 2 5) ∧
    decodeSlot 0x4413_0421_4004_0000_0000_0000 = .ok (.fcmp 3 .ne .h 1 2 5) ∧
    decodeSlot 0x4423_0421_4004_0000_0000_0000 = .ok (.fcmp 3 .lt .h 1 2 5) ∧
    decodeSlot 0x4433_0421_4004_0000_0000_0000 = .ok (.fcmp 3 .le .h 1 2 5) ∧
    decodeSlot 0x4443_0421_4004_0000_0000_0000 = .ok (.fcmp 3 .gt .h 1 2 5) ∧
    decodeSlot 0x4453_0421_4004_0000_0000_0000 = .ok (.fcmp 3 .ge .h 1 2 5) ∧
    decodeSlot 0x4463_0421_4004_0000_0000_0000 = .ok (.fcmp 3 .un .h 1 2 5) ∧
    decodeSlot 0x4503_0420_00E0_0000_0001_010B = .ok (.fcvt 3 .dyn ⟨0, false, true, 1, 0x0B⟩ 1 2) ∧
    decodeSlot 0x4503_0420_0020_0000_0002_0B00 = .ok (.fcvt 3 .rtz ⟨0, true, false, 0x0B, 0⟩ 1 2) ∧
    decodeSlot 0x4513_0420_0008_0000_0000_0000 = .ok (.fclass 3 .w 1 2) := by decide

theorem test_words_14 :
    decodeSlot 0x5003_042B_400E_0000_0000_0000 = .ok (.vadd 3 .d 1 2 (.bcast 45)) ∧
    decodeSlot 0x5013_042B_400E_0000_0000_0000 = .ok (.vsub 3 .d 1 2 (.bcast 45)) ∧
    decodeSlot 0x5023_042B_400E_0000_0000_0000 = .ok (.vmul 3 .d 1 2 (.bcast 45)) ∧
    decodeSlot 0x5033_0421_4009_0000_0000_0000 = .ok (.vmulh 3 .w true 1 2 (.vec 5)) ∧
    decodeSlot 0x5043_0421_4009_0000_0000_0000 = .ok (.vmin 3 .w true 1 2 (.vec 5)) ∧
    decodeSlot 0x5053_0421_4009_0000_0000_0000 = .ok (.vmax 3 .w true 1 2 (.vec 5)) ∧
    decodeSlot 0x5063_042B_400E_0000_0000_0000 = .ok (.vand 3 .d 1 2 (.bcast 45)) ∧
    decodeSlot 0x5073_042B_400E_0000_0000_0000 = .ok (.vor 3 .d 1 2 (.bcast 45)) ∧
    decodeSlot 0x5083_042B_400E_0000_0000_0000 = .ok (.vxor 3 .d 1 2 (.bcast 45)) ∧
    decodeSlot 0x5093_042B_400E_0000_0000_0000 = .ok (.vshl 3 .d 1 2 (.bcast 45)) ∧
    decodeSlot 0x50A3_042B_400E_0000_0000_0000 = .ok (.vshr 3 .d 1 2 (.bcast 45)) ∧
    decodeSlot 0x50B3_042B_400E_0000_0000_0000 = .ok (.vsha 3 .d 1 2 (.bcast 45)) := by decide

theorem test_words_15 :
    decodeSlot 0x5403_0421_4000_0000_0000_0000 = .ok (.vcmp 3 .eq .q 1 2 (.vec 5)) ∧
    decodeSlot 0x5413_0421_4000_0000_0000_0000 = .ok (.vcmp 3 .ne .q 1 2 (.vec 5)) ∧
    decodeSlot 0x5423_0421_4000_0000_0000_0000 = .ok (.vcmp 3 .lt .q 1 2 (.vec 5)) ∧
    decodeSlot 0x5433_0421_4000_0000_0000_0000 = .ok (.vcmp 3 .ge .q 1 2 (.vec 5)) ∧
    decodeSlot 0x5443_0421_4000_0000_0000_0000 = .ok (.vcmp 3 .ltu .q 1 2 (.vec 5)) ∧
    decodeSlot 0x5453_0421_4000_0000_0000_0000 = .ok (.vcmp 3 .geu .q 1 2 (.vec 5)) ∧
    decodeSlot 0x5463_0421_4000_0000_0000_0000 = .ok (.vcmp 3 .gt .q 1 2 (.vec 5)) ∧
    decodeSlot 0x5473_0421_4000_0000_0000_0000 = .ok (.vcmp 3 .le .q 1 2 (.vec 5)) ∧
    decodeSlot 0x5483_0421_4000_0000_0000_0000 = .ok (.vcmp 3 .gtu .q 1 2 (.vec 5)) ∧
    decodeSlot 0x5493_0421_4000_0000_0000_0000 = .ok (.vcmp 3 .leu .q 1 2 (.vec 5)) := by decide

theorem test_words_16 :
    decodeSlot 0x5803_042B_40EA_0000_0000_0000 = .ok (.vfadd 3 .w .dyn 1 2 (.bcast 45)) ∧
    decodeSlot 0x5813_042B_40EA_0000_0000_0000 = .ok (.vfsub 3 .w .dyn 1 2 (.bcast 45)) ∧
    decodeSlot 0x5823_042B_40EA_0000_0000_0000 = .ok (.vfmul 3 .w .dyn 1 2 (.bcast 45)) ∧
    decodeSlot 0x5833_0421_470C_0000_0000_0000 = .ok (.vffma 3 .d .rne 1 2 (.vec 5) 7) ∧
    decodeSlot 0x5843_0421_4030_0000_0000_0000 = .ok (.vfdiv 3 .b .rtz 1 2 (.vec 5)) ∧
    decodeSlot 0x5853_0420_0044_0000_0000_0000 = .ok (.vfsqrt 3 .h .rdn 1 2) ∧
    decodeSlot 0x5863_0421_4010_0000_0000_0000 = .ok (.vfmin 3 .b 1 2 (.vec 5)) ∧
    decodeSlot 0x5873_042B_4012_0000_0000_0000 = .ok (.vfmax 3 .b 1 2 (.bcast 45)) := by decide

theorem test_words_17 :
    decodeSlot 0x5C03_0420_0010_0000_0000_0000 = .ok (.vexp2 3 1 2) ∧
    decodeSlot 0x5C13_0420_0010_0000_0000_0000 = .ok (.vrecip 3 1 2) ∧
    decodeSlot 0x5C23_0420_0010_0000_0000_0000 = .ok (.vrsqrt 3 1 2) := by decide

theorem test_words_18 :
    decodeSlot 0x6003_0421_4008_0000_0000_0000 = .ok (.vfcmp 3 .eq .w 1 2 (.vec 5)) ∧
    decodeSlot 0x6013_0421_4008_0000_0000_0000 = .ok (.vfcmp 3 .ne .w 1 2 (.vec 5)) ∧
    decodeSlot 0x6023_0421_4008_0000_0000_0000 = .ok (.vfcmp 3 .lt .w 1 2 (.vec 5)) ∧
    decodeSlot 0x6033_0421_4008_0000_0000_0000 = .ok (.vfcmp 3 .le .w 1 2 (.vec 5)) ∧
    decodeSlot 0x6043_0421_4008_0000_0000_0000 = .ok (.vfcmp 3 .gt .w 1 2 (.vec 5)) ∧
    decodeSlot 0x6053_0421_4008_0000_0000_0000 = .ok (.vfcmp 3 .ge .w 1 2 (.vec 5)) ∧
    decodeSlot 0x6063_0421_4008_0000_0000_0000 = .ok (.vfcmp 3 .un .w 1 2 (.vec 5)) ∧
    decodeSlot 0x6103_0420_00E0_0000_0008_0401 = .ok (.vfcvt 3 .dyn ⟨2, false, false, 4, 1⟩ 1 2) := by decide

theorem test_words_19 :
    decodeSlot 0x6403_06D0_0010_0000_0000_0000 = .ok (.vbcast 3 .b 1 45) ∧
    decodeSlot 0x6413_B42B_800C_0000_0000_0000 = .ok (.vextr 3 .d 45 2 46) ∧
    decodeSlot 0x6423_06DB_8000_0000_0000_0000 = .ok (.vinsr 3 .q 1 45 46) ∧
    decodeSlot 0x6433_0421_4004_0000_0000_0000 = .ok (.vperm 3 .h 1 2 5) ∧
    decodeSlot 0x6443_0421_4000_0000_0000_0080 = .ok (.vslide 3 .q 1 2 5 128) ∧
    decodeSlot 0x6453_0420_0708_0000_0000_0000 = .ok (.vsortk 3 1 7 2) ∧
    decodeSlot 0x6463_0421_40F1_0000_0000_0000 = .ok (.vsegadd 3 .b true .dyn 1 2 5) ∧
    decodeSlot 0x6463_0421_4000_0000_0000_0000 = .ok (.vsegadd 3 .q false .rne 1 2 5) ∧
    decodeSlot 0x6473_B420_0005_0000_0000_0000 = .ok (.vredi 3 .h true 45 2) ∧
    decodeSlot 0x6483_B420_008C_0000_0000_0000 = .ok (.vredf 3 .d .rna 45 2) := by decide

theorem test_words_1A :
    decodeSlot 0x6803_0421_4000_0000_0000_0000 = .ok (.mand 3 1 2 5) ∧
    decodeSlot 0x6813_0421_4000_0000_0000_0000 = .ok (.mor 3 1 2 5) ∧
    decodeSlot 0x6823_0421_4000_0000_0000_0000 = .ok (.mxor 3 1 2 5) ∧
    decodeSlot 0x6833_0420_0000_0000_0000_0000 = .ok (.mnot 3 1 2) ∧
    decodeSlot 0x6843_B420_000C_0000_0000_0000 = .ok (.mpopc 3 .d 45 2) ∧
    decodeSlot 0x6853_B420_0010_0000_0000_0000 = .ok (.mfirst 3 .b 45 2) ∧
    decodeSlot 0x6863_B420_0000_0000_0000_0001 = .ok (.mtox 3 45 2 true) ∧
    decodeSlot 0x6873_06D0_0000_0000_0000_0000 = .ok (.xtom 3 1 45 false) := by decide

theorem test_words_20 :
    decodeSlot 0x8003_0421_40E9_FFFF_FFFF_FFFB = .ok (.ld 3 true .w 1 2 5 7 0xFFFFFFFFFFFB) ∧
    decodeSlot 0x8003_0421_4000_0000_0000_0009 = .ok (.ld 3 false .q 1 2 5 0 9) := by decide

theorem test_words_21 :
    decodeSlot 0x8403_0021_4764_FFFF_FFFF_FFFB = .ok (.st 3 .h 2 5 7 3 0xFFFFFFFFFFFB) := by decide

theorem test_words_22 :
    decodeSlot 0x8803_0420_0010_FFFF_FFFF_FFFB = .ok (.ldv 3 .b 1 2 0xFFFFFFFFFFFB) ∧
    decodeSlot 0x8813_042B_400C_0000_0000_0008 = .ok (.ldvs 3 .d 1 2 45 8) ∧
    decodeSlot 0x8823_06D1_404A_0000_0000_0008 = .ok (.ldg 3 .w true 1 45 5 2 8) := by decide

theorem test_words_23 :
    decodeSlot 0x8C03_0020_0704_FFFF_FFFF_FFFB = .ok (.stv 3 .h 2 7 0xFFFFFFFFFFFB) ∧
    decodeSlot 0x8C13_002B_4700_0000_0000_0008 = .ok (.stvs 3 .q 2 45 7 8) ∧
    decodeSlot 0x8C23_02D1_47CC_0000_0000_0008 = .ok (.sts 3 .d false 45 5 7 6 8) := by decide

theorem test_words_24 :
    decodeSlot 0x9003_06D0_0008_0000_0000_0008 = .ok (.ldl 3 1 45 none 8) ∧
    decodeSlot 0x9003_06D1_400A_0000_0000_0008 = .ok (.ldl 3 1 45 (some 5) 8) ∧
    decodeSlot 0x9013_02D0_0708_0000_0000_0008 = .ok (.stl 3 45 none 7 8) ∧
    decodeSlot 0x9013_02D1_470A_0000_0000_0008 = .ok (.stl 3 45 (some 5) 7 8) := by decide

theorem test_words_25 :
    decodeSlot 0x9403_06D0_0000_0000_0000_0000 = .ok (.mtt 3 1 .addr (.reg 45)) ∧
    decodeSlot 0x9403_06D0_0020_0000_0000_0000 = .ok (.mtt 3 1 .fmt (.reg 45)) ∧
    decodeSlot 0x9403_06D0_0040_0000_0000_0000 = .ok (.mtt 3 1 .rows (.reg 45)) ∧
    decodeSlot 0x9403_06D0_0060_0000_0000_0000 = .ok (.mtt 3 1 .cols (.reg 45)) ∧
    decodeSlot 0x9403_06D0_0080_0000_0000_0000 = .ok (.mtt 3 1 .stride (.reg 45)) ∧
    decodeSlot 0x9403_06D0_00A0_0000_0000_0000 = .ok (.mtt 3 1 .scale (.reg 45)) ∧
    decodeSlot 0x9403_0400_0081_FFFF_FFFF_FFFB = .ok (.mtt 3 1 .stride (.imm 0xFFFFFFFFFFFB)) ∧
    decodeSlot 0x9413_B420_00A0_0000_0000_0000 = .ok (.mft 3 45 2 .scale) ∧
    decodeSlot 0x9423_06DB_8000_FFFF_FFFF_FFFB = .ok (.tld 3 1 45 46 0xFFFFFFFFFFFB) ∧
    decodeSlot 0x9433_02DB_8700_FFFF_FFFF_FFFB = .ok (.tst 3 7 45 46 0xFFFFFFFFFFFB) := by decide

theorem test_words_26 :
    decodeSlot 0x9803_0020_0000_0000_0000_0000 = .ok (.twait 3 2) ∧
    decodeSlot 0x9813_0020_0000_0000_0000_0000 = .ok (.tcons 3 2) ∧
    decodeSlot 0x9823_02D0_001D_0000_0000_0008 = .ok (.pref 3 true 45 7 8) ∧
    decodeSlot 0x9823_02D0_0000_0000_0000_0008 = .ok (.pref 3 false 45 0 8) := by decide

theorem test_words_28 :
    decodeSlot 0xA003_B421_47A0_0000_0000_0000 = .ok (.mma 3 45 2 5 (.tile 7) true true) ∧
    decodeSlot 0xA003_B421_6E48_0048_0000_0000 = .ok (.mma 3 45 2 5 (.purse 46 true 9) false false) ∧
    decodeSlot 0xA013_B421_4780_0007_F600_0000 = .ok (.mmat 3 45 2 5 (.tile 7) true false 0xFE true .pinf) ∧
    decodeSlot 0xA023_B421_4720_0000_0007_FFF0 = .ok (.mmab 3 45 2 5 7 false true 0x7FFF) ∧
    decodeSlot 0xA033_B421_4780_0000_0000_1000 = .ok (.mmas 3 45 2 5 (.tile 7) true 4096) := by decide

theorem test_words_29 :
    decodeSlot 0xA403_0420_0000_0000_0000_0000 = .ok (.mjpoll 3 1 2) ∧
    decodeSlot 0xA413_0020_0000_0000_0000_0000 = .ok (.mjwait 3 2) := by decide

theorem test_words_2A :
    decodeSlot 0xA803_0421_4700_0000_0000_0000 = .ok (.cpy 3 1 2 5 7 none) ∧
    decodeSlot 0xA803_0421_47C0_0000_002A_BCDE = .ok (.cpy 3 1 2 5 7 (some (true, 0x2ABCDE))) ∧
    decodeSlot 0xA813_0421_4780_07FF_F800_0000 = .ok (.cpy2 3 1 2 5 7 4096 65535) ∧
    decodeSlot 0xA823_0421_4700_0800_0FFF_FFFF = .ok (.cpyg 3 1 2 5 7 1 1 0x7FFFFFF) ∧
    decodeSlot 0xA833_0421_4709_2000_0000_0000 = .ok (.cpyc 3 1 2 5 7 1 4 .rna) ∧
    decodeSlot 0xA843_0421_4700_0000_0000_0000 = .ok (.cpya 3 1 2 5 7) := by decide

theorem test_words_30 :
    decodeSlot 0xC003_0421_4001_0200_0007_FFFF = .ok (.susp 3 1 .add 2 5 0 .rdn (.off 0x7FFFF)) ∧
    decodeSlot 0xC003_0421_4002_0200_0007_FFFF = .ok (.susp 3 1 .sub 2 5 0 .rdn (.off 0x7FFFF)) ∧
    decodeSlot 0xC003_0421_4003_0200_0007_FFFF = .ok (.susp 3 1 .mul 2 5 0 .rdn (.off 0x7FFFF)) ∧
    decodeSlot 0xC003_0421_4004_0000_0007_FFFF = .ok (.susp 3 1 .mma 2 5 0 .rne (.off 0x7FFFF)) ∧
    decodeSlot 0xC003_0421_4005_0200_0007_FFFF = .ok (.susp 3 1 .scale 2 5 0 .rdn (.off 0x7FFFF)) ∧
    decodeSlot 0xC003_0420_0006_2300_8000_002D = .ok (.susp 3 1 .convert 2 0 4 .rup (.reg 45)) ∧
    decodeSlot 0xC003_0420_0007_0000_0000_0040 = .ok (.susp 3 1 .transpose 2 0 0 .rne (.off 64)) ∧
    decodeSlot 0xC003_0420_0008_0000_0000_0040 = .ok (.susp 3 1 .maxrow 2 0 0 .rne (.off 64)) ∧
    decodeSlot 0xC003_0420_0009_0000_0000_0040 = .ok (.susp 3 1 .sumrow 2 0 0 .rne (.off 64)) ∧
    decodeSlot 0xC013_0421_4700_BEEF_0000_0000 = .ok (.suspr 3 1 2 5 7 0xBEEF) ∧
    decodeSlot 0xC023_B420_0000_0000_0000_0000 = .ok (.mkval 3 45 2) := by decide

theorem test_words_31 :
    decodeSlot 0xC403_02D0_0000_0000_0000_0000 = .ok (.force 3 45) ∧
    decodeSlot 0xC413_02D0_0000_0000_0000_0000 = .ok (.spark 3 45) ∧
    decodeSlot 0xC423_0020_0000_0000_0000_0000 = .ok (.result 3 2) := by decide

theorem test_words_32 :
    decodeSlot 0xC803_02D0_0000_0000_0000_0000 = .ok (.dup 3 45) ∧
    decodeSlot 0xC813_02D0_0000_0000_0000_0000 = .ok (.drop 3 45) ∧
    decodeSlot 0xC823_06D0_0000_0000_0000_0000 = .ok (.hstat 3 1 45) ∧
    decodeSlot 0xC833_06D0_0000_0000_0000_0000 = .ok (.htile 3 1 45) := by decide

theorem test_words_34 :
    decodeSlot 0xD003_02D0_2E0C_FFFF_FFFF_FFFB = .ok (.padd 3 .d 45 46 0xFFFFFFFFFFFB) ∧
    decodeSlot 0xD013_02D1_4752_0000_0000_0008 = .ok (.paddv 3 .b true 45 5 7 2 8) ∧
    decodeSlot 0xD023_0000_0000_0000_0000_0000 = .ok (.pfence 3) ∧
    decodeSlot 0xD033_02D0_0000_0000_0000_0010 = .ok (.pclr 3 45 16) ∧
    decodeSlot 0xD043_02D0_2E04_0000_0000_0010 = .ok (.pset 3 .h 45 46 16) ∧
    decodeSlot 0xD053_06D0_0000_0000_0000_0010 = .ok (.praw 3 1 45 16) := by decide

theorem test_words_38_a :
    decodeSlot 0xE003_0420_070C_FFFF_FFFF_FFFB = .ok (.amoAdd 3 true 1 2 7 0xFFFFFFFFFFFB) ∧
    decodeSlot 0xE103_0020_0708_0000_0000_0008 = .ok (.amonrAdd 3 false 2 7 8) ∧
    decodeSlot 0xE013_0420_070C_FFFF_FFFF_FFFB = .ok (.amoAnd 3 true 1 2 7 0xFFFFFFFFFFFB) ∧
    decodeSlot 0xE113_0020_0708_0000_0000_0008 = .ok (.amonrAnd 3 false 2 7 8) ∧
    decodeSlot 0xE023_0420_070C_FFFF_FFFF_FFFB = .ok (.amoOr 3 true 1 2 7 0xFFFFFFFFFFFB) ∧
    decodeSlot 0xE123_0020_0708_0000_0000_0008 = .ok (.amonrOr 3 false 2 7 8) ∧
    decodeSlot 0xE033_0420_070C_FFFF_FFFF_FFFB = .ok (.amoXor 3 true 1 2 7 0xFFFFFFFFFFFB) ∧
    decodeSlot 0xE133_0020_0708_0000_0000_0008 = .ok (.amonrXor 3 false 2 7 8) ∧
    decodeSlot 0xE043_0420_070C_FFFF_FFFF_FFFB = .ok (.amoMin 3 true 1 2 7 0xFFFFFFFFFFFB) ∧
    decodeSlot 0xE143_0020_0708_0000_0000_0008 = .ok (.amonrMin 3 false 2 7 8) ∧
    decodeSlot 0xE053_0420_070C_FFFF_FFFF_FFFB = .ok (.amoMax 3 true 1 2 7 0xFFFFFFFFFFFB) ∧
    decodeSlot 0xE153_0020_0708_0000_0000_0008 = .ok (.amonrMax 3 false 2 7 8) := by decide

theorem test_words_38_b :
    decodeSlot 0xE063_0420_070C_FFFF_FFFF_FFFB = .ok (.amoMinu 3 true 1 2 7 0xFFFFFFFFFFFB) ∧
    decodeSlot 0xE163_0020_0708_0000_0000_0008 = .ok (.amonrMinu 3 false 2 7 8) ∧
    decodeSlot 0xE073_0420_070C_FFFF_FFFF_FFFB = .ok (.amoMaxu 3 true 1 2 7 0xFFFFFFFFFFFB) ∧
    decodeSlot 0xE173_0020_0708_0000_0000_0008 = .ok (.amonrMaxu 3 false 2 7 8) ∧
    decodeSlot 0xE083_0420_070C_FFFF_FFFF_FFFB = .ok (.amoSwap 3 true 1 2 7 0xFFFFFFFFFFFB) ∧
    decodeSlot 0xE183_0020_0708_0000_0000_0008 = .ok (.amonrSwap 3 false 2 7 8) ∧
    decodeSlot 0xE203_0421_4708_0000_0000_0008 = .ok (.cas 3 false 1 2 5 7 8) := by decide

theorem test_words_39 :
    decodeSlot 0xE403_0000_0000_0000_0000_0000 = .ok (.fenceSysAcq 3) ∧
    decodeSlot 0xE413_0000_0000_0000_0000_0000 = .ok (.fenceSysRel 3) ∧
    decodeSlot 0xE423_0000_0000_0000_0000_0000 = .ok (.fenceSysFull 3) ∧
    decodeSlot 0xE483_0420_0000_0000_0000_0000 = .ok (.evld 3 1 2) ∧
    decodeSlot 0xE493_0020_0000_0000_0000_0000 = .ok (.evtrig 3 2) ∧
    decodeSlot 0xE493_0020_0700_0000_0000_0001 = .ok (.evtrigConf 3 2 7) ∧
    decodeSlot 0xE4A3_0020_0700_0000_0000_0000 = .ok (.evmsg 3 2 7) ∧
    decodeSlot 0xE4A3_0020_0701_0000_002A_BCDE = .ok (.evmsgPeer 3 2 7 0x2ABCDE) := by decide

theorem test_words_3A :
    decodeSlot 0xE803_0000_0000_0000_0000_000F = .ok (.bar 3 15) ∧
    decodeSlot 0xE813_0000_0000_0000_0000_0009 = .ok (.settle 3 9) ∧
    decodeSlot 0xE823_0000_0000_0000_0000_0000 = .ok (.sdone 3) := by decide

theorem test_words_3B :
    decodeSlot 0xEC03_02D0_0000_0001_7ABC_BEEF = .ok (.send 3 false 45 11 0x1ABC 0xBEEF) ∧
    decodeSlot 0xEC03_01F0_0001_0000_2002_0003 = .ok (.send 3 true 31 1 2 3) ∧
    decodeSlot 0xEC13_B400_0000_0001_6000_BEEF = .ok (.recv 3 false 45 11 0xBEEF) ∧
    decodeSlot 0xEC13_7C00_0001_0000_0000_0003 = .ok (.recv 3 true 31 0 3) := by decide

theorem test_words_3C :
    decodeSlot 0xF003_042B_6E10_0000_0000_0780 = .ok (.confid 3 .b 1 2 45 46 1920) ∧
    decodeSlot 0xF013_0421_4000_0000_0000_0100 = .ok (.exitk 3 1 2 5 256) ∧
    decodeSlot 0xF023_B6E1_4700_0000_0000_0000 = .ok (.kvapp 3 45 46 5 7) ∧
    decodeSlot 0xF023_B6E1_4702_0000_0000_0000 = .ok (.kvappFill 3 45 46 5 7) ∧
    decodeSlot 0xF033_06DB_8700_0000_0000_0040 = .ok (.kvldWait 3 1 45 46 7 64) ∧
    decodeSlot 0xF033_06DB_8702_0000_0000_0001 = .ok (.kvldMask 3 1 45 46 7 1) ∧
    decodeSlot 0xF043_02D0_0000_0000_0000_0000 = .ok (.arwait 3 45) := by decide

theorem test_words_3D :
    decodeSlot 0xF403_0000_0000_0000_0000_BEEF = .ok (.trap 3 0xBEEF) ∧
    decodeSlot 0xF413_0000_0000_0000_0000_0000 = .ok (.eret 3) ∧
    decodeSlot 0xF423_0420_0000_0000_0000_0000 = .ok (.replay 3 1 2) ∧
    decodeSlot 0xF433_0421_4000_0000_0000_0000 = .ok (.csave 3 1 2 5) ∧
    decodeSlot 0xF443_0421_4000_0000_0000_0000 = .ok (.crest 3 1 2 5) := by decide

theorem test_words_3E :
    decodeSlot 0xF803_0000_0000_0000_0000_0000 = .ok (.halt 3) ∧
    decodeSlot 0xF803_0000_0001_0000_0000_0000 = .ok (.haltRetain 3) ∧
    decodeSlot 0xF813_0021_4000_0000_0000_BEEF = .ok (.trace 3 2 5 0xBEEF) := by decide

theorem test_words_3F :
    decodeSlot 0xFFFF_FFFF_FFFF_FFFF_FFFF_FFFF = .ok (.ill) := by decide

/-! ## Words that the spec rejects (R125) -/

/-- an unassigned major; major 0x3F; an unassigned FN; a nonzero bit of NOP; a reserved field; SLOT 5; an integer cc of
0xA; a floating-point cc of 7; RM 5; a scalar format .q; a vector register 32; an integer view .b. -/
theorem test_rejected_a :
    ([0x3803_0000_0000_0000_0000_0000,
      0xFC03_0000_0000_0000_0000_0000,
      0x04E3_0421_4000_0000_0000_0000,
      0x0003_0400_0000_0000_0000_0000,
      0x0403_0421_4100_0000_0000_0000,
      0x2403_0000_0000_0000_0000_0015,
      0x2003_042A_0000_0000_0000_0000,
      0x4473_0421_4004_0000_0000_0000,
      0x4003_0421_40AC_0000_0000_0000,
      0x4003_0421_4000_0000_0000_0000,
      0x5003_8021_4008_0000_0000_0000,
      0x5003_0421_4010_0000_0000_0000] : List (BitVec 96)).all (fun w => !(decodeSlot w).toBool) = true := by decide

/-- a mask register 8; a shift by 64; a field beyond bit 63; a table of 65,537; an unassigned control register; MTC of a
read-only register; P of FCVT; VSORTK with D = C; a slide beyond n; a scalar SIZE 4; SX of ST; FIELD 6. -/
theorem test_rejected_b :
    ([0x6803_2021_4000_0000_0000_0000,
      0x0863_0420_0000_0000_0000_0040,
      0x1C13_0420_0014_0000_0000_002D,
      0x2813_0021_4009_0000_0001_0001,
      0x2C03_0400_0000_0000_0000_0008,
      0x2C13_0020_0000_0000_0000_0000,
      0x4503_0420_0000_0000_0004_0100,
      0x6453_0420_0108_0000_0000_0000,
      0x6443_0421_400C_0000_0000_0011,
      0x8003_0420_0010_0000_0000_0000,
      0x8403_0020_0705_0000_0000_0000,
      0x9413_0420_00C0_0000_0000_0000] : List (BitVec 96)).all (fun w => !(decodeSlot w).toBool) = true := by decide

/-- ACC with a purse; a purse stride of 0; FILL 3; LIST not a multiple of 16; NNZ above 4,096; NODE without PEER; ROWS
0; NIDX above 4,096; RM 5 of CPYC; TOP 0; B of TRANSPOSE; CFMT of ADD. -/
theorem test_rejected_c :
    ([0xA003_0421_47C0_0008_0000_0000,
      0xA003_0421_4740_0000_0000_0000,
      0xA013_0421_4700_0000_0300_0000,
      0xA023_0421_4700_0000_0000_0008,
      0xA033_0421_4700_0000_0000_1001,
      0xA803_0421_4700_0000_0000_0001,
      0xA813_0421_4700_0000_0800_0000,
      0xA823_0421_4780_0800_0800_0000,
      0xA833_0421_4700_2800_0000_0000,
      0xC003_0421_4000_0000_0000_0000,
      0xC003_0421_4007_0000_0000_0000,
      0xC003_0421_4001_0800_0000_0000] : List (BitVec 96)).all (fun w => !(decodeSlot w).toBool) = true := by decide

/-- RM of MMA; a purse addend .q; an atomic of 2 bytes; OP 2 of EVTRIG; DCORE of RECV; CONFID of one logit; CONFID
beyond v31; NL above 256; KVLD of 65 rows; ILL without its last bit. -/
theorem test_rejected_d :
    ([0xC003_0421_4004_0100_0000_0000,
      0xD003_0020_0700_0000_0000_0000,
      0xE003_0420_0704_0000_0000_0000,
      0xE493_0020_0000_0000_0000_0002,
      0xEC13_0400_0000_0000_0001_0000,
      0xF003_0421_4708_0000_0000_0001,
      0xF003_0421_4708_0000_0000_03C1,
      0xF013_0421_4000_0000_0000_0101,
      0xF033_0421_4700_0000_0000_0041,
      0xFFFF_FFFF_FFFF_FFFF_FFFF_FFFE] : List (BitVec 96)).all (fun w => !(decodeSlot w).toBool) = true := by decide

/-! ## States that meet the hypotheses of the statements: the scalar unit -/

theorem meets_IntegerForms : 63 < (64 : Imm48).toNat := by decide

theorem meets_Compare : ICond.Holds64 .lt 0xFFFF_FFFF_FFFF_FFFF 0 ∧ ¬ ICond.Holds64 .ltu 0xFFFF_FFFF_FFFF_FFFF 0 :=
  ⟨(by decide : (0xFFFF_FFFF_FFFF_FFFF : Word).toInt < (0 : Word).toInt),
    (by decide : ¬ (0xFFFF_FFFF_FFFF_FFFF : Word).toNat < (0 : Word).toNat)⟩

theorem meets_Select_and_fields : (given here [(7, 1)]).x 7 ≠ 0 ∧ here.x 7 = 0 ∧ 1 ≤ (64 : BitVec 7).toNat ∧
    (0 : BitVec 6).toNat + (64 : BitVec 7).toNat ≤ 64 ∧ (63 : BitVec 6).toNat + (1 : BitVec 7).toNat ≤ 64 := by decide

theorem meets_Branches : (⟨0xFF_FFFF_FFFF, 4⟩ : Target).wf = true ∧ here.holds 0 = true ∧ here.holds 8 = false ∧
    (4 : Word).extractLsb' 3 3 = 0 ∧ (4 : Word).toNat % 8 ≤ 4 ∧ ¬ ((5 : Word).toNat % 8 ≤ 4) ∧
    (8 : Word).extractLsb' 3 3 ≠ 0 := by decide

/-- The same with a table at 0x200 of one malformed entry. -/
def badTable : State := { here with hbm := here.hbm.writeN 0x208 8 5 }

theorem meets_TableJumps : ((1 : BitVec 17).toNat ≤ ((given here [(5, 1)]).x 5).toNat ∧ (here.x 5).toNat < (1 : BitVec 17).toNat ∧
      here.me.reply = none) ∧
    (∃ v t, here.Loads 0x200 8 v t ∧ here.FloorAllows t ∧ pcOk (BitVec.ofNat 64 v) = true) ∧
    ∃ v t, badTable.Loads 0x208 8 v t ∧ badTable.FloorAllows t ∧ pcOk (BitVec.ofNat 64 v) = false := by
  refine ⟨by decide, ?_, ?_⟩
  · obtain ⟨v, t, h, w⟩ := of_okAnd (e := loadElem 0x200 8) (s := here)
      (p := fun v t => pcOk (BitVec.ofNat 64 v) && t.withinFloor) (by decide)
    rw [Bool.and_eq_true] at w
    exact ⟨v, t, h, floor_allows w.2, w.1⟩
  · obtain ⟨v, t, h, w⟩ := of_okAnd (e := loadElem 0x208 8) (s := badTable)
      (p := fun v t => !pcOk (BitVec.ofNat 64 v) && t.withinFloor) (by decide)
    rw [Bool.and_eq_true] at w
    exact ⟨v, t, h, floor_allows w.2, by simpa using w.1⟩

/-- The table's own faults and waits: an entry at 4, one at an address of no class, and one whose page no table maps. -/
theorem meets_TableLoads : trapAnd (loadElem 4 8) here (fun f _ => decide (f.cause = .align)) = true ∧
    waitAnd (loadElem 0x5_0000 8) { here with normal := { here.normal with hpt := 0x8001 } } (fun _ u => u.withinFloor) = true ∧
    (4 : Word).toNat % 8 ≠ 0 ∧ isWindow 0x8000_0000_0000_0000 = false ∧ isUser 0x8000_0000_0000_0000 = false ∧
    isUser 0x5_0000 = true ∧ (({ here with normal := { here.normal with hpt := 0 } } : State).world false).hpt.toNat % 32 = 0 ∧
    (my here fun k => { k with reply := some (false, 3) }).me.reply.isSome = true := by decide

theorem meets_SharedRegisters : here.sharedWrites = [] ∧ isNext (exec (.mtc 0 .mjw 1) (given here [(1, 0x20)])) (fun t =>
      (t.cluster 0).mjw == (here.cluster 0).mjw && (t.tick.cluster 0).mjw.toNat / 16 % 16 == 2) = true ∧
    isNext (exec (.mtc 0 .lbtol 1) (given here [(1, 5)])) (fun t => t.lbtol == here.lbtol && t.tick.lbtol.toList.getD 0 0 == 5) = true := by
  decide +kernel

theorem meets_ControlRegisters : here.me.reply = none ∧ here.Ready ∧ here.holds 0 = true ∧ here.holds 8 = false :=
  ⟨by decide, here_ready, by decide, by decide⟩

/-- The same with a second context, which runs on core 1. -/
def beside : State := here.setCtx { core := 1, ctx := 0 } { here.me with run := .running }

theorem meets_Follow : (⟨0, 0⟩ : Target).wf = true ∧ here.holds 0 = true ∧ here.me.roll = .none ∧
    here.runnersOf 1 = [] ∧ beside.runnersOf 1 ≠ [] ∧ beside.otherFollower beside.active = false ∧
    (my here fun k => { k with roll := .following { core := 1, ctx := 0 } [] none }).me.follows = true ∧
    here.me.follows = false := by decide

/-- The same with two entries of the work queue. -/
def queued : State := here.mapCluster 0 fun k => { k with
  work := [{ start := 1, count := 2, key := 5, time := 0 }, { start := 3, count := 4, key := 7, time := 0 }] }

theorem meets_WorkQueue : ((given here [(1, 9), (2, 9)]).x 2).toNat % 2 ^ 32 ≤ ((given here [(1, 9), (2, 9)]).x 1).toNat % 2 ^ 32 ∧
    ((given here [(1, 9), (2, 10)]).x 1).toNat % 2 ^ 32 < ((given here [(1, 9), (2, 10)]).x 2).toNat % 2 ^ 32 ∧
    (∀ e ∈ (queued.cluster 0).work, e.key ≠ 6) ∧
    (queued.cluster 0).work = [{ start := 1, count := 2, key := 5, time := 0 }] ++
      { start := 3, count := 4, key := 7, time := 0 } :: [] := by decide

theorem meets_Launch : isWindow 0xFFFF_8000_0000_0000 = true ∧ isWindow 0x241 = false ∧ (0x241 : Word).toNat % 128 ≠ 0 ∧
    (0x280 : Word).toNat % 128 = 0 ∧ queueSecure 32 ≠ (here.threadOf here.active).secure ∧
    queueSecure 31 = (here.threadOf here.active).secure ∧
    (∃ pl u, (locate false (here.threadOf here.active) .read 1 0x280 0x280).run here = .ok pl u ∧ u.me.dout = 0 ∧
      here.FloorAllows u) ∧
    ∃ pl u, (locate false (here.threadOf here.active) .read 1 0x280 0x280).run (my here fun k => { k with dout := 1 }) =
      .ok pl u ∧ u.me.dout ≠ 0 := by
  refine ⟨rfl, rfl, by decide, by decide, by decide, by decide, ?_, ?_⟩
  · obtain ⟨pl, u, h, w⟩ := of_okAnd (e := locate false (here.threadOf here.active) .read 1 0x280 0x280) (s := here)
      (p := fun _ u => decide (u.me.dout = 0) && u.withinFloor) (by decide)
    rw [Bool.and_eq_true] at w
    exact ⟨pl, u, h, by simpa using w.1, floor_allows w.2⟩
  · obtain ⟨pl, u, h, w⟩ := of_okAnd (e := locate false (here.threadOf here.active) .read 1 0x280 0x280)
      (s := my here fun k => { k with dout := 1 }) (p := fun _ u => decide (u.me.dout ≠ 0)) (by decide)
    exact ⟨pl, u, h, by simpa using w⟩

theorem meets_Conversions : ¬ ((0x0D : BitVec 5).toNat ≤ 12) ∧ (0x0C : BitVec 5).toNat ≤ 12 ∧
    cvtClash ⟨0, false, false, 9, 0x0A⟩ = true ∧ cvtClash ⟨2, false, false, 4, 1⟩ = false ∧
    (let c : CvtSpec := ⟨3, false, false, 4, 1⟩
     c.part.toNat < max (cvtBytes c c.src) (cvtBytes c c.dst) / min (cvtBytes c c.src) (cvtBytes c c.dst)) ∧
    (let c : CvtSpec := ⟨1, false, false, 2, 3⟩
     max (cvtBytes c c.src) (cvtBytes c c.dst) / min (cvtBytes c c.src) (cvtBytes c c.dst) ≤ c.part.toNat) := by decide

theorem meets_Numbers : (1 : Nat) ≠ 0 ∧ 0xFFFF < 2 ^ (viewFmt .b).width ∧ ((viewFmt .b).decode 0x7F80).isNan = false := by
  decide

theorem meets_VectorViews : View.isInt .q = true ∧ View.isInt .d = true ∧ View.isFloat .b = true ∧ View.isFloat .d = true := by
  decide

/-- Keys 5, 5, 7, 0, … in v1, and lanes 0 to 2 selected by m1. -/
def keyed : State := (here.setV 1 (vecOf 32 [5, 5, 7])).setM 1 (BitVec.ofNat 128 (2 ^ 12 - 1))

theorem meets_VectorSums : (∀ k ∈ [0, 1], keyed.active? 1 .w k = true ∧ elem (keyed.v 1) 32 k = elem (keyed.v 1) 32 0) ∧
    elem (keyed.v 1) 32 2 ≠ elem (keyed.v 1) 32 0 ∧ keyed.active? 1 .w 2 = true ∧ keyed.active? 1 .w 3 = false ∧
    (1 : Pred) ≠ 8 ∧ (1 : VReg) ≠ 2 := by decide

theorem meets_RegisterFrames : isNext (exec (.addi 0 0 2 5) here) (fun _ => true) = true ∧
    scalarDest (.addi 0 0 2 5) = some 0 ∧ isNext (exec (.br 0 .eq 1 2 ⟨0, 0⟩) here) (fun _ => true) = true ∧
    isNext (exec (.call 0 ⟨0, 0⟩) here) (fun _ => true) = true ∧ isNext (exec (.lpad 0 5) here) (fun _ => true) = true ∧
    fpScalarDest (.fadd 0 .w .rne 1 2 3) = some 1 ∧ isNext (exec (.fadd 0 .w .rne 1 2 3) here) (fun _ => true) = true ∧
    fpVectorDest (.vexp2 0 1 2) = some 1 ∧ isNext (exec (.vexp2 1 1 2) here) (fun _ => true) = true ∧
    isNext (exec (.vfcmp 1 .eq .w 2 1 (.vec 2)) here) (fun _ => true) = true ∧ vectorDest (.vadd 0 .q 1 2 (.vec 3)) = some 1 ∧
    isNext (exec (.vadd 1 .d 1 2 (.vec 3)) here) (fun _ => true) = true ∧ maskDest (.mnot 0 1 2) = some 1 ∧
    isNext (exec (.mnot 0 1 2) here) (fun _ => true) = true ∧ isNext (exec (.vsortk 8 1 2 3) here) (fun _ => true) = true := by
  decide

theorem meets_FailingPredicates : guardOf (.halt 8) = some 8 ∧ guardOf (.cpya 8 1 2 3 0) = some 8 ∧ here.holds 8 = false ∧
    (my here fun k => { k with settle := { k.settle with active := true } }).me.inSettlement = true := by decide

/-! ## Loads, stores and tiles -/

/-- An address of the own core's window, and one of its cluster's shared window. -/
def coreVa : Word := 0xFFFF_8000_0000_0000
def sharedVa : Word := 0xFFFF_9000_0000_0000

theorem meets_ScalarLoads : here.Ready ∧ here.holds 8 = false ∧ (0x201 : Word).toNat % 8 ≠ 0 ∧
    (∃ v t, here.Loads 0x200 8 v t ∧ here.FloorAllows t) ∧ ∃ t, here.Stores 0x200 8 5 t ∧ here.FloorAllows t := by
  refine ⟨here_ready, by decide, by decide, ?_, ?_⟩
  · obtain ⟨v, t, h, w⟩ := of_okAnd (e := loadElem 0x200 8) (s := here) (p := fun _ t => t.withinFloor) (by decide)
    exact ⟨v, t, h, floor_allows w⟩
  · obtain ⟨v, t, h, w⟩ := of_okAnd (e := storeElem 0x200 8 5) (s := here) (p := fun _ t => t.withinFloor) (by decide)
    exact ⟨t, h, floor_allows w⟩

theorem meets_Stores : here.softErrors = [] ∧
    (∃ t pl s', here.Stores 0x200 8 5 t ∧ (locateStore (here.threadOf here.active) .write 2 0x200 8).run here = .ok pl s' ∧
      pl = .mem 0x200 ∧ here.hbm.wf = true) ∧
    ∃ t pl s', here.Stores coreVa 4 5 t ∧ (locateStore (here.threadOf here.active) .write 2 coreVa 4).run here = .ok pl s' ∧
      pl = .win 0 0 ∧ (here.winMem 0).wf = true := by
  refine ⟨by decide, ?_, ?_⟩
  · obtain ⟨_, t, h, -⟩ := of_okAnd (e := storeElem 0x200 8 5) (s := here) (p := fun _ _ => true) (by decide)
    obtain ⟨pl, s', h', w⟩ := of_okAnd (e := locateStore (here.threadOf here.active) .write 2 0x200 8) (s := here)
      (p := fun pl _ => decide (pl = .mem 0x200)) (by decide)
    exact ⟨t, pl, s', h, h', by simpa using w, by decide⟩
  · obtain ⟨_, t, h, -⟩ := of_okAnd (e := storeElem coreVa 4 5) (s := here) (p := fun _ _ => true) (by decide)
    obtain ⟨pl, s', h', w⟩ := of_okAnd (e := locateStore (here.threadOf here.active) .write 2 coreVa 4) (s := here)
      (p := fun pl _ => decide (pl = .win 0 0)) (by decide)
    exact ⟨t, pl, s', h, h', by simpa using w, by decide⟩

/-- The same with a copy of line 4 in the cluster's L1. -/
def copied : State := here.mapCluster 0 fun k => { k with l1 := [(4, { data := 7, stamp := { wts := 0, rts := 5 } })] }

theorem meets_Loads :
    (∃ v t pl s', here.Loads coreVa 4 v t ∧ (locateLoad (here.threadOf here.active) 1 coreVa 4).run here = .ok pl s' ∧
      pl = .win 0 0) ∧
    (∃ v t pl s', copied.Loads 0x200 8 v t ∧ (locateLoad (copied.threadOf copied.active) 1 0x200 8).run copied = .ok pl s' ∧
      pl = .mem 0x200 ∧ SMap.find (copied.cluster (clusterOfCore copied.active.core)).l1 (0x200 / 128) =
        some { data := 7, stamp := { wts := 0, rts := 5 } } ∧ tsLe copied.me.pts 5 = true) ∧
    ∃ v t pl s', here.Loads 0x200 8 v t ∧ (locateLoad (here.threadOf here.active) 1 0x200 8).run here = .ok pl s' ∧
      pl = .mem 0x200 ∧ SMap.find (here.cluster (clusterOfCore here.active.core)).l1 (0x200 / 128) = none ∧
      here.viewOf (0x200 / 128) = none ∧ ∀ x ∈ here.l2, x.line = 0x200 / 128 → x.view = none := by
  refine ⟨?_, ?_, ?_⟩
  · obtain ⟨v, t, h, -⟩ := of_okAnd (e := loadElem coreVa 4) (s := here) (p := fun _ _ => true) (by decide)
    obtain ⟨pl, s', h', w⟩ := of_okAnd (e := locateLoad (here.threadOf here.active) 1 coreVa 4) (s := here)
      (p := fun pl _ => decide (pl = .win 0 0)) (by decide)
    exact ⟨v, t, pl, s', h, h', by simpa using w⟩
  · obtain ⟨v, t, h, -⟩ := of_okAnd (e := loadElem 0x200 8) (s := copied) (p := fun _ _ => true) (by decide)
    obtain ⟨pl, s', h', w⟩ := of_okAnd (e := locateLoad (copied.threadOf copied.active) 1 0x200 8) (s := copied)
      (p := fun pl _ => decide (pl = .mem 0x200)) (by decide)
    exact ⟨v, t, pl, s', h, h', by simpa using w, by decide, by decide⟩
  · obtain ⟨v, t, h, -⟩ := of_okAnd (e := loadElem 0x200 8) (s := here) (p := fun _ _ => true) (by decide)
    obtain ⟨pl, s', h', w⟩ := of_okAnd (e := locateLoad (here.threadOf here.active) 1 0x200 8) (s := here)
      (p := fun pl _ => decide (pl = .mem 0x200)) (by decide)
    exact ⟨v, t, pl, s', h, h', by simpa using w, by decide, by decide, by decide⟩

/-- Lanes 0 and 1 of a 32-bit view selected by m1. -/
def masked : State := here.setM 1 0xFF

theorem meets_VectorLoads : masked.lanes 8 .w (fun i => 0x200 + BitVec.ofNat 64 (4 * i)) = [] ∧
    masked.lanes 1 .w (fun i => 0x200 + BitVec.ofNat 64 (4 * i)) ≠ [] ∧ (0x204 : Word).toNat % 128 ≠ 0 := by
  decide

theorem meets_LanesLoad : ∃ ps t,
    masked.LanesReady false .w (masked.lanes 1 .w fun i => 0x200 + BitVec.ofNat 64 (4 * i)) ps t ∧
      ∃ vs fl pts reply u, masked.LanesLoad t .w ps vs fl pts reply u ∧ masked.FloorAllows u := by
  obtain ⟨ps, u, t, r, v, h, h', h'', w⟩ := of_okAnd3
    (e := placeLanes (checkLoad 4) (masked.lanes 1 .w fun i => 0x200 + BitVec.ofNat 64 (4 * i)))
    (f := fun _ => pure ()) (g := fun ps => loadLanes (masked.threadOf masked.active) 1 4 ps masked.me.begun)
    (s := masked) (p := fun _ _ u => u.withinFloor) (by decide +kernel)
  obtain ⟨vs, fl, pts, reply⟩ := r
  exact ⟨ps, t, ⟨u, h, h'⟩, vs, fl, pts, reply, v, h'', floor_allows w⟩

theorem meets_PlainLanes : masked.softErrors = [] ∧ masked.me.gathered = none ∧ masked.Plain 0 (.mem 0x200) 4 ∧
    masked.Plain 0 (.mem 0x27C) 4 ∧ masked.Plain 0 (.win 1 0) 4 ∧ Apart (.mem 0x200) 4 (.mem 0x204) 4 ∧
    ¬ Apart (.mem 0x200) 4 (.mem 0x203) 4 := by
  unfold State.Plain Apart
  decide +kernel

theorem meets_LanesStore : ∃ ps t,
    masked.LanesReady true .w (masked.lanes 1 .w fun i => 0x200 + BitVec.ofNat 64 (4 * i)) ps t ∧
      (∀ e ∈ ps, ∀ ha, e.2 ≠ .host ha) ∧
      ∃ pts u, (storeLanes (masked.threadOf masked.active) 4 (elem (masked.v 2) 32) ps masked.me.pts).run t = .ok pts u ∧
        masked.FloorAllows u := by
  obtain ⟨ps, u, t, r, v, h, h', h'', w⟩ := of_okAnd3
    (e := placeLanes (checkStore 4) (masked.lanes 1 .w fun i => 0x200 + BitVec.ofNat 64 (4 * i)))
    (f := fun ps => readyLanes (masked.threadOf masked.active) 2 4 masked.me.pts ps)
    (g := fun ps => storeLanes (masked.threadOf masked.active) 4 (elem (masked.v 2) 32) ps masked.me.pts)
    (s := masked) (p := fun ps _ u => u.withinFloor && ps.all fun e => match e.2 with
      | .host _ => false
      | _ => true) (by decide +kernel)
  rw [Bool.and_eq_true] at w
  refine ⟨ps, t, ⟨u, h, h'⟩, ?_, r, v, h'', floor_allows w.1⟩
  intro e he ha hh
  have := List.all_eq_true.mp w.2 e he
  rw [hh] at this
  cases this

/-- Offsets of the lane slices in v2: lane 0 at 252, lane 1 at 254. -/
def sliced : State := masked.setV 2 (vecOf 32 [252, 254])

theorem meets_LaneSlices : here.softErrors = [] ∧
    (1 < 32 ∧ sliced.active? 1 .w 1 = true ∧ (elem (sliced.v 2) 32 1) % 4 ≠ 0 ∧ elem (sliced.v 2) 32 0 = 252) ∧
    (∀ l ∈ List.range 32, sliced.active? 8 .w l = false) ∧
    okAnd (do
      let ps ← placeSlices 1 (masked.lanes 1 .w fun _ => 252)
      loadLanes (masked.threadOf masked.active) 1 4 ps masked.me.begun) masked (fun _ u => u.withinFloor) = true ∧
    okAnd (do
      let ps ← placeSlices 2 (masked.lanes 1 .w fun _ => 252)
      storeLanes (masked.threadOf masked.active) 4 (elem (masked.v 2) 32) ps 0) masked (fun _ u => u.withinFloor) = true ∧
    ((List.range 8).foldl (fun s i => s.prefetch false (0x200 + BitVec.ofNat 64 (128 * i))) here).withinFloor = true := by
  decide

/-- A tile of two rows of four FP32 elements at the start of the cluster's window, in t1. -/
def tile2x4 : Tile := { addr := sharedVa, fmt := 1, rows := 2, cols := 4, stride := 16, scale := 0 }
def tiled : State := ((here.setT 1 tile2x4).setT 2 tile2x4).setT 3 tile2x4

theorem meets_Descriptors : (fmtOf (0x0D : BitVec 5)).width = 0 ∧ (fmtOf (1 : BitVec 5)).width ≠ 0 ∧
    scalable (1 : BitVec 5) = false ∧ { tile2x4 with rows := 65 }.shapeOk = false ∧
    { tile2x4 with rows := 65 }.formatOk = true ∧ tile2x4.formatOk = true ∧ tile2x4.shapeOk = true ∧
    tile2x4.windowOk 0 = true ∧ { tile2x4 with addr := sharedVa + 0x80000 }.windowOk 0 = false ∧
    { tile2x4 with addr := sharedVa + 0x7FFF0 }.windowOk 0 = false := by decide

/-- The same with V = 0 on the tile's granule. -/
def emptied : State := tiled.setTags 0 tile2x4.granules fun g => { g with v := false }

theorem meets_TileWaits : tiled.t 1 = tile2x4 ∧ tiled.valid 0 tile2x4.granules = true ∧
    emptied.valid 0 tile2x4.granules = false := by decide

theorem meets_TileLoads :
    okAnd (checkRows (tiled.threadOf tiled.active) false 16 [0x200, 0x210]) tiled
      (fun _ u => u.fillable 0 tile2x4.granules && u.withinFloor) = true ∧
    okAnd (checkRows (tiled.threadOf tiled.active) false 16 [0x200, 0x210]) emptied
      (fun _ u => !u.fillable 0 tile2x4.granules) = true ∧
    okAnd (checkRows (tiled.threadOf tiled.active) true 16 [0x200, 0x210]) tiled
      (fun _ u => u.valid 0 tile2x4.granules && u.withinFloor) = true ∧
    okAnd (checkRows (tiled.threadOf tiled.active) true 16 [0x200, 0x210]) emptied
      (fun _ u => !u.valid 0 tile2x4.granules) = true := by decide

/-- After a `TLD` of those rows its copy stands, and may be done. -/
theorem meets_TileCopy : isNext (exec (.tld 0 1 2 0 0) (given tiled [(2, 0x200)]))
      (fun t => t.tileCopies.length == 1 && match t.tileCopies with
        | c :: _ => okAnd (copyParts (t.copyThread c) 0 c (c.parts.drop c.units) c.time) t fun pts u =>
            (u.stampStores 0 c.tile.granules pts).1.withinFloor && c.parts.length == 2
        | [] => false) = true := by decide

/-- The first unit of that copy, as a load of HBM. -/
def aCopy : TileCopy :=
  { cluster := 0, tile := tile2x4, base := 0x200, stride := 16, owner := { core := 0, ctx := 0 }, queue := 0, fork := 0, lease := 0
    pages := [codePage], units := 0, time := 0 }

theorem meets_TileRows : tiled.softErrors = [] ∧ tiled.clusterMem.wf = true ∧ aCopy.tile.shapeOk = true ∧
    partsOf 0x210 aCopy.tile.rowLen = [(0x210, 16)] ∧
    okAnd (locateBy aCopy.pages (tiled.copyThread aCopy) 5 0x210) tiled (fun pl s => decide (pl = .mem 0x210) && decide (s = tiled)) =
      true ∧ tiled.Plain 0 (.mem 0x210) 16 := by
  unfold State.Plain
  decide +kernel

/-- A tile of three 4-bit columns, whose rows end inside their second byte. -/
def oddTile : Tile := { addr := sharedVa, fmt := 8, rows := 2, cols := 3, stride := 16, scale := 0 }

theorem meets_TileTails : (oddTile.cols.toNat * oddTile.width) % 8 ≠ 0 ∧ oddTile.shapeOk = true ∧ oddTile.rowLen = 2 ∧
    (∀ va ∈ [(0x200 : Word), 0x201, 0x210, 0x211], tiled.Located (tiled.threadOf tiled.active) va (.mem va.toNat)) ∧
    tiled.Plain 0 (.mem 0x211) 1 ∧ Apart (.mem 0x211) 1 (.mem 0x200) 2 := by
  refine ⟨by decide, by decide, by decide, ?_, by unfold State.Plain; decide +kernel, by unfold Apart; decide⟩
  intro va h
  unfold State.Located
  rw [if_neg (by simp only [List.mem_cons, List.not_mem_nil, or_false] at h; rcases h with rfl | rfl | rfl | rfl <;> decide)]
  exact ⟨codePage, fun x hx _ => by
      rw [show (tiled.core (tiled.threadOf tiled.active).ctx.core.toNat).dtlb ++
        (tiled.cluster (tiled.threadOf tiled.active).cluster).tlb = [codePage] from by decide +kernel] at hx
      simpa using hx,
    by simp only [List.mem_cons, List.not_mem_nil, or_false] at h; rcases h with rfl | rfl | rfl | rfl <;> decide⟩

theorem meets_TileStore : isNext (exec (.tst 0 1 2 0 0) (given tiled [(2, 0x200)])) (fun t => t.me.last == .done) = true := by decide +kernel

/-! ## Jobs -/

/-- Tile registers of products: A of 2 x 4, B of 2 x 4 (for a transposed product), C of 2 x 2, all FP32. -/
def tile2x2 : Tile := { addr := sharedVa + 0x100, fmt := 1, rows := 2, cols := 2, stride := 16, scale := 0 }
def products : State := ((here.setT 1 tile2x4).setT 2 tile2x4).setT 3 tile2x2

/-- The queue of core 0 of the matrix engine full. -/
def aJob (kind : JobKind) : Job :=
  { id := 5, owner := { core := 0, ctx := 0 }, queue := 0, fork := 0, lease := 0, kind := kind, thunk := none, time := 0
    units := [], batch := none, failed := none }
def fullQueue (s : State) (copy : Bool) : State :=
  s.mapEngine 0 copy fun e => { e with queues := SMap.put e.queues 0 (List.replicate 16 (aJob (.copy 0 0 1))) }
def nearlyFull (s : State) (copy : Bool) : State :=
  s.mapEngine 0 copy fun e => { e with queues := SMap.put e.queues 0 (List.replicate 15 (aJob (.copy 0 0 1))) }

theorem jobRoom_of {s : State} {copy : Bool} (h : (SMap.at ((s.cluster (clusterOfCore s.active.core)).engine copy).queues []
    (s.active.core.toNat % 8)).length < 16)
    (h' : (SMap.find (s.core s.active.core.toNat).jobs ((s.core s.active.core.toNat).seq - 256).toNat).all
      (fun st => decide (st.1 ≠ 0)) = true) : s.JobRoom copy := by
  refine ⟨h, fun st w => ?_⟩
  rw [w] at h'
  simpa using h'

theorem meets_JobRoom : here.JobRoom false ∧ here.JobRoom true ∧ (nearlyFull here false).JobRoom false ∧
    ¬ (fullQueue here false).JobRoom false :=
  ⟨jobRoom_of (by decide +kernel) (by decide +kernel), jobRoom_of (by decide +kernel) (by decide +kernel),
    jobRoom_of (by decide +kernel) (by decide +kernel), fun h => absurd h.1 (by decide +kernel)⟩

theorem meets_MatrixJobs : products.TileOk (products.t 1) ∧ products.TileOk (products.t 2) ∧ products.TileOk (products.t 3) ∧
    productFits (products.t 1) (products.t 2).cols.toNat (products.t 2).rows.toNat true ∧
    (products.t 3).rows = (products.t 1).rows ∧ (products.t 3).cols.toNat = (products.t 2).rows.toNat ∧
    mixOk 1 1 1 = true ∧ mixOk 1 1 2 = false ∧ (products.t 2).rows.toNat ≠ (products.t 1).cols.toNat ∧
    (products.t 2).off + csrBytes (products.t 2) 4096 ≤ 2 ^ 19 ∧
    (products.t 2).scaleOk (products.t 2).rows.toNat (products.t 2).cols.toNat = true ∧
    (∀ t ∈ [products.t 1, products.t 2, products.t 3], t.formatOk = true ∧ t.scale = 0 ∧ t.shapeOk = true ∧
      t.rows.toNat ≤ 16 ∧ t.cols.toNat ≤ 16) ∧
    16 * (32752 : BitVec 15).toNat + 256 ≤ 2 ^ 19 := by
  unfold State.TileOk productFits
  decide +kernel

/-- A purse page of the same launch at 0x10000, and x9 the base of a region in it. -/
def pursed : State := ((given products [(9, 0x10000)]).mapCore 0 fun k => { k with
  dtlb := [codePage, { codePage with vpn := 1, ppn := 1, type := 1 }] })

theorem meets_PurseProducts : mixPurse 1 1 = true ∧ mixPurse 1 2 = false ∧
    okAnd (checkPurse (pursed.threadOf pursed.active) (pursed.x 9) 2 2 64) pursed
      (fun pages u => pages.length == 1 && u.withinFloor) = true ∧
    ∀ pages u, (checkPurse (pursed.threadOf pursed.active) (pursed.x 9) 2 2 64).run pursed = .ok pages u → u.JobRoom false := by
  refine ⟨by decide, by decide, by decide +kernel, fun pages u h => ?_⟩
  have w : okAnd (checkPurse (pursed.threadOf pursed.active) (pursed.x 9) 2 2 64) pursed (fun _ u =>
      decide ((SMap.at ((u.cluster (clusterOfCore u.active.core)).engine false).queues [] (u.active.core.toNat % 8)).length < 16) &&
      (SMap.find (u.core u.active.core.toNat).jobs ((u.core u.active.core.toNat).seq - 256).toNat).all
        (fun st => decide (st.1 ≠ 0))) = true := by decide +kernel
  obtain ⟨_, v, h', w'⟩ := of_okAnd w
  rw [h] at h'
  cases h'
  rw [Bool.and_eq_true] at w'
  exact jobRoom_of (by simpa using w'.1) w'.2

/-- What a region that is no purse's raises: a base that is no multiple of 16, a page that is NORMAL, an address of no class, and
an assay range over the page. -/
theorem meets_PurseFaults : ((given pursed [(9, 0x10008)]).x 9).toNat % 16 ≠ 0 ∧
    okAnd (locate false (pursed.threadOf pursed.active) .write 4 0x200 0x200) pursed (fun pl _ => decide (pl = .mem 0x200)) = true ∧
    trapAnd (locate false (pursed.threadOf pursed.active) .write 4 0x8000_0000_0000_0000 0x8000_0000_0000_0000) pursed (fun _ _ => true) =
      true ∧
    okAnd (checkRegion (pursed.threadOf pursed.active) []) pursed (fun es u => es.isEmpty && decide (u = pursed)) = true ∧
    ({ pursed with assay := pursed.assay.setIfInBounds 0 ⟨0x8000_0000_0000_0000, 0x10000, 0x10000, 0x10000, 0x10000⟩ } :
      State).assayBytes 0x10000 32 = true := by decide +kernel

/-- An assay range whose compressed region begins at 0. -/
def assayed : State := { here with assay := here.assay.setIfInBounds 0 ⟨0x8000_0000_0000_0000, 0, 0, 0, 0⟩ }

theorem meets_CopyJobs : (here.x 3).toNat % 2 ^ 32 = 0 ∧ ((given here [(3, 0x1_0000_0001)]).x 3).toNat % 2 ^ 32 ≠ 0 ∧
    (here.threadOf here.active).secure = false ∧
    ((launched here fun l => { l with secure := true }).threadOf here.active).secure = true ∧
    ¬ ((0x0D : BitVec 5).toNat ≤ 12) ∧ (0x0C : BitVec 5).toNat ≤ 12 ∧ (0x1001 : Word).toNat % 128 ≠ 0 ∧
    (0x1000 : Word).toNat % 128 = 0 ∧ (∀ r ∈ here.assay.toList, r.on = false) ∧
    ∃ r ∈ assayed.assay.toList, r.on = true ∧ r.sec = false ∧ r.stored (inside 0 128) = true := by decide +kernel

/-- A matrix job of that product at the head of queue 0, and in progress. -/
def product : JobKind := .mma tile2x4 tile2x4 (.tile tile2x2) false true none
def pendingJob : State := products.mapEngine 0 false fun e => { e with queues := [(0, [aJob product])] }
def runningJob : State := products.mapEngine 0 false fun e => { e with running := [(0, aJob product)] }

theorem meets_EngineEvents : pendingJob.nextQueue 0 false = some (0, 1) ∧ product.posts = false ∧
    SMap.at ((pendingJob.cluster 0).engine false).queues [] 0 = aJob product :: [] ∧
    runningJob.runningJob 0 false 0 = some (aJob product) ∧
    okAnd (jobWork false 0 0 (aJob product)) runningJob (fun time u => (u.assign time).withinFloor) = true ∧
    trapAnd (jobWork true 0 0 (aJob (.copy 0x200 0xFFFF_FFFF_0000_0000 4)))
      (here.mapEngine 0 true fun e => { e with running := [(0, aJob (.copy 0x200 0xFFFF_FFFF_0000_0000 4))] })
      (fun _ u => u.withinFloor) = true := by decide +kernel

/-- A job of a purse product at the head of its queue; a batch; a job that has met a fault. -/
def purseJob : State := pursed.mapEngine 0 false fun e => { e with
  queues := [(0, [aJob (.mma tile2x4 tile2x4 (.purse 0x10000 false 2 [{ codePage with vpn := 1, ppn := 1, type := 1 }]) false true none)])] }
def batch : JobKind := .mmab tile2x4 tile2x4 tile2x2 false true 0x400
def batchJob : State := products.mapEngine 0 false fun e => { e with queues := [(0, [aJob batch])] }

theorem meets_Starts : purseJob.nextQueue 0 false = some (0, 1) ∧ purseJob.softErrors = [] ∧
    (let j := aJob (.mma tile2x4 tile2x4 (.purse 0x10000 false 2 [{ codePage with vpn := 1, ppn := 1, type := 1 }]) false true none)
     SMap.at (purseJob.cluster 0).matrix.queues [] 0 = j :: [] ∧
     (purseJob.stampLoads 0 (purseJob.jobLoads 0 j) (purseJob.tagTime 0 (purseJob.jobReads 0 j) j.fork)).1.withinFloor = true) ∧
    batchJob.nextQueue 0 false = some (0, 1) ∧ batchJob.softErrors = [] ∧
    (batchJob.stampLoads 0 (granulesOf 0x400 256)
      (batchJob.tagTime 0 (batchJob.jobReads 0 (aJob batch) ++ batchJob.jobUpdates 0 (aJob batch)) 0)).1.withinFloor = true ∧
    ((products.mapEngine 0 false fun e => { e with running := [(0, { aJob product with failed := some (0x34, false, 0x888) })] }).runningJob
      0 false 0).map (·.failed) = some (some (0x34, false, 0x888)) := by decide +kernel

theorem meets_Products : runningJob.softErrors = [] ∧ (aJob product).failed = none ∧ (aJob product).units = [] ∧
    (let o := denseOperands runningJob.clusterMem 0 tile2x4 tile2x4 true
     tile2x2.rows.toNat = o.m ∧ tile2x2.cols.toNat = o.n) ∧
    csrOk runningJob.clusterMem 0 { tile2x4 with rows := 4, cols := 2, stride := 8 } 0 = true ∧
    (let o := sparseOperands runningJob.clusterMem 0 tile2x4 { tile2x4 with rows := 4, cols := 2, stride := 8 } 0
     tile2x2.rows.toNat = o.m ∧ tile2x2.cols.toNat = o.n) := by decide +kernel

theorem meets_Sums : FV.Is (.fin false 3 0) 3 ∧ FV.Is (.fin true 1 1) (-2) := by
  constructor <;> norm_num [FV.Is]

/-- A copy of 64 bytes of the cluster's window in progress on queue 0, and one whose unit is done. -/
def copyKind : JobKind := .copy (sharedVa + 0x80) sharedVa 64
def copying (units : List Nat) : State :=
  here.mapEngine 0 true fun e => { e with running := [(0, { aJob copyKind with units := units })] }

theorem meets_Copies : let t : Thread := { (copying []).jobThread 0 (aJob copyKind) with unit := some (.copy 0 0 0) }
    (copying []).runningJob 0 true 0 = some (aJob copyKind) ∧ (sharedVa + 0x80).toNat % 128 + 64 ≤ 128 ∧
    isWindow sharedVa = true ∧ isWindow (sharedVa + 0x80) = true ∧
    ((copying []).window t (sharedVa + 0x80)).toOption = some (.win 1 0x80) ∧
    ((copying []).window t sharedVa).toOption = some (.win 1 0) ∧ (copying []).fillable 0 [1] = true ∧
    copyKind.parts[0]? = some { dst := sharedVa + 0x80, n := 64, row := 0, off := 0 } ∧
    okAnd (do
      let (v, pts) ← partsBytes t copyKind (sharedVa + 0x80) [(0, { dst := sharedVa + 0x80, n := 64, row := 0, off := 0 })] 0 0
      writePart t copyKind.parts [] [0] { dst := sharedVa + 0x80, n := 64, row := 0, off := 0 } v pts) (copying [])
      (fun _ u => u.runningJob 0 true 0 == some (aJob copyKind) && u.withinFloor) = true ∧
    (∀ n, n < copyKind.parts.length → n ∈ [0]) ∧
    ((copying [0]).runningJob 0 true 0).map (·.units) = some [0] := by decide +kernel

/-- A copy of two rows of 64 bytes, which are one line together: its two units are performed as one. -/
def lineKind : JobKind := .copy2 (sharedVa + 0x80) sharedVa 64 64 2 64
def lining : State := here.mapEngine 0 true fun e => { e with running := [(0, aJob lineKind)] }

theorem meets_LineCopies : let t : Thread := { lining.jobThread 0 (aJob lineKind) with unit := some (.copy 0 0 0) }
    let now : List (Nat × CopyPart) := [(0, { dst := sharedVa + 0x80, n := 64, row := 0, off := 0 }),
      (1, { dst := sharedVa + 0xC0, n := 64, row := 1, off := 0 })]
    lineKind.parts = now.map (·.2) ∧ now.map (·.1) = [0, 1] ∧
    okAnd (do
      let (v, pts) ← partsBytes t lineKind (sharedVa + 0x80) now 0 0
      writePart t lineKind.parts [] [0, 1] { dst := sharedVa + 0x80, n := 128, row := 0, off := 0 } v pts) lining
      (fun _ u => u.runningJob 0 true 0 == some (aJob lineKind) && u.withinFloor) = true := by decide +kernel

/-- A core that knows the job ids 0 to 2: pending, done and faulted. -/
def knowing : State := here.mapCore 0 fun k => { k with
  jobs := [(0, (0, 0, false, 0, 0)), (1, (1, 0, false, 0, 7)), (2, (2, 0x34, false, 0x888, 9))], seq := 3 }

theorem meets_JobStatus : (0 / 2 ^ 12 % 16 = knowing.active.core.toNat % 8) ∧
    SMap.find (knowing.core 0).jobs 0 = some (0, 0, false, 0, 0) ∧ SMap.find (knowing.core 0).jobs 1 = some (1, 0, false, 0, 7) ∧
    SMap.find (knowing.core 0).jobs 2 = some (2, 0x34, false, 0x888, 9) ∧ SMap.find (knowing.core 0).jobs 3 = none ∧
    (0x1000 : Word).toNat / 2 ^ 12 % 16 ≠ knowing.active.core.toNat % 8 :=
  ⟨by decide, rfl, rfl, rfl, rfl, by decide⟩

/-! ## Handles -/

/-- Tiles of two rows of two FP32 elements, at an offset of the cluster's window. -/
def square (off : Word) : Tile := { addr := off, fmt := 1, rows := 2, cols := 2, stride := 8, scale := 0 }

/-- Slot 0 VALUE, slot 1 a SUSPENDED sum of slot 0 with itself, slot 2 EVALUATING, and slot 3 EVALUATING for a demand; x1
to x3 hold the handles. The context may suspend 4 thunks, 4 deep. -/
def held : State := my ((given here [(1, 1), (2, 2049), (3, 4097)]).mapCluster 0 fun k => { k with slots := [
    (0, { state := .value, refcnt := 1, tile := square 0, time := 7 }),
    (1, { state := .suspended, refcnt := 2, depth := 1, argA := 1, argB := 1, top := some .add, tile := square 0x100 }),
    (2, { state := .evaluating, refcnt := 1, depth := 1, tile := square 0x200 }),
    (3, { state := .evaluating, refcnt := 1, depth := 1, top := some .add, tile := square 0x300 })] })
  fun k => { k with allow := 4, depthlim := 4 }

theorem handleOk_of {s : State} {h : BitVec 32} {k : HSlot}
    (h1 : (s.launchAt s.active).clusters.contains (hCluster h) = true) (h2 : s.remoteDrops = []) (h3 : s.softErrors = [])
    (h4 : s.slotOf h = some k) : s.HandleOk h k := ⟨h1, by rw [h2]; simp, h3, h4⟩

theorem meets_HandleOk : (∃ k, held.HandleOk (held.h 1) k ∧ k.state = .value ∧ k.refcnt = 1 ∧ k.gen ≠ 2047) ∧
    (∃ k, held.HandleOk (held.h 2) k ∧ k.state = .suspended ∧ 1 < k.refcnt.toNat ∧ k.refcnt ≠ 0xFFFF) ∧
    ∃ k, held.HandleOk (held.h 3) k ∧ k.state = .evaluating :=
  ⟨⟨_, handleOk_of (by decide) rfl rfl rfl, rfl, rfl, by decide⟩,
    ⟨_, handleOk_of (by decide) rfl rfl rfl, rfl, by decide, by decide⟩, ⟨_, handleOk_of (by decide) rfl rfl rfl, rfl⟩⟩

/-- The context whose allowance is spent, and whose depth limit is 1. -/
def spent : State := my held fun k => { k with thunks := 4 }
def shallow : State := my held fun k => { k with depthlim := 1 }

theorem held_fresh : held.me.grant = .none ∧ held.me.wait = .none := by decide +kernel
theorem held_ready : held.Ready := ⟨by decide +kernel, by decide +kernel⟩
theorem held_freeAt : held.freeAt 4 := by unfold State.freeAt; decide +kernel

/-- A `SUSP` of the sum of slot 0 with itself: lazily within the allowance, strictly beyond it; of slot 1 strictly beyond the
depth limit. -/
theorem meets_Allowance : held.lazily [1, 1] = true ∧ spent.lazily [1, 1] = false ∧ shallow.lazily [2049] = false ∧
    held.lazily [2049] = true := by decide +kernel

theorem meets_Formats : topFormats .add (square 0) (square 0) 0 = true ∧
    topFormats .add (square 0) { square 0 with fmt := 2 } 0 = false ∧
    okAnd (formResult 0 .add (square 0) (square 0) 0 0x400) held (fun r u =>
      (r.rows == 2 && r.cols == 2 && r.fmt == 1 && r.addr == 0x400) && decide (u = held)) = true := by decide +kernel

/-- What a strict `SUSP` or `SUSPR` waits for: nothing, where slot 0 is a VALUE; slot 1, which is SUSPENDED; slot 2, which
another evaluates. -/
theorem meets_Strict : (spent.slotAt 1).state = .value ∧ (spent.slotAt 2049).state = .suspended ∧
    (spent.slotAt 4097).state = .evaluating ∧ spent.selfdep spent.active 64 4097 = false ∧ spent.me.grant = .none ∧
    (let s := my spent fun k => { k with wait := .work (square 0), grant := .demanded 9 {} none }
     s.me.wait = .work (square 0) ∧ s.me.grant = .demanded 9 {} none ∧ freeSlot (s.cluster 0) 2048 0 = some 4) ∧
    (my spent fun k => { k with wait := .demand (some 4097) }).me.wait = .demand (some 4097) := by decide +kernel

theorem meets_Routines : (held.launchAt held.active).routines.length ≤ (0 : BitVec 16).toNat ∧
    (0 : BitVec 16).toNat < ((launched held fun l => { l with routines := [0x40] }).launchAt held.active).routines.length := by
  decide +kernel

/-- The store full: every slot in use. -/
def crowded : State := held.mapCluster 0 fun k => { k with
  slots := (List.range' 0 2048).map fun i => (i, { state := .value, refcnt := 1, tile := square 0 }) }

theorem find_filled {α : Type} (x : α) (n : Nat) : ∀ i k, i ≤ k → k < i + n →
    SMap.find ((List.range' i n).map fun j => (j, x)) k = some x := by
  induction n with
  | zero => intro i k h h'; omega
  | succ n ih =>
    intro i k h h'
    rw [List.range'_succ, List.map_cons, SMap.find]
    split
    · rfl
    · exact ih (i + 1) k (by omega) (by omega)

theorem freeSlot_filled {k : Cluster} {x : HSlot} (hk : k.slots = (List.range' 0 2048).map fun i => (i, x))
    (hx : x.state = .value) (n : Nat) : ∀ i, i + n ≤ 2048 → freeSlot k n i = none := by
  induction n with
  | zero => intro i _; rfl
  | succ n ih =>
    intro i h
    have h1 := find_filled x 2048 0 i i.zero_le (by omega)
    simp [freeSlot, hk, SMap.at, h1, hx, ih (i + 1) (by omega)]

theorem meets_MkvalWaits : products.TileOk (products.t 1) ∧ freeSlot (crowded.cluster 0) 2048 0 = none :=
  ⟨by unfold State.TileOk; decide +kernel, freeSlot_filled rfl rfl 2048 0 (by decide)⟩

/-- A context borrowed for slot 3, which the demand of context 1 of the core waits for. -/
def borrowed : State :=
  let s := (my held fun k => { k with borrowed := some (0, 3) }).setT 1 { square 0 with addr := sharedVa }
  ({ s with demands := [{ owner := some { core := 0, ctx := 1 }, at_ := 0, queue := 0, fork := 0, frames := [(6145, .running)] }] } :
    State).setCtx { core := 0, ctx := 1 } { here.me with run := .waiting, wait := .demand none }

theorem meets_HandlesAreUsed :
    (my held fun k => { k with grant := .demanded 9 {} none }).me.grant = .demanded 9 {} none ∧
    (given held [(1, 0)]).h 1 = 0 ∧
    (held.launchAt held.active).clusters.contains (hCluster ((given held [(1, 0x40_0001)]).h 1)) = false ∧
    (held.launchAt held.active).clusters.contains (hCluster ((given held [(1, 2)]).h 1)) = true ∧
    (given held [(1, 2)]).slotOf ((given held [(1, 2)]).h 1) = none ∧ held.me.borrowed = none ∧
    borrowed.me.borrowed = some (0, 3) ∧
    (let w := borrowed.handle 0 3
     let ended := ((borrowed.setSlot w { borrowed.slotAt w with
          tile := { borrowed.t 1 with addr := BitVec.ofNat 64 ((borrowed.t 1).addr.toNat % 2 ^ 19) } }).endFrame w borrowed.me.pts none)
     (ended.freeCtx borrowed.active).recheckEpisodes (borrowed.queueOf 0) |>.withinFloor) = true := by decide +kernel

/-- Slot 0 at the last generation, slot 2 with its last reference, and a demand that ends in a fault. -/
theorem meets_LastReferences :
    ((held.mapCluster 0 fun k => { k with slots := [(0, { state := .value, refcnt := 1, gen := 2047, tile := square 0 })] }).slotAt 0).gen = 2047 ∧
    (held.slotAt 4097).refcnt.toNat ≤ 1 ∧ (held.slotAt 4097).state = .evaluating ∧
    (my held fun k => { k with grant := .demanded 0 {} (some { cause := .trap, tcode := 5 }) }).me.grant =
      .demanded 0 {} (some { cause := .trap, tcode := 5 }) := by decide +kernel

theorem meets_RemoteDrop : let s : State := { held with remoteDrops := [{ handle := 2, by_ := { core := 0, ctx := 0 } },
      { handle := 2049, by_ := { core := 1, ctx := 0 } }] }
    s.remoteDrops[0]?.map (·.handle) = some 2 ∧ s.slotOf 2 = none ∧ (s.slotOf 2049).map (·.refcnt) = some 2 ∧
    ∀ x ∈ s.remoteDrops.take 1, x.by_ ≠ { core := 1, ctx := 0 } := by decide +kernel

/-- Demands for a handle at a level of its evaluation, made in an earlier cycle. -/
def demanding (s : State) (frames : List (BitVec 32 × FrameState)) : State :=
  { s with clock := 5, demands := [{ owner := some { core := 0, ctx := 1 }, at_ := 3, queue := 0, fork := 0, frames := frames }] }

/-- Slot 3 as a sum whose arguments are values, or whose first argument is the suspended slot 1. -/
def ready3 : State := held.setSlot 6145 { held.slotAt 6145 with argA := 1, argB := 1 }
def needs3 : State := held.setSlot 6145 { held.slotAt 6145 with argA := 2049, argB := 1 }

theorem meets_Teller : (demanding held [(2049, .open)]).tellerOn 0 = true ∧ (demanding held [(2049, .open)]).demandOrder = [0] ∧
    hCluster 2049 = 0 ∧ (held.slotOf 2049).map (·.state) = some .suspended ∧ (held.slotOf 1).map (·.state) = some .value ∧
    ((needs3.slotAt 6145).args.find? fun a => a ≠ 0 ∧ (needs3.slotAt a).state ≠ .value) = some 2049 ∧
    ((ready3.slotAt 6145).args.find? fun a => a ≠ 0 ∧ (ready3.slotAt a).state ≠ .value) = none ∧
    (ready3.slotAt 6145).top = some .add ∧
    okAnd (evaluateTop ((demanding ready3 [(6145, .marked)]).evalThread 0 { owner := some { core := 0, ctx := 1 }, at_ := 3, queue := 0, fork := 0, frames := [(6145, .marked)] }) 0 .add .rne
      (((ready3.slotAt 6145).args.filter (· ≠ 0)).map fun a =>
          (hCluster a, (ready3.slotAt a).tile.at_ (hCluster a) (ready3.slotAt a).tile.off))
      ((ready3.slotAt 6145).tile.at_ 0 (ready3.slotAt 6145).tile.off) 7) (demanding ready3 [(6145, .marked)])
      (fun _ u => u.withinFloor) = true := by decide +kernel

/-- What the operations of the teller read and write: a tile of one row and its sum, valid and fillable. -/
theorem meets_Operations : held.softErrors = [] ∧ held.valid 0 ((square 0).at_ 0 0).granules = true ∧
    held.fillable 0 ((square 0x400).at_ 0 0x400).granules = true ∧ fmtOf (square 0).fmt = .float fp32 ∧
    (fmtOf (9 : BitVec 5)).isInt = true ∧ (square 0).cols.toNat ≤ 2 ^ 1 ∧ (∀ l, l < 1 → ¬ (square 0).cols.toNat ≤ 2 ^ l) := by
  decide +kernel

/-- A demand whose slot has been freed, and a slot that is freed at the end of its evaluation. -/
theorem meets_FreedSlots : (demanding held [(2, .open)]).slotOf 2 = none ∧
    ((needs3.slotAt 6145).args.find? fun a => a ≠ 0 ∧ (needs3.slotOf a).all (·.state ≠ .value)) = some 2049 ∧
    (((held.setSlot 6145 { held.slotAt 6145 with argA := 2 }).slotAt 6145).args.find? fun a => a ≠ 0 ∧ (held.slotOf a).all (·.state ≠ .value)) = some 2 ∧
    ((held.setSlot 6145 { held.slotAt 6145 with spent := true, refcnt := 0 }).slotAt 6145).spent = true := by decide +kernel

/-- The demand of a strict `SUSP` of slot 0 with itself: with an argument left, or with both in hand. -/
def strictDemand (left : List (BitVec 32)) (args : List (Nat × Tile)) (op : Top) : Demand :=
  { owner := some { core := 0, ctx := 1 }, at_ := 3, queue := 0, fork := 0, frames := []
    work := some { cluster := 0, op := some (op, .rne, square 0x400), left := left, args := args, submitted := false } }
def strictly (d : Demand) : State := { held with clock := 5, demands := [d] }

theorem meets_StrictDemand : (strictly (strictDemand [2049] [] .add)).demandOrder = [0] ∧
    (strictly (strictDemand [2049] [] .add)).tellerOn 0 = true ∧
    (SMap.at ((strictly (strictDemand [] [(0, square 0), (0, square 0)] .mma)).cluster 0).matrix.queues [] 8).length < 16 := by
  decide +kernel

/-- Both arguments of the sum are in hand. -/
def strictSum : Demand := strictDemand [] [(0, square 0), (0, square 0)] .add

theorem meets_StrictSum : okAnd (evaluateTop ((strictly strictSum).evalThread 0 strictSum) 0 .add .rne
      [(0, (square 0).at_ 0 0), (0, (square 0).at_ 0 0)] ((square 0x400).at_ 0 0x400) 0) (strictly strictSum)
      (fun _ u => u.withinFloor) = true := by
  decide +kernel

/-- Slot 3 as a routine thunk, marked. -/
def routine3 : State := launched (demanding (held.setSlot 6145 { held.slotAt 6145 with top := none, routine := true, argA := 1 })
  [(6145, .marked)]) fun l => { l with routines := [0x40] }

theorem meets_RoutineThunks : ((routine3.slotAt 6145).args.all fun a => a == 0 || decide ((routine3.slotAt a).state = .value)) = true ∧
    (routine3.slotAt 6145).routine = true ∧
    ((routine3.freeContexts 0).head? == some { core := 0, ctx := 1 }) = true ∧
    (routine3.launch (routine3.queueOf 0)).routines[(routine3.slotAt 6145).ridx.toNat]? = some 0x40 ∧ pcOk 0x40 = true := by
  decide +kernel

/-- Slot 3 with an argument and a creator, whose evaluation two demands wait for. -/
def awaited3 : State :=
  let s := demanding (held.setSlot 6145 { held.slotAt 6145 with argA := 1, creator := some { core := 0, ctx := 0 } }) [(6145, .ended 9 none)]
  { s with demands := s.demands ++
    [{ owner := some { core := 0, ctx := 2 }, at_ := 4, queue := 0, fork := 0, frames := [(6145, .waiting)] }] }

theorem meets_Awaited : (awaited3.slotAt 6145).refcnt ≠ 0 ∧ (awaited3.slotAt 6145).argA = 1 ∧
    (awaited3.slotAt 6145).creator = some { core := 0, ctx := 0 } ∧
    awaited3.demands[1]?.map (·.frames) = some [(6145, .waiting)] := by decide +kernel

/-- Slot 3 without arguments, whose evaluation has ended. -/
def ended3 : State := demanding held [(6145, .ended 9 none)]

/-- A spark for slot 1 and no demand. -/
def sparked : State := held.mapCluster 0 fun k => { k with sparks := [(2049, 4, 0)] }

theorem meets_TellerCompletes : (6145 : BitVec 32) = ended3.handle 0 3 ∧ (ended3.slotAt 6145).args = [0, 0, 0] ∧
    (ended3.slotAt 6145).refcnt ≠ 0 ∧ (ended3.slotAt 6145).creator = none ∧
    sparked.tellerOn 0 = true ∧ sparked.tellerStep 0 sparked.demandOrder = none ∧
    (sparked.cluster 0).sparks = (2049, 4, 0) :: [] ∧ (sparked.slotOf 2049).map (fun k => (k.state, k.routine)) = some (.suspended, false) ∧
    ((held.mapCluster 0 fun k => { k with sparks := [(1, 4, 0)] }).slotOf 1).map (·.state) = some .value := by decide +kernel

/-! ## Purses, atomics -/

theorem meets_Cells : [FV.inf true, FV.nan true, FV.fin false 1 0].Perm [FV.nan true, FV.inf true, FV.fin false 1 0] :=
  List.Perm.swap ..

theorem meets_PurseOperations : pursed.Ready ∧ pursed.holds 0 = true ∧
    okAnd (locateCells (pursed.lanes 8 .w fun _ => 0x10000)) pursed (fun _ t => t.withinFloor) = true ∧
    okAnd (locateCells ((pursed.setM 1 0xFF).lanes 1 .w fun i => 0x10000 + (BitVec.ofNat 64 i <<< 4))) (pursed.setM 1 0xFF)
      (fun cs t => cs.length == 2 && t.withinFloor) = true ∧
    pursed.me.dout = 0 ∧ (0x10008 : Word).toNat % 16 ≠ 0 ∧ isWindow coreVa = true ∧ isWindow 0x10000 = false ∧
    okAnd (locate false (pursed.threadOf pursed.active) .write 4 0x10000 0x10000) pursed (fun pl t =>
      decide (pl = .purse 0x10000 0) && t.withinFloor) = true ∧
    okAnd (locate false (pursed.threadOf pursed.active) .write 4 0x200 0x200) pursed (fun pl _ => decide (pl = .mem 0x200)) = true ∧
    okAnd (locate false (pursed.threadOf pursed.active) .read 4 0x10000 0x10000) pursed (fun pl t =>
      decide (pl = .purse 0x10000 0) && okAnd (loadCell 0x10000 0) t (fun _ w => w.withinFloor)) = true ∧
    (pursed.depositWritebacks.contains 512) = false ∧ pursed.softErrors = [] := by
  refine ⟨⟨by decide, rfl⟩, ?_⟩
  decide +kernel

/-- Two operations on one cell, of different posters, and an acknowledgement. -/
def postedTwo : State := { pursed with
  posted := [{ poster := .context { core := 0, ctx := 0 }, queue := 0, pa := 0x10010, pexp := 0, op := .clr, pts := 3 },
    { poster := .context { core := 0, ctx := 1 }, queue := 0, pa := 0x10010, pexp := 0, op := .add .w 0x3F80_0000, pts := 4 }]
  acks := [{ poster := .context { core := 0, ctx := 0 }, queue := 0, wts := 8 }] }

theorem meets_PostedOperations : (0x10010 : PAddr).toNat % 16 = 0 ∧ postedTwo.depositWritebacks.contains (0x10010 / 128) = false ∧
    postedTwo.posted[1]?.map (·.pts) = some 4 ∧
    (∀ x ∈ postedTwo.posted.take 1, ¬ (x.poster = .context { core := 0, ctx := 1 } ∧ x.pa = 0x10010)) ∧
    (postedTwo.assign (((postedTwo.depositTouch 512).depositLine 512).stamp.store 4).wts).withinFloor = true ∧
    postedTwo.acks[0]? = some { poster := .context { core := 0, ctx := 0 }, queue := 0, wts := 8 } := by decide +kernel

theorem meets_Atomics : here.Ready ∧ here.holds 0 = true ∧
    okAnd (locateStore (here.threadOf here.active) .both 3 coreVa 8) here (fun pl u => decide (pl = .win 0 0) &&
      okAnd (atomicOld (here.threadOf here.active) coreVa pl 8) u (fun old v => decide (old = 0) &&
        okAnd (storeUnit (here.threadOf here.active) pl 8 5 here.me.pts) v (fun _ w => w.withinFloor) &&
        okAnd (homeLoad (here.threadOf here.active) pl 8 here.me.pts) v (fun _ w => w.withinFloor))) = true ∧
    okAnd (locateStore (here.threadOf here.active) .both 3 0x200 4) here (fun pl u => decide (pl = .mem 0x200) &&
      okAnd (atomicOld (here.threadOf here.active) 0x200 pl 4) u (fun old v => decide (old = 0) &&
        okAnd (storeUnit (here.threadOf here.active) pl 4 5 here.me.pts) v (fun _ w => w.withinFloor))) = true ∧
    (0x204 : Word).toNat % 8 ≠ 0 ∧ (0x202 : Word).toNat % 4 ≠ 0 := by
  refine ⟨⟨by decide, rfl⟩, ?_⟩
  decide +kernel

/-- An atomic of HBM where no view lies, and one of a host line that the bridge owns. -/
theorem meets_AtomicPlaces : here.softErrors = [] ∧ here.viewOf (0x200 / 128) = none ∧
    (∀ x ∈ here.l2, x.line = 0x200 / 128 → x.view = none) ∧ (0x27C : Nat) % 128 + 4 ≤ 128 ∧
    (let s : State := { here with hostLines := [{ line := 4, state := .m, data := 9, stamp := { wts := 1, rts := 2 } }] }
     okAnd (atomicOld (s.threadOf s.active) 0 (.host 0x100) 8) s fun old v => decide (old = 9) &&
       okAnd (storeUnit (s.threadOf s.active) (.host 0x100) 8 5 s.me.pts) v fun _ w => w.withinFloor) = true := by decide +kernel

/-! ## Fences, event lines, barriers, settlement -/

/-- A fresh line of cluster 0 changed, and x1 naming it; x2 a message. -/
def lined (f : EventLine → EventLine) : State := (given here [(1, 5), (2, 77)]).setLine 0 5 (f (.fresh 0))

theorem meets_Fences : here.Ready ∧ here.me.sout = 0 ∧ (my here fun k => { k with sout := 2 }).me.sout ≠ 0 ∧
    (here.assign (tsMax (tsMax here.me.pts (here.hmts0 + 1)) (here.hmts1 + 1))).withinFloor = true ∧
    (my here fun k => { k with grant := .event 3 4 }).me.grant = .event 3 4 ∧ here.linkFor 3 0 = none ∧
    (here.launchAt here.active).nclus ≤ ((given here [(1, 64)]).x 1).toNat / 2 ^ 6 % 2 ^ 10 := by
  refine ⟨here_ready, ?_⟩
  decide +kernel

theorem meets_Peer : ∃ link, ({ here with linkup := 1 } : State).linkFor 3 0 = some link := ⟨0, by
  have h : ({ here with linkup := 1 } : State).liveLinks = [0] := by decide +kernel
  rw [State.linkFor, h]
  simp [Nat.mod_one]⟩

/-- The lines of each mode at the edges of their fields. -/
theorem meets_EventLines : let st := ((lined id).line 0 5).stamp.store 0
    ((lined id).x 1).toNat / 2 ^ 6 % 2 ^ 10 < ((lined id).launchAt here.active).nclus ∧ ((lined id).line 0 5).waiters = [] ∧
    ((lined id).assign st.wts).withinFloor = true ∧ ((lined id).assign (tsMax 0 st.wts)).withinFloor = true ∧
    ((lined id).line 0 5).mode = .flag ∧ ((lined id).line 0 5).value ≠ 1 ∧ ((lined fun e => { e with value := 1 }).line 0 5).value = 1 ∧
    (let e := (lined fun e => { e with mode := .sem, value := 0xFFFF }).line 0 5
     e.mode = .sem ∧ e.value = (if e.limit = 0 then 0xFFFF else e.limit) ∧ e.value ≠ 0) ∧
    (let e := (lined fun e => { e with mode := .sem, limit := 1 }).line 0 5
     e.value ≠ (if e.limit = 0 then 0xFFFF else e.limit) ∧ e.value = 0) ∧
    (let e := (lined fun e => { e with mode := .mutex, value := 1, owner := some (0, 0) }).line 0 5
     e.mode = .mutex ∧ e.owner = some (here.lineName here.active) ∧ e.value ≠ 0) ∧
    (let e := (lined fun e => { e with mode := .mutex }).line 0 5
     e.owner ≠ some (here.lineName here.active) ∧ e.value = 0) ∧
    (let e := (lined fun e => { e with mode := .msg, queue := List.replicate 16 9 }).line 0 5
     e.mode = .msg ∧ 16 ≤ e.queue.length) ∧
    (let e := (lined fun e => { e with mode := .msg, queue := 9 :: List.replicate 14 8 }).line 0 5
     e.queue.length < 16 ∧ e.queue = 9 :: List.replicate 14 8) ∧
    (let e := (lined fun e => { e with mode := .barrier, limit := 2 }).line 0 5
     e.mode = .barrier ∧ decide ((e.value + 1).toNat ≥ max e.limit.toNat 1) = false) ∧
    (let e := (lined fun e => { e with mode := .barrier }).line 0 5
     decide ((e.value + 1).toNat ≥ max e.limit.toNat 1) = true) := by decide +kernel

/-- A flag line at which context 1 of the core waits. -/
def waitedLine : State := (lined fun e => { e with waiters := [{ ctx := { core := 0, ctx := 1 }, gen := 0, counted := false }] }).setCtx { core := 0, ctx := 1 }
  { here.me with run := .waiting, wait := .event 0 5, pts := 40 }

theorem meets_Waiter : (waitedLine.line 0 5).mode = .flag ∧ (waitedLine.line 0 5).waiters =
      { ctx := { core := 0, ctx := 1 }, gen := 0, counted := false } :: [] ∧
    { core := 0, ctx := 1 } ≠ waitedLine.active ∧
    (let st := (waitedLine.line 0 5).stamp.store 0
     let pts := (waitedLine.ctx { core := 0, ctx := 1 }).pts
     ((waitedLine.assign st.wts).assign (tsMax pts (st.store pts).wts)).withinFloor = true) := by decide +kernel

/-- The launch with a domain 0 of the cores of its cluster, and a superstep that settles for 8 slots over it. -/
def domained : State := launched (my here fun k => { k with line := some (0, 0) }) fun l => { l with
  domains := [{ valid := true, clusters := 1, cores := 3 }]
  steps := [{ domain := 0, settles := true, slen := 8, lists := [] }] }

theorem meets_Barriers : domained.me.reply = none ∧ domained.me.inSettlement = false ∧ domained.me.grant ≠ .released ∧
    ((domained.launchAt domained.active).domain 0).member (domained.logicalCore domained.active.core) = true ∧
    ((domained.launchAt domained.active).domain 1).member (domained.logicalCore domained.active.core) = false ∧
    (0 : BitVec 4) = (domained.launchAt domained.active).plan.domain ∧
    (domained.launchAt domained.active).plan.settles = true ∧ (here.launchAt here.active).plan.settles = false ∧
    (domained.core domained.active.core.toNat).settled = false ∧
    (((my domained fun k => { k with last := .done }).arriveAt 0 0
      { core := 0, ctx := some domained.active, kind := .bar, pts := 0 }).me.last ≠ .trapped) ∧
    nopsAfter (my domained fun k => { k with line := none }).me = true ∧
    okAnd (settleLines 16 64) domained (fun lines u => decide (u.active = domained.active) && lines.length == 1 &&
      decide ((((u.mapMe fun k => { k with settle := { k.settle with lines := lines } }).mapCore 0 fun k => { k with settled := true }).arriveAt 0 0
        { core := 0, ctx := some u.active, kind := .settle, pts := u.me.pts }).me.last ≠ .trapped)) = true := by decide +kernel

/-- The second core of the domain has arrived; then core 0 completes the episode. -/
def arrived : State := launched domained fun l => { l with
  episodes := [(0, { waiting := [[{ core := 1, ctx := some { core := 1, ctx := 0 }, kind := .bar, pts := 9 }]], completed := [] })] }
/-- The arrivals of both cores of the domain, of one kind each. -/
def both (k k' : ArrivalKind) : List Arrival :=
  [{ core := 1, ctx := some { core := 1, ctx := 0 }, kind := k, pts := 9 },
    { core := 0, ctx := some { core := 0, ctx := 0 }, kind := k', pts := 7 }]
/-- The episode complete, and due. -/
def releasing (kind : ArrivalKind) : State := { launched domained fun l => { l with
  episodes := [(0, { waiting := [], completed := [(both kind kind, 8)] })]
  settlement := if kind = .sdone then some { domain := 0, release := 2, ending := true } else none } with clock := 8 }

theorem meets_Episodes :
    (let a : Arrival := { core := 0, ctx := some { core := 0, ctx := 0 }, kind := .bar, pts := 7 }
     arriveIn a [[{ core := 1, ctx := some { core := 1, ctx := 0 }, kind := .bar, pts := 9 }]] = both .bar .bar :: [] ∧
     (∀ x ∈ both .bar .bar, x.kind = .bar) ∧ (∃ x ∈ both .settle .bar, ∃ y ∈ both .settle .bar, x.kind ≠ y.kind) ∧
     (arrived.episodeComplete (arrived.launch 0) 0 (both .bar .bar) = true) ∧
     ((arrived.setCtx { core := 1, ctx := 0 } { here.me with run := .running }).episodeComplete (arrived.launch 0) 0 [a] = false)) ∧
    (arrived.queue 0).admitted.isSome = true ∧ ((both .bar .bar).filterMap (·.ctx)).Nodup ∧
    ∀ kind ∈ [ArrivalKind.bar, .settle, .sdone], 8 ≤ (releasing kind).clock ∧ (∀ x ∈ both kind kind, x.kind = kind) ∧
      (SMap.at ((releasing kind).launch 0).episodes { waiting := [], completed := [] } 0).completed = (both kind kind, 8) :: [] := by
  decide +kernel

/-- An episode whose arrivals are of two kinds, complete, and due. -/
def mixed : State := { launched domained fun l => { l with
  episodes := [(0, { waiting := [], completed := [(both .settle .bar, 8)] })] } with clock := 8 }

theorem meets_MixedEpisodes : (∃ x ∈ both .settle .bar, ∃ y ∈ both .settle .bar, x.kind ≠ y.kind) ∧
    (SMap.at (mixed.launch 0).episodes { waiting := [], completed := [] } 0).completed = (both .settle .bar, 8) :: [] ∧
    ((both .settle .bar).filterMap (·.ctx)).Nodup ∧ (mixed.queue 0).admitted.isSome = true ∧ 8 ≤ mixed.clock := by decide +kernel

/-- The context in the settlement phase of its superstep, whose first slot is slot 0, at slot 4. -/
def settling : State := { launched (my domained fun k => { k with settle := { k.settle with active := true } }) fun l => { l with
    settlement := some { domain := 0, release := 10, ending := false } } with
  clock := 14
  cores := [(0, { here.core 0 with rx := [(2, 99)] })]
  sends := [{ queue := 0, sender := { core := 1, ctx := 0 }, dest := 0, buf := 3, data := 5, arrives := 14, occupies := [] }] }

theorem meets_Settlement : here.me.inSettlement = false ∧ settling.me.inSettlement = true ∧ settling.holds 0 = true ∧
    settling.count (settling.launchAt settling.active) = 4 ∧ (settling.launchAt settling.active).plan.slen = 8 ∧
    (((settling.launchAt settling.active).domain 0).member 1 = true ∧ 1 < 8 * (settling.launchAt settling.active).nclus) ∧
    ((settling.launchAt settling.active).domain 0).member 2 = false ∧
    SMap.find (settling.core 0).rx 2 = some 99 ∧ SMap.find (settling.core 0).rx 3 = none ∧
    settling.sends[0]?.map (fun m => (m.dest, m.buf, m.data)) = some (0, 3, 5) ∧
    (settling.launch 0).settlement = some { domain := 0, release := 10, ending := false } ∧ (here.launch 0).settlement = none ∧
    settling.me.grant ≠ .released ∧
    (my settling fun k => { k with grant := .released }).me.grant = .released := by decide +kernel

theorem meets_Slen : let s : State := { settling with clock := 18 }
    (s.launch 0).plan.slen ≤ s.count (s.launch 0) ∧
    (s.raise { core := 0, ctx := 0 } { cause := .slot, faddr := 8 }).withinFloor = true := by decide +kernel

/-! ## Key-value entries -/

/-- FP32 logits 1.0, 3.0, 0.5 and NaN, in v1. -/
def logits : State := here.setV 1 (vecOf 32 [0x3F80_0000, 0x4040_0000, 0x3F00_0000, 0x7FC0_0000])

theorem meets_Confidence : let L (i : Nat) : FV := (viewFmt .w).decode (elem (logits.v 1) 32 i)
    ((L 1).isNan = false ∧ (∀ j, j < 4 → j ≠ 1 → (L j).isNan = false → (L j).ltZ (L 1) = true)) ∧
    ((L 0).isNan = false ∧ (∀ j, j < 4 → j ≠ 1 → j ≠ 0 → (L j).isNan = false → (L j).ltZ (L 0) = true)) ∧
    (L 3).isNan = true := by decide +kernel

/-- A key-value page of slot 0, layer 0, positions 0 to 63 at 0x30000: entry 0 EMPTY, 1 ABSENT with the handle of slot 1,
2 FINAL. The context's entries are BF16, and x1 to x3 hold the coordinates of those entries. -/
def kvSome : State :=
  let s := my (given held [(4, 0x0000_0000_0000_0000), (5, 0x400_0000), (6, 0x800_0000)]) fun k => { k with kvb := 0x30000, kvcfg := 3 }
  let s := s.mapCore 0 fun k => { k with dtlb := [codePage, { codePage with vpn := 3, ppn := 3 }] }
  { s with
    normal := { s.normal with kvLo := 0x8000_0000_0000_0000, kvHi := 0xFFFF_FFFF_FFFF }
    hbm := ((s.hbm.writeN 0x30000 8 0x34).writeN 0x30010 8 0x8000_0000_0000_0000).writeN 0x30084 4 2049 }

/-- The writes of an append to entry e of the page at `va` = `pa`, after its checks. -/
def appended (pa e : Nat) (line : Vec) (s : State) (p : Ts → State → Bool) : Bool :=
  okAnd (do
    let t ← kvStore pa 0 128 (kvSetState line e 2).toNat s.me.pts
    let t ← kvWrite (BitVec.ofNat 64 pa) pa e false 5 6 t
    kvMeet (BitVec.ofNat 64 pa) pa [0]
    let now ← kvLine pa
    kvStore pa 0 128 (kvSetState now e 3).toNat t) s p

/-- The checks of an append to a page, and the page's state line. -/
def reached (pa : Nat) (s : State) (p : Vec → State → Bool) : Bool :=
  okAnd (do
    let at_ ← kvPage false true (BitVec.ofNat 64 pa)
    kvReady 2 (BitVec.ofNat 64 pa) at_ true [0]
    let line ← kvLine at_
    pure (at_, line)) s fun r t => r.1 == pa && p r.2 t
/-- The lines that an append to that entry writes, free to be stored to; of a fill, the handle line as well. -/
def reachable (pa e : Nat) (fill : Bool) : Eff Unit := do
  kvReachable pa false [0x800 + 256 * e, 0x880 + 256 * e]
  if fill then kvReachable pa true [0x80 + 4 * e]

theorem meets_Kvapp : (∀ m, kvSome.me.wait ≠ .allocator m) ∧ reached 0x30000 kvSome (fun line t =>
    kvMatches line 0 0 0 && kvLive line && !kvRetired line && kvState line 0 == 0 && kvState line 1 == 1 &&
    okAnd (do
      reachable 0x30000 0 false
      kvRetiring 0) t (fun o u => o.isNone && appended 0x30000 0 line u fun _ v => v.withinFloor)) = true :=
  ⟨fun _ => by rw [show kvSome.me.wait = .none from by decide +kernel]; nofun, by decide +kernel⟩

theorem meets_KvappFill : reached 0x30000 kvSome (fun line t => kvState line 1 == 1 && kvState line 2 == 3 &&
    okAnd (homeLoad (kvSome.threadOf kvSome.active) (.mem 0x30000) 64 0) t (fun _ u =>
      decide (t.threadOf t.active = kvSome.threadOf kvSome.active) && u.withinFloor) &&
    okAnd (reachable 0x30000 1 true) t (fun _ u => appended 0x30000 1 line u fun time v =>
      okAnd (kvMeet 0x30000 0x30000 [0x84]) (v.settleArrears 0x30000 time fun r => decide (r.coord.toNat / 2 ^ 26 % 2 ^ 18 % 64 = 1))
        fun _ w => (w.drop (w.kvHandle (BitVec.ofNat 32 (w.hbm.readN 0x30084 4)))).withinFloor &&
          decide (w.softErrors = []))) = true := by
  decide +kernel

/-- An error that cannot be corrected in the line of entry 0's key: the append meets it with the entry at WRITING. -/
def badPayload : State := { kvSome with softErrors := [{ source := 0, key := 0x610, fatal := true, plane := none }] }

theorem meets_KvappMachineCheck : reached 0x30000 badPayload (fun line t => okAnd (do
      reachable 0x30000 0 false
      let plan ← kvRetiring 0
      let t1 ← kvStore 0x30000 0 128 (kvSetState line 0 2).toNat 0
      pure (plan, t1)) t fun r u =>
    trapAnd (kvWrite 0x30000 0x30000 0 false 5 6 r.2) u fun f v => decide (f.cause = .mce) && kvState (v.lineData 0x600) 0 == 2 &&
      (v.raise v.active f).withinFloor) = true := by
  decide +kernel

/-- A window of 64 positions, and the page of positions 64 to 127 at 0x38000, all EMPTY: an append at position 127 retires
the page at 0x30000. -/
def windowed : State := { (my kvSome fun k => { k with kvcfg := 0x603 }).mapCluster 0 fun k =>
    { k with tlb := [{ codePage with vpn := 3, ppn := 3 }] } with
  hbm := kvSome.hbm.writeN 0x38010 8 0x8000_0000_4000_0000 }

theorem meets_Retirement : reached 0x38000 windowed (fun line t =>
    kvMatches line 0 0 127 && kvLive line && !kvRetired line && kvState line 63 == 0 &&
    okAnd (do
      reachable 0x38000 63 false
      kvRetiring 0x1_FC00_0000) t (fun plan u => plan == some (0x30000, 0x30000, 0) &&
      appended 0x38000 63 line u fun time v =>
        okAnd (do
          kvMeet 0x30000 0x30000 [0]
          kvLine 0x30000) v fun page w => kvMatches page 0 0 0 && kvLive page && !kvRetired page &&
            okAnd (do
              kvMeet 0x30000 0x30000 (distinct (((List.range 64).filter fun e => kvState page e == 1).map fun e => 0x80 + e / 32 * 0x80))
              kvStore 0x30000 0 128 (kvRetire page).toNat time) w fun _ x => x.withinFloor && decide (x.softErrors = []))) = true := by
  decide +kernel

/-- Line 0 of cluster 0 as the allocator's, with n messages. -/
def allocating (n : Nat) : State := (launched (my kvSome fun k => { k with wait := .allocator 7 })
  fun l => { l with allocator := some 0 }).setLine 0 0 { EventLine.fresh 0 with mode := .msg, queue := List.replicate n 9 }

theorem meets_Allocator : kvSome.allocatorLine = none ∧ (allocating 15).me.wait = .allocator 7 ∧
    (allocating 15).allocatorLine = some (0, 0) ∧ ((allocating 15).line 0 0).mode = .msg ∧
    ((allocating 15).line 0 0).queue.length < 16 ∧ 16 ≤ ((allocating 16).line 0 0).queue.length := by decide +kernel

/-- BF16 tiles of two rows of 64. -/
def kvTile (off : Word) : Tile := { addr := sharedVa + off, fmt := 3, rows := 2, cols := 64, stride := 128, scale := 0 }
def kvTiled : State := (kvSome.setT 1 (kvTile 0x1000)).setT 2 (kvTile 0x1100)

theorem meets_Kvld : kvTiled.TileOk (kvTiled.t 1) ∧ kvTiled.TileOk (kvTiled.t 2) ∧ kvTiled.me.grant = .none ∧
    (kvTiled.t 1).fmt.toNat = kvTiled.me.kvcfg.toNat % 32 ∧ (kvTiled.t 1).cols = 64 ∧ 2 ≤ (kvTiled.t 1).rows.toNat ∧
    okAnd (kvRows false 0x400_0000 0 (List.range 2) 0) kvTiled (fun r u =>
      decide (r.1.map Option.isSome = [false, true]) && u.fillable 0 (distinct ((kvTiled.t 1).granules ++ (kvTiled.t 2).granules))) = true ∧
    okAnd (kvRows true 0x800_0000 0 (List.range 1) 0) kvTiled (fun r _ => decide (r.1.map Option.isSome = [true])) = true := by
  unfold State.TileOk
  decide +kernel

/-- What the rows of those entries read: entry 0 EMPTY, 1 ABSENT, 2 FINAL, and 0 WRITING. -/
theorem meets_KvRows :
    okAnd (do
      let pa ← kvPage false false 0x30000
      let r ← kvLoad 0x30000 pa 0 0
      pure (pa, r)) kvSome (fun (pa, d, t1) u => pa == 0x30000 && kvMatches d 0 0 2 && kvLive d && !kvRetired d &&
        kvState d 0 == 0 && kvState d 1 == 1 && kvState d 2 == 3 &&
        okAnd (kvLoad 0x30000 pa 0x84 t1) u (fun (w, _) v =>
          v.kvHandle (BitVec.ofNat 32 (w.toNat / 2 ^ (8 * (0x84 % 128)) % 2 ^ 32)) == 2049) &&
        okAnd (do
          let k ← kvLoad 0x30000 pa 0xA00 t1
          let v ← kvLoad 0x30000 pa 0xA80 k.2
          kvLoad 0x30000 pa 0x288 v.2) u fun _ _ => true) = true ∧
    (∃ k, kvSome.HandleOk 2049 k ∧ k.state = .suspended) ∧ kvState (kvSetState 0 0 2) 0 = 2 ∧
    kvRetired (kvRetire 0) = true := by
  refine ⟨by decide +kernel, ⟨_, handleOk_of (by decide +kernel) (by decide +kernel) (by decide +kernel)
    (show kvSome.slotOf 2049 = some (kvSome.slotAt 2049) by decide +kernel), by decide +kernel⟩, by decide +kernel, by decide +kernel⟩

/-- The same with the arrears record of entry 1, whose thunk is slot 1's. -/
def owing : State := { kvSome with
  arrears := [{ coord := kvCoord 0 0 1, page := 0x30000, handle := 2049, cluster := 0, queue := 0, sparked := false, time := 6 }] }

theorem meets_Arrears : owing.owed 0x400_0000 =
      { coord := kvCoord 0 0 1, page := 0x30000, handle := 2049, cluster := 0, queue := 0, sparked := false, time := 6 } :: [] ∧
    (owing.launch 0).kvHandle 2049 = 2049 ∧ owing.owed 0 = [] ∧
    (owing.launch 0).clusters[0]? = some 0 ∧ dieOfCluster 0 = (0 : BitVec 3).toNat ∧ (owing.cluster 0).sparks.length < 64 ∧
    (owing.slotOf 2049).map (·.state) = some .suspended := by decide +kernel

/-- A record whose handle is stale, and one whose thunk has its value. -/
theorem meets_StaleArrears : owing.softErrors = [] ∧ owing.remoteDrops = [] ∧
    ({ owing with arrears := owing.arrears.map fun r => { r with handle := 2 } } : State).slotOf 2 = none ∧
    (owing.slotOf 1).map (·.state) = some .value := by decide +kernel

/-- Layer 1's entry in the layer map at 0x800: present, HOME 0 and routine 0; and the layer's page, all EMPTY. -/
def exiting : State :=
  let s := launched (my kvSome fun k => { k with kvmap := 0x800 }) fun l => { l with routines := [0x40] }
  let s := s.mapCore 0 fun k => { k with dtlb := { codePage with vpn := 0x803, ppn := 4 } :: k.dtlb }
  { s with hbm := (s.hbm.writeN 0x808 8 0x8000_0000_0000_0000).writeN 0x40010 8 0x8000_0400_0000_0000 }

theorem meets_Exits : (∀ l m, exiting.me.wait ≠ .marking l m) ∧ exiting.me.grant = .none ∧ exiting.me.kvcfg.toNat % 32 = 3 ∧
    (∃ k, exiting.HandleOk (exiting.h 1) k ∧ k.state = .value) ∧ (1 : BitVec 9).toNat = 0 + 1 ∧ (0 : BitVec 9).toNat ≤ 0 :=
  ⟨(by rw [show exiting.me.wait = .none from by decide +kernel]; intro _ _ h; cases h), by decide +kernel, by decide +kernel,
    ⟨_, handleOk_of (by decide +kernel) (by decide +kernel) (by decide +kernel)
      (show exiting.slotOf (exiting.h 1) = some { state := .value, refcnt := 1, tile := square 0, time := 7 } by decide +kernel), rfl⟩,
    rfl, by decide⟩

/-- The marking of layer 1. -/
def marked1 : Nat × Nat × BitVec 16 × Nat := (1, 0, 0, 0x40000)

theorem meets_ExitLayers :
    okAnd (exitLayers 0 ((List.range 2).filter fun l => decide (0 < l))) (exiting.joins 7) (fun es u => decide (es = [marked1]) &&
      okAnd (markLayer 0 1 marked1) u (fun one v => one && v.withinFloor)) = true ∧
    (my exiting fun k => { k with wait := .marking (marked1 :: []) 3 }).me.wait = .marking (marked1 :: []) 3 ∧
    okAnd (markLayer 0 1 marked1) (my exiting fun k => { k with wait := .marking (marked1 :: []) 3 }) (fun one v => one && v.withinFloor) =
      true := by decide +kernel

/-! ## Faults, supervisors -/

/-- A handler for the vector bits of faults at 0x4000. -/
def handling : State := my here fun k => { k with trap := { k.trap with tvec := 0x4000, vec := 0x7F } }
def inHandler : State := my here fun k => { k with trap := { k.trap with intrap := true, epc := 0x44 } }

theorem meets_Faults : here.me.borrowed = none ∧ here.me.inSettlement = false ∧ handling.me.trap.vec.getLsbD 6 = true ∧
    handling.me.trap.tvec ≠ 0 ∧ handling.me.trap.intrap = false ∧ here.me.trap.tvec = 0 ∧ borrowed.me.borrowed = some (0, 3) := by
  decide +kernel

/-- A `TRAP` of the context, one that a demand brings, and a `FOLLOW` that waits for its target. -/
theorem meets_TrapPlaces : (({ cause := .trap, tcode := 5 } : Trap).cause = .trap ∧ ({ cause := .trap, tcode := 5 } : Trap).demanded = false) ∧
    ({ cause := .trap, tcode := 5, demanded := true } : Trap).demanded = true ∧
    (my here fun k => { k with roll := .waiting 1 0x40 0 [] none none }).me.roll = .waiting 1 0x40 0 [] none none := by decide +kernel

/-- A trace ring of 16 records at 0x4000. -/
def ringed : State := here.mapWorld false fun w => { w with traces := [(0, { TraceRing.reset with base := 0x4000, log2 := 4, head := 15 })] }

theorem meets_Trace : (SMap.at (here.world false).traces .reset 0).log2 = 0 ∧
    (let r := SMap.at (ringed.world false).traces .reset 0
     r.log2 ≠ 0 ∧ r.log2.toNat ≤ 20 ∧ r.base.toNat % 32 = 0 ∧
     r.base.toNat + 32 * (r.head.toNat % 2 ^ r.log2.toNat) + 32 ≤ ringed.hbmEnd) ∧ ringed.hbmEnd ≤ 2 ^ 51 ∧ ringed.hbm.wf = true := by
  decide +kernel

/-- The ring in memory of the other world, beyond the end of HBM, and in the bytes of an assay range. -/
theorem meets_TraceBarred : ringed.secureMem 0x41E0 = false ∧ ringed.secureMem 0x41FF = false ∧ ringed.assayBytes 0x41E0 32 = false ∧
    ({ ringed with assay := ringed.assay.setIfInBounds 0 ⟨0x8000_0000_0000_0000, 0x4000, 0x4000, 0x4000, 0x4000⟩ } :
      State).assayBytes 0x41E0 32 = true ∧
    ({ ringed with regions := ringed.regions.map fun _ => ⟨0xC000_0000_0000_0000, 0xFFFF_FFFF_FFFF⟩ } : State).secureMem 0x41E0 = true ∧
    ringed.hbmEnd < ringed.hbmEnd - 31 + 32 := by decide +kernel

theorem meets_Returns : inHandler.Ready ∧ here.me.trap.intrap = false ∧ inHandler.me.trap.intrap = true ∧
    inHandler.me.trap.epc.extractLsb' 3 3 = 0 ∧ inHandler.me.trap.epc.toNat % 8 ≤ 4 ∧ ¬ ((0x45 : Word).toNat % 8 ≤ 4) ∧
    ((((here.mapCore 0 fun k => { k with halts := k.halts + 1 }).mapLaunch 0 fun l => { l with halts := l.halts + 1 }).freeCtx
      here.active).recheckEpisodes 0).withinFloor = true := by
  refine ⟨⟨by decide +kernel, by decide +kernel⟩, ?_⟩
  decide +kernel

/-- A supervisor, and context 1 of its core FAULTED; x1 names it and x2 holds an address. -/
def supervising : State :=
  let s := launched (given here [(1, 0x2000), (2, 0x2000)]) fun l => { l with launchid := 7, sup := true }
  (s.mapWorld false fun w => { w with supvid := 7 }).setCtx { core := 0, ctx := 1 } { here.me with
    run := .faulted, trap := { here.me.trap with epc := 0x44, record := some ⟨1, 2, 3, 4⟩ } }

theorem meets_Supervisor : supervising.Ready ∧ supervising.supervisor supervising.active = true ∧ here.supervisor here.active = false ∧
    supervising.enabled 0 = true ∧ (supervising.cluster 0).secure = (supervising.launchAt supervising.active).secure ∧
    ({ supervising with encl := 1 } : State).enabled 1 = false ∧ supervising.me.dout = 0 ∧ (0x2040 : Word).toNat % 128 ≠ 0 ∧
    (supervising.ctx { core := 0, ctx := 1 }).run = .faulted ∧ (supervising.ctx { core := 0, ctx := 2 }).run ≠ .faulted ∧
    supervising.savedTarget { core := 0, ctx := 2 } = none ∧ pcOk 0x44 = true ∧ supervising.ready = true ∧
    ({ core := (0x2000 : Word).setWidth 13, ctx := (0x2000 : Word).extractLsb' 13 2 } : CtxId) = { core := 0, ctx := 1 } := by
  refine ⟨⟨by decide +kernel, by decide +kernel⟩, ?_⟩
  decide +kernel

/-- Context 2 of the core in the image of a launch that a pre-emption has saved, FAULTED. -/
def savedFault : State := (supervising.mapWorld false fun w => { w with savebase := 0x1000_0000, savelog2 := 21 }).mapQueue 1 fun k =>
  { k with admitted := some { Launch.blank with
      nclus := 1, phase := .saved true
      saved := some { clusters := [0], contexts := [(2, { here.me with run := .faulted })], cores := [], parts := [], stamps := [], inStep := true, at_ := 0 } } }

theorem meets_SavedTargets : (savedFault.ctx { core := 0, ctx := 2 }).run ≠ .faulted ∧
    savedFault.savedTarget { core := 0, ctx := 2 } = some (1, 2) ∧
    okAnd (readOwnedAll (savedFault.savedLines { core := 0, ctx := 2 } 0x1330 8)) savedFault
      (fun _ u => (u.hold 1 2 (some u.me.pts)).withinFloor) = true := by decide +kernel

theorem meets_Csave : okAnd (readyRange (fun va => locate false (supervising.threadOf supervising.active) .write 2 va va)
      (supervising.threadOf supervising.active) 2 true 0 (partsOf 0x2000 0x2000)) supervising (fun _ u =>
        okAnd (writeRange (fun va => locate false (supervising.threadOf supervising.active) .write 2 va va)
          (supervising.threadOf supervising.active) 2 (partsOf 0x2000 0x2000)
          (packFields (supervising.recordFields { core := 0, ctx := 1 })) u.me.pts) u fun _ v => v.withinFloor) = true := by
  decide +kernel

theorem meets_Crest : okAnd (readRange (fun va => locate false (supervising.threadOf supervising.active) .read 1 va va)
      (supervising.threadOf supervising.active) 1 (partsOf 0x2000 0x2000) 0) supervising (fun _ v => v.withinFloor) = true := by
  decide +kernel

/-! ## Launches -/

def recordEntry : QueueEntry := { addr := 0x1000, virt := none, by_ := none }

/-- A part of one cluster, with a page table that maps page 0, and a launch record at 0x1000 with its image at 0x2000, its
superstep, directory and list at 0x3000, its domains at 0x4000 and DONE at 0x5000, queued on queue 0. -/
def queuedRecord : State :=
  let words : List (Nat × Nat) := [(0x1000, 0x0001_0101_0001_0000), (0x1008, 0x2000), (0x1018, 0x3000), (0x1028, 0x4000),
    (0x1040, 0x5000), (0x1048, 0x9_0000_0000), (0x2000, 0x5649_4D47_0001_0001), (0x2018, 0x2080), (0x2080, 0x40),
    (0x3000, 0x3100), (0x3100, 0x3200), (0x3108, 1), (0x4000, 1), (0x4080, 0x8000_0000_0000_00FF), (0x8000, 0x8380_0000_0000_0000)]
  let s := { State.reset with
    ready := true, encl := 1, normal := { State.reset.normal with hpt := 0x8001 }
    hbm := words.foldl (fun (m : Memory) (w : Nat × Nat) => m.writeN w.1 8 w.2) [] }
  s.mapQueue 0 fun k => { k with entries := [recordEntry] }

/-- Admission of that record, of what is none, of one that cannot be read, and of one that the host owns. -/
theorem meets_Admission : (queuedRecord.queue 0).entries = recordEntry :: [] ∧
    (queuedRecord.queue 0).admitted = none ∧ (queuedRecord.queue 0).enable = true ∧ queuedRecord.tripped = false ∧
    (match queuedRecord.consider 0 recordEntry with
      | .ok l => l.launchid == 9 && l.routines == [0x40]
      | .error _ => false) = true ∧
    (match queuedRecord.consider 0 { recordEntry with addr := 0x2000 } with
      | .error (.code 1, some r) => match queuedRecord.rejectPlace 0 { recordEntry with addr := 0x2000 } (some r) with
        | .ok _ => true
        | .error _ => false
      | _ => false) = true ∧
    (match queuedRecord.consider 0 { recordEntry with addr := 0xFFF0_0000_0000_0000 } with
      | .error (.code 3, none) => true
      | _ => false) = true ∧
    (match ({ queuedRecord with hcsize := 1, hostOwned := [0x20] } : State).consider 0 recordEntry with
      | .error (.owned l, none) => l == 0x20
      | _ => false) = true := by decide +kernel

/-- An entry that a `LAUNCH` of this cycle has appended waits for the next; one of an earlier cycle does not. -/
theorem meets_FreshEntries :
    (let e : QueueEntry := { recordEntry with by_ := some ({ core := 0, ctx := 0 }, 5, queuedRecord.clock) }
     e.by_ = some ({ core := 0, ctx := 0 }, 5, queuedRecord.clock)) ∧
    (∀ c d t, recordEntry.by_ = some (c, d, t) → t ≠ queuedRecord.clock) := by
  refine ⟨rfl, ?_⟩
  intro c d t h
  cases h

/-- The launch of `queuedRecord` admitted, in a phase. -/
def admittedIn (phase : LaunchPhase) (clusters : List Nat) : State := queuedRecord.mapQueue 0 fun k => { k with
  entries := []
  admitted := some { Launch.blank with
    nclus := 1, launchid := 9, donePa := 0x5000, routines := [0x40], phase := phase, clusters := clusters
    steps := [{ domain := 0, settles := false, slen := 0, lists := [(0, [(0, 5)])] }] } }

/-- The same placed on cluster 0. -/
def placedIn (phase : LaunchPhase) : State := (admittedIn phase [0]).mapCluster 0 fun k => { k with placed := some (0, 0) }

/-- A start that a decision has granted on cluster 0. -/
def onZero : Start := { since := 0, clusters := [0], kept := false, held := [] }
def granted (s : State) : State := s.mapLaunch 0 fun l => { l with start := some onZero }

theorem meets_Placement : ((admittedIn .unplaced []).launch 0).phase = .unplaced ∧
    (admittedIn .unplaced []).plan 0 = some onZero ∧ (admittedIn .unplaced []).pick false = some 0 ∧
    (∀ u ∈ worldQueues false, (((admittedIn .unplaced []).queue u).pass - 0).toNat < 2 ^ 31) ∧
    ((granted (admittedIn .unplaced [])).launch 0).start = some onZero ∧ [0].Nodup ∧
    ((granted (admittedIn .unplaced [])).queue 0).enable = true ∧
    (((granted (placedIn .boundary)).mapQueue 0 fun k => { k with enable := false }).queue 0).enable = false ∧
    ((placedIn .running).launch 0).start = none ∧ (placedIn .boundary).pick false = some 0 ∧
    (granted (placedIn .boundary)).granted 0 = true ∧ (placedIn .boundary).granted 0 = false ∧
    ((placedIn .boundary).assign ((placedIn .boundary).launch 0).joinTime).withinFloor = true := by decide +kernel

theorem meets_Routine : let s := placedIn .running
    s.queueOf (clusterOfCore 0) = 0 ∧ (SMap.at (s.launch 0).plan.lists [] (s.logicalCore 0))[(s.core 0).taken]? = some (0, 5) ∧
    s.tripped = false ∧ (s.ctx { core := 0, ctx := 0 }).run = .free ∧ (s.cluster (clusterOfCore 0)).placed.isSome = true ∧
    pcOk ((s.launch 0).routines.getD 0 0) = true := by decide +kernel

/-- The superstep's routine has halted, and every level has reported but the die. -/
def reporting : State := ((placedIn .running).mapCore 0 fun k => { k with taken := 1, halts := 1 }).setCluster 0
  { (placedIn .running).cluster 0 with reported := true }
def stepped : State := reporting.mapLaunch 0 fun l => { l with diesReported := 0xFF }

theorem meets_Reports : reporting.cleared (reporting.launch 0) (.core 0) = true ∧ reporting.cleared (reporting.launch 0) (.die 0) = true ∧
    ((List.range 8).foldl (fun s k => s.mapCore k fun c => { c with reported := true }) reporting).cleared (reporting.launch 0) (.cluster 0) =
      true ∧ stepped.stepOver (stepped.launch 0) = true ∧ reporting.stepOver (reporting.launch 0) = false := by decide +kernel

theorem meets_Completion : let s := placedIn .ended
    s.drained 0 = true ∧ (s.launch 0).donePa < 2 ^ 51 ∧
    ({ s with posted := [{ poster := .context { core := 0, ctx := 0 }, queue := 0, pa := 0, pexp := 0, op := .clr, pts := 0 }] } : State).drained 0 =
      false ∧ ((placedIn (.recorded 8)).launch 0).phase = .recorded 8 ∧ (placedIn (.recorded 8)).writeEntry 8 = none := by
  decide +kernel

/-- A save area for the launch, and a pending pre-emption. -/
def savable (s : State) : State := s.mapWorld false fun w => { w with savebase := 0x1000_0000, savelog2 := 21 }
def asked (s : State) : State := s.mapLaunch 0 fun l => { l with preempt := some false }

theorem meets_Preemption : (placedIn .boundary).stoppable 0 = false ∧ (asked (placedIn .boundary)).stoppable 0 = true ∧
    (asked (placedIn .boundary)).savable 0 = false ∧ (savable (asked (placedIn .boundary))).savable 0 = true ∧
    (savable (placedIn (.saving false false))).drained 0 = true ∧ (savable (placedIn (.saving false false))).tellerOver 0 = true ∧
    (savable (admittedIn (.saved false) [])).plan 0 = some onZero ∧
    (savable (admittedIn (.saved false) [])).pick false = some 0 := by decide +kernel

/-- A request that lapses at a boundary, and within a superstep; a context of a stopped launch that has a fault to raise. -/
theorem meets_Lapses : ((asked (placedIn .boundary)).launch 0).phase = .boundary ∧
    (asked (placedIn .boundary)).savable 0 = false ∧
    (let s := (savable (placedIn (.saving false false))).setCtx { core := 0, ctx := 0 }
       { here.me with grant := .fault { cause := .mce } }
     { core := 0, ctx := 0 } ∈ s.ctxsOf 0 ∧ (s.ctx { core := 0, ctx := 0 }).grant = .fault { cause := .mce }) ∧
    ∀ c ∈ (savable (placedIn (.saving false false))).ctxsOf 0,
      ((savable (placedIn (.saving false false))).ctx c).grant = .none := by decide +kernel

/-- The resumption of a saved launch that is granted, and one whose image the host owns. -/
theorem meets_Resumption : let s := granted (savable (admittedIn (.saved false) []))
    (s.launch 0).phase = .saved false ∧ (s.launch 0).start = some onZero ∧
    s.ownedImage 0 = [] ∧ ({ s with hostOwned := [0x20_0000] } : State).ownedImage 0 = 0x20_0000 :: [] ∧
    ({ s with hcsize := 1, hostOwned := [0x20_0000] } : State).hostCoherent 0x20_0000 = true := by decide +kernel

theorem meets_Teardown : let s := placedIn .tearing
    s.jobsOver (s.launch 0) = true ∧ s.postsOver 0 = true ∧ s.copiesOver 0 = true ∧ s.hostOver 0 = true ∧
    (s.launch 0).donePa < 2 ^ 51 ∧ ((placedIn (.torn 8)).launch 0).phase = .torn 8 ∧ (placedIn (.torn 8)).writeEntry 8 = none := by
  decide +kernel

theorem meets_Kill : (0 : Word).getLsbD 63 = false ∧ (0x8000_0000_0000_0000 : Word).getLsbD 63 = true ∧
    (placedIn .running).ready = true ∧ (placedIn .running).tearing false = false ∧ (placedIn .running).backlogged 0 = true ∧
    ((placedIn .running).launch 0).phase = .running ∧ ((placedIn .running).tearDown 0).withinFloor = true := by decide +kernel

/-- A cluster that a decision has promised keeps its world. -/
theorem meets_Promises : (granted (admittedIn .unplaced [])).allPromised.contains 0 = true ∧
    (∀ e ∈ (admittedIn .unplaced []).promised false ++ (admittedIn .unplaced []).promised true, e.1 ≠ 0) := by decide +kernel

theorem meets_Clearing : let s : State := { queuedRecord with cworld := 1 }
    s.enabled 0 = true ∧ (s.cluster 0).placed = none ∧ (s.cluster 0).reserved = none ∧ (s.cluster 0).secure ≠ s.cworld.getLsbD 0 ∧
    s.enabled 1 = false ∧ (queuedRecord.cluster 0).secure = queuedRecord.cworld.getLsbD 0 := by decide +kernel

/-! ## Registers, the host, peers -/

theorem meets_Registers : queuedRecord.ready = true ∧ State.reset.ready = false ∧ queuedRecord.anyPlaced = false ∧
    (64 : Word).toNat % 128 ≤ 48 * queuedRecord.enabledStacks.length ∧ 64 < (65 : Word).toNat % 128 ∧
    (queuedRecord.world false).inval = none ∧ (queuedRecord.assay.toList.getD 0 {}).sec = false ∧
    (assayed.assay.toList.getD 0 {}).on = true ∧
    (({ queuedRecord with assay := queuedRecord.assay.setIfInBounds 0 ⟨0x4000_0000_0000_0000, 0, 0, 0, 0⟩ } : State).assay.toList.getD 0 {}).sec = true ∧
    queuedRecord.inFlight false 0 = false ∧
    postedTwo.inFlight false 0xFFFF_FFFF_FFFF_FFFF = true ∧
    (1 : Word).toNat % 2 ^ 11 = 1 ∧ (1024 : Word).toNat % 2 ^ 11 ≤ 1024 ∧ ¬ ((1025 : Word).toNat % 2 ^ 11 ≤ 1024) ∧
    queueAt false 0x10_0001 = some 0 ∧ queueAt false 8 = none := by decide +kernel

theorem meets_Offsets : queuedRecord.worldPlaced false = false ∧ here.worldPlaced false = true ∧ here.ready = true ∧
    (0 : Word).toNat % 32 = 0 ∧ 4 ≤ (4 : Word).toNat % 32 ∧ ¬ ((3 : Word).toNat % 32 = 0 ∨ 4 ≤ (3 : Word).toNat % 32) := by
  decide +kernel

/-- A full queue whose last entry a `LAUNCH` of this cycle has appended. -/
def fullQueue0 : State := queuedRecord.mapQueue 0 fun k => { k with entries := List.replicate 255 recordEntry ++
  [{ recordEntry with by_ := some ({ core := 0, ctx := 0 }, 5, queuedRecord.clock) }] }

theorem meets_Full : (fullQueue0.queue 0).entries.length = 256 ∧
    ((fullQueue0.queue 0).entries.drop 255).map (fun x => x.fresh fullQueue0.clock) = [true] ∧
    (((fullQueue0.queue 0).entries.take 255).getLast?).map (fun x => x.fresh fullQueue0.clock) = some false := by decide +kernel

/-- Host line 4 held in E or M, or being filled, for context 0 of core 0. -/
def holding (st : HostState) : State := { here with hostLines := [{ line := 4, state := st, data := 9, stamp := { wts := 1, rts := 2 } }] }
def waiter : Waiter := { ctx := { core := 0, ctx := 0 }, unit := none, pts := 3 }
def filling (taken : Bool) : State := { here with hostFills := [{ line := 4, own := false, waiters := [waiter], taken := taken }] }
/-- The set of line 4 full, and the line being filled. -/
def full : State := { filling false with hostLines := (List.range 16).map fun i =>
  { line := 4 + 2 ^ 20 * (i + 1), state := .m, data := 9, stamp := { wts := 1, rts := 2 } } }
/-- A store to host line 4, and back-invalidations of a line of the host-coherent region. -/
def written : State := { here with
  writeEntries := [{ line := 4, data := 9, mask := 0xFF, stamp := { wts := 1, rts := 2 }, owners := [{ core := 0, ctx := 0 }] }]
  backInvals := [{ line := 8, forData := true, owners := [] }, { line := 9, forData := false, owners := [{ core := 0, ctx := 0 }] }] }

theorem meets_Host : here.hostLine 4 = none ∧ (holding .m).hostLine 4 = some { line := 4, state := .m, data := 9, stamp := { wts := 1, rts := 2 } } ∧
    ((holding .m).assign 2).withinFloor = true ∧ (here.hostFills.find? fun f => f.line = 4) = none ∧
    ((filling false).hostFills.find? fun f => f.line = 4) = some { line := 4, own := false, waiters := [waiter], taken := false } ∧
    ((filling true).hostFills.find? fun f => f.line = 4) = some { line := 4, own := false, waiters := waiter :: [], taken := true } ∧
    (filling false).filling 4 = true ∧ (holding .m).filling 4 = false ∧
    (full.hostLine 4 = none ∧ 16 ≤ (full.hostLines.filter fun x => hostSet x.line = hostSet 4).length) ∧
    (filling false).writeEntry 4 = none ∧ ((filling false).hostLines.filter fun x => hostSet x.line = hostSet 4).length < 16 ∧
    ((filling false).assign ((filling false).hmts 4 + 1)).withinFloor = true ∧ (written.writeEntry 4).map (·.owners) = some [{ core := 0, ctx := 0 }] ∧
    here.writeEntry 4 = none ∧ here.hostReaches 0x200 1 = true ∧ here.hostReaches (2 ^ 51) 1 = false ∧
    (∃ b ∈ written.backInvals, b.line = 8 ∧ b.forData = true) ∧
    written.backInvals.find? (fun b => b.line = 9 ∧ b.forData = false) = some { line := 9, forData := false, owners := [{ core := 0, ctx := 0 }] } ∧
    here.backInvals.find? (fun b => b.line = 9 ∧ b.forData = false) = none ∧ here.hbm.wf = true := by decide +kernel

/-- The line of an assay range that the host gives back. -/
theorem meets_BarredData : ({ written with assay := written.assay.setIfInBounds 0 ⟨0x8000_0000_0000_0000, 0x400, 0x400, 0x400, 0x400⟩ } :
      State).assayBytes (8 * 128) 128 = true ∧ written.assayBytes (8 * 128) 128 = false := by decide +kernel

/-- A peer window over the first 2 MB, and a flit of a peer copy and one of an event message under way. -/
def peered : State := let s : State := { (lined fun e => { e with mode := .msg }) with
    peers := here.peers.setIfInBounds 0 ⟨0x8000_0000_0000_0000, 0, 0x3F_FFFF⟩
    flits := [{ node := 3, link := 1, job := none, sender := { core := 0, ctx := 0 }, peer := 0x100, local_ := 0x200, len := 0 },
      { node := 3, link := 2, job := some (0, 0, 5), sender := { core := 0, ctx := 0 }, peer := 0x100, local_ := 0x200, len := 64 }] }
  s.mapEngine 0 true fun e => { e with running := [(0, aJob (.peerCopy 0x200 0x100 64 false 3))] }

theorem meets_Peers : (∃ w ∈ peered.peers.toList, w.lo.getLsbD 63 = true ∧ (w.src.toNat = 5 ∨ w.src.toNat = 2 ^ 22 - 1) ∧
      w.lo.toNat % 2 ^ 52 / 2 ^ 21 * 2 ^ 21 ≤ 0x1F_FF80 ∧ 0x1F_FF80 + 128 ≤ (w.hi.toNat % 2 ^ 52 / 2 ^ 21 + 1) * 2 ^ 21) ∧
    peered.hostReaches 0x1F_FF80 128 = true ∧
    (peered.storeBytes true 129 0x200 (List.replicate 128 1)).withinFloor = true ∧
    peered.enabled 0 = true ∧ (peered.cluster 0).secure = false ∧ (peered.cluster 0).placed.isSome = true ∧
    (peered.line 0 5).mode = .msg ∧ (peered.line 0 5).queue.length < 16 ∧ (peered.line 0 5).waiters = [] ∧
    (peered.assign ((peered.line 0 5).stamp.store peered.high).wts).withinFloor = true ∧
    peered.flits[0]?.map (·.job) = some none ∧ peered.flits[1]?.map (·.job) = some (some (0, 0, 5)) ∧ here.flits[0]? = none ∧
    (peered.runningJob 0 true 0).map (fun j => (j.id, j.failed.isNone)) = some (5, true) ∧
    peered.assayBytes 0x1F_FF80 128 = false ∧ peered.hostOwned.contains (0x1F_FF80 / 128) = false ∧
    (let s : State := { peered with hcsize := 1, hostOwned := [0x1F_FF80 / 128] }
     s.hostCoherent (0x1F_FF80 / 128) = true ∧ s.hostOwned.contains (0x1F_FF80 / 128) = true) ∧
    ((JobKind.peerCopy 0x200 0x100 64 false 3).parts.findIdx? fun u => u.dst = 0x200) = some 0 ∧
    okAnd (writePart { peered.jobThread 0 (aJob (.peerCopy 0x200 0x100 64 false 3)) with unit := some (.copy 0 0 0) }
      (JobKind.peerCopy 0x200 0x100 64 false 3).parts [] [0] { dst := 0x200, n := 64, row := 0, off := 0 } 7 0)
      (peered.mapCluster 0 fun k => { k with tlb := [codePage] }) (fun _ u => u.withinFloor) = true ∧
    16 ≤ ((lined fun e => { e with mode := .msg, queue := List.replicate 16 9 }).line 0 5).queue.length := by decide +kernel

/-! ## Time, waits -/

/-- The part when an advance of pts, and FLOOR, are due. -/
def due : State := { here with clock := 5000 }

theorem meets_Part : here.clock < here.advanced + 256 ∧ due.advanced + 256 ≤ due.clock ∧ here.clock < here.floored + 4096 ∧
    due.floored + 4096 ≤ due.clock ∧ (due.contexts.map (·.1)).Nodup ∧
    (∀ n ∈ due.contexts.map (·.1), n = ctxKey (ctxOf n)) ∧ ctxKey here.active ∈ due.contexts.map (·.1) ∧
    (due.me.run ≠ .free ∧ due.me.advances = 0 ∧ tsLe (due.me.pts + 1) (due.floor + 0x20000) = true) ∧
    (my due fun k => { k with advances := 1 }).me.advances ≠ 0 ∧
    tsLe ((my due fun k => { k with pts := due.floor + 0x20000 }).me.pts + 1) (due.floor + 0x20000) = false ∧
    (due.advance here.active).withinFloor = true := by decide +kernel

theorem meets_Power : 1000000 ≤ (1000000 : Word).toInt ∧ (0xFFFF_FFFF_FFFF_FFFF : Word).toInt < 1000000 ∧ here.tripped = false ∧
    here.plimit.toNat < 3201 ∧ 1000 ≤ (1000 : Word).toNat % 4096 ∧ 3200 < (3201 : Word).toNat % 4096 ∧
    (Vector.replicate 10 (105 : BitVec 16)).toList.any (fun j => decide (105 ≤ j.toNat)) = true ∧
    (∀ e ∈ State.reset.queues, e.2.admitted = none) ∧ State.reset.dark = false ∧
    ({ here with dumps := [(0, 2047)] } : State).dumps[0]? = some (0, 2047) ∧ (here.cluster 0).secure = false := by
  decide +kernel

/-- Readings that call for a trip, and a part that they call for none. -/
theorem meets_Trips :
    (({ here with sensors := { here.sensors with junction := Vector.replicate _ 105 } } : State).sensors.junction.toList.any
      fun j => decide (105 ≤ j.toNat)) = true ∧ here.tripped = false ∧
    here.sensors.junction.toList.all (fun j => decide (j.toNat < 105)) = true ∧ here.flowLow = none ∧
    (State.reset.overLimit { here.sensors with inlet := 41 } = true ∧ State.reset.overLimit here.sensors = false) := by decide +kernel

/-- A reply, a walk, a refetch, forwarding and fault records under way. -/
def replying : State := my here fun k => { k with reply := some (true, 5) }
def walking (hpt : Word) : State := { queuedRecord with
  normal := { queuedRecord.normal with hpt := hpt }
  contexts := [(0, { here.me with run := .waiting, wait := .access })]
  walks := [{ cluster := 0, ctx := { core := 0, ctx := 0 }, secure := false, asid := 0, va := 0x300, fetch := false, acc := 1, faddr := 0x304 }] }

theorem meets_Replies : (replying.ctx here.active).reply = some (true, 5) ∧ (replying.assign 5).withinFloor = true ∧
    (here.ctx here.active).reply = none := by decide +kernel

theorem meets_Walks : ((walking 0x8001).walks[0]?).isSome = true ∧
    (match ({ walking 0x8001 with walks := [] } : State).walk false 0 0x300 with | .ok _ => true | .error _ => false) = true ∧
    (match ({ walking 0 with walks := [] } : State).walk false 0 0x300 with | .ok _ => false | .error d => d == 0) = true ∧
    ((walking 0).ctx { core := 0, ctx := 0 }).run = .waiting ∧ ((walking 0).ctx { core := 0, ctx := 0 }).wait = .access ∧
    (({ walking 0 with walks := [] } : State).raise { core := 0, ctx := 0 } { cause := .page, faddr := 0x304, acc := 1, detail := 0 }).withinFloor =
      true := by decide +kernel

def refetching (v : Nat) : State := my ({ here with hbm := here.hbm.writeN 0 8 v } : State) fun k => { k with run := .waiting, wait := .refetch 0 }

theorem meets_WalkFaults : (walking 0).softErrors = [] ∧ ((walking 0).ctx { core := 0, ctx := 0 }).run ≠ .free ∧
    ((walking 0).ctx { core := 0, ctx := 0 }).run ≠ .faulted ∧
    (walking 0).hostOwned = [] := by decide +kernel

theorem meets_Refetch : (refetching 0).me.wait = .refetch 0 ∧ (refetching 0).me.grant = .none ∧
    okAnd (refetchLine here.active 0) (refetching 0) (fun r u => parityOk r.1 && u.withinFloor) = true ∧
    okAnd (refetchLine here.active 0) (refetching 1) (fun r u => !parityOk r.1 && u.withinFloor &&
      (u.raise here.active { cause := .linepar }).withinFloor) = true := by decide +kernel

def aGroup : Group := { pc := 0x40, slots := [0], next := 0x41 }
def following (n : Nat) : State := { my here fun k => { k with roll := .following { core := 1, ctx := 0 } (List.replicate n aGroup) none } with
  clock := 4, forwards := [{ leader := { core := 1, ctx := 0 }, follower := { core := 0, ctx := 0 }, group := aGroup, issued := 0 }] }
def joining (leader : Option CtxId) (runners : List CtxId) : State := my here fun k => { k with
  run := .waiting, wait := .follow, roll := .waiting 1 0x40 0 runners leader none }

theorem meets_Following : (following 15).clock = 0 + 4 ∧ (following 15).forwards.length = 1 ∧
    (following 16).me.roll = .following { core := 1, ctx := 0 } (List.replicate 16 aGroup) none ∧
    ({ following 15 with clock := 3 } : State).clock < 0 + 4 ∧
    (joining none [{ core := 1, ctx := 0 }]).me.roll = .waiting 1 0x40 0 [{ core := 1, ctx := 0 }] none none ∧
    (joining none []).me.roll = .waiting 1 0x40 0 [] none none ∧
    (joining (some { core := 1, ctx := 0 }) []).otherFollower here.active = false := by decide +kernel

/-- A fault ring of four records at 0x4000, with one waiting record. -/
def faultRing (tail : BitVec 16) : State := here.mapWorld false fun w => { w with
  frbase := 0x4000, frlog2 := 2, frhead := 3, frtail := tail, waiting := [⟨1, 2, 3, 4⟩] }

theorem meets_FaultRing : ((faultRing 1).world false).waiting = ⟨1, 2, 3, 4⟩ :: [] ∧ ((faultRing 1).world false).notices = [] ∧
    (3 + 1) % 4 ≠ 1 % 4 ∧ (3 + 1) % 4 = (0 : BitVec 16).toNat % 4 ∧ 0x4000 + 32 * 3 + 32 ≤ (faultRing 1).hbmEnd ∧
    ((faultRing 1).storeHome ((0x4000 + 96) / 128) ((0x4000 + 96) % 128) 32 (FaultRecord.bits ⟨1, 2, 3, 4⟩) (faultRing 1).high true).1.withinFloor =
      true := by decide +kernel

/-- A notification of cluster 0's line 5: of its world, of the other one, and where the line is a MUTEX, FLAG or full MSG. -/
def notifying (f : EventLine → EventLine) : State := ((here.mapWorld false fun w => { w with
  notices := [{ seq := 9, time := 3, host := none, line := some (0, 5) }] }).setLine 0 5 (f (.fresh 0)))

theorem meets_RecordPlaces : (faultRing 1).secureMem 0x4060 = false ∧ (faultRing 1).secureMem 0x407F = false ∧
    (faultRing 1).assayBytes 0x4060 32 = false ∧
    ({ faultRing 1 with assay := here.assay.setIfInBounds 0 ⟨0x8000_0000_0000_0000, 0x4000, 0x4000, 0x4000, 0x4000⟩ } :
      State).assayBytes 0x4060 32 = true := by decide +kernel

theorem meets_Notices : ((notifying id).cluster 0).placed.isSome = true ∧ ((notifying id).cluster 0).secure = false ∧
    (((notifying id).mapCluster 0 fun k => { k with secure := true }).cluster 0).secure = true ∧
    ((notifying fun e => { e with mode := .mutex }).line 0 5).mode = .mutex ∧ ((notifying id).line 0 5).mode = .flag ∧
    ((notifying id).line 0 5).waiters = [] ∧
    ((notifying id).assign (((notifying id).line 0 5).stamp.store 3).wts).withinFloor = true ∧
    ((notifying fun e => { e with mode := .msg }).line 0 5).queue.length < 16 ∧
    16 ≤ ((notifying fun e => { e with mode := .msg, queue := List.replicate 16 9 }).line 0 5).queue.length ∧
    ((notifying id).world false).waiting = [] :=
  ⟨by decide +kernel, by decide +kernel, by decide +kernel, by decide +kernel, by decide +kernel, by decide +kernel,
    by decide +kernel, by decide +kernel, by decide +kernel, by decide +kernel⟩

/-! ## A step, the encoding, the invariant -/

/-- The state in which the next step runs a word. -/
def about (w : Nat) : State := State.reset.withFetchWord 96 w

theorem meets_Step : let now : State := { about 0x0800_1860_0000_0000_0000_0001 with agenda := [] }
    (about 0x0800_1860_0000_0000_0000_0001).agenda = .issue { core := 0, ctx := 0 } :: [] ∧ now.issuable { core := 0, ctx := 0 } = true ∧
    now.me.inSettlement = false ∧ now.me.roll = .none ∧
    okAnd enterLine now (fun d u => u.me.latched.isNone && !pairBit d 0 && decide (decodeSlot (slotOf d 0) = .ok (.addi 0 6 6 1)) &&
      decide (u.me.entry = .plain)) = true := by decide +kernel

theorem meets_GrantedFault : let now : State := my { about 0 with agenda := [] } fun k => { k with run := .waiting, wait := .access, grant := .fault { cause := .page } }
    now.me.grant = .fault { cause := .page } ∧ now.able { core := 0, ctx := 0 } = true := by decide +kernel

theorem meets_Line : let now : State := { about 0x0800_1860_0000_0000_0000_0001 with agenda := [] }
    let d : Line64 := BitVec.ofNat 512 (now.hbm.readN 0 64)
    now.me.line = none ∧ now.me.grant = .none ∧ now.me.entry = .plain ∧ isWindow 0 = false ∧ isUser 0 = true ∧
    now.held (now.threadOf now.active) true 0 = some codePage ∧ codePage.pa 0 = 0 ∧ now.secureMem 0 = false ∧ 0 < now.hbmEnd ∧
    SMap.find (now.cluster 0).l1 0 = none ∧ 0 ∉ now.l2Writebacks ∧ 0 ∉ now.hostOwned ∧ now.softErrors = [] ∧ now.viewOf 0 = none ∧
    (∀ x ∈ now.l2, x.line = 0 → x.view = none) ∧ parityOk d = true ∧ reservedBits d = false ∧ setlBit d = false := by
  decide +kernel

theorem meets_Encoding : (Instr.addi 0 6 6 1).wf = true ∧ (encode (.addi 0 6 6 1)).isSome = true := by decide +kernel

theorem meets_Canonical : State.reset.Canonical ∧ isNext (step (about 0x0800_1860_0000_0000_0000_0001)) (fun t => t.x 6 == 1) = true :=
  ⟨⟨rfl, rfl, rfl, rfl, rfl⟩, by decide +kernel⟩

theorem meets_Phase : settling.me.inSettlement = true ∧ (encode (.ld 0 false .d 4 3 0 0 0)).isSome = true ∧
    phaseTrap (.ld 0 false .d 4 3 0 0 0) = some { cause := .phase } ∧ phaseTrap .ill = some { cause := .illop } ∧
    phaseTrap (.bar 0 3) = some { cause := .phase, faddr := 3 } := by decide +kernel

/-! ## Single steps and worked examples, with the results that the spec gives -/

/-- A step of the part at a word gives a state of which something holds. -/
def stepIs (w : Nat) (p : State → Bool) : Bool := isNext (step (about w)) p

/-- Worked example of ch. 8 and R142: ADDI x6, x6, 1; and R129: ILL's word raises ILLOP. -/
theorem test_step : stepIs 0x0800_1860_0000_0000_0000_0001 (fun t => t.x 6 == 1 && t.me.pc == 1) = true ∧
    stepIs 0xFFFF_FFFF_FFFF_FFFF_FFFF_FFFF (fun t => t.me.run == .faulted && t.me.trap.fcause.setWidth 8 == (0x01 : BitVec 8)) =
      true := by decide +kernel

/-- The line of the worked example of ch. 25: its line word is 0x0000_0846, its slots 0 and 1 are a pair, and the parity
of R110 is good. -/
def pairLine : Line64 := BitVec.ofNat 512 (0x0800_1430_0000_0000_0000_0008 + 0x8000_1850_000C_0000_0000_0000 * 2 ^ 96 +
  0xF800_0000_0000_0000_0000_0000 * 2 ^ 192 + 0x0000_0846 * 2 ^ 480)

theorem test_pair_line : parityOk pairLine = true ∧ pairBit pairLine 0 = true ∧ tgtBit pairLine 0 = true ∧
    reservedBits pairLine = false ∧ decodeSlot (slotOf pairLine 0) = .ok (.addi 0 5 3 8) ∧
    decodeSlot (slotOf pairLine 1) = .ok (.ld 0 false .d 6 5 0 0 0) ∧ decodeSlot (slotOf pairLine 2) = .ok (.halt 0) ∧
    pairLegal (.addi 0 5 3 8) (.ld 0 false .d 6 5 0 0 0) = true ∧ parityOk (pairLine ^^^ 1) = false := by decide +kernel

/-- Slots that raise: one that does not decode, one that a table enters and is no `LPAD`, and one that a transfer enters
without its TGT bit. -/
theorem meets_BadSlots : let now (w : Nat) : State := { about w with agenda := [] }
    okAnd enterLine (now 0x3803_0000_0000_0000_0000_0000) (fun d u => u.me.latched.isNone && !pairBit d 0 &&
      match decodeSlot (slotOf d 0) with
        | .ok _ => false
        | .error _ => true) = true ∧
    okAnd enterLine (my { now 0 with hbm := Memory.writeN [] 0 64 pairLine.toNat } fun k => { k with entry := .landing 0x88 5 }) (fun d u =>
      decide (u.me.entry = .landing 0x88 5) && decide (decodeSlot (slotOf d 0) = .ok (.addi 0 5 3 8))) = true ∧
    (let d : Line64 := BitVec.ofNat 512 (0xFFF * 2 ^ 96)
     tgtBit d 0 = false ∧ setlBit d = false) ∧ reservedBits (BitVec.ofNat 512 (2 ^ 496)) = true ∧
    setlBit (BitVec.ofNat 512 (2 ^ 495)) = true := by decide +kernel

/-- ... and both slots issue as one group: x5 becomes PARAM + 8, and the load uses x5 as it was, 0 (R127). -/
theorem test_pair_step : isNext (step (({ given (about 0) [(3, 0x100)] with
      hbm := Memory.writeN [] 0 64 pairLine.toNat } : State).mapCore 0 fun k => { k with dtlb := k.itlb }))
    (fun t => t.x 5 == 0x108 && t.x 6 == 0x0000_0000_0000_0008 && t.me.pc == 2) = true := by decide +kernel

/-- R144: a divisor of 0, and -2^63 by -1. -/
theorem test_division : let s := given here [(1, 0x8000_0000_0000_0000), (2, 0xFFFF_FFFF_FFFF_FFFF)]
    isNext (exec (.div 0 4 1 0) s) (fun t => t.x 4 == 0xFFFF_FFFF_FFFF_FFFF) = true ∧
    isNext (exec (.remu 0 4 1 0) s) (fun t => t.x 4 == 0x8000_0000_0000_0000) = true ∧
    isNext (exec (.div 0 4 1 2) s) (fun t => t.x 4 == 0x8000_0000_0000_0000) = true ∧
    isNext (exec (.rem 0 4 1 2) s) (fun t => t.x 4 == 0) = true ∧
    isNext (exec (.divu 0 4 1 2) s) (fun t => t.x 4 == 0) = true := by decide +kernel

/-- R178: FP32 1000.0 to E4M3 gives 448 with OF and NX; P = 2 writes bytes 64 to 95. R179: 2^128 and the reciprocal of
2^-133 are infinities with OF and NX. -/
theorem test_conversion : let s := here.setV 1 (vecOf 32 (List.replicate 32 0x447A_0000))
    isNext (exec (.vfcvt 0 .rne ⟨2, false, false, 4, 1⟩ 2 1) s) (fun t => t.me.fflags == flagOF ||| flagNX &&
      elem (t.v 2) 8 63 == 0 && elem (t.v 2) 8 64 == 0x7E && elem (t.v 2) 8 95 == 0x7E && elem (t.v 2) 8 96 == 0) = true ∧
    isNext (exec (.vexp2 0 2 1) (here.setV 1 (vecOf 16 [0x4300]))) (fun t => t.me.fflags == flagOF ||| flagNX &&
      elem (t.v 2) 16 0 == 0x7F80 && elem (t.v 2) 16 1 == 0x3F80) = true ∧
    isNext (exec (.vrecip 0 2 1) (here.setV 1 (vecOf 16 (1 :: List.replicate 63 0x3F80)))) (fun t =>
      t.me.fflags == flagOF ||| flagNX && elem (t.v 2) 16 0 == 0x7F80) = true := by decide +kernel

/-- The worked example of ch. 9: keys 7, 3, 7, 1, 3, 7 sorted, and the sums of their values. -/
theorem test_sort_and_sum : let s := (here.setV 10 (vecOf 32 [7, 3, 7, 1, 3, 7])).setM 1 0xFF_FFFF
    isNext (exec (.vsortk 1 12 13 10) s) (fun t =>
      t.v 12 == vecOf 32 ([1, 3, 3, 7, 7, 7] ++ List.replicate 26 0xFFFF_FFFF) &&
      t.v 13 == vecOf 32 ([3, 1, 4, 0, 2, 5] ++ List.replicate 26 0xFFFF_FFFF)) = true ∧
    isNext (exec (.vsegadd 1 .w true .rne 16 12 15) ((s.setV 12 (vecOf 32 [1, 3, 3, 7, 7, 7])).setV 15
      (vecOf 32 [0x4000_0000, 0x3F80_0000, 0x4040_0000, 0x3F00_0000, 0x3E80_0000, 0x3F40_0000]))) (fun t =>
      t.v 16 == vecOf 32 [0x4000_0000, 0x4080_0000, 0, 0x3FC0_0000, 0, 0] && t.me.fflags == 0) = true := by decide +kernel

/-- R355's table: the class and the pass of four logits against a threshold. -/
def confidIs (l : List Nat) (thr : Word) (d c : Word) : Bool :=
  isNext (exec (.confid 0 .w 4 1 2 5 4) (given (here.setV 1 (vecOf 32 l)) [(2, thr)])) fun t => t.x 4 == d && t.x 5 == c

theorem test_confidence : confidIs [0x3F80_0000, 0x4040_0000, 0x3F00_0000, 0x3FA0_0000] 0x3FC0_0000 1 1 = true ∧
    confidIs [0x4020_0000, 0x40E0_0000, 0x40E0_0000, 0x40D8_0000] 0x3E80_0000 1 0 = true ∧
    confidIs [0x8000_0000, 0, 0x7FC0_0000, 0xBF80_0000] 0 1 1 = true ∧
    confidIs [0x7FC0_0000, 0x7FC0_0000, 0x7FC0_0000, 0x4080_0000] 0x3F80_0000 3 1 = true := by decide +kernel

/-- The worked example of ch. 14: four widths into one cell whose unit is 2^-2; and R262: 33 addends of 2^118. -/
theorem test_cell : ([(viewFmt .w).decode 0x3EC0_0000, (viewFmt .h).decode 0xB900, (viewFmt .b).decode 0x3E00,
      (viewFmt .d).decode 0x3FEC_0000_0000_0000].foldl (fun c v => c.addend (-2) v) Cell.zero).bits = 4 ∧
    (Cell.zero.addend (-2) ((viewFmt .h).decode 0xB900)).bits = 0x0FFF_FFFF_FFFF_FFFF_FFFF_FFFF_FFFF_FFFE ∧
    ((List.replicate 33 ((viewFmt .d).decode 0x4750_0000_0000_0000)).foldl (fun c v => c.addend 0 v) Cell.zero).acc =
      BitVec.ofInt 124 (-31 * 2 ^ 118) := by decide +kernel

/-- Fragment 3 of ch. 2: C = [[2, 3], [4, 4]] as one matrix job in FP32. -/
def fragment3 : State :=
  let row (l : List Nat) : Nat := packElems 32 l
  let s := ((here.setT 1 tile2x4).setT 2 { tile2x4 with addr := sharedVa + 0x80, rows := 4, cols := 2, stride := 8 }).setT 3 tile2x2
  let m := Memory.writeN [] 0 32 (row [0x3F80_0000, 0x4000_0000, 0, 0x3F80_0000, 0, 0x3F80_0000, 0x3F80_0000, 0x4000_0000])
  let s : State := { s with clusterMem := m.writeN 0x80 32 (row [0x3F80_0000, 0, 0, 0x3F80_0000, 0x4000_0000, 0x3F80_0000, 0x3F80_0000, 0x3F80_0000]) }
  s.mapEngine 0 false fun e => { e with running := [(0, aJob (.mma (s.t 1) (s.t 2) (.tile (s.t 3)) true false none))] }

theorem test_product : isNext (exec (.jobDone 0 false 0) fragment3) (fun t =>
    t.clusterMem.readN 0x100 8 == packElems 32 [0x4000_0000, 0x4040_0000] &&
    t.clusterMem.readN 0x110 8 == packElems 32 [0x4080_0000, 0x4080_0000]) = true := by decide +kernel

/-- The worked example of ch. 6: three products in one group of 16 and in two. -/
theorem test_groups : let v (l : List (Nat × Nat)) (k : Nat) : FV := bf16.decode ((l.lookup k).getD 0)
    dotFloat fp32 16 64 (v [(0, 0x4580), (1, 0x3F80), (2, 0xC580)]) (v [(0, 0x4580), (1, 0x3F80), (2, 0x4580)]) 0 = 0x3F80_0000 ∧
    dotFloat fp32 16 64 (v [(0, 0x4580), (1, 0x3F80), (16, 0xC580)]) (v [(0, 0x4580), (1, 0x3F80), (16, 0x4580)]) 0 = 0 := by
  decide +kernel

/-- The worked example of ch. 6: the elements of C2 index 0x0325 with the scale byte 126. -/
theorem test_c2 : let r : AssayRange := ⟨0xA000_0000_0000_0000, 0, 0x10000, 0x20000, 0x30000⟩
    let m := ((Memory.writeN [] 0x10000 2 0x0325).writeN 0x20000 1 126).writeN (0x30000 + 12) 4 0xFC84_3210
    (List.range 8).map (assayElement m r) = [0x3E00, 0xBE80, 0x3EC0, 0x3F00, 0xBF20, 0x3F90, 0x3FD0, 0x4000] := by decide +kernel

/-- The worked example of ch. 5: a launch of four clusters among 0, 1, 2, 128, 129 and 256. -/
theorem test_placement : ((admittedIn .unplaced []).mapLaunch 0 fun l => { l with nclus := 4 } : State).encl = 1 ∧
    ({ (admittedIn .unplaced []).mapLaunch 0 fun l => { l with nclus := 4 } with
      encl := (7 : BitVec 1024) + (3 : BitVec 1024) <<< 128 + (1 : BitVec 1024) <<< 256 } : State).plan 0 =
        some { since := 0, clusters := [0, 128, 256, 1], kept := false, held := [] } := by decide +kernel

/-- The worked example of ch. 4: queues 2, 7 and 9 of 4, 2 and 1 tickets, and the winner of each quantum. -/
def contending (passes : List (BitVec 32)) : State :=
  (([2, 7, 9] : List (BitVec 6)).zip (([4, 2, 1] : List (BitVec 11)).zip passes)).foldl (fun s e => s.mapQueue e.1 fun k => { k with
    tickets := e.2.1, pass := e.2.2
    admitted := some { Launch.blank with nclus := 1, phase := .boundary, clusters := [0] } }) queuedRecord

theorem test_quanta : ((contending [0, 0, 0]).pick false, (contending [262144, 0, 0]).pick false,
      (contending [262144, 524288, 0]).pick false, (contending [262144, 524288, 1048576]).pick false,
      (contending [524288, 524288, 1048576]).pick false, (contending [786432, 524288, 1048576]).pick false,
      (contending [786432, 1048576, 1048576]).pick false) =
    (some 2, some 7, some 9, some 2, some 2, some 7, some 2) ∧
    (((contending [0, 0, 0]).queue 2).stride, ((contending [0, 0, 0]).queue 7).stride) = (262144, 524288) := by decide +kernel

/-- The worked example of ch. 17: the latencies of a send over one link, and over the die channel, which it takes after 26
cycles. -/
theorem test_send_paths : (sendPath 0 1).1 = 8 ∧ (sendPath 0 1).2.map (·.2) = [4] ∧ (sendPath 0 128).1 = 98 ∧
    (sendPath 0 128).2.any (fun e => decide (e.1 = channel 0 1 ∧ e.2 = 26)) = true := by decide +kernel

/-- The worked example of ch. 20: a ring of eight entries with records 0 to 6 waiting takes three more. -/
theorem test_ring : let s := here.mapWorld false fun w => { w with
      traces := [(0, { TraceRing.reset with base := 0x4000, log2 := 3, head := 7 })] }
    let t (s : State) : State := match exec (.trace 0 1 2 0x42) s with
      | .next t => t
      | _ => s
    (let r := SMap.at (t s).normal.traces .reset 0; (r.head, r.tail, r.lost) = (0, 1, 1)) ∧
    let r := SMap.at (t (t (t s))).normal.traces .reset 0; (r.head, r.tail, r.lost) = (2, 3, 3) := by decide +kernel

/-- R371 and R368: a vectored `TRAP`, with its code in CAUSE and the successor in EPC. -/
theorem test_trap : isNext (exec (.trap 0 0x123) handling) (fun t => t.me.pc == 0x4000 && t.me.trap.intrap &&
    t.me.trap.cause == 0x0123_0040 && t.me.trap.epc == 1) = true := by decide +kernel

/-- R308: SEM, LIMIT 1: the second `EVTRIG` finds the line full, and an `EVLD` gets what remains. -/
theorem test_semaphore : isNext (exec (.evtrig 0 1) (lined fun e => { e with mode := .sem, limit := 1, value := 1 }))
      (fun t => (t.line 0 5).value == 1) = true ∧
    isNext (exec (.evld 0 4 1) (lined fun e => { e with mode := .sem, limit := 3, value := 3 }))
      (fun t => (t.line 0 5).value == 2 && t.x 4 == 2) = true := by decide +kernel

/-- R359: an append makes entry 0 FINAL in both copies of the state line and writes its key at offset 0x800. -/
theorem test_append : isNext (exec (.kvapp 0 7 4 1 2) (kvSome.setV 1 0xABCD)) (fun t => t.x 7 == 0 &&
    kvState (t.lineData (0x30000 / 128)) 0 == 3 && t.hbm.readN 0x30040 1 == 0x03 && t.hbm.readN 0x30800 2 == 0xABCD) = true := by
  decide +kernel


end Sys2Proof.Tests
end

section
/-! Every step keeps every memory in its canonical form.

One lemma for each function of the model that makes a state, an effect or an outcome. A function of the state keeps
`State.Canonical` (`State.Canonical.<function>`); an effect keeps it wherever it ends, by completing, faulting or waiting
(`keeps_<function>`); an outcome leads to a canonical state alone (`lands_<function>`). A proof follows its function's own
text: a change beside the memories is `same`, a step of an effect is `bind`, a condition is `ite` or `when`. What is said
of a memory itself stands in the section on memories and in the few functions that write one. -/

namespace Sys2Proof.Machine

/-! ## States -/

namespace State.Canonical

variable {s t : State}

/-- A change that leaves the five memories as they were keeps their form. -/
theorem same (e : (t.hbm, t.host, t.coreMem, t.clusterMem, t.chipMem) =
    (s.hbm, s.host, s.coreMem, s.clusterMem, s.chipMem)) (h : s.Canonical) : t.Canonical := by
  simp only [Prod.mk.injEq] at e
  obtain ⟨eb, eh, ec, el, ep⟩ := e
  exact ⟨eb ▸ h.hbm, eh ▸ h.host, ec ▸ h.coreMem, el ▸ h.clusterMem, ep ▸ h.chipMem⟩

theorem withHbm {m : Memory} (hm : m.wf = true) (h : s.Canonical) : ({ s with hbm := m } : State).Canonical :=
  ⟨hm, h.host, h.coreMem, h.clusterMem, h.chipMem⟩

theorem withHost {m : Memory} (hm : m.wf = true) (h : s.Canonical) : ({ s with host := m } : State).Canonical :=
  ⟨h.hbm, hm, h.coreMem, h.clusterMem, h.chipMem⟩

theorem withCoreMem {m : Memory} (hm : m.wf = true) (h : s.Canonical) : ({ s with coreMem := m } : State).Canonical :=
  ⟨h.hbm, h.host, hm, h.clusterMem, h.chipMem⟩

theorem withClusterMem {m : Memory} (hm : m.wf = true) (h : s.Canonical) :
    ({ s with clusterMem := m } : State).Canonical :=
  ⟨h.hbm, h.host, h.coreMem, hm, h.chipMem⟩

theorem withChipMem {m : Memory} (hm : m.wf = true) (h : s.Canonical) : ({ s with chipMem := m } : State).Canonical :=
  ⟨h.hbm, h.host, h.coreMem, h.clusterMem, hm⟩

theorem withWindows {l c : Memory} (hl : l.wf = true) (hc : c.wf = true) (h : s.Canonical) :
    ({ s with clusterMem := l, coreMem := c } : State).Canonical :=
  ⟨h.hbm, h.host, hc, hl, h.chipMem⟩

theorem ite {c : Prop} {_ : Decidable c} (hs : s.Canonical) (ht : t.Canonical) : (if c then s else t).Canonical := by
  split <;> assumption

theorem foldl {α : Type} {f : State → α → State} {l : List α} (hf : ∀ {s} a, s.Canonical → (f s a).Canonical)
    (h : s.Canonical) : (l.foldl f s).Canonical := by
  induction l generalizing s with
  | nil => exact h
  | cons a r ih => exact ih (hf a h)

theorem foldl_fst {α β : Type} {f : State × β → α → State × β} {l : List α} {x : State × β}
    (hf : ∀ {x} a, x.1.Canonical → (f x a).1.Canonical) (h : x.1.Canonical) : (l.foldl f x).1.Canonical := by
  induction l generalizing x with
  | nil => exact h
  | cons a r ih => exact ih (hf a h)

end State.Canonical

/-! ## Effects -/

/-- The state that an effect leaves, whether it ends or stops short. -/
def Eff.after {α : Type} (e : Eff α) (s : State) : State :=
  match e.run s with
  | .ok _ t | .error _ t => t

/-- An effect keeps the canonical form, wherever it ends. -/
def Keeps {α : Type} (e : Eff α) : Prop := ∀ s : State, s.Canonical → (e.after s).Canonical

namespace Keeps

variable {α β : Type} {e d : Eff α} {f : α → Eff β}

theorem pure {a : α} : Keeps (pure a : Eff α) := fun _ h => h
theorem throw {x : Stop} : Keeps (throw x : Eff α) := fun _ h => h

theorem bind (he : Keeps e) (hf : ∀ a, Keeps (f a)) : Keeps (e >>= f) := by
  intro s h
  have hs := he s h
  simp only [Eff.after, Eff.run_bind] at hs ⊢
  cases hr : e.run s with
  | ok a t =>
    rw [hr] at hs
    exact hf a t hs
  | error x t =>
    rw [hr] at hs
    exact hs

theorem map {g : α → β} (he : Keeps e) : Keeps (g <$> e) := by
  intro s h
  have hs := he s h
  simp only [Eff.after, Eff.run_map] at hs ⊢
  cases hr : e.run s <;> simpa only [hr] using hs

theorem get {f : State → Eff β} (hf : ∀ s : State, s.Canonical → Keeps (f s)) : Keeps (get >>= f) :=
  fun s h => hf s h s h

theorem set {s : State} (h : s.Canonical) : Keeps (set s : Eff PUnit) := fun _ _ => h

theorem modify {f : State → State} (hf : ∀ s : State, s.Canonical → (f s).Canonical) :
    Keeps (modify f : Eff PUnit) := hf

theorem ite {c : Prop} {_ : Decidable c} (he : Keeps e) (hd : Keeps d) : Keeps (if c then e else d) := by
  split <;> assumption

/-- A part that is done only under a condition, and what comes after it. -/
theorem when {c : Prop} {_ : Decidable c} {e : Eff PUnit} {f : PUnit → Eff β} (he : Keeps e)
    (hf : ∀ u, Keeps (f u)) : Keeps (if c then e >>= f else f ⟨⟩) := ite (bind he hf) (hf ⟨⟩)

theorem discard (he : Keeps e) : Keeps (discard e) := map he

/-- An effect that catches what stops another short. -/
theorem tryCatch {f : Stop → Eff α} (he : Keeps e) (hf : ∀ x, Keeps (f x)) : Keeps (tryCatch e f) := by
  intro s h
  have hs := he s h
  simp only [Eff.after, MonadExcept.tryCatch, tryCatchThe, MonadExceptOf.tryCatch, EStateM.tryCatch,
    EStateM.run] at hs ⊢
  cases hr : e s with
  | ok a t => simpa only [hr] using hs
  | error x t =>
    rw [hr] at hs
    exact hf x _ hs

theorem forM {f : α → Eff PUnit} {l : List α} (hf : ∀ a, Keeps (f a)) : Keeps (l.forM f) := by
  induction l with
  | nil => exact pure
  | cons a r ih => exact bind (hf a) fun _ => ih

theorem run_ok {s t : State} {a : α} (he : Keeps e) (h : s.Canonical) (hr : e.run s = .ok a t) : t.Canonical := by
  have := he s h
  rwa [Eff.after, hr] at this

theorem run_error {s t : State} {x : Stop} (he : Keeps e) (h : s.Canonical) (hr : e.run s = .error x t) :
    t.Canonical := by
  have := he s h
  rwa [Eff.after, hr] at this

end Keeps

theorem keeps_fail {α : Type} {c fa ac de} : Keeps (fail c fa ac de : Eff α) := .throw
theorem keeps_waitFor {α : Type} {w} : Keeps (waitFor w : Eff α) := .throw
theorem keeps_trapWith {α : Type} {t} : Keeps (trapWith t : Eff α) := .throw

/-- Whatever next state a step has is canonical. -/
def Lands (o : Host.Outcome State Fault Refusal) : Prop := ∀ t, o = .next t → t.Canonical

theorem Lands.next {s : State} (h : s.Canonical) : Lands (.next s) := by
  rintro t ⟨⟩
  exact h

theorem Lands.ite {c : Prop} {_ : Decidable c} {o u : Host.Outcome State Fault Refusal} (ho : Lands o) (hu : Lands u) :
    Lands (if c then o else u) := by
  split <;> assumption

/-! ## Memories -/

theorem Memory.foldl_wf {α : Type} {f : Memory → α → Memory} {l : List α} {m : Memory}
    (hf : ∀ {m} a, m.wf = true → (f m a).wf = true) (h : m.wf = true) : (l.foldl f m).wf = true := by
  induction l generalizing m with
  | nil => exact h
  | cons a r ih => exact ih (hf a h)

theorem streamWrite_wf {m : Memory} {base bit w v} (h : m.wf = true) : (streamWrite m base bit w v).wf = true :=
  Memory.writeN_wf h _ _ _

theorem TileCopy.put_wf {c : TileCopy} {m : Memory} {u v} (h : m.wf = true) : (c.put m u v).wf = true :=
  streamWrite_wf h

theorem Tile.write_wf {t : Tile} {m : Memory} {p i j v} (h : m.wf = true) : (t.write m p i j v).wf = true :=
  streamWrite_wf h

theorem Tile.writeAll_wf {t : Tile} {m : Memory} {p f} (h : m.wf = true) : (t.writeAll m p f).wf = true := by
  refine Memory.foldl_wf (fun i h => Memory.foldl_wf (fun j h => ?_) h) h
  split
  · exact Tile.write_wf h
  · exact h

theorem writeProduct_wf {o c} {m : Memory} {p acc mask before} (h : m.wf = true) :
    (writeProduct o c m p acc mask before).wf = true := Tile.writeAll_wf h

theorem writeRow_wf {m : Memory} {p t i row} (h : m.wf = true) : (writeRow m p t i row).wf = true := by
  have hv := Memory.writeN_wf h (p * 2 ^ 19 + t.off + i * t.stride.toNat) t.rowLen (row.getD (0, 0x7F7F)).1
  unfold writeRow
  dsimp only
  split
  · exact hv
  · exact Memory.writeN_wf hv _ _ _

theorem writeRows_wf {m : Memory} {p t rows} (h : m.wf = true) : (writeRows m p t rows).wf = true :=
  Memory.foldl_wf (fun _ h => writeRow_wf h) h

section
variable {s : State}

/-! ## Machine/State -/

theorem State.Canonical.reset : State.reset.Canonical := ⟨rfl, rfl, rfl, rfl, rfl⟩

/-! ## Machine/Ops -/

theorem State.Canonical.assign {t} (h : s.Canonical) : (s.assign t).Canonical := .same (by rfl) h

theorem State.Canonical.setCtx {c k} (h : s.Canonical) : (s.setCtx c k).Canonical := .same (by rfl) h

theorem State.Canonical.setCore {c k} (h : s.Canonical) : (s.setCore c k).Canonical := .same (by rfl) h

theorem State.Canonical.setCluster {p k} (h : s.Canonical) : (s.setCluster p k).Canonical := .same (by rfl) h

theorem State.Canonical.setQueue {q k} (h : s.Canonical) : (s.setQueue q k).Canonical := .same (by rfl) h

theorem State.Canonical.mapCtx {c f} (h : s.Canonical) : (s.mapCtx c f).Canonical := .setCtx h

theorem State.Canonical.mapCore {c f} (h : s.Canonical) : (s.mapCore c f).Canonical := .setCore h

theorem State.Canonical.mapCluster {p f} (h : s.Canonical) : (s.mapCluster p f).Canonical := .setCluster h

theorem State.Canonical.mapQueue {q f} (h : s.Canonical) : (s.mapQueue q f).Canonical := .setQueue h

theorem State.Canonical.mapMe {f} (h : s.Canonical) : (s.mapMe f).Canonical := .mapCtx h

theorem State.Canonical.setWorld {secure w} (h : s.Canonical) : (s.setWorld secure w).Canonical :=
  .ite (.same (by rfl) h) (.same (by rfl) h)

theorem State.Canonical.mapWorld {secure f} (h : s.Canonical) : (s.mapWorld secure f).Canonical := .setWorld h

theorem State.Canonical.emit {o} (h : s.Canonical) : (s.emit o).Canonical := .same (by rfl) h

theorem State.Canonical.mapLaunch {q f} (h : s.Canonical) : (s.mapLaunch q f).Canonical := .mapQueue h

theorem State.Canonical.forkDone {q t} (h : s.Canonical) : (s.forkDone q t).Canonical := .mapLaunch h

theorem State.Canonical.exhaust {core} (h : s.Canonical) : (s.exhaust core).Canonical := .ite (.mapCore h) h

theorem State.Canonical.setLine {p l e} (h : s.Canonical) : (s.setLine p l e).Canonical := .mapCluster h

theorem State.Canonical.serve {p l n} (h : s.Canonical) : (s.serve p l n).Canonical := by
  fun_induction State.serve s p l n with
  | case1 | case2 | case3 => exact h
  | case4 _ _ _ _ _ _ _ _ _ _ _ _ _ ih => exact ih (.same (by rfl) h)

theorem State.Canonical.actLine {p l pts f} (h : s.Canonical) : (s.actLine p l pts f).1.Canonical :=
  .serve (.assign (.setLine h))

theorem State.Canonical.releaseMutexes {c} (h : s.Canonical) : (s.releaseMutexes c).Canonical :=
  .foldl (fun _ h => .foldl (fun _ h => .ite (.actLine h) h) h) h

theorem State.Canonical.endRoll {leader next} (h : s.Canonical) : (s.endRoll leader next).Canonical :=
  .same (by rfl) h

theorem State.Canonical.endRunner {c} (h : s.Canonical) : (s.endRunner c).Canonical := .same (by rfl) h

theorem State.Canonical.freeCtx {c} (h : s.Canonical) : (s.freeCtx c).Canonical :=
  .exhaust (.mapCtx (.endRunner (.endRoll (.releaseMutexes h))))

theorem State.Canonical.endFrame {h' time fault} (h : s.Canonical) : (s.endFrame h' time fault).Canonical :=
  .same (by rfl) h

theorem State.Canonical.grantDemand {o time tile fault} (h : s.Canonical) :
    (s.grantDemand o time tile fault).Canonical := by
  unfold State.grantDemand
  split
  · exact .mapCtx h
  · exact h

theorem State.Canonical.endWork {c time fault} (h : s.Canonical) : (s.endWork c time fault).Canonical :=
  .grantDemand (.same (by rfl) h)

theorem State.Canonical.completeEpisodes {q d n} (h : s.Canonical) : (s.completeEpisodes q d n).Canonical := by
  fun_induction State.completeEpisodes s q d n with
  | case1 | case2 | case4 => exact h
  | case3 _ _ _ _ _ _ _ _ _ ih => exact ih (.same (by rfl) h)

theorem State.Canonical.arriveAt {q d a} (h : s.Canonical) : (s.arriveAt q d a).Canonical :=
  .completeEpisodes (.mapLaunch h)

theorem State.Canonical.recheckEpisodes {q} (h : s.Canonical) : (s.recheckEpisodes q).Canonical :=
  .foldl (fun _ h => .completeEpisodes h) h

theorem State.Canonical.deliver {c t} (h : s.Canonical) : (s.deliver c t).Canonical := by
  unfold State.deliver
  extract_lets old k s₁
  have h₁ : s₁.Canonical := .ite (.emit h) h
  split
  · exact .recheckEpisodes (.freeCtx (.endFrame h₁))
  · exact .ite (.setCtx (.endRoll h₁)) (.setCtx (.mapWorld (.endRoll h₁)))

theorem State.Canonical.withdraw {c} (h : s.Canonical) : (s.withdraw c).Canonical := by
  unfold State.withdraw
  split
  · exact .setLine h
  · extract_lets
    exact .mapLaunch h
  · exact h

theorem State.Canonical.raise {c t} (h : s.Canonical) : (s.raise c t).Canonical := by
  unfold State.raise
  extract_lets
  split
  · exact .arriveAt (.deliver h)
  · exact .deliver h

theorem State.Canonical.interrupt {c t} {u : State} (h : s.Canonical) (e : s.interrupt c t = some u) :
    u.Canonical := by
  unfold State.interrupt at e
  split at e
  · split at e
    · cases e
    · cases e
      exact .mapCtx (.withdraw h)
  · split at e
    · cases e
    · cases e
      exact .mapCtx (.withdraw h)
  · cases e
    exact .emit h

theorem State.Canonical.retire {n} (h : s.Canonical) : (s.retire n).Canonical := by
  unfold State.retire
  split
  · exact h
  · exact .mapMe h

theorem keeps_stay {f : State → State} (hf : ∀ s : State, s.Canonical → (f s).Canonical) : Keeps (stay f) :=
  .bind (.modify fun s h => .same (by rfl) (hf s h)) fun _ => .pure

theorem State.Canonical.stall (h : s.Canonical) : s.stall.Canonical := .mapMe h

theorem lands_perform {e} (he : Keeps e) (h : s.Canonical) : Lands (perform e s) := by
  unfold perform
  split
  · exact .next (.ite (.retire (he.run_ok h (by assumption))) (.stall h))
  · exact .next (.raise h)
  · exact .next (.ite (.mapMe (he.run_error h (by assumption))) (.stall h))

theorem lands_happen {e} (he : Keeps e) (h : s.Canonical) : Lands (happen e s) := by
  unfold happen
  split
  · exact .next (.ite (he.run_ok h (by assumption)) h)
  · exact .next (.ite (he.run_error h (by assumption)) h)
  · exact .next h

theorem lands_modify {f : State → State} (hf : ∀ s : State, s.Canonical → (f s).Canonical) (h : s.Canonical) :
    Lands (happen (modify f) s) := lands_happen (.modify hf) h

/-! ## Machine/Access -/

theorem keeps_readOwned {line} : Keeps (readOwned line) :=
  .get fun s h => .ite (.when (.modify fun _ h => .same (by rfl) h) fun _ => keeps_waitFor) .pure

theorem keeps_readOwnedAll {l} : Keeps (readOwnedAll l) := by
  induction l with
  | nil => exact .pure
  | cons _ _ ih => exact .bind keeps_readOwned fun _ => ih

theorem State.Canonical.logError {secure loss addr} (h : s.Canonical) : (s.logError secure loss addr).Canonical :=
  .mapWorld h

theorem keeps_meetError {secure acc source key addr} : Keeps (meetError secure acc source key addr) := by
  refine .get fun s h => ?_
  split
  · exact .pure
  · exact .ite keeps_fail (.modify fun _ h => .same (by rfl) (.logError h))

theorem keeps_readSources {t acc l} : Keeps (readSources t acc l) := by
  induction l with
  | nil => exact .pure
  | cons _ _ ih => exact .bind keeps_readOwned fun _ => .get fun _ _ => .bind keeps_meetError fun _ => ih

theorem keeps_translateHeld {t fetch acc faddr va} : Keeps (translateHeld t fetch acc faddr va) := by
  refine .get fun s h => .when keeps_fail fun _ => ?_
  split
  · exact .bind (.modify fun _ h => .mapCore h) fun _ => .pure
  · exact .ite keeps_waitFor (.bind (.modify fun _ h => .same (by rfl) h) fun _ => keeps_waitFor)

theorem keeps_translateNow {t acc faddr va} : Keeps (translateNow t acc faddr va) := by
  refine .get fun s h => .when keeps_fail fun _ => ?_
  split
  · exact .pure
  · refine .bind keeps_readSources fun _ => ?_
    split
    · exact .bind (.modify fun _ h => .mapCluster h) fun _ => .pure
    · exact keeps_fail

theorem keeps_placeOf {t need acc faddr e va} : Keeps (placeOf t need acc faddr e va) :=
  .get fun _ _ => .when keeps_fail fun _ => .when keeps_fail fun _ => .when keeps_fail fun _ => .pure

theorem keeps_locateEntry {now t need acc faddr va} : Keeps (locateEntry now t need acc faddr va) := by
  refine .ite (.get fun s h => ?_) (.ite (.ite (.bind keeps_translateNow fun _ => .bind keeps_placeOf fun _ => .pure)
          (.bind keeps_translateHeld fun _ => .bind keeps_placeOf fun _ => .pure)) keeps_fail)
  split
  · exact .pure
  · exact keeps_fail

theorem keeps_locate {now t need acc faddr va} : Keeps (locate now t need acc faddr va) :=
  .bind keeps_locateEntry fun _ => .pure

theorem keeps_locateBy {pages t acc va} : Keeps (locateBy pages t acc va) := by
  refine .ite (.get fun s h => ?_) ?_
  · split
    · exact .pure
    · exact keeps_fail
  · split
    · extract_lets
      exact .pure
    · exact keeps_fail

theorem keeps_meetKvErrors {t acc line die} : Keeps (meetKvErrors t acc line die) := by
  refine .get fun _ _ => .ite .pure (.forM fun e => .get fun s h => ?_)
  have hgone : ({ s with softErrors := s.softErrors.erase e } : State).Canonical := .same (by rfl) h
  refine .ite (.set (.logError hgone)) ?_
  split
  · exact .ite (.set (.withHbm (Memory.writeN_wf h.hbm _ _ _) (.logError hgone))) keeps_fail
  · split
    · exact keeps_fail
    · exact .when keeps_fail fun _ => .set (.withHbm (Memory.writeN_wf h.hbm _ _ _) (.logError hgone))

theorem State.Canonical.l2Touch {line} (h : s.Canonical) : (s.l2Touch line).Canonical := by
  unfold State.l2Touch
  split
  · exact .same (by rfl) h
  · extract_lets
    refine .same (by rfl) (.ite h ?_)
    split
    · exact h
    · extract_lets
      exact .same (by rfl) h

theorem State.Canonical.setL2 {x} (h : s.Canonical) : (s.setL2 x).Canonical := .same (by rfl) h

theorem State.Canonical.renew {cluster line pts lease keep} (h : s.Canonical) :
    (s.renew cluster line pts lease keep).Canonical :=
  .ite (.mapCluster (.assign (.setL2 (.l2Touch h)))) (.assign (.setL2 (.l2Touch h)))

theorem keeps_readyFill {t acc faddr line} : Keeps (readyFill t acc faddr line) := by
  refine .get fun s h => ?_
  extract_lets +onlyGivenNames jp
  have hjp : ∀ u, Keeps (jp u) := fun _ =>
    .ite keeps_readSources (.bind keeps_meetError fun _ => keeps_meetKvErrors)
  clear_value jp
  refine .ite ?_ (hjp _)
  split
  · exact .bind keeps_fail fun _ => hjp _
  · exact hjp _

theorem keeps_readyLine {t acc faddr line store pts} : Keeps (readyLine t acc faddr line store pts) :=
  .get fun _ _ =>
  .ite keeps_meetError (.when keeps_fail fun _ => .when keeps_waitFor fun _ => .when keeps_readOwned fun _ =>
    .ite keeps_meetError keeps_readyFill)

theorem keeps_loadLine {t line pts} : Keeps (loadLine t line pts) := by
  refine .get fun s h => ?_
  extract_lets s' p jp
  have hjp : ∀ u, Keeps (jp u) := fun _ => .bind (.set (.assign (.renew h))) fun _ => .pure
  clear_value jp
  split
  · exact .ite (.bind (.set (.assign h)) fun _ => .pure) (hjp _)
  · exact .bind .pure hjp

theorem State.Canonical.tellHost {c line} (h : s.Canonical) : (s.tellHost c line).Canonical :=
  .ite (.same (by rfl) h) h

theorem State.Canonical.storeLine {t line off n v pts} (h : s.Canonical) :
    (s.storeLine t line off n v pts).1.Canonical :=
  have hm := Memory.writeN_wf h.l2Touch.hbm (line * 128 + off) n v
  .tellHost (.ite (.setCluster (.assign (.setL2 (.withHbm hm h.l2Touch)))) (.assign (.setL2 (.withHbm hm h.l2Touch))))

theorem State.Canonical.depositTouch {line} (h : s.Canonical) : (s.depositTouch line).Canonical := by
  unfold State.depositTouch
  split
  · exact .same (by rfl) h
  · refine .same (by rfl) (.ite h ?_)
    split
    · exact h
    · refine .same (by rfl) (.withHbm (m := if _ then _ else _) ?_ h)
      split
      · exact Memory.writeN_wf h.hbm _ _ _
      · exact h.hbm

theorem State.Canonical.setDeposit {x} (h : s.Canonical) : (s.setDeposit x).Canonical := .same (by rfl) h

theorem keeps_meetPurse {secure acc line} : Keeps (meetPurse secure acc line) := .get fun _ _ => keeps_meetError

theorem keeps_readyPurse {t acc line} : Keeps (readyPurse t acc line) :=
  .get fun _ _ => .when keeps_waitFor fun _ => keeps_meetPurse

theorem keeps_loadCell {pa pts} : Keeps (loadCell pa pts) :=
  .get fun _ h => .bind (.set (.assign (.setDeposit (.depositTouch h)))) fun _ => .pure

theorem State.Canonical.raiseHmts {line t} (h : s.Canonical) : (s.raiseHmts line t).Canonical :=
  .assign (.ite (.same (by rfl) h) (.same (by rfl) h))

theorem State.Canonical.dropHostLine {line} (h : s.Canonical) : (s.dropHostLine line).Canonical :=
  .same (by rfl) h

theorem State.Canonical.setHostLine {x} (h : s.Canonical) : (s.setHostLine x).Canonical := .same (by rfl) h

theorem State.Canonical.askHost {line own w} (h : s.Canonical) : (s.askHost line own w).Canonical :=
  .ite (.same (by rfl) h) (.same (by rfl) h)

theorem State.Canonical.dropAnswers {u} (h : s.Canonical) : (s.dropAnswers u).Canonical := .same (by rfl) h

theorem keeps_readyHost {t acc line off n pts} : Keeps (readyHost t acc line off n pts) := by
  refine .get fun s h => .ite .pure (.ite keeps_meetError ?_)
  split
  · exact .ite keeps_waitFor .pure
  · exact .ite .pure (.bind (.set (.askHost h)) fun _ => keeps_waitFor)

theorem State.Canonical.takeAnswer {t line} (h : s.Canonical) : (s.takeAnswer t line).Canonical := by
  unfold State.takeAnswer
  split
  · exact .mapCtx h
  · exact .same (by rfl) h

theorem keeps_loadHost {t line pts} : Keeps (loadHost t line pts) := by
  refine .get fun s h => ?_
  extract_lets
  split
  · exact .bind (.set (.assign (.takeAnswer h))) fun _ => .pure
  · exact .bind (.set (.assign (.assign (.setHostLine h)))) fun _ => .pure
  · extract_lets _ st p
    have hp : ((s.assign st.rts).assign p).Canonical := .assign (.assign h)
    exact .bind (.set (.same (by rfl) hp)) fun _ => .pure
  · split
    · exact .bind (.set (.same (by rfl) h)) fun _ => .pure
    · exact .pure

theorem State.Canonical.storeHost_posted {t line off n v pts rts} (h : s.Canonical) :
    (State.storeHost.posted t line off n v pts s rts).1.Canonical :=
  .assign (.emit (.mapCtx (.same (by rfl) h)))

theorem State.Canonical.storeHost {t line off n v pts} (h : s.Canonical) :
    (s.storeHost t line off n v pts).1.Canonical := by
  unfold State.storeHost
  split
  · split
    · extract_lets
      exact .assign (.setHostLine h)
    · exact .storeHost_posted h
  · exact .storeHost_posted h

theorem State.Canonical.setWinStamp {space off st} (h : s.Canonical) : (s.setWinStamp space off st).Canonical :=
  .same (by rfl) h

theorem State.Canonical.setWinMem {space m} (hm : m.wf = true) (h : s.Canonical) :
    (s.setWinMem space m).Canonical := by
  unfold State.setWinMem
  split
  · exact .withCoreMem hm h
  · exact .withClusterMem hm h
  · exact .withChipMem hm h

theorem keeps_readyUnit {t acc faddr p n pts store} : Keeps (readyUnit t acc faddr p n pts store) := by
  unfold readyUnit
  split
  · exact keeps_readyLine
  · exact keeps_readyPurse
  · exact .ite .pure keeps_readyHost
  · exact keeps_meetError

theorem keeps_loadUnit {t acc p n pts} : Keeps (loadUnit t acc p n pts) := by
  unfold loadUnit
  split
  · exact .bind keeps_loadLine fun _ => .pure
  · exact .bind keeps_loadCell fun _ => .pure
  · extract_lets
    exact .bind keeps_loadHost fun _ =>
      .ite (.bind keeps_readyHost fun _ => .bind keeps_loadHost fun _ => .pure) .pure
  · exact .get fun s h => .bind (.set (.assign (.setWinStamp h))) fun _ => .pure

theorem State.Canonical.winMem_wf {space} (h : s.Canonical) : (s.winMem space).wf = true := by
  unfold State.winMem
  split
  · exact h.coreMem
  · exact h.clusterMem
  · exact h.chipMem

theorem keeps_storeUnit {t p n v pts} : Keeps (storeUnit t p n v pts) := by
  refine .get fun s h => ?_
  split
  · exact .bind (.set (.storeLine h)) fun _ => .pure
  · exact .ite (.bind (.set (.storeHost (.storeHost h))) fun _ => .pure) (.bind (.set (.storeHost h)) fun _ => .pure)
  · exact .bind (.set (.same (by rfl) (.setWinMem (Memory.writeN_wf h.winMem_wf _ _ _) (.same (by rfl) h)))) fun _ =>
      .pure
  · exact .pure

theorem keeps_locateLoad {t acc va n} : Keeps (locateLoad t acc va n) := by
  refine .when keeps_fail fun _ => .bind keeps_locate fun _ => ?_
  extract_lets +onlyGivenNames jp
  have hjp : ∀ u, Keeps (jp u) := fun _ => .pure
  clear_value jp
  split
  · exact .when keeps_fail fun _ => hjp _
  · exact hjp _

theorem keeps_locateStore {t need acc va n} : Keeps (locateStore t need acc va n) := by
  unfold locateStore
  refine .when keeps_fail fun _ => .bind keeps_locate fun _ => .get fun _ _ => ?_
  split
  · exact .bind keeps_fail fun _ => .pure
  · exact .when keeps_fail fun _ => .pure
  · exact .pure

theorem keeps_readyRange {find t acc store pts l} (hfind : ∀ a, Keeps (find a)) :
    Keeps (readyRange find t acc store pts l) := by
  induction l with
  | nil => exact .pure
  | cons _ _ ih => exact .bind (hfind _) fun _ => .bind keeps_readyUnit fun _ => ih

theorem keeps_readRange {find t acc l pts} (hfind : ∀ a, Keeps (find a)) : Keeps (readRange find t acc l pts) := by
  induction l generalizing pts with
  | nil => exact .pure
  | cons _ _ ih =>
    refine .bind (hfind _) fun _ => ?_
    split
    · exact .bind keeps_fail fun _ => .bind keeps_readyUnit fun _ => .bind keeps_loadUnit fun _ => .bind ih fun _ =>
        .pure
    · exact .bind keeps_readyUnit fun _ => .bind keeps_loadUnit fun _ => .bind ih fun _ => .pure

theorem keeps_writeRange {find t acc l v pts} (hfind : ∀ a, Keeps (find a)) :
    Keeps (writeRange find t acc l v pts) := by
  induction l generalizing v pts with
  | nil => exact .pure
  | cons _ _ ih =>
    refine .bind (hfind _) fun _ => ?_
    split
    · exact .bind keeps_fail fun _ => .bind keeps_storeUnit fun _ => ih
    · exact .get fun _ _ => .when keeps_fail fun _ => .bind keeps_storeUnit fun _ => ih
    · exact .bind keeps_storeUnit fun _ => ih

theorem keeps_currentByte {t acc p pts} : Keeps (currentByte t acc p pts) := by
  refine .get fun s h => ?_
  split
  · split
    · exact .pure
    · extract_lets +onlyGivenNames jp
      have hjp : ∀ u, Keeps (jp u) := fun _ => .get fun s h => .pure
      clear_value jp
      split
      · exact .bind keeps_meetError fun _ => hjp _
      · exact .when keeps_waitFor fun _ => hjp _
      · exact .bind (.set (.askHost h)) fun _ => .bind keeps_waitFor fun _ => hjp _
  · exact .pure

theorem State.Canonical.storeHome {line off n v pts inval} (h : s.Canonical) :
    (s.storeHome line off n v pts inval).1.Canonical := by
  have hl : (s.l2Touch line).Canonical := .l2Touch h
  unfold State.storeHome
  extract_lets s₁ x stamp s₂ s₃ s₄
  have h₂ : s₂.Canonical := .withHbm (Memory.writeN_wf hl.hbm _ _ _) hl
  have h₃ : s₃.Canonical := .assign (.setL2 h₂)
  have h₄ : s₄.Canonical := .emit h₃
  clear_value s₂ s₃ s₄
  split
  · exact .same (by rfl) h₄
  · exact h₃

theorem State.Canonical.storeHostHome_posted {line off n v pts rts} (h : s.Canonical) :
    (State.storeHostHome.posted line off n v pts s rts).1.Canonical :=
  .assign (.emit (.same (by rfl) h))

theorem State.Canonical.storeHostHome {line off n v pts} (h : s.Canonical) :
    (s.storeHostHome line off n v pts).1.Canonical := by
  unfold State.storeHostHome
  split
  · split
    · extract_lets
      exact .assign (.setHostLine h)
    · exact .storeHostHome_posted h
  · exact .storeHostHome_posted h

theorem State.Canonical.snatch {line} (h : s.Canonical) : (s.snatch line).Canonical := .ite (.same (by rfl) h) h

theorem State.Canonical.pokeHost_posted {line off n v rts} (h : s.Canonical) :
    (State.pokeHost.posted line off n v s rts).Canonical :=
  .emit (.same (by rfl) h)

theorem State.Canonical.pokeHost {line off n v} (h : s.Canonical) : (s.pokeHost line off n v).Canonical := by
  unfold State.pokeHost
  split
  · exact .ite (.setHostLine h) (.pokeHost_posted h)
  · exact .pokeHost_posted h

theorem State.Canonical.pokeHome {secure pa n v} (h : s.Canonical) : (s.pokeHome secure pa n v).Canonical :=
  .foldl (fun _ h => .ite (.same (by rfl) (.withHbm (Memory.writeN_wf h.hbm _ _ _) (.snatch h))) h) h

theorem State.Canonical.pokeRecord {secure pa v} (h : s.Canonical) : (s.pokeRecord secure pa v).Canonical :=
  .ite (.pokeHost h) (.pokeHome h)

theorem State.Canonical.trace {secure die type c sstep tag data0 launchid data1} (h : s.Canonical) :
    (s.trace secure die type c sstep tag data0 launchid data1).Canonical :=
  .ite h (.setWorld (.pokeRecord h))

/-! ## Machine/Decision -/

theorem State.Canonical.raisePass {q} (h : s.Canonical) : (s.raisePass q).Canonical := by
  unfold State.raisePass
  split
  · exact h
  · exact .mapQueue h

theorem State.Canonical.requestPreempt {q hard} (h : s.Canonical) : (s.requestPreempt q hard).Canonical :=
  .ite (.mapLaunch h) h

theorem State.Canonical.grant {q} (h : s.Canonical) : (s.grant q).Canonical := .mapLaunch h

theorem State.Canonical.grants {secure n} (h : s.Canonical) : (s.grants secure n).Canonical := by
  induction n generalizing s with
  | zero => exact h
  | succ _ ih =>
    unfold State.grants
    split
    · exact h
    · exact ih (.grant h)

theorem State.Canonical.askStop {secure} (h : s.Canonical) : (s.askStop secure).Canonical := by
  unfold State.askStop
  split
  · exact h
  · exact .ite (.requestPreempt h) h

theorem State.Canonical.decision {secure} (h : s.Canonical) : (s.decision secure).Canonical :=
  .askStop (.grants h)

theorem State.Canonical.appendHost {q e} (h : s.Canonical) : (s.appendHost q e).Canonical := by
  refine .ite (.setQueue h) ?_
  split
  · exact .setQueue h
  · extract_lets
    split
    · exact .ite (.setQueue h) (.mapCtx (.setQueue h))
    · exact .setQueue h

/-! ## Machine/Operands -/

theorem State.Canonical.setX {r w} (h : s.Canonical) : (s.setX r w).Canonical := .ite h (.mapMe h)

theorem State.Canonical.setV {r w} (h : s.Canonical) : (s.setV r w).Canonical := .mapMe h

theorem State.Canonical.setM {r w} (h : s.Canonical) : (s.setM r w).Canonical := .mapMe h

theorem State.Canonical.setT {r w} (h : s.Canonical) : (s.setT r w).Canonical := .mapMe h

theorem State.Canonical.addFlags {f} (h : s.Canonical) : (s.addFlags f).Canonical := .mapMe h

theorem keeps_noSettlement {faddr} : Keeps (noSettlement faddr) := .get fun _ _ => .ite keeps_fail .pure

theorem keeps_replied : Keeps replied := .get fun _ _ => .ite keeps_waitFor .pure

theorem keeps_under {p e} (he : Keeps e) : Keeps (under p e) := .get fun _ _ => .ite he .pure

theorem lands_plain {p e} (he : Keeps e) (h : s.Canonical) : Lands (plain p e s) := lands_perform (keeps_under he) h

theorem lands_guarded {p e} (he : Keeps e) (h : s.Canonical) : Lands (guarded p e s) :=
  lands_perform (.bind keeps_noSettlement fun _ => .bind keeps_replied fun _ => keeps_under he) h

theorem lands_guardedV {e} (he : Keeps e) (h : s.Canonical) : Lands (guardedV e s) :=
  lands_perform (.bind keeps_noSettlement fun _ => .bind keeps_replied fun _ => he) h

theorem keeps_doing {f : State → State} (hf : ∀ s : State, s.Canonical → (f s).Canonical) : Keeps (doing f) :=
  .bind (.modify hf) fun _ => .pure

theorem State.Canonical.returned {store reply pts} (h : s.Canonical) : (s.returned store reply pts).Canonical :=
  .mapMe h

theorem keeps_loadElem {va n} : Keeps (loadElem va n) :=
  .get fun _ _ => .bind keeps_locateLoad fun _ => .bind keeps_readyUnit fun _ => .bind keeps_loadUnit fun _ =>
  .bind (.modify fun _ h => .returned (.addFlags h)) fun _ => .pure

theorem keeps_storeElem {va n v} : Keeps (storeElem va n v) :=
  .get fun _ _ => .bind keeps_locateStore fun _ => .bind keeps_readyUnit fun _ => .bind keeps_storeUnit fun _ =>
  .modify fun _ h => .returned h

theorem keeps_checkTile {p t} : Keeps (checkTile p t) :=
  .when keeps_fail fun _ => .when keeps_fail fun _ => .ite keeps_fail .pure

theorem State.Canonical.setTag {p g t} (h : s.Canonical) : (s.setTag p g t).Canonical := .mapCluster h

theorem State.Canonical.setTags {p gs f} (h : s.Canonical) : (s.setTags p gs f).Canonical :=
  .foldl (fun _ h => .setTag h) h

theorem keeps_meetGranules {secure acc p l} : Keeps (meetGranules secure acc p l) := by
  induction l with
  | nil => exact .pure
  | cons _ _ ih => exact .bind keeps_meetError fun _ => ih

theorem State.Canonical.stampStores {p gs pts} (h : s.Canonical) : (s.stampStores p gs pts).1.Canonical :=
  .foldl_fst (fun _ h => .assign (.setWinStamp h)) h

theorem State.Canonical.stampLoads {p gs pts} (h : s.Canonical) : (s.stampLoads p gs pts).1.Canonical :=
  .foldl_fst (fun _ h => .assign (.setWinStamp h)) h

/-! ## Machine/Fetch -/

theorem keeps_checkClass {pc} : Keeps (checkClass pc) := .when keeps_fail fun _ => .ite keeps_fail .pure

theorem keeps_fetchLine {line pc} : Keeps (fetchLine line pc) := by
  refine .get fun s h => .bind keeps_checkClass fun _ => .when keeps_waitFor fun _ =>
    .bind keeps_translateHeld fun _ => .bind keeps_placeOf fun _ => ?_
  split
  · exact .bind keeps_readyLine fun _ => .bind keeps_loadLine fun _ => .bind (.modify fun _ h => .mapMe h) fun _ =>
      .pure
  · exact keeps_fail

theorem keeps_goodLine {line pc} : Keeps (goodLine line pc) := by
  refine .get fun s h => ?_
  split
  · exact .pure
  · exact .bind keeps_fetchLine fun _ => .ite .pure keeps_waitFor

theorem keeps_enterLine : Keeps enterLine := by
  refine .get fun s h => ?_
  extract_lets +onlyGivenNames _ _ jp
  have hjp : ∀ u, Keeps (jp u) := by
    intro u
    unfold jp
    extract_lets +onlyGivenNames jp
    have hjp : ∀ u, Keeps (jp u) := fun _ => .bind (.modify fun _ h => .mapMe h) fun _ => .pure
    clear_value jp
    extract_lets +onlyGivenNames jp
    have hjp : ∀ u, Keeps (jp u) := fun _ => .when keeps_fail fun _ => hjp _
    clear_value jp
    extract_lets +onlyGivenNames jp
    have hjp : ∀ u, Keeps (jp u) := by
      intro u
      unfold jp
      split
      · exact hjp _
      · exact .when keeps_fail fun _ => hjp _
      · exact .when keeps_fail fun _ => hjp _
    clear_value jp
    exact .when keeps_fail fun _ => hjp _
  clear_value jp
  extract_lets +onlyGivenNames jp
  have hjp : ∀ u, Keeps (jp u) := by
    intro u
    unfold jp
    refine .ite ?_ (.bind keeps_goodLine fun _ => hjp _)
    split
    · exact .bind .pure fun _ => hjp _
    · exact .bind keeps_checkClass fun _ => .bind keeps_fail fun _ => hjp _
  clear_value jp
  split
  · exact .ite .pure (hjp _)
  · exact hjp _

theorem keeps_decodeFor {w} : Keeps (decodeFor w) := by
  unfold decodeFor
  split
  · exact keeps_fail
  · exact .get fun s h => .when keeps_fail fun _ => .pure

theorem keeps_checkLanding {w} : Keeps (checkLanding w) := by
  refine .get fun s h => ?_
  split
  · split
    · exact .ite keeps_fail .pure
    · exact keeps_fail
  · exact .pure

theorem keeps_fetchGroup : Keeps fetchGroup :=
  .bind keeps_enterLine fun _ => .get fun _ _ => .bind keeps_checkLanding fun _ =>
  .ite (.when keeps_fail fun _ => .bind keeps_decodeFor fun _ => .bind keeps_decodeFor fun _ =>
    .when keeps_fail fun _ => .bind .pure fun _ => .bind (.modify fun _ h => .mapMe h) fun _ => .pure)
    (.bind keeps_decodeFor fun _ => .bind .pure fun _ => .bind (.modify fun _ h => .mapMe h) fun _ => .pure)

/-! ## Machine/Control -/

theorem lands_execBr {p cc a b t} (h : s.Canonical) : Lands (execBr p cc a b t s) :=
  lands_plain (.get fun _ _ => .ite .pure .pure) h

theorem lands_execJmp {p t} (h : s.Canonical) : Lands (execJmp p t s) := lands_plain (.get fun _ _ => .pure) h

theorem lands_execCall {p t} (h : s.Canonical) : Lands (execCall p t s) :=
  lands_plain (.get fun _ h => .bind (.set (.setX h)) fun _ => .pure) h

theorem lands_execRet {p a} (h : s.Canonical) : Lands (execRet p a s) :=
  lands_plain (.get fun _ _ => .when keeps_fail fun _ => .pure) h

theorem keeps_tableJump {call a b tag n} : Keeps (tableJump call a b tag n) :=
  .get fun _ _ => .when keeps_fail fun _ => .bind keeps_replied fun _ => .bind keeps_loadElem fun _ =>
  .when keeps_fail fun _ => .when (.modify fun _ h => .setX h) fun _ => .pure

theorem lands_execMfc {p d r} (h : s.Canonical) : Lands (execMfc p d r s) :=
  lands_perform (.bind keeps_replied fun _ => keeps_under (keeps_doing fun _ h => .setX h)) h

theorem State.Canonical.writeCReg {r w} (h : s.Canonical) : (s.writeCReg r w).Canonical := by
  unfold State.writeCReg
  extract_lets
  split
  · exact .same (by rfl) h
  · exact .same (by rfl) h
  · exact .mapMe h

theorem lands_execMtc {p r a} (h : s.Canonical) : Lands (execMtc p r a s) :=
  lands_guarded (keeps_doing fun _ h => .writeCReg h) h

theorem State.Canonical.applySome {f} (h : s.Canonical) : (s.applySome f).Canonical :=
  .foldl (fun _ h => .ite (.mapCluster h) (.same (by rfl) h)) (.same (by rfl) h)

theorem State.Canonical.applyShared (h : s.Canonical) : s.applyShared.Canonical := .applySome h

theorem State.Canonical.applyIn {ps} (h : s.Canonical) : (s.applyIn ps).Canonical := .applySome h

theorem lands_execFollow {p n t} (h : s.Canonical) : Lands (execFollow p n t s) := by
  refine lands_guarded (.get fun _ _ => ?_) h
  extract_lets -underBinder c core target jp
  have hjp : ∀ u, Keeps (jp u) := fun _ =>
    .ite .pure (.bind (.modify fun _ h => .same (by rfl) h) fun _ => keeps_waitFor)
  clear_value jp
  split
  · exact .bind keeps_waitFor hjp
  · exact hjp _

theorem lands_execDetach {p} (h : s.Canonical) : Lands (execDetach p s) :=
  lands_guarded (keeps_doing fun _ h => .mapMe h) h

theorem State.Canonical.rejoin {d a b c key} (h : s.Canonical) : (s.rejoin d a b c key).Canonical :=
  .ite (.setX h) (.setX (.mapCluster h))

theorem lands_execRejoin {p d a b c key} (h : s.Canonical) : Lands (execRejoin p d a b c key s) :=
  lands_guarded (keeps_doing fun _ h => .rejoin h) h

theorem State.Canonical.take {d key} (h : s.Canonical) : (s.take d key).Canonical := by
  unfold State.take
  extract_lets
  split
  · exact .setX h
  · exact .setX (.mapMe (.mapCluster h))

theorem lands_execTake {p d key} (h : s.Canonical) : Lands (execTake p d key s) :=
  lands_guarded (keeps_doing fun _ h => .take h) h

theorem lands_execLaunch {p d a q} (h : s.Canonical) : Lands (execLaunch p d a q s) :=
  lands_guarded (.get fun _ _ => .when keeps_fail fun _ => .when keeps_fail fun _ => .bind keeps_locate fun _ =>
    .when keeps_fail fun _ => .get fun _ _ => .when keeps_waitFor fun _ =>
    .bind (.modify fun _ h => .setX (.decision (.mapQueue h))) fun _ => .pure) h

/-! ## Machine/Jobs -/

theorem State.Canonical.setStatus {core seq st} (h : s.Canonical) : (s.setStatus core seq st).Canonical :=
  .mapCore h

theorem State.Canonical.mapEngine {p copy f} (h : s.Canonical) : (s.mapEngine p copy f).Canonical :=
  .mapCluster h

theorem keeps_submit {copy d kind empty} : Keeps (submit copy d kind empty) := by
  refine .get fun s h => ?_
  extract_lets c p q core old id job st s' s'' jp jp'
  have hs' : s'.Canonical := .mapCore h
  have hjp : ∀ u, Keeps (jp u) := fun _ => .bind (.set (.setX (.ite hs' (.mapEngine hs')))) fun _ => .pure
  have hjp' : ∀ u, Keeps (jp' u) := by
    intro _
    unfold jp'
    clear_value jp
    split
    · exact .when keeps_waitFor hjp
    · exact hjp _
  exact .when keeps_waitFor hjp'

theorem lands_execMjpoll {p d a} (h : s.Canonical) : Lands (execMjpoll p d a s) := by
  refine lands_guarded (keeps_doing fun _ h => ?_) h
  split
  · exact .setX h
  · exact .setX (.ite (.mapMe h) h)

theorem lands_execMjwait {p a} (h : s.Canonical) : Lands (execMjwait p a s) := by
  refine lands_guarded (.get fun _ _ => ?_) h
  split
  · exact .pure
  · exact .when keeps_waitFor fun _ => .when keeps_fail fun _ => keeps_doing fun _ h => .mapMe h

theorem keeps_checkRegion {t l} : Keeps (checkRegion t l) := by
  induction l with
  | nil => exact .pure
  | cons _ _ ih =>
    refine .bind keeps_locateEntry fun _ => ?_
    split
    split
    · exact .get fun _ _ => .when keeps_fail fun _ => .bind ih fun _ => .pure
    · exact .bind keeps_fail fun _ => .bind ih fun _ => .pure

theorem keeps_checkPurse {t base m n stride} : Keeps (checkPurse t base m n stride) := by
  unfold checkPurse
  exact .when keeps_fail fun _ => .bind keeps_checkRegion fun _ => .pure

theorem keeps_checkProduct {t a b k n tb dst} : Keeps (checkProduct t a b k n tb dst) := by
  refine .get fun s h => ?_
  extract_lets
  split
  · extract_lets +onlyGivenNames _ jp
    have hjp : ∀ u, Keeps (jp u) := fun _ => .pure
    clear_value jp
    extract_lets +onlyGivenNames jp
    have hjp : ∀ u, Keeps (jp u) := fun _ => .when keeps_fail fun _ => hjp _
    clear_value jp
    exact .when keeps_fail fun _ => hjp _
  · extract_lets +onlyGivenNames jp
    have hjp : ∀ u, Keeps (jp u) := fun _ => .bind keeps_checkPurse fun _ => .pure
    clear_value jp
    extract_lets +onlyGivenNames jp
    have hjp : ∀ u, Keeps (jp u) := fun _ => .when keeps_fail fun _ => hjp _
    clear_value jp
    exact .when keeps_fail fun _ => hjp _

theorem keeps_checkDst {p dst} : Keeps (checkDst p dst) := by
  unfold checkDst
  split
  · exact .get fun s h => keeps_checkTile
  · exact .pure

theorem keeps_submitDense {d a b dst acc tb mask} : Keeps (submitDense d a b dst acc tb mask) :=
  .get fun _ _ => .bind keeps_checkTile fun _ => .bind keeps_checkTile fun _ => .bind keeps_checkDst fun _ =>
  .bind keeps_checkProduct fun _ => keeps_submit

theorem keeps_checkTemplate {t} : Keeps (checkTemplate t) :=
  .when keeps_fail fun _ => .when keeps_fail fun _ => .ite keeps_fail .pure

theorem lands_execMmab {p d a b c acc tb list} (h : s.Canonical) : Lands (execMmab p d a b c acc tb list s) :=
  lands_guarded (.get fun _ _ => .bind keeps_checkTemplate fun _ => .bind keeps_checkTemplate fun _ =>
    .bind keeps_checkTemplate fun _ => .when keeps_fail fun _ => .bind keeps_checkProduct fun _ => keeps_submit) h

theorem keeps_checkCsr {p b nnz} : Keeps (checkCsr p b nnz) :=
  .when keeps_fail fun _ => .when keeps_fail fun _ => .ite keeps_fail .pure

theorem lands_execMmas {p d a b dst acc nnz} (h : s.Canonical) : Lands (execMmas p d a b dst acc nnz s) :=
  lands_guarded
    (.get fun _ _ => .bind keeps_checkTile fun _ => .bind keeps_checkCsr fun _ => .bind keeps_checkDst fun _ =>
    .bind keeps_checkProduct fun _ => keeps_submit) h

theorem keeps_performProduct {secure p o c acc mask before pts} :
    Keeps (performProduct secure p o c acc mask before pts) :=
  .bind keeps_meetGranules fun _ => .get fun _ h =>
    have hload := State.Canonical.stampLoads h
    .bind (.set (.stampStores (.withClusterMem (writeProduct_wf hload.clusterMem) hload))) fun _ => .pure

theorem keeps_checkEntry {p t} : Keeps (checkEntry p t) := .when keeps_fail fun _ => .ite keeps_fail .pure

theorem keeps_loadGranules {secure p gs pts} : Keeps (loadGranules secure p gs pts) :=
  .bind keeps_meetGranules fun _ => .get fun _ h =>
  .bind (.set (.foldl_fst (fun _ h => .assign (.setWinStamp h)) h)) fun _ => .pure

theorem State.Canonical.jobReached {p copy q pts} (h : s.Canonical) : (s.jobReached p copy q pts).Canonical :=
  .mapEngine h

theorem keeps_performBatch {secure p q a b c acc tb units e l pts} :
    Keeps (performBatch secure p q a b c acc tb units e l pts) := by
  induction l generalizing e pts with
  | nil => exact .pure
  | cons x _ ih =>
    obtain ⟨ao, bo, co, ok⟩ := x
    unfold performBatch
    exact .when keeps_fail fun _ => .bind keeps_checkEntry fun _ => .bind keeps_checkEntry fun _ =>
      .bind keeps_checkEntry fun _ => .bind keeps_loadGranules fun _ => .get fun _ _ =>
      .bind keeps_performProduct fun _ => .bind (.modify fun _ h => .jobReached h) fun _ => ih

theorem keeps_jobOperands {p j} : Keeps (jobOperands p j) := by
  refine .get fun s h => ?_
  extract_lets
  split
  · exact .pure
  · extract_lets +onlyGivenNames jp
    have hjp : ∀ u, Keeps (jp u) := fun _ => .pure
    clear_value jp
    exact .when keeps_fail fun _ => hjp _
  · exact .pure

theorem State.Canonical.postAdds {p q j base fp64 pages adds pts} (h : s.Canonical) :
    (s.postAdds p q j base fp64 pages adds pts).Canonical :=
  .same (by rfl) h

theorem keeps_postProduct {p q j} : Keeps (postProduct p q j) := by
  refine .get fun s h => .bind keeps_meetError fun _ => .bind keeps_loadGranules fun _ =>
    .bind keeps_jobOperands fun _ => ?_
  extract_lets +onlyGivenNames jp
  have hjp : ∀ u, Keeps (jp u) := fun _ => .pure
  clear_value jp
  split
  · exact .bind (.set (.postAdds h)) fun _ => hjp _
  · exact .bind (.set (.postAdds h)) fun _ => hjp _
  · exact hjp _

theorem keeps_readOperands {p j} : Keeps (readOperands p j) :=
  .get fun _ _ => .bind keeps_meetError fun _ => keeps_loadGranules

theorem keeps_matrixWork {p q j} : Keeps (matrixWork p q j) := by
  refine .ite (.get fun s h => .when keeps_waitFor fun _ => .pure)
      (.bind keeps_readOperands fun _ => .get fun s h => .bind keeps_jobOperands fun _ => ?_)
  split
  · exact keeps_performProduct
  · exact keeps_performProduct
  · exact keeps_performBatch
  · exact .pure

theorem keeps_performElement {secure p o c acc mask n pts} : Keeps (performElement secure p o c acc mask n pts) :=
  keeps_performProduct

theorem keeps_elementWork {p j n pts} : Keeps (elementWork p j n pts) := by
  refine .get fun s h => .bind keeps_jobOperands fun _ => ?_
  split
  · exact keeps_performElement
  · exact keeps_performElement
  · extract_lets
    split
    · split
      · exact .bind keeps_checkEntry fun _ => .bind keeps_checkEntry fun _ => .bind keeps_checkEntry fun _ =>
          .when keeps_waitFor fun _ => .bind keeps_loadGranules fun _ => keeps_performElement
    · exact keeps_waitFor
  · exact keeps_waitFor

theorem keeps_matrixUnit {p q n} : Keeps (matrixUnit p q n) := by
  refine .get fun s h => ?_
  split
  · exact .pure
  · exact .ite (.bind keeps_readOperands fun _ => .bind keeps_elementWork fun _ => .modify fun _ h => .mapEngine h)
        .pure

theorem keeps_startMatrix {p q started j} : Keeps (startMatrix p q started j) := by
  refine .get fun s h => ?_
  extract_lets
  split
  · split
    · exact .set (.mapEngine (Keeps.run_ok keeps_loadGranules (.setTags h) (by assumption)))
    · exact .set (.mapEngine (Keeps.run_error keeps_loadGranules (.setTags h) (by assumption)))
    · exact .throw
  · refine .ite ?_ (.set (.mapEngine (.setTags h)))
    split
    · exact .set (.mapEngine (Keeps.run_ok keeps_postProduct (.setTags h) (by assumption)))
    · exact .set (.mapEngine (.setTags h))
    · exact .throw

theorem State.Canonical.endJob {p copy q j st fault} (h : s.Canonical) :
    (s.endJob p copy q j st fault).Canonical := by
  unfold State.endJob
  extract_lets
  split
  · exact .endFrame (.ite (.forkDone (.mapEngine h)) (.setTags (.forkDone (.mapEngine h))))
  · exact .endWork (.ite (.forkDone (.mapEngine h)) (.setTags (.forkDone (.mapEngine h))))
  · exact .setStatus (.ite (.forkDone (.mapEngine h)) (.setTags (.forkDone (.mapEngine h))))

theorem keeps_jobDone {work p copy q} (hwork : ∀ p q j, Keeps (work p q j)) : Keeps (jobDone work p copy q) := by
  refine .get fun s h => ?_
  split
  · exact .pure
  · exact .ite (.bind (hwork _ _ _) fun _ => .modify fun _ h => .endJob (.assign h)) .pure

theorem keeps_jobFault {work p copy q} (hwork : ∀ p q j, Keeps (work p q j)) : Keeps (jobFault work p copy q) := by
  refine .get fun s h => ?_
  split
  · exact .pure
  · split
    · exact .set (.endJob (.ite (.emit h) h))
    · split
      · exact .pure
      · have hs := (hwork _ _ _).run_error h (by assumption)
        exact .set (.endJob (.ite (.emit hs) hs))
      · exact .bind (.set ((hwork _ _ _).run_error h (by assumption))) fun _ => .throw

/-! ## Machine/Copy -/

theorem lands_execCpy {p d a b c peer} (h : s.Canonical) : Lands (execCpy p d a b c peer s) := by
  refine lands_guarded (.get fun _ _ => ?_) h
  dsimp only
  split
  · exact keeps_submit
  · exact .when keeps_fail fun _ => keeps_submit

theorem lands_execCpy2 {p d a b c rows rb} (h : s.Canonical) : Lands (execCpy2 p d a b c rows rb s) :=
  lands_guarded (.get fun _ _ => keeps_submit) h

theorem lands_execCpyg {p d a b c n rb stride} (h : s.Canonical) : Lands (execCpyg p d a b c n rb stride s) :=
  lands_guarded (.get fun _ _ => keeps_submit) h

theorem lands_execCpyc {p d a b c sfmt dfmt rm} (h : s.Canonical) : Lands (execCpyc p d a b c sfmt dfmt rm s) :=
  lands_guarded (.get fun _ _ => .when keeps_fail fun _ => keeps_submit) h

theorem lands_execCpya {p d a b c} (h : s.Canonical) : Lands (execCpya p d a b c s) :=
  lands_guarded (.get fun _ _ => .when keeps_fail fun _ => .when keeps_fail fun _ => keeps_submit) h

theorem keeps_reach {t need va} : Keeps (reach t need va) := keeps_locate

theorem keeps_readBytes {t va n pts} : Keeps (readBytes t va n pts) := keeps_readRange fun _ => keeps_reach

theorem keeps_convertPart {t src dst count sf df rm off n pts} :
    Keeps (convertPart t src dst count sf df rm off n pts) :=
  .bind keeps_readBytes fun _ => .ite (.bind keeps_reach fun _ => .bind keeps_currentByte fun _ => .pure) .pure

theorem keeps_partBytes {t kind u pts} : Keeps (partBytes t kind u pts) := by
  unfold partBytes
  extract_lets
  split
  · exact keeps_readBytes
  · exact keeps_readBytes
  · exact keeps_readBytes
  · exact keeps_readBytes
  · extract_lets +onlyGivenNames _ jp
    have hjp : ∀ u, Keeps (jp u) := fun _ => .bind keeps_readBytes fun _ => keeps_readBytes
    clear_value jp
    exact .when keeps_fail fun _ => hjp _
  · exact keeps_convertPart
  · exact .pure

theorem keeps_partsBytes {t kind base l v pts} : Keeps (partsBytes t kind base l v pts) := by
  induction l generalizing v pts with
  | nil => exact .pure
  | cons _ _ ih => exact .bind keeps_partBytes fun _ => ih

theorem keeps_writePart {t all finished now u v pts} : Keeps (writePart t all finished now u v pts) := by
  have hready {pts} : Keeps (readyRange (reach t .write) t 5 true pts (partsOf u.dst u.n)) :=
    keeps_readyRange fun _ => keeps_reach
  have hwrite {pts} : Keeps (writeRange (reach t .write) t 5 (partsOf u.dst u.n) v pts) :=
    keeps_writeRange fun _ => keeps_reach
  refine .bind keeps_reach fun _ => ?_
  extract_lets -underBinder jp
  have hjp : ∀ u, Keeps (jp u) := by
    intro _
    unfold jp
    split
    · extract_lets -underBinder p g mine jp'
      have hjp' : ∀ u, Keeps (jp' u) := fun _ => .bind hready fun _ => .when (.modify fun _ h => .setTags h) fun _ =>
        .bind hwrite fun _ => .when (.modify fun _ h => .setTags h) fun _ => .pure
      clear_value jp'
      exact .ite (.get fun _ _ => .when keeps_waitFor hjp') (hjp' _)
    · exact .bind hready fun _ => hwrite
  clear_value jp
  split
  · exact .bind keeps_fail hjp
  · exact .get fun _ _ => .when keeps_fail hjp
  · exact hjp _

theorem State.Canonical.dropViews {lo n} (h : s.Canonical) : (s.dropViews lo n).Canonical :=
  .same (by rfl) (.foldl (fun _ h => .ite (.mapCluster h) h) h)

theorem State.Canonical.sendFlit {link dest kind target len data} (h : s.Canonical) :
    (s.sendFlit link dest kind target len data).Canonical :=
  .same (by rfl) h

theorem State.Canonical.traceStep {j node type} (h : s.Canonical) : (s.traceStep j node type).Canonical :=
  .trace (.same (by rfl) h)

theorem keeps_sendPart {t p q j src toPeer node u} : Keeps (sendPart t p q j src toPeer node u) := by
  refine .get fun s _ => ?_
  extract_lets
  split
  · exact keeps_fail
  · extract_lets +onlyGivenNames _ jp
    have hjp : ∀ u, Keeps (jp u) := by
      intro u
      refine .bind (.modify fun s h => ?_) fun _ => .pure
      extract_lets s₁ s₂
      have h₂ : s₂.Canonical := .sendFlit (.ite (.traceStep h) h)
      clear_value s₁ s₂
      exact .same (by rfl) h₂
    clear_value jp
    exact .ite (.bind keeps_partBytes hjp) (.bind .pure hjp)

theorem State.Canonical.mapCopy {p q f} (h : s.Canonical) : (s.mapCopy p q f).Canonical := .mapEngine h

theorem keeps_performPart {p q n} : Keeps (performPart p q n) := by
  refine .get fun s h => ?_
  split
  · exact .pure
  · dsimp only
    split
    · exact .pure
    · refine .ite ?_ .pure
      have hdone {f} : Keeps (modify fun s => (s.mapCopy p q f).dropAnswers (.copy p q n)) :=
        .modify fun _ h => .dropAnswers (.mapCopy h)
      split
      · exact .bind keeps_sendPart fun _ => hdone
      · exact .get fun _ _ => .when keeps_fail fun _ => .get fun _ _ => .when keeps_fail fun _ =>
          .bind keeps_partBytes fun _ => .bind keeps_readyLine fun _ => .get fun _ h =>
          .bind (.set (.dropViews (.storeLine h))) fun _ => hdone
      · exact .bind keeps_partsBytes fun _ => .bind keeps_writePart fun _ => hdone

theorem keeps_copyUnit {p q n} : Keeps (copyUnit p q n) := by
  refine .get fun s h => ?_
  split
  · exact .pure
  · refine .ite ?_ .pure
    split
    · exact .set (Keeps.run_ok keeps_performPart h (by assumption))
    · exact .set (.mapCopy (Keeps.run_error keeps_performPart h (by assumption)))
    · exact .bind (.set (Keeps.run_error keeps_performPart h (by assumption))) fun _ => .throw

theorem keeps_performParts {p q l} : Keeps (performParts p q l) := by
  induction l with
  | nil => exact .pure
  | cons _ _ ih => exact .bind keeps_performPart fun _ => ih

theorem keeps_copyWork {p q j} : Keeps (copyWork p q j) := by
  unfold copyWork
  extract_lets
  split
  · exact .get fun s h => .when keeps_waitFor fun _ => .get fun s h => .bind keeps_meetError fun _ =>
      .bind (.modify fun _ h => .traceStep h) fun _ => .pure
  · exact .get fun s h => .bind keeps_meetError fun _ => .bind keeps_performParts fun _ => .get fun s h => .pure

theorem keeps_jobStart {p copy} : Keeps (jobStart p copy) := by
  refine .get fun s h => ?_
  split
  · exact .pure
  · split
    · exact .pure
    · exact .ite (.set (.mapEngine h)) keeps_startMatrix

theorem keeps_jobWork {copy p q j} : Keeps (jobWork copy p q j) := by
  unfold jobWork
  split
  · exact keeps_copyWork
  · exact keeps_matrixWork

/-! ## Machine/Sync -/

theorem keeps_ownHost {t line} : Keeps (ownHost t line) := by
  refine .get fun s h => ?_
  extract_lets +onlyGivenNames jp
  have hjp : ∀ u, Keeps (jp u) := fun _ => .bind (.set (.askHost h)) fun _ => keeps_waitFor
  clear_value jp
  split
  · exact .ite (.bind keeps_meetError fun _ => .pure) (hjp _)
  · exact .when keeps_waitFor fun _ => hjp _

theorem keeps_atomicOld {t va p n} : Keeps (atomicOld t va p n) := by
  unfold atomicOld
  split
  · exact .bind keeps_readyLine fun _ => .bind (.modify fun _ h => .l2Touch h) fun _ => .get fun s h => .pure
  · exact .bind keeps_ownHost fun _ => .pure
  · exact .bind keeps_readyUnit fun _ => .get fun s h => .pure
  · exact keeps_fail

theorem keeps_homeLoad {t p n pts} : Keeps (homeLoad t p n pts) := by
  unfold homeLoad
  split
  · exact .get fun s h => .bind (.set (.tellHost (.assign (.setL2 h)))) fun _ => .pure
  · refine .bind keeps_loadUnit fun _ => ?_
    split
    · extract_lets +onlyGivenNames jp
      have hjp : ∀ u, Keeps (jp u) := fun _ => .pure
      clear_value jp
      split
      · exact .bind (.modify fun _ h => .same (by rfl) h) fun _ => hjp _
      · exact hjp _

theorem keeps_atomic {va n f} : Keeps (atomic va n f) := by
  refine .get fun s h => .bind keeps_locateStore fun _ => .bind keeps_atomicOld fun _ => ?_
  extract_lets +onlyGivenNames _ jp
  have hjp : ∀ u, Keeps (jp u) := fun _ => .bind (.modify fun _ h => .returned h) fun _ => .pure
  clear_value jp
  split
  · exact .bind keeps_storeUnit fun _ => hjp _
  · exact .bind keeps_homeLoad fun _ => hjp _

theorem lands_amo {f p dbl d a c imm} (h : s.Canonical) : Lands (amo f p dbl d a c imm s) := by
  refine lands_guarded (.get fun _ _ => .bind keeps_atomic fun _ => ?_) h
  split
  · exact keeps_doing fun _ h => .setX h
  · exact .pure

theorem lands_execCas {p dbl d a b c imm} (h : s.Canonical) : Lands (execCas p dbl d a b c imm s) :=
  lands_guarded (.get fun _ _ => .bind keeps_atomic fun _ => keeps_doing fun _ h => .setX h) h

theorem State.Canonical.acquire (h : s.Canonical) : s.acquire.Canonical := .assign (.mapMe h)

theorem keeps_drainHost : Keeps drainHost := .get fun _ _ => .ite keeps_waitFor .pure

theorem lands_execFenceSysAcq {p} (h : s.Canonical) : Lands (execFenceSysAcq p s) :=
  lands_guarded (keeps_doing fun _ h => .acquire h) h

theorem lands_execFenceSysRel {p} (h : s.Canonical) : Lands (execFenceSysRel p s) :=
  lands_guarded (.bind keeps_drainHost fun _ => .pure) h

theorem lands_execFenceSysFull {p} (h : s.Canonical) : Lands (execFenceSysFull p s) :=
  lands_guarded (.bind keeps_drainHost fun _ => keeps_doing fun _ h => .acquire h) h

theorem keeps_eventLine {w} : Keeps (eventLine w) := .get fun _ _ => .when keeps_fail fun _ => .pure

theorem State.Canonical.signalLine {p l} (h : s.Canonical) : (s.signalLine p l).Canonical :=
  .ite h (.returned (.serve (.assign (.setLine h))))

theorem lands_execEvld {p d a} (h : s.Canonical) : Lands (execEvld p d a s) := by
  refine lands_guarded (.get fun s h => ?_) h
  split
  · exact keeps_doing fun _ h => .setX (.mapMe h)
  · refine .bind keeps_eventLine fun _ => ?_
    dsimp only
    split
    · exact .bind (.set (.setX (.mapMe (.assign (.serve (.setLine (.ite (.actLine h) h))))))) fun _ => .pure
    · exact .bind (.set (.setLine (.ite (.actLine h) h))) fun _ => keeps_waitFor

theorem lands_execEvtrig {p a} (h : s.Canonical) : Lands (execEvtrig p a s) :=
  lands_guarded (.get fun _ _ => .bind keeps_eventLine fun _ => keeps_doing fun _ h => .signalLine h) h

theorem lands_execEvtrigConf {p a c} (h : s.Canonical) : Lands (execEvtrigConf p a c s) := by
  refine lands_guarded (.get fun _ _ => .bind keeps_eventLine fun (k, l) => keeps_doing fun s h => .ite h ?_) h
  have ha : (s.actLine k l s.me.pts fun e => e.conf (s.x c)).1.Canonical := .actLine h
  exact .returned ha

theorem State.Canonical.appendMessage {p l pts msg} (h : s.Canonical) : (s.appendMessage p l pts msg).1.Canonical :=
  .actLine h

theorem lands_execEvmsg {p a c} (h : s.Canonical) : Lands (execEvmsg p a c s) :=
  lands_guarded (.get fun _ _ => .bind keeps_eventLine fun _ => .ite
    (.when keeps_waitFor fun _ => keeps_doing fun _ h => .returned (.appendMessage h))
    (keeps_doing fun _ h => .signalLine h)) h

theorem lands_execEvmsgPeer {p a c node} (h : s.Canonical) : Lands (execEvmsgPeer p a c node s) := by
  refine lands_guarded (keeps_doing fun s h => ?_) h
  extract_lets -underBinder dest
  split
  · exact .same (by rfl) h
  · extract_lets f s₁
    have h₁ : s₁.Canonical := .sendFlit (.mapMe h)
    clear_value s₁
    exact .same (by rfl) h₁

theorem keeps_released : Keeps released := .get fun _ _ => .pure

theorem keeps_arrive {d kind} : Keeps (arrive d kind) :=
  .bind (.modify fun _ h => .arriveAt h) fun _ => keeps_waitFor

theorem keeps_checkDomain {d} : Keeps (checkDomain d) := .get fun _ _ => .ite keeps_fail .pure

theorem lands_execBar {p d} (h : s.Canonical) : Lands (execBar p d s) :=
  lands_perform (.bind keeps_noSettlement fun _ => .bind keeps_replied fun _ => keeps_under
    (.bind keeps_released fun _ => .ite .pure (.bind keeps_checkDomain fun _ => keeps_arrive))) h

theorem keeps_settleLines {n line} : Keeps (settleLines n line) := by
  induction n generalizing line with
  | zero => exact .pure
  | succ _ ih => exact .bind keeps_goodLine fun _ => .ite (.bind ih fun _ => .pure) .pure

theorem State.Canonical.traceSettling {type data} (h : s.Canonical) : (s.traceSettling type data).Canonical :=
  .trace h

theorem lands_execSettle {p d} (h : s.Canonical) : Lands (execSettle p d s) :=
  lands_perform (.bind keeps_noSettlement fun _ => .bind keeps_replied fun _ => keeps_under
    (.bind keeps_released fun _ => .ite
      (.bind (.modify fun _ h => .traceSettling (.mapMe h)) fun _ => .get fun _ _ => .pure)
      (.get fun _ _ => .bind keeps_checkDomain fun _ => .when keeps_fail fun _ => .when keeps_fail fun _ =>
        .when keeps_fail fun _ => .bind keeps_settleLines fun _ =>
        .bind (.modify fun _ h => .mapCore (.mapMe h)) fun _ => keeps_arrive))) h

theorem lands_execSdone {p} (h : s.Canonical) : Lands (execSdone p s) :=
  lands_perform (keeps_under (.bind keeps_released fun _ => .ite
    (keeps_doing fun _ h => .traceSettling (.mapMe h))
    (.get fun _ _ => .when keeps_fail fun _ => keeps_arrive))) h

theorem keeps_meetSlot {n} : Keeps (meetSlot n) :=
  .get fun _ _ => .when keeps_fail fun _ => .ite keeps_waitFor .pure

theorem keeps_inPhase {n} : Keeps (inPhase n) := .get fun _ _ => .ite keeps_fail .pure

theorem lands_execSend {p vec a buf dcore slot} (h : s.Canonical) : Lands (execSend p vec a buf dcore slot s) :=
  lands_perform (.bind keeps_inPhase fun _ => keeps_under (.get fun _ _ => .when keeps_fail fun _ =>
    .bind keeps_meetSlot fun _ => keeps_doing fun _ h => .same (by rfl) h)) h

theorem lands_execRecv {p vec d buf slot} (h : s.Canonical) : Lands (execRecv p vec d buf slot s) := by
  refine lands_perform (.bind keeps_inPhase fun _ => keeps_under (.bind keeps_meetSlot fun _ => .get fun _ _ => ?_)) h
  split
  · exact keeps_fail
  · exact keeps_doing fun _ h => .ite (.setV h) (.setX h)

theorem State.Canonical.mixedEpisode {d es} (h : s.Canonical) : (s.mixedEpisode d es).Canonical := by
  refine .foldl (fun _ h => ?_) h
  split
  · exact .mapCtx h
  · exact h

theorem State.Canonical.episodeRelease {q d} (h : s.Canonical) : (s.episodeRelease q d).Canonical := by
  unfold State.episodeRelease
  extract_lets
  split
  · exact h
  · refine .ite h (.ite (.mixedEpisode (.mapLaunch h)) (.foldl (fun _ h => ?_) (.mapLaunch h)))
    split
    · exact h
    · exact .mapCtx h

theorem State.Canonical.sendArrival {i} (h : s.Canonical) : (s.sendArrival i).Canonical := by
  unfold State.sendArrival
  split
  · exact h
  · exact .ite h (.ite (.mapCore (.same (by rfl) h)) (.same (by rfl) h))

theorem State.Canonical.collide (h : s.Canonical) : s.collide.Canonical :=
  .foldl (fun _ h => .mapCtx h) (.same (by rfl) h)

theorem State.Canonical.slenReached {q} (h : s.Canonical) : (s.slenReached q).Canonical := by
  unfold State.slenReached
  extract_lets
  split
  · exact h
  · exact .ite h (.foldl (fun _ h => .raise h) h)

/-! ## Machine/Handle -/

theorem State.Canonical.beginRoutine {c entry args pts borrowed} (h : s.Canonical) :
    (s.beginRoutine c entry args pts borrowed).Canonical :=
  .ite (.setCtx h) (.raise (.setCtx h))

theorem State.Canonical.setSlot {h' k} (h : s.Canonical) : (s.setSlot h' k).Canonical := .mapCluster h

theorem State.Canonical.uncount {k} (h : s.Canonical) : (s.uncount k).Canonical := by
  unfold State.uncount
  split
  · exact .mapCtx h
  · exact h

theorem State.Canonical.addRef {h'} (h : s.Canonical) : (s.addRef h').Canonical := by
  unfold State.addRef
  split
  · exact .setSlot h
  · exact h

theorem State.Canonical.dropRef {n h'} (h : s.Canonical) : (State.dropRef n h' s).Canonical := by
  induction n generalizing s h' with
  | zero => exact h
  | succ _ ih =>
    unfold State.dropRef
    split
    · exact h
    · refine .ite h (.ite (.setSlot h) ?_)
      split
      · exact .foldl (fun _ h => ih h) (.uncount (.setSlot h))
      · exact .setSlot h
      · exact .setSlot h

theorem State.Canonical.drop {h'} (h : s.Canonical) : (s.drop h').Canonical := .dropRef h

theorem keeps_meetHandle {secure h'} : Keeps (meetHandle secure h') := keeps_meetError

theorem keeps_atTeller {h'} : Keeps (atTeller h') :=
  .get fun _ _ => .when keeps_waitFor fun _ => keeps_meetHandle

theorem keeps_liveSlot {h'} : Keeps (liveSlot h') := by
  refine .bind keeps_atTeller fun _ => .get fun s h => ?_
  split
  · exact .pure
  · exact keeps_fail

theorem keeps_checkPlacement {h'} : Keeps (checkPlacement h') := .get fun _ _ => .ite keeps_fail .pure

theorem keeps_checkHandle {h'} : Keeps (checkHandle h') := .bind keeps_checkPlacement fun _ => keeps_liveSlot

theorem keeps_allocate {w fill} : Keeps (allocate w fill) := by
  refine .get fun s h => ?_
  extract_lets
  split
  · exact keeps_waitFor
  · extract_lets
    exact .bind (.set (.setSlot h)) fun _ => .pure

theorem keeps_takeDemand : Keeps takeDemand := by
  refine .get fun s h => ?_
  split
  · exact keeps_trapWith
  · exact .bind (.set (.mapMe h)) fun _ => .pure
  · exact .pure

theorem State.Canonical.addDemand {fork frames work} (h : s.Canonical) : (s.addDemand fork frames work).Canonical :=
  .same (by rfl) h

theorem State.Canonical.pushDemand {h' work fork} (h : s.Canonical) : (s.pushDemand h' work fork).Canonical := by
  have hd {ds f} : (({ s with demands := ds } : State).addDemand fork f work).Canonical :=
    .addDemand (.same (by rfl) h)
  exact .ite (.setSlot hd) (.ite (.setSlot hd) hd)

theorem keeps_ensureValue {h' taken} : Keeps (ensureValue h' taken) :=
  .get fun _ h =>
  .ite (.set (.mapMe h)) (.when keeps_fail fun _ => .bind (.set (.pushDemand h)) fun _ => keeps_waitFor)

theorem keeps_formResult {p op a b cfmt off} : Keeps (formResult p op a b cfmt off) :=
  .when keeps_fail fun _ => .when keeps_fail fun _ => .when keeps_fail fun _ => .when keeps_fail fun _ => .pure

theorem keeps_evaluateTop_read {t pts l} : Keeps (evaluateTop.read t pts l) := by
  induction l generalizing pts with
  | nil => exact .pure
  | cons _ _ ih => exact .bind keeps_meetGranules fun _ => .get fun _ h => .bind (.set (.stampLoads h)) fun _ => ih

theorem keeps_evaluateTop {t p op rm args res fork} : Keeps (evaluateTop t p op rm args res fork) :=
  .get fun _ _ => .when keeps_waitFor fun _ => .bind keeps_evaluateTop_read fun _ => .get fun _ h =>
    .bind (.set (.assign (.setTags (.stampStores (.withClusterMem (Tile.writeAll_wf h.clusterMem) h))))) fun _ =>
    .pure

theorem keeps_checkArgs {mma l} : Keeps (checkArgs mma l) := by
  induction l with
  | nil => exact .pure
  | cons _ _ ih =>
    exact .bind keeps_checkHandle fun _ => .get fun _ _ => .when keeps_fail fun _ => .bind ih fun _ => .pure

theorem keeps_demandWork {α : Type} {op hs res} : Keeps (demandWork op hs res : Eff α) := by
  refine .get fun s h => ?_
  split
  · extract_lets +onlyGivenNames _ _ jp
    have hjp : ∀ u, Keeps (jp u) := fun _ => keeps_waitFor
    clear_value jp
    split
    · exact .bind (.set (.addDemand h)) fun _ => hjp _
    · extract_lets +onlyGivenNames jp
      have hjp : ∀ u, Keeps (jp u) := fun _ => .bind (.set (.pushDemand h)) fun _ => hjp _
      clear_value jp
      exact .when keeps_fail fun _ => hjp _

theorem keeps_suspend {d hs res fill} : Keeps (suspend d hs res fill) :=
  .get fun _ _ => .bind keeps_allocate fun _ =>
  .bind (.modify fun _ h => .setX (.mapMe (.foldl (fun _ h => .addRef h) h))) fun _ => .pure

theorem lands_execSusp {p d op a b cfmt rm loc} (h : s.Canonical) : Lands (execSusp p d op a b cfmt rm loc s) := by
  refine lands_guarded (.bind keeps_takeDemand fun _ => .get fun _ _ => ?_) h
  extract_lets -underBinder c hs lazily valued
  have hlazily {res} : Keeps (lazily res) := keeps_suspend
  have hvalued {res t} : Keeps (valued res t) := .bind keeps_allocate fun _ => keeps_doing fun _ h => .setX h
  clear_value lazily valued
  split
  · exact hlazily
  · exact hvalued
  · exact hvalued
  · exact .bind keeps_checkArgs fun _ => .bind keeps_formResult fun _ => .ite hlazily keeps_demandWork

theorem lands_execSuspr {p d a b c ridx} (h : s.Canonical) : Lands (execSuspr p d a b c ridx s) := by
  refine lands_guarded (.bind keeps_takeDemand fun _ => .get fun _ _ => ?_) h
  extract_lets -underBinder hs fill run
  have hrun {t} : Keeps (run t) := .bind keeps_allocate fun _ =>
    .bind (.modify fun _ h => .pushDemand (.foldl (fun _ h => .addRef h) h)) fun _ => keeps_waitFor
  clear_value run
  split
  · exact keeps_doing fun _ h => .setX h
  · exact keeps_suspend
  · exact hrun
  · exact hrun
  · exact .when keeps_fail fun _ => .bind keeps_checkArgs fun _ => .ite keeps_suspend (.ite keeps_demandWork
      (.bind (.modify fun _ h => .mapMe h) fun _ => hrun))

theorem lands_execMkval {p d t} (h : s.Canonical) : Lands (execMkval p d t s) :=
  lands_guarded (.get fun _ _ => .bind keeps_checkTile fun _ => .bind keeps_allocate fun _ =>
    keeps_doing fun _ h => .setX h) h

theorem lands_execForce {p a} (h : s.Canonical) : Lands (execForce p a s) :=
  lands_guarded (.bind keeps_takeDemand fun _ => .ite .pure (.get fun _ _ => .bind keeps_checkHandle fun _ =>
    .bind keeps_ensureValue fun _ => .pure)) h

theorem lands_execSpark {p a} (h : s.Canonical) : Lands (execSpark p a s) :=
  lands_guarded (.get fun _ _ => .ite .pure (.bind keeps_checkHandle fun _ => keeps_doing fun _ h => .mapCluster h)) h

theorem lands_execResult {p t} (h : s.Canonical) : Lands (execResult p t s) := by
  refine lands_guarded (.get fun _ _ => ?_) h
  split
  · exact keeps_fail
  · exact .bind keeps_checkTile fun _ => keeps_stay fun _ h => .recheckEpisodes (.freeCtx (.endFrame (.setSlot h)))

theorem lands_execDup {p a} (h : s.Canonical) : Lands (execDup p a s) :=
  lands_guarded (.get fun _ _ => .ite .pure (.bind keeps_checkHandle fun _ => keeps_doing fun _ h => .addRef h)) h

theorem lands_execDrop {p a} (h : s.Canonical) : Lands (execDrop p a s) :=
  lands_guarded (.get fun _ _ => .ite .pure (.bind keeps_checkHandle fun _ => .ite (keeps_doing fun _ h => .drop h)
    (keeps_doing fun _ h => .same (by rfl) h))) h

theorem State.Canonical.remoteDrop {i} (h : s.Canonical) : (s.remoteDrop i).Canonical := by
  unfold State.remoteDrop
  split
  · exact h
  · exact .ite h (.drop (.same (by rfl) h))

theorem lands_execHstat {p d a} (h : s.Canonical) : Lands (execHstat p d a s) := by
  refine lands_guarded (.get fun _ _ => .ite (keeps_doing fun _ h => .setX h) (.bind keeps_checkPlacement fun _ =>
    .bind keeps_atTeller fun _ => keeps_doing fun _ h => ?_)) h
  split
  · exact .setX h
  · exact .setX (.ite (.mapMe h) h)

theorem lands_execHtile {p t a} (h : s.Canonical) : Lands (execHtile p t a s) := by
  refine lands_guarded (.bind keeps_takeDemand fun _ => .get fun _ _ => ?_) h
  extract_lets -underBinder hd jp
  have hjp : ∀ u, Keeps (jp u) := fun _ => keeps_doing fun _ h => .setT h
  clear_value jp
  split
  · exact .bind .pure hjp
  · exact .bind keeps_checkHandle fun _ => .bind keeps_ensureValue fun _ => .bind .pure hjp

/-! ## Machine/Teller -/

theorem State.Canonical.resolve {h' time tile} (h : s.Canonical) : (s.resolve h' time tile).Canonical :=
  .foldl (fun _ h => .grantDemand h) (.same (by rfl) h)

theorem State.Canonical.valued {h' time} (h : s.Canonical) : (s.valued h' time).Canonical :=
  .foldl (fun _ h => .drop h) (.uncount (.setSlot h))

theorem State.Canonical.unevaluate {h'} (h : s.Canonical) : (s.unevaluate h').Canonical :=
  .ite h (.ite (.foldl (fun _ h => .drop h) (.uncount (.setSlot h))) (.setSlot h))

theorem State.Canonical.failAll {fault n l} (h : s.Canonical) : (State.failAll fault n l s).Canonical := by
  fun_induction State.failAll fault n l s with
  | case1 | case2 => exact h
  | case3 =>
    rename_i ih
    exact ih (.foldl (fun _ h => .grantDemand h) (.same (by rfl) (.unevaluate h)))

theorem State.Canonical.failDemand {i d fault} (h : s.Canonical) : (s.failDemand i d fault).Canonical :=
  .failAll (.grantDemand (.same (by rfl) h))

theorem State.Canonical.evaluationComplete {p slot} (h : s.Canonical) : (s.evaluationComplete p slot).Canonical := by
  unfold State.evaluationComplete
  extract_lets
  split
  · exact h
  · split
    · exact .failDemand h
    · exact .resolve (.valued h)
    · exact h

theorem State.Canonical.setFrames {i d frames} (h : s.Canonical) : (s.setFrames i d frames).Canonical :=
  .same (by rfl) h

theorem State.Canonical.reached {i d time tile} (h : s.Canonical) : (s.reached i d time tile).Canonical := by
  unfold State.reached
  split
  · exact .same (by rfl) h
  · exact .grantDemand (.same (by rfl) h)

theorem keeps_lookAt {i d h' rest} : Keeps (lookAt i d h' rest) := by
  refine .get fun s h => ?_
  split
  · exact .set (.failDemand h)
  · extract_lets
    split
    · exact .ite (.set (.failDemand h)) (.set (.setFrames (.ite (.setSlot h) h)))
    · exact .set (.setFrames (.setSlot h))
    · exact .set (.reached h)

theorem keeps_evaluate {p i d h' k rest} : Keeps (evaluate p i d h' k rest) := by
  refine .get fun s h => ?_
  extract_lets
  split
  · split
    · exact keeps_waitFor
    · exact .set (.beginRoutine (.setFrames h))
  · exact .when keeps_waitFor fun _ => .set (.mapEngine (.setFrames h))
  · split
    · exact .set (.setFrames (Keeps.run_ok keeps_evaluateTop h (by assumption)))
    · exact .set (.setFrames h)
    · exact .throw
  · exact keeps_waitFor

theorem keeps_workStep {p i d w} : Keeps (workStep p i d w) := by
  refine .get fun s h => .when keeps_waitFor fun _ => ?_
  extract_lets ended
  have hended {u : State} {t f} (h : u.Canonical) : (ended u t f).Canonical := .grantDemand (.same (by rfl) h)
  split
  · exact .set (.setFrames h)
  · exact .set (hended h)
  · refine .ite (.when keeps_waitFor fun _ => .set (.mapEngine (.same (by rfl) h))) ?_
    split
    · exact .set (hended (Keeps.run_ok keeps_evaluateTop h (by assumption)))
    · exact .set (hended h)
    · exact .throw

theorem keeps_demandStep {p i} : Keeps (demandStep p i) := by
  refine .get fun s h => ?_
  split
  · exact keeps_waitFor
  · refine .when keeps_waitFor fun _ => ?_
    split
    · refine .when keeps_waitFor fun _ => ?_
      split
      · split
        · exact .set (.failDemand h)
        · exact .throw
        · exact .bind (.set (Keeps.run_ok keeps_meetHandle h (by assumption))) fun _ => keeps_lookAt
      · dsimp only
        split
        · exact .set (.setFrames h)
        · split
          · exact .set (.failDemand h)
          · exact .throw
          · exact .bind (.set (Keeps.run_ok (.forM fun _ => keeps_meetHandle) h (by assumption))) fun _ =>
              keeps_evaluate
      · exact keeps_waitFor
    · split
      · exact keeps_workStep
      · exact keeps_waitFor

theorem State.Canonical.tellerStep {p l} {t : State} (h : s.Canonical) (e : s.tellerStep p l = some t) :
    t.Canonical := by
  induction l with
  | nil => cases e
  | cons i r ih =>
    unfold State.tellerStep at e
    split at e
    · cases e
      exact Keeps.run_ok keeps_demandStep h (by assumption)
    · exact ih e

theorem lands_execTellerOperation {cluster} (h : s.Canonical) : Lands (execTellerOperation cluster s) := by
  refine lands_modify (fun s h => .ite ?_ h) h
  cases e : s.tellerStep _ s.demandOrder with
  | none => exact h
  | some t => exact .tellerStep h e

theorem State.Canonical.sparkStart {p} (h : s.Canonical) : (s.sparkStart p).Canonical := by
  refine .ite h ?_
  split
  · exact h
  · extract_lets
    split
    · exact .mapCluster h
    · exact .ite (.mapCluster h) (.ite h (.same (by rfl) h))

/-! ## Machine/KeyValue -/

theorem lands_execConfid {p v d a b c n} (h : s.Canonical) : Lands (execConfid p v d a b c n s) :=
  lands_guarded (keeps_doing fun _ h => .setX (.setX h)) h

theorem keeps_kvPage {now store va} : Keeps (kvPage now store va) := by
  refine .get fun s h => .bind keeps_locate fun _ => ?_
  split
  · exact .get fun s h => .when keeps_fail fun _ => .when keeps_fail fun _ => .pure
  · exact keeps_fail

theorem keeps_checkKvFormat : Keeps checkKvFormat := .get fun _ _ => .ite keeps_fail .pure

theorem keeps_kvLine {pa} : Keeps (kvLine pa) :=
  .bind (.modify fun _ h => .l2Touch h) fun _ => .get fun _ _ => .pure

theorem keeps_myThread : Keeps myThread := .get fun _ _ => .pure

theorem keeps_kvStore {pa off n v pts} : Keeps (kvStore pa off n v pts) :=
  .bind keeps_myThread fun _ => keeps_storeUnit

theorem keeps_kvReady {acc va pa store offs} : Keeps (kvReady acc va pa store offs) :=
  .forM fun _ => .bind keeps_myThread fun _ => .get fun _ _ => keeps_readyLine

theorem keeps_kvReachable {pa read offs} : Keeps (kvReachable pa read offs) :=
  .forM fun _ => .get fun _ _ => .when keeps_waitFor fun _ => .ite keeps_readOwned .pure

theorem keeps_kvMeet {va pa offs} : Keeps (kvMeet va pa offs) :=
  .forM fun _ => .bind keeps_myThread fun _ => .get fun _ _ => .ite keeps_meetError keeps_readyFill

theorem keeps_kvDrop {h'} : Keeps (kvDrop h') :=
  .bind keeps_myThread fun _ => .bind keeps_meetHandle fun _ => .modify fun _ h => .drop h

theorem State.Canonical.settleArrears {page time p} (h : s.Canonical) : (s.settleArrears page time p).Canonical :=
  .same (by rfl) h

theorem keeps_layerEntry {l} : Keeps (layerEntry l) :=
  .get fun _ _ => .bind keeps_myThread fun _ => .bind keeps_locateLoad fun _ => .bind keeps_readyUnit fun _ =>
  .bind keeps_loadUnit fun _ => .bind (.modify fun _ h => .mapMe (.addFlags h)) fun _ => .pure

theorem keeps_exitLayers {coord l} : Keeps (exitLayers coord l) := by
  induction l with
  | nil => exact .pure
  | cons _ _ ih =>
    exact .bind keeps_layerEntry fun _ => .get fun _ _ => .when keeps_fail fun _ => .when keeps_fail fun _ =>
      .bind keeps_kvPage fun _ => .bind ih fun _ => .pure

theorem keeps_markLayer {coord h' e} : Keeps (markLayer coord h' e) := by
  unfold markLayer
  split
  · refine .get fun s h => .when keeps_waitFor fun _ => .bind keeps_kvReady fun _ => .bind keeps_kvLine fun _ =>
      .ite (.bind keeps_myThread fun _ => .get fun s h => .bind keeps_homeLoad fun _ =>
        .bind (.modify fun _ h => .mapMe h) fun _ => .pure)
        (.bind keeps_kvReady fun _ => .when keeps_waitFor fun _ => ?_)
    split
    · exact keeps_waitFor
    · extract_lets
      exact .bind (.modify fun _ h => .setSlot (.addRef h)) fun _ => .bind keeps_kvStore fun _ =>
        .bind keeps_kvStore fun _ => .bind keeps_kvLine fun _ => .bind keeps_kvStore fun _ =>
        .bind (.modify fun _ h => .same (by rfl) h) fun _ => .pure

theorem keeps_markLayers {d coord h' left made} : Keeps (markLayers d coord h' left made) := by
  unfold markLayers
  split
  · exact keeps_doing (fun _ h => .setX h)
  · refine .bind (.tryCatch keeps_markLayer fun _ => ?_) fun _ => ?_
    · split
      · exact keeps_waitFor
      · exact .throw
    · extract_lets
      split
      · exact keeps_doing (fun _ h => .setX h)
      · exact keeps_waitFor

theorem lands_execExitk {p d a b nl} (h : s.Canonical) : Lands (execExitk p d a b nl s) := by
  refine lands_guarded (.get fun _ _ => ?_) h
  extract_lets -underBinder coord hd
  split
  · exact keeps_markLayers
  · refine .bind keeps_takeDemand fun _ => .bind keeps_checkKvFormat fun _ => ?_
    extract_lets -underBinder jp
    have hjp : ∀ u, Keeps (jp u) := fun _ => .when keeps_fail fun _ => .bind keeps_exitLayers fun _ =>
      .bind (.modify fun _ h => .same (by rfl) h) fun _ => keeps_markLayers
    clear_value jp
    exact .ite (.bind keeps_checkHandle fun _ => .bind keeps_ensureValue hjp) (hjp _)

theorem State.Canonical.arrearsSpark {die} (h : s.Canonical) : (s.arrearsSpark die).Canonical := by
  unfold State.arrearsSpark
  split
  · exact h
  · split
    · exact h
    · refine .ite h ?_
      dsimp only
      split
      · exact .ite (.mapCluster (.same (by rfl) h)) (.same (by rfl) h)
      · exact .same (by rfl) h

theorem keeps_keeping {e} (he : Keeps e) : Keeps (keeping e) := by
  refine .tryCatch he fun _ => ?_
  split
  · exact .bind (.modify fun _ h => .raise h) fun _ => .pure
  · exact .throw

theorem keeps_kvWrite {va pa e e4m3 key value pts} : Keeps (kvWrite va pa e e4m3 key value pts) :=
  .bind keeps_kvMeet fun _ => .bind keeps_kvStore fun _ => .bind keeps_kvMeet fun _ => .bind keeps_kvStore fun _ =>
  .ite .pure (.bind keeps_kvMeet fun _ => .bind keeps_kvStore fun _ => .bind keeps_kvMeet fun _ => keeps_kvStore)

theorem keeps_kvRetiring {coord} : Keeps (kvRetiring coord) := by
  refine .get fun s h => .ite .pure (.bind (.tryCatch (.bind keeps_kvPage fun _ => .pure) fun _ => ?_) fun _ => ?_)
  · split
    · exact .pure
    · exact .throw
  · split
    · exact .pure
    · exact .bind keeps_kvReachable fun _ => .get fun s h => .when keeps_kvReachable fun _ => .pure

theorem State.Canonical.tellAllocator {msg pts} (h : s.Canonical) : (s.tellAllocator msg pts).1.Canonical := by
  unfold State.tellAllocator
  split
  · exact h
  · extract_lets
    split
    · exact .appendMessage h
    · split
      · exact h
      · exact .actLine h

theorem keeps_retirePage {coord va pa pos pts} : Keeps (retirePage coord va pa pos pts) :=
  .bind keeps_kvMeet fun _ => .bind keeps_kvLine fun _ =>
  .ite .pure (.bind keeps_kvMeet fun _ => .bind keeps_kvStore fun _ =>
    .bind (.forM fun _ => .get fun _ _ => keeps_kvDrop) fun _ => .bind (.modify fun _ h => .settleArrears h) fun _ =>
    .pure)

theorem keeps_tellRetired {d msg pts} : Keeps (tellRetired d msg pts) := by
  refine .get fun s h => ?_
  extract_lets +onlyGivenNames jp
  have hjp : ∀ u, Keeps (jp u) := fun _ => keeps_doing fun s h => by
    have ht : (s.tellAllocator msg pts).1.Canonical := .tellAllocator h
    exact .setX (.returned ht)
  clear_value jp
  exact .ite (.bind (.modify fun _ h => .mapMe h) fun _ => .bind keeps_waitFor fun _ => hjp _) (hjp _)

theorem keeps_append {fill d a b c} : Keeps (append fill d a b c) := by
  refine .bind keeps_checkKvFormat fun _ => .get fun s _ => .bind keeps_kvPage fun _ =>
    .bind keeps_kvReady fun _ => .bind keeps_kvLine fun _ => .when keeps_fail fun _ => .when keeps_fail fun _ =>
    .ite (.bind keeps_myThread fun _ => .bind keeps_homeLoad fun _ => keeps_doing fun _ h => .setX (.returned h))
      (.bind keeps_kvReachable fun _ => .when keeps_kvReachable fun _ => ?_)
  beta_reduce
  extract_lets -underBinder jp
  have hjp : ∀ u, Keeps (jp u) := by
    intro plan
    refine .bind keeps_kvStore fun _ => keeps_keeping (.bind keeps_kvWrite fun _ => .bind keeps_kvMeet fun _ =>
      .bind keeps_kvLine fun _ => .bind keeps_kvStore fun _ => ?_)
    extract_lets -underBinder jp
    have hjp : ∀ u, Keeps (jp u) := by
      intro _
      unfold jp
      split
      · refine .bind keeps_retirePage fun _ => ?_
        dsimp only
        split
        · exact keeps_tellRetired
        · exact keeps_doing fun _ h => .setX (.returned h)
      · refine .bind .pure fun _ => ?_
        dsimp only
        split
        · exact keeps_tellRetired
        · exact keeps_doing fun _ h => .setX (.returned h)
    clear_value jp
    exact .ite (.bind (.modify fun _ h => .settleArrears h) fun _ => .bind keeps_kvMeet fun _ => .get fun _ _ =>
      .bind keeps_kvDrop hjp) (hjp _)
  clear_value jp
  exact .ite (.bind .pure hjp) (.bind keeps_kvRetiring hjp)

theorem lands_execKvapp {p d a b c} (h : s.Canonical) : Lands (execKvapp p d a b c s) := by
  refine lands_guarded (.get fun _ _ => ?_) h
  dsimp only
  split
  · exact keeps_tellRetired
  · exact keeps_append

theorem keeps_kvLoad {va pa off pts} : Keeps (kvLoad va pa off pts) :=
  .bind keeps_myThread fun _ => .bind keeps_readyLine fun _ => .bind keeps_loadLine fun _ => .pure

theorem keeps_kvDecide {wait coord va pa slot layer pos pts} : Keeps (kvDecide wait coord va pa slot layer pos pts) :=
  .bind keeps_kvLoad fun _ => .when keeps_fail fun _ =>
  .ite .pure (.ite (.bind keeps_kvLoad fun _ => .get fun _ _ => .bind keeps_checkHandle fun _ =>
      .bind keeps_ensureValue fun _ => .get fun _ _ => .bind keeps_kvLoad fun _ => .when keeps_fail fun _ =>
      .when keeps_waitFor fun _ => .pure) (.when keeps_waitFor fun _ => .pure))

theorem keeps_kvRows {wait coord edge l pts} : Keeps (kvRows wait coord edge l pts) := by
  induction l generalizing pts with
  | nil => exact .pure
  | cons _ _ ih =>
    have hrest {pts} {x : Option KvRow} : Keeps (do
        let (r, pts) ← kvRows wait coord edge _ pts
        return (x :: r, pts)) := .bind ih fun _ => .pure
    exact .ite (.bind .pure fun _ => hrest) (.get fun _ _ => .bind keeps_kvPage fun _ => .bind keeps_kvDecide fun _ =>
      .ite (.bind .pure fun _ => hrest) (.bind keeps_kvLoad fun _ => .bind keeps_kvLoad fun _ =>
        .ite (.bind keeps_kvLoad fun _ => .bind .pure fun _ => hrest)
          (.bind .pure fun _ => .bind .pure fun _ => hrest)))

theorem keeps_checkKvTiles {fmt n tk tv} : Keeps (checkKvTiles fmt n tk tv) :=
  .when keeps_fail fun _ => .ite keeps_fail .pure

theorem keeps_loadEntries {wait tk a b tv n} : Keeps (loadEntries wait tk a b tv n) :=
  .bind keeps_takeDemand fun _ => .bind keeps_checkKvFormat fun _ => .get fun _ _ =>
    .bind keeps_checkTile fun _ => .bind keeps_checkTile fun _ => .bind keeps_checkKvTiles fun _ =>
    .bind keeps_kvRows fun _ => .get fun _ h => .when keeps_waitFor fun _ =>
    .bind (.set (.setX (.mapMe (.setTags (.stampStores
      (.withClusterMem (writeRows_wf (writeRows_wf h.clusterMem)) h)))))) fun _ => .pure

theorem lands_execArwait {p a} (h : s.Canonical) : Lands (execArwait p a s) := by
  refine lands_guarded (.bind keeps_takeDemand fun _ => .bind keeps_checkKvFormat fun _ => .get fun _ _ => ?_) h
  extract_lets -underBinder coord since
  split
  · exact keeps_doing fun _ h => .mapMe h
  · refine .bind (.tryCatch keeps_liveSlot fun x => ?_) fun _ => .when keeps_fail fun _ =>
      .bind (.tryCatch keeps_ensureValue fun x => ?_) fun _ => .pure
    · split
      · exact keeps_waitFor
      · exact .throw
    · split
      · exact keeps_waitFor
      · exact .throw

/-! ## Machine/Trap -/

theorem lands_execEret {p} (h : s.Canonical) : Lands (execEret p s) :=
  lands_guarded (.get fun _ _ => .when keeps_fail fun _ => .when keeps_fail fun _ => keeps_stay fun _ h => .mapMe h) h

theorem State.Canonical.replay {c pts} (h : s.Canonical) : (s.replay c pts).Canonical :=
  .ite (.mapCtx h) (.raise (.mapCtx h))

theorem State.Canonical.mapSaved {q key f} (h : s.Canonical) : (s.mapSaved q key f).Canonical := .mapLaunch h

theorem State.Canonical.hold {q key pts} (h : s.Canonical) : (s.hold q key pts).Canonical := by
  unfold State.hold
  extract_lets
  split
  · exact .pokeHome (.mapSaved h)
  · exact .mapSaved h

theorem State.Canonical.replayTarget {c pts} (h : s.Canonical) : (s.replayTarget c pts).1.Canonical := by
  unfold State.replayTarget
  split
  · exact .replay h
  · split
    · exact .hold h
    · exact h

theorem keeps_supervisorTarget {a} : Keeps (supervisorTarget a) :=
  .get fun _ _ => .when keeps_fail fun _ => .when keeps_fail fun _ => .when keeps_waitFor fun _ => .pure

theorem lands_execReplay {p d a} (h : s.Canonical) : Lands (execReplay p d a s) :=
  lands_guarded (.bind keeps_supervisorTarget fun _ => .get fun _ _ => .bind keeps_readOwnedAll fun _ =>
    keeps_doing fun _ h => .setX (.replayTarget h)) h

theorem State.Canonical.replayWrite {secure w} (h : s.Canonical) : (s.replayWrite secure w).Canonical :=
  .ite h (.replayTarget h)

theorem State.Canonical.restoreTarget {c r} (h : s.Canonical) : (s.restoreTarget c r).Canonical := by
  refine .ite (.mapCtx h) ?_
  split
  · extract_lets
    exact .mapSaved (.pokeHome h)
  · exact h

theorem keeps_recordAddr {b acc} : Keeps (recordAddr b acc) := .get fun _ _ => .when keeps_fail fun _ => .pure

theorem lands_execCsave {p d a b} (h : s.Canonical) : Lands (execCsave p d a b s) := by
  refine lands_guarded (.bind keeps_supervisorTarget fun _ => .bind keeps_recordAddr fun _ => .get fun _ _ =>
    .bind keeps_readOwnedAll fun _ => .get fun _ _ => ?_) h
  split
  · exact keeps_doing fun _ h => .setX h
  · exact .bind keeps_myThread fun _ => .bind (keeps_readyRange fun _ => keeps_locate) fun _ => .get fun _ _ =>
      .bind (keeps_writeRange fun _ => keeps_locate) fun _ => keeps_doing fun _ h => .setX (.returned h)

theorem lands_execCrest {p d a b} (h : s.Canonical) : Lands (execCrest p d a b s) :=
  lands_guarded (.bind keeps_supervisorTarget fun _ => .bind keeps_recordAddr fun _ => .get fun _ _ =>
    .bind keeps_readOwnedAll fun _ => .get fun _ _ => .ite (keeps_doing fun _ h => .setX h)
    (.bind keeps_myThread fun _ => .get fun _ _ => .bind (keeps_readRange fun _ => keeps_locate) fun _ =>
      keeps_doing fun _ h => .setX (.returned (.restoreTarget h)))) h

theorem keeps_halt {retain} : Keeps (halt retain) :=
  .get fun _ _ => .when keeps_fail fun _ =>
  keeps_stay (fun _ h => .recheckEpisodes (.freeCtx (.mapLaunch (.mapCore h))))

theorem lands_execTrace {p a b tag} (h : s.Canonical) : Lands (execTrace p a b tag s) :=
  lands_perform (.bind keeps_replied fun _ => keeps_under (keeps_doing fun _ h => .trace h)) h

/-! ## Machine/Admission -/

theorem State.Canonical.qsub {q v} (h : s.Canonical) : (s.qsub q v).Canonical :=
  .ite (.mapQueue h) (.appendHost h)

theorem State.Canonical.writeTickets {q v} (h : s.Canonical) : (s.writeTickets q v).Canonical :=
  .ite (.mapQueue h) h

theorem State.Canonical.writeControl {q v} (h : s.Canonical) : (s.writeControl q v).Canonical := by
  unfold State.writeControl
  extract_lets s₁ s₂
  have h₁ : s₁.Canonical := .mapQueue h
  have h₂ : s₂.Canonical := .ite h₁ (.mapLaunch h₁)
  exact .ite h (.ite (.requestPreempt h₂) h₂)

theorem State.Canonical.complete {p q l code tadmit pts} (h : s.Canonical) :
    (s.complete p q l code tadmit pts).1.Canonical := by
  unfold State.complete
  extract_lets
  split
  · exact h
  · split
    · exact .storeHome h
    · exact .storeHostHome h
    · exact h

theorem State.Canonical.rejectLaunch {q r code place} (h : s.Canonical) :
    (s.rejectLaunch q r code place).Canonical := by
  refine .ite (.emit ?_) ?_
  · split
    · exact .complete (.same (by rfl) h)
    · exact .mapQueue (.same (by rfl) h)
  · split
    · exact .complete (.same (by rfl) h)
    · exact .mapQueue (.same (by rfl) h)

theorem State.Canonical.admitLaunch {q l} (h : s.Canonical) : (s.admitLaunch q l).Canonical :=
  .decision (.same (by rfl) (.raisePass h))

theorem keeps_admitNext {q} : Keeps (admitNext q) := by
  refine .get fun s h => ?_
  split
  · exact .pure
  · refine .ite ?_ .pure
    split
    · exact .set (.admitLaunch h)
    · exact keeps_readOwned
    · split
      · exact .set (.rejectLaunch h)
      · exact keeps_readOwned

/-! ## Machine/Issue -/

/-- Whatever an executor makes of an instruction is canonical. -/
def Exec.Lands (ex : Exec) : Prop := ∀ i (s : State), s.Canonical → Machine.Lands (ex i s)

theorem lands_runGroup {ex g} (hex : ex.Lands) (h : s.Canonical) : Lands (runGroup ex g s) := by
  unfold runGroup
  split
  · exact hex _ _ h
  · dsimp only
    split
    · have hs := hex _ _ h _ (by assumption)
      split
      · exact hex _ _ (.mapMe hs)
      · exact .next hs
    · exact hex _ _ h
  · exact .next h

theorem State.Canonical.markIssue {c} (h : s.Canonical) : (s.markIssue c).Canonical := .ite (.same (by rfl) h) h

theorem State.Canonical.markWake {before c} (h : s.Canonical) : (s.markWake before c).Canonical :=
  .ite (.ite (.same (by rfl) h) (.mapCore (.same (by rfl) h))) h

theorem keeps_enterFollowed : Keeps enterFollowed :=
  .get fun _ _ => .ite (.bind (.discard keeps_enterLine) fun _ => .modify fun _ h => .mapMe h) .pure

theorem State.Canonical.joinFollowers {leader start} (h : s.Canonical) : (s.joinFollowers leader start).Canonical :=
  .same (by rfl) h

theorem State.Canonical.forward {leader g} (h : s.Canonical) : (s.forward leader g).Canonical :=
  .same (by rfl) h

theorem State.Canonical.afterGroup {s₀ slots lats} (h : s.Canonical) : (afterGroup s₀ slots lats s).Canonical := by
  unfold Machine.afterGroup
  extract_lets c old start k stalled next s₁ s₂ s₃
  have h₁ : s₁.Canonical := .joinFollowers h
  have h₂ : s₂.Canonical := .ite h₁ (.forward h₁)
  have h₃ : s₃.Canonical := .ite (.ite (.mapCtx h₂) h₂) h
  exact .ite (.mapCtx h₃) h₃

theorem lands_performGroup {ex g slots} (hex : ex.Lands) (h : s.Canonical) : Lands (performGroup ex g slots s) := by
  unfold performGroup
  split
  · exact .next (.afterGroup (lands_runGroup hex h _ (by assumption)))
  · exact lands_runGroup hex h

theorem State.Canonical.holdFetch (h : s.Canonical) : s.holdFetch.Canonical := .mapMe h

theorem lands_entryStop {e s'} (h : s.Canonical) (h' : s'.Canonical) : Lands (entryStop s e s') := by
  unfold entryStop
  split
  · exact .next (.raise (.same (by rfl) h))
  · exact .next (.ite (.mapMe h') (.holdFetch h))

theorem State.Canonical.followed {c next} (h : s.Canonical) : (s.followed c next).Canonical := .mapCtx h

theorem lands_issueFollower {ex c leader queue ended} (hex : ex.Lands) (h : s.Canonical) :
    Lands (issueFollower ex c leader queue ended s) := by
  unfold issueFollower
  split
  · exact .ite (.next h) (.next (.mapMe h))
  · exact .next h
  · refine .ite (.next h) (.ite (.next (.mapMe (.mapMe h))) ?_)
    split
    · have hs := keeps_enterFollowed.run_ok (.mapMe h) (by assumption)
      refine .ite (.next (.holdFetch (.mapMe h))) ?_
      dsimp only
      split
      · exact .next (.followed (lands_performGroup hex (.markIssue hs) _ (by assumption)))
      · exact lands_performGroup hex (.markIssue hs)
    · exact lands_entryStop (.mapMe h) (keeps_enterFollowed.run_error (.mapMe h) (by assumption))

theorem lands_issueFetched {ex c} (hex : ex.Lands) (h : s.Canonical) : Lands (issueFetched ex c s) := by
  unfold issueFetched
  split
  · have hs := keeps_fetchGroup.run_ok h (by assumption)
    exact .ite (.next (.holdFetch h)) (.ite (.next h) (lands_performGroup hex (.markIssue hs)))
  · exact lands_entryStop h (keeps_fetchGroup.run_error h (by assumption))

theorem lands_issueWith {ex c} (hex : ex.Lands) (h : s.Canonical) : Lands (issueWith ex c s) := by
  unfold issueWith
  extract_lets s₁ out
  have h₁ : s₁.Canonical := .same (by rfl) h
  have hout : Lands out := by
    unfold out
    split
    · exact .next (.ite (.raise (.same (by rfl) h₁)) h₁)
    · exact lands_issueFollower hex h₁
    · exact .ite (.next h₁) (.ite (.next (.raise (.markIssue h₁))) (lands_issueFetched hex h₁))
  clear_value out
  split
  · exact .next (.markWake (hout _ rfl))
  · exact hout

/-! ## Machine/Time -/

theorem State.Canonical.mapHolder {h' f gone} (h : s.Canonical) : (s.mapHolder h' f gone).Canonical := by
  unfold State.mapHolder
  split
  · exact .same (by rfl) h
  · extract_lets
    exact .same (by rfl) (.ite h (.foldl (fun _ h => .mapCluster h) h))
  · exact .same (by rfl) h
  · exact .same (by rfl) h
  · exact .same (by rfl) h
  · exact .same (by rfl) h
  · exact .same (by rfl) h

theorem State.Canonical.sweep {h'} (h : s.Canonical) : (s.sweep h').Canonical := .same (by rfl) (.mapHolder h)

theorem State.Canonical.advance {c} (h : s.Canonical) : (s.advance c).Canonical :=
  .ite h (.ite (.assign (.setCtx h)) (.setCtx h))

theorem State.Canonical.selfAdvance (h : s.Canonical) : s.selfAdvance.Canonical :=
  .ite (.same (by rfl) (.foldl (fun _ h => .advance h) h)) h

theorem State.Canonical.catchUp {c} (h : s.Canonical) : (s.catchUp c).Canonical := .ite h (.assign (.setCtx h))

theorem State.Canonical.sendFloor (h : s.Canonical) : s.sendFloor.Canonical :=
  .ite (.foldl (fun _ h => .catchUp h) (.same (by rfl) h)) h

theorem State.Canonical.rebase {pts} (h : s.Canonical) : (s.rebase pts).Canonical := by
  unfold State.rebase
  extract_lets s₁
  have h₁ : s₁.Canonical := .foldl (fun _ h => .mapHolder h) h
  clear_value s₁
  exact .same (by rfl) h₁

theorem State.Canonical.correctTime {offset} (h : s.Canonical) : (s.correctTime offset).Canonical :=
  .ite (.same (by rfl) h) (.same (by rfl) h)

theorem State.Canonical.limit (h : s.Canonical) : s.limit.Canonical := .ite (.same (by rfl) h) h

theorem State.Canonical.sense {r} (h : s.Canonical) : (s.sense r).Canonical := .limit (.same (by rfl) h)

theorem State.Canonical.unthrottle {r} (h : s.Canonical) : (s.unthrottle r).Canonical :=
  .ite (.sense h) (.same (by rfl) (.sense h))

/-! ## Machine/Save -/

theorem State.Canonical.snatchImage {base} (h : s.Canonical) : (s.snatchImage base).Canonical :=
  .ite h (.foldl (fun _ h => .snatch h) h)

theorem State.Canonical.writeImage {secure p base} (h : s.Canonical) : (s.writeImage secure p base).Canonical :=
  .withHbm (Memory.foldl_wf (fun _ hm => Memory.paste_wf (Memory.clear_wf hm _ _) _ _ _)
    (Memory.paste_wf (Memory.clear_wf h.hbm _ _) _ _ _)) (.snatchImage h)

theorem State.Canonical.restoreStamps {clusters m} (h : s.Canonical) : (s.restoreStamps clusters m).Canonical :=
  .foldl (fun _ h => .same (by rfl) h) h

theorem State.Canonical.save {q inStep} (h : s.Canonical) : (s.save q inStep).Canonical :=
  .mapLaunch (.foldl (fun _ h => .writeImage h) (.applyIn h))

theorem State.Canonical.alteredArrears {q key} (h : s.Canonical) : (s.alteredArrears q key).Canonical :=
  .same (by rfl) h

theorem State.Canonical.restoreCluster {q im f i p} (h : s.Canonical) : (s.restoreCluster q im f i p).Canonical := by
  unfold State.restoreCluster
  extract_lets -underBinder base m key _ _ s₁ _ _ _ s₂ s₃ s₄
  have h₁ : s₁.Canonical := by
    unfold s₁
    generalize key = k
    split
    · exact .alteredArrears h
    · exact h
  have h₂ : s₂.Canonical := .withWindows (Memory.paste_wf h₁.clusterMem _ _ _)
    (Memory.foldl_wf (fun _ hm => Memory.paste_wf hm _ _ _) h₁.coreMem) h₁
  clear_value s₂
  exact .foldl (fun _ h => .setCtx h) (.foldl (fun _ h => .mapCore h) (.mapCluster h₂))

theorem State.Canonical.goOn {c} (h : s.Canonical) : (s.goOn c).Canonical := by
  unfold State.goOn
  extract_lets
  split
  · exact .ite (.replay h) h
  · exact .ite h (.raise h)
  · exact h

theorem State.Canonical.restore {q clusters} (h : s.Canonical) : (s.restore q clusters).Canonical := by
  unfold State.restore
  split
  · exact h
  · extract_lets
    exact .foldl (fun _ h => .goOn h)
        (.foldl (fun _ h => .assign h) (.restoreStamps (.foldl (fun _ h => .restoreCluster h) (.mapLaunch h))))

/-! ## Machine/Scheduler -/

theorem State.Canonical.lapse {r} (h : s.Canonical) : (s.lapse r).Canonical :=
  .foldl (fun _ h => .ite (.foldl (fun _ h => .mapCore h) (.mapCluster h)) h) h

theorem State.Canonical.lapseFor {l chosen kept} (h : s.Canonical) : (s.lapseFor l chosen kept).Canonical :=
  .foldl (fun _ h => .ite h (.lapse h)) h

theorem State.Canonical.placeCore {k kept} (h : s.Canonical) : (s.placeCore k kept).Canonical :=
  .setCore (.ite h (.withCoreMem (Memory.clear_wf h.coreMem _ _) h))

theorem State.Canonical.takeReserved {l held} (h : s.Canonical) : (s.takeReserved l held).Canonical :=
  .foldl (fun _ h => .mapCluster h) (.same (by rfl) h)

theorem State.Canonical.place {q st} (h : s.Canonical) : (s.place q st).Canonical := by
  have hin : (s.applyIn st.clusters).Canonical := .applyIn h
  refine .assign (.mapLaunch (.foldl (fun {s} e h => ?_) (.takeReserved (.lapseFor (.ite hin (.rebase hin))))))
  have hc : ((List.range 8).foldl (fun s k => s.placeCore (8 * e.1 + k) st.kept) s).Canonical :=
    .foldl (fun _ h => .placeCore h) h
  exact .foldl (fun _ h => .setCtx h) (.mapCluster (.withClusterMem (Memory.clear_wf hc.clusterMem _ _) hc))

theorem State.Canonical.placement {q} (h : s.Canonical) : (s.placement q).Canonical := by
  unfold State.placement
  extract_lets
  split
  · exact .place h
  · exact h

theorem State.Canonical.superstepStart {q} (h : s.Canonical) : (s.superstepStart q).Canonical := by
  unfold State.superstepStart
  extract_lets l s₁ s₂ s₃ s₄ s₅
  have h₂ : s₂.Canonical := .ite (.mapQueue h) (.assign (.foldl (fun _ h => .mapCtx h) (.mapQueue h)))
  have h₃ : s₃.Canonical := .same (by rfl) h₂
  have h₄ : s₄.Canonical := .foldl (fun _ h => .mapCluster (.foldl (fun _ h => .mapCore h) h)) h₃
  exact .ite h (.foldl (fun _ h => .foldl (fun _ h => .exhaust h) h) (.mapLaunch h₄))

theorem State.Canonical.routineStart {c} (h : s.Canonical) : (s.routineStart c).Canonical := by
  unfold State.routineStart
  extract_lets
  split
  · exact h
  · exact .ite h (.beginRoutine (.setCore h))

theorem State.Canonical.clearingReport {q u} (h : s.Canonical) : (s.clearingReport q u).Canonical := by
  refine .ite h ?_
  split
  · exact .mapCore h
  · exact .mapCluster h
  · exact .mapLaunch h

theorem State.Canonical.superstepEnd {q} (h : s.Canonical) : (s.superstepEnd q).Canonical :=
  .ite h (.decision (.mapLaunch h))

theorem State.Canonical.forget {cs} (h : s.Canonical) : (s.forget cs).Canonical := .same (by rfl) h

theorem State.Canonical.leaveDemands {q} (h : s.Canonical) : (s.leaveDemands q).Canonical := by
  unfold State.leaveDemands
  extract_lets own s₁ s₂ s₃
  have h₁ : s₁.Canonical := by
    refine .foldl (fun _ h => ?_) h
    split
    · exact h
    · exact .mapCtx h
  have h₂ : s₂.Canonical := .same (by rfl) h₁
  have h₃ : s₃.Canonical := .foldl (fun _ h => .ite (.setSlot h) h) h₂
  exact .same (by rfl) h₃

theorem State.Canonical.empty {q} (h : s.Canonical) : (s.empty q).Canonical := by
  unfold State.empty
  extract_lets s₁ s₂
  have h₁ : s₁.Canonical := .foldl (fun _ h => .mapCluster h) h
  have h₂ : s₂.Canonical := .leaveDemands h₁
  clear_value s₁ s₂
  exact .same (by rfl) h₂

theorem State.Canonical.releaseClusters {q} (h : s.Canonical) : (s.releaseClusters q).Canonical :=
  .mapLaunch (.foldl (fun _ h => .mapCluster (.foldl (fun _ h => .mapCtx h) h)) h)

theorem State.Canonical.dropReservations {secure} (h : s.Canonical) : (s.dropReservations secure).Canonical :=
  .same (by rfl) h

theorem State.Canonical.powerDown (h : s.Canonical) : s.powerDown.Canonical :=
  .ite h ⟨h.hbm, h.host, Memory.wf_nil, Memory.wf_nil, Memory.wf_nil⟩

theorem State.Canonical.leave {q time} (h : s.Canonical) : (s.leave q time).Canonical := by
  unfold State.leave
  extract_lets l secure time s₁ s₂ s₃ s₄
  have h₂ : s₂.Canonical := .mapQueue (.releaseClusters h)
  have h₃ : s₃.Canonical := .foldl (fun _ h => .mapLaunch h) h₂
  have h₄ : s₄.Canonical := .ite (.emit h₃) h₃
  exact .powerDown (.decision (.dropReservations h₄))

theorem State.Canonical.retain {q} (h : s.Canonical) : (s.retain q).Canonical :=
  .ite (.foldl (fun _ h => .mapCluster h) h) h

theorem State.Canonical.launchCompletion {q} (h : s.Canonical) : (s.launchCompletion q).Canonical := by
  unfold State.launchCompletion
  dsimp only
  split
  · exact .ite h (have hc := .complete (.empty (.foldl (fun _ h => .mapCtx h) (.forget h)))
      .ite (.mapLaunch hc) (.leave (.retain hc)))
  · exact .ite h (.leave (.retain h))
  · exact h

theorem State.Canonical.tearDown {q} (h : s.Canonical) : (s.tearDown q).Canonical :=
  .mapLaunch (.foldl (fun _ h => .mapCluster h) (.foldl (fun _ h => .mapCtx h) (.forget (.empty h))))

theorem State.Canonical.killWrite {secure v} (h : s.Canonical) : (s.killWrite secure v).Canonical :=
  .ite h (.tearDown h)

theorem State.Canonical.teardownComplete {q} (h : s.Canonical) : (s.teardownComplete q).Canonical := by
  unfold State.teardownComplete
  dsimp only
  split
  · exact .ite h (.ite (.mapLaunch (.complete (.releaseClusters h))) (.leave (.complete (.releaseClusters h))))
  · exact .ite h (.leave h)
  · exact h

theorem State.Canonical.tripNow (h : s.Canonical) : s.tripNow.Canonical := by
  refine .ite h (.powerDown (.foldl (fun _ h => .tearDown h) (s := { s.emit (.msix 2) with tripped := true }) ?_))
  exact .same (by rfl) h

theorem State.Canonical.thermalTrip {r} (h : s.Canonical) : (s.thermalTrip r).Canonical := .tripNow (.sense h)

theorem State.Canonical.stopCtx {c} (h : s.Canonical) : (s.stopCtx c).Canonical := by
  refine .ite (.freeCtx h) (.mapCtx ?_)
  split
  · exact .mapCore h
  · exact h

theorem State.Canonical.lapsePreempt {q} (h : s.Canonical) : (s.lapsePreempt q).Canonical :=
  .ite (.decision (.mapLaunch h)) (.mapLaunch h)

theorem State.Canonical.stopLaunch {q} (h : s.Canonical) : (s.stopLaunch q).Canonical :=
  .ite h (.ite (.lapsePreempt h)
      (.mapLaunch (.forget (.foldl (fun _ h => .stopCtx h) (.foldl (fun _ h => .withdraw h) h)))))

theorem State.Canonical.stopTeller {q} (h : s.Canonical) : (s.stopTeller q).Canonical :=
  .foldl (fun _ h =>
    .foldl (fun _ h => .ite (.unevaluate h) (.ite (.foldl (fun _ h => .drop h) (.uncount (.setSlot h))) h)) h)
    (.leaveDemands h)

theorem State.Canonical.releaseStopped {q} (h : s.Canonical) : (s.releaseStopped q).Canonical := by
  unfold State.releaseStopped
  extract_lets l
  split
  · extract_lets s₁ s₂ s₃ s₄
    have h₃ : s₃.Canonical := .mapLaunch (.releaseClusters (.save (.stopTeller h)))
    have h₄ : s₄.Canonical := .ite (.foldl (fun _ h => .mapCluster h) h₃) h₃
    exact .ite (.decision (.dropReservations h₄)) h
  · exact h

theorem keeps_resumeLaunch {q} : Keeps (resumeLaunch q) := by
  refine .get fun s h => ?_
  extract_lets
  split
  · exact .bind keeps_readOwnedAll fun _ => .get fun s h =>
      .set (.mapLaunch (.restore (.takeReserved (.lapseFor (.applyIn h)))))
  · exact .pure

theorem State.Canonical.clearCluster {p} (h : s.Canonical) : (s.clearCluster p).Canonical := by
  unfold State.clearCluster
  dsimp only
  refine .ite h (.mapCluster (.foldl (fun _ h => .mapCore h) ?_))
  have hlapsed : (match (s.cluster p).retention with
      | some r => s.lapse r
      | none => s).Canonical := by
    split
    · exact .lapse h
    · exact h
  exact .same (by rfl) (.withCoreMem (Memory.clear_wf hlapsed.coreMem _ _)
    (.withClusterMem (Memory.clear_wf hlapsed.clusterMem _ _) hlapsed))

/-! ## Machine/Regs -/

theorem State.Canonical.writeCworld {i v} (h : s.Canonical) : (s.writeCworld i v).Canonical :=
  .ite h (.same (by rfl) h)

theorem State.Canonical.writeCsworld {d v} (h : s.Canonical) : (s.writeCsworld d v).Canonical :=
  .ite h (.same (by rfl) h)

theorem State.Canonical.requestInval {secure v} (h : s.Canonical) : (s.requestInval secure v).Canonical :=
  .ite h (.mapWorld h)

theorem State.Canonical.finishInval {secure} (h : s.Canonical) : (s.finishInval secure).Canonical := by
  unfold State.finishInval
  split
  · exact h
  · exact .ite h (.mapWorld (.same (by rfl) h))

theorem State.Canonical.dropView {r} (h : s.Canonical) : (s.dropView r).Canonical :=
  .same (by rfl) (.foldl (fun _ h => .ite (.mapCluster h) h) h)

theorem State.Canonical.writeAssay {secure i j v} (h : s.Canonical) : (s.writeAssay secure i j v).Canonical :=
  .ite h (.dropView (.dropView (.same (by rfl) h)))

theorem State.Canonical.writeFrtail {secure v} (h : s.Canonical) : (s.writeFrtail secure v).Canonical :=
  .ite h (.mapWorld h)

theorem State.Canonical.writeTrtail {secure d v} (h : s.Canonical) : (s.writeTrtail secure d v).Canonical :=
  .ite h (.mapWorld h)

theorem State.Canonical.writeHcsize {v} (h : s.Canonical) : (s.writeHcsize v).Canonical :=
  .ite h (.same (by rfl) h)

theorem State.Canonical.writeTrace {secure d i v} (h : s.Canonical) : (s.writeTrace secure d i v).Canonical := by
  unfold State.writeTrace
  extract_lets
  split
  · exact .mapWorld h
  · exact .mapWorld h
  · exact .writeTrtail h
  · exact h

theorem State.Canonical.writeQueue {q i v} (h : s.Canonical) : (s.writeQueue q i v).Canonical := by
  unfold State.writeQueue
  split
  · exact .decision (.qsub h)
  · exact .decision (.writeTickets h)
  · exact .ite h (.mapQueue h)
  · exact .decision (.writeControl h)
  · exact h

theorem State.Canonical.writeWorld {secure off v} (h : s.Canonical) : (s.writeWorld secure off v).Canonical := by
  unfold State.writeWorld
  extract_lets
  split
  · exact .mapWorld h
  · exact .requestInval h
  · exact .mapWorld h
  · exact .mapWorld h
  · exact .mapWorld h
  · exact .writeFrtail h
  · exact .replayWrite h
  · exact .mapWorld h
  · exact .mapWorld h
  · exact .mapWorld h
  · exact .mapWorld h
  · exact .killWrite h
  · exact .ite h (.mapWorld h)
  · exact .ite h (.mapWorld h)
  · exact h

theorem State.Canonical.writePart {off v} (h : s.Canonical) : (s.writePart off v).Canonical := by
  unfold State.writePart
  split
  · exact .writeHcsize h
  · exact .same (by rfl) h
  · exact .same (by rfl) h
  · extract_lets
    exact .ite (.limit (.same (by rfl) h)) h
  · exact .same (by rfl) h
  · exact .ite (.same (by rfl) h) h

theorem State.Canonical.writeSecure {off v} (h : s.Canonical) : (s.writeSecure off v).Canonical :=
  .ite (.writeCworld h) (.ite (.writeCsworld h) (.ite (.same (by rfl) h) h))

theorem State.Canonical.barWrite {secure off v} (h : s.Canonical) : (s.barWrite secure off v).Canonical := by
  unfold State.barWrite
  split
  · exact .writeQueue h
  · exact .ite h
        (.ite (.writeAssay h) (.ite (.writeTrace h) (.ite (.writeWorld h) (.ite (.writeSecure h) (.writePart h)))))

theorem State.Canonical.barAccess {secure off size v} (h : s.Canonical) :
    (s.barAccess secure off size v).Canonical := by
  refine .ite (.barWrite h) ?_
  split
  · exact .mapQueue h
  · exact h

/-! ## Machine/Bridge -/

theorem State.Canonical.writeHost {line data mask} (h : s.Canonical) : (s.writeHost line data mask).Canonical := by
  refine .withHost (Memory.foldl_wf (fun _ hm => ?_) h.host) h
  split
  · exact Memory.write_wf hm _ _
  · exact hm

theorem State.Canonical.writeHostLine {line data} (h : s.Canonical) : (s.writeHostLine line data).Canonical :=
  .writeHost h

theorem State.Canonical.takeFill {line} (h : s.Canonical) : (s.takeFill line).Canonical := .same (by rfl) h

theorem State.Canonical.snoopInv {line keep} (h : s.Canonical) : (s.snoopInv line keep).Canonical := by
  unfold State.snoopInv
  split
  · exact .emit (.takeFill h)
  · extract_lets
    exact .raiseHmts (.takeFill (.same (by rfl) (.ite (.emit h) (.ite (.emit (.writeHostLine h)) (.emit h)))))

theorem lands_execSnpinv {pa w keep} (h : s.Canonical) : Lands (execSnpinv pa w keep s) := by
  refine lands_modify (fun s h => ?_) h
  dsimp only
  split
  · exact .writeHost (.snoopInv h)
  · exact .snoopInv h

theorem State.Canonical.snoopData {line} (h : s.Canonical) : (s.snoopData line).Canonical := by
  refine .ite (.snoopInv h) ?_
  split
  · exact .emit h
  · extract_lets
    exact .same (by rfl) (.ite (.emit (.writeHostLine h)) (.emit h))

theorem State.Canonical.snoopCur {line} (h : s.Canonical) : (s.snoopCur line).Canonical := by
  unfold State.snoopCur
  split
  · exact .ite (.emit h) h
  · exact h

theorem State.Canonical.roomForHost {line} (h : s.Canonical) : (s.roomForHost line).Canonical := by
  refine .ite h ?_
  split
  · exact h
  · extract_lets
    exact .raiseHmts (.dropHostLine (.ite (.emit (.writeHostLine h)) (.emit h)))

theorem State.Canonical.answer {line data w} (h : s.Canonical) : (s.answer line data w).Canonical := by
  refine .raiseHmts ?_
  split
  · exact .mapCtx h
  · exact .same (by rfl) h

theorem State.Canonical.hostAnswer {line exclusive} (h : s.Canonical) : (s.hostAnswer line exclusive).Canonical := by
  unfold State.hostAnswer
  split
  · exact h
  · extract_lets data s₁ s₂
    have h₁ : s₁.Canonical := .same (by rfl) h
    refine .ite (.foldl (fun _ h => .answer h) h₁) (.ite h₁ (.assign (.setHostLine ?_)))
    unfold s₂
    split
    · exact .raiseHmts h₁
    · exact .roomForHost h₁

theorem State.Canonical.acked {c} (h : s.Canonical) : (s.acked c).Canonical := .mapCtx h

theorem State.Canonical.releaseEntry {line} (h : s.Canonical) : (s.releaseEntry line).Canonical := by
  unfold State.releaseEntry
  split
  · exact h
  · extract_lets
    exact .foldl (fun _ h => .acked h) (.same (by rfl) (.writeHost h))

theorem State.Canonical.storeBytes {inval n pa l} (h : s.Canonical) : (s.storeBytes inval n pa l).Canonical := by
  induction n generalizing s pa l with
  | zero => exact h
  | succ _ ih => exact .ite h (ih (.storeHome h))

theorem State.Canonical.hostWrite {pa bytes} (h : s.Canonical) : (s.hostWrite pa bytes).Canonical :=
  .emit (.ite (.storeBytes h) h)

theorem State.Canonical.hostRead {pa n} (h : s.Canonical) : (s.hostRead pa n).Canonical :=
  .ite (.ite (.same (by rfl) h) (.emit h)) (.emit h)

theorem State.Canonical.backData {line data} (h : s.Canonical) : (s.backData line data).Canonical :=
  .ite (.same (by rfl) (.ite h (.storeHome h))) h

theorem State.Canonical.backAck {line} (h : s.Canonical) : (s.backAck line).Canonical := by
  unfold State.backAck
  split
  · exact h
  · exact .foldl (fun _ h => .acked h) (.same (by rfl) h)

theorem State.Canonical.reply {node addr v n data} (h : s.Canonical) : (s.reply node addr v n data).Canonical :=
  .sendFlit h

theorem State.Canonical.peerWrite {src pa n data} (h : s.Canonical) : (s.peerWrite src pa n data).Canonical :=
  .ite (.reply (.storeBytes h)) (.reply h)

theorem keeps_peerRead {src pa n} : Keeps (peerRead src pa n) :=
  .get fun _ _ => .ite (.bind keeps_readOwnedAll fun _ => .modify fun _ h => .reply h) (.modify fun _ h => .reply h)

theorem State.Canonical.peerMessage {src p l msg} (h : s.Canonical) : (s.peerMessage src p l msg).Canonical :=
  .ite (.reply (.same (by rfl) h)) (.ite h (.reply (.appendMessage h)))

theorem State.Canonical.failPeer {p q id code link addr} (h : s.Canonical) :
    (s.failPeer p q id code link addr).Canonical :=
  .mapCopy h

theorem keeps_peerData {p q f data} : Keeps (peerData p q f data) := by
  refine .get fun s h => ?_
  split
  · exact .pure
  · extract_lets
    split
    · split
      · exact .ite (.bind keeps_writePart fun _ => .modify fun _ h => .mapCopy h) .pure
      · exact .pure
    · exact .pure

theorem State.Canonical.messageOver {f lost} (h : s.Canonical) : (s.messageOver f lost).Canonical :=
  .ite (.same (by rfl) (.acked (c := f.sender) h)) (.acked h)

theorem keeps_fabricAck {i v data} : Keeps (fabricAck i v data) := by
  refine .get fun s h => ?_
  split
  · exact .pure
  · extract_lets gone
    have hgone {u : State} (h : u.Canonical) : (gone u).Canonical := .same (by rfl) h
    split
    · exact .set (.messageOver (hgone h))
    · split
      · exact .set (hgone (Keeps.run_ok keeps_peerData h (by assumption)))
      · exact .set (hgone (.failPeer (Keeps.run_error keeps_peerData h (by assumption))))
      · exact .bind (.set (Keeps.run_error keeps_peerData h (by assumption))) fun _ => .throw
    · exact .set (hgone (.failPeer h))
    · exact .set (hgone (.failPeer h))

theorem State.Canonical.linkDown {link} (h : s.Canonical) : (s.linkDown link).Canonical := by
  refine .foldl (fun f h => ?_) (.same (by rfl) h)
  split
  · exact .messageOver h
  · exact .failPeer h

/-! ## Machine/Fp -/

theorem lands_fpWrite {p d f} (h : s.Canonical) : Lands (fpWrite p d f s) :=
  lands_plain (keeps_doing fun _ h => .addFlags (.setX h)) h

theorem keeps_checkCvt {c} : Keeps (checkCvt c) := .when keeps_fail fun _ => .ite keeps_fail .pure

theorem lands_execFcvt {p rm c d a} (h : s.Canonical) : Lands (execFcvt p rm c d a s) :=
  lands_perform (.bind keeps_checkCvt fun _ => keeps_under (keeps_doing fun _ h => .addFlags (.setX h))) h

/-! ## Machine/Internal -/

theorem State.Canonical.replyTo {c store} (h : s.Canonical) : (s.replyTo c store).Canonical := by
  unfold State.replyTo
  split
  · exact .ite (.assign (.mapCtx h)) h
  · exact h

theorem State.Canonical.fillTlb {w e} (h : s.Canonical) : (s.fillTlb w e).Canonical := .same (by rfl) h

theorem State.Canonical.walked {i w r} (h : s.Canonical) : (s.walked i w r).Canonical := by
  unfold State.walked
  extract_lets
  split
  · exact .fillTlb (.same (by rfl) h)
  · exact .ite (.mapCtx (.same (by rfl) h)) (.same (by rfl) h)

theorem keeps_walkDone {i} : Keeps (walkDone i) := by
  refine .get fun s h => ?_
  split
  · exact .pure
  · split
    · exact .set (.walked (Keeps.run_ok keeps_readSources h (by assumption)))
    · exact .set (.walked (Keeps.run_error keeps_readSources h (by assumption)))
    · exact .bind (.set (Keeps.run_error keeps_readSources h (by assumption))) fun _ => .throw

theorem keeps_refetchLine {c line} : Keeps (refetchLine c line) := by
  refine .get fun s h => ?_
  extract_lets +onlyGivenNames _ _ jp
  have hjp : ∀ u, Keeps (jp u) := by
    intro u
    unfold jp
    refine .bind keeps_placeOf fun _ => ?_
    split
    · extract_lets +onlyGivenNames jp
      have hjp : ∀ u, Keeps (jp u) := fun _ =>
        .bind (.modify fun _ h => .assign (.mapCtx (.renew h))) fun _ => .get fun s h => .pure
      clear_value jp
      exact .ite (.bind keeps_readOwned fun _ => .bind keeps_readyFill fun _ => hjp _)
          (.bind keeps_meetError fun _ => hjp _)
    · exact keeps_fail
  clear_value jp
  split
  · exact .bind .pure fun _ => hjp _
  · exact .bind keeps_translateNow fun _ => hjp _

theorem State.Canonical.refetched {c} (h : s.Canonical) : (s.refetched c).Canonical := by
  unfold State.refetched
  split
  · refine .ite h ?_
    split
    · have hs := keeps_refetchLine.run_ok h (by assumption)
      exact .ite (.mapCtx (.logError hs)) (.mapCtx hs)
    · exact .mapCtx (keeps_refetchLine.run_error h (by assumption))
    · exact keeps_refetchLine.run_error h (by assumption)
  · exact h

theorem State.Canonical.groupArrives {c} (h : s.Canonical) : (s.groupArrives c).Canonical := by
  unfold State.groupArrives
  split
  · exact h
  · refine .ite h ?_
    extract_lets
    split
    · exact h
    · exact .ite (.same (by rfl) h) (.ite (.mapCtx (.same (by rfl) h)) (.mapCtx (.same (by rfl) h)))
    · exact .same (by rfl) h

theorem State.Canonical.followJoin {c} (h : s.Canonical) : (s.followJoin c).Canonical := by
  unfold State.followJoin
  split
  · extract_lets
    split
    · exact .ite (.retire (.mapMe (.same (by rfl) h))) (.retire (.mapMe (.same (by rfl) h)))
    · exact .ite (.retire (.mapMe (.same (by rfl) h))) h
  · exact h

theorem State.Canonical.noticeLine {secure n p l} {t : State} (h : s.Canonical)
    (e : s.noticeLine secure n p l = some t) : t.Canonical := by
  unfold State.noticeLine at e
  dsimp only at e
  split at e
  · cases e
    exact h
  · split at e
    · split at e
      · cases e
      · cases e
        exact .appendMessage h
    · cases e
      exact h
    · cases e
      exact .actLine h

theorem State.Canonical.notify {secure n} {t : State} (h : s.Canonical) (e : s.notify secure n = some t) :
    t.Canonical := by
  unfold State.notify at e
  extract_lets at e
  split at e
  · cases e
  · split at e
    · cases e
      exact .emit h
    · exact .noticeLine h e

theorem State.Canonical.countFault {secure id} (h : s.Canonical) : (s.countFault secure id).Canonical :=
  .same (by rfl) h

theorem keeps_writeRecord {secure} : Keeps (writeRecord secure) := by
  refine .get fun s h => ?_
  dsimp only
  split
  · exact .pure
  · refine .ite .pure (.set (.countFault (.mapWorld ?_)))
    split
    · exact h
    · split
      · exact .storeHostHome h
      · exact .storeHome h

theorem keeps_faultRecordWrite {secure} : Keeps (faultRecordWrite secure) := by
  refine .get fun s h => ?_
  split
  · exact keeps_writeRecord
  · split
    · exact .set (.mapWorld (.notify h (by assumption)))
    · exact keeps_writeRecord

/-! ## Machine/Manage -/

theorem State.Canonical.dumpSlot {k} (h : s.Canonical) : (s.dumpSlot k).Canonical := by
  unfold State.dumpSlot
  split
  · exact h
  · split
    · extract_lets
      exact .same (by rfl) h

theorem lands_execPowerLimit {w} (h : s.Canonical) : Lands (execPowerLimit w s) := by
  refine lands_modify (fun _ h => ?_) h
  split
  · exact .emit h
  · exact .writePart h

theorem State.Canonical.conventionalReset (h : s.Canonical) : s.conventionalReset.Canonical :=
  .limit (.same (by rfl) (.withHost h.host .reset))

/-! ## Machine/Memory -/

theorem lands_execLd {p sx sz d a b sh imm} (h : s.Canonical) : Lands (execLd p sx sz d a b sh imm s) :=
  lands_guarded (.get fun _ _ => .bind keeps_loadElem fun _ => .bind (.modify fun _ h => .setX h) fun _ => .pure) h

theorem lands_execSt {p sz a b c sh imm} (h : s.Canonical) : Lands (execSt p sz a b c sh imm s) :=
  lands_guarded (.get fun _ _ => .bind keeps_storeElem fun _ => .pure) h

theorem keeps_placeLanes {check l} (hcheck : ∀ a, Keeps (check a)) : Keeps (placeLanes check l) := by
  induction l with
  | nil => exact .pure
  | cons _ _ ih => exact .bind (hcheck _) fun _ => .bind ih fun _ => .pure

theorem keeps_readyLanes {t acc n pts l} : Keeps (readyLanes t acc n pts l) := by
  induction l with
  | nil => exact .pure
  | cons _ _ ih => exact .bind keeps_readyUnit fun _ => ih

theorem keeps_loadLanes {t acc n l g} : Keeps (loadLanes t acc n l g) := by
  induction l generalizing g with
  | nil => exact .pure
  | cons _ _ ih =>
    exact .ite ih (.bind keeps_readyUnit fun _ => .bind keeps_loadUnit fun _ =>
      .bind (.modify fun _ h => .same (by rfl) h) fun _ => ih)

theorem keeps_storeLanes {t n v l pts} : Keeps (storeLanes t n v l pts) := by
  induction l generalizing pts with
  | nil => exact .pure
  | cons _ _ ih => exact .bind keeps_storeUnit fun _ => ih

theorem keeps_vecLoad {v d check lanes} (hcheck : ∀ a, Keeps (check a)) : Keeps (vecLoad v d check lanes) :=
  .get fun _ _ => .bind (keeps_placeLanes hcheck) fun _ => .bind keeps_loadLanes fun _ =>
    .bind (.modify fun _ h => .same (by rfl) h) fun _ => .pure

theorem keeps_vecStore {v c check lanes} (hcheck : ∀ a, Keeps (check a)) : Keeps (vecStore v c check lanes) :=
  .get fun _ _ => .bind (keeps_placeLanes hcheck) fun _ => .bind keeps_readyLanes fun _ =>
    .bind keeps_storeLanes fun _ => .bind (.modify fun _ h => .same (by rfl) h) fun _ => .pure

theorem keeps_checkLoad {n va} : Keeps (checkLoad n va) := .get fun _ _ => keeps_locateLoad

theorem keeps_checkStore {n va} : Keeps (checkStore n va) := .get fun _ _ => keeps_locateStore

theorem lands_execLdv {p v d a imm} (h : s.Canonical) : Lands (execLdv p v d a imm s) :=
  lands_guardedV (.get fun _ _ => .ite .pure (.when keeps_fail fun _ => keeps_vecLoad fun _ => keeps_checkLoad)) h

theorem lands_execLdvs {p v d a b imm} (h : s.Canonical) : Lands (execLdvs p v d a b imm s) :=
  lands_guardedV (.get fun _ _ => .ite .pure (keeps_vecLoad fun _ => keeps_checkLoad)) h

theorem lands_execLdg {p v u d a b sh imm} (h : s.Canonical) : Lands (execLdg p v u d a b sh imm s) :=
  lands_guardedV (.get fun _ _ => .ite .pure (keeps_vecLoad fun _ => keeps_checkLoad)) h

theorem keeps_storeHalf {t v c ps h pts} : Keeps (storeHalf t v c ps h pts) := by
  unfold storeHalf
  dsimp only
  split
  · exact .ite keeps_storeUnit keeps_storeLanes
  · exact keeps_storeLanes

theorem lands_execStv {p v a c imm} (h : s.Canonical) : Lands (execStv p v a c imm s) :=
  lands_guardedV
    (.get fun _ _ => .ite .pure (.when keeps_fail fun _ => .bind (keeps_placeLanes fun _ => keeps_checkStore)
    fun _ => .bind keeps_readyLanes fun _ => .bind keeps_storeHalf fun _ => .bind keeps_storeHalf fun _ =>
    .bind (.modify fun _ h => .returned h) fun _ => .pure)) h

theorem lands_execStvs {p v a b c imm} (h : s.Canonical) : Lands (execStvs p v a b c imm s) :=
  lands_guardedV (.get fun _ _ => .ite .pure (keeps_vecStore fun _ => keeps_checkStore)) h

theorem lands_execSts {p v u a b c sh imm} (h : s.Canonical) : Lands (execSts p v u a b c sh imm s) :=
  lands_guardedV (.get fun _ _ => .ite .pure (keeps_vecStore fun _ => keeps_checkStore)) h

theorem keeps_checkSlice {acc l o} : Keeps (checkSlice acc l o) := by
  unfold checkSlice
  exact .when keeps_fail fun _ => .get fun _ _ => .pure

theorem keeps_placeSlices {acc l} : Keeps (placeSlices acc l) := by
  induction l with
  | nil => exact .pure
  | cons _ _ ih => exact .bind keeps_checkSlice fun _ => .bind ih fun _ => .pure

theorem lands_execLdl {p d a b imm} (h : s.Canonical) : Lands (execLdl p d a b imm s) :=
  lands_guardedV (.get fun _ _ => .bind keeps_placeSlices fun _ => .ite .pure (.bind keeps_loadLanes fun _ =>
    .bind (.modify fun _ h => .returned (.addFlags (.setV h))) fun _ => .pure)) h

theorem lands_execStl {p a b c imm} (h : s.Canonical) : Lands (execStl p a b c imm s) :=
  lands_guardedV (.get fun _ _ => .bind keeps_placeSlices fun _ => .ite .pure (.bind keeps_readyLanes fun _ =>
    .bind keeps_storeLanes fun _ => .bind (.modify fun _ h => .returned h) fun _ => .pure)) h

theorem State.Canonical.prefetch {l2 va} (h : s.Canonical) : (s.prefetch l2 va).Canonical := by
  unfold State.prefetch
  extract_lets
  split
  · refine .renew (Keeps.run_ok (.bind keeps_locate fun _ => ?_) h (by assumption))
    split
    · exact .bind keeps_readyLine fun _ => .pure
    · exact keeps_fail
  · exact h

theorem lands_execPref {p l2 a n imm} (h : s.Canonical) : Lands (execPref p l2 a n imm s) :=
  lands_guarded (keeps_doing fun _ h => .foldl (fun _ h => .prefetch h) h) h

/-! ## Machine/Purse -/

theorem keeps_locateCell {need va} : Keeps (locateCell need va) := by
  unfold locateCell
  refine .when keeps_fail fun _ => .when keeps_fail fun _ => .get fun _ _ => .bind keeps_locate fun _ => ?_
  split
  · exact .get fun _ _ => .when keeps_fail fun _ => .pure
  · exact keeps_fail

theorem State.Canonical.post {at_ op} (h : s.Canonical) : (s.post at_ op).Canonical := .same (by rfl) h

theorem lands_execPadd {p v a c imm} (h : s.Canonical) : Lands (execPadd p v a c imm s) :=
  lands_guarded (.get fun _ _ => .bind keeps_locateCell fun _ => keeps_doing fun _ h => .post h) h

theorem keeps_locateCells {l} : Keeps (locateCells l) := by
  induction l with
  | nil => exact .pure
  | cons _ _ ih => exact .bind keeps_locateCell fun _ => .bind ih fun _ => .pure

theorem lands_execPaddv {p v u a b c sh imm} (h : s.Canonical) : Lands (execPaddv p v u a b c sh imm s) :=
  lands_guardedV
    (.get fun _ _ => .bind keeps_locateCells fun _ => keeps_doing fun _ h => .foldl (fun _ h => .post h) h) h

theorem lands_execPfence {p} (h : s.Canonical) : Lands (execPfence p s) :=
  lands_guarded (.get fun _ _ => .when keeps_waitFor fun _ => keeps_doing fun _ h => .mapMe h) h

theorem lands_execPclr {p a imm} (h : s.Canonical) : Lands (execPclr p a imm s) :=
  lands_guarded (.get fun _ _ => .bind keeps_locateCell fun _ => keeps_doing fun _ h => .post h) h

theorem lands_execPset {p v a c imm} (h : s.Canonical) : Lands (execPset p v a c imm s) :=
  lands_guarded (.get fun _ _ => .bind keeps_locateCell fun _ => keeps_doing fun _ h => .post h) h

theorem lands_execPraw {p d a imm} (h : s.Canonical) : Lands (execPraw p d a imm s) :=
  lands_guarded
    (.get fun _ _ => .bind keeps_locateCell fun _ => .bind keeps_readyPurse fun _ => .bind keeps_loadCell fun _ =>
    keeps_doing fun _ h => .returned (.setV h)) h

theorem keeps_postFault {o t} : Keeps (postFault o t) := by
  refine .get fun s h => ?_
  split
  · split
    · exact .set (.interrupt h (by assumption))
    · exact keeps_waitFor
  · exact .set (.mapCluster h)

theorem keeps_applyPosted {i} : Keeps (applyPosted i) := by
  refine .get fun s h => ?_
  split
  · exact .pure
  · extract_lets -underBinder line ack jp
    have hack {u : State} {t} (h : u.Canonical) : (ack u t).Canonical := .same (by rfl) h
    have hjp : ∀ u, Keeps (jp u) := by
      intro _
      refine .ite ?_ .pure
      extract_lets -underBinder jp
      have hjp : ∀ u, Keeps (jp u) := fun _ => .get fun _ h => .set (hack (.assign (.setDeposit (.depositTouch h))))
      clear_value jp
      split
      · exact .bind keeps_postFault fun _ => .modify fun _ h => hack h
      · exact .bind .throw hjp
      · exact .bind (.set (Keeps.run_ok keeps_meetPurse h (by assumption))) hjp
    exact .when keeps_waitFor hjp

theorem State.Canonical.purseAck {i} (h : s.Canonical) : (s.purseAck i).Canonical := by
  unfold State.purseAck
  split
  · exact h
  · extract_lets
    split
    · exact .mapCtx (.forkDone (.same (by rfl) h))
    · exact .mapCluster (.forkDone (.same (by rfl) h))

/-! ## Machine/Scalar -/

theorem lands_writeX {p d f} (h : s.Canonical) : Lands (writeX p d f s) :=
  lands_plain (keeps_doing fun _ h => .setX h) h

theorem lands_regOp {p d a b op} (h : s.Canonical) : Lands (regOp p d a b op s) := lands_writeX h

theorem lands_immOp {p d a imm op} (h : s.Canonical) : Lands (immOp p d a imm op s) := lands_writeX h

theorem lands_shiftOp {p d a n op} (h : s.Canonical) : Lands (shiftOp p d a n op s) := lands_writeX h

/-! ## Machine/Tiles -/

theorem lands_execMtt {p t f src} (h : s.Canonical) : Lands (execMtt p t f src s) :=
  lands_guarded (keeps_doing fun _ h => .setT h) h

theorem keeps_checkRow {t store g l} : Keeps (checkRow t store g l) := by
  induction l with
  | nil => exact .pure
  | cons _ _ ih =>
    refine .bind keeps_locateEntry fun _ => ?_
    split
    split
    · exact .bind keeps_fail fun _ => .bind ih fun _ => .pure
    · refine .get fun _ _ =>
        .ite (.when keeps_fail fun _ => .bind ih fun _ => .pure) (.ite ?_ (.bind ih fun _ => .pure))
      split
      · exact .bind keeps_fail fun _ => .bind ih fun _ => .pure
      · exact .bind ih fun _ => .pure
    · exact .bind ih fun _ => .pure

theorem keeps_checkRows {t store n l} : Keeps (checkRows t store n l) := by
  induction l with
  | nil => exact .pure
  | cons _ _ ih => exact .bind keeps_checkRow fun _ => .bind ih fun _ => .pure

theorem lands_execTld {p t a b imm} (h : s.Canonical) : Lands (execTld p t a b imm s) :=
  lands_guarded (.get fun _ _ => .bind keeps_checkTile fun _ => .bind keeps_checkRows fun _ => .get fun _ _ =>
    .when keeps_waitFor fun _ => .bind (.modify fun _ h => .same (by rfl) (.setTags h)) fun _ => .pure) h

theorem State.Canonical.stepCopy {i pts} (h : s.Canonical) : (s.stepCopy i pts).Canonical := .same (by rfl) h

theorem keeps_copyParts {th i c l pts} : Keeps (copyParts th i c l pts) := by
  induction l generalizing pts with
  | nil => exact .pure
  | cons _ _ ih =>
    refine .bind (keeps_readRange fun _ => keeps_locateBy) fun _ =>
      .bind (.modify fun s h => .stepCopy (.withClusterMem ?_ h)) fun _ => ih
    exact TileCopy.put_wf h.clusterMem

theorem keeps_tldCopyDone {i} : Keeps (tldCopyDone i) := by
  refine .get fun s h => ?_
  split
  · exact .pure
  · next c _ =>
    extract_lets gs ended
    have hended {u : State} (h : u.Canonical) : (ended u).Canonical :=
      .same (by rfl) (State.Canonical.dropAnswers (u := .tile c.cluster c.tile.off) h)
    split
    · exact .set (hended (.setTags (.forkDone (.stampStores (Keeps.run_ok keeps_copyParts h (by assumption))))))
    · exact .bind (.set (Keeps.run_error keeps_copyParts h (by assumption))) fun _ => keeps_waitFor
    · have hs := Keeps.run_error keeps_copyParts h (by assumption)
      split
      · exact .set (hended (.interrupt hs (by assumption)))
      · exact .bind (.set hs) fun _ => keeps_waitFor

theorem keeps_readWait {c gs} : Keeps (readWait c gs) :=
  .get fun _ h => .when keeps_waitFor fun _ => .set (.mapMe h)

theorem keeps_rowValue {th find t g v} (hfind : ∀ a, Keeps (find a)) : Keeps (rowValue th find t g v) :=
  .ite .pure (.bind (hfind _) fun _ => .bind keeps_currentByte fun _ => .pure)

theorem keeps_readyTails {th find t l} (hfind : ∀ a, Keeps (find a)) : Keeps (readyTails th find t l) := by
  induction l with
  | nil => exact .pure
  | cons _ _ ih => exact .bind (keeps_rowValue hfind) fun _ => ih

theorem keeps_storeRows {th t addr l pts} : Keeps (storeRows th t addr l pts) := by
  induction l generalizing pts with
  | nil => exact .pure
  | cons _ _ ih =>
    exact .get fun _ _ => .bind (keeps_rowValue fun _ => keeps_locate) fun _ =>
      .bind (keeps_writeRange fun _ => keeps_locate) fun _ => ih

theorem lands_execTst {p t a b imm} (h : s.Canonical) : Lands (execTst p t a b imm s) :=
  lands_guarded
    (.get fun _ _ => .bind keeps_checkTile fun _ => .bind keeps_checkRows fun _ => .bind keeps_readWait fun _ =>
    .bind keeps_meetGranules fun _ => .bind (keeps_readyRange fun _ => keeps_locate) fun _ =>
    .bind (keeps_readyTails fun _ => keeps_locate) fun _ => .get fun _ h => .get fun _ _ =>
    .bind (.set (.stampLoads h)) fun _ =>
    .bind keeps_storeRows fun _ => .bind (.modify fun _ h => .returned h) fun _ => .pure) h

theorem lands_execTwait {p t} (h : s.Canonical) : Lands (execTwait p t s) :=
  lands_guarded (.get fun _ _ => .bind keeps_checkTile fun _ => .bind keeps_readWait fun _ => .pure) h

theorem lands_execTcons {p t} (h : s.Canonical) : Lands (execTcons p t s) :=
  lands_guarded (.get fun _ _ => .bind keeps_checkTile fun _ => .bind keeps_readWait fun _ =>
    .bind (.modify fun _ h => .setTags h) fun _ => .pure) h

/-! ## Machine/Vector -/

theorem lands_vecOp {p v d a b op} (h : s.Canonical) : Lands (vecOp p v d a b op s) :=
  lands_perform (keeps_doing fun _ h => .setV h) h

theorem lands_execVcmp {p cc v d a b} (h : s.Canonical) : Lands (execVcmp p cc v d a b s) :=
  lands_perform (keeps_doing fun _ h => .setM h) h

theorem lands_vecFp {p v d f} (h : s.Canonical) : Lands (vecFp p v d f s) :=
  lands_perform (keeps_doing fun _ h => .addFlags (.setV h)) h

theorem lands_execVfcmp {p cc v d a b} (h : s.Canonical) : Lands (execVfcmp p cc v d a b s) :=
  lands_perform (keeps_doing fun _ h => .addFlags (.setM h)) h

theorem State.Canonical.vfcvt {p rm c d a} (h : s.Canonical) : (s.vfcvt p rm c d a).Canonical :=
  .addFlags (.setV h)

theorem lands_execVfcvt {p rm c d a} (h : s.Canonical) : Lands (execVfcvt p rm c d a s) :=
  lands_perform (.bind keeps_checkCvt fun _ => .when keeps_fail fun _ => keeps_doing fun _ h => .vfcvt h) h

theorem lands_execVsortk {p d c a} (h : s.Canonical) : Lands (execVsortk p d c a s) :=
  lands_perform (keeps_doing fun _ h => .ite h (.setV (.setV h))) h

theorem lands_execVsegadd {p v fl rm d a b} (h : s.Canonical) : Lands (execVsegadd p v fl rm d a b s) :=
  lands_perform (keeps_doing fun _ h => .addFlags (.setV h)) h

theorem lands_execVredi {p v u d a} (h : s.Canonical) : Lands (execVredi p v u d a s) :=
  lands_perform (keeps_doing fun _ h => .ite h (.setX h)) h

theorem lands_execVredf {p v rm d a} (h : s.Canonical) : Lands (execVredf p v rm d a s) :=
  lands_perform (keeps_doing fun _ h => .ite h (.addFlags (.setX h))) h

theorem lands_maskWrite {p d f} (h : s.Canonical) : Lands (maskWrite p d f s) :=
  lands_plain (keeps_doing fun _ h => .setM h) h

/-! ## Machine/Dispatch -/

/-- Whatever an instruction or an event of the part leads to is canonical. -/
theorem lands_exec : Exec.Lands exec := by
  intro i s h
  cases i <;> dsimp only [exec]
  case nop => exact lands_perform .pure h
  case add | sub | and | or | xor | andn | shl | shr | sha | rotl | min | max | minu | maxu | mul | mulh | mulhu |
  div | divu | rem | remu => exact lands_regOp h
  case addi | subImm | andImm | orImm | xorImm | andnImm | minImm | maxImm | minuImm | maxuImm =>
    exact lands_immOp h
  case shlImm | shrImm | shaImm | rotlImm => exact lands_shiftOp h
  case clz | ctz | popc | cmp | sel | movi | lea | extr | insr => exact lands_writeX h
  case br => exact lands_execBr h
  case jmp => exact lands_execJmp h
  case call => exact lands_execCall h
  case ret => exact lands_execRet h
  case jtab | callt => exact lands_plain keeps_tableJump h
  case lpad => exact lands_guarded .pure h
  case mfc => exact lands_execMfc h
  case mtc => exact lands_execMtc h
  case follow => exact lands_execFollow h
  case detach => exact lands_execDetach h
  case rejoin => exact lands_execRejoin h
  case take => exact lands_execTake h
  case launch => exact lands_execLaunch h
  case fadd | fsub | fmul | ffma | fdiv | fsqrt | fmin | fmax | fcmp | fclass => exact lands_fpWrite h
  case fcvt => exact lands_execFcvt h
  case vadd | vsub | vmul | vmulh | vmin | vmax | vand | vor | vxor | vshl | vshr | vsha => exact lands_vecOp h
  case vcmp => exact lands_execVcmp h
  case vfadd | vfsub | vfmul | vffma | vfdiv | vfsqrt | vfmin | vfmax | vexp2 | vrecip | vrsqrt =>
    exact lands_vecFp h
  case vfcmp => exact lands_execVfcmp h
  case vfcvt => exact lands_execVfcvt h
  case vbcast | vinsr | vperm | vslide => exact lands_perform (keeps_doing fun _ h => .setV h) h
  case vextr | mpopc | mfirst | mtox => exact lands_plain (keeps_doing fun _ h => .setX h) h
  case vsortk => exact lands_execVsortk h
  case vsegadd => exact lands_execVsegadd h
  case vredi => exact lands_execVredi h
  case vredf => exact lands_execVredf h
  case mand | mor | mxor | mnot | xtom => exact lands_maskWrite h
  case ld => exact lands_execLd h
  case st => exact lands_execSt h
  case ldv => exact lands_execLdv h
  case ldvs => exact lands_execLdvs h
  case ldg => exact lands_execLdg h
  case stv => exact lands_execStv h
  case stvs => exact lands_execStvs h
  case sts => exact lands_execSts h
  case ldl => exact lands_execLdl h
  case stl => exact lands_execStl h
  case mtt => exact lands_execMtt h
  case mft => exact lands_guarded (keeps_doing fun _ h => .setX h) h
  case tld => exact lands_execTld h
  case tst => exact lands_execTst h
  case twait => exact lands_execTwait h
  case tcons => exact lands_execTcons h
  case pref => exact lands_execPref h
  case mma | mmat => exact lands_guarded keeps_submitDense h
  case mmab => exact lands_execMmab h
  case mmas => exact lands_execMmas h
  case mjpoll => exact lands_execMjpoll h
  case mjwait => exact lands_execMjwait h
  case cpy => exact lands_execCpy h
  case cpy2 => exact lands_execCpy2 h
  case cpyg => exact lands_execCpyg h
  case cpyc => exact lands_execCpyc h
  case cpya => exact lands_execCpya h
  case susp => exact lands_execSusp h
  case suspr => exact lands_execSuspr h
  case mkval => exact lands_execMkval h
  case force => exact lands_execForce h
  case spark => exact lands_execSpark h
  case result => exact lands_execResult h
  case dup => exact lands_execDup h
  case drop => exact lands_execDrop h
  case hstat => exact lands_execHstat h
  case htile => exact lands_execHtile h
  case padd => exact lands_execPadd h
  case paddv => exact lands_execPaddv h
  case pfence => exact lands_execPfence h
  case pclr => exact lands_execPclr h
  case pset => exact lands_execPset h
  case praw => exact lands_execPraw h
  case amoAdd | amoAnd | amoOr | amoXor | amoMin | amoMax | amoMinu | amoMaxu | amoSwap | amonrAdd | amonrAnd |
  amonrOr | amonrXor | amonrMin | amonrMax | amonrMinu | amonrMaxu | amonrSwap => exact lands_amo h
  case cas => exact lands_execCas h
  case fenceSysAcq => exact lands_execFenceSysAcq h
  case fenceSysRel => exact lands_execFenceSysRel h
  case fenceSysFull => exact lands_execFenceSysFull h
  case evld => exact lands_execEvld h
  case evtrig => exact lands_execEvtrig h
  case evtrigConf => exact lands_execEvtrigConf h
  case evmsg => exact lands_execEvmsg h
  case evmsgPeer => exact lands_execEvmsgPeer h
  case bar => exact lands_execBar h
  case settle => exact lands_execSettle h
  case sdone => exact lands_execSdone h
  case send => exact lands_execSend h
  case recv => exact lands_execRecv h
  case confid => exact lands_execConfid h
  case exitk => exact lands_execExitk h
  case kvapp => exact lands_execKvapp h
  case kvappFill => exact lands_guarded keeps_append h
  case kvldWait | kvldMask => exact lands_guarded keeps_loadEntries h
  case arwait => exact lands_execArwait h
  case trap => exact lands_guarded keeps_trapWith h
  case eret => exact lands_execEret h
  case replay => exact lands_execReplay h
  case csave => exact lands_execCsave h
  case crest => exact lands_execCrest h
  case halt | haltRetain => exact lands_guarded keeps_halt h
  case trace => exact lands_execTrace h
  case admission => exact lands_happen keeps_admitNext h
  case placement => exact lands_modify (fun _ h => .placement h) h
  case superstepStart => exact lands_modify (fun _ h => .superstepStart h) h
  case routineStart => exact lands_modify (fun _ h => .routineStart h) h
  case clearingReport => exact lands_modify (fun _ h => .clearingReport h) h
  case superstepEnd => exact lands_modify (fun _ h => .superstepEnd h) h
  case launchCompletion => exact lands_modify (fun _ h => .launchCompletion h) h
  case preemptionTakesEffect => exact lands_modify (fun _ h => .stopLaunch h) h
  case clusterRelease => exact lands_modify (fun _ h => .releaseStopped h) h
  case launchResume => exact lands_happen keeps_resumeLaunch h
  case clusterClearing => exact lands_modify (fun _ h => .clearCluster h) h
  case teardownComplete => exact lands_modify (fun _ h => .teardownComplete h) h
  case tlbInvalidationDone => exact lands_modify (fun _ h => .finishInval h) h
  case lineRefetch => exact lands_modify (fun _ h => .refetched h) h
  case rollGroupArrival => exact lands_modify (fun _ h => .groupArrives h) h
  case followJoin => exact lands_modify (fun _ h => .followJoin h) h
  case renewalReply | storeReply => exact lands_modify (fun _ h => .replyTo h) h
  case l2WritebackDone | supersededCopyDrop | depositCacheWritebackDone | linkUp | ptpLock | handleStoreDump | ready
    =>
    exact lands_modify (fun _ h => .same (by rfl) h) h
  case tldCopyDone => exact lands_happen keeps_tldCopyDone h
  case jobStart => exact lands_happen keeps_jobStart h
  case jobDone => exact lands_happen (keeps_jobDone fun _ _ _ => keeps_jobWork) h
  case jobFault => exact lands_happen (keeps_jobFault fun _ _ _ => keeps_jobWork) h
  case tellerOperation => exact lands_execTellerOperation h
  case evaluationComplete => exact lands_modify (fun _ h => .evaluationComplete h) h
  case sparkStart => exact lands_modify (fun _ h => .sparkStart h) h
  case remoteDrop => exact lands_modify (fun _ h => .remoteDrop h) h
  case arrearsSpark => exact lands_modify (fun _ h => .arrearsSpark h) h
  case postedOperationApply => exact lands_happen keeps_applyPosted h
  case purseAck => exact lands_modify (fun _ h => .purseAck h) h
  case episodeRelease => exact lands_modify (fun _ h => .episodeRelease h) h
  case sendArrival => exact lands_modify (fun _ h => .sendArrival h) h
  case slenReached => exact lands_modify (fun _ h => .slenReached h) h
  case faultRecordWrite => exact lands_happen keeps_faultRecordWrite h
  case walkCompletion => exact lands_happen keeps_walkDone h
  case l1CopyDrop => exact lands_modify (fun _ h => .mapCluster h) h
  case ageingSweep => exact lands_modify (fun _ h => .sweep h) h
  case qsub => exact lands_modify (fun _ h => .decision (.qsub h)) h
  case barRegisterWrite => exact lands_modify (fun _ h => .barAccess h) h
  case tickets => exact lands_modify (fun _ h => .decision (.writeTickets h)) h
  case preempt | enable => exact lands_modify (fun _ h => .decision (.writeControl h)) h
  case cworldWrite => exact lands_modify (fun _ h => .writeCworld h) h
  case csworldWrite => exact lands_modify (fun _ h => .writeCsworld h) h
  case tlbInvalidationRequest => exact lands_modify (fun _ h => .requestInval h) h
  case replayRegisterWrite => exact lands_modify (fun _ h => .replayWrite h) h
  case frtail => exact lands_modify (fun _ h => .writeFrtail h) h
  case assayRangeWrite => exact lands_modify (fun _ h => .writeAssay h) h
  case kill => exact lands_modify (fun _ h => .killWrite h) h
  case hcsize => exact lands_modify (fun _ h => .writeHcsize h) h
  case trtail => exact lands_modify (fun _ h => .writeTrtail h) h
  case snpinv => exact lands_execSnpinv h
  case snpdata => exact lands_modify (fun _ h => .snoopData h) h
  case snpcur => exact lands_modify (fun _ h => .snoopCur h) h
  case goS => exact lands_modify (fun _ h => .hostAnswer h) h
  case writeEntryRelease => exact lands_modify (fun _ h => .releaseEntry h) h
  case hostCxlMemWrite => exact lands_modify (fun _ h => .hostWrite h) h
  case hostCxlMemRead => exact lands_modify (fun _ h => .hostRead h) h
  case bisnpdataResponse => exact lands_modify (fun _ h => .backData h) h
  case bisnpinvAck => exact lands_modify (fun _ h => .backAck h) h
  case peerWrite => exact lands_modify (fun _ h => .peerWrite h) h
  case peerEvmsgArrival => exact lands_modify (fun _ h => .peerMessage h) h
  case fabricAck => exact lands_happen keeps_fabricAck h
  case linkFailure => exact lands_modify (fun _ h => .linkDown h) h
  case ptpOffsetCorrection => exact lands_modify (fun _ h => .correctTime h) h
  case throttling | thermalTrip => exact lands_modify (fun _ h => .thermalTrip h) h
  case throttlingEnd => exact lands_modify (fun _ h => .tripNow (.unthrottle h)) h
  case powerLimit => exact lands_execPowerLimit h
  case identity | sensors | errors => exact lands_modify (fun _ h => .emit h) h
  case conventionalReset => exact lands_modify (fun _ h => .conventionalReset h) h
  case selfAdvance => exact lands_modify (fun _ h => .selfAdvance h) h
  case floor => exact lands_modify (fun _ h => .sendFloor h) h
  case ill => exact lands_perform keeps_fail h

/-! ## Machine/Schedule -/

theorem State.Canonical.tick (h : s.Canonical) : s.tick.Canonical := by
  unfold State.tick
  split
  · extract_lets
    exact .foldl (fun _ h => .recheckEpisodes h) (.applyShared (.collide (.same (by rfl) h)))

theorem lands_moveWith {ex m} (hex : ex.Lands) (h : s.Canonical) : Lands (moveWith ex m s) := by
  cases m with
  | issue c => exact lands_issueWith hex h
  | event i => exact .ite (.next h) (hex _ _ h)
  | tick => exact .next (.tick h)
  | copyUnit p q n => exact lands_happen keeps_copyUnit h
  | matrixUnit p q n => exact lands_happen keeps_matrixUnit h
  | peerRead src pa n => exact lands_happen keeps_peerRead h
  | peerWritePart src pa n data => exact lands_happen (.modify fun _ h => .peerWrite h) h
  | dumpSlot k => exact lands_happen (.modify fun _ h => .dumpSlot h) h
  | trip => exact .next (.tripNow h)
  | softError e => exact .next (.same (by rfl) h)

theorem lands_stepWith {ex} (hex : ex.Lands) (h : s.Canonical) : Lands (stepWith ex s) := by
  unfold stepWith
  split
  · exact lands_moveWith hex (.same (by rfl) h)
  · split
    · exact lands_moveWith hex h
    · exact lands_moveWith hex h
    · exact lands_moveWith hex (.same (by rfl) h)

/-! ## Machine/Step -/

theorem lands_step (h : s.Canonical) : Lands (step s) := lands_stepWith lands_exec h

end

/-- Settles O58: the form is kept by every function that the step is made of, down to each write of a byte. -/
theorem memoryStaysCanonical : Obligations.MemoryStaysCanonical := by
  unfold Obligations.MemoryStaysCanonical
  intro s t h e
  exact lands_step h t e

end Sys2Proof.Machine
end

section
/-! What instructions leave as it was (R21, R95, R96, R122, R141, R167, R320, R321).

First what an instruction whose predicate fails does. Then what each class of instructions that change registers of their
own context can lead to: one lemma for each class says every next state (`<class>_next`), and the frame of the class follows
from the frames of the writes in it. In a proof about a class, `cases hd` keeps the instructions of the class alone: for
every other one the class names no register. -/

namespace Sys2Proof.Machine

/-! ## A predicate that fails -/

/-- The predicate is looked at before the effect: where it fails, an instruction that passes its check only moves on. -/
theorem perform_under_false {p : Pred} {check : Eff Unit} {e : Eff Next} {s : State} (hc : check.run s = .ok ⟨⟩ s)
    (h : s.holds p = false) : perform (check >>= fun _ => under p e) s = .next (s.retire .seq) :=
  perform_ok (by rw [Eff.run_bind_ok hc, under_run, if_neg (by simp [h])]) (State.floor_ok rfl rfl)

theorem replied_ok {s : State} (h : s.me.reply = none) : replied.run s = .ok ⟨⟩ s := by simp [h]

theorem inPhase_ok {s : State} (n : BitVec 16) (h : s.me.inSettlement = true) : (inPhase n).run s = .ok ⟨⟩ s := by
  simp [inPhase, h]

/-- The two checks of every guarded instruction, of `BAR` and of `SETTLE` pass in a ready context (R277, R320). -/
theorem perform_ready_false {fa : Word} {p : Pred} {e : Eff Next} {s : State} (hs : s.Ready) (h : s.holds p = false) :
    perform (do noSettlement fa; replied; under p e) s = .next (s.retire .seq) := by
  obtain ⟨hset, hrep⟩ := hs
  have hrun : (noSettlement fa).run s = .ok ⟨⟩ s := by simp [hset]
  rw [← perform_under_false (e := e) (replied_ok hrep) h]
  simp only [perform, Eff.run_bind_ok hrun]

/-- An instruction of class L or X whose predicate fails only moves on. `MFC` and `TRACE` may run in a settlement phase,
`SDONE` checks nothing before its predicate, and all others make both checks first. -/
theorem exec_of_guard_false {i : Instr} {p : Pred} {s : State} (hg : guardOf i = some p) (hs : s.Ready)
    (hp : s.holds p = false) : exec i s = .next (s.retire .seq) := by
  cases i
  case mfc | trace =>
    cases hg
    exact perform_under_false (replied_ok hs.2) hp
  case sdone =>
    cases hg
    exact plain_false hp
  all_goals cases hg -- leaves the guarded instructions, `BAR` and `SETTLE`
  all_goals exact perform_ready_false hs hp

theorem failingPredicates : FailingPredicates :=
  ⟨fun _ _ _ hg hs hp => exec_of_guard_false hg hs hp, fun _ _ hp => plain_false hp,
    fun _ _ _ _ _ _ slot _ hs hp =>
      ⟨perform_under_false (inPhase_ok slot hs) hp, perform_under_false (inPhase_ok slot hs) hp⟩⟩

/-! ## Frames of changes -/

theorem State.RegisterFrame.mono_v {s t : State} {xs ms ts fl} {vs vs' : List VReg} (h : s.RegisterFrame t xs vs ms ts fl)
    (hv : vs ⊆ vs') : s.RegisterFrame t xs vs' ms ts fl :=
  { h with registers := { h.registers with v := fun r hr => h.registers.v r fun m => hr (hv m) } }

/-- Going on to another slot adds nothing to a frame. -/
theorem State.RegisterFrame.retire {s t : State} {xs vs ms ts fl} (n : Next) (h : s.RegisterFrame t xs vs ms ts fl) :
    s.RegisterFrame (t.retire n) xs vs ms ts fl :=
  h.trans (State.frame_retire t n xs vs ms ts fl)

theorem State.frame_waits (s : State) (w : Wait) (xs vs ms ts) (fl : Bool) :
    s.RegisterFrame (s.waits w) xs vs ms ts fl :=
  State.frame_mapMe (.of_regs (by rfl) _ _ _ _) (fun _ => rfl) rfl rfl rfl

/-- The frame of an instruction that sets flags: FFLAGS may change, but a flag once set stays set (R96). -/
structure State.FlagFrame (s t : State) (xs : List XReg) (vs : List VReg) (ms : List MReg) : Prop where
  frame : s.RegisterFrame t xs vs ms [] true
  sticky : s.me.fflags &&& t.me.fflags = s.me.fflags

/-- A frame that excepts no flag keeps those that were set. -/
theorem State.RegisterFrame.flagFrame {s t : State} {xs vs ms} (h : s.RegisterFrame t xs vs ms [] false) :
    s.FlagFrame t xs vs ms :=
  ⟨{ h with fflags := fun e => by cases e }, by rw [h.fflags rfl, BitVec.and_self]⟩

theorem State.RegisterFrame.addFlags {s t : State} {xs vs ms} (f : Flags) (h : s.RegisterFrame t xs vs ms [] false) :
    s.FlagFrame (t.addFlags f) xs vs ms := by
  refine ⟨h.flagFrame.frame.trans (State.frame_addFlags t f xs vs ms []), ?_⟩
  rw [State.me_addFlags, h.fflags rfl]
  ext k
  rw [BitVec.getElem_and, BitVec.getElem_or]
  exact inf_sup_self

theorem State.FlagFrame.retire {s t : State} {xs vs ms} (n : Next) (h : s.FlagFrame t xs vs ms) :
    s.FlagFrame (t.retire n) xs vs ms := by
  have hr := State.frame_retire t n xs vs ms [] false
  exact ⟨h.frame.retire n, by rw [hr.fflags rfl, h.sticky]⟩

/-! ## What an effect on registers alone leads to -/

/-- An effect that no predicate holds back, as those that look at theirs element by element. -/
theorem perform_doing {f : State → State} {s : State} (hh : (f s).high = s.high) (hf : (f s).floor = s.floor) :
    perform (doing f) s = .next ((f s).retire .seq) :=
  perform_ok (doing_run f s) (State.floor_ok hh hf)

theorem perform_doing_next {f : State → State} {s t : State} (hh : (f s).high = s.high) (hf : (f s).floor = s.floor)
    (h : perform (doing f) s = .next t) : t = (f s).retire .seq := by
  rw [perform_doing hh hf] at h
  cases h
  rfl

/-- An instruction under its predicate whose effect completes goes where its effect says, or to the next slot. -/
theorem plain_next {p : Pred} {e : Eff Next} {s t u : State} {n : Next} (he : e.run s = .ok n u) (hh : u.high = s.high)
    (hf : u.floor = s.floor) (h : plain p e s = .next t) : t = u.retire n ∨ t = s.retire .seq := by
  cases hp : s.holds p with
  | true =>
    rw [plain_true hp he (State.floor_ok hh hf)] at h
    cases h
    exact .inl rfl
  | false =>
    rw [plain_false hp] at h
    cases h
    exact .inr rfl

theorem plain_doing_next {p : Pred} {f : State → State} {s t : State} (hh : (f s).high = s.high)
    (hf : (f s).floor = s.floor) (h : plain p (doing f) s = .next t) : t = (f s).retire .seq ∨ t = s.retire .seq :=
  plain_next (doing_run f s) hh hf h

theorem plain_setX_next {p : Pred} {d : XReg} {f : State → Word} {s t : State}
    (h : plain p (doing fun s => s.setX d (f s)) s = .next t) :
    (∃ w, t = (s.setX d w).retire .seq) ∨ t = s.retire .seq :=
  (plain_doing_next (by simp) (by simp) h).imp_left fun e => ⟨_, e⟩

theorem perform_setV_next {d : VReg} {f : State → Vec} {s t : State}
    (h : perform (doing fun s => s.setV d (f s)) s = .next t) : ∃ w, t = (s.setV d w).retire .seq :=
  ⟨_, perform_doing_next (by rfl) (by rfl) h⟩

theorem vecOp_next {p : Pred} {v : View} {d a : VReg} {b : VOp} {op : Nat → Nat → Nat} {s t : State}
    (h : vecOp p v d a b op s = .next t) : ∃ w, t = (s.setV d w).retire .seq :=
  ⟨_, perform_doing_next (by rfl) (by rfl) h⟩

theorem vecFp_next {p : Pred} {v : View} {d : VReg} {f : State → Nat → Nat × Flags} {s t : State}
    (h : vecFp p v d f s = .next t) : ∃ w fl, t = ((s.setV d w).addFlags fl).retire .seq :=
  ⟨_, _, perform_doing_next (by rfl) (by rfl) h⟩

theorem maskWrite_next {p : Pred} {d : MReg} {f : State → Mask} {s t : State} (h : maskWrite p d f s = .next t) :
    (∃ m, t = (s.setM d m).retire .seq) ∨ t = s.retire .seq :=
  (plain_doing_next (by rfl) (by rfl) h).imp_left fun e => ⟨_, e⟩

theorem fpWrite_next {p : Pred} {d : XReg} {f : State → Nat × Flags} {s t : State} (h : fpWrite p d f s = .next t) :
    (∃ w fl, t = ((s.setX d w).addFlags fl).retire .seq) ∨ t = s.retire .seq :=
  (plain_doing_next (by simp) (by simp) h).imp_left fun e => ⟨_, _, e⟩

/-! ## Scalar destinations -/

/-- `MFC` writes x[D], moves on, or waits for the last reply (R156, R328). -/
theorem execMfc_next {p : Pred} {d : XReg} {r : CReg} {s t : State} (h : execMfc p d r s = .next t) :
    (∃ w, t = (s.setX d w).retire .seq) ∨ t = s.retire .seq ∨ t = s.waits .access := by
  unfold execMfc at h
  cases hr : s.me.reply with
  | some x =>
    rw [perform_wait (s' := s) (w := .access) (Eff.run_bind_error (by simp [hr])) (State.floor_ok rfl rfl)] at h
    cases h
    exact .inr (.inr rfl)
  | none =>
    have he := Eff.run_bind_ok (f := fun _ => under p (doing fun s => s.setX d (s.readReg s.active r))) (replied_ok hr)
    simp only [perform, he] at h
    exact (plain_setX_next h).imp_right .inl

/-- `VREDI` writes x[D] unless its predicate is the one that selects nothing (R184). -/
theorem execVredi_next {p : Pred} {v : View} {u : Bool} {d : XReg} {a : VReg} {s t : State}
    (h : execVredi p v u d a s = .next t) : (∃ w, t = (s.setX d w).retire .seq) ∨ t = s.retire .seq := by
  have e := perform_doing_next (by split <;> simp) (by split <;> simp) h
  split at e
  · exact .inr e
  · exact .inl ⟨_, e⟩

/-- The instructions that write x[D] and no flag: all but `MFC` and `VREDI` write it under bit 0 of their predicate. -/
theorem scalarDest_next {i : Instr} {d : XReg} {s t : State} (hd : scalarDest i = some d) (h : exec i s = .next t) :
    (∃ w, t = (s.setX d w).retire .seq) ∨ t = s.retire .seq ∨ t = s.waits .access := by
  cases i
  case mfc =>
    cases hd
    exact execMfc_next h
  case vredi =>
    cases hd
    exact (execVredi_next h).imp_right .inl
  all_goals cases hd
  all_goals exact (plain_setX_next h).imp_right .inl

theorem scalarDest_frame {i : Instr} {d : XReg} {s t : State} (hd : scalarDest i = some d) (h : exec i s = .next t) :
    s.RegisterFrame t (if d = 0 then [] else [d]) [] [] [] false := by
  obtain ⟨w, rfl⟩ | rfl | rfl := scalarDest_next hd h
  · exact (State.frame_setX s d w _ _ _ _).retire .seq
  · exact State.frame_retire s .seq _ _ _ _ _
  · exact State.frame_waits s _ _ _ _ _ _

/-! ## Transfers, `NOP` and `LPAD` -/

/-- A transfer that writes no register goes on, somewhere. -/
theorem plain_pure_frame {p : Pred} {e : Eff Next} {s t : State} {n : Next} (he : e.run s = .ok n s)
    (h : plain p e s = .next t) : s.RegisterFrame t [] [] [] [] false := by
  obtain rfl | rfl := plain_next he rfl rfl h
  · exact State.frame_retire s n _ _ _ _ _
  · exact State.frame_retire s .seq _ _ _ _ _

theorem br_frame {p : Pred} {cc : ICond} {a b : XReg} {tg : Target} {s t : State} (h : exec (.br p cc a b tg) s = .next t) :
    s.RegisterFrame t [] [] [] [] false :=
  plain_pure_frame (n := if ICond.holds cc 64 (s.x a).toNat (s.x b).toNat then s.goTo (targetOf s.me.pc tg) else .seq)
    (by rw [Eff.run_bind_ok (Eff.run_get s), Eff.run_ite]; split <;> rfl) h

theorem jmp_frame {p : Pred} {tg : Target} {s t : State} (h : exec (.jmp p tg) s = .next t) :
    s.RegisterFrame t [] [] [] [] false :=
  plain_pure_frame (by rfl) h

theorem nop_frame {p : Pred} {s t : State} (h : exec (.nop p) s = .next t) : s.RegisterFrame t [] [] [] [] false := by
  have e : exec (.nop p) s = .next (s.retire .seq) := perform_ok (Eff.run_pure _ s) (State.floor_ok rfl rfl)
  cases e.symm.trans h
  exact State.frame_retire s .seq _ _ _ _ _

theorem lpad_frame {p : Pred} {tag : BitVec 8} {s t : State} (hs : s.Ready) (h : exec (.lpad p tag) s = .next t) :
    s.RegisterFrame t [] [] [] [] false :=
  plain_pure_frame (Eff.run_pure _ s) ((guarded_ready hs.1 hs.2).symm.trans h)

/-- `CALL` goes to its target with x1 written, or on to the next slot (R152). -/
theorem call_frame {p : Pred} {tg : Target} {s t : State} (h : exec (.call p tg) s = .next t) :
    s.RegisterFrame t [1] [] [] [] false := by
  obtain rfl | rfl := plain_next (u := s.setX 1 (pcSucc s.me.pc)) (n := s.goTo (targetOf s.me.pc tg)) (by rfl)
    (by simp) (by simp) h
  · exact (State.frame_setX s 1 (pcSucc s.me.pc) [] [] [] false).retire _
  · exact State.frame_retire s .seq _ _ _ _ _

/-! ## Floating point -/

/-- `VREDF` writes x[D] and flags unless its predicate is the one that selects nothing (R184). -/
theorem execVredf_next {p : Pred} {v : View} {rm : Rm} {d : XReg} {a : VReg} {s t : State}
    (h : execVredf p v rm d a s = .next t) :
    (∃ w fl, t = ((s.setX d w).addFlags fl).retire .seq) ∨ t = s.retire .seq := by
  have e := perform_doing_next (by split <;> simp) (by split <;> simp) h
  split at e
  · exact .inr e
  · exact .inl ⟨_, _, e⟩

theorem fpScalarDest_next {i : Instr} {d : XReg} {s t : State} (hd : fpScalarDest i = some d) (h : exec i s = .next t) :
    (∃ w fl, t = ((s.setX d w).addFlags fl).retire .seq) ∨ t = s.retire .seq := by
  cases i
  case vredf =>
    cases hd
    exact execVredf_next h
  all_goals cases hd
  all_goals exact fpWrite_next h

theorem fpScalarDest_frame {i : Instr} {d : XReg} {s t : State} (hd : fpScalarDest i = some d) (h : exec i s = .next t) :
    s.FlagFrame t (if d = 0 then [] else [d]) [] [] := by
  obtain ⟨w, fl, rfl⟩ | rfl := fpScalarDest_next hd h
  · exact ((State.frame_setX s d w _ _ _ _).addFlags fl).retire .seq
  · exact (State.frame_retire s .seq _ _ _ _ _).flagFrame

theorem execVsegadd_next {p : Pred} {v : View} {fl : Bool} {rm : Rm} {d a b : VReg} {s t : State}
    (h : execVsegadd p v fl rm d a b s = .next t) : ∃ w fl, t = ((s.setV d w).addFlags fl).retire .seq :=
  ⟨_, _, perform_doing_next (by rfl) (by rfl) h⟩

theorem execVfcmp_next {p : Pred} {cc : FCond} {v : View} {d : MReg} {a : VReg} {b : VOp} {s t : State}
    (h : execVfcmp p cc v d a b s = .next t) : ∃ m fl, t = ((s.setM d m).addFlags fl).retire .seq :=
  ⟨_, _, perform_doing_next (by rfl) (by rfl) h⟩

/-- The vector instructions with flags look at their predicate element by element, and always write. -/
theorem fpVectorDest_next {i : Instr} {d : VReg} {s t : State} (hd : fpVectorDest i = some d) (h : exec i s = .next t) :
    ∃ w fl, t = ((s.setV d w).addFlags fl).retire .seq := by
  cases i
  case vsegadd =>
    cases hd
    exact execVsegadd_next h
  all_goals cases hd
  all_goals dsimp only [exec] at h
  all_goals exact vecFp_next h

theorem fpVectorDest_frame {i : Instr} {d : VReg} {s t : State} (hd : fpVectorDest i = some d) (h : exec i s = .next t) :
    s.FlagFrame t [] [d] [] := by
  obtain ⟨w, fl, rfl⟩ := fpVectorDest_next hd h
  exact ((State.frame_setV s d w _ _ _ _).addFlags fl).retire .seq

theorem vfcmp_frame {p : Pred} {cc : FCond} {v : View} {d : MReg} {a : VReg} {b : VOp} {s t : State}
    (h : exec (.vfcmp p cc v d a b) s = .next t) : s.FlagFrame t [] [] [d] := by
  obtain ⟨m, fl, rfl⟩ := execVfcmp_next h
  exact ((State.frame_setM s d m _ _ _ _).addFlags fl).retire .seq

/-! ## Vectors and masks without flags -/

theorem vectorDest_next {i : Instr} {d : VReg} {s t : State} (hd : vectorDest i = some d) (h : exec i s = .next t) :
    ∃ w, t = (s.setV d w).retire .seq := by
  cases i
  all_goals cases hd
  all_goals dsimp only [exec] at h
  case vbcast | vinsr | vperm | vslide => exact perform_setV_next h
  all_goals exact vecOp_next h

theorem vectorDest_frame {i : Instr} {d : VReg} {s t : State} (hd : vectorDest i = some d) (h : exec i s = .next t) :
    s.RegisterFrame t [] [d] [] [] false := by
  obtain ⟨w, rfl⟩ := vectorDest_next hd h
  exact (State.frame_setV s d w _ _ _ _).retire .seq

theorem execVcmp_next {p : Pred} {cc : ICond} {v : View} {d : MReg} {a : VReg} {b : VOp} {s t : State}
    (h : execVcmp p cc v d a b s = .next t) : ∃ m, t = (s.setM d m).retire .seq :=
  ⟨_, perform_doing_next (by rfl) (by rfl) h⟩

/-- `VCMP` writes m[D] bit by bit under its predicate; the whole-register operations write it under bit 0. -/
theorem maskDest_next {i : Instr} {d : MReg} {s t : State} (hd : maskDest i = some d) (h : exec i s = .next t) :
    (∃ m, t = (s.setM d m).retire .seq) ∨ t = s.retire .seq := by
  cases i
  case vcmp =>
    cases hd
    exact .inl (execVcmp_next h)
  all_goals cases hd
  all_goals exact maskWrite_next h

theorem maskDest_frame {i : Instr} {d : MReg} {s t : State} (hd : maskDest i = some d) (h : exec i s = .next t) :
    s.RegisterFrame t [] [] [d] [] false := by
  obtain ⟨m, rfl⟩ | rfl := maskDest_next hd h
  · exact (State.frame_setM s d m _ _ _ _).retire .seq
  · exact State.frame_retire s .seq _ _ _ _ _

/-- `VSORTK` writes both registers unless its predicate is the one that selects nothing (R182). -/
theorem execVsortk_next {p : Pred} {d c a : VReg} {s t : State} (h : execVsortk p d c a s = .next t) :
    (∃ keys lanes, t = ((s.setV d keys).setV c lanes).retire .seq) ∨ t = s.retire .seq := by
  have e := perform_doing_next (by split <;> rfl) (by split <;> rfl) h
  split at e
  · exact .inr e
  · exact .inl ⟨_, _, e⟩

theorem vsortk_frame {p : Pred} {d c a : VReg} {s t : State} (h : exec (.vsortk p d c a) s = .next t) :
    s.RegisterFrame t [] [d, c] [] [] false := by
  obtain ⟨keys, lanes, rfl⟩ | rfl := execVsortk_next h
  · have hd : s.RegisterFrame (s.setV d keys) [] [d, c] [] [] false :=
      (State.frame_setV s d keys [] [] [] false).mono_v (by simp)
    have hc : (s.setV d keys).RegisterFrame ((s.setV d keys).setV c lanes) [] [d, c] [] [] false :=
      (State.frame_setV _ c lanes [] [] [] false).mono_v (by simp)
    exact (hd.trans hc).retire .seq
  · exact State.frame_retire s .seq _ _ _ _ _

/-- Settles O20: each class from the next states it can lead to, and the failing predicates from the order of an
instruction's checks. -/
theorem registerFrames : Obligations.RegisterFrames := by
  unfold Obligations.RegisterFrames
  refine ⟨failingPredicates, fun _ _ _ _ hd h => scalarDest_frame hd h, fun _ _ _ _ _ _ _ _ => ⟨?_, call_frame⟩,
    fun i s t h => ⟨fun d hd => (fpScalarDest_frame hd h).frame, fun d hd => (fpVectorDest_frame hd h).frame, ?_, ?_⟩,
    fun i s t h => ⟨fun d hd => vectorDest_frame hd h, fun d hd => maskDest_frame hd h, ?_⟩⟩
  · rintro (h | h | h | ⟨hs, h⟩)
    exacts [br_frame h, jmp_frame h, nop_frame h, lpad_frame hs h]
  · rintro p cc v d a b rfl
    exact (vfcmp_frame h).frame
  · rintro (hd | hd | ⟨p, cc, v, d, a, b, rfl⟩)
    · obtain ⟨d, hd⟩ := Option.isSome_iff_exists.mp hd
      exact (fpScalarDest_frame hd h).sticky
    · obtain ⟨d, hd⟩ := Option.isSome_iff_exists.mp hd
      exact (fpVectorDest_frame hd h).sticky
    · exact (vfcmp_frame h).sticky
  · rintro p d c a rfl
    exact vsortk_frame h

end Sys2Proof.Machine
end

section
/-! Launches from admission to completion (R26 to R65, R283, R313 to R316, R385 to R390).

First the rules about queues, launches and lists of changes that the steps of a launch share; then the decisions of the
schedulers: whom one grants, and that granting ends. Then one part for each step of a launch, with what it does when its
condition holds and that it does nothing otherwise. -/

namespace Sys2Proof.Machine

/-! ## Steps of the part -/

theorem State.FloorAllows.holds {s t : State} (h : s.FloorAllows t) : (t.withinFloor || !s.withinFloor) = true := by
  simpa [State.FloorAllows] using h

/-- A step that is a change of the state comes about where FLOOR allows it. -/
theorem happen_modify_goes {f : State → State} {s t : State} (e : f s = t) (h : s.FloorAllows t) :
    happen (modify f) s = .next t := by
  subst e
  exact happen_modify h.holds

theorem happen_modify_still {f : State → State} {s : State} (e : f s = s) : happen (modify f) s = .next s :=
  happen_ok (by rw [Eff.run_modify, e]) (State.floor_ok rfl rfl)

/-- A step that waits leaves its requests standing. -/
theorem happen_wait {e : Eff Unit} {s t : State} {w : Wait} (h : e.run s = .error (.wait w) t) (hh : t.high = s.high)
    (hf : t.floor = s.floor) : happen e s = .next t := by
  simp only [happen, h, State.floorHolds, State.floor_ok hh hf, if_true]

/-! ## Changes made one after another -/

theorem foldl_keeps {σ α β : Type} {f : σ → α → σ} (g : σ → β) (h : ∀ s a, g (f s a) = g s) {l : List α} {s : σ} :
    g (l.foldl f s) = g s :=
  List.foldlRecOn l f (motive := fun t => g t = g s) rfl fun t ht a _ => (h t a).trans ht

/-- What the change for one element establishes, and that of no other undoes, holds after all of them. -/
theorem foldl_establishes {σ α : Type} {P : σ → Prop} {f : σ → α → σ} {l : List α} {a : α} (ha : a ∈ l)
    (est : ∀ s, P (f s a)) (keep : ∀ s, ∀ b ∈ l, b ≠ a → P s → P (f s b)) (s : σ) : P (l.foldl f s) := by
  induction l generalizing s with
  | nil => cases ha
  | cons b r ih =>
    rw [List.foldl_cons]
    by_cases hr : a ∈ r
    · exact ih hr (fun s c hc => keep s c (.tail b hc)) (f s b)
    · obtain rfl : a = b := (List.mem_cons.mp ha).resolve_right hr
      exact List.foldlRecOn r f (est s) fun t ht c hc => keep t c (.tail a hc) (fun e => hr (e ▸ hc)) ht

/-! ## Units, queues and launches -/

@[simp] theorem State.core_mapCore_self (s : State) (c : Nat) (f : Core → Core) :
    (s.mapCore c f).core c = f (s.core c) := by simp [State.mapCore]
theorem State.core_mapCore_ne (s : State) {c c' : Nat} (f : Core → Core) (h : c' ≠ c) :
    (s.mapCore c f).core c' = s.core c' := State.core_setCore_ne s _ h
@[simp] theorem State.cluster_mapCluster_self (s : State) (p : Nat) (f : Cluster → Cluster) :
    (s.mapCluster p f).cluster p = f (s.cluster p) := by simp [State.mapCluster]
theorem State.cluster_mapCluster_ne (s : State) {p p' : Nat} (f : Cluster → Cluster) (h : p' ≠ p) :
    (s.mapCluster p f).cluster p' = s.cluster p' := State.cluster_setCluster_ne s _ h
@[simp] theorem State.queue_mapQueue_self (s : State) (q : BitVec 6) (f : Queue → Queue) :
    (s.mapQueue q f).queue q = f (s.queue q) := by simp [State.mapQueue]
theorem State.queue_mapQueue_ne (s : State) {q o : BitVec 6} (f : Queue → Queue) (h : o ≠ q) :
    (s.mapQueue q f).queue o = s.queue o := State.queue_setQueue_ne s _ h

/-- Two changes of a queue that come to the same are the same. -/
theorem State.mapQueue_congr {s : State} {q : BitVec 6} {f g : Queue → Queue} (h : f (s.queue q) = g (s.queue q)) :
    s.mapQueue q f = s.mapQueue q g := by rw [State.mapQueue, h, State.mapQueue]

theorem State.queue_of_queues {s t : State} (h : t.queues = s.queues) (q : BitVec 6) : t.queue q = s.queue q := by
  rw [State.queue, h, State.queue]

theorem State.launch_of_queue {s t : State} {q : BitVec 6} (h : t.queue q = s.queue q) : t.launch q = s.launch q := by
  rw [State.launch, h, State.launch]

theorem State.launch_of_admitted {s : State} {q : BitVec 6} {l : Launch} (h : (s.queue q).admitted = some l) :
    s.launch q = l := by rw [State.launch, h, Option.getD_some]

/-- What no blank launch has is found in an admitted one alone. -/
theorem State.admitted_of_launch {s : State} {q : BitVec 6} (h : s.launch q ≠ .blank) :
    (s.queue q).admitted.isSome = true := by
  cases e : (s.queue q).admitted with
  | some l => rfl
  | none => exact absurd (by rw [State.launch, e, Option.getD_none]) h

theorem State.launch_mapLaunch_self {s : State} {q : BitVec 6} (f : Launch → Launch)
    (h : (s.queue q).admitted.isSome = true) : (s.mapLaunch q f).launch q = f (s.launch q) := by
  obtain ⟨l, e⟩ := Option.isSome_iff_exists.mp h
  rw [State.launch_of_admitted e]
  exact State.launch_of_admitted (by rw [State.mapLaunch, State.queue_mapQueue_self, e, Option.map_some])

theorem State.mapLaunch_congr {s : State} {q : BitVec 6} {f g : Launch → Launch}
    (h : ∀ l, (s.queue q).admitted = some l → f l = g l) : s.mapLaunch q f = s.mapLaunch q g := by
  refine State.mapQueue_congr ?_
  rw [Option.map_congr h]

theorem State.launch_mapLaunch_ne (s : State) {q o : BitVec 6} (f : Launch → Launch) (h : o ≠ q) :
    (s.mapLaunch q f).launch o = s.launch o := State.launch_of_queue (State.queue_mapQueue_ne s _ h)

/-- A queue that has no admitted launch has none after a change of launches. -/
theorem State.admitted_mapLaunch_none {s : State} {q : BitVec 6} (h : (s.queue q).admitted = none) (o : BitVec 6)
    (f : Launch → Launch) : ((s.mapLaunch o f).queue q).admitted = none := by
  by_cases e : q = o
  · subst e
    rw [State.mapLaunch, State.queue_mapQueue_self, h, Option.map_none]
  · rw [State.mapLaunch, State.queue_mapQueue_ne s _ e, h]

/-! ## Whom a decision picks (R49, R51) -/

theorem mem_worldQueues {secure : Bool} {o : BitVec 6} : o ∈ worldQueues secure ↔ queueSecure o = secure := by
  revert secure o
  decide

theorem worldQueues_ascend (secure : Bool) : (worldQueues secure).Pairwise (·.toNat < ·.toNat) := by
  revert secure
  decide

/-- A pass is lower than another where it lies less far beyond a base from which all passes lie within half the range. -/
theorem passLt_iff {a b base : BitVec 32} (ha : (a - base).toNat < 2 ^ 31) (hb : (b - base).toNat < 2 ^ 31) :
    passLt a b = true ↔ (a - base).toNat < (b - base).toNat := by
  rw [passLt, BitVec.msb_eq_decide, decide_eq_true_iff]
  bv_omega

/-- Queue o comes before queue u: by its pass beyond a base, or at equal passes by its number (R51). -/
def State.Precedes (s : State) (base : BitVec 32) (o u : BitVec 6) : Prop :=
  ((s.queue o).pass - base).toNat < ((s.queue u).pass - base).toNat ∨
    (s.queue o).pass = (s.queue u).pass ∧ o.toNat ≤ u.toNat

theorem State.Precedes.trans {s : State} {base : BitVec 32} {a b c : BitVec 6} (h : s.Precedes base a b)
    (g : s.Precedes base b c) : s.Precedes base a c := by
  obtain h | ⟨h, hn⟩ := h <;> obtain g | ⟨g, gn⟩ := g
  · exact .inl (h.trans g)
  · exact .inl (g ▸ h)
  · exact .inl (h ▸ g)
  · exact .inr ⟨h.trans g, hn.trans gn⟩

theorem State.lowestPass_eq_none {s : State} {l : List (BitVec 6)} : s.lowestPass l = none ↔ l = [] := by
  cases l with
  | nil => exact iff_of_true rfl rfl
  | cons q r =>
    refine iff_of_false ?_ (List.cons_ne_nil q r)
    rw [State.lowestPass]
    split
    · exact Option.some_ne_none q
    · split <;> exact Option.some_ne_none _

theorem State.lowestPass_mem {s : State} {l : List (BitVec 6)} {o : BitVec 6} (h : s.lowestPass l = some o) : o ∈ l := by
  induction l generalizing o with
  | nil => cases h
  | cons q r ih =>
    rw [State.lowestPass] at h
    split at h
    · cases h
      exact .head r
    next o' e =>
      split at h <;> cases h
      · exact .tail q (ih e)
      · exact .head r

/-- Of a list of queues in ascending order, the one with the lowest pass precedes all. -/
theorem State.lowestPass_precedes {s : State} {base : BitVec 32} {l : List (BitVec 6)} {o : BitVec 6}
    (hp : ∀ u ∈ l, ((s.queue u).pass - base).toNat < 2 ^ 31) (hl : l.Pairwise (·.toNat < ·.toNat))
    (h : s.lowestPass l = some o) : ∀ u ∈ l, s.Precedes base o u := by
  induction l generalizing o with
  | nil => cases h
  | cons q r ih =>
    obtain ⟨hq, hr⟩ := List.pairwise_cons.mp hl
    have self (u : BitVec 6) : s.Precedes base u u := .inr ⟨rfl, le_rfl⟩
    rw [State.lowestPass] at h
    split at h
    next e =>
      cases h
      obtain rfl := State.lowestPass_eq_none.mp e
      exact List.forall_mem_singleton.mpr (self _)
    next o' e =>
      have ho := State.lowestPass_mem e
      have rest := ih (fun u hu => hp u (.tail q hu)) hr e
      have lower := passLt_iff (hp o' (.tail q ho)) (hp q (.head r))
      split at h <;> cases h
      next hlt => exact List.forall_mem_cons.mpr ⟨.inl (lower.mp hlt), rest⟩
      next hge =>
        have first : s.Precedes base q o' := by
          have ge := mt lower.mpr hge
          obtain lt | eq := Nat.lt_or_eq_of_le (not_lt.mp ge)
          · exact .inl lt
          · exact .inr ⟨by bv_omega, (hq o' ho).le⟩
        exact List.forall_mem_cons.mpr ⟨self _, fun u hu => first.trans (rest u hu)⟩

theorem State.pick_eq_some {s : State} {secure : Bool} {o : BitVec 6} (h : s.pick secure = some o) :
    s.placeable o = true ∧ queueSecure o = secure := by
  obtain ⟨hm, hp⟩ := List.mem_filter.mp (State.lowestPass_mem h)
  exact ⟨hp, mem_worldQueues.mp hm⟩

theorem State.pick_precedes {s : State} {secure : Bool} {base : BitVec 32} {o : BitVec 6}
    (hp : ∀ u ∈ worldQueues secure, ((s.queue u).pass - base).toNat < 2 ^ 31) (h : s.pick secure = some o) :
    ∀ u ∈ worldQueues secure, s.placeable u = true → s.Precedes base o u := fun u hu pu =>
  State.lowestPass_precedes (fun u hu => hp u (List.mem_of_mem_filter hu)) ((worldQueues_ascend secure).filter _) h u
    (List.mem_filter.mpr ⟨hu, pu⟩)

theorem State.pick_eq_none {s : State} {secure : Bool} (h : ∀ u ∈ worldQueues secure, s.placeable u = false) :
    s.pick secure = none :=
  State.lowestPass_eq_none.mpr (List.filter_eq_nil_iff.mpr fun u hu => by simp [h u hu])

/-! ## What a grant does, and that granting ends (R51, R52) -/

/-- A backlogged queue has an admitted launch. -/
theorem State.admitted_of_backlogged {s : State} {q : BitVec 6} (h : s.backlogged q = true) :
    (s.queue q).admitted.isSome = true := by
  rw [State.backlogged] at h
  split at h
  · cases h
  next e => rw [e, Option.isSome_some]

/-- Placeable work is an admitted launch that has been granted nothing. -/
theorem State.of_placeable {s : State} {q : BitVec 6} (h : s.placeable q = true) :
    (s.queue q).admitted.isSome = true ∧ (s.launch q).start = none := by
  rw [State.placeable, Bool.or_eq_true] at h
  obtain h | h := h
  · simp only [State.startable, Bool.and_eq_true, Option.isNone_iff_eq_none] at h
    obtain ⟨⟨⟨⟨_, hb⟩, _⟩, _⟩, hs⟩ := h
    exact ⟨State.admitted_of_backlogged hb, hs⟩
  · rw [State.plan] at h
    split at h
    · cases h
    next hc =>
      simp only [Bool.or_eq_true, not_or, Bool.not_eq_true, Bool.not_eq_false', Option.isSome_eq_false_iff,
        Option.isNone_iff_eq_none] at hc
      obtain ⟨⟨_, hb⟩, hs⟩ := hc
      exact ⟨State.admitted_of_backlogged hb, hs⟩

/-- A queue that is picked is granted a start, and one that holds clusters keeps them for it. -/
theorem State.launch_grant_self {s : State} {q : BitVec 6} (h : s.placeable q = true) :
    ∃ st, ((s.grant q).launch q).start = some st ∧ (s.startable q = true → st.clusters = (s.launch q).clusters) := by
  have ha := (State.of_placeable h).1
  by_cases hs : s.startable q = true
  · rw [State.grant, State.launch_mapLaunch_self _ ha, if_pos hs]
    exact ⟨_, rfl, fun _ => rfl⟩
  · rw [State.placeable, Bool.or_eq_true] at h
    obtain ⟨st, e⟩ := Option.isSome_iff_exists.mp (h.resolve_left hs)
    rw [State.grant, State.launch_mapLaunch_self _ ha, if_neg hs]
    exact ⟨st, e, fun h => absurd h hs⟩

theorem State.launch_grant_ne (s : State) {q o : BitVec 6} (h : o ≠ q) : (s.grant q).launch o = s.launch o :=
  State.launch_mapLaunch_ne s _ h

/-- The queues of a world whose launch has been granted nothing. -/
def State.ungranted (s : State) (secure : Bool) : List (BitVec 6) :=
  (worldQueues secure).filter fun q => (s.launch q).start.isNone

/-- Each grant leaves one queue fewer that has been granted nothing. -/
theorem State.ungranted_grant_lt {s : State} {secure : Bool} {q : BitVec 6} (h : s.pick secure = some q) :
    ((s.grant q).ungranted secure).length < (s.ungranted secure).length := by
  obtain ⟨hp, hw⟩ := State.pick_eq_some h
  have hs := (State.of_placeable hp).2
  obtain ⟨st, hg, _⟩ := State.launch_grant_self hp
  have e : (s.grant q).ungranted secure = (s.ungranted secure).filter fun o => o ≠ q := by
    rw [State.ungranted, State.ungranted, List.filter_filter]
    refine List.filter_congr fun o _ => ?_
    by_cases ho : o = q
    · simp [ho, hg]
    · simp [ho, State.launch_grant_ne s ho]
  rw [e, List.length_filter_lt_length_iff_exists]
  exact ⟨q, List.mem_filter.mpr ⟨mem_worldQueues.mpr hw, by simp [hs]⟩, by simp⟩

/-- As many grants as there are queues that have been granted nothing leave no placeable work. -/
theorem State.pick_grants {n : Nat} {s : State} {secure : Bool} (h : (s.ungranted secure).length ≤ n) :
    (s.grants secure n).pick secure = none := by
  induction n generalizing s with
  | zero =>
    rw [State.grants]
    refine State.pick_eq_none fun u hu => ?_
    by_contra hp
    have hs := (State.of_placeable (Bool.eq_true_of_not_eq_false hp)).2
    have hm : u ∈ s.ungranted secure := List.mem_filter.mpr ⟨hu, by rw [hs, Option.isNone_none]⟩
    exact absurd (List.length_pos_of_mem hm) (Nat.not_lt.mpr h)
  | succ n ih =>
    rw [State.grants]
    split
    next e => exact e
    next q e => exact ih (Nat.le_of_lt_succ ((State.ungranted_grant_lt e).trans_le h))

theorem State.ungranted_le (s : State) (secure : Bool) : (s.ungranted secure).length ≤ 32 :=
  (List.length_filter_le _ _).trans (by rw [worldQueues, List.length_map, List.length_range])

/-! ## What the head entry of a queue comes to (R30 to R32) -/

section Checks
variable {s : State} {q : BitVec 6} {e : QueueEntry} {r : Nat}

theorem must_true {c : BitVec 8} {b : Bool} (h : b = true) : must c b = .ok () := if_pos h
theorem must_false {c : BitVec 8} {b : Bool} (h : ¬ b = true) : must c b = .error (.code c) := if_neg h

theorem State.consider_unread {x : AdmStop} (h : s.readRecord q e = .error x) : s.consider q e = .error (x, none) := by
  rw [State.consider, h]

theorem State.consider_rejected {x : AdmStop} (h : s.readRecord q e = .ok r) (hc : s.checkRecord q e r = .error x) :
    s.consider q e = .error (x, some r) := by
  rw [State.consider, h]
  simp only [hc]

theorem State.checkRecord_version (h : field (tableWord r 0) 63 48 ≠ 1) : s.checkRecord q e r = .error (.code 1) := by
  rw [State.checkRecord, must_false (by simpa using h)]
  rfl

theorem State.checkRecord_counts (h₁ : field (tableWord r 0) 63 48 = 1) (h : recordCounts r = false) :
    s.checkRecord q e r = .error (.code 2) := by
  rw [State.checkRecord, must_true (by simpa using h₁), must_false (by simp [h])]
  rfl

theorem State.checkRecord_world (h₁ : field (tableWord r 0) 63 48 = 1) (h₂ : recordCounts r = true)
    (h : (tableWord r 0).getLsbD 1 ≠ queueSecure q) : s.checkRecord q e r = .error (.code 4) := by
  rw [State.checkRecord, must_true (by simpa using h₁), must_true h₂, must_false (by simpa using h)]
  rfl

/-- The LAUNCHID of a launch that is admitted in the world is not taken again. -/
theorem State.checkRecord_live {o : BitVec 6} {l : Launch} (h₁ : field (tableWord r 0) 63 48 = 1)
    (h₂ : recordCounts r = true) (h₄ : (tableWord r 0).getLsbD 1 = queueSecure q) (ho : queueSecure o = queueSecure q)
    (hl : (s.queue o).admitted = some l) (h : l.launchid.toNat = field (tableWord r 9) 63 32) :
    s.checkRecord q e r = .error (.code 7) := by
  have live : l.launchid ∈ s.live (queueSecure q) :=
    List.mem_filterMap.mpr ⟨o, mem_worldQueues.mpr ho, by rw [hl, Option.map_some]⟩
  have taken : must 7 (!(s.live (queueSecure q)).contains l.launchid) = .error (.code 7) :=
    must_false (by simpa using live)
  rw [State.checkRecord, must_true (by simpa using h₁), must_true h₂, must_true (by simpa using h₄), ← h,
    BitVec.ofNat_toNat, BitVec.setWidth_eq]
  dsimp only
  rw [taken]
  rfl

end Checks

/-! ## Admission and rejection (R32, R45, R47, R336) -/

section Admission
variable {s : State} {q : BitVec 6} {e : QueueEntry} {rest : List QueueEntry}

theorem QueueEntry.fresh_iff {clock : Nat} : e.fresh clock = true ↔ ∃ c d, e.by_ = some (c, d, clock) := by
  rw [QueueEntry.fresh]
  split
  next c d t h => simp [h]
  next h => simp [h]

/-- The head entry of a queue may be considered now. -/
structure State.Considers (s : State) (q : BitVec 6) (e : QueueEntry) (rest : List QueueEntry) : Prop where
  entries : (s.queue q).entries = e :: rest
  admitted : (s.queue q).admitted = none
  enable : (s.queue q).enable = true
  tripped : s.tripped = false
  fresh : e.fresh s.clock = false

/-- What becomes of an entry that may be considered. -/
theorem admitNext_run (h : s.Considers q e rest) : (admitNext q).run s = match s.consider q e with
    | .ok l => .ok ⟨⟩ (s.admitLaunch q l)
    | .error (.owned line, _) => (readOwned line).run s
    | .error (.code c, r) => match s.rejectPlace q e r with
      | .ok p => .ok ⟨⟩ (s.rejectLaunch q r c p)
      | .error line => (readOwned line).run s := by
  obtain ⟨he, ha, hen, ht, hf⟩ := h
  rw [admitNext, Eff.run_bind_ok (Eff.run_get s)]
  simp only [he, ha, hen, ht, hf]
  rcases s.consider q e with ⟨_ | _, r⟩ | l
  · simp only
    cases s.rejectPlace q e r <;> rfl
  · rfl
  · rfl

/-- An entry that may not be considered stays where it is. -/
theorem admitNext_run_idle
    (h : ∀ e rest, (s.queue q).entries = e :: rest →
      ((s.queue q).admitted.isSome || !(s.queue q).enable || s.tripped || e.fresh s.clock) = true) :
    (admitNext q).run s = .ok ⟨⟩ s := by
  rw [admitNext, Eff.run_bind_ok (Eff.run_get s)]
  cases he : (s.queue q).entries with
  | nil => rfl
  | cons e rest =>
    simp only [h e rest he]
    rfl

theorem admission_idle
    (h : ∀ e rest, (s.queue q).entries = e :: rest →
      ((s.queue q).admitted.isSome || !(s.queue q).enable || s.tripped || e.fresh s.clock) = true) :
    exec (.admission q) s = .next s :=
  happen_ok (admitNext_run_idle h) (State.floor_ok rfl rfl)

theorem admission_fresh {e : QueueEntry} {rest : List QueueEntry} {c : CtxId} {d : XReg}
    (he : (s.queue q).entries = e :: rest) (hb : e.by_ = some (c, d, s.clock)) : exec (.admission q) s = .next s := by
  refine admission_idle fun e' rest' h' => ?_
  obtain ⟨rfl, rfl⟩ := List.cons_eq_cons.mp (he.symm.trans h')
  rw [QueueEntry.fresh_iff.mpr ⟨c, d, hb⟩, Bool.or_true]

theorem admission_barred (h : (s.queue q).entries = [] ∨ (s.queue q).admitted.isSome = true ∨
    (s.queue q).enable = false ∨ s.tripped = true) : exec (.admission q) s = .next s := by
  refine admission_idle fun e rest he => ?_
  obtain h | h | h | h := h
  · cases he.symm.trans h
  all_goals simp [h]

theorem readOwned_run {line : Nat} (hc : s.hostCoherent line = true) (ho : s.hostOwned.contains line = true) :
    (readOwned line).run s = .error (.wait .access) (s.asksBack line) := by
  rw [readOwned, Eff.run_bind_ok (Eff.run_get s)]
  simp only [hc, ho, State.asksBack]
  cases (s.backInvals.any fun b => b.line = line ∧ b.forData) <;> rfl

theorem State.asksBack_high (line : Nat) : (s.asksBack line).high = s.high := by
  rw [State.asksBack]
  split <;> rfl

theorem State.asksBack_floor (line : Nat) : (s.asksBack line).floor = s.floor := by
  rw [State.asksBack]
  split <;> rfl

/-- Admission that finds a line in the host's hands asks for it back and waits. -/
theorem admission_asksBack {line : Nat} {r : Option Nat} (h : s.Considers q e rest)
    (hs : s.consider q e = .error (.owned line, r) ∨
      ∃ c, s.consider q e = .error (.code c, r) ∧ s.rejectPlace q e r = .error line)
    (hc : s.hostCoherent line = true) (ho : s.hostOwned.contains line = true) :
    exec (.admission q) s = .next (s.asksBack line) := by
  refine happen_wait (w := .access) ?_ (s.asksBack_high line) (s.asksBack_floor line)
  rw [admitNext_run h, ← readOwned_run hc ho]
  obtain hs | ⟨c, hs, hp⟩ := hs
  · rw [hs]
  · simp only [hs, hp]

theorem State.entries_raisePass (s : State) (q : BitVec 6) :
    ((s.raisePass q).queue q).entries = (s.queue q).entries := by
  rw [State.raisePass]
  split
  · rfl
  · rw [State.queue_mapQueue_self]

theorem State.admissions_raisePass (s : State) (q : BitVec 6) : (s.raisePass q).admissions = s.admissions := by
  rw [State.raisePass]
  split <;> rfl

theorem State.admitted_mapQueue_some (s : State) (q : BitVec 6) (rest : List QueueEntry) (l : Launch) :
    ((s.mapQueue q fun k => { k with entries := rest, admitted := some l }).queue q).admitted = some l := by
  rw [State.queue_mapQueue_self]

/-- The admitted launch takes the place of its entry in the queue, which is a decision point. -/
theorem admission_admits {l : Launch} (h : s.Considers q e rest) (hl : s.consider q e = .ok l) :
    let u := (s.raisePass q).mapQueue q fun k => { k with entries := rest, admitted := some l }
    let t := ({ u with admissions := s.admissions + 1 } : State).decision (queueSecure q)
    s.FloorAllows t → exec (.admission q) s = .next t := by
  intro u t hf
  refine happen_ok ?_ hf.holds
  have hu : (s.raisePass q).mapQueue q (fun k => { k with entries := k.entries.drop 1, admitted := some l }) = u :=
    State.mapQueue_congr (by rw [State.entries_raisePass, h.entries]; rfl)
  have hn : u.admissions = s.admissions := State.admissions_raisePass s q
  rw [admitNext_run h, hl]
  simp only [State.admitLaunch, hu, hn]
  rfl

/-! ## The completion record (R387, R388) -/

theorem State.l2Touch_queues (s : State) (line : Nat) : (s.l2Touch line).queues = s.queues := by
  unfold State.l2Touch
  split
  · rfl
  · dsimp only
    split_ifs
    · rfl
    · split <;> rfl

theorem State.storeHome_queues (s : State) (line off n v : Nat) (pts : Ts) (inval : Bool) :
    (s.storeHome line off n v pts inval).1.queues = s.queues := by
  unfold State.storeHome
  dsimp only
  split_ifs <;> exact State.l2Touch_queues s line

theorem State.storeHostHome_queues (s : State) (line off n v : Nat) (pts : Ts) :
    (s.storeHostHome line off n v pts).1.queues = s.queues := by
  unfold State.storeHostHome
  split
  · split_ifs <;> rfl
  · rfl

theorem State.complete_queues (s : State) (p : Place) (q : BitVec 6) (l : Launch) (code : BitVec 8) (tadmit : Word)
    (pts : Ts) : (s.complete p q l code tadmit pts).1.queues = s.queues := by
  unfold State.complete
  dsimp only
  split_ifs
  · rfl
  · split
    · exact State.storeHome_queues ..
    · exact State.storeHostHome_queues ..
    · rfl

theorem State.notified_queues (t : State) (b : Bool) (o : Output) : (if b then t.emit o else t).queues = t.queues := by
  split <;> rfl

/-- What a rejection leaves of the queue: the entry is gone, and its status says why (R32, R45). -/
theorem State.queue_rejectLaunch (s : State) (q : BitVec 6) (r : Option Nat) (c : BitVec 8) (place : Option Place) :
    (s.rejectLaunch q r c place).queue q = { s.queue q with
      entries := (s.queue q).entries.drop 1, rejcode := c
      rejid := (match r with
        | some r => BitVec.ofNat 32 (field (tableWord r 9) 63 32)
        | none => Config.unreadLaunchId s.admissions)
      rej := place.isNone || (s.queue q).rej } := by
  unfold State.rejectLaunch
  extract_lets id s₁ s₂ s₃
  have h₂ : s₂.queue q = { s.queue q with entries := (s.queue q).entries.drop 1, rejid := id, rejcode := c } :=
    State.queue_mapQueue_self s q fun k => { k with entries := k.entries.drop 1, rejid := id, rejcode := c }
  refine (State.queue_of_queues (State.notified_queues ..) q).trans ?_
  cases place with
  | none => exact (State.queue_mapQueue_self s₂ q _).trans (by rw [h₂]; rfl)
  | some p => exact (State.queue_of_queues (State.complete_queues ..) q).trans h₂

/-- The queue after a rejection. -/
theorem State.rejectLaunch_status {e : QueueEntry} {rest : List QueueEntry} (h : s.Considers q e rest) (r : Option Nat)
    (c : BitVec 8) (place : Option Place) :
    let k := (s.rejectLaunch q r c place).queue q
    k.rejcode = c ∧ k.entries = rest ∧ k.admitted = none ∧
    k.rejid = (match r with
      | some r => BitVec.ofNat 32 (field (tableWord r 9) 63 32)
      | none => Config.unreadLaunchId s.admissions) ∧ (place = none → k.rej = true) := by
  intro k
  have e : k = _ := State.queue_rejectLaunch s q r c place
  rw [e]
  refine ⟨rfl, ?_, h.admitted, by cases r <;> rfl, fun hp => ?_⟩
  · rw [h.entries]
    rfl
  · rw [hp]
    rfl

/-- The rejected entry leaves its queue with its code. -/
theorem admission_rejects {c : BitVec 8} {r : Option Nat} {place : Option Place} (h : s.Considers q e rest)
    (hc : s.consider q e = .error (.code c, r)) (hp : s.rejectPlace q e r = .ok place)
    (hf : s.FloorAllows (s.rejectLaunch q r c place)) :
    exec (.admission q) s = .next (s.rejectLaunch q r c place) :=
  happen_ok (by rw [admitNext_run h, hc]; simp only [hp]) hf.holds

end Admission

/-! ## Placement (R34, R52, R64, R283, R390) -/

section Placement
variable {s : State} {q : BitVec 6} {st : Start}

theorem SMap.at_values {α : Type} (m : SMap α) {f : α → α} {d : α} (hd : f d = d) (k : Nat) :
    SMap.at (SMap.values f m) d k = f (SMap.at m d k) := by
  have e : SMap.find (SMap.values f m) k = (SMap.find m k).map f := SMap.find_update m (fun _ => f) k
  rw [SMap.at, e, SMap.at]
  cases SMap.find m k with
  | none => exact hd.symm
  | some v => rfl

theorem State.applyIn_queues (s : State) (ps : List Nat) : (s.applyIn ps).queues = s.queues :=
  foldl_keeps State.queues (fun _ _ => by split <;> rfl)

theorem State.lapse_queues (s : State) (r : Retention) : (s.lapse r).queues = s.queues := by
  refine foldl_keeps State.queues (fun s p => ?_)
  split
  · exact foldl_keeps State.queues (fun _ _ => by rfl)
  · rfl

theorem State.lapseFor_queues (s : State) (l : Launch) (ps : List Nat) (kept : Bool) :
    (s.lapseFor l ps kept).queues = s.queues := by
  refine foldl_keeps State.queues (fun s e => ?_)
  split
  · rfl
  · exact State.lapse_queues _ _

theorem State.takeReserved_queues (s : State) (l : Launch) (held : List (Nat × BitVec 32)) :
    (s.takeReserved l held).queues = s.queues :=
  foldl_keeps State.queues (fun _ _ => by rfl)

/-- Starting logical time afresh changes the times alone that a queue holds. -/
theorem State.queue_rebase (s : State) (pts : Ts) (q : BitVec 6) :
    (s.rebase pts).queue q = (s.queue q).mapTimes fun _ => pts := by
  have homes : (s.mapHolder .homes (fun _ => pts) fun _ => true).queues = s.queues := by
    unfold State.mapHolder
    dsimp only
    split_ifs
    · rfl
    · exact foldl_keeps State.queues (fun _ _ => by rfl)
  have e : (s.rebase pts).queues = s.queues.values (Queue.mapTimes fun _ => pts) := by
    rw [← homes]
    rfl
  rw [State.queue, e, SMap.at_values _ rfl, State.queue]

/-- A cluster given to the launch of a queue with a logical number: its cores, memories and contexts as they start. -/
def State.placeCluster (s : State) (q : BitVec 6) (kept : Bool) (pts : Ts) (e : Nat × Nat) : State :=
  let s := (List.range 8).foldl (fun s k => s.placeCore (8 * e.1 + k) kept) s
  let s := { s with clusterMem := s.clusterMem.clear (e.1 * 2 ^ 19) (2 ^ 19) }
  let s := s.mapCluster e.1 fun k => k.place q e.2
  (List.range 32).foldl (fun s j => s.setCtx (ctxOf (32 * e.1 + j)) { Context.reset with pts := pts, ackTime := pts }) s

theorem State.placeCore_queues_clusters (s : State) (k : Nat) (kept : Bool) :
    ((s.placeCore k kept).queues, (s.placeCore k kept).clusters) = (s.queues, s.clusters) := by
  unfold State.placeCore
  dsimp only
  split <;> rfl

theorem State.placeCluster_queues (s : State) (q : BitVec 6) (kept : Bool) (pts : Ts) (e : Nat × Nat) :
    (s.placeCluster q kept pts e).queues = s.queues := by
  unfold State.placeCluster
  extract_lets s₁ s₂ s₃
  have cores : s₁.queues = s.queues :=
    foldl_keeps State.queues (fun s k => congrArg Prod.fst (s.placeCore_queues_clusters _ kept))
  exact (foldl_keeps State.queues (fun _ _ => by rfl)).trans cores

theorem State.cluster_of_clusters {s t : State} (h : t.clusters = s.clusters) (p : Nat) : t.cluster p = s.cluster p := by
  rw [State.cluster, h, State.cluster]

/-- Only the cluster that is given changes. -/
theorem State.cluster_placeCluster (s : State) (q : BitVec 6) (kept : Bool) (pts : Ts) (e : Nat × Nat) (p : Nat) :
    (s.placeCluster q kept pts e).cluster p = if p = e.1 then (s.cluster p).place q e.2 else s.cluster p := by
  unfold State.placeCluster
  extract_lets s₁ s₂ s₃
  have cores : s₂.clusters = s.clusters :=
    foldl_keeps State.clusters (fun s k => congrArg Prod.snd (s.placeCore_queues_clusters _ kept))
  have contexts := foldl_keeps State.clusters (l := List.range 32) (s := s₃) (f := fun s j =>
    s.setCtx (ctxOf (32 * e.1 + j)) { Context.reset with pts := pts, ackTime := pts }) (fun _ _ => by rfl)
  rw [State.cluster_of_clusters contexts, ← State.cluster_of_clusters cores p]
  split_ifs with h
  · subst h
    exact State.cluster_mapCluster_self s₂ e.1 fun k => k.place q e.2
  · exact State.cluster_mapCluster_ne s₂ _ h

/-- A placement gives the launch its clusters one by one, in a state whose queue differs in times alone. -/
theorem State.place_eq (s : State) (q : BitVec 6) (st : Start) : ∃ (u : State) (pts : Ts),
    (u.queue q = s.queue q ∨ ∃ f, u.queue q = (s.queue q).mapTimes f) ∧
    s.place q st = let t := st.clusters.zipIdx.foldl (fun s e => s.placeCluster q st.kept pts e) u
      (t.mapLaunch q fun l => { l with
        phase := .boundary, clusters := st.clusters, step := 0, joinTime := pts, forked := pts, sup := t.supervises l
        start := t.stillStarts q st }).assign pts := by
  unfold State.place
  extract_lets s₁ l join s₂ start pts s₃ s₄
  have h₁ : s₁.queues = s.queues := s.applyIn_queues _
  have h₃ : s₃.queues = s₂.queues := (State.takeReserved_queues ..).trans (State.lapseFor_queues ..)
  refine ⟨s₃, pts, ?_, rfl⟩
  rw [State.queue_of_queues h₃, ← State.queue_of_queues h₁]
  unfold s₂
  split
  · exact .inl rfl
  · exact .inr ⟨_, State.queue_rebase ..⟩

theorem State.launch_place (h : (s.queue q).admitted.isSome = true) :
    ((s.place q st).launch q).phase = .boundary ∧ ((s.place q st).launch q).clusters = st.clusters ∧
    ((s.place q st).launch q).step = 0 ∧
    ((s.place q st).launch q).start = (if (s.queue q).enable = true then some { st with held := [] } else none) := by
  obtain ⟨u, pts, hu, e⟩ := s.place_eq q st
  rw [e]
  extract_lets t
  have ht : t.queue q = u.queue q :=
    State.queue_of_queues (foldl_keeps State.queues fun s e => s.placeCluster_queues q _ _ e) q
  have shape : (t.queue q).enable = (s.queue q).enable ∧ (t.queue q).admitted.isSome = true := by
    rw [ht]
    obtain hu | ⟨f, hu⟩ := hu <;> rw [hu]
    · exact ⟨rfl, h⟩
    · exact ⟨rfl, Option.isSome_map.trans h⟩
  have hl := State.launch_mapLaunch_self (s := t) (q := q) (fun l => { l with
    phase := .boundary, clusters := st.clusters, step := 0, joinTime := pts, forked := pts, sup := t.supervises l
    start := t.stillStarts q st }) shape.2
  rw [← State.launch_of_queue (State.queue_of_queues (State.assign_queues _ pts) q)] at hl
  rw [hl, ← shape.1]
  exact ⟨rfl, rfl, rfl, rfl⟩

/-- Each cluster is given the number of its place in the list (R64). -/
theorem State.placed_place (hn : st.clusters.Nodup) {i p : Nat} (hi : st.clusters[i]? = some p) :
    ((s.place q st).cluster p).placed = some (q, i) := by
  obtain ⟨u, pts, _, e⟩ := s.place_eq q st
  rw [e]
  have given : (p, i) ∈ st.clusters.zipIdx := List.mk_mem_zipIdx_iff_getElem?.mpr hi
  refine foldl_establishes (P := fun t => (t.cluster p).placed = some (q, i)) given (fun t => ?_)
    (fun t b hb hne ht => ?_) u
  · rw [State.cluster_placeCluster, if_pos rfl]
    rfl
  · rw [State.cluster_placeCluster, if_neg fun e => hne ?_, ht]
    obtain ⟨p', j⟩ := b
    obtain rfl : p = p' := e
    have hj := List.mk_mem_zipIdx_iff_getElem?.mp hb
    have hlt := (List.getElem?_eq_some_iff.mp hj).1
    rw [(List.getElem?_inj hlt hn).mp (hj.trans hi.symm)]

theorem exec_placement (q : BitVec 6) (s : State) :
    exec (.placement q) s = happen (modify fun s => s.placement q) s := rfl

theorem placement_places (hp : (s.launch q).phase = .unplaced) (hs : (s.launch q).start = some st)
    (hf : s.FloorAllows (s.place q st)) : exec (.placement q) s = .next (s.place q st) := by
  rw [exec_placement]
  exact happen_modify_goes (by simp only [State.placement, hp, hs]) hf

theorem placement_still (hs : (s.launch q).start = none) : exec (.placement q) s = .next s := by
  rw [exec_placement]
  refine happen_modify_still ?_
  rw [State.placement, hs]
  cases (s.launch q).phase <;> rfl

end Placement

/-! ## The start of a superstep (R37, R48, R49, R316) -/

section Superstep
variable {s : State} {q : BitVec 6}

/-- The launch as its superstep begins. -/
def Launch.begin (l : Launch) : Launch :=
  { l with
    phase := .running, sstep := l.step, start := none, settlement := none, diesReported := 0
    episodes := l.episodes.values fun e => { e with waiting := [] } }

/-- The counters of a core as a superstep begins. -/
def Core.begin (c : Core) : Core :=
  { c with rx := [], halts := 0, taken := 0, settled := false, reported := false, exhausted := false }

/-- A cluster and its cores as a superstep begins. -/
def State.beginCluster (s : State) (p : Nat) : State :=
  ((List.range 8).foldl (fun s k => s.mapCore (8 * p + k) Core.begin) s).mapCluster p Cluster.step

/-- The contexts of a launch join the time that the last superstep has reached. -/
def State.joinStep (s : State) (q : BitVec 6) (l : Launch) : State :=
  if l.step = 0 then s
  else ((s.ctxsOf q).foldl (fun s c => s.mapCtx c fun k => { k with pts := tsMax k.pts l.joinTime }) s).assign l.joinTime

/-- The cores of a cluster that have nothing to run are exhausted at once. -/
def State.exhaustCluster (s : State) (p : Nat) : State :=
  (List.range 8).foldl (fun s k => s.exhaust (BitVec.ofNat 13 (8 * p + k))) s

/-- The state of a superstep's start before its launch is marked as running. -/
def State.beforeRun (s : State) (q : BitVec 6) : State :=
  let t := (s.mapQueue q fun k => { k with pass := k.pass + k.stride }).joinStep q (s.launch q)
  (s.launch q).clusters.foldl State.beginCluster { t with sends := t.sends.filter fun m => m.queue ≠ q }

theorem State.superstepStart_of_granted (h : s.granted q = true) :
    s.superstepStart q =
      (s.launch q).clusters.foldl State.exhaustCluster ((s.beforeRun q).mapLaunch q Launch.begin) := by
  rw [State.superstepStart, if_neg (by rw [h]; decide)]
  rfl

/-! What its parts leave as it was. -/

theorem State.joinStep_queues (s : State) (q : BitVec 6) (l : Launch) : (s.joinStep q l).queues = s.queues := by
  unfold State.joinStep
  split
  · rfl
  · exact foldl_keeps State.queues fun _ _ => by rfl

/-- The times that FLOOR looks at. -/
def State.times (s : State) : Ts × Ts := (s.high, s.floor)

theorem State.FloorAllows.of_times {s t u : State} (h : s.FloorAllows u) (e : t.times = u.times) : s.FloorAllows t := by
  rwa [State.FloorAllows, State.withinFloor_congr (congrArg Prod.fst e) (congrArg Prod.snd e)]

theorem State.floorAllows_of_times {s t : State} (e : t.times = s.times) : s.FloorAllows t :=
  State.FloorAllows.of_times (Bool.eq_false_or_eq_true s.withinFloor) e

/-- The queues, and the times that FLOOR looks at. -/
def State.outline (s : State) : SMap Queue × Ts × Ts := (s.queues, s.times)

theorem State.assign_times {s t : State} (h : t.times = s.times) (x : Ts) : (t.assign x).times = (s.assign x).times :=
  congrArg (fun y : Ts × Ts => (tsMax y.1 x, y.2)) h

/-- The join alone may assign a time. -/
theorem State.joinStep_times (s : State) (q : BitVec 6) (l : Launch) :
    (s.joinStep q l).times = s.times ∨ (s.joinStep q l).times = (s.assign l.joinTime).times := by
  unfold State.joinStep
  split
  · exact .inl rfl
  · exact .inr (State.assign_times (foldl_keeps State.times fun _ _ => by rfl) _)

theorem State.mapCluster_outline (s : State) (p : Nat) (f : Cluster → Cluster) :
    (s.mapCluster p f).outline = s.outline := by
  unfold State.outline
  rfl

theorem State.mapCore_outline (s : State) (c : Nat) (f : Core → Core) : (s.mapCore c f).outline = s.outline := by
  unfold State.outline
  rfl

theorem State.beginCluster_outline (s : State) (p : Nat) : (s.beginCluster p).outline = s.outline := by
  unfold State.beginCluster
  rw [State.mapCluster_outline]
  exact foldl_keeps State.outline fun s _ => s.mapCore_outline _ _

theorem State.exhaust_outline (s : State) (c : BitVec 13) : (s.exhaust c).outline = s.outline := by
  unfold State.exhaust
  dsimp only
  split
  · exact s.mapCore_outline _ _
  · rfl

theorem State.exhaustCluster_outline (s : State) (p : Nat) : (s.exhaustCluster p).outline = s.outline :=
  foldl_keeps State.outline fun s _ => s.exhaust_outline _

theorem State.superstepStart_outline (h : s.granted q = true) :
    (s.superstepStart q).outline = ((s.beforeRun q).mapLaunch q Launch.begin).outline := by
  rw [State.superstepStart_of_granted h]
  exact foldl_keeps State.outline State.exhaustCluster_outline

theorem State.beforeRun_outline (s : State) (q : BitVec 6) :
    (s.beforeRun q).outline =
      ((s.mapQueue q fun k => { k with pass := k.pass + k.stride }).joinStep q (s.launch q)).outline := by
  unfold State.beforeRun
  exact foldl_keeps State.outline State.beginCluster_outline

/-- A granted launch is an admitted one. -/
theorem State.admitted_of_granted (h : s.granted q = true) : (s.queue q).admitted.isSome = true := by
  refine State.admitted_of_launch fun e => ?_
  rw [State.granted, e] at h
  simp [Launch.blank] at h

theorem State.mapQueue_times (s : State) (q : BitVec 6) (f : Queue → Queue) : (s.mapQueue q f).times = s.times := by
  unfold State.times
  rfl

theorem State.floorAllows_superstepStart (h : s.granted q = true)
    (hf : s.FloorAllows (s.assign (s.launch q).joinTime)) : s.FloorAllows (s.superstepStart q) := by
  have charged := s.mapQueue_times q fun k => { k with pass := k.pass + k.stride }
  have start : (s.superstepStart q).times = (s.beforeRun q).times :=
    (congrArg Prod.snd (State.superstepStart_outline h)).trans (State.mapQueue_times ..)
  have join := start.trans (congrArg Prod.snd (s.beforeRun_outline q))
  obtain e | e := State.joinStep_times (s.mapQueue q fun k => { k with pass := k.pass + k.stride }) q (s.launch q)
  · exact State.floorAllows_of_times ((join.trans e).trans charged)
  · exact hf.of_times ((join.trans e).trans (State.assign_times charged _))

/-- The queue as its superstep begins: charged, with its launch running. -/
theorem State.queue_superstepStart (h : s.granted q = true) :
    (s.superstepStart q).queue q = { s.queue q with
      pass := (s.queue q).pass + (s.queue q).stride, admitted := (s.queue q).admitted.map Launch.begin } := by
  have before : (s.beforeRun q).queues = (s.mapQueue q fun k => { k with pass := k.pass + k.stride }).queues :=
    (congrArg Prod.fst (s.beforeRun_outline q)).trans (State.joinStep_queues ..)
  rw [State.queue_of_queues (congrArg Prod.fst (State.superstepStart_outline h)), State.mapLaunch,
    State.queue_mapQueue_self, State.queue_of_queues before, State.queue_mapQueue_self]

theorem State.launch_superstepStart (h : s.granted q = true) : (s.superstepStart q).launch q = (s.launch q).begin := by
  obtain ⟨l, e⟩ := Option.isSome_iff_exists.mp (State.admitted_of_granted h)
  rw [State.launch_of_admitted e]
  exact State.launch_of_admitted (by rw [State.queue_superstepStart h, e, Option.map_some])

/-- Barrier episodes are reset but for those complete (R314, R316). -/
theorem Launch.episodes_begin (l : Launch) (d : Nat) :
    SMap.at l.begin.episodes { waiting := [], completed := [] } d =
      { waiting := [], completed := (SMap.at l.episodes { waiting := [], completed := [] } d).completed } :=
  SMap.at_values l.episodes (f := fun e => { e with waiting := [] }) rfl d

/-- A core with nothing of its list taken, no routine retired and no `SETTLE` issued. -/
structure Core.AtStart (c : Core) : Prop where
  taken : c.taken = 0
  halts : c.halts = 0
  settled : c.settled = false

theorem State.atStart_mapCore {n m : Nat} {f : Core → Core} (hf : ∀ c : Core, c.AtStart → (f c).AtStart)
    (h : (s.core n).AtStart) : ((s.mapCore m f).core n).AtStart := by
  by_cases e : n = m
  · subst e
    rw [State.core_mapCore_self]
    exact hf _ h
  · rwa [State.core_mapCore_ne s f e]

theorem State.core_mapCluster (s : State) (p : Nat) (f : Cluster → Cluster) (n : Nat) :
    (s.mapCluster p f).core n = s.core n := by
  unfold State.core
  rfl

theorem Core.begin_atStart (c : Core) : c.begin.AtStart := ⟨rfl, rfl, rfl⟩

theorem State.beginCluster_atStart {p k : Nat} (hk : k < 8) : ((s.beginCluster p).core (8 * p + k)).AtStart := by
  unfold State.beginCluster
  rw [State.core_mapCluster]
  refine foldl_establishes (P := fun t : State => (t.core (8 * p + k)).AtStart) (List.mem_range.mpr hk) (fun t => ?_)
    (fun t j _ _ ht => State.atStart_mapCore (fun c _ => c.begin_atStart) ht) s
  rw [State.core_mapCore_self]
  exact Core.begin_atStart _

theorem State.beginCluster_keeps_atStart {p n : Nat} (h : (s.core n).AtStart) :
    ((s.beginCluster p).core n).AtStart := by
  unfold State.beginCluster
  rw [State.core_mapCluster]
  exact List.foldlRecOn (motive := fun t : State => (t.core n).AtStart) (List.range 8) _ h
    fun t ht k _ => State.atStart_mapCore (fun c _ => c.begin_atStart) ht

theorem State.exhaust_keeps_atStart {c : BitVec 13} {n : Nat} (h : (s.core n).AtStart) :
    ((s.exhaust c).core n).AtStart := by
  unfold State.exhaust
  dsimp only
  split
  · exact State.atStart_mapCore (fun c hc => ⟨hc.taken, hc.halts, hc.settled⟩) h
  · exact h

/-- Every core of the launch stands at the start of its list (R37, R316). -/
theorem State.superstepStart_atStart (h : s.granted q = true) {p k : Nat} (hp : p ∈ (s.launch q).clusters)
    (hk : k < 8) : ((s.superstepStart q).core (8 * p + k)).AtStart := by
  rw [State.superstepStart_of_granted h]
  have begun : ((s.beforeRun q).core (8 * p + k)).AtStart :=
    foldl_establishes (P := fun t : State => (t.core (8 * p + k)).AtStart) hp (fun t => State.beginCluster_atStart hk)
      (fun t _ _ _ => State.beginCluster_keeps_atStart) _
  exact List.foldlRecOn (motive := fun t : State => (t.core (8 * p + k)).AtStart) _ _ begun fun t ht _ _ =>
    List.foldlRecOn (motive := fun t : State => (t.core (8 * p + k)).AtStart) (List.range 8) _ ht
      fun t ht _ _ => State.exhaust_keeps_atStart ht

theorem exec_superstepStart (q : BitVec 6) (s : State) :
    exec (.superstepStart q) s = happen (modify fun s => s.superstepStart q) s := rfl

theorem superstepStart_begins (h : s.granted q = true) (hf : s.FloorAllows (s.assign (s.launch q).joinTime)) :
    exec (.superstepStart q) s = .next (s.superstepStart q) := by
  rw [exec_superstepStart]
  exact happen_modify (State.floorAllows_superstepStart h hf).holds

theorem superstepStart_still (h : s.granted q = false) : exec (.superstepStart q) s = .next s := by
  rw [exec_superstepStart]
  exact happen_modify_still (by rw [State.superstepStart, if_pos (by rw [h]; decide)])

end Superstep

/-! ## The start of a routine (R34, R37) -/

section Routine
variable {s : State}

/-- The context of a routine as it begins (R34). -/
def Context.routine (k : Context) (l : Launch) (core : BitVec 13) (entry : Word) (args : List Word) : Context :=
  { Context.reset with
    run := .running, pc := entry
    regs := { RegFile.zero with x := fillX ((RegFile.zero.x.set 2 (coreWindow core.toNat + 0x8000)).set 3 l.param) 4 args }
    allow := l.allow, depthlim := l.depthlim, lease := l.lease, pts := k.pts, thunks := k.thunks, dout := k.dout
    ackTime := k.ackTime, sout := k.sout, borrowed := none, entry := .transfer 0 }

/-- The next entry of a core's list may be taken by a context. -/
structure State.Takes (s : State) (c : CtxId) (ridx arg : BitVec 16) : Prop where
  next : (SMap.at (s.launchAt c).plan.lists [] (s.logicalCore c.core))[(s.core c.core.toNat).taken]? = some (ridx, arg)
  tripped : s.tripped = false
  running : (s.launchAt c).phase = .running
  free : (s.ctx c).run = .free
  placed : (s.cluster (clusterOfCore c.core)).placed.isSome = true
  entryOk : pcOk ((s.launchAt c).routines.getD ridx.toNat 0) = true

/-- The core has taken one more entry, and the context begins its routine; nothing else changes. -/
theorem State.routineStart_of_takes {c : CtxId} {ridx arg : BitVec 16} (h : s.Takes c ridx arg) :
    s.routineStart c = (s.mapCore c.core.toNat fun k => { k with taken := k.taken + 1 }).setCtx c
      ((s.ctx c).routine (s.launchAt c) c.core ((s.launchAt c).routines.getD ridx.toNat 0) [arg.setWidth 64]) := by
  obtain ⟨hn, ht, hr, hf, hp, he⟩ := h
  have hp' : (s.cluster (clusterOfCore c.core)).placed.isNone = false := by
    rw [← Option.not_isSome, hp, Bool.not_true]
  rw [State.routineStart]
  simp only [hn, ht, hr, hf, hp']
  rw [if_neg (by decide), State.beginRoutine, if_pos he]
  rfl

theorem State.core_setCtx (s : State) (c : CtxId) (k : Context) (n : Nat) : (s.setCtx c k).core n = s.core n := by
  unfold State.core
  rfl

theorem State.ctx_mapCore (s : State) (n : Nat) (f : Core → Core) (c : CtxId) : (s.mapCore n f).ctx c = s.ctx c := by
  unfold State.ctx
  rfl

theorem exec_routineStart (c : CtxId) (s : State) :
    exec (.routineStart c) s = happen (modify fun s => s.routineStart c) s := rfl

theorem routineStart_begins {c : CtxId} {ridx arg : BitVec 16} (h : s.Takes c ridx arg) :
    exec (.routineStart c) s = .next (s.routineStart c) := by
  rw [exec_routineStart]
  refine happen_modify (State.floor_ok ?_ ?_) <;> rw [State.routineStart_of_takes h] <;> rfl

/-- x2, x3 and x4 hold the stack, PARAM and ARG, and every other register 0. -/
theorem Context.x_routine (k : Context) (l : Launch) (core : BitVec 13) (entry arg : Word) (r : XReg) :
    (k.routine l core entry [arg]).regs.x[r.toNat] =
      if r = 2 then 0xFFFF_8000_0000_0000 + BitVec.ofNat 64 (core.toNat * 2 ^ 17) + 0x8000
      else if r = 3 then l.param else if r = 4 then arg else 0 := by
  have number (n : XReg) : n.toNat = r.toNat ↔ r = n := by rw [← BitVec.toNat_inj, eq_comm]
  have h2 := number 2
  have h3 := number 3
  have h4 := number 4
  simp only [BitVec.reduceToNat] at h2 h3 h4
  simp only [Context.routine, fillX, Vector.getElem_setIfInBounds, Vector.getElem_set, h2, h3, h4, RegFile.zero,
    Vector.getElem_replicate, coreWindow]
  split_ifs <;> simp_all

end Routine

/-! ## The clearing tree and the end of a superstep (R316, R385) -/

section Superstep
variable {s : State} {q : BitVec 6}

theorem exec_clearingReport (q : BitVec 6) (u : ClearUnit) (s : State) :
    exec (.clearingReport q u) s = happen (modify fun s => s.clearingReport q u) s := rfl

theorem exec_superstepEnd (q : BitVec 6) (s : State) :
    exec (.superstepEnd q) s = happen (modify fun s => s.superstepEnd q) s := rfl

/-- A unit that has what it counts reports. -/
theorem State.clearingReport_of_cleared {u : ClearUnit} (hr : (s.launch q).phase = .running)
    (hc : s.cleared (s.launch q) u = true) :
    s.clearingReport q u = match u with
      | .core k => s.mapCore ((s.launch q).physicalCore k.toNat).toNat fun c => { c with reported := true }
      | .cluster i => s.mapCluster ((s.launch q).clusters.getD i.toNat 0) fun k => { k with reported := true }
      | .die d => s.mapLaunch q fun l => { l with diesReported := l.diesReported ||| (1 <<< d.toNat) } := by
  unfold State.clearingReport
  dsimp only
  rw [if_neg (by simp [hr, hc])]
  cases u <;> rfl

theorem clearingReport_reports {u : ClearUnit} (hr : (s.launch q).phase = .running)
    (hc : s.cleared (s.launch q) u = true) : exec (.clearingReport q u) s = .next (s.clearingReport q u) := by
  rw [exec_clearingReport]
  refine happen_modify (State.floor_ok ?_ ?_) <;> rw [State.clearingReport_of_cleared hr hc] <;> cases u <;> rfl

theorem superstepEnd_ends (h : s.stepOver (s.launch q) = true) :
    let stepped := s.mapLaunch q fun l => { l with
      ended := l.ended + 1, step := l.step + 1, joinTime := s.greatestPts q
      phase := if l.step + 1 < l.steps.length then .boundary else .ended }
    s.FloorAllows (stepped.decision (queueSecure q)) →
    exec (.superstepEnd q) s = .next (stepped.decision (queueSecure q)) := by
  intro stepped hf
  rw [exec_superstepEnd]
  exact happen_modify_goes (by rw [State.superstepEnd, if_neg (by simp [h])]) hf

theorem superstepEnd_still (h : s.stepOver (s.launch q) = false) : exec (.superstepEnd q) s = .next s := by
  rw [exec_superstepEnd]
  exact happen_modify_still (by rw [State.superstepEnd, if_pos (by simp [h])])

end Superstep

/-! ## Completion (R47, R54, R386 to R390) -/

section Completion
variable {s : State} {q : BitVec 6}

/-- A decision admits nothing. -/
theorem State.admitted_grants_none {secure : Bool} {n : Nat} (h : (s.queue q).admitted = none) :
    ((s.grants secure n).queue q).admitted = none := by
  induction n generalizing s with
  | zero => exact h
  | succ n ih =>
    rw [State.grants]
    split
    · exact h
    · exact ih (State.admitted_mapLaunch_none h _ _)

theorem State.admitted_decision_none {secure : Bool} (h : (s.queue q).admitted = none) :
    ((s.decision secure).queue q).admitted = none := by
  have hg := State.admitted_grants_none (secure := secure) (n := 32) h
  unfold State.decision State.askStop State.requestPreempt
  split
  · exact hg
  · split_ifs
    · exact State.admitted_mapLaunch_none hg _ _
    · exact hg
    · exact hg

theorem State.powerDown_queues (s : State) : s.powerDown.queues = s.queues := by
  unfold State.powerDown
  split <;> rfl

/-- A launch that leaves its queue is admitted no more. -/
theorem State.admitted_leave (s : State) (q : BitVec 6) (time : Ts) : ((s.leave q time).queue q).admitted = none := by
  unfold State.leave
  extract_lets l secure time s₁ s₂ s₃ s₄
  have h₂ : (s₂.queue q).admitted = none := by
    rw [State.queue_mapQueue_self]
  have h₃ : (s₃.queue q).admitted = none :=
    List.foldlRecOn (motive := fun t : State => (t.queue q).admitted = none) (worldQueues secure) _ h₂
      fun t ht o _ => State.admitted_mapLaunch_none ht o _
  have h₄ : s₄.queues = s₃.queues := State.notified_queues ..
  rw [State.queue_of_queues (State.powerDown_queues _)]
  exact State.admitted_decision_none ((congrArg Queue.admitted (State.queue_of_queues h₄ q)).trans h₃)

theorem exec_launchCompletion (q : BitVec 6) (s : State) :
    exec (.launchCompletion q) s = happen (modify fun s => s.launchCompletion q) s := rfl

theorem launchCompletion_still (h : s.launchCompletion q = s) : exec (.launchCompletion q) s = .next s := by
  rw [exec_launchCompletion]
  exact happen_modify_still h

theorem launchCompletion_goes {t : State} (h : s.launchCompletion q = t) (hf : s.FloorAllows t) :
    exec (.launchCompletion q) s = .next t := by
  rw [exec_launchCompletion]
  exact happen_modify_goes h hf

theorem State.launchCompletion_undrained (he : (s.launch q).phase = .ended) (hd : s.drained q = false) :
    s.launchCompletion q = s := by
  simp only [State.launchCompletion, he, hd, Bool.not_false, if_true]

theorem State.launchCompletion_unacknowledged {line : Nat} (he : (s.launch q).phase = .recorded line)
    (hw : (s.writeEntry line).isSome = true) : s.launchCompletion q = s := by
  simp only [State.launchCompletion, he, hw, if_true]

theorem State.launchCompletion_acknowledged {line : Nat} (he : (s.launch q).phase = .recorded line)
    (hw : s.writeEntry line = none) : s.launchCompletion q = (s.retain q).leave q (s.launch q).joinTime := by
  simp only [State.launchCompletion, he, hw, Option.isSome_none, Bool.false_eq_true, if_false]

/-- A launch that has drained, with its contexts freed and its units emptied. -/
def State.emptied (s : State) (q : BitVec 6) : State :=
  let lent := (s.ctxsOf q).filter fun c => (s.ctx c).run ≠ .free
  (lent.foldl (fun s c => s.mapCtx c Context.freed) (s.forget lent)).empty q

/-- The completion record of a drained launch, and the time that its store has taken. -/
def State.recordCompletion (s : State) (q : BitVec 6) : State × Ts :=
  (s.emptied q).complete (placeAt (s.launch q).donePa) q (s.launch q) 0 (s.launch q).tadmit ((s.emptied q).greatestPts q)

/-! The completion of a launch leaves the queues as they are until the launch leaves. -/

theorem State.leaveDemands_queues (s : State) (q : BitVec 6) : (s.leaveDemands q).queues = s.queues := by
  unfold State.leaveDemands
  extract_lets own s₁ s₂ s₃
  have h₁ : s₁.queues = s.queues := by
    refine foldl_keeps State.queues fun s d => ?_
    split <;> rfl
  have h₃ : s₃.queues = s₂.queues := by
    refine foldl_keeps State.queues fun s f => ?_
    split <;> rfl
  exact h₃.trans h₁

theorem State.empty_queues (s : State) (q : BitVec 6) : (s.empty q).queues = s.queues := by
  unfold State.empty
  extract_lets s₁
  have h₁ : s₁.queues = s.queues := foldl_keeps State.queues fun _ _ => by rfl
  exact (State.leaveDemands_queues s₁ q).trans h₁

theorem State.recordCompletion_queues (s : State) (q : BitVec 6) : (s.recordCompletion q).1.queues = s.queues := by
  unfold State.recordCompletion State.emptied
  rw [State.complete_queues, State.empty_queues]
  exact foldl_keeps State.queues fun _ _ => by rfl

/-- A record in HBM is written when the launch leaves. -/
theorem State.launchCompletion_drained (he : (s.launch q).phase = .ended) (hd : s.drained q = true)
    (hp : (s.launch q).donePa < 2 ^ 51) :
    s.launchCompletion q = ((s.recordCompletion q).1.retain q).leave q (s.recordCompletion q).2 := by
  unfold State.launchCompletion
  dsimp only
  rw [he]
  dsimp only
  rw [if_neg (by simp [hd]), if_neg (Nat.not_le.mpr hp)]
  rfl

/-- A record in host memory is written before the launch leaves: the host has to acknowledge it. -/
theorem State.launchCompletion_drained_host (he : (s.launch q).phase = .ended) (hd : s.drained q = true)
    (hp : 2 ^ 51 ≤ (s.launch q).donePa) :
    s.launchCompletion q = (s.recordCompletion q).1.mapLaunch q fun l => { l with
      phase := .recorded (((s.launch q).donePa - 2 ^ 51) / 64), joinTime := (s.recordCompletion q).2
      preempt := none } := by
  have same : (s.recordCompletion q).1.queue q = s.queue q := State.queue_of_queues (s.recordCompletion_queues q) q
  unfold State.launchCompletion
  dsimp only
  rw [he]
  dsimp only
  rw [if_neg (by simp [hd]), if_pos hp]
  generalize 2 ^ 51 = hostBase
  refine State.mapLaunch_congr (s := (s.recordCompletion q).1) fun l hl => ?_
  rw [same] at hl
  rw [← State.launch_of_admitted hl]
  rfl

end Completion

/-! ## The obligation -/

/-- Settles O48: the rule of each step of a launch, from the admission of its entry to its completion. -/
theorem launchesRun : Obligations.LaunchesRun := by
  unfold Obligations.LaunchesRun
  intro q s launch queue secure goes
  refine ⟨fun e rest c d => admission_fresh, fun e rest he ha hen ht hnew => ?head, admission_barred,
    State.pick_grants (s.ungranted_le secure), fun o ho => ?pick, fun st hu hs => ?place, placement_still, fun hg hf => ?start,
    superstepStart_still, fun c ridx arg hq => ?routine, fun hr u hc => ?report, superstepEnd_ends, superstepEnd_still,
    fun he hd => launchCompletion_still (State.launchCompletion_undrained he hd), fun he hd => ?drained,
    fun line hl => ?recorded⟩
  case head =>
    have hfresh : e.fresh s.clock = false := by
      rw [← Bool.not_eq_true, QueueEntry.fresh_iff]
      rintro ⟨c, d, hb⟩
      exact hnew c d s.clock hb rfl
    have hc : s.Considers q e rest := ⟨he, ha, hen, ht, hfresh⟩
    refine ⟨fun x => State.consider_unread, fun r hr => ⟨?_, ?_, ?_, ?_⟩, fun l hl => ⟨admission_admits hc hl, ?_⟩,
      fun c r place hx hp => ⟨admission_rejects hc hx hp, State.rejectLaunch_status hc r c place⟩, rfl,
      fun line r => admission_asksBack hc⟩
    · exact fun h => State.consider_rejected hr (State.checkRecord_version h)
    · exact fun h₁ h => State.consider_rejected hr (State.checkRecord_counts h₁ h)
    · exact fun h₁ h₂ h => State.consider_rejected hr (State.checkRecord_world h₁ h₂ h)
    · rintro h₁ h₂ h₄ ⟨o, l, ho, hl, h⟩
      exact State.consider_rejected hr (State.checkRecord_live h₁ h₂ h₄ ho hl h)
    · exact State.admitted_mapQueue_some (s.raisePass q) q rest l
  case pick =>
    obtain ⟨hp, hw⟩ := State.pick_eq_some ho
    exact ⟨State.launch_grant_self hp, hp, hw, fun base hb => State.pick_precedes hb ho⟩
  case place =>
    have ha : (s.queue q).admitted.isSome = true :=
      State.admitted_of_launch fun e => by simp [launch, e, Launch.blank] at hs
    obtain ⟨phase, clusters, step, start⟩ := State.launch_place (st := st) ha
    exact ⟨placement_places hu hs, phase, clusters, step, start, fun hn i p => State.placed_place hn⟩
  case start =>
    refine ⟨_, superstepStart_begins hg hf, ?_⟩
    rw [State.launch_superstepStart hg, State.queue_superstepStart hg]
    refine ⟨rfl, rfl, rfl, rfl, launch.episodes_begin, rfl, fun p hp k hk => ?_⟩
    obtain ⟨taken, halts, settled⟩ := State.superstepStart_atStart hg hp hk
    exact ⟨taken, halts, settled⟩
  case routine =>
    subst hq
    intro core entry hn ht hr hf hp he
    have takes : s.Takes c ridx arg := ⟨hn, ht, hr, hf, hp, he⟩
    refine ⟨_, routineStart_begins takes, ?_⟩
    rw [State.routineStart_of_takes takes, State.ctx_setCtx_self]
    refine ⟨rfl, rfl, ?_, rfl, rfl, rfl, rfl, Context.x_routine _ _ _ _ _, fun r => Vector.getElem_replicate r.isLt,
      fun r => Vector.getElem_replicate r.isLt, fun c' hne => ?_⟩
    · rw [State.core_setCtx, State.core_mapCore_self]
    · rw [State.ctx_setCtx_ne _ _ hne, State.ctx_mapCore]
  case report =>
    have reports := clearingReport_reports hr hc
    rw [State.clearingReport_of_cleared hr hc] at reports
    refine ⟨?_, ?_, ?_⟩
    all_goals
      rintro k rfl
      exact reports
  case drained =>
    intro lent left done
    exact ⟨fun hp => ⟨launchCompletion_goes (State.launchCompletion_drained he hd hp), State.admitted_leave _ _ _⟩,
      fun hp => launchCompletion_goes (State.launchCompletion_drained_host he hd hp)⟩
  case recorded =>
    exact ⟨fun hw => launchCompletion_still (State.launchCompletion_unacknowledged hl hw),
      fun hw => launchCompletion_goes (State.launchCompletion_acknowledged hl hw)⟩

end Sys2Proof.Machine
end

section
/-! What effects and decisions leave as it was, and the steps of the part that assign no time (R51, R282). -/

namespace Sys2Proof.Machine

/-! ## Effects that complete -/

/-- An effect that completes leaves what `g` sees of the state as it was. -/
def Eff.Fixes {α β : Type} (g : State → β) (e : Eff α) : Prop := ∀ ⦃s a t⦄, e.run s = .ok a t → g t = g s

namespace Eff.Fixes
variable {α β γ : Type} {g : State → γ} {e d : Eff α}

theorem pure {a : α} : Fixes g (pure a : Eff α) := by
  rintro s _ _ ⟨⟩
  rfl

theorem throw {x : Stop} : Fixes g (throw x : Eff α) := by
  rintro s a t ⟨⟩

theorem bind {f : α → Eff β} (he : Fixes g e) (hf : ∀ a, Fixes g (f a)) : Fixes g (e >>= f) := by
  intro s b t h
  rw [Eff.run_bind] at h
  cases hr : e.run s with
  | ok a u =>
    rw [hr] at h
    exact (hf a h).trans (he hr)
  | error x u =>
    rw [hr] at h
    cases h

theorem get {f : State → Eff β} (hf : ∀ s, Fixes g (f s)) : Fixes g (get >>= f) := fun s _ _ h => hf s h

theorem modify {f : State → State} (hf : ∀ s, g (f s) = g s) : Fixes g (modify f : Eff PUnit) := by
  rintro s _ _ ⟨⟩
  exact hf s

theorem ite {c : Prop} {_ : Decidable c} (he : Fixes g e) (hd : Fixes g d) : Fixes g (if c then e else d) := by
  split <;> assumption

/-- A check that stops an effect short, and what comes after it. -/
theorem when {c : Prop} {_ : Decidable c} {e : Eff PUnit} {f : PUnit → Eff β} (he : Fixes g e)
    (hf : ∀ u, Fixes g (f u)) : Fixes g (if c then e >>= f else f ⟨⟩) := ite (bind he hf) (hf ⟨⟩)

end Eff.Fixes

/-- What a context issues from, beside its core: the queues and contexts, the clock, and the times that FLOOR looks at. -/
def State.issuing (s : State) : SMap Queue × SMap Context × CtxId × Nat × Ts × Ts :=
  (s.queues, s.contexts, s.active, s.clock, s.times)

theorem placeOf_fixes {β} {g : State → β} {t : Thread} {need : Need} {acc : BitVec 4} {faddr va : Word} {e : Tlb} :
    Eff.Fixes g (placeOf t need acc faddr e va) :=
  .get fun _ => .when .throw fun _ => .when .throw fun _ => .when .throw fun _ => .pure

theorem translateHeld_fixes {t : Thread} {fetch : Bool} {acc : BitVec 4} {faddr va : Word} :
    Eff.Fixes State.issuing (translateHeld t fetch acc faddr va) := by
  refine .get fun s => .when .throw fun _ => ?_
  split
  · exact .bind (.modify fun _ => by rfl) fun _ => .pure
  · exact .ite .throw (.bind (.modify fun _ => by rfl) fun _ => .throw)

theorem locate_fixes {t : Thread} {need : Need} {acc : BitVec 4} {faddr va : Word} :
    Eff.Fixes State.issuing (locate false t need acc faddr va) := by
  refine .bind ?_ fun _ => .pure
  unfold locateEntry
  refine .ite (.get fun s => ?_) (.ite (.bind translateHeld_fixes fun _ => .bind placeOf_fixes fun _ => .pure) .throw)
  split
  · exact .pure
  · exact .throw

theorem State.grants_part (s : State) (secure : Bool) (n : Nat) :
    s.grants secure n = { s with queues := (s.grants secure n).queues } := by
  induction n generalizing s with
  | zero => rfl
  | succ n ih =>
    rw [State.grants]
    split
    · rfl
    · rw [ih]
      rfl

/-- A decision changes queues alone. -/
theorem State.decision_part (s : State) (secure : Bool) :
    s.decision secure = { s with queues := (s.decision secure).queues } := by
  have hg := s.grants_part secure 32
  unfold State.decision State.askStop State.requestPreempt
  split
  · exact hg
  · split_ifs
    · rw [hg]
      rfl
    · exact hg
    · exact hg

theorem State.decision_times (s : State) (secure : Bool) : (s.decision secure).times = s.times := by
  rw [State.decision_part]
  rfl

theorem State.setX_times (s : State) (d : XReg) (w : Word) : (s.setX d w).times = s.times := by
  simp [State.times]

/-! ## Steps that assign no time -/

/-- A step of the part that assigns no time comes about whatever FLOOR is. -/
theorem happen_modify_timeless {f : State → State} {s t : State} (e : f s = t) (h : t.times = s.times) :
    happen (modify f) s = .next t := happen_modify_goes e (State.floorAllows_of_times h)

theorem happen_modify_congr {f g : State → State} {s : State} (h : f s = g s) :
    happen (modify f) s = happen (modify g) s := by
  simp only [happen, Eff.run_modify, h]

theorem State.mapWorld_times (s : State) (secure : Bool) (f : WorldRegs → WorldRegs) :
    (s.mapWorld secure f).times = s.times := by cases secure <;> rfl

theorem State.mapWorld_congr {s : State} {secure : Bool} {f g : WorldRegs → WorldRegs}
    (h : f (s.world secure) = g (s.world secure)) : s.mapWorld secure f = s.mapWorld secure g := by
  rw [State.mapWorld, h, State.mapWorld]

theorem State.world_mapWorld_self (s : State) (secure : Bool) (f : WorldRegs → WorldRegs) :
    (s.mapWorld secure f).world secure = f (s.world secure) := by cases secure <;> rfl

theorem State.mapLaunch_times (s : State) (q : BitVec 6) (f : Launch → Launch) : (s.mapLaunch q f).times = s.times :=
  s.mapQueue_times q _

end Sys2Proof.Machine
end

section
/-! `LAUNCH`: the checks of its record address in their order, and the append (R46, R51, R162). -/

namespace Sys2Proof.Machine

/-- A guarded instruction that may issue, under a predicate that holds. -/
theorem guarded_holds {p : Pred} {e : Eff Next} {s : State} (h : s.Ready) (hp : s.holds p = true) :
    guarded p e s = perform e s := by
  have run : (under p e).run s = e.run s := by rw [under_run, if_pos hp]
  rw [guarded_ready h.1 h.2]
  simp only [plain, perform, run]

/-- The entry that a `LAUNCH` of the active context appends (R46). -/
def State.launchEntry (s : State) (d : XReg) (va : Word) : QueueEntry :=
  { addr := va, virt := some ((s.threadOf s.active).asid, tsMax s.me.pts s.me.ackTime), by_ := some (s.active, d, s.clock) }

/-- What a `LAUNCH` does under its predicate. -/
def launchEff (d a : XReg) (q : BitVec 6) : Eff Next := do
  let s ← get
  let t := s.threadOf s.active
  let va := s.x a
  if isWindow va then fail .window va
  if va.toNat % 128 ≠ 0 then fail .align va
  let _ ← locate false t .read 1 va va
  if queueSecure q ≠ t.secure then fail .world va
  if (← get).me.dout ≠ 0 then waitFor .join
  let full := 256 ≤ (s.queue q).entries.length
  modify fun s => (((s.mapQueue q fun k =>
      k.append { addr := va, virt := some (t.asid, tsMax s.me.pts s.me.ackTime)
                 by_ := some (s.active, d, s.clock) }).decision t.secure).setX d
    (if full then 1 else 0))
  return .seq

section Launch
variable {p : Pred} {d a : XReg} {q : BitVec 6} {s u : State} {pl : Place}

theorem exec_launch (h : s.Ready) (hp : s.holds p = true) : exec (.launch p d a q) s = perform (launchEff d a q) s :=
  guarded_holds h hp

theorem launchEff_window (hw : isWindow (s.x a) = true) :
    (launchEff d a q).run s = .error (.trap { cause := .window, faddr := s.x a }) s := by
  rw [launchEff, Eff.run_bind_ok (Eff.run_get s)]
  dsimp only
  rw [if_pos hw]
  rfl

theorem launchEff_align (hw : isWindow (s.x a) = false) (ha : (s.x a).toNat % 128 ≠ 0) :
    (launchEff d a q).run s = .error (.trap { cause := .align, faddr := s.x a }) s := by
  rw [launchEff, Eff.run_bind_ok (Eff.run_get s)]
  dsimp only
  rw [if_neg (by simp [hw]), if_pos ha]
  rfl

/-- What follows once the record's address is located. -/
theorem launchEff_located (hw : isWindow (s.x a) = false) (ha : (s.x a).toNat % 128 = 0)
    (hl : (locate false (s.threadOf s.active) .read 1 (s.x a) (s.x a)).run s = .ok pl u) :
    (launchEff d a q).run s =
      if queueSecure q ≠ (s.threadOf s.active).secure then .error (.trap { cause := .world, faddr := s.x a }) u
      else if u.me.dout ≠ 0 then .error (.wait .join) u
      else .ok .seq (((u.mapQueue q fun k => k.append (s.launchEntry d (s.x a))).decision (s.threadOf s.active).secure).setX d
        (if 256 ≤ (s.queue q).entries.length then 1 else 0)) := by
  have fixed : u.issuing = s.issuing := locate_fixes hl
  obtain ⟨-, contexts, active, clock, -⟩ := by simpa only [State.issuing, Prod.mk.injEq] using fixed
  have me : u.me = s.me := by rw [State.me, State.ctx, contexts, active]; rfl
  rw [launchEff, Eff.run_bind_ok (Eff.run_get s)]
  dsimp only
  rw [if_neg (by simp [hw]), if_neg (by simp [ha]), Eff.run_bind_ok hl]
  by_cases hq : queueSecure q ≠ (s.threadOf s.active).secure
  · rw [if_pos hq, if_pos hq]
    rfl
  · rw [if_neg hq, if_neg hq, Eff.run_bind_ok (Eff.run_get u)]
    by_cases hd : u.me.dout ≠ 0
    · rw [if_pos hd, if_pos hd]
      rfl
    · rw [if_neg hd, if_neg hd, Eff.run_bind_ok (Eff.run_modify _ u), me, active, clock]
      rfl

/-- Settles O11: each check of the record's address in its order, and the append once all have passed. -/
theorem launchAppends : Obligations.LaunchAppends := by
  unfold Obligations.LaunchAppends
  intro p d a q s hr hp va t
  rw [exec_launch hr hp]
  refine ⟨fun hw => perform_trap (launchEff_window hw), fun hw ha => perform_trap (launchEff_align hw ha),
    fun hw ha pl u hl => ?_⟩
  have run := launchEff_located (d := d) (q := q) hw ha hl
  have fixed : u.issuing = s.issuing := locate_fixes hl
  obtain ⟨queues, -, -, -, times⟩ := by simpa only [State.issuing, Prod.mk.injEq] using fixed
  refine ⟨fun hq => ?world, fun hq hd hf => ?wait, fun hq hd hf => ?append⟩
  case world =>
    rw [if_pos hq] at run
    exact perform_trap run
  case wait =>
    rw [if_neg (not_not.mpr hq), if_pos hd] at run
    exact perform_wait run hf.holds
  case append =>
    rw [if_neg (not_not.mpr hq), if_neg (not_not.mpr hd)] at run
    have within : s.FloorAllows (((u.mapQueue q fun k => k.append (s.launchEntry d va)).decision t.secure).setX d
        (if 256 ≤ (s.queue q).entries.length then 1 else 0)) := hf.of_times (by
      rw [State.setX_times, State.decision_times, State.mapQueue_times])
    rw [perform_ok run within.holds]
    simp only [← not_lt, ite_not]
    rfl

end Launch

end Sys2Proof.Machine
end

section
/-! The writes of the registers of BAR0 and BAR2 (R44 to R48, R62, R71, R78, R83, R100, R336, R340, R342, R367, R403, R405).

First the fields of a written word. Then each register by its name: the queue blocks, the registers that have a step of
their own, the TLB invalidation and the assay ranges. Then the offsets: where one leads, and that the write there is the
change that its register stands for. -/

namespace Sys2Proof.Machine

/-! ## Fields of a written word -/

/-- Bits [hi:lo] of a word in their places are what a mask of them lets through. -/
theorem bitsOf_eq_and (w : Word) (hi lo : Nat) :
    bitsOf w hi lo = w &&& BitVec.ofNat 64 ((2 ^ (hi + 1 - lo) - 1) * 2 ^ lo) := by
  refine BitVec.eq_of_getLsbD_eq fun i hl => ?_
  simp only [bitsOf, field, BitVec.getLsbD_and, BitVec.getLsbD_ofNat, hl, decide_true, Bool.true_and,
    Nat.testBit_mul_two_pow, Nat.testBit_div_two_pow, Nat.testBit_mod_two_pow, Nat.testBit_two_pow_sub_one,
    BitVec.testBit_toNat]
  by_cases h : lo ≤ i
  · have inside : i - lo < hi + 1 - lo ↔ i < hi + 1 := by omega
    simp [h, inside, Nat.sub_add_cancel h, Bool.and_comm]
  · simp [h]

theorem bitsOf_eq_mod {v : Word} {hi lo w : Nat} (h : hi + 1 = lo + w) :
    bitsOf v hi lo = BitVec.ofNat 64 (v.toNat / 2 ^ lo % 2 ^ w * 2 ^ lo) := by
  rw [bitsOf, field, h, Nat.pow_add, Nat.mod_mul_right_div_self]

/-- Fields of words under masks that do not meet add up without a carry. -/
theorem and_add_and_eq_or {w x m n : Word} (h : m &&& n = 0#64) : (w &&& m) + (x &&& n) = (w &&& m) ||| (x &&& n) := by
  have swap : (w &&& m) &&& (x &&& n) = w &&& x &&& (m &&& n) := by ac_rfl
  rw [BitVec.add_eq_or_of_and_eq_zero _ _ (by rw [swap, h, BitVec.and_zero])]

theorem and_add_and {w m n : Word} (h : m &&& n = 0#64) : (w &&& m) + (w &&& n) = w &&& (m ||| n) := by
  rw [and_add_and_eq_or h]
  refine BitVec.eq_of_getLsbD_eq fun i _ => ?_
  simp only [BitVec.getLsbD_or, BitVec.getLsbD_and, Bool.and_or_distrib_left]

theorem bitsOf_51_7 (v : Word) : bitsOf v 51 7 = v &&& 0x000F_FFFF_FFFF_FF80 := bitsOf_eq_and v 51 7
theorem bitsOf_51_12 (v : Word) : bitsOf v 51 12 = v &&& 0x000F_FFFF_FFFF_F000 := bitsOf_eq_and v 51 12
theorem bitsOf_21_0 (v : Word) : bitsOf v 21 0 = v &&& 0x3F_FFFF := bitsOf_eq_and v 21 0
theorem rangeHi_eq (v : Word) : rangeHi v = v &&& 0x000F_FFFF_FFE0_0000 := bitsOf_eq_and v 51 21
theorem rangeLo_eq (v : Word) : rangeLo v = v &&& 0x800F_FFFF_FFE0_0000 := by
  rw [rangeLo, bitsOf_eq_and v 63 63, bitsOf_eq_and v 51 21]
  exact and_add_and (by decide)

/-- The low bits of a word are its remainder. -/
theorem ofNat_field_low (w : Word) : BitVec.ofNat 64 (field w 4 0) = w &&& 0x1F := by
  exact (congrArg (BitVec.ofNat 64) (Nat.mul_one _)).symm.trans (bitsOf_eq_and w 4 0)

/-- The first word of an assay range: BAR2 alone writes SEC (R100). -/
theorem assayWord_eq (secure : Bool) (old v : Word) :
    (if secure then bitsOf v 62 62 else old &&& 0x4000_0000_0000_0000) + bitsOf v 63 63 + bitsOf v 61 57 + bitsOf v 51 16 =
      (v &&& 0xBE0F_FFFF_FFFF_0000) ||| ((if secure then v else old) &&& 0x4000_0000_0000_0000) := by
  have sec : (if secure then bitsOf v 62 62 else old &&& 0x4000_0000_0000_0000) =
      (if secure then v else old) &&& 0x4000_0000_0000_0000 := by
    cases secure
    · rfl
    · exact bitsOf_eq_and v 62 62
  rw [sec, bitsOf_eq_and v 63 63, bitsOf_eq_and v 61 57, bitsOf_eq_and v 51 16, add_assoc, add_assoc,
    and_add_and (m := BitVec.ofNat 64 ((2 ^ (61 + 1 - 57) - 1) * 2 ^ 57)) (by decide), and_add_and (by decide),
    and_add_and_eq_or (by decide), BitVec.or_comm]
  rfl

/-! ## The queue blocks (R45, R46, R48, R58, R60) -/

section Queue
variable {s : State} {q : BitVec 6} {v : Word}

theorem exec_qsub (q : BitVec 6) (v : Word) (s : State) :
    exec (.qsub q v) s = happen (modify fun s => (s.qsub q v).decision (queueSecure q)) s := rfl
theorem exec_tickets (q : BitVec 6) (v : Word) (s : State) :
    exec (.tickets q v) s = happen (modify fun s => (s.writeTickets q v).decision (queueSecure q)) s := rfl
theorem exec_preempt (q : BitVec 6) (v : Word) (s : State) :
    exec (.preempt q v) s = happen (modify fun s => (s.writeControl q v).decision (queueSecure q)) s := rfl
theorem exec_enable (q : BitVec 6) (v : Word) (s : State) :
    exec (.enable q v) s = happen (modify fun s => (s.writeControl q v).decision (queueSecure q)) s := rfl

/-- A change that assigns no time, and then a decision. -/
theorem happen_decision {f : State → State} {t : State} {secure : Bool} (e : f s = t) (h : t.times = s.times) :
    happen (modify fun s => (f s).decision secure) s = .next (t.decision secure) :=
  happen_modify_timeless (congrArg (State.decision · secure) e) ((State.decision_times ..).trans h)

/-- The entries that `LAUNCH` has appended in this cycle are the longest end of the queue that is fresh. -/
theorem takeWhile_fresh {early late : List QueueEntry} {clock : Nat} (hl : ∀ x ∈ late, x.fresh clock = true)
    (he : ∀ x, early.getLast? = some x → x.fresh clock = false) :
    ((early ++ late).reverse.takeWhile fun x => x.fresh clock).reverse = late := by
  have stops : early.reverse.takeWhile (fun x => x.fresh clock) = [] := by
    cases h : early.reverse with
    | nil => rfl
    | cons x r =>
      have last : early.getLast? = some x := by rw [← List.head?_reverse, h, List.head?_cons]
      rw [List.takeWhile_cons, he x last]
      rfl
  rw [List.reverse_append, List.takeWhile_append_of_pos fun x hx => hl x (List.mem_reverse.mp hx), stops, List.append_nil,
    List.reverse_reverse]

/-- Where a write of the host puts its entry: before those of this cycle's `LAUNCH`es. -/
structure State.Parts (s : State) (q : BitVec 6) (early late : List QueueEntry) : Prop where
  entries : (s.queue q).entries = early ++ late
  late : ∀ x ∈ late, x.fresh s.clock = true
  early : ∀ x, early.getLast? = some x → x.fresh s.clock = false

variable {early late : List QueueEntry}

theorem State.Parts.lateOf (h : s.Parts q early late) :
    ((s.queue q).entries.reverse.takeWhile fun x => x.fresh s.clock).reverse = late := by
  rw [h.entries]
  exact takeWhile_fresh h.late h.early

theorem State.Parts.earlyOf (h : s.Parts q early late) :
    (s.queue q).entries.take ((s.queue q).entries.length - late.length) = early := by
  rw [h.entries, List.length_append, Nat.add_sub_cancel, List.take_left]

theorem State.appendHost_room (h : s.Parts q early late) (hl : (s.queue q).entries.length < 256) (e : QueueEntry) :
    s.appendHost q e = s.setQueue q { s.queue q with entries := early ++ e :: late } := by
  unfold State.appendHost
  dsimp only
  rw [if_pos hl, h.lateOf, h.earlyOf]

theorem State.appendHost_full (h : s.Parts q early []) (hl : 256 ≤ (s.queue q).entries.length) (e : QueueEntry) :
    s.appendHost q e = s.setQueue q { s.queue q with ovf := true } := by
  unfold State.appendHost
  dsimp only
  rw [if_neg (Nat.not_lt.mpr hl), h.lateOf]
  rfl

/-- The last `LAUNCH` of the cycle finds the queue full, where the host's write has filled it. -/
theorem State.appendHost_displaces {keep : List QueueEntry} {x : QueueEntry} {c : CtxId} {d : XReg} {t : Nat}
    (h : s.Parts q early (keep ++ [x])) (hl : 256 ≤ (s.queue q).entries.length) (hx : x.by_ = some (c, d, t)) (hd : d ≠ 0)
    (e : QueueEntry) :
    s.appendHost q e = (s.setQueue q { s.queue q with entries := early ++ e :: keep, ovf := true }).mapCtx c
      fun m => { m with regs := { m.regs with x := m.regs.x.set d.toNat 1 } } := by
  unfold State.appendHost
  dsimp only
  rw [if_neg (Nat.not_lt.mpr hl), h.lateOf, List.getLast?_concat, h.earlyOf, List.dropLast_concat]
  simp only [hx, hd, if_false]

theorem State.qsub_taken (hr : s.ready = true) (hv : v.toNat % 128 = 0) :
    s.qsub q v = s.appendHost q { addr := v, virt := none, by_ := none } := by
  rw [State.qsub, if_neg (by simp [hr, hv])]

theorem State.qsub_malformed (h : s.ready = false ∨ v.toNat % 128 ≠ 0) :
    s.qsub q v = s.mapQueue q fun k => { k with badw := true } := by
  rw [State.qsub, if_pos (by simpa using h)]

/-- What a write of TICKETS comes to. -/
theorem State.writeTickets_eq :
    s.writeTickets q v = if s.ready = true ∧ 1 ≤ v.toNat % 2 ^ 11 ∧ v.toNat % 2 ^ 11 ≤ 1024 then
      s.mapQueue q fun k => { k with tickets := BitVec.ofNat 11 (v.toNat % 2 ^ 11) } else s := by
  simp only [State.writeTickets, Bool.and_eq_true, decide_eq_true_eq, and_assoc]

theorem State.writeTickets_times : (s.writeTickets q v).times = s.times := by
  unfold State.writeTickets
  dsimp only
  split <;> rfl

theorem State.requestPreempt_times (hard : Bool) : (s.requestPreempt q hard).times = s.times := by
  unfold State.requestPreempt
  split <;> rfl

theorem State.writeControl_times : (s.writeControl q v).times = s.times := by
  unfold State.writeControl
  extract_lets s₁ s₂
  have h₂ : s₂.times = s.times := by
    unfold s₂
    split <;> rfl
  split_ifs
  · rfl
  · rw [State.requestPreempt_times, h₂]
  · exact h₂

theorem State.phase_enable (b : Bool) : ((s.mapQueue q fun k => { k with enable := b }).launch q) = s.launch q := by
  rw [State.launch, State.queue_mapQueue_self, State.launch]

/-- What a write of the control word comes to: ENABLE, and the request to pre-empt a launch that may be saved. -/
theorem State.writeControl_eq :
    let set := s.mapQueue q fun k => { k with enable := v.getLsbD 0 }
    let ends := if v.getLsbD 0 = true ∨ (s.launch q).phase ≠ .boundary then set
      else set.mapLaunch q fun l => { l with start := none }
    let wants := (ends.launch q).placed = true ∧ ends.savable q = true
    let asked := if v.getLsbD 1 = true ∧ wants then
        ends.mapLaunch q fun l => { l with preempt := some (v.getLsbD 2 || l.preempt = some true) }
      else ends
    s.writeControl q v = if s.ready = true then asked else s := by
  intro set ends wants asked
  cases hr : s.ready with
  | false => simp [State.writeControl, hr]
  | true =>
    rw [State.writeControl, if_neg (by simp [hr]), if_pos rfl]
    simp only [State.requestPreempt]
    have e : (if (v.getLsbD 0 || (set.launch q).phase != .boundary) = true then set
        else set.mapLaunch q fun l => { l with start := none }) = ends := by
      rw [State.phase_enable]
      simp only [Bool.or_eq_true, bne_iff_ne]
      rfl
    rw [e]
    by_cases h₁ : v.getLsbD 1 = true
    · simp only [asked, wants, h₁, Bool.and_eq_true, true_and, if_true]
    · rw [if_neg h₁]
      exact (if_neg fun h => h₁ h.1).symm

theorem qsub_malformed (h : s.ready = false ∨ v.toNat % 128 ≠ 0) :
    exec (.qsub q v) s = .next ((s.mapQueue q fun k => { k with badw := true }).decision (queueSecure q)) := by
  rw [exec_qsub]
  exact happen_decision (State.qsub_malformed h) rfl

theorem qsub_appends {t : State} (hr : s.ready = true) (hv : v.toNat % 128 = 0)
    (e : s.appendHost q { addr := v, virt := none, by_ := none } = t) (ht : t.times = s.times) :
    exec (.qsub q v) s = .next (t.decision (queueSecure q)) := by
  rw [exec_qsub]
  exact happen_decision ((State.qsub_taken hr hv).trans e) ht

end Queue
/-! ## Worlds, rings and sizes (R62, R78, R83, R336, R342) -/

section Single
variable {s : State} {secure : Bool} {v : Word}

theorem exec_cworldWrite (word : BitVec 4) (v : Word) (s : State) :
    exec (.cworldWrite word v) s = happen (modify fun s => s.writeCworld word.toNat v) s := rfl
theorem exec_csworldWrite (die : BitVec 3) (v : Word) (s : State) :
    exec (.csworldWrite die v) s = happen (modify fun s => s.writeCsworld die.toNat v) s := rfl
theorem exec_frtail (secure : Bool) (v : Word) (s : State) :
    exec (.frtail secure v) s = happen (modify fun s => s.writeFrtail secure v) s := rfl
theorem exec_trtail (secure : Bool) (die : BitVec 3) (v : Word) (s : State) :
    exec (.trtail secure die v) s = happen (modify fun s => s.writeTrtail secure die.toNat v) s := rfl
theorem exec_replayRegisterWrite (secure : Bool) (v : Word) (s : State) :
    exec (.replayRegisterWrite secure v) s = happen (modify fun s => s.replayWrite secure v) s := rfl
theorem exec_kill (secure : Bool) (v : Word) (s : State) :
    exec (.kill secure v) s = happen (modify fun s => s.killWrite secure v) s := rfl
theorem exec_hcsize (v : Word) (s : State) : exec (.hcsize v) s = happen (modify fun s => s.writeHcsize v) s := rfl
theorem exec_tlbInvalidationRequest (secure : Bool) (v : Word) (s : State) :
    exec (.tlbInvalidationRequest secure v) s = happen (modify fun s => s.requestInval secure v) s := rfl
theorem exec_assayRangeWrite (secure : Bool) (i : BitVec 4) (j : BitVec 3) (v : Word) (s : State) :
    exec (.assayRangeWrite secure i j v) s = happen (modify fun s => s.writeAssay secure i.toNat j.toNat v) s := rfl
theorem exec_tlbInvalidationDone (secure : Bool) (s : State) :
    exec (.tlbInvalidationDone secure) s = happen (modify fun s => s.finishInval secure) s := rfl

/-- CWORLD with one of its words written. -/
def cworldWith (w : BitVec 1024) (i : Nat) (v : Word) : BitVec 1024 :=
  (w &&& ~~~(((BitVec.allOnes 64).setWidth 1024 : BitVec 1024) <<< (64 * i))) ||| (v.setWidth 1024 <<< (64 * i))

theorem State.writeCworld_eq (hr : s.ready = true) (i : Nat) :
    s.writeCworld i v = { s with cworld := cworldWith s.cworld i v } := by
  rw [State.writeCworld, if_neg (by simp [hr])]
  rfl

theorem getLsbD_cworldWith (w : BitVec 1024) (i k : Nat) (hk : k < 1024) :
    (cworldWith w i v).getLsbD k = if k / 64 = i then v.getLsbD (k % 64) else w.getLsbD k := by
  simp only [cworldWith, BitVec.getLsbD_or, BitVec.getLsbD_and, BitVec.getLsbD_not, BitVec.getLsbD_shiftLeft,
    BitVec.getLsbD_setWidth, BitVec.getLsbD_allOnes, hk, decide_true, Bool.true_and]
  split_ifs with h
  · have place : k - 64 * i = k % 64 ∧ ¬ k < 64 * i ∧ k % 64 < 64 ∧ k % 64 < 1024 := by omega
    obtain ⟨e, below, low, wide⟩ := place
    simp [e, below, low, wide]
  · have outside : k < 64 * i ∨ ¬ k < 64 * i ∧ 64 ≤ k - 64 * i := by omega
    obtain below | ⟨below, above⟩ := outside
    · simp [below]
    · simp [below, Nat.not_lt.mpr above, BitVec.getLsbD_of_ge v _ above]

theorem cworldWrite_takes (hr : s.ready = true) (word : BitVec 4) :
    exec (.cworldWrite word v) s = .next { s with cworld := cworldWith s.cworld word.toNat v } := by
  rw [exec_cworldWrite]
  exact happen_modify_timeless (State.writeCworld_eq hr _) rfl

theorem csworldWrite_takes (hr : s.ready = true) (die : BitVec 3) : exec (.csworldWrite die v) s =
    .next { s with csworld := s.csworld.setIfInBounds die.toNat (v.setWidth 32) } := by
  rw [exec_csworldWrite]
  exact happen_modify_timeless (by rw [State.writeCsworld, if_neg (by simp [hr])]) rfl

theorem frtail_takes (hr : s.ready = true) : exec (.frtail secure v) s =
    .next (s.mapWorld secure fun w => { w with frtail := v.setWidth 16 }) := by
  rw [exec_frtail]
  exact happen_modify_timeless (by rw [State.writeFrtail, if_neg (by simp [hr])]) (s.mapWorld_times ..)

theorem trtail_takes (hr : s.ready = true) (die : BitVec 3) : exec (.trtail secure die v) s =
    .next (s.mapWorld secure fun w => { w with
      traces := SMap.put w.traces die.toNat
        { SMap.at w.traces .reset die.toNat with tail := v.setWidth 20, lost := 0 } }) := by
  rw [exec_trtail]
  exact happen_modify_timeless (by rw [State.writeTrtail, if_neg (by simp [hr])]) (s.mapWorld_times ..)

theorem hcsize_takes (hr : s.ready = true) (hp : s.anyPlaced = false) (hn : v.toNat % 128 ≤ 64)
    (he : v.toNat % 128 ≤ 48 * s.enabledStacks.length) : exec (.hcsize v) s = .next { s with hcsize := v.setWidth 7 } := by
  have low : BitVec.ofNat 7 (v.toNat % 128) = v.setWidth 7 := BitVec.eq_of_toNat_eq (by simp)
  rw [exec_hcsize]
  refine happen_modify_timeless ?_ rfl
  rw [State.writeHcsize, if_neg (by simp [hr, hp, hn, he]), low]

theorem hcsize_refused (h : s.ready = false ∨ s.anyPlaced = true ∨ 64 < v.toNat % 128) :
    exec (.hcsize v) s = .next s := by
  rw [exec_hcsize]
  refine happen_modify_still ?_
  rw [State.writeHcsize, if_pos ?_]
  obtain h | h | h := h <;> simp [h]

theorem tlbInvalidationRequest_begins (hr : s.ready = true) (hi : (s.world secure).inval = none) :
    exec (.tlbInvalidationRequest secure v) s = .next (s.mapWorld secure fun w => { w with inval := some v }) := by
  rw [exec_tlbInvalidationRequest]
  refine happen_modify_timeless ?_ (s.mapWorld_times ..)
  rw [State.requestInval, if_neg (by simp [hr])]
  exact State.mapWorld_congr (by rw [hi]; rfl)

theorem tlbInvalidationRequest_busy (hr : s.ready = true) (hi : (s.world secure).inval ≠ none) :
    exec (.tlbInvalidationRequest secure v) s = .next (s.mapWorld secure fun w => { w with iovf := true }) := by
  rw [exec_tlbInvalidationRequest]
  refine happen_modify_timeless ?_ (s.mapWorld_times ..)
  rw [State.requestInval, if_neg (by simp [hr])]
  exact State.mapWorld_congr (if_pos (Option.isSome_iff_ne_none.mpr hi))

/-- Before READY none of these registers takes anything (R401). -/
theorem unready_still (hr : s.ready = false) (word i : BitVec 4) (die j : BitVec 3) :
    exec (.cworldWrite word v) s = .next s ∧ exec (.csworldWrite die v) s = .next s ∧
    exec (.frtail secure v) s = .next s ∧ exec (.trtail secure die v) s = .next s ∧ exec (.hcsize v) s = .next s ∧
    exec (.tlbInvalidationRequest secure v) s = .next s ∧ exec (.assayRangeWrite secure i j v) s = .next s := by
  have unready : (!s.ready) = true := by rw [hr]; rfl
  refine ⟨(exec_cworldWrite ..).trans (happen_modify_still ?_), (exec_csworldWrite ..).trans (happen_modify_still ?_),
    (exec_frtail ..).trans (happen_modify_still ?_), (exec_trtail ..).trans (happen_modify_still ?_),
    hcsize_refused (.inl hr), (exec_tlbInvalidationRequest ..).trans (happen_modify_still ?_),
    (exec_assayRangeWrite ..).trans (happen_modify_still ?_)⟩
  · rw [State.writeCworld, if_pos unready]
  · rw [State.writeCsworld, if_pos unready]
  · rw [State.writeFrtail, if_pos unready]
  · rw [State.writeTrtail, if_pos unready]
  · rw [State.requestInval, if_pos unready]
  · rw [State.writeAssay, if_pos (by rw [unready, Bool.true_or])]

/-! ## The end of a TLB invalidation (R78) -/

theorem tlbInvalidationDone_idle (hi : (s.world secure).inval = none) : exec (.tlbInvalidationDone secure) s = .next s := by
  rw [exec_tlbInvalidationDone]
  exact happen_modify_still (by rw [State.finishInval, hi])

theorem tlbInvalidationDone_waits {w : Word} (hi : (s.world secure).inval = some w) (hf : s.inFlight secure w = true) :
    exec (.tlbInvalidationDone secure) s = .next s := by
  rw [exec_tlbInvalidationDone]
  exact happen_modify_still (by simp only [State.finishInval, hi, hf, if_true])

/-- The translations of a TLB that an invalidation does not name. -/
def unnamed (secure : Bool) (w : Word) (l : List Tlb) : List Tlb := l.filter fun e => !e.named secure w

def Core.dropNamed (secure : Bool) (w : Word) (c : Core) : Core :=
  { c with itlb := unnamed secure w c.itlb, dtlb := unnamed secure w c.dtlb }
def Cluster.dropNamed (secure : Bool) (w : Word) (k : Cluster) : Cluster := { k with tlb := unnamed secure w k.tlb }

/-- The part with no translation left that an invalidation names. -/
def State.dropNamed (s : State) (secure : Bool) (w : Word) : State :=
  { s with cores := s.cores.values (Core.dropNamed secure w), clusters := s.clusters.values (Cluster.dropNamed secure w) }

theorem State.cluster_dropNamed (s : State) (w : Word) (p : Nat) :
    (s.dropNamed secure w).cluster p = (s.cluster p).dropNamed secure w :=
  SMap.at_values s.clusters (d := .reset) rfl p

theorem State.core_dropNamed (s : State) (w : Word) (c : Nat) :
    (s.dropNamed secure w).core c = (s.core c).dropNamed secure w :=
  SMap.at_values s.cores (d := .reset) rfl c

theorem tlbInvalidationDone_ends {w : Word} (hi : (s.world secure).inval = some w) (hf : s.inFlight secure w = false) :
    exec (.tlbInvalidationDone secure) s =
      .next ((s.dropNamed secure w).mapWorld secure fun k => { k with inval := none }) := by
  rw [exec_tlbInvalidationDone]
  refine happen_modify_timeless ?_ (State.mapWorld_times ..)
  simp only [State.finishInval, hi, hf]
  rfl

/-- What stands beside the registers of the worlds. -/
theorem State.mapWorld_part (s : State) (secure : Bool) (f : WorldRegs → WorldRegs) :
    s.mapWorld secure f = { s with normal := (s.mapWorld secure f).normal, secure := (s.mapWorld secure f).secure } := by
  cases secure <;> rfl

/-! ## Assay ranges (R100) -/

/-- What dropping the copies of a view leaves as it was. -/
def State.beside (s : State) : Memory × Vector AssayRange 16 × Ts × Ts := (s.hbm, s.assay, s.times)

theorem State.dropView_beside (s : State) (r : AssayRange) : (s.dropView r).beside = s.beside := by
  unfold State.dropView
  extract_lets mine s₁
  have h₁ : s₁.beside = s.beside := foldl_keeps State.beside fun s x => by
    split <;> rfl
  exact h₁

/-- An entry has five words. -/
theorem AssayRange.write_beyond (r : AssayRange) (secure : Bool) (v : Word) {j : Nat} (h : 5 ≤ j) :
    r.write secure j v = r := by
  unfold AssayRange.write
  split
  case h_6 => rfl
  all_goals omega

theorem State.writeAssay_refused (hs : secure = false) (i j : Nat) (ho : (s.assay.toList.getD i {}).sec = true) :
    s.writeAssay secure i j v = s := by
  rw [State.writeAssay, if_pos (by rw [hs, ho]; simp)]

theorem State.writeAssay_beside (hr : s.ready = true) (i j : Nat)
    (ho : secure = true ∨ (s.assay.toList.getD i {}).sec = false) :
    (s.writeAssay secure i j v).beside =
      (s.hbm, s.assay.setIfInBounds i ((s.assay.toList.getD i {}).write secure j v), s.times) := by
  unfold State.writeAssay
  extract_lets old new
  have open_ : ¬ (!s.ready || !secure && old.sec) = true := by
    obtain h | h := ho
    · simp [hr, h]
    · rw [hr, show old.sec = false from h, Bool.and_false]
      decide
  rw [if_neg open_]
  exact (State.dropView_beside ..).trans (State.dropView_beside ..)

theorem getD_toList_setIfInBounds {α : Type} {n : Nat} (l : Vector α n) (i m : Nat) (x d : α) (hi : i < n) :
    (l.setIfInBounds i x).toList.getD m d = if m = i then x else l.toList.getD m d := by
  rw [Vector.toList_setIfInBounds, List.getD_eq_getElem?_getD, List.getD_eq_getElem?_getD, List.getElem?_set,
    Vector.length_toList]
  by_cases h : m = i
  · rw [if_pos h.symm, if_pos hi, if_pos h, Option.getD_some]
  · rw [if_neg (Ne.symm h), if_neg h]

theorem assayRangeWrite_refused (hs : secure = false) (i : BitVec 4) (j : BitVec 3)
    (ho : (s.assay.toList.getD i.toNat {}).sec = true) : exec (.assayRangeWrite secure i j v) s = .next s := by
  rw [exec_assayRangeWrite]
  exact happen_modify_still (State.writeAssay_refused hs _ _ ho)

/-- Of the table, the entry alone changes, and of memory nothing. -/
theorem assayRangeWrite_takes (hr : s.ready = true) (i : BitVec 4) (j : BitVec 3)
    (ho : secure = true ∨ (s.assay.toList.getD i.toNat {}).sec = false) :
    ∃ t : State, exec (.assayRangeWrite secure i j v) s = .next t ∧ t.hbm = s.hbm ∧
      ∀ m, t.assay.toList.getD m {} =
        if m = i.toNat then (s.assay.toList.getD i.toNat {}).write secure j.toNat v else s.assay.toList.getD m {} := by
  have beside := State.writeAssay_beside (v := v) hr i.toNat j.toNat ho
  have assay : (s.writeAssay secure i.toNat j.toNat v).assay = _ := congrArg (·.2.1) beside
  refine ⟨_, (exec_assayRangeWrite ..).trans (happen_modify_timeless rfl (congrArg (·.2.2) beside)),
    congrArg Prod.fst beside, fun m => ?_⟩
  rw [assay]
  exact getD_toList_setIfInBounds _ _ _ _ _ i.isLt

end Single

/-! ## Offsets (R44, R401) -/

section Offset
variable {s : State} {secure : Bool} {v : Word} {off n : Nat}

theorem exec_barRegisterWrite (secure : Bool) (off : BitVec 24) (size : BitVec 8) (v : Word) (s : State) :
    exec (.barRegisterWrite secure off size v) s =
      happen (modify fun s => s.barAccess secure off.toNat size.toNat v) s := rfl

theorem State.barAccess_aligned (ha : off % 8 = 0) : s.barAccess secure off 8 v = s.barWrite secure off v :=
  if_pos ⟨rfl, ha⟩

/-- An aligned write of 8 bytes at an offset of the BAR. -/
theorem barRegisterWrite_eq (ho : off < 2 ^ 24) (ha : off % 8 = 0) :
    exec (.barRegisterWrite secure (BitVec.ofNat 24 off) 8 v) s = happen (modify fun s => s.barWrite secure off v) s := by
  have e : (BitVec.ofNat 24 off).toNat = off := by rw [BitVec.toNat_ofNat, Nat.mod_eq_of_lt ho]
  rw [exec_barRegisterWrite, e]
  exact happen_modify_congr (State.barAccess_aligned ha)

theorem queueAt_block {b k : Nat} (hb : b < 32) (hk : k < 8) :
    queueAt secure (0x10_0000 + 64 * b + 8 * k) = some (BitVec.ofNat 6 (b + if secure then 32 else 0)) := by
  have place : (0x10_0000 + 64 * b + 8 * k - 0x10_0000) / 64 = b := by omega
  rw [queueAt, if_pos (by omega), place]

theorem queueAt_below (ho : off < 0x10_0000) : queueAt secure off = none := if_neg (by omega)

theorem State.barWrite_block {b k : Nat} (hb : b < 32) (hk : k < 8) :
    s.barWrite secure (0x10_0000 + 64 * b + 8 * k) v = s.writeQueue (BitVec.ofNat 6 (b + if secure then 32 else 0)) k v := by
  have word : (0x10_0000 + 64 * b + 8 * k) % 64 / 8 = k := by omega
  simp only [State.barWrite, queueAt_block hb hk, word]

/-- Where an offset below the queue blocks leads, once READY is set. -/
theorem State.barWrite_below (hr : s.ready = true) (ho : off < 0x10_0000) :
    s.barWrite secure off v =
      if 0x4000 ≤ off ∧ off < 0x4400 then s.writeAssay secure ((off - 0x4000) / 64) (off % 64 / 8) v
      else if 0x3300 ≤ off ∧ off < 0x3400 then s.writeTrace secure ((off - 0x3300) / 32) (off % 32 / 8) v
      else if 0x3000 ≤ off ∧ off < 0x3100 then s.writeWorld secure off v
      else if secure then s.writeSecure off v
      else s.writePart off v := by
  unfold State.barWrite
  rw [queueAt_below ho]
  exact if_neg (by simp [hr])

theorem State.barWrite_assay (hr : s.ready = true) {j : Nat} (hn : n < 16) (hj : j < 8)
    (e : off = 0x4000 + 64 * n + 8 * j) : s.barWrite secure off v = s.writeAssay secure n j v := by
  have place : (off - 0x4000) / 64 = n ∧ off % 64 / 8 = j := by omega
  rw [State.barWrite_below hr (by omega), if_pos (by omega), place.1, place.2]

theorem State.barWrite_trace (hr : s.ready = true) {i : Nat} (hn : n < 8) (hi : i < 4)
    (e : off = 0x3300 + 32 * n + 8 * i) : s.barWrite secure off v = s.writeTrace secure n i v := by
  have place : (off - 0x3300) / 32 = n ∧ off % 32 / 8 = i := by omega
  rw [State.barWrite_below hr (by omega), if_neg (by omega), if_pos (by omega), place.1, place.2]

theorem State.barWrite_world (hr : s.ready = true) (lo : 0x3000 ≤ off) (hi : off < 0x3100) :
    s.barWrite secure off v = s.writeWorld secure off v := by
  rw [State.barWrite_below hr (by omega), if_neg (by omega), if_neg (by omega), if_pos ⟨lo, hi⟩]

/-- An offset that stands for a register of one BAR alone. -/
def OneBar (off : Nat) : Prop := off < 0x3000 ∨ (0x3100 ≤ off ∧ off < 0x3300) ∨ (0x3400 ≤ off ∧ off < 0x4000)

theorem State.barWrite_oneBar (hr : s.ready = true) (ho : OneBar off) :
    s.barWrite secure off v = if secure then s.writeSecure off v else s.writePart off v := by
  unfold OneBar at ho
  rw [State.barWrite_below hr (by omega), if_neg (by omega), if_neg (by omega), if_neg (by omega)]

theorem State.writeSecure_cworld (hn : n < 16) : s.writeSecure (0x1100 + 8 * n) v = s.writeCworld n v := by
  have place : (0x1100 + 8 * n - 0x1100) / 8 = n := by omega
  rw [State.writeSecure, if_pos (by omega), place]

theorem State.writeSecure_csworld (hn : n < 8) : s.writeSecure (0x1180 + 8 * n) v = s.writeCsworld n v := by
  have place : (0x1180 + 8 * n - 0x1180) / 8 = n := by omega
  rw [State.writeSecure, if_neg (by omega), if_pos (by omega), place]

theorem State.writeSecure_regionLo (hn : n < 32) : s.writeSecure (0x2000 + 16 * n) v =
    { s with regions := s.regions.setIfInBounds n { s.regions.toList.getD n {} with lo := rangeLo v } } := by
  have place : (0x2000 + 16 * n - 0x2000) / 16 = n := by omega
  rw [State.writeSecure, if_neg (by omega), if_neg (by omega), if_pos (by omega)]
  dsimp only
  rw [place, if_pos (by omega)]

theorem State.writeSecure_regionHi (hn : n < 32) : s.writeSecure (0x2008 + 16 * n) v =
    { s with regions := s.regions.setIfInBounds n { s.regions.toList.getD n {} with hi := rangeHi v } } := by
  have place : (0x2008 + 16 * n - 0x2000) / 16 = n := by omega
  rw [State.writeSecure, if_neg (by omega), if_neg (by omega), if_pos (by omega)]
  dsimp only
  rw [place, if_neg (by omega)]

theorem State.writeSecure_else (h : off < 0x1100 ∨ (0x11C0 ≤ off ∧ off < 0x2000) ∨ 0x2200 ≤ off) :
    s.writeSecure off v = s := by
  rw [State.writeSecure, if_neg (by omega), if_neg (by omega), if_neg (by omega)]

/-- A register of a peer window written. -/
def PeerWindow.write (w : PeerWindow) (i : Nat) (v : Word) : PeerWindow :=
  match i with
  | 0 => { w with lo := rangeLo v }
  | 1 => { w with hi := rangeHi v }
  | 2 => { w with src := bitsOf v 21 0 }
  | _ => w

theorem State.writePart_peer {i : Nat} (hn : n < 16) (hi : i < 4) (e : off = 0x3400 + 32 * n + 8 * i) :
    s.writePart off v = { s with peers := s.peers.setIfInBounds n ((s.peers.toList.getD n {}).write i v) } := by
  have place : (off - 0x3400) / 32 = n ∧ (off - 0x3400) % 32 / 8 = i := by omega
  unfold State.writePart
  split
  case h_6 =>
    rw [if_pos (by omega), place.1, place.2]
    rfl
  all_goals omega

theorem State.writePart_else (h : off < 0x3200) : s.writePart off v = s := by
  unfold State.writePart
  split
  case h_6 => exact if_neg (by omega)
  all_goals omega

theorem barRegister_writes {t : State} (ho : off < 2 ^ 24 ∧ off % 8 = 0) (e : s.barWrite secure off v = t)
    (ht : t.times = s.times) : exec (.barRegisterWrite secure (BitVec.ofNat 24 off) 8 v) s = .next t :=
  (barRegisterWrite_eq ho.1 ho.2).trans (happen_modify_timeless e ht)

/-- An offset that stands for another write. -/
theorem barRegister_same {f : State → State} {i : Instr} (ho : off < 2 ^ 24 ∧ off % 8 = 0)
    (hi : exec i s = happen (modify f) s) (e : s.barWrite secure off v = f s) :
    exec (.barRegisterWrite secure (BitVec.ofNat 24 off) 8 v) s = exec i s :=
  (barRegisterWrite_eq ho.1 ho.2).trans ((happen_modify_congr e).trans hi.symm)

/-- The offset of a register of a world. -/
def OfWorld (off : Nat) : Prop := 0x3000 ≤ off ∧ off < 0x3100 ∧ off % 8 = 0

theorem worldRegister_writes {f g : WorldRegs → WorldRegs} (hr : s.ready = true) (ho : OfWorld off)
    (e : s.writeWorld secure off v = s.mapWorld secure g) (h : g (s.world secure) = f (s.world secure)) :
    exec (.barRegisterWrite secure (BitVec.ofNat 24 off) 8 v) s = .next (s.mapWorld secure f) := by
  obtain ⟨lo, hi, ha⟩ := ho
  have eq := ((State.barWrite_world hr lo hi).trans e).trans (State.mapWorld_congr h)
  exact barRegister_writes ⟨by omega, ha⟩ eq (s.mapWorld_times ..)

theorem worldRegister_keeps (hr : s.ready = true) (ho : OfWorld off) (e : s.writeWorld secure off v = s) :
    exec (.barRegisterWrite secure (BitVec.ofNat 24 off) 8 v) s = .next s := by
  obtain ⟨lo, hi, ha⟩ := ho
  exact barRegister_writes ⟨by omega, ha⟩ ((State.barWrite_world hr lo hi).trans e) rfl

theorem worldRegister_same {f : State → State} {i : Instr} (hr : s.ready = true) (ho : OfWorld off)
    (hi : exec i s = happen (modify f) s) (e : s.writeWorld secure off v = f s) :
    exec (.barRegisterWrite secure (BitVec.ofNat 24 off) 8 v) s = exec i s := by
  obtain ⟨lo, up, ha⟩ := ho
  exact barRegister_same ⟨by omega, ha⟩ hi ((State.barWrite_world hr lo up).trans e)

/-- A field of w bits that takes a written value where it is legal. -/
theorem ofNat_ifLegal {w : Nat} (old : BitVec w) {legal : Bool} :
    BitVec.ofNat w (ifLegal old.toNat (v.toNat % 2 ^ w) legal) = if legal = true then v.setWidth w else old := by
  cases legal
  · exact BitVec.eq_of_toNat_eq (by simp [ifLegal])
  · exact BitVec.eq_of_toNat_eq (by simp [ifLegal])

/-- HPTBASE and HPTLOG2 of a written word (R71). -/
theorem hptWord_eq (old : Word) {legal : Bool} :
    bitsOf v 51 7 + BitVec.ofNat 64 (ifLegal (field old 4 0) (v.toNat % 32) legal) =
      (v &&& 0x000F_FFFF_FFFF_FF80) + if legal = true then BitVec.ofNat 64 (v.toNat % 32) else old &&& 0x1F := by
  rw [bitsOf_51_7]
  cases legal
  · rw [if_neg (by decide), ← ofNat_field_low]
    rfl
  · rfl

/-! The change that each register of a world stands for. -/

theorem State.writeWorld_hpt : s.writeWorld secure 0x3000 v = s.mapWorld secure fun w =>
    { w with hpt := bitsOf v 51 7 + BitVec.ofNat 64 (ifLegal (field w.hpt 4 0) (v.toNat % 32)
        (decide (v.toNat % 32 = 0) || (decide (4 ≤ v.toNat % 32) && decide (v.toNat % 32 ≤ 20)))) } := rfl
theorem State.writeWorld_iovf :
    s.writeWorld secure 0x3018 v = s.mapWorld secure fun w => { w with iovf := w.iovf && !v.getLsbD 1 } := rfl
theorem State.writeWorld_frbase :
    s.writeWorld secure 0x3020 v = s.mapWorld secure fun w => { w with frbase := bitsOf v 51 12 } := rfl
theorem State.writeWorld_frlog2 : s.writeWorld secure 0x3028 v = s.mapWorld secure fun w =>
    { w with frlog2 := BitVec.ofNat 4 (ifLegal w.frlog2.toNat (v.toNat % 2 ^ 4)
        (decide (v.toNat % 16 = 0) || decide (7 ≤ v.toNat % 16))) } := rfl
theorem State.writeWorld_supv :
    s.writeWorld secure 0x3048 v = s.mapWorld secure fun w => { w with supv := v &&& 0x8000_0000_03FF_003F } := rfl
theorem State.writeWorld_supvid :
    s.writeWorld secure 0x3050 v = s.mapWorld secure fun w => { w with supvid := v.setWidth 32 } := rfl
theorem State.writeWorld_savebase :
    s.writeWorld secure 0x3058 v = s.mapWorld secure fun w => { w with savebase := rangeHi v } := rfl
theorem State.writeWorld_savelog2 : s.writeWorld secure 0x3060 v = s.mapWorld secure fun w =>
    { w with savelog2 := BitVec.ofNat 5 (ifLegal w.savelog2.toNat (v.toNat % 2 ^ 5)
        (decide (v.toNat % 32 = 0) || decide (21 ≤ v.toNat % 32))) } := rfl
theorem State.writeWorld_kvLo : s.writeWorld secure 0x3090 v =
    if s.worldPlaced secure then s else s.mapWorld secure fun w => { w with kvLo := rangeLo v } := rfl
theorem State.writeWorld_kvHi : s.writeWorld secure 0x3098 v =
    if s.worldPlaced secure then s else s.mapWorld secure fun w => { w with kvHi := rangeHi v } := rfl

theorem legal_zero_or {a b : Nat} : (decide (a = 0) || decide (b ≤ a)) = true ↔ a = 0 ∨ b ≤ a := by simp
theorem legal_zero_or_between {a b c : Nat} :
    (decide (a = 0) || (decide (b ≤ a) && decide (a ≤ c))) = true ↔ a = 0 ∨ (b ≤ a ∧ a ≤ c) := by simp

theorem ofWorld_of {off : Nat} (h : (decide (0x3000 ≤ off) && decide (off < 0x3100) && decide (off % 8 = 0)) = true) :
    OfWorld off := by
  simpa [OfWorld, and_assoc] using h

/-! The change that each register of the part stands for. -/

theorem State.writePart_hcsize : s.writePart 0x3200 v = s.writeHcsize v := rfl
theorem State.writePart_nodeid : s.writePart 0x3210 v = { s with nodeid := v.setWidth 22 } := rfl
theorem State.writePart_timeStepped : s.writePart 0x3220 v = { s with timeStepped := s.timeStepped && !v.getLsbD 1 } := rfl
theorem State.writePart_plimit : s.writePart 0x3230 v =
    if 1000 ≤ v.toNat % 4096 ∧ v.toNat % 4096 ≤ 3200 then
      ({ s with plimit := BitVec.ofNat 12 (v.toNat % 4096) } : State).limit else s := rfl
theorem State.writePart_thhist : s.writePart 0x3238 v = { s with thhist := s.thhist && !v.getLsbD 1 } := rfl

theorem State.limit_times (t : State) : t.limit.times = t.times := by
  unfold State.limit
  split <;> rfl

/-- A register that BAR0 alone writes. -/
theorem partRegister_writes {t : State} (hr : s.ready = true) (ho : OneBar off) (ha : off % 8 = 0)
    (e : s.writePart off v = t) (ht : t.times = s.times) :
    exec (.barRegisterWrite false (BitVec.ofNat 24 off) 8 v) s = .next t :=
  barRegister_writes ⟨by unfold OneBar at ho; omega, ha⟩ ((State.barWrite_oneBar hr ho).trans e) ht

theorem partRegister_same {f : State → State} {i : Instr} (hr : s.ready = true) (ho : OneBar off) (ha : off % 8 = 0)
    (hi : exec i s = happen (modify f) s) (e : s.writePart off v = f s) :
    exec (.barRegisterWrite false (BitVec.ofNat 24 off) 8 v) s = exec i s :=
  barRegister_same ⟨by unfold OneBar at ho; omega, ha⟩ hi ((State.barWrite_oneBar hr ho).trans e)

/-- A register that BAR2 alone writes. -/
theorem secureRegister_writes {t : State} (hr : s.ready = true) (ho : OneBar off) (ha : off % 8 = 0)
    (e : s.writeSecure off v = t) (ht : t.times = s.times) :
    exec (.barRegisterWrite true (BitVec.ofNat 24 off) 8 v) s = .next t :=
  barRegister_writes ⟨by unfold OneBar at ho; omega, ha⟩ ((State.barWrite_oneBar hr ho).trans e) ht

theorem secureRegister_same {f : State → State} {i : Instr} (hr : s.ready = true) (ho : OneBar off) (ha : off % 8 = 0)
    (hi : exec i s = happen (modify f) s) (e : s.writeSecure off v = f s) :
    exec (.barRegisterWrite true (BitVec.ofNat 24 off) 8 v) s = exec i s :=
  barRegister_same ⟨by unfold OneBar at ho; omega, ha⟩ hi ((State.barWrite_oneBar hr ho).trans e)

/-! The change that each register of a queue block or a trace ring stands for. -/

theorem State.writeQueue_status (hr : s.ready = true) (q : BitVec 6) : s.writeQueue q 2 v = s.mapQueue q fun k => { k with
    ovf := k.ovf && !v.getLsbD 23, badw := k.badw && !v.getLsbD 22, rej := k.rej && !v.getLsbD 21 } :=
  if_neg (by simp [hr])

theorem State.writeTrace_base : s.writeTrace secure n 0 v = s.mapWorld secure fun w =>
    { w with traces := SMap.put w.traces n { SMap.at w.traces .reset n with base := bitsOf v 51 12 } } := rfl
theorem State.writeTrace_log2 : s.writeTrace secure n 1 v = s.mapWorld secure fun w =>
    { w with traces := SMap.put w.traces n { SMap.at w.traces .reset n with
        log2 := BitVec.ofNat 5 (ifLegal (SMap.at w.traces .reset n).log2.toNat (v.toNat % 2 ^ 5)
          (decide (v.toNat % 32 = 0) || (decide (3 ≤ v.toNat % 32) && decide (v.toNat % 32 ≤ 20)))) } } := rfl

/-- A change of a trace ring of a world. -/
theorem traceRegister_writes {i : Nat} {f g : WorldRegs → WorldRegs} (hr : s.ready = true) (hn : n < 8) (hi : i < 4)
    (ho : off = 0x3300 + 32 * n + 8 * i) (e : s.writeTrace secure n i v = s.mapWorld secure g)
    (h : g (s.world secure) = f (s.world secure)) :
    exec (.barRegisterWrite secure (BitVec.ofNat 24 off) 8 v) s = .next (s.mapWorld secure f) := by
  have eq := ((State.barWrite_trace hr hn hi ho).trans e).trans (State.mapWorld_congr h)
  exact barRegister_writes (by omega) eq (s.mapWorld_times ..)

end Offset

/-- Each register of BAR0 and BAR2 by its offset takes its own fields and nothing else (R71, R83, R340, R342, R367, R403,
R405). -/
theorem registersByOffset : RegistersByOffset := by
  unfold RegistersByOffset
  intro v secure n s hr writes same world old five
  have world_writes {off} (h : (decide (0x3000 ≤ off) && decide (off < 0x3100) && decide (off % 8 = 0)) = true)
      {f g : WorldRegs → WorldRegs} (e : s.writeWorld secure off v = s.mapWorld secure g) (h' : g old = f old) :
      writes secure off (world f) := worldRegister_writes hr (ofWorld_of h) e h'
  have world_keeps {off} (h : (decide (0x3000 ≤ off) && decide (off < 0x3100) && decide (off % 8 = 0)) = true)
      (e : s.writeWorld secure off v = s) : writes secure off s :=
    worldRegister_keeps hr (ofWorld_of h) e
  have part {off t} (ho : OneBar off) (ha : off % 8 = 0) (e : s.writePart off v = t) (ht : t.times = s.times) :
      writes false off t := partRegister_writes hr ho ha e ht
  have part_else {off} (ho : off < 0x3000 ∧ off % 8 = 0) : writes false off s :=
    part (.inl ho.1) ho.2 (State.writePart_else (by omega)) rfl
  have secure_else {off} (ho : (0x3100 ≤ off ∧ off < 0x3300) ∨ (0x3400 ≤ off ∧ off < 0x4000)) (ha : off % 8 = 0) :
      writes true off s := secureRegister_writes hr (.inr ho) ha (State.writeSecure_else (by omega)) rfl
  refine ⟨fun h => world_writes rfl State.writeWorld_hpt ?hptTaken, fun h => world_writes rfl State.writeWorld_hpt ?hptKept,
    world_writes rfl State.writeWorld_iovf rfl, world_writes rfl State.writeWorld_frbase ?frbase,
    world_writes rfl State.writeWorld_frlog2 ?frlog2, world_writes rfl State.writeWorld_supv rfl,
    world_writes rfl State.writeWorld_supvid rfl, world_writes rfl State.writeWorld_savebase ?savebase,
    world_writes rfl State.writeWorld_savelog2 ?savelog2,
    fun h => ⟨world_writes rfl (State.writeWorld_kvLo.trans (if_neg (by simp [h]))) ?kvLo,
      world_writes rfl (State.writeWorld_kvHi.trans (if_neg (by simp [h]))) ?kvHi⟩,
    fun h => ⟨world_keeps rfl (State.writeWorld_kvLo.trans (if_pos h)), world_keeps rfl (State.writeWorld_kvHi.trans (if_pos h))⟩,
    fun hn => ?rings, fun hn => ?sixteen, fun hn => ?thirtyTwo, ?inval, ?frtail, ?replay, ?kill, ?part⟩
  case hptTaken =>
    simp only [hptWord_eq, legal_zero_or_between]
    rw [if_pos h]
  case hptKept =>
    simp only [hptWord_eq, legal_zero_or_between]
    rw [if_neg h]
  case frbase => rw [bitsOf_51_12]
  case frlog2 => simp only [ofNat_ifLegal, legal_zero_or]
  case savebase => rw [rangeHi_eq]
  case savelog2 => simp only [ofNat_ifLegal, legal_zero_or, five]
  case kvLo => rw [rangeLo_eq]
  case kvHi => rw [rangeHi_eq]
  case rings =>
    intro ring
    have e : (BitVec.ofNat 3 n).toNat = n := by rw [BitVec.toNat_ofNat, Nat.mod_eq_of_lt hn]
    refine ⟨traceRegister_writes hr hn (i := 0) (by decide) rfl State.writeTrace_base ?_,
      traceRegister_writes hr hn (i := 1) (by decide) (by omega) State.writeTrace_log2 ?_,
      barRegister_writes (by omega) (State.barWrite_trace hr hn (i := 2) (by decide) (by omega)) rfl,
      barRegister_same (by omega) (exec_trtail ..) ?_,
      secureRegister_same hr ?_ (by omega) (exec_csworldWrite ..) ?_, part_else (by omega)⟩
    · rw [bitsOf_51_12]
    · simp only [ofNat_ifLegal, legal_zero_or_between, five, ring, old]
    · rw [e]
      exact State.barWrite_trace hr hn (i := 3) (by decide) (by omega)
    · unfold OneBar
      omega
    · rw [e]
      exact State.writeSecure_csworld hn
  case sixteen =>
    have e : (BitVec.ofNat 4 n).toNat = n := by rw [BitVec.toNat_ofNat, Nat.mod_eq_of_lt hn]
    have peer {off} (i : Nat) (hi : i < 3) (ho : off = 0x3400 + 32 * n + 8 * i) :
        writes false off { s with peers := s.peers.setIfInBounds n ((s.peers.toList.getD n {}).write i v) } :=
      part (.inr (.inr (by omega))) (by omega) (State.writePart_peer hn (by omega) ho) rfl
    refine ⟨secureRegister_same hr (.inl (by omega)) (by omega) (exec_cworldWrite ..) ?_, part_else (by omega),
      ⟨?_, ?_, ?_, secure_else (.inr (by omega)) (by omega), secure_else (.inr (by omega)) (by omega),
        secure_else (.inr (by omega)) (by omega)⟩, fun j hj => barRegister_same (by omega) (exec_assayRangeWrite ..) ?_⟩
    · rw [e]
      exact State.writeSecure_cworld hn
    · rw [← rangeLo_eq]
      exact peer 0 (by decide) rfl
    · rw [← rangeHi_eq]
      exact peer 1 (by decide) (by omega)
    · rw [← bitsOf_21_0]
      exact peer 2 (by decide) (by omega)
    · have e' : (BitVec.ofNat 3 j).toNat = j := by rw [BitVec.toNat_ofNat, Nat.mod_eq_of_lt hj]
      rw [e, e']
      exact State.barWrite_assay hr hn hj rfl
  case thirtyTwo =>
    have lo : OneBar (0x2000 + 16 * n) ∧ OneBar (0x2008 + 16 * n) := by
      unfold OneBar
      omega
    refine ⟨⟨?_, ?_, part_else (by omega), part_else (by omega)⟩, ?_⟩
    · rw [← rangeLo_eq]
      exact secureRegister_writes hr lo.1 (by omega) (State.writeSecure_regionLo hn) rfl
    · rw [← rangeHi_eq]
      exact secureRegister_writes hr lo.2 (by omega) (State.writeSecure_regionHi hn) rfl
    · intro q block
      have at_ (k : Nat) (hk : k < 8) : s.barWrite secure (block + 8 * k) v = s.writeQueue q k v := State.barWrite_block hn hk
      refine ⟨barRegister_same (by omega) (exec_qsub ..) (at_ 0 (by decide)),
        barRegister_same (by omega) (exec_tickets ..) (at_ 1 (by decide)),
        barRegister_same (by omega) (exec_preempt ..) (at_ 4 (by decide)),
        barRegister_writes (by omega) ((at_ 2 (by decide)).trans (State.writeQueue_status hr q)) (s.mapQueue_times ..),
        barRegister_writes (by omega) (at_ 3 (by decide)) rfl⟩
  case inval => exact worldRegister_same hr (ofWorld_of rfl) (exec_tlbInvalidationRequest ..) rfl
  case frtail => exact worldRegister_same hr (ofWorld_of rfl) (exec_frtail ..) rfl
  case replay => exact worldRegister_same hr (ofWorld_of rfl) (exec_replayRegisterWrite ..) rfl
  case kill => exact worldRegister_same hr (ofWorld_of rfl) (exec_kill ..) rfl
  case part =>
    have outside {off} (h : 0x3100 ≤ off ∧ off < 0x3300) : OneBar off := .inr (.inl h)
    refine ⟨partRegister_same hr (outside (by decide)) (by decide) (exec_hcsize ..) State.writePart_hcsize,
      part (outside (by decide)) (by decide) State.writePart_nodeid rfl,
      part (outside (by decide)) (by decide) State.writePart_timeStepped rfl,
      ⟨fun h => part (outside (by decide)) (by decide) (State.writePart_plimit.trans (if_pos h)) (State.limit_times _),
        fun h => part (outside (by decide)) (by decide) (State.writePart_plimit.trans (if_neg h)) rfl⟩,
      part (outside (by decide)) (by decide) State.writePart_thhist rfl, ?_⟩
    refine ⟨?_, ?_, ?_, ?_, ?_⟩ <;> exact secure_else (.inl (by decide)) (by decide)

/-- A malformed write has no effect but BADW in the queue block it falls in (R45). -/
theorem barRegisterWrite_malformed {s : State} {secure : Bool} {off : BitVec 24} {size : BitVec 8} {v : Word}
    (h : size ≠ 8 ∨ off.toNat % 8 ≠ 0) : exec (.barRegisterWrite secure off size v) s = .next (match queueAt secure off.toNat with
      | some q => s.mapQueue q fun k => { k with badw := true }
      | none => s) := by
  have bad : ¬ (size.toNat = 8 ∧ off.toNat % 8 = 0) := by
    rw [not_and_or]
    exact h.imp_left (mt fun e => BitVec.eq_of_toNat_eq e)
  rw [exec_barRegisterWrite]
  refine happen_modify_timeless (if_neg bad) ?_
  cases queueAt secure off.toNat <;> rfl

theorem barRegisterWrite_aligned {s : State} {secure : Bool} {off : BitVec 24} {size : BitVec 8} {v : Word}
    (hs : size = 8) (ha : off.toNat % 8 = 0) (hf : s.FloorAllows (s.barWrite secure off.toNat v)) :
    exec (.barRegisterWrite secure off size v) s = .next (s.barWrite secure off.toNat v) := by
  subst hs
  rw [exec_barRegisterWrite]
  exact happen_modify_goes (State.barAccess_aligned ha) hf

/-- Settles O50: each register by its name, and each offset by the register that it stands for. -/
theorem registersAreWritten : Obligations.RegistersAreWritten := by
  unfold Obligations.RegistersAreWritten
  refine ⟨registersByOffset, ?_⟩
  intro q v secure die word i j off size s goes entry queue
  refine ⟨qsub_malformed, fun hr hv early late he hl hn => ?submit, ?tickets, ?control, fun hr => ?ready,
    fun hr => unready_still hr word i die j, tlbInvalidationDone_idle, fun w => tlbInvalidationDone_waits,
    fun w hi hf => ?invalidated, fun h => ?malformed, barRegisterWrite_aligned, fun b k => State.barWrite_block⟩
  case submit =>
    have parts : s.Parts q early late := ⟨he, hl, hn⟩
    refine ⟨fun hroom => qsub_appends hr hv (State.appendHost_room parts hroom entry) rfl, fun hfull hnone => ?_,
      fun keep x c d t hfull hlate hx hd => ?_⟩
    · subst hnone
      exact qsub_appends hr hv (State.appendHost_full parts hfull entry) rfl
    · subst hlate
      exact qsub_appends hr hv (State.appendHost_displaces parts hfull hx hd entry) rfl
  case tickets =>
    intro n
    rw [exec_tickets, ← State.writeTickets_eq]
    exact happen_decision rfl State.writeTickets_times
  case control =>
    intro set ends wants asked t
    have e : s.writeControl q v = t := State.writeControl_eq
    have times : t.times = s.times := e ▸ State.writeControl_times
    exact ⟨(exec_preempt ..).trans (happen_decision e times), (exec_enable ..).trans (happen_decision e times)⟩
  case ready =>
    refine ⟨⟨_, cworldWrite_takes hr word, getLsbD_cworldWith s.cworld word.toNat⟩, csworldWrite_takes hr die, frtail_takes hr,
      trtail_takes hr die, hcsize_takes hr, fun h => hcsize_refused (.inr h), tlbInvalidationRequest_begins hr,
      tlbInvalidationRequest_busy hr, ?_⟩
    intro old
    refine ⟨fun hs ho => assayRangeWrite_refused hs i j ho, fun ho => ?_⟩
    obtain ⟨t, run, hbm, entries⟩ := assayRangeWrite_takes (v := v) hr i j ho
    have self : t.assay.toList.getD i.toNat {} = old.write secure j.toNat v := (entries i.toNat).trans (if_pos rfl)
    refine ⟨t, run, hbm, fun hj => ?_, fun hj => ?_, fun m hm => (entries m).trans (if_neg hm), fun hj => ?_, fun hj => ?_,
      fun hj => ?_, fun hj => ?_⟩
    all_goals rw [self]
    · rw [hj, ← assayWord_eq]
      rfl
    · exact AssayRange.write_beyond old secure v hj
    · rw [hj, ← bitsOf_eq_mod (w := 36) (by rfl)]
      rfl
    · rw [hj, ← bitsOf_eq_mod (w := 45) (by rfl)]
      rfl
    · rw [hj, ← bitsOf_eq_mod (w := 45) (by rfl)]
      rfl
    · rw [hj, ← bitsOf_eq_mod (w := 42) (by rfl)]
      rfl
  case invalidated =>
    refine ⟨_, tlbInvalidationDone_ends hi hf, ?_, ?_, fun p => ?_, fun c => ?_⟩
    · rw [State.world_mapWorld_self]
    · rw [State.mapWorld_part]
      rfl
    · rw [State.mapWorld_part]
      exact congrArg Cluster.tlb (s.cluster_dropNamed w p)
    · rw [State.mapWorld_part]
      have e := s.core_dropNamed (secure := secure) w c
      exact ⟨congrArg Core.itlb e, congrArg Core.dtlb e⟩
  case malformed =>
    have run := barRegisterWrite_malformed (s := s) (secure := secure) (v := v) h
    refine ⟨fun b hb => ?_, fun hb => ?_⟩
    all_goals
      rw [hb] at run
      exact run

end Sys2Proof.Machine
end

section
/-! The part after a conventional reset (R401). -/

namespace Sys2Proof.Machine

theorem getD_toList_replicate {α : Type} (n : Nat) (a : α) (i : Nat) :
    (Vector.replicate n a).toList.getD i a = a := by
  rw [Vector.toList_replicate, List.getD_eq_getElem?_getD, List.getElem?_getD_replicate_default_eq]

theorem State.secureMem_reset (pa : Nat) : State.reset.secureMem pa = false := by
  have off : ({} : RegionEntry).lo.getLsbD 63 = false := by decide
  simp only [State.secureMem, State.reset, Vector.toList_replicate, List.any_replicate, off, Bool.false_and]
  decide

theorem State.viewOf_reset (line : Nat) : State.reset.viewOf line = none := by
  have off : ({} : AssayRange).on = false := by decide
  simp only [State.viewOf, State.reset, Vector.toList_replicate, AssayRange.views, List.find?_replicate, off, Bool.false_and]
  rfl

theorem State.barRead_reset (secure : Bool) (off : Nat) :
    State.reset.barRead secure off = if secure = false ∧ off = 0 then 0x0000_8192_0000_0000 else 0 := by
  unfold State.barRead
  cases secure <;> by_cases h : off = 0 <;> simp [h, State.reset]

/-- Settles O59: what the maps, tables and registers of the reset state give where nothing stands in them. -/
theorem resetState : Obligations.ResetState := by
  unfold Obligations.ResetState
  refine ⟨.reset, rfl, rfl, rfl, rfl, rfl, rfl, rfl, rfl, rfl, rfl, fun q => ?queue, fun b => ?world, fun d => ?shared,
    fun i => ?tables, State.barRead_reset, State.secureMem_reset, State.viewOf_reset, fun p => ?cluster, fun c => rfl⟩
  case queue => exact ⟨rfl, rfl, rfl, rfl, rfl, rfl, rfl, rfl⟩
  case world =>
    have clear : State.reset.world b = .reset := by cases b <;> rfl
    rw [clear]
    exact ⟨rfl, rfl, rfl, rfl, rfl, rfl, rfl, rfl, rfl, rfl, rfl, rfl, rfl, rfl, rfl, rfl, rfl, rfl, rfl, fun _ => rfl⟩
  case shared => exact ⟨getD_toList_replicate .., getD_toList_replicate ..⟩
  case tables =>
    exact ⟨getD_toList_replicate .., getD_toList_replicate .., getD_toList_replicate ..⟩
  case cluster => exact ⟨rfl, rfl, rfl, fun _ => ⟨rfl, rfl⟩⟩

end Sys2Proof.Machine
end

section
/-! How a launch stops: pre-emption, its save and its resumption, teardown, and the clearing of a cluster that changes world
(R55, R58, R59, R63, R65, R373 to R377). -/

namespace Sys2Proof.Machine

/-! ## What changes of launches leave as it was -/

section Launches
variable {β : Type} {s t : State} {q o : BitVec 6}

/-- What a change of launches keeps of each launch, it keeps of the launch of every queue. -/
theorem State.launch_mapLaunch_keeps (g : Launch → β) {f : Launch → Launch} (h : ∀ l, g (f l) = g l) :
    g ((s.mapLaunch o f).launch q) = g (s.launch q) := by
  by_cases e : q = o
  · subst e
    rw [State.launch, State.mapLaunch, State.queue_mapQueue_self, State.launch]
    cases (s.queue q).admitted with
    | none => rfl
    | some l => exact h l
  · rw [State.launch_mapLaunch_ne s f e]

theorem State.admitted_mapLaunch_isSome (f : Launch → Launch) :
    ((s.mapLaunch o f).queue q).admitted.isSome = (s.queue q).admitted.isSome := by
  by_cases e : q = o
  · subst e
    rw [State.mapLaunch, State.queue_mapQueue_self, Option.isSome_map]
  · rw [State.mapLaunch, State.queue_mapQueue_ne s _ e]

/-- A decision changes of a launch what it is granted and what it is asked alone. -/
theorem State.launch_decision_keeps (g : Launch → β) (hs : ∀ l st, g { l with start := st } = g l)
    (hp : ∀ (l : Launch) p, g { l with preempt := p } = g l) (secure : Bool) :
    g ((s.decision secure).launch q) = g (s.launch q) := by
  have granted (n : Nat) (s : State) : g ((s.grants secure n).launch q) = g (s.launch q) := by
    induction n generalizing s with
    | zero => rfl
    | succ n ih =>
      rw [State.grants]
      split
      · rfl
      · rw [ih, State.grant, State.launch_mapLaunch_keeps g fun l => hs l _]
  rw [← granted 32 s]
  unfold State.decision State.askStop State.requestPreempt
  split
  · rfl
  · split_ifs
    · exact State.launch_mapLaunch_keeps g fun l => hp l _
    · rfl
    · rfl

theorem State.byId_of_queues (h : t.queues = s.queues) (secure : Bool) (id : BitVec 32) : t.byId secure id = s.byId secure id := by
  simp only [State.byId, State.queue, h]

theorem State.reach_of_queues (h : t.queues = s.queues) (secure : Bool) (n : Nat) (l seen : List (BitVec 32)) :
    t.reach secure n l seen = s.reach secure n l seen := by
  induction n generalizing l seen with
  | zero => rw [State.reach, State.reach]
  | succ n ih =>
    cases l with
    | nil => rw [State.reach, State.reach] <;> simp
    | cons id r => simp only [State.reach, State.byId_of_queues h, ih]

/-- Whether some launch needs another depends on the queues alone. -/
theorem State.needed_of_queues (h : t.queues = s.queues) (secure : Bool) (id : BitVec 32) :
    t.needed secure id = s.needed secure id := by
  have reaches (b : Bool) (l : Launch) : t.reach b 1024 l.producers [] = s.reach b 1024 l.producers [] :=
    State.reach_of_queues h ..
  have found (b : Bool) : t.byId b = s.byId b := funext (State.byId_of_queues h b)
  simp only [State.needed, State.dependsOn, State.closure, State.launch, State.queue, h, reaches, found]

end Launches

/-! ## The save of a stopped launch (R254, R373, R374) -/

section Save
variable {s : State} {q : BitVec 6}

theorem State.setSlot_queues (s : State) (h : BitVec 32) (k : HSlot) : (s.setSlot h k).queues = s.queues := by
  unfold State.setSlot
  rfl

theorem State.uncount_queues (s : State) (k : HSlot) : (s.uncount k).queues = s.queues := by
  unfold State.uncount
  split <;> rfl

theorem State.freeSlot_queues (s : State) (h : BitVec 32) (k l : HSlot) : ((s.setSlot h l).uncount k).queues = s.queues :=
  (State.uncount_queues ..).trans (State.setSlot_queues ..)

theorem State.dropRef_queues (n : Nat) (h : BitVec 32) (s : State) : (s.dropRef n h).queues = s.queues := by
  induction n generalizing h s with
  | zero => rfl
  | succ n ih =>
    rw [State.dropRef]
    split
    · rfl
    · split_ifs
      · rfl
      · exact State.setSlot_queues ..
      · split
        · exact (foldl_keeps State.queues fun s a => ih a s).trans (State.freeSlot_queues ..)
        · exact State.setSlot_queues ..
        · exact State.setSlot_queues ..

/-- A slot freed with the references that its arguments hold. -/
theorem State.dropArgs_queues (s : State) (h : BitVec 32) (k l : HSlot) :
    (k.args.foldl State.drop ((s.setSlot h l).uncount k)).queues = s.queues :=
  (foldl_keeps State.queues fun s a => State.dropRef_queues 130 a s).trans (State.freeSlot_queues ..)

theorem State.unevaluate_queues (s : State) (h : BitVec 32) : (s.unevaluate h).queues = s.queues := by
  unfold State.unevaluate
  dsimp only
  split_ifs
  · rfl
  · exact State.dropArgs_queues ..
  · exact State.setSlot_queues ..

theorem State.stopTeller_queues (s : State) (q : BitVec 6) : (s.stopTeller q).queues = s.queues := by
  unfold State.stopTeller
  refine (foldl_keeps State.queues fun s p => foldl_keeps State.queues fun s e => ?_).trans (State.leaveDemands_queues s q)
  dsimp only
  split_ifs
  · exact State.unevaluate_queues ..
  · exact State.dropArgs_queues ..
  · rfl

theorem State.snatch_queues (s : State) (line : Nat) : (s.snatch line).queues = s.queues := by
  unfold State.snatch
  split <;> rfl

theorem State.foldl_snatch_queues (s : State) (first : Nat) (l : List Nat) :
    (l.foldl (fun s i => s.snatch (first + i)) s).queues = s.queues := by
  induction l generalizing s with
  | nil => rfl
  | cons a r ih => rw [List.foldl_cons, ih, State.snatch_queues]

theorem State.snatchImage_queues (s : State) (base : Nat) : (s.snatchImage base).queues = s.queues := by
  unfold State.snatchImage
  split
  · rfl
  · rw [State.foldl_snatch_queues]

theorem State.withHbm_queues (s : State) (m : Memory) : ({ s with hbm := m } : State).queues = s.queues := rfl

theorem State.writeImage_queues (s : State) (secure : Bool) (p base : Nat) :
    (s.writeImage secure p base).queues = s.queues := by
  rw [State.writeImage, State.withHbm_queues, State.snatchImage_queues]

theorem State.mapLaunch_queues_congr {s t : State} (h : t.queues = s.queues) (q : BitVec 6) (f : Launch → Launch) :
    (t.mapLaunch q f).queues = (s.mapLaunch q f).queues := by
  simp only [State.mapLaunch, State.mapQueue, State.setQueue, State.queue, h]

/-- The save adds an image to the launch, and changes no queue besides. -/
theorem State.save_queues (s : State) (q : BitVec 6) (inStep : Bool) :
    ∃ im : SavedImage, (s.save q inStep).queues = (s.mapLaunch q fun l => { l with saved := some im }).queues := by
  unfold State.save
  extract_lets s₁ l im s₂
  have h₂ : s₂.queues = s.queues :=
    (foldl_keeps State.queues fun s e => s.writeImage_queues ..).trans (s.applyIn_queues (s.launch q).clusters)
  exact ⟨im, State.mapLaunch_queues_congr h₂ q _⟩

end Save

/-! ## The release of a stopped launch (R52, R55, R59, R373) -/

section Release
variable {s : State} {q : BitVec 6} {hard inStep : Bool}

/-- A cluster with its contexts freed and nothing placed there. -/
def State.vacate (s : State) (p : Nat) : State :=
  ((List.range 32).foldl (fun s j => s.mapCtx (ctxOf (32 * p + j)) Context.freed) s).mapCluster p
    fun k => { k with placed := none }

theorem State.releaseClusters_eq (s : State) (q : BitVec 6) :
    s.releaseClusters q = ((s.launch q).clusters.foldl State.vacate s).mapLaunch q fun l => { l with clusters := [] } := rfl

theorem State.vacate_clusters (s : State) (p : Nat) :
    (s.vacate p).clusters = (s.mapCluster p fun k => { k with placed := none }).clusters := by
  have contexts : ((List.range 32).foldl (fun s j => s.mapCtx (ctxOf (32 * p + j)) Context.freed) s).clusters =
    s.clusters := foldl_keeps State.clusters fun _ _ => by rfl
  simp only [State.vacate, State.mapCluster, State.setCluster, State.cluster, contexts]

theorem State.mapLaunch_hbm (s : State) (q : BitVec 6) (f : Launch → Launch) : (s.mapLaunch q f).hbm = s.hbm := rfl
theorem State.mapCtx_hbm (s : State) (c : CtxId) (f : Context → Context) : (s.mapCtx c f).hbm = s.hbm := rfl
theorem State.mapCtx_queues (s : State) (c : CtxId) (f : Context → Context) : (s.mapCtx c f).queues = s.queues := rfl
theorem State.mapCluster_hbm (s : State) (p : Nat) (f : Cluster → Cluster) : (s.mapCluster p f).hbm = s.hbm := rfl
theorem State.mapCluster_queues (s : State) (p : Nat) (f : Cluster → Cluster) : (s.mapCluster p f).queues = s.queues := rfl
theorem State.cluster_mapLaunch (s : State) (q : BitVec 6) (f : Launch → Launch) (p : Nat) :
    (s.mapLaunch q f).cluster p = s.cluster p := rfl

theorem State.vacate_queues (s : State) (p : Nat) : (s.vacate p).queues = s.queues := by
  rw [State.vacate, State.mapCluster_queues]
  exact foldl_keeps State.queues fun s _ => s.mapCtx_queues ..

theorem State.vacate_hbm (s : State) (p : Nat) : (s.vacate p).hbm = s.hbm := by
  rw [State.vacate, State.mapCluster_hbm]
  exact foldl_keeps State.hbm fun s _ => s.mapCtx_hbm ..

theorem State.releaseClusters_queues (s : State) (q : BitVec 6) :
    (s.releaseClusters q).queues = (s.mapLaunch q fun l => { l with clusters := [] }).queues := by
  rw [State.releaseClusters_eq]
  exact State.mapLaunch_queues_congr (foldl_keeps State.queues State.vacate_queues) q _

theorem State.releaseClusters_hbm (s : State) (q : BitVec 6) : (s.releaseClusters q).hbm = s.hbm := by
  rw [State.releaseClusters_eq, State.mapLaunch_hbm]
  exact foldl_keeps State.hbm State.vacate_hbm

theorem State.placed_vacate (s : State) (p p' : Nat) :
    ((s.vacate p).cluster p').placed = if p' = p then none else (s.cluster p').placed := by
  rw [State.cluster_of_clusters (s.vacate_clusters p)]
  split_ifs with h
  · rw [h, State.cluster_mapCluster_self]
  · rw [State.cluster_mapCluster_ne s _ h]

/-- Nothing is placed on the clusters that a launch has released. -/
theorem State.placed_releaseClusters {p : Nat} (hp : p ∈ (s.launch q).clusters) :
    ((s.releaseClusters q).cluster p).placed = none := by
  rw [State.releaseClusters_eq, State.cluster_mapLaunch]
  refine foldl_establishes (P := fun t : State => (t.cluster p).placed = none) hp (fun t => ?_) (fun t p' _ hne ht => ?_) s
  · rw [State.placed_vacate, if_pos rfl]
  · rw [State.placed_vacate, if_neg (Ne.symm hne), ht]

/-- A stopped launch saved, with its clusters released. -/
def State.parked (s : State) (q : BitVec 6) (hard inStep : Bool) : State :=
  (((s.stopTeller q).save q inStep).releaseClusters q).mapLaunch q fun l => { l with phase := .saved hard }

/-- The clusters that a parked launch has had stay reserved for it while another needs it. -/
def State.lend (s : State) (q : BitVec 6) (l : Launch) : State :=
  if s.needed (queueSecure q) l.launchid then
    l.clusters.foldl (fun s p => s.mapCluster p fun k => { k with reserved := some l.launchid, lent := true }) s
  else s

theorem State.releaseStopped_of_over (hl : (s.launch q).phase = .saving hard inStep) (hd : s.drained q = true)
    (ht : s.tellerOver q = true) (hf : s.faultsTaken q = true) :
    s.releaseStopped q = (((s.parked q hard inStep).lend q (s.launch q)).dropReservations (queueSecure q)).decision
      (queueSecure q) := by
  simp only [State.releaseStopped, hl, hd, ht, hf, Bool.and_self, if_true]
  rfl

theorem State.releaseStopped_of_not_over (hl : (s.launch q).phase = .saving hard inStep)
    (h : (s.drained q && s.tellerOver q && s.faultsTaken q) = false) : s.releaseStopped q = s := by
  simp only [State.releaseStopped, hl, h, Bool.false_eq_true, if_false]

theorem State.saved_queues (s : State) (q : BitVec 6) (inStep : Bool) :
    ∃ im : SavedImage, ((s.stopTeller q).save q inStep).queues =
      (s.mapLaunch q fun l => { l with saved := some im }).queues := by
  obtain ⟨im, h⟩ := (s.stopTeller q).save_queues q inStep
  exact ⟨im, h.trans (State.mapLaunch_queues_congr (s.stopTeller_queues q) q _)⟩

theorem State.clusters_saved (s : State) (q : BitVec 6) (inStep : Bool) :
    (((s.stopTeller q).save q inStep).launch q).clusters = (s.launch q).clusters := by
  obtain ⟨im, h⟩ := s.saved_queues q inStep
  rw [State.launch_of_queue (State.queue_of_queues h q)]
  exact State.launch_mapLaunch_keeps Launch.clusters fun _ => rfl

/-- The launch as it is parked. -/
theorem State.launch_parked (ha : (s.queue q).admitted.isSome = true) :
    ∃ im, (s.parked q hard inStep).launch q =
      { s.launch q with saved := some im, clusters := [], phase := .saved hard } := by
  obtain ⟨im, h⟩ := s.saved_queues q inStep
  have queues := State.mapLaunch_queues_congr ((State.releaseClusters_queues _ q).trans
    (State.mapLaunch_queues_congr h q fun l => { l with clusters := [] })) q fun l => { l with phase := .saved hard }
  refine ⟨im, (State.launch_of_queue (State.queue_of_queues queues q)).trans ?_⟩
  rw [State.launch_mapLaunch_self, State.launch_mapLaunch_self, State.launch_mapLaunch_self]
  all_goals simpa only [State.admitted_mapLaunch_isSome] using ha

theorem State.admitted_parked (ha : (s.queue q).admitted.isSome = true) :
    ((s.parked q hard inStep).queue q).admitted.isSome = true := by
  obtain ⟨im, h⟩ := s.saved_queues q inStep
  rw [State.parked, State.admitted_mapLaunch_isSome, State.queue_of_queues (State.releaseClusters_queues _ q),
    State.admitted_mapLaunch_isSome, State.queue_of_queues h, State.admitted_mapLaunch_isSome, ha]

theorem State.parked_hbm (s : State) (q : BitVec 6) (hard inStep : Bool) :
    (s.parked q hard inStep).hbm = ((s.stopTeller q).save q inStep).hbm := by
  rw [State.parked, State.mapLaunch_hbm, State.releaseClusters_hbm]

theorem State.placed_parked {p : Nat} (hp : p ∈ (s.launch q).clusters) :
    ((s.parked q hard inStep).cluster p).placed = none := by
  rw [State.parked, State.cluster_mapLaunch]
  exact State.placed_releaseClusters (by rwa [State.clusters_saved])

theorem State.lend_queues (s : State) (q : BitVec 6) (l : Launch) : (s.lend q l).queues = s.queues := by
  unfold State.lend
  split
  · exact foldl_keeps State.queues fun s _ => s.mapCluster_queues ..
  · rfl

theorem State.lend_hbm (s : State) (q : BitVec 6) (l : Launch) : (s.lend q l).hbm = s.hbm := by
  unfold State.lend
  split
  · exact foldl_keeps State.hbm fun s _ => s.mapCluster_hbm ..
  · rfl

theorem State.placed_lend (s : State) (q : BitVec 6) (l : Launch) (p : Nat) :
    ((s.lend q l).cluster p).placed = (s.cluster p).placed := by
  unfold State.lend
  split
  · refine foldl_keeps (fun t : State => (t.cluster p).placed) fun t p' => ?_
    by_cases h : p = p'
    · subst h
      rw [State.cluster_mapCluster_self]
    · rw [State.cluster_mapCluster_ne t _ h]
  · rfl

/-- The clusters of a launch that another needs are lent to it. -/
theorem State.cluster_lend {l : Launch} {p : Nat} (hn : s.needed (queueSecure q) l.launchid = true) (hp : p ∈ l.clusters) :
    ((s.lend q l).cluster p).reserved = some l.launchid ∧ ((s.lend q l).cluster p).lent = true := by
  rw [State.lend, if_pos hn]
  refine foldl_establishes (P := fun t : State => (t.cluster p).reserved = some l.launchid ∧ (t.cluster p).lent = true) hp
    (fun t => ?_) (fun t p' _ hne ht => ?_) s
  · rw [State.cluster_mapCluster_self]
    exact ⟨rfl, rfl⟩
  · rwa [State.cluster_mapCluster_ne t _ (Ne.symm hne)]

/-- A reservation that does not count any more. -/
def State.lapsed (s : State) (secure lent : Bool) (id : BitVec 32) : Bool :=
  match s.byId secure id with
  | none => true
  | some _ => lent && !s.needed secure id

/-- A cluster of a world without a reservation that does not count any more. -/
def State.unreserve (s : State) (secure : Bool) (k : Cluster) : Cluster :=
  if k.secure = secure ∧ k.reserved.any (s.lapsed secure k.lent) then { k with reserved := none, lent := false } else k

theorem State.cluster_dropReservations (s : State) (secure : Bool) (p : Nat) :
    (s.dropReservations secure).cluster p = s.unreserve secure (s.cluster p) :=
  SMap.at_values s.clusters (f := s.unreserve secure) (d := .reset) (by simp [State.unreserve, Cluster.reset]) p

theorem State.cluster_decision (s : State) (secure : Bool) (p : Nat) : (s.decision secure).cluster p = s.cluster p := by
  rw [State.decision_part]
  rfl

theorem State.decision_hbm (s : State) (secure : Bool) : (s.decision secure).hbm = s.hbm := by rw [State.decision_part]

theorem State.dropReservations_hbm (s : State) (secure : Bool) : (s.dropReservations secure).hbm = s.hbm := rfl

/-- The launch of a queue is found by its number. -/
theorem State.byId_isSome (ha : (s.queue q).admitted.isSome = true) :
    (s.byId (queueSecure q) (s.launch q).launchid).isSome = true := by
  obtain ⟨l, e⟩ := Option.isSome_iff_exists.mp ha
  rw [State.launch_of_admitted e, State.byId, List.find?_isSome]
  exact ⟨l, List.mem_filterMap.mpr ⟨q, mem_worldQueues.mpr rfl, e⟩, by simp⟩

theorem State.reserved_dropReservations_keeps {secure : Bool} {p : Nat} {id : BitVec 32}
    (hr : (s.cluster p).reserved = some id) (hb : (s.byId secure id).isSome = true) (hn : s.needed secure id = true) :
    ((s.dropReservations secure).cluster p).reserved = some id := by
  have stays : s.lapsed secure (s.cluster p).lent id = false := by
    obtain ⟨l, e⟩ := Option.isSome_iff_exists.mp hb
    simp [State.lapsed, e, hn]
  rw [State.cluster_dropReservations, State.unreserve, if_neg (by simp [hr, stays]), hr]

theorem State.placed_dropReservations (s : State) (secure : Bool) (p : Nat) :
    ((s.dropReservations secure).cluster p).placed = (s.cluster p).placed := by
  rw [State.cluster_dropReservations, State.unreserve]
  split <;> rfl

/-- The reservations that a parked launch leaves, and the decision that follows its release. -/
def State.settle (s : State) (q : BitVec 6) (l : Launch) : State :=
  ((s.lend q l).dropReservations (queueSecure q)).decision (queueSecure q)

theorem State.dropReservations_queues (s : State) (secure : Bool) : (s.dropReservations secure).queues = s.queues := rfl

theorem State.launch_settle_keeps {β : Type} (g : Launch → β) (hs : ∀ l st, g { l with start := st } = g l)
    (hp : ∀ (l : Launch) p, g { l with preempt := p } = g l) (l : Launch) : g ((s.settle q l).launch q) = g (s.launch q) := by
  have queues : ((s.lend q l).dropReservations (queueSecure q)).queues = s.queues := by
    rw [State.dropReservations_queues, State.lend_queues]
  rw [State.settle, State.launch_decision_keeps g hs hp, State.launch_of_queue (State.queue_of_queues queues q)]

theorem State.settle_hbm (l : Launch) : (s.settle q l).hbm = s.hbm := by
  rw [State.settle, State.decision_hbm, State.dropReservations_hbm, State.lend_hbm]

theorem State.placed_settle (l : Launch) (p : Nat) : ((s.settle q l).cluster p).placed = (s.cluster p).placed := by
  rw [State.settle, State.cluster_decision, State.placed_dropReservations, State.placed_lend]

/-- The clusters that are lent to a launch stay reserved for it: it is admitted, and needed. -/
theorem State.reserved_settle {l : Launch} {p : Nat} (ha : (s.queue q).admitted.isSome = true)
    (hl : (s.launch q).launchid = l.launchid) (hn : s.needed (queueSecure q) l.launchid = true) (hp : p ∈ l.clusters) :
    ((s.settle q l).cluster p).reserved = some l.launchid := by
  have queues := s.lend_queues q l
  rw [State.settle, State.cluster_decision]
  refine State.reserved_dropReservations_keeps (State.cluster_lend hn hp).1 ?_ ?_
  · rw [State.byId_of_queues queues, ← hl, State.byId_isSome ha]
  · rw [State.needed_of_queues queues, hn]

/-- What stands of a stopped launch once its clusters are released. -/
theorem State.releaseStopped_parks (hl : (s.launch q).phase = .saving hard inStep) (hd : s.drained q = true)
    (ht : s.tellerOver q = true) (hf : s.faultsTaken q = true) :
    let t := s.releaseStopped q
    (t.launch q).phase = .saved hard ∧ (t.launch q).clusters = [] ∧ t.hbm = ((s.stopTeller q).save q inStep).hbm ∧
    (∀ p ∈ (s.launch q).clusters, (t.cluster p).placed = none) ∧
    ((s.parked q hard inStep).needed (queueSecure q) (s.launch q).launchid = true →
      ∀ p ∈ (s.launch q).clusters, (t.cluster p).reserved = some (s.launch q).launchid) := by
  intro t
  have e : t = (s.parked q hard inStep).settle q (s.launch q) := State.releaseStopped_of_over hl hd ht hf
  have admitted : (s.queue q).admitted.isSome = true := State.admitted_of_launch fun e => by
    rw [e] at hl
    cases hl
  obtain ⟨im, launch⟩ := State.launch_parked (hard := hard) (inStep := inStep) admitted
  rw [e]
  refine ⟨?_, ?_, ?_, fun p hp => ?_, fun hn p hp => ?_⟩
  · rw [State.launch_settle_keeps Launch.phase (fun _ _ => rfl) (fun _ _ => rfl), launch]
  · rw [State.launch_settle_keeps Launch.clusters (fun _ _ => rfl) (fun _ _ => rfl), launch]
  · rw [State.settle_hbm, State.parked_hbm]
  · rw [State.placed_settle, State.placed_parked hp]
  · exact State.reserved_settle (State.admitted_parked admitted) (by rw [launch]) hn hp

end Release

/-! ## When a pre-emption takes effect, and when the launch is released -/

section Stop
variable {s : State} {q : BitVec 6}

theorem exec_preemptionTakesEffect (q : BitVec 6) (s : State) :
    exec (.preemptionTakesEffect q) s = happen (modify fun s => s.stopLaunch q) s := rfl
theorem exec_clusterRelease (q : BitVec 6) (s : State) :
    exec (.clusterRelease q) s = happen (modify fun s => s.releaseStopped q) s := rfl
theorem exec_launchResume (q : BitVec 6) (s : State) : exec (.launchResume q) s = happen (resumeLaunch q) s := rfl
theorem exec_teardownComplete (q : BitVec 6) (s : State) :
    exec (.teardownComplete q) s = happen (modify fun s => s.teardownComplete q) s := rfl
theorem exec_clusterClearing (p : BitVec 10) (s : State) :
    exec (.clusterClearing p) s = happen (modify fun s => s.clearCluster p.toNat) s := rfl

theorem State.stopLaunch_still (h : s.stoppable q = false) : s.stopLaunch q = s := by
  rw [State.stopLaunch, if_pos (by rw [h]; rfl)]

theorem State.stopLaunch_lapses (h : s.stoppable q = true) (hs : s.savable q = false) :
    s.stopLaunch q = s.lapsePreempt q := by
  rw [State.stopLaunch, if_neg (by simp [h]), if_pos (by simp [hs])]

theorem State.stopLaunch_stops (h : s.stoppable q = true) (hs : s.savable q = true) :
    s.stopLaunch q = ((((s.ctxsOf q).foldl State.stopCtx ((s.ctxsOf q).foldl State.withdraw s)).forget (s.ctxsOf q)).mapLaunch q
      fun l => { l with
        phase := .saving ((s.launch q).preempt == some true) ((s.launch q).phase == .running), preempt := none, start := none
        episodes := [] }) := by
  rw [State.stopLaunch, if_neg (by simp [h]), if_neg (by simp [hs])]

/-- The request lapses; at a quantum boundary a decision follows (R51, R59, R374). -/
theorem State.lapsePreempt_eq (s : State) (q : BitVec 6) :
    s.lapsePreempt q =
      let lapsed := s.mapLaunch q fun l => { l with preempt := none }
      if (s.launch q).phase = .boundary then lapsed.decision (queueSecure q) else lapsed := by
  have phase : ((s.mapLaunch q fun l => { l with preempt := none }).launch q).phase = (s.launch q).phase :=
    State.launch_mapLaunch_keeps Launch.phase fun _ => rfl
  rw [State.lapsePreempt]
  dsimp only
  rw [phase]

theorem State.faultsTaken_eq_true (h : ∀ c ∈ s.ctxsOf q, ∀ f, (s.ctx c).grant ≠ .fault f) : s.faultsTaken q = true := by
  refine List.all_eq_true.mpr fun c hc => ?_
  cases hg : (s.ctx c).grant with
  | fault f => exact absurd hg (h c hc f)
  | none | event | released | demanded => rfl

theorem State.faultsTaken_eq_false {c : CtxId} {f : Trap} (hc : c ∈ s.ctxsOf q) (hf : (s.ctx c).grant = .fault f) :
    s.faultsTaken q = false := by
  refine List.all_eq_false.mpr ⟨c, hc, ?_⟩
  rw [hf]
  exact Bool.false_ne_true

/-! ## Resumption (R65, R336, R376) -/

theorem resumeLaunch_idle (h : (s.launch q).start = none) : (resumeLaunch q).run s = .ok ⟨⟩ s := by
  rw [resumeLaunch, Eff.run_bind_ok (Eff.run_get s)]
  dsimp only
  rw [h]
  cases (s.launch q).phase <;> rfl

/-- A line of the save area that the host owns is asked back first. -/
theorem resumeLaunch_asks {hard : Bool} {st : Start} {line : Nat} {rest : List Nat} (hp : (s.launch q).phase = .saved hard)
    (hs : (s.launch q).start = some st) (ho : s.ownedImage q = line :: rest) (hc : s.hostCoherent line = true) :
    (resumeLaunch q).run s = .error (.wait .access) (s.asksBack line) := by
  have owned : line ∈ s.hostOwned := List.mem_of_mem_filter (p := _) (ho ▸ List.mem_cons_self : line ∈ s.ownedImage q)
  have asks := readOwned_run hc (List.contains_iff_mem.mpr owned)
  rw [resumeLaunch, Eff.run_bind_ok (Eff.run_get s)]
  dsimp only
  rw [hp, hs]
  dsimp only
  rw [ho, readOwnedAll]
  exact Eff.run_bind_error (Eff.run_bind_error asks)

theorem resumeLaunch_restores {hard : Bool} {st : Start} (hp : (s.launch q).phase = .saved hard)
    (hs : (s.launch q).start = some st) (ho : s.ownedImage q = []) :
    let restored := (((s.applyIn st.clusters).lapseFor (s.launch q) st.clusters false).takeReserved (s.launch q) st.held).restore
      q st.clusters
    (resumeLaunch q).run s = .ok ⟨⟩ (restored.mapLaunch q fun l => { l with
      start := if l.phase = .boundary ∧ (restored.queue q).enable = true then some { st with held := [] } else none }) := by
  intro restored
  rw [resumeLaunch, Eff.run_bind_ok (Eff.run_get s)]
  dsimp only
  rw [hp, hs]
  dsimp only
  rw [ho, readOwnedAll, Eff.run_bind_ok (Eff.run_pure _ s), Eff.run_bind_ok (Eff.run_get s), Eff.run_set]
  simp only [State.stillStarts, ite_and]
  rfl

end Stop

/-! ## Teardown (R367, R377, R387) -/

section Teardown
variable {s : State} {q : BitVec 6}

theorem State.setSlot_hbm (s : State) (h : BitVec 32) (k : HSlot) : (s.setSlot h k).hbm = s.hbm := by
  rw [State.setSlot, State.mapCluster_hbm]

theorem State.leaveDemands_hbm (s : State) (q : BitVec 6) : (s.leaveDemands q).hbm = s.hbm := by
  unfold State.leaveDemands
  extract_lets own s₁ s₂ s₃
  have h₁ : s₁.hbm = s.hbm := by
    refine foldl_keeps State.hbm fun s d => ?_
    split <;> rfl
  have h₃ : s₃.hbm = s₂.hbm := by
    refine foldl_keeps State.hbm fun s f => ?_
    split
    · exact State.setSlot_hbm ..
    · rfl
  exact h₃.trans h₁

theorem State.empty_hbm (s : State) (q : BitVec 6) : (s.empty q).hbm = s.hbm := by
  unfold State.empty
  extract_lets s₁
  have h₁ : s₁.hbm = s.hbm := foldl_keeps State.hbm fun s _ => s.mapCluster_hbm ..
  exact (State.leaveDemands_hbm s₁ q).trans h₁

/-- The launch of a queue with its contexts freed and its units emptied, before it is marked as torn down. -/
def State.halted (s : State) (q : BitVec 6) : State :=
  let freed := (s.ctxsOf q).foldl (fun s c => s.mapCtx c Context.freed) ((s.empty q).forget (s.ctxsOf q))
  (freed.launch q).clusters.foldl (fun s p => s.mapCluster p fun k => { k with
    matrix := { k.matrix with queues := [] }, copy := { k.copy with queues := [] } }) freed

theorem State.tearDown_eq (s : State) (q : BitVec 6) :
    s.tearDown q = (s.halted q).mapLaunch q fun l => { l with
      phase := .tearing, episodes := [], settlement := none, preempt := none, saved := none, start := none } := rfl

theorem State.halted_queues (s : State) (q : BitVec 6) : (s.halted q).queues = s.queues := by
  unfold State.halted
  extract_lets freed
  have h : freed.queues = s.queues := (foldl_keeps State.queues fun s _ => s.mapCtx_queues ..).trans (s.empty_queues q)
  exact (foldl_keeps State.queues fun s _ => s.mapCluster_queues ..).trans h

theorem State.halted_hbm (s : State) (q : BitVec 6) : (s.halted q).hbm = s.hbm := by
  unfold State.halted
  extract_lets freed
  have h : freed.hbm = s.hbm := (foldl_keeps State.hbm fun s _ => s.mapCtx_hbm ..).trans (s.empty_hbm q)
  exact (foldl_keeps State.hbm fun s _ => s.mapCluster_hbm ..).trans h

theorem State.ctx_mapCluster (s : State) (p : Nat) (f : Cluster → Cluster) (c : CtxId) :
    (s.mapCluster p f).ctx c = s.ctx c := rfl
theorem State.ctx_mapLaunch (s : State) (q : BitVec 6) (f : Launch → Launch) (c : CtxId) :
    (s.mapLaunch q f).ctx c = s.ctx c := rfl

theorem State.ctx_mapCtx (s : State) (c c' : CtxId) (f : Context → Context) :
    (s.mapCtx c f).ctx c' = if c' = c then f (s.ctx c') else s.ctx c' := by
  split_ifs with h
  · rw [h, State.mapCtx, State.ctx_setCtx_self]
  · rw [State.mapCtx, State.ctx_setCtx_ne _ _ h]

/-- Every context of the launch is FREE. -/
theorem State.ctx_halted_free {c : CtxId} (hc : c ∈ s.ctxsOf q) : ((s.halted q).ctx c).run = .free := by
  unfold State.halted
  extract_lets freed
  have h : (freed.ctx c).run = .free := by
    refine foldl_establishes (P := fun t : State => (t.ctx c).run = .free) hc (fun t => ?_) (fun t c' _ _ ht => ?_) _
    · rw [State.ctx_mapCtx, if_pos rfl]
      rfl
    · rw [State.ctx_mapCtx]
      split
      · rfl
      · exact ht
  exact (foldl_keeps (fun t : State => (t.ctx c).run) fun s _ => congrArg Context.run (s.ctx_mapCluster ..)).trans h

theorem State.phase_tearDown (ha : (s.queue q).admitted.isSome = true) : ((s.tearDown q).launch q).phase = .tearing := by
  have queue := State.queue_of_queues (s.halted_queues q) q
  rw [State.tearDown_eq, State.launch_mapLaunch_self _ (by rw [queue, ha])]

theorem State.tearDown_hbm (s : State) (q : BitVec 6) : (s.tearDown q).hbm = s.hbm := by
  rw [State.tearDown_eq, State.mapLaunch_hbm, State.halted_hbm]

theorem State.ctx_tearDown_free {c : CtxId} (hc : c ∈ s.ctxsOf q) : ((s.tearDown q).ctx c).run = .free := by
  rw [State.tearDown_eq, State.ctx_mapLaunch, State.ctx_halted_free hc]

/-- The queue that a KILL names (R367). -/
def killed (secure : Bool) (v : Word) : BitVec 6 := BitVec.ofNat 6 (v.toNat % 32 + if secure then 32 else 0)

theorem State.killWrite_ignored {secure : Bool} {v : Word} (h : v.getLsbD 63 = false ∨ s.ready = false ∨
    s.tearing secure = true ∨ s.backlogged (killed secure v) = false) : s.killWrite secure v = s := by
  unfold State.killWrite
  extract_lets q written
  refine if_pos ?_
  obtain h | h | h | h := h
  on_goal 4 => replace h : s.backlogged q = false := h
  all_goals simp only [h, Bool.not_false, Bool.or_true, Bool.true_or]

theorem State.killWrite_tears {secure : Bool} {v : Word} (hv : v.getLsbD 63 = true) (hr : s.ready = true)
    (ht : s.tearing secure = false) (hb : s.backlogged (killed secure v) = true)
    (hp : ∀ line, (s.launch (killed secure v)).phase ≠ .recorded line ∧ (s.launch (killed secure v)).phase ≠ .torn line) :
    s.killWrite secure v = s.tearDown (killed secure v) := by
  unfold State.killWrite
  extract_lets q written
  have backlogged : s.backlogged q = true := hb
  have unwritten : written = false := by
    unfold written
    split
    case h_1 line e => exact absurd e (hp line).1
    case h_2 line e => exact absurd e (hp line).2
    · rfl
  rw [if_neg (by rw [hv, hr, ht, backlogged, unwritten]; decide)]
  rfl

/-- The clusters of a torn-down launch released and its record written, with the time that the store has taken. -/
def State.recordTeardown (s : State) (q : BitVec 6) : State × Ts :=
  (s.releaseClusters q).complete (placeAt (s.launch q).donePa) q (s.launch q) 0x10 (s.launch q).tadmit (s.greatestPts q)

/-- Everything that a teardown waits for has ended (R377). -/
structure State.TornOver (s : State) (q : BitVec 6) : Prop where
  phase : (s.launch q).phase = .tearing
  jobs : s.jobsOver (s.launch q) = true
  posts : s.postsOver q = true
  copies : s.copiesOver q = true
  host : s.hostOver q = true

theorem State.teardownComplete_leaves (h : s.TornOver q) (hp : (s.launch q).donePa < 2 ^ 51) :
    s.teardownComplete q = (s.recordTeardown q).1.leave q (s.recordTeardown q).2 := by
  unfold State.teardownComplete
  dsimp only
  rw [h.phase]
  dsimp only
  rw [if_neg (by simp [h.jobs, h.posts, h.copies, h.host]), if_neg (Nat.not_le.mpr hp)]
  rfl

theorem State.donePa_recordTeardown (s : State) (q : BitVec 6) :
    ((s.recordTeardown q).1.launch q).donePa = (s.launch q).donePa := by
  have queues : (s.recordTeardown q).1.queues = _ := (State.complete_queues ..).trans (s.releaseClusters_queues q)
  rw [State.launch_of_queue (State.queue_of_queues queues q)]
  exact State.launch_mapLaunch_keeps Launch.donePa fun _ => rfl

theorem State.teardownComplete_records (h : s.TornOver q) (hp : 2 ^ 51 ≤ (s.launch q).donePa) :
    s.teardownComplete q = (s.recordTeardown q).1.mapLaunch q fun l => { l with
      phase := .torn (((s.launch q).donePa - 2 ^ 51) / 64), joinTime := (s.recordTeardown q).2 } := by
  have same := s.donePa_recordTeardown q
  unfold State.teardownComplete
  dsimp only
  rw [h.phase]
  dsimp only
  rw [if_neg (by simp [h.jobs, h.posts, h.copies, h.host]), if_pos hp]
  generalize 2 ^ 51 = hostBase
  refine State.mapLaunch_congr (s := (s.recordTeardown q).1) fun l hl => ?_
  rw [State.launch_of_admitted hl] at same
  exact congrArg (fun n => { l with phase := .torn ((n - hostBase) / 64), joinTime := (s.recordTeardown q).2 }) same

theorem State.teardownComplete_acknowledged {line : Nat} (hl : (s.launch q).phase = .torn line)
    (hw : s.writeEntry line = none) : s.teardownComplete q = s.leave q (s.launch q).joinTime := by
  simp only [State.teardownComplete, hl, hw, Option.isSome_none, Bool.false_eq_true, if_false]

theorem State.teardownComplete_unacknowledged {line : Nat} (hl : (s.launch q).phase = .torn line)
    (hw : (s.writeEntry line).isSome = true) : s.teardownComplete q = s := by
  simp only [State.teardownComplete, hl, hw, if_true]

end Teardown

/-! ## The clearing of a cluster that changes world (R63) -/

section Clearing
variable {s : State} {p : Nat}

/-- What the clearing of a cluster reads and writes beside its units. -/
def State.wiping (s : State) : (Memory × Memory × Memory × Memory) × BitVec 1024 × Ts × Ts :=
  ((s.hbm, s.host, s.clusterMem, s.coreMem), s.cworld, s.times)

theorem State.lapse_wiping (s : State) (r : Retention) : (s.lapse r).wiping = s.wiping := by
  refine foldl_keeps State.wiping fun s p => ?_
  split
  · exact foldl_keeps State.wiping fun _ _ => by rfl
  · rfl

/-- The retention of a cluster lapses, where it has one. -/
def State.lapseAt (s : State) (p : Nat) : State :=
  match (s.cluster p).retention with
  | some r => s.lapse r
  | none => s

theorem State.lapseAt_wiping (s : State) (p : Nat) : (s.lapseAt p).wiping = s.wiping := by
  unfold State.lapseAt
  split
  · exact s.lapse_wiping _
  · rfl

/-- The windows of a cluster zeroed, and the L2 lines of which it is the home dropped. -/
def State.wipe (s : State) (p : Nat) : State :=
  { s with
    clusterMem := s.clusterMem.clear (p * 2 ^ 19) (2 ^ 19)
    coreMem := s.coreMem.clear (8 * p * 2 ^ 17) (8 * 2 ^ 17)
    l2 := s.l2.filter fun x => !decide ((s.homeOf x.line).1 = p) }

def Core.wipe (c : Core) : Core := { c with itlb := [], dtlb := [], retained := false }

/-- The cores of a cluster without translations and without banks that they keep. -/
def State.wipeCores (s : State) (p : Nat) : State := (List.range 8).foldl (fun s i => s.mapCore (8 * p + i) Core.wipe) s

/-- A cluster that is to change world, and may. -/
structure State.Changes (s : State) (p : Nat) : Prop where
  enabled : s.enabled p = true
  placed : (s.cluster p).placed = none
  reserved : (s.cluster p).reserved = none
  promised : p ∉ s.allPromised
  world : (s.cluster p).secure ≠ s.cworld.getLsbD p

theorem State.clearCluster_of_changes (h : s.Changes p) :
    ∃ mts, s.clearCluster p = (((s.lapseAt p).wipe p).wipeCores p).mapCluster p fun k => { k with
      slots := [], l1 := [], tlb := [], mts := mts, secure := (((s.lapseAt p).wipe p).wipeCores p).cworld.getLsbD p } := by
  have changes : ¬ (!s.enabled p || !(s.cluster p).idle || s.allPromised.contains p ||
      (s.cluster p).secure == s.cworld.getLsbD p) = true := by
    simp [Cluster.idle, h.enabled, h.placed, h.reserved, h.promised, h.world]
  unfold State.clearCluster
  dsimp only
  rw [if_neg changes]
  exact ⟨_, rfl⟩

theorem State.clearCluster_still (h : s.enabled p = false ∨ (s.cluster p).placed.isSome = true ∨
    (s.cluster p).reserved.isSome = true ∨ s.allPromised.contains p = true ∨ (s.cluster p).secure = s.cworld.getLsbD p) :
    s.clearCluster p = s := by
  unfold State.clearCluster
  refine if_pos ?_
  obtain h | h | h | h | h := h
  · simp [h]
  · simp [Cluster.idle, Option.isNone_eq_false_iff.mpr h]
  · simp [Cluster.idle, Option.isNone_eq_false_iff.mpr h]
  · simp only [h, Bool.or_true, Bool.true_or]
  · simp [h]

theorem State.wipeCores_wiping (s : State) (p : Nat) : (s.wipeCores p).wiping = s.wiping :=
  foldl_keeps State.wiping fun _ _ => by rfl

/-- Every core of the cluster is wiped. -/
theorem State.core_wipeCores {i : Nat} (hi : i < 8) :
    ((s.wipeCores p).core (8 * p + i)).itlb = [] ∧ ((s.wipeCores p).core (8 * p + i)).dtlb = [] := by
  refine foldl_establishes (P := fun t : State => (t.core (8 * p + i)).itlb = [] ∧ (t.core (8 * p + i)).dtlb = [])
    (List.mem_range.mpr hi) (fun t => ?_) (fun t j _ hne ht => ?_) s
  · rw [State.core_mapCore_self]
    exact ⟨rfl, rfl⟩
  · rwa [State.core_mapCore_ne t _ (by omega)]

/-- The cluster's windows are cleared, and nothing else of memory. -/
theorem State.wiped_wiping (s : State) (p : Nat) : (((s.lapseAt p).wipe p).wipeCores p).wiping =
    ((s.hbm, s.host, s.clusterMem.clear (p * 2 ^ 19) (2 ^ 19), s.coreMem.clear (p * 2 ^ 20) (2 ^ 20)), s.cworld, s.times) := by
  have lapsed := s.lapseAt_wiping p
  have cores : 8 * p * 2 ^ 17 = p * 2 ^ 20 := by omega
  rw [State.wipeCores_wiping]
  simp only [State.wiping, State.times, Prod.mk.injEq] at lapsed
  obtain ⟨⟨hbm, host, clusterMem, coreMem⟩, cworld, high, floor⟩ := lapsed
  simp only [State.wiping, State.wipe, State.times, hbm, host, clusterMem, coreMem, cworld, high, floor, cores]
  rfl

theorem clusterClearing_clears {cluster : BitVec 10} (h : s.Changes cluster.toNat) :
    let p := cluster.toNat
    ∃ t : State, exec (.clusterClearing cluster) s = .next t ∧ (t.cluster p).secure = s.cworld.getLsbD p ∧
      (t.cluster p).slots = [] ∧ (t.cluster p).l1 = [] ∧ (t.cluster p).tlb = [] ∧ t.hbm = s.hbm ∧ t.host = s.host ∧
      t.clusterMem = s.clusterMem.clear (p * 2 ^ 19) (2 ^ 19) ∧ t.coreMem = s.coreMem.clear (p * 2 ^ 20) (2 ^ 20) ∧
      ∀ i, i < 8 → (t.core (8 * p + i)).itlb = [] ∧ (t.core (8 * p + i)).dtlb = [] := by
  intro p
  obtain ⟨mts, e⟩ := State.clearCluster_of_changes h
  have wiped := s.wiped_wiping p
  have cores (i : Nat) (hi : i < 8) := State.core_wipeCores (s := (s.lapseAt p).wipe p) (p := p) hi
  generalize ((s.lapseAt p).wipe p).wipeCores p = u at e wiped cores
  simp only [State.wiping, Prod.mk.injEq] at wiped
  obtain ⟨⟨hbm, host, clusterMem, coreMem⟩, cworld, times⟩ := wiped
  refine ⟨_, (exec_clusterClearing ..).trans (happen_modify_timeless e times), ?_⟩
  rw [State.cluster_mapCluster_self]
  exact ⟨congrArg (·.getLsbD p) cworld, rfl, rfl, rfl, hbm, host, clusterMem, coreMem, cores⟩

end Clearing

/-- Settles O49: each way in which a launch stops, and the clearing of a cluster, by the equation of its step. -/
theorem launchesStop : Obligations.LaunchesStop := by
  unfold Obligations.LaunchesStop
  refine ⟨fun q s => ?launch, fun world v s => ?kill, fun cluster s => ?clearing⟩
  case launch =>
    intro launch secure goes
    refine ⟨fun h => ?unstoppable, fun h hs => ?lapses, fun h hs hf => ?stops, fun hard inStep hl hd ht hf => ?released,
      fun hard inStep hl h => ?held, fun hard st hl hs => ⟨fun line rest ho hc => ?asks, fun ho hf => ?restored⟩,
      fun hs => ?idle, fun hl hj hp hc hh => ?torn, fun line hl hw hf => ?acknowledged, fun line hl hw => ?unacknowledged⟩
    case unstoppable =>
      rw [exec_preemptionTakesEffect]
      exact happen_modify_still (State.stopLaunch_still h)
    case lapses =>
      intro lapsed
      have stops := (State.stopLaunch_lapses h hs).trans (s.lapsePreempt_eq q)
      exact ⟨fun hp hf => (exec_preemptionTakesEffect ..).trans (happen_modify_goes (stops.trans (if_pos hp)) hf),
        fun hp => (exec_preemptionTakesEffect ..).trans
          (happen_modify_timeless (stops.trans (if_neg hp)) (s.mapLaunch_times ..))⟩
    case stops =>
      rw [exec_preemptionTakesEffect]
      exact happen_modify_goes (State.stopLaunch_stops h hs) hf
    case released =>
      intro written t
      exact ⟨fun hf => (exec_clusterRelease ..).trans (happen_modify_goes rfl hf),
        State.releaseStopped_parks hl hd ht (State.faultsTaken_eq_true hf)⟩
    case held =>
      rw [exec_clusterRelease]
      refine happen_modify_still (State.releaseStopped_of_not_over hl ?_)
      obtain h | h | ⟨c, hc, f, hf⟩ := h
      · rw [h, Bool.false_and, Bool.false_and]
      · rw [h, Bool.and_false, Bool.false_and]
      · rw [State.faultsTaken_eq_false hc hf, Bool.and_false]
    case asks =>
      rw [exec_launchResume]
      exact happen_wait (resumeLaunch_asks hl hs ho hc) (s.asksBack_high line) (s.asksBack_floor line)
    case restored =>
      rw [exec_launchResume]
      exact happen_ok (resumeLaunch_restores hl hs ho) hf.holds
    case idle =>
      rw [exec_launchResume]
      exact happen_ok (resumeLaunch_idle hs) (State.floor_ok rfl rfl)
    case torn =>
      intro done
      have ended : s.TornOver q := ⟨hl, hj, hp, hc, hh⟩
      exact ⟨fun hd => ⟨fun hf => (exec_teardownComplete ..).trans
          (happen_modify_goes (State.teardownComplete_leaves ended hd) hf), State.admitted_leave ..⟩,
        fun hd hf => (exec_teardownComplete ..).trans (happen_modify_goes (State.teardownComplete_records ended hd) hf)⟩
    case acknowledged =>
      rw [exec_teardownComplete]
      exact happen_modify_goes (State.teardownComplete_acknowledged hl hw) hf
    case unacknowledged =>
      rw [exec_teardownComplete]
      exact happen_modify_still (State.teardownComplete_unacknowledged hl hw)
  case kill =>
    intro q
    rw [exec_kill]
    refine ⟨fun h => happen_modify_still (State.killWrite_ignored h), fun hv hr ht hb hp hf => ?_⟩
    exact ⟨happen_modify_goes (State.killWrite_tears hv hr ht hb hp) hf,
      State.phase_tearDown (State.admitted_of_backlogged hb), fun c => State.ctx_tearDown_free, s.tearDown_hbm q⟩
  case clearing =>
    intro p k
    refine ⟨fun h => ?_, fun he hp hr hn hw => clusterClearing_clears ⟨he, hp, hr, ?_, hw⟩⟩
    · rw [exec_clusterClearing]
      exact happen_modify_still (State.clearCluster_still h)
    · intro hm
      obtain ⟨e, he, h⟩ := List.mem_map.mp hm
      exact hn e he h

end Sys2Proof.Machine
end

section
/-! Taking a fault: what it saves, whether it is vectored, and what it leaves as it was (R82, R246, R249, R325, R365 to R369).

First what a byte is read from, and what folds over queues and event lines keep. Then what a fault finds and saves, as
functions of the context; the delivery has one equation for each of its three ways, and the obligation is read off them. -/

namespace Sys2Proof.Machine

/-! ## Bytes and contexts -/

/-- What a byte of memory is read from. -/
def State.holdings (s : State) :
    (Memory × Memory × Memory × Memory × Memory) × List L2Line × List HostLine × List WriteEntry × Ts :=
  ((s.hbm, s.host, s.coreMem, s.clusterMem, s.chipMem), s.l2, s.hostLines, s.writeEntries, s.stampBase)

theorem State.sameBytes_of_holdings {s t : State} (h : t.holdings = s.holdings) : s.SameBytes t := by
  simp only [State.holdings, Prod.mk.injEq] at h
  obtain ⟨⟨hbm, host, coreMem, clusterMem, chipMem⟩, l2, hostLines, writeEntries, stampBase⟩ := h
  rintro (pa | ⟨pa, x⟩ | ha | ⟨space, off⟩)
  · simp only [State.peekByte, State.lineData, State.l2Line, hbm, l2, stampBase]
  · simp only [State.peekByte, hbm]
  · simp only [State.peekByte, State.hostLine, State.writeEntry, host, hostLines, writeEntries]
  · simp only [State.peekByte, State.winMem, coreMem, clusterMem, chipMem]

theorem State.ctx_of_contexts {s t : State} (h : t.contexts = s.contexts) (c : CtxId) : t.ctx c = s.ctx c := by
  rw [State.ctx, h, State.ctx]

theorem State.ctx_mapWorld (s : State) (secure : Bool) (f : WorldRegs → WorldRegs) (c : CtxId) :
    (s.mapWorld secure f).ctx c = s.ctx c := by cases secure <;> rfl

theorem State.mapWorld_holdings (s : State) (secure : Bool) (f : WorldRegs → WorldRegs) :
    (s.mapWorld secure f).holdings = s.holdings := by cases secure <;> rfl

/-! ## Changes by folds over queues and event lines -/

section Keeps
variable {β : Type} (g : State → β)

theorem State.completeEpisodes_keeps (h : ∀ s q f, g (State.mapLaunch s q f) = g s) (s : State) (q : BitVec 6)
    (d : BitVec 4) (n : Nat) : g (s.completeEpisodes q d n) = g s := by
  induction n generalizing s with
  | zero => rfl
  | succ n ih =>
    unfold State.completeEpisodes
    dsimp only
    split
    · rfl
    · split
      · exact (ih _).trans (h _ _ _)
      · rfl

theorem State.recheckEpisodes_keeps (h : ∀ s q f, g (State.mapLaunch s q f) = g s) (s : State) (q : BitVec 6) :
    g (s.recheckEpisodes q) = g s :=
  foldl_keeps g fun s _ => State.completeEpisodes_keeps g h s q _ _

theorem State.arriveAt_keeps (h : ∀ s q f, g (State.mapLaunch s q f) = g s) (s : State) (q : BitVec 6) (d : BitVec 4)
    (a : Arrival) : g (s.arriveAt q d a) = g s :=
  (State.completeEpisodes_keeps g h _ q d _).trans (h s q _)

theorem State.serve_keeps (hl : ∀ s p l e, g (State.setLine s p l e) = g s) (hc : ∀ s c f, g (State.mapCtx s c f) = g s)
    (ha : ∀ s x, g (State.assign s x) = g s) (s : State) (p : Nat) (l : BitVec 6) (n : Nat) : g (s.serve p l n) = g s := by
  induction n generalizing s with
  | zero => rfl
  | succ n ih =>
    unfold State.serve
    dsimp only
    split
    · rfl
    · split
      · rfl
      · rw [ih, ha, hc, hl]

theorem State.releaseMutexes_keeps (hl : ∀ s p l e, g (State.setLine s p l e) = g s)
    (hc : ∀ s c f, g (State.mapCtx s c f) = g s) (ha : ∀ s x, g (State.assign s x) = g s) (s : State) (c : CtxId) :
    g (s.releaseMutexes c) = g s := by
  refine foldl_keeps g fun s p => foldl_keeps g fun s i => ?_
  dsimp only
  split
  · rw [State.actLine, State.serve_keeps g hl hc ha, ha, hl]
  · rfl

end Keeps

/-! ## A context that becomes FREE -/

theorem State.ctx_exhaust (s : State) (core : BitVec 13) (c : CtxId) : (s.exhaust core).ctx c = s.ctx c := by
  unfold State.exhaust
  dsimp only
  split
  · exact s.ctx_mapCore _ _ c
  · rfl

theorem State.freeCtx_demands_active (s : State) (c : CtxId) :
    ((s.freeCtx c).demands, (s.freeCtx c).active) = (s.demands, s.active) := by
  have free : ((s.freeCtx c).demands, (s.freeCtx c).active) =
      ((s.releaseMutexes c).demands, (s.releaseMutexes c).active) := by
    unfold State.freeCtx State.exhaust
    dsimp only
    split <;> rfl
  rw [free]
  exact State.releaseMutexes_keeps (fun s => (s.demands, s.active)) (fun _ _ _ _ => rfl) (fun _ _ _ => rfl)
    (fun _ _ => rfl) s c

theorem State.freeCtx_demands (s : State) (c : CtxId) : (s.freeCtx c).demands = s.demands :=
  congrArg Prod.fst (s.freeCtx_demands_active c)

theorem State.freeCtx_active (s : State) (c : CtxId) : (s.freeCtx c).active = s.active :=
  congrArg Prod.snd (s.freeCtx_demands_active c)

theorem State.run_freeCtx (s : State) (c : CtxId) : ((s.freeCtx c).ctx c).run = .free := by
  unfold State.freeCtx
  dsimp only
  rw [State.ctx_exhaust, State.ctx_mapCtx_self]
  rfl

/-! ## A fault and what it finds (R131, R133, R331, R365) -/

/-- That a leader has stopped changes the rolls of contexts alone. -/
theorem State.ctx_endRoll (s : State) (leader : CtxId) (next : Word) (c : CtxId) :
    (s.endRoll leader next).ctx c = { s.ctx c with roll := ((s.endRoll leader next).ctx c).roll } := by
  unfold State.ctx State.endRoll SMap.at
  dsimp only
  rw [SMap.find_update]
  cases SMap.find s.contexts (ctxKey c) with
  | none => rfl
  | some k =>
    dsimp only [Option.map_some, Option.getD_some]
    split
    · split <;> rfl
    · split <;> rfl
    · rfl

/-- An interruption moves a context that waits in `FOLLOW`, and changes nothing else of what a fault looks at. -/
theorem Context.atTarget_eq (k : Context) : k.atTarget = { k with pc := k.atTarget.pc, entry := k.atTarget.entry } := by
  unfold Context.atTarget
  split <;> rfl

@[simp] theorem Context.atTarget_regs (k : Context) : k.atTarget.regs = k.regs := by rw [k.atTarget_eq]
@[simp] theorem Context.atTarget_fflags (k : Context) : k.atTarget.fflags = k.fflags := by rw [k.atTarget_eq]
@[simp] theorem Context.atTarget_pts (k : Context) : k.atTarget.pts = k.pts := by rw [k.atTarget_eq]
@[simp] theorem Context.atTarget_trap (k : Context) : k.atTarget.trap = k.trap := by rw [k.atTarget_eq]
@[simp] theorem Context.atTarget_settle (k : Context) : k.atTarget.settle = k.settle := by rw [k.atTarget_eq]
@[simp] theorem Context.atTarget_borrowed (k : Context) : k.atTarget.borrowed = k.borrowed := by rw [k.atTarget_eq]

/-- The fault is a `TRAP` of its own, and not one that ended an evaluation (R246, R371). -/
def Trap.own (t : Trap) : Bool := t.cause == .trap && !t.demanded

theorem Trap.own_iff (t : Trap) : t.own = true ↔ t.cause = .trap ∧ t.demanded = false := by simp [Trap.own]

/-- The EPC that a fault saves (R82, R131, R371). -/
def Context.faultEpc (k : Context) (t : Trap) : Word := if t.own then pcSucc k.atTarget.pc else k.atTarget.pc

theorem toNat_append_eq {n m : Nat} (a : BitVec n) (b : BitVec m) : (a ++ b).toNat = a.toNat * 2 ^ m + b.toNat := by
  rw [BitVec.toNat_append, ← Nat.shiftLeft_add_eq_or_of_lt b.isLt, Nat.shiftLeft_eq]

/-- FCAUSE as a fault other than a `TRAP` of its own writes it (R366). -/
def Context.faultCause (k : Context) (t : Trap) : Word :=
  (0 : BitVec 40) ++ k.trap.repeats (k.faultEpc t) t ++ t.acc ++ t.detail ++ t.cause.code

theorem Context.faultCause_eq (k : Context) (t : Trap) : k.faultCause t = BitVec.ofNat 64
    (t.cause.code.toNat + t.detail.toNat * 2 ^ 8 + t.acc.toNat * 2 ^ 12 +
      (k.trap.repeats (k.faultEpc t) t).toNat * 2 ^ 16) := by
  unfold Context.faultCause
  generalize k.trap.repeats (k.faultEpc t) t = rep, t.cause.code = code
  apply BitVec.eq_of_toNat_eq
  have := rep.isLt; have := t.acc.isLt; have := t.detail.isLt; have := code.isLt
  simp only [toNat_append_eq, BitVec.ofNat_eq_ofNat, BitVec.toNat_ofNat]
  omega

/-- CAUSE as a vectored fault writes it (R366). -/
theorem vectoredCause_eq (code : BitVec 8) (tcode : BitVec 16) :
    (0 : BitVec 32) ++ tcode ++ (0 : BitVec 8) ++ code = BitVec.ofNat 64 (code.toNat + tcode.toNat * 2 ^ 16) := by
  apply BitVec.eq_of_toNat_eq
  have := tcode.isLt; have := code.isLt
  simp only [toNat_append_eq, BitVec.ofNat_eq_ofNat, BitVec.toNat_ofNat]
  omega

/-- The trap registers once a fault has saved what it is and where (R366, R368). -/
def Context.faultRegs (k : Context) (t : Trap) : TrapRegs :=
  { k.trap with
    epc := k.faultEpc t, epcWritten := false, faddr := t.faddr, resumed := false
    fcause := if t.own then k.trap.fcause else k.faultCause t
    run := some { epc := k.faultEpc t, cause := t.cause, faddr := t.faddr
                  count := k.trap.repeats (k.faultEpc t) t } }

/-- The context as a fault leaves it but for where it goes: what it waited for and its roll are over (R133, R368). -/
def Context.struck (k : Context) : Context :=
  { k.atTarget.detach with
    wait := .none, grant := .none, hostAnswers := [], gathered := none, refetched := [], latched := none
    forwarded := false, last := .trapped }

/-- The fault is vectored to a handler (R365, R368). -/
def Context.vectors (k : Context) (t : Trap) : Bool :=
  t.cause.vectorable k.trap.vec && k.trap.tvec != 0 && !k.trap.intrap && !k.inSettlement

/-- The state once vector 2 has been raised for a machine check or a bad line (R368). -/
def State.alert (s : State) (t : Trap) : State := if t.cause = .mce ∨ t.cause = .linepar then s.emit (.msix 2) else s

theorem State.alert_part (s : State) (t : Trap) : s.alert t = { s with out := (s.alert t).out } := by
  unfold State.alert
  split <;> rfl

/-- The state once the followers have learned too that the context has stopped (R133, R368). -/
def State.stopped (s : State) (c : CtxId) (t : Trap) : State := (s.alert t).endRoll c (s.ctx c).rollPc

theorem State.stopped_part (s : State) (c : CtxId) (t : Trap) :
    s.stopped c t = { s with out := (s.stopped c t).out, contexts := (s.stopped c t).contexts } := by
  unfold State.stopped
  rw [s.alert_part t]
  rfl

theorem State.ctx_stopped (s : State) (c : CtxId) (t : Trap) (c' : CtxId) :
    (s.stopped c t).ctx c' = { s.ctx c' with roll := ((s.stopped c t).ctx c').roll } := by
  have same : (s.alert t).ctx c' = s.ctx c' := by
    rw [s.alert_part t]
    rfl
  rw [← same]
  exact State.ctx_endRoll _ _ _ _

section Deliver
variable {s : State} {c : CtxId} {t : Trap}

/-- A vectored fault enters the handler (R368). -/
theorem State.deliver_vectored (hb : (s.ctx c).borrowed = none) (hv : (s.ctx c).vectors t = true) :
    s.deliver c t = (s.stopped c t).setCtx c { (s.ctx c).struck with
      run := .running, pc := (s.ctx c).trap.tvec, entry := .plain
      trap := { (s.ctx c).faultRegs t with
        intrap := true, cause := (0 : BitVec 32) ++ t.tcode ++ (0 : BitVec 8) ++ t.cause.code } } := by
  unfold State.deliver
  dsimp only
  rw [Context.atTarget_borrowed, hb]
  dsimp only
  rw [if_pos (by simpa [Context.vectors, Context.detach, Context.inSettlement] using hv)]
  simp only [Context.atTarget_trap, Context.detach]
  rfl

/-- A fault that is not vectored leaves its context FAULTED, with a record that waits for its world's ring (R83, R368). -/
theorem State.deliver_parked (hb : (s.ctx c).borrowed = none) (hv : (s.ctx c).vectors t = false) :
    let r := (s.stopped c t).recordOf c t ((s.ctx c).trap.repeats ((s.ctx c).faultEpc t) t) ((s.ctx c).faultEpc t)
    s.deliver c t = ((s.stopped c t).mapWorld ((s.stopped c t).launchAt c).secure fun w =>
        { w with seq := w.seq + 1, waiting := w.waiting ++ [r] }).setCtx c { (s.ctx c).struck with
      run := .faulted, entry := .plain, settle := { (s.ctx c).struck.settle with active := false, lines := [] }
      trap := { (s.ctx c).faultRegs t with record := some r } } := by
  unfold State.deliver
  dsimp only
  rw [Context.atTarget_borrowed, hb]
  dsimp only
  rw [if_neg (by simpa [Context.vectors, Context.detach, Context.inSettlement] using hv)]
  simp only [Context.atTarget_trap, Context.detach]
  rfl

/-- A fault of a borrowed context is that of its thunk's evaluation, and the context is free again (R246, R249, R368). -/
theorem State.deliver_borrowed {p : Nat} {i : BitVec 11} (hb : (s.ctx c).borrowed = some (p, i)) :
    s.deliver c t = (((s.alert t).endFrame (s.handle p i) (s.ctx c).pts (some t)).freeCtx c).recheckEpisodes
      (s.queueOf (clusterOfCore c.core)) := by
  have handle : (s.alert t).handle p i = s.handle p i := by
    rw [s.alert_part t]
    rfl
  have queue : (s.alert t).queueOf (clusterOfCore c.core) = s.queueOf (clusterOfCore c.core) := by
    rw [s.alert_part t]
    rfl
  rw [← handle, ← queue]
  unfold State.deliver
  dsimp only
  rw [Context.atTarget_borrowed, hb, Context.atTarget_pts]
  rfl

/-- Outside a settlement phase a fault is delivered and that is all (R325, R368). -/
theorem State.raise_of_not_settling (h : (s.ctx c).inSettlement = false) : s.raise c t = s.deliver c t := by
  unfold State.raise
  dsimp only
  rw [h]

/-- What a settlement fault does to its domain changes launches alone (R325). -/
theorem State.raise_keeps {β : Type} (g : State → β) (hg : ∀ s q f, g (State.mapLaunch s q f) = g s) :
    g (s.raise c t) = g (s.deliver c t) := by
  unfold State.raise
  dsimp only
  split
  · exact State.arriveAt_keeps g hg _ _ _ _
  · rfl

/-- What a fault saves in its context, and what it leaves of it, whether it is vectored or not (R368). -/
theorem State.deliver_saves (hb : (s.ctx c).borrowed = none) :
    let k := s.ctx c
    let k' := (s.deliver c t).ctx c
    (k'.regs, k'.fflags, k'.pts) = (k.regs, k.fflags, k.pts) ∧
      (k'.trap.epc, k'.trap.faddr, k'.trap.fcause) = (k.faultEpc t, t.faddr, (k.faultRegs t).fcause) ∧
      (k'.trap.tvec, k'.trap.vec) = (k.trap.tvec, k.trap.vec) := by
  dsimp only
  cases hv : (s.ctx c).vectors t
  · rw [State.deliver_parked hb hv, State.ctx_setCtx_self]
    simp [Context.struck, Context.detach, Context.faultRegs]
  · rw [State.deliver_vectored hb hv, State.ctx_setCtx_self]
    simp [Context.struck, Context.detach, Context.faultRegs]

/-- A fault changes no byte, and of other contexts the rolls alone (R133, R368). -/
theorem State.deliver_frame (hb : (s.ctx c).borrowed = none) :
    (s.deliver c t).holdings = s.holdings ∧ ∀ c', c' ≠ c →
      (s.deliver c t).ctx c' = { s.ctx c' with roll := ((s.deliver c t).ctx c').roll } := by
  have stopped : (s.stopped c t).holdings = s.holdings := by
    rw [s.stopped_part c t]
    rfl
  cases hv : (s.ctx c).vectors t
  · rw [State.deliver_parked hb hv]
    refine ⟨(State.mapWorld_holdings ..).trans stopped, fun c' hne => ?_⟩
    rw [State.ctx_setCtx_ne _ _ hne, State.ctx_mapWorld]
    exact State.ctx_stopped _ _ _ _
  · rw [State.deliver_vectored hb hv]
    refine ⟨stopped, fun c' hne => ?_⟩
    rw [State.ctx_setCtx_ne _ _ hne]
    exact State.ctx_stopped _ _ _ _

/-- The context of a vectored fault enters its handler, and no record is made (R365, R368). -/
theorem State.deliver_vectored_enters (hb : (s.ctx c).borrowed = none) (hv : (s.ctx c).vectors t = true) :
    let k' := (s.deliver c t).ctx c
    k'.run = .running ∧ k'.pc = (s.ctx c).trap.tvec ∧ k'.entry = .plain ∧ k'.trap.intrap = true ∧
      k'.trap.cause = BitVec.ofNat 64 (t.cause.code.toNat + t.tcode.toNat * 2 ^ 16) ∧
      ∀ b, (s.deliver c t).world b = s.world b := by
  have world (b : Bool) : (s.deliver c t).world b = s.world b := by
    rw [State.deliver_vectored hb hv, s.stopped_part c t]
    rfl
  have me := congrArg (fun u : State => u.ctx c) (State.deliver_vectored hb hv)
  simp only [State.ctx_setCtx_self] at me
  dsimp only
  rw [me]
  exact ⟨rfl, rfl, rfl, rfl, vectoredCause_eq _ _, world⟩

/-- The context of any other fault is FAULTED where it stood, and its record waits for the ring of its world (R83, R368). -/
theorem State.deliver_parked_records (hb : (s.ctx c).borrowed = none) (hv : (s.ctx c).vectors t = false) :
    let k := s.ctx c
    let k' := (s.deliver c t).ctx c
    let r := s.recordOf c t (k.trap.repeats (k.faultEpc t) t) (k.faultEpc t)
    let w := s.world (s.launchAt c).secure
    k'.run = .faulted ∧ k'.pc = k.atTarget.pc ∧ k'.trap.intrap = k.trap.intrap ∧ k'.trap.cause = k.trap.cause ∧
      k'.trap.record = some r ∧
      ((s.deliver c t).world (s.launchAt c).secure).waiting = w.waiting ++ [r] ∧
      ((s.deliver c t).world (s.launchAt c).secure).seq = w.seq + 1 := by
  have launch : (s.stopped c t).launchAt c = s.launchAt c := by
    rw [s.stopped_part c t]
    rfl
  have world (b : Bool) : (s.stopped c t).world b = s.world b := by
    rw [s.stopped_part c t]
    rfl
  have record : (s.stopped c t).recordOf c t = s.recordOf c t := by
    funext rep epc
    simp only [State.recordOf, launch, world]
  have e := State.deliver_parked hb hv
  simp only [launch, record] at e
  dsimp only
  rw [e, State.ctx_setCtx_self]
  refine ⟨rfl, rfl, rfl, rfl, rfl, ?_, ?_⟩
  all_goals
    rw [← world]
    exact congrArg _ (State.world_mapWorld_self _ _ _)

/-- Whether a settlement phase is on or not, the thunk of a borrowed context takes its fault (R249, R325, R368). -/
theorem State.raise_borrowed {p : Nat} {i : BitVec 11} (hb : (s.ctx c).borrowed = some (p, i)) :
    ((s.raise c t).ctx c).run = .free ∧
      (s.raise c t).demands = (s.endFrame (s.handle p i) (s.ctx c).pts (some t)).demands := by
  have alert : (s.alert t).demands = s.demands := by rw [s.alert_part t]
  have raised := State.raise_keeps (s := s) (c := c) (t := t) (fun u : State => ((u.ctx c).run, u.demands))
    fun _ _ _ => rfl
  rw [State.deliver_borrowed hb, State.recheckEpisodes_keeps (fun u : State => ((u.ctx c).run, u.demands)) fun _ _ _ => rfl,
    State.run_freeCtx, State.freeCtx_demands, Prod.mk.injEq] at raised
  refine ⟨raised.1, raised.2.trans ?_⟩
  simp only [State.endFrame, alert]

end Deliver

/-! ## The obligation -/

/-- The bit of VEC that allows a cause to be vectored, where one does (R365, R366). -/
def Cause.vecBit : Cause → Option Nat
  | .illop | .badtgt | .lpadmis | .jtbound => some 0
  | .world | .window | .align => some 1
  | .pstore | .assayw => some 2
  | .selfdep | .hstale => some 3
  | .fmtmix | .engflt => some 4
  | .kvstate => some 6
  | _ => none

theorem Cause.vectorable_iff (x : Cause) (vec : BitVec 7) :
    x.vectorable vec = true ↔ x = .trap ∨ ∃ b, x.vecBit = some b ∧ vec.getLsbD b = true := by
  cases x <;> simp [Cause.vectorable, Cause.vecBit]

theorem Context.vectors_iff {k : Context} (t : Trap) (h : k.inSettlement = false) : k.vectors t = true ↔
    (t.cause = .trap ∨ ∃ b, t.cause.vecBit = some b ∧ k.trap.vec.getLsbD b = true) ∧ k.trap.tvec ≠ 0 ∧
      k.trap.intrap = false := by
  rw [← Cause.vectorable_iff]
  simp [Context.vectors, h, and_assoc]

/-- Settles O45: a vectored fault and one that is not, by the equation of its delivery, and that of a borrowed context. -/
theorem faultsAreTaken : Obligations.FaultsAreTaken := by
  unfold Obligations.FaultsAreTaken
  intro c t s k u k' here traps epc rep bit allowed vectored secure
  have here_eq : here = k.atTarget.pc := by
    simp only [here, Context.atTarget]
    cases k.roll <;> rfl
  have bit_eq : bit = t.cause.vecBit := by
    simp only [bit]
    cases t.cause <;> rfl
  have own : traps ↔ t.own = true := t.own_iff.symm
  have epc_eq : epc = k.faultEpc t := by
    simp only [epc, own, here_eq, Context.faultEpc]
  have rep_eq : rep = k.trap.repeats (k.faultEpc t) t := by simp only [rep, epc_eq]
  refine ⟨fun hb hs => ?_, fun q i hb => State.raise_borrowed hb⟩
  have raised : s.raise c t = s.deliver c t := State.raise_of_not_settling hs
  have hv : vectored ↔ k.vectors t = true := by
    rw [Context.vectors_iff t hs]
    simp only [vectored, allowed, bit_eq]
  have saves := State.deliver_saves (t := t) hb
  have frame := State.deliver_frame (t := t) hb
  simp only [← raised, Prod.mk.injEq] at saves frame
  obtain ⟨⟨hregs, hflags, hpts⟩, ⟨hepc, hfaddr, hfcause⟩, htvec, hvec⟩ := saves
  obtain ⟨bytes, others⟩ := frame
  refine ⟨hregs, hflags, hpts, State.sameBytes_of_holdings bytes, ?epc, hfaddr, htvec, hvec, ?own, ?cause, ?vectored,
    ?parked, fun c' hne => ?others⟩
  case epc => exact hepc.trans epc_eq.symm
  case own =>
    intro h
    rw [hfcause, Context.faultRegs, if_pos (own.mp h)]
  case cause =>
    intro h
    rw [hfcause, Context.faultRegs, if_neg fun e => h (own.mpr e), Context.faultCause_eq, rep_eq]
  case vectored =>
    intro h
    have enters := State.deliver_vectored_enters hb (hv.mp h)
    rwa [← raised] at enters
  case parked =>
    intro h
    have parks := State.deliver_parked_records (t := t) hb (by simpa using fun e => h (hv.mpr e))
    rw [← raised] at parks
    obtain ⟨hrun, hpc, hin, hcause, hrecord, hwaiting, hseq⟩ := parks
    refine ⟨hrun, hpc.trans here_eq.symm, hin, hcause, _, hrecord, hwaiting, hseq, rfl, epc_eq.symm, ?_, rfl⟩
    rw [rep_eq]
    rfl
  case others =>
    rw [show u.ctx c' = _ from others c' hne]
    exact ⟨rfl, rfl, rfl⟩

end Sys2Proof.Machine
end

section
/-! `TRAP`, `ILL`, `ERET`, `HALT` and `TRACE` (R129, R277, R342 to R344, R371, R383, R384).

A trace record is written where the part may store, which `State.pokeHome` decides for each line; a record of a ring lies in
one line. Its fields are read back as parts of one number. -/

namespace Sys2Proof.Machine

/-! ## Parts of a written number -/

/-- A write of n bytes is a write of some and then of the rest. -/
theorem Memory.writeN_add (m : Memory) (a i j v : Nat) :
    m.writeN a (i + j) v = (m.writeN a i v).writeN (a + i) j (v / 256 ^ i) := by
  induction i generalizing m a v with
  | zero => simp [Memory.writeN]
  | succ i ih =>
    rw [Nat.add_right_comm, Memory.writeN, ih, Memory.writeN, Nat.div_div_eq_div_mul, ← Nat.pow_succ', Nat.add_right_comm,
      Nat.add_assoc]

/-- The bytes of a part of what has been written read back as that part of the number. -/
theorem Memory.readN_writeN_part {m : Memory} (h : m.wf = true) (a : Nat) {k j n : Nat} (hn : k + j ≤ n) (v : Nat) :
    (m.writeN a n v).readN (a + k) j = v / 256 ^ k % 256 ^ j := by
  obtain ⟨rest, rfl⟩ := Nat.exists_eq_add_of_le hn
  rw [Memory.writeN_add, Memory.writeN_add, ← Memory.readN_writeN (Memory.writeN_wf h a k v) (a + k) j]
  exact Memory.readN_congr fun i _ hi => Memory.read_writeN_out _ _ (.inl (by omega))

/-- The words of a record of four, and where they lie in its number. -/
theorem packElems_four (a b c d : Word) : ∃ v, packElems 64 [a.toNat, b.toNat, c.toNat, d.toNat] = v ∧
    v % 2 ^ 64 = a.toNat ∧ v / 2 ^ 64 % 2 ^ 64 = b.toNat ∧ v / 2 ^ 128 % 2 ^ 64 = c.toNat ∧
    v / 2 ^ 192 % 2 ^ 64 = d.toNat := by
  have := a.isLt; have := b.isLt; have := c.isLt; have := d.isLt
  refine ⟨_, rfl, ?_⟩
  simp only [packElems, Nat.mul_zero, Nat.add_zero]
  omega

/-! ## Trace rings (R342) -/

/-- The mask of the indices of a ring. -/
theorem toNat_and_ringMask (x : BitVec 20) {n : Nat} (h : n ≤ 20) :
    (x &&& BitVec.ofNat 20 (2 ^ n - 1)).toNat = x.toNat % 2 ^ n := by
  have : 2 ^ n ≤ 2 ^ 20 := Nat.pow_le_pow_right (by decide) h
  rw [BitVec.toNat_and, BitVec.toNat_ofNat, Nat.mod_eq_of_lt (by omega), Nat.and_two_pow_sub_one_eq_mod]

def State.traceRing (s : State) (secure : Bool) (die : Nat) : TraceRing := SMap.at (s.world secure).traces .reset die

/-- The address of the record at the head of a ring (R342). -/
def TraceRing.slot (r : TraceRing) : Nat :=
  r.base.toNat + 32 * (r.head &&& BitVec.ofNat 20 (2 ^ r.log2.toNat - 1)).toNat

theorem TraceRing.slot_eq {r : TraceRing} (h : r.log2.toNat ≤ 20) :
    r.slot = r.base.toNat + 32 * (r.head.toNat % 2 ^ r.log2.toNat) := by rw [TraceRing.slot, toNat_and_ringMask _ h]

/-- The ring after a record has been put at its head, and has displaced the oldest one of a full ring (R342). -/
def TraceRing.push (r : TraceRing) : TraceRing :=
  let mask : BitVec 20 := BitVec.ofNat 20 (2 ^ r.log2.toNat - 1)
  let next := (r.head + 1) &&& mask
  let full := next == r.tail &&& mask
  { r with
    head := next, tail := if full then (r.tail + 1) &&& mask else r.tail
    lost := if full then (if r.lost = 0xFFFF then r.lost else r.lost + 1) else r.lost }

/-- The second word of a trace record (R343). -/
def TraceRing.word1 (r : TraceRing) (type : BitVec 4) (c : CtxId) (sstep : BitVec 8) (tag : BitVec 16) : Word :=
  type ++ r.push.lost ++ c.core ++ c.ctx ++ sstep ++ (0 : BitVec 5) ++ tag

theorem TraceRing.toNat_word1 (r : TraceRing) (type : BitVec 4) (c : CtxId) (sstep : BitVec 8) (tag : BitVec 16) :
    (r.word1 type c sstep tag).toNat % 2 ^ 16 = tag.toNat := by
  have := tag.isLt
  rw [TraceRing.word1, toNat_append_eq]
  omega

section Trace
variable {s : State} {secure : Bool} {die : Nat} {type : BitVec 4} {c : CtxId} {sstep : BitVec 8} {tag : BitVec 16}
  {data0 : Word} {launchid data1 : BitVec 32}

theorem State.trace_noRing (h : (s.traceRing secure die).log2 = 0) :
    s.trace secure die type c sstep tag data0 launchid data1 = s := if_pos h

theorem State.trace_ring (h : (s.traceRing secure die).log2 ≠ 0) :
    s.trace secure die type c sstep tag data0 launchid data1 =
      (s.pokeRecord secure (s.traceRing secure die).slot (packElems 64 [s.time.toNat,
        ((s.traceRing secure die).word1 type c sstep tag).toNat, data0.toNat, (launchid ++ data1).toNat])).setWorld secure
        { s.world secure with traces := SMap.put (s.world secure).traces die (s.traceRing secure die).push } := if_neg h

end Trace

/-! ## Bytes that the part writes with no place in the global order (R335, R343) -/

/-- What such a write leaves as it was beside the bytes and what the host is told. -/
def State.apart (s : State) : SMap Context × Ts × Ts := (s.contexts, s.times)

theorem State.snatch_eq (s : State) (line : Nat) :
    s.snatch line = { s with out := (s.snatch line).out, backInvals := (s.snatch line).backInvals } := by
  unfold State.snatch
  split <;> rfl

theorem State.pokeHome_apart (s : State) (secure : Bool) (pa n v : Nat) : (s.pokeHome secure pa n v).apart = s.apart :=
  foldl_keeps State.apart fun s i => by
    dsimp only
    split
    · rw [State.snatch_eq]
      rfl
    · rfl

theorem State.pokeHost_apart (s : State) (line off n v : Nat) : (s.pokeHost line off n v).apart = s.apart := by
  unfold State.pokeHost
  split
  · split <;> rfl
  · rfl

theorem State.pokeRecord_apart (s : State) (secure : Bool) (pa v : Nat) : (s.pokeRecord secure pa v).apart = s.apart := by
  unfold State.pokeRecord
  split
  · exact s.pokeHost_apart ..
  · exact s.pokeHome_apart ..

theorem State.setWorld_apart (s : State) (secure : Bool) (w : WorldRegs) : (s.setWorld secure w).apart = s.apart := by
  cases secure <;> rfl

theorem State.setWorld_holdings (s : State) (secure : Bool) (w : WorldRegs) :
    (s.setWorld secure w).holdings = s.holdings := by cases secure <;> rfl

theorem State.world_setWorld_self (s : State) (secure : Bool) (w : WorldRegs) : (s.setWorld secure w).world secure = w := by
  cases secure <;> rfl

theorem State.setWorld_hbm (s : State) (secure : Bool) (w : WorldRegs) : (s.setWorld secure w).hbm = s.hbm := by
  cases secure <;> rfl

/-- A record that its alignment keeps in one line is written there, or nowhere (R73, R85, R103, R336). -/
theorem State.pokeHome_record {s : State} {secure : Bool} {pa v : Nat} (h : pa % 32 = 0) :
    s.pokeHome secure pa 32 v =
      if s.mayStore secure pa 32 then { s.snatch (pa / 128) with hbm := s.hbm.writeN pa 32 v } else s := by
  have line : (pa + 32 - 1) / 128 - pa / 128 + 1 = 1 := by omega
  have lo : Nat.max pa (pa / 128 * 128) = pa := Nat.max_eq_left (by omega)
  have hi : Nat.min (pa + 32) (pa / 128 * 128 + 128) = pa + 32 := Nat.min_eq_left (by omega)
  unfold State.pokeHome
  rw [line, List.range_one, List.foldl_cons, List.foldl_nil]
  dsimp only
  rw [Nat.add_zero, lo, hi, Nat.add_sub_cancel_left, Nat.sub_self, Nat.mul_zero, Nat.pow_zero, Nat.div_one]

theorem State.mayStore_iff {s : State} {secure : Bool} {pa : Nat} : s.mayStore secure pa 32 = true ↔
    pa + 32 ≤ s.hbmEnd ∧ s.secureMem pa = secure ∧ s.secureMem (pa + 31) = secure ∧ s.assayBytes pa 32 = false := by
  simp [State.mayStore, and_assoc]

theorem State.mayStore_eq_false {s : State} {secure : Bool} {pa : Nat} (h : s.hbmEnd < pa + 32 ∨ s.secureMem pa ≠ secure ∨
    s.secureMem (pa + 31) ≠ secure ∨ s.assayBytes pa 32 = true) : s.mayStore secure pa 32 = false := by
  rw [← Bool.not_eq_true, State.mayStore_iff]
  rintro ⟨hend, hlo, hhi, ha⟩
  obtain h | h | h | h := h
  · omega
  · exact h hlo
  · exact h hhi
  · exact absurd (ha.symm.trans h) (by decide)

theorem State.pokeRecord_hbm {s : State} {secure : Bool} {pa v : Nat} (hp : pa < 2 ^ 51) (h : pa % 32 = 0) :
    s.pokeRecord secure pa v =
      if s.mayStore secure pa 32 then { s.snatch (pa / 128) with hbm := s.hbm.writeN pa 32 v } else s := by
  rw [State.pokeRecord, if_neg (by omega), State.pokeHome_record h]

/-! ## `TRACE` (R342 to R344) -/

/-- The ring that a `TRACE` of the active context writes to. -/
def State.myRing (s : State) : TraceRing := s.traceRing (s.launchAt s.active).secure (dieOfCore s.active.core)

/-- The state once the active context's `TRACE` has posted its record. -/
def State.traced (s : State) (a b : XReg) (tag : BitVec 16) : State :=
  let l := s.launchAt s.active
  s.trace l.secure (dieOfCore s.active.core) 0 s.active (BitVec.ofNat 8 l.sstep) tag (s.x a) l.launchid
    ((s.x b).setWidth 32)

/-- The record that it posts, as one number (R343, R344). -/
def State.traceBits (s : State) (a b : XReg) (tag : BitVec 16) : Nat :=
  let l := s.launchAt s.active
  packElems 64 [s.time.toNat, (s.myRing.word1 0 s.active (BitVec.ofNat 8 l.sstep) tag).toNat, (s.x a).toNat,
    (l.launchid ++ (s.x b).setWidth 32).toNat]

section TraceInstr
variable {s : State} {p : Pred} {a b : XReg} {tag : BitVec 16}

theorem State.traced_noRing (h : s.myRing.log2 = 0) : s.traced a b tag = s := State.trace_noRing h

theorem State.traced_ring (h : s.myRing.log2 ≠ 0) : s.traced a b tag =
    (s.pokeRecord (s.launchAt s.active).secure s.myRing.slot (s.traceBits a b tag)).setWorld (s.launchAt s.active).secure
      { s.world (s.launchAt s.active).secure with
        traces := SMap.put (s.world (s.launchAt s.active).secure).traces (dieOfCore s.active.core) s.myRing.push } :=
  State.trace_ring h

theorem State.traced_apart : (s.traced a b tag).apart = s.apart := by
  by_cases h : s.myRing.log2 = 0
  · rw [State.traced_noRing h]
  · rw [State.traced_ring h]
    exact (State.setWorld_apart ..).trans (State.pokeRecord_apart ..)

theorem State.traced_contexts : (s.traced a b tag).contexts = s.contexts := congrArg Prod.fst State.traced_apart

theorem exec_trace_unreplied (hr : s.me.reply.isSome = true) : exec (.trace p a b tag) s = .next (s.waits .access) :=
  perform_wait (s' := s) (by simp [hr]) (State.floor_ok rfl rfl)

theorem exec_trace_false (hr : s.me.reply = none) (hp : s.holds p = false) :
    exec (.trace p a b tag) s = .next (s.retire .seq) := perform_under_false (replied_ok hr) hp

theorem exec_trace_true (hr : s.me.reply = none) (hp : s.holds p = true) :
    exec (.trace p a b tag) s = .next ((s.traced a b tag).retire .seq) := by
  refine perform_ok ?_ (State.floorAllows_of_times (congrArg Prod.snd State.traced_apart)).holds
  rw [Eff.run_bind_ok (replied_ok hr), under_run, if_pos hp]
  rfl

/-- Where the part may not store the record, the bytes stay (log 46). -/
theorem State.traced_unwritten (h0 : s.myRing.log2 ≠ 0) (hp : s.myRing.slot < 2 ^ 51) (ha : s.myRing.slot % 32 = 0)
    (hm : s.mayStore (s.launchAt s.active).secure s.myRing.slot 32 = false) : s.SameBytes (s.traced a b tag) := by
  apply State.sameBytes_of_holdings
  rw [State.traced_ring h0, State.setWorld_holdings, State.pokeRecord_hbm hp ha, if_neg (by simp [hm])]

theorem State.traced_head (h0 : s.myRing.log2 ≠ 0) :
    (s.traced a b tag).traceRing (s.launchAt s.active).secure (dieOfCore s.active.core) = s.myRing.push := by
  rw [State.traced_ring h0, State.traceRing, State.world_setWorld_self]
  exact SMap.at_put_self ..

/-- The record of a `TRACE` in HBM: its fields where R343 puts them, and every other byte as it was. -/
theorem State.traced_written (h0 : s.myRing.log2 ≠ 0) (hp : s.myRing.slot < 2 ^ 51) (ha : s.myRing.slot % 32 = 0)
    (hm : s.mayStore (s.launchAt s.active).secure s.myRing.slot 32 = true) (hw : s.hbm.wf = true) :
    let at_ := s.myRing.slot
    let m := (s.traced a b tag).hbm
    m.readN at_ 8 = s.time.toNat ∧ m.readN (at_ + 16) 8 = (s.x a).toNat ∧
      m.readN (at_ + 24) 4 = (s.x b).toNat % 2 ^ 32 ∧ m.readN (at_ + 28) 4 = (s.launchAt s.active).launchid.toNat ∧
      m.readN (at_ + 8) 2 = tag.toNat ∧ ∀ x, x < at_ ∨ at_ + 32 ≤ x → m.read x = s.hbm.read x := by
  obtain ⟨v, hv, time, w1, data0, w3⟩ := packElems_four s.time (s.myRing.word1 0 s.active
    (BitVec.ofNat 8 (s.launchAt s.active).sstep) tag) (s.x a) ((s.launchAt s.active).launchid ++ (s.x b).setWidth 32)
  have hbm : (s.traced a b tag).hbm = s.hbm.writeN s.myRing.slot 32 v := by
    rw [State.traced_ring h0, State.setWorld_hbm, State.pokeRecord_hbm hp ha, if_pos hm, ← hv]
    rfl
  have part {k j : Nat} (h : k + j ≤ 32) :
      (s.traced a b tag).hbm.readN (s.myRing.slot + k) j = v / 256 ^ k % 256 ^ j := by
    rw [hbm, Memory.readN_writeN_part hw _ h]
  have tag_eq := s.myRing.toNat_word1 0 s.active (BitVec.ofNat 8 (s.launchAt s.active).sstep) tag
  have launchid := (s.launchAt s.active).launchid.isLt
  rw [toNat_append_eq, BitVec.toNat_setWidth] at w3
  dsimp only
  refine ⟨(part (k := 0) (by decide)).trans ?_, (part (by decide)).trans ?_, (part (by decide)).trans ?_,
    (part (by decide)).trans ?_, (part (by decide)).trans ?_, fun x hx => ?_⟩
  · omega
  · omega
  · omega
  · omega
  · omega
  · rw [hbm, Memory.read_writeN_out _ _ hx]

end TraceInstr

/-! ## `TRAP`, `ILL` and `ERET` (R114, R129, R371) -/

/-- A program counter is well formed when bits 5 to 3 are clear and it names one of five slots (R111, R114). -/
theorem pcOk_iff (pc : Word) : pcOk pc = true ↔ pc.extractLsb' 3 3 = 0 ∧ pc.toNat % 8 ≤ 4 := by
  have : pc.extractLsb' 3 3 = 0 ↔ pc.toNat / 8 % 8 = 0 := by
    rw [BitVec.toNat_eq, BitVec.extractLsb'_toNat, Nat.shiftRight_eq_div_pow]
    rfl
  rw [this, pcOk, Bool.and_eq_true, decide_eq_true_iff, decide_eq_true_iff]

theorem stay_run (f : State → State) (s : State) :
    (stay f).run s = .ok .stay ((f s).mapMe fun k => { k with last := .done }) := rfl

/-- The context as an `ERET` leaves it (R371). -/
def Context.returned (k : Context) : Context :=
  { { k.endRun with trap := { k.endRun.trap with intrap := false } }.resumeAtEpc k.endRun.pc with last := .done }

section Eret
variable {p : Pred} {s : State} (hr : s.Ready) (hp : s.holds p = true)
include hr hp

theorem exec_trap (code : BitVec 16) : exec (.trap p code) s =
    .next (s.raise s.active { cause := .trap, faddr := code.setWidth 64, tcode := code }) :=
  (guarded_holds hr hp).trans (perform_trap (s' := s) rfl)

theorem exec_eret_outside (hi : s.me.trap.intrap = false) :
    exec (.eret p) s = .next (s.raise s.active { cause := .illop }) := by
  refine (guarded_holds hr hp).trans (perform_trap (s' := s) ?_)
  simp [hi]

theorem exec_eret_malformed (hi : s.me.trap.intrap = true) (he : pcOk s.me.trap.epc = false) :
    exec (.eret p) s = .next (s.raise s.active { cause := .badtgt, faddr := s.me.trap.epc }) := by
  refine (guarded_holds hr hp).trans (perform_trap (s' := s) ?_)
  simp [hi, he]

theorem exec_eret (hi : s.me.trap.intrap = true) (he : pcOk s.me.trap.epc = true) :
    exec (.eret p) s = .next (s.mapMe Context.returned) := by
  refine (guarded_holds hr hp).trans ((perform_ok (n := .stay) (t := s.mapMe Context.returned) ?_ (State.floor_ok rfl rfl)))
  simp only [Eff.run_bind, Eff.run_get, hi, he, stay_run, State.mapMe_mapMe, Bool.not_true, Bool.false_eq_true, if_false]
  rfl

end Eret

/-! ## `HALT` (R383, R384) -/

/-- The state once the core and the launch have counted a routine that the active context retires (R383, R384). -/
def State.countHalt (s : State) (retain : Bool) : State :=
  (s.mapCore s.active.core.toNat fun k => { k with retained := k.retained || retain, halts := k.halts + 1 }).mapLaunch
    (s.queueOf (clusterOfCore s.active.core)) fun l => { l with halts := l.halts + 1 }

/-- The state once it has retired it: its context is free, and episodes may be complete without it (R313, R383). -/
def State.afterHalt (s : State) (retain : Bool) : State :=
  ((s.countHalt retain).freeCtx s.active).recheckEpisodes (s.queueOf (clusterOfCore s.active.core))

section Halt
variable {p : Pred} {s : State} {retain : Bool}

theorem halt_borrowed (hb : s.me.borrowed.isSome = true) :
    perform (halt retain) s = .next (s.raise s.active { cause := .illop }) :=
  perform_trap (s' := s) (by simp [halt, hb])

theorem halt_ends (hb : s.me.borrowed = none) (hf : s.FloorAllows (s.afterHalt retain)) :
    perform (halt retain) s = .next ((s.afterHalt retain).mapMe fun k => { k with last := .done }) := by
  have run : (halt retain).run s = .ok .stay ((s.afterHalt retain).mapMe fun k => { k with last := .done }) := by
    rw [halt, Eff.run_bind_ok (Eff.run_get s), if_neg (by simp [hb]), stay_run]
    rfl
  exact perform_ok run hf.holds

theorem exec_halt (hr : s.Ready) (hp : s.holds p = true) :
    exec (if retain then .haltRetain p else .halt p) s = perform (halt retain) s := by
  cases retain
  · exact guarded_holds hr hp
  · exact guarded_holds hr hp

theorem State.run_countHalt_freeCtx : ((s.countHalt retain).freeCtx s.active).me.run = .free := by
  have active : ((s.countHalt retain).freeCtx s.active).active = s.active := State.freeCtx_active _ _
  rw [State.me, active]
  exact State.run_freeCtx _ _

end Halt

/-! ## The obligation -/

/-- Settles O46: `TRACE` by its ring and where its record may be stored, the others by the check that they fail or pass. -/
theorem trapsReturnsAndHalts : Obligations.TrapsReturnsAndHalts := by
  unfold Obligations.TrapsReturnsAndHalts
  intro p code a b tag s
  refine ⟨perform_trap (s' := s) rfl, exec_trace_false, exec_trace_unreplied, fun hr hp => ?trace, fun hr hp => ?never,
    fun hr hp => ?performed⟩
  case trace =>
    intro launch die r at_
    have run := exec_trace_true (a := a) (b := b) (tag := tag) hr hp
    have slot (hl : r.log2.toNat ≤ 20) : at_ = s.myRing.slot := (TraceRing.slot_eq hl).symm
    have slot_aligned (hl : r.log2.toNat ≤ 20) (hb : r.base.toNat % 32 = 0) : s.myRing.slot % 32 = 0 := by
      rw [← slot hl]
      omega
    refine ⟨fun h => ?_, fun h hlo hb hl hm => ⟨_, run, State.traced_contexts, ?_⟩, fun h => ⟨_, run, ?_⟩,
      fun h hl hb hend hhbm hw hlo hhi ha => ⟨_, run, State.traced_contexts, ?_⟩⟩
    · rw [run, State.traced_noRing h]
    · rw [slot hl] at hlo hm
      exact State.traced_unwritten h hlo (slot_aligned hl hb) (State.mayStore_eq_false hm)
    · rw [show SMap.at _ _ die = _ from State.traced_head h]
      rfl
    · rw [slot hl] at hend hlo hhi ha ⊢
      exact State.traced_written h (by omega) (slot_aligned hl hb) (State.mayStore_iff.mpr ⟨hend, hlo, hhi, ha⟩) hw
  case never =>
    exact ⟨exec_of_guard_false rfl hr hp, exec_of_guard_false rfl hr hp, exec_of_guard_false rfl hr hp,
      exec_of_guard_false rfl hr hp⟩
  case performed =>
    refine ⟨exec_trap hr hp code, exec_eret_outside hr hp, fun hi he => exec_eret_malformed hr hp hi ?malformed,
      fun hi h3 h8 => ⟨_, exec_eret hr hp hi ((pcOk_iff _).mpr ⟨h3, h8⟩), ?eret⟩, fun hb => ?borrowed, fun hb retain => ?halt⟩
    case malformed => rwa [← Bool.not_eq_true, pcOk_iff]
    case eret =>
      rw [State.me_mapMe]
      refine ⟨rfl, rfl, rfl, rfl, rfl, rfl, rfl, rfl, rfl, rfl, rfl, rfl, fun c hc => State.ctx_mapMe_ne s _ hc,
        State.sameBytes_of_holdings rfl⟩
    case borrowed =>
      exact ⟨(exec_halt (retain := false) hr hp).trans (halt_borrowed hb),
        (exec_halt (retain := true) hr hp).trans (halt_borrowed hb)⟩
    case halt =>
      exact fun hf => ⟨(exec_halt hr hp).trans (halt_ends hb hf), State.run_countHalt_freeCtx⟩

end Sys2Proof.Machine
end

section
/-! `REPLAY`, `CSAVE` and `CREST`, and the replay register (R83, R84, R372, R378). -/

namespace Sys2Proof.Machine

/-! ## The target (R372) -/

theorem targetCtx_eq (w : Word) : targetCtx w = { core := w.setWidth 13, ctx := w.extractLsb' 13 2 } := by
  have : BitVec.ofNat 2 (field w 14 13) = w.extractLsb' 13 2 := by
    apply BitVec.eq_of_toNat_eq
    rw [BitVec.toNat_ofNat, BitVec.extractLsb'_toNat, Nat.shiftRight_eq_div_pow, field]
    omega
  rw [targetCtx, this]

/-- A context that the active one may act on: of an enabled cluster of its own world (R372). -/
def State.Governs (s : State) (c : CtxId) : Prop :=
  s.enabled (clusterOfCore c.core) = true ∧ (s.cluster (clusterOfCore c.core)).secure = (s.launchAt s.active).secure

theorem State.setX_holdings (s : State) (d : XReg) (w : Word) : (s.setX d w).holdings = s.holdings := by
  unfold State.setX
  split <;> rfl

section Target
variable {s : State} {a : XReg}

theorem supervisorTarget_barred (h : s.supervisor s.active = false) :
    (supervisorTarget a).run s = .error (.trap { cause := .illop }) s := by
  simp [supervisorTarget, h]

theorem supervisorTarget_foreign (h : s.supervisor s.active = true) (hg : ¬ s.Governs (targetCtx (s.x a))) :
    (supervisorTarget a).run s = .error (.trap { cause := .world, faddr := s.x a }) s := by
  have foreign : (!s.enabled (clusterOfCore (targetCtx (s.x a)).core) ||
      (s.cluster (clusterOfCore (targetCtx (s.x a)).core)).secure != (s.launchAt s.active).secure) = true := by
    rw [← Bool.not_eq_false, Bool.or_eq_false_iff, Bool.not_eq_false', bne_eq_false_iff_eq]
    exact hg
  rw [supervisorTarget, Eff.run_bind_ok (Eff.run_get s)]
  dsimp only
  rw [if_neg (by simp [h]), if_pos foreign]
  rfl

theorem supervisorTarget_waits (h : s.supervisor s.active = true) (hg : s.Governs (targetCtx (s.x a)))
    (hd : s.me.dout ≠ 0) : (supervisorTarget a).run s = .error (.wait .join) s := by
  simp [supervisorTarget, h, hg.1, hg.2, hd]

theorem supervisorTarget_ok (h : s.supervisor s.active = true) (hg : s.Governs (targetCtx (s.x a)))
    (hd : s.me.dout = 0) : (supervisorTarget a).run s = .ok (targetCtx (s.x a)) s := by
  simp [supervisorTarget, h, hg.1, hg.2, hd]

end Target

/-- A line that the host does not own is read at once. -/
theorem readOwned_at_once {line : Nat} {s : State} (h : (s.hostCoherent line && s.hostOwned.contains line) = false) :
    (readOwned line).run s = .ok ⟨⟩ s := by
  rw [readOwned, Eff.run_bind_ok (Eff.run_get s), if_neg (ne_true_of_eq_false h)]
  rfl

/-- Lines that are read at once have changed nothing. -/
theorem readOwned_ok {line : Nat} {s u : State} {x : Unit} (h : (readOwned line).run s = .ok x u) : u = s := by
  cases ho : s.hostCoherent line && s.hostOwned.contains line with
  | true =>
    rw [Bool.and_eq_true] at ho
    rw [readOwned_run ho.1 ho.2] at h
    cases h
  | false =>
    rw [readOwned_at_once ho] at h
    cases h
    rfl

theorem readOwnedAll_ok {lines : List Nat} {s u : State} {x : Unit} (h : (readOwnedAll lines).run s = .ok x u) : u = s := by
  induction lines generalizing s with
  | nil =>
    cases h
    rfl
  | cons l r ih =>
    rw [readOwnedAll] at h
    cases hl : (readOwned l).run s with
    | ok y t =>
      rw [Eff.run_bind_ok hl] at h
      exact (ih h).trans (readOwned_ok hl)
    | error e t =>
      rw [Eff.run_bind_error hl] at h
      cases h

theorem State.savedLines_live {s : State} {c : CtxId} (h : (s.ctx c).run = .faulted ∨ s.savedTarget c = none) (off n : Nat) :
    s.savedLines c off n = [] := by
  unfold State.savedLines
  obtain h | h := h
  · rw [if_pos h]
  · rw [h, ite_self]

/-! ## `REPLAY` and the replay register (R83, R84, R372) -/

/-- The context as a replay leaves it, which joins a time where there is one (R84, R372). -/
def Context.replayed (k : Context) (pts : Option Ts) : Context :=
  { k with pts := pts.elim k.pts (tsMax k.pts) }.resumeAtEpc 0

theorem State.replay_ok {s : State} {c : CtxId} (h : pcOk (s.ctx c).trap.epc = true) (pts : Option Ts) :
    s.replay c pts = s.mapCtx c fun k => k.replayed pts := by
  cases pts <;>
  · unfold State.replay
    dsimp only
    rw [if_pos (by rw [State.ctx_mapCtx_self]; exact h)]
    rfl

theorem State.hold_times (s : State) (q : BitVec 6) (key : Nat) (pts : Option Ts) : (s.hold q key pts).times = s.times := by
  have saved : (s.mapSaved q key fun k => { k with trap := { k.trap with resumed := true } }).times = s.times :=
    s.mapLaunch_times q _
  unfold State.hold
  cases pts with
  | none => exact saved
  | some t => exact (congrArg Prod.snd (State.pokeHome_apart _ _ _ _ _)).trans saved

section Replay
variable {s : State} {c : CtxId} {pts : Option Ts}

theorem State.replayTarget_faulted (h : (s.ctx c).run = .faulted) : s.replayTarget c pts = (s.replay c pts, true) := if_pos h

theorem State.replayTarget_saved {q : BitVec 6} {key : Nat} (h : (s.ctx c).run ≠ .faulted)
    (hs : s.savedTarget c = some (q, key)) : s.replayTarget c pts = (s.hold q key pts, true) := by
  rw [State.replayTarget, if_neg h, hs]

theorem State.replayTarget_none (h : (s.ctx c).run ≠ .faulted) (hs : s.savedTarget c = none) :
    s.replayTarget c pts = (s, false) := by rw [State.replayTarget, if_neg h, hs]

end Replay

section Register
variable {s : State} {secure : Bool} {w : Word} {c : CtxId}

theorem replayRegisterWrite_ignored (h : s.enabled (clusterOfCore (targetCtx w).core) = false ∨
    (s.cluster (clusterOfCore (targetCtx w).core)).secure ≠ secure) :
    exec (.replayRegisterWrite secure w) s = .next s := by
  rw [exec_replayRegisterWrite]
  refine happen_modify_still ?_
  unfold State.replayWrite
  dsimp only
  obtain h | h := h
  · rw [if_pos (by simp [h])]
  · rw [if_pos (by simp [h])]

theorem replayRegisterWrite_resumes (hr : s.ready = true) (h : targetCtx w = c ∧
    s.enabled (clusterOfCore c.core) = true ∧ (s.cluster (clusterOfCore c.core)).secure = secure)
    (hc : (s.ctx c).run = .faulted) (hpc : pcOk (s.ctx c).trap.epc = true) :
    exec (.replayRegisterWrite secure w) s = .next (s.mapCtx c fun k => k.replayed none) := by
  obtain ⟨target, he, hs⟩ := h
  rw [exec_replayRegisterWrite]
  refine happen_modify_timeless ?_ rfl
  unfold State.replayWrite
  dsimp only
  rw [target, if_neg (by simp [hr, he, hs]), State.replayTarget_faulted hc, State.replay_ok hpc]

end Register

/-! ## The record of a target (R372, R378) -/

theorem State.restoreTarget_times (s : State) (c : CtxId) (r : Nat) : (s.restoreTarget c r).times = s.times := by
  unfold State.restoreTarget
  split
  · rfl
  · split
    · exact (State.mapLaunch_times ..).trans (congrArg Prod.snd (State.pokeHome_apart ..))
    · rfl

theorem recordAddr_ok {s : State} {b : XReg} {acc : BitVec 4} (h : (s.x b).toNat % 128 = 0) :
    (recordAddr b acc).run s = .ok (s.x b) s := by
  rw [recordAddr, Eff.run_bind_ok (Eff.run_get s)]
  dsimp only
  rw [if_neg (not_not.mpr h)]
  rfl

theorem recordAddr_misaligned {s : State} {b : XReg} {acc : BitVec 4} (h : (s.x b).toNat % 128 ≠ 0) :
    (recordAddr b acc).run s = .error (.trap { cause := .align, faddr := s.x b, acc := acc }) s := by
  rw [recordAddr, Eff.run_bind_ok (Eff.run_get s)]
  dsimp only
  rw [if_pos h]
  rfl

theorem myThread_run (s : State) : myThread.run s = .ok (s.threadOf s.active) s := rfl

/-! ## The instructions of a supervisor -/

section Instructions
variable {p : Pred} {d a b : XReg} {s : State} (hr : s.Ready) (hp : s.holds p = true)
include hr hp

/-- The three instructions look at their target first. -/
theorem exec_supervisor {i : Instr} (hi : i = .replay p d a ∨ i = .csave p d a b ∨ i = .crest p d a b) :
    ∃ f, exec i s = perform (supervisorTarget a >>= f) s := by
  obtain rfl | rfl | rfl := hi
  all_goals exact ⟨_, guarded_holds hr hp⟩

/-- A `REPLAY` of a target whose save record, where it has one, can be read now. -/
theorem exec_replay {c : CtxId} (ht : (supervisorTarget a).run s = .ok c s)
    (ho : (readOwnedAll (s.savedLines c 0x1330 8)).run s = .ok ⟨⟩ s) {t : State} {acted : Bool}
    (he : s.replayTarget c (some s.me.pts) = (t, acted)) (hf : s.FloorAllows t) :
    exec (.replay p d a) s = .next ((t.setX d (if acted then 0 else 1)).retire .seq) := by
  refine (guarded_holds hr hp).trans (perform_ok ?_ (hf.of_times (State.setX_times ..)).holds)
  rw [Eff.run_bind_ok ht, Eff.run_bind_ok (Eff.run_get s), Eff.run_bind_ok ho, doing_run]
  simp only [he]

/-- A `REPLAY` of a context that is FAULTED on its core, at a well-formed EPC. -/
theorem exec_replay_live {c : CtxId} (ht : (supervisorTarget a).run s = .ok c s) (hc : (s.ctx c).run = .faulted)
    (hpc : pcOk (s.ctx c).trap.epc = true) : exec (.replay p d a) s =
      .next (((s.mapCtx c fun k => k.replayed (some s.me.pts)).setX d 0).retire .seq) := by
  have none_asked : (readOwnedAll (s.savedLines c 0x1330 8)).run s = .ok ⟨⟩ s := by
    rw [State.savedLines_live (.inl hc)]
    rfl
  have resumes : s.replayTarget c (some s.me.pts) = (s.mapCtx c fun k => k.replayed (some s.me.pts), true) := by
    rw [State.replayTarget_faulted hc, State.replay_ok hpc]
  exact exec_replay hr hp ht none_asked resumes (State.floorAllows_of_times rfl)

/-- A `CSAVE` of a context that is FAULTED on its core stores its record where every line of it may be written now. -/
theorem exec_csave_live {c : CtxId} (ht : (supervisorTarget a).run s = .ok c s) (ha : (s.x b).toNat % 128 = 0)
    (hc : (s.ctx c).run = .faulted) {u v : State} {pts : Ts}
    (ready : (readyRange (fun va => locate false (s.threadOf s.active) .write 2 va va) (s.threadOf s.active) 2 true s.me.pts
      (partsOf (s.x b) 0x2000)).run s = .ok ⟨⟩ u)
    (written : (writeRange (fun va => locate false (s.threadOf s.active) .write 2 va va) (s.threadOf s.active) 2
      (partsOf (s.x b) 0x2000) (packFields (s.recordFields c)) u.me.pts).run u = .ok pts v) (hf : s.FloorAllows v) :
    exec (.csave p d a b) s = .next (((v.returned true true pts).setX d 0).retire .seq) := by
  have record : s.targetRecord c = some (packFields (s.recordFields c)) := if_pos hc
  have times : ((v.returned true true pts).setX d 0).times = v.times := State.setX_times _ _ _
  refine (guarded_holds hr hp).trans (perform_ok ?_ (hf.of_times times).holds)
  rw [Eff.run_bind_ok ht, Eff.run_bind_ok (recordAddr_ok ha), Eff.run_bind_ok (Eff.run_get s),
    State.savedLines_live (.inl hc), readOwnedAll, Eff.run_bind_ok (Eff.run_pure _ s), Eff.run_bind_ok (Eff.run_get s), record]
  dsimp only
  rw [Eff.run_bind_ok (myThread_run s), Eff.run_bind_ok ready, Eff.run_bind_ok (Eff.run_get u), Eff.run_bind_ok written,
    doing_run]

/-- A `CREST` loads the record of a context that is FAULTED on its core. -/
theorem exec_crest_live {c : CtxId} (ht : (supervisorTarget a).run s = .ok c s) (ha : (s.x b).toNat % 128 = 0)
    (hc : (s.ctx c).run = .faulted) {v : State} {r : Nat} {pts : Ts}
    (read : (readRange (fun va => locate false (s.threadOf s.active) .read 1 va va) (s.threadOf s.active) 1
      (partsOf (s.x b) 0x2000) s.me.pts).run s = .ok (r, pts) v) (hf : s.FloorAllows v) :
    exec (.crest p d a b) s = .next ((((v.restoreTarget c r).returned false true pts).setX d 0).retire .seq) := by
  have record : s.targetRecord c = some (packFields (s.recordFields c)) := if_pos hc
  have times : (((v.restoreTarget c r).returned false true pts).setX d 0).times = v.times :=
    (State.setX_times _ _ _).trans (State.restoreTarget_times v c r)
  refine (guarded_holds hr hp).trans (perform_ok ?_ (hf.of_times times).holds)
  rw [Eff.run_bind_ok ht, Eff.run_bind_ok (recordAddr_ok ha), Eff.run_bind_ok (Eff.run_get s),
    State.savedLines_live (.inl hc), readOwnedAll, Eff.run_bind_ok (Eff.run_pure _ s), Eff.run_bind_ok (Eff.run_get s), record]
  dsimp only
  rw [if_neg (by simp), Eff.run_bind_ok (myThread_run s), Eff.run_bind_ok (Eff.run_get s), Eff.run_bind_ok read, doing_run]

/-- Of a target that is not FAULTED both say so alone. -/
theorem exec_record_absent {c : CtxId} (ht : (supervisorTarget a).run s = .ok c s) (ha : (s.x b).toNat % 128 = 0)
    (hc : (s.ctx c).run ≠ .faulted) (hs : s.savedTarget c = none) :
    exec (.csave p d a b) s = .next ((s.setX d 1).retire .seq) ∧
      exec (.crest p d a b) s = .next ((s.setX d 1).retire .seq) := by
  have record : s.targetRecord c = none := by rw [State.targetRecord, if_neg hc, hs, Option.map_none]
  constructor
  all_goals
    refine (guarded_holds hr hp).trans (perform_ok ?_ (State.floorAllows_of_times (s.setX_times d 1)).holds)
    rw [Eff.run_bind_ok ht, Eff.run_bind_ok (recordAddr_ok ha), Eff.run_bind_ok (Eff.run_get s),
      State.savedLines_live (.inr hs), readOwnedAll, Eff.run_bind_ok (Eff.run_pure _ s), Eff.run_bind_ok (Eff.run_get s),
      record]
    rfl

/-- Both check the alignment of the record once the target is found. -/
theorem exec_record_misaligned {c : CtxId} (ht : (supervisorTarget a).run s = .ok c s) (ha : (s.x b).toNat % 128 ≠ 0) :
    exec (.csave p d a b) s = .next (s.raise s.active { cause := .align, faddr := s.x b, acc := 2 }) ∧
      exec (.crest p d a b) s = .next (s.raise s.active { cause := .align, faddr := s.x b, acc := 1 }) := by
  constructor
  all_goals
    refine (guarded_holds hr hp).trans (perform_trap (s' := s) ?_)
    rw [Eff.run_bind_ok ht, Eff.run_bind_error (recordAddr_misaligned ha)]

end Instructions

/-! ## The obligation -/

/-- Settles O47: the check of the target that the three instructions share, then each of them by its equation. -/
theorem supervisorInstructions : Obligations.SupervisorInstructions := by
  unfold Obligations.SupervisorInstructions
  refine ⟨fun p d a b s hr hp => ?instructions, fun secure w s => ?register⟩
  case instructions =>
    intro w c own these
    have target : targetCtx (s.x a) = c := targetCtx_eq _
    have governs : own ↔ s.Governs (targetCtx (s.x a)) := by rw [target]; rfl
    refine ⟨fun hs i hi => ?barred, fun hs => ⟨fun ho i hi => ?foreign, fun ho hd i hi => ?waits,
      fun ho hd hc q key u hq hu hf => ?held, fun ho hd => ?acts⟩⟩
    case barred =>
      obtain ⟨f, e⟩ := exec_supervisor hr hp hi
      exact e.trans (perform_trap (Eff.run_bind_error (supervisorTarget_barred hs)))
    case foreign =>
      obtain ⟨f, e⟩ := exec_supervisor hr hp hi
      exact e.trans (perform_trap (Eff.run_bind_error (supervisorTarget_foreign hs fun h => ho (governs.mpr h))))
    case waits =>
      obtain ⟨f, e⟩ := exec_supervisor hr hp hi
      exact e.trans (perform_wait (Eff.run_bind_error (supervisorTarget_waits hs (governs.mp ho) hd))
        (State.floor_ok rfl rfl))
    case held =>
      have ht := supervisorTarget_ok hs (governs.mp ho) hd
      rw [target] at ht
      obtain rfl := readOwnedAll_ok hu
      exact exec_replay hr hp ht hu (State.replayTarget_saved hc hq) hf
    case acts =>
      have ht := supervisorTarget_ok hs (governs.mp ho) hd
      rw [target] at ht
      refine ⟨exec_record_misaligned hr hp ht, fun hc hq => ⟨?_, fun ha => exec_record_absent hr hp ht ha hc hq⟩,
        fun hc hne => ⟨fun hpc => ?_, fun ha => ⟨fun u pts v => exec_csave_live hr hp ht ha hc,
          fun r pts v => exec_crest_live hr hp ht ha hc⟩⟩⟩
      · have none_asked : (readOwnedAll (s.savedLines c 0x1330 8)).run s = .ok ⟨⟩ s := by
          rw [State.savedLines_live (.inr hq)]
          rfl
        exact exec_replay hr hp ht none_asked (State.replayTarget_none hc hq) (State.floorAllows_of_times rfl)
      · have me : (s.mapCtx c fun k => k.replayed (some s.me.pts)).me = s.me := State.ctx_mapCtx_ne s _ hne.symm
        refine ⟨_, exec_replay_live hr hp ht hc hpc, ?_⟩
        rw [State.me_setX, State.me_setX, me,
          State.ctx_setX_ne (s.mapCtx c fun k => k.replayed (some s.me.pts)) d 0 hne, State.ctx_mapCtx_self]
        exact ⟨rfl, rfl, rfl, rfl, rfl, State.sameBytes_of_holdings (State.setX_holdings ..)⟩
  case register =>
    intro c p
    have target : targetCtx w = c := targetCtx_eq w
    refine ⟨fun hready he hw hc hpc => ⟨_, replayRegisterWrite_resumes hready ?_ hc hpc, ?_⟩, fun h => ?_⟩
    · exact ⟨target, he, hw⟩
    · rw [State.ctx_mapCtx_self]
      exact ⟨rfl, rfl, rfl, rfl, fun c' hne => State.ctx_mapCtx_ne s _ hne⟩
    · exact replayRegisterWrite_ignored (by rw [target]; exact h)

end Sys2Proof.Machine
end

section
/-! What ends a context's wait: replies, walks, second copies, forwarded groups, fault records and their notifications (R74, R83,
R110, R130, R131, R274, R277, R278, R311, R408). -/

namespace Sys2Proof.Machine

/-! ## Timestamps on their way back (R274, R277) -/

section Replies
variable {s : State} {c : CtxId} {store : Bool} {t : Ts}

theorem exec_storeReply (c : CtxId) (s : State) : exec (.storeReply c) s = happen (modify fun s => s.replyTo c true) s := rfl
theorem exec_renewalReply (c : CtxId) (s : State) :
    exec (.renewalReply c) s = happen (modify fun s => s.replyTo c false) s := rfl

/-- The two replies are one step but for the kind of access. -/
theorem exec_reply (store : Bool) (c : CtxId) (s : State) :
    exec (if store then .storeReply c else .renewalReply c) s = happen (modify fun s => s.replyTo c store) s := by
  cases store <;> rfl

theorem State.replyTo_self (h : (s.ctx c).reply = some (store, t)) :
    s.replyTo c store = (s.mapCtx c fun k => { k with pts := tsMax k.pts t, reply := none }).assign t := by
  rw [State.replyTo, h]
  exact if_pos rfl

theorem State.replyTo_other (h : (s.ctx c).reply = some (store, t)) : s.replyTo c (!store) = s := by
  rw [State.replyTo, h]
  exact if_neg (by cases store <;> decide)

theorem State.replyTo_none (h : (s.ctx c).reply = none) : s.replyTo c store = s := by rw [State.replyTo, h]

end Replies

/-! ## Walks (R74, R76, R336) -/

section Walks
variable {s : State} {i : Nat} {w : Walk}

theorem meetError_none {secure : Bool} {acc source : BitVec 4} {key addr : Nat} (h : s.softErrors = []) :
    (meetError secure acc source key addr).run s = .ok ⟨⟩ s := by
  rw [meetError, Eff.run_bind_ok (Eff.run_get s), h]
  rfl

theorem readSources_asks {t : Thread} {acc : BitVec 4} {line : Nat} {rest : List Nat} (hc : s.hostCoherent line = true)
    (ho : s.hostOwned.contains line = true) :
    (readSources t acc (line :: rest)).run s = .error (.wait .access) (s.asksBack line) := by
  rw [readSources, Eff.run_bind_error (readOwned_run hc ho)]

theorem readSources_ok {t : Thread} {acc : BitVec 4} {lines : List Nat} (ho : ∀ l ∈ lines, s.hostOwned.contains l = false)
    (he : s.softErrors = []) : (readSources t acc lines).run s = .ok ⟨⟩ s := by
  induction lines with
  | nil => rfl
  | cons l r ih =>
    have free : (s.hostCoherent l && s.hostOwned.contains l) = false := by rw [ho l (.head r), Bool.and_false]
    rw [readSources, Eff.run_bind_ok (readOwned_at_once free), Eff.run_bind_ok (Eff.run_get s),
      Eff.run_bind_ok (meetError_none he)]
    exact ih fun x hx => ho x (.tail l hx)

theorem exec_walkCompletion (i : Nat) (s : State) : exec (.walkCompletion i) s = happen (walkDone i) s := rfl

/-- A walk that finds its first bucket in the host's hands asks for it back and goes on later (R336). -/
theorem walkCompletion_asks (hw : s.walks[i]? = some w) {line : Nat} {rest : List Nat}
    (hl : s.walkLines w.secure w.asid w.va = line :: rest) (hc : s.hostCoherent line = true)
    (ho : s.hostOwned.contains line = true) : exec (.walkCompletion i) s = .next (s.asksBack line) := by
  rw [exec_walkCompletion]
  refine happen_wait (w := .access) ?_ (s.asksBack_high line) (s.asksBack_floor line)
  rw [walkDone, Eff.run_bind_ok (Eff.run_get s), hw]
  dsimp only
  rw [hl, readSources_asks hc ho]
  rfl

/-- A walk that reads its buckets ends with what they hold. -/
theorem walkDone_run (hw : s.walks[i]? = some w)
    (ho : ∀ l ∈ s.walkLines w.secure w.asid w.va, s.hostOwned.contains l = false) (he : s.softErrors = []) :
    (walkDone i).run s = .ok ⟨⟩ (s.walked i w ((s.walk w.secure w.asid w.va).mapError fun d =>
      { cause := .page, faddr := w.faddr, acc := w.acc, detail := d })) := by
  rw [walkDone, Eff.run_bind_ok (Eff.run_get s), hw]
  dsimp only
  rw [readSources_ok ho he]
  rfl

theorem mem_tlbInsert (e : Tlb) {n : Nat} (hn : 0 < n) (l : List Tlb) : e ∈ tlbInsert e n l := by
  unfold tlbInsert
  split
  · assumption
  · obtain ⟨n, rfl⟩ := Nat.exists_eq_succ_of_ne_zero hn.ne'
    exact List.mem_cons_self

theorem State.fillTlb_times (s : State) (w : Walk) (e : Tlb) : (s.fillTlb w e).times = s.times := rfl

theorem State.fillTlb_cluster (s : State) (w : Walk) (e : Tlb) : e ∈ ((s.fillTlb w e).cluster w.cluster).tlb := by
  have filled : (s.fillTlb w e).cluster w.cluster = (s.mapCluster w.cluster fun k =>
      { k with tlb := tlbInsert e 2048 k.tlb }).cluster w.cluster := rfl
  rw [filled, State.cluster_mapCluster_self]
  exact mem_tlbInsert e (by decide) _

theorem State.fillTlb_core (s : State) (w : Walk) (e : Tlb) :
    e ∈ (if w.fetch then ((s.fillTlb w e).core w.ctx.core.toNat).itlb else ((s.fillTlb w e).core w.ctx.core.toNat).dtlb) := by
  unfold State.fillTlb
  dsimp only
  rw [State.core_mapCore_self]
  cases w.fetch
  · exact mem_tlbInsert e (by decide) _
  · exact mem_tlbInsert e (by decide) _

/-- A walk that finds a translation fills the TLBs of its core and its cluster. -/
theorem walkCompletion_fills {e : Tlb} (hw : s.walks[i]? = some w)
    (ho : ∀ l ∈ s.walkLines w.secure w.asid w.va, s.hostOwned.contains l = false) (he : s.softErrors = [])
    (h : s.walk w.secure w.asid w.va = .ok e) :
    exec (.walkCompletion i) s = .next (({ s with walks := s.walks.eraseIdx i } : State).fillTlb w e) := by
  refine happen_ok ?_ (State.floorAllows_of_times (State.fillTlb_times _ w e)).holds
  rw [walkDone_run hw ho he, h]
  rfl

/-- A walk that finds none leaves its context PAGE to raise. -/
theorem walkCompletion_faults {d : BitVec 4} (hw : s.walks[i]? = some w)
    (ho : ∀ l ∈ s.walkLines w.secure w.asid w.va, s.hostOwned.contains l = false) (he : s.softErrors = [])
    (h : s.walk w.secure w.asid w.va = .error d) (hf : (s.ctx w.ctx).run ≠ .free) (hp : (s.ctx w.ctx).run ≠ .faulted)
    (ha : (s.ctx w.ctx).wait = .access) :
    exec (.walkCompletion i) s = .next (({ s with walks := s.walks.eraseIdx i } : State).mapCtx w.ctx fun k =>
      { k with grant := .fault { cause := .page, faddr := w.faddr, acc := w.acc, detail := d } }) := by
  refine happen_ok ?_ (State.floor_ok rfl rfl)
  rw [walkDone_run hw ho he, h]
  exact congrArg _ (if_pos ⟨hf, hp, ha⟩)

end Walks

/-! ## Write-backs and copies that go (R278) -/

theorem exec_l2WritebackDone (line : BitVec 45) (s : State) : exec (.l2WritebackDone line) s =
    happen (modify fun s => { s with l2Writebacks := s.l2Writebacks.filter fun x => x ≠ line.toNat }) s := rfl

theorem exec_l1CopyDrop (cluster : BitVec 10) (line : BitVec 45) (s : State) : exec (.l1CopyDrop cluster line) s =
    happen (modify fun s => s.mapCluster cluster.toNat fun k => { k with l1 := SMap.erase k.l1 line.toNat }) s := rfl

/-! ## The second copy of a code line (R110) -/

section Refetch
variable {s : State} {c : CtxId} {line : Word}

theorem exec_lineRefetch (c : CtxId) (s : State) : exec (.lineRefetch c) s = happen (modify fun s => s.refetched c) s := rfl

theorem State.refetched_again (hw : (s.ctx c).wait = .refetch line) (h : ∃ e ∈ (s.ctx c).refetched, e.1 = line) :
    s.refetched c = s := by
  rw [State.refetched, hw]
  exact if_pos (by simpa using h)

theorem State.refetched_first {d : Line64} {pa : Nat} {u : State} (hw : (s.ctx c).wait = .refetch line)
    (hn : ∀ e ∈ (s.ctx c).refetched, e.1 ≠ line) (h : (refetchLine c line).run s = .ok (d, pa) u) :
    s.refetched c = if parityOk d = true then
      (u.logError (s.launchAt c).secure false pa).mapCtx c fun k => { k with refetched := (line, d) :: k.refetched }
      else u.mapCtx c fun k => { k with grant := .fault { cause := .linepar } } := by
  rw [State.refetched, hw]
  dsimp only
  have first : ¬ ((s.ctx c).refetched.any fun e => e.1 = line) = true := by
    rw [List.any_eq_true]
    rintro ⟨e, he, h⟩
    exact hn e he (of_decide_eq_true h)
  rw [if_neg first, h]

end Refetch

/-! ## Rolls (R130, R131) -/

section Rolls
variable {s : State} {c : CtxId} {f : Forward} {leader : CtxId} {groups : List Group} {ended : Option Word}

theorem exec_rollGroupArrival (c : CtxId) (s : State) :
    exec (.rollGroupArrival c) s = happen (modify fun s => s.groupArrives c) s := rfl

theorem State.nextForward_only (hf : s.forwards = [f]) (hc : f.follower = c) : s.nextForward c = some f := by
  rw [State.nextForward, hf]
  exact List.find?_cons_of_pos (by simp [hc])

theorem State.groupArrives_early (hn : s.nextForward c = some f) (h : s.clock < f.issued + 4) : s.groupArrives c = s := by
  rw [State.groupArrives, hn]
  exact if_pos h

theorem State.groupArrives_queued (hf : s.forwards = [f]) (hc : f.follower = c)
    (hr : (s.ctx c).roll = .following f.leader groups ended) (h : f.issued + 4 ≤ s.clock) (hg : groups.length < 16) :
    s.groupArrives c = ({ s with forwards := [] } : State).mapCtx c fun k =>
      { k with roll := .following f.leader (groups ++ [f.group]) ended } := by
  rw [State.groupArrives, State.nextForward_only hf hc]
  dsimp only
  rw [if_neg (Nat.not_lt.mpr h), hr]
  dsimp only
  rw [if_neg (not_not.mpr rfl), if_pos hg, hf, dropFirst, if_pos (by simp [hc])]

theorem State.groupArrives_full (hf : s.forwards = [f]) (hc : f.follower = c)
    (hr : (s.ctx c).roll = .following f.leader groups ended) (h : f.issued + 4 ≤ s.clock) (hg : 16 ≤ groups.length) :
    s.groupArrives c = ({ s with forwards := [] } : State).mapCtx c fun k =>
      { k with roll := .following f.leader groups (some f.group.pc) } := by
  rw [State.groupArrives, State.nextForward_only hf hc]
  dsimp only
  rw [if_neg (Nat.not_lt.mpr h), hr]
  dsimp only
  rw [if_neg (not_not.mpr rfl), if_neg (Nat.not_lt.mpr hg), hf, List.filter_cons_of_neg (by simp [hc]), List.filter_nil]

theorem exec_followJoin (c : CtxId) (s : State) : exec (.followJoin c) s = happen (modify fun s => s.followJoin c) s := rfl

/-- The state once the context has gone from its `FOLLOW` to the target with a roll (R131). -/
def State.goesOn (s : State) (c : CtxId) (target : Word) (r : Roll) : State :=
  let s := { s with active := c }
  let pc := s.me.pc
  (s.mapMe fun k => { k with roll := r, line := none }).retire (.go target (.transfer pc))

theorem State.goesOn_times (s : State) (c : CtxId) (target : Word) (r : Roll) : (s.goesOn c target r).times = s.times := rfl

theorem State.ctx_goesOn (s : State) (c : CtxId) (target : Word) (r : Roll) :
    let k := (s.goesOn c target r).ctx c
    k.roll = r ∧ k.pc = target ∧ k.run = .running ∧ k.regs = (s.ctx c).regs := by
  have me : (s.goesOn c target r).ctx c = (s.goesOn c target r).me := rfl
  dsimp only
  rw [me, State.goesOn, State.me_retire_go, State.me_mapMe]
  exact ⟨rfl, rfl, rfl, rfl⟩

variable {core : BitVec 13} {target : Word} {since : Nat} {runners : List CtxId}

theorem State.followJoin_waits (hr : (s.ctx c).roll = .waiting core target since runners none ended) (h : runners ≠ []) :
    s.followJoin c = s := by
  rw [State.followJoin, hr]
  exact if_neg h

theorem State.followJoin_alone (hr : (s.ctx c).roll = .waiting core target since [] none ended) :
    s.followJoin c = s.goesOn c target .none := by
  rw [State.followJoin, hr]
  rfl

theorem State.followJoin_follows (hr : (s.ctx c).roll = .waiting core target since runners (some leader) ended)
    (ho : s.otherFollower c = false) : s.followJoin c = s.goesOn c target (.following leader [] ended) := by
  rw [State.followJoin, hr]
  exact if_neg (by simp [ho])

end Rolls

/-! ## Stores by the part itself (R275, R334, R335) -/

/-- What a store by the part itself leaves as it was beside the caches: queues, the registers of the worlds, and FLOOR. -/
def State.desk (s : State) : SMap Queue × WorldRegs × WorldRegs × Ts := (s.queues, s.normal, s.secure, s.floor)

theorem State.l2Touch_desk (s : State) (line : Nat) : ((s.l2Touch line).desk, (s.l2Touch line).hbm) = (s.desk, s.hbm) := by
  unfold State.l2Touch
  split
  · rfl
  · dsimp only
    split
    · rfl
    · split <;> rfl

section Stores
variable (s : State) (line off n v : Nat) (pts : Ts)

theorem State.storeHome_desk (inval : Bool) : (s.storeHome line off n v pts inval).1.desk = s.desk := by
  have touched := congrArg Prod.fst (s.l2Touch_desk line)
  unfold State.storeHome
  dsimp only
  split <;> exact touched

theorem State.storeHome_hbm (inval : Bool) :
    (s.storeHome line off n v pts inval).1.hbm = s.hbm.writeN (line * 128 + off) n v := by
  have touched : (s.l2Touch line).hbm = s.hbm := congrArg Prod.snd (s.l2Touch_desk line)
  rw [← touched]
  unfold State.storeHome
  dsimp only
  split <;> rfl

theorem State.storeHostHome_desk : (s.storeHostHome line off n v pts).1.desk = s.desk := by
  unfold State.storeHostHome
  split
  · split <;> rfl
  · rfl

theorem State.storeHostHome_hbm : (s.storeHostHome line off n v pts).1.hbm = s.hbm := by
  unfold State.storeHostHome
  split
  · split <;> rfl
  · rfl

theorem State.storeHostHome_posted_entry (rts : Ts) :
    ((State.storeHostHome.posted line off n v pts s rts).1.writeEntry line).isSome = true := by
  have names : ((s.writeEntry line).getD
      { line := line, data := 0, mask := 0, stamp := { wts := rts, rts := rts }, owners := [] }).line = line := by
    cases h : s.writeEntry line with
    | none => rfl
    | some e => simpa using List.find?_some h
  rw [State.writeEntry, List.find?_isSome]
  exact ⟨_, List.mem_append_right _ (List.mem_singleton_self _), decide_eq_true names⟩

/-- The bytes of a host line that the part stores stand in the line, held in M, or in a write entry (R335). -/
theorem State.storeHostHome_stands : (∃ x, (s.storeHostHome line off n v pts).1.hostLine line = some x ∧ x.state = .m) ∨
    ((s.storeHostHome line off n v pts).1.writeEntry line).isSome = true := by
  unfold State.storeHostHome
  split
  next x hx =>
    have names : x.line = line := by simpa using List.find?_some hx
    split
    · exact .inl ⟨_, List.find?_cons_of_pos (by simpa using names), rfl⟩
    · exact .inr (s.storeHostHome_posted_entry ..)
  next => exact .inr (s.storeHostHome_posted_entry ..)

end Stores

/-! ## Fault records on their way to their ring (R83, R85) -/

section Records
variable {s : State} {secure : Bool} {r : FaultRecord} {rest : List FaultRecord}

theorem exec_faultRecordWrite (secure : Bool) (s : State) :
    exec (.faultRecordWrite secure) s = happen (faultRecordWrite secure) s := rfl

theorem WorldRegs.ringRoom_iff (w : WorldRegs) : w.ringRoom = true ↔
    w.frlog2 ≠ 0 ∧ (w.frhead.toNat + 1) % 2 ^ w.frlog2.toNat ≠ w.frtail.toNat % 2 ^ w.frlog2.toNat := by
  simp [WorldRegs.ringRoom]

/-- The address of the record at FRHEAD (R83). -/
def WorldRegs.recordSlot (w : WorldRegs) : Nat := w.frbase.toNat + 32 * (w.frhead.toNat % 2 ^ w.frlog2.toNat)

/-- A record's bytes stored at an address for a world, where it may store them, with the wts that they receive (log 46). -/
def State.storeRecord (s : State) (secure : Bool) (at_ bits : Nat) : State × Ts :=
  let host := decide (2 ^ 51 ≤ at_)
  let ha := at_ - 2 ^ 51
  if !host && !s.mayStore secure at_ 32 then (s, s.high)
  else if host then s.storeHostHome (ha / 64) (ha % 64) 32 bits s.high
  else s.storeHome (at_ / 128) (at_ % 128) 32 bits s.high true

/-- The notification that is to follow a record (R83, R311). -/
def WorldRegs.notice (w : WorldRegs) (r : FaultRecord) (wts : Ts) : Notice :=
  { seq := (r.w3.setWidth 32).setWidth 64, time := wts
    host := if decide (2 ^ 51 ≤ w.recordSlot) then some ((w.recordSlot - 2 ^ 51) / 64) else none
    line := if w.supv.getLsbD 63 then some (field w.supv 25 16, BitVec.ofNat 6 (field w.supv 5 0)) else none }

/-- The state once a record has left the waiting list of its world for its ring and its launch has counted it. -/
def State.afterRecord (s : State) (secure : Bool) (r : FaultRecord) (rest : List FaultRecord) (stored : State × Ts) : State :=
  let n := (s.world secure).notice r stored.2
  (stored.1.mapWorld secure fun w => { w with
    waiting := rest, notices := w.notices ++ [n]
    frhead := BitVec.ofNat 16 ((w.frhead.toNat + 1) % 2 ^ w.frlog2.toNat) }).countFault secure (r.w3.extractLsb' 32 32)

theorem writeRecord_none (hw : (s.world secure).waiting = []) : (writeRecord secure).run s = .ok ⟨⟩ s := by
  rw [writeRecord, Eff.run_bind_ok (Eff.run_get s)]
  dsimp only
  rw [hw]
  rfl

theorem writeRecord_noRoom (hw : (s.world secure).waiting = r :: rest) (hr : (s.world secure).ringRoom = false) :
    (writeRecord secure).run s = .ok ⟨⟩ s := by
  rw [writeRecord, Eff.run_bind_ok (Eff.run_get s)]
  dsimp only
  rw [hw]
  dsimp only
  rw [if_pos (by simp [hr])]
  rfl

theorem writeRecord_run (hw : (s.world secure).waiting = r :: rest) (hr : (s.world secure).ringRoom = true) :
    (writeRecord secure).run s = .ok ⟨⟩ (s.afterRecord secure r rest
      (s.storeRecord secure (s.world secure).recordSlot r.bits)) := by
  rw [writeRecord, Eff.run_bind_ok (Eff.run_get s)]
  dsimp only
  rw [hw]
  dsimp only
  rw [if_neg (by simp [hr])]
  rfl

theorem faultRecordWrite_records (hn : (s.world secure).notices = []) :
    (faultRecordWrite secure).run s = (writeRecord secure).run s := by
  rw [faultRecordWrite, Eff.run_bind_ok (Eff.run_get s), hn]

theorem State.queue_countFault (s : State) (secure : Bool) (id : BitVec 32) (q : BitVec 6) :
    ((s.countFault secure id).queue q).admitted = (s.queue q).admitted.map fun l =>
      if l.secure = secure ∧ l.launchid = id then { l with faults := l.faults + 1 } else l := by
  have e := SMap.at_values s.queues (d := Queue.reset) (f := fun k => { k with
    admitted := k.admitted.map fun l =>
      if l.secure = secure ∧ l.launchid = id then { l with faults := l.faults + 1 } else l }) rfl q.toNat
  exact congrArg Queue.admitted e

/-- What the write of a record does beside its bytes. -/
structure State.Recorded (s t : State) (secure : Bool) (r : FaultRecord) (rest : List FaultRecord) : Prop where
  waiting : (t.world secure).waiting = rest
  frhead : (t.world secure).frhead = BitVec.ofNat 16
    (((s.world secure).frhead.toNat + 1) % 2 ^ (s.world secure).frlog2.toNat)
  notices : ∃ wts, (t.world secure).notices = [(s.world secure).notice r wts]
  counted : ∀ q l, (s.queue q).admitted = some l → (t.queue q).admitted = some
    (if l.secure = secure ∧ l.launchid = r.w3.extractLsb' 32 32 then { l with faults := l.faults + 1 } else l)

theorem State.world_of_desk {s t : State} (h : t.desk = s.desk) (b : Bool) : t.world b = s.world b := by
  simp only [State.desk, Prod.mk.injEq] at h
  obtain ⟨-, normal, secure, -⟩ := h
  rw [State.world, normal, secure, State.world]

theorem State.recorded_afterRecord {stored : State × Ts} (hn : (s.world secure).notices = [])
    (hd : stored.1.desk = s.desk) : s.Recorded (s.afterRecord secure r rest stored) secure r rest := by
  have world : (s.afterRecord secure r rest stored).world secure = { s.world secure with
      waiting := rest, notices := [(s.world secure).notice r stored.2]
      frhead := BitVec.ofNat 16 (((s.world secure).frhead.toNat + 1) % 2 ^ (s.world secure).frlog2.toNat) } := by
    rw [show (s.afterRecord secure r rest stored).world secure = _ from
      State.world_mapWorld_self stored.1 secure _, State.world_of_desk hd, hn]
    rfl
  refine ⟨by rw [world], by rw [world], ⟨stored.2, by rw [world]⟩, fun q l hl => ?_⟩
  have queue : (stored.1.mapWorld secure fun w => { w with
      waiting := rest, notices := w.notices ++ [(s.world secure).notice r stored.2]
      frhead := BitVec.ofNat 16 ((w.frhead.toNat + 1) % 2 ^ w.frlog2.toNat) }).queue q = s.queue q := by
    refine State.queue_of_queues ?_ q
    rw [State.mapWorld_part]
    exact congrArg Prod.fst hd
  rw [State.afterRecord, State.queue_countFault, queue, hl]
  rfl

theorem State.Recorded.notices_length {t : State} (h : s.Recorded t secure r rest) : (t.world secure).notices.length = 1 := by
  obtain ⟨wts, only⟩ := h.notices
  rw [only, List.length_singleton]

theorem State.afterRecord_part (stored : State × Ts) : s.afterRecord secure r rest stored = { stored.1 with
    queues := (s.afterRecord secure r rest stored).queues, normal := (s.afterRecord secure r rest stored).normal
    secure := (s.afterRecord secure r rest stored).secure } := by
  cases secure <;> rfl

theorem State.afterRecord_times (stored : State × Ts) : (s.afterRecord secure r rest stored).times = stored.1.times := by
  rw [State.afterRecord_part]
  rfl

theorem State.afterRecord_memory (stored : State × Ts) :
    ((s.afterRecord secure r rest stored).hbm, (s.afterRecord secure r rest stored).host) =
      (stored.1.hbm, stored.1.host) := by
  rw [State.afterRecord_part]

theorem State.afterRecord_hostLine (stored : State × Ts) (line : Nat) :
    (s.afterRecord secure r rest stored).hostLine line = stored.1.hostLine line := by
  rw [State.afterRecord_part]
  rfl

theorem State.afterRecord_writeEntry (stored : State × Ts) (line : Nat) :
    (s.afterRecord secure r rest stored).writeEntry line = stored.1.writeEntry line := by
  rw [State.afterRecord_part]
  rfl

theorem faultRecordWrite_noRoom (hn : (s.world secure).notices = []) (hw : (s.world secure).waiting = r :: rest)
    (hr : (s.world secure).ringRoom = false) : exec (.faultRecordWrite secure) s = .next s := by
  rw [exec_faultRecordWrite]
  exact happen_ok ((faultRecordWrite_records hn).trans (writeRecord_noRoom hw hr)) (State.floor_ok rfl rfl)

/-- The next record is written at FRHEAD where FLOOR allows it. -/
theorem faultRecordWrite_goes (hn : (s.world secure).notices = []) (hw : (s.world secure).waiting = r :: rest)
    (hr : (s.world secure).ringRoom = true) {stored : State × Ts}
    (hs : s.storeRecord secure (s.world secure).recordSlot r.bits = stored) (hf : s.FloorAllows stored.1) :
    exec (.faultRecordWrite secure) s = .next (s.afterRecord secure r rest stored) := by
  rw [exec_faultRecordWrite]
  refine happen_ok ?_ (hf.of_times (State.afterRecord_times stored)).holds
  rw [faultRecordWrite_records hn, writeRecord_run hw hr, hs]

/-! ### Where a record's bytes go -/

section Places
variable {at_ : Nat} (bits : Nat)

theorem State.storeRecord_home (h : at_ < 2 ^ 51) (hm : s.mayStore secure at_ 32 = true) :
    s.storeRecord secure at_ bits = s.storeHome (at_ / 128) (at_ % 128) 32 bits s.high true := by
  have far : decide (2 ^ 51 ≤ at_) = false := decide_eq_false (Nat.not_le.mpr h)
  simp only [State.storeRecord, far, hm, Bool.not_true, Bool.and_false, Bool.false_eq_true, if_false]

theorem State.storeRecord_barred (h : at_ < 2 ^ 51) (hm : s.mayStore secure at_ 32 = false) :
    s.storeRecord secure at_ bits = (s, s.high) := by
  have far : decide (2 ^ 51 ≤ at_) = false := decide_eq_false (Nat.not_le.mpr h)
  simp only [State.storeRecord, far, hm, Bool.not_false, Bool.and_self, if_true]

theorem State.storeRecord_host (h : 2 ^ 51 ≤ at_) : s.storeRecord secure at_ bits =
    s.storeHostHome ((at_ - 2 ^ 51) / 64) ((at_ - 2 ^ 51) % 64) 32 bits s.high := by
  have near : decide (2 ^ 51 ≤ at_) = true := decide_eq_true h
  simp only [State.storeRecord, near, Bool.not_true, Bool.false_and, Bool.false_eq_true, if_false, if_true]

theorem State.storeRecord_desk (at_ : Nat) : (s.storeRecord secure at_ bits).1.desk = s.desk := by
  unfold State.storeRecord
  dsimp only
  split
  · rfl
  · split
    · exact State.storeHostHome_desk ..
    · exact State.storeHome_desk ..

end Places

/-- A record's four words are read where its bytes have been written (R85). -/
theorem FaultRecord.read_written {m : Memory} (h : m.wf = true) (at_ : Nat) (r : FaultRecord) :
    let t := m.writeN at_ 32 r.bits
    t.readN at_ 8 = r.w0.toNat ∧ t.readN (at_ + 8) 8 = r.w1.toNat ∧ t.readN (at_ + 16) 8 = r.w2.toNat ∧
      t.readN (at_ + 24) 8 = r.w3.toNat := by
  obtain ⟨v, hv, h0, h1, h2, h3⟩ := packElems_four r.w0 r.w1 r.w2 r.w3
  have bits : r.bits = v := hv
  have part {k : Nat} (hk : k + 8 ≤ 32) : (m.writeN at_ 32 r.bits).readN (at_ + k) 8 = v / 256 ^ k % 256 ^ 8 := by
    rw [bits, Memory.readN_writeN_part h at_ hk]
  dsimp only
  refine ⟨(part (k := 0) (by decide)).trans ?_, (part (by decide)).trans ?_, (part (by decide)).trans ?_,
    (part (by decide)).trans ?_⟩
  · omega
  · omega
  · omega
  · omega

theorem WorldRegs.ringRoom_eq_false {w : WorldRegs}
    (h : w.frlog2 = 0 ∨ (w.frhead.toNat + 1) % 2 ^ w.frlog2.toNat = w.frtail.toNat % 2 ^ w.frlog2.toNat) :
    w.ringRoom = false := by
  rw [← Bool.not_eq_true, WorldRegs.ringRoom_iff, ← not_or, not_not]
  exact h

section Recording
variable (hn : (s.world secure).notices = []) (hw : (s.world secure).waiting = r :: rest)
  (hr : (s.world secure).ringRoom = true)
include hn hw hr

/-- A record that stands in HBM, where its world may store it. -/
theorem faultRecordWrite_home (hp : (s.world secure).recordSlot < 2 ^ 51)
    (hm : s.mayStore secure (s.world secure).recordSlot 32 = true)
    (hf : s.FloorAllows (s.storeHome ((s.world secure).recordSlot / 128) ((s.world secure).recordSlot % 128) 32 r.bits
      s.high true).1) :
    ∃ t, exec (.faultRecordWrite secure) s = .next t ∧ s.Recorded t secure r rest ∧
      t.hbm = s.hbm.writeN (s.world secure).recordSlot 32 r.bits := by
  have stored := State.storeRecord_home r.bits hp hm
  refine ⟨_, faultRecordWrite_goes hn hw hr stored hf, State.recorded_afterRecord hn (State.storeHome_desk ..),
    (congrArg Prod.fst (State.afterRecord_memory _)).trans ?_⟩
  rw [State.storeHome_hbm, Nat.div_add_mod']

/-- A record for a place where its world may not store is not written, but leaves the list (log 46). -/
theorem faultRecordWrite_barred (hp : (s.world secure).recordSlot < 2 ^ 51)
    (hm : s.mayStore secure (s.world secure).recordSlot 32 = false) :
    ∃ t, exec (.faultRecordWrite secure) s = .next t ∧ s.Recorded t secure r rest ∧ (t.hbm, t.host) = (s.hbm, s.host) := by
  have stored := State.storeRecord_barred r.bits hp hm
  refine ⟨_, faultRecordWrite_goes hn hw hr stored (State.floorAllows_of_times rfl),
    State.recorded_afterRecord hn rfl, State.afterRecord_memory _⟩

/-- A record for host memory stands in the line, held in M, or in a write entry, which its notification waits for. -/
theorem faultRecordWrite_host (hp : 2 ^ 51 ≤ (s.world secure).recordSlot)
    (hf : s.FloorAllows (s.storeHostHome (((s.world secure).recordSlot - 2 ^ 51) / 64)
      (((s.world secure).recordSlot - 2 ^ 51) % 64) 32 r.bits s.high).1) :
    let line := ((s.world secure).recordSlot - 2 ^ 51) / 64
    ∃ t, exec (.faultRecordWrite secure) s = .next t ∧ s.Recorded t secure r rest ∧ t.hbm = s.hbm ∧
      (∀ wts, ((s.world secure).notice r wts).host = some line) ∧
      ((∃ x, t.hostLine line = some x ∧ x.state = .m) ∨ (t.writeEntry line).isSome = true) := by
  have stored := State.storeRecord_host (s := s) (secure := secure) r.bits hp
  refine ⟨_, faultRecordWrite_goes hn hw hr stored hf, State.recorded_afterRecord hn (State.storeHostHome_desk ..),
    (congrArg Prod.fst (State.afterRecord_memory _)).trans (State.storeHostHome_hbm ..),
    fun wts => if_pos (decide_eq_true hp), ?_⟩
  rw [State.afterRecord_hostLine, State.afterRecord_writeEntry]
  exact State.storeHostHome_stands ..

end Recording

end Records

/-! ## Notifications (R83, R311; log 45) -/

section Notices
variable {s : State} {secure : Bool} {n : Notice} {rest : List Notice} {p : Nat} {l : BitVec 6}

/-- The state with its first notification made. -/
def State.told (s : State) (secure : Bool) (rest : List Notice) : State :=
  s.mapWorld secure fun w => { w with notices := rest }

theorem faultRecordWrite_tells {t : State} (hn : (s.world secure).notices = n :: rest) (h : s.notify secure n = some t)
    (hf : s.FloorAllows t) : exec (.faultRecordWrite secure) s = .next (t.told secure rest) := by
  rw [exec_faultRecordWrite]
  refine happen_ok ?_ (hf.of_times (State.mapWorld_times ..)).holds
  rw [faultRecordWrite, Eff.run_bind_ok (Eff.run_get s), hn]
  dsimp only
  rw [h]
  rfl

/-- A notification that waits lets nothing happen where no record waits either. -/
theorem faultRecordWrite_waits (hn : (s.world secure).notices = n :: rest) (h : s.notify secure n = none)
    (hw : (s.world secure).waiting = []) : exec (.faultRecordWrite secure) s = .next s := by
  rw [exec_faultRecordWrite]
  refine happen_ok ?_ (State.floor_ok rfl rfl)
  rw [faultRecordWrite, Eff.run_bind_ok (Eff.run_get s), hn]
  dsimp only
  rw [h, writeRecord_none hw]

theorem State.notify_waits {line : Nat} (h : n.host = some line) (he : (s.writeEntry line).isSome = true) :
    s.notify secure n = none := by
  rw [State.notify, h]
  exact if_pos he

/-- No write entry holds the record that a notification is for. -/
def State.recordOut (s : State) (n : Notice) : Prop := ∀ line, n.host = some line → s.writeEntry line = none

theorem State.notify_interrupt (ho : s.recordOut n) (h : n.line = none) :
    s.notify secure n = some { s with out := s.out ++ [.msix (if secure then 3 else 1)] } := by
  unfold State.notify
  cases hh : n.host with
  | none => rw [h]; rfl
  | some line =>
    dsimp only
    rw [ho line hh, h]
    rfl

theorem State.notify_line (ho : s.recordOut n) (h : n.line = some (p, l)) :
    s.notify secure n = s.noticeLine secure n p l := by
  unfold State.notify
  cases hh : n.host with
  | none => rw [h]; rfl
  | some line =>
    dsimp only
    rw [ho line hh, h]
    rfl

theorem State.noticeLine_drops (h : (s.cluster p).placed = none ∨ (s.cluster p).secure ≠ secure ∨
    (s.line p l).mode = .mutex) : s.noticeLine secure n p l = some s := by
  unfold State.noticeLine
  dsimp only
  split
  · rfl
  · next placed =>
    obtain h | h | h := h
    · exact absurd (by simp [h]) placed
    · exact absurd (by simp [h]) placed
    · rw [h]

theorem State.actLine_alone {pts : Ts} {f : EventLine → EventLine} (hw : (s.line p l).waiters = []) :
    let st := (s.line p l).stamp.store pts
    s.actLine p l pts f = ((s.setLine p l { f (s.line p l) with stamp := st }).assign st.wts, st.wts) := by
  rw [State.actLine, hw]
  rfl

section Placed
variable (hp : (s.cluster p).placed.isSome = true) (hs : (s.cluster p).secure = secure)
include hp hs

theorem State.line_open : ((s.cluster p).placed.isNone || (s.cluster p).secure != secure) = false := by
  rw [hs, bne_self_eq_false, Bool.or_false, ← Option.not_isSome, hp, Bool.not_true]

theorem State.noticeLine_full (hm : (s.line p l).mode = .msg) (hq : 16 ≤ (s.line p l).queue.length) :
    s.noticeLine secure n p l = none := by
  rw [State.noticeLine, State.line_open hp hs, hm]
  exact if_pos hq

theorem State.noticeLine_msg (hw : (s.line p l).waiters = []) (hm : (s.line p l).mode = .msg)
    (hq : (s.line p l).queue.length < 16) :
    let e := s.line p l
    let st := e.stamp.store n.time
    s.noticeLine secure n p l =
      some ((s.setLine p l { e with queue := e.queue ++ [n.seq], stamp := st }).assign st.wts) := by
  rw [State.noticeLine, State.line_open hp hs, hm]
  dsimp only
  rw [if_neg Bool.false_ne_true, if_neg (Nat.not_le.mpr hq), State.appendMessage, State.actLine_alone hw]

theorem State.noticeLine_flag (hw : (s.line p l).waiters = []) (hm : (s.line p l).mode = .flag) :
    let e := s.line p l
    let st := e.stamp.store n.time
    s.noticeLine secure n p l = some ((s.setLine p l { e with value := 1, stamp := st }).assign st.wts) := by
  rw [State.noticeLine, State.line_open hp hs, hm]
  dsimp only
  rw [if_neg Bool.false_ne_true, State.actLine_alone hw, EventLine.signal, hm]

end Placed

end Notices

/-- Settles O54: each completion is one change of the state, which comes about where FLOOR allows it; what a record and a
notification write is said by the rules of the stores, the rings and the event lines above. -/
theorem waitsEnd : Obligations.WaitsEnd := by
  unfold Obligations.WaitsEnd
  intro c s
  dsimp only
  refine ⟨fun store t ht hf => ⟨?_, ?_⟩, fun h => ⟨?_, ?_⟩, fun i w hw => ⟨?_, ?_⟩, fun line cluster => ⟨?_, ?_⟩,
    fun line hw => ⟨fun h => ?_, fun d pa u hn hr hf => ⟨fun hp => ?_, fun hp => ?_⟩⟩, ?_, ?_, ?_, ?_⟩
  · rw [exec_reply]
    exact happen_modify_goes (State.replyTo_self ht) (hf.of_times rfl)
  · have other : (if store = true then Instr.renewalReply c else .storeReply c) =
        if !store then .storeReply c else .renewalReply c := by cases store <;> rfl
    rw [other, exec_reply]
    exact happen_modify_still (State.replyTo_other ht)
  · rw [exec_storeReply]
    exact happen_modify_still (State.replyTo_none h)
  · rw [exec_renewalReply]
    exact happen_modify_still (State.replyTo_none h)
  · exact fun line rest hl hc ho => walkCompletion_asks hw hl hc ho
  · refine fun ho he => ⟨fun e h => ?_, fun d h hrun hfault hwait => walkCompletion_faults hw ho he h hrun hfault hwait⟩
    exact ⟨_, walkCompletion_fills hw ho he h, rfl, rfl, State.fillTlb_cluster .., State.fillTlb_core ..⟩
  · rw [exec_l2WritebackDone]
    exact happen_modify_timeless rfl rfl
  · rw [exec_l1CopyDrop]
    exact happen_modify_timeless rfl rfl
  · rw [exec_lineRefetch]
    exact happen_modify_still (State.refetched_again hw h)
  · rw [exec_lineRefetch]
    have logged : (u.logError (s.launchAt c).secure false pa).times = u.times := State.mapWorld_times ..
    exact happen_modify_goes ((State.refetched_first hw hn hr).trans (if_pos hp)) (hf.of_times logged)
  · rw [exec_lineRefetch]
    exact happen_modify_goes ((State.refetched_first hw hn hr).trans (if_neg (by simp [hp]))) (hf.of_times rfl)
  · rintro f leader groups ended hf hc hr
    rw [exec_rollGroupArrival]
    refine ⟨fun hk => ?_, ?_, ?_⟩
    · exact happen_modify_still (State.groupArrives_early (State.nextForward_only hf hc) hk)
    · rintro hk rfl hg
      exact happen_modify_timeless (State.groupArrives_queued hf hc hr hk hg) rfl
    · rintro hk rfl hg
      exact happen_modify_timeless (State.groupArrives_full hf hc hr hk hg) rfl
  · intro core target since runners leader ended hr
    rw [exec_followJoin]
    refine ⟨?_, ?_, ?_⟩
    · rintro rfl hn
      exact happen_modify_still (State.followJoin_waits hr hn)
    · rintro rfl rfl
      exact ⟨_, happen_modify_timeless (State.followJoin_alone hr) (State.goesOn_times ..), State.ctx_goesOn ..⟩
    · rintro l rfl ho
      exact ⟨_, happen_modify_timeless (State.followJoin_follows hr ho) (State.goesOn_times ..), State.ctx_goesOn ..⟩
  · intro secure r rest hn hw
    refine ⟨fun h => faultRecordWrite_noRoom hn hw (WorldRegs.ringRoom_eq_false h), fun h0 hroom => ?_⟩
    have hr := (WorldRegs.ringRoom_iff _).mpr ⟨h0, hroom⟩
    refine ⟨fun ha he hend hwf hlo hhi hassay hf => ?_, fun hp hbar => ?_, fun hp ha hf => ?_⟩
    · have inside := ((Nat.lt_add_of_pos_right (by decide)).trans_le he).trans_le hend
      obtain ⟨t, goes, new, hbm⟩ :=
        faultRecordWrite_home hn hw hr inside (State.mayStore_iff.mpr ⟨he, hlo, hhi, hassay⟩) hf
      have words := FaultRecord.read_written hwf (s.world secure).recordSlot r
      rw [← hbm] at words
      exact ⟨t, ⟨goes, new.waiting, new.frhead, new.notices_length, new.counted⟩, words⟩
    · obtain ⟨t, goes, new, same⟩ := faultRecordWrite_barred hn hw hr hp (State.mayStore_eq_false hbar)
      exact ⟨t, ⟨goes, new.waiting, new.frhead, new.notices_length, new.counted⟩, congrArg Prod.fst same,
        congrArg Prod.snd same⟩
    · obtain ⟨t, goes, new, hbm, host, stands⟩ := faultRecordWrite_host hn hw hr hp hf
      refine ⟨t, ⟨goes, new.waiting, new.frhead, new.notices_length, new.counted⟩, hbm, ?_, stands⟩
      obtain ⟨wts, only⟩ := new.notices
      rw [only, List.forall_mem_singleton]
      exact host wts
  · intro secure n rest hn
    refine ⟨?_, fun ho => ⟨fun hl => ?_, fun p l hl => ?_⟩⟩
    · rintro ⟨line, hh, he⟩ hw
      exact faultRecordWrite_waits hn (State.notify_waits hh he) hw
    · exact faultRecordWrite_tells hn (State.notify_interrupt ho hl) (State.floorAllows_of_times rfl)
    · have named := State.notify_line (secure := secure) ho hl
      refine ⟨fun h => ?_, fun hp hs => ⟨fun hw hf => ⟨fun hm hq => ?_, fun hm => ?_⟩, fun hm hq hw => ?_⟩⟩
      · exact faultRecordWrite_tells hn (named.trans (State.noticeLine_drops h)) (State.floorAllows_of_times rfl)
      · exact faultRecordWrite_tells hn (named.trans (State.noticeLine_msg hp hs hw hm hq)) (hf.of_times rfl)
      · exact faultRecordWrite_tells hn (named.trans (State.noticeLine_flag hp hs hw hm)) (hf.of_times rfl)
      · exact faultRecordWrite_waits hn (named.trans (State.noticeLine_full hp hs hm hq)) hw

end Sys2Proof.Machine
end

section
/-! Numbers packed from elements of one width, and the elements of a vector register (R164). -/

namespace Sys2Proof.Machine

theorem packElems_lt (w : Nat) (l : List Nat) : packElems w l < 2 ^ (w * l.length) := by
  induction l with
  | nil => simp [packElems]
  | cons x r ih =>
    have hx : x % 2 ^ w < 2 ^ w := Nat.mod_lt _ (Nat.two_pow_pos w)
    calc packElems w (x :: r) = x % 2 ^ w + 2 ^ w * packElems w r := rfl
      _ < 2 ^ w * (packElems w r + 1) := by rw [Nat.mul_add]; omega
      _ ≤ 2 ^ w * 2 ^ (w * r.length) := Nat.mul_le_mul_left _ ih
      _ = 2 ^ (w * (x :: r).length) := by rw [← Nat.pow_add, List.length_cons]; ring_nf

/-- An element of a packed number; beyond its end the elements are 0. -/
theorem packElems_elem (w : Nat) (l : List Nat) (i : Nat) : packElems w l / 2 ^ (w * i) % 2 ^ w = l.getD i 0 % 2 ^ w := by
  induction l generalizing i with
  | nil => simp [packElems]
  | cons x r ih =>
    cases i with
    | zero => simp [packElems]
    | succ i =>
      rw [show packElems w (x :: r) = x % 2 ^ w + 2 ^ w * packElems w r from rfl, Nat.mul_succ, Nat.add_comm (w * i),
        Nat.pow_add, ← Nat.div_div_eq_div_mul, Nat.add_mul_div_left _ _ (Nat.two_pow_pos w),
        Nat.div_eq_of_lt (Nat.mod_lt _ (Nat.two_pow_pos w)), Nat.zero_add, ih, List.getD_cons_succ]

/-- An element of a register made of elements that fill it. -/
theorem elem_vecOf {w i : Nat} {l : List Nat} (hl : w * l.length ≤ 1024) : elem (vecOf w l) w i = l.getD i 0 % 2 ^ w := by
  have h : packElems w l < 2 ^ 1024 := (packElems_lt w l).trans_le (Nat.pow_le_pow_right two_pos hl)
  rw [elem, vecOf, BitVec.toNat_ofNat, Nat.mod_eq_of_lt h, packElems_elem]

/-- The same for a register made by a function of the element's number. -/
theorem elem_vecOf_range {w n i : Nat} {f : Nat → Nat} (hl : w * n ≤ 1024) (hi : i < n) :
    elem (vecOf w ((List.range n).map f)) w i = f i % 2 ^ w := by
  rw [elem_vecOf (by simpa using hl)]
  simp [List.getD_eq_getElem?_getD, hi]

theorem elem_lt (r : Vec) (w i : Nat) : elem r w i < 2 ^ w := Nat.mod_lt _ (Nat.two_pow_pos w)

@[simp] theorem elem_mod (r : Vec) (w i : Nat) : elem r w i % 2 ^ w = elem r w i := Nat.mod_eq_of_lt (elem_lt r w i)

theorem width_mul_elems (v : View) : v.width * v.elems = 1024 := by cases v <;> rfl

/-- The elements that a predicate selects are the new ones (R165). -/
theorem State.elem_perElem (s : State) (p : Pred) {v : View} (old : Vec) (f : Nat → Nat) {i : Nat} (hi : i < v.elems) :
    elem (s.perElem p v old f) v.width i = if s.active? p v i then f i % 2 ^ v.width else elem old v.width i := by
  rw [State.perElem, elem_vecOf_range (width_mul_elems v).le hi]
  split
  · rfl
  · exact elem_mod ..

theorem State.elementsAre_perElem (s : State) (p : Pred) (v : View) (old : Vec) (f : Nat → Nat) :
    s.ElementsAre p v old (s.perElem p v old f) f := fun _ hi => s.elem_perElem p old f hi

end Sys2Proof.Machine
end

section
/-! `MTC`: the registers that it writes, and those that a cluster and a die share (R95, R157, R212, R245, R348, R366, R400). -/

namespace Sys2Proof.Machine

/-! ## A write -/

theorem execMtc_true {p : Pred} {r : CReg} {a : XReg} {s : State} (hr : s.Ready) (hp : s.holds p = true)
    (hh : (s.writeCReg r (s.x a)).high = s.high) (hf : (s.writeCReg r (s.x a)).floor = s.floor) :
    exec (.mtc p r a) s = .next ((s.writeCReg r (s.x a)).retire .seq) :=
  (guarded_ready hr.1 hr.2).trans (plain_true hp (doing_run _ s) (State.floor_ok hh hf))

/-- A register of the context itself. -/
theorem execMtc_own {p : Pred} {r : CReg} {a : XReg} {s : State} (hr : s.Ready) (hp : s.holds p = true)
    (own : s.writeCReg r (s.x a) = s.mapMe fun k => k.writeReg r (s.x a)) :
    exec (.mtc p r a) s = .next ((s.mapMe fun k => k.writeReg r (s.x a)).retire .seq) := by
  rw [execMtc_true hr hp (by rw [own]; rfl) (by rw [own]; rfl), own]

/-- A register that is shared takes its value with the next cycle. -/
def State.sharing (s : State) (mjw : Bool) (unit : Nat) (w : Word) : State :=
  { s with sharedWrites := s.sharedWrites ++ [{ writer := ctxKey s.active, mjw := mjw, unit := unit, value := w }] }

theorem dieOfCluster_clusterOfCore (core : BitVec 13) : dieOfCluster (clusterOfCore core) = dieOfCore core :=
  Nat.div_div_eq_div_mul ..

theorem execMtc_mjw {p : Pred} {a : XReg} {s : State} (hr : s.Ready) (hp : s.holds p = true) :
    exec (.mtc p .mjw a) s = .next ((s.sharing true (clusterOfCore s.active.core) (s.x a)).retire .seq) :=
  execMtc_true hr hp rfl rfl

theorem execMtc_lbtol {p : Pred} {a : XReg} {s : State} (hr : s.Ready) (hp : s.holds p = true) :
    exec (.mtc p .lbtol a) s = .next ((s.sharing false (dieOfCore s.active.core) (s.x a)).retire .seq) := by
  rw [← dieOfCluster_clusterOfCore]
  exact execMtc_true hr hp rfl rfl

/-! ## KVCFG (R348) -/

theorem writeKvcfg_toNat (old w : Word) : (writeKvcfg old w).toNat = w.toNat % 32 +
    (if w.toNat / 2 ^ 8 % 32 = 0 ∨ (6 ≤ w.toNat / 2 ^ 8 % 32 ∧ w.toNat / 2 ^ 8 % 32 ≤ 18)
      then w.toNat / 2 ^ 8 % 32 else old.toNat / 2 ^ 8 % 32) * 2 ^ 8 + w.toNat / 2 ^ 16 % 64 * 2 ^ 16 := by
  have win (v : Word) : field v 12 8 = v.toNat / 2 ^ 8 % 32 := Nat.mod_mul_right_div_self v.toNat (2 ^ 8) 32
  have low : w &&& 0x003F_001F = bitsOf w 4 0 + bitsOf w 21 16 := by
    rw [bitsOf_eq_and w 4 0, bitsOf_eq_and w 21 16, and_add_and (by decide)]
    rfl
  rw [writeKvcfg, low, bitsOf_eq_mod (w := 5) rfl, bitsOf_eq_mod (w := 6) rfl, win, win]
  generalize hn : (if w.toNat / 2 ^ 8 % 32 = 0 ∨ (6 ≤ w.toNat / 2 ^ 8 % 32 ∧ w.toNat / 2 ^ 8 % 32 ≤ 18)
    then w.toNat / 2 ^ 8 % 32 else old.toNat / 2 ^ 8 % 32) = n
  have small : n < 32 := by
    rw [← hn]
    split
    · exact Nat.mod_lt _ (by decide)
    · exact Nat.mod_lt _ (by decide)
  simp only [BitVec.toNat_add, BitVec.toNat_ofNat]
  omega

/-! ## MJW (R212) -/

theorem field_weight (w : Word) (i : Nat) : field w (4 * i + 3) (4 * i) = w.toNat / 2 ^ (4 * i) % 16 := by
  rw [field, show 4 * i + 3 + 1 = 4 * i + 4 by omega, Nat.pow_add, Nat.mod_mul_right_div_self]

theorem writeMjw_toNat (old w : Word) : (writeMjw old w).toNat = packElems 4 ((List.range 9).map fun i =>
    if field w (4 * i + 3) (4 * i) = 0 then field old (4 * i + 3) (4 * i) else field w (4 * i + 3) (4 * i)) := by
  rw [writeMjw, BitVec.toNat_ofNat, Nat.mod_eq_of_lt]
  exact (packElems_lt _ _).trans_le (Nat.pow_le_pow_right two_pos (by simp))

theorem writeMjw_lt (old w : Word) : (writeMjw old w).toNat < 2 ^ 36 := by
  rw [writeMjw_toNat]
  exact (packElems_lt _ _).trans_le (Nat.pow_le_pow_right two_pos (by simp))

theorem writeMjw_weight (old w : Word) {i : Nat} (hi : i < 9) : (writeMjw old w).toNat / 2 ^ (4 * i) % 16 =
    if w.toNat / 2 ^ (4 * i) % 16 = 0 then old.toNat / 2 ^ (4 * i) % 16 else w.toNat / 2 ^ (4 * i) % 16 := by
  rw [writeMjw_toNat, show 16 = 2 ^ 4 from rfl, packElems_elem]
  simp only [List.getD_eq_getElem?_getD, List.getElem?_map, List.getElem?_range hi, Option.map_some, Option.getD_some,
    field_weight, show 2 ^ 4 = 16 from rfl]
  split
  · exact Nat.mod_mod ..
  · exact Nat.mod_mod ..

/-! ## The next cycle (R157) -/

theorem State.collide_keeps {β : Type} (g : State → β) (hc : ∀ s c f, g (State.mapCtx s c f) = g s)
    (hs : ∀ s l, g { s with sends := l } = g s) (s : State) : g s.collide = g s := by
  unfold State.collide
  exact (foldl_keeps g fun s m => hc s _ _).trans (hs s _)

/-- What a cycle leaves of what neither the sends nor the barriers touch: what the shared writes make of it. -/
theorem State.tick_keeps {β : Type} (g : State → β) (hl : ∀ s q f, g (State.mapLaunch s q f) = g s) (s : State) :
    ∃ n left, g s.tick =
      g ({ s with clock := s.clock + 1, time := n, slew := left, front := 0 } : State).collide.applyShared :=
  ⟨_, _, foldl_keeps g fun s q => State.recheckEpisodes_keeps g hl s q⟩

/-- Of one write that waits, the part that a cycle changes. -/
theorem State.applyShared_one {s : State} {x : SharedWrite} (h : s.sharedWrites = [x]) : s.applyShared =
    if x.mjw then ({ s with sharedWrites := [] } : State).mapCluster x.unit fun k => { k with mjw := writeMjw k.mjw x.value }
    else { s with sharedWrites := [], lbtol := s.lbtol.set! x.unit (x.value.setWidth 3) } := by
  simp [State.applyShared, State.applySome, h, sortBy, insertBy]

theorem State.tick_mjw {s : State} {key p : Nat} {w : Word}
    (h : s.sharedWrites = [{ writer := key, mjw := true, unit := p, value := w }]) :
    (s.tick.cluster p).mjw = writeMjw (s.cluster p).mjw w := by
  obtain ⟨n, left, e⟩ := State.tick_keeps (fun t => (t.cluster p).mjw) (fun _ _ _ => rfl) s
  have kept := State.collide_keeps (fun t => (t.sharedWrites, t.cluster p)) (fun _ _ _ => rfl) (fun _ _ => rfl)
    ({ s with clock := s.clock + 1, time := n, slew := left, front := 0 } : State)
  obtain ⟨writes, same⟩ := Prod.mk.inj kept
  rw [e, State.applyShared_one (writes.trans h), if_pos rfl, State.cluster_mapCluster_self]
  exact congrArg (fun k => writeMjw (Cluster.mjw k) w) same

theorem State.tick_lbtol {s : State} {key die : Nat} {w : Word} (hd : die < 8)
    (h : s.sharedWrites = [{ writer := key, mjw := false, unit := die, value := w }]) :
    s.tick.lbtol.toList.getD die 0 = w.setWidth 3 := by
  obtain ⟨n, left, e⟩ := State.tick_keeps State.lbtol (fun _ _ _ => rfl) s
  have writes := State.collide_keeps State.sharedWrites (fun _ _ _ => rfl) (fun _ _ => rfl)
    ({ s with clock := s.clock + 1, time := n, slew := left, front := 0 } : State)
  rw [e, State.applyShared_one (writes.trans h), if_neg (by simp)]
  simp [List.getD_eq_getElem?_getD, hd, Vector.set!]

theorem State.cluster_retire (s : State) (n : Next) (p : Nat) : (s.retire n).cluster p = s.cluster p := by
  rw [State.cluster, State.retire_clusters, State.cluster]

/-- Settles O8: each register from the write of it, and the shared ones from what the next cycle applies. -/
theorem controlRegistersWritten : Obligations.ControlRegistersWritten := by
  unfold Obligations.ControlRegistersWritten
  intro p a s hr
  refine ⟨fun hp r => (guarded_ready hr.1 hr.2).trans (plain_false hp), fun hp => ?_⟩
  have own {r : CReg} := execMtc_own (r := r) (a := a) hr hp
  refine ⟨own rfl, own rfl, own rfl, own rfl, own rfl, own rfl, own rfl, own rfl, own rfl, own rfl,
    ⟨_, own rfl, _, rfl, ?_, ?_, ?_, ?_, ?_⟩, execMtc_mjw hr hp, execMtc_lbtol hr hp, fun hw t => ⟨rfl, fun h => ?_, fun h => ?_⟩⟩
  iterate 5
    rw [writeKvcfg_toNat]
    split
    · omega
    · omega
  · cases (execMtc_mjw hr hp).symm.trans h
    have waits : (s.sharing true (clusterOfCore s.active.core) (s.x a)).sharedWrites =
        [{ writer := ctxKey s.active, mjw := true, unit := clusterOfCore s.active.core, value := s.x a }] := by
      rw [State.sharing, hw, List.nil_append]
    refine ⟨by rw [State.cluster_retire]; rfl, ?_, fun i hi => ?_⟩
    · rw [State.tick_mjw ((State.retire_sharedWrites ..).trans waits)]
      exact writeMjw_lt ..
    · rw [State.tick_mjw ((State.retire_sharedWrites ..).trans waits), State.cluster_retire]
      exact writeMjw_weight _ _ hi
  · cases (execMtc_lbtol hr hp).symm.trans h
    have waits : (s.sharing false (dieOfCore s.active.core) (s.x a)).sharedWrites =
        [{ writer := ctxKey s.active, mjw := false, unit := dieOfCore s.active.core, value := s.x a }] := by
      rw [State.sharing, hw, List.nil_append]
    have die : dieOfCore s.active.core < 8 := Nat.div_lt_of_lt_mul s.active.core.isLt
    exact ⟨State.retire_lbtol .., State.tick_lbtol die ((State.retire_sharedWrites ..).trans waits)⟩

end Sys2Proof.Machine
end

section
/-! Rounding: what the mode takes among the integers, among the values of a precision and among those of a format, and that the
encodings of a format are ordered as their values (R87, R94, R96, R98). -/

namespace Sys2Proof.Machine

/-! ## The integer that a mode takes for a magnitude (R94) -/

/-- The mode for the magnitude of a negative number. -/
def Mode.flip : Mode → Mode
  | .rdn => .rup
  | .rup => .rdn
  | mode => mode

/-- The mode for the magnitude of a number with the sign. -/
def Mode.under (mode : Mode) (neg : Bool) : Mode := if neg then mode.flip else mode

/-- Of the natural numbers n is the one that the mode takes for a nonnegative X. -/
def TakesNat (mode : Mode) (X : ℝ) (n : Nat) : Prop :=
  match mode with
  | .rtz | .rdn => (n : ℝ) ≤ X ∧ X < n + 1
  | .rup => X ≤ n ∧ (n : ℝ) < X + 1
  | .rne => |(n : ℝ) - X| ≤ 1 / 2 ∧ (|(n : ℝ) - X| = 1 / 2 → n % 2 = 0)
  | .rna => |(n : ℝ) - X| ≤ 1 / 2 ∧ (|(n : ℝ) - X| = 1 / 2 → X ≤ n)

/-- A cut that goes up by what stands beyond the integer part takes the integer of the mode. -/
theorem takesNat_of_cut {mode : Mode} {X : ℝ} {n : Nat} {inexact above tie : Bool} (lo : (n : ℝ) ≤ X) (hi : X < n + 1)
    (hx : inexact = true ↔ (n : ℝ) < X) (ha : above = true ↔ (n : ℝ) + 1 / 2 < X) (ht : tie = true ↔ X = n + 1 / 2) :
    TakesNat mode X (if inexact && (match mode with
      | .rne => above || (tie && n % 2 == 1)
      | .rna => above || tie
      | .rtz | .rdn => false
      | .rup => true) then n + 1 else n) := by
  have down : (n : ℝ) - X = -(X - n) := by ring
  have dist : |(n : ℝ) - X| = X - n := by rw [down, abs_neg, abs_of_nonneg (by linarith)]
  have next : |((n + 1 : Nat) : ℝ) - X| = n + 1 - X := by rw [Nat.cast_succ, abs_of_nonneg (by linarith)]
  cases mode
  case rtz | rdn => simpa [TakesNat] using ⟨lo, hi⟩
  case rup =>
    by_cases h : (n : ℝ) < X
    · simp only [TakesNat, hx.mpr h, Bool.and_true, if_true, Nat.cast_succ]
      exact ⟨hi.le, by linarith⟩
    · have none : inexact = false := Bool.eq_false_iff.mpr fun e => h (hx.mp e)
      simp only [none, Bool.false_and, Bool.false_eq_true, if_false, TakesNat]
      exact ⟨not_lt.mp h, by linarith⟩
  case rne =>
    rcases lt_trichotomy X (n + 1 / 2) with h | h | h
    · have noa : above = false := Bool.eq_false_iff.mpr fun e => by linarith [ha.mp e]
      have notie : tie = false := Bool.eq_false_iff.mpr fun e => by linarith [ht.mp e]
      simp only [noa, notie, Bool.false_and, Bool.or_false, Bool.and_false, Bool.false_eq_true, if_false, TakesNat, dist]
      exact ⟨by linarith, fun e => by linarith⟩
    · have noa : above = false := Bool.eq_false_iff.mpr fun e => by linarith [ha.mp e]
      have inx : inexact = true := hx.mpr (by linarith)
      simp only [noa, inx, ht.mpr h, Bool.true_and, Bool.false_or, beq_iff_eq]
      split_ifs with odd
      · simp only [TakesNat, next]
        exact ⟨by linarith, fun _ => by omega⟩
      · simp only [TakesNat, dist]
        exact ⟨by linarith, fun _ => by omega⟩
    · simp only [ha.mpr h, hx.mpr (by linarith), Bool.true_or, Bool.and_true, if_true, TakesNat, next]
      exact ⟨by linarith, fun e => by linarith⟩
  case rna =>
    rcases lt_trichotomy X (n + 1 / 2) with h | h | h
    · have noa : above = false := Bool.eq_false_iff.mpr fun e => by linarith [ha.mp e]
      have notie : tie = false := Bool.eq_false_iff.mpr fun e => by linarith [ht.mp e]
      simp only [noa, notie, Bool.or_false, Bool.and_false, Bool.false_eq_true, if_false, TakesNat, dist]
      exact ⟨by linarith, fun e => by linarith⟩
    · simp only [ht.mpr h, hx.mpr (by linarith : (n : ℝ) < X), Bool.or_true, Bool.and_true, if_true, TakesNat, next]
      exact ⟨by linarith, fun _ => by push_cast; linarith⟩
    · simp only [ha.mpr h, hx.mpr (by linarith), Bool.true_or, Bool.and_true, if_true, TakesNat, next]
      exact ⟨by linarith, fun e => by linarith⟩

/-- The number is m, or lies above it by less than 1 where a part of it is left out. -/
def Cuts (sticky : Bool) (m : Nat) (Y : ℝ) : Prop := if sticky then (m : ℝ) < Y ∧ Y < m + 1 else Y = m

section Cuts
variable {sticky : Bool} {r : Nat} {Y : ℝ} (hY : Cuts sticky r Y)
include hY

theorem Cuts.le : (r : ℝ) ≤ Y := by
  cases sticky with
  | true => exact hY.1.le
  | false => exact hY.ge

theorem Cuts.lt : Y < r + 1 := by
  cases sticky with
  | true => exact hY.2
  | false => exact (show Y = r from hY) ▸ lt_add_one Y

theorem Cuts.pos_iff : (r != 0 || sticky) = true ↔ 0 < Y := by
  cases sticky with
  | true => simpa using r.cast_nonneg.trans_lt hY.1
  | false => simp [show Y = r from hY, Nat.pos_iff_ne_zero]

theorem Cuts.above_iff (half : Nat) : (decide (half < r) || (decide (half = r) && sticky)) = true ↔ (half : ℝ) < Y := by
  cases sticky with
  | true =>
    rw [Bool.and_true, Bool.or_eq_true, decide_eq_true_eq, decide_eq_true_eq, ← Nat.le_iff_lt_or_eq, ← Nat.lt_succ_iff]
    constructor
    · intro h
      exact (Nat.cast_le.mpr (Nat.lt_succ_iff.mp h)).trans_lt hY.1
    · intro h
      exact_mod_cast h.trans hY.2
  | false => simp [show Y = r from hY]

theorem Cuts.tie_iff (half : Nat) : (decide (half = r) && !sticky) = true ↔ Y = half := by
  cases sticky with
  | true =>
    simp only [Bool.not_true, Bool.and_false, Bool.false_eq_true, false_iff]
    rintro rfl
    have above : r < half := by exact_mod_cast hY.1
    have below : half < r + 1 := by exact_mod_cast hY.2
    omega
  | false => simp [show Y = r from hY, eq_comm]

end Cuts

/-- The part that a cut of h bits leaves out is what the rest of them stands for. -/
theorem Cuts.rest {sticky : Bool} {m h : Nat} {Y : ℝ} (hY : Cuts sticky m Y) :
    Cuts sticky (m % 2 ^ h) (Y - 2 ^ h * (m / 2 ^ h : Nat)) := by
  have split : (m : ℝ) = 2 ^ h * (m / 2 ^ h : Nat) + (m % 2 ^ h : Nat) := by exact_mod_cast (Nat.div_add_mod m (2 ^ h)).symm
  cases sticky with
  | true => exact ⟨by linarith [hY.1], by linarith [hY.2]⟩
  | false => exact sub_eq_of_eq_add' ((show Y = m from hY).trans split)

/-- Half of the last place of a cut, and what lies above it or on it, as the cut finds them in its rest r (R94). -/
def cutHalf (h : Nat) : Nat := if h = 0 then 0 else 2 ^ (h - 1)
def cutAbove (sticky : Bool) (r h : Nat) : Bool :=
  decide (cutHalf h < r) || (decide (cutHalf h = r) && sticky && decide (h ≠ 0))
def cutTie (sticky : Bool) (r h : Nat) : Bool := decide (cutHalf h = r) && !sticky && decide (h ≠ 0)

theorem roundCut_eq (mode : Mode) (neg sticky : Bool) (m h : Nat) : roundCut mode neg sticky m h =
    (if (m % 2 ^ h != 0 || sticky) && (match mode.under neg with
      | .rne => cutAbove sticky (m % 2 ^ h) h || (cutTie sticky (m % 2 ^ h) h && m / 2 ^ h % 2 == 1)
      | .rna => cutAbove sticky (m % 2 ^ h) h || cutTie sticky (m % 2 ^ h) h
      | .rtz | .rdn => false
      | .rup => true) then m / 2 ^ h + 1 else m / 2 ^ h, m % 2 ^ h != 0 || sticky) := by
  cases mode <;> cases neg <;> rfl

theorem two_mul_cutHalf {h : Nat} (h0 : h ≠ 0) : 2 * (cutHalf h : ℝ) = 2 ^ h := by
  rw [cutHalf, if_neg h0]
  push_cast
  rw [← pow_succ', Nat.sub_add_cancel (Nat.pos_of_ne_zero h0)]

/-- Where nothing is cut off there is no rest. -/
theorem Cuts.zero {sticky : Bool} {r : Nat} {Y : ℝ} (hY : Cuts sticky r Y) (hs : sticky = true → (0 : Nat) ≠ 0)
    (hr : r < 2 ^ 0) : sticky = false ∧ r = 0 ∧ Y = 0 := by
  obtain rfl : sticky = false := Bool.eq_false_iff.mpr fun e => hs e rfl
  obtain rfl : r = 0 := Nat.lt_one_iff.mp hr
  exact ⟨rfl, rfl, by simpa [Cuts] using hY⟩

theorem Cuts.cutAbove_iff {sticky : Bool} {r h : Nat} {Y : ℝ} (hY : Cuts sticky r Y) (hs : sticky = true → h ≠ 0)
    (hr : r < 2 ^ h) : cutAbove sticky r h = true ↔ (2 : ℝ) ^ h / 2 < Y := by
  by_cases h0 : h = 0
  · subst h0
    obtain ⟨rfl, rfl, rfl⟩ := hY.zero hs hr
    simp [cutAbove, cutHalf]
  · have half : (2 : ℝ) ^ h / 2 = cutHalf h := by linarith [two_mul_cutHalf h0]
    rw [half, ← hY.above_iff, cutAbove, decide_eq_true h0, Bool.and_true]

theorem Cuts.cutTie_iff {sticky : Bool} {r h : Nat} {Y : ℝ} (hY : Cuts sticky r Y) (hs : sticky = true → h ≠ 0)
    (hr : r < 2 ^ h) : cutTie sticky r h = true ↔ Y = (2 : ℝ) ^ h / 2 := by
  by_cases h0 : h = 0
  · subst h0
    obtain ⟨rfl, rfl, rfl⟩ := hY.zero hs hr
    simp [cutTie]
  · have half : (2 : ℝ) ^ h / 2 = cutHalf h := by linarith [two_mul_cutHalf h0]
    rw [half, ← hY.tie_iff, cutTie, decide_eq_true h0, Bool.and_true]

/-- A number cut by h bits becomes the integer of the mode, and is inexact where that is not the number. -/
theorem roundCut_spec {mode : Mode} {neg sticky : Bool} {m h : Nat} {X : ℝ} (hs : sticky = true → h ≠ 0)
    (hX : Cuts sticky m (X * 2 ^ h)) :
    TakesNat (mode.under neg) X (roundCut mode neg sticky m h).1 ∧
      ((roundCut mode neg sticky m h).2 = true ↔ ((roundCut mode neg sticky m h).1 : ℝ) ≠ X) := by
  have rest := hX.rest (h := h)
  have hr : m % 2 ^ h < 2 ^ h := Nat.mod_lt _ (Nat.two_pow_pos h)
  have top : ((m % 2 ^ h : Nat) : ℝ) + 1 ≤ 2 ^ h := by exact_mod_cast hr
  have pos : (0 : ℝ) < 2 ^ h := pow_pos two_pos h
  have abv := rest.cutAbove_iff hs hr
  have tie := rest.cutTie_iff hs hr
  rw [roundCut_eq]
  generalize m / 2 ^ h = n at *
  generalize m % 2 ^ h = r at *
  generalize (2 : ℝ) ^ h = D at *
  have lo : (n : ℝ) ≤ X := le_of_mul_le_mul_right (by linarith [rest.le, (r.cast_nonneg : (0 : ℝ) ≤ r)]) pos
  have hi : X < n + 1 := lt_of_mul_lt_mul_right (by linarith [rest.lt]) pos.le
  have scale (a b : ℝ) : a < b ↔ a * D < b * D := (mul_lt_mul_iff_left₀ pos).symm
  have inx : (r != 0 || sticky) = true ↔ (n : ℝ) < X := by
    rw [rest.pos_iff, scale n]
    constructor <;> intro <;> linarith
  refine ⟨takesNat_of_cut lo hi inx ?_ ?_, ?_⟩
  · rw [abv, scale (n + 1 / 2)]
    constructor <;> intro <;> linarith
  · rw [tie, ← mul_left_inj' (a := X) pos.ne']
    constructor <;> intro <;> linarith
  · cases e : (r != 0 || sticky) with
    | false => simpa using lo.eq_or_lt.resolve_right fun l => by simp [inx.mpr l] at e
    | true =>
      have off (up : Bool) : ((if (true && up) = true then n + 1 else n : Nat) : ℝ) ≠ X := by
        cases up
        · exact (inx.mp e).ne
        · exact (Nat.cast_succ n).trans_ne hi.ne'
      exact ⟨fun _ => off _, fun _ => rfl⟩

/-! ## What a mode takes of a set of numbers (R94) -/

/-- Of the numbers of a set none lies between two neighbours. -/
def Between (S : ℝ → Prop) (lo hi : ℝ) : Prop := ∀ z, S z → |z| ≤ lo ∨ hi ≤ |z|

/-- Of two neighbours the mode takes one. -/
theorem TakesNat.eq_or_eq {mode : Mode} {X : ℝ} {n N : Nat} (h : TakesNat mode X n) (lo : (N : ℝ) ≤ X) (hi : X < N + 1) :
    n = N ∨ n = N + 1 := by
  have near : (N : ℝ) < n + 1 ∧ (n : ℝ) < N + 2 := by
    cases mode
    case rtz | rdn => exact ⟨by linarith [h.2], by linarith [h.1]⟩
    case rup => exact ⟨by linarith [h.1], by linarith [h.2]⟩
    case rne | rna =>
      have := abs_le.mp h.1
      exact ⟨by linarith, by linarith⟩
  have below : N < n + 1 := by exact_mod_cast near.1
  have above : n < N + 2 := by exact_mod_cast near.2
  omega

/-- The nearer of two neighbours is the nearest number of the set, and another one is as near on a tie alone. -/
theorem nearest_of_between {S : ℝ → Prop} {X Q : ℝ} {n N : Nat} (hQ : 0 < Q) (lo : (N : ℝ) ≤ X) (hi : X < N + 1)
    (hn : n = N ∨ n = N + 1) (near : |(n : ℝ) - X| ≤ 1 / 2) (gap : Between S (N * Q) ((N + 1) * Q)) {z : ℝ} (hz : S z) :
    |n * Q - X * Q| ≤ |z - X * Q| ∧ (|n * Q - X * Q| = |z - X * Q| → z ≠ n * Q → |(n : ℝ) - X| = 1 / 2) := by
  obtain ⟨w, rfl⟩ : ∃ w, z = w * Q := ⟨z / Q, by field_simp⟩
  have far : w ≤ N ∨ (N : ℝ) + 1 ≤ w := by
    have scale (a b : ℝ) : a * Q ≤ b * Q ↔ a ≤ b := mul_le_mul_iff_left₀ hQ
    obtain h | h := gap _ hz
    · exact .inl ((scale w N).mp ((le_abs_self _).trans h))
    · obtain h | h := le_abs.mp h
      · exact .inr ((scale _ w).mp h)
      · have : -w ≥ N + 1 := (scale _ (-w)).mp (by rwa [neg_mul])
        exact .inl (by linarith [(N.cast_nonneg : (0 : ℝ) ≤ N)])
  have dist (a : ℝ) : |a * Q - X * Q| = |a - X| * Q := by rw [← sub_mul, abs_mul, abs_of_pos hQ]
  have ne (h : w * Q ≠ n * Q) : w ≠ n := fun e => h (by rw [e])
  rw [dist, dist, mul_le_mul_iff_left₀ hQ, mul_left_inj' hQ.ne']
  have other : w ≤ N → |w - X| = X - w := fun h => by rw [abs_sub_comm, abs_of_nonneg (by linarith)]
  have beyond : (N : ℝ) + 1 ≤ w → |w - X| = w - X := fun h => abs_of_nonneg (by linarith)
  obtain rfl | rfl := hn
  · have own : |(n : ℝ) - X| = X - n := by rw [abs_sub_comm, abs_of_nonneg (by linarith)]
    rw [own] at near ⊢
    obtain h | h := far
    · rw [other h]
      exact ⟨by linarith, fun e d => absurd (by linarith) (ne d)⟩
    · rw [beyond h]
      exact ⟨by linarith, fun e _ => by linarith⟩
  · have own : |((N + 1 : Nat) : ℝ) - X| = N + 1 - X := by rw [Nat.cast_succ, abs_of_nonneg (by linarith)]
    rw [own] at near ⊢
    obtain h | h := far
    · rw [other h]
      exact ⟨by linarith, fun e _ => by linarith⟩
    · rw [beyond h]
      exact ⟨by linarith, fun e d => absurd (by push_cast; linarith) (ne d)⟩

/-- In a set that has no number between the two multiples next to X the mode takes the one that it takes of them. -/
theorem takes_pos {S : ℝ → Prop} {even : Prop} {mode : Mode} {X Q : ℝ} {n N : Nat} (hQ : 0 < Q) (lo : (N : ℝ) ≤ X)
    (hi : X < N + 1) (h : TakesNat mode X n) (hS : S (n * Q)) (gap : Between S (N * Q) ((N + 1) * Q))
    (he : n % 2 = 0 → even) : Takes mode S even (X * Q) (n * Q) := by
  have hn := h.eq_or_eq lo hi
  have hX : 0 ≤ X := N.cast_nonneg.trans lo
  have scale (a b : ℝ) : a * Q ≤ b * Q ↔ a ≤ b := mul_le_mul_iff_left₀ hQ
  have scale' (a b : ℝ) : a * Q < b * Q ↔ a < b := mul_lt_mul_iff_left₀ hQ
  -- what is rounded toward zero is the lower neighbour
  have down (le : (n : ℝ) ≤ X) (lt : X < n + 1) : n = N := hn.resolve_right fun e => by
    rw [e, Nat.cast_succ] at le
    linarith
  have below {z : ℝ} (hz : S z) (hx : |z| ≤ X * Q) : |z| ≤ N * Q :=
    (gap z hz).resolve_right fun g => by linarith [(scale' X (N + 1)).mpr hi]
  refine ⟨hS, ?_⟩
  cases mode
  case rtz =>
    obtain rfl := down h.1 h.2
    have n0 : 0 ≤ (n : ℝ) * Q := by positivity
    refine ⟨by positivity, ?_, fun z hz hx => ?_⟩
    · rw [abs_of_nonneg n0, abs_of_nonneg (by positivity)]
      exact (scale n X).mpr lo
    · rw [abs_of_nonneg (show 0 ≤ X * Q by positivity)] at hx
      exact (below hz hx).trans (le_abs_self _)
  case rdn =>
    obtain rfl := down h.1 h.2
    refine ⟨(scale n X).mpr lo, fun z hz hx => ?_⟩
    obtain neg | pos := le_or_gt z 0
    · exact neg.trans (by positivity)
    · exact (le_abs_self z).trans (below hz (by rwa [abs_of_pos pos]))
  case rup =>
    refine ⟨(scale X n).mpr h.1, fun z hz hx => ?_⟩
    have z0 : 0 ≤ z := (by positivity : 0 ≤ X * Q).trans hx
    have := gap z hz
    rw [abs_of_nonneg z0] at this
    obtain g | g := this
    · have : X = N := le_antisymm ((scale X N).mp (hx.trans g)) lo
      have : (n : ℝ) < N + 1 := this ▸ h.2
      have : n < N + 1 := by exact_mod_cast this
      obtain rfl : n = N := by omega
      exact (scale n X).mpr lo |>.trans hx
    · refine le_trans ((scale _ _).mpr ?_) g
      obtain rfl | rfl := hn
      · linarith
      · push_cast
        exact le_rfl
  case rne =>
    intro z hz
    obtain ⟨near, tie⟩ := nearest_of_between hQ lo hi hn h.1 gap hz
    exact ⟨near, fun e d => he (h.2 (tie e d))⟩
  case rna =>
    intro z hz
    obtain ⟨near, tie⟩ := nearest_of_between hQ lo hi hn h.1 gap hz
    refine ⟨near, fun e => ?_⟩
    by_cases d : z = n * Q
    · rw [d]
    have up : X * Q ≤ n * Q := (scale X n).mpr (h.2 (tie e d))
    have n0 : 0 ≤ (n : ℝ) * Q := by positivity
    rw [abs_of_nonneg (by linarith : 0 ≤ n * Q - X * Q)] at e
    rw [abs_of_nonneg n0]
    have x0 : 0 ≤ X * Q := by positivity
    obtain s | s := le_or_gt z (X * Q)
    · rw [abs_sub_comm, abs_of_nonneg (by linarith)] at e
      exact abs_le.mpr ⟨by linarith, by linarith⟩
    · rw [abs_of_nonneg (by linarith)] at e
      exact absurd (by linarith) d

theorem Takes.of_neg {S : ℝ → Prop} {even : Prop} {mode : Mode} {x y : ℝ} (sym : ∀ z, S z → S (-z))
    (h : Takes mode.flip S even (-x) (-y)) : Takes mode S even x y := by
  obtain ⟨mem, h⟩ := h
  refine ⟨by simpa using sym _ mem, ?_⟩
  have swap (a b : ℝ) : |-a - -b| = |a - b| := by rw [← abs_neg]; ring_nf
  cases mode
  case rtz =>
    simpa [Mode.flip] using h
  case rdn =>
    obtain ⟨le, best⟩ := h
    exact ⟨neg_le_neg_iff.mp le, fun z hz hx => neg_le_neg_iff.mp (best (-z) (sym z hz) (neg_le_neg hx))⟩
  case rup =>
    obtain ⟨le, best⟩ := h
    exact ⟨neg_le_neg_iff.mp le, fun z hz hx => neg_le_neg_iff.mp (best (-z) (sym z hz) (neg_le_neg hx))⟩
  case rne =>
    intro z hz
    have := h (-z) (sym z hz)
    rwa [swap, swap, ne_eq, neg_inj] at this
  case rna =>
    intro z hz
    have := h (-z) (sym z hz)
    rwa [swap, swap, abs_neg, abs_neg] at this

end Sys2Proof.Machine
end

section
/-! The encodings of a format: their magnitudes rise with them, and a value is decoded to its significand and exponent (R87). -/

namespace Sys2Proof.Machine

/-! ## The formats of the part (R86, R164) -/

/-- What every floating-point format of R86 has. -/
structure FpFmt.Ok (F : FpFmt) : Prop where
  mant : 1 ≤ F.mant
  exp : 2 ≤ F.exp

theorem viewFmt_ok (v : View) : (viewFmt v).Ok := by cases v <;> exact ⟨by decide, by decide⟩

theorem fmtOf_ok {code : BitVec 5} {G : FpFmt} (h : fmtOf code = .float G) : G.Ok := by
  unfold fmtOf at h
  split at h
  all_goals cases h
  all_goals exact ⟨by decide, by decide⟩

section Format
variable {F : FpFmt} (hF : F.Ok)

theorem FpFmt.maxBits_lt : F.maxBits < 2 ^ (F.exp + F.mant) := by
  have pe := Nat.two_pow_pos F.exp
  have pm := Nat.two_pow_pos F.mant
  have top : (2 ^ F.exp - 1) * 2 ^ F.mant < 2 ^ F.exp * 2 ^ F.mant := Nat.mul_lt_mul_of_pos_right (by omega) pm
  rw [← Nat.pow_add] at top
  unfold FpFmt.maxBits
  split <;> omega

include hF in
theorem FpFmt.pow_mant_le_maxBits : 2 ^ F.mant ≤ F.maxBits := by
  have four : 4 ≤ 2 ^ F.exp := Nat.pow_le_pow_right (n := 2) two_pos hF.exp
  have pm : 2 ≤ 2 ^ F.mant := Nat.pow_le_pow_right (n := 2) two_pos hF.mant
  have three : 3 * 2 ^ F.mant ≤ (2 ^ F.exp - 1) * 2 ^ F.mant := Nat.mul_le_mul_right _ (by omega)
  have all : 4 * 2 ^ F.mant ≤ 2 ^ (F.exp + F.mant) := by rw [Nat.pow_add]; exact Nat.mul_le_mul_right _ four
  unfold FpFmt.maxBits
  split <;> omega

/-! ## Magnitudes -/

/-- The exponent of the last place of the smallest numbers. -/
def FpFmt.qmin (F : FpFmt) : Int := 1 - F.bias - F.mant

/-- The magnitude of an encoding without its sign, as if the range of the format had no end. -/
noncomputable def FpFmt.magnitude (F : FpFmt) (k : Nat) : ℝ :=
  if k / 2 ^ F.mant = 0 then (k % 2 ^ F.mant : Nat) * (2 : ℝ) ^ F.qmin
  else (2 ^ F.mant + k % 2 ^ F.mant : Nat) * (2 : ℝ) ^ (F.qmin + (k / 2 ^ F.mant : Nat) - 1)

/-- An encoding of E places above the lowest with n in its last place: n has all bits of the precision, or stands lowest. -/
structure FpFmt.Placed (F : FpFmt) (E n : Nat) : Prop where
  lt : n < 2 ^ (F.mant + 1)
  full : 2 ^ F.mant ≤ n ∨ E = 0

/-- The encoding of such a number. -/
def FpFmt.place (F : FpFmt) (E n : Nat) : Nat := E * 2 ^ F.mant + n

/-- Every encoding is of that form. -/
theorem FpFmt.exists_place (F : FpFmt) (k : Nat) : ∃ E n, k = F.place E n ∧ F.Placed E n := by
  have split : 2 ^ F.mant * (k / 2 ^ F.mant) + k % 2 ^ F.mant = k := Nat.div_add_mod ..
  have lt : k % 2 ^ F.mant < 2 ^ F.mant := Nat.mod_lt _ (Nat.two_pow_pos _)
  cases h : k / 2 ^ F.mant with
  | zero =>
    refine ⟨0, k % 2 ^ F.mant, ?_, ?_, .inr rfl⟩
    · rw [h] at split
      rw [FpFmt.place]
      omega
    · rw [Nat.pow_succ]
      omega
  | succ E =>
    refine ⟨E, 2 ^ F.mant + k % 2 ^ F.mant, ?_, ?_, .inl (Nat.le_add_right ..)⟩
    · rw [h, Nat.mul_succ] at split
      rw [FpFmt.place, Nat.mul_comm]
      omega
    · rw [Nat.pow_succ]
      omega

/-- The exponent field and the fraction of an encoding of that form. -/
theorem FpFmt.place_fields {E n : Nat} (h : F.Placed E n) :
    (n < 2 ^ F.mant ∧ E = 0 ∧ F.place E n / 2 ^ F.mant = 0 ∧ F.place E n % 2 ^ F.mant = n) ∨
      (2 ^ F.mant ≤ n ∧ F.place E n / 2 ^ F.mant = E + 1 ∧ F.place E n % 2 ^ F.mant = n - 2 ^ F.mant) := by
  obtain ⟨lt, full⟩ := h
  rw [Nat.pow_succ] at lt
  have pm := Nat.two_pow_pos F.mant
  by_cases hn : n < 2 ^ F.mant
  · have hE := full.resolve_left (by omega)
    subst hE
    rw [FpFmt.place, Nat.zero_mul, Nat.zero_add]
    exact .inl ⟨hn, rfl, Nat.div_eq_of_lt hn, Nat.mod_eq_of_lt hn⟩
  · have form : F.place E n = (n - 2 ^ F.mant) + 2 ^ F.mant * (E + 1) := by
      rw [FpFmt.place, Nat.mul_succ, Nat.mul_comm]
      omega
    refine .inr ⟨by omega, ?_, ?_⟩
    · rw [form, Nat.add_mul_div_left _ _ pm, Nat.div_eq_of_lt (by omega), Nat.zero_add]
    · rw [form, Nat.add_mul_mod_self_left, Nat.mod_eq_of_lt (by omega)]

theorem FpFmt.magnitude_place {E n : Nat} (h : F.Placed E n) : F.magnitude (F.place E n) = n * (2 : ℝ) ^ (F.qmin + E) := by
  obtain ⟨-, hE, hd, hm⟩ | ⟨hn, hd, hm⟩ := FpFmt.place_fields h
  · rw [FpFmt.magnitude, hd, hm, if_pos rfl, hE]
    simp
  · rw [FpFmt.magnitude, hd, hm, if_neg (Nat.succ_ne_zero E), Nat.add_sub_cancel' hn, Nat.cast_succ, ← add_assoc, add_sub_cancel_right]

/-- So it is where the number has rounded up to the next power of two. -/
theorem FpFmt.magnitude_place' {E n : Nat} (hn : n ≤ 2 ^ (F.mant + 1)) (full : 2 ^ F.mant ≤ n ∨ E = 0) :
    F.magnitude (F.place E n) = n * (2 : ℝ) ^ (F.qmin + E) := by
  obtain lt | rfl := Nat.lt_or_eq_of_le hn
  · exact FpFmt.magnitude_place ⟨lt, full⟩
  · have next : F.place E (2 ^ (F.mant + 1)) = F.place (E + 1) (2 ^ F.mant) := by
      rw [FpFmt.place, FpFmt.place, Nat.pow_succ]
      ring
    rw [next, FpFmt.magnitude_place ⟨Nat.pow_lt_pow_right (by decide) (Nat.lt_succ_self _), .inl le_rfl⟩, Nat.cast_succ,
      ← add_assoc, zpow_add_one₀ two_ne_zero]
    push_cast
    ring

theorem FpFmt.magnitude_strictMono (F : FpFmt) : StrictMono F.magnitude := by
  refine strictMono_nat_of_lt_succ fun k => ?_
  obtain ⟨E, n, rfl, h⟩ := F.exists_place k
  have full : 2 ^ F.mant ≤ n + 1 ∨ E = 0 := h.full.imp_left fun l => l.trans (Nat.le_succ n)
  rw [show F.place E n + 1 = F.place E (n + 1) from rfl, FpFmt.magnitude_place h, FpFmt.magnitude_place' h.lt full]
  exact mul_lt_mul_of_pos_right (by exact_mod_cast Nat.lt_succ_self n) (zpow_pos two_pos _)

theorem FpFmt.magnitude_zero (F : FpFmt) : F.magnitude 0 = 0 := by simp [FpFmt.magnitude]

theorem FpFmt.magnitude_nonneg (F : FpFmt) (k : Nat) : 0 ≤ F.magnitude k :=
  F.magnitude_zero ▸ F.magnitude_strictMono.monotone (Nat.zero_le k)

/-! ## Decoding (R87, R88) -/

/-- The real number of a sign, a magnitude and an exponent. -/
noncomputable def finVal (neg : Bool) (m : Nat) (e : Int) : ℝ := (if neg then -1 else 1) * (m : ℝ) * (2 : ℝ) ^ e

theorem FV.is_fin {neg : Bool} {m : Nat} {e : Int} {x : ℝ} : (FV.fin neg m e).Is x ↔ x = finVal neg m e := Iff.rfl

theorem FV.Is.eq_fin {v : FV} {x : ℝ} (h : v.Is x) : ∃ neg m e, v = .fin neg m e ∧ x = finVal neg m e := by
  cases v with
  | fin neg m e => exact ⟨neg, m, e, rfl, h⟩
  | nan | inf => exact h.elim

theorem abs_finVal (neg : Bool) (m : Nat) (e : Int) : |finVal neg m e| = m * (2 : ℝ) ^ e := by
  have : (0 : ℝ) ≤ m * (2 : ℝ) ^ e := by positivity
  cases neg <;> simp [finVal, abs_of_nonneg this]

/-- The fields of an encoding with its sign. -/
theorem FpFmt.decode_fields (F : FpFmt) (b : Nat) :
    b / 2 ^ F.mant % 2 ^ F.exp = b % 2 ^ (F.exp + F.mant) / 2 ^ F.mant ∧
      b % 2 ^ F.mant = b % 2 ^ (F.exp + F.mant) % 2 ^ F.mant := by
  constructor
  · rw [Nat.add_comm, Nat.pow_add, Nat.mod_mul_right_div_self]
  · rw [Nat.pow_add, Nat.mod_mul_left_mod]

/-- The sign of an encoding. -/
def FpFmt.negative (F : FpFmt) (b : Nat) : Bool := decide (b / 2 ^ (F.mant + F.exp) % 2 = 1)

/-- All ones in the exponent and the fraction. -/
theorem FpFmt.allOnes (F : FpFmt) : 2 ^ F.mant * (2 ^ F.exp - 1) + (2 ^ F.mant - 1) = 2 ^ (F.exp + F.mant) - 1 := by
  have pm := Nat.two_pow_pos F.mant
  have le : 2 ^ F.mant * 1 ≤ 2 ^ F.mant * 2 ^ F.exp := Nat.mul_le_mul_left _ (Nat.two_pow_pos F.exp)
  rw [Nat.mul_sub, Nat.mul_one, ← Nat.pow_add, Nat.add_comm F.mant]
  rw [← Nat.pow_add, Nat.add_comm F.mant] at le
  omega

include hF in
/-- An encoding up to the largest finite one is decoded to its significand and exponent. -/
theorem FpFmt.decode_place {b E n : Nat} (h : F.Placed E n) (hb : b % 2 ^ (F.exp + F.mant) = F.place E n)
    (hm : F.place E n ≤ F.maxBits) : F.decode b = .fin (F.negative b) n (F.qmin + E) := by
  have pm := Nat.two_pow_pos F.mant
  have four : 2 ^ 1 < 2 ^ F.exp := Nat.pow_lt_pow_right (by decide) hF.exp
  have expPos := hF.exp
  obtain ⟨e1, e2⟩ := F.decode_fields b
  have split : 2 ^ F.mant * (F.place E n / 2 ^ F.mant) + F.place E n % 2 ^ F.mant = F.place E n := Nat.div_add_mod ..
  have ieee : ¬ (F.place E n / 2 ^ F.mant = 2 ^ F.exp - 1 ∧ F.specials = .ieee) := by
    rintro ⟨top, spec⟩
    have last : F.maxBits = (2 ^ F.exp - 1) * 2 ^ F.mant - 1 := by rw [FpFmt.maxBits, spec]
    have one : 1 * 2 ^ F.mant ≤ (2 ^ F.exp - 1) * 2 ^ F.mant := Nat.mul_le_mul_right _ (by omega)
    rw [top, Nat.mul_comm] at split
    generalize (2 ^ F.exp - 1) * 2 ^ F.mant = t at *
    omega
  have alone : ¬ (F.place E n / 2 ^ F.mant = 2 ^ F.exp - 1 ∧ F.specials = .nanOnly ∧
      F.place E n % 2 ^ F.mant = 2 ^ F.mant - 1) := by
    rintro ⟨top, spec, frac⟩
    have last : F.maxBits = 2 ^ (F.exp + F.mant) - 2 := by rw [FpFmt.maxBits, spec]
    rw [top, frac, FpFmt.allOnes] at split
    have two : 2 ^ 1 ≤ 2 ^ (F.exp + F.mant) := Nat.pow_le_pow_right two_pos (by omega)
    generalize 2 ^ (F.exp + F.mant) = t at *
    omega
  simp only [FpFmt.decode, e1, e2, hb, if_neg ieee, if_neg alone]
  obtain ⟨-, hE, hd, hr⟩ | ⟨hn, hd, hr⟩ := FpFmt.place_fields h
  · rw [hd, hr, if_pos rfl, hE]
    simp [FpFmt.negative, FpFmt.qmin]
  · rw [hd, hr, if_neg (Nat.succ_ne_zero E), Nat.add_sub_cancel' hn]
    refine congrArg _ ?_
    rw [FpFmt.qmin]
    push_cast
    ring

/-- Beyond the largest finite encoding there are infinities and NaNs alone. -/
theorem FpFmt.decode_special (hm : F.maxBits < b % 2 ^ (F.exp + F.mant)) (x : ℝ) : ¬ (F.decode b).Is x := by
  have pm := Nat.two_pow_pos F.mant
  have pe := Nat.two_pow_pos F.exp
  obtain ⟨e1, e2⟩ := F.decode_fields b
  have lt : b % 2 ^ (F.exp + F.mant) < 2 ^ (F.exp + F.mant) := Nat.mod_lt _ (Nat.two_pow_pos _)
  generalize b % 2 ^ (F.exp + F.mant) = low at *
  have split : 2 ^ F.mant * (low / 2 ^ F.mant) + low % 2 ^ F.mant = low := Nat.div_add_mod ..
  have rest : low % 2 ^ F.mant < 2 ^ F.mant := Nat.mod_lt _ pm
  have exp : low / 2 ^ F.mant < 2 ^ F.exp := Nat.div_lt_of_lt_mul (by rwa [← Nat.pow_add, Nat.add_comm])
  cases spec : F.specials with
  | ieee =>
    have last : F.maxBits = (2 ^ F.exp - 1) * 2 ^ F.mant - 1 := by rw [FpFmt.maxBits, spec]
    have top : 2 ^ F.exp - 1 ≤ low / 2 ^ F.mant := (Nat.le_div_iff_mul_le pm).mpr (by omega)
    have top' : low / 2 ^ F.mant = 2 ^ F.exp - 1 := by omega
    simp only [FpFmt.decode, e1, e2, top', spec, and_self, if_true]
    split <;> exact fun h => h
  | nanOnly =>
    have last : F.maxBits = 2 ^ (F.exp + F.mant) - 2 := by rw [FpFmt.maxBits, spec]
    have ones := F.allOnes
    have top : low / 2 ^ F.mant = 2 ^ F.exp - 1 := by
      refine Nat.le_antisymm (by omega) ((Nat.le_div_iff_mul_le pm).mpr ?_)
      rw [Nat.mul_comm]
      omega
    have frac : low % 2 ^ F.mant = 2 ^ F.mant - 1 := by
      rw [top] at split
      omega
    simp only [FpFmt.decode, e1, e2, top, frac, spec, and_self, if_true, reduceCtorEq, and_false, if_false]
    exact fun h => h
  | none =>
    have last : F.maxBits = 2 ^ (F.exp + F.mant) - 1 := by rw [FpFmt.maxBits, spec]
    omega

include hF in
/-- The finite values of a format are the magnitudes of its encodings with their signs. -/
theorem FpFmt.Holds.abs_eq {b : Nat} {z : ℝ} (h : F.Holds b z) :
    |z| = F.magnitude (b % 2 ^ (F.exp + F.mant)) ∧ b % 2 ^ (F.exp + F.mant) ≤ F.maxBits := by
  obtain ⟨E, n, hp, placed⟩ := F.exists_place (b % 2 ^ (F.exp + F.mant))
  have within : b % 2 ^ (F.exp + F.mant) ≤ F.maxBits := not_lt.mp fun l => FpFmt.decode_special l z h.2
  have val := h.2
  rw [FpFmt.decode_place hF placed hp (hp ▸ within), FV.is_fin] at val
  exact ⟨by rw [val, abs_finVal, hp, FpFmt.magnitude_place placed], within⟩

end Format

end Sys2Proof.Machine
end

section
/-! A real number rounded once to a format (R94, R96 to R98). -/

namespace Sys2Proof.Machine

/-! ## The leading bit -/

theorem bitLen_pos {m : Nat} (h : m ≠ 0) : bitLen m = m.log2 + 1 := if_neg h

theorem pow_bitLen_le {m : Nat} (h : m ≠ 0) : 2 ^ (bitLen m - 1) ≤ m := by
  rw [bitLen_pos h]
  exact Nat.log2_self_le h

theorem lt_pow_bitLen (m : Nat) : m < 2 ^ bitLen m := by
  by_cases h : m = 0
  · simp [h, bitLen]
  · rw [bitLen_pos h]
    exact Nat.lt_log2_self

theorem lt_bitLen_of_pow_le {m k : Nat} (h : 2 ^ k ≤ m) : k < bitLen m :=
  (Nat.pow_lt_pow_iff_right (by decide)).mp (h.trans_lt (lt_pow_bitLen m))

theorem bitLen_le_of_lt {m k : Nat} (h : m < 2 ^ k) : bitLen m ≤ k := by
  by_cases h0 : m = 0
  · simp [h0, bitLen]
  · have := (Nat.pow_lt_pow_iff_right (by decide)).mp ((pow_bitLen_le h0).trans_lt h)
    omega

/-- A number at the quantum 2^q, and whether it is exact there, where what is cut off takes a bit at least of a number with a part left
out. -/
theorem roundAt_spec {sticky : Bool} {m : Nat} {e q : Int} {A : ℝ} {mode : Mode} {neg : Bool}
    (cuts : Cuts sticky m (A / (2 : ℝ) ^ e)) (hq : sticky = true → e < q) :
    TakesNat (mode.under neg) (A / (2 : ℝ) ^ q) (roundAt mode neg sticky m e q).1 ∧
      ((roundAt mode neg sticky m e q).2 = true ↔ ((roundAt mode neg sticky m e q).1 : ℝ) ≠ A / (2 : ℝ) ^ q) := by
  unfold roundAt
  split_ifs with hqe
  · have exact_ : sticky = false := Bool.eq_false_iff.mpr fun hs => by have := hq hs; omega
    rw [exact_, Cuts, if_neg (by simp)] at cuts
    have val : A / (2 : ℝ) ^ q = (m * 2 ^ (e - q).toNat : Nat) := by
      have le : ((e - q).toNat : Int) = e - q := Int.toNat_of_nonneg (by omega)
      have pow : (2 : ℝ) ^ (e - q).toNat = (2 : ℝ) ^ (e - q) := by rw [← zpow_natCast, le]
      push_cast
      rw [pow, zpow_sub₀ two_ne_zero, ← cuts]
      have := (zpow_pos (two_pos (α := ℝ)) e).ne'
      field_simp
    rw [val, exact_]
    refine ⟨?_, by simp⟩
    cases mode.under neg <;> simp [TakesNat]
  · have le : ((q - e).toNat : Int) = q - e := Int.toNat_of_nonneg (by omega)
    refine roundCut_spec (fun hs => by omega) ?_
    have pow : (2 : ℝ) ^ (q - e).toNat = (2 : ℝ) ^ (q - e) := by rw [← zpow_natCast, le]
    have scale : A / (2 : ℝ) ^ q * (2 : ℝ) ^ (q - e).toNat = A / (2 : ℝ) ^ e := by
      rw [pow, zpow_sub₀ two_ne_zero]
      have := (zpow_pos (two_pos (α := ℝ)) q).ne'
      field_simp
    rw [scale]
    exact cuts

/-- The exponent of the leading bit of m x 2^e. -/
def leadOf (m : Nat) (e : Int) : Int := bitLen m - 1 + e

/-- A magnitude is m x 2^e, or less than 2^e above it where a part of it is left out, which is below what is to be cut off. -/
structure Stands (F : FpFmt) (sticky : Bool) (m : Nat) (e : Int) (A : ℝ) : Prop where
  pos : 0 < A
  cuts : Cuts sticky m (A / (2 : ℝ) ^ e)
  wide : sticky = true → 2 ^ (F.mant + 1) ≤ m

section Stands
variable {F : FpFmt} {sticky : Bool} {m : Nat} {e : Int} {A : ℝ} (h : Stands F sticky m e A)
include h

theorem Stands.ne_zero : m ≠ 0 := by
  rintro rfl
  cases sticky with
  | true =>
    have := h.wide rfl
    have := Nat.two_pow_pos (F.mant + 1)
    omega
  | false => exact (div_pos h.pos (zpow_pos two_pos e)).ne' (by simpa [Cuts] using h.cuts)

theorem Stands.lead_le : (2 : ℝ) ^ leadOf m e ≤ A := by
  have hm := h.ne_zero
  rw [leadOf, zpow_add₀ two_ne_zero, bitLen_pos hm, Nat.cast_succ, add_sub_cancel_right, zpow_natCast]
  refine le_trans ?_ ((le_div_iff₀ (zpow_pos two_pos e)).mp h.cuts.le)
  exact mul_le_mul_of_nonneg_right (by exact_mod_cast Nat.log2_self_le hm) (zpow_pos two_pos e).le

theorem Stands.lt_lead : A < (2 : ℝ) ^ (leadOf m e + 1) := by
  rw [leadOf, add_right_comm, sub_add_cancel, zpow_add₀ two_ne_zero, zpow_natCast]
  refine ((div_lt_iff₀ (zpow_pos two_pos e)).mp h.cuts.lt).trans_le ?_
  exact mul_le_mul_of_nonneg_right (by exact_mod_cast lt_pow_bitLen m) (zpow_pos two_pos e).le

/-- What is cut off takes at least one bit where a part is left out. -/
theorem Stands.lt_of_sticky (hs : sticky = true) {q : Int} (hq : leadOf m e - F.mant ≤ q) : e < q := by
  have := lt_bitLen_of_pow_le (h.wide hs)
  rw [leadOf] at hq
  omega

/-- The number at the quantum 2^q, and whether it is exact there. -/
theorem Stands.roundAt_spec {mode : Mode} {neg : Bool} {q : Int} (hq : leadOf m e - F.mant ≤ q) :
    TakesNat (mode.under neg) (A / (2 : ℝ) ^ q) (roundAt mode neg sticky m e q).1 ∧
      ((roundAt mode neg sticky m e q).2 = true ↔ ((roundAt mode neg sticky m e q).1 : ℝ) ≠ A / (2 : ℝ) ^ q) :=
  Machine.roundAt_spec h.cuts fun hs => h.lt_of_sticky hs hq

end Stands

/-! ## Signs -/

theorem abs_sign_mul {x a : ℝ} (ha : 0 ≤ a) : |(if x < 0 then -1 else 1) * a| = a := by
  split <;> simp [abs_of_nonneg ha]

/-- The sign of a nonzero number and its magnitude. -/
theorem sign_mul_abs (x : ℝ) : (if x < 0 then -1 else 1) * |x| = x := by
  split_ifs with h
  · rw [abs_of_neg h]
    ring
  · rw [abs_of_nonneg (not_lt.mp h), one_mul]

theorem finVal_decide (x : ℝ) (n : Nat) (q : Int) :
    finVal (decide (x < 0)) n q = (if x < 0 then -1 else 1) * (n * (2 : ℝ) ^ q) := by
  simp [finVal]

/-- The mode takes of a set, closed under the change of the sign, what it takes of the two multiples next to the number. -/
theorem takes_signed {S : ℝ → Prop} {even : Prop} {mode : Mode} {x Q : ℝ} {n : Nat} (hQ : 0 < Q)
    (sym : ∀ z, S z → S (-z)) (h : TakesNat (mode.under (decide (x < 0))) (|x| / Q) n)
    (hS : S ((if x < 0 then -1 else 1) * (n * Q))) (gap : ∀ N : Nat, (N : ℝ) ≤ |x| / Q → |x| / Q < N + 1 → Between S (N * Q) ((N + 1) * Q))
    (he : n % 2 = 0 → even) : Takes mode S even x ((if x < 0 then -1 else 1) * (n * Q)) := by
  have lo := Nat.floor_le (div_nonneg (abs_nonneg x) hQ.le)
  have hi := Nat.lt_floor_add_one (|x| / Q)
  have cancel : |x| / Q * Q = |x| := div_mul_cancel₀ _ hQ.ne'
  split_ifs at hS ⊢ with neg
  · refine Takes.of_neg sym ?_
    rw [neg_one_mul, neg_neg, ← abs_of_neg neg, ← cancel]
    simp only [neg, decide_true, Mode.under, if_true] at h
    exact takes_pos hQ lo hi h (by simpa using sym _ hS) (gap _ lo hi) he
  · rw [one_mul] at hS ⊢
    simp only [neg, decide_false, Mode.under, Bool.false_eq_true, if_false] at h
    have := takes_pos hQ lo hi h hS (gap _ lo hi) he
    rwa [cancel, abs_of_nonneg (not_lt.mp neg)] at this

/-! ## The finite values of a format -/

section Format
variable {F : FpFmt} (hF : F.Ok)

theorem FpFmt.width_eq (F : FpFmt) : 2 ^ F.width = 2 * 2 ^ (F.exp + F.mant) := by
  rw [FpFmt.width, Nat.add_assoc, Nat.pow_add, Nat.pow_one]

theorem FpFmt.signBit_eq (F : FpFmt) (neg : Bool) : F.signBit neg = 2 ^ (F.exp + F.mant) * (if neg then 1 else 0) := by
  cases neg <;> simp [FpFmt.signBit]

/-- The sign bit and the rest of an encoding. -/
theorem FpFmt.signed_fields (F : FpFmt) {neg : Bool} {k : Nat} (hk : k < 2 ^ (F.exp + F.mant)) :
    (F.signBit neg + k) % 2 ^ (F.exp + F.mant) = k ∧ F.negative (F.signBit neg + k) = neg ∧
      (F.signBit neg + k) / 2 ^ (F.exp + F.mant) = (if neg then 1 else 0) ∧ F.signBit neg + k < 2 ^ F.width := by
  have div : (F.signBit neg + k) / 2 ^ (F.exp + F.mant) = if neg then 1 else 0 := by
    rw [FpFmt.signBit_eq, Nat.mul_add_div (Nat.two_pow_pos _), Nat.div_eq_of_lt hk, Nat.add_zero]
  refine ⟨?_, ?_, div, ?_⟩
  · rw [FpFmt.signBit_eq, Nat.mul_add_mod, Nat.mod_eq_of_lt hk]
  · rw [FpFmt.negative, Nat.add_comm F.mant, div]
    cases neg <;> rfl
  · rw [F.width_eq, F.signBit_eq]
    cases neg <;> simp <;> omega

include hF

/-- A number in its place and a sign are held by the encoding of both, up to the largest finite one. -/
theorem FpFmt.holds_place {neg : Bool} {E n : Nat} (h : F.Placed E n) (hm : F.place E n ≤ F.maxBits) :
    F.Holds (F.signBit neg + F.place E n) (finVal neg n (F.qmin + E)) := by
  obtain ⟨low, sign, -, lt⟩ := F.signed_fields (neg := neg) (hm.trans_lt FpFmt.maxBits_lt)
  exact ⟨lt, by rw [FpFmt.decode_place hF h low hm, sign]; rfl⟩

/-- So is one that has rounded up to the next power of two. -/
theorem FpFmt.holds_place' {neg : Bool} {E n : Nat} (hn : n ≤ 2 ^ (F.mant + 1)) (full : 2 ^ F.mant ≤ n ∨ E = 0)
    (hm : F.place E n ≤ F.maxBits) : F.Holds (F.signBit neg + F.place E n) (finVal neg n (F.qmin + E)) := by
  obtain lt | rfl := Nat.lt_or_eq_of_le hn
  · exact FpFmt.holds_place hF ⟨lt, full⟩ hm
  · have next : F.place E (2 ^ (F.mant + 1)) = F.place (E + 1) (2 ^ F.mant) := by
      rw [FpFmt.place, FpFmt.place, Nat.pow_succ]
      ring
    have val : finVal neg (2 ^ (F.mant + 1)) (F.qmin + E) = finVal neg (2 ^ F.mant) (F.qmin + (E + 1 : Nat)) := by
      rw [finVal, finVal, Nat.cast_succ, ← add_assoc, zpow_add_one₀ two_ne_zero]
      push_cast
      ring
    rw [next] at hm ⊢
    rw [val]
    exact FpFmt.holds_place hF ⟨Nat.pow_lt_pow_right (by decide) (Nat.lt_succ_self _), .inl le_rfl⟩ hm

theorem FpFmt.Holds.neg {b : Nat} {z : ℝ} (h : F.Holds b z) : ∃ b', F.Holds b' (-z) := by
  obtain ⟨E, n, hp, placed⟩ := F.exists_place (b % 2 ^ (F.exp + F.mant))
  obtain ⟨-, within⟩ := FpFmt.Holds.abs_eq hF h
  have val := h.2
  rw [FpFmt.decode_place hF placed hp (hp ▸ within), FV.is_fin] at val
  have opposite : -finVal (F.negative b) n (F.qmin + E) = finVal (!F.negative b) n (F.qmin + E) := by
    cases F.negative b <;> simp [finVal]
  rw [val, opposite]
  exact ⟨_, FpFmt.holds_place hF placed (hp ▸ within)⟩

/-- The value of the largest finite encoding. -/
theorem FpFmt.top_eq {top : ℝ} (h : F.Holds F.maxBits top) : top = F.magnitude F.maxBits := by
  obtain ⟨E, n, hp, placed⟩ := F.exists_place F.maxBits
  have low : F.maxBits % 2 ^ (F.exp + F.mant) = F.maxBits := Nat.mod_eq_of_lt FpFmt.maxBits_lt
  have sign : F.negative F.maxBits = false := by
    rw [FpFmt.negative, Nat.add_comm F.mant, Nat.div_eq_of_lt FpFmt.maxBits_lt]
    rfl
  have val := h.2
  rw [FpFmt.decode_place hF placed (low.trans hp) hp.ge, FV.is_fin, sign] at val
  rw [val, hp, FpFmt.magnitude_place placed]
  simp [finVal]

/-- No finite value of the format lies between the neighbours of a number in its place. -/
theorem FpFmt.between_holds {E N : Nat} (h : F.Placed E N) :
    Between (fun z => ∃ b, F.Holds b z) (N * (2 : ℝ) ^ (F.qmin + E)) ((N + 1) * (2 : ℝ) ^ (F.qmin + E)) := by
  rintro z ⟨b, hb⟩
  obtain ⟨val, -⟩ := FpFmt.Holds.abs_eq hF hb
  have full : 2 ^ F.mant ≤ N + 1 ∨ E = 0 := h.full.imp_left fun l => l.trans (Nat.le_succ N)
  have above := FpFmt.magnitude_place' (F := F) h.lt full
  rw [val, ← FpFmt.magnitude_place h, ← Nat.cast_succ, ← above]
  obtain l | l := Nat.lt_or_ge (F.place E N) (b % 2 ^ (F.exp + F.mant))
  · exact .inr (F.magnitude_strictMono.monotone l)
  · exact .inl (F.magnitude_strictMono.monotone l)

end Format

/-! ## The values of a precision -/

theorem FpFmt.Precise.neg {F : FpFmt} {z : ℝ} (h : F.Precise z) : F.Precise (-z) := by
  obtain ⟨k, e, hk, hz⟩ := h
  exact ⟨k, e, hk, by rwa [abs_neg]⟩

/-- No value of the precision lies between neighbours of full precision. -/
theorem FpFmt.between_precise {F : FpFmt} {N : Nat} (q : Int) (h : 2 ^ F.mant ≤ N) :
    Between F.Precise (N * (2 : ℝ) ^ q) ((N + 1) * (2 : ℝ) ^ q) := by
  rintro z ⟨k, e, hk, hz⟩
  rw [hz]
  have pos := zpow_pos (two_pos (α := ℝ)) q
  obtain hq | hq := le_or_gt q e
  · have le : ((e - q).toNat : Int) = e - q := Int.toNat_of_nonneg (by omega)
    have mult : (k : ℝ) * (2 : ℝ) ^ e = (k * 2 ^ (e - q).toNat : Nat) * (2 : ℝ) ^ q := by
      push_cast
      rw [mul_assoc, ← zpow_natCast, le, ← zpow_add₀ two_ne_zero, sub_add_cancel]
    rw [mult]
    obtain l | l := Nat.lt_or_ge N (k * 2 ^ (e - q).toNat)
    · exact .inr (mul_le_mul_of_nonneg_right (by exact_mod_cast l) pos.le)
    · exact .inl (mul_le_mul_of_nonneg_right (by exact_mod_cast l) pos.le)
  · left
    calc (k : ℝ) * (2 : ℝ) ^ e ≤ (2 ^ (F.mant + 1) : Nat) * (2 : ℝ) ^ (q - 1) := by
          gcongr
          · norm_num
          · omega
      _ = (2 ^ F.mant : Nat) * (2 : ℝ) ^ q := by
          rw [zpow_sub_one₀ two_ne_zero]
          push_cast
          ring
      _ ≤ N * (2 : ℝ) ^ q := by gcongr

end Sys2Proof.Machine
end

section
/-! The one rounding of the part is the rounding of R94, R96 and R98. -/

namespace Sys2Proof.Machine

section Rounding
variable {F : FpFmt} {mode : Mode} {sticky : Bool} {m : Nat} {e : Int} {x : ℝ}

/-- The quantum of the format's precision at the number, and the format's own, which is not below the smallest. -/
def FpFmt.quantum (F : FpFmt) (m : Nat) (e : Int) : Int := leadOf m e - F.mant
def FpFmt.quantumIn (F : FpFmt) (m : Nat) (e : Int) : Int := max (F.quantum m e) F.qmin
/-- How many places it stands above the smallest. -/
def FpFmt.level (F : FpFmt) (m : Nat) (e : Int) : Nat := (F.quantumIn m e - F.qmin).toNat

theorem FpFmt.quantumIn_eq (F : FpFmt) (m : Nat) (e : Int) : F.quantumIn m e = F.qmin + F.level m e := by
  rw [FpFmt.level, FpFmt.quantumIn]
  omega

theorem FpFmt.quantum_le (F : FpFmt) (m : Nat) (e : Int) : leadOf m e - F.mant ≤ F.quantumIn m e := le_max_left ..

/-- The rounding, in its parts. -/
theorem FpFmt.roundFin_eq (F : FpFmt) (mode : Mode) (neg : Bool) {m : Nat} (e : Int) (sticky : Bool) (hm : m ≠ 0) :
    F.roundFin mode neg m e sticky =
      let r := roundAt mode neg sticky m e (F.quantumIn m e)
      let nx : Flags := if r.2 then flagNX else 0
      if F.maxBits < F.place (F.level m e) r.1 then (F.overflow mode neg, flagOF ||| flagNX)
      else
        let tiny := decide (F.quantum m e < F.qmin) && (decide (F.quantum m e + 1 < F.qmin) ||
          decide ((roundAt mode neg sticky m e (F.quantum m e)).1 < 2 ^ (F.mant + 1)))
        (F.signBit neg + F.place (F.level m e) r.1, if tiny && r.2 then flagUF ||| nx else nx) := by
  rw [FpFmt.roundFin, if_neg (fun h => hm h.1)]
  rfl

/-- The bits of UF and NX alone. -/
theorem tinyFlags_bits (tiny inexact : Bool) :
    let fl : Flags := if tiny && inexact then flagUF ||| (if inexact then flagNX else 0) else (if inexact then flagNX else 0)
    fl.getLsbD 0 = inexact ∧ fl.getLsbD 1 = (tiny && inexact) ∧
      (fl.getLsbD 2, fl.getLsbD 3, fl.getLsbD 4) = (false, false, false) := by
  cases tiny <;> cases inexact <;> decide

variable (h : Stands F sticky m e |x|)
include h

/-- The number in units of the precision's quantum has exactly the bits of the precision before the point. -/
theorem Stands.unit_bounds : (2 ^ F.mant : ℝ) ≤ |x| / (2 : ℝ) ^ F.quantum m e ∧ |x| / (2 : ℝ) ^ F.quantum m e < 2 ^ (F.mant + 1) := by
  have pos := zpow_pos (two_pos (α := ℝ)) (F.quantum m e)
  rw [le_div_iff₀ pos, div_lt_iff₀ pos, ← zpow_natCast, ← zpow_natCast, ← zpow_add₀ two_ne_zero, ← zpow_add₀ two_ne_zero]
  have one : (F.mant : Int) + F.quantum m e = leadOf m e := by rw [FpFmt.quantum]; ring
  have two : ((F.mant + 1 : Nat) : Int) + F.quantum m e = leadOf m e + 1 := by rw [FpFmt.quantum]; push_cast; ring
  rw [one, two]
  exact ⟨h.lead_le, h.lt_lead⟩

/-- The integer part of the number in units of a quantum. -/
theorem Stands.floor_unit {N : Nat} (lo : (N : ℝ) ≤ |x| / (2 : ℝ) ^ F.quantum m e) (hi : |x| / (2 : ℝ) ^ F.quantum m e < N + 1) :
    2 ^ F.mant ≤ N ∧ N < 2 ^ (F.mant + 1) := by
  obtain ⟨below, above⟩ := h.unit_bounds
  have one : (2 ^ F.mant : Nat) < N + 1 := by exact_mod_cast below.trans_lt hi
  have two : N < (2 ^ (F.mant + 1) : Nat) := by exact_mod_cast lo.trans_lt above
  exact ⟨by omega, two⟩

/-- The same in units of the format's own quantum. -/
theorem Stands.floor_unitIn {N : Nat} (lo : (N : ℝ) ≤ |x| / (2 : ℝ) ^ F.quantumIn m e)
    (hi : |x| / (2 : ℝ) ^ F.quantumIn m e < N + 1) : F.Placed (F.level m e) N := by
  obtain eq | lt := (le_max_left (F.quantum m e) F.qmin).eq_or_lt
  · rw [FpFmt.quantumIn, ← eq] at lo hi
    obtain ⟨below, above⟩ := h.floor_unit lo hi
    exact ⟨above, .inl below⟩
  · have lowest : F.quantumIn m e = F.qmin := by rw [FpFmt.quantumIn]; omega
    refine ⟨?_, .inr (by rw [FpFmt.level, lowest]; omega)⟩
    have small : |x| / (2 : ℝ) ^ F.quantumIn m e ≤ |x| / (2 : ℝ) ^ F.quantum m e := by
      gcongr
      · norm_num
      · exact lt.le
    exact_mod_cast (lo.trans small).trans_lt h.unit_bounds.2

/-- The significand that the mode takes in units of a quantum lies next to the number. -/
theorem Stands.rounded_le {neg : Bool} :
    (roundAt mode neg sticky m e (F.quantumIn m e)).1 ≤ 2 ^ (F.mant + 1) ∧
      (2 ^ F.mant ≤ (roundAt mode neg sticky m e (F.quantumIn m e)).1 ∨ F.level m e = 0) := by
  have pos := div_nonneg (abs_nonneg x) (zpow_pos (two_pos (α := ℝ)) (F.quantumIn m e)).le
  have lo := Nat.floor_le pos
  have hi := Nat.lt_floor_add_one (|x| / (2 : ℝ) ^ F.quantumIn m e)
  have near := (h.roundAt_spec (mode := mode) (neg := neg) (F.quantum_le m e)).1.eq_or_eq lo hi
  have ⟨lt, full⟩ := h.floor_unitIn lo hi
  exact ⟨by omega, full.imp_left fun l => by omega⟩

theorem Stands.rounded_unit {neg : Bool} :
    2 ^ F.mant ≤ (roundAt mode neg sticky m e (F.quantum m e)).1 ∧
      (roundAt mode neg sticky m e (F.quantum m e)).1 ≤ 2 ^ (F.mant + 1) := by
  have pos := div_nonneg (abs_nonneg x) (zpow_pos (two_pos (α := ℝ)) (F.quantum m e)).le
  have lo := Nat.floor_le pos
  have hi := Nat.lt_floor_add_one (|x| / (2 : ℝ) ^ F.quantum m e)
  have near := (h.roundAt_spec (mode := mode) (neg := neg) (q := F.quantum m e) le_rfl).1.eq_or_eq lo hi
  have := h.floor_unit lo hi
  omega

/-- x rounded with an unbounded exponent. -/
theorem Stands.takes_precise (hF : F.Ok) :
    let n := (roundAt mode (decide (x < 0)) sticky m e (F.quantum m e)).1
    let u := finVal (decide (x < 0)) n (F.quantum m e)
    Takes mode F.Precise (F.EvenAt u) x u := by
  intro n u
  obtain ⟨lo, hi⟩ := h.rounded_unit (mode := mode) (neg := decide (x < 0))
  have pos := zpow_pos (two_pos (α := ℝ)) (F.quantum m e)
  have carry (hn : n = 2 ^ (F.mant + 1)) : (n : ℝ) * (2 : ℝ) ^ F.quantum m e = (2 ^ F.mant : Nat) * (2 : ℝ) ^ (F.quantum m e + 1) := by
    rw [hn, zpow_add_one₀ two_ne_zero]
    push_cast
    ring
  have lt : 2 ^ F.mant < 2 ^ (F.mant + 1) := Nat.pow_lt_pow_right (by decide) (Nat.lt_succ_self _)
  have absu : |u| = n * (2 : ℝ) ^ F.quantum m e := abs_finVal ..
  have mem : F.Precise u := by
    obtain l | l := Nat.lt_or_eq_of_le hi
    · exact ⟨n, _, l, absu⟩
    · exact ⟨2 ^ F.mant, _, lt, absu.trans (carry l)⟩
  have even : n % 2 = 0 → F.EvenAt u := fun hn => by
    obtain l | l := Nat.lt_or_eq_of_le hi
    · exact ⟨n, _, lo, l, hn, absu⟩
    · exact ⟨2 ^ F.mant, _, le_rfl, lt, Nat.mod_eq_zero_of_dvd (dvd_pow_self 2 (by have := hF.mant; omega)),
        absu.trans (carry l)⟩
  rw [show u = _ from finVal_decide x n _] at mem even ⊢
  exact takes_signed pos (fun _ => FpFmt.Precise.neg) (h.roundAt_spec le_rfl).1 mem
    (fun N below above => FpFmt.between_precise _ (h.floor_unit below above).1) even

/-- Of the finite values of the format, where the rounded one is in their range. -/
theorem Stands.takes_holds (hF : F.Ok) :
    let n := (roundAt mode (decide (x < 0)) sticky m e (F.quantumIn m e)).1
    let y := finVal (decide (x < 0)) n (F.quantumIn m e)
    let bits := F.signBit (decide (x < 0)) + F.place (F.level m e) n
    F.place (F.level m e) n ≤ F.maxBits → F.Holds bits y ∧ Takes mode (fun z => ∃ b, F.Holds b z) (bits % 2 = 0) x y := by
  intro n y bits within
  obtain ⟨le, full⟩ := h.rounded_le (mode := mode) (neg := decide (x < 0))
  have hold : F.Holds bits y := by
    have := FpFmt.holds_place' hF (neg := decide (x < 0)) le full within
    rwa [← F.quantumIn_eq] at this
  refine ⟨hold, ?_⟩
  have parity : n % 2 = 0 → bits % 2 = 0 := fun hn => by
    have even (k : Nat) (hk : k ≠ 0) : 2 ∣ 2 ^ k := dvd_pow_self 2 hk
    have sign : 2 ∣ F.signBit (decide (x < 0)) := by
      rw [F.signBit_eq]
      exact (even _ (by have := hF.mant; omega)).mul_right _
    have place : 2 ∣ F.level m e * 2 ^ F.mant := (even _ (by have := hF.mant; omega)).mul_left _
    have rest : 2 ∣ n := Nat.dvd_of_mod_eq_zero hn
    exact Nat.mod_eq_zero_of_dvd (dvd_add sign (dvd_add place rest))
  have mem : ∃ b, F.Holds b y := ⟨bits, hold⟩
  rw [show y = _ from finVal_decide x n _] at mem ⊢
  refine takes_signed (zpow_pos two_pos _) (fun z ⟨b, hb⟩ => FpFmt.Holds.neg hF hb) (h.roundAt_spec (F.quantum_le m e)).1 mem
    (fun N below above => ?_) parity
  rw [F.quantumIn_eq]
  exact FpFmt.between_holds hF (h.floor_unitIn below above)

/-- The rounded number lies beyond the largest finite one just where the encoding that it would have does. -/
theorem Stands.overflow_iff (hF : F.Ok) {neg : Bool} :
    F.maxBits < F.place (F.level m e) (roundAt mode neg sticky m e (F.quantumIn m e)).1 ↔
      F.magnitude F.maxBits < (roundAt mode neg sticky m e (F.quantum m e)).1 * (2 : ℝ) ^ F.quantum m e := by
  obtain ⟨le, full⟩ := h.rounded_le (mode := mode) (neg := neg)
  obtain eq | lt := (le_max_left (F.quantum m e) F.qmin).eq_or_lt
  · have same : F.quantum m e = F.quantumIn m e := eq
    rw [← F.magnitude_strictMono.lt_iff_lt, FpFmt.magnitude_place' le full, ← F.quantumIn_eq, same]
  · have lowest : F.quantumIn m e = F.qmin := by rw [FpFmt.quantumIn]; omega
    have level : F.level m e = 0 := by rw [FpFmt.level, lowest]; omega
    have small : (roundAt mode neg sticky m e (F.quantum m e)).1 * (2 : ℝ) ^ F.quantum m e ≤ F.magnitude (2 ^ F.mant) := by
      have unit := FpFmt.magnitude_place' (F := F) (E := 0) (n := 2 ^ F.mant) (Nat.pow_le_pow_right two_pos (Nat.le_succ _)) (.inr rfl)
      rw [FpFmt.place, Nat.zero_mul, Nat.zero_add] at unit
      rw [unit]
      calc _ ≤ ((2 ^ (F.mant + 1) : Nat) : ℝ) * (2 : ℝ) ^ (F.qmin - 1) := by
            have := (h.rounded_unit (mode := mode) (neg := neg)).2
            gcongr
            · norm_num
            · have : F.quantum m e < max (F.quantum m e) F.qmin := lt
              omega
        _ = _ := by
            rw [zpow_sub_one₀ two_ne_zero]
            push_cast
            ring_nf
    have unitIn : |x| / (2 : ℝ) ^ F.quantumIn m e < (2 ^ F.mant : Nat) := by
      rw [lowest, div_lt_iff₀ (zpow_pos two_pos _)]
      refine h.lt_lead.trans_le ?_
      push_cast
      rw [← zpow_natCast, ← zpow_add₀ two_ne_zero]
      refine zpow_le_zpow_right₀ one_le_two ?_
      have : leadOf m e - F.mant < max (F.quantum m e) F.qmin := lt
      have : leadOf m e - F.mant = F.quantum m e := rfl
      omega
    have n_le : (roundAt mode neg sticky m e (F.quantumIn m e)).1 ≤ 2 ^ F.mant := by
      have pos := div_nonneg (abs_nonneg x) (zpow_pos (two_pos (α := ℝ)) (F.quantumIn m e)).le
      have near := (h.roundAt_spec (mode := mode) (neg := neg) (F.quantum_le m e)).1.eq_or_eq (Nat.floor_le pos)
        (Nat.lt_floor_add_one _)
      have : ⌊|x| / (2 : ℝ) ^ F.quantumIn m e⌋₊ < 2 ^ F.mant := (Nat.floor_lt pos).mpr unitIn
      omega
    have top := FpFmt.pow_mant_le_maxBits hF
    refine iff_of_false ?_ ?_
    · rw [level, FpFmt.place]
      omega
    · exact not_lt.mpr (small.trans (F.magnitude_strictMono.monotone top))

/-- It lies below the smallest normal number just where the rounding says so. -/
theorem Stands.tiny_iff {neg : Bool} :
    (decide (F.quantum m e < F.qmin) && (decide (F.quantum m e + 1 < F.qmin) ||
        decide ((roundAt mode neg sticky m e (F.quantum m e)).1 < 2 ^ (F.mant + 1)))) = true ↔
      (roundAt mode neg sticky m e (F.quantum m e)).1 * (2 : ℝ) ^ F.quantum m e < (2 : ℝ) ^ (1 - F.bias) := by
  obtain ⟨lo, hi⟩ := h.rounded_unit (mode := mode) (neg := neg)
  generalize (roundAt mode neg sticky m e (F.quantum m e)).1 = n at *
  have normal : (2 : ℝ) ^ (1 - F.bias) = (2 ^ F.mant : Nat) * (2 : ℝ) ^ F.qmin := by
    push_cast
    rw [FpFmt.qmin, ← zpow_natCast, ← zpow_add₀ two_ne_zero]
    congr 1
    ring
  have pos := zpow_pos (two_pos (α := ℝ)) F.qmin
  rw [normal]
  simp only [Bool.and_eq_true, Bool.or_eq_true, decide_eq_true_eq]
  rcases lt_trichotomy (F.quantum m e + 1) F.qmin with lt | eq | gt
  · refine iff_of_true ⟨by omega, .inl lt⟩ ?_
    calc (n : ℝ) * (2 : ℝ) ^ F.quantum m e ≤ (2 ^ (F.mant + 1) : Nat) * (2 : ℝ) ^ (F.qmin - 2) := by
          gcongr
          · norm_num
          · omega
      _ = (2 ^ F.mant : Nat) * (2 : ℝ) ^ F.qmin / 2 := by
          rw [zpow_sub₀ two_ne_zero]
          push_cast
          ring
      _ < _ := half_lt_self (mul_pos (by exact_mod_cast Nat.two_pow_pos _) pos)
  · have half : (2 : ℝ) ^ F.qmin = 2 * (2 : ℝ) ^ F.quantum m e := by rw [← eq, zpow_add_one₀ two_ne_zero, mul_comm]
    rw [half, ← mul_assoc, mul_lt_mul_iff_left₀ (zpow_pos two_pos _)]
    have : (n : ℝ) < (2 ^ F.mant : Nat) * 2 ↔ n < 2 ^ (F.mant + 1) := by
      rw [Nat.pow_succ]
      exact_mod_cast Iff.rfl
    rw [this]
    constructor
    · rintro ⟨-, l | l⟩
      · omega
      · exact l
    · exact fun l => ⟨by omega, .inr l⟩
  · refine iff_of_false (fun l => by omega) (not_lt.mpr ?_)
    gcongr
    · norm_num
    · omega

/-- A magnitude with its sign is rounded once. -/
theorem Stands.rounds (hF : F.Ok) : F.Rounds mode x (F.roundFin mode (decide (x < 0)) m e sticky) := by
  obtain ⟨-, exactIn⟩ := h.roundAt_spec (mode := mode) (neg := decide (x < 0)) (F.quantum_le m e)
  have posIn := zpow_pos (two_pos (α := ℝ)) (F.quantumIn m e)
  refine ⟨_, h.takes_precise hF, fun top ht => ?_⟩
  obtain rfl := FpFmt.top_eq hF ht
  rw [abs_finVal, F.roundFin_eq mode _ e sticky h.ne_zero]
  have leaves := h.overflow_iff hF (mode := mode) (neg := decide (x < 0))
  have tiny := h.tiny_iff (mode := mode) (neg := decide (x < 0))
  refine ⟨fun within => ?_, fun beyond => ?_⟩
  · have fits := mt leaves.mp (not_lt.mpr within)
    obtain ⟨hold, takes⟩ := h.takes_holds hF (mode := mode) (not_lt.mp fits)
    dsimp only at hold takes ⊢
    rw [if_neg fits]
    have inexact : (roundAt mode (decide (x < 0)) sticky m e (F.quantumIn m e)).2 = true ↔
        finVal (decide (x < 0)) (roundAt mode (decide (x < 0)) sticky m e (F.quantumIn m e)).1 (F.quantumIn m e) ≠ x := by
      rw [exactIn, finVal_decide, not_iff_not, eq_div_iff posIn.ne']
      constructor
      · intro eq
        rw [eq, sign_mul_abs]
      · intro eq
        have := congrArg abs eq
        rwa [abs_sign_mul (by positivity)] at this
    obtain ⟨nx, uf, others⟩ := tinyFlags_bits (decide (F.quantum m e < F.qmin) && (decide (F.quantum m e + 1 < F.qmin) ||
      decide ((roundAt mode (decide (x < 0)) sticky m e (F.quantum m e)).1 < 2 ^ (F.mant + 1))))
      (roundAt mode (decide (x < 0)) sticky m e (F.quantumIn m e)).2
    refine ⟨_, hold, takes, ?_, ?_, ?_, others⟩
    · obtain ⟨-, -, sign, -⟩ := F.signed_fields (neg := decide (x < 0)) ((not_lt.mp fits).trans_lt FpFmt.maxBits_lt)
      rw [sign]
      simp
    · rw [nx, inexact]
    · rw [uf, Bool.and_eq_true, tiny, inexact, abs_finVal, and_comm]
  · dsimp only
    rw [if_pos (leaves.mpr beyond)]
    refine ⟨?_, rfl⟩
    have sign : decide (0 < x) = !decide (x < 0) := by
      have := abs_pos.mp h.pos
      rw [← decide_not, decide_eq_decide, not_lt]
      exact ⟨le_of_lt, fun l => l.lt_of_ne this.symm⟩
    simp only [FpFmt.overflow, FpFmt.signBit, sign, decide_eq_true_eq]
    cases F.specials
    · cases mode <;> simp
    · simp
    · simp

end Rounding

end Sys2Proof.Machine
end

section
/-! The exact values of sums, products, quotients, roots and powers, and their one rounding (R96, R98, R169, R179). -/

namespace Sys2Proof.Machine

/-! ## Exact values -/

theorem finVal_zero (neg : Bool) (e : Int) : finVal neg 0 e = 0 := by simp [finVal]

theorem finVal_eq_zero {neg : Bool} {m : Nat} {e : Int} : finVal neg m e = 0 ↔ m = 0 := by
  have pos := zpow_pos (two_pos (α := ℝ)) e
  cases neg <;> simp [finVal, pos.ne']

/-- The sign of a nonzero value. -/
theorem finVal_neg {neg : Bool} {m : Nat} {e : Int} (h : finVal neg m e ≠ 0) : decide (finVal neg m e < 0) = neg := by
  have mpos : (0 : ℝ) < m := by exact_mod_cast Nat.pos_of_ne_zero (mt finVal_eq_zero.mpr h)
  have pos : 0 < (m : ℝ) * (2 : ℝ) ^ e := mul_pos mpos (zpow_pos two_pos e)
  cases neg
  · simpa [finVal] using pos.le
  · simpa [finVal] using pos

/-- A scaled integer is the number in units of the lower exponent. -/
theorem scaledInt_mul (neg : Bool) (m : Nat) {e e0 : Int} (h : e0 ≤ e) :
    (scaledInt neg m e e0 : ℝ) * (2 : ℝ) ^ e0 = finVal neg m e := by
  have le : ((e - e0).toNat : Int) = e - e0 := Int.toNat_of_nonneg (by omega)
  have pow : ((2 ^ (e - e0).toNat : Nat) : ℝ) * (2 : ℝ) ^ e0 = (2 : ℝ) ^ e := by
    push_cast
    rw [← zpow_natCast, le, ← zpow_add₀ two_ne_zero, sub_add_cancel]
  rw [finVal, mul_assoc, ← pow]
  cases neg <;> simp [scaledInt] <;> ring

theorem finVal_int {neg : Bool} {k : Int} (e : Int) (h : k ≠ 0 → neg = decide (k < 0)) : finVal neg k.natAbs e = k * (2 : ℝ) ^ e := by
  by_cases h0 : k = 0
  · simp [h0, finVal]
  · have abs : ((k.natAbs : Nat) : ℝ) = |(k : ℝ)| := by rw [Nat.cast_natAbs, Int.cast_abs]
    rw [finVal, h h0, abs]
    by_cases hk : k < 0
    · have : (k : ℝ) < 0 := by exact_mod_cast hk
      simp [hk, abs_of_neg this]
    · have : (0 : ℝ) ≤ k := by exact_mod_cast not_lt.mp hk
      simp [hk, abs_of_nonneg this]

section Arithmetic
variable {mode : Mode} {n n' : Bool} {m m' : Nat} {e e' : Int}

/-- The sum of two finite values: exact, with the sign of R169 where it is zero. -/
theorem FV.add_fin (mode : Mode) (n n' : Bool) (m m' : Nat) (e e' : Int) :
    ∃ z l g, (FV.fin n m e).add mode (.fin n' m' e') = (.fin z l g, 0) ∧ finVal z l g = finVal n m e + finVal n' m' e' ∧
      (l = 0 → z = if m = 0 ∧ m' = 0 ∧ n = n' then n else mode == .rdn) := by
  by_cases h : m = 0 ∧ m' = 0
  · refine ⟨_, _, _, if_pos h, ?_, fun _ => ?_⟩
    · rw [h.1, h.2]
      simp [finVal]
    · simp [h]
  · refine ⟨_, _, _, if_neg h, ?_, fun hl => ?_⟩
    · rw [finVal_int _ fun h0 => if_neg h0]
      push_cast
      rw [add_mul, scaledInt_mul _ _ (min_le_left ..), scaledInt_mul _ _ (min_le_right ..)]
    · rw [if_pos (Int.natAbs_eq_zero.mp hl), if_neg fun g => h ⟨g.1, g.2.1⟩]

theorem FV.mul_fin (n n' : Bool) (m m' : Nat) (e e' : Int) :
    (FV.fin n m e).mul (.fin n' m' e') = (.fin (n != n') (m * m') (e + e'), 0) := rfl

theorem finVal_mul (n n' : Bool) (m m' : Nat) (e e' : Int) :
    finVal (n != n') (m * m') (e + e') = finVal n m e * finVal n' m' e' := by
  rw [finVal, finVal, finVal, zpow_add₀ two_ne_zero]
  cases n <;> cases n' <;> simp <;> ring

/-! ## Rounding of exact values -/

variable {F : FpFmt} (hF : F.Ok) {x : ℝ}

theorem stands_fin (F : FpFmt) (h : finVal n m e ≠ 0) : Stands F false m e |finVal n m e| := by
  refine ⟨abs_pos.mpr h, ?_, by simp⟩
  rw [abs_finVal, mul_div_cancel_right₀ _ (zpow_pos two_pos e).ne']
  rfl

include hF in
theorem FpFmt.rounds_fin (h : finVal n m e ≠ 0) : F.Rounds mode (finVal n m e) (F.roundFin mode n m e false) := by
  have := (stands_fin F h).rounds hF (mode := mode)
  rwa [finVal_neg h] at this

/-- A positive number is rounded once. -/
theorem Stands.rounds_pos {sticky : Bool} (h : Stands F sticky m e x) (hF : F.Ok) :
    F.Rounds mode x (F.roundFin mode false m e sticky) := by
  have pos := h.pos
  rw [← abs_of_pos pos] at h
  have := h.rounds hF (mode := mode)
  rwa [decide_eq_false (not_lt.mpr pos.le)] at this

theorem FpFmt.roundFin_zero (F : FpFmt) (mode : Mode) (n : Bool) (e : Int) : F.roundFin mode n 0 e false = (F.signBit n, 0) := rfl

theorem flags_zero_or (fl : Flags) : 0 ||| fl = fl := BitVec.zero_or

theorem fpAdd_fin {z : Bool} {l : Nat} {g : Int} (h : (FV.fin n m e).add mode (.fin n' m' e') = (.fin z l g, 0)) :
    fpAdd F mode (.fin n m e) (.fin n' m' e') = F.roundFin mode z l g false := by
  simp only [fpAdd, h, FpFmt.round, flags_zero_or]

theorem fpMul_fin : fpMul F mode (.fin n m e) (.fin n' m' e') = F.roundFin mode (n != n') (m * m') (e + e') false := by
  simp only [fpMul, FV.mul_fin, FpFmt.round, flags_zero_or]

theorem fpFma_fin (c : FV) : fpFma F mode (.fin n m e) (.fin n' m' e') c = fpAdd F mode (.fin (n != n') (m * m') (e + e')) c := by
  simp only [fpFma, FV.mul_fin, fpAdd, flags_zero_or]

include hF in
theorem fpAdd_rounds (h : finVal n m e + finVal n' m' e' ≠ 0) :
    F.Rounds mode (finVal n m e + finVal n' m' e') (fpAdd F mode (.fin n m e) (.fin n' m' e')) := by
  obtain ⟨z, l, g, sum, val, -⟩ := FV.add_fin mode n n' m m' e e'
  rw [← val] at h ⊢
  rw [fpAdd_fin sum]
  exact FpFmt.rounds_fin hF h

theorem fpAdd_zero (h : finVal n m e + finVal n' m' e' = 0) :
    fpAdd F mode (.fin n m e) (.fin n' m' e') = (F.signBit (if m = 0 ∧ m' = 0 ∧ n = n' then n else mode == .rdn), 0) := by
  obtain ⟨z, l, g, sum, val, sign⟩ := FV.add_fin mode n n' m m' e e'
  obtain rfl := finVal_eq_zero.mp (val.trans h)
  rw [fpAdd_fin sum, FpFmt.roundFin_zero, sign rfl]

include hF in
theorem fpMul_rounds (h : finVal n m e * finVal n' m' e' ≠ 0) :
    F.Rounds mode (finVal n m e * finVal n' m' e') (fpMul F mode (.fin n m e) (.fin n' m' e')) := by
  rw [← finVal_mul] at h ⊢
  rw [fpMul_fin]
  exact FpFmt.rounds_fin hF h

theorem fpMul_zero (h : finVal n m e * finVal n' m' e' = 0) :
    fpMul F mode (.fin n m e) (.fin n' m' e') = (F.signBit (n != n'), 0) := by
  rw [← finVal_mul, finVal_eq_zero] at h
  rw [fpMul_fin, h, FpFmt.roundFin_zero]

/-! ## Quotients -/

/-- A quotient of natural numbers with what its remainder leaves out. -/
theorem cuts_div (t : Nat) {d : Nat} (hd : d ≠ 0) : Cuts (t % d != 0) (t / d) ((t : ℝ) / d) := by
  have dpos : (0 : ℝ) < d := by exact_mod_cast Nat.pos_of_ne_zero hd
  have split : (t : ℝ) = d * (t / d : Nat) + (t % d : Nat) := by exact_mod_cast (Nat.div_add_mod t d).symm
  have rest : ((t % d : Nat) : ℝ) < d := by exact_mod_cast Nat.mod_lt t (Nat.pos_of_ne_zero hd)
  by_cases h : t % d = 0
  · rw [h, Nat.cast_zero, add_zero] at split
    rw [h, Cuts, bne_self_eq_false, if_neg (by simp), div_eq_iff dpos.ne', split, mul_comm]
  · rw [Cuts, if_pos (by simpa using h), lt_div_iff₀ dpos, div_lt_iff₀ dpos, split]
    have : (0 : ℝ) < (t % d : Nat) := by exact_mod_cast Nat.pos_of_ne_zero h
    constructor <;> linarith

theorem fpDiv_fin (h : m' ≠ 0) : fpDiv F mode (.fin n m e) (.fin n' m' e') =
    F.roundFin mode (n != n') (m * 2 ^ (F.mant + 4 + bitLen m') / m') (e - (F.mant + 4 + bitLen m' : Nat) - e')
      (m * 2 ^ (F.mant + 4 + bitLen m') % m' != 0) := by
  simp only [fpDiv, if_neg h]

theorem decide_div_neg {a b : ℝ} (ha : a ≠ 0) (hb : b ≠ 0) : decide (a / b < 0) = (decide (a < 0) != decide (b < 0)) := by
  rcases ha.lt_or_gt with na | pa
  · rcases hb.lt_or_gt with nb | pb
    · simp [na, nb, (div_pos_of_neg_of_neg na nb).le]
    · simp [na, pb.le, div_neg_of_neg_of_pos na pb]
  · rcases hb.lt_or_gt with nb | pb
    · simp [pa.le, nb, div_neg_of_pos_of_neg pa nb]
    · simp [not_lt.mpr pa.le, not_lt.mpr pb.le, not_lt.mpr (div_pos pa pb).le]

include hF in
theorem fpDiv_rounds (ha : finVal n m e ≠ 0) (hb : finVal n' m' e' ≠ 0) :
    F.Rounds mode (finVal n m e / finVal n' m' e') (fpDiv F mode (.fin n m e) (.fin n' m' e')) := by
  have hm := mt finVal_eq_zero.mpr ha
  have hm' := mt finVal_eq_zero.mpr hb
  have quot := div_ne_zero ha hb
  have mpos : (0 : ℝ) < m' := by exact_mod_cast Nat.pos_of_ne_zero hm'
  rw [fpDiv_fin hm', ← finVal_neg ha, ← finVal_neg hb, ← decide_div_neg ha hb, finVal_neg ha, finVal_neg hb]
  generalize hk : F.mant + 4 + bitLen m' = k
  refine Stands.rounds ⟨abs_pos.mpr quot, ?_, fun _ => ?_⟩ hF
  · have val : |finVal n m e / finVal n' m' e'| / (2 : ℝ) ^ (e - (k : Int) - e') = ((m * 2 ^ k : Nat) : ℝ) / m' := by
      rw [abs_div, abs_finVal, abs_finVal, zpow_sub₀ two_ne_zero, zpow_sub₀ two_ne_zero, zpow_natCast]
      push_cast
      have := (zpow_pos (two_pos (α := ℝ)) e).ne'
      have := (zpow_pos (two_pos (α := ℝ)) e').ne'
      field_simp
    rw [val]
    exact cuts_div _ hm'
  · rw [Nat.le_div_iff_mul_le (Nat.pos_of_ne_zero hm'), ← hk, Nat.pow_add (m := F.mant + 4)]
    have below := (lt_pow_bitLen m').le
    have more : 2 ^ (F.mant + 1) ≤ 2 ^ (F.mant + 4) := Nat.pow_le_pow_right two_pos (by omega)
    calc 2 ^ (F.mant + 1) * m' ≤ 2 ^ (F.mant + 4) * 2 ^ bitLen m' := Nat.mul_le_mul more below
      _ ≤ m * (2 ^ (F.mant + 4) * 2 ^ bitLen m') := Nat.le_mul_of_pos_left _ (Nat.pos_of_ne_zero hm)

/-! ## Square roots -/

theorem isqrtBits_spec (n k r : Nat) (lo : r * r ≤ n) (hi : n < (r + 2 ^ k) * (r + 2 ^ k)) :
    isqrtBits n k r * isqrtBits n k r ≤ n ∧ n < (isqrtBits n k r + 1) * (isqrtBits n k r + 1) := by
  induction k generalizing r with
  | zero => exact ⟨lo, hi⟩
  | succ k ih =>
    rw [Nat.pow_succ, Nat.mul_two, ← Nat.add_assoc] at hi
    unfold isqrtBits
    dsimp only
    split_ifs with h
    · exact ih _ h hi
    · exact ih _ lo (not_le.mp h)

theorem isqrt_spec (n : Nat) : isqrt n * isqrt n ≤ n ∧ n < (isqrt n + 1) * (isqrt n + 1) := by
  refine isqrtBits_spec n _ 0 (Nat.zero_le n) ?_
  rw [Nat.zero_add, ← Nat.pow_add]
  exact (lt_pow_bitLen n).trans_le (Nat.pow_le_pow_right two_pos (by omega))

theorem le_isqrt {k n : Nat} (h : k * k ≤ n) : k ≤ isqrt n := by
  have := (isqrt_spec n).2
  exact Nat.lt_succ_iff.mp (Nat.mul_self_lt_mul_self_iff.mp (h.trans_lt this))

/-- The root of a number whose integer part is t, with what it leaves out. -/
theorem cuts_isqrt {t : Nat} {Y : ℝ} (lo : (t : ℝ) ≤ Y) (hi : Y < t + 1) {sticky : Bool}
    (hs : sticky = false ↔ ((isqrt t * isqrt t : Nat) : ℝ) = Y) : Cuts sticky (isqrt t) (Real.sqrt Y) := by
  obtain ⟨below, above⟩ := isqrt_spec t
  have r0 : (0 : ℝ) ≤ isqrt t := Nat.cast_nonneg _
  cases sticky with
  | false =>
    have := hs.mp rfl
    rw [Cuts, if_neg (by simp), ← this, Nat.cast_mul, Real.sqrt_mul_self r0]
  | true =>
    have ne : ((isqrt t * isqrt t : Nat) : ℝ) ≠ Y := fun h => by simpa using hs.mpr h
    have le : ((isqrt t * isqrt t : Nat) : ℝ) ≤ t := by exact_mod_cast below
    have next : (t : ℝ) + 1 ≤ ((isqrt t + 1) * (isqrt t + 1) : Nat) := by exact_mod_cast above
    rw [Cuts, if_pos rfl]
    constructor
    · refine Real.lt_sqrt_of_sq_lt ?_
      rw [sq]
      exact_mod_cast (le.trans lo).lt_of_ne ne
    · rw [Real.sqrt_lt' (by linarith), sq]
      exact_mod_cast hi.trans_le next

/-- The same value with an even exponent. -/
theorem even_exponent (m : Nat) (e : Int) : ∃ m' e', (if e % 2 = 0 then (m, e) else (2 * m, e - 1)) = (m', 2 * e') ∧
    (m' : ℝ) * (2 : ℝ) ^ (2 * e') = m * (2 : ℝ) ^ e ∧ (m ≠ 0 → m' ≠ 0) := by
  by_cases h : e % 2 = 0
  · exact ⟨m, e / 2, by rw [if_pos h, show 2 * (e / 2) = e by omega], by rw [show 2 * (e / 2) = e by omega], id⟩
  · refine ⟨2 * m, (e - 1) / 2, by rw [if_neg h, show 2 * ((e - 1) / 2) = e - 1 by omega], ?_, by omega⟩
    rw [show 2 * ((e - 1) / 2) = e - 1 by omega, zpow_sub_one₀ two_ne_zero]
    push_cast
    ring

theorem sqrt_zpow_two_mul (e : Int) : Real.sqrt ((2 : ℝ) ^ (2 * e)) = (2 : ℝ) ^ e := by
  rw [mul_comm, zpow_mul, zpow_ofNat, Real.sqrt_sq (zpow_pos two_pos e).le]

include hF in
theorem fpSqrt_rounds (h : 0 < finVal false m e) :
    F.Rounds mode (Real.sqrt (finVal false m e)) (fpSqrt F mode (.fin false m e)) := by
  have hm := mt finVal_eq_zero.mpr h.ne'
  obtain ⟨m', g, split, val, nz⟩ := even_exponent m e
  have root := Real.sqrt_pos.mpr h
  simp only [fpSqrt, if_neg hm, Bool.false_eq_true, if_false, split]
  rw [Int.mul_ediv_cancel_left _ two_ne_zero]
  generalize hk : F.mant + 4 = k
  refine Stands.rounds_pos ⟨root, ?_, fun _ => ?_⟩ hF
  · have same : Real.sqrt (finVal false m e) / (2 : ℝ) ^ (g - (k : Int)) = Real.sqrt ((m' * 2 ^ (2 * k) : Nat) : ℝ) := by
      have : finVal false m e = m' * (2 : ℝ) ^ (2 * g) := by rw [val, finVal]; simp
      rw [this, Real.sqrt_mul (Nat.cast_nonneg _), sqrt_zpow_two_mul, Nat.cast_mul, Real.sqrt_mul (Nat.cast_nonneg _)]
      have pw : ((2 ^ (2 * k) : Nat) : ℝ) = (2 : ℝ) ^ (2 * (k : Int)) := by exact_mod_cast rfl
      rw [pw, sqrt_zpow_two_mul, zpow_sub₀ two_ne_zero]
      have := (zpow_pos (two_pos (α := ℝ)) g).ne'
      field_simp
    rw [same]
    refine cuts_isqrt le_rfl (lt_add_one _) ?_
    rw [bne_eq_false_iff_eq]
    exact_mod_cast Iff.rfl
  · refine le_isqrt ?_
    rw [← Nat.pow_add, ← hk]
    calc 2 ^ (F.mant + 1 + (F.mant + 1)) ≤ 2 ^ (2 * (F.mant + 4)) := Nat.pow_le_pow_right two_pos (by omega)
      _ ≤ m' * 2 ^ (2 * (F.mant + 4)) := Nat.le_mul_of_pos_left _ (Nat.pos_of_ne_zero (nz hm))

theorem bf16_ok : bf16.Ok := ⟨by decide, by decide⟩

theorem bfRecip_rounds (h : finVal n m e ≠ 0) : bf16.Rounds .rne (1 / finVal n m e) (bfRecip (.fin n m e)) := by
  have one : finVal false 1 0 = 1 := by simp [finVal]
  have := fpDiv_rounds bf16_ok (mode := .rne) (n := false) (m := 1) (e := 0) (by rw [one]; exact one_ne_zero) h
  rwa [one] at this

theorem bfRsqrt_rounds (h : 0 < finVal false m e) :
    bf16.Rounds .rne (1 / Real.sqrt (finVal false m e)) (bfRsqrt (.fin false m e)) := by
  have hm := mt finVal_eq_zero.mpr h.ne'
  obtain ⟨m', g, split, val, nz⟩ := even_exponent m e
  have root := Real.sqrt_pos.mpr h
  have inv : 0 < 1 / Real.sqrt (finVal false m e) := one_div_pos.mpr root
  have hm' := nz hm
  have mpos : (0 : ℝ) < m' := by exact_mod_cast Nat.pos_of_ne_zero hm'
  simp only [bfRsqrt, if_neg hm, Bool.false_eq_true, if_false, split]
  rw [Int.mul_ediv_cancel_left _ two_ne_zero]
  generalize hk : 16 + bitLen m' = k
  refine Stands.rounds_pos ⟨inv, ?_, fun _ => ?_⟩ bf16_ok
  · have same : 1 / Real.sqrt (finVal false m e) / (2 : ℝ) ^ (-g - (k : Int)) = Real.sqrt (((2 ^ (2 * k) : Nat) : ℝ) / m') := by
      have : finVal false m e = m' * (2 : ℝ) ^ (2 * g) := by rw [val, finVal]; simp
      have pw : ((2 ^ (2 * k) : Nat) : ℝ) = (2 : ℝ) ^ (2 * (k : Int)) := by exact_mod_cast rfl
      rw [this, Real.sqrt_mul mpos.le, sqrt_zpow_two_mul, Real.sqrt_div (Nat.cast_nonneg _), pw, sqrt_zpow_two_mul,
        zpow_sub₀ two_ne_zero, zpow_neg]
      have := (zpow_pos (two_pos (α := ℝ)) g).ne'
      have := (Real.sqrt_pos.mpr mpos).ne'
      field_simp
    rw [same]
    have cut := cuts_div (2 ^ (2 * k)) hm'
    refine cuts_isqrt cut.le cut.lt ?_
    rw [bne_eq_false_iff_eq, eq_div_iff mpos.ne']
    exact_mod_cast Iff.rfl
  · refine le_isqrt ((Nat.le_div_iff_mul_le (Nat.pos_of_ne_zero hm')).mpr ?_)
    rw [← Nat.pow_add, ← hk]
    calc 2 ^ (bf16.mant + 1 + (bf16.mant + 1)) * m' ≤ 2 ^ (bf16.mant + 1 + (bf16.mant + 1)) * 2 ^ bitLen m' :=
          Nat.mul_le_mul_left _ (lt_pow_bitLen m').le
      _ = 2 ^ (16 + bitLen m') := by rw [← Nat.pow_add]; rfl
      _ ≤ 2 ^ (2 * (16 + bitLen m')) := Nat.pow_le_pow_right two_pos (by omega)

end Arithmetic

end Sys2Proof.Machine
end

section
/-! Powers of two, and what the floating-point operations give in full (R96 to R98, R169, R179). -/

namespace Sys2Proof.Machine

/-! ## The root of a power of two by its bits -/

theorem exp2Bits_spec (p q k n : Nat) (lo : n ^ 2 ^ q ≤ 2 ^ (9 * 2 ^ q + p)) (hi : 2 ^ (9 * 2 ^ q + p) < (n + 2 ^ k) ^ 2 ^ q) :
    n ≤ exp2Bits p q k n ∧ exp2Bits p q k n ^ 2 ^ q ≤ 2 ^ (9 * 2 ^ q + p) ∧
      2 ^ (9 * 2 ^ q + p) < (exp2Bits p q k n + 1) ^ 2 ^ q := by
  induction k generalizing n with
  | zero => exact ⟨le_rfl, lo, hi⟩
  | succ k ih =>
    rw [Nat.pow_succ 2 k, Nat.mul_two, ← Nat.add_assoc] at hi
    unfold exp2Bits
    dsimp only
    split_ifs with h
    · obtain ⟨grows, rest⟩ := ih _ h hi
      exact ⟨(Nat.le_add_right ..).trans grows, rest⟩
    · exact ih _ lo (not_le.mp h)

/-- The ten bits of 2^(9 + p / 2^q), which are not all of it. -/
theorem cuts_exp2Bits {p q : Nat} (h0 : p ≠ 0) (h : p < 2 ^ q) {Y : ℝ} (hY : 0 < Y) (pow : Y ^ 2 ^ q = 2 ^ (9 * 2 ^ q + p)) :
    2 ^ 9 ≤ exp2Bits p q 9 (2 ^ 9) ∧ Cuts true (exp2Bits p q 9 (2 ^ 9)) Y := by
  have start : (2 ^ 9) ^ 2 ^ q ≤ 2 ^ (9 * 2 ^ q + p) := by
    rw [← Nat.pow_mul]
    exact Nat.pow_le_pow_right two_pos (Nat.le_add_right ..)
  have stop : 2 ^ (9 * 2 ^ q + p) < (2 ^ 9 + 2 ^ 9) ^ 2 ^ q := by
    rw [← Nat.two_mul, ← Nat.pow_succ', ← Nat.pow_mul]
    exact Nat.pow_lt_pow_right (by decide) (by omega)
  obtain ⟨grows, lo, hi⟩ := exp2Bits_spec p q 9 (2 ^ 9) start stop
  generalize exp2Bits p q 9 (2 ^ 9) = r at *
  have nz : 2 ^ q ≠ 0 := (Nat.two_pow_pos q).ne'
  have ne : r ^ 2 ^ q ≠ 2 ^ (9 * 2 ^ q + p) := fun eq => by
    obtain ⟨j, -, rfl⟩ := (Nat.dvd_prime_pow Nat.prime_two).mp ((dvd_pow_self r nz).trans eq.dvd)
    rw [← Nat.pow_mul] at eq
    have expo : j * 2 ^ q = 9 * 2 ^ q + p := Nat.pow_right_injective le_rfl eq
    have dvd : 2 ^ q ∣ p := (Nat.dvd_add_right (Dvd.intro_left 9 rfl)).mp (expo ▸ Dvd.intro_left j rfl)
    exact h.not_ge (Nat.le_of_dvd (Nat.pos_of_ne_zero h0) dvd)
  refine ⟨grows, ?_, ?_⟩
  · refine lt_of_pow_lt_pow_left₀ (2 ^ q) hY.le ?_
    rw [pow]
    exact_mod_cast lo.lt_of_ne ne
  · refine lt_of_pow_lt_pow_left₀ (2 ^ q) (by positivity) ?_
    rw [pow]
    exact_mod_cast hi

/-! ## A wider significand of the same number -/

theorem bitLen_two_mul {m : Nat} (hm : m ≠ 0) : bitLen (2 * m) = bitLen m + 1 := by
  rw [bitLen_pos (by omega), bitLen_pos hm, Nat.log2_two_mul hm]

theorem roundCut_two_mul (mode : Mode) (neg sticky : Bool) (m : Nat) {h : Nat} (h0 : h ≠ 0) :
    roundCut mode neg sticky (2 * m) (h + 1) = roundCut mode neg sticky m h := by
  have quot : 2 * m / 2 ^ (h + 1) = m / 2 ^ h := by rw [Nat.pow_succ', Nat.mul_div_mul_left _ _ two_pos]
  have rest : 2 * m % 2 ^ (h + 1) = 2 * (m % 2 ^ h) := by rw [Nat.pow_succ', Nat.mul_mod_mul_left]
  have half : cutHalf (h + 1) = 2 * cutHalf h := by
    rw [cutHalf, cutHalf, if_neg (Nat.succ_ne_zero h), if_neg h0, Nat.add_sub_cancel, ← Nat.pow_succ',
      Nat.succ_eq_add_one, Nat.sub_add_cancel (Nat.pos_of_ne_zero h0)]
  have zero (r : Nat) : (2 * r != 0) = (r != 0) := by simp [bne, BEq.beq]
  have above (r : Nat) : cutAbove sticky (2 * r) (h + 1) = cutAbove sticky r h := by simp [cutAbove, half, h0]
  have tie (r : Nat) : cutTie sticky (2 * r) (h + 1) = cutTie sticky r h := by simp [cutTie, half, h0]
  rw [roundCut_eq, roundCut_eq, quot, rest, zero, above, tie]

theorem FpFmt.roundFin_two_mul (F : FpFmt) (mode : Mode) (neg : Bool) {m : Nat} (e : Int) (h : 2 ^ (F.mant + 1) ≤ m) :
    F.roundFin mode neg (2 * m) (e - 1) true = F.roundFin mode neg m e true := by
  have hm : m ≠ 0 := ((Nat.two_pow_pos _).trans_le h).ne'
  have lead : leadOf (2 * m) (e - 1) = leadOf m e := by
    rw [leadOf, leadOf, bitLen_two_mul hm]
    push_cast
    ring
  have wide := lt_bitLen_of_pow_le h
  have at_ (q : Int) (hq : leadOf m e - F.mant ≤ q) : roundAt mode neg true (2 * m) (e - 1) q = roundAt mode neg true m e q := by
    rw [leadOf] at hq
    rw [roundAt, roundAt, if_neg (by omega), if_neg (by omega), show (q - (e - 1)).toNat = (q - e).toNat + 1 by omega,
      roundCut_two_mul _ _ _ _ (by omega)]
  have quantum : F.quantum (2 * m) (e - 1) = F.quantum m e := by rw [FpFmt.quantum, lead, FpFmt.quantum]
  have quantumIn : F.quantumIn (2 * m) (e - 1) = F.quantumIn m e := by rw [FpFmt.quantumIn, quantum, FpFmt.quantumIn]
  rw [F.roundFin_eq _ _ _ _ (by omega), F.roundFin_eq _ _ _ _ hm, FpFmt.level, quantum, quantumIn, at_ _ (F.quantum_le m e),
    at_ (F.quantum m e) le_rfl, FpFmt.level]

/-! ## Numbers far out of range -/

/-- Every positive number has a significand. -/
theorem exists_stands (F : FpFmt) {x : ℝ} (hx : 0 < x) : ∃ sticky m e, Stands F sticky m e x := by
  obtain ⟨k, lo, hi⟩ := exists_mem_Ico_zpow hx (one_lt_two (α := ℝ))
  have pos := zpow_pos (two_pos (α := ℝ)) (k - (F.mant + 1 : Nat))
  have y0 : 0 ≤ x / (2 : ℝ) ^ (k - (F.mant + 1 : Nat) : Int) := (div_pos hx pos).le
  have below := Nat.floor_le y0
  have above := Nat.lt_floor_add_one (x / (2 : ℝ) ^ (k - (F.mant + 1 : Nat) : Int))
  have wide : 2 ^ (F.mant + 1) ≤ ⌊x / (2 : ℝ) ^ (k - (F.mant + 1 : Nat) : Int)⌋₊ := by
    refine Nat.le_floor ?_
    rw [le_div_iff₀ pos]
    push_cast
    rw [← zpow_natCast, ← zpow_add₀ two_ne_zero]
    convert lo using 2
    push_cast
    ring
  obtain eq | lt := below.eq_or_lt
  · exact ⟨false, _, _, hx, eq.symm, fun _ => wide⟩
  · exact ⟨true, _, _, hx, ⟨lt, above⟩, fun _ => wide⟩

theorem bf16_top : bf16.magnitude bf16.maxBits < (2 : ℝ) ^ (128 : Int) := by
  have place : bf16.maxBits = bf16.place 253 255 := by decide
  rw [place, FpFmt.magnitude_place ⟨by decide, .inl (by decide)⟩, show bf16.qmin + (253 : Nat) = 120 by decide]
  norm_num

/-- What is far above the largest number becomes an infinity. -/
theorem bf16_rounds_huge {x : ℝ} (hx : (2 : ℝ) ^ (512 : Int) ≤ x) : bf16.Rounds .rne x (0x7F80, flagOF ||| flagNX) := by
  obtain ⟨sticky, m, e, h⟩ := exists_stands bf16 ((zpow_pos two_pos _).trans_le hx)
  have lead : (512 : Int) < leadOf m e + 1 := (zpow_lt_zpow_iff_right₀ one_lt_two).mp (hx.trans_lt h.lt_lead)
  have habs : Stands bf16 sticky m e |x| := by rwa [abs_of_pos h.pos]
  have beyond := (habs.overflow_iff bf16_ok (mode := .rne) (neg := false)).mpr <| calc
    bf16.magnitude bf16.maxBits < (2 : ℝ) ^ (128 : Int) := bf16_top
    _ ≤ (2 : ℝ) ^ leadOf m e := zpow_le_zpow_right₀ one_le_two (by omega)
    _ = (2 ^ bf16.mant : Nat) * (2 : ℝ) ^ bf16.quantum m e := by
      push_cast
      rw [FpFmt.quantum, ← zpow_natCast, ← zpow_add₀ two_ne_zero]
      congr 1
      ring
    _ ≤ _ := mul_le_mul_of_nonneg_right (by exact_mod_cast habs.rounded_unit.1) (zpow_pos two_pos _).le
  have val : bf16.roundFin .rne false m e sticky = (0x7F80, flagOF ||| flagNX) := by
    rw [bf16.roundFin_eq _ _ _ _ h.ne_zero]
    exact if_pos beyond
  rw [← val]
  exact h.rounds_pos bf16_ok

/-- What is far below the smallest number becomes a zero. -/
theorem bf16_rounds_small {x : ℝ} (h0 : 0 < x) (hx : x ≤ (2 : ℝ) ^ (-512 : Int)) : bf16.Rounds .rne x (0, flagUF ||| flagNX) := by
  obtain ⟨sticky, m, e, h⟩ := exists_stands bf16 h0
  have lead : leadOf m e ≤ -512 := (zpow_le_zpow_iff_right₀ one_lt_two).mp (h.lead_le.trans hx)
  have quantum : bf16.quantum m e = leadOf m e - 7 := rfl
  have lowest : bf16.qmin = -133 := by decide
  have quantumIn : bf16.quantumIn m e = -133 := by rw [FpFmt.quantumIn]; omega
  have level : bf16.level m e = 0 := by rw [FpFmt.level]; omega
  obtain ⟨takes, inexact⟩ := h.roundAt_spec (mode := .rne) (neg := false) (bf16.quantum_le m e)
  rw [quantumIn] at takes inexact
  have unit : 0 < x / (2 : ℝ) ^ (-133 : Int) := div_pos h0 (zpow_pos two_pos _)
  have half : x / (2 : ℝ) ^ (-133 : Int) < 1 / 2 := by
    rw [div_lt_iff₀ (zpow_pos two_pos _)]
    calc x ≤ (2 : ℝ) ^ (-512 : Int) := hx
      _ < (2 : ℝ) ^ (-134 : Int) := zpow_lt_zpow_right₀ one_lt_two (by decide)
      _ = 1 / 2 * (2 : ℝ) ^ (-133 : Int) := by norm_num
  have zero : (roundAt .rne false sticky m e (-133)).1 = 0 := by
    have near := takes.eq_or_eq (N := 0) (by simpa using unit.le) (by rw [Nat.cast_zero]; linarith)
    refine near.resolve_right fun one => ?_
    have := takes.1
    rw [one, Nat.zero_add, Nat.cast_one, abs_of_pos (by linarith)] at this
    linarith
  have nx : (roundAt .rne false sticky m e (-133)).2 = true := inexact.mpr (by rw [zero, Nat.cast_zero]; exact unit.ne)
  have val : bf16.roundFin .rne false m e sticky = (0, flagUF ||| flagNX) := by
    rw [bf16.roundFin_eq _ _ _ _ h.ne_zero, quantumIn, level, lowest]
    dsimp only
    rw [zero, nx, decide_eq_true (show bf16.quantum m e < -133 by omega), decide_eq_true (show bf16.quantum m e + 1 < -133 by omega)]
    rfl
  rw [← val]
  exact h.rounds_pos bf16_ok

/-! ## 2^a (R179) -/

/-- An integer power of two. -/
theorem bf16_rounds_two_zpow (k : Int) : bf16.Rounds .rne ((2 : ℝ) ^ k) (bf16.roundFin .rne false 1 k false) := by
  have pos := zpow_pos (two_pos (α := ℝ)) k
  refine Stands.rounds_pos ⟨pos, ?_, by simp⟩ bf16_ok
  rw [Cuts, if_neg (by simp), div_self pos.ne', Nat.cast_one]

/-- Close to 0 the power rounds to 1. -/
theorem bf16_rounds_near_one {a : ℝ} (ha : a ≠ 0) (h : |a| < (2 : ℝ) ^ (-10 : Int)) :
    bf16.Rounds .rne ((2 : ℝ) ^ a) (0x3F80, flagNX) := by
  have bound (b : ℝ) (h0 : 0 ≤ b) (h1 : b ≤ 1) : (2 : ℝ) ^ b ≤ 1 + b := by
    have := rpow_one_add_le_one_add_mul_self (s := 1) (by norm_num) h0 h1
    rwa [one_add_one_eq_two, mul_one] at this
  have unit : (2 : ℝ) ^ (-10 : Int) = 1 / 1024 := by norm_num
  have pos : 0 < (2 : ℝ) ^ a := Real.rpow_pos_of_pos two_pos a
  rw [unit] at h
  rcases ha.lt_or_gt with neg | pos'
  · have val : bf16.roundFin .rne false 1023 (-10) true = (0x3F80, flagNX) := by decide +kernel
    rw [← val]
    refine Stands.rounds_pos ⟨pos, ?_, fun _ => by decide⟩ bf16_ok
    rw [abs_of_neg neg] at h
    have inv : (2 : ℝ) ^ a * (2 : ℝ) ^ (-a) = 1 := by rw [← Real.rpow_add two_pos]; simp
    have up := bound (-a) (by linarith) (by linarith)
    have below : (2 : ℝ) ^ a < 1 := Real.rpow_lt_one_of_one_lt_of_neg one_lt_two neg
    rw [unit, Cuts, if_pos rfl]
    have : (2 : ℝ) ^ a * (1 - a) ≥ 1 := by nlinarith
    constructor
    · push_cast
      nlinarith
    · push_cast
      linarith
  · have val : bf16.roundFin .rne false 1024 (-10) true = (0x3F80, flagNX) := by decide +kernel
    rw [← val]
    refine Stands.rounds_pos ⟨pos, ?_, fun _ => by decide⟩ bf16_ok
    rw [abs_of_pos pos'] at h
    have up := bound a pos'.le (by linarith)
    have above : 1 < (2 : ℝ) ^ a := Real.one_lt_rpow one_lt_two pos'
    rw [unit, Cuts, if_pos rfl]
    constructor
    · push_cast
      linarith
    · push_cast
      linarith

/-- 2^(i + p / 2^q) by the ten bits of its significand. -/
theorem bf16_rounds_two_rpow {i : Int} {p q : Nat} (h0 : p ≠ 0) (h : p < 2 ^ q) :
    bf16.Rounds .rne ((2 : ℝ) ^ ((i : ℝ) + p / 2 ^ q)) (bf16.roundFin .rne false (2 * exp2Bits p q 9 (2 ^ 9)) (i - 10) true) := by
  have unit : (2 : ℝ) ^ ((i : ℝ) + p / 2 ^ q) / (2 : ℝ) ^ (i - 9 : Int) = (2 : ℝ) ^ ((9 : ℝ) + p / 2 ^ q) := by
    rw [← Real.rpow_intCast, ← Real.rpow_sub two_pos]
    congr 1
    push_cast
    ring
  have pow : ((2 : ℝ) ^ ((9 : ℝ) + p / 2 ^ q)) ^ 2 ^ q = 2 ^ (9 * 2 ^ q + p) := by
    rw [← Real.rpow_natCast, ← Real.rpow_mul two_pos.le, ← Real.rpow_natCast (2 : ℝ) (9 * 2 ^ q + p)]
    congr 1
    push_cast
    have := pow_pos (two_pos (α := ℝ)) q
    field_simp
  obtain ⟨wide, cuts⟩ := cuts_exp2Bits h0 h (Real.rpow_pos_of_pos two_pos _) pow
  have same : i - 10 = i - 9 - 1 := by ring
  have enough : 2 ^ (bf16.mant + 1) ≤ exp2Bits p q 9 (2 ^ 9) := le_trans (by decide) wide
  rw [same, bf16.roundFin_two_mul _ _ _ enough]
  refine Stands.rounds_pos ⟨Real.rpow_pos_of_pos two_pos _, ?_, fun _ => enough⟩ bf16_ok
  rw [unit]
  exact cuts

theorem toNat_emod_lt (t : Int) (q : Nat) : (t % 2 ^ q).toNat < 2 ^ q := by
  have pos : (0 : Int) < 2 ^ q := by positivity
  zify
  rw [Int.toNat_of_nonneg (Int.emod_nonneg t pos.ne')]
  exact Int.emod_lt_of_pos t pos

/-- A number of q places after the point, in its integer part and the rest. -/
theorem real_split (t : Int) (q : Nat) : (t : ℝ) / 2 ^ q = ((t / 2 ^ q : Int) : ℝ) + ((t % 2 ^ q).toNat : ℝ) / 2 ^ q := by
  have pos : (0 : Int) < 2 ^ q := by positivity
  have nat : (((t % 2 ^ q).toNat : Int) : ℝ) = ((t % 2 ^ q : Int) : ℝ) := by
    rw [Int.toNat_of_nonneg (Int.emod_nonneg t pos.ne')]
  have split : (t : ℝ) = 2 ^ q * ((t / 2 ^ q : Int) : ℝ) + ((t % 2 ^ q).toNat : ℝ) := by
    rw [← Int.cast_natCast, nat]
    exact_mod_cast (Int.mul_ediv_add_emod t (2 ^ q)).symm
  rw [split]
  field_simp

/-- 2^a rounded once to BF16. -/
theorem bfExp2_rounds {n : Bool} {m : Nat} {e : Int} (h : finVal n m e ≠ 0) :
    bf16.Rounds .rne ((2 : ℝ) ^ finVal n m e) (bfExp2 (.fin n m e)) := by
  have hm := mt finVal_eq_zero.mpr h
  have stands := stands_fin bf16 h
  have lo : (2 : ℝ) ^ leadOf m e ≤ |finVal n m e| := stands.lead_le
  have hi : |finVal n m e| < (2 : ℝ) ^ (leadOf m e + 1) := stands.lt_lead
  have lead : (bitLen m : Int) - 1 + e = leadOf m e := rfl
  simp only [bfExp2, if_neg hm, lead]
  have sign := finVal_neg h
  by_cases near : leadOf m e < -10
  · rw [if_pos near]
    have one : (bf16.roundFin .rne false 1 0 false).1 = 0x3F80 := by decide +kernel
    rw [one]
    exact bf16_rounds_near_one h (hi.trans_le (zpow_le_zpow_right₀ one_le_two (by omega)))
  rw [if_neg near]
  by_cases far : 9 ≤ leadOf m e
  · rw [if_pos far]
    have big : (512 : ℝ) ≤ |finVal n m e| := by
      refine le_trans ?_ ((zpow_le_zpow_right₀ one_le_two far).trans lo)
      norm_num
    cases n
    · have val : bf16.roundFin .rne false 1 512 false = (0x7F80, flagOF ||| flagNX) := by decide +kernel
      rw [if_neg (by simp), val]
      refine bf16_rounds_huge ?_
      rw [abs_of_nonneg (not_lt.mp (of_decide_eq_false sign))] at big
      rw [← Real.rpow_intCast]
      exact Real.rpow_le_rpow_of_exponent_le one_le_two (by exact_mod_cast big)
    · have val : bf16.roundFin .rne false 1 (-512) false = (0, flagUF ||| flagNX) := by decide +kernel
      rw [if_pos rfl, val]
      refine bf16_rounds_small (Real.rpow_pos_of_pos two_pos _) ?_
      rw [abs_of_neg (of_decide_eq_true sign)] at big
      rw [← Real.rpow_intCast]
      refine Real.rpow_le_rpow_of_exponent_le one_le_two ?_
      push_cast
      linarith
  rw [if_neg far]
  by_cases int : 0 ≤ e
  · rw [if_pos int]
    have val := scaledInt_mul n m int
    rw [zpow_zero, mul_one] at val
    rw [← val, Real.rpow_intCast]
    exact bf16_rounds_two_zpow _
  rw [if_neg int]
  have neg : ((-e).toNat : Int) = -e := Int.toNat_of_nonneg (by omega)
  generalize hq : (-e).toNat = q at *
  have val : finVal n m e = (((if n then -(m : Int) else m) : Int) : ℝ) / 2 ^ q := by
    have expo : e = -(q : Int) := by omega
    rw [finVal, expo, zpow_neg, zpow_natCast]
    cases n <;> simp [div_eq_mul_inv]
  generalize (if n then -(m : Int) else m : Int) = t at *
  rw [val, real_split]
  by_cases whole : (t % 2 ^ q).toNat = 0
  · rw [if_pos whole, whole, Nat.cast_zero, zero_div, add_zero, Real.rpow_intCast]
    exact bf16_rounds_two_zpow _
  · rw [if_neg whole]
    exact bf16_rounds_two_rpow whole (toNat_emod_lt t q)

end Sys2Proof.Machine
end

section
/-! What the floating-point operations give for finite operands, for NaNs, infinities and zeros, and for the values that a format
holds (R96 to R98, R169, R179). -/

namespace Sys2Proof.Machine

/-! ## Finite results -/

theorem finVal_pos {n : Bool} {m : Nat} {e : Int} (h : 0 < finVal n m e) : n = false := by
  rw [← finVal_neg h.ne']
  exact decide_eq_false (not_lt.mpr h.le)

theorem finiteResultsAreRounded : FiniteResultsAreRounded := by
  unfold FiniteResultsAreRounded
  rintro f mode n n' n'' m m' m'' e e' e'' a b c A B C F (rfl : a = finVal n m e) (rfl : b = finVal n' m' e')
    (rfl : c = finVal n'' m'' e'')
  have hF : F.Ok := viewFmt_ok f
  refine ⟨fpAdd_rounds hF, fpAdd_zero, fpMul_rounds hF, fpMul_zero, fun h => ?_, fun h => ?_, fpDiv_rounds hF, fun ha hb => ?_,
    fun h => ?_, fun h code G hG => FpFmt.rounds_fin (fmtOf_ok hG) h, fun h => ⟨bfExp2_rounds h, bfRecip_rounds h⟩, fun h => ?_⟩
  · rw [fpFma_fin, ← finVal_mul]
    rw [← finVal_mul] at h
    exact fpAdd_rounds hF h
  · rw [fpFma_fin]
    rw [← finVal_mul] at h
    rw [fpAdd_zero h]
    -- where the product is a zero of the sign of the addend, that is the sum's
    have sign : (if m * m' = 0 ∧ m'' = 0 ∧ (n != n') = n'' then n != n' else mode == .rdn) =
        (if m * m' = 0 ∧ m'' = 0 ∧ (n != n') = n'' then n'' else mode == .rdn) :=
      if_ctx_congr Iff.rfl (fun h => h.2.2) fun _ => rfl
    rw [sign]
  · obtain rfl := finVal_eq_zero.mp ha
    rw [fpDiv_fin (mt finVal_eq_zero.mpr hb), Nat.zero_mul, Nat.zero_div, Nat.zero_mod]
    exact FpFmt.roundFin_zero F mode _ _
  · obtain rfl := finVal_pos h
    exact fpSqrt_rounds hF h
  · obtain rfl := finVal_pos h
    exact bfRsqrt_rounds h

/-! ## NaNs, infinities and zeros (R96, R98, R169) -/

section Special
variable {F : FpFmt} {mode : Mode} {x y : FV} {n n' : Bool}

/-- A NaN operand makes the sum a NaN, which is invalid where one of them is signalling. -/
theorem FV.add_nan (mode : Mode) (x y : FV) (h : x.isNan = true ∨ y.isNan = true) :
    x.add mode y = (.nan false, if x.isSig || y.isSig then flagNV else 0) := by
  cases x <;> cases y <;> simp_all [FV.isNan, FV.add, FV.isSig]

theorem FV.mul_nan (x y : FV) (h : x.isNan = true ∨ y.isNan = true) :
    x.mul y = (.nan false, if x.isSig || y.isSig then flagNV else 0) := by
  cases x <;> cases y <;> simp_all [FV.isNan, FV.mul, FV.isSig]

theorem fpDiv_nan (x y : FV) (h : x.isNan = true ∨ y.isNan = true) :
    fpDiv F mode x y = (F.canonicalNan, if x.isSig || y.isSig then flagNV else 0) := by
  cases x <;> cases y <;> simp_all [FV.isNan, fpDiv, FV.isSig]

/-- A quiet NaN rounded to a format that has one. -/
theorem FpFmt.round_nan (hs : F.specials ≠ .none) : F.round mode (.nan false) = (F.canonicalNan, 0) := by
  simp [FpFmt.round, hs]

theorem flags_or_zero (fl : Flags) : fl ||| 0 = fl := BitVec.or_zero

theorem fpAdd_of_nan {fl : Flags} (hs : F.specials ≠ .none) (h : x.add mode y = (.nan false, fl)) :
    fpAdd F mode x y = (F.canonicalNan, fl) := by
  simp only [fpAdd, h, FpFmt.round_nan hs, flags_or_zero]

theorem fpMul_of_nan {fl : Flags} (hs : F.specials ≠ .none) (h : x.mul y = (.nan false, fl)) :
    fpMul F mode x y = (F.canonicalNan, fl) := by
  simp only [fpMul, h, FpFmt.round_nan hs, flags_or_zero]

theorem fpAdd_of_inf (hs : F.specials = .ieee) (h : x.add mode y = (.inf n, 0)) : fpAdd F mode x y = ((F.infBits n).1, 0) := by
  simp [fpAdd, h, FpFmt.round, FpFmt.infBits, hs]

theorem fpMul_of_inf (hs : F.specials = .ieee) (h : x.mul y = (.inf n, 0)) : fpMul F mode x y = ((F.infBits n).1, 0) := by
  simp [fpMul, h, FpFmt.round, FpFmt.infBits, hs]

theorem fpFma_of_mul {c p : FV} {fl : Flags} (h : x.mul y = (p, fl)) :
    fpFma F mode x y c = ((fpAdd F mode p c).1, fl ||| (fpAdd F mode p c).2) := by
  simp only [fpFma, h, fpAdd, BitVec.or_assoc]

theorem nv_or_nv (b c : Bool) :
    ((if b then flagNV else 0) ||| (if c then flagNV else 0) : Flags) = if b || c then flagNV else 0 := by
  cases b <;> cases c <;> decide

/-- A product of nothing and an infinity is invalid, whatever is added. -/
theorem fpFma_of_invalid {c : FV} (hs : F.specials ≠ .none) (h : x.mul y = (.nan false, flagNV)) :
    fpFma F mode x y c = (F.canonicalNan, flagNV) := by
  have sum := fpAdd_of_nan (F := F) hs (FV.add_nan mode (.nan false) c (.inl rfl))
  rw [fpFma_of_mul h, sum]
  exact congrArg (Prod.mk _) (nv_or_nv true _)

/-- Any other NaN operand makes the sum of a product a NaN. -/
theorem fpFma_nan {c : FV} (hs : F.specials ≠ .none) (h : x.isNan = true ∨ y.isNan = true ∨ c.isNan = true)
    (hi : ∀ k l g, ¬ (x = .inf k ∧ y = .fin l 0 g) ∧ ¬ (x = .fin l 0 g ∧ y = .inf k)) :
    fpFma F mode x y c = (F.canonicalNan, if x.isSig || y.isSig || c.isSig then flagNV else 0) := by
  by_cases hp : x.isNan = true ∨ y.isNan = true
  · have sum := fpAdd_of_nan (F := F) hs (FV.add_nan mode (.nan false) c (.inl rfl))
    rw [fpFma_of_mul (FV.mul_nan x y hp), sum]
    exact congrArg (Prod.mk _) (nv_or_nv _ _)
  · obtain ⟨hx, hy⟩ := not_or.mp hp
    have hc : c.isNan = true := (h.resolve_left hx).resolve_left hy
    have quiet (v : FV) (hv : ¬ v.isNan = true) : v.isSig = false := by cases v <;> simp_all [FV.isNan, FV.isSig]
    have product : ∃ p, x.mul y = (p, 0) ∧ p.isSig = false := by
      cases x with
      | nan s => exact absurd rfl hx
      | inf k =>
        cases y with
        | nan s => exact absurd rfl hy
        | inf l => exact ⟨_, rfl, rfl⟩
        | fin l m g =>
          have hm : m ≠ 0 := fun h0 => (hi k l g).1 ⟨rfl, by rw [h0]⟩
          exact ⟨_, if_neg hm, rfl⟩
      | fin k m g =>
        cases y with
        | nan s => exact absurd rfl hy
        | inf l =>
          have hm : m ≠ 0 := fun h0 => (hi l k g).2 ⟨by rw [h0], rfl⟩
          exact ⟨_, if_neg hm, rfl⟩
        | fin l m' g' => exact ⟨_, rfl, rfl⟩
    obtain ⟨p, prod, sig⟩ := product
    rw [fpFma_of_mul prod, fpAdd_of_nan hs (FV.add_nan mode p c (.inr hc)), sig, quiet x hx, quiet y hy]
    simp

/-- An infinite product takes what is added with it, but for the infinity of the other sign. -/
theorem fpFma_of_inf {c : FV} (hs : F.specials = .ieee) (h : x.mul y = (.inf n, 0)) (hn : c.isNan = false)
    (hc : c ≠ .inf (!n)) : fpFma F mode x y c = ((F.infBits n).1, 0) := by
  have sum : (FV.inf n).add mode c = (.inf n, 0) := by
    cases c with
    | nan s => cases hn
    | inf k =>
      have : n = k := by
        cases n <;> cases k <;> simp_all
      exact if_pos this
    | fin => rfl
  rw [fpFma_of_mul h, fpAdd_of_inf hs sum]
  exact congrArg (Prod.mk _) (flags_zero_or 0)

theorem FV.add_inf_inf (mode : Mode) (n : Bool) : (FV.inf n).add mode (.inf (!n)) = (.nan false, flagNV) := by
  cases n <;> rfl

theorem viewFmt_specials (v : View) : (viewFmt v).specials = .ieee := by cases v <;> rfl

theorem viewFmt_decode_infBits (v : View) (n : Bool) : (viewFmt v).decode ((viewFmt v).infBits n).1 = .inf n := by
  cases v <;> cases n <;> decide +kernel

end Special

/-! ## The values that a format holds (R97) -/

/-- A value that the format holds is rounded to its own encoding. -/
theorem FpFmt.roundFin_place {F : FpFmt} {mode : Mode} {neg : Bool} {E n : Nat} (h : F.Placed E n)
    (hm : F.place E n ≤ F.maxBits) : F.roundFin mode neg n (F.qmin + E) false = (F.signBit neg + F.place E n, 0) := by
  by_cases h0 : n = 0
  · subst h0
    have : E = 0 := h.full.resolve_left (by have := Nat.two_pow_pos F.mant; omega)
    rw [FpFmt.roundFin_zero, this]
    simp [FpFmt.place]
  · have len : bitLen n ≤ F.mant + 1 := bitLen_le_of_lt h.lt
    have quantum : F.quantum n (F.qmin + E) = F.qmin + E + bitLen n - 1 - F.mant := by
      rw [FpFmt.quantum, leadOf]
      ring
    have quantumIn : F.quantumIn n (F.qmin + E) = F.qmin + E := by
      rw [FpFmt.quantumIn, quantum]
      obtain full | rfl := h.full
      · have := lt_bitLen_of_pow_le full
        omega
      · omega
    have level : F.level n (F.qmin + E) = E := by
      rw [FpFmt.level, quantumIn]
      omega
    have same : roundAt mode neg false n (F.qmin + E) (F.qmin + E) = (n, false) := by simp [roundAt]
    rw [F.roundFin_eq mode neg _ _ h0, quantumIn, level, same]
    dsimp only
    rw [if_neg (not_lt.mpr hm)]
    simp

/-- An encoding is its sign and the rest. -/
theorem FpFmt.eq_signBit_add {F : FpFmt} {b : Nat} (hb : b < 2 ^ F.width) :
    b = F.signBit (F.negative b) + b % 2 ^ (F.exp + F.mant) := by
  rw [F.width_eq] at hb
  have split : 2 ^ (F.exp + F.mant) * (b / 2 ^ (F.exp + F.mant)) + b % 2 ^ (F.exp + F.mant) = b := Nat.div_add_mod ..
  have lt : b / 2 ^ (F.exp + F.mant) < 2 := Nat.div_lt_of_lt_mul (by rwa [Nat.mul_comm])
  rw [F.signBit_eq, FpFmt.negative, Nat.add_comm F.mant]
  obtain h | h := Nat.le_one_iff_eq_zero_or_eq_one.mp (Nat.lt_succ_iff.mp lt)
  · rw [h] at split ⊢
    simpa using split.symm
  · rw [h] at split ⊢
    simpa using split.symm

/-- An infinity has one encoding of each sign. -/
theorem FpFmt.eq_infBits {F : FpFmt} {b : Nat} {n : Bool} (hs : F.specials = .ieee) (hb : b < 2 ^ F.width)
    (h : F.decode b = .inf n) : b = (F.infBits n).1 := by
  obtain ⟨e1, e2⟩ := F.decode_fields b
  have split : 2 ^ F.mant * (b % 2 ^ (F.exp + F.mant) / 2 ^ F.mant) + b % 2 ^ (F.exp + F.mant) % 2 ^ F.mant =
    b % 2 ^ (F.exp + F.mant) := Nat.div_add_mod ..
  have whole := FpFmt.eq_signBit_add hb
  simp only [FpFmt.decode, e1, e2, hs, and_true, reduceCtorEq, false_and, and_false, if_false] at h
  split_ifs at h with top frac
  injection h with sign
  rw [top, frac, Nat.add_zero] at split
  rw [whole, ← split, FpFmt.infBits, hs, FpFmt.negative, sign, Nat.mul_comm]

/-- Whatever a format holds but NaNs is rounded to itself. -/
theorem FpFmt.round_decode {F : FpFmt} (hF : F.Ok) {mode : Mode} {b : Nat} (hs : F.specials = .ieee) (hb : b < 2 ^ F.width)
    (hn : (F.decode b).isNan = false) : F.round mode (F.decode b) = (b, 0) := by
  cases e : F.decode b with
  | nan s => rw [e] at hn; cases hn
  | inf n =>
    have := FpFmt.eq_infBits hs hb e
    simp only [FpFmt.round, FpFmt.infBits, hs] at this ⊢
    rw [← this]
  | fin n m g =>
    obtain ⟨E, k, hp, placed⟩ := F.exists_place (b % 2 ^ (F.exp + F.mant))
    have within : b % 2 ^ (F.exp + F.mant) ≤ F.maxBits := not_lt.mp fun l =>
      FpFmt.decode_special l (finVal n m g) (e ▸ FV.is_fin.mpr rfl)
    rw [← e, FpFmt.decode_place hF placed hp (hp ▸ within), FpFmt.round, FpFmt.roundFin_place placed (hp ▸ within), ← hp,
      ← FpFmt.eq_signBit_add hb]

/-- Settles O14: the finite results from the one rounding, the others from the cases of the operations, and the values that a
format holds from the place that their own encoding gives them. -/
theorem numbersOfTheFormats : Obligations.NumbersOfTheFormats := by
  unfold Obligations.NumbersOfTheFormats
  refine ⟨finiteResultsAreRounded, fun f mode x n n' m e e' hm => ?_, fun f mode bits hb hn =>
    FpFmt.round_decode (viewFmt_ok f) (viewFmt_specials f) hb hn⟩
  have hs := viewFmt_specials f
  have hq : (viewFmt f).specials ≠ .none := by rw [hs]; decide
  have hI (v : FV) {k : Bool} (h : v = .inf k) : (viewFmt f).round mode v = (((viewFmt f).infBits k).1, 0) := by
    rw [h, FpFmt.round, FpFmt.infBits, hs]
  have hinf (k : Bool) : (viewFmt f).infBits k = (((viewFmt f).infBits k).1, 0) := hI _ rfl
  refine ⟨fun sig => ?_, fpAdd_of_nan hq (FV.add_inf_inf mode n), fpMul_of_nan hq rfl, fpMul_of_nan hq rfl, rfl, rfl, ?_,
    fun y => ⟨fpFma_of_invalid hq rfl, fpFma_of_invalid hq rfl⟩, fun v w y h hi => fpFma_nan hq h hi, ?_, fun l k g h q => ?_,
    fun k g => ⟨fpAdd_of_inf hs rfl, fpAdd_of_inf hs rfl, hinf _, rfl⟩, fpAdd_of_inf hs (if_pos rfl), hinf false, rfl, rfl, ?_,
    viewFmt_decode_infBits f n, rfl⟩
  · have swap : (x.isSig || sig) = (sig || x.isSig) := Bool.or_comm ..
    refine ⟨fpAdd_of_nan hq (FV.add_nan mode _ x (.inl rfl)), ?_, fpMul_of_nan hq (FV.mul_nan _ x (.inl rfl)), ?_,
      fpDiv_nan _ x (.inl rfl), ?_, rfl⟩
    · rw [fpAdd_of_nan hq (FV.add_nan mode x _ (.inr rfl)), ← swap]
      rfl
    · rw [fpMul_of_nan hq (FV.mul_nan x _ (.inr rfl)), ← swap]
      rfl
    · rw [fpDiv_nan x _ (.inr rfl), ← swap]
      rfl
  · simp [fpSqrt, hm]
  · intro v w y h
    have product : v.mul w = (.inf (n != n'), 0) := by
      obtain h | h | h := h
      · obtain ⟨rfl, rfl⟩ := Prod.mk.inj h
        exact if_neg hm
      · obtain ⟨rfl, rfl⟩ := Prod.mk.inj h
        exact if_neg hm
      · obtain ⟨rfl, rfl⟩ := Prod.mk.inj h
        rfl
    refine ⟨fpMul_of_inf hs product, fun hn hy => fpFma_of_inf hs product hn hy, ?_⟩
    rw [fpFma_of_mul product, fpAdd_of_nan hq (FV.add_inf_inf mode (n != n'))]
    exact congrArg (Prod.mk _) (flags_zero_or _)
  · rw [fpFma_fin]
    exact fpAdd_of_inf hs rfl
  · simp [fpDiv, hm]

end Sys2Proof.Machine
end

section
/-! The order of values, and the scalar floating-point instructions (R94, R123, R168 to R172). -/

namespace Sys2Proof.Machine

/-! ## The order of values (R170, R171) -/

theorem FV.real_fin (n : Bool) (m : Nat) (e : Int) : (FV.fin n m e).real = (finVal n m e : EReal) := rfl

theorem FV.lt_fin (n n' : Bool) (m m' : Nat) (e e' : Int) :
    (FV.fin n m e).lt (.fin n' m' e') = true ↔ finVal n m e < finVal n' m' e' := by
  rw [← scaledInt_mul n m (min_le_left e e'), ← scaledInt_mul n' m' (min_le_right e e'),
    mul_lt_mul_iff_left₀ (zpow_pos two_pos _), Int.cast_lt]
  exact decide_eq_true_iff

/-- The order of the part is that of the numbers and the infinities. -/
theorem FV.lt_iff {x y : FV} (hx : x.isNan = false) (hy : y.isNan = false) : x.lt y = true ↔ x.real < y.real := by
  cases x with
  | nan s => cases hx
  | inf n =>
    cases y with
    | nan s => cases hy
    | inf n' => cases n <;> cases n' <;> simp [FV.lt, FV.real]
    | fin n' m' e' => cases n <;> simp [FV.lt, FV.real]
  | fin n m e =>
    cases y with
    | nan s => cases hy
    | inf n' => cases n' <;> simp [FV.lt, FV.real, EReal.coe_lt_top]
    | fin n' m' e' => rw [FV.lt_fin, FV.real_fin, FV.real_fin, EReal.coe_lt_coe_iff]

theorem FV.lt_nan {x y : FV} (h : x.isNan = true ∨ y.isNan = true) : x.lt y = false := by
  cases x <;> cases y <;> simp_all [FV.isNan, FV.lt]

theorem FV.isSig_iff (x : FV) : x.isSig = true ↔ x = .nan true := by cases x <;> simp [FV.isSig]

/-- The conditions for which any NaN is invalid (R171). -/
def FCond.ordered (cc : FCond) : Bool :=
  match cc with
  | .lt | .le | .gt | .ge => true
  | _ => false

theorem compares_fpCompare (cc : FCond) (x y : FV) : Compares cc x y (fpCompare cc x y) := by
  have nv : (fpCompare cc x y).2 = if x.isSig || y.isSig || ((x.isNan || y.isNan) && FCond.ordered cc) then flagNV else 0 := by
    cases cc <;> rfl
  have invalid : (x.isSig || y.isSig || ((x.isNan || y.isNan) && FCond.ordered cc)) = true ↔ x = .nan true ∨ y = .nan true ∨
      ((x.isNan = true ∨ y.isNan = true) ∧ (cc = .lt ∨ cc = .le ∨ cc = .gt ∨ cc = .ge)) := by
    cases cc <;> simp [FV.isSig_iff, or_assoc, FCond.ordered]
  refine ⟨?_, fun h => by rw [nv, if_pos (invalid.mpr h)], fun h => by rw [nv, if_neg (mt invalid.mp h)]⟩
  by_cases un : x.isNan = true ∨ y.isNan = true
  · have left : x.lt y = false := FV.lt_nan un
    have right : y.lt x = false := FV.lt_nan un.symm
    have any : (x.isNan || y.isNan) = true := by simpa using un
    cases cc <;> simp [fpCompare, any, un]
  · obtain ⟨hx, hy⟩ := not_or.mp un
    have hx := Bool.eq_false_iff.mpr hx
    have hy := Bool.eq_false_iff.mpr hy
    have less := FV.lt_iff hx hy
    have more := FV.lt_iff hy hx
    have less' : x.lt y = false ↔ y.real ≤ x.real := by rw [← Bool.not_eq_true, less, not_lt]
    have more' : y.lt x = false ↔ x.real ≤ y.real := by rw [← Bool.not_eq_true, more, not_lt]
    cases cc
    case eq => simpa [fpCompare, hx, hy, less', more'] using ⟨fun h => le_antisymm h.2 h.1, fun h => ⟨h.ge, h.le⟩⟩
    case ne => simp [fpCompare, hx, hy, less, more]
    all_goals simp [fpCompare, hx, hy, less, more, less', more']

/-! ## The lesser and the greater (R170) -/

/-- -0 stands below +0. -/
theorem FV.ltZ_iff {x y : FV} (hx : x.isNan = false) (hy : y.isNan = false) : x.ltZ y = true ↔
    x.real < y.real ∨ ((∃ e, x = .fin true 0 e) ∧ ∃ e, y = .fin false 0 e) := by
  unfold FV.ltZ
  rw [Bool.or_eq_true, FV.lt_iff hx hy]
  refine or_congr_right ⟨fun h => ?_, ?_⟩
  · split at h
    · next e e' => exact ⟨⟨e, rfl⟩, e', rfl⟩
    · cases h
  · rintro ⟨⟨e, rfl⟩, e', rfl⟩
    rfl

section Format
variable {F : FpFmt} (hF : F.Ok) (hs : F.specials = .ieee) {a b : Nat}

theorem FpFmt.decode_sign {n : Bool} (h : F.decode a = .inf n ∨ ∃ m e, F.decode a = .fin n m e) : F.negative a = n := by
  unfold FpFmt.decode at h
  dsimp only at h
  split_ifs at h <;> simp at h
  · exact h
  · exact h
  · exact h

include hF hs

/-- Two encodings of one value with one sign are the same. -/
theorem FpFmt.decode_inj (ha : a < 2 ^ F.width) (hb : b < 2 ^ F.width) (na : (F.decode a).isNan = false)
    (nb : (F.decode b).isNan = false) (h : (F.decode a).real = (F.decode b).real) (sign : F.negative a = F.negative b) : a = b := by
  cases x : F.decode a with
  | nan s => rw [x] at na; cases na
  | inf n =>
    cases y : F.decode b with
    | nan s => rw [y] at nb; cases nb
    | inf n' =>
      rw [FpFmt.decode_sign (.inl x), FpFmt.decode_sign (.inl y)] at sign
      rw [FpFmt.eq_infBits hs ha x, FpFmt.eq_infBits hs hb y, sign]
    | fin n' m' e' =>
      rw [x, y, FV.real_fin] at h
      cases n
      · exact absurd h.symm (EReal.coe_ne_top _)
      · exact absurd h.symm (EReal.coe_ne_bot _)
  | fin n m e =>
    cases y : F.decode b with
    | nan s => rw [y] at nb; cases nb
    | inf n' =>
      rw [x, y, FV.real_fin] at h
      cases n'
      · exact absurd h (EReal.coe_ne_top _)
      · exact absurd h (EReal.coe_ne_bot _)
    | fin n' m' e' =>
      rw [x, y, FV.real_fin, FV.real_fin, EReal.coe_eq_coe_iff] at h
      have left := (FpFmt.Holds.abs_eq hF ⟨ha, (x ▸ FV.is_fin.mpr rfl : (F.decode a).Is (finVal n m e))⟩).1
      have right := (FpFmt.Holds.abs_eq hF ⟨hb, (y ▸ FV.is_fin.mpr rfl : (F.decode b).Is (finVal n' m' e'))⟩).1
      rw [h, right] at left
      rw [FpFmt.eq_signBit_add ha, FpFmt.eq_signBit_add hb, sign, F.magnitude_strictMono.injective left]

omit hF hs in
/-- Values that are equal with unlike signs are zeros. -/
theorem FpFmt.zeros_of_signs (na : (F.decode a).isNan = false) (nb : (F.decode b).isNan = false)
    (h : (F.decode a).real = (F.decode b).real) (sa : F.negative a = true) (sb : F.negative b = false) :
    (∃ e, F.decode a = .fin true 0 e) ∧ ∃ e, F.decode b = .fin false 0 e := by
  cases x : F.decode a with
  | nan s => rw [x] at na; cases na
  | inf n =>
    obtain rfl := sa.symm.trans (FpFmt.decode_sign (.inl x))
    cases y : F.decode b with
    | nan s => rw [y] at nb; cases nb
    | inf n' =>
      obtain rfl := sb.symm.trans (FpFmt.decode_sign (.inl y))
      rw [x, y] at h
      simp [FV.real] at h
    | fin n' m' e' =>
      rw [x, y, FV.real_fin] at h
      exact absurd h.symm (EReal.coe_ne_bot _)
  | fin n m e =>
    obtain rfl := sa.symm.trans (FpFmt.decode_sign (.inr ⟨m, e, x⟩))
    cases y : F.decode b with
    | nan s => rw [y] at nb; cases nb
    | inf n' =>
      obtain rfl := sb.symm.trans (FpFmt.decode_sign (.inl y))
      rw [x, y, FV.real_fin] at h
      exact absurd h (EReal.coe_ne_top _)
    | fin n' m' e' =>
      obtain rfl := sb.symm.trans (FpFmt.decode_sign (.inr ⟨m', e', y⟩))
      rw [x, y, FV.real_fin, FV.real_fin, EReal.coe_eq_coe_iff] at h
      have zero : finVal true m e = 0 := by
        refine le_antisymm ?_ (h ▸ ?_)
        · simp only [finVal, if_true, neg_mul, one_mul, Left.neg_nonpos_iff]
          positivity
        · simp only [finVal, Bool.false_eq_true, if_false, one_mul]
          positivity
      obtain rfl := finVal_eq_zero.mp zero
      obtain rfl := finVal_eq_zero.mp (h ▸ zero)
      exact ⟨⟨e, rfl⟩, e', rfl⟩

theorem chooses_fpMinMax (greater : Bool) (ha : a < 2 ^ F.width) (hb : b < 2 ^ F.width) :
    F.Chooses greater a b (fpMinMax F greater a b) := by
  have flags : (fpMinMax F greater a b).2 = if F.decode a = .nan true ∨ F.decode b = .nan true then flagNV else 0 := by
    have : ((F.decode a).isSig || (F.decode b).isSig) = true ↔ F.decode a = .nan true ∨ F.decode b = .nan true := by
      rw [Bool.or_eq_true, FV.isSig_iff, FV.isSig_iff]
    rw [← if_congr this rfl rfl, fpMinMax]
    split_ifs <;> rfl
  have negative (n : Nat) (hn : n < 2 ^ F.width) : n / 2 ^ (F.exp + F.mant) = 1 ↔ F.negative n = true := by
    have lt : n / 2 ^ (F.exp + F.mant) < 2 := Nat.div_lt_of_lt_mul (by rwa [Nat.mul_comm, ← F.width_eq])
    rw [FpFmt.negative, Nat.add_comm F.mant, decide_eq_true_eq, Nat.mod_eq_of_lt lt]
  refine ⟨flags, fun hx hy => ?_, fun hx hy => ?_, fun hx hy => ?_, fun hx hy => ?_⟩
  · simp [fpMinMax, hx, hy]
  · simp [fpMinMax, hx, hy]
  · simp [fpMinMax, hx, hy]
  have val : (fpMinMax F greater a b).1 = if greater then (if (F.decode a).ltZ (F.decode b) then b else a)
      else (if (F.decode b).ltZ (F.decode a) then b else a) := by simp [fpMinMax, hx, hy]
  have less := FV.ltZ_iff hx hy
  have more := FV.ltZ_iff hy hx
  have zeros {x y : FV} (h : (∃ e, x = .fin true 0 e) ∧ ∃ e, y = .fin false 0 e) : x.real = y.real := by
    obtain ⟨⟨e, rfl⟩, e', rfl⟩ := h
    rw [FV.real_fin, FV.real_fin, finVal_zero, finVal_zero]
  refine ⟨fun lt => ?_, fun gt => ?_, fun eq neg => ?_, fun eq neg => ?_⟩
  · rw [val, if_pos (less.mpr (.inl lt)), if_neg (mt more.mp (not_or.mpr ⟨lt.not_gt, fun z => lt.ne (zeros z).symm⟩))]
  · rw [val, if_pos (more.mpr (.inl gt)), if_neg (mt less.mp (not_or.mpr ⟨gt.not_gt, fun z => gt.ne (zeros z).symm⟩))]
  · replace neg := (negative a ha).mp neg
    have notMore : ¬ (F.decode b).ltZ (F.decode a) = true := fun h => by
      obtain ⟨-, e, zero⟩ := (more.mp h).resolve_left eq.not_gt
      rw [FpFmt.decode_sign (.inr ⟨0, e, zero⟩)] at neg
      cases neg
    rw [val, if_neg notMore]
    refine if_congr Iff.rfl (ite_eq_left_iff.mpr fun h => ?_) rfl
    cases sb : F.negative b with
    | true => exact FpFmt.decode_inj hF hs ha hb hx hy eq (neg.trans sb.symm)
    | false => exact absurd (less.mpr (.inr (FpFmt.zeros_of_signs hx hy eq neg sb))) h
  · replace neg := Bool.eq_false_iff.mpr (mt (negative a ha).mpr neg)
    have notLess : ¬ (F.decode a).ltZ (F.decode b) = true := fun h => by
      obtain ⟨⟨e, zero⟩, -⟩ := (less.mp h).resolve_left eq.not_lt
      rw [FpFmt.decode_sign (.inr ⟨0, e, zero⟩)] at neg
      cases neg
    rw [val, if_neg notLess]
    refine if_congr Iff.rfl rfl (ite_eq_left_iff.mpr fun h => ?_)
    cases sb : F.negative b with
    | false => exact FpFmt.decode_inj hF hs ha hb hx hy eq (neg.trans sb.symm)
    | true => exact absurd (more.mpr (.inr (FpFmt.zeros_of_signs hy hx eq.symm sb neg))) h

end Format

end Sys2Proof.Machine
end

section
/-! The scalar floating-point instructions (R168 to R172). -/

namespace Sys2Proof.Machine

/-- A register written with a result and its flags. -/
theorem fpWrite_eq {p : Pred} {d : XReg} {f : State → Nat × Flags} {s : State} :
    fpWrite p d f s = .next ((if s.holds p then (s.setX d (BitVec.ofNat 64 (f s).1)).addFlags (f s).2 else s).retire .seq) :=
  plain_doing (by simp) (by simp)

/-- The significand of a decoded number lacks the leading bit where its magnitude is below the normal ones. -/
theorem FpFmt.decode_subnormal_iff {F : FpFmt} (hF : F.Ok) {b m : Nat} {n : Bool} {e : Int} (h : F.decode b = .fin n m e) :
    m < 2 ^ F.mant ↔ |finVal n m e| < (2 : ℝ) ^ (1 - F.bias) := by
  obtain ⟨E, k, hp, placed⟩ := F.exists_place (b % 2 ^ (F.exp + F.mant))
  have within : b % 2 ^ (F.exp + F.mant) ≤ F.maxBits := not_lt.mp fun l => FpFmt.decode_special l _ (h ▸ FV.is_fin.mpr rfl)
  rw [FpFmt.decode_place hF placed hp (hp ▸ within)] at h
  cases h
  have least : (2 : ℝ) ^ (1 - F.bias) = ((2 ^ F.mant : Nat) : ℝ) * 2 ^ F.qmin := by
    rw [Nat.cast_pow, Nat.cast_ofNat, ← zpow_natCast, ← zpow_add₀ two_ne_zero, FpFmt.qmin]
    exact congrArg _ (by ring)
  rw [abs_finVal, least]
  obtain full | rfl := placed.full
  · refine iff_of_false (not_lt.mpr full) (not_lt.mpr ?_)
    gcongr
    · exact one_le_two
    · omega
  · rw [Nat.cast_zero, add_zero, mul_lt_mul_iff_left₀ (zpow_pos two_pos _), Nat.cast_lt]

section Class
variable {F : FpFmt} (hF : F.Ok) {b : Nat}

/-- The class of a number, by its sign and its magnitude. -/
theorem fpClass_fin {m : Nat} {n : Bool} {e : Int} (h : F.decode b = .fin n m e) : fpClass F b =
    if m = 0 then (if n then 3 else 4) else if m < 2 ^ F.mant then (if n then 2 else 5) else if n then 1 else 6 := by
  rw [fpClass, h]

theorem fpClass_lt (F : FpFmt) (b : Nat) : fpClass F b < 10 := by
  unfold fpClass
  split
  all_goals split_ifs
  all_goals decide

include hF

theorem fpClass_normal_iff : (fpClass F b = 1 ∨ fpClass F b = 6) ↔ ∃ x, (F.decode b).Is x ∧ (2 : ℝ) ^ (1 - F.bias) ≤ |x| := by
  cases h : F.decode b with
  | nan s => cases s <;> simp [fpClass, h, FV.Is]
  | inf n => cases n <;> simp [fpClass, h, FV.Is]
  | fin n m e =>
    have sub := FpFmt.decode_subnormal_iff hF h
    have pm := Nat.two_pow_pos F.mant
    simp only [FV.is_fin, exists_eq_left, fpClass_fin h]
    rw [← not_lt, ← sub]
    split_ifs <;> simp <;> omega

theorem fpClass_subnormal_iff : (fpClass F b = 2 ∨ fpClass F b = 5) ↔
    ∃ x, (F.decode b).Is x ∧ x ≠ 0 ∧ |x| < (2 : ℝ) ^ (1 - F.bias) := by
  cases h : F.decode b with
  | nan s => cases s <;> simp [fpClass, h, FV.Is]
  | inf n => cases n <;> simp [fpClass, h, FV.Is]
  | fin n m e =>
    have sub := FpFmt.decode_subnormal_iff hF h
    simp only [FV.is_fin, exists_eq_left, fpClass_fin h, Ne, finVal_eq_zero]
    rw [← sub]
    split_ifs <;> simp <;> omega

end Class

/-- Settles O12: each instruction is one register write under its predicate; the classes follow from where a decoded significand
stands. -/
theorem scalarFloatingPoint : Obligations.ScalarFloatingPoint := by
  unfold Obligations.ScalarFloatingPoint
  intro p f rm cc d a b c s F bits mode A B C
  have selected : mode = s.mode rm := by cases rm <;> rfl
  have hF : F.Ok := viewFmt_ok f
  rw [selected]
  refine ⟨fpWrite_eq, fpWrite_eq, fpWrite_eq, fpWrite_eq, fpWrite_eq, fpWrite_eq, fpWrite_eq, fpWrite_eq, fpWrite_eq,
    fun greater x y hx hy => chooses_fpMinMax hF (viewFmt_specials f) greater hx hy, compares_fpCompare cc,
    fpClass F (bits a), fpClass_lt F _, fpWrite_eq, fpClass_normal_iff hF, fpClass_subnormal_iff hF, ?_⟩
  have kinds : (fpClass F (bits a) = match A with
    | .inf n => if n then 0 else 7
    | .nan sig => if sig then 8 else 9
    | .fin n m _ => if m = 0 then (if n then 3 else 4) else if m < 2 ^ F.mant then (if n then 2 else 5) else if n then 1 else 6) :=
    rfl
  rw [kinds]
  cases A with
  | nan s => cases s <;> simp
  | inf n => cases n <;> simp
  | fin n m e =>
    cases n <;> simp <;> split_ifs <;> simp [*]

end Sys2Proof.Machine
end

section
/-! Conversions (R97 to R99, R173, R178). -/

namespace Sys2Proof.Machine

/-! ## To the integers (R99) -/

/-- Between two neighbouring integers there is none. -/
theorem between_int (N : Nat) : Between (fun z => ∃ i : Int, z = i) (N * 1) ((N + 1) * 1) := by
  rintro z ⟨i, rfl⟩
  rw [mul_one, mul_one]
  obtain h | h := Nat.lt_or_ge N i.natAbs
  · exact .inr (by rw [← Int.cast_abs, Int.abs_eq_natAbs]; exact_mod_cast h)
  · exact .inl (by rw [← Int.cast_abs, Int.abs_eq_natAbs]; exact_mod_cast h)

/-- The integer of a number in the mode, before its bounds. -/
def intAt (mode : Mode) (n : Bool) (m : Nat) (e : Int) : Int :=
  if n then -((roundAt mode n false m e 0).1 : Int) else (roundAt mode n false m e 0).1

theorem intAt_zero (mode : Mode) (n : Bool) (e : Int) : roundAt mode n false 0 e 0 = (0, false) := by
  unfold roundAt
  split_ifs
  · simp
  · cases mode <;> cases n <;> simp [roundCut]

theorem intAt_spec (mode : Mode) (n : Bool) (m : Nat) (e : Int) :
    Takes mode (fun z => ∃ i : Int, z = i) (intAt mode n m e % 2 = 0) (finVal n m e) (intAt mode n m e) ∧
      ((roundAt mode n false m e 0).2 = true ↔ (intAt mode n m e : ℝ) ≠ finVal n m e) := by
  by_cases h0 : finVal n m e = 0
  · obtain rfl := finVal_eq_zero.mp h0
    have zero : intAt mode n 0 e = 0 := by simp [intAt, intAt_zero]
    rw [zero, h0, intAt_zero]
    refine ⟨⟨⟨0, rfl⟩, ?_⟩, by simp⟩
    cases mode <;> simp [eq_comm]
  · have sign := finVal_neg h0
    have mag : |finVal n m e| = m * (2 : ℝ) ^ e := abs_finVal n m e
    have cuts : Cuts false m (|finVal n m e| / (2 : ℝ) ^ e) := by
      rw [mag, Cuts, if_neg (by simp), mul_div_cancel_right₀ _ (zpow_pos two_pos e).ne']
    have spec := roundAt_spec (mode := mode) (neg := n) (q := 0) cuts nofun
    rw [zpow_zero] at spec
    have ints (z : ℝ) : (∃ i : Int, z = i) → ∃ i : Int, -z = i := by
      rintro ⟨i, rfl⟩
      exact ⟨-i, (Int.cast_neg i).symm⟩
    have even : (roundAt mode n false m e 0).1 % 2 = 0 → intAt mode n m e % 2 = 0 := by
      rw [intAt]
      split_ifs <;> omega
    have val : (if n then -1 else 1) * (((roundAt mode n false m e 0).1 : ℝ) * 1) = intAt mode n m e := by
      cases n <;> simp [intAt]
    generalize finVal n m e = x at *
    subst sign
    rw [← val]
    simp only [decide_eq_true_eq] at val ⊢
    refine ⟨takes_signed one_pos ints spec.1 (val ▸ ⟨_, rfl⟩) (fun N _ _ => between_int N) even, spec.2.trans (not_congr ?_)⟩
    rw [div_one, mul_one]
    split_ifs with neg
    · rw [abs_of_neg neg, neg_one_mul, neg_eq_iff_eq_neg]
    · rw [abs_of_nonneg (not_lt.mp neg), one_mul]

/-- A finite value in an integer format. -/
theorem encode_int_fin (w : Nat) (uns : Bool) (mode : Mode) (n : Bool) (m : Nat) (e : Int) :
    Saturates mode w (intBounds w uns).1 (intBounds w uns).2 (finVal n m e) ((Fmt.int w).encode uns mode (.fin n m e)) := by
  obtain ⟨takes, inexact⟩ := intAt_spec mode n m e
  have form : (Fmt.int w).encode uns mode (.fin n m e) =
      if intAt mode n m e < (intBounds w uns).1 then (wrapInt w (intBounds w uns).1, flagNV)
      else if (intBounds w uns).2 < intAt mode n m e then (wrapInt w (intBounds w uns).2, flagNV)
      else (wrapInt w (intAt mode n m e), if (roundAt mode n false m e 0).2 then flagNX else 0) := by
    simp only [Fmt.encode, FV.toInt, intAt]
    split_ifs <;> rfl
  have order : (intBounds w uns).1 ≤ (intBounds w uns).2 := by
    cases uns
    · have : (0 : Int) < 2 ^ (w - 1) := by positivity
      simp only [intBounds, Bool.false_eq_true, if_false]
      omega
    · have : (0 : Int) < 2 ^ w := by positivity
      simp only [intBounds, if_true]
      omega
  refine ⟨_, takes, fun low => ?_, fun high => ?_, fun low high => ?_⟩
  · rw [form, if_pos low]
    rfl
  · rw [form, if_neg (by omega), if_pos high]
    rfl
  · rw [form, if_neg (by omega), if_neg (by omega)]
    exact ⟨rfl, fun h => if_neg (mt inexact.mp (not_not.mpr h)), fun h => if_pos (inexact.mpr h)⟩

/-! ## From the integers -/

theorem is_ofInt (k : Int) : (FV.ofInt k).Is k := by
  rw [FV.ofInt, FV.is_fin, finVal_int 0 fun _ => rfl, zpow_zero, mul_one]

theorem signedOf_eq_toInt (w bits : Nat) : signedOf w bits = (BitVec.ofNat w bits).toInt := by
  rw [BitVec.toInt_eq_toNat_cond, BitVec.toNat_ofNat, signedOf]
  push_cast
  rfl

/-! ## Values in the formats -/

theorem conversionsOfValues : ConversionsOfValues := by
  refine ⟨fun w uns mode v _ => ?_, fun code G uns mode hG => ?_⟩
  · have bounds : intBounds w uns = (if uns then 0 else -(2 ^ (w - 1)), if uns then 2 ^ w - 1 else 2 ^ (w - 1) - 1) := by
      cases uns <;> rfl
    refine ⟨?_, ?_, ?_, fun x hx => ?_, fun bits => ⟨is_ofInt _, ?_⟩⟩
    · rintro sig rfl
      simp [Fmt.encode, FV.toInt, wrapInt]
    · rintro rfl
      simp only [Fmt.encode, FV.toInt, bounds]
      rfl
    · rintro rfl
      simp only [Fmt.encode, FV.toInt, bounds]
      rfl
    · obtain ⟨n, m, e, rfl, rfl⟩ := hx.eq_fin
      have := encode_int_fin w uns mode n m e
      rw [bounds] at this
      exact this
    · rw [← signedOf_eq_toInt]
      exact is_ofInt _
  · have conv (v : FV) : (fmtOf code).encode uns mode v = G.round mode v := by rw [hG]; rfl
    have inf (n : Bool) : G.round mode (.inf n) = G.infBits n := rfl
    have nan (sig : Bool) : G.round mode (.nan sig) = (G.canonicalNan, if sig || G.specials == .none then flagNV else 0) := rfl
    simp only [conv, inf, nan]
    refine ⟨?_, ?_, ?_, ?_, fun n e => FpFmt.roundFin_zero G mode n e⟩
    · rintro (rfl | rfl | rfl | rfl | rfl) n sig <;> cases hG <;> cases n <;> cases sig <;> decide
    · rintro rfl n sig
      cases hG
      cases n <;> cases sig <;> decide
    · rintro (rfl | rfl) n sig <;> cases hG <;> cases n <;> cases sig <;> decide
    · rintro rfl n sig
      cases hG
      cases n <;> cases sig <;> decide

/-! ## `FCVT` and `VFCVT` (R173, R178) -/

section Check
variable {c : CvtSpec} {s : State}

theorem checkCvt_fmtmix (h : ¬ (c.dst.toNat ≤ 12 ∧ c.src.toNat ≤ 12)) :
    (checkCvt c).run s = .error (.trap { cause := .fmtmix }) s := by
  have bad : (!convertible c.dst || !convertible c.src) = true := by
    rw [Bool.or_eq_true, Bool.not_eq_true', Bool.not_eq_true', convertible, convertible, decide_eq_false_iff_not,
      decide_eq_false_iff_not]
    omega
  simp [checkCvt, bad]

variable (hd : c.dst.toNat ≤ 12) (hs : c.src.toNat ≤ 12)
include hd hs

theorem checkCvt_illop (h : cvtClash c = true) : (checkCvt c).run s = .error (.trap { cause := .illop }) s := by
  simp [checkCvt, convertible, hd, hs, h]

theorem checkCvt_ok (h : cvtClash c = false) : (checkCvt c).run s = .ok ⟨⟩ s := by
  simp [checkCvt, convertible, hd, hs, h]

end Check

/-- The elements of a conversion have 1, 2, 4 or 8 bytes. -/
theorem cvtBytes_cases (c : CvtSpec) {code : BitVec 5} (h : code.toNat ≤ 12) :
    cvtBytes c code = 1 ∨ cvtBytes c code = 2 ∨ cvtBytes c code = 4 ∨ cvtBytes c code = 8 := by
  have all : ∀ (long : Bool) (code : BitVec 5), code.toNat ≤ 12 →
      ((if long && (fmtOf code).isInt then Fmt.int 64 else fmtOf code).width + 7) / 8 ∈ [1, 2, 4, 8] := by decide
  simpa [cvtBytes, cvtSide] using all c.long code h

/-- What passes its check goes on with the rest. -/
theorem perform_checked {check : Eff Unit} {f : Unit → Eff Next} {s : State} (hc : check.run s = .ok ⟨⟩ s) :
    perform (check >>= f) s = perform (f ⟨⟩) s := by simp only [perform, Eff.run_bind_ok hc]

/-- A flag of an OR is set where one of the parts sets it. -/
theorem getLsbD_foldl_or {α : Type} (f : α → Flags) (l : List α) (k : Nat) (fl : Flags) :
    (l.foldl (fun fl i => fl ||| f i) fl).getLsbD k = true ↔ fl.getLsbD k = true ∨ ∃ i ∈ l, (f i).getLsbD k = true := by
  induction l generalizing fl with
  | nil => simp
  | cons a l ih => simp [ih, or_assoc]

theorem cvtResult_float {c : CvtSpec} (h : (cvtSide c c.dst).isInt = false) (bits : Nat) :
    cvtResult c bits = BitVec.ofNat 64 bits := by
  unfold cvtResult
  cases e : cvtSide c c.dst with
  | int w => rw [e] at h; cases h
  | float | c2 | reserved => rfl

theorem cvtResult_int {c : CvtSpec} (h : (cvtSide c c.dst).isInt = true) (bits : Nat) : cvtResult c bits =
    if c.uns then BitVec.ofNat 64 bits else BitVec.ofInt 64 (signedOf (cvtSide c c.dst).width bits) := by
  unfold cvtResult
  cases e : cvtSide c c.dst with
  | int w => rfl
  | float | c2 | reserved => rw [e] at h; cases h

theorem getLsbD_orAll {α : Type} (f : α → Flags) (l : List α) (k : Nat) :
    (l.foldl (fun fl i => fl ||| f i) 0).getLsbD k = true ↔ ∃ i ∈ l, (f i).getLsbD k = true := by
  rw [getLsbD_foldl_or]
  exact or_iff_right (Bool.eq_false_iff.mp BitVec.getLsbD_zero)

/-! The elements of the part that `VFCVT` converts (R178). -/

section Part
variable {s : State} {p : Pred} {rm : Rm} {c : CvtSpec} {d a : VReg}

/-- The first element of the part in the destination. -/
def cvtLow (c : CvtSpec) : Nat :=
  if cvtBytes c c.src > cvtBytes c c.dst then c.part.toNat * (128 / max (cvtBytes c c.src) (cvtBytes c c.dst)) else 0

/-- One element of the destination. -/
def State.cvtElem (s : State) (rm : Rm) (c : CvtSpec) (a : VReg) (j : Nat) : Nat × Flags :=
  let src := if cvtBytes c c.src > cvtBytes c c.dst then j - cvtLow c
    else c.part.toNat * (128 / max (cvtBytes c c.src) (cvtBytes c c.dst)) + j
  cvtApply c (s.mode rm) (elem (s.v a) (8 * cvtBytes c c.src) src % 2 ^ (cvtSide c c.src).width)

/-- An element of the destination is one of the part, and selected. -/
def State.cvtOn (s : State) (p : Pred) (c : CvtSpec) (j : Nat) : Bool :=
  decide (cvtLow c ≤ j) && decide (j < cvtLow c + 128 / max (cvtBytes c c.src) (cvtBytes c c.dst)) &&
    s.predBit p (cvtBytes c c.dst * j)

theorem State.vfcvt_eq : s.vfcvt p rm c d a =
    (s.setV d (vecOf (8 * cvtBytes c c.dst) ((List.range (128 / cvtBytes c c.dst)).map fun j =>
      if s.cvtOn p c j then (s.cvtElem rm c a j).1 else elem (s.v d) (8 * cvtBytes c c.dst) j))).addFlags
    (((List.range (128 / cvtBytes c c.dst)).filter (s.cvtOn p c)).foldl (fun fl j => fl ||| (s.cvtElem rm c a j).2) 0) := rfl

theorem cvtLow_add (c : CvtSpec) (i : Nat) : cvtLow c + i = if cvtBytes c c.src > cvtBytes c c.dst then
    c.part.toNat * (128 / max (cvtBytes c c.src) (cvtBytes c c.dst)) + i else i := by
  rw [cvtLow]
  split_ifs <;> omega

/-- The part lies within the destination. -/
theorem cvtLow_le (hd : c.dst.toNat ≤ 12) (hs : c.src.toNat ≤ 12)
    (h : c.part.toNat < max (cvtBytes c c.src) (cvtBytes c c.dst) / min (cvtBytes c c.src) (cvtBytes c c.dst)) :
    cvtLow c + 128 / max (cvtBytes c c.src) (cvtBytes c c.dst) ≤ 128 / cvtBytes c c.dst := by
  unfold cvtLow
  obtain e | e | e | e := cvtBytes_cases c hs <;> obtain e' | e' | e' | e' := cvtBytes_cases c hd <;>
    simp only [e, e'] at h ⊢ <;> norm_num at h ⊢ <;> omega

theorem State.cvtElem_low (i : Nat) : s.cvtElem rm c a (cvtLow c + i) = cvtApply c (s.mode rm)
    (elem (s.v a) (8 * cvtBytes c c.src) (if cvtBytes c c.src > cvtBytes c c.dst then i
      else c.part.toNat * (128 / max (cvtBytes c c.src) (cvtBytes c c.dst)) + i) % 2 ^ (cvtSide c c.src).width) := by
  unfold State.cvtElem
  split_ifs with wide
  · rw [Nat.add_sub_cancel_left]
  · rw [cvtLow, if_neg wide, Nat.zero_add]

theorem State.cvtOn_iff {j : Nat} : s.cvtOn p c j = true ↔ ∃ i, i < 128 / max (cvtBytes c c.src) (cvtBytes c c.dst) ∧
    j = cvtLow c + i ∧ s.predBit p (cvtBytes c c.dst * j) = true := by
  simp only [State.cvtOn, Bool.and_eq_true, decide_eq_true_eq]
  constructor
  · rintro ⟨⟨lo, hi⟩, on⟩
    exact ⟨j - cvtLow c, by omega, by omega, on⟩
  · rintro ⟨i, hi, rfl, on⟩
    exact ⟨⟨by omega, by omega⟩, on⟩

end Part

/-- Settles O13: the values by the cut of a number at its last place, the instructions by their checks, their part and its
elements. -/
theorem conversions : Obligations.Conversions := by
  unfold Obligations.Conversions
  refine ⟨conversionsOfValues, fun p rm c d a vd va s => ⟨fun h => ?_, fun hd hs h => ?_, fun hd hs h => ?_⟩⟩
  · have bad := checkCvt_fmtmix (s := s) h
    exact ⟨perform_trap (Eff.run_bind_error bad), perform_trap (Eff.run_bind_error bad)⟩
  · have bad := checkCvt_illop (s := s) hd hs h
    exact ⟨perform_trap (Eff.run_bind_error bad), perform_trap (Eff.run_bind_error bad)⟩
  have good := checkCvt_ok (s := s) hd hs h
  intro S D mode conv r
  refine ⟨⟨cvtResult c r.1, fun hi => cvtResult_float hi _, fun hi => cvtResult_int hi _, ?_⟩, fun high => ?_, fun low => ?_⟩
  · exact (perform_checked good).trans (plain_doing (by simp) (by simp))
  · refine (perform_checked good).trans (perform_trap (s' := s) ?_)
    exact (congrArg (fun e => EStateM.run e s) (if_pos high)).trans rfl
  have within := cvtLow_le hd hs low
  have fills : 8 * cvtBytes c c.dst * (128 / cvtBytes c c.dst) ≤ 1024 := by
    have := Nat.mul_div_le 128 (cvtBytes c c.dst)
    rw [Nat.mul_assoc]
    omega
  have run : perform (doing fun s => s.vfcvt p rm c vd va) s = .next ((s.vfcvt p rm c vd va).retire .seq) :=
    perform_ok (doing_run _ s) (State.floor_ok rfl rfl)
  rw [State.vfcvt_eq (s := s)] at run
  refine ⟨_, _, (perform_checked good).trans ((congrArg (fun e => perform e s) (if_neg (not_le.mpr low))).trans run),
    fun k _ => ?_, fun i hi => ?_, fun j hj wide narrow => ?_⟩
  · simp only [getLsbD_orAll, List.mem_filter, List.mem_range, State.cvtOn_iff]
    constructor
    · rintro ⟨j, ⟨-, i, hi, rfl, on⟩, flag⟩
      rw [State.cvtElem_low] at flag
      exact ⟨i, hi, cvtLow_add c i ▸ on, flag⟩
    · rintro ⟨i, hi, on, flag⟩
      exact ⟨cvtLow c + i, ⟨by omega, i, hi, rfl, (cvtLow_add c i).symm ▸ on⟩, by rw [State.cvtElem_low]; exact flag⟩
  · have dst := cvtLow_add c i
    have on : s.cvtOn p c (cvtLow c + i) = s.predBit p (cvtBytes c c.dst * (cvtLow c + i)) := by
      rw [Bool.eq_iff_iff, State.cvtOn_iff]
      exact ⟨fun ⟨_, _, _, h⟩ => h, fun h => ⟨i, hi, rfl, h⟩⟩
    intro src dst'
    change elem _ _ (if _ then _ else _) = if s.predBit p (_ * (if _ then _ else _)) = true then _ else elem _ _ (if _ then _ else _)
    rw [← dst, elem_vecOf_range fills (by omega), on, State.cvtElem_low]
    by_cases sel : s.predBit p (cvtBytes c c.dst * (cvtLow c + i)) = true
    · rw [if_pos sel, if_pos sel]
      rfl
    · rw [if_neg sel, if_neg sel]
      exact elem_mod ..
  · have off : s.cvtOn p c j = false := by
      rw [Bool.eq_false_iff, Ne, State.cvtOn_iff]
      rintro ⟨i, hi, rfl, -⟩
      rw [cvtLow] at wide narrow
      split_ifs at wide narrow with big
      · have := wide big
        omega
      · have := narrow big
        omega
    rw [elem_vecOf_range fills hj, off]
    exact elem_mod ..

end Sys2Proof.Machine
end

section
/-! The sums of a vector register in their fixed orders (R105 to R107, R183, R184). -/

namespace Sys2Proof.Machine

/-! ## Runs of equal keys (R107, R183) -/

/-- A run of `len` further lanes is added from the left, and ends with the register or at a lane that does not belong to it. -/
theorem runSum_eq {on : Nat → Bool} {key : Nat → Nat} {add : Nat → Nat → Nat × Flags} {val : Nat → Nat} (len : Nat) :
    ∀ {n m : Nat} {acc : Nat × Flags}, len ≤ n → (∀ k, k < len → on (m + k) = true ∧ key (m + k) = key (m + k - 1)) →
      (len = n ∨ on (m + len) = false ∨ key (m + len) ≠ key (m + len - 1)) →
      runSum on key add val n m acc =
        ((List.range len).map (m + ·)).foldl (fun x i => ((add x.1 (val i)).1, x.2 ||| (add x.1 (val i)).2)) acc := by
  induction len with
  | zero =>
    intro n m acc _ _ stop
    cases n with
    | zero => rfl
    | succ n =>
      have ends : (on m && key m == key (m - 1)) = false := by
        obtain h | h | h := stop
        · cases h
        · rw [Nat.add_zero] at h
          rw [h, Bool.false_and]
        · rw [Nat.add_zero] at h
          rw [beq_false_of_ne h, Bool.and_false]
      rw [runSum, ends]
      rfl
  | succ len ih =>
    intro n m acc le run stop
    obtain ⟨n, rfl⟩ := Nat.exists_eq_succ_of_ne_zero (show n ≠ 0 by omega)
    have first := run 0 (Nat.succ_pos len)
    rw [Nat.add_zero] at first
    rw [runSum, first.1, beq_iff_eq.mpr first.2, Bool.and_self, if_pos rfl]
    have shift (k : Nat) : m + 1 + k = m + (k + 1) := by omega
    rw [ih (Nat.le_of_succ_le_succ le) (fun k hk => by rw [shift]; exact run (k + 1) (Nat.succ_lt_succ hk))
      (by rw [shift]; exact stop.imp_left Nat.succ.inj), List.range_succ_eq_map, List.map_cons, List.map_map, List.foldl_cons]
    simp only [Nat.add_zero, Function.comp_def, shift]

/-! ## The tree (R106) -/

section Tree
variable {F : FpFmt} {mode : Mode}

theorem length_treeLevel : ∀ l : List (Option Nat × Flags), (treeLevel F mode l).length = (l.length + 1) / 2
  | [] => rfl
  | [_] => by simp [treeLevel]
  | a :: b :: r => by
    rw [treeLevel, List.length_cons, length_treeLevel r, List.length_cons, List.length_cons]
    omega

/-- An element of a level is made of the two below it. -/
theorem treeLevel_getD : ∀ (l : List (Option Nat × Flags)) (i : Nat) (z : Option Nat × Flags), 2 * i + 1 < l.length →
    (treeLevel F mode l).getD i z = combine F mode (l.getD (2 * i) z) (l.getD (2 * i + 1) z)
  | [], i, z, h => absurd h (Nat.not_lt_zero _)
  | [_], i, z, h => by rw [List.length_singleton] at h; omega
  | a :: b :: r, 0, z, h => rfl
  | a :: b :: r, i + 1, z, h => by
    rw [List.length_cons, List.length_cons] at h
    exact treeLevel_getD r i z (by omega)

/-- Level l of the tree over the leaves. -/
def levelOf (F : FpFmt) (mode : Mode) (leaves : List (Option Nat × Flags)) (l : Nat) : List (Option Nat × Flags) :=
  (treeLevel F mode)^[l] leaves

theorem levelOf_succ (leaves : List (Option Nat × Flags)) (l : Nat) :
    levelOf F mode leaves (l + 1) = treeLevel F mode (levelOf F mode leaves l) := Function.iterate_succ_apply' ..

theorem length_levelOf {leaves : List (Option Nat × Flags)} {top l : Nat} (h : leaves.length = 2 ^ top) (hl : l ≤ top) :
    (levelOf F mode leaves l).length = 2 ^ (top - l) := by
  induction l with
  | zero => exact h
  | succ l ih =>
    have next : top - l = top - (l + 1) + 1 := by omega
    rw [levelOf_succ, length_treeLevel, ih (by omega), next, Nat.pow_succ]
    omega

theorem treeSum_eq (k : Nat) (leaves : List (Option Nat × Flags)) : treeSum F mode k leaves =
    (((levelOf F mode leaves k).getD 0 (none, 0)).1.getD 0, ((levelOf F mode leaves k).getD 0 (none, 0)).2) := by
  induction k generalizing leaves with
  | zero =>
    cases leaves with
    | nil => rfl
    | cons a r =>
      obtain ⟨x, fl⟩ := a
      cases x <;> rfl
  | succ k ih => exact ih (treeLevel F mode leaves)

end Tree

theorem elems_eq_pow (v : View) : v.elems = 2 ^ v.elems.log2 := by cases v <;> decide

/-- The OR of the flags of the active elements. -/
theorem State.flagsAre_actives (s : State) (p : Pred) (v : View) (f : Nat → Flags) :
    s.FlagsAre p v ((s.actives p v).foldl (fun fl i => fl ||| f i) 0) f := by
  intro k _
  rw [getLsbD_orAll]
  simp only [State.actives, List.mem_filter, List.mem_range, and_assoc]

/-! ## `VSEGADD` and `VREDF` (R183, R184) -/

/-- One addition of `VSEGADD`. -/
def State.segAdd (s : State) (v : View) (fl : Bool) (rm : Rm) (x y : Nat) : Nat × Flags :=
  if fl then fpAdd (viewFmt v) (s.mode rm) ((viewFmt v).decode x) ((viewFmt v).decode y) else ((x + y) % 2 ^ v.width, 0)

/-- A lane is the first of a run of equal keys. -/
def State.segStarts (s : State) (p : Pred) (v : View) (a : VReg) (i : Nat) : Bool :=
  !(decide (0 < i) && s.active? p v (i - 1) && elem (s.v a) v.width (i - 1) == elem (s.v a) v.width i)

/-- What `VSEGADD` writes to a lane. -/
def State.segOut (s : State) (p : Pred) (v : View) (fl : Bool) (rm : Rm) (a b : VReg) (i : Nat) : Nat × Flags :=
  if s.segStarts p v a i then runSum (s.active? p v) (elem (s.v a) v.width) (s.segAdd v fl rm) (elem (s.v b) v.width)
    (v.elems - 1 - i) (i + 1) (elem (s.v b) v.width i, 0) else (0, 0)

theorem execVsegadd_eq (p : Pred) (v : View) (fl : Bool) (rm : Rm) (d a b : VReg) (s : State) :
    execVsegadd p v fl rm d a b s = perform (doing fun s =>
      (s.setV d (s.perElem p v (s.v d) fun i => (s.segOut p v fl rm a b i).1)).addFlags
        ((s.actives p v).foldl (fun fl' i => fl' ||| (s.segOut p v fl rm a b i).2) 0)) s := rfl

theorem writesFpElements_vsegadd (s : State) (p : Pred) (v : View) (fl : Bool) (rm : Rm) (d a b : VReg) :
    WritesFpElements (.vsegadd p v fl rm d a b) p v d (s.segOut p v fl rm a b) s :=
  ⟨_, _, s.elementsAre_perElem p v _ _, s.flagsAre_actives p v _, (execVsegadd_eq p v fl rm d a b s).trans (perform_doing rfl rfl)⟩

/-- The leaves of the tree: the active elements. -/
def State.leaves (s : State) (p : Pred) (v : View) (a : VReg) : List (Option Nat × Flags) :=
  (List.range v.elems).map fun i => (if s.active? p v i then some (elem (s.v a) v.width i) else none, 0)

theorem execVredf_never (v : View) (rm : Rm) (d : XReg) (a : VReg) (s : State) : execVredf 8 v rm d a s = .next (s.retire .seq) := by
  unfold execVredf
  rw [perform_doing rfl rfl]
  rfl

theorem execVredf_eq {p : Pred} (h : p ≠ 8) (v : View) (rm : Rm) (d : XReg) (a : VReg) (s : State) :
    execVredf p v rm d a s = .next (((s.setX d (BitVec.ofNat 64
      (treeSum (viewFmt v) (s.mode rm) v.elems.log2 (s.leaves p v a)).1)).addFlags
      (treeSum (viewFmt v) (s.mode rm) v.elems.log2 (s.leaves p v a)).2).retire .seq) := by
  have some_ : notNever p = true := by simpa [notNever] using h
  have run : (doing fun s => if !notNever p then s else (s.setX d (BitVec.ofNat 64
      (treeSum (viewFmt v) (s.mode rm) v.elems.log2 (s.leaves p v a)).1)).addFlags
      (treeSum (viewFmt v) (s.mode rm) v.elems.log2 (s.leaves p v a)).2).run s = .ok .seq ((s.setX d (BitVec.ofNat 64
      (treeSum (viewFmt v) (s.mode rm) v.elems.log2 (s.leaves p v a)).1)).addFlags
      (treeSum (viewFmt v) (s.mode rm) v.elems.log2 (s.leaves p v a)).2) := by
    rw [doing_run, some_]
    rfl
  exact perform_ok run (State.floor_ok (by simp) (by simp))

/-- Settles O18: the runs by the lanes that follow their first, the tree by its levels, which halve. -/
theorem vectorSums : Obligations.VectorSums := by
  unfold Obligations.VectorSums
  intro p v fl rm d a b dx s W F mode key add on
  refine ⟨⟨_, writesFpElements_vsegadd s p v fl rm d a b, fun i j hij hj run first last => ⟨?_, fun k hik hkj => ?_⟩⟩,
    ?_, fun never => ?_⟩
  · have start : s.segStarts p v a i = true := by
      unfold State.segStarts
      obtain rfl | h | h := first
      · rfl
      · simp [show s.active? p v (i - 1) = false from h]
      · simp [show elem (s.v a) v.width (i - 1) ≠ elem (s.v a) v.width i from h]
    have next (k : Nat) (hk : k < j - i) : on (i + 1 + k) = true ∧ key (i + 1 + k) = key (i + 1 + k - 1) := by
      obtain ⟨selected, same⟩ := run (i + 1 + k) (by omega) (by omega)
      exact ⟨selected, same.trans (run (i + 1 + k - 1) (by omega) (by omega)).2.symm⟩
    have stop : j - i = v.elems - 1 - i ∨ on (i + 1 + (j - i)) = false ∨ key (i + 1 + (j - i)) ≠ key (i + 1 + (j - i) - 1) := by
      rw [show i + 1 + (j - i) = j + 1 by omega, Nat.add_sub_cancel, (run j hij le_rfl).2]
      exact last.imp_left fun h => by omega
    rw [State.segOut, if_pos start, runSum_eq (j - i) (by omega) next stop]
    refine congrArg (fun f => List.foldl f _ _) (funext₂ fun x k => ?_)
    cases fl with
    | true => rfl
    | false => exact congrArg (Prod.mk _) (flags_or_zero x.2)
  · obtain ⟨selected, same⟩ := run (k - 1) (by omega) (by omega)
    have later : s.segStarts p v a k = false := by
      have eq : elem (s.v a) v.width (k - 1) = elem (s.v a) v.width k := same.trans (run k (by omega) hkj).2.symm
      simp [State.segStarts, show s.active? p v (k - 1) = true from selected, eq, show 0 < k by omega]
    rw [State.segOut, later]
    rfl
  · rintro rfl
    exact execVredf_never v rm dx a s
  · have len : (s.leaves p v a).length = 2 ^ v.elems.log2 := by
      rw [State.leaves, List.length_map, List.length_range]
      exact elems_eq_pow v
    refine ⟨fun l i => (levelOf F mode (s.leaves p v a) l).getD i (none, 0), fun i hi => ?_, fun l i hi => ?_, v.elems.log2,
      (elems_eq_pow v).symm, ?_⟩
    · simp [levelOf, State.leaves, List.getD_eq_getElem?_getD, hi]
      rfl
    · have below : l + 1 ≤ v.elems.log2 := by
        by_contra h
        have small : v.elems < 2 ^ (l + 1) :=
          (elems_eq_pow v).trans_lt (Nat.pow_lt_pow_right (by decide) (by omega))
        rw [Nat.div_eq_of_lt small] at hi
        exact Nat.not_lt_zero _ hi
      have two : 2 * i + 1 < (levelOf F mode (s.leaves p v a) l).length := by
        rw [length_levelOf len (by omega), show v.elems.log2 - l = v.elems.log2 - (l + 1) + 1 by omega, Nat.pow_succ]
        rw [show v.elems / 2 ^ (l + 1) = 2 ^ (v.elems.log2 - (l + 1)) by
          rw [← Nat.pow_div below two_pos, ← elems_eq_pow v]] at hi
        omega
      simp only [levelOf_succ, treeLevel_getD _ _ _ two]
      rfl
    · have run := execVredf_eq never v rm dx a s
      rw [treeSum_eq] at run
      exact run

end Sys2Proof.Machine
end

section
/-! Jobs for the engines: their acceptance, and products into a purse (R103, R202, R210, R211, R217 to R219, R223). -/

namespace Sys2Proof.Machine

theorem perform_congr {e e' : Eff Next} {s : State} (h : e.run s = e'.run s) : perform e s = perform e' s := by
  simp only [perform, h]

/-! ## Tile descriptors (R202) -/

theorem checkTile_ok {p : Nat} {t : Tile} {s : State} (h : t.formatOk = true ∧ t.shapeOk = true ∧ t.windowOk p = true) :
    (checkTile p t).run s = .ok ⟨⟩ s := by
  obtain ⟨format, shape, window⟩ := h
  simp [checkTile, format, shape, window]

theorem checkCsr_ok {p : Nat} {b : Tile} {nnz : Nat} {s : State} (format : b.formatOk = true) (shape : b.shapeOk = true)
    (own : b.addr.toNat / 2 ^ 19 = (clusterWindow p).toNat / 2 ^ 19) (within : b.off + csrBytes b nnz ≤ 2 ^ 19)
    (scale : b.scaleOk b.rows.toNat b.cols.toNat = true) : (checkCsr p b nnz).run s = .ok ⟨⟩ s := by
  simp only [checkCsr, format, shape, own, scale, not_lt.mpr within, decide_true, decide_false, Bool.not_true, Bool.or_false,
    Bool.false_eq_true, if_false]
  rfl

/-! ## Acceptance (R210, R211) -/

section Submit
variable {d : XReg} {kind : JobKind} {copy : Bool} {s : State}

theorem Engine.room_iff (e : Engine) (q : Nat) : e.room q = true ↔ (SMap.at e.queues [] q).length < 16 := decide_eq_true_iff

theorem State.nextJobId_lt (s : State) : s.nextJobId < 2 ^ 16 := by
  have seq := (s.core s.active.core.toNat).seq.isLt
  unfold State.nextJobId
  omega

theorem State.jobId_eq (s : State) :
    BitVec.ofNat 4 (s.active.core.toNat % 8) ++ (s.core s.active.core.toNat).seq = BitVec.ofNat 16 s.nextJobId := by
  have seq := (s.core s.active.core.toNat).seq.isLt
  refine BitVec.eq_of_toNat_eq ?_
  rw [BitVec.toNat_append, BitVec.toNat_ofNat, BitVec.toNat_ofNat, Nat.mod_eq_of_lt s.nextJobId_lt,
    ← Nat.shiftLeft_add_eq_or_of_lt seq, Nat.shiftLeft_eq, State.nextJobId]
  omega

theorem State.jobId_setWidth (s : State) : (BitVec.ofNat 16 s.nextJobId).setWidth 64 = BitVec.ofNat 64 s.nextJobId := by
  have := s.nextJobId_lt
  refine BitVec.eq_of_toNat_eq ?_
  simp only [BitVec.toNat_setWidth, BitVec.toNat_ofNat]
  omega

/-- With room a job is accepted. -/
theorem submit_ok (h : s.JobRoom copy) : (submit copy d kind).run s = .ok .seq (s.accept copy d kind) := by
  obtain ⟨room, old⟩ := h
  have room := (Engine.room_iff _ _).mpr room
  rw [submit, Eff.run_bind_ok (Eff.run_get s)]
  simp only [room, Bool.not_true, Bool.false_eq_true, if_false]
  have accepted : ((s.mapCore s.active.core.toNat fun k => { k with
      seq := k.seq + 1
      jobs := SMap.put (SMap.erase k.jobs ((s.core s.active.core.toNat).seq - 256).toNat)
        (s.core s.active.core.toNat).seq.toNat (0, 0, false, 0, 0) }).mapEngine (clusterOfCore s.active.core) copy
      fun e => e.append (s.active.core.toNat % 8)
        { id := BitVec.ofNat 4 (s.active.core.toNat % 8) ++ (s.core s.active.core.toNat).seq, owner := s.active
          queue := s.queueOf (clusterOfCore s.active.core), fork := s.me.pts, lease := s.me.lease, kind := kind, thunk := none
          time := s.me.pts, units := [], batch := none, failed := none }).setX d
      (BitVec.setWidth 64 (BitVec.ofNat 4 (s.active.core.toNat % 8) ++ (s.core s.active.core.toNat).seq)) =
      s.accept copy d kind := by
    rw [s.jobId_eq, s.jobId_setWidth]
    rfl
  rw [accepted]
  split
  · next st e =>
    rw [if_neg (old st e)]
    rfl
  · rfl

/-- Without it, it waits. -/
theorem submit_wait (h : ¬ s.JobRoom copy) : (submit copy d kind).run s = .error (.wait .room) s := by
  rw [submit, Eff.run_bind_ok (Eff.run_get s)]
  by_cases room : ((s.cluster (clusterOfCore s.active.core)).engine copy).room (s.active.core.toNat % 8) = true
  · obtain ⟨st, e, pending⟩ : ∃ st, SMap.find (s.core s.active.core.toNat).jobs ((s.core s.active.core.toNat).seq - 256).toNat =
        some st ∧ st.1 = 0 := by
      by_contra none_
      exact h ⟨(Engine.room_iff _ _).mp room, fun st e z => none_ ⟨st, e, z⟩⟩
    simp only [room, Bool.not_true, Bool.false_eq_true, if_false, e, pending, if_true]
    exact Eff.run_bind_error (Eff.run_waitFor _ _)
  · simp only [room, Bool.not_false, if_true]
    exact Eff.run_bind_error (Eff.run_waitFor _ _)

theorem State.accept_times (s : State) (copy : Bool) (d : XReg) (kind : JobKind) : (s.accept copy d kind).times = s.times := by
  unfold State.accept
  rw [State.setX_times]
  rfl

end Submit

/-! ## The pages of a purse region (R103, R223) -/

section Region
variable {now : Bool} {t : Thread} {need : Need} {acc : BitVec 4} {faddr va : Word} {s v w : State}

theorem locateEntry_error {x : Stop} (h : (locate now t need acc faddr va).run s = .error x w) :
    (locateEntry now t need acc faddr va).run s = .error x w := by
  rw [locate, Eff.run_bind] at h
  cases e : (locateEntry now t need acc faddr va).run s with
  | ok r u => rw [e] at h; cases h
  | error y u =>
    rw [e] at h
    cases h
    rfl

theorem locateEntry_ok {pl : Place} (h : (locate now t need acc faddr va).run s = .ok pl w) :
    ∃ e, (locateEntry now t need acc faddr va).run s = .ok (pl, e) w := by
  rw [locate, Eff.run_bind] at h
  cases e : (locateEntry now t need acc faddr va).run s with
  | ok r u =>
    rw [e] at h
    cases h
    exact ⟨r.2, rfl⟩
  | error y u => rw [e] at h; cases h

/-- A part that is refused stops the check where the parts before it pass. -/
theorem checkRegion_error {before rest : List (Word × Nat)} {es : List Tlb} {x : Stop}
    (hb : (checkRegion t before).run s = .ok es v) (hr : (checkRegion t rest).run v = .error x w) :
    (checkRegion t (before ++ rest)).run s = .error x w := by
  induction before generalizing s es with
  | nil =>
    cases hb
    exact hr
  | cons part before ih =>
    obtain ⟨a, n⟩ := part
    rw [checkRegion, Eff.run_bind] at hb
    rw [List.cons_append, checkRegion, Eff.run_bind]
    cases first : (locateEntry false t .write 4 a a).run s with
    | error y u => rw [first] at hb; cases hb
    | ok r u =>
      obtain ⟨pl, e⟩ := r
      simp only [first] at hb ⊢
      cases pl with
      | purse pa l =>
        rw [Eff.run_bind_ok (Eff.run_get u)] at hb ⊢
        by_cases assay : u.assayBytes pa n = true
        · rw [if_pos assay] at hb
          cases hb
        · rw [if_neg assay, Eff.run_bind] at hb ⊢
          cases r : (checkRegion t before).run u with
          | error y u' => rw [r] at hb; cases hb
          | ok es' u' =>
            rw [r] at hb
            cases hb
            rw [ih r]
      | mem | win | host => cases hb

variable {part : Word × Nat} {rest : List (Word × Nat)}

/-- A part whose page cannot be written stops it with the fault. -/
theorem checkRegion_fault {x : Stop} (h : (locate false t .write 4 va va).run s = .error x w) (n : Nat) :
    (checkRegion t ((va, n) :: rest)).run s = .error x w := by
  rw [checkRegion]
  exact Eff.run_bind_error (locateEntry_error h)

theorem checkRegion_other {pl : Place} (h : (locate false t .write 4 va va).run s = .ok pl w) (hp : ∀ pa l, pl ≠ .purse pa l)
    (n : Nat) : (checkRegion t ((va, n) :: rest)).run s = .error (.trap { cause := .engflt, faddr := va, acc := 4 }) w := by
  obtain ⟨e, run⟩ := locateEntry_ok h
  rw [checkRegion, Eff.run_bind_ok run]
  cases pl with
  | purse pa l => exact absurd rfl (hp pa l)
  | mem | win | host => rfl

theorem checkRegion_assay {pa n : Nat} {l : BitVec 8} (h : (locate false t .write 4 va va).run s = .ok (.purse pa l) w)
    (ha : w.assayBytes pa n = true) :
    (checkRegion t ((va, n) :: rest)).run s = .error (.trap { cause := .assayw, faddr := va, acc := 4 }) w := by
  obtain ⟨e, run⟩ := locateEntry_ok h
  rw [checkRegion, Eff.run_bind_ok run]
  refine (Eff.run_bind_ok (Eff.run_get w)).trans ?_
  rw [if_pos ha]
  rfl

theorem checkPurse_align {base : Word} {m n stride : Nat} (h : base.toNat % 16 ≠ 0) :
    (checkPurse t base m n stride).run s = .error (.trap { cause := .align, faddr := base, acc := 4 }) s := by
  simp [checkPurse, aligned, h]

theorem checkPurse_error {base : Word} {m n stride : Nat} {x : Stop} (h : base.toNat % 16 = 0)
    (hr : (checkRegion t ((List.range m).flatMap fun i => partsOf (base + BitVec.ofNat 64 (16 * i * stride)) (16 * n))).run s =
      .error x w) : (checkPurse t base m n stride).run s = .error x w := by
  have al : aligned base 16 = true := by simp [aligned, h]
  rw [checkPurse, al]
  exact Eff.run_bind_error hr

end Region

/-! ## Products into a purse (R217 to R219) -/

section Product
variable {t : Thread} {a b : Tile} {k n : Nat} {tb : Bool} {r : XReg} {fp64 : Bool} {stride : BitVec 16} {s u : State}

/-- The shape as the model computes it. -/
def shapeFits (a : Tile) (k n : Nat) (tb : Bool) : Bool :=
  decide (a.cols.toNat = k) && decide (a.rows.toNat ≤ 64) && decide (n ≤ 64) &&
    (decide (k ≤ 64) || (decide (k ≤ 128) && a.fmt == 8 && tb))

theorem shapeFits_iff : shapeFits a k n tb = true ↔ productFits a k n tb := by
  simp [shapeFits, productFits, and_assoc]

theorem checkProduct_fmtmix (h : mixPurse a.fmt b.fmt = false) :
    (checkProduct t a b k n tb (.purse r fp64 stride)).run s = .error (.trap { cause := .fmtmix }) s := by
  simp [checkProduct, h]

theorem checkProduct_engflt (h : mixPurse a.fmt b.fmt = true) (hp : ¬ productFits a k n tb) :
    (checkProduct t a b k n tb (.purse r fp64 stride)).run s = .error (.trap { cause := .engflt }) s := by
  rw [← shapeFits_iff, Bool.not_eq_true, shapeFits] at hp
  rw [checkProduct, Eff.run_bind_ok (Eff.run_get s)]
  simp only [h, hp, Bool.not_true, Bool.not_false, Bool.false_eq_true, if_false, if_true]
  rfl

theorem checkProduct_pages (h : mixPurse a.fmt b.fmt = true) (hp : productFits a k n tb) :
    (checkProduct t a b k n tb (.purse r fp64 stride)).run s =
      (checkPurse t (s.x r) a.rows.toNat n stride.toNat >>= fun pages => pure (JobDst.purse (s.x r) fp64 stride pages)).run s := by
  rw [← shapeFits_iff, shapeFits] at hp
  rw [checkProduct, Eff.run_bind_ok (Eff.run_get s)]
  simp only [h, hp, Bool.not_true, Bool.false_eq_true, if_false]

end Product

theorem mixPurse_iff (a b : BitVec 5) : mixPurse a b = true ↔
    (4 ≤ a.toNat ∧ a.toNat ≤ 8 ∧ 4 ≤ b.toNat ∧ b.toNat ≤ 8) ∨ (a = b ∧ a.toNat ≤ 3) := by
  revert a b
  decide +kernel

/-- What a product checks once its descriptors are sound, and its submission. -/
def submitPurse (t : Thread) (a b : Tile) (k n : Nat) (tb : Bool) (r : XReg) (fp64 : Bool) (stride : BitVec 16) (d : XReg)
    (kind : JobDst → JobKind) : Eff Next := do
  let jd ← checkProduct t a b k n tb (.purse r fp64 stride)
  submit false d (kind jd)

section Dense
variable {d r : XReg} {a b : TReg} {fp64 acc tb : Bool} {stride : BitVec 16} {s : State}

theorem submitDense_purse (ha : s.TileOk (s.t a)) (hb : s.TileOk (s.t b)) (mask : Option (BitVec 8 × Bool × Fill)) :
    (submitDense d a b (.purse r fp64 stride) acc tb mask).run s =
      (submitPurse (s.threadOf s.active) (s.t a) (s.t b) (if tb then (s.t b).cols.toNat else (s.t b).rows.toNat)
        (if tb then (s.t b).rows.toNat else (s.t b).cols.toNat) tb r fp64 stride d
        (fun jd => .mma (s.t a) (s.t b) jd acc tb mask)).run s := by
  rw [submitDense, Eff.run_bind_ok (Eff.run_get s)]
  refine (Eff.run_bind_ok (checkTile_ok ha)).trans ((Eff.run_bind_ok (checkTile_ok hb)).trans ?_)
  cases tb <;> rfl

end Dense

/-- Settles O30: the three instructions come to one submission, whose checks fail one after another. -/
theorem purseProductsSubmitted : Obligations.PurseProductsSubmitted := by
  unfold Obligations.PurseProductsSubmitted
  intro p d r a b fp64 tb stride diag up fill nnz s u pages hs hp ta tB cluster dst job outcome
  have all (i : Instr) (e : Eff Next) (kind : JobDst → JobKind) (k n : Nat) (t : Bool) (he : exec i s = guarded p e s)
      (run : e.run s = (submitPurse (s.threadOf s.active) ta tB k n t r fp64 stride d kind).run s) :
      outcome i (kind job) k n t := by
    have hi : exec i s = perform (submitPurse (s.threadOf s.active) ta tB k n t r fp64 stride d kind) s :=
      he.trans ((guarded_holds hs hp).trans (perform_congr run))
    -- with a legal mix and a shape that fits, what the region's check does comes out
    have region {x : Stop} {w : State} (mix : mixPurse ta.fmt tB.fmt = true) (fits : productFits ta k n t)
        (h : (checkPurse (s.threadOf s.active) (s.x r) ta.rows.toNat n stride.toNat).run s = .error x w) :
        (submitPurse (s.threadOf s.active) ta tB k n t r fp64 stride d kind).run s = .error x w :=
      Eff.run_bind_error ((checkProduct_pages mix fits).trans (Eff.run_bind_error h))
    refine ⟨mixPurse_iff _ _, fun mix => ?_, fun mix fits => ?_, fun mix fits ok floor => ?_, fun mix fits => ⟨fun low => ?_, ?_⟩⟩
    · exact hi.trans (perform_trap (Eff.run_bind_error (checkProduct_fmtmix mix)))
    · exact hi.trans (perform_trap (Eff.run_bind_error (checkProduct_engflt mix fits)))
    · have checked : (checkProduct (s.threadOf s.active) ta tB k n t (.purse r fp64 stride)).run s = .ok job u :=
        (checkProduct_pages mix fits).trans (Eff.run_bind_ok ok)
      refine ⟨fun room => hi.trans (perform_ok ((Eff.run_bind_ok checked).trans (submit_ok room)) ?_),
        fun full => hi.trans (perform_wait ((Eff.run_bind_ok checked).trans (submit_wait full)) floor.holds)⟩
      exact (floor.of_times (u.accept_times _ _ _)).holds
    · exact hi.trans (perform_trap (region mix fits (checkPurse_align low)))
    · intro low before va size after es v parts passed
      have refused {f : Trap} {w : State}
          (h : (checkRegion (s.threadOf s.active) ((va, size) :: after)).run v = .error (.trap f) w) :
          exec i s = .next (s.raise s.active f) :=
        hi.trans (perform_trap (region mix fits (checkPurse_error low (parts ▸ checkRegion_error passed h))))
      refine ⟨fun f w fault => refused (checkRegion_fault fault size), fun pl w located =>
        ⟨fun other => refused (checkRegion_other located other size), ?_⟩⟩
      rintro pa l rfl assay
      exact refused (checkRegion_assay located assay)
  refine ⟨fun ha hb => ⟨?_, ?_⟩, fun ha format shape own within scale => ?_⟩
  · exact all _ _ (fun jd => .mma ta tB jd false tb none) _ _ tb rfl (submitDense_purse ha hb none)
  · exact all _ _ (fun jd => .mma ta tB jd false tb (some (diag, up, fill))) _ _ tb rfl (submitDense_purse ha hb _)
  · refine all _ _ (fun jd => .mmas ta tB jd false nnz.toNat) _ _ false rfl ?_
    refine (Eff.run_bind_ok (Eff.run_get s)).trans ((Eff.run_bind_ok (checkTile_ok ha)).trans ?_)
    exact (Eff.run_bind_ok (checkCsr_ok format shape own within scale)).trans rfl

end Sys2Proof.Machine
end

section
/-! Purse cells and their lines, and what a located access leaves as it was (R258 to R271). -/

namespace Sys2Proof.Machine

/-! ## Bits replaced in a number -/

theorem testBit_setBits (x pos w v i : Nat) : (setBits x pos w v).testBit i =
    if i < pos then x.testBit i else if i < pos + w then v.testBit (i - pos) else x.testBit i := by
  have form : setBits x pos w v = 2 ^ pos * (2 ^ w * (x / 2 ^ (pos + w)) + v % 2 ^ w) + x % 2 ^ pos := by
    rw [setBits, Nat.pow_add]
    ring
  rw [form, Nat.testBit_two_pow_mul_add _ (Nat.mod_lt _ (Nat.two_pow_pos _)),
    Nat.testBit_two_pow_mul_add _ (Nat.mod_lt _ (Nat.two_pow_pos _)), Nat.testBit_mod_two_pow, Nat.testBit_mod_two_pow,
    Nat.testBit_div_two_pow]
  by_cases low : i < pos
  · simp [low]
  · by_cases mid : i < pos + w
    · simp [low, mid, show i - pos < w by omega]
    · simp [low, mid, show ¬ i - pos < w by omega, show i - pos - w + (pos + w) = i by omega]

theorem setBits_same (x pos w v : Nat) : setBits x pos w v / 2 ^ pos % 2 ^ w = v % 2 ^ w := by
  refine Nat.eq_of_testBit_eq fun i => ?_
  simp only [Nat.testBit_mod_two_pow, Nat.testBit_div_two_pow, testBit_setBits]
  by_cases h : i < w
  · simp [h, show ¬ i + pos < pos by omega, show i + pos < pos + w by omega]
  · simp [h]

/-- The bits below and above are as they were. -/
theorem setBits_other {pos w q n : Nat} (h : q + n ≤ pos ∨ pos + w ≤ q) (x v : Nat) :
    setBits x pos w v / 2 ^ q % 2 ^ n = x / 2 ^ q % 2 ^ n := by
  refine Nat.eq_of_testBit_eq fun i => ?_
  simp only [Nat.testBit_mod_two_pow, Nat.testBit_div_two_pow, testBit_setBits]
  by_cases hi : i < n
  · obtain h | h := h
    · simp [hi, show i + q < pos by omega]
    · simp [hi, show ¬ i + q < pos by omega, show ¬ i + q < pos + w by omega]
  · simp [hi]

theorem setBits_lt {x pos w n : Nat} (hx : x < 2 ^ n) (h : pos + w ≤ n) (v : Nat) : setBits x pos w v < 2 ^ n := by
  refine Nat.lt_pow_two_of_testBit _ fun i hi => ?_
  rw [testBit_setBits, if_neg (by omega), if_neg (by omega)]
  exact Nat.testBit_lt_two_pow (hx.trans_le (Nat.pow_le_pow_right two_pos hi))

/-! ## Cells (R258, R259) -/

theorem Cell.bits_lt (c : Cell) : c.bits < 2 ^ 128 := by
  have acc := c.acc.isLt
  unfold Cell.bits
  split_ifs <;> omega

theorem Cell.ofBits_bits (c : Cell) : Cell.ofBits c.bits = c := by
  obtain ⟨nan, nin, pin, aov, acc⟩ := c
  have lt := acc.isLt
  have low : (Cell.bits ⟨nan, nin, pin, aov, acc⟩) % 2 ^ 124 = acc.toNat := by
    unfold Cell.bits
    cases nan <;> cases nin <;> cases pin <;> cases aov <;> simp <;> omega
  have bits : (Cell.bits ⟨nan, nin, pin, aov, acc⟩) / 2 ^ 124 =
      (if aov then 1 else 0) + (if pin then 2 else 0) + (if nin then 4 else 0) + (if nan then 8 else 0) := by
    unfold Cell.bits
    cases nan <;> cases nin <;> cases pin <;> cases aov <;> simp <;> omega
  generalize (Cell.bits ⟨nan, nin, pin, aov, acc⟩) = n at low bits
  have flag (k : Nat) : n.testBit (124 + k) = (n / 2 ^ 124).testBit k := by rw [Nat.testBit_div_two_pow, Nat.add_comm]
  have acc' : BitVec.ofNat 124 n = acc := BitVec.eq_of_toNat_eq (by rw [BitVec.toNat_ofNat, low])
  rw [Cell.ofBits, flag 3, flag 2, flag 1, flag 0, acc', bits]
  cases nan <;> cases nin <;> cases pin <;> cases aov <;> rfl

/-- The cell that is set is the new one. -/
theorem DepositLine.cell_setCell_same (x : DepositLine) {off : Nat} (h : off + 16 ≤ 128) (c : Cell) :
    (x.setCell off c).cell off = c := by
  have lt := setBits_lt x.data.isLt (show 8 * off + 128 ≤ 1024 by omega) c.bits
  rw [DepositLine.cell, DepositLine.setCell, BitVec.toNat_ofNat, Nat.mod_eq_of_lt lt, setBits_same,
    Nat.mod_eq_of_lt c.bits_lt, Cell.ofBits_bits]

/-- The other cells of the line are as they were. -/
theorem DepositLine.cell_setCell_other (x : DepositLine) {off off' : Nat} (h : off + 16 ≤ 128)
    (ne : off' + 16 ≤ off ∨ off + 16 ≤ off') (c : Cell) : (x.setCell off c).cell off' = x.cell off' := by
  have lt := setBits_lt x.data.isLt (show 8 * off + 128 ≤ 1024 by omega) c.bits
  rw [DepositLine.cell, DepositLine.setCell, BitVec.toNat_ofNat, Nat.mod_eq_of_lt lt, setBits_other (by omega)]
  rfl

/-! ## Lines in their deposit cache (R270) -/

/-- The bytes of a line do not change where another one is written back. -/
theorem Memory.readN_writeN_other (m : Memory) {line line' : Nat} (h : line ≠ line') (v : Nat) :
    (m.writeN (line' * 128) 128 v).readN (line * 128) 128 = m.readN (line * 128) 128 :=
  Memory.readN_congr fun i lo hi => Memory.read_writeN_out m v (by omega)

theorem State.depositHome_line (s : State) (line : Nat) : (s.depositHome line).line = line := by
  unfold State.depositHome
  cases found : s.deposit.find? fun x => x.line = line with
  | none => rfl
  | some x => simpa using List.find?_some found

/-- A purse line brought into its deposit cache stands first there, as it stands at its home. -/
theorem State.depositTouch_form (s : State) (line : Nat) : ∃ (r : List DepositLine) (m : SMap Ts) (h : Memory) (w : List Nat),
    s.depositTouch line = { s with deposit := s.depositHome line :: r, depositMts := m, hbm := h, depositWritebacks := w } := by
  unfold State.depositTouch State.depositHome
  cases found : s.deposit.find? fun x => x.line = line with
  | some x => exact ⟨_, _, _, _, rfl⟩
  | none =>
    by_cases room : (s.deposit.filter fun x => s.depositSet x.line = s.depositSet line).length < 24
    · simp only [room, if_true]
      cases (s.deposit.filter fun x => s.depositSet x.line = s.depositSet line).getLast? with
      | none => exact ⟨_, _, _, _, rfl⟩
      | some v => exact ⟨_, _, _, _, rfl⟩
    · simp only [room, if_false]
      cases last : (s.deposit.filter fun x => s.depositSet x.line = s.depositSet line).getLast? with
      | none => exact ⟨_, _, _, _, rfl⟩
      | some v =>
        have other : line ≠ v.line := by
          have mem := (List.mem_filter.mp (List.mem_of_getLast? last)).1
          simpa [eq_comm] using List.find?_eq_none.mp found v mem
        have data : (if v.dirty then s.hbm.writeN (v.line * 128) 128 v.data.toNat else s.hbm).readN (line * 128) 128 =
            s.hbm.readN (line * 128) 128 := by
          split
          · exact Memory.readN_writeN_other s.hbm other _
          · rfl
        have raised := SMap.at_put_self s.depositMts s.stampBase (s.depositSet line).1
          (tsMax (SMap.at s.depositMts s.stampBase (s.depositSet line).1) v.stamp.rts)
        simp only [data, raised]
        exact ⟨_, _, _, _, rfl⟩

/-- A line that is held and changed is as it was changed. -/
theorem State.depositLine_setDeposit {s : State} {x : DepositLine} (h : ∃ y ∈ s.deposit, y.line = x.line) :
    (s.setDeposit x).depositLine x.line = x := by
  have held (l : List DepositLine) (h : ∃ y ∈ l, y.line = x.line) :
      (l.map fun y => if y.line = x.line then x else y).find? (fun y => y.line = x.line) = some x := by
    induction l with
    | nil => simp at h
    | cons z r ih =>
      by_cases hz : z.line = x.line
      · simp [hz]
      · have rest := ih (by simpa [hz] using h)
        simpa [hz] using rest
  rw [State.depositLine, State.setDeposit, held _ h]
  rfl

/-! ## What a located address leaves as it was (R71, R76) -/

/-- All but the cores, whose TLBs a translation may fill. -/
def State.sansCores (s : State) : State := { s with cores := [] }

theorem translateHeld_sansCores {t : Thread} {fetch : Bool} {acc : BitVec 4} {faddr va : Word} :
    Eff.Fixes State.sansCores (translateHeld t fetch acc faddr va) := by
  refine .get fun s => .when .throw fun _ => ?_
  split
  · exact .bind (.modify fun _ => by rfl) fun _ => .pure
  · exact .ite .throw fun _ _ _ h => by cases h

theorem locate_sansCores {t : Thread} {need : Need} {acc : BitVec 4} {faddr va : Word} :
    Eff.Fixes State.sansCores (locate false t need acc faddr va) := by
  refine .bind ?_ fun _ => .pure
  unfold locateEntry
  refine .ite (.get fun s => ?_) (.ite (.bind translateHeld_sansCores fun _ => .bind placeOf_fixes fun _ => .pure) .throw)
  split
  · exact .pure
  · exact .throw

end Sys2Proof.Machine
end

section
/-! The purse instructions and the mint (R258 to R271). -/

namespace Sys2Proof.Machine

/-! ## The address of a cell (R103, R265) -/

section Locate
variable {need : Need} {va : Word} {s t : State}

theorem locateCell_align (h : va.toNat % 16 ≠ 0) :
    (locateCell need va).run s = .error (.trap { cause := .align, faddr := va, acc := 4 }) s := by
  have al : aligned va 16 = false := by simp [aligned, h]
  rw [locateCell, al]
  rfl

theorem locateCell_window (h : va.toNat % 16 = 0) (hw : isWindow va = true) :
    (locateCell need va).run s = .error (.trap { cause := .window, faddr := va, acc := 4 }) s := by
  have al : aligned va 16 = true := by simp [aligned, h]
  rw [locateCell, al, hw]
  rfl

variable (h : va.toNat % 16 = 0) (hw : isWindow va = false)
include h hw

/-- Past the first two checks the page decides. -/
theorem locateCell_page : (locateCell need va).run s = (locate false (s.threadOf s.active) need 4 va va >>= fun pl =>
    match pl with
    | .purse pa l => do
      if need == .write && (← get).assayBytes pa 16 then fail .assayw va 4
      return (pa, l)
    | _ => fail .perm va 4).run s := by
  have al : aligned va 16 = true := by simp [aligned, h]
  rw [locateCell, al, hw]
  exact Eff.run_bind_ok (Eff.run_get s)

theorem locateCell_perm {pl : Place} (hl : (locate false (s.threadOf s.active) need 4 va va).run s = .ok pl t)
    (hp : ∀ pa l, pl ≠ .purse pa l) : (locateCell need va).run s = .error (.trap { cause := .perm, faddr := va, acc := 4 }) t := by
  rw [locateCell_page h hw, Eff.run_bind_ok hl]
  cases pl with
  | purse pa l => exact absurd rfl (hp pa l)
  | mem | win | host => rfl

variable {pa : Nat} {l : BitVec 8} (hl : (locate false (s.threadOf s.active) need 4 va va).run s = .ok (.purse pa l) t)
include hl

theorem locateCell_assay (hn : need = .write) (ha : t.assayBytes pa 16 = true) :
    (locateCell need va).run s = .error (.trap { cause := .assayw, faddr := va, acc := 4 }) t := by
  subst hn
  rw [locateCell_page h hw, Eff.run_bind_ok hl]
  refine (Eff.run_bind_ok (Eff.run_get t)).trans ?_
  rw [ha]
  rfl

theorem locateCell_ok (ha : need = .write → t.assayBytes pa 16 = false) : (locateCell need va).run s = .ok (pa, l) t := by
  rw [locateCell_page h hw, Eff.run_bind_ok hl]
  refine (Eff.run_bind_ok (Eff.run_get t)).trans ?_
  have free : (need == .write && t.assayBytes pa 16) = false := by
    cases need with
    | write => simp [ha rfl]
    | read | both | fetch => rfl
  rw [free]
  rfl

end Locate

/-! ## Posting (R264, R266) -/

/-- The operation as the active context posts it. -/
def State.posting (s : State) (at_ : Nat × BitVec 8) (op : PurseOp) : Posted :=
  { poster := .context s.active, queue := s.queueOf (clusterOfCore s.active.core), pa := BitVec.ofNat 52 at_.1, pexp := at_.2
    op := op, pts := s.me.pts }

theorem State.me_post (s : State) (at_ : Nat × BitVec 8) (op : PurseOp) : (s.post at_ op).me = { s.me with dout := s.me.dout + 1 } :=
  s.me_mapMe fun k => { k with dout := k.dout + 1 }

theorem State.posting_post (s : State) (at_ at' : Nat × BitVec 8) (op op' : PurseOp) :
    (s.post at_ op).posting at' op' = s.posting at' op' := by
  unfold State.posting
  rw [State.me_post]
  rfl

/-- Operations posted one after another. -/
def State.postAll (s : State) (ops : List ((Nat × BitVec 8) × PurseOp)) : State := ops.foldl (fun s e => s.post e.1 e.2) s

theorem State.posted_postAll (s : State) (ops : List ((Nat × BitVec 8) × PurseOp)) :
    (s.postAll ops).posted = s.posted ++ ops.map fun e => s.posting e.1 e.2 := by
  induction ops generalizing s with
  | nil => exact (List.append_nil _).symm
  | cons e r ih =>
    have rest := ih (s.post e.1 e.2)
    simp only [State.posting_post] at rest
    exact rest.trans (List.append_assoc ..)

theorem State.me_postAll (s : State) (ops : List ((Nat × BitVec 8) × PurseOp)) :
    (s.postAll ops).me = { s.me with dout := s.me.dout + ops.length } := by
  induction ops generalizing s with
  | nil => rfl
  | cons e r ih =>
    refine (ih (s.post e.1 e.2)).trans ?_
    rw [State.me_post, List.length_cons, Nat.add_comm r.length, ← Nat.add_assoc]

theorem State.postAll_times (s : State) (ops : List ((Nat × BitVec 8) × PurseOp)) : (s.postAll ops).times = s.times :=
  foldl_keeps State.times fun _ _ => by rfl

theorem State.postAll_sameBytes (s : State) (ops : List ((Nat × BitVec 8) × PurseOp)) : (s.postAll ops).SameBytes s := fun p =>
  (foldl_keeps (fun s : State => s.peekByte p) fun _ _ => by rfl).symm

/-- Operations that are made of what a post leaves as it was. -/
theorem State.foldl_post {α : Type} (at_ : α → Nat × BitVec 8) (op : State → α → PurseOp)
    (h : ∀ (s : State) a b, op (s.post (at_ a) (op s a)) b = op s b) (l : List α) (s : State) :
    l.foldl (fun s a => s.post (at_ a) (op s a)) s = s.postAll (l.map fun a => (at_ a, op s a)) := by
  induction l generalizing s with
  | nil => rfl
  | cons a l ih =>
    rw [List.foldl_cons, ih]
    simp only [h]
    rfl

/-! ## The mint (R266, R271, R284) -/

/-- A purse line is used where no soft error lies. -/
theorem meetPurse_ok {secure : Bool} {acc : BitVec 4} {line : Nat} {s : State} (h : s.softErrors = []) :
    (meetPurse secure acc line).run s = .ok ⟨⟩ s := by
  rw [meetPurse, Eff.run_bind_ok (Eff.run_get s), meetError, Eff.run_bind_ok (Eff.run_get s), h]
  rfl

theorem readyPurse_ok {t : Thread} {acc : BitVec 4} {line : Nat} {s : State} (h : s.softErrors = [])
    (hw : s.depositWritebacks.contains line = false) : (readyPurse t acc line).run s = .ok ⟨⟩ s := by
  rw [readyPurse, Eff.run_bind_ok (Eff.run_get s), hw]
  exact meetPurse_ok h

/-- The line of an operation after it. -/
def Posted.line (o : Posted) (x : DepositLine) : DepositLine :=
  { x.setCell (o.pa.toNat % 128) (o.op.apply o.pexp.toInt (x.cell (o.pa.toNat % 128))) with stamp := x.stamp.store o.pts }

theorem Posted.line_line (o : Posted) (x : DepositLine) : (o.line x).line = x.line := by
  simp only [Posted.line, DepositLine.setCell]

theorem DepositLine.cell_stamp (x : DepositLine) (st : Stamp) (off : Nat) : ({ x with stamp := st } : DepositLine).cell off = x.cell off := rfl

theorem Posted.cell_line_same {o : Posted} (h : o.pa.toNat % 16 = 0) (x : DepositLine) :
    (o.line x).cell (o.pa.toNat % 128) = o.op.apply o.pexp.toInt (x.cell (o.pa.toNat % 128)) := by
  rw [Posted.line, DepositLine.cell_stamp, DepositLine.cell_setCell_same x (by omega)]

theorem Posted.cell_line_other {o : Posted} (h : o.pa.toNat % 16 = 0) (x : DepositLine) {k : Nat} (hk : 16 * k ≠ o.pa.toNat % 128) :
    (o.line x).cell (16 * k) = x.cell (16 * k) := by
  rw [Posted.line, DepositLine.cell_stamp, DepositLine.cell_setCell_other x (by omega) (by omega)]

/-- The mint after an operation. -/
def State.applied (s : State) (i : Nat) (o : Posted) : State :=
  let x := (s.depositTouch (o.pa.toNat / 128)).depositLine (o.pa.toNat / 128)
  let s := ((s.depositTouch (o.pa.toNat / 128)).setDeposit (o.line x)).assign (o.line x).stamp.wts
  { s with
    posted := s.posted.eraseIdx i
    acks := s.acks ++ [{ poster := o.poster, queue := o.queue, wts := (o.line x).stamp.wts }] }

theorem applyPosted_run {i : Nat} {o : Posted} {s : State} (h : s.posted[i]? = some o) (hs : s.softErrors = [])
    (hw : s.depositWritebacks.contains (o.pa.toNat / 128) = false) (hf : s.firstPosted i o = true) :
    (applyPosted i).run s = .ok ⟨⟩ (s.applied i o) := by
  rw [applyPosted, Eff.run_bind_ok (Eff.run_get s), h]
  simp only [hw, hf, Bool.false_eq_true, if_false, if_true, meetPurse_ok hs]
  rfl

theorem State.depositLine_line (s : State) (line : Nat) : (s.depositLine line).line = line := by
  unfold State.depositLine
  cases h : s.deposit.find? fun x => x.line = line with
  | none => rfl
  | some x => simpa using List.find?_some h

section Applied
variable (s : State) (i : Nat) (o : Posted)

theorem State.applied_posted : (s.applied i o).posted = s.posted.eraseIdx i := by
  obtain ⟨r, m, h, w, touched⟩ := s.depositTouch_form (o.pa.toNat / 128)
  rw [State.applied, touched]
  rfl

theorem State.applied_acks : (s.applied i o).acks = s.acks ++ [({
    poster := o.poster, queue := o.queue
    wts := (o.line ((s.depositTouch (o.pa.toNat / 128)).depositLine (o.pa.toNat / 128))).stamp.wts } : Ack)] := by
  obtain ⟨r, m, h, w, touched⟩ := s.depositTouch_form (o.pa.toNat / 128)
  rw [State.applied, touched]
  rfl

theorem State.applied_times : (s.applied i o).times =
    (s.assign (o.line ((s.depositTouch (o.pa.toNat / 128)).depositLine (o.pa.toNat / 128))).stamp.wts).times := by
  obtain ⟨r, m, h, w, touched⟩ := s.depositTouch_form (o.pa.toNat / 128)
  rw [State.applied, touched]
  rfl

theorem State.applied_depositLine : (s.applied i o).depositLine (o.pa.toNat / 128) =
    o.line ((s.depositTouch (o.pa.toNat / 128)).depositLine (o.pa.toNat / 128)) := by
  have line : (o.line ((s.depositTouch (o.pa.toNat / 128)).depositLine (o.pa.toNat / 128))).line = o.pa.toNat / 128 := by
    rw [Posted.line_line, State.depositLine_line]
  obtain ⟨r, m, h, w, touched⟩ := s.depositTouch_form (o.pa.toNat / 128)
  have held := State.depositLine_setDeposit (s := s.depositTouch (o.pa.toNat / 128))
    (x := o.line ((s.depositTouch (o.pa.toNat / 128)).depositLine (o.pa.toNat / 128)))
    ⟨s.depositHome (o.pa.toNat / 128), by rw [touched]; exact List.mem_cons_self, (s.depositHome_line _).trans line.symm⟩
  rw [line] at held
  exact held

end Applied

/-! ## The instructions -/

section Instructions
variable {p : Pred} {a : XReg} {imm : Imm48} {s t : State}

/-- An instruction that looks for the cell of its address first. -/
def OfCell (i : Instr) (p : Pred) (a : XReg) (imm : Imm48) (need : Need) (f : State → Nat × BitVec 8 → Eff Next) : Prop :=
  ∀ s, exec i s = guarded p (do
    let s ← get
    let at_ ← locateCell need (s.base a imm)
    f s at_) s

theorem OfCell.refused {i : Instr} {need : Need} {f : State → Nat × BitVec 8 → Eff Next} (hi : OfCell i p a imm need f)
    (hs : s.Ready) (hp : s.holds p = true) {x : Trap} (h : (locateCell need (s.base a imm)).run s = .error (.trap x) t) :
    exec i s = .next (s.raise s.active x) := by
  rw [hi s, guarded_holds hs hp]
  exact perform_trap ((Eff.run_bind_ok (Eff.run_get s)).trans (Eff.run_bind_error h))

/-- An operation that is posted. -/
theorem OfCell.posted {i : Instr} {op : State → PurseOp} {at_ : Nat × BitVec 8}
    (hi : OfCell i p a imm .write fun _ at_ => doing fun s => s.post at_ (op s)) (hs : s.Ready) (hp : s.holds p = true)
    (h : (locateCell .write (s.base a imm)).run s = .ok at_ t) (floor : s.FloorAllows t) :
    exec i s = .next ((t.post at_ (op t)).retire .seq) := by
  rw [hi s, guarded_holds hs hp]
  exact perform_ok ((Eff.run_bind_ok (Eff.run_get s)).trans (Eff.run_bind_ok h)) floor.holds

theorem ofCell_padd (v : View) (c : XReg) :
    OfCell (.padd p v a c imm) p a imm .write fun _ at_ => doing fun s => s.post at_ (.add v (s.x c)) := fun _ => rfl

theorem ofCell_pclr : OfCell (.pclr p a imm) p a imm .write fun _ at_ => doing fun s => s.post at_ .clr := fun _ => rfl

theorem ofCell_pset (v : View) (c : XReg) :
    OfCell (.pset p v a c imm) p a imm .write fun _ at_ => doing fun s => s.post at_ (.set v (s.x c)) := fun _ => rfl

/-- The read of a cell at its home. -/
def rawRead (d : VReg) (s : State) (at_ : Nat × BitVec 8) : Eff Next := do
  readyPurse (s.threadOf s.active) 4 (at_.1 / 128)
  let (c, pts) ← loadCell at_.1 s.me.pts
  doing fun s => (s.setV d (BitVec.ofNat 1024 c.bits)).returned false true pts

theorem ofCell_praw (d : VReg) : OfCell (.praw p d a imm) p a imm .read (rawRead d) := fun _ => rfl

/-- The three that post. -/
theorem ofCell_post {i : Instr} {v : View} {c : XReg} (h : i = .padd p v a c imm ∨ i = .pclr p a imm ∨ i = .pset p v a c imm) :
    ∃ f, OfCell i p a imm .write f := by
  obtain rfl | rfl | rfl := h
  · exact ⟨_, ofCell_padd v c⟩
  · exact ⟨_, ofCell_pclr⟩
  · exact ⟨_, ofCell_pset v c⟩

theorem execPaddv_posts {v : View} {u : Bool} {b cv : VReg} {sh : BitVec 3} {cells : List (Nat × (Nat × BitVec 8))} (hs : s.Ready)
    (hc : (locateCells (s.lanes p v fun i => s.base a imm + (s.index v u b i <<< sh.toNat))).run s = .ok cells t)
    (floor : s.FloorAllows t) : execPaddv p v u a b cv sh imm s = .next ((t.postAll (cells.map fun e =>
      (e.2, .add v (BitVec.ofNat 64 (elem (t.v cv) v.width e.1))))).retire .seq) := by
  have all := State.foldl_post (fun e : Nat × (Nat × BitVec 8) => e.2)
    (fun s e => .add v (BitVec.ofNat 64 (elem (s.v cv) v.width e.1)))
    (fun s a b => by rw [State.v, State.me_post]; rfl) cells t
  rw [execPaddv, guardedV_ready hs.1 hs.2, ← all]
  refine perform_ok ((Eff.run_bind_ok (Eff.run_get s)).trans (Eff.run_bind_ok hc)) ?_
  rw [all]
  exact (floor.of_times (State.postAll_times ..)).holds

theorem loadCell_cell {pa : Nat} {pts pts' : Ts} {c : Cell} (h : (loadCell pa pts).run t = .ok (c, pts') s) :
    c = ((t.depositTouch (pa / 128)).depositLine (pa / 128)).cell (pa % 128) := by
  rw [loadCell, Eff.run_bind_ok (Eff.run_get t)] at h
  cases h
  rfl

end Instructions

/-- Settles O37: an operation's address is checked once for all of them, and what is posted and applied is read off the state. -/
theorem purseOperations : Obligations.PurseOperations := by
  unfold Obligations.PurseOperations
  refine ⟨fun p v u a c b cv d sh imm s t hs => ?_, fun i o s ho low => ?_, fun i c q w s h => ?_, fun line s => ?_⟩
  · intro va thread posts
    refine ⟨fun cells hc floor => ⟨_, execPaddv_posts hs hc floor, ?_, ?_, t.postAll_sameBytes _⟩,
      fun hp => ⟨fun out => ?_, fun out => ?_, fun i hi => ?_, fun low hw => ⟨?_, ?_, ?_, ?_⟩⟩⟩
    · rw [State.posted_postAll, List.map_map]
      rfl
    · rw [State.me_postAll, List.length_map]
    · rw [show exec (.pfence p) s = execPfence p s from rfl, execPfence, guarded_holds hs hp]
      refine perform_ok (n := .seq) (t := s.joins s.me.ackTime) ?_ (State.floor_ok rfl rfl)
      rw [Eff.run_bind_ok (Eff.run_get s), if_neg (not_not.mpr out)]
      rfl
    · rw [show exec (.pfence p) s = execPfence p s from rfl, execPfence, guarded_holds hs hp]
      refine perform_wait (s' := s) (w := .join) ?_ (State.floor_ok rfl rfl)
      rw [Eff.run_bind_ok (Eff.run_get s), if_pos out]
      rfl
    · have form : ∃ need f, OfCell i p a imm need f := by
        obtain h | h | h | rfl := hi
        · exact ⟨_, ofCell_post (.inl h)⟩
        · exact ⟨_, ofCell_post (v := v) (c := c) (.inr (.inl h))⟩
        · exact ⟨_, ofCell_post (.inr (.inr h))⟩
        · exact ⟨_, _, ofCell_praw d⟩
      obtain ⟨need, f, hf⟩ := form
      exact ⟨fun low => hf.refused hs hp (locateCell_align low), fun low hw => hf.refused hs hp (locateCell_window low hw)⟩
    · intro pl hl other i hi
      obtain ⟨f, hf⟩ := ofCell_post hi
      exact hf.refused hs hp (locateCell_perm low hw hl other)
    · intro pa l hl assay i hi
      obtain ⟨f, hf⟩ := ofCell_post hi
      exact hf.refused hs hp (locateCell_assay low hw hl rfl assay)
    · intro pa l hl plain floor sent
      have cell : (locateCell .write (s.base a imm)).run s = .ok (pa, l) t := locateCell_ok low hw hl fun _ => plain
      have same (op : PurseOp) : t.post (pa, l) op = sent op := rfl
      rw [← same, ← same, ← same]
      exact ⟨(ofCell_padd v c).posted hs hp cell floor, ofCell_pclr.posted (op := fun _ => .clr) hs hp cell floor,
        (ofCell_pset v c).posted hs hp cell floor⟩
    · intro pa l cell pts w hl hse hwb load floor
      refine ⟨loadCell_cell load, ?_⟩
      have kept := locate_sansCores hl
      have noErrors : t.softErrors = [] := (congrArg State.softErrors kept).trans hse
      have at_ : (locateCell .read (s.base a imm)).run s = .ok (pa, l) t := locateCell_ok low hw hl nofun
      have read : (rawRead d s (pa, l)).run t =
          .ok .seq ((w.setV d (BitVec.ofNat 1024 cell.bits)).returned false true pts) := by
        rw [rawRead, Eff.run_bind_ok (readyPurse_ok noErrors hwb), Eff.run_bind_ok load]
        rfl
      rw [ofCell_praw d s, guarded_holds hs hp]
      exact perform_ok ((Eff.run_bind_ok (Eff.run_get s)).trans ((Eff.run_bind_ok at_).trans read)) (floor.of_times rfl).holds
  · intro line old st hse hw first floor
    have hf : s.firstPosted i o = true := by
      simpa [State.firstPosted] using first
    refine ⟨s.applied i o, ?_, s.applied_posted i o, s.applied_acks i o, ?_, ?_, fun k hk ne => ?_⟩
    · change execPostedOperationApply i s = _
      have holds := (floor.of_times (s.applied_times i o)).holds
      rw [execPostedOperationApply, happen, applyPosted_run ho hse hw hf]
      simp only [State.floorHolds, holds, if_true]
    · rw [State.applied_depositLine]
      rfl
    · rw [State.applied_depositLine, Posted.cell_line_same low]
      cases o.op <;> rfl
    · rw [State.applied_depositLine, Posted.cell_line_other low _ ne]
  · change execPurseAck i s = _
    refine happen_modify_timeless ?_ ?_
    · simp only [State.purseAck, h]
      rfl
    · rfl
  · change execDepositCacheWritebackDone line s = _
    exact happen_modify_timeless rfl rfl

end Sys2Proof.Machine
end

section
/-! What may be read at once leaves a state without soft errors as it is, and what a load reads of a line (R274, R276, R278). -/

namespace Sys2Proof.Machine

/-! ## Checks that change nothing -/

/-- Without soft errors the effect changes nothing where it completes. -/
def Eff.Quiet {α : Type} (e : Eff α) : Prop := ∀ ⦃s a t⦄, e.run s = .ok a t → s.softErrors = [] → t = s

namespace Eff.Quiet
variable {α β : Type} {e d : Eff α}

theorem pure {a : α} : Quiet (pure a : Eff α) := by
  rintro s _ _ ⟨⟩ _
  rfl

theorem throw {x : Stop} : Quiet (throw x : Eff α) := by
  rintro s a t ⟨⟩

theorem bind {f : α → Eff β} (he : Quiet e) (hf : ∀ a, Quiet (f a)) : Quiet (e >>= f) := by
  intro s b t h hs
  rw [Eff.run_bind] at h
  cases hr : e.run s with
  | ok a u =>
    rw [hr] at h
    obtain rfl := he hr hs
    exact hf a h hs
  | error x u =>
    rw [hr] at h
    cases h

theorem get {f : State → Eff β} (hf : ∀ s, Quiet (f s)) : Quiet (get >>= f) := fun s _ _ h => hf s h

theorem ite {c : Prop} {_ : Decidable c} (he : Quiet e) (hd : Quiet d) : Quiet (if c then e else d) := by
  split <;> assumption

theorem when {c : Prop} {_ : Decidable c} {e : Eff PUnit} {f : PUnit → Eff β} (he : Quiet e)
    (hf : ∀ u, Quiet (f u)) : Quiet (if c then e >>= f else f ⟨⟩) := ite (bind he hf) (hf ⟨⟩)

/-- An effect that stops after it has changed the state does not complete. -/
theorem stops {f : Eff β} {x : Stop} : Quiet (f >>= fun _ => (MonadExcept.throw x : Eff α)) := by
  intro s a t h
  rw [Eff.run_bind] at h
  cases hr : f.run s with
  | ok b u => rw [hr] at h; cases h
  | error y u => rw [hr] at h; cases h

end Eff.Quiet

theorem meetError_quiet {secure : Bool} {acc source : BitVec 4} {key addr : Nat} :
    Eff.Quiet (meetError secure acc source key addr) := by
  intro s a t h hs
  rw [meetError, Eff.run_bind_ok (Eff.run_get s), hs] at h
  cases h
  rfl

theorem meetPurse_quiet {secure : Bool} {acc : BitVec 4} {line : Nat} : Eff.Quiet (meetPurse secure acc line) :=
  .get fun _ => meetError_quiet

theorem readOwned_quiet {line : Nat} : Eff.Quiet (readOwned line) := by
  refine .get fun s => .ite (.ite ?_ .throw) .pure
  exact .stops

theorem readSources_quiet {t : Thread} {acc : BitVec 4} (lines : List Nat) : Eff.Quiet (readSources t acc lines) := by
  induction lines with
  | nil => exact .pure
  | cons l r ih => exact .bind readOwned_quiet fun _ => .get fun _ => .bind meetError_quiet fun _ => ih

theorem meetKvErrors_quiet {t : Thread} {acc : BitVec 4} {line die : Nat} : Eff.Quiet (meetKvErrors t acc line die) := by
  intro s a u h hs
  rw [meetKvErrors, Eff.run_bind_ok (Eff.run_get s), hs, Eff.run_ite] at h
  split at h
  · cases h
    rfl
  · cases h
    rfl

theorem readyFill_quiet {t : Thread} {acc : BitVec 4} {faddr : Word} {line : Nat} : Eff.Quiet (readyFill t acc faddr line) := by
  have rest (s : State) : Eff.Quiet (if (s.viewOf line).isSome then readSources t acc (s.sourceLines line) else do
      meetError t.secure acc 0 line (line * 128)
      meetKvErrors t acc line (s.stackOf line / 2)) :=
    .ite (readSources_quiet _) (.bind meetError_quiet fun _ => meetKvErrors_quiet)
  refine .get fun s => .ite ?_ (rest s)
  split
  · exact .bind .throw fun _ => rest s
  · exact rest s

theorem readyLine_quiet {t : Thread} {acc : BitVec 4} {faddr : Word} {line : Nat} {store : Bool} {pts : Ts} :
    Eff.Quiet (readyLine t acc faddr line store pts) := by
  have rest (s : State) : Eff.Quiet (if (s.l2.find? fun x => x.line = line).isSome then
      meetError t.secure acc 1 line (line * 128) else readyFill t acc faddr line) := .ite meetError_quiet readyFill_quiet
  refine .get fun s => .ite meetError_quiet (.when .throw fun _ => .when .throw fun _ => .when readOwned_quiet fun _ => rest s)

theorem readyPurse_quiet {t : Thread} {acc : BitVec 4} {line : Nat} : Eff.Quiet (readyPurse t acc line) :=
  .get fun _ => .when .throw fun _ => meetPurse_quiet

theorem readyHost_quiet {t : Thread} {acc : BitVec 4} {line off n : Nat} {pts : Ts} :
    Eff.Quiet (readyHost t acc line off n pts) := by
  refine .get fun s => .ite .pure (.ite meetError_quiet ?_)
  split
  · exact .ite .throw .pure
  · exact .ite .pure .stops

theorem readyUnit_quiet {t : Thread} {acc : BitVec 4} {faddr : Word} {p : Place} {n : Nat} {pts : Ts} {store : Bool} :
    Eff.Quiet (readyUnit t acc faddr p n pts store) := by
  cases p with
  | mem pa => exact readyLine_quiet
  | purse pa l => exact readyPurse_quiet
  | host ha =>
    unfold readyUnit
    exact .ite .pure readyHost_quiet
  | win space off => exact meetError_quiet

/-! ## An element load and its place (R193) -/

/-- A state that differs in its cores alone. -/
theorem State.eq_of_sansCores {s t : State} (h : t.sansCores = s.sansCores) : t = { s with cores := t.cores } :=
  calc t = { t.sansCores with cores := t.cores } := rfl
    _ = { s.sansCores with cores := t.cores } := by rw [h]
    _ = { s with cores := t.cores } := rfl

theorem locateLoad_sansCores {t : Thread} {acc : BitVec 4} {va : Word} {n : Nat} :
    Eff.Fixes State.sansCores (locateLoad t acc va n) := by
  refine .when .throw fun _ => .bind locate_sansCores fun pl => ?_
  cases pl with
  | purse pa l => exact .when .throw fun _ => .pure
  | mem | host | win => exact .pure

/-- What an element load does from its place on. -/
structure State.LoadsAt (s t : State) (pl : Place) (va : Word) (n v : Nat) (fl : Flags) (pts : Ts) (r : Bool) (u : State) : Prop where
  ready : (readyUnit (s.threadOf s.active) 1 va pl n s.me.pts false).run s = .ok ⟨⟩ s
  loads : (loadUnit (s.threadOf s.active) 1 pl n s.me.pts).run s = .ok (v, fl, pts, r) u
  after : t = (u.addFlags fl).returned false r pts

/-- The place is located in the state that the load then reads, which differs from the first in a TLB at most. -/
theorem State.Loads.at_ {s s' t : State} {va : Word} {n v : Nat} {pl : Place} (h : s.Loads va n v t) (hse : s.softErrors = [])
    (hl : (locateLoad (s.threadOf s.active) 1 va n).run s = .ok pl s') :
    (∃ cs, s' = { s with cores := cs }) ∧ ∃ fl pts r u, s'.LoadsAt t pl va n v fl pts r u := by
  have same := State.eq_of_sansCores (locateLoad_sansCores hl)
  refine ⟨⟨_, same⟩, ?_⟩
  have noErrors : s'.softErrors = [] := by rw [same]; exact hse
  have thread : s'.threadOf s'.active = s.threadOf s.active := by rw [same]; rfl
  have pts : s'.me.pts = s.me.pts := by rw [same]; rfl
  rw [State.Loads, loadElem, Eff.run_bind_ok (Eff.run_get s), Eff.run_bind_ok hl, Eff.run_bind] at h
  cases ready : (readyUnit (s.threadOf s.active) 1 va pl n s.me.pts false).run s' with
  | error x u => rw [ready] at h; cases h
  | ok _ u =>
    rw [ready] at h
    obtain rfl := readyUnit_quiet ready noErrors
    dsimp only at h
    rw [Eff.run_bind] at h
    cases loads : (loadUnit (s.threadOf s.active) 1 pl n s.me.pts).run u with
    | error x w => rw [loads] at h; cases h
    | ok r w =>
      obtain ⟨v', fl, pts', r⟩ := r
      rw [loads] at h
      cases h
      exact ⟨fl, pts', r, w, by rw [thread, pts]; exact ready, by rw [thread, pts]; exact loads, rfl⟩

theorem State.me_answered (u : State) (fl : Flags) (pts : Ts) :
    ((u.addFlags fl).returned false true pts).me = { u.me with fflags := u.me.fflags ||| fl, reply := some (false, pts) } := by
  rw [State.returned, State.me_mapMe, State.me_addFlags]
  rfl

theorem State.me_answered_once (u : State) (fl : Flags) (pts : Ts) :
    ((u.addFlags fl).returned false false pts).me = { u.me with fflags := u.me.fflags ||| fl, pts := tsMax u.me.pts pts } := by
  rw [State.returned, State.me_mapMe, State.me_addFlags]
  rfl

theorem tsLe_refl (a : Ts) : tsLe a a = true := by simp [tsLe]

theorem tsMax_self_left (a b : Ts) : tsMax a (tsMax a b) = tsMax a b := by
  cases h : tsLe a b <;> simp [tsMax, h, tsLe_refl]

end Sys2Proof.Machine
end

section
/-! What a load reads of its place, and the times that it takes (R101, R263, R274, R276, R278, R286 to R288). -/

namespace Sys2Proof.Machine

section Loads
variable {s t u : State} {va : Word} {n v : Nat} {fl : Flags} {pts : Ts} {r : Bool}

/-! ## Windows (R276) -/

theorem State.LoadsAt.win {space off : Nat} (h : s.LoadsAt t (.win space off) va n v fl pts r u) :
    v = (s.winMem space).readN off n ∧ t = (({ s with
      stamps := SMap.put s.stamps (winKey space off) ((s.winStamp space off).load s.me.pts)
      high := tsMax s.high (tsMax s.me.pts (s.winStamp space off).wts) } : State).addFlags 0).returned false true
        (tsMax s.me.pts (s.winStamp space off).wts) := by
  obtain ⟨-, loads, rfl⟩ := h
  rw [loadUnit, Eff.run_bind_ok (Eff.run_get s)] at loads
  cases loads
  exact ⟨rfl, rfl⟩

/-! ## Lines of HBM (R274, R278) -/

/-- A copy in the cluster's L1 that still holds answers. -/
theorem State.LoadsAt.copy {pa : Nat} {k : L1Line} (h : s.LoadsAt t (.mem pa) va n v fl pts r u)
    (hk : SMap.find (s.cluster (clusterOfCore s.active.core)).l1 (pa / 128) = some k) (hp : tsLe s.me.pts k.stamp.rts = true) :
    v = k.data.toNat / 2 ^ (8 * (pa % 128)) % 2 ^ (8 * n) ∧
      t = ((s.assign (tsMax s.me.pts k.stamp.wts)).addFlags 0).returned false false (tsMax s.me.pts k.stamp.wts) := by
  obtain ⟨-, loads, rfl⟩ := h
  have line : (loadLine (s.threadOf s.active) (pa / 128) s.me.pts).run s =
      .ok (k.data, tsMax s.me.pts k.stamp.wts, false) (s.assign (tsMax s.me.pts k.stamp.wts)) := by
    have cluster : (s.threadOf s.active).cluster = clusterOfCore s.active.core := rfl
    rw [loadLine, Eff.run_bind_ok (Eff.run_get s), cluster, hk]
    simp only [hp, if_true]
    rfl
  rw [loadUnit, Eff.run_bind_ok line] at loads
  cases loads
  exact ⟨rfl, rfl⟩

end Loads

/-- The view of a line as its home holds it, or decodes it when it is brought there. -/
def State.homeView (s : State) (line : Nat) : Option Vec :=
  match s.l2.find? fun x => x.line = line with
  | some x => x.view
  | none => (s.viewOf line).map fun r => s.viewLine r line

/-- A line brought to its home stands first there, with its times and its view. -/
theorem State.l2Touch_form (s : State) (line : Nat) : ∃ (x : L2Line) (r : List L2Line) (cs : SMap Cluster) (w : List Nat),
    x.line = line ∧ x.stamp = s.homeStamp line ∧ x.view = s.homeView line ∧
      s.l2Touch line = { s with l2 := x :: r, clusters := cs, l2Writebacks := w } := by
  unfold State.homeStamp State.homeView State.l2Touch
  cases found : s.l2.find? fun x => x.line = line with
  | some x => exact ⟨x, _, _, _, by simpa using List.find?_some found, rfl, rfl, rfl⟩
  | none =>
    by_cases room : (s.l2.filter fun x => s.homeOf x.line = s.homeOf line).length < 16
    · simp only [room, if_true]
      refine ⟨_, _, _, _, rfl, ?_, rfl, rfl⟩
      cases (s.l2.filter fun x => s.homeOf x.line = s.homeOf line).getLast? <;> rfl
    · simp only [room, if_false]
      cases last : (s.l2.filter fun x => s.homeOf x.line = s.homeOf line).getLast? with
      | none => exact ⟨_, _, _, _, rfl, rfl, rfl, rfl⟩
      | some v =>
        refine ⟨_, _, _, _, rfl, ?_, rfl, rfl⟩
        have raised := s.cluster_mapCluster_self (s.homeOf line).1 fun k => { k with mts := tsMax k.mts v.stamp.rts }
        exact congrArg (fun k : Cluster => (⟨k.mts, k.mts⟩ : Stamp)) raised

/-- A line that is held and changed is as it was changed. -/
theorem State.l2Line_setL2 {s : State} {x : L2Line} (h : ∃ y ∈ s.l2, y.line = x.line) : (s.setL2 x).l2Line x.line = x := by
  have held (l : List L2Line) (h : ∃ y ∈ l, y.line = x.line) :
      (l.map fun y => if y.line = x.line then x else y).find? (fun y => y.line = x.line) = some x := by
    induction l with
    | nil => simp at h
    | cons z r ih =>
      by_cases hz : z.line = x.line
      · simp [hz]
      · have rest := ih (by simpa [hz] using h)
        simpa [hz] using rest
  rw [State.l2Line, State.setL2, held _ h]
  rfl

/-- A load's renewal of a line: its times at home, its data, and the copy that the L1 then holds. -/
structure State.Renewed (s w : State) (p line : Nat) (st : Stamp) (data : Vec) : Prop where
  stamp : (w.l2Line line).stamp = st
  lineData : w.lineData line = data
  copy : SMap.find (w.cluster p).l1 line = some { data := data, stamp := st }
  memories : (w.hbm, w.host, w.coreMem, w.clusterMem, w.chipMem) = (s.hbm, s.host, s.coreMem, s.clusterMem, s.chipMem)
  me : w.me = s.me

theorem Cluster.find_l1Put (k : Cluster) (line : Nat) (x : L1Line) : SMap.find (k.l1Put line x).l1 line = some x := by
  unfold Cluster.l1Put
  dsimp only
  split <;> exact SMap.find_put_self ..

theorem State.renewed (s : State) (p line : Nat) (pts : Ts) (lease : BitVec 8) :
    s.Renewed (s.renew p line pts lease true) p line
      { s.homeStamp line with rts := tsMax (s.homeStamp line).rts (pts + lease.zeroExtend 20) }
      ((s.homeView line).getD (BitVec.ofNat 1024 (s.hbm.readN (line * 128) 128))) := by
  obtain ⟨x, r, cs, w, hx, stamp, view, touched⟩ := s.l2Touch_form line
  have first : (s.l2Touch line).l2Line line = x := by
    rw [touched, State.l2Line, List.find?_cons_of_pos (by simpa using hx)]
    rfl
  let y : L2Line := { x with stamp := { x.stamp with rts := tsMax x.stamp.rts (pts + lease.zeroExtend 20) } }
  let s₂ := ((s.l2Touch line).setL2 y).assign y.stamp.rts
  have held : s₂.l2Line line = y := by
    have := State.l2Line_setL2 (s := s.l2Touch line) (x := y) ⟨x, by rw [touched]; exact List.mem_cons_self, rfl⟩
    rwa [show y.line = line from hx] at this
  have data : s₂.lineData line = (s.homeView line).getD (BitVec.ofNat 1024 (s.hbm.readN (line * 128) 128)) := by
    have hbm : s₂.hbm = s.hbm := by
      change (s.l2Touch line).hbm = s.hbm
      rw [touched]
    rw [State.lineData, held, hbm, ← view]
    change (match x.view with | some v => v | none => _) = _
    cases x.view <;> rfl
  have form : s.renew p line pts lease true = s₂.mapCluster p fun k => k.l1Put line { data := s₂.lineData line, stamp := y.stamp } := by
    simp only [State.renew, first, if_true]
    rfl
  rw [form, ← stamp, ← data]
  refine ⟨congrArg L2Line.stamp held, rfl, ?_, ?_, ?_⟩
  · rw [State.cluster_mapCluster_self, Cluster.find_l1Put]
  · change ((s.l2Touch line).hbm, (s.l2Touch line).host, (s.l2Touch line).coreMem, (s.l2Touch line).clusterMem,
      (s.l2Touch line).chipMem) = _
    rw [touched]
  · change (s.l2Touch line).me = s.me
    rw [touched]
    rfl

/-- Without a copy that still holds the home answers, and the copy is renewed. -/
theorem State.LoadsAt.home {s t u : State} {va : Word} {n v pa : Nat} {fl : Flags} {pts : Ts} {r : Bool}
    (h : s.LoadsAt t (.mem pa) va n v fl pts r u)
    (hk : ∀ k, SMap.find (s.cluster (clusterOfCore s.active.core)).l1 (pa / 128) = some k → tsLe s.me.pts k.stamp.rts = false) :
    let home := s.homeStamp (pa / 128)
    let data := (s.homeView (pa / 128)).getD (BitVec.ofNat 1024 (s.hbm.readN (pa / 128 * 128) 128))
    ∃ w : State, s.Renewed w (clusterOfCore s.active.core) (pa / 128)
        { home with rts := tsMax home.rts (s.me.pts + s.me.lease.zeroExtend 20) } data ∧
      v = data.toNat / 2 ^ (8 * (pa % 128)) % 2 ^ (8 * n) ∧
      t = ((w.assign (tsMax s.me.pts home.wts)).addFlags 0).returned false true (tsMax s.me.pts home.wts) := by
  intro home data
  have renewed := s.renewed (clusterOfCore s.active.core) (pa / 128) s.me.pts s.me.lease
  refine ⟨_, renewed, ?_⟩
  generalize stands : s.renew (clusterOfCore s.active.core) (pa / 128) s.me.pts s.me.lease true = w at renewed ⊢
  obtain ⟨-, loads, rfl⟩ := h
  have line : (loadLine (s.threadOf s.active) (pa / 128) s.me.pts).run s =
      .ok (data, tsMax s.me.pts home.wts, true) (w.assign (tsMax s.me.pts home.wts)) := by
    have answer : (loadLine (s.threadOf s.active) (pa / 128) s.me.pts).run s = .ok (w.lineData (pa / 128),
        tsMax s.me.pts (w.l2Line (pa / 128)).stamp.wts, true) (w.assign (tsMax s.me.pts (w.l2Line (pa / 128)).stamp.wts)) := by
      have cluster : (s.threadOf s.active).cluster = clusterOfCore s.active.core := rfl
      rw [loadLine, Eff.run_bind_ok (Eff.run_get s), cluster, ← stands]
      cases found : SMap.find (s.cluster (clusterOfCore s.active.core)).l1 (pa / 128) with
      | none => rfl
      | some k =>
        simp only [hk k found, Bool.false_eq_true, if_false]
        rfl
    rw [answer, renewed.lineData, renewed.stamp]
  rw [loadUnit, Eff.run_bind_ok line] at loads
  cases loads
  exact ⟨rfl, rfl⟩

end Sys2Proof.Machine
end

section
/-! Parts of a line, the places of aligned accesses, and what a load answers (R72, R193, R274). -/

namespace Sys2Proof.Machine

/-! ## Parts of a number of bytes -/

theorem Memory.readN_lt (m : Memory) (a n : Nat) : m.readN a n < 256 ^ n := by
  induction n generalizing a with
  | zero => exact Nat.one_pos
  | succ n ih =>
    have byte := (m.read a).isLt
    have rest := ih (a + 1)
    rw [Memory.readN, Nat.pow_succ']
    omega

theorem Memory.readN_add (m : Memory) (a i j : Nat) : m.readN a (i + j) = m.readN a i + 256 ^ i * m.readN (a + i) j := by
  induction i generalizing a with
  | zero => simp [Memory.readN]
  | succ i ih =>
    rw [Nat.add_right_comm, Memory.readN, ih, Memory.readN, Nat.pow_succ', show a + 1 + i = a + (i + 1) by omega]
    ring

/-- Bytes within what is read. -/
theorem Memory.readN_part (m : Memory) (a : Nat) {k j n : Nat} (h : k + j ≤ n) :
    m.readN a n / 256 ^ k % 256 ^ j = m.readN (a + k) j := by
  obtain ⟨rest, rfl⟩ := Nat.exists_eq_add_of_le h
  rw [Nat.add_assoc, Memory.readN_add m a k, Nat.add_mul_div_left _ _ (Nat.pow_pos (by decide)),
    Nat.div_eq_of_lt (m.readN_lt a k), Nat.zero_add, Memory.readN_add, Nat.add_mul_mod_self_left,
    Nat.mod_eq_of_lt (m.readN_lt _ j)]

theorem two_pow_eight_mul (n : Nat) : 2 ^ (8 * n) = 256 ^ n := by rw [Nat.pow_mul]

/-- Bytes of a line of HBM. -/
theorem Memory.line_part (m : Memory) {pa n : Nat} (h : pa % 128 + n ≤ 128) :
    (BitVec.ofNat 1024 (m.readN (pa / 128 * 128) 128)).toNat / 2 ^ (8 * (pa % 128)) % 2 ^ (8 * n) = m.readN pa n := by
  have lt : m.readN (pa / 128 * 128) 128 < 2 ^ 1024 := (m.readN_lt _ _).trans_eq (two_pow_eight_mul 128).symm
  rw [BitVec.toNat_ofNat, Nat.mod_eq_of_lt lt, two_pow_eight_mul, two_pow_eight_mul, Memory.readN_part _ _ h,
    Nat.div_add_mod']

/-! ## What an effect gives -/

/-- Whatever the effect gives where it completes has the property. -/
def Eff.Gives {α : Type} (P : α → Prop) (e : Eff α) : Prop := ∀ ⦃s a t⦄, e.run s = .ok a t → P a

namespace Eff.Gives
variable {α β : Type} {P : α → Prop} {e d : Eff α}

theorem pure {a : α} (h : P a) : Gives P (pure a : Eff α) := by
  rintro s _ _ ⟨⟩
  exact h

theorem throw {x : Stop} : Gives P (throw x : Eff α) := by
  rintro s a t ⟨⟩

theorem bind {f : β → Eff α} {e : Eff β} {Q : β → Prop} (he : Gives Q e) (hf : ∀ b, Q b → Gives P (f b)) : Gives P (e >>= f) := by
  intro s a t h
  rw [Eff.run_bind] at h
  cases hr : e.run s with
  | ok b u =>
    rw [hr] at h
    exact hf b (he hr) h
  | error x u =>
    rw [hr] at h
    cases h

theorem any {e : Eff α} : Gives (fun _ => True) e := fun _ _ _ _ => trivial

theorem get {f : State → Eff α} (hf : ∀ s, Gives P (f s)) : Gives P (get >>= f) := fun s _ _ h => hf s h

theorem ite {c : Prop} {_ : Decidable c} (he : Gives P e) (hd : Gives P d) : Gives P (if c then e else d) := by
  split <;> assumption

theorem when {c : Prop} {_ : Decidable c} {e : Eff PUnit} {f : PUnit → Eff α} (hf : ∀ u, Gives P (f u)) :
    Gives P (if c then e >>= f else f ⟨⟩) := ite (bind any fun u _ => hf u) (hf ⟨⟩)

end Eff.Gives

/-! ## Aligned accesses stay in a line (R72, R193) -/

/-- A place in HBM has the low bits of its address. -/
def LowBits (va : Word) (p : Place) : Prop := ∀ pa, p = .mem pa → pa % 128 = va.toNat % 128

theorem Tlb.pa_low (e : Tlb) (va : Word) : e.pa va % 128 = va.toNat % 128 := by
  unfold Tlb.pa pageShift
  split <;> omega

theorem placeOf_lowBits {t : Thread} {need : Need} {acc : BitVec 4} {faddr : Word} {e : Tlb} {va : Word} :
    Eff.Gives (LowBits va) (placeOf t need acc faddr e va) := by
  refine .get fun s => .when fun _ => .when fun _ => .when fun _ => .pure fun pa h => ?_
  split at h
  · cases h
  · cases h
  · cases h
    exact e.pa_low va

/-- A window address lies in no page. -/
theorem State.window_ne_mem {s : State} {t : Thread} {va : Word} {pa : Nat} : s.window t va ≠ .ok (.mem pa) := by
  unfold State.window
  intro h
  dsimp only at h
  split at h
  · split at h <;> cases h
  · split at h <;> cases h
  · split_ifs at h
    cases h
  · cases h

theorem locate_lowBits {now : Bool} {t : Thread} {need : Need} {acc : BitVec 4} {faddr va : Word} :
    Eff.Gives (LowBits va) (locate now t need acc faddr va) := by
  refine .bind (Q := fun r => LowBits va r.1) ?_ fun r h => .pure h
  unfold locateEntry
  have page (e : Tlb) : Eff.Gives (fun r : Place × Option Tlb => LowBits va r.1) (do
      let p ← placeOf t need acc faddr e va
      pure (p, some e)) := .bind placeOf_lowBits fun p hp => .pure hp
  refine .ite (.get fun s => ?_) (.ite (.ite (.bind .any fun e _ => page e) (.bind .any fun e _ => page e)) .throw)
  split
  · next p hp => exact .pure fun pa h => absurd (hp.trans (congrArg Except.ok h)) State.window_ne_mem
  · exact .throw

/-- The element of a load lies in one line. -/
theorem locateLoad_within {t : Thread} {acc : BitVec 4} {va : Word} {n pa : Nat} {s s' : State} (hn : n = 1 ∨ n = 2 ∨ n = 4 ∨ n = 8)
    (h : (locateLoad t acc va n).run s = .ok (.mem pa) s') : pa % 128 + n ≤ 128 := by
  have al : va.toNat % n = 0 := by
    by_contra h0
    have bad : aligned va n = false := by simp [aligned, h0]
    rw [locateLoad, bad] at h
    cases h
  have low : Eff.Gives (LowBits va) (locateLoad t acc va n) := by
    refine .when fun _ => .bind locate_lowBits fun p hp => ?_
    cases p with
    | purse pa l => exact .when fun _ => .pure hp
    | mem | host | win => exact .pure hp
  have := low h pa rfl
  obtain rfl | rfl | rfl | rfl := hn <;> omega

/-! ## Purse cells and host lines (R263, R276, R286 to R288) -/

section Loads
variable {s t u : State} {va : Word} {n v : Nat} {fl : Flags} {pts : Ts} {r : Bool}

theorem State.depositLine_touch (s : State) (line : Nat) : (s.depositTouch line).depositLine line = s.depositHome line := by
  obtain ⟨r, m, h, w, touched⟩ := s.depositTouch_form line
  rw [touched, State.depositLine, List.find?_cons_of_pos (by simpa using s.depositHome_line line)]
  rfl

/-- A read of a cell at its home raises the line's rts. -/
theorem loadCell_run (s : State) (pa : Nat) (pts : Ts) : ∃ w : State, (loadCell pa pts).run s =
    .ok ((s.depositHome (pa / 128)).cell (pa % 128), tsMax pts (s.depositHome (pa / 128)).stamp.wts) w ∧ w.me = s.me ∧
      w.depositLine (pa / 128) = { s.depositHome (pa / 128) with stamp := (s.depositHome (pa / 128)).stamp.load pts } := by
  have line : ({ s.depositHome (pa / 128) with stamp := (s.depositHome (pa / 128)).stamp.load pts } : DepositLine).line = pa / 128 :=
    s.depositHome_line (pa / 128)
  have held := State.depositLine_setDeposit (s := s.depositTouch (pa / 128))
    (x := { s.depositHome (pa / 128) with stamp := (s.depositHome (pa / 128)).stamp.load pts }) (by
      obtain ⟨r, m, h, w, touched⟩ := s.depositTouch_form (pa / 128)
      exact ⟨s.depositHome (pa / 128), by rw [touched]; exact List.mem_cons_self, rfl⟩)
  rw [line] at held
  refine ⟨((s.depositTouch (pa / 128)).setDeposit { s.depositHome (pa / 128) with
    stamp := (s.depositHome (pa / 128)).stamp.load pts }).assign (tsMax pts (s.depositHome (pa / 128)).stamp.wts), ?_, ?_, held⟩
  · rw [loadCell, Eff.run_bind_ok (Eff.run_get s)]
    simp only [State.depositLine_touch]
    rfl
  · obtain ⟨r, m, h, w, touched⟩ := s.depositTouch_form (pa / 128)
    rw [touched]
    rfl

/-- A cell answers by convert-on-read. -/
theorem State.LoadsAt.purse {pa : Nat} {l : BitVec 8} (h : s.LoadsAt t (.purse pa l) va n v fl pts r u) :
    let home := s.depositHome (pa / 128)
    let c := (home.cell (pa % 128)).read (if n = 4 then fp32 else fp64) l.toInt
    ∃ w : State, w.me = s.me ∧ w.depositLine (pa / 128) = { home with stamp := home.stamp.load s.me.pts } ∧ v = c.1 ∧
      t = (w.addFlags c.2).returned false true (tsMax s.me.pts home.stamp.wts) := by
  intro home c
  obtain ⟨-, loads, rfl⟩ := h
  obtain ⟨w, cell, me, line⟩ := loadCell_run s pa s.me.pts
  rw [loadUnit, Eff.run_bind_ok cell] at loads
  cases loads
  exact ⟨_, me, line, rfl, rfl⟩

/-- Bytes of one host line are those of the line that answers. -/
theorem State.LoadsAt.host {ha : Nat} (h : s.LoadsAt t (.host ha) va n v fl pts r u) (hn : ha % 64 + n ≤ 64) :
    ∃ (d : Line64) (w : State), (loadHost (s.threadOf s.active) (ha / 64) s.me.pts).run s = .ok (d, pts) w ∧
      v = d.toNat / 2 ^ (8 * (ha % 64)) % 2 ^ (8 * n) ∧ t = (w.addFlags 0).returned false true pts := by
  obtain ⟨-, loads, rfl⟩ := h
  have all : min n (64 - ha % 64) = n := by omega
  rw [loadUnit, Eff.run_bind] at loads
  cases host : (loadHost (s.threadOf s.active) (ha / 64) s.me.pts).run s with
  | error x w => rw [host] at loads; cases loads
  | ok a w =>
    obtain ⟨d, p⟩ := a
    rw [host] at loads
    simp only [all, lt_irrefl, if_false] at loads
    cases loads
    exact ⟨d, _, rfl, rfl, rfl⟩

end Loads

section Host
variable {s : State} {line : Nat} {pts : Ts}

/-- The answer that the active context has received for a line answers its load (R287). -/
theorem loadHost_answer {a : HostAnswer} (h : s.me.hostAnswers.find? (fun a => a.line = line) = some a) :
    (loadHost (s.threadOf s.active) line pts).run s =
      .ok (a.data, tsMax pts a.wts) ((s.takeAnswer (s.threadOf s.active) line).assign (tsMax pts a.wts)) := by
  have answer : s.answerFor (s.threadOf s.active) line = some a := h
  rw [loadHost, Eff.run_bind_ok (Eff.run_get s), answer]
  rfl

variable (h : ∀ a ∈ s.me.hostAnswers, a.line ≠ line)
include h

theorem answerFor_none : s.answerFor (s.threadOf s.active) line = none :=
  List.find?_eq_none.mpr fun a ha => by simpa using h a ha

/-- The line that the bridge holds answers (R286). -/
theorem loadHost_line {x : HostLine} (hx : s.hostLine line = some x) :
    ∃ w : State, (loadHost (s.threadOf s.active) line pts).run s = .ok (x.data, tsMax pts x.stamp.wts) w ∧
      w.hostLine line = some { x with stamp := { x.stamp with rts := tsMax x.stamp.rts (pts + s.me.lease.zeroExtend 20) } } := by
  have number : x.line = line := by simpa using List.find?_some hx
  refine ⟨((s.setHostLine { x with stamp := { x.stamp with rts := tsMax x.stamp.rts (pts + s.me.lease.zeroExtend 20) } }).assign
    (tsMax x.stamp.rts (pts + s.me.lease.zeroExtend 20))).assign (tsMax pts x.stamp.wts), ?_,
    List.find?_cons_of_pos (by simpa using number)⟩
  rw [loadHost, Eff.run_bind_ok (Eff.run_get s), answerFor_none h, hx]
  rfl

/-- A write entry answers with the bytes that it holds (R288). -/
theorem loadHost_entry {e : WriteEntry} (hx : s.hostLine line = none) (he : s.writeEntry line = some e) :
    ∃ w : State, (loadHost (s.threadOf s.active) line pts).run s = .ok (e.data, tsMax pts e.stamp.wts) w ∧
      w.writeEntry line = some { e with stamp := { e.stamp with rts := tsMax e.stamp.rts (pts + s.me.lease.zeroExtend 20) } } := by
  have number : e.line = line := by simpa using List.find?_some he
  let f (y : WriteEntry) : WriteEntry :=
    if y.line = line then { y with stamp := { e.stamp with rts := tsMax e.stamp.rts (pts + s.me.lease.zeroExtend 20) } } else y
  have same : ((fun y : WriteEntry => decide (y.line = line)) ∘ f) = fun y => decide (y.line = line) := by
    funext y
    by_cases hy : y.line = line <;> simp [f, hy]
  refine ⟨{ ((s.assign (tsMax e.stamp.rts (pts + s.me.lease.zeroExtend 20))).assign (tsMax pts e.stamp.wts)) with
    writeEntries := s.writeEntries.map f }, ?_, ?_⟩
  · rw [loadHost, Eff.run_bind_ok (Eff.run_get s), answerFor_none h, hx, he]
    rfl
  · change (s.writeEntries.map f).find? _ = _
    rw [List.find?_map, same, show s.writeEntries.find? _ = some e from he, Option.map_some]
    exact congrArg some (if_pos number)

end Host

section Host
variable {s t : State} {va : Word} {n v ha : Nat} {fl : Flags} {pts : Ts} {r : Bool} {u : State}

/-- A load that an answer of the bridge ends. -/
theorem State.LoadsAt.answered {a : HostAnswer} (h : s.LoadsAt t (.host ha) va n v fl pts r u) (hn : ha % 64 + n ≤ 64)
    (answer : s.me.hostAnswers.find? (fun a => a.line = ha / 64) = some a) :
    v = a.data.toNat / 2 ^ (8 * (ha % 64)) % 2 ^ (8 * n) ∧ t.me.reply = some (false, tsMax s.me.pts a.wts) := by
  obtain ⟨d, w, run, rfl, rfl⟩ := h.host hn
  cases (loadHost_answer answer).symm.trans run
  exact ⟨rfl, by rw [State.me_answered]⟩

/-- A load that the line of the bridge answers. -/
theorem State.LoadsAt.held {x : HostLine} (h : s.LoadsAt t (.host ha) va n v fl pts r u) (hn : ha % 64 + n ≤ 64)
    (free : ∀ a ∈ s.me.hostAnswers, a.line ≠ ha / 64) (hx : s.hostLine (ha / 64) = some x) :
    v = x.data.toNat / 2 ^ (8 * (ha % 64)) % 2 ^ (8 * n) ∧ t.me.reply = some (false, tsMax s.me.pts x.stamp.wts) ∧
      t.hostLine (ha / 64) = some { x with stamp :=
        { x.stamp with rts := tsMax x.stamp.rts (s.me.pts + s.me.lease.setWidth 20) } } := by
  obtain ⟨d, w, run, rfl, rfl⟩ := h.host hn
  obtain ⟨w', ends, after⟩ := loadHost_line (pts := s.me.pts) free hx
  cases ends.symm.trans run
  exact ⟨rfl, by rw [State.me_answered], after⟩

/-- A load that a write entry answers. -/
theorem State.LoadsAt.written {e : WriteEntry} (h : s.LoadsAt t (.host ha) va n v fl pts r u) (hn : ha % 64 + n ≤ 64)
    (free : ∀ a ∈ s.me.hostAnswers, a.line ≠ ha / 64) (hx : s.hostLine (ha / 64) = none)
    (he : s.writeEntry (ha / 64) = some e) :
    v = e.data.toNat / 2 ^ (8 * (ha % 64)) % 2 ^ (8 * n) ∧ t.me.reply = some (false, tsMax s.me.pts e.stamp.wts) ∧
      t.writeEntry (ha / 64) = some { e with stamp :=
        { e.stamp with rts := tsMax e.stamp.rts (s.me.pts + s.me.lease.setWidth 20) } } := by
  obtain ⟨d, w, run, rfl, rfl⟩ := h.host hn
  obtain ⟨w', ends, after⟩ := loadHost_entry (pts := s.me.pts) free hx he
  cases ends.symm.trans run
  exact ⟨rfl, by rw [State.me_answered], after⟩

end Host

/-- Settles O23: an element load is followed to its place, and there to the unit that answers. -/
theorem loadsReadTheirBytes : Obligations.LoadsReadTheirBytes := by
  unfold Obligations.LoadsReadTheirBytes
  intro s s' t va n v pl hn hse h hl
  obtain ⟨⟨cs, rfl⟩, fl, pts, r, u, at_⟩ := h.at_ hse hl
  refine ⟨?_, ?_, ?_, ?_, ?_⟩
  · rintro space off rfl
    obtain ⟨rfl, rfl⟩ := at_.win
    refine ⟨rfl, rfl, ?_, ?_⟩
    · rw [State.me_answered, flags_or_zero]
      rfl
    · exact SMap.at_put_self ..
  · rintro pa k rfl hk hp
    obtain ⟨rfl, rfl⟩ := at_.copy hk hp
    refine ⟨rfl, rfl, ?_⟩
    rw [State.me_answered_once, flags_or_zero]
    exact congrArg (fun p => { s.me with pts := p }) (tsMax_self_left _ _)
  · rintro pa rfl hk line home st held view
    have within := locateLoad_within hn hl
    obtain ⟨w, renewed, rfl, rfl⟩ := at_.home hk
    refine ⟨?_, renewed.memories, ?_, renewed.stamp, renewed.copy⟩
    · change ((view.getD _ : Vec).toNat / _ % _) = _
      cases view with
      | some dv => rfl
      | none => exact s.hbm.line_part within
    · rw [State.me_answered, flags_or_zero]
      exact congrArg (fun k : Context => { k with reply := some (false, tsMax s.me.pts home.wts) }) renewed.me
  · rintro pa l rfl line home c
    obtain ⟨w, me, held, rfl, rfl⟩ := at_.purse
    have stamp := congrArg DepositLine.stamp held
    have data := congrArg DepositLine.data held
    refine ⟨rfl, ?_, stamp, data⟩
    rw [State.me_answered]
    exact congrArg (fun k : Context => { k with
      fflags := k.fflags ||| c.2, reply := some (false, tsMax s.me.pts home.stamp.wts) }) me
  · rintro ha rfl within line lease
    exact ⟨fun a ha => at_.answered within ha, fun x free hx => at_.held within free hx,
      fun e free hx he => at_.written within free hx he⟩

end Sys2Proof.Machine
end


section
/-! PROOFS. Tile loads and stores (O28): a `TST` whose rows overlap in a host line. -/

namespace Sys2Proof.Machine

/-- Two effects end well exactly where the first does, and the second from there. -/
theorem Eff.run_bind_eq_ok {α β : Type} {e : Eff α} {f : α → Eff β} {s t : State} {b : β} :
    (e >>= f).run s = .ok b t ↔ ∃ a u, e.run s = .ok a u ∧ (f a).run u = .ok b t := by
  rw [Eff.run_bind]
  constructor
  · intro h
    split at h
    · exact ⟨_, _, by assumption, h⟩
    · cases h
  · rintro ⟨a, u, h, h'⟩
    rw [h]
    exact h'

/-- Two rows of three 4-bit columns at the start of the window of cluster 0: each row ends inside its second byte. -/
def overlapTile : Tile := { addr := clusterWindow 0, fmt := 8, rows := 2, cols := 3, stride := 16, scale := 0 }

/-- The line of host memory at 0 in I, with a write entry that holds its byte 2 alone (R288). -/
def overlapEntry : WriteEntry :=
  { line := 0, data := 0, mask := 4, stamp := { wts := 0, rts := 0 }, owners := [] }

/-- A context that holds the tile in t1, a HOST page at 0x10000, the base of a row there in x2, and the row stride -1 in x3:
row 0 takes bytes 1 and 2 of the host line, row 1 bytes 0 and 1. -/
def overlapState : State :=
  let s : State := { State.reset.withFetchWord 96 0 with agenda := [], writeEntries := [overlapEntry] }
  (((s.mapCore 0 fun k => { k with dtlb := [{ codePage with vpn := 1, ppn := 0x800000000, type := 3 }] }).setT 1 overlapTile).setX
    2 0x10001).setX 3 (-1)

/-- The address of a row. -/
def overlapRow (i : Nat) : Word := overlapState.x 2 + (0 : Imm48).signExtend 64 + BitVec.ofNat 64 i * overlapState.x 3

/-- The thread of the context. -/
def overlapThread : Thread := overlapState.threadOf overlapState.active

/-- What the statement asks of its rows: their checks, the tags, the look at their units, and their stores one after another. -/
def overlapRun : Eff (State × State × Ts) := do
  let _ ← checkRows overlapThread true overlapTile.rowLen ((List.range overlapTile.rows.toNat).map overlapRow)
  let u ← get
  set (u.mapMe fun k => { k with pts := u.tagTime 0 overlapTile.granules k.pts })
  readyRange (fun va => locate false overlapThread .write 5 va va) overlapThread 5 true overlapState.me.pts
    ((List.range overlapTile.rows.toNat).flatMap fun i => partsOf (overlapRow i) overlapTile.rowLen)
  let v ← get
  set (v.stampLoads 0 overlapTile.granules v.me.pts).1
  let pts ← storeRows overlapThread overlapTile overlapRow (List.range overlapTile.rows.toNat)
    (v.stampLoads 0 overlapTile.granules v.me.pts).2
  pure (u, v, pts)

/-- The rows would all be stored: row 0 brings byte 1 into the write entry, where row 1 then finds its last byte. -/
theorem overlapRun_stores : ∃ u v pts w, overlapRun.run overlapState = .ok (u, v, pts) w ∧
    (u.valid 0 overlapTile.granules = true ∧ w.withinFloor = true ∧
      ((w.returned true true pts).retire .seq).me.last ≠ .waited) := by
  have runs : (match overlapRun.run overlapState with
    | .ok (u, _, pts) w => decide (u.valid 0 overlapTile.granules = true ∧ w.withinFloor = true ∧
        ((w.returned true true pts).retire .seq).me.last ≠ .waited)
    | .error _ _ => false) = true := by decide +kernel
  split at runs
  · exact ⟨_, _, _, _, by assumption, of_decide_eq_true runs⟩
  · cases runs

/-- The instruction looks at the last bytes of all rows before it stores any, and waits for the fill of byte 1. -/
theorem overlapTst_waits {t : State} (h : exec (.tst 0 1 2 3 0) overlapState = .next t) : t.me.last = .waited := by
  have waits : (match exec (.tst 0 1 2 3 0) overlapState with
    | .next t => decide (t.me.last = .waited)
    | _ => false) = true := by decide +kernel
  rw [h] at waits
  exact of_decide_eq_true waits

/-- Refutes O28: of a `TST` whose rows overlap in a host line that the bridge does not hold, a later row's last byte may be
one that only an earlier row of it brings; the statement has the rows stored, and the model waits for the host. -/
theorem not_tileLoadsAndStores : ¬ Obligations.TileLoadsAndStores := by
  intro h
  unfold Obligations.TileLoadsAndStores at h
  obtain ⟨-, tst⟩ := h
  obtain ⟨u, v, pts, w, run, valid, floor, ends⟩ := overlapRun_stores
  obtain ⟨pages, u, checks, run⟩ := Eff.run_bind_eq_ok.mp run
  rw [Eff.run_bind_ok (Eff.run_get _), Eff.run_bind_ok (Eff.run_set ..)] at run
  obtain ⟨_, v, ready, run⟩ := Eff.run_bind_eq_ok.mp run
  rw [Eff.run_bind_ok (Eff.run_get _), Eff.run_bind_ok (Eff.run_set ..)] at run
  obtain ⟨pts, w, stores, run⟩ := Eff.run_bind_eq_ok.mp run
  cases run
  obtain ⟨-, done⟩ := tst 0 1 2 3 0 overlapState u pages ⟨by decide +kernel, by decide +kernel⟩ (by decide +kernel)
    (by decide +kernel) (by decide +kernel) (by decide +kernel) checks
  obtain ⟨done, -⟩ := done valid v w pts (by decide +kernel) ready stores (.inl floor)
  exact ends (overlapTst_waits done)

end Sys2Proof.Machine
end


section
/-! PROOFS. Traffic of fabric peers (O52): windows and answers, messages, the copies under way on a link. -/

namespace Sys2Proof.Machine

/-! ## Steps of the part -/

/-- A step that ends well comes about where FLOOR allows it. -/
theorem happen_goes {e : Eff Unit} {s t : State} (h : e.run s = .ok ⟨⟩ t) (hf : s.FloorAllows t) : happen e s = .next t :=
  happen_ok h hf.holds

/-- A step that ends well, with no timestamp assigned, comes about. -/
theorem happen_timeless {e : Eff Unit} {s t : State} (h : e.run s = .ok ⟨⟩ t) (ht : t.times = s.times) : happen e s = .next t :=
  happen_goes h (State.floorAllows_of_times ht)

/-! ## Windows and answers (R338, R340) -/

/-- The bounds that a peer window takes from its registers. -/
theorem field_51_21 (w : Word) : field w 51 21 = w.toNat % 2 ^ 52 / 2 ^ 21 := rfl

theorem State.admits_iff (s : State) (src : BitVec 22) (pa n : Nat) : s.admits src pa n = true ↔
    ∃ w ∈ s.peers.toList, w.lo.getLsbD 63 = true ∧ (w.src.toNat = src.toNat ∨ w.src.toNat = 2 ^ 22 - 1) ∧
      w.lo.toNat % 2 ^ 52 / 2 ^ 21 * 2 ^ 21 ≤ pa ∧ pa + n ≤ (w.hi.toNat % 2 ^ 52 / 2 ^ 21 + 1) * 2 ^ 21 := by
  rw [State.admits, List.any_eq_true]
  refine exists_congr fun w => and_congr_right fun _ => ?_
  rw [Bool.and_eq_true, Bool.and_eq_true, Bool.and_eq_true, decide_eq_true_iff, decide_eq_true_iff, decide_eq_true_iff,
    field_51_21, field_51_21, add_mul, one_mul, and_assoc, and_assoc]
  exact Iff.rfl

/-- An answer assigns no timestamp. -/
theorem State.FloorAllows.reply {s t : State} (h : s.FloorAllows t) (node : BitVec 22) (addr : Nat) (v : PeerVerdict) (n : Nat)
    (data : Vec) : s.FloorAllows (t.reply node addr v n data) := h.of_times rfl

/-- A peer's write that no window admits, that cannot be performed, or that meets bytes of an assay range. -/
theorem State.peerWrite_refused {s : State} {src : BitVec 22} {pa n : Nat} {data : Vec}
    (h : ¬ (s.admits src pa n = true ∧ s.hostReaches pa n = true) ∨ s.assayBytes pa n = true) :
    s.peerWrite src pa n data = s.reply src pa .refused 0 0 := by
  refine if_neg fun all => ?_
  rw [Bool.and_eq_true, Bool.and_eq_true, Bool.not_eq_true'] at all
  obtain ⟨admitted, free⟩ := all
  rcases h with h | h
  · exact h admitted
  · rw [h] at free
    cases free

/-- A peer's write that is performed. -/
theorem State.peerWrite_performed {s : State} {src : BitVec 22} {pa n : Nat} {data : Vec} (ha : s.admits src pa n = true)
    (hr : s.hostReaches pa n = true) (hf : s.assayBytes pa n = false) : s.peerWrite src pa n data =
      (s.storeBytes true (n + 1) pa ((List.range n).map fun i => BitVec.ofNat 8 (data.toNat / 2 ^ (8 * i)))).reply src pa
        .performed 0 0 :=
  if_pos (by rw [ha, hr, hf]; rfl)

/-- Both steps by which a peer writes 128 bytes, or fewer, make one change. -/
theorem peerWrites {s t : State} {src : BitVec 22} {pa : PAddr} {len : BitVec 8} {data : Vec}
    (h : s.peerWrite src pa.toNat len.toNat data = t) (hf : s.FloorAllows t) :
    moveWith exec (.peerWritePart src pa len data) s = .next t ∧
      (len.toNat = 128 → exec (.peerWrite src pa data) s = .next t) := by
  refine ⟨happen_modify_goes (f := fun s => s.peerWrite src pa.toNat len.toNat data) h hf, fun whole => ?_⟩
  rw [whole] at h
  change execPeerWrite src pa data s = _
  rw [execPeerWrite]
  exact happen_modify_goes h hf

/-- A line that the host does not own is read as it stands (R336). -/
theorem readOwned_free {s : State} {line : Nat} (h : s.hostOwned.contains line = false) : (readOwned line).run s = .ok () s := by
  rw [readOwned, Eff.run_bind_ok (Eff.run_get s), h, Bool.and_false]
  rfl

/-- A line that the host owns is asked back, and the read waits (R336). -/
theorem readOwned_owned {s : State} {line : Nat} (hc : s.hostCoherent line = true) (ho : s.hostOwned.contains line = true) :
    (readOwned line).run s = .error (.wait .access) (s.asksBack line) := by
  rw [readOwned, Eff.run_bind_ok (Eff.run_get s), hc, ho]
  unfold State.asksBack
  cases s.backInvals.any fun b => b.line = line ∧ b.forData <;> rfl

section Read
variable {s : State} {src : BitVec 22} {pa : PAddr} {len : BitVec 8}

theorem peerRead_refused (h : ¬ (s.admits src pa.toNat len.toNat = true ∧ s.hostReaches pa.toNat len.toNat = true)) :
    moveWith exec (.peerRead src pa len) s = .next (s.reply src pa.toNat .refused 0 0) := by
  refine happen_timeless (e := peerRead src pa.toNat len.toNat) ?_ rfl
  rw [peerRead, Eff.run_bind_ok (Eff.run_get s), if_neg (by rwa [Bool.and_eq_true])]
  rfl

variable (ha : s.admits src pa.toNat len.toNat = true) (hr : s.hostReaches pa.toNat len.toNat = true)
include ha hr

theorem peerRead_performed (hf : s.hostOwned.contains (pa.toNat / 128) = false)
    (hl : s.hostOwned.contains ((pa.toNat + len.toNat - 1) / 128) = false) :
    moveWith exec (.peerRead src pa len) s = .next (s.reply src pa.toNat .performed len.toNat
      (BitVec.ofNat 1024 (s.hbm.readN pa.toNat len.toNat))) := by
  have free : (readOwnedAll [pa.toNat / 128, (pa.toNat + len.toNat - 1) / 128]).run s = .ok () s := by
    rw [readOwnedAll, Eff.run_bind_ok (readOwned_free hf), readOwnedAll, Eff.run_bind_ok (readOwned_free hl)]
    rfl
  refine happen_timeless (e := peerRead src pa.toNat len.toNat) ?_ rfl
  rw [peerRead, Eff.run_bind_ok (Eff.run_get s), if_pos (by rw [ha, hr]; rfl), Eff.run_bind_ok free]
  rfl

theorem peerRead_owned (hc : s.hostCoherent (pa.toNat / 128) = true) (ho : s.hostOwned.contains (pa.toNat / 128) = true) :
    moveWith exec (.peerRead src pa len) s = .next (s.asksBack (pa.toNat / 128)) := by
  have kept : (s.asksBack (pa.toNat / 128)).times = s.times := by
    unfold State.asksBack
    split <;> rfl
  refine happen_wait (e := peerRead src pa.toNat len.toNat) (w := .access) ?_ (congrArg Prod.fst kept) (congrArg Prod.snd kept)
  have asked : (readOwnedAll [pa.toNat / 128, (pa.toNat + len.toNat - 1) / 128]).run s =
      .error (.wait .access) (s.asksBack (pa.toNat / 128)) := by
    rw [readOwnedAll, Eff.run_bind_error (readOwned_owned hc ho)]
  rw [peerRead, Eff.run_bind_ok (Eff.run_get s), if_pos (by rw [ha, hr]; rfl), Eff.run_bind_error asked]

end Read

/-! ## Event messages (R311, R339) -/

section Message
variable {s : State} {src : BitVec 22} {p : Nat} {l : BitVec 6} {msg : Word}

/-- The cluster of a message's line takes peers' messages. -/
def State.opens (s : State) (p : Nat) (l : BitVec 6) : Prop :=
  s.dark = false ∧ s.enabled p = true ∧ (s.cluster p).secure = false ∧ (s.cluster p).placed.isSome = true ∧
    (s.line p l).mode = .msg

theorem State.serve_zero (s : State) {n : Nat} (h : n = 0) : s.serve p l n = s := by
  subst h
  rfl

theorem State.opens_iff : s.opens p l ↔ (s.dark || !s.enabled p || (s.cluster p).secure || (s.cluster p).placed.isNone ||
    decide ((s.line p l).mode ≠ .msg)) = false := by
  simp only [State.opens, Bool.or_eq_false_iff, Bool.not_eq_false', decide_eq_false_iff_not, not_not,
    ← Option.not_isSome, and_assoc]

theorem State.peerMessage_refused (h : ¬ s.opens p l) : s.peerMessage src p l msg =
    ({ s with pxref := s.pxref + 1 } : State).reply src (64 * p + l.toNat) .refused 0 0 := by
  rw [State.opens_iff, Bool.not_eq_false] at h
  exact if_pos h

theorem State.peerMessage_full (h : s.opens p l) (full : 16 ≤ (s.line p l).queue.length) : s.peerMessage src p l msg = s :=
  (if_neg (by rw [State.opens_iff.mp h]; exact Bool.false_ne_true)).trans (if_pos full)

/-- A message for which no context waits is appended to the queue of its line. -/
theorem State.peerMessage_appended (h : s.opens p l) (room : (s.line p l).queue.length < 16)
    (none : (s.line p l).waiters = []) : s.peerMessage src p l msg =
    ((s.setLine p l { s.line p l with queue := (s.line p l).queue ++ [msg], stamp := (s.line p l).stamp.store s.high }).assign
      ((s.line p l).stamp.store s.high).wts).reply src (64 * p + l.toNat) .performed 0 0 := by
  refine (if_neg (by rw [State.opens_iff.mp h]; exact Bool.false_ne_true)).trans ((if_neg (by omega)).trans ?_)
  have served : (s.line p l).waiters.length = 0 := by rw [none]; rfl
  exact congrArg (fun u : State => u.reply src (64 * p + l.toNat) .performed 0 0) (State.serve_zero _ served)

end Message

/-! ## The copies in progress -/

section Jobs
variable {s : State} {p q p' q' : Nat}

/-- A change of the copy in progress of one queue leaves those of others. -/
theorem State.runningJob_mapCopy (s : State) (p q p' q' : Nat) (f : Job → Job) :
    (s.mapCopy p q f).runningJob p' true q' =
      if p' = p ∧ q' = q then (s.runningJob p' true q').map f else s.runningJob p' true q' := by
  by_cases hp : p' = p
  · subst hp
    have running : (s.mapCopy p' q f).runningJob p' true q' =
        SMap.find (SMap.update ((s.cluster p').engine true).running fun k j => if k = q then f j else j) q' := by
      rw [State.runningJob, State.mapCopy, State.mapEngine, State.cluster_mapCluster_self]
      rfl
    rw [running, SMap.find_update]
    by_cases hq : q' = q
    · simp [hq, State.runningJob]
    · simp [hq, State.runningJob]
  · rw [if_neg fun h => hp h.1]
    exact congrArg (fun k : Cluster => SMap.find (k.engine true).running q') (State.cluster_mapCluster_ne _ _ hp)

/-- The job with its fault noted, where it has the id and no fault is noted yet (R231). -/
def Job.failing (j : Job) (id : BitVec 16) (e : BitVec 8 × Bool × Word) : Job :=
  if j.id = id ∧ j.failed.isNone then { j with failed := some e } else j

theorem Job.failing_other {j : Job} {id : BitVec 16} {e : BitVec 8 × Bool × Word} (h : j.id ≠ id ∨ j.failed.isSome = true) :
    j.failing id e = j := by
  refine if_neg fun ⟨same, free⟩ => ?_
  rcases h with h | h
  · exact h same
  · cases hj : j.failed <;> simp [hj] at h free

theorem Job.failing_same {j : Job} {e : BitVec 8 × Bool × Word} (h : j.failed = none) :
    j.failing j.id e = { j with failed := some e } := if_pos ⟨rfl, by rw [h]; rfl⟩

theorem State.runningJob_failPeer (s : State) (p q p' q' : Nat) (id : BitVec 16) (code : BitVec 8) (link : Bool) (addr : Word) :
    (s.failPeer p q id code link addr).runningJob p' true q' =
      if p' = p ∧ q' = q then (s.runningJob p' true q').map (·.failing id (code, link, addr)) else s.runningJob p' true q' :=
  s.runningJob_mapCopy ..

end Jobs

/-! ## Acknowledgements (R338, R339) -/

section Ack
variable {s : State} {i : Nat} {v : PeerVerdict} {data : Vec} {f : Flit} {p q : Nat} {id : BitVec 16} {j : Job}

theorem fabricAck_absent (h : s.flits[i]? = none) : exec (.fabricAck i v data) s = .next s := by
  change execFabricAck i v data s = _
  refine happen_timeless (e := fabricAck i v data) ?_ rfl
  rw [fabricAck, Eff.run_bind_ok (Eff.run_get s), h]
  rfl

theorem fabricAck_message (h : s.flits[i]? = some f) (hj : f.job = none) :
    exec (.fabricAck i v data) s = .next (({ s with flits := s.flits.eraseIdx i } : State).messageOver f (v == .lost)) := by
  change execFabricAck i v data s = _
  refine happen_timeless (e := fabricAck i v data) ?_ ?_
  · obtain ⟨node, link, job, sender, peer, at_, len⟩ := f
    cases hj
    rw [fabricAck, Eff.run_bind_ok (Eff.run_get s), h]
    rfl
  · unfold State.messageOver
    split <;> rfl

/-- A unit that the peer refused: its job is to fault with PERM, or what stands at code 0x11 (R338). -/
theorem fabricAck_refused (h : s.flits[i]? = some f) (hj : f.job = some (p, q, id)) :
    exec (.fabricAck i .refused data) s =
      .next { (s.failPeer p q id 0x11 false (BitVec.ofNat 64 f.peer)) with flits := s.flits.eraseIdx i } := by
  change execFabricAck i .refused data s = _
  refine happen_timeless (e := fabricAck i .refused data) ?_ rfl
  obtain ⟨node, link, job, sender, peer, at_, len⟩ := f
  cases hj
  rw [fabricAck, Eff.run_bind_ok (Eff.run_get s), h]
  rfl

/-- A unit that was lost: its job is to fault with ENGFLT and LINK (R231). -/
theorem fabricAck_lost (h : s.flits[i]? = some f) (hj : f.job = some (p, q, id)) :
    exec (.fabricAck i .lost data) s =
      .next { (s.failPeer p q id 0x29 true f.local_) with flits := s.flits.eraseIdx i } := by
  change execFabricAck i .lost data s = _
  refine happen_timeless (e := fabricAck i .lost data) ?_ rfl
  obtain ⟨node, link, job, sender, peer, at_, len⟩ := f
  cases hj
  rw [fabricAck, Eff.run_bind_ok (Eff.run_get s), h]
  rfl

/-- A unit that was performed ends as what it brings is written. -/
theorem fabricAck_performed {t : State} (h : s.flits[i]? = some f) (hj : f.job = some (p, q, id))
    (run : (peerData p q f data).run s = .ok () t) (hf : s.FloorAllows t) :
    exec (.fabricAck i .performed data) s = .next { t with flits := t.flits.eraseIdx i } := by
  change execFabricAck i .performed data s = _
  refine happen_goes (e := fabricAck i .performed data) ?_ (hf.of_times rfl)
  obtain ⟨node, link, job, sender, peer, at_, len⟩ := f
  cases hj
  rw [fabricAck, Eff.run_bind_ok (Eff.run_get s), h]
  dsimp only
  rw [run]
  rfl

theorem fabricAck_trapped {t : State} {e : Trap} (h : s.flits[i]? = some f) (hj : f.job = some (p, q, id))
    (run : (peerData p q f data).run s = .error (.trap e) t) (hf : s.FloorAllows t) :
    exec (.fabricAck i .performed data) s =
      .next { (t.failPeer p q id e.cause.code false e.faddr) with flits := t.flits.eraseIdx i } := by
  change execFabricAck i .performed data s = _
  refine happen_goes (e := fabricAck i .performed data) ?_ (hf.of_times rfl)
  obtain ⟨node, link, job, sender, peer, at_, len⟩ := f
  cases hj
  rw [fabricAck, Eff.run_bind_ok (Eff.run_get s), h]
  dsimp only
  rw [run]
  rfl

/-- What was read for no job that is in progress without a fault is dropped. -/
theorem peerData_idle (hj : f.job = some (p, q, id))
    (h : ∀ j, s.runningJob p true q = some j → j.id ≠ id ∨ j.failed.isSome = true) :
    (peerData p q f data).run s = .ok () s := by
  rw [peerData, Eff.run_bind_ok (Eff.run_get s)]
  split
  · rfl
  · rename_i j hr
    dsimp only
    split
    · split
      · rw [if_neg]
        · rfl
        · rintro ⟨same, free⟩
          rw [hj] at same
          cases same
          exact (h j hr).elim (· rfl) fun failed => by
            rw [Option.isNone_iff_eq_none.mp free] at failed
            cases failed
      · rfl
    · rfl

/-- An acknowledgement for no job that is in progress without a fault. -/
theorem fabricAck_idle (h : s.flits[i]? = some f) (hj : f.job = some (p, q, id))
    (idle : ∀ j, s.runningJob p true q = some j → j.id ≠ id ∨ j.failed.isSome = true) :
    ∃ t : State, exec (.fabricAck i v data) s = .next t ∧ t.runningJob p true q = s.runningJob p true q ∧
      t.flits = s.flits.eraseIdx i ∧ t.contexts = s.contexts ∧ t.hbm = s.hbm := by
  have kept (code : BitVec 8) (link : Bool) (addr : Word) :
      (s.failPeer p q id code link addr).runningJob p true q = s.runningJob p true q := by
    rw [State.runningJob_failPeer, if_pos ⟨rfl, rfl⟩]
    cases hr : s.runningJob p true q with
    | none => rfl
    | some j => exact congrArg some (Job.failing_other (idle j hr))
  cases v with
  | performed =>
    exact ⟨_, fabricAck_performed h hj (peerData_idle hj idle) (State.floorAllows_of_times rfl), rfl, rfl, rfl, rfl⟩
  | refused => exact ⟨_, fabricAck_refused h hj, kept .., rfl, rfl, rfl⟩
  | lost => exact ⟨_, fabricAck_lost h hj, kept .., rfl, rfl, rfl⟩

/-- A unit that is refused or lost is to fault the job that sent it. -/
theorem fabricAck_fails (h : s.flits[i]? = some f) (hj : f.job = some (p, q, j.id)) (hr : s.runningJob p true q = some j)
    (free : j.failed = none) {code : BitVec 8} {cause : Bool × Word}
    (ends : (v = .refused ∧ code = 0x11 ∧ cause = (false, BitVec.ofNat 64 f.peer)) ∨
      (v = .lost ∧ code = 0x29 ∧ cause = (true, f.local_))) :
    ∃ t : State, exec (.fabricAck i v data) s = .next t ∧ t.flits = s.flits.eraseIdx i ∧ t.contexts = s.contexts ∧
      t.hbm = s.hbm ∧ t.runningJob p true q = some { j with failed := some (code, cause) } := by
  have noted (code : BitVec 8) (link : Bool) (addr : Word) :
      (s.failPeer p q j.id code link addr).runningJob p true q = some { j with failed := some (code, link, addr) } := by
    rw [State.runningJob_failPeer, if_pos ⟨rfl, rfl⟩, hr]
    exact congrArg some (Job.failing_same free)
  obtain ⟨rfl, rfl, rfl⟩ | ⟨rfl, rfl, rfl⟩ := ends
  · exact ⟨_, fabricAck_refused h hj, rfl, rfl, rfl, noted ..⟩
  · exact ⟨_, fabricAck_lost h hj, rfl, rfl, rfl, noted ..⟩

section Copy
variable {dst from_ : Word} {m : Nat} {node : BitVec 22} (hr : s.runningJob p true q = some j)
include hr

/-- Data of a copy to a peer brings nothing. -/
theorem peerData_sends (hk : j.kind = .peerCopy dst from_ m true node) : (peerData p q f data).run s = .ok () s := by
  rw [peerData, Eff.run_bind_ok (Eff.run_get s), hr]
  dsimp only
  rw [hk]
  rfl

/-- Data of a copy from a peer is written in its unit. -/
theorem peerData_reads {n : Nat} {u : CopyPart} (hk : j.kind = .peerCopy dst from_ m false node)
    (hn : j.kind.parts.findIdx? (fun u => u.dst = f.local_) = some n) (hu : j.kind.parts[n]? = some u)
    (hj : f.job = some (p, q, j.id)) (free : j.failed = none) :
    (peerData p q f data).run s =
      (do
        let pts ← writePart { s.jobThread p j with unit := some (.copy p q n) } j.kind.parts
          (j.units.filter fun k => !(s.flits.any fun g => g.job = f.job ∧ some g.local_ = (j.kind.parts[k]?).map (·.dst))) [n] u
            data.toNat j.time
        modify fun s => s.mapCopy p q fun j => { j with time := tsMax j.time pts } : Eff Unit).run s := by
  obtain ⟨id', owner, queue, fork, lease, kind, thunk, time, units, batch, failed⟩ := j
  cases hk
  rw [peerData, Eff.run_bind_ok (Eff.run_get s), hr]
  dsimp only at hn hu ⊢
  rw [hn]
  dsimp only
  rw [hu]
  dsimp only
  rw [if_pos ⟨hj, by rw [show failed = none from free]; rfl⟩]

end Copy

end Ack

/-! ## A link that fails (R231, R339) -/

/-- A flit that is lost with its link: a message is counted, and a unit of a copy faults its job. -/
def State.abandon (s : State) (f : Flit) : State :=
  match f.job with
  | none => s.messageOver f true
  | some (p, q, id) => s.failPeer p q id 0x29 true f.local_

theorem State.linkDown_eq (s : State) (link : BitVec 5) : s.linkDown link =
    (s.flits.filter fun f => f.link = link.toNat).foldl State.abandon
      { s with linkup := s.linkup &&& ~~~((1 : BitVec 32) <<< link.toNat), flits := s.flits.filter fun f => f.link ≠ link.toNat } := by
  have rest : s.flits.filter (not ∘ fun f => decide (f.link = link.toNat)) = s.flits.filter fun f => f.link ≠ link.toNat :=
    List.filter_congr fun f _ => (decide_not ..).symm
  rw [State.linkDown, List.partition_eq_filter_filter]
  exact congrArg (fun l => List.foldl State.abandon { s with linkup := s.linkup &&& ~~~((1 : BitVec 32) <<< link.toNat), flits := l }
    (s.flits.filter fun f => f.link = link.toNat)) rest

section Abandon
variable {s : State} {l : List Flit} {f : Flit} {p q : Nat} {j : Job}

/-- What no lost flit changes. -/
def State.besideLost (s : State) : BitVec 32 × List Flit × Memory × Memory × List Output × Ts × Ts :=
  (s.linkup, s.flits, s.hbm, s.host, s.out, s.high, s.floor)

theorem State.abandon_besideLost (s : State) (f : Flit) : (s.abandon f).besideLost = s.besideLost := by
  unfold State.abandon
  split
  · rw [State.messageOver, if_pos rfl]
    rfl
  · rfl

theorem State.abandoned_besideLost (s : State) (l : List Flit) : (l.foldl State.abandon s).besideLost = s.besideLost :=
  foldl_keeps State.besideLost State.abandon_besideLost

theorem State.abandoned_pxlost (s : State) (l : List Flit) : (l.foldl State.abandon s).pxlost =
    s.pxlost + BitVec.ofNat 32 (l.filter fun f => f.job = none).length := by
  induction l generalizing s with
  | nil => simp
  | cons f r ih =>
    rw [List.foldl_cons, ih]
    cases hf : f.job with
    | none =>
      rw [List.filter_cons_of_pos (by simp [hf]), List.length_cons, State.abandon, hf, BitVec.ofNat_add, add_comm (BitVec.ofNat 32 _),
        ← add_assoc]
      rfl
    | some e =>
      rw [List.filter_cons_of_neg (by simp [hf]), State.abandon, hf]
      rfl

theorem State.abandon_ctx (s : State) (f : Flit) (c : CtxId) : (s.abandon f).ctx c =
    { s.ctx c with sout := (s.ctx c).sout - if f.job = none ∧ f.sender = c then 1 else 0 } := by
  unfold State.abandon
  split
  · rename_i hf
    change (s.acked f.sender).ctx c = _
    rw [State.acked, State.ctx_mapCtx]
    by_cases hc : c = f.sender
    · rw [if_pos hc, if_pos ⟨hf, hc.symm⟩]
    · rw [if_neg hc, if_neg fun h => hc h.2.symm]
      rfl
  · rename_i hf
    rw [if_neg fun h => by rw [hf] at h; cases h.1]
    rfl

theorem State.abandoned_ctx (s : State) (l : List Flit) (c : CtxId) : (l.foldl State.abandon s).ctx c =
    { s.ctx c with sout := (s.ctx c).sout - ((l.filter fun f => f.job = none).filter fun f => f.sender = c).length } := by
  induction l generalizing s with
  | nil => rfl
  | cons f r ih =>
    rw [List.foldl_cons, ih, State.abandon_ctx]
    refine congrArg (fun n => { s.ctx c with sout := n }) ?_
    change (s.ctx c).sout - _ - _ = _
    rw [Nat.sub_sub]
    congr 1
    by_cases hf : f.job = none
    · rw [List.filter_cons_of_pos (by simpa using hf)]
      by_cases hc : f.sender = c
      · rw [List.filter_cons_of_pos (by simpa using hc), if_pos ⟨hf, hc⟩, List.length_cons, add_comm]
      · rw [List.filter_cons_of_neg (by simpa using hc), if_neg fun h => hc h.2, zero_add]
    · rw [List.filter_cons_of_neg (by simpa using hf), if_neg fun h => hf h.1, zero_add]

/-- A copy that is to fault keeps the fault that it met first. -/
theorem State.abandoned_failed (h : s.runningJob p true q = some j) (failed : j.failed.isSome = true) :
    (l.foldl State.abandon s).runningJob p true q = some j := by
  refine List.foldlRecOn l State.abandon (motive := fun t => t.runningJob p true q = some j) h fun t ht f _ => ?_
  unfold State.abandon
  split
  · exact ht
  · rw [State.runningJob_failPeer, ht]
    split
    · exact congrArg some (Job.failing_other (.inr failed))
    · rfl

/-- A copy that no unit of another job or queue faults. -/
theorem State.abandon_other (h : s.runningJob p true q = some j) (other : f.job ≠ some (p, q, j.id)) :
    (s.abandon f).runningJob p true q = some j := by
  unfold State.abandon
  split
  · exact h
  · rename_i p' q' id hf
    rw [State.runningJob_failPeer, h]
    split
    · rename_i same
      obtain ⟨rfl, rfl⟩ := same
      exact congrArg some (Job.failing_other (.inl fun e => other (by rw [hf, e])))
    · rfl

/-- The first of the lost units of a copy is the one at which it is to fault. -/
theorem State.abandoned_runningJob (h : s.runningJob p true q = some j) (free : j.failed = none) :
    (l.foldl State.abandon s).runningJob p true q = some { j with
      failed := (l.find? fun f => f.job = some (p, q, j.id)).map fun f => (0x29, true, f.local_) } := by
  induction l generalizing s with
  | nil => exact h.trans (congrArg some (by obtain ⟨⟩ := j; cases free; rfl))
  | cons f r ih =>
    rw [List.foldl_cons]
    by_cases hf : f.job = some (p, q, j.id)
    · rw [List.find?_cons_of_pos (by simpa using hf)]
      refine State.abandoned_failed ?_ rfl
      rw [State.abandon, hf]
      dsimp only
      rw [State.runningJob_failPeer, if_pos ⟨rfl, rfl⟩, h]
      exact congrArg some (Job.failing_same free)
    · rw [List.find?_cons_of_neg (by simpa using hf)]
      exact ih (State.abandon_other h hf)

end Abandon

/-- The whole failure of a link. -/
theorem linkFailure_goes (s : State) (link : BitVec 5) : exec (.linkFailure link) s = .next (s.linkDown link) := by
  change execLinkFailure link s = _
  have kept := congrArg (fun b => b.2.2.2.2.2) ((congrArg State.besideLost (s.linkDown_eq link)).trans (State.abandoned_besideLost ..))
  exact happen_modify_timeless rfl kept

/-- What a link takes with it. -/
theorem linkFailure_ends (s : State) (link : BitVec 5) : ∃ t : State, exec (.linkFailure link) s = .next t ∧
    t.linkup = s.linkup &&& ~~~((1 : BitVec 32) <<< link.toNat) ∧
    t.flits = s.flits.filter (fun f => f.link ≠ link.toNat) ∧ t.hbm = s.hbm ∧ t.host = s.host ∧ t.out = s.out ∧
    (let messages := s.flits.filter fun f => f.link = link.toNat ∧ f.job = none
     t.pxlost = s.pxlost + BitVec.ofNat 32 messages.length ∧
     ∀ c, t.ctx c = { s.ctx c with sout := (s.ctx c).sout - (messages.filter fun f => f.sender = c).length }) ∧
    ∀ p q j, s.runningJob p true q = some j → j.failed = none →
      t.runningJob p true q = some { j with
        failed := (s.flits.find? fun f => f.link = link.toNat ∧ f.job = some (p, q, j.id)).map fun f =>
          (0x29, true, f.local_) } := by
  have beside := (congrArg State.besideLost (s.linkDown_eq link)).trans (State.abandoned_besideLost ..)
  have messages : (s.flits.filter fun f => f.link = link.toNat).filter (fun f => f.job = none) =
      s.flits.filter fun f => f.link = link.toNat ∧ f.job = none := by
    rw [List.filter_filter]
    exact List.filter_congr fun f _ => by rw [Bool.and_comm, Bool.decide_and]
  refine ⟨_, linkFailure_goes s link, congrArg (·.1) beside, congrArg (·.2.1) beside, congrArg (·.2.2.1) beside,
    congrArg (·.2.2.2.1) beside, congrArg (·.2.2.2.2.1) beside, ⟨?_, fun c => ?_⟩, fun p q j hr free => ?_⟩
  · rw [← messages, s.linkDown_eq, State.abandoned_pxlost]
  · rw [← messages, s.linkDown_eq, State.abandoned_ctx]
    rfl
  · rw [s.linkDown_eq]
    refine (State.abandoned_runningJob (j := j) ?_ free).trans ?_
    · exact hr
    · rw [List.find?_filter]
      simp only [Bool.decide_and, Bool.decide_eq_true]

theorem linkUp_goes (s : State) (link : BitVec 5) :
    exec (.linkUp link) s = .next { s with linkup := s.linkup ||| ((1 : BitVec 32) <<< link.toNat) } := by
  change execLinkUp link s = _
  exact happen_modify_timeless rfl rfl

/-- Settles O52: windows and answers, messages, acknowledgements, and the failure of a link. -/
theorem peerTraffic : Obligations.PeerTraffic := by
  unfold Obligations.PeerTraffic
  intro src pa len data cluster l msg i v link s n admitted reaches line k open_ st answered gone writes
  have admits : s.admits src pa.toNat n = true ↔ admitted := s.admits_iff ..
  have answers : answered = fun t addr verdict n d => t.reply src addr verdict n d := rfl
  clear_value answered
  subst answers
  refine ⟨?_, ?_, ?_, ?_, ?_, ?_, ?_, fabricAck_absent, ?_, ?_, ?_, ?_⟩
  · intro h
    rw [← admits] at h
    exact peerWrites (State.peerWrite_refused h) (State.floorAllows_of_times rfl)
  · intro ha hr hf stored floor
    exact peerWrites (State.peerWrite_performed (admits.mpr ha) hr hf) (floor.reply ..)
  · intro h
    rw [← admits] at h
    exact peerRead_refused h
  · intro ha hr
    exact ⟨peerRead_performed (admits.mpr ha) hr, peerRead_owned (admits.mpr ha) hr⟩
  · intro h
    change execPeerEvmsgArrival src cluster l msg s = _
    exact happen_modify_timeless (State.peerMessage_refused h) rfl
  · intro h full
    change execPeerEvmsgArrival src cluster l msg s = _
    exact happen_modify_still (State.peerMessage_full h full)
  · intro h room none floor
    change execPeerEvmsgArrival src cluster l msg s = _
    refine happen_modify_goes (State.peerMessage_appended h room none) (State.FloorAllows.reply ?_ ..)
    exact floor.of_times rfl
  · intro f h hj back
    refine ⟨fun hv => ?_, fun hv => ?_⟩
    · rw [fabricAck_message h hj, State.messageOver, if_neg (by simpa using hv)]
      rfl
    · rw [fabricAck_message h hj, State.messageOver, if_pos (by simpa using hv)]
      rfl
  · intro f p q id h hj
    refine ⟨fun idle => fabricAck_idle h hj idle, ?_⟩
    rintro j hr rfl free
    refine ⟨fun code cause end_ => fabricAck_fails h hj hr free end_, ?_, ?_⟩
    · rintro rfl ⟨dst, from_, m, node, hk⟩
      exact fabricAck_performed h hj (peerData_sends hr hk) (State.floorAllows_of_times rfl)
    · rintro rfl ⟨dst, from_, m, node, hk⟩ u at_ hn hu waits written
      refine ⟨fun pts t run floor => ?_, fun e t run floor => ?_⟩
      · refine fabricAck_performed h hj ((peerData_reads hr hk hn hu hj free).trans ?_) (floor.of_times rfl)
        rw [Eff.run_bind_ok run]
        rfl
      · refine fabricAck_trapped h hj ((peerData_reads hr hk hn hu hj free).trans ?_) floor
        rw [Eff.run_bind_error run]
  · exact linkFailure_ends s link
  · exact linkUp_goes s link

end Sys2Proof.Machine
end


section
/-! PROOFS. Engine jobs (O32): a map of the jobs in progress that lists a queue twice. -/

namespace Sys2Proof.Machine

/-- A copy job that has met ENGFLT (R227). -/
def faultedJob : Job :=
  { id := 0, owner := { core := 0, ctx := 0 }, queue := 0, fork := 0, lease := 0, kind := .copy 0 0 1, thunk := none, time := 0
    units := [], batch := none, failed := some (0x29, false, 0) }

/-- The copy engine of cluster 0 with queue 0 twice among its jobs in progress: no run of the part leads here, and no
hypothesis of the statement leaves it out. -/
def listedTwice : State := State.reset.mapEngine 0 true fun e => { e with running := [(0, faultedJob), (0, faultedJob)] }

/-- The fault takes the first of the two entries away, and the second remains. -/
theorem jobFault_listedTwice {t : State} (h : exec (.jobFault 0 true 0) listedTwice = .next t) :
    t.runningJob 0 true 0 = some faultedJob := by
  have stays : (match exec (.jobFault 0 true 0) listedTwice with
    | .next t => decide (t.runningJob 0 true 0 = some faultedJob)
    | _ => false) = true := by decide +kernel
  rw [h] at stays
  exact of_decide_eq_true stays

/-- Refutes O32: of a state whose map of the jobs in progress lists a queue twice, the end of the job takes one entry away, so
that the queue still has a job in progress. The statement speaks of every state, and not of those alone whose maps list
each key once. -/
theorem not_engineEventsAndJobStatus : ¬ Obligations.EngineEventsAndJobStatus := by
  intro h
  unfold Obligations.EngineEventsAndJobStatus at h
  obtain ⟨-, events, -⟩ := h
  obtain ⟨-, -, faults⟩ := events 0 true 0 listedTwice faultedJob
  obtain ⟨t, run, ended, -⟩ := faults 0x29 false 0 (by decide +kernel) rfl rfl
  exact absurd ((jobFault_listedTwice run).symm.trans ended) (by simp)

end Sys2Proof.Machine
end


section
/-! PROOFS. The teller's own operations (O35): what their elements are (R43, R243). -/

namespace Sys2Proof.Machine

/-! ## The greatest of a row (R170, R243) -/

/-- The order of values with -0 below +0 goes on from one to the next. -/
theorem FV.ltZ_trans {x y z : FV} (hx : x.isNan = false) (hy : y.isNan = false) (hz : z.isNan = false)
    (h : x.ltZ y = true) (h' : y.ltZ z = true) : x.ltZ z = true := by
  rw [FV.ltZ_iff hx hy] at h
  rw [FV.ltZ_iff hy hz] at h'
  rw [FV.ltZ_iff hx hz]
  have zeros {a b : FV} (e : (∃ e, a = .fin true 0 e) ∧ ∃ e, b = .fin false 0 e) : a.real = b.real := by
    obtain ⟨⟨_, rfl⟩, _, rfl⟩ := e
    rw [FV.real_fin, FV.real_fin, finVal_zero, finVal_zero]
  obtain h | h := h
  · obtain h' | h' := h'
    · exact .inl (h.trans h')
    · exact .inl (zeros h' ▸ h)
  · obtain h' | ⟨⟨e, minus⟩, -⟩ := h'
    · exact .inl (zeros h ▸ h')
    · obtain ⟨-, e', plus⟩ := h
      rw [minus] at plus
      cases plus

/-- A format that encodes a NaN holds its canonical one. -/
theorem fmtOf_canonicalNan {c : BitVec 5} {F : FpFmt} (h : fmtOf c = .float F) {x : Nat} (hx : (F.decode x).isNan = true) :
    (F.decode F.canonicalNan).isNan = true := by
  have all : ∀ c : BitVec 5, (match fmtOf c with
      | .float F => decide (F.specials = .none) || (F.decode F.canonicalNan).isNan
      | _ => true) = true := by decide +kernel
  have this := all c
  rw [h] at this
  dsimp only at this
  rw [Bool.or_eq_true, decide_eq_true_iff] at this
  refine this.resolve_left fun none => ?_
  have finite : (F.decode x).isNan = false := by
    unfold FpFmt.decode
    dsimp only
    rw [none, if_neg (by simp), if_neg (by simp)]
    split <;> rfl
  rw [finite] at hx
  cases hx

/-- What the greatest of some elements is: the canonical NaN where all are NaNs, and otherwise one of them below no other. -/
def FpFmt.Greatest (F : FpFmt) (l : List Nat) (m : Nat) : Prop :=
  ((∀ x ∈ l, (F.decode x).isNan = true) ∧ m = F.canonicalNan) ∨
    (m ∈ l ∧ (F.decode m).isNan = false ∧ ∀ x ∈ l, (F.decode x).isNan = false → (F.decode m).ltZ (F.decode x) = false)

section Greatest
variable {F : FpFmt} {c : BitVec 5} {x y m : Nat} {l : List Nat}

theorem fpMinMax_left (hx : (F.decode x).isNan = false) (hy : (F.decode y).isNan = true) : (fpMinMax F true x y).1 = x := by
  simp [fpMinMax, hx, hy]

theorem fpMinMax_right (hx : (F.decode x).isNan = true) (hy : (F.decode y).isNan = false) : (fpMinMax F true x y).1 = y := by
  simp [fpMinMax, hx, hy]

theorem fpMinMax_nans (hx : (F.decode x).isNan = true) (hy : (F.decode y).isNan = true) :
    (fpMinMax F true x y).1 = F.canonicalNan := by
  simp [fpMinMax, hx, hy]

theorem fpMinMax_values (hx : (F.decode x).isNan = false) (hy : (F.decode y).isNan = false) :
    (fpMinMax F true x y).1 = if (F.decode x).ltZ (F.decode y) then y else x := by
  simp [fpMinMax, hx, hy]

/-- No value stands below itself. -/
theorem FV.ltZ_irrefl (v : FV) (h : v.isNan = false) : v.ltZ v = false := by
  rw [Bool.eq_false_iff, Ne, FV.ltZ_iff h h]
  rintro (h | ⟨⟨e, minus⟩, e', plus⟩)
  · exact lt_irrefl _ h
  · rw [minus] at plus
    cases plus

theorem FpFmt.greatest_single (x : Nat) : F.Greatest [x] (fpMinMax F true x x).1 := by
  cases hx : (F.decode x).isNan with
  | true => exact .inl ⟨by simpa using hx, fpMinMax_nans hx hx⟩
  | false =>
    rw [fpMinMax_values hx hx, ite_self]
    exact .inr ⟨List.mem_singleton_self x, hx, by simpa using fun _ => FV.ltZ_irrefl _ hx⟩

theorem FpFmt.Greatest.append (hF : fmtOf c = .float F) (h : F.Greatest l m) (ne : l ≠ []) (y : Nat) :
    F.Greatest (l ++ [y]) (fpMinMax F true m y).1 := by
  obtain ⟨nans, rfl⟩ | ⟨mem, hm, above⟩ := h
  · obtain ⟨x, hx⟩ := List.exists_mem_of_ne_nil l ne
    have nan := fmtOf_canonicalNan hF (nans x hx)
    cases hy : (F.decode y).isNan with
    | true =>
      refine .inl ⟨fun x hx => ?_, fpMinMax_nans nan hy⟩
      obtain hx | hx := List.mem_append.mp hx
      · exact nans x hx
      · rwa [List.mem_singleton.mp hx]
    | false =>
      rw [fpMinMax_right nan hy]
      refine .inr ⟨by simp, hy, fun x hx value => ?_⟩
      obtain hx | hx := List.mem_append.mp hx
      · rw [nans x hx] at value
        cases value
      · rw [List.mem_singleton.mp hx]
        exact FV.ltZ_irrefl _ hy
  · cases hy : (F.decode y).isNan with
    | true =>
      rw [fpMinMax_left hm hy]
      refine .inr ⟨List.mem_append_left _ mem, hm, fun x hx value => ?_⟩
      obtain hx | hx := List.mem_append.mp hx
      · exact above x hx value
      · rw [List.mem_singleton.mp hx, hy] at value
        cases value
    | false =>
      rw [fpMinMax_values hm hy]
      cases less : (F.decode m).ltZ (F.decode y) with
      | true =>
        rw [if_pos rfl]
        refine .inr ⟨by simp, hy, fun x hx value => ?_⟩
        obtain hx | hx := List.mem_append.mp hx
        · rw [Bool.eq_false_iff]
          intro more
          have below := above x hx value
          rw [FV.ltZ_trans hm hy value less more] at below
          cases below
        · rw [List.mem_singleton.mp hx]
          exact FV.ltZ_irrefl _ hy
      | false =>
        rw [if_neg Bool.false_ne_true]
        refine .inr ⟨List.mem_append_left _ mem, hm, fun x hx value => ?_⟩
        obtain hx | hx := List.mem_append.mp hx
        · exact above x hx value
        · rw [List.mem_singleton.mp hx]
          exact less

/-- The teller's `MAXROW` of a float format. -/
theorem greatest_maxFloat (hF : fmtOf c = .float F) (x : Nat) (r : List Nat) : F.Greatest (x :: r) (maxFloat F (x :: r)) := by
  have all (r : List Nat) : ∀ l m, l ≠ [] → F.Greatest l m →
      F.Greatest (l ++ r) (r.foldl (fun m y => (fpMinMax F true m y).1) m) := by
    induction r with
    | nil => intro l m _ h; rwa [List.append_nil]
    | cons y r ih =>
      intro l m ne h
      have next := ih (l ++ [y]) _ (by simp) (h.append hF ne y)
      rwa [List.append_assoc] at next
  exact all r [x] _ (by simp) (FpFmt.greatest_single x)

/-- The sign bit of an encoding of the format's width. -/
theorem FpFmt.negative_iff (hx : x < 2 ^ F.width) : F.negative x = true ↔ x / 2 ^ (F.exp + F.mant) = 1 := by
  have lt : x / 2 ^ (F.exp + F.mant) < 2 := Nat.div_lt_of_lt_mul (by rwa [Nat.mul_comm, ← F.width_eq])
  rw [FpFmt.negative, Nat.add_comm F.mant, decide_eq_true_eq, Nat.mod_eq_of_lt lt]

/-- The greatest of a row by the real numbers, -0 below +0. -/
theorem maxFloat_row (hF : fmtOf c = .float F) (row : Nat → Nat) (n : Nat) (hw : ∀ k, row k < 2 ^ F.width) :
    ((∀ k, k < n → (F.decode (row k)).isNan = true) → 1 ≤ n → maxFloat F ((List.range n).map row) = F.canonicalNan) ∧
      ((∃ k, k < n ∧ (F.decode (row k)).isNan = false) →
        ∃ m, m < n ∧ maxFloat F ((List.range n).map row) = row m ∧ (F.decode (row m)).isNan = false ∧
          ∀ k, k < n → (F.decode (row k)).isNan = false →
            (F.decode (row k)).real ≤ (F.decode (row m)).real ∧
            ((F.decode (row k)).real = (F.decode (row m)).real → row m / 2 ^ (F.exp + F.mant) = 1 →
              row k / 2 ^ (F.exp + F.mant) = 1)) := by
  have greatest (h : 1 ≤ n) : F.Greatest ((List.range n).map row) (maxFloat F ((List.range n).map row)) := by
    obtain ⟨n, rfl⟩ := Nat.exists_eq_add_of_le' h
    rw [List.range_succ_eq_map, List.map_cons]
    exact greatest_maxFloat hF _ _
  have mem {k : Nat} (hk : k < n) : row k ∈ (List.range n).map row := List.mem_map_of_mem (List.mem_range.mpr hk)
  constructor
  · intro nans h
    obtain ⟨-, max⟩ | ⟨inside, value, -⟩ := greatest h
    · exact max
    · obtain ⟨k, hk, e⟩ := List.mem_map.mp inside
      rw [← e, nans k (List.mem_range.mp hk)] at value
      cases value
  · rintro ⟨k, hk, value⟩
    obtain ⟨nans, -⟩ | ⟨inside, hm, above⟩ := greatest (by omega)
    · rw [nans _ (mem hk)] at value
      cases value
    · obtain ⟨m, hmn, e⟩ := List.mem_map.mp inside
      rw [← e] at hm above
      refine ⟨m, List.mem_range.mp hmn, e.symm, hm, fun k hk value => ?_⟩
      have notLess := above _ (mem hk) value
      rw [Bool.eq_false_iff, Ne, FV.ltZ_iff hm value, not_or] at notLess
      refine ⟨not_lt.mp notLess.1, fun same neg => ?_⟩
      rw [← FpFmt.negative_iff (hw _)] at neg ⊢
      by_contra pos
      exact notLess.2 (FpFmt.zeros_of_signs hm value same.symm neg (Bool.eq_false_iff.mpr pos))

end Greatest

/-! ## The tree of a row (R106, R243) -/

section Sum
variable {F : FpFmt} {mode : Mode}

/-- The sums of a tree over leaves of which those from n on are inactive. -/
def rowTree (F : FpFmt) (mode : Mode) (row : Nat → Nat) (n : Nat) : Nat → Nat → Option Nat
  | 0, k => if k < n then some (row k) else none
  | l + 1, k => match rowTree F mode row n l (2 * k), rowTree F mode row n l (2 * k + 1) with
    | some x, some y => some (fpAdd F mode (F.decode x) (F.decode y)).1
    | some x, none => some x
    | none, z => z

/-- The leaves that the teller gives its tree. -/
def rowLeaves (row : Nat → Nat) (n top : Nat) : List (Option Nat × Flags) :=
  ((List.range n).map row).map (fun v => (some v, 0)) ++ List.replicate (2 ^ top - ((List.range n).map row).length) (none, 0)

theorem length_rowLeaves {row : Nat → Nat} {n top : Nat} (h : n ≤ 2 ^ top) : (rowLeaves row n top).length = 2 ^ top := by
  simp [rowLeaves]
  omega

theorem combine_fst (a b : Option Nat × Flags) : (combine F mode a b).1 = match a.1, b.1 with
    | some x, some y => some (fpAdd F mode (F.decode x) (F.decode y)).1
    | some x, none => some x
    | none, z => z := by
  obtain ⟨x, fl⟩ := a
  obtain ⟨y, fl'⟩ := b
  cases x <;> cases y <;> rfl

theorem levelOf_rowLeaves {row : Nat → Nat} {n top : Nat} (h : n ≤ 2 ^ top) (l : Nat) :
    ∀ k, l ≤ top → k < 2 ^ (top - l) →
      ((levelOf F mode (rowLeaves row n top) l).getD k (none, 0)).1 = rowTree F mode row n l k := by
  induction l with
  | zero =>
    intro k _ hk
    rw [rowTree, levelOf, Function.iterate_zero, id_eq, rowLeaves, List.getD_eq_getElem?_getD, List.getElem?_append]
    by_cases hn : k < n
    · simp [hn]
    · simp [hn, List.getElem?_replicate]
      split <;> rfl
  | succ l ih =>
    intro k hl hk
    have half : 2 ^ (top - l) = 2 * 2 ^ (top - (l + 1)) := by
      rw [show top - l = top - (l + 1) + 1 by omega, Nat.pow_succ, Nat.mul_comm]
    have two : 2 * k + 1 < (levelOf F mode (rowLeaves row n top) l).length := by
      rw [length_levelOf (length_rowLeaves h) (by omega)]
      omega
    rw [levelOf_succ, treeLevel_getD _ _ _ two, combine_fst, ih (2 * k) (by omega) (by omega),
      ih (2 * k + 1) (by omega) (by omega)]
    rfl

/-- The teller's `SUMROW` of a float format. -/
theorem treeSum_row {row : Nat → Nat} {n top : Nat} (h : n ≤ 2 ^ top) :
    (treeSum F mode top (rowLeaves row n top)).1 = (rowTree F mode row n top 0).getD 0 := by
  rw [treeSum_eq, levelOf_rowLeaves h top 0 le_rfl (by simp)]

end Sum

/-! ## Integers modulo 2^w -/

section Integers
variable {w : Nat}

theorem signedOf_modEq (w n : Nat) : signedOf w n ≡ n [ZMOD 2 ^ w] := by
  have low : ((n % 2 ^ w : Nat) : Int) ≡ n [ZMOD 2 ^ w] := by
    rw [Int.natCast_mod, Nat.cast_pow, Nat.cast_two]
    exact Int.mod_modEq ..
  unfold signedOf
  dsimp only
  split
  · exact low
  · exact (Int.sub_modulus_modEq_iff.mpr Int.ModEq.rfl).trans low

theorem wrapInt_of_modEq {k : Int} {n : Nat} (h : k ≡ n [ZMOD 2 ^ w]) : wrapInt w k = n % 2 ^ w := by
  rw [wrapInt, show k % 2 ^ w = n % 2 ^ w from h]
  norm_cast

/-- The teller's `SUMROW` of an integer format. -/
theorem wrapInt_sum (w : Nat) (row : List Nat) : wrapInt w (row.foldl (fun t v => t + signedOf w v) 0) = row.sum % 2 ^ w := by
  have all : ∀ (t : Int) (n : Nat), t ≡ n [ZMOD 2 ^ w] →
      row.foldl (fun t v => t + signedOf w v) t ≡ ((n + row.sum : Nat) : Int) [ZMOD 2 ^ w] := by
    induction row with
    | nil => intro t n h; simpa using h
    | cons v r ih =>
      intro t n h
      rw [List.foldl_cons, List.sum_cons, ← Nat.add_assoc]
      exact ih _ _ (by rw [Nat.cast_add]; exact h.add (signedOf_modEq w v))
  refine wrapInt_of_modEq ?_
  have := all 0 0 rfl
  rwa [Nat.zero_add] at this

/-- The teller's `MAXROW` of an integer format. -/
theorem wrapInt_max {row : Nat → Nat} (hw : ∀ k, row k < 2 ^ w) {n : Nat} (h : 1 ≤ n) : ∃ m, m < n ∧
    wrapInt w (((List.range n).map row).foldl (fun t v => max t (signedOf w v))
      (signedOf w (((List.range n).map row).headD 0))) = row m ∧
    ∀ k, k < n → signedOf w (row k) ≤ signedOf w (row m) := by
  have all (r : List Nat) : ∀ (l : List Nat) (m : Nat), m ∈ l → (∀ k ∈ l, signedOf w (row k) ≤ signedOf w (row m)) →
      ∃ m' ∈ l ++ r, (r.map row).foldl (fun t v => max t (signedOf w v)) (signedOf w (row m)) = signedOf w (row m') ∧
        ∀ k ∈ l ++ r, signedOf w (row k) ≤ signedOf w (row m') := by
    induction r with
    | nil => intro l m mem above; exact ⟨m, by simpa using mem, rfl, by simpa using above⟩
    | cons y r ih =>
      intro l m mem above
      rw [List.map_cons, List.foldl_cons, List.append_cons]
      obtain less | more := le_total (signedOf w (row m)) (signedOf w (row y))
      · rw [max_eq_right less]
        refine ih (l ++ [y]) y (by simp) fun k hk => ?_
        obtain hk | hk := List.mem_append.mp hk
        · exact (above k hk).trans less
        · rw [List.mem_singleton.mp hk]
      · rw [max_eq_left more]
        refine ih (l ++ [y]) m (List.mem_append_left _ mem) fun k hk => ?_
        obtain hk | hk := List.mem_append.mp hk
        · exact above k hk
        · rwa [List.mem_singleton.mp hk]
  obtain ⟨n, rfl⟩ := Nat.exists_eq_add_of_le' h
  obtain ⟨m, mem, max, above⟩ := all ((List.range n).map Nat.succ) [0] 0 (by simp) (by simp)
  rw [List.singleton_append, ← List.range_succ_eq_map] at mem above
  rw [List.range_succ_eq_map, List.map_cons, List.foldl_cons, List.headD_cons, max_self, max]
  refine ⟨m, List.mem_range.mp mem, ?_, fun k hk => above k (List.mem_range.mpr hk)⟩
  rw [wrapInt_of_modEq (signedOf_modEq w (row m)), Nat.mod_eq_of_lt (hw m)]

end Integers

end Sys2Proof.Machine
end


section
/-! PROOFS. The teller's own operations (O35): how one is performed (R203, R243, R253). -/

namespace Sys2Proof.Machine

/-! ## Tags and stamps -/

section Tags
variable {s : State} {p g : Nat} {gs : List Nat}

@[simp] theorem State.tag_setTag_self (s : State) (p g : Nat) (t : Tag) : (s.setTag p g t).tag p g = t := by
  rw [State.tag, State.setTag, State.cluster_mapCluster_self]
  exact SMap.at_put_self ..

theorem State.tag_setTag_ne (s : State) (p : Nat) {g g' : Nat} (t : Tag) (h : g' ≠ g) : (s.setTag p g t).tag p g' = s.tag p g' := by
  rw [State.tag, State.setTag, State.cluster_mapCluster_self]
  exact SMap.at_put_ne _ _ _ h

/-- What a change makes of every tag holds of the tags that it is made of. -/
theorem State.setTags_establishes {P : Tag → Prop} {f : Tag → Tag} (h : ∀ t, P (f t)) (hg : g ∈ gs) :
    P ((s.setTags p gs f).tag p g) := by
  refine foldl_establishes (P := fun s => P (s.tag p g)) hg (fun s => ?_) (fun s b _ hb hs => ?_) s
  · rw [State.tag_setTag_self]
    exact h _
  · rwa [State.tag_setTag_ne _ _ _ hb.symm]

/-- What the stamps of granules, and HIGH, leave of a state. -/
def State.besideStamps (s : State) : State := { s with stamps := [], high := 0 }

theorem State.stampLoads_besideStamps (s : State) (p : Nat) (gs : List Nat) (pts : Ts) :
    (s.stampLoads p gs pts).1.besideStamps = s.besideStamps := by
  unfold State.stampLoads
  refine foldl_keeps (s := (s, pts)) (fun e : State × Ts => e.1.besideStamps) ?_
  exact fun _ _ => rfl

theorem State.stampStores_besideStamps (s : State) (p : Nat) (gs : List Nat) (pts : Ts) :
    (s.stampStores p gs pts).1.besideStamps = s.besideStamps := by
  unfold State.stampStores
  refine foldl_keeps (s := (s, pts)) (fun e : State × Ts => e.1.besideStamps) ?_
  exact fun _ _ => rfl

theorem State.setTags_clusterMem (s : State) (p : Nat) (gs : List Nat) (f : Tag → Tag) :
    (s.setTags p gs f).clusterMem = s.clusterMem := by
  unfold State.setTags
  refine foldl_keeps State.clusterMem ?_
  exact fun _ _ => rfl

end Tags

/-! ## Soft errors -/

/-- Where no soft error lies, data is used as it stands (R380). -/
theorem meetError_free {secure : Bool} {acc source : BitVec 4} {key addr : Nat} {s : State} (h : s.softErrors = []) :
    (meetError secure acc source key addr).run s = .ok () s := by
  rw [meetError, Eff.run_bind_ok (Eff.run_get s), h]
  rfl

theorem meetGranules_free {secure : Bool} {acc : BitVec 4} {p : Nat} {s : State} (h : s.softErrors = []) (gs : List Nat) :
    (meetGranules secure acc p gs).run s = .ok () s := by
  induction gs with
  | nil => rfl
  | cons g r ih =>
    rw [meetGranules]
    exact (Eff.run_bind_ok (meetError_free h)).trans ih

/-! ## An operation -/

section Top
variable {t : Thread} {p : Nat} {op : Top} {rm : Rm} {args : List (Nat × Tile)} {res : Tile} {fork : Ts} {s : State}

/-- The arguments of an operation are loaded one after another, which changes stamps alone. -/
theorem evaluateTop_read_run (hs : s.softErrors = []) (pts : Ts) :
    ∃ pts' u, (evaluateTop.read t pts args).run s = .ok pts' u ∧ u.besideStamps = s.besideStamps := by
  induction args generalizing s pts with
  | nil => exact ⟨pts, s, rfl, rfl⟩
  | cons e r ih =>
    obtain ⟨q, a⟩ := e
    have beside := s.stampLoads_besideStamps q (a.granules ++ a.scales a.rows.toNat) (s.tagTime q a.granules pts)
    have noErrors : (s.stampLoads q (a.granules ++ a.scales a.rows.toNat) (s.tagTime q a.granules pts)).1.softErrors = [] := by
      have same := congrArg State.softErrors beside
      exact same.trans hs
    obtain ⟨pts', u, run, same⟩ := ih noErrors
      (s.stampLoads q (a.granules ++ a.scales a.rows.toNat) (s.tagTime q a.granules pts)).2
    refine ⟨pts', u, ?_, same.trans beside⟩
    rw [evaluateTop.read]
    exact (Eff.run_bind_ok (meetGranules_free hs _)).trans run

/-- The elements of an operation on its arguments. -/
def topElems (m : Memory) (p : Nat) (op : Top) (rm : Rm) (args : List (Nat × Tile)) (res : Tile) (i j : Nat) : Nat :=
  topElem m op rm (args.headD (p, res)).1 (args.headD (p, res)).2 (args.getD 1 (p, res)).1 (args.getD 1 (p, res)).2 res.fmt i j

/-- An operation whose arguments are valid and whose result may be filled is performed. -/
theorem evaluateTop_run (hs : s.softErrors = []) (hv : ∀ x ∈ args, s.valid x.1 x.2.granules = true)
    (hf : s.fillable p res.granules = true) :
    ∃ time u, (evaluateTop t p op rm args res fork).run s = .ok time u ∧
      u.clusterMem = res.writeAll s.clusterMem p (fun i j => some (topElems s.clusterMem p op rm args res i j)) ∧
      ∀ g ∈ res.granules, (u.tag p g).v = true ∧ (u.tag p g).c = false ∧ (u.tag p g).time = time := by
  obtain ⟨pts, u, read, beside⟩ := evaluateTop_read_run (t := t) (args := args) hs fork
  have mem : u.clusterMem = s.clusterMem := by
    have same := congrArg State.clusterMem beside
    exact same
  have ready : (!(args.all fun a => s.valid a.1 a.2.granules) || !s.fillable p res.granules) = false := by
    rw [List.all_eq_true.mpr hv, hf]
    rfl
  let filled : State := { u with clusterMem := res.writeAll u.clusterMem p fun i j => some (topElems u.clusterMem p op rm args res i j) }
  let stored := filled.stampStores p res.granules (u.tagTime p res.granules pts)
  refine ⟨stored.2, (stored.1.setTags p res.granules fun g => { g with v := true, c := false, time := stored.2 }).assign stored.2,
    ?_, ?_, fun g hg => ?_⟩
  · rw [evaluateTop, Eff.run_bind_ok (Eff.run_get s)]
    dsimp only
    rw [ready, if_neg Bool.false_ne_true]
    exact (Eff.run_bind_ok read).trans rfl
  · have kept := congrArg State.clusterMem (filled.stampStores_besideStamps p res.granules (u.tagTime p res.granules pts))
    rw [← mem]
    exact (State.setTags_clusterMem ..).trans kept
  · exact State.setTags_establishes (P := fun x => x.v = true ∧ x.c = false ∧ x.time = stored.2) (fun _ => ⟨rfl, rfl, rfl⟩) hg

end Top

end Sys2Proof.Machine
end


section
/-! PROOFS. The teller's own operations (O35): the whole statement about their elements. -/

namespace Sys2Proof.Machine

section Elements
variable {m : Memory} {rm : Rm} {pa pb i j : Nat} {a b : Tile} {res : BitVec 5} {F : FpFmt}

theorem Tile.bits_lt (a : Tile) (m : Memory) (p i j : Nat) : a.bits m p i j < 2 ^ a.width := Nat.mod_lt _ (Nat.two_pow_pos _)

theorem Tile.width_float (h : fmtOf a.fmt = .float F) : a.width = F.width := by rw [Tile.width, h]; rfl

theorem Fmt.isInt_iff {f : Fmt} : f.isInt = true ↔ ∃ w, f = .int w := by cases f <;> simp [Fmt.isInt]

/-- The mode of an operation (R94, R243). -/
theorem resolveMode_zero (rm : Rm) : resolveMode rm 0 = match rm with
    | .rne | .dyn => .rne | .rtz => .rtz | .rdn => .rdn | .rup => .rup | .rna => .rna := by cases rm <;> rfl

/-- The least height of the teller's tree. -/
theorem find_height {n K : Nat} (h : n ≤ 128) (hK : n ≤ 2 ^ K) (least : ∀ l, n ≤ 2 ^ l → K ≤ l) :
    ((List.range 8).find? fun k => decide (n ≤ 2 ^ k)).getD 0 = K := by
  have small : K < 8 := Nat.lt_succ_of_le (least 7 h)
  have found : (List.range 8).find? (fun k => decide (n ≤ 2 ^ k)) = some K := by
    rw [List.find?_range_eq_some]
    refine ⟨decide_eq_true hK, List.mem_range.mpr small, fun l hl => ?_⟩
    rw [Bool.not_eq_true', decide_eq_false_iff_not]
    exact fun le => absurd (least l le) (by omega)
  rw [found, Option.getD_some]

section Float
variable (h : fmtOf a.fmt = .float F)
include h

theorem topElem_add : topElem m .add rm pa a pb b res i j =
    (fpAdd F (resolveMode rm 0) (F.decode (a.bits m pa i j)) (F.decode (b.bits m pb i j))).1 := by
  unfold topElem
  dsimp only
  rw [h]

theorem topElem_sub : topElem m .sub rm pa a pb b res i j =
    (fpAdd F (resolveMode rm 0) (F.decode (a.bits m pa i j)) (F.decode (b.bits m pb i j)).neg).1 := by
  unfold topElem
  dsimp only
  rw [h]
  rfl

theorem topElem_mul : topElem m .mul rm pa a pb b res i j =
    (fpMul F (resolveMode rm 0) (F.decode (a.bits m pa i j)) (F.decode (b.bits m pb i j))).1 := by
  unfold topElem
  dsimp only
  rw [h]

theorem topElem_scale : topElem m .scale rm pa a pb b res i j =
    (fpMul F (resolveMode rm 0) (F.decode (a.bits m pa i j)) (F.decode (b.bits m pb 0 0))).1 := by
  unfold topElem
  dsimp only
  rw [h]

theorem topElem_maxrow : topElem m .maxrow rm pa a pb b res i j =
    maxFloat F ((List.range a.cols.toNat).map fun k => a.bits m pa i k) := by
  unfold topElem
  dsimp only
  rw [h]

theorem topElem_sumrow {K : Nat} (hn : a.cols.toNat ≤ 128) (hK : a.cols.toNat ≤ 2 ^ K)
    (least : ∀ l, a.cols.toNat ≤ 2 ^ l → K ≤ l) : topElem m .sumrow rm pa a pb b res i j =
      (rowTree F (resolveMode rm 0) (a.bits m pa i) a.cols.toNat K 0).getD 0 := by
  unfold topElem
  dsimp only
  rw [h, ← treeSum_row hK]
  dsimp only
  rw [find_height hn hK least]
  rfl

end Float

section Int
variable {w : Nat} (h : fmtOf a.fmt = .int w)
include h

theorem topElem_add_int : topElem m .add rm pa a pb b res i j =
    wrapInt a.width (signedOf a.width (a.bits m pa i j) + signedOf a.width (b.bits m pb i j)) := by
  unfold topElem
  dsimp only
  rw [h]

theorem topElem_sub_int : topElem m .sub rm pa a pb b res i j =
    wrapInt a.width (signedOf a.width (a.bits m pa i j) - signedOf a.width (b.bits m pb i j)) := by
  unfold topElem
  dsimp only
  rw [h]

theorem topElem_mul_int : topElem m .mul rm pa a pb b res i j =
    wrapInt a.width (signedOf a.width (a.bits m pa i j) * signedOf a.width (b.bits m pb i j)) := by
  unfold topElem
  dsimp only
  rw [h]

theorem topElem_scale_int : topElem m .scale rm pa a pb b res i j =
    wrapInt a.width (signedOf a.width (a.bits m pa i j) * signedOf a.width (b.bits m pb 0 0)) := by
  unfold topElem
  dsimp only
  rw [h]

theorem topElem_maxrow_int : topElem m .maxrow rm pa a pb b res i j =
    wrapInt a.width (((List.range a.cols.toNat).map (a.bits m pa i)).foldl (fun t v => max t (signedOf a.width v))
      (signedOf a.width (((List.range a.cols.toNat).map (a.bits m pa i)).headD 0))) := by
  unfold topElem
  dsimp only
  rw [h]

theorem topElem_sumrow_int : topElem m .sumrow rm pa a pb b res i j =
    wrapInt a.width (((List.range a.cols.toNat).map (a.bits m pa i)).foldl (fun t v => t + signedOf a.width v) 0) := by
  unfold topElem
  dsimp only
  rw [h]

end Int

/-- The difference of two integers modulo 2^w. -/
theorem wrapInt_sub (w x y : Nat) : wrapInt w (signedOf w x - signedOf w y) = (x + (2 ^ w - y % 2 ^ w)) % 2 ^ w := by
  refine wrapInt_of_modEq (((signedOf_modEq w x).sub (signedOf_modEq w y)).trans ?_)
  have le : y % 2 ^ w ≤ 2 ^ w := (Nat.mod_lt _ (Nat.two_pow_pos w)).le
  rw [Nat.cast_add, Nat.cast_sub le, sub_eq_add_neg]
  refine Int.ModEq.rfl.add ?_
  push_cast
  refine (Int.ModEq.neg (Int.mod_modEq (y : Int) (2 ^ w)).symm).trans ?_
  simp [Int.ModEq, Int.sub_eq_add_neg]

end Elements

theorem operationsOfTheTeller : OperationsOfTheTeller := by
  intro t p op rm pa pb a b res args fork s hs hargs hv hf mode x y W
  obtain ⟨time, u, run, mem, tags⟩ := evaluateTop_run (t := t) (op := op) (rm := rm) (fork := fork) hs hv hf
  have first : args.headD (p, res) = (pa, a) := by
    obtain rfl | rfl := hargs <;> rfl
  have modes : resolveMode rm 0 = mode := resolveMode_zero rm
  have low (i k : Nat) : a.bits s.clusterMem pa i k < 2 ^ a.width := a.bits_lt ..
  have elem (i j : Nat) : topElems s.clusterMem p op rm args res i j =
      topElem s.clusterMem op rm pa a (args.getD 1 (p, res)).1 (args.getD 1 (p, res)).2 res.fmt i j := by
    rw [topElems, first]
  refine ⟨topElems s.clusterMem p op rm args res, time, u, run, mem, tags, ?_, ?_, fun F hF => ⟨?_, ?_, ?_⟩, fun isInt => ?_⟩
  · rintro rfl i j
    rw [elem]
    rfl
  · rintro rfl i j
    rw [elem, ← modes]
    rfl
  · rintro rfl
    refine ⟨?_, ?_, ?_, ?_⟩ <;> rintro rfl i j <;> rw [elem, ← modes]
    · exact topElem_add hF
    · exact topElem_sub hF
    · exact topElem_mul hF
    · exact topElem_scale hF
  · rintro rfl i
    rw [elem, topElem_maxrow hF]
    exact maxFloat_row hF _ _ fun k => (low i k).trans_eq (by rw [Tile.width_float hF])
  · rintro rfl small i K hK least
    refine ⟨rowTree F mode (x i) a.cols.toNat, fun k => rfl, fun l k => rfl, ?_⟩
    rw [elem, topElem_sumrow hF small hK least, modes]
  · obtain ⟨w, hI⟩ := Fmt.isInt_iff.mp isInt
    refine ⟨?_, ?_, ?_⟩
    · rintro rfl
      refine ⟨?_, ?_, ?_, ?_⟩ <;> rintro rfl i j <;> rw [elem]
      · rw [topElem_add_int hI]
        exact wrapInt_of_modEq (by rw [Nat.cast_add]; exact (signedOf_modEq ..).add (signedOf_modEq ..))
      · rw [topElem_sub_int hI]
        exact wrapInt_sub ..
      · rw [topElem_mul_int hI]
        exact wrapInt_of_modEq (by rw [Nat.cast_mul]; exact (signedOf_modEq ..).mul (signedOf_modEq ..))
      · rw [topElem_scale_int hI]
        exact wrapInt_of_modEq (by rw [Nat.cast_mul]; exact (signedOf_modEq ..).mul (signedOf_modEq ..))
    · rintro rfl some_ i
      rw [elem, topElem_maxrow_int hI]
      simp only [← signedOf_eq_toInt]
      exact wrapInt_max (low i) some_
    · rintro rfl i
      rw [elem, topElem_sumrow_int hI]
      exact wrapInt_sum ..

end Sys2Proof.Machine
end


section
/-! PROOFS. The teller (O35): the operation that it performs for the first demand in its order (R241, R246, R249). -/

namespace Sys2Proof.Machine

/-! ## Handles and slots (R41, R235) -/

@[simp] theorem State.slotAt_setSlot_self (s : State) (h : BitVec 32) (k : HSlot) : (s.setSlot h k).slotAt h = k := by
  rw [State.slotAt, State.setSlot, State.cluster_mapCluster_self]
  exact SMap.at_put_self ..

theorem meetHandle_free {secure : Bool} {h : BitVec 32} {s : State} (hs : s.softErrors = []) :
    (meetHandle secure h).run s = .ok () s := meetError_free hs

theorem meetHandles_free {secure : Bool} {s : State} (hs : s.softErrors = []) (l : List (BitVec 32)) :
    (l.forM (meetHandle secure)).run s = .ok () s := by
  induction l with
  | nil => rfl
  | cons h r ih => exact (Eff.run_bind_ok (meetHandle_free hs)).trans ih

/-- A demand whose frames evaluate nothing ends in its fault alone (R246, R250). -/
theorem State.failDemand_open (s : State) (i : Nat) (d : Demand) (fault : Trap) (h : d.frames.filter (fun f => f.2.own) = []) :
    s.failDemand i d fault = ({ s with demands := s.demands.eraseIdx i } : State).grantDemand d.owner 0 {} (some fault) := by
  rw [State.failDemand, h]
  rfl

/-! ## One operation -/

section Step
variable {s t : State} {p i : Nat} {d : Demand} {h : BitVec 32} {st : FrameState} {rest : List (BitVec 32 × FrameState)}

/-- The first demand in the order is served where it has an operation ready. -/
theorem tellerOperation_serves {cluster : BitVec 10} {more : List Nat} (on : s.tellerOn cluster.toNat = true)
    (order : s.demandOrder = i :: more) (run : (demandStep cluster.toNat i).run s = .ok () t) (hf : s.FloorAllows t) :
    exec (.tellerOperation cluster) s = .next t := by
  change execTellerOperation cluster s = _
  refine happen_modify_goes ?_ hf
  rw [if_pos on, order, State.tellerStep, run]
  rfl

variable (hd : s.demands[i]? = some d) (now : d.at_ < s.clock) (hs : s.softErrors = [])
include hd now

/-- A demand of frames at the home of its innermost handle. -/
theorem demandStep_open (frames : d.frames = (h, .open) :: rest) (home : hCluster h = p) (hs : s.softErrors = []) :
    (demandStep p i).run s = (lookAt i d h rest).run s := by
  rw [demandStep, Eff.run_bind_ok (Eff.run_get s), hd]
  dsimp only
  rw [if_neg (Nat.not_le.mpr now), frames]
  dsimp only
  rw [if_neg (not_not.mpr home), meetHandle_free hs]
  rfl

section Marked
variable (frames : d.frames = (h, .marked) :: rest) (home : hCluster h = p)
include frames home

/-- The first argument that is not VALUE is demanded. -/
theorem demandStep_demands {a : BitVec 32}
    (found : (s.slotAt h).args.find? (fun a => a ≠ 0 ∧ (s.slotAt h).strict = false ∧ (s.slotOf a).all (·.state ≠ .value)) = some a) :
    (demandStep p i).run s = .ok () (s.setFrames i d ((a, .open) :: d.frames)) := by
  rw [demandStep, Eff.run_bind_ok (Eff.run_get s), hd]
  dsimp only
  rw [if_neg (Nat.not_le.mpr now), frames]
  dsimp only
  rw [if_neg (not_not.mpr home), found]
  rfl

/-- A thunk whose arguments are all VALUE is evaluated. -/
theorem demandStep_evaluates (hs : s.softErrors = [])
    (none : (s.slotAt h).args.find? (fun a => a ≠ 0 ∧ (s.slotAt h).strict = false ∧ (s.slotOf a).all (·.state ≠ .value)) = none) :
    (demandStep p i).run s = (evaluate p i d h (s.slotAt h) rest).run s := by
  rw [demandStep, Eff.run_bind_ok (Eff.run_get s), hd]
  dsimp only
  rw [if_neg (Nat.not_le.mpr now), frames]
  dsimp only
  rw [if_neg (not_not.mpr home), none]
  dsimp only
  rw [meetHandles_free hs]
  rfl

end Marked

/-- A strict operation goes on. -/
theorem demandStep_work {w : Strict} (frames : d.frames = []) (work : d.work = some w) :
    (demandStep p i).run s = (workStep p i d w).run s := by
  rw [demandStep, Eff.run_bind_ok (Eff.run_get s), hd]
  dsimp only
  rw [if_neg (Nat.not_le.mpr now), frames]
  dsimp only
  rw [work]

end Step

end Sys2Proof.Machine
end


section
/-! PROOFS. The teller (O35): looking at a handle, evaluating a thunk, going on with a strict operation. -/

namespace Sys2Proof.Machine

section Look
variable {s : State} {i : Nat} {d : Demand} {h : BitVec 32} {st : FrameState} {rest : List (BitVec 32 × FrameState)}

theorem lookAt_stale (k : s.slotOf h = none) : (lookAt i d h rest).run s =
    .ok () (s.failDemand i d { cause := .hstale, faddr := h.setWidth 64 }) := by
  rw [lookAt, Eff.run_bind_ok (Eff.run_get s), k]
  rfl

theorem lookAt_suspended {k : HSlot} (hk : s.slotOf h = some k) (state : k.state = .suspended) : (lookAt i d h rest).run s =
    .ok () ((s.setSlot h { k with state := .evaluating, owner := s.demander d rest }).setFrames i d ((h, .marked) :: rest)) := by
  rw [lookAt, Eff.run_bind_ok (Eff.run_get s), hk]
  dsimp only
  rw [state]
  rfl

theorem lookAt_value {k : HSlot} (hk : s.slotOf h = some k) (state : k.state = .value) : (lookAt i d h rest).run s =
    .ok () (s.reached i d k.time k.tile) := by
  rw [lookAt, Eff.run_bind_ok (Eff.run_get s), hk]
  dsimp only
  rw [state]
  rfl

/-! ## A demand whose innermost handle is VALUE (R241, R246) -/

theorem Demand.reached_inner {b : BitVec 32 × FrameState} {time : Ts} {tile : Tile} (frames : d.frames = (h, st) :: b :: rest) :
    d.reached time tile = some { d with frames := b :: rest } := by
  unfold Demand.reached
  rw [frames]

theorem Demand.reached_last {time : Ts} {tile : Tile} (frames : d.frames = [(h, st)]) (work : d.work = none) :
    d.reached time tile = none := by
  unfold Demand.reached
  rw [frames, work]

theorem Demand.reached_work {w : Strict} {time : Ts} {tile : Tile} (frames : d.frames = [(h, st)]) (work : d.work = some w) :
    d.reached time tile = some { d with
      frames := [], fork := tsMax d.fork time
      work := some { w with left := w.left.drop 1, args := w.args ++ [(hCluster h, tile)] } } := by
  unfold Demand.reached
  rw [frames, work]

theorem State.reached_some {e : Demand} {time : Ts} {tile : Tile} (he : d.reached time tile = some e) :
    s.reached i d time tile = { s with demands := s.demands.set i e } := by
  rw [State.reached, he]

theorem State.reached_none {time : Ts} {tile : Tile} (he : d.reached time tile = none) :
    s.reached i d time tile = ({ s with demands := s.demands.eraseIdx i } : State).grantDemand d.owner time tile none := by
  rw [State.reached, he]

end Look

/-! ## Times and registers -/

theorem State.FloorAllows.grantDemand {s t : State} (h : s.FloorAllows t) (o : Option CtxId) (time : Ts) (tile : Tile)
    (f : Option Trap) : s.FloorAllows (t.grantDemand o time tile f) := by
  cases o <;> exact h.of_times rfl

/-- Registers below those that a routine's words go to stay. -/
theorem fillX_below (l : List Word) : ∀ (x : Vector Word 64) (i r : Nat) (hr : r < 64), r < i → (fillX x i l)[r] = x[r] := by
  induction l with
  | nil => intros; rfl
  | cons w l ih =>
    intro x i r hr lt
    rw [fillX, ih _ _ _ hr (by omega), Vector.getElem_setIfInBounds, if_neg (by omega)]

/-- The words that a routine begins with stand in its registers, and the others keep theirs (R34, R249). -/
theorem fillX_getElem (l : List Word) : ∀ (x : Vector Word 64) (i n : Nat) (hr : i + n < 64),
    (fillX x i l)[i + n] = l.getD n x[i + n] := by
  induction l with
  | nil => intros; rfl
  | cons w l ih =>
    intro x i n hr
    rw [fillX]
    cases n with
    | zero => simp [fillX_below]
    | succ n =>
      have next := ih (x.setIfInBounds i w) (i + 1) n (by omega)
      simp only [show i + (n + 1) = i + 1 + n by omega, List.getD_cons_succ]
      rw [next, Vector.getElem_setIfInBounds, if_neg (by omega)]

section Evaluate
variable {s t : State} {p i : Nat} {d : Demand} {h : BitVec 32} {k : HSlot} {rest : List (BitVec 32 × FrameState)}

/-- The arguments of a thunk as tiles in their clusters' windows. -/
def State.argTiles (s : State) (k : HSlot) : List (Nat × Tile) :=
  (k.args.filter (· ≠ 0)).map fun a => (hCluster a, (s.slotAt a).tile.at_ (hCluster a) (s.slotAt a).tile.off)

theorem State.forkTime_eq (s : State) (d : Demand) (k : HSlot) :
    s.forkTime d k = (k.args.filter (· ≠ 0)).foldl (fun t a => tsMax t (s.slotAt a).time) d.fork := by
  rw [State.forkTime, List.foldl_filter]
  refine congrArg (fun f => List.foldl f d.fork k.args) (funext₂ fun t a => ?_)
  by_cases ha : a = 0 <;> simp [ha]

theorem evaluate_top {op : Top} {time : Ts} (routine : k.routine = false) (top : k.top = some op) (notMma : op ≠ .mma)
    (run : (evaluateTop (s.evalThread p d) p op k.rm (s.argTiles k) (k.tile.at_ p k.tile.off) (s.forkTime d k)).run s =
      .ok time t) :
    (evaluate p i d h k rest).run s = .ok () (t.setFrames i d ((h, .ended time none) :: rest)) := by
  unfold State.argTiles at run
  rw [evaluate, Eff.run_bind_ok (Eff.run_get s), routine, top]
  cases op with
  | mma => exact absurd rfl notMma
  | _ =>
    dsimp only
    rw [run]
    rfl

theorem evaluate_mma (routine : k.routine = false) (top : k.top = some .mma) (room : (s.cluster p).matrix.room 8 = true) :
    (evaluate p i d h k rest).run s = .ok () ((s.setFrames i d ((h, .running) :: rest)).mapEngine p false fun e =>
      e.append 8 (s.productJob p d (.thunk (BitVec.ofNat 11 (hSlot h))) (s.argTiles k) (k.tile.at_ p k.tile.off)
        (s.forkTime d k))) := by
  rw [evaluate, Eff.run_bind_ok (Eff.run_get s), routine, top]
  dsimp only
  rw [room]
  rfl

theorem evaluate_routine {c : CtxId} {others : List CtxId} (routine : k.routine = true) (free : s.freeContexts p = c :: others) :
    (evaluate p i d h k rest).run s = .ok () ((s.setFrames i d ((h, .running) :: rest)).beginRoutine c
      ((s.launch (s.queueOf p)).routines.getD k.ridx.toNat 0)
      ([k.argA.setWidth 64, k.argB.setWidth 64, k.argC.setWidth 64] ++ k.coord.toList) (tsMax (s.ctx c).pts (s.forkTime d k))
      (some (p, BitVec.ofNat 11 (hSlot h)))) := by
  rw [evaluate, Eff.run_bind_ok (Eff.run_get s), routine]
  dsimp only
  rw [free]
  rfl

/-- The job of a product. -/
theorem queue8_append {A B : Tile} {r : List Tile} {args : List (Nat × Tile)} (tiles : args.map (·.2) = A :: B :: r) (u : State)
    (hu : (u.cluster p).matrix = (s.cluster p).matrix) (for_ : Evaluates) (C : Tile) (fork : Ts) :
    ∃ j : Job, SMap.at ((u.mapEngine p false fun e => e.append 8 (s.productJob p d for_ args C fork)).cluster p).matrix.queues [] 8 =
        SMap.at (s.cluster p).matrix.queues [] 8 ++ [j] ∧
      j.kind = .mma A B (.tile C) false false none ∧ j.thunk = some for_ ∧ j.fork = fork ∧ j.queue = d.queue := by
  refine ⟨s.productJob p d for_ args C fork, ?_, ?_, rfl, rfl, rfl⟩
  · rw [State.mapEngine, State.cluster_mapCluster_self]
    refine (SMap.at_put_self ..).trans ?_
    rw [← hu]
    rfl
  · match args, tiles with
    | _ :: _ :: _, tiles =>
      cases tiles
      rfl

end Evaluate

section Work
variable {s t : State} {p i : Nat} {d : Demand} {w : Strict} (home : w.cluster = p) (fresh : w.submitted = false)
include home fresh

theorem workStep_demands {a : BitVec 32} {r : List (BitVec 32)} (left : w.left = a :: r) :
    (workStep p i d w).run s = .ok () (s.setFrames i d [(a, .open)]) := by
  rw [workStep, Eff.run_bind_ok (Eff.run_get s), if_neg (by simp [home, fresh]), left]
  rfl

theorem workStep_ends (left : w.left = []) (op : w.op = none) : (workStep p i d w).run s =
    .ok () (({ s with demands := s.demands.eraseIdx i } : State).grantDemand d.owner d.fork {} none) := by
  rw [workStep, Eff.run_bind_ok (Eff.run_get s), if_neg (by simp [home, fresh]), left, op]
  rfl

theorem workStep_top {op : Top} {rm : Rm} {res : Tile} {time : Ts} (left : w.left = []) (hop : w.op = some (op, rm, res))
    (notMma : op ≠ .mma)
    (run : (evaluateTop (s.evalThread p d) p op rm (w.args.map fun e => (e.1, e.2.at_ e.1 e.2.off)) (res.at_ p res.off)
      d.fork).run s = .ok time t) :
    (workStep p i d w).run s =
      .ok () (({ t with demands := t.demands.eraseIdx i } : State).grantDemand d.owner time {} none) := by
  rw [workStep, Eff.run_bind_ok (Eff.run_get s), if_neg (by simp [home, fresh]), left, hop]
  dsimp only
  rw [if_neg notMma, run]
  rfl

theorem workStep_mma {rm : Rm} {res : Tile} (left : w.left = []) (hop : w.op = some (.mma, rm, res))
    (room : (s.cluster p).matrix.room 8 = true) :
    (workStep p i d w).run s =
      .ok () (({ s with demands := s.demands.set i { d with work := some { w with submitted := true } } } : State).mapEngine p false
        fun e => e.append 8 (s.productJob p d (.strict ((s.evalThread p d).ctx)) (w.args.map fun e => (e.1, e.2.at_ e.1 e.2.off))
          (res.at_ p res.off) d.fork)) := by
  rw [workStep, Eff.run_bind_ok (Eff.run_get s), if_neg (by simp [home, fresh]), left, hop]
  dsimp only
  rw [if_pos rfl, room]
  rfl

end Work

end Sys2Proof.Machine
end


section
/-! PROOFS. The end of an evaluation (O35): its slot, and the demands that wait for it (R246, R248). -/

namespace Sys2Proof.Machine

/-! ## References dropped (R236, R248) -/

/-- What neither the change of a slot nor that of a creator's count changes stays when a reference is dropped. -/
theorem State.dropRef_keeps {β : Type} (g : State → β) (slot : ∀ s h k, g (State.setSlot s h k) = g s)
    (count : ∀ s k, g (State.uncount s k) = g s) (n : Nat) (h : BitVec 32) (s : State) : g (s.dropRef n h) = g s := by
  induction n generalizing h s with
  | zero => rfl
  | succ n ih =>
    rw [State.dropRef]
    split
    · rfl
    · split_ifs
      · rfl
      · exact slot ..
      · split
        · exact (foldl_keeps g fun s a => ih a s).trans ((count ..).trans (slot ..))
        · exact slot ..
        · exact slot ..

theorem State.valued_keeps {β : Type} (g : State → β) (slot : ∀ s h k, g (State.setSlot s h k) = g s)
    (count : ∀ s k, g (State.uncount s k) = g s) (s : State) (h : BitVec 32) (t : Ts) : g (s.valued h t) = g s := by
  unfold State.valued
  exact (foldl_keeps g fun s a => State.dropRef_keeps g slot count 130 a s).trans ((count ..).trans (slot ..))

theorem State.uncount_ctx_wait (s : State) (k : HSlot) (c : CtxId) : ((s.uncount k).ctx c).wait = (s.ctx c).wait := by
  unfold State.uncount
  split
  · rw [State.ctx_mapCtx]
    split <;> rfl
  · rfl

theorem State.valued_demands (s : State) (h : BitVec 32) (t : Ts) : (s.valued h t).demands = s.demands :=
  State.valued_keeps State.demands (fun _ _ _ => rfl) (fun s k => by unfold State.uncount; split <;> rfl) s h t

theorem State.valued_times (s : State) (h : BitVec 32) (t : Ts) : (s.valued h t).times = s.times :=
  State.valued_keeps State.times (fun _ _ _ => rfl) (fun s k => by unfold State.uncount; split <;> rfl) s h t

theorem State.valued_wait (s : State) (h : BitVec 32) (t : Ts) (c : CtxId) : ((s.valued h t).ctx c).wait = (s.ctx c).wait :=
  State.valued_keeps (fun s => (s.ctx c).wait) (fun _ _ _ => rfl) (fun s k => State.uncount_ctx_wait s k c) s h t

/-! ## Demands that end together (R246) -/

section Resolve
variable {s : State} {h : BitVec 32} {t : Ts} {tile : Tile} {x : Demand} {c : CtxId}

/-- The innermost frame of a demand waits for the evaluation of a handle, or has ended it. -/
def Demand.hit (h : BitVec 32) (d : Demand) : Bool :=
  match d.frames with
  | f :: _ => resolves h f
  | [] => false

theorem Demand.hit_iff : x.hit h = true ↔
    ∃ r, x.frames = (h, .waiting) :: r ∨ ∃ t f, x.frames = (h, .ended t f) :: r := by
  obtain ⟨owner, at_, queue, fork, frames, work⟩ := x
  unfold Demand.hit
  dsimp only
  match frames with
  | [] => simp
  | (g, st) :: r => cases st <;> simp [resolves, eq_comm]

/-- The demands as an evaluation's end leaves them. -/
def Demand.after (h : BitVec 32) (t : Ts) (tile : Tile) (d : Demand) : Option Demand :=
  if d.hit h then d.reached t tile else some d

/-- The waits that the end of a demand ends. -/
def Wait.onDemand : Wait → Bool
  | .demand _ | .work _ | .arrears _ _ => true
  | _ => false

/-- A context that waits for a demand takes its end up. -/
def Context.granted (t : Ts) (tile : Tile) (f : Option Trap) (k : Context) : Context :=
  if k.wait.onDemand then { k with grant := .demanded t tile f } else k

theorem Context.granted_granted (t : Ts) (tile : Tile) (f : Option Trap) (k : Context) :
    (k.granted t tile f).granted t tile f = k.granted t tile f := by
  unfold Context.granted
  by_cases h : k.wait.onDemand = true <;> simp [h]

theorem State.grantDemand_some (s : State) (c : CtxId) (f : Option Trap) :
    s.grantDemand (some c) t tile f = s.mapCtx c (Context.granted t tile f) := by
  unfold State.grantDemand
  refine congrArg (s.mapCtx c) (funext fun k => ?_)
  unfold Context.granted
  cases k.wait <;> rfl

theorem State.grantDemand_ctx (s : State) (o : Option CtxId) (f : Option Trap) (c : CtxId) : (s.grantDemand o t tile f).ctx c =
    if o = some c then (s.ctx c).granted t tile f else s.ctx c := by
  cases o with
  | none => rfl
  | some o =>
    rw [State.grantDemand_some, State.ctx_mapCtx]
    by_cases ho : c = o
    · rw [if_pos ho, if_pos (by rw [ho])]
    · rw [if_neg ho, if_neg fun e => ho (Option.some.inj e).symm]

/-- Every demand that ends goes to its context, and to no other. -/
theorem grantDemands_ctx (l : List Demand) (s : State) (c : CtxId) :
    (l.foldl (fun s d => s.grantDemand d.owner t tile none) s).ctx c =
      if ∃ d ∈ l, d.owner = some c then (s.ctx c).granted t tile none else s.ctx c := by
  induction l generalizing s with
  | nil => simp
  | cons d r ih =>
    rw [List.foldl_cons, ih, State.grantDemand_ctx]
    by_cases hd : d.owner = some c
    · rw [if_pos hd, if_pos (c := ∃ x ∈ d :: r, x.owner = some c) ⟨d, List.mem_cons_self, hd⟩, Context.granted_granted, ite_self]
    · rw [if_neg hd]
      refine if_congr ?_ rfl rfl
      simp [hd]

/-- What the end of an evaluation leaves beside contexts and demands. -/
theorem State.resolve_form (s : State) (h : BitVec 32) (t : Ts) (tile : Tile) :
    (s.resolve h t tile).clusters = s.clusters ∧ (s.resolve h t tile).times = s.times ∧
      (s.resolve h t tile).demands = s.demands.filterMap (Demand.after h t tile) ∧
      ∀ c, (s.resolve h t tile).ctx c =
        if ∃ d ∈ s.demands, (d.hit h = true ∧ d.reached t tile = none) ∧ d.owner = some c then (s.ctx c).granted t tile none
        else s.ctx c := by
  let ends := s.demands.filter fun d => d.hit h && (d.reached t tile).isNone
  let left : State := { s with demands := s.demands.filterMap (Demand.after h t tile) }
  have form : s.resolve h t tile = ends.foldl (fun s d => s.grantDemand d.owner t tile none) left := rfl
  have kept {β : Type} (g : State → β) (hg : ∀ s o, g (State.grantDemand s o t tile none) = g s) :
      g (s.resolve h t tile) = g left := by
    rw [form]
    exact foldl_keeps g fun s (d : Demand) => hg s d.owner
  refine ⟨kept State.clusters fun s o => by cases o <;> rfl, kept State.times fun s o => by cases o <;> rfl,
    kept State.demands fun s o => by cases o <;> rfl, fun c => ?_⟩
  rw [form, grantDemands_ctx]
  refine if_congr (exists_congr fun d => ?_) rfl rfl
  rw [List.mem_filter, Bool.and_eq_true, Option.isNone_iff_eq_none, and_assoc]

end Resolve

end Sys2Proof.Machine
end


section
/-! PROOFS. The end of an evaluation and the start of a spark (O35). -/

namespace Sys2Proof.Machine

section Complete
variable {s : State} {p i : Nat} {slot : BitVec 11} {d : Demand} {h : BitVec 32} {t : Ts} {f : Option Trap}
  {rest : List (BitVec 32 × FrameState)}

/-- The end that the innermost frame of a demand has reached for a handle. -/
def Demand.ended (h : BitVec 32) (d : Demand) : Option (Ts × Option Trap) :=
  match d.frames with
  | (g, .ended t f) :: _ => if g = h then some (t, f) else none
  | _ => none

theorem Demand.ended_eq (frames : d.frames = (h, .ended t f) :: rest) : d.ended h = some (t, f) := by
  rw [Demand.ended, frames]
  exact if_pos rfl

theorem Demand.ended_isSome (x : Demand) (hx : (x.ended h).isSome = true) : ∃ u e r, x.frames = (h, .ended u e) :: r := by
  unfold Demand.ended at hx
  split at hx
  · next g t f r frames =>
    split at hx
    · next same => exact ⟨t, f, r, by rw [frames, same]⟩
    · cases hx
  · cases hx

/-- The first demand that has ended the evaluation of a handle. -/
theorem findIdx_ended (hd : s.demands[i]? = some d) (frames : d.frames = (h, .ended t f) :: rest)
    (first : ∀ j x g u e r, j < i → s.demands[j]? = some x → x.frames = (g, .ended u e) :: r → g ≠ h) :
    s.demands.findIdx? (fun d => (d.ended h).isSome) = some i := by
  rw [List.findIdx?_eq_some_iff_getElem]
  obtain ⟨hi, e⟩ := List.getElem?_eq_some_iff.mp hd
  refine ⟨hi, by rw [e, Demand.ended_eq frames]; rfl, fun j hj => ?_⟩
  rw [Bool.not_eq_true]
  by_contra some_
  obtain ⟨u, e, r, hx⟩ := Demand.ended_isSome _ (Bool.not_eq_false _ ▸ some_)
  exact first j _ h u e r hj (List.getElem?_eq_getElem _) hx rfl

theorem State.evaluationComplete_eq (s : State) (p : Nat) (slot : BitVec 11) : s.evaluationComplete p slot =
    match s.demands.findIdx? fun d => (d.ended (s.handle p slot)).isSome with
    | none => s
    | some i =>
      match s.demands[i]?, (s.demands[i]?).bind (Demand.ended (s.handle p slot)) with
      | some d, some (_, some f) => s.failDemand i d f
      | some _, some (t, none) => (s.valued (s.handle p slot) t).resolve (s.handle p slot) t (s.slotAt (s.handle p slot)).tile
      | _, _ => s := rfl

/-- An evaluation that has ended in VALUE. -/
theorem State.evaluationComplete_valued (hh : h = s.handle p slot) (hd : s.demands[i]? = some d)
    (frames : d.frames = (h, .ended t none) :: rest)
    (first : ∀ j x g u e r, j < i → s.demands[j]? = some x → x.frames = (g, .ended u e) :: r → g ≠ h) :
    s.evaluationComplete p slot = (s.valued h t).resolve h t (s.slotAt h).tile := by
  rw [State.evaluationComplete_eq, ← hh, findIdx_ended hd frames first]
  dsimp only
  rw [hd, Option.bind_some, Demand.ended_eq frames]

/-- An evaluation that has ended in a fault. -/
theorem State.evaluationComplete_fails {e : Trap} (hh : h = s.handle p slot) (hd : s.demands[i]? = some d)
    (frames : d.frames = (h, .ended t (some e)) :: rest)
    (first : ∀ j x g u e r, j < i → s.demands[j]? = some x → x.frames = (g, .ended u e) :: r → g ≠ h) :
    s.evaluationComplete p slot = s.failDemand i d e := by
  rw [State.evaluationComplete_eq, ← hh, findIdx_ended hd frames first]
  dsimp only
  rw [hd, Option.bind_some, Demand.ended_eq frames]

/-- The innermost frame of a demand waits for a handle's evaluation by another. -/
def Demand.waitsFor (h : BitVec 32) (d : Demand) : Bool :=
  match d.frames with
  | (g, .waiting) :: _ => decide (g = h)
  | _ => false

theorem Demand.waitsFor_iff (d : Demand) : d.waitsFor h = true ↔ ∃ r, d.frames = (h, .waiting) :: r := by
  obtain ⟨owner, at_, queue, fork, frames, work⟩ := d
  unfold Demand.waitsFor
  dsimp only
  match frames with
  | [] => simp
  | (g, st) :: r => cases st <;> simp

theorem State.failAll_cons (e : Trap) (n : Nat) (h : BitVec 32) (r : List (BitVec 32)) (s : State) :
    s.failAll e (n + 1) (h :: r) =
      (((s.unevaluate h).demands.filter (Demand.waitsFor h)).foldl (fun (s : State) (d : Demand) => s.grantDemand d.owner 0 {} (some e))
        { s.unevaluate h with demands := (s.unevaluate h).demands.filter (not ∘ Demand.waitsFor h) }).failAll e n
        (r ++ ((s.unevaluate h).demands.filter (Demand.waitsFor h)).flatMap fun (d : Demand) => (d.frames.filter fun f => f.2.own).map (·.1)) := by
  rw [State.failAll]
  dsimp only
  rw [List.partition_eq_filter_filter]
  rfl

theorem State.failAll_nil (e : Trap) (n : Nat) (s : State) : s.failAll e n [] = s := by cases n <;> rfl

/-- A fault of a thunk that no demand waits for reaches no other. -/
theorem State.failAll_alone {e : Trap} {n : Nat} {v : State} (hv : s.unevaluate h = v)
    (alone : ∀ x ∈ v.demands, x.waitsFor h = false) : s.failAll e (n + 1) [h] = v := by
  have hit : v.demands.filter (Demand.waitsFor h) = [] := List.filter_eq_nil_iff.mpr fun x hx => by simp [alone x hx]
  have rest : v.demands.filter (not ∘ Demand.waitsFor h) = v.demands :=
    List.filter_eq_self.mpr fun x hx => by simp [alone x hx]
  rw [State.failAll_cons, hv, hit, rest]
  exact State.failAll_nil e n v

/-- A thunk whose evaluation faults is suspended again; no other demand waits for it (R246). -/
theorem State.failDemand_last {e : Trap} (frames : d.frames = [(h, .ended t f)])
    (state : (s.slotAt h).state = .evaluating) (spent : (s.slotAt h).spent = false) (strict : (s.slotAt h).strict = false)
    (alone : ∀ x ∈ s.demands, ∀ r, x.frames ≠ (h, .waiting) :: r) :
    s.failDemand i d e = (({ s with demands := s.demands.eraseIdx i } : State).grantDemand d.owner 0 {} (some e)).setSlot h
      { s.slotAt h with state := .suspended, owner := none } := by
  let u := ({ s with demands := s.demands.eraseIdx i } : State).grantDemand d.owner 0 {} (some e)
  have slot : u.slotAt h = s.slotAt h := by
    cases ho : d.owner <;> simp only [u, ho] <;> rfl
  have demands : u.demands = s.demands.eraseIdx i := by
    cases ho : d.owner <;> simp only [u, ho] <;> rfl
  have again : u.unevaluate h = u.setSlot h { s.slotAt h with state := .suspended, owner := none } := by
    unfold State.unevaluate
    dsimp only
    rw [slot, if_neg (not_not.mpr state), if_neg (by simp [spent, strict])]
  have mine : d.frames.filter (fun f => f.2.own) = [(h, .ended t f)] := by
    rw [frames]
    rfl
  have apart : ∀ x ∈ u.demands, x.waitsFor h = false := by
    rw [demands]
    intro x hx
    rw [Bool.eq_false_iff, Ne, Demand.waitsFor_iff]
    rintro ⟨r, hr⟩
    exact alone x (List.mem_of_mem_eraseIdx hx) r hr
  rw [State.failDemand, mine]
  exact State.failAll_alone again apart

end Complete

end Sys2Proof.Machine
end


section
/-! PROOFS. The teller serves demands and sparks, and ends evaluations (O35). -/

namespace Sys2Proof.Machine

section Marked
variable {s : State} {p i : Nat} {d : Demand} {h : BitVec 32} {rest : List (BitVec 32 × FrameState)}

/-- An argument for which a marked thunk does not wait (R241, R246). -/
theorem find_args_none (k : HSlot) (ready : ∀ a ∈ k.args, a = 0 ∨ k.strict = true ∨ ∃ x, s.slotOf a = some x ∧ x.state = .value) :
    k.args.find? (fun a => a ≠ 0 ∧ k.strict = false ∧ (s.slotOf a).all (·.state ≠ .value)) = none := by
  rw [List.find?_eq_none]
  intro a ha
  rw [decide_eq_true_iff]
  rintro ⟨some_, lazily, waits⟩
  obtain zero | strict | ⟨x, hx, value⟩ := ready a ha
  · exact some_ zero
  · rw [lazily] at strict
    cases strict
  · rw [hx] at waits
    simp [value] at waits

theorem find_args_lazily (k : HSlot) (lazily : k.strict = false) :
    k.args.find? (fun a => a ≠ 0 ∧ k.strict = false ∧ (s.slotOf a).all (·.state ≠ .value)) =
      k.args.find? fun a => a ≠ 0 ∧ (s.slotOf a).all (·.state ≠ .value) := by
  simp only [lazily, true_and]

/-- A routine thunk begins on a context (R34, R249). -/
theorem beginRoutine_form {c : CtxId} {entry : Word} {args : List Word} {pts : Ts} {b : Option (Nat × BitVec 11)}
    (h : pcOk entry = true) : ∃ k : Context, s.beginRoutine c entry args pts b = s.setCtx c k ∧ k.run = .running ∧ k.pc = entry ∧
      k.pts = pts ∧ k.borrowed = b ∧
      ∀ n (r : XReg), r.toNat = 4 + n → k.regs.x[r.toNat] = args.getD n 0 := by
  refine ⟨_, if_pos h, rfl, rfl, rfl, rfl, fun n r hr => ?_⟩
  have lt : 4 + n < 64 := hr ▸ r.isLt
  simp only [hr]
  refine (fillX_getElem args _ 4 n lt).trans (congrArg _ ?_)
  rw [Vector.getElem_set_ne _ _ (by omega), Vector.getElem_set_ne _ _ (by omega)]
  exact Vector.getElem_replicate ..

end Marked

section Serve
variable {s t : State} {p i : Nat} {d : Demand} {h : BitVec 32} {rest : List (BitVec 32 × FrameState)}

/-- The end of a demand assigns no timestamp. -/
theorem State.FloorAllows.ends (hf : s.FloorAllows t) (l : List Demand) (o : Option CtxId) (time : Ts) (tile : Tile) (f : Option Trap) :
    s.FloorAllows (({ t with demands := l } : State).grantDemand o time tile f) :=
  State.FloorAllows.grantDemand (t := { t with demands := l }) (hf.of_times rfl) ..

theorem Engine.room_eq {e : Engine} {q : Nat} (h : (SMap.at e.queues [] q).length < 16) : e.room q = true := decide_eq_true h

theorem State.argTiles_map (s : State) (k : HSlot) : (s.argTiles k).map (·.2) =
    (k.args.filter (· ≠ 0)).map fun a => (s.slotAt a).tile.at_ (hCluster a) (s.slotAt a).tile.off := by
  rw [State.argTiles, List.map_map]
  rfl

theorem State.slotAt_of_slotOf {k : HSlot} (hk : s.slotOf h = some k) : s.slotAt h = k := by
  unfold State.slotOf at hk
  dsimp only at hk
  split at hk
  · exact Option.some.inj hk
  · cases hk

/-- The home of a slot's handle. -/
theorem hCluster_handle (s : State) (cluster : BitVec 10) (slot : BitVec 11) : hCluster (s.handle cluster.toNat slot) = cluster.toNat := by
  have slotLt := slot.isLt
  have genLt := (SMap.at (s.cluster cluster.toNat).slots {} slot.toNat).gen.isLt
  rw [hCluster, State.handle, BitVec.ofNat_toNat, BitVec.setWidth_eq, BitVec.toNat_append, BitVec.toNat_append,
    ← Nat.shiftLeft_add_eq_or_of_lt slotLt, ← Nat.shiftLeft_add_eq_or_of_lt genLt, Nat.shiftLeft_eq, Nat.shiftLeft_eq]
  omega

end Serve

section Complete
variable {s : State} {h : BitVec 32} {t : Ts} {tile : Tile} {x : Demand}

theorem Demand.after_hit (hit : x.hit h = true) : x.after h t tile = x.reached t tile := if_pos hit

/-- A demand that does not wait for an evaluation stays through its end. -/
theorem State.mem_resolve_other (hx : x ∈ s.demands) (hit : ¬ x.hit h = true) : x ∈ (s.resolve h t tile).demands := by
  obtain ⟨-, -, demands, -⟩ := s.resolve_form h t tile
  rw [demands, List.mem_filterMap]
  exact ⟨x, hx, if_neg hit⟩

/-- A demand that waits for an evaluation goes on at its end. -/
theorem State.mem_resolve_hit {y : Demand} (hx : x ∈ s.demands) (hit : x.hit h = true) (reached : x.reached t tile = some y) :
    y ∈ (s.resolve h t tile).demands := by
  obtain ⟨-, -, demands, -⟩ := s.resolve_form h t tile
  rw [demands, List.mem_filterMap]
  exact ⟨x, hx, (Demand.after_hit hit).trans reached⟩

end Complete

section Spark
variable {s : State} {p : Nat} {h : BitVec 32} {pts : Ts} {q : BitVec 6} {r : List (BitVec 32 × Ts × BitVec 6)} {k : HSlot}
  (on : s.tellerOn p = true) (idle : s.tellerStep p s.demandOrder = none) (sparks : (s.cluster p).sparks = (h, pts, q) :: r)
include on idle

/-- No demand has an operation ready at the teller, which works. -/
theorem teller_idle : ¬ (!s.tellerOn p || (s.tellerStep p s.demandOrder).isSome) = true := by
  rw [on, idle]
  exact Bool.false_ne_true

include sparks

theorem sparkStart_stale (hk : s.slotOf h = none) : s.sparkStart p = s.mapCluster p fun u => { u with sparks := r } := by
  rw [State.sparkStart, if_neg (teller_idle on idle), sparks]
  dsimp only
  rw [hk]

theorem sparkStart_dropped (hk : s.slotOf h = some k) (state : (s.slotAt h).state ≠ .suspended) :
    s.sparkStart p = s.mapCluster p fun u => { u with sparks := r } := by
  rw [State.slotAt_of_slotOf hk] at state
  rw [State.sparkStart, if_neg (teller_idle on idle), sparks]
  dsimp only
  rw [hk]
  exact if_pos state

theorem sparkStart_waits (hk : s.slotOf h = some k) (state : k.state = .suspended)
    (full : (k.routine && (s.freeContexts p).isEmpty) = true) : s.sparkStart p = s := by
  rw [State.sparkStart, if_neg (teller_idle on idle), sparks]
  dsimp only
  rw [hk]
  exact (if_neg (not_not.mpr state)).trans (if_pos full)

theorem sparkStart_starts (hk : s.slotOf h = some k) (state : k.state = .suspended)
    (free : (k.routine && (s.freeContexts p).isEmpty) = false) :
    s.sparkStart p = { s.mapCluster p (fun u => { u with sparks := r }) with demands := s.demands ++
      [{ owner := none, at_ := s.clock, queue := q, fork := pts, frames := [(h, .open)] }] } := by
  rw [State.sparkStart, if_neg (teller_idle on idle), sparks]
  dsimp only
  rw [hk]
  exact (if_neg (not_not.mpr state)).trans (if_neg (by rw [free]; exact Bool.false_ne_true))

end Spark

/-- Settles O35: the steps of a demand, the end of an evaluation, and sparks; the elements are those of the operations. -/
theorem tellerEvaluates : Obligations.TellerEvaluates := by
  unfold Obligations.TellerEvaluates
  refine ⟨operationsOfTheTeller, ?_⟩
  intro cluster i d more h st rest s p step served queue8 ends
  have serve (is : served) {t : State} (run : (demandStep p i).run s = .ok () t) (hf : s.FloorAllows t) : exec step s = .next t :=
    tellerOperation_serves is.1 is.2.1 run hf
  have timeless {t : State} (e : t.times = s.times) : s.FloorAllows t := State.floorAllows_of_times e
  refine ⟨?_, ?_, ?_, ?_⟩
  · intro is frames home k at_ args tiles res fork
    obtain ⟨-, -, hd, now, hs⟩ := id is
    have look (e : st = .open) : (demandStep p i).run s = (lookAt i d h rest).run s := by
      subst e
      exact demandStep_open hd now frames home hs
    refine ⟨?_, ?_, ?_, ?_, ?_, ?_, ?_⟩
    · intro opened hk state
      exact ⟨_, serve is ((look opened).trans (lookAt_suspended hk state)) (timeless rfl), rfl,
        congrArg HSlot.state (State.slotAt_setSlot_self ..), rfl⟩
    · intro opened hk state inner
      obtain ⟨b, r, rfl⟩ := List.exists_cons_of_ne_nil inner
      refine serve is ((look opened).trans ((lookAt_value hk state).trans ?_)) (timeless rfl)
      rw [State.reached_some (Demand.reached_inner frames)]
      rfl
    · rintro opened hk state rfl work
      refine serve is ((look opened).trans ((lookAt_value hk state).trans ?_)) (State.FloorAllows.ends (t := s) (timeless rfl) ..)
      rw [State.reached_none (Demand.reached_last frames work)]
    · rintro opened hk rfl
      refine serve is ((look opened).trans ((lookAt_stale hk).trans ?_)) (State.FloorAllows.ends (t := s) (timeless rfl) ..)
      rw [State.failDemand_open]
      rw [frames, opened]
      rfl
    · rintro w opened hk state rfl work
      refine serve is ((look opened).trans ((lookAt_value hk state).trans ?_)) (timeless rfl)
      rw [State.reached_some (Demand.reached_work frames work), home]
    · rintro a rfl lazily found
      exact serve is (demandStep_demands hd now frames home ((find_args_lazily k lazily).trans found)) (timeless rfl)
    · rintro rfl ready
      have evaluates := demandStep_evaluates hd now frames home hs (find_args_none k ready)
      have forks : s.forkTime d k = fork := s.forkTime_eq d k
      refine ⟨?_, ?_, ?_⟩
      · intro op time u routine top notMma run floor
        refine serve is (evaluates.trans (evaluate_top routine top notMma ?_)) (floor.of_times rfl)
        rw [forks]
        exact run
      · intro A B r routine top hargs room
        refine ⟨_, serve is (evaluates.trans (evaluate_mma routine top (Engine.room_eq room))) (timeless rfl), rfl, rfl, ?_⟩
        rw [forks]
        exact queue8_append ((s.argTiles_map k).trans hargs) _ rfl _ _ _
      · intro c others entry routine free hentry ok
        have run := evaluates.trans (evaluate_routine routine free)
        rw [List.getD_eq_getElem?_getD, hentry, Option.getD_some, forks] at run
        obtain ⟨k', form, running, pc, pts, borrowed, regs⟩ := beginRoutine_form (s := s.setFrames i d ((h, .running) :: rest))
          (c := c) (args := [k.argA.setWidth 64, k.argB.setWidth 64, k.argC.setWidth 64] ++ k.coord.toList)
          (pts := tsMax (s.ctx c).pts fork) (b := some (p, BitVec.ofNat 11 (hSlot h))) ok
        rw [form] at run
        refine ⟨_, serve is run (timeless rfl), rfl, fun x hx => State.ctx_setCtx_ne _ _ hx, ?_⟩
        rw [State.ctx_setCtx_self]
        exact ⟨running, pc, pts, borrowed, fun n r hr _ => regs n r hr⟩
  · intro w is frames work home fresh tiles
    obtain ⟨-, -, hd, now, hs⟩ := id is
    have goes := demandStep_work (p := p) hd now frames work
    refine ⟨fun a r left => ?_, fun left op => ?_, fun op rm res time u left hop notMma run floor => ?_,
      fun rm res A B r c left hop hargs owner room => ?_⟩
    · exact serve is (goes.trans (workStep_demands home fresh left)) (timeless rfl)
    · exact serve is (goes.trans (workStep_ends home fresh left op)) (State.FloorAllows.ends (t := s) (timeless rfl) ..)
    · exact serve is (goes.trans (workStep_top home fresh left hop notMma run)) (floor.ends ..)
    · have run := goes.trans (workStep_mma home fresh left hop (Engine.room_eq room))
      have ctx : (s.evalThread p d).ctx = c := by
        rw [State.evalThread, owner]
        rfl
      rw [ctx] at run
      refine ⟨_, serve is run (timeless rfl), rfl, rfl, ?_⟩
      exact queue8_append ((List.map_map ..).trans hargs) _ rfl _ _ _
  · intro slot t f hh hd frames first k
    refine ⟨?_, ?_⟩
    · rintro rfl valued counted dropped waits
      have same : dropped = s.valued h t := rfl
      clear_value dropped
      subst same
      have hits (x : Demand) : x.hit h = true ↔ waits x := Demand.hit_iff
      have demands := s.valued_demands h t
      obtain ⟨clusters, times, -, ctx⟩ := (s.valued h t).resolve_form h t k.tile
      rw [demands] at ctx
      refine ⟨(s.valued h t).resolve h t k.tile, ?_, clusters, fun x hx other => ?_, fun x hx g b r hf waits => ?_,
        fun x hx g w hf waits work => ?_, fun x hx g c a hf waits work owner wait => ?_, fun c other => ?_⟩
      · change execEvaluationComplete cluster slot s = _
        exact happen_modify_timeless (State.evaluationComplete_valued hh hd frames first) (times.trans (s.valued_times h t))
      · exact State.mem_resolve_other (demands ▸ hx) (mt (hits x).mp other)
      · exact State.mem_resolve_hit (demands ▸ hx) ((hits x).mpr waits) (Demand.reached_inner hf)
      · refine State.mem_resolve_hit (demands ▸ hx) ((hits x).mpr waits) ((Demand.reached_work hf work).trans ?_)
        rw [hh, hCluster_handle]
      · rw [ctx, if_pos ⟨x, hx, ⟨(hits x).mpr waits, Demand.reached_last hf work⟩, owner⟩]
        refine if_pos ?_
        rw [s.valued_wait, wait]
        rfl
      · rw [ctx, if_neg]
        rintro ⟨x, hx, ⟨hit, -⟩, owner⟩
        exact other x hx ((hits x).mp hit) owner
    · rintro e rfl rfl state spent strict alone
      change execEvaluationComplete cluster slot s = _
      have form := (State.evaluationComplete_fails hh hd frames first).trans (State.failDemand_last frames state spent strict alone)
      exact happen_modify_goes form ((State.FloorAllows.ends (t := s) (timeless rfl) ..).of_times rfl)
  · intro pts q r on idle sparks popped
    have starts {t : State} (e : s.sparkStart p = t) (ht : t.times = s.times) : exec (.sparkStart cluster) s = .next t := by
      change execSparkStart cluster s = _
      exact happen_modify_timeless e ht
    refine ⟨fun k hk state free => starts (sparkStart_starts on idle sparks hk state ?_) rfl,
      fun k hk state routine none => starts (sparkStart_waits on idle sparks hk state (by rw [routine, none]; rfl)) rfl,
      fun stale => starts ?_ rfl⟩
    · rw [Bool.and_eq_false_iff]
      exact free.imp_right fun ne => by rwa [List.isEmpty_eq_false_iff]
    · cases hk : s.slotOf h with
      | none => exact sparkStart_stale on idle sparks hk
      | some k =>
        refine sparkStart_dropped on idle sparks hk (stale.resolve_left fun e => ?_ : _ ≠ _)
        rw [hk] at e
        cases e

end Sys2Proof.Machine
end
